-- ==== Sys2Proof/Word.lean ====
section
/-! DEFINITION. The bit-vector types of the Damwin part (R2, R3, R14, R16) and their plainest names. -/

namespace Sys2Proof

/-- A dword: the width of the x registers, the PC, the CSRs and addresses (R3). -/
abbrev Word := BitVec 64

/-- The 512 bits of a v register or of a 64-byte block (R3, R16). -/
abbrev VWord := BitVec 512

/-- A byte (R3). -/
abbrev Byte := BitVec 8

/-- The bits of a binary32 number (R213). -/
abbrev F32 := BitVec 32

/-- The bits of a bfloat16 number (R213). -/
abbrev BF16 := BitVec 16

/-- A 5-bit register field: names an x or a v register (R14). -/
abbrev Reg := BitVec 5

/-- A mask register number m0 to m7 (R21). -/
abbrev MReg := BitVec 3

/-- A queue handle q0 to q15 (R175). -/
abbrev QReg := BitVec 4

/-- An element type code (R16). -/
abbrev EType := BitVec 3

/-- A field name[hi:lo] of a dword (R2), as a number. -/
def fieldOf (w : Word) (hi lo : Nat) : Nat := (w.toNat >>> lo) % 2 ^ (hi + 1 - lo)

/-- The number with bits [hi:lo] replaced by `v` (R2). -/
def withField (w : Word) (hi lo : Nat) (v : Nat) : Word :=
  let m := (2 ^ (hi + 1 - lo) - 1) <<< lo
  (w &&& ~~~(BitVec.ofNat 64 m)) ||| (BitVec.ofNat 64 ((v % 2 ^ (hi + 1 - lo)) <<< lo))

end Sys2Proof
end

