-- ==== Sys2Proof/Machine/Hash.lean ====
section
/-! DEFINITION. The Chicory-128 hash (R276, R277). -/

namespace Sys2Proof.Machine

/-- K1 and K2 of R277. -/
def chicK1 : Word := 0x9E3779B97F4A7C15#64
def chicK2 : Word := 0xC2B2AE3D27D4EB4F#64

/-- One word of the stream (R277). -/
def chicStep (ab : Word × Word) (w : Word) : Word × Word :=
  (((ab.1 ^^^ w).rotateLeft 31) * chicK1, ((ab.2 + w).rotateLeft 27) * chicK2)

/-- Lanes a and b of the hash of some words (R277). -/
def chicory128 (ws : List Word) : Word × Word :=
  let (a, b) := ws.foldl chicStep (0x243F6A8885A308D3#64, 0x13198A2E03707344#64)
  let a := a ^^^ (b >>> 29)
  let b := b ^^^ (a >>> 32)
  let a := a * chicK2
  let b := b * chicK1
  let a := a ^^^ (a >>> 32)
  let b := b ^^^ (b >>> 29)
  (a, b)

/-- The 128 bits, lane a in bits 63:0. -/
def chicHash (ws : List Word) : BitVec 128 :=
  let (a, b) := chicory128 ws
  b ++ a

/-- Bytes as little-endian words, the last padded with zeros (R276). -/
def wordsLE : Nat → List (BitVec 8) → List Word
  | 0, _ => []
  | n + 1, bs =>
    match bs with
    | [] => []
    | _ => BitVec.ofNat 64 ((bs.take 8).foldr (fun b a => b.toNat + 256 * a) 0) :: wordsLE n (bs.drop 8)

/-- A run of bytes of R276. -/
def runWords (bs : List (BitVec 8)) : List Word := wordsLE (bs.length / 8 + 1) bs

end Sys2Proof.Machine
end

