-- ==== Sys2Proof/Machine/Flags.lean ====
section
/-! DEFINITION. The sticky flags of RCLASS (R220), as the three bits 10:8 of the register. -/

namespace Sys2Proof.Machine

/-- Bit 0 PSN, bit 1 FMT, bit 2 NAR: RCLASS[10:8] (R220). -/
abbrev Sticky := BitVec 3

/-- A poison block was consumed, or produced from NaN or infinite values (R220). -/
def psn : Sticky := 1#3

/-- A reserved format, a scale byte 0xFF, an unordered index or a mismatched pair was consumed (R220). -/
def fmtFlag : Sticky := 2#3

/-- An LG6 NaR element was consumed (R220). -/
def nar : Sticky := 4#3

/-- A flag set on a condition. -/
def Sticky.when (c : Bool) (f : Sticky) : Sticky := if c then f else 0#3

/-- RCLASS with flags set: they stick (R220). -/
def stickyOr (rclass : Word) (f : Sticky) : Word := rclass ||| (f.setWidth 64 <<< 8)

/-- R220: RCLASS is W1C in bits 10:8: a written 1 clears. -/
def rclassW1C (rclass w : Word) : Word := rclass &&& ~~~(w &&& 0x700#64)

/-- RCLASS.CLASS (R220): 0 U, 1 D, 2 P, 3 V. -/
def rclassClass (rclass : Word) : Nat := fieldOf rclass 1 0

end Sys2Proof.Machine
end

