-- ==== Sys2Proof/Config.lean ====
section
/-! DEFINITION. What an implementation fixes, and the free values: constants without a body, of which nothing can be
proved. A statement that holds, holds whatever they are. -/

namespace Sys2Proof.Config

/-- A free choice for index `n` (notes/assumptions/4.md). -/
opaque freeNat : Nat → Nat

/-- Which of the results within its bound VEXP2 returns for an operand outside the exact cases (R226). -/
opaque exp2Pick : BitVec 32 → Nat

/-- As `exp2Pick`, for VLOG2 (R226). -/
opaque log2Pick : BitVec 32 → Nat

/-- As `exp2Pick`, for VRCP (R226). -/
opaque rcpPick : BitVec 32 → Nat

/-- As `exp2Pick`, for VRSQ (R226). -/
opaque rsqPick : BitVec 32 → Nat

/-- The set of its L2 slice a line (PA[51:6]) maps to, with the slice: two lines share a set when these agree (R117). The
manual gives no index function. -/
opaque l2Set : Nat → Nat

/-- Which of the 16 slices of its die a line is homed at (R96); the manual gives no index function. -/
opaque l2Slice : Nat → Nat

/-- Byte `i` of the attestation report where it holds a digest of the firmware image, of the manifest or of the identity keys (R319):
none of these is in the manual. -/
opaque digestByte : Nat → BitVec 8

/-- Byte `i` of the attestation report where it holds a signature over bytes 0 to 247 (R319): the keys are not in the manual. -/
opaque signByte : List (BitVec 8) → Nat → BitVec 8

/-- A measured value of PWRREAD (R320): power and energy at the 48 V input are measurements of the world. -/
opaque measuredPower : Nat → BitVec 64

/-- What a CSR reads on a core that lacks what it belongs to, by core and CSR number: HPOS, MXIDLE of a gateway, which has no
position and no cluster; the registers of a partition on a core in none (R91, R250, R306). The manual gives no value. -/
opaque absentCsr : Nat → Nat → BitVec 64

/-- 16 ways of a set of a home L2 slice (R96, R117). -/
def l2Ways : Nat := 16

/-- The core number of a compute core is its global index g, 0 to 1,023 (R5). -/
def computeCores : Nat := 1024

/-- The 18 gateway cores follow: 1024 + 9 (die - 4) + gateway number (R32). -/
def allCores : Nat := 1042

/-- RAWTOTAL of CMRAW (R286). -/
def rawTotal : Nat := 52734375

/-- The highest LPDDR 6 frame number that exists (R342). -/
def lastFrame : Nat := 1647948

/-- FEATOFF0 of this part: features 0 to 5 are offered, bits 63:6 read 0 (R316). -/
def featOff0 : BitVec 64 := 0x3F#64

/-- MXWAKE.WAKE (R250). -/
def mxWake : Nat := 180

end Sys2Proof.Config
end

