-- ==== Sys2Proof/Machine/Float.lean ====
section
/-! DEFINITION. Binary arithmetic on FP32 and BF16 by exact values and one rounding to nearest, ties to even (R211 to R213),
and the four approximating operations within their bounds (R226). A number's bits are a Nat. -/

namespace Sys2Proof.Machine

/-- A binary format: significand bits with the hidden one, the exponent of the smallest spacing, the width. -/
structure FloatFmt where
  p : Nat
  qmin : Int
  width : Nat
deriving DecidableEq, Repr

/-- FP32 (R211). -/
def f32Fmt : FloatFmt := ⟨24, -149, 32⟩

/-- BF16, the upper half of FP32 (R211). -/
def bf16Fmt : FloatFmt := ⟨8, -133, 16⟩

/-- A value: a NaN, an infinity, or sign, magnitude m × 2^e (a zero has a sign). -/
inductive FVal where
  | nan
  | inf (neg : Bool)
  | fin (neg : Bool) (m : Nat) (e : Int)
deriving DecidableEq, Repr

/-- The bit pattern of +∞, which is also the least magnitude that overflows. -/
def FloatFmt.infBits (f : FloatFmt) : Nat := 255 * 2 ^ (f.p - 1)

/-- The sign bit. -/
def FloatFmt.signBit (f : FloatFmt) : Nat := 2 ^ (f.width - 1)

/-- The canonical NaN: 0x7FC0_0000, 0x7FC0 (R213). -/
def FloatFmt.nanBits (f : FloatFmt) : Nat := f.infBits + 2 ^ (f.p - 2)

/-- The magnitude bits. -/
def FloatFmt.mag (f : FloatFmt) (b : Nat) : Nat := b % f.signBit

/-- The sign. -/
def FloatFmt.neg (f : FloatFmt) (b : Nat) : Bool := b / f.signBit % 2 == 1

/-- Bits with a sign put on. -/
def FloatFmt.withSign (f : FloatFmt) (neg : Bool) (mag : Nat) : Nat := if neg then f.signBit + mag else mag

/-- Whether the bits are a NaN. -/
def FloatFmt.isNaN (f : FloatFmt) (b : Nat) : Bool := f.infBits < f.mag b

/-- Whether the bits are an infinity. -/
def FloatFmt.isInf (f : FloatFmt) (b : Nat) : Bool := f.mag b == f.infBits

/-- The value the bits stand for. -/
def FloatFmt.value (f : FloatFmt) (b : Nat) : FVal :=
  let m := f.mag b
  if f.infBits < m then .nan
  else if m = f.infBits then .inf (f.neg b)
  else
    let be := m / 2 ^ (f.p - 1)
    let fr := m % 2 ^ (f.p - 1)
    if be = 0 then .fin (f.neg b) fr f.qmin
    else .fin (f.neg b) (fr + 2 ^ (f.p - 1)) (f.qmin + (be - 1 : Nat))

/-- m / 2^k rounded to nearest, ties to even. -/
def rneShift (m k : Nat) : Nat :=
  if k = 0 then m
  else
    let q := m / 2 ^ k
    let r := m % 2 ^ k
    let half := 2 ^ (k - 1)
    if half < r ∨ (r = half ∧ q % 2 = 1) then q + 1 else q

/-- n / d rounded to nearest, ties to even. -/
def rneDiv (n d : Nat) : Nat :=
  let q := n / d
  let r := n % d
  if d < 2 * r ∨ (d = 2 * r ∧ q % 2 = 1) then q + 1 else q

/-- The number of bits of a Nat. -/
def bitLen (m : Nat) : Nat := if m = 0 then 0 else Nat.log2 m + 1

/-- The magnitude bits of m × 2^e rounded (R213); at or above `infBits` it is an infinity. -/
def FloatFmt.roundMag (f : FloatFmt) (m : Nat) (e : Int) : Nat :=
  if m = 0 then 0
  else
    let q := max (e + (bitLen m : Int) - (f.p : Int)) f.qmin
    let m' := if q ≤ e then m * 2 ^ (e - q).toNat else rneShift m (q - e).toNat
    min ((q - f.qmin).toNat * 2 ^ (f.p - 1) + m') f.infBits

/-- rne of a value (R213). -/
def FloatFmt.round (f : FloatFmt) : FVal → Nat
  | .nan => f.nanBits
  | .inf n => f.withSign n f.infBits
  | .fin n m e => f.withSign n (f.roundMag m e)

/-- The exact product of two values (R213). -/
def FVal.mul : FVal → FVal → FVal
  | .nan, _ => .nan
  | _, .nan => .nan
  | .inf a, .inf b => .inf (a != b)
  | .inf a, .fin b m _ => if m = 0 then .nan else .inf (a != b)
  | .fin a m _, .inf b => if m = 0 then .nan else .inf (a != b)
  | .fin a m e, .fin b m' e' => .fin (a != b) (m * m') (e + e')

/-- The integer of a signed magnitude, scaled to exponent `q`, where q ≤ e. -/
def scaled (n : Bool) (m : Nat) (e q : Int) : Int :=
  let v : Int := (m * 2 ^ (e - q).toNat : Nat)
  if n then -v else v

/-- The exact sum of two values; an exact zero is −0 only where both are −0 or negative zero products (R213). -/
def FVal.add : FVal → FVal → FVal
  | .nan, _ => .nan
  | _, .nan => .nan
  | .inf a, .inf b => if a = b then .inf a else .nan
  | .inf a, .fin _ _ _ => .inf a
  | .fin _ _ _, .inf b => .inf b
  | .fin a m e, .fin b m' e' =>
    let q := min e e'
    let s := scaled a m e q + scaled b m' e' q
    if s = 0 then .fin (a && b && m == 0 && m' == 0) 0 q
    else .fin (s < 0) s.natAbs q

/-- The value with its sign inverted. -/
def FVal.negate : FVal → FVal
  | .nan => .nan
  | .inf n => .inf !n
  | .fin n m e => .fin (!n) m e

/-- rne(a + b). -/
def fAdd (f : FloatFmt) (a b : Nat) : Nat := f.round ((f.value a).add (f.value b))

/-- rne(a − b). -/
def fSub (f : FloatFmt) (a b : Nat) : Nat := f.round ((f.value a).add (f.value b).negate)

/-- rne(a × b). -/
def fMul (f : FloatFmt) (a b : Nat) : Nat := f.round ((f.value a).mul (f.value b))

/-- rne(a × b + d), the product not rounded. -/
def fFma (f : FloatFmt) (a b d : Nat) : Nat := f.round (((f.value a).mul (f.value b)).add (f.value d))

/-- An order in which −0 lies just below +0. -/
def fKey (f : FloatFmt) (b : Nat) : Int := if f.neg b then -(f.mag b : Int) - 1 else (f.mag b : Int)

/-- The number line, on which the zeros are equal. -/
def fOrd (f : FloatFmt) (b : Nat) : Int := if f.neg b then -(f.mag b : Int) else (f.mag b : Int)

/-- VFMIN (R225). -/
def fMin (f : FloatFmt) (a b : Nat) : Nat :=
  if f.isNaN a || f.isNaN b then f.nanBits else if fKey f a ≤ fKey f b then a else b

/-- VFMAX (R225). -/
def fMax (f : FloatFmt) (a b : Nat) : Nat :=
  if f.isNaN a || f.isNaN b then f.nanBits else if fKey f b ≤ fKey f a then a else b

/-- VFABS (R225). -/
def fAbs (f : FloatFmt) (a : Nat) : Nat := if f.isNaN a then f.nanBits else f.mag a

/-- VFNEG (R225). -/
def fNeg (f : FloatFmt) (a : Nat) : Nat := if f.isNaN a then f.nanBits else f.withSign (!f.neg a) (f.mag a)

/-- IEEE comparisons: a NaN gives false, −0 equals +0 (R235). -/
def fEq (f : FloatFmt) (a b : Nat) : Bool := !f.isNaN a && !f.isNaN b && fOrd f a == fOrd f b

def fLt (f : FloatFmt) (a b : Nat) : Bool := !f.isNaN a && !f.isNaN b && fOrd f a < fOrd f b

def fLe (f : FloatFmt) (a b : Nat) : Bool := !f.isNaN a && !f.isNaN b && fOrd f a ≤ fOrd f b

/-- BF16 to FP32 appends 16 zero bits, of a NaN too (R213; notes/assumptions/20.md). -/
def bf16ToF32 (a : Nat) : Nat := a * 65536

/-- FP32 to BF16 (R213). -/
def f32ToBf16 (a : Nat) : Nat := bf16Fmt.round (f32Fmt.value a)

/-- rne of an integer in FP32. -/
def intToF32 (z : Int) : Nat := f32Fmt.round (.fin (z < 0) z.natAbs 0)

/-- rne to an integer, saturated to [−2^31, 2^31 − 1]; NaN gives 0 (R233). -/
def f32ToS32 (a : Nat) : Int :=
  match f32Fmt.value a with
  | .nan => 0
  | .inf n => if n then -2147483648 else 2147483647
  | .fin n m e =>
    let v : Nat := if 0 ≤ e then m * 2 ^ e.toNat else rneShift m (-e).toNat
    if n then max (-(v : Int)) (-2147483648) else min (v : Int) 2147483647

/-! ### VEXP2, VLOG2, VRCP, VRSQ (R226)

Outside the exact cases the result is a number of the grid of FP32 within the bound of the exact one: the grid point below
the exact result, moved by a free choice that stays within the bound. -/

/-- Fraction bits of the fixed-point numbers below. -/
def fixBits : Nat := 192

/-- ln 2 in units of 2^-192, rounded down. -/
def ln2Fix : Nat := 4350955369971217654477563090224794165364344896676135745069

/-- The Taylor series of e^y in fixed point: the sum from term `k` on, `t` the term before it. -/
def expSeries : Nat → Nat → Nat → Nat → Nat
  | 0, _, _, _ => 0
  | fuel + 1, k, t, y =>
    let t' := t * y / 2 ^ fixBits / k
    t' + expSeries fuel (k + 1) t' y

/-- 2^f for a fraction f in units of 2^-192, in the same units, rounded down. -/
def exp2Fix (f : Nat) : Nat := 2 ^ fixBits + expSeries 48 1 (2 ^ fixBits) (f * ln2Fix / 2 ^ fixBits)

/-- The next `n` bits of log2 of x, a fixed-point number from 1 up to 2: squaring yields one bit a turn. -/
def log2Bits : Nat → Nat → Nat → Nat
  | 0, _, acc => acc
  | n + 1, x, acc =>
    let y := x * x / 2 ^ fixBits
    if 2 ^ (fixBits + 1) ≤ y then log2Bits n (y / 2) (2 * acc + 1) else log2Bits n y (2 * acc)

/-- The magnitude bits of m × 2^e rounded down to the grid of FP32. -/
def floorMag (m : Nat) (e : Int) : Nat :=
  if m = 0 then 0
  else
    let q := max (e + (bitLen m : Int) - 24) (-149)
    let m' := if q ≤ e then m * 2 ^ (e - q).toNat else m / 2 ^ (q - e).toNat
    min ((q + 149).toNat * 2 ^ 23 + m') f32Fmt.infBits

/-- The grid point above the one after `fl`, where it lies within 2 ulp: past a power of two the grid is twice as wide. -/
def nextTwo (fl : Nat) : Nat := if 2 ^ 23 ≤ fl ∧ (fl + 1) % 2 ^ 23 = 0 then fl + 1 else fl + 2

/-- A grid point within 2 ulp of a result that lies just above grid point `fl`: fl − 1 to fl + 2, kept finite. -/
def pickTwo (fl pick : Nat) : Nat :=
  if f32Fmt.infBits ≤ fl then f32Fmt.infBits else min (min (fl + pick % 4 - 1) (nextTwo fl)) (f32Fmt.infBits - 1)

/-- A grid point within 1 ulp: fl or fl + 1; below 2^-126 the bound is 2 × 2^-149. -/
def pickOne (fl pick : Nat) : Nat :=
  if f32Fmt.infBits ≤ fl then f32Fmt.infBits
  else if fl < 2 ^ 23 then fl + pick % 4 - 1
  else min (fl + pick % 2) (f32Fmt.infBits - 1)

/-- Whether m is a power of two. -/
def isPow2 (m : Nat) : Bool := m != 0 && m == 2 ^ Nat.log2 m

/-- VEXP2 (R226). -/
def fExp2 (a : Nat) : Nat :=
  match f32Fmt.value a with
  | .nan => f32Fmt.nanBits
  | .inf n => if n then 0 else f32Fmt.infBits
  | .fin n m e =>
    if m = 0 then f32Fmt.round (.fin false 1 0)
    else
      -- a in units of 2^-192, rounded down; every FP32 operand of magnitude below 2^9 fits, the others are far outside
      let big : Bool := 0 ≤ e && (2 ^ 20 ≤ m * 2 ^ (min e.toNat 60))
      let v : Int := if n then -((m * 2 ^ (e + 192).toNat : Nat) : Int) else ((m * 2 ^ (e + 192).toNat : Nat) : Int)
      if big then (if n then 0 else f32Fmt.infBits)
      else
        let k := v / ((2 ^ fixBits : Nat) : Int)
        let fr := (v % ((2 ^ fixBits : Nat) : Int)).toNat
        if 128 ≤ k then f32Fmt.infBits
        else if k < -150 ∨ (k = -150 ∧ fr = 0) then 0
        else if fr = 0 then f32Fmt.round (.fin false 1 k)
        else pickTwo (floorMag (exp2Fix fr) (k - 192)) (Config.exp2Pick (BitVec.ofNat 32 a))

/-- VLOG2 (R226). -/
def fLog2 (a : Nat) : Nat :=
  match f32Fmt.value a with
  | .nan => f32Fmt.nanBits
  | .inf n => if n then f32Fmt.nanBits else f32Fmt.infBits
  | .fin n m e =>
    if m = 0 then f32Fmt.withSign true f32Fmt.infBits
    else if n then f32Fmt.nanBits
    else
      let l := Nat.log2 m
      let k : Int := e + (l : Int)
      if isPow2 m then intToF32 k
      else
        -- log2 a = k + fr × 2^-128, fr rounded down
        let fr := log2Bits 128 (m * 2 ^ (fixBits - l)) 0
        let v : Int := k * ((2 ^ 128 : Nat) : Int) + (fr : Int)
        -- below zero the grid point under the magnitude belongs to the larger result
        let mag := if v < 0 then (-v).toNat - 1 else v.toNat
        f32Fmt.withSign (v < 0) (pickTwo (floorMag mag (-128)) (Config.log2Pick (BitVec.ofNat 32 a)))

/-- VRCP (R226). -/
def fRcp (a : Nat) : Nat :=
  match f32Fmt.value a with
  | .nan => f32Fmt.nanBits
  | .inf n => f32Fmt.withSign n 0
  | .fin n m e =>
    if m = 0 then f32Fmt.withSign n f32Fmt.infBits
    else if isPow2 m then f32Fmt.withSign n (f32Fmt.roundMag 1 (-(e + (Nat.log2 m : Int))))
    else f32Fmt.withSign n (pickOne (floorMag (2 ^ 128 / m) (-e - 128)) (Config.rcpPick (BitVec.ofNat 32 a)))

/-- The integer square root, one bit of the root a turn. -/
def isqrtLoop : Nat → Nat → Nat → Nat
  | 0, _, r => r
  | k + 1, v, r => let r' := r + 2 ^ k; if r' * r' ≤ v then isqrtLoop k v r' else isqrtLoop k v r

/-- VRSQ (R226). -/
def fRsq (a : Nat) : Nat :=
  match f32Fmt.value a with
  | .nan => f32Fmt.nanBits
  | .inf n => if n then f32Fmt.nanBits else 0
  | .fin n m e =>
    if m = 0 then f32Fmt.withSign n f32Fmt.infBits
    else if n then f32Fmt.nanBits
    else
      -- m × 2^e with an even exponent
      let m' := if e % 2 = 0 then m else 2 * m
      let e' := if e % 2 = 0 then e else e - 1
      if isPow2 m' && Nat.log2 m' % 2 == 0 then f32Fmt.roundMag 1 (-(e' / 2 + ((Nat.log2 m' / 2 : Nat) : Int)))
      else pickOne (floorMag (isqrtLoop 66 (2 ^ 128 / m') 0) (-(e' / 2) - 64)) (Config.rsqPick (BitVec.ofNat 32 a))

/-- An approximating form in type `f` (R226): the bf16 result is the f32 result rounded. -/
def approx (isBf : Bool) (op : Nat → Nat) (a : Nat) : Nat := if isBf then f32ToBf16 (op (bf16ToF32 a)) else op a

end Sys2Proof.Machine
end

