-- ==== Sys2Proof/Machine/Lanes.lean ====
section
/-! DEFINITION. Lanes of a v register and the lane arithmetic of VINT, VFLT, VRED, VCVT and VCMP (R16, R224 to R236). A lane
is a Nat below 2^w. -/

namespace Sys2Proof.Machine

/-- R16: bits of an element of a type code. -/
def eltBits (t : EType) : Nat :=
  match t.toNat with
  | 0 => 8 | 1 => 16 | 2 => 32 | 3 => 64 | 4 => 8 | 5 => 32 | 6 => 16 | _ => 32

/-- Bytes of an element. -/
def eltBytes (t : EType) : Nat := eltBits t / 8

/-- R16: the lanes of a register. -/
def laneCount (t : EType) : Nat := 512 / eltBits t

/-- R224: the s types are signed. -/
def isSigned (t : EType) : Bool := t.toNat ≤ 3

/-- Types 6 and 7 (R16). -/
def isFloat (t : EType) : Bool := 6 ≤ t.toNat

/-- The format of a float type code. -/
def fmtOf (t : EType) : FloatFmt := if t.toNat = 6 then bf16Fmt else f32Fmt

/-- The element type of a VFLT code, which names types 6 and 7 by one bit (R225). -/
def fltType (t : BitVec 1) : EType := if t = 0#1 then 6#3 else 7#3

/-- Lane `i` of width `w`. -/
def lane (w : Nat) (v : VWord) (i : Nat) : Nat := v.toNat / 2 ^ (w * i) % 2 ^ w

/-- Lanes joined, lane 0 lowest. -/
def joinLanes (w : Nat) : List Nat → Nat
  | [] => 0
  | x :: xs => x % 2 ^ w + 2 ^ w * joinLanes w xs

/-- A register whose lane i, for i < n, is `f i` modulo 2^w; lanes above are 0. -/
def mkLanes (w n : Nat) (f : Nat → Nat) : VWord := BitVec.ofNat 512 (joinLanes w ((List.range n).map f))

/-- A lane read as two's complement. -/
def sval (w x : Nat) : Int := if x < 2 ^ (w - 1) then (x : Int) else (x : Int) - ((2 ^ w : Nat) : Int)

/-- An integer modulo 2^w. -/
def wrap (w : Nat) (z : Int) : Nat := (z % ((2 ^ w : Nat) : Int)).toNat

/-- A lane as an integer of its type (R224). -/
def ival (t : EType) (x : Nat) : Int := if isSigned t then sval (eltBits t) x else (x : Int)

/-- An integer saturated to the range of its type (R224). -/
def satLane (t : EType) (z : Int) : Nat :=
  let w := eltBits t
  if isSigned t then wrap w (max (-((2 ^ (w - 1) : Nat) : Int)) (min z (((2 ^ (w - 1) : Nat) : Int) - 1)))
  else wrap w (max 0 (min z (((2 ^ w : Nat) : Int) - 1)))

/-- The masked write of a register (R16): lane i of `new` where active, else the old lane. -/
def mergeLanes (w n : Nat) (active : Nat → Bool) (old : VWord) (new : Nat → Nat) : VWord :=
  mkLanes w n fun i => if active i then new i else lane w old i

/-- Whether lane i is active (R16). -/
def laneActive (mk : Bool) (m0 : BitVec 64) (i : Nat) : Bool := !mk || m0.toNat / 2 ^ i % 2 == 1

/-! ### VINT (R224) -/

/-- The lane operations. -/
inductive IntOp where
  | add | sub | mul | mulh | min | max | and | or | xor | shl | shr | sra | abs | neg | adds | subs | mad
deriving DecidableEq, Repr

/-- R224: result(f5, a, b, d). -/
def intLane (op : IntOp) (t : EType) (a b d : Nat) : Nat :=
  let w := eltBits t
  match op with
  | .add => (a + b) % 2 ^ w
  | .sub => wrap w ((a : Int) - (b : Int))
  | .mul => a * b % 2 ^ w
  | .mulh => wrap w (ival t a * ival t b / ((2 ^ w : Nat) : Int))
  | .min => if ival t a ≤ ival t b then a else b
  | .max => if ival t b ≤ ival t a then a else b
  | .and => a &&& b
  | .or => a ||| b
  | .xor => a ^^^ b
  | .shl => a * 2 ^ (b % w) % 2 ^ w
  | .shr => a / 2 ^ (b % w)
  | .sra => wrap w (sval w a / ((2 ^ (b % w) : Nat) : Int))
  | .abs => if isSigned t then wrap w (sval w a).natAbs else a
  | .neg => wrap w (-(a : Int))
  | .adds => satLane t (ival t a + ival t b)
  | .subs => satLane t (ival t a - ival t b)
  | .mad => (d + a * b) % 2 ^ w

/-! ### VFLT (R225, R226) -/

/-- The lane operations. -/
inductive FltOp where
  | add | sub | mul | fma | min | max | abs | neg | exp2 | log2 | rcp | rsq
deriving DecidableEq, Repr

/-- R225, R226. -/
def fltLane (op : FltOp) (t : EType) (a b d : Nat) : Nat :=
  let f := fmtOf t
  let bf := t.toNat == 6
  match op with
  | .add => fAdd f a b
  | .sub => fSub f a b
  | .mul => fMul f a b
  | .fma => fFma f a b d
  | .min => fMin f a b
  | .max => fMax f a b
  | .abs => fAbs f a
  | .neg => fNeg f a
  | .exp2 => approx bf fExp2 a
  | .log2 => approx bf fLog2 a
  | .rcp => approx bf fRcp a
  | .rsq => approx bf fRsq a

/-- A lane-by-lane instruction: lanes of type t of two sources and the old destination (R223). -/
def mapLanes (t : EType) (mk : Bool) (m0 : BitVec 64) (f : Nat → Nat → Nat → Nat) (a b d : VWord) : VWord :=
  let w := eltBits t
  mergeLanes w (laneCount t) (laneActive mk m0) d fun i => f (lane w a i) (lane w b i) (lane w d i)

/-! ### VRED (R232) -/

/-- The reductions. -/
inductive RedOp where
  | sum | max | min | psum
deriving DecidableEq, Repr

/-- R232: the combining operation. -/
def redOp (op : RedOp) (t : EType) (a b : Nat) : Nat :=
  if isFloat t then
    match op with
    | .sum | .psum => fAdd (fmtOf t) a b
    | .max => fMax (fmtOf t) a b
    | .min => fMin (fmtOf t) a b
  else
    match op with
    | .sum | .psum => intLane .add t a b 0
    | .max => intLane .max t a b 0
    | .min => intLane .min t a b 0

/-- R232: node(l, k). -/
def redNode (op : Nat → Nat → Nat) (leaf : Nat → Nat) : Nat → Nat → Nat
  | 0, k => leaf k
  | l + 1, k => op (redNode op leaf l (2 * k)) (redNode op leaf l (2 * k + 1))

/-- R232: the prefix of VPSUM for lane i: levels l down to 0, `j` the lanes already taken. -/
def redPrefix (op : Nat → Nat → Nat) (leaf : Nat → Nat) (i : Nat) : Nat → Nat → Option Nat → Option Nat
  | 0, j, acc =>
    if (i + 1) % 2 = 1 then
      let v := redNode op leaf 0 j
      some (match acc with | none => v | some t => op t v)
    else acc
  | l + 1, j, acc =>
    if (i + 1) / 2 ^ (l + 1) % 2 = 1 then
      let v := redNode op leaf (l + 1) (j / 2 ^ (l + 1))
      redPrefix op leaf i l (j + 2 ^ (l + 1)) (some (match acc with | none => v | some t => op t v))
    else redPrefix op leaf i l j acc

/-- R232: the lanes a reduction writes. -/
def redLane (op : RedOp) (t : EType) (v : VWord) (i : Nat) : Nat :=
  let leaf := lane (eltBits t) v
  let lv := Nat.log2 (laneCount t)
  match op with
  | .psum => (redPrefix (redOp op t) leaf i lv 0 none).getD 0
  | _ => redNode (redOp op t) leaf lv 0

/-! ### VCMP (R235) -/

/-- The comparisons. -/
inductive CmpOp where
  | eq | lt | le
deriving DecidableEq, Repr

/-- R235: a op b. -/
def cmpLane (op : CmpOp) (t : EType) (a b : Nat) : Bool :=
  if isFloat t then
    match op with
    | .eq => fEq (fmtOf t) a b
    | .lt => fLt (fmtOf t) a b
    | .le => fLe (fmtOf t) a b
  else
    match op with
    | .eq => a == b
    | .lt => ival t a < ival t b
    | .le => ival t a ≤ ival t b

/-- R235: the mask a compare writes; bits n to 63 are 0, an inactive bit keeps its old value. -/
def cmpMask (op : CmpOp) (t : EType) (mk : Bool) (m0 old : BitVec 64) (a b : VWord) : BitVec 64 :=
  let w := eltBits t
  BitVec.ofNat 64 (joinLanes 1 ((List.range (laneCount t)).map fun i =>
    if laneActive mk m0 i then (if cmpLane op t (lane w a i) (lane w b i) then 1 else 0) else old.toNat / 2 ^ i % 2))

/-! ### VMOVE (R231) -/

/-- R231: a lane as VGETL returns it: sign-extended for s8, s16 and s32. -/
def getLane (t : EType) (x : Nat) : BitVec 64 := BitVec.ofInt 64 (ival t x)

/-- R231: VSLIDE's lane i for the signed count k. -/
def slideLane (t : EType) (v : VWord) (k : Int) (i : Nat) : Nat :=
  let j : Int := (i : Int) + k
  if 0 ≤ j ∧ j < (laneCount t : Int) then lane (eltBits t) v j.toNat else 0

end Sys2Proof.Machine
end

