-- ==== Sys2Proof/Machine/Block.lean ====
section
/-! DEFINITION. The self-describing 64-byte block: its formats, LG6, reading, packing, the matrix unit's products and the
block instructions' arithmetic (R206 to R221, R233, R234, R238 to R241). A block is the 512 bits of its bytes. -/

namespace Sys2Proof.Machine

/-- Byte `i` of a block (R206). -/
def blkByte (b : VWord) (i : Nat) : Nat := lane 8 b i

/-- R206: FMT, E and F. -/
def blkFmt (b : VWord) : Nat := blkByte b 0

def blkE (b : VWord) : Nat := blkByte b 1

def blkF (b : VWord) : Nat := lane 16 b 1

/-- A block of a header and 480 payload bits. -/
def mkBlock (fmt e f payload : Nat) : VWord :=
  BitVec.ofNat 512 (fmt % 256 + 256 * (e % 256) + 65536 * (f % 65536) + 2 ^ 32 * payload)

/-- R208: a zero block as packing writes it. -/
def zeroBlock : VWord := 0#512

/-- R208: a poison block is written with bytes 1 to 63 zero. -/
def poisonBlock : VWord := 0xFF#512

/-- The scale of R207 as a magnitude times a power of two: (65,536 + F) × 2^(E − 143); E = 0 is 0. -/
def scaleM (e f : Nat) : Nat := if e = 0 then 0 else 65536 + f

def scaleX (e : Nat) : Int := (e : Int) - 143

/-- The scale of a block as a value. -/
def blkScale (b : VWord) : FVal := .fin false (scaleM (blkE b) (blkF b)) (scaleX (blkE b))

/-- R208, R215: reserved, or a format 0x01 to 0x05 with E = 255. -/
def blkBad (b : VWord) : Bool :=
  let f := blkFmt b
  if f = 0 ∨ f = 0xFF then false else if f ≤ 5 then blkE b == 255 else true

/-- R208, R219: what a consumer other than operand fetch treats as a reserved block: format 0x05 too. -/
def blkReserved (b : VWord) : Bool := blkBad b || blkFmt b == 5

/-- R208: a poison block. -/
def blkPoison (b : VWord) : Bool := blkFmt b == 0xFF

/-- R208: elements of a format. -/
def fmtCount (f : Nat) : Nat :=
  match f with
  | 1 => 80 | 2 => 60 | 3 => 30 | 4 => 15 | 5 => 80 | _ => 0

/-- R208: the bits of element `i`. -/
def blkElt (b : VWord) (i : Nat) : Nat :=
  match blkFmt b with
  | 1 => b.toNat / 2 ^ (32 + 6 * i) % 64
  | 2 => blkByte b (4 + i)
  | 3 => lane 16 b (2 + i)
  | 4 => lane 32 b (1 + i)
  | 5 => b.toNat / 2 ^ (32 + 6 * i) % 64
  | _ => 0

/-! ### LG6 (R209, R210) -/

/-- T[k] (R209). -/
def lgT (k : Nat) : Nat :=
  match k with
  | 0 => 4096 | 1 => 4871 | 2 => 5793 | _ => 6889

/-- The magnitude code and the sign of an LG6 code. -/
def lgC (code : Nat) : Nat := code % 32

def lgS (code : Nat) : Bool := code / 32 % 2 == 1

/-- NaR (R209). -/
def lgIsNaR (code : Nat) : Bool := code % 64 == 32

/-- The magnitude of code c in units of 2^-16: T[k] × 2^(e + 4) (R209). -/
def lgMag (c : Nat) : Nat := if c = 0 then 0 else lgT (c % 4) * 2 ^ (c / 4)

/-- The value of an LG6 code that is not NaR (R209). -/
def lgValue (code : Nat) : FVal := .fin (lgS code && lgC code != 0) (lgMag (lgC code)) (-16)

/-- R214: the product of two codes, in units of 2^-20. -/
def lgprod (a b : Nat) : Int :=
  if lgC a = 0 ∨ lgC b = 0 then 0
  else
    -- s + 32 = c(a) + c(b), so s mod 4 and floor(s / 4) + 8 need no negative number
    let s := lgC a + lgC b
    let p : Int := (lgT (s % 4) * 2 ^ (s / 4) : Nat)
    if lgS a != lgS b then -p else p

/-! ### Elements as FP32 (R211, R212) -/

/-- The value of element `i` of a block that is not bad. -/
def eltValue (b : VWord) (i : Nat) : FVal :=
  match blkFmt b with
  | 1 => let c := blkElt b i; if lgIsNaR c then .nan else lgValue c
  | 2 => let z := sval 8 (blkElt b i); .fin (z < 0) z.natAbs 0
  | 3 => bf16Fmt.value (blkElt b i)
  | 4 => f32Fmt.value (blkElt b i)
  | _ => .fin false 0 0

/-- R211: rne(value × scale); a zero block and a block of scale 0 give +0, a poison or reserved one the NaN. -/
def eltF32 (b : VWord) (i : Nat) : Nat :=
  if blkReserved b || blkPoison b then f32Fmt.nanBits
  else if blkFmt b = 0 ∨ blkE b = 0 then 0
  else f32Fmt.round ((eltValue b i).mul (blkScale b))

/-- Whether a block that is read has a NaR element whose value is formed (R211): a block of scale 0 gives +0. -/
def blkHasNaR (b : VWord) : Bool :=
  blkFmt b == 1 && blkE b != 0 && !blkReserved b && (List.range 80).any fun i => lgIsNaR (blkElt b i)

/-- The flags a consumer of a block's elements sets (R211, R219, R238). -/
def readFlags (b : VWord) : Sticky :=
  if blkReserved b then psn ||| fmtFlag
  else if blkPoison b then psn
  else Sticky.when (blkHasNaR b) nar

/-- R238: lane i of BLKUNP, for i below 80. -/
def unpackLane (b : VWord) (i : Nat) : Nat :=
  if blkReserved b || blkPoison b then f32Fmt.nanBits
  else if i < fmtCount (blkFmt b) then eltF32 b i else 0

/-! ### Packing (R217, R218) -/

/-- Whether an FP32 value is a NaN or an infinity. -/
def notFinite (x : Nat) : Bool := f32Fmt.infBits ≤ f32Fmt.mag x

/-- The magnitude of a finite FP32 value: m × 2^e. -/
def f32Mag (x : Nat) : Nat × Int :=
  match f32Fmt.value x with
  | .fin _ m e => (m, e)
  | _ => (0, 0)

/-- ceil(n / d). -/
def ceilDiv (n d : Nat) : Nat := (n + d - 1) / d

/-- n / d × 2^e divided by 2^q, rounded up. -/
def ceilAt (n d : Nat) (e q : Int) : Nat :=
  if q ≤ e then ceilDiv (n * 2 ^ (e - q).toNat) d else ceilDiv n (d * 2 ^ (q - e).toNat)

/-- The least scale of R207 at or above n / d × 2^e, searched upward from exponent q: (E, F). -/
def leastScaleFrom : Nat → Nat → Nat → Int → Int → Nat × Nat
  | 0, _, _, _, _ => (254, 65535)
  | fuel + 1, n, d, e, q =>
    let c := ceilAt n d e q
    if c ≤ 131071 then ((q + 143).toNat, max c 65536 - 65536) else leastScaleFrom fuel n d e (q + 1)

/-- The least scale s with m × 2^e ≤ s × (num × 2^-frac), for m > 0 (R217, R218): exact. -/
def leastScale (m : Nat) (e : Int) (num frac : Nat) : Nat × Nat :=
  let e' := e + (frac : Int)
  leastScaleFrom 6 m num e' (max (-142) (e' + (bitLen m : Int) - (bitLen num : Int) - 18))

/-- Whether a × 2^x < b × 2^y. -/
def dyLt (a : Nat) (x : Int) (b : Nat) (y : Int) : Bool :=
  let q := min x y
  a * 2 ^ (x - q).toNat < b * 2 ^ (y - q).toNat

/-- R217: the code c nearest r = m × 2^e / scale: one more for each midpoint below r, and a tie goes to the even code. -/
def lgNearest (m : Nat) (e : Int) (sm : Nat) (sx : Int) : Nat :=
  ((List.range 31).filter fun c =>
    -- the midpoint of c and c + 1, in units of 2^-17, times the scale
    let mid := (lgMag c + lgMag (c + 1)) * sm
    dyLt mid (sx - 17) m e || (c % 2 == 1 && !dyLt m e mid (sx - 17))).length

/-- R217: lg6q(x, s) for the scale of E and F. -/
def lg6q (x : Nat) (e f : Nat) : Nat :=
  if notFinite x then 0x20
  else
    let (m, xe) := f32Mag x
    let c := lgNearest m xe (scaleM e f) (scaleX e)
    if c = 0 then 0 else (if f32Fmt.neg x then 32 else 0) + c

/-- R218: rne(x / s) of an INT8 element, as a byte. -/
def int8q (x : Nat) (e f : Nat) : Nat :=
  let (m, xe) := f32Mag x
  let q := min xe (scaleX e)
  let v := rneDiv (m * 2 ^ (xe - q).toNat) (scaleM e f * 2 ^ (scaleX e - q).toNat)
  wrap 8 (if f32Fmt.neg x then -(v : Int) else (v : Int))

/-- The largest magnitude bits of a list of FP32 values. -/
def maxMag (xs : List Nat) : Nat := xs.foldl (fun a x => max a (f32Fmt.mag x)) 0

/-- R217, R218: the block of format `f` packed from FP32 values, and the flags. -/
def packBlock (f : Nat) (xs : List Nat) : VWord × Sticky :=
  match f with
  | 1 =>
    if xs.any notFinite then (poisonBlock, psn)
    else if maxMag xs = 0 then (zeroBlock, 0#3)
    else
      let (m, e) := f32Mag (maxMag xs)
      let (se, sf) := leastScale m e 6889 9
      (mkBlock 1 se sf (joinLanes 6 (xs.map fun x => lg6q x se sf)), 0#3)
  | 2 =>
    if xs.any notFinite then (poisonBlock, psn)
    else if maxMag xs = 0 then (zeroBlock, 0#3)
    else
      let (m, e) := f32Mag (maxMag xs)
      let (se, sf) := leastScale m e 127 0
      (mkBlock 2 se sf (joinLanes 8 (xs.map fun x => int8q x se sf)), 0#3)
  | 3 => (mkBlock 3 127 0 (joinLanes 16 (xs.map f32ToBf16)), 0#3)
  | _ => (mkBlock 4 127 0 (joinLanes 32 (xs.map fun x => if f32Fmt.isNaN x then f32Fmt.nanBits else x)), 0#3)

/-! ### Block instructions -/

/-- R240: the sum of two blocks and the flags. -/
def blkAdd (a b : VWord) : VWord × Sticky :=
  if blkReserved a || blkReserved b then (poisonBlock, psn ||| fmtFlag)
  else if blkPoison a || blkPoison b then (poisonBlock, psn)
  else
    let f := if blkFmt a = 0 then blkFmt b else blkFmt a
    if f = 0 then (zeroBlock, 0#3)
    else if blkFmt a ≠ 0 ∧ blkFmt b ≠ 0 ∧ blkFmt a ≠ blkFmt b then (poisonBlock, fmtFlag)
    else
      let xs := (List.range (fmtCount f)).map fun i => fAdd f32Fmt (eltF32 a i) (eltF32 b i)
      let r := packBlock f xs
      (r.1, r.2 ||| Sticky.when (blkHasNaR a || blkHasNaR b) nar)

/-- m × 2^x rounded to nearest to a 17-bit significand, ties to even: (significand, exponent). -/
def rne17 (m : Nat) (x : Int) : Nat × Int :=
  let q := x + (bitLen m : Int) - 17
  let v := if q ≤ x then m * 2 ^ (x - q).toNat else rneShift m (q - x).toNat
  if v = 131072 then (65536, q + 1) else (v, q)

/-- A block with E and F replaced. -/
def setScale (b : VWord) (e f : Nat) : VWord := mkBlock (blkFmt b) e f (b.toNat / 2 ^ 32)

/-- R241: BLKSCL of a block by an FP32 value. DESIGN CHOICE (notes/assumptions/93.md): the scale is rounded without a bound on the exponent,
and one below 2^-126 is then 0. -/
def blkScl (b : VWord) (x : Nat) : VWord × Sticky :=
  if blkFmt b = 0 then (b, 0#3)
  else if blkPoison b then (b, psn)
  else if blkReserved b then (poisonBlock, psn ||| fmtFlag)
  else if blkE b = 0 then (b, 0#3)
  else if f32Fmt.mag x = 0 then (setScale b 0 0, 0#3)
  else if notFinite x ∨ f32Fmt.neg x = true then (poisonBlock, psn)
  else
    let (m, e) := f32Mag x
    let (s, q) := rne17 (m * scaleM (blkE b) (blkF b)) (e + scaleX (blkE b))
    if 254 < q + 143 then (poisonBlock, psn)
    else if q + 143 < 1 then (setScale b 0 0, 0#3)
    else (setScale b (q + 143).toNat (s - 65536), 0#3)

/-- R234: VLGX's lane of a code byte. -/
def lgxLane (b : Nat) : Nat :=
  let c := b % 64
  if lgIsNaR c then f32Fmt.nanBits else f32Fmt.round (lgValue c)

/-! ### The matrix unit (R214 to R216) -/

/-- R216: the position of kept code i, from the 160 index bits. -/
def idxPos (idx : Nat) (i : Nat) : Nat := idx / 2 ^ (2 * i) % 4

/-- R216: whether the two kept codes of each group rise. -/
def idxOrdered (idx : Nat) : Bool := (List.range 40).all fun g => idxPos idx (2 * g) < idxPos idx (2 * g + 1)

/-- R216: the code at position p of the 160 of an expanded block. -/
def expandAt (b : VWord) (idx p : Nat) : Nat :=
  let g := p / 4
  if idxPos idx (2 * g) = p % 4 then blkElt b (2 * g)
  else if idxPos idx (2 * g + 1) = p % 4 then blkElt b (2 * g + 1)
  else 0

/-- R208, R216, R219: one of the two expanded blocks of a compressed weight block. A zero block and a poison block stay what they are
in both; a reserved code, and an unordered index, give reserved blocks (format 0x06). DESIGN CHOICE (notes/assumptions/59.md): so
does a block of format 0x01 to 0x04, for which R247 gives no expansion. -/
def expand (b : VWord) (idx half : Nat) : VWord :=
  if blkFmt b = 0 ∨ blkFmt b = 0xFF then b
  else if blkFmt b = 5 ∧ idxOrdered idx = true then
    mkBlock 1 (blkE b) (blkF b) (joinLanes 6 ((List.range 80).map fun i => expandAt b idx (80 * half + i)))
  else mkBlock 6 0 0 0

/-- R215: the running BF16 sum of element products. -/
def bf16Dot (a b : VWord) : Nat → Nat → Nat → Nat
  | 0, _, u => u
  | n + 1, i, u =>
    bf16Dot a b n (i + 1) (f32Fmt.round ((f32Fmt.value u).add ((bf16Fmt.value (blkElt a i)).mul (bf16Fmt.value (blkElt b i)))))

/-- R215: the sum of products of two blocks of one format, as FP32. -/
def pairSum (a b : VWord) : Nat :=
  match blkFmt a with
  | 1 =>
    let z := (List.range 80).foldl (fun (t : Int) i => t + lgprod (blkElt a i) (blkElt b i)) 0
    f32Fmt.round (.fin (z < 0) z.natAbs (-20))
  | 2 => intToF32 ((List.range 60).foldl (fun (t : Int) i => t + sval 8 (blkElt a i) * sval 8 (blkElt b i)) 0)
  | _ => bf16Dot a b 30 0 0

/-- R215: pairterm(a, b) and its flags. -/
def pairterm (a b : VWord) : Nat × Sticky :=
  let nan := f32Fmt.nanBits
  if blkReserved a || blkReserved b then (nan, fmtFlag ||| psn)
  else if blkPoison a || blkPoison b then (nan, psn)
  else if blkFmt a = 0 ∨ blkFmt b = 0 then (0, 0#3)
  else if blkE a = 0 ∨ blkE b = 0 then (0, 0#3)
  else if blkFmt a ≠ blkFmt b ∨ blkFmt a = 4 then (nan, fmtFlag)
  else if blkFmt a = 1 ∧ ((List.range 80).any fun i => lgIsNaR (blkElt a i) || lgIsNaR (blkElt b i)) = true then (nan, nar)
  else
    let sc := f32Fmt.round ((blkScale a).mul (blkScale b))
    let u := pairSum a b
    if f32Fmt.isNaN u then (nan, 0#3)
    else if f32Fmt.mag u = 0 then (0, 0#3)
    else (fMul f32Fmt u sc, 0#3)

end Sys2Proof.Machine
end

