-- ==== Sys2Proof/Syntax.lean ====
section
/-! DEFINITION. The instruction syntax: one constructor for each row of the opcode table. The 254 rows with an encoding
carry their instruction fields (R14 to R21; a field named x or y is one the manual says is ignored, R52). The 93 rows
without an encoding are steps of the part that happen on their own or from outside; what such a step is about is data of
the machine: the oldest event in flight (Machine/Event.lean), or what stands at the PC of the issuing hart. -/

namespace Sys2Proof

/-- The instructions and steps of the opcode table. -/
inductive Instr where
  /-- R53. Writes rs1 plus rs2, modulo 2^64, to rd. -/
  | add (d : Reg) (a : Reg) (b : Reg)
  /-- R53. Writes rs1 minus rs2 to rd. -/
  | sub (d : Reg) (a : Reg) (b : Reg)
  /-- R53. Writes the signed minimum of rs1 and rs2 to rd. -/
  | min (d : Reg) (a : Reg) (b : Reg)
  /-- R53. Writes the signed maximum of rs1 and rs2 to rd. -/
  | max (d : Reg) (a : Reg) (b : Reg)
  /-- R53. Writes the unsigned minimum of rs1 and rs2 to rd. -/
  | minu (d : Reg) (a : Reg) (b : Reg)
  /-- R53. Writes the unsigned maximum of rs1 and rs2 to rd. -/
  | maxu (d : Reg) (a : Reg) (b : Reg)
  /-- R53. Writes 1 to rd if rs1 is less than rs2 as signed numbers, else 0. -/
  | slt (d : Reg) (a : Reg) (b : Reg)
  /-- R53. Writes 1 to rd if rs1 is less than rs2 as unsigned numbers, else 0. -/
  | sltu (d : Reg) (a : Reg) (b : Reg)
  /-- R53. Writes the bitwise AND of rs1 and rs2 to rd. -/
  | and (d : Reg) (a : Reg) (b : Reg)
  /-- R53. Writes the bitwise OR of rs1 and rs2 to rd. -/
  | or (d : Reg) (a : Reg) (b : Reg)
  /-- R53. Writes the bitwise XOR of rs1 and rs2 to rd. -/
  | xor (d : Reg) (a : Reg) (b : Reg)
  /-- R53. Writes rs1 AND NOT rs2 to rd. -/
  | andn (d : Reg) (a : Reg) (b : Reg)
  /-- R53. Writes rs1 OR NOT rs2 to rd. -/
  | orn (d : Reg) (a : Reg) (b : Reg)
  /-- R53. Writes NOT (rs1 XOR rs2) to rd. -/
  | xnor (d : Reg) (a : Reg) (b : Reg)
  /-- R53. Shifts rs1 left by rs2[5:0]. -/
  | sll (d : Reg) (a : Reg) (b : Reg)
  /-- R53. Shifts rs1 right logically by rs2[5:0]. -/
  | srl (d : Reg) (a : Reg) (b : Reg)
  /-- R53. Shifts rs1 right arithmetically by rs2[5:0]. -/
  | sra (d : Reg) (a : Reg) (b : Reg)
  /-- R53. Rotates rs1 left by rs2[5:0]. -/
  | rol (d : Reg) (a : Reg) (b : Reg)
  /-- R53. Rotates rs1 right by rs2[5:0]. -/
  | ror (d : Reg) (a : Reg) (b : Reg)
  /-- R54. Writes the low 64 bits of rs1 times rs2 to rd. -/
  | mul (d : Reg) (a : Reg) (b : Reg)
  /-- R54. Writes the high 64 bits of the signed 128-bit product to rd. -/
  | mulh (d : Reg) (a : Reg) (b : Reg)
  /-- R54. Writes the high 64 bits of the unsigned 128-bit product to rd. -/
  | mulhu (d : Reg) (a : Reg) (b : Reg)
  /-- R54. Signed division truncating toward zero, with all ones for a zero divisor and no trap. -/
  | div (d : Reg) (a : Reg) (b : Reg)
  /-- R54. Unsigned division, with all ones for a zero divisor. -/
  | divu (d : Reg) (a : Reg) (b : Reg)
  /-- R54. Signed remainder with the sign of the dividend, and the dividend for a zero divisor. -/
  | rem (d : Reg) (a : Reg) (b : Reg)
  /-- R54. Unsigned remainder, and the dividend for a zero divisor. -/
  | remu (d : Reg) (a : Reg) (b : Reg)
  /-- R55. Counts the leading zero bits of rs1. -/
  | clz (d : Reg) (a : Reg)
  /-- R55. Counts the trailing zero bits of rs1. -/
  | ctz (d : Reg) (a : Reg)
  /-- R55. Counts the 1 bits of rs1. -/
  | popc (d : Reg) (a : Reg)
  /-- R55. Reverses the bit order of rs1. -/
  | brev (d : Reg) (a : Reg)
  /-- R56. Extracts a field of rs1 at the position and length given in rs2. -/
  | bext (d : Reg) (a : Reg) (b : Reg)
  /-- R56. Inserts the low bits of rs1 into a field of rd. -/
  | bins (d : Reg) (a : Reg) (b : Reg)
  /-- R57. Adds a sign-extended 12-bit immediate to rs1. -/
  | addi (d : Reg) (a : Reg) (i : BitVec 12)
  /-- R57. ANDs rs1 with a sign-extended immediate. -/
  | andi (d : Reg) (a : Reg) (i : BitVec 12)
  /-- R57. ORs rs1 with a sign-extended immediate. -/
  | ori (d : Reg) (a : Reg) (i : BitVec 12)
  /-- R57. XORs rs1 with a sign-extended immediate. -/
  | xori (d : Reg) (a : Reg) (i : BitVec 12)
  /-- R57. Shifts rs1 left by an immediate from 0 to 63. -/
  | slli (d : Reg) (a : Reg) (i : BitVec 6)
  /-- R57. Shifts rs1 right logically by an immediate. -/
  | srli (d : Reg) (a : Reg) (i : BitVec 6)
  /-- R57. Shifts rs1 right arithmetically by an immediate. -/
  | srai (d : Reg) (a : Reg) (i : BitVec 6)
  /-- R57. Writes 1 to rd if rs1 is less than the immediate as signed numbers. -/
  | slti (d : Reg) (a : Reg) (i : BitVec 12)
  /-- R58. Loads the sign-extended imm20 shifted left by 12 into rd. -/
  | lih (d : Reg) (i : BitVec 20)
  /-- R58. Writes PC plus the sign-extended imm20 shifted left by 12 into rd. -/
  | lpc (d : Reg) (i : BitVec 20)
  /-- R59. Branches if rs1 equals rs2. -/
  | beq (a : Reg) (b : Reg) (o : BitVec 12)
  /-- R59. Branches if rs1 differs from rs2. -/
  | bne (a : Reg) (b : Reg) (o : BitVec 12)
  /-- R59. Branches if rs1 is less than rs2 as signed numbers. -/
  | blt (a : Reg) (b : Reg) (o : BitVec 12)
  /-- R59. Branches if rs1 is at least rs2 as signed numbers. -/
  | bge (a : Reg) (b : Reg) (o : BitVec 12)
  /-- R59. Branches if rs1 is less than rs2 as unsigned numbers. -/
  | bltu (a : Reg) (b : Reg) (o : BitVec 12)
  /-- R59. Branches if rs1 is at least rs2 as unsigned numbers. -/
  | bgeu (a : Reg) (b : Reg) (o : BitVec 12)
  /-- R60. Branches if rs1 is ready, without waiting for it. -/
  | brdy (a : Reg) (o : BitVec 12)
  /-- R60. Branches if rs1 is not ready, without waiting for it. -/
  | bnrdy (a : Reg) (o : BitVec 12)
  /-- R61. Jumps PC-relative and writes the link address to rd. -/
  | jl (d : Reg) (i : BitVec 20)
  /-- R61. Jumps to rs1 plus the immediate with bit 0 cleared and writes the link address to rd. -/
  | jlr (d : Reg) (a : Reg) (i : BitVec 12)
  /-- R62. Loads a sign-extended byte. -/
  | ldB (d : Reg) (a : Reg) (i : BitVec 12)
  /-- R62. Loads a sign-extended half. -/
  | ldH (d : Reg) (a : Reg) (i : BitVec 12)
  /-- R62. Loads a sign-extended word. -/
  | ldW (d : Reg) (a : Reg) (i : BitVec 12)
  /-- R62. Loads a dword. -/
  | ldD (d : Reg) (a : Reg) (i : BitVec 12)
  /-- R62. Loads a zero-extended byte. -/
  | lduB (d : Reg) (a : Reg) (i : BitVec 12)
  /-- R62. Loads a zero-extended half. -/
  | lduH (d : Reg) (a : Reg) (i : BitVec 12)
  /-- R62. Loads a zero-extended word. -/
  | lduW (d : Reg) (a : Reg) (i : BitVec 12)
  /-- R65. Loads a dword of the local stash in skewed tile mode. -/
  | ldT (d : Reg) (a : Reg) (i : BitVec 12)
  /-- R62. Stores the low byte of rs2. -/
  | stB (a : Reg) (b : Reg) (i : BitVec 12)
  /-- R62. Stores the low half of rs2. -/
  | stH (a : Reg) (b : Reg) (i : BitVec 12)
  /-- R62. Stores the low word of rs2. -/
  | stW (a : Reg) (b : Reg) (i : BitVec 12)
  /-- R62. Stores rs2 as a dword. -/
  | stD (a : Reg) (b : Reg) (i : BitVec 12)
  /-- R65. Stores a dword into the local stash in skewed tile mode. -/
  | stT (a : Reg) (b : Reg) (i : BitVec 12)
  /-- R119. Acquire load of a dword at its home, applying the stored signature. -/
  | ldAq (d : Reg) (a : Reg)
  /-- R119. Release store of a dword at its home, publishing the hart's signature. -/
  | stRl (a : Reg) (b : Reg)
  /-- R120. Reads a dword at its home and delivers it to the register named by a locator. -/
  | ldto (a : Reg) (b : Reg)
  /-- R120. Reads a sign-extended word at its home and delivers it to a locator. -/
  | ldtoW (a : Reg) (b : Reg)
  /-- R122. Atomically swaps a word at its home and returns the old value. -/
  | amoswapW (d : Reg) (a : Reg) (b : Reg) (q : Bool) (r : Bool)
  /-- R122. Atomically swaps a dword at its home. -/
  | amoswapD (d : Reg) (a : Reg) (b : Reg) (q : Bool) (r : Bool)
  /-- R122. Atomically adds to a word at its home. -/
  | amoaddW (d : Reg) (a : Reg) (b : Reg) (q : Bool) (r : Bool)
  /-- R122. Atomically adds to a dword at its home. -/
  | amoaddD (d : Reg) (a : Reg) (b : Reg) (q : Bool) (r : Bool)
  /-- R122. Atomically ANDs into a word. -/
  | amoandW (d : Reg) (a : Reg) (b : Reg) (q : Bool) (r : Bool)
  /-- R122. Atomically ANDs into a dword. -/
  | amoandD (d : Reg) (a : Reg) (b : Reg) (q : Bool) (r : Bool)
  /-- R122. Atomically ORs into a word. -/
  | amoorW (d : Reg) (a : Reg) (b : Reg) (q : Bool) (r : Bool)
  /-- R122. Atomically ORs into a dword. -/
  | amoorD (d : Reg) (a : Reg) (b : Reg) (q : Bool) (r : Bool)
  /-- R122. Atomically XORs into a word. -/
  | amoxorW (d : Reg) (a : Reg) (b : Reg) (q : Bool) (r : Bool)
  /-- R122. Atomically XORs into a dword. -/
  | amoxorD (d : Reg) (a : Reg) (b : Reg) (q : Bool) (r : Bool)
  /-- R122. Atomic signed minimum on a word. -/
  | amominW (d : Reg) (a : Reg) (b : Reg) (q : Bool) (r : Bool)
  /-- R122. Atomic signed minimum on a dword. -/
  | amominD (d : Reg) (a : Reg) (b : Reg) (q : Bool) (r : Bool)
  /-- R122. Atomic signed maximum on a word. -/
  | amomaxW (d : Reg) (a : Reg) (b : Reg) (q : Bool) (r : Bool)
  /-- R122. Atomic signed maximum on a dword. -/
  | amomaxD (d : Reg) (a : Reg) (b : Reg) (q : Bool) (r : Bool)
  /-- R122. Atomic unsigned minimum on a word. -/
  | amominuW (d : Reg) (a : Reg) (b : Reg) (q : Bool) (r : Bool)
  /-- R122. Atomic unsigned minimum on a dword. -/
  | amominuD (d : Reg) (a : Reg) (b : Reg) (q : Bool) (r : Bool)
  /-- R122. Atomic unsigned maximum on a word. -/
  | amomaxuW (d : Reg) (a : Reg) (b : Reg) (q : Bool) (r : Bool)
  /-- R122. Atomic unsigned maximum on a dword. -/
  | amomaxuD (d : Reg) (a : Reg) (b : Reg) (q : Bool) (r : Bool)
  /-- R122. Atomic compare-and-swap of a word against the expected value in rd. -/
  | amocasW (d : Reg) (a : Reg) (b : Reg) (q : Bool) (r : Bool)
  /-- R122. Atomic compare-and-swap of a dword. -/
  | amocasD (d : Reg) (a : Reg) (b : Reg) (q : Bool) (r : Bool)
  /-- R123. Atomic binary32 addition into a word. -/
  | amofaddW (d : Reg) (a : Reg) (b : Reg) (q : Bool) (r : Bool)
  /-- R128. Release that sends an expectation of c bytes to a barrier object. -/
  | barexp (a : Reg) (n : Reg)
  /-- R128. Release that sends an arrival of c bytes to a barrier object. -/
  | bararr (a : Reg) (n : Reg)
  /-- R129. Sleeps at the barrier's home while PHASE equals p, then returns PHASE and OVERRUN as an acquire. -/
  | barwait (d : Reg) (a : Reg) (n : Reg)
  /-- R68. Puts a 64-bit value into the register named by a locator and counts in UNACK. -/
  | rput (a : Reg) (b : Reg) (r : Bool)
  /-- R68. Status form of RPUT whose acknowledgement code is written into rd. -/
  | rputS (d : Reg) (a : Reg) (b : Reg) (r : Bool)
  /-- R68. Puts a 512-bit vector into the v register named by a locator. -/
  | rputv (a : Reg) (b : Reg) (r : Bool)
  /-- R68. Status form of RPUTV. -/
  | rputvS (d : Reg) (a : Reg) (b : Reg) (r : Bool)
  /-- R70. Clears the ready bit of an x register. -/
  | arm (d : Reg)
  /-- R70. Clears the ready bit of a v register. -/
  | armv (d : Reg)
  /-- R169. Sends a message of 1 to 4 payload words to a channel, claiming a send-queue entry. -/
  | msend (a : Reg) (b : Reg) (c : BitVec 2)
  /-- R170. MSEND whose outcome is written into rd instead of returning the message. -/
  | msendS (d : Reg) (a : Reg) (b : Reg) (c : BitVec 2)
  /-- R171. Sends a call message with a target PC and payload x10-x13, with the reply landing in rd. -/
  | callat (d : Reg) (a : Reg) (b : Reg)
  /-- R174. Masks the channels named by bits of rs1 on the issuing core. -/
  | hmask (a : Reg)
  /-- R174. Unmasks the named channels so that deferred messages can be accepted. -/
  | hunmask (a : Reg)
  /-- R178. Waits for n filled slots and advances the consumer count by n. -/
  | qpop (h : QReg) (x : Reg) (i : BitVec 12)
  /-- R178. Waits for room for n slots and advances the producer count by n. -/
  | qadv (h : QReg) (x : Reg) (i : BitVec 12)
  /-- R178. Writes the filled count of a handle's queue to rd. -/
  | qcnt (d : Reg) (h : QReg) (x : BitVec 12)
  /-- R177. Reads a descriptor and binds a queue handle as producer or consumer. -/
  | qcfg (h : QReg) (a : Reg) (x : BitVec 12)
  /-- R178. Waits until a handle's queue holds at least n filled slots. -/
  | qwait (h : QReg) (x : Reg) (i : BitVec 12)
  /-- R76. Reads a CSR into rd. -/
  | csrr (d : Reg) (x : Reg) (c : BitVec 12)
  /-- R76. Writes rs1 into a CSR and returns the old value. -/
  | csrw (d : Reg) (a : Reg) (c : BitVec 12)
  /-- R76. Sets the CSR bits given in rs1 and returns the old value. -/
  | csrs (d : Reg) (a : Reg) (c : BitVec 12)
  /-- R76. Clears the CSR bits given in rs1 and returns the old value. -/
  | csrc (d : Reg) (a : Reg) (c : BitVec 12)
  /-- R77. Drops every first-stage and combined TLB entry of the current VMID across the package. -/
  | tlbinvAll (x : Reg) (y : Reg)
  /-- R77. Drops the entries of one ASID. -/
  | tlbinvAsid (a : Reg) (y : Reg)
  /-- R77. Drops the entries whose page contains a VA. -/
  | tlbinvVa (a : Reg) (y : Reg)
  /-- R77. Drops second-stage and combined entries for a guest physical page, or all of them for 0. -/
  | tlbinvStage2 (a : Reg) (y : Reg)
  /-- R79. Stops a resident thread at its next boundary and saves its context image. -/
  | park (a : Reg)
  /-- R80. Reloads a parked thread into its own slot with its own tag. -/
  | resume (a : Reg)
  /-- R81. Moves a thread to a free resident hart and leaves a moved entry at the old slot. -/
  | migrate (d : Reg) (a : Reg)
  /-- R136. Reads a launch header and places a launch record in the die's pool. -/
  | spawn (d : Reg) (a : Reg) (x : Reg)
  /-- R137. Patches and arms a pre-built launch record of the issuing system channel. -/
  | armlr (a : Reg) (b : Reg)
  /-- R138. Counts the free resident-role harts of an interval. -/
  | lchk (d : Reg) (a : Reg) (b : Reg)
  /-- R132. Writes back the owned or dirty bytes of a range. -/
  | rwb (a : Reg) (b : Reg)
  /-- R132. Drops unowned or software-managed copies of a range. -/
  | rinv (a : Reg) (b : Reg)
  /-- R133. Discards the dirty lines of a dead range. -/
  | disc (a : Reg) (b : Reg)
  /-- R134. Fills and locks the lines of a range in their L2 slice. -/
  | pin (a : Reg) (b : Reg)
  /-- R134. Unlocks the pinned lines of a range. -/
  | unpin (a : Reg) (b : Reg)
  /-- R135. Hints a prefetch of up to 4,096 bytes of a range. -/
  | pref (a : Reg) (b : Reg)
  /-- R224. Integer lane addition modulo 2^w. -/
  | vadd (d : Reg) (a : Reg) (b : Reg) (t : EType) (m : Bool) (q : Bool)
  /-- R224. Integer lane subtraction. -/
  | vsub (d : Reg) (a : Reg) (b : Reg) (t : EType) (m : Bool) (q : Bool)
  /-- R224. Low half of the integer lane product. -/
  | vmul (d : Reg) (a : Reg) (b : Reg) (t : EType) (m : Bool) (q : Bool)
  /-- R224. High half of the integer lane product. -/
  | vmulh (d : Reg) (a : Reg) (b : Reg) (t : EType) (m : Bool) (q : Bool)
  /-- R224. Integer lane minimum. -/
  | vmin (d : Reg) (a : Reg) (b : Reg) (t : EType) (m : Bool) (q : Bool)
  /-- R224. Integer lane maximum. -/
  | vmax (d : Reg) (a : Reg) (b : Reg) (t : EType) (m : Bool) (q : Bool)
  /-- R224. Lane bitwise AND. -/
  | vand (d : Reg) (a : Reg) (b : Reg) (t : EType) (m : Bool) (q : Bool)
  /-- R224. Lane bitwise OR. -/
  | vor (d : Reg) (a : Reg) (b : Reg) (t : EType) (m : Bool) (q : Bool)
  /-- R224. Lane bitwise XOR. -/
  | vxor (d : Reg) (a : Reg) (b : Reg) (t : EType) (m : Bool) (q : Bool)
  /-- R224. Lane shift left. -/
  | vshl (d : Reg) (a : Reg) (b : Reg) (t : EType) (m : Bool) (q : Bool)
  /-- R224. Lane logical shift right. -/
  | vshr (d : Reg) (a : Reg) (b : Reg) (t : EType) (m : Bool) (q : Bool)
  /-- R224. Lane arithmetic shift right. -/
  | vsra (d : Reg) (a : Reg) (b : Reg) (t : EType) (m : Bool) (q : Bool)
  /-- R224. Lane absolute value. -/
  | vabs (d : Reg) (a : Reg) (t : EType) (m : Bool)
  /-- R224. Lane negation. -/
  | vneg (d : Reg) (a : Reg) (t : EType) (m : Bool)
  /-- R224. Saturating lane addition. -/
  | vadds (d : Reg) (a : Reg) (b : Reg) (t : EType) (m : Bool) (q : Bool)
  /-- R224. Saturating lane subtraction. -/
  | vsubs (d : Reg) (a : Reg) (b : Reg) (t : EType) (m : Bool) (q : Bool)
  /-- R224. Integer lane multiply-add into vd. -/
  | vmad (d : Reg) (a : Reg) (b : Reg) (t : EType) (m : Bool) (q : Bool)
  /-- R225. Floating-point lane addition. -/
  | vfadd (d : Reg) (a : Reg) (b : Reg) (t : BitVec 1) (m : Bool) (q : Bool)
  /-- R225. Floating-point lane subtraction. -/
  | vfsub (d : Reg) (a : Reg) (b : Reg) (t : BitVec 1) (m : Bool) (q : Bool)
  /-- R225. Floating-point lane multiplication. -/
  | vfmul (d : Reg) (a : Reg) (b : Reg) (t : BitVec 1) (m : Bool) (q : Bool)
  /-- R225. Fused floating-point multiply-add into vd. -/
  | vfma (d : Reg) (a : Reg) (b : Reg) (t : BitVec 1) (m : Bool) (q : Bool)
  /-- R225. Floating-point lane minimum. -/
  | vfmin (d : Reg) (a : Reg) (b : Reg) (t : BitVec 1) (m : Bool) (q : Bool)
  /-- R225. Floating-point lane maximum. -/
  | vfmax (d : Reg) (a : Reg) (b : Reg) (t : BitVec 1) (m : Bool) (q : Bool)
  /-- R225. Clears the sign bit of each lane. -/
  | vfabs (d : Reg) (a : Reg) (t : BitVec 1) (m : Bool)
  /-- R225. Inverts the sign bit of each lane. -/
  | vfneg (d : Reg) (a : Reg) (t : BitVec 1) (m : Bool)
  /-- R226. Approximates 2^a per lane. -/
  | vexp2 (d : Reg) (a : Reg) (t : BitVec 1) (m : Bool)
  /-- R226. Approximates log2 a per lane. -/
  | vlog2 (d : Reg) (a : Reg) (t : BitVec 1) (m : Bool)
  /-- R226. Approximates the reciprocal per lane. -/
  | vrcp (d : Reg) (a : Reg) (t : BitVec 1) (m : Bool)
  /-- R226. Approximates the reciprocal square root per lane. -/
  | vrsq (d : Reg) (a : Reg) (t : BitVec 1) (m : Bool)
  /-- R227. Loads a vector of consecutive lanes. -/
  | vld (d : Reg) (a : Reg) (t : EType) (m : Bool)
  /-- R227. Stores a vector of consecutive lanes. -/
  | vst (d : Reg) (a : Reg) (t : EType) (m : Bool)
  /-- R227. Loads lanes at a signed byte stride. -/
  | vlds (d : Reg) (a : Reg) (b : Reg) (t : EType) (m : Bool)
  /-- R227. Stores lanes at a signed byte stride. -/
  | vsts (d : Reg) (a : Reg) (b : Reg) (t : EType) (m : Bool)
  /-- R227. Gathers lanes at offsets held in a vector. -/
  | vgath (d : Reg) (a : Reg) (b : Reg) (t : EType) (m : Bool)
  /-- R227. Scatters lanes to offsets held in a vector. -/
  | vscat (d : Reg) (a : Reg) (b : Reg) (t : EType) (m : Bool)
  /-- R230. Loads one tile column of eight rows in skewed tile mode. -/
  | vldT (d : Reg) (a : Reg) (t : EType) (m : Bool)
  /-- R230. Stores one tile column of eight rows in skewed tile mode. -/
  | vstT (d : Reg) (a : Reg) (t : EType) (m : Bool)
  /-- R231. Broadcasts an x register into every lane. -/
  | vbcast (d : Reg) (a : Reg) (t : EType) (m : Bool)
  /-- R231. Reads one lane into an x register. -/
  | vgetl (d : Reg) (a : Reg) (b : Reg) (t : EType)
  /-- R231. Writes one lane from an x register. -/
  | vsetl (d : Reg) (a : Reg) (b : Reg) (t : EType)
  /-- R231. Permutes lanes by indices in a vector. -/
  | vperm (d : Reg) (a : Reg) (b : Reg) (t : EType) (m : Bool)
  /-- R231. Slides lanes by a signed count, filling with 0. -/
  | vslide (d : Reg) (a : Reg) (b : Reg) (t : EType) (m : Bool)
  /-- R231. Copies a mask register. -/
  | vmovm (d : MReg) (a : MReg)
  /-- R231. Writes VTYPE.TYPE from rs1[2:0]. -/
  | vsett (a : Reg)
  /-- R232. Sums all lanes in a fixed pairwise tree. -/
  | vrsum (d : Reg) (a : Reg) (t : EType) (m : Bool)
  /-- R232. Maximum over all lanes. -/
  | vrmax (d : Reg) (a : Reg) (t : EType) (m : Bool)
  /-- R232. Minimum over all lanes. -/
  | vrmin (d : Reg) (a : Reg) (t : EType) (m : Bool)
  /-- R232. Prefix sums from the pairwise tree. -/
  | vpsum (d : Reg) (a : Reg) (t : EType) (m : Bool)
  /-- R233. Converts f32 lanes to bf16. -/
  | vcvtBf16F32 (d : Reg) (a : Reg) (m : Bool)
  /-- R233. Converts bf16 lanes to f32 exactly. -/
  | vcvtF32Bf16 (d : Reg) (a : Reg) (m : Bool)
  /-- R233. Converts s32 lanes to f32. -/
  | vcvtF32S32 (d : Reg) (a : Reg) (m : Bool)
  /-- R233. Converts f32 lanes to saturated s32. -/
  | vcvtS32F32 (d : Reg) (a : Reg) (m : Bool)
  /-- R233. Sign-extends one group of 16 s8 lanes to s32. -/
  | vcvtS32S8 (d : Reg) (a : Reg) (g : BitVec 2) (m : Bool)
  /-- R233. Saturates s32 lanes into one group of s8 lanes. -/
  | vcvtS8S32 (d : Reg) (a : Reg) (g : BitVec 2) (m : Bool)
  /-- R234. Expands LG6 codes held one per byte to f32. -/
  | vlgx (d : Reg) (a : Reg) (m : Bool)
  /-- R234. Quantises f32 lanes to LG6 codes under a given scale. -/
  | vlgq (d : Reg) (a : Reg) (b : Reg) (m : Bool)
  /-- R235. Compares lanes for equality into a mask. -/
  | vceq (d : MReg) (a : Reg) (b : Reg) (t : EType) (m : Bool) (q : Bool)
  /-- R235. Compares lanes for less-than into a mask. -/
  | vclt (d : MReg) (a : Reg) (b : Reg) (t : EType) (m : Bool) (q : Bool)
  /-- R235. Compares lanes for less-or-equal into a mask. -/
  | vcle (d : MReg) (a : Reg) (b : Reg) (t : EType) (m : Bool) (q : Bool)
  /-- R235. Selects each lane from the second source where m0 is 1. -/
  | vsel (d : Reg) (a : Reg) (b : Reg) (t : EType) (q : Bool)
  /-- R236. ANDs two mask registers. -/
  | mand (d : MReg) (a : MReg) (b : MReg)
  /-- R236. ORs two mask registers. -/
  | mor (d : MReg) (a : MReg) (b : MReg)
  /-- R236. Inverts a mask register. -/
  | mnot (d : MReg) (a : MReg)
  /-- R236. Counts the 1 bits of a mask into an x register. -/
  | mpopc (d : Reg) (a : MReg)
  /-- R238. Unpacks a stash block into 80 f32 lanes of five v registers. -/
  | blkunp (d : Reg) (a : Reg)
  /-- R239. Packs f32 lanes into a stash block of the named format. -/
  | blkpk (d : Reg) (a : Reg) (t : EType)
  /-- R240. Adds one block into another and requantises the sum. -/
  | blkaddq (a : Reg) (b : Reg)
  /-- R241. Reads a block's header word. -/
  | blkhdr (d : Reg) (a : Reg)
  /-- R241. Multiplies a block's scale by an f32 value. -/
  | blkscl (a : Reg) (b : Reg)
  /-- R18. 16-bit form: copies vs into vd. -/
  | vmov16 (d : Reg) (b : Reg) (m : Bool)
  /-- R18. 16-bit form: vd plus vs in the VTYPE type. -/
  | vadd16 (d : Reg) (b : Reg) (m : Bool)
  /-- R18. 16-bit form: vd minus vs. -/
  | vsub16 (d : Reg) (b : Reg) (m : Bool)
  /-- R18. 16-bit form: vd times vs. -/
  | vmul16 (d : Reg) (b : Reg) (m : Bool)
  /-- R18. 16-bit form: vd plus vs times v0. -/
  | vmad16 (d : Reg) (b : Reg) (m : Bool)
  /-- R18. 16-bit form: lane minimum. -/
  | vmin16 (d : Reg) (b : Reg) (m : Bool)
  /-- R18. 16-bit form: lane maximum. -/
  | vmax16 (d : Reg) (b : Reg) (m : Bool)
  /-- R18. 16-bit form: bitwise AND. -/
  | vand16 (d : Reg) (b : Reg) (m : Bool)
  /-- R18. 16-bit form: bitwise OR. -/
  | vor16 (d : Reg) (b : Reg) (m : Bool)
  /-- R18. 16-bit form: bitwise XOR. -/
  | vxor16 (d : Reg) (b : Reg) (m : Bool)
  /-- R18. 16-bit form: negation of vs. -/
  | vneg16 (d : Reg) (b : Reg) (m : Bool)
  /-- R18. 16-bit form: absolute value of vs. -/
  | vabs16 (d : Reg) (b : Reg) (m : Bool)
  /-- R18. 16-bit form: vd shifted left by vs; ILLEGAL for float types. -/
  | vshl16 (d : Reg) (b : Reg) (m : Bool)
  /-- R18. 16-bit form: vd shifted right arithmetically by vs; ILLEGAL for float types. -/
  | vsra16 (d : Reg) (b : Reg) (m : Bool)
  /-- R18. 16-bit form: selects vs where m0 is 1. -/
  | vsel16 (d : Reg) (b : Reg)
  /-- R18. 16-bit form: vs times vs. -/
  | vsqr (d : Reg) (b : Reg) (m : Bool)
  /-- R259. Sets every element of an accumulator to +0. -/
  | mzero (c : BitVec 1)
  /-- R260. Folds K-blocks of stash A and weight-buffer B into an accumulator, with two tokens. -/
  | mmul (d : Reg) (a : Reg) (b : Reg)
  /-- R262. Writes an accumulator, with optional bias, to the stash as FP32, BF16 or LG6. -/
  | mstw (d : Reg) (a : Reg)
  /-- R263. Copies weights, and optionally an index stream, into the weight buffer. -/
  | mldw (d : Reg) (a : Reg)
  /-- R264. Samples the cluster's matrix unit state into rd. -/
  | mqry (d : Reg)
  /-- R265. Copies bytes piece by piece, optionally arriving at a barrier. -/
  | cpy (d : Reg) (a : Reg) (q : BitVec 2)
  /-- R266. Reduces s32 elements into the destination by addition at their homes. -/
  | cpyrAddS32 (d : Reg) (a : Reg) (q : BitVec 2)
  /-- R266. Reduces f32 elements by f32add at their homes. -/
  | cpyrAddF32 (d : Reg) (a : Reg) (q : BitVec 2)
  /-- R266. Reduces bf16 elements by addition. -/
  | cpyrAddBf16 (d : Reg) (a : Reg) (q : BitVec 2)
  /-- R266. Reduces s32 elements by signed minimum. -/
  | cpyrMinS32 (d : Reg) (a : Reg) (q : BitVec 2)
  /-- R266. Reduces s32 elements by signed maximum. -/
  | cpyrMaxS32 (d : Reg) (a : Reg) (q : BitVec 2)
  /-- R266. Reduces f32 elements by VFMIN. -/
  | cpyrMinF32 (d : Reg) (a : Reg) (q : BitVec 2)
  /-- R266. Reduces f32 elements by VFMAX. -/
  | cpyrMaxF32 (d : Reg) (a : Reg) (q : BitVec 2)
  /-- R266. Reduces 32-bit elements by AND. -/
  | cpyrAnd (d : Reg) (a : Reg) (q : BitVec 2)
  /-- R266. Reduces 32-bit elements by OR. -/
  | cpyrOr (d : Reg) (a : Reg) (q : BitVec 2)
  /-- R267. Gathers elements by a 32-bit index array into the stash. -/
  | cpyg (d : Reg) (a : Reg) (q : BitVec 2)
  /-- R268. Sends 64-byte packets that each start a landing handler on the named core. -/
  | cpyh (d : Reg) (a : Reg) (q : BitVec 2)
  /-- R269. Copies whole blocks, re-encoding them and handling poison in the destination class. -/
  | cpyx (d : Reg) (a : Reg) (q : BitVec 2)
  /-- R270. Samples one copy queue's state for this thread into rd. -/
  | cpyq (d : Reg) (q : BitVec 2)
  /-- R298. Calls a pure task: watches its frames, looks it up and hits or runs it. -/
  | ptask (d : Reg) (a : Reg)
  /-- R303. Drops or voids the tenant's entries that source a range. -/
  | ptinv (a : Reg) (b : Reg)
  /-- R304. Reads a tenant Chicory counter, PTQUOTA or PTVIOL into rd. -/
  | ptstat (d : Reg) (a : Reg)
  /-- R182. Copies bytes to a peer over a connection. -/
  | nput (d : Reg) (a : Reg)
  /-- R182. Copies bytes from a peer over a connection. -/
  | nget (d : Reg) (a : Reg)
  /-- R184. Offers a tagged payload to the peer's Yarrow engine. -/
  | nsend (d : Reg) (a : Reg)
  /-- R185. Posts a receive, first matching it against the unexpected queue. -/
  | nrecv (d : Reg) (a : Reg)
  /-- R183. Places a wait entry that holds a connection's later commands until another's count is reached. -/
  | nchain (d : Reg) (a : Reg) (b : Reg)
  /-- R183. Reads a connection's completion count. -/
  | ncnt (d : Reg) (a : Reg)
  /-- R186. Atomically hands out the next block index of an assignment queue. -/
  | bqpop (d : Reg) (a : Reg)
  /-- R186. Release that marks a block done and puts completion when all are done. -/
  | bqdone (a : Reg) (b : Reg)
  /-- R125. Acts as release and acquire, waits for UNACK 0 and invalidates every unowned word. -/
  | fence
  /-- R125. A FENCE that also waits for every engine command of the hart to complete. -/
  | fenceE
  /-- R126. Waits for earlier stores and discards the core's fetched instructions. -/
  | iflush
  /-- R173. Ends an activation after UNACK drains, pops its slot and releases its activation buffer; EXIT in a thread. -/
  | hend
  /-- R71. Raises SYSCALL, cause 0x13, precisely. -/
  | syscall
  /-- R71. Raises BREAK, cause 0x14, precisely. -/
  | brk
  /-- R72. Returns from the current trap level, restoring mode and trap enable. -/
  | tret
  /-- R73. Sleeps the hart until an arrival, a pending trap or a save and resume. -/
  | idle
  /-- R74. Gives up the hart's next issue slot to another ready hart. -/
  | yield
  /-- R75. Waits for UNACK 0, takes any pending refusal and ends the thread, leaving an exited entry. -/
  | exit
  /-- R159. A pending asynchronous cause or refusal of the current hart is taken. -/
  | takePendingTrap
  /-- R6. A write to a register with no row of its own. -/
  | registerWrite
  /-- R27. Writes hart roles. -/
  | hroleWrite
  /-- R38. The landing port decides an arrival. -/
  | putArrival
  /-- R44. An acknowledgement reaches its sender. -/
  | ackArrival
  /-- R36. Entry `k` of the core's departure table expires. -/
  | departureExpiry
  /-- R63. The data of outstanding load `id` of slot `h` returns. -/
  | loadReturn
  /-- R66. Store `id` to a remote stash window is written there. -/
  | remoteStashWrite
  /-- R163. Entry `id` of a core's side log is replayed. -/
  | sideLogReplay
  /-- R87. A full write to MSGPORT of function `f`. -/
  | directStart
  /-- R87. A full write to SUBMIT of function `f`. -/
  | submission
  /-- R88. The launch service takes up the next record of die `die`. -/
  | launchRecordProcess
  /-- R89. Waiting thread `n` of launch `l` starts. -/
  | threadStart
  /-- R100. The release signatures rotate generations. -/
  | signatureGeneration
  /-- R97. The current hart writes STMAP register `k`. -/
  | stmapWrite
  /-- R128. A barrier operation is applied at its home. -/
  | barrierUpdate
  /-- R142. Writes word `hi` of a handler-table entry. -/
  | handlerTableWrite
  /-- R176. Writes word 1 of a software queue. -/
  | softwareQueueWrite
  /-- R143. A message arrives at its destination channel. -/
  | messageArrival
  /-- R143. A deferred message is offered again. -/
  | messageReoffer
  /-- R170. The outcome of a message reaches its sender. -/
  | messageOutcome
  /-- R152. A waiting returned message enters channel 1. -/
  | returnBufferDrain
  /-- R146. An activation is dispatched on the core. -/
  | activationDispatch
  /-- R149. The watchdog budget of slot `h` runs out. -/
  | watchdogExpiry
  /-- R149. The grace of slot `h` runs out. -/
  | watchdogKill
  /-- R164. The reporting port writes the oldest waiting record of a ring. -/
  | ringRecordWrite
  /-- R165. FAULTRES of function `f` with action retry. -/
  | faultresRetry
  /-- R165. FAULTRES of function `f` with action terminal. -/
  | faultresTerminal
  /-- R167. Thaws hart `k` of core `g`. -/
  | frzThawHart
  /-- R167. Thaws copy queue `k` of core `g`. -/
  | frzThawCq
  /-- R167. Ends the frozen occupant of hart `k` of core `g`. -/
  | frzkillHart
  /-- R167. Drops the commands of frozen copy queue `k` of core `g`. -/
  | frzkillCq
  /-- R195. Writes word 0 of connection `c`. -/
  | connectionWrite
  /-- R191. A link die receives packet `seq` of a flow. -/
  | fabricPacketReceive
  /-- R191. Packet `seq` of a flow is resent. -/
  | packetRetransmit
  /-- R192. A dead element leaves the routing tables. -/
  | routeRemoval
  /-- R192. A peer is lost. -/
  | peerLost
  /-- R183. Command `id` of connection `c` completes with a code (and the bytes an NGET read). -/
  | fabricCommandComplete
  /-- R187. The receiver asks link `k` to replay; `crc` tells a CRC failure, `fail` that the same flit failed again. -/
  | linkReplay
  /-- R188. Lane `lane` of link `k` crosses the error threshold. -/
  | laneSpare
  /-- R189. A peer signals on link `k`. -/
  | linkPeerSignal
  /-- R189. Training of link `k` ends. -/
  | linkTrained
  /-- R189. The peer of link `k` has been silent for 1 us. -/
  | linkPeerSilent
  /-- R189. Link `k` has drained. -/
  | linkQuiesced
  /-- R323. Quiesce command. -/
  | lnkcmdQuiesce
  /-- R323. Detach command. -/
  | lnkcmdDetach
  /-- R323. Resume command. -/
  | lnkcmdResume
  /-- R323. Reattach command. -/
  | lnkcmdReattach
  /-- R199. A send reaches the tenant's Yarrow engine. -/
  | yarrowSendArrival
  /-- R200. The pull of a matched rendezvous send ends with its bytes; `ok` false = a terminal fault at the sender. -/
  | rendezvousPull
  /-- R201. The head send of connection `c`, refused before, is retried. -/
  | nsendRetry
  /-- R203. Writes word `k` of an assignment queue. -/
  | assignQueueWrite
  /-- R251. A queued engine command starts. -/
  | engineCommandStart
  /-- R255. The oldest waiting command of die `die` receives leave. -/
  | leaveGrant
  /-- R321. The pools are refilled; `ext` is the energy measured outside the compute dies in nJ. -/
  | cloverRefill
  /-- R243. The matrix unit of a cluster performs its next step. -/
  | matrixStepComplete
  /-- R250. Quarter-array `k` of a cluster is gated. -/
  | arrayGate
  /-- R250. The gated quarters of a cluster are awake. -/
  | arrayWakeDone
  /-- R244. Writes MXWT of the writer's core. -/
  | mxwtWrite
  /-- R250. Writes MXIDLE of the writer's cluster. -/
  | mxidleWrite
  /-- R253. The next piece of the head command of copy queue `q` is performed. -/
  | copyPieceDone
  /-- R254. A CPYH packet starts a landing handler. -/
  | landingHandlerStart
  /-- R283. A write is about to be performed to 4 KiB frame `f`. -/
  | chicoryInvalidation
  /-- R285. Writes the Class Map entry of frame `f`. -/
  | classMapWrite
  /-- R294. A new error-budget window of partition `p` begins. -/
  | ebudgetWindow
  /-- R293. Lockstepped clusters 2k and 2k + 1 differ. -/
  | lockstepMismatch
  /-- R307. Slice end of partition `p`. -/
  | sliceEnd
  /-- R49. Every core of partition `p` has finished the slice-end steps. -/
  | sliceEndDone
  /-- R307. Restore of partition `p`. -/
  | restore
  /-- R50. Every core of partition `p` has finished the restore steps. -/
  | restoreDone
  /-- R307. Teardown of partition `p`. -/
  | teardown
  /-- R306. Writes dword `k` of the record of partition `p`. -/
  | partitionWrite
  /-- R306. 10 us of TIME have passed. -/
  | tbuTick
  /-- R309. Launch `l` has reached its time budget. -/
  | launchBudgetExpiry
  /-- R314. Writes dword 1 of a ring with EN set. -/
  | ringEnable
  /-- R314. Writes RD of a ring. -/
  | ringRdWrite
  /-- R315. Writes VFFRZ. -/
  | vfThaw
  /-- R315. Writes VFKILL. -/
  | vfKill
  /-- R316. Writes FEATACC register `k`. -/
  | feataccWrite
  /-- R317. Reset: the start-up steps, stopping at step `fail` (1 to 5) if given; the manifest's node number. -/
  | boot
  /-- R318. Writes NODEID. -/
  | nodeidWrite
  /-- R319. Writes the 32-byte nonce. -/
  | attnonceWrite
  /-- R319. The report becomes readable. -/
  | attestationReportDone
  /-- R322. EMTHROT_N goes low. -/
  | emthrotAssert
  /-- R322. EMTHROT_N is released. -/
  | emthrotRelease
  /-- R323. TRAYPRES_N goes high. -/
  | traypresNHigh
  /-- R324. A private write: offset, then data. -/
  | i3cPrivateWrite
  /-- R324. A private read from the last offset written. -/
  | i3cPrivateRead
  /-- R324. A broadcast write of the cap of a group. -/
  | i3cBroadcastCap
  /-- R22. The bits fetched at the PC decode to no instruction. -/
  | illegalEncoding
  /-- R13. A halfword of the instruction at the PC cannot be fetched. -/
  | instructionFetchFault
  /-- R99. Store `id` is performed at its home. -/
  | storePerformed
  /-- R281. The head PTASK of copy queue 0 of a core finishes its hash and the table is searched. -/
  | chicoryLookup
deriving DecidableEq, Repr

end Sys2Proof
end

