-- ==== Sys2Proof/WellFormed.lean ====
section
/-! DEFINITION. The limits R21 places on field values beyond the widths the syntax already carries (R17, R19, R21, R22). An
encoding whose instruction breaks one of them raises ILLEGAL. -/

namespace Sys2Proof

/-- The names of the limits. -/
inductive IllFormed where
  /-- R17: a group base that is not a multiple of 4 -/
  | groupBase
  /-- R17: MMUL names one register other than x0 as both tokens -/
  | twoTokens
  /-- R21: an MSEND payload that runs past x31 -/
  | payload
  /-- R21: an element type the operation does not permit -/
  | elementType
  /-- R21: a BLOCK register group that starts above v27 -/
  | blockBase
  /-- R21: BLKPK with a format code other than 1 to 4 -/
  | blockFormat
  /-- R19: the halfword 0x0000 -/
  | zeroHalf
deriving DecidableEq, Repr

/-- R17: a legal group base. -/
def groupOk (b : Reg) : Bool := b.toNat % 4 == 0

def groupCheck (b : Reg) : Option IllFormed := if groupOk b then none else some .groupBase

/-- R21: VINT operations other than VAND, VOR and VXOR take types 0 to 5. -/
def intTypeCheck (t : EType) : Option IllFormed := if t.toNat ≤ 5 then none else some .elementType

/-- R21: MSEND needs rs2 + count - 1 ≤ 31. -/
def payloadCheck (b : Reg) (c : BitVec 2) : Option IllFormed :=
  if b.toNat + c.toNat ≤ 31 then none else some .payload

/-- R17: MMUL's group, then its two tokens. -/
def mmulCheck (d a b : Reg) : Option IllFormed :=
  if groupOk a then (if d = b ∧ d ≠ 0#5 then some .twoTokens else none) else some .groupBase

/-- R21: the register group of BLKUNP and BLKPK. -/
def blockBaseCheck (d : Reg) : Option IllFormed := if d.toNat ≤ 27 then none else some .blockBase

/-- The limit an instruction breaks, if any (R22). -/
def Instr.check : Instr → Option IllFormed
  | .spawn _ a _ => groupCheck a
  | .armlr _ b => groupCheck b
  | .mmul d a b => mmulCheck d a b
  | .mstw _ a => groupCheck a
  | .mldw _ a => groupCheck a
  | .cpy _ a _ => groupCheck a
  | .cpyrAddS32 _ a _ => groupCheck a
  | .cpyrAddF32 _ a _ => groupCheck a
  | .cpyrAddBf16 _ a _ => groupCheck a
  | .cpyrMinS32 _ a _ => groupCheck a
  | .cpyrMaxS32 _ a _ => groupCheck a
  | .cpyrMinF32 _ a _ => groupCheck a
  | .cpyrMaxF32 _ a _ => groupCheck a
  | .cpyrAnd _ a _ => groupCheck a
  | .cpyrOr _ a _ => groupCheck a
  | .cpyg _ a _ => groupCheck a
  | .cpyh _ a _ => groupCheck a
  | .cpyx _ a _ => groupCheck a
  | .ptask _ a => groupCheck a
  | .nput _ a => groupCheck a
  | .nget _ a => groupCheck a
  | .nsend _ a => groupCheck a
  | .nrecv _ a => groupCheck a
  | .msend _ b c => payloadCheck b c
  | .msendS _ _ b c => payloadCheck b c
  | .vadd _ _ _ t _ _ => intTypeCheck t
  | .vsub _ _ _ t _ _ => intTypeCheck t
  | .vmul _ _ _ t _ _ => intTypeCheck t
  | .vmulh _ _ _ t _ _ => intTypeCheck t
  | .vmin _ _ _ t _ _ => intTypeCheck t
  | .vmax _ _ _ t _ _ => intTypeCheck t
  | .vshl _ _ _ t _ _ => intTypeCheck t
  | .vshr _ _ _ t _ _ => intTypeCheck t
  | .vsra _ _ _ t _ _ => intTypeCheck t
  | .vabs _ _ t _ => intTypeCheck t
  | .vneg _ _ t _ => intTypeCheck t
  | .vadds _ _ _ t _ _ => intTypeCheck t
  | .vsubs _ _ _ t _ _ => intTypeCheck t
  | .vmad _ _ _ t _ _ => intTypeCheck t
  | .blkunp d _ => blockBaseCheck d
  | .blkpk d _ t => if 1 ≤ t.toNat ∧ t.toNat ≤ 4 then blockBaseCheck d else some .blockFormat
  | .vmov16 d b m => if d = 0#5 ∧ b = 0#5 ∧ m = false then some .zeroHalf else none
  | _ => none

/-- An instruction that breaks no limit. -/
def Instr.wf (i : Instr) : Bool := i.check.isNone

end Sys2Proof
end

