-- ==== Sys2Proof/Decode.lean ====
section
/-! DEFINITION. The decoder, total on any bytes and rejecting by name (R13 to R22), and after it the encoder, written from
the same layouts. -/

namespace Sys2Proof

/-- Why bytes are no instruction; each raises ILLEGAL, cause 0x01, but for bytes that are not all there (R22). -/
inductive DecodeError where
  /-- fewer bytes than the length R13 reads from the first halfword -/
  | truncated
  /-- no row of R21 or R19 has these bits -/
  | unassigned (bits : BitVec 32)
  /-- the fields break a limit of R21 -/
  | illFormed (bits : BitVec 32) (why : IllFormed)
deriving DecidableEq, Repr

/-- R21, major 0x01 OPR. -/
def decOpr (f7 : BitVec 7) (rs2 : BitVec 5) (f3 : BitVec 3) (rs1 rd : BitVec 5) : Option Instr :=
  if f7 = 0x0#7 ∧ f3 = 0x0#3 then some (.add rd rs1 rs2)
  else if f7 = 0x1#7 ∧ f3 = 0x0#3 then some (.sub rd rs1 rs2)
  else if f7 = 0x2#7 ∧ f3 = 0x0#3 then some (.min rd rs1 rs2)
  else if f7 = 0x3#7 ∧ f3 = 0x0#3 then some (.max rd rs1 rs2)
  else if f7 = 0x4#7 ∧ f3 = 0x0#3 then some (.minu rd rs1 rs2)
  else if f7 = 0x5#7 ∧ f3 = 0x0#3 then some (.maxu rd rs1 rs2)
  else if f7 = 0x6#7 ∧ f3 = 0x0#3 then some (.slt rd rs1 rs2)
  else if f7 = 0x7#7 ∧ f3 = 0x0#3 then some (.sltu rd rs1 rs2)
  else if f7 = 0x0#7 ∧ f3 = 0x1#3 then some (.and rd rs1 rs2)
  else if f7 = 0x1#7 ∧ f3 = 0x1#3 then some (.or rd rs1 rs2)
  else if f7 = 0x2#7 ∧ f3 = 0x1#3 then some (.xor rd rs1 rs2)
  else if f7 = 0x3#7 ∧ f3 = 0x1#3 then some (.andn rd rs1 rs2)
  else if f7 = 0x4#7 ∧ f3 = 0x1#3 then some (.orn rd rs1 rs2)
  else if f7 = 0x5#7 ∧ f3 = 0x1#3 then some (.xnor rd rs1 rs2)
  else if f7 = 0x0#7 ∧ f3 = 0x2#3 then some (.sll rd rs1 rs2)
  else if f7 = 0x1#7 ∧ f3 = 0x2#3 then some (.srl rd rs1 rs2)
  else if f7 = 0x2#7 ∧ f3 = 0x2#3 then some (.sra rd rs1 rs2)
  else if f7 = 0x3#7 ∧ f3 = 0x2#3 then some (.rol rd rs1 rs2)
  else if f7 = 0x4#7 ∧ f3 = 0x2#3 then some (.ror rd rs1 rs2)
  else if f7 = 0x0#7 ∧ f3 = 0x3#3 then some (.mul rd rs1 rs2)
  else if f7 = 0x1#7 ∧ f3 = 0x3#3 then some (.mulh rd rs1 rs2)
  else if f7 = 0x2#7 ∧ f3 = 0x3#3 then some (.mulhu rd rs1 rs2)
  else if f7 = 0x3#7 ∧ f3 = 0x3#3 then some (.div rd rs1 rs2)
  else if f7 = 0x4#7 ∧ f3 = 0x3#3 then some (.divu rd rs1 rs2)
  else if f7 = 0x5#7 ∧ f3 = 0x3#3 then some (.rem rd rs1 rs2)
  else if f7 = 0x6#7 ∧ f3 = 0x3#3 then some (.remu rd rs1 rs2)
  else if f7 = 0x0#7 ∧ rs2 = 0x0#5 ∧ f3 = 0x4#3 then some (.clz rd rs1)
  else if f7 = 0x1#7 ∧ rs2 = 0x0#5 ∧ f3 = 0x4#3 then some (.ctz rd rs1)
  else if f7 = 0x2#7 ∧ rs2 = 0x0#5 ∧ f3 = 0x4#3 then some (.popc rd rs1)
  else if f7 = 0x3#7 ∧ rs2 = 0x0#5 ∧ f3 = 0x4#3 then some (.brev rd rs1)
  else if f7 = 0x0#7 ∧ f3 = 0x5#3 then some (.bext rd rs1 rs2)
  else if f7 = 0x1#7 ∧ f3 = 0x5#3 then some (.bins rd rs1 rs2)
  else none

/-- R21, major 0x02 OPI. -/
def decOpi (f7 : BitVec 7) (rs2 : BitVec 5) (f3 : BitVec 3) (rs1 rd : BitVec 5) : Option Instr :=
  if f3 = 0x0#3 then some (.addi rd rs1 (f7 ++ rs2))
  else if f3 = 0x1#3 then some (.andi rd rs1 (f7 ++ rs2))
  else if f3 = 0x2#3 then some (.ori rd rs1 (f7 ++ rs2))
  else if f3 = 0x3#3 then some (.xori rd rs1 (f7 ++ rs2))
  else if f7.extractLsb' 1 6 = 0x0#6 ∧ f3 = 0x4#3 then some (.slli rd rs1 ((f7.extractLsb' 0 1) ++ rs2))
  else if f7.extractLsb' 1 6 = 0x0#6 ∧ f3 = 0x5#3 then some (.srli rd rs1 ((f7.extractLsb' 0 1) ++ rs2))
  else if f7.extractLsb' 1 6 = 0x0#6 ∧ f3 = 0x6#3 then some (.srai rd rs1 ((f7.extractLsb' 0 1) ++ rs2))
  else if f3 = 0x7#3 then some (.slti rd rs1 (f7 ++ rs2))
  else none

/-- R21, major 0x03 LIH. -/
def decLih (f7 : BitVec 7) (rs2 : BitVec 5) (f3 : BitVec 3) (rs1 rd : BitVec 5) : Option Instr :=
  some (.lih rd (f7 ++ rs2 ++ f3 ++ rs1))

/-- R21, major 0x04 LPC. -/
def decLpc (f7 : BitVec 7) (rs2 : BitVec 5) (f3 : BitVec 3) (rs1 rd : BitVec 5) : Option Instr :=
  some (.lpc rd (f7 ++ rs2 ++ f3 ++ rs1))

/-- R21, major 0x05 BRC. -/
def decBrc (f7 : BitVec 7) (rs2 : BitVec 5) (f3 : BitVec 3) (rs1 rd : BitVec 5) : Option Instr :=
  if f3 = 0x0#3 then some (.beq rs1 rs2 (f7 ++ rd))
  else if f3 = 0x1#3 then some (.bne rs1 rs2 (f7 ++ rd))
  else if f3 = 0x2#3 then some (.blt rs1 rs2 (f7 ++ rd))
  else if f3 = 0x3#3 then some (.bge rs1 rs2 (f7 ++ rd))
  else if f3 = 0x4#3 then some (.bltu rs1 rs2 (f7 ++ rd))
  else if f3 = 0x5#3 then some (.bgeu rs1 rs2 (f7 ++ rd))
  else if rs2 = 0x0#5 ∧ f3 = 0x6#3 then some (.brdy rs1 (f7 ++ rd))
  else if rs2 = 0x0#5 ∧ f3 = 0x7#3 then some (.bnrdy rs1 (f7 ++ rd))
  else none

/-- R21, major 0x06 JL. -/
def decJl (f7 : BitVec 7) (rs2 : BitVec 5) (f3 : BitVec 3) (rs1 rd : BitVec 5) : Option Instr :=
  some (.jl rd (f7 ++ rs2 ++ f3 ++ rs1))

/-- R21, major 0x07 JLR. -/
def decJlr (f7 : BitVec 7) (rs2 : BitVec 5) (f3 : BitVec 3) (rs1 rd : BitVec 5) : Option Instr :=
  if f3 = 0x0#3 then some (.jlr rd rs1 (f7 ++ rs2))
  else none

/-- R21, major 0x08 LOAD. -/
def decLoad (f7 : BitVec 7) (rs2 : BitVec 5) (f3 : BitVec 3) (rs1 rd : BitVec 5) : Option Instr :=
  if f3 = 0x0#3 then some (.ldB rd rs1 (f7 ++ rs2))
  else if f3 = 0x1#3 then some (.ldH rd rs1 (f7 ++ rs2))
  else if f3 = 0x2#3 then some (.ldW rd rs1 (f7 ++ rs2))
  else if f3 = 0x3#3 then some (.ldD rd rs1 (f7 ++ rs2))
  else if f3 = 0x4#3 then some (.lduB rd rs1 (f7 ++ rs2))
  else if f3 = 0x5#3 then some (.lduH rd rs1 (f7 ++ rs2))
  else if f3 = 0x6#3 then some (.lduW rd rs1 (f7 ++ rs2))
  else if f3 = 0x7#3 then some (.ldT rd rs1 (f7 ++ rs2))
  else none

/-- R21, major 0x09 STORE. -/
def decStore (f7 : BitVec 7) (rs2 : BitVec 5) (f3 : BitVec 3) (rs1 rd : BitVec 5) : Option Instr :=
  if f3 = 0x0#3 then some (.stB rs1 rs2 (f7 ++ rd))
  else if f3 = 0x1#3 then some (.stH rs1 rs2 (f7 ++ rd))
  else if f3 = 0x2#3 then some (.stW rs1 rs2 (f7 ++ rd))
  else if f3 = 0x3#3 then some (.stD rs1 rs2 (f7 ++ rd))
  else if f3 = 0x7#3 then some (.stT rs1 rs2 (f7 ++ rd))
  else none

/-- R21, major 0x0A ORDER. -/
def decOrder (f7 : BitVec 7) (rs2 : BitVec 5) (f3 : BitVec 3) (rs1 rd : BitVec 5) : Option Instr :=
  if f7 = 0x0#7 ∧ rs2 = 0x0#5 ∧ f3 = 0x0#3 then some (.ldAq rd rs1)
  else if f7 = 0x0#7 ∧ f3 = 0x1#3 ∧ rd = 0x0#5 then some (.stRl rs1 rs2)
  else if f7 = 0x0#7 ∧ f3 = 0x2#3 ∧ rd = 0x0#5 then some (.ldto rs1 rs2)
  else if f7 = 0x0#7 ∧ f3 = 0x3#3 ∧ rd = 0x0#5 then some (.ldtoW rs1 rs2)
  else none

/-- R21, major 0x0B AMO. -/
def decAmo (f7 : BitVec 7) (rs2 : BitVec 5) (f3 : BitVec 3) (rs1 rd : BitVec 5) : Option Instr :=
  if f7.extractLsb' 2 5 = 0x0#5 ∧ f3 = 0x2#3 then some (.amoswapW rd rs1 rs2 (f7.extractLsb' 1 1 == 1#1) (f7.extractLsb' 0 1 == 1#1))
  else if f7.extractLsb' 2 5 = 0x0#5 ∧ f3 = 0x3#3 then some (.amoswapD rd rs1 rs2 (f7.extractLsb' 1 1 == 1#1) (f7.extractLsb' 0 1 == 1#1))
  else if f7.extractLsb' 2 5 = 0x1#5 ∧ f3 = 0x2#3 then some (.amoaddW rd rs1 rs2 (f7.extractLsb' 1 1 == 1#1) (f7.extractLsb' 0 1 == 1#1))
  else if f7.extractLsb' 2 5 = 0x1#5 ∧ f3 = 0x3#3 then some (.amoaddD rd rs1 rs2 (f7.extractLsb' 1 1 == 1#1) (f7.extractLsb' 0 1 == 1#1))
  else if f7.extractLsb' 2 5 = 0x2#5 ∧ f3 = 0x2#3 then some (.amoandW rd rs1 rs2 (f7.extractLsb' 1 1 == 1#1) (f7.extractLsb' 0 1 == 1#1))
  else if f7.extractLsb' 2 5 = 0x2#5 ∧ f3 = 0x3#3 then some (.amoandD rd rs1 rs2 (f7.extractLsb' 1 1 == 1#1) (f7.extractLsb' 0 1 == 1#1))
  else if f7.extractLsb' 2 5 = 0x3#5 ∧ f3 = 0x2#3 then some (.amoorW rd rs1 rs2 (f7.extractLsb' 1 1 == 1#1) (f7.extractLsb' 0 1 == 1#1))
  else if f7.extractLsb' 2 5 = 0x3#5 ∧ f3 = 0x3#3 then some (.amoorD rd rs1 rs2 (f7.extractLsb' 1 1 == 1#1) (f7.extractLsb' 0 1 == 1#1))
  else if f7.extractLsb' 2 5 = 0x4#5 ∧ f3 = 0x2#3 then some (.amoxorW rd rs1 rs2 (f7.extractLsb' 1 1 == 1#1) (f7.extractLsb' 0 1 == 1#1))
  else if f7.extractLsb' 2 5 = 0x4#5 ∧ f3 = 0x3#3 then some (.amoxorD rd rs1 rs2 (f7.extractLsb' 1 1 == 1#1) (f7.extractLsb' 0 1 == 1#1))
  else if f7.extractLsb' 2 5 = 0x5#5 ∧ f3 = 0x2#3 then some (.amominW rd rs1 rs2 (f7.extractLsb' 1 1 == 1#1) (f7.extractLsb' 0 1 == 1#1))
  else if f7.extractLsb' 2 5 = 0x5#5 ∧ f3 = 0x3#3 then some (.amominD rd rs1 rs2 (f7.extractLsb' 1 1 == 1#1) (f7.extractLsb' 0 1 == 1#1))
  else if f7.extractLsb' 2 5 = 0x6#5 ∧ f3 = 0x2#3 then some (.amomaxW rd rs1 rs2 (f7.extractLsb' 1 1 == 1#1) (f7.extractLsb' 0 1 == 1#1))
  else if f7.extractLsb' 2 5 = 0x6#5 ∧ f3 = 0x3#3 then some (.amomaxD rd rs1 rs2 (f7.extractLsb' 1 1 == 1#1) (f7.extractLsb' 0 1 == 1#1))
  else if f7.extractLsb' 2 5 = 0x7#5 ∧ f3 = 0x2#3 then some (.amominuW rd rs1 rs2 (f7.extractLsb' 1 1 == 1#1) (f7.extractLsb' 0 1 == 1#1))
  else if f7.extractLsb' 2 5 = 0x7#5 ∧ f3 = 0x3#3 then some (.amominuD rd rs1 rs2 (f7.extractLsb' 1 1 == 1#1) (f7.extractLsb' 0 1 == 1#1))
  else if f7.extractLsb' 2 5 = 0x8#5 ∧ f3 = 0x2#3 then some (.amomaxuW rd rs1 rs2 (f7.extractLsb' 1 1 == 1#1) (f7.extractLsb' 0 1 == 1#1))
  else if f7.extractLsb' 2 5 = 0x8#5 ∧ f3 = 0x3#3 then some (.amomaxuD rd rs1 rs2 (f7.extractLsb' 1 1 == 1#1) (f7.extractLsb' 0 1 == 1#1))
  else if f7.extractLsb' 2 5 = 0x9#5 ∧ f3 = 0x2#3 then some (.amocasW rd rs1 rs2 (f7.extractLsb' 1 1 == 1#1) (f7.extractLsb' 0 1 == 1#1))
  else if f7.extractLsb' 2 5 = 0x9#5 ∧ f3 = 0x3#3 then some (.amocasD rd rs1 rs2 (f7.extractLsb' 1 1 == 1#1) (f7.extractLsb' 0 1 == 1#1))
  else if f7.extractLsb' 2 5 = 0xA#5 ∧ f3 = 0x2#3 then some (.amofaddW rd rs1 rs2 (f7.extractLsb' 1 1 == 1#1) (f7.extractLsb' 0 1 == 1#1))
  else none

/-- R21, major 0x0C SYNC. -/
def decSync (f7 : BitVec 7) (rs2 : BitVec 5) (f3 : BitVec 3) (rs1 rd : BitVec 5) : Option Instr :=
  if f7 = 0x0#7 ∧ rs2 = 0x0#5 ∧ f3 = 0x0#3 ∧ rs1 = 0x0#5 ∧ rd = 0x0#5 then some (.fence)
  else if f7 = 0x0#7 ∧ rs2 = 0x1#5 ∧ f3 = 0x0#3 ∧ rs1 = 0x0#5 ∧ rd = 0x0#5 then some (.fenceE)
  else if f7 = 0x0#7 ∧ rs2 = 0x0#5 ∧ f3 = 0x1#3 ∧ rs1 = 0x0#5 ∧ rd = 0x0#5 then some (.iflush)
  else if f7 = 0x0#7 ∧ f3 = 0x2#3 ∧ rd = 0x0#5 then some (.barexp rs1 rs2)
  else if f7 = 0x0#7 ∧ f3 = 0x3#3 ∧ rd = 0x0#5 then some (.bararr rs1 rs2)
  else if f7 = 0x0#7 ∧ f3 = 0x4#3 then some (.barwait rd rs1 rs2)
  else none

/-- R21, major 0x0D REMOTE. -/
def decRemote (f7 : BitVec 7) (rs2 : BitVec 5) (f3 : BitVec 3) (rs1 rd : BitVec 5) : Option Instr :=
  if f7.extractLsb' 1 6 = 0x0#6 ∧ f3 = 0x0#3 ∧ rd = 0x0#5 then some (.rput rs1 rs2 (f7.extractLsb' 0 1 == 1#1))
  else if f7.extractLsb' 1 6 = 0x1#6 ∧ f3 = 0x0#3 then some (.rputS rd rs1 rs2 (f7.extractLsb' 0 1 == 1#1))
  else if f7.extractLsb' 1 6 = 0x0#6 ∧ f3 = 0x1#3 ∧ rd = 0x0#5 then some (.rputv rs1 rs2 (f7.extractLsb' 0 1 == 1#1))
  else if f7.extractLsb' 1 6 = 0x1#6 ∧ f3 = 0x1#3 then some (.rputvS rd rs1 rs2 (f7.extractLsb' 0 1 == 1#1))
  else if f7 = 0x0#7 ∧ rs2 = 0x0#5 ∧ f3 = 0x2#3 ∧ rs1 = 0x0#5 then some (.arm rd)
  else if f7 = 0x0#7 ∧ rs2 = 0x0#5 ∧ f3 = 0x3#3 ∧ rs1 = 0x0#5 then some (.armv rd)
  else none

/-- R21, major 0x0E MSG. -/
def decMsg (f7 : BitVec 7) (rs2 : BitVec 5) (f3 : BitVec 3) (rs1 rd : BitVec 5) : Option Instr :=
  if f7.extractLsb' 2 5 = 0x0#5 ∧ f3 = 0x0#3 ∧ rd = 0x0#5 then some (.msend rs1 rs2 ((f7.extractLsb' 0 2)))
  else if f7.extractLsb' 2 5 = 0x1#5 ∧ f3 = 0x0#3 then some (.msendS rd rs1 rs2 ((f7.extractLsb' 0 2)))
  else if f7 = 0x0#7 ∧ f3 = 0x1#3 then some (.callat rd rs1 rs2)
  else if f7 = 0x0#7 ∧ rs2 = 0x0#5 ∧ f3 = 0x2#3 ∧ rs1 = 0x0#5 ∧ rd = 0x0#5 then some (.hend)
  else if f7 = 0x0#7 ∧ rs2 = 0x0#5 ∧ f3 = 0x3#3 ∧ rd = 0x0#5 then some (.hmask rs1)
  else if f7 = 0x1#7 ∧ rs2 = 0x0#5 ∧ f3 = 0x3#3 ∧ rd = 0x0#5 then some (.hunmask rs1)
  else none

/-- R21, major 0x0F QUEUE. -/
def decQueue (f7 : BitVec 7) (rs2 : BitVec 5) (f3 : BitVec 3) (rs1 rd : BitVec 5) : Option Instr :=
  if f3 = 0x0#3 ∧ rd.extractLsb' 4 1 = 0x0#1 then some (.qpop ((rd.extractLsb' 0 4)) rs1 (f7 ++ rs2))
  else if f3 = 0x1#3 ∧ rd.extractLsb' 4 1 = 0x0#1 then some (.qadv ((rd.extractLsb' 0 4)) rs1 (f7 ++ rs2))
  else if f3 = 0x2#3 ∧ rs1.extractLsb' 4 1 = 0x0#1 then some (.qcnt rd ((rs1.extractLsb' 0 4)) (f7 ++ rs2))
  else if f3 = 0x3#3 ∧ rd.extractLsb' 4 1 = 0x0#1 then some (.qcfg ((rd.extractLsb' 0 4)) rs1 (f7 ++ rs2))
  else if f3 = 0x4#3 ∧ rd.extractLsb' 4 1 = 0x0#1 then some (.qwait ((rd.extractLsb' 0 4)) rs1 (f7 ++ rs2))
  else none

/-- R21, major 0x10 SYS. -/
def decSys (f7 : BitVec 7) (rs2 : BitVec 5) (f3 : BitVec 3) (rs1 rd : BitVec 5) : Option Instr :=
  if f7 = 0x0#7 ∧ rs2 = 0x0#5 ∧ f3 = 0x0#3 ∧ rs1 = 0x0#5 ∧ rd = 0x0#5 then some (.syscall)
  else if f7 = 0x0#7 ∧ rs2 = 0x1#5 ∧ f3 = 0x0#3 ∧ rs1 = 0x0#5 ∧ rd = 0x0#5 then some (.brk)
  else if f7 = 0x0#7 ∧ rs2 = 0x2#5 ∧ f3 = 0x0#3 ∧ rs1 = 0x0#5 ∧ rd = 0x0#5 then some (.tret)
  else if f7 = 0x0#7 ∧ rs2 = 0x3#5 ∧ f3 = 0x0#3 ∧ rs1 = 0x0#5 ∧ rd = 0x0#5 then some (.idle)
  else if f7 = 0x0#7 ∧ rs2 = 0x4#5 ∧ f3 = 0x0#3 ∧ rs1 = 0x0#5 ∧ rd = 0x0#5 then some (.yield)
  else if f7 = 0x0#7 ∧ rs2 = 0x5#5 ∧ f3 = 0x0#3 ∧ rs1 = 0x0#5 ∧ rd = 0x0#5 then some (.exit)
  else if f3 = 0x1#3 then some (.csrr rd rs1 (f7 ++ rs2))
  else if f3 = 0x2#3 then some (.csrw rd rs1 (f7 ++ rs2))
  else if f3 = 0x3#3 then some (.csrs rd rs1 (f7 ++ rs2))
  else if f3 = 0x4#3 then some (.csrc rd rs1 (f7 ++ rs2))
  else if f7 = 0x0#7 ∧ rs2 = 0x0#5 ∧ f3 = 0x5#3 then some (.tlbinvAll rs1 rd)
  else if f7 = 0x0#7 ∧ rs2 = 0x1#5 ∧ f3 = 0x5#3 then some (.tlbinvAsid rs1 rd)
  else if f7 = 0x0#7 ∧ rs2 = 0x2#5 ∧ f3 = 0x5#3 then some (.tlbinvVa rs1 rd)
  else if f7 = 0x0#7 ∧ rs2 = 0x3#5 ∧ f3 = 0x5#3 then some (.tlbinvStage2 rs1 rd)
  else if f7 = 0x0#7 ∧ rs2 = 0x0#5 ∧ f3 = 0x6#3 ∧ rd = 0x0#5 then some (.park rs1)
  else if f7 = 0x0#7 ∧ rs2 = 0x1#5 ∧ f3 = 0x6#3 ∧ rd = 0x0#5 then some (.resume rs1)
  else if f7 = 0x0#7 ∧ rs2 = 0x0#5 ∧ f3 = 0x7#3 then some (.migrate rd rs1)
  else none

/-- R21, major 0x11 LAUNCH. -/
def decLaunch (f7 : BitVec 7) (rs2 : BitVec 5) (f3 : BitVec 3) (rs1 rd : BitVec 5) : Option Instr :=
  if f7 = 0x0#7 ∧ f3 = 0x0#3 then some (.spawn rd rs1 rs2)
  else if f7 = 0x1#7 ∧ f3 = 0x0#3 ∧ rd = 0x0#5 then some (.armlr rs1 rs2)
  else if f7 = 0x2#7 ∧ f3 = 0x0#3 then some (.lchk rd rs1 rs2)
  else none

/-- R21, major 0x12 CACHE. -/
def decCache (f7 : BitVec 7) (rs2 : BitVec 5) (f3 : BitVec 3) (rs1 rd : BitVec 5) : Option Instr :=
  if f7 = 0x0#7 ∧ f3 = 0x0#3 ∧ rd = 0x0#5 then some (.rwb rs1 rs2)
  else if f7 = 0x0#7 ∧ f3 = 0x1#3 ∧ rd = 0x0#5 then some (.rinv rs1 rs2)
  else if f7 = 0x0#7 ∧ f3 = 0x2#3 ∧ rd = 0x0#5 then some (.disc rs1 rs2)
  else if f7 = 0x0#7 ∧ f3 = 0x3#3 ∧ rd = 0x0#5 then some (.pin rs1 rs2)
  else if f7 = 0x0#7 ∧ f3 = 0x4#3 ∧ rd = 0x0#5 then some (.unpin rs1 rs2)
  else if f7 = 0x0#7 ∧ f3 = 0x5#3 ∧ rd = 0x0#5 then some (.pref rs1 rs2)
  else none

/-- R21, major 0x14 VINT. -/
def decVint (f7 : BitVec 7) (rs2 : BitVec 5) (f3 : BitVec 3) (rs1 rd : BitVec 5) : Option Instr :=
  if f7.extractLsb' 2 5 = 0x0#5 then some (.vadd rd rs1 rs2 f3 (f7.extractLsb' 0 1 == 1#1) (f7.extractLsb' 1 1 == 1#1))
  else if f7.extractLsb' 2 5 = 0x1#5 then some (.vsub rd rs1 rs2 f3 (f7.extractLsb' 0 1 == 1#1) (f7.extractLsb' 1 1 == 1#1))
  else if f7.extractLsb' 2 5 = 0x2#5 then some (.vmul rd rs1 rs2 f3 (f7.extractLsb' 0 1 == 1#1) (f7.extractLsb' 1 1 == 1#1))
  else if f7.extractLsb' 2 5 = 0x3#5 then some (.vmulh rd rs1 rs2 f3 (f7.extractLsb' 0 1 == 1#1) (f7.extractLsb' 1 1 == 1#1))
  else if f7.extractLsb' 2 5 = 0x4#5 then some (.vmin rd rs1 rs2 f3 (f7.extractLsb' 0 1 == 1#1) (f7.extractLsb' 1 1 == 1#1))
  else if f7.extractLsb' 2 5 = 0x5#5 then some (.vmax rd rs1 rs2 f3 (f7.extractLsb' 0 1 == 1#1) (f7.extractLsb' 1 1 == 1#1))
  else if f7.extractLsb' 2 5 = 0x6#5 then some (.vand rd rs1 rs2 f3 (f7.extractLsb' 0 1 == 1#1) (f7.extractLsb' 1 1 == 1#1))
  else if f7.extractLsb' 2 5 = 0x7#5 then some (.vor rd rs1 rs2 f3 (f7.extractLsb' 0 1 == 1#1) (f7.extractLsb' 1 1 == 1#1))
  else if f7.extractLsb' 2 5 = 0x8#5 then some (.vxor rd rs1 rs2 f3 (f7.extractLsb' 0 1 == 1#1) (f7.extractLsb' 1 1 == 1#1))
  else if f7.extractLsb' 2 5 = 0x9#5 then some (.vshl rd rs1 rs2 f3 (f7.extractLsb' 0 1 == 1#1) (f7.extractLsb' 1 1 == 1#1))
  else if f7.extractLsb' 2 5 = 0xA#5 then some (.vshr rd rs1 rs2 f3 (f7.extractLsb' 0 1 == 1#1) (f7.extractLsb' 1 1 == 1#1))
  else if f7.extractLsb' 2 5 = 0xB#5 then some (.vsra rd rs1 rs2 f3 (f7.extractLsb' 0 1 == 1#1) (f7.extractLsb' 1 1 == 1#1))
  else if f7.extractLsb' 1 6 = 0x18#6 ∧ rs2 = 0x0#5 then some (.vabs rd rs1 f3 (f7.extractLsb' 0 1 == 1#1))
  else if f7.extractLsb' 1 6 = 0x1A#6 ∧ rs2 = 0x0#5 then some (.vneg rd rs1 f3 (f7.extractLsb' 0 1 == 1#1))
  else if f7.extractLsb' 2 5 = 0xE#5 then some (.vadds rd rs1 rs2 f3 (f7.extractLsb' 0 1 == 1#1) (f7.extractLsb' 1 1 == 1#1))
  else if f7.extractLsb' 2 5 = 0xF#5 then some (.vsubs rd rs1 rs2 f3 (f7.extractLsb' 0 1 == 1#1) (f7.extractLsb' 1 1 == 1#1))
  else if f7.extractLsb' 2 5 = 0x10#5 then some (.vmad rd rs1 rs2 f3 (f7.extractLsb' 0 1 == 1#1) (f7.extractLsb' 1 1 == 1#1))
  else none

/-- R21, major 0x15 VFLT. -/
def decVflt (f7 : BitVec 7) (rs2 : BitVec 5) (f3 : BitVec 3) (rs1 rd : BitVec 5) : Option Instr :=
  if f7.extractLsb' 2 5 = 0x0#5 ∧ f3.extractLsb' 1 2 = 0x3#2 then some (.vfadd rd rs1 rs2 ((f3.extractLsb' 0 1)) (f7.extractLsb' 0 1 == 1#1) (f7.extractLsb' 1 1 == 1#1))
  else if f7.extractLsb' 2 5 = 0x1#5 ∧ f3.extractLsb' 1 2 = 0x3#2 then some (.vfsub rd rs1 rs2 ((f3.extractLsb' 0 1)) (f7.extractLsb' 0 1 == 1#1) (f7.extractLsb' 1 1 == 1#1))
  else if f7.extractLsb' 2 5 = 0x2#5 ∧ f3.extractLsb' 1 2 = 0x3#2 then some (.vfmul rd rs1 rs2 ((f3.extractLsb' 0 1)) (f7.extractLsb' 0 1 == 1#1) (f7.extractLsb' 1 1 == 1#1))
  else if f7.extractLsb' 2 5 = 0x3#5 ∧ f3.extractLsb' 1 2 = 0x3#2 then some (.vfma rd rs1 rs2 ((f3.extractLsb' 0 1)) (f7.extractLsb' 0 1 == 1#1) (f7.extractLsb' 1 1 == 1#1))
  else if f7.extractLsb' 2 5 = 0x4#5 ∧ f3.extractLsb' 1 2 = 0x3#2 then some (.vfmin rd rs1 rs2 ((f3.extractLsb' 0 1)) (f7.extractLsb' 0 1 == 1#1) (f7.extractLsb' 1 1 == 1#1))
  else if f7.extractLsb' 2 5 = 0x5#5 ∧ f3.extractLsb' 1 2 = 0x3#2 then some (.vfmax rd rs1 rs2 ((f3.extractLsb' 0 1)) (f7.extractLsb' 0 1 == 1#1) (f7.extractLsb' 1 1 == 1#1))
  else if f7.extractLsb' 1 6 = 0xC#6 ∧ rs2 = 0x0#5 ∧ f3.extractLsb' 1 2 = 0x3#2 then some (.vfabs rd rs1 ((f3.extractLsb' 0 1)) (f7.extractLsb' 0 1 == 1#1))
  else if f7.extractLsb' 1 6 = 0xE#6 ∧ rs2 = 0x0#5 ∧ f3.extractLsb' 1 2 = 0x3#2 then some (.vfneg rd rs1 ((f3.extractLsb' 0 1)) (f7.extractLsb' 0 1 == 1#1))
  else if f7.extractLsb' 1 6 = 0x10#6 ∧ rs2 = 0x0#5 ∧ f3.extractLsb' 1 2 = 0x3#2 then some (.vexp2 rd rs1 ((f3.extractLsb' 0 1)) (f7.extractLsb' 0 1 == 1#1))
  else if f7.extractLsb' 1 6 = 0x12#6 ∧ rs2 = 0x0#5 ∧ f3.extractLsb' 1 2 = 0x3#2 then some (.vlog2 rd rs1 ((f3.extractLsb' 0 1)) (f7.extractLsb' 0 1 == 1#1))
  else if f7.extractLsb' 1 6 = 0x14#6 ∧ rs2 = 0x0#5 ∧ f3.extractLsb' 1 2 = 0x3#2 then some (.vrcp rd rs1 ((f3.extractLsb' 0 1)) (f7.extractLsb' 0 1 == 1#1))
  else if f7.extractLsb' 1 6 = 0x16#6 ∧ rs2 = 0x0#5 ∧ f3.extractLsb' 1 2 = 0x3#2 then some (.vrsq rd rs1 ((f3.extractLsb' 0 1)) (f7.extractLsb' 0 1 == 1#1))
  else none

/-- R21, major 0x16 VMEM. -/
def decVmem (f7 : BitVec 7) (rs2 : BitVec 5) (f3 : BitVec 3) (rs1 rd : BitVec 5) : Option Instr :=
  if f7.extractLsb' 1 6 = 0x0#6 ∧ rs2 = 0x0#5 then some (.vld rd rs1 f3 (f7.extractLsb' 0 1 == 1#1))
  else if f7.extractLsb' 1 6 = 0x2#6 ∧ rs2 = 0x0#5 then some (.vst rd rs1 f3 (f7.extractLsb' 0 1 == 1#1))
  else if f7.extractLsb' 1 6 = 0x4#6 then some (.vlds rd rs1 rs2 f3 (f7.extractLsb' 0 1 == 1#1))
  else if f7.extractLsb' 1 6 = 0x6#6 then some (.vsts rd rs1 rs2 f3 (f7.extractLsb' 0 1 == 1#1))
  else if f7.extractLsb' 1 6 = 0x8#6 then some (.vgath rd rs1 rs2 f3 (f7.extractLsb' 0 1 == 1#1))
  else if f7.extractLsb' 1 6 = 0xA#6 then some (.vscat rd rs1 rs2 f3 (f7.extractLsb' 0 1 == 1#1))
  else if f7.extractLsb' 1 6 = 0xC#6 ∧ rs2 = 0x0#5 then some (.vldT rd rs1 f3 (f7.extractLsb' 0 1 == 1#1))
  else if f7.extractLsb' 1 6 = 0xE#6 ∧ rs2 = 0x0#5 then some (.vstT rd rs1 f3 (f7.extractLsb' 0 1 == 1#1))
  else none

/-- R21, major 0x17 VMOVE. -/
def decVmove (f7 : BitVec 7) (rs2 : BitVec 5) (f3 : BitVec 3) (rs1 rd : BitVec 5) : Option Instr :=
  if f7.extractLsb' 1 6 = 0x0#6 ∧ rs2 = 0x0#5 then some (.vbcast rd rs1 f3 (f7.extractLsb' 0 1 == 1#1))
  else if f7 = 0x4#7 then some (.vgetl rd rs1 rs2 f3)
  else if f7 = 0x8#7 then some (.vsetl rd rs1 rs2 f3)
  else if f7.extractLsb' 1 6 = 0x6#6 then some (.vperm rd rs1 rs2 f3 (f7.extractLsb' 0 1 == 1#1))
  else if f7.extractLsb' 1 6 = 0x8#6 then some (.vslide rd rs1 rs2 f3 (f7.extractLsb' 0 1 == 1#1))
  else if f7 = 0x14#7 ∧ rs2 = 0x0#5 ∧ f3 = 0x0#3 ∧ rs1.extractLsb' 3 2 = 0x0#2 ∧ rd.extractLsb' 3 2 = 0x0#2 then some (.vmovm ((rd.extractLsb' 0 3)) ((rs1.extractLsb' 0 3)))
  else if f7 = 0x18#7 ∧ rs2 = 0x0#5 ∧ f3 = 0x0#3 ∧ rd = 0x0#5 then some (.vsett rs1)
  else none

/-- R21, major 0x18 VRED. -/
def decVred (f7 : BitVec 7) (rs2 : BitVec 5) (f3 : BitVec 3) (rs1 rd : BitVec 5) : Option Instr :=
  if f7.extractLsb' 1 6 = 0x0#6 ∧ rs2 = 0x0#5 then some (.vrsum rd rs1 f3 (f7.extractLsb' 0 1 == 1#1))
  else if f7.extractLsb' 1 6 = 0x2#6 ∧ rs2 = 0x0#5 then some (.vrmax rd rs1 f3 (f7.extractLsb' 0 1 == 1#1))
  else if f7.extractLsb' 1 6 = 0x4#6 ∧ rs2 = 0x0#5 then some (.vrmin rd rs1 f3 (f7.extractLsb' 0 1 == 1#1))
  else if f7.extractLsb' 1 6 = 0x6#6 ∧ rs2 = 0x0#5 then some (.vpsum rd rs1 f3 (f7.extractLsb' 0 1 == 1#1))
  else none

/-- R21, major 0x19 VCVT. -/
def decVcvt (f7 : BitVec 7) (rs2 : BitVec 5) (f3 : BitVec 3) (rs1 rd : BitVec 5) : Option Instr :=
  if f7.extractLsb' 1 6 = 0x0#6 ∧ rs2 = 0x0#5 ∧ f3 = 0x0#3 then some (.vcvtBf16F32 rd rs1 (f7.extractLsb' 0 1 == 1#1))
  else if f7.extractLsb' 1 6 = 0x2#6 ∧ rs2 = 0x0#5 ∧ f3 = 0x0#3 then some (.vcvtF32Bf16 rd rs1 (f7.extractLsb' 0 1 == 1#1))
  else if f7.extractLsb' 1 6 = 0x4#6 ∧ rs2 = 0x0#5 ∧ f3 = 0x0#3 then some (.vcvtF32S32 rd rs1 (f7.extractLsb' 0 1 == 1#1))
  else if f7.extractLsb' 1 6 = 0x6#6 ∧ rs2 = 0x0#5 ∧ f3 = 0x0#3 then some (.vcvtS32F32 rd rs1 (f7.extractLsb' 0 1 == 1#1))
  else if f7.extractLsb' 1 6 = 0x8#6 ∧ rs2.extractLsb' 2 3 = 0x0#3 ∧ f3 = 0x0#3 then some (.vcvtS32S8 rd rs1 ((rs2.extractLsb' 0 2)) (f7.extractLsb' 0 1 == 1#1))
  else if f7.extractLsb' 1 6 = 0xA#6 ∧ rs2.extractLsb' 2 3 = 0x0#3 ∧ f3 = 0x0#3 then some (.vcvtS8S32 rd rs1 ((rs2.extractLsb' 0 2)) (f7.extractLsb' 0 1 == 1#1))
  else if f7.extractLsb' 1 6 = 0xC#6 ∧ rs2 = 0x0#5 ∧ f3 = 0x0#3 then some (.vlgx rd rs1 (f7.extractLsb' 0 1 == 1#1))
  else if f7.extractLsb' 1 6 = 0xE#6 ∧ f3 = 0x0#3 then some (.vlgq rd rs1 rs2 (f7.extractLsb' 0 1 == 1#1))
  else none

/-- R21, major 0x1A VCMP. -/
def decVcmp (f7 : BitVec 7) (rs2 : BitVec 5) (f3 : BitVec 3) (rs1 rd : BitVec 5) : Option Instr :=
  if f7.extractLsb' 2 5 = 0x0#5 ∧ rd.extractLsb' 3 2 = 0x0#2 then some (.vceq ((rd.extractLsb' 0 3)) rs1 rs2 f3 (f7.extractLsb' 0 1 == 1#1) (f7.extractLsb' 1 1 == 1#1))
  else if f7.extractLsb' 2 5 = 0x1#5 ∧ rd.extractLsb' 3 2 = 0x0#2 then some (.vclt ((rd.extractLsb' 0 3)) rs1 rs2 f3 (f7.extractLsb' 0 1 == 1#1) (f7.extractLsb' 1 1 == 1#1))
  else if f7.extractLsb' 2 5 = 0x2#5 ∧ rd.extractLsb' 3 2 = 0x0#2 then some (.vcle ((rd.extractLsb' 0 3)) rs1 rs2 f3 (f7.extractLsb' 0 1 == 1#1) (f7.extractLsb' 1 1 == 1#1))
  else if f7.extractLsb' 0 1 = 0x0#1 ∧ f7.extractLsb' 2 5 = 0x3#5 then some (.vsel rd rs1 rs2 f3 (f7.extractLsb' 1 1 == 1#1))
  else if f7 = 0x10#7 ∧ rs2.extractLsb' 3 2 = 0x0#2 ∧ f3 = 0x0#3 ∧ rs1.extractLsb' 3 2 = 0x0#2 ∧ rd.extractLsb' 3 2 = 0x0#2 then some (.mand ((rd.extractLsb' 0 3)) ((rs1.extractLsb' 0 3)) ((rs2.extractLsb' 0 3)))
  else if f7 = 0x14#7 ∧ rs2.extractLsb' 3 2 = 0x0#2 ∧ f3 = 0x0#3 ∧ rs1.extractLsb' 3 2 = 0x0#2 ∧ rd.extractLsb' 3 2 = 0x0#2 then some (.mor ((rd.extractLsb' 0 3)) ((rs1.extractLsb' 0 3)) ((rs2.extractLsb' 0 3)))
  else if f7 = 0x18#7 ∧ rs2 = 0x0#5 ∧ f3 = 0x0#3 ∧ rs1.extractLsb' 3 2 = 0x0#2 ∧ rd.extractLsb' 3 2 = 0x0#2 then some (.mnot ((rd.extractLsb' 0 3)) ((rs1.extractLsb' 0 3)))
  else if f7 = 0x1C#7 ∧ rs2 = 0x0#5 ∧ f3 = 0x0#3 ∧ rs1.extractLsb' 3 2 = 0x0#2 then some (.mpopc rd ((rs1.extractLsb' 0 3)))
  else none

/-- R21, major 0x1C BLOCK. -/
def decBlock (f7 : BitVec 7) (rs2 : BitVec 5) (f3 : BitVec 3) (rs1 rd : BitVec 5) : Option Instr :=
  if f7 = 0x0#7 ∧ rs2 = 0x0#5 ∧ f3 = 0x0#3 then some (.blkunp rd rs1)
  else if f7 = 0x4#7 ∧ rs2 = 0x0#5 then some (.blkpk rd rs1 f3)
  else if f7 = 0x8#7 ∧ f3 = 0x0#3 ∧ rd = 0x0#5 then some (.blkaddq rs1 rs2)
  else if f7 = 0xC#7 ∧ rs2 = 0x0#5 ∧ f3 = 0x0#3 then some (.blkhdr rd rs1)
  else if f7 = 0x10#7 ∧ f3 = 0x0#3 ∧ rd = 0x0#5 then some (.blkscl rs1 rs2)
  else none

/-- R21, major 0x1D MATRIX. -/
def decMatrix (f7 : BitVec 7) (rs2 : BitVec 5) (f3 : BitVec 3) (rs1 rd : BitVec 5) : Option Instr :=
  if f7 = 0x0#7 ∧ rs2 = 0x0#5 ∧ f3 = 0x0#3 ∧ rs1.extractLsb' 1 4 = 0x0#4 ∧ rd = 0x0#5 then some (.mzero ((rs1.extractLsb' 0 1)))
  else if f7 = 0x1#7 ∧ f3 = 0x0#3 then some (.mmul rd rs1 rs2)
  else if f7 = 0x2#7 ∧ rs2 = 0x0#5 ∧ f3 = 0x0#3 then some (.mstw rd rs1)
  else if f7 = 0x3#7 ∧ rs2 = 0x0#5 ∧ f3 = 0x0#3 then some (.mldw rd rs1)
  else if f7 = 0x4#7 ∧ rs2 = 0x0#5 ∧ f3 = 0x0#3 ∧ rs1 = 0x0#5 then some (.mqry rd)
  else none

/-- R21, major 0x1E COPY. -/
def decCopy (f7 : BitVec 7) (rs2 : BitVec 5) (f3 : BitVec 3) (rs1 rd : BitVec 5) : Option Instr :=
  if f7 = 0x0#7 ∧ rs2 = 0x0#5 ∧ f3.extractLsb' 2 1 = 0x0#1 then some (.cpy rd rs1 ((f3.extractLsb' 0 2)))
  else if f7 = 0x1#7 ∧ rs2 = 0x0#5 ∧ f3.extractLsb' 2 1 = 0x0#1 then some (.cpyrAddS32 rd rs1 ((f3.extractLsb' 0 2)))
  else if f7 = 0x9#7 ∧ rs2 = 0x0#5 ∧ f3.extractLsb' 2 1 = 0x0#1 then some (.cpyrAddF32 rd rs1 ((f3.extractLsb' 0 2)))
  else if f7 = 0x11#7 ∧ rs2 = 0x0#5 ∧ f3.extractLsb' 2 1 = 0x0#1 then some (.cpyrAddBf16 rd rs1 ((f3.extractLsb' 0 2)))
  else if f7 = 0x19#7 ∧ rs2 = 0x0#5 ∧ f3.extractLsb' 2 1 = 0x0#1 then some (.cpyrMinS32 rd rs1 ((f3.extractLsb' 0 2)))
  else if f7 = 0x21#7 ∧ rs2 = 0x0#5 ∧ f3.extractLsb' 2 1 = 0x0#1 then some (.cpyrMaxS32 rd rs1 ((f3.extractLsb' 0 2)))
  else if f7 = 0x29#7 ∧ rs2 = 0x0#5 ∧ f3.extractLsb' 2 1 = 0x0#1 then some (.cpyrMinF32 rd rs1 ((f3.extractLsb' 0 2)))
  else if f7 = 0x31#7 ∧ rs2 = 0x0#5 ∧ f3.extractLsb' 2 1 = 0x0#1 then some (.cpyrMaxF32 rd rs1 ((f3.extractLsb' 0 2)))
  else if f7 = 0x39#7 ∧ rs2 = 0x0#5 ∧ f3.extractLsb' 2 1 = 0x0#1 then some (.cpyrAnd rd rs1 ((f3.extractLsb' 0 2)))
  else if f7 = 0x41#7 ∧ rs2 = 0x0#5 ∧ f3.extractLsb' 2 1 = 0x0#1 then some (.cpyrOr rd rs1 ((f3.extractLsb' 0 2)))
  else if f7 = 0x2#7 ∧ rs2 = 0x0#5 ∧ f3.extractLsb' 2 1 = 0x0#1 then some (.cpyg rd rs1 ((f3.extractLsb' 0 2)))
  else if f7 = 0x3#7 ∧ rs2 = 0x0#5 ∧ f3.extractLsb' 2 1 = 0x0#1 then some (.cpyh rd rs1 ((f3.extractLsb' 0 2)))
  else if f7 = 0x4#7 ∧ rs2 = 0x0#5 ∧ f3.extractLsb' 2 1 = 0x0#1 then some (.cpyx rd rs1 ((f3.extractLsb' 0 2)))
  else if f7 = 0x5#7 ∧ rs2 = 0x0#5 ∧ f3.extractLsb' 2 1 = 0x0#1 ∧ rs1 = 0x0#5 then some (.cpyq rd ((f3.extractLsb' 0 2)))
  else none

/-- R21, major 0x1F TASK. -/
def decTask (f7 : BitVec 7) (rs2 : BitVec 5) (f3 : BitVec 3) (rs1 rd : BitVec 5) : Option Instr :=
  if f7 = 0x0#7 ∧ rs2 = 0x0#5 ∧ f3 = 0x0#3 then some (.ptask rd rs1)
  else if f7 = 0x1#7 ∧ f3 = 0x0#3 ∧ rd = 0x0#5 then some (.ptinv rs1 rs2)
  else if f7 = 0x2#7 ∧ rs2 = 0x0#5 ∧ f3 = 0x0#3 then some (.ptstat rd rs1)
  else none

/-- R21, major 0x20 FABRIC. -/
def decFabric (f7 : BitVec 7) (rs2 : BitVec 5) (f3 : BitVec 3) (rs1 rd : BitVec 5) : Option Instr :=
  if f7 = 0x0#7 ∧ rs2 = 0x0#5 ∧ f3 = 0x0#3 then some (.nput rd rs1)
  else if f7 = 0x1#7 ∧ rs2 = 0x0#5 ∧ f3 = 0x0#3 then some (.nget rd rs1)
  else if f7 = 0x2#7 ∧ rs2 = 0x0#5 ∧ f3 = 0x0#3 then some (.nsend rd rs1)
  else if f7 = 0x3#7 ∧ rs2 = 0x0#5 ∧ f3 = 0x0#3 then some (.nrecv rd rs1)
  else if f7 = 0x4#7 ∧ f3 = 0x0#3 then some (.nchain rd rs1 rs2)
  else if f7 = 0x5#7 ∧ rs2 = 0x0#5 ∧ f3 = 0x0#3 then some (.ncnt rd rs1)
  else none

/-- R21, major 0x21 GATE. -/
def decGate (f7 : BitVec 7) (rs2 : BitVec 5) (f3 : BitVec 3) (rs1 rd : BitVec 5) : Option Instr :=
  if f7 = 0x0#7 ∧ rs2 = 0x0#5 ∧ f3 = 0x0#3 then some (.bqpop rd rs1)
  else if f7 = 0x0#7 ∧ f3 = 0x1#3 ∧ rd = 0x0#5 then some (.bqdone rs1 rs2)
  else none

/-- R21, R22: the instruction of the fields of a 32-bit word, by major opcode. -/
def decFields (f7 : BitVec 7) (rs2 : BitVec 5) (f3 : BitVec 3) (rs1 rd : BitVec 5) (maj : BitVec 6) : Option Instr :=
  match maj.toNat with
  | 0x01 => decOpr f7 rs2 f3 rs1 rd
  | 0x02 => decOpi f7 rs2 f3 rs1 rd
  | 0x03 => decLih f7 rs2 f3 rs1 rd
  | 0x04 => decLpc f7 rs2 f3 rs1 rd
  | 0x05 => decBrc f7 rs2 f3 rs1 rd
  | 0x06 => decJl f7 rs2 f3 rs1 rd
  | 0x07 => decJlr f7 rs2 f3 rs1 rd
  | 0x08 => decLoad f7 rs2 f3 rs1 rd
  | 0x09 => decStore f7 rs2 f3 rs1 rd
  | 0x0A => decOrder f7 rs2 f3 rs1 rd
  | 0x0B => decAmo f7 rs2 f3 rs1 rd
  | 0x0C => decSync f7 rs2 f3 rs1 rd
  | 0x0D => decRemote f7 rs2 f3 rs1 rd
  | 0x0E => decMsg f7 rs2 f3 rs1 rd
  | 0x0F => decQueue f7 rs2 f3 rs1 rd
  | 0x10 => decSys f7 rs2 f3 rs1 rd
  | 0x11 => decLaunch f7 rs2 f3 rs1 rd
  | 0x12 => decCache f7 rs2 f3 rs1 rd
  | 0x14 => decVint f7 rs2 f3 rs1 rd
  | 0x15 => decVflt f7 rs2 f3 rs1 rd
  | 0x16 => decVmem f7 rs2 f3 rs1 rd
  | 0x17 => decVmove f7 rs2 f3 rs1 rd
  | 0x18 => decVred f7 rs2 f3 rs1 rd
  | 0x19 => decVcvt f7 rs2 f3 rs1 rd
  | 0x1A => decVcmp f7 rs2 f3 rs1 rd
  | 0x1C => decBlock f7 rs2 f3 rs1 rd
  | 0x1D => decMatrix f7 rs2 f3 rs1 rd
  | 0x1E => decCopy f7 rs2 f3 rs1 rd
  | 0x1F => decTask f7 rs2 f3 rs1 rd
  | 0x20 => decFabric f7 rs2 f3 rs1 rd
  | 0x21 => decGate f7 rs2 f3 rs1 rd
  | _ => none

/-- R18, R19: the sixteen 16-bit lane forms. -/
def decHalf (m : Bool) (b d : BitVec 5) (op4 : BitVec 4) : Option Instr :=
  match op4.toNat with
  | 0 => some (.vmov16 d b m)
  | 1 => some (.vadd16 d b m)
  | 2 => some (.vsub16 d b m)
  | 3 => some (.vmul16 d b m)
  | 4 => some (.vmad16 d b m)
  | 5 => some (.vmin16 d b m)
  | 6 => some (.vmax16 d b m)
  | 7 => some (.vand16 d b m)
  | 8 => some (.vor16 d b m)
  | 9 => some (.vxor16 d b m)
  | 10 => some (.vneg16 d b m)
  | 11 => some (.vabs16 d b m)
  | 12 => some (.vshl16 d b m)
  | 13 => some (.vsra16 d b m)
  | 14 => if m then none else some (.vsel16 d b)
  | 15 => some (.vsqr d b m)
  | _ => none

/-- R14: the decoding of a 32-bit word: its fields, by major opcode. -/
def decBits (w : BitVec 32) : Option Instr :=
  decFields (w.extractLsb' 25 7) (w.extractLsb' 20 5) (w.extractLsb' 17 3) (w.extractLsb' 12 5) (w.extractLsb' 7 5)
    (w.extractLsb' 1 6)

/-- R18: the decoding of a halfword with bit 0 clear. -/
def decHalfBits (h : BitVec 16) : Option Instr :=
  decHalf (h.extractLsb' 15 1 == 1#1) (h.extractLsb' 10 5) (h.extractLsb' 5 5) (h.extractLsb' 1 4)

/-- R22: an instruction of R21 that also keeps R21's limits. -/
def accept (bits : BitVec 32) (o : Option Instr) : Except DecodeError Instr :=
  match o with
  | none => .error (.unassigned bits)
  | some i =>
    match i.check with
    | none => .ok i
    | some e => .error (.illFormed bits e)

/-- A 32-bit instruction word (R14, R22). -/
def decode32 (w : BitVec 32) : Except DecodeError Instr := accept w (decBits w)

/-- A 16-bit instruction (R18, R19). -/
def decode16 (h : BitVec 16) : Except DecodeError Instr := accept (h.setWidth 32) (decHalfBits h)

/-- R13: bit 0 of the first halfword set means 32 bits. -/
def isLong (h : BitVec 16) : Bool := h.extractLsb' 0 1 == 1#1

/-- R13: the instruction at the front of a stream of bytes (each halfword little-endian, R2) and the bytes after it. -/
def decode : List Byte → Except DecodeError (Instr × List Byte)
  | b0 :: b1 :: rest =>
    if isLong (b1 ++ b0) then
      match rest with
      | b2 :: b3 :: rest' => (decode32 (b3 ++ b2 ++ b1 ++ b0)).map fun i => (i, rest')
      | _ => .error .truncated
    else (decode16 (b1 ++ b0)).map fun i => (i, rest)
  | _ => .error .truncated

/-- The instruction of a table row's bits `w` (nbits of them, the rest 0), laid out as memory holds them. -/
def decodeTableWord (nbits w : Nat) : Option Instr :=
  let v := w % 2 ^ nbits
  match decode [BitVec.ofNat 8 v, BitVec.ofNat 8 (v >>> 8), BitVec.ofNat 8 (v >>> 16), BitVec.ofNat 8 (v >>> 24)] with
  | .ok (i, _) => some i
  | .error _ => none

/-! ### The encoder -/

/-- A Bool as a one-bit field. -/
def bit (b : Bool) : BitVec 1 := if b then 1#1 else 0#1

/-- R14: a 32-bit word of its fields. -/
def fmt (f7 : BitVec 7) (rs2 : BitVec 5) (f3 : BitVec 3) (rs1 rd : BitVec 5) (maj : BitVec 6) : BitVec 32 :=
  f7 ++ rs2 ++ f3 ++ rs1 ++ rd ++ maj ++ 1#1

/-- R18: a halfword of its fields. -/
def fmtHalf (m : Bool) (b d : BitVec 5) (op4 : BitVec 4) : BitVec 16 := bit m ++ b ++ d ++ op4 ++ 0#1

/-- The word of a 32-bit instruction, by the same layouts; a step has none, and the lane forms have 16 bits. -/
def encWord : Instr → Option (BitVec 32)
  | .add d a b => some (fmt 0x0#7 b 0x0#3 a d 0x01#6)
  | .sub d a b => some (fmt 0x1#7 b 0x0#3 a d 0x01#6)
  | .min d a b => some (fmt 0x2#7 b 0x0#3 a d 0x01#6)
  | .max d a b => some (fmt 0x3#7 b 0x0#3 a d 0x01#6)
  | .minu d a b => some (fmt 0x4#7 b 0x0#3 a d 0x01#6)
  | .maxu d a b => some (fmt 0x5#7 b 0x0#3 a d 0x01#6)
  | .slt d a b => some (fmt 0x6#7 b 0x0#3 a d 0x01#6)
  | .sltu d a b => some (fmt 0x7#7 b 0x0#3 a d 0x01#6)
  | .and d a b => some (fmt 0x0#7 b 0x1#3 a d 0x01#6)
  | .or d a b => some (fmt 0x1#7 b 0x1#3 a d 0x01#6)
  | .xor d a b => some (fmt 0x2#7 b 0x1#3 a d 0x01#6)
  | .andn d a b => some (fmt 0x3#7 b 0x1#3 a d 0x01#6)
  | .orn d a b => some (fmt 0x4#7 b 0x1#3 a d 0x01#6)
  | .xnor d a b => some (fmt 0x5#7 b 0x1#3 a d 0x01#6)
  | .sll d a b => some (fmt 0x0#7 b 0x2#3 a d 0x01#6)
  | .srl d a b => some (fmt 0x1#7 b 0x2#3 a d 0x01#6)
  | .sra d a b => some (fmt 0x2#7 b 0x2#3 a d 0x01#6)
  | .rol d a b => some (fmt 0x3#7 b 0x2#3 a d 0x01#6)
  | .ror d a b => some (fmt 0x4#7 b 0x2#3 a d 0x01#6)
  | .mul d a b => some (fmt 0x0#7 b 0x3#3 a d 0x01#6)
  | .mulh d a b => some (fmt 0x1#7 b 0x3#3 a d 0x01#6)
  | .mulhu d a b => some (fmt 0x2#7 b 0x3#3 a d 0x01#6)
  | .div d a b => some (fmt 0x3#7 b 0x3#3 a d 0x01#6)
  | .divu d a b => some (fmt 0x4#7 b 0x3#3 a d 0x01#6)
  | .rem d a b => some (fmt 0x5#7 b 0x3#3 a d 0x01#6)
  | .remu d a b => some (fmt 0x6#7 b 0x3#3 a d 0x01#6)
  | .clz d a => some (fmt 0x0#7 0x0#5 0x4#3 a d 0x01#6)
  | .ctz d a => some (fmt 0x1#7 0x0#5 0x4#3 a d 0x01#6)
  | .popc d a => some (fmt 0x2#7 0x0#5 0x4#3 a d 0x01#6)
  | .brev d a => some (fmt 0x3#7 0x0#5 0x4#3 a d 0x01#6)
  | .bext d a b => some (fmt 0x0#7 b 0x5#3 a d 0x01#6)
  | .bins d a b => some (fmt 0x1#7 b 0x5#3 a d 0x01#6)
  | .addi d a i => some (fmt (i.extractLsb' 5 7) (i.extractLsb' 0 5) 0x0#3 a d 0x02#6)
  | .andi d a i => some (fmt (i.extractLsb' 5 7) (i.extractLsb' 0 5) 0x1#3 a d 0x02#6)
  | .ori d a i => some (fmt (i.extractLsb' 5 7) (i.extractLsb' 0 5) 0x2#3 a d 0x02#6)
  | .xori d a i => some (fmt (i.extractLsb' 5 7) (i.extractLsb' 0 5) 0x3#3 a d 0x02#6)
  | .slli d a i => some (fmt (0x0#6 ++ (i.extractLsb' 5 1)) (i.extractLsb' 0 5) 0x4#3 a d 0x02#6)
  | .srli d a i => some (fmt (0x0#6 ++ (i.extractLsb' 5 1)) (i.extractLsb' 0 5) 0x5#3 a d 0x02#6)
  | .srai d a i => some (fmt (0x0#6 ++ (i.extractLsb' 5 1)) (i.extractLsb' 0 5) 0x6#3 a d 0x02#6)
  | .slti d a i => some (fmt (i.extractLsb' 5 7) (i.extractLsb' 0 5) 0x7#3 a d 0x02#6)
  | .lih d i => some (fmt (i.extractLsb' 13 7) (i.extractLsb' 8 5) (i.extractLsb' 5 3) (i.extractLsb' 0 5) d 0x03#6)
  | .lpc d i => some (fmt (i.extractLsb' 13 7) (i.extractLsb' 8 5) (i.extractLsb' 5 3) (i.extractLsb' 0 5) d 0x04#6)
  | .beq a b o => some (fmt (o.extractLsb' 5 7) b 0x0#3 a (o.extractLsb' 0 5) 0x05#6)
  | .bne a b o => some (fmt (o.extractLsb' 5 7) b 0x1#3 a (o.extractLsb' 0 5) 0x05#6)
  | .blt a b o => some (fmt (o.extractLsb' 5 7) b 0x2#3 a (o.extractLsb' 0 5) 0x05#6)
  | .bge a b o => some (fmt (o.extractLsb' 5 7) b 0x3#3 a (o.extractLsb' 0 5) 0x05#6)
  | .bltu a b o => some (fmt (o.extractLsb' 5 7) b 0x4#3 a (o.extractLsb' 0 5) 0x05#6)
  | .bgeu a b o => some (fmt (o.extractLsb' 5 7) b 0x5#3 a (o.extractLsb' 0 5) 0x05#6)
  | .brdy a o => some (fmt (o.extractLsb' 5 7) 0x0#5 0x6#3 a (o.extractLsb' 0 5) 0x05#6)
  | .bnrdy a o => some (fmt (o.extractLsb' 5 7) 0x0#5 0x7#3 a (o.extractLsb' 0 5) 0x05#6)
  | .jl d i => some (fmt (i.extractLsb' 13 7) (i.extractLsb' 8 5) (i.extractLsb' 5 3) (i.extractLsb' 0 5) d 0x06#6)
  | .jlr d a i => some (fmt (i.extractLsb' 5 7) (i.extractLsb' 0 5) 0x0#3 a d 0x07#6)
  | .ldB d a i => some (fmt (i.extractLsb' 5 7) (i.extractLsb' 0 5) 0x0#3 a d 0x08#6)
  | .ldH d a i => some (fmt (i.extractLsb' 5 7) (i.extractLsb' 0 5) 0x1#3 a d 0x08#6)
  | .ldW d a i => some (fmt (i.extractLsb' 5 7) (i.extractLsb' 0 5) 0x2#3 a d 0x08#6)
  | .ldD d a i => some (fmt (i.extractLsb' 5 7) (i.extractLsb' 0 5) 0x3#3 a d 0x08#6)
  | .lduB d a i => some (fmt (i.extractLsb' 5 7) (i.extractLsb' 0 5) 0x4#3 a d 0x08#6)
  | .lduH d a i => some (fmt (i.extractLsb' 5 7) (i.extractLsb' 0 5) 0x5#3 a d 0x08#6)
  | .lduW d a i => some (fmt (i.extractLsb' 5 7) (i.extractLsb' 0 5) 0x6#3 a d 0x08#6)
  | .ldT d a i => some (fmt (i.extractLsb' 5 7) (i.extractLsb' 0 5) 0x7#3 a d 0x08#6)
  | .stB a b i => some (fmt (i.extractLsb' 5 7) b 0x0#3 a (i.extractLsb' 0 5) 0x09#6)
  | .stH a b i => some (fmt (i.extractLsb' 5 7) b 0x1#3 a (i.extractLsb' 0 5) 0x09#6)
  | .stW a b i => some (fmt (i.extractLsb' 5 7) b 0x2#3 a (i.extractLsb' 0 5) 0x09#6)
  | .stD a b i => some (fmt (i.extractLsb' 5 7) b 0x3#3 a (i.extractLsb' 0 5) 0x09#6)
  | .stT a b i => some (fmt (i.extractLsb' 5 7) b 0x7#3 a (i.extractLsb' 0 5) 0x09#6)
  | .ldAq d a => some (fmt 0x0#7 0x0#5 0x0#3 a d 0x0A#6)
  | .stRl a b => some (fmt 0x0#7 b 0x1#3 a 0x0#5 0x0A#6)
  | .ldto a b => some (fmt 0x0#7 b 0x2#3 a 0x0#5 0x0A#6)
  | .ldtoW a b => some (fmt 0x0#7 b 0x3#3 a 0x0#5 0x0A#6)
  | .amoswapW d a b q r => some (fmt (0x0#5 ++ (bit q) ++ (bit r)) b 0x2#3 a d 0x0B#6)
  | .amoswapD d a b q r => some (fmt (0x0#5 ++ (bit q) ++ (bit r)) b 0x3#3 a d 0x0B#6)
  | .amoaddW d a b q r => some (fmt (0x1#5 ++ (bit q) ++ (bit r)) b 0x2#3 a d 0x0B#6)
  | .amoaddD d a b q r => some (fmt (0x1#5 ++ (bit q) ++ (bit r)) b 0x3#3 a d 0x0B#6)
  | .amoandW d a b q r => some (fmt (0x2#5 ++ (bit q) ++ (bit r)) b 0x2#3 a d 0x0B#6)
  | .amoandD d a b q r => some (fmt (0x2#5 ++ (bit q) ++ (bit r)) b 0x3#3 a d 0x0B#6)
  | .amoorW d a b q r => some (fmt (0x3#5 ++ (bit q) ++ (bit r)) b 0x2#3 a d 0x0B#6)
  | .amoorD d a b q r => some (fmt (0x3#5 ++ (bit q) ++ (bit r)) b 0x3#3 a d 0x0B#6)
  | .amoxorW d a b q r => some (fmt (0x4#5 ++ (bit q) ++ (bit r)) b 0x2#3 a d 0x0B#6)
  | .amoxorD d a b q r => some (fmt (0x4#5 ++ (bit q) ++ (bit r)) b 0x3#3 a d 0x0B#6)
  | .amominW d a b q r => some (fmt (0x5#5 ++ (bit q) ++ (bit r)) b 0x2#3 a d 0x0B#6)
  | .amominD d a b q r => some (fmt (0x5#5 ++ (bit q) ++ (bit r)) b 0x3#3 a d 0x0B#6)
  | .amomaxW d a b q r => some (fmt (0x6#5 ++ (bit q) ++ (bit r)) b 0x2#3 a d 0x0B#6)
  | .amomaxD d a b q r => some (fmt (0x6#5 ++ (bit q) ++ (bit r)) b 0x3#3 a d 0x0B#6)
  | .amominuW d a b q r => some (fmt (0x7#5 ++ (bit q) ++ (bit r)) b 0x2#3 a d 0x0B#6)
  | .amominuD d a b q r => some (fmt (0x7#5 ++ (bit q) ++ (bit r)) b 0x3#3 a d 0x0B#6)
  | .amomaxuW d a b q r => some (fmt (0x8#5 ++ (bit q) ++ (bit r)) b 0x2#3 a d 0x0B#6)
  | .amomaxuD d a b q r => some (fmt (0x8#5 ++ (bit q) ++ (bit r)) b 0x3#3 a d 0x0B#6)
  | .amocasW d a b q r => some (fmt (0x9#5 ++ (bit q) ++ (bit r)) b 0x2#3 a d 0x0B#6)
  | .amocasD d a b q r => some (fmt (0x9#5 ++ (bit q) ++ (bit r)) b 0x3#3 a d 0x0B#6)
  | .amofaddW d a b q r => some (fmt (0xA#5 ++ (bit q) ++ (bit r)) b 0x2#3 a d 0x0B#6)
  | .fence => some (fmt 0x0#7 0x0#5 0x0#3 0x0#5 0x0#5 0x0C#6)
  | .fenceE => some (fmt 0x0#7 0x1#5 0x0#3 0x0#5 0x0#5 0x0C#6)
  | .iflush => some (fmt 0x0#7 0x0#5 0x1#3 0x0#5 0x0#5 0x0C#6)
  | .barexp a n => some (fmt 0x0#7 n 0x2#3 a 0x0#5 0x0C#6)
  | .bararr a n => some (fmt 0x0#7 n 0x3#3 a 0x0#5 0x0C#6)
  | .barwait d a n => some (fmt 0x0#7 n 0x4#3 a d 0x0C#6)
  | .rput a b r => some (fmt (0x0#6 ++ (bit r)) b 0x0#3 a 0x0#5 0x0D#6)
  | .rputS d a b r => some (fmt (0x1#6 ++ (bit r)) b 0x0#3 a d 0x0D#6)
  | .rputv a b r => some (fmt (0x0#6 ++ (bit r)) b 0x1#3 a 0x0#5 0x0D#6)
  | .rputvS d a b r => some (fmt (0x1#6 ++ (bit r)) b 0x1#3 a d 0x0D#6)
  | .arm d => some (fmt 0x0#7 0x0#5 0x2#3 0x0#5 d 0x0D#6)
  | .armv d => some (fmt 0x0#7 0x0#5 0x3#3 0x0#5 d 0x0D#6)
  | .msend a b c => some (fmt (0x0#5 ++ c) b 0x0#3 a 0x0#5 0x0E#6)
  | .msendS d a b c => some (fmt (0x1#5 ++ c) b 0x0#3 a d 0x0E#6)
  | .callat d a b => some (fmt 0x0#7 b 0x1#3 a d 0x0E#6)
  | .hend => some (fmt 0x0#7 0x0#5 0x2#3 0x0#5 0x0#5 0x0E#6)
  | .hmask a => some (fmt 0x0#7 0x0#5 0x3#3 a 0x0#5 0x0E#6)
  | .hunmask a => some (fmt 0x1#7 0x0#5 0x3#3 a 0x0#5 0x0E#6)
  | .qpop h x i => some (fmt (i.extractLsb' 5 7) (i.extractLsb' 0 5) 0x0#3 x (0x0#1 ++ h) 0x0F#6)
  | .qadv h x i => some (fmt (i.extractLsb' 5 7) (i.extractLsb' 0 5) 0x1#3 x (0x0#1 ++ h) 0x0F#6)
  | .qcnt d h x => some (fmt (x.extractLsb' 5 7) (x.extractLsb' 0 5) 0x2#3 (0x0#1 ++ h) d 0x0F#6)
  | .qcfg h a x => some (fmt (x.extractLsb' 5 7) (x.extractLsb' 0 5) 0x3#3 a (0x0#1 ++ h) 0x0F#6)
  | .qwait h x i => some (fmt (i.extractLsb' 5 7) (i.extractLsb' 0 5) 0x4#3 x (0x0#1 ++ h) 0x0F#6)
  | .syscall => some (fmt 0x0#7 0x0#5 0x0#3 0x0#5 0x0#5 0x10#6)
  | .brk => some (fmt 0x0#7 0x1#5 0x0#3 0x0#5 0x0#5 0x10#6)
  | .tret => some (fmt 0x0#7 0x2#5 0x0#3 0x0#5 0x0#5 0x10#6)
  | .idle => some (fmt 0x0#7 0x3#5 0x0#3 0x0#5 0x0#5 0x10#6)
  | .yield => some (fmt 0x0#7 0x4#5 0x0#3 0x0#5 0x0#5 0x10#6)
  | .exit => some (fmt 0x0#7 0x5#5 0x0#3 0x0#5 0x0#5 0x10#6)
  | .csrr d x c => some (fmt (c.extractLsb' 5 7) (c.extractLsb' 0 5) 0x1#3 x d 0x10#6)
  | .csrw d a c => some (fmt (c.extractLsb' 5 7) (c.extractLsb' 0 5) 0x2#3 a d 0x10#6)
  | .csrs d a c => some (fmt (c.extractLsb' 5 7) (c.extractLsb' 0 5) 0x3#3 a d 0x10#6)
  | .csrc d a c => some (fmt (c.extractLsb' 5 7) (c.extractLsb' 0 5) 0x4#3 a d 0x10#6)
  | .tlbinvAll x y => some (fmt 0x0#7 0x0#5 0x5#3 x y 0x10#6)
  | .tlbinvAsid a y => some (fmt 0x0#7 0x1#5 0x5#3 a y 0x10#6)
  | .tlbinvVa a y => some (fmt 0x0#7 0x2#5 0x5#3 a y 0x10#6)
  | .tlbinvStage2 a y => some (fmt 0x0#7 0x3#5 0x5#3 a y 0x10#6)
  | .park a => some (fmt 0x0#7 0x0#5 0x6#3 a 0x0#5 0x10#6)
  | .resume a => some (fmt 0x0#7 0x1#5 0x6#3 a 0x0#5 0x10#6)
  | .migrate d a => some (fmt 0x0#7 0x0#5 0x7#3 a d 0x10#6)
  | .spawn d a x => some (fmt 0x0#7 x 0x0#3 a d 0x11#6)
  | .armlr a b => some (fmt 0x1#7 b 0x0#3 a 0x0#5 0x11#6)
  | .lchk d a b => some (fmt 0x2#7 b 0x0#3 a d 0x11#6)
  | .rwb a b => some (fmt 0x0#7 b 0x0#3 a 0x0#5 0x12#6)
  | .rinv a b => some (fmt 0x0#7 b 0x1#3 a 0x0#5 0x12#6)
  | .disc a b => some (fmt 0x0#7 b 0x2#3 a 0x0#5 0x12#6)
  | .pin a b => some (fmt 0x0#7 b 0x3#3 a 0x0#5 0x12#6)
  | .unpin a b => some (fmt 0x0#7 b 0x4#3 a 0x0#5 0x12#6)
  | .pref a b => some (fmt 0x0#7 b 0x5#3 a 0x0#5 0x12#6)
  | .vadd d a b t m q => some (fmt (0x0#5 ++ (bit q) ++ (bit m)) b t a d 0x14#6)
  | .vsub d a b t m q => some (fmt (0x1#5 ++ (bit q) ++ (bit m)) b t a d 0x14#6)
  | .vmul d a b t m q => some (fmt (0x2#5 ++ (bit q) ++ (bit m)) b t a d 0x14#6)
  | .vmulh d a b t m q => some (fmt (0x3#5 ++ (bit q) ++ (bit m)) b t a d 0x14#6)
  | .vmin d a b t m q => some (fmt (0x4#5 ++ (bit q) ++ (bit m)) b t a d 0x14#6)
  | .vmax d a b t m q => some (fmt (0x5#5 ++ (bit q) ++ (bit m)) b t a d 0x14#6)
  | .vand d a b t m q => some (fmt (0x6#5 ++ (bit q) ++ (bit m)) b t a d 0x14#6)
  | .vor d a b t m q => some (fmt (0x7#5 ++ (bit q) ++ (bit m)) b t a d 0x14#6)
  | .vxor d a b t m q => some (fmt (0x8#5 ++ (bit q) ++ (bit m)) b t a d 0x14#6)
  | .vshl d a b t m q => some (fmt (0x9#5 ++ (bit q) ++ (bit m)) b t a d 0x14#6)
  | .vshr d a b t m q => some (fmt (0xA#5 ++ (bit q) ++ (bit m)) b t a d 0x14#6)
  | .vsra d a b t m q => some (fmt (0xB#5 ++ (bit q) ++ (bit m)) b t a d 0x14#6)
  | .vabs d a t m => some (fmt (0x18#6 ++ (bit m)) 0x0#5 t a d 0x14#6)
  | .vneg d a t m => some (fmt (0x1A#6 ++ (bit m)) 0x0#5 t a d 0x14#6)
  | .vadds d a b t m q => some (fmt (0xE#5 ++ (bit q) ++ (bit m)) b t a d 0x14#6)
  | .vsubs d a b t m q => some (fmt (0xF#5 ++ (bit q) ++ (bit m)) b t a d 0x14#6)
  | .vmad d a b t m q => some (fmt (0x10#5 ++ (bit q) ++ (bit m)) b t a d 0x14#6)
  | .vfadd d a b t m q => some (fmt (0x0#5 ++ (bit q) ++ (bit m)) b (0x3#2 ++ t) a d 0x15#6)
  | .vfsub d a b t m q => some (fmt (0x1#5 ++ (bit q) ++ (bit m)) b (0x3#2 ++ t) a d 0x15#6)
  | .vfmul d a b t m q => some (fmt (0x2#5 ++ (bit q) ++ (bit m)) b (0x3#2 ++ t) a d 0x15#6)
  | .vfma d a b t m q => some (fmt (0x3#5 ++ (bit q) ++ (bit m)) b (0x3#2 ++ t) a d 0x15#6)
  | .vfmin d a b t m q => some (fmt (0x4#5 ++ (bit q) ++ (bit m)) b (0x3#2 ++ t) a d 0x15#6)
  | .vfmax d a b t m q => some (fmt (0x5#5 ++ (bit q) ++ (bit m)) b (0x3#2 ++ t) a d 0x15#6)
  | .vfabs d a t m => some (fmt (0xC#6 ++ (bit m)) 0x0#5 (0x3#2 ++ t) a d 0x15#6)
  | .vfneg d a t m => some (fmt (0xE#6 ++ (bit m)) 0x0#5 (0x3#2 ++ t) a d 0x15#6)
  | .vexp2 d a t m => some (fmt (0x10#6 ++ (bit m)) 0x0#5 (0x3#2 ++ t) a d 0x15#6)
  | .vlog2 d a t m => some (fmt (0x12#6 ++ (bit m)) 0x0#5 (0x3#2 ++ t) a d 0x15#6)
  | .vrcp d a t m => some (fmt (0x14#6 ++ (bit m)) 0x0#5 (0x3#2 ++ t) a d 0x15#6)
  | .vrsq d a t m => some (fmt (0x16#6 ++ (bit m)) 0x0#5 (0x3#2 ++ t) a d 0x15#6)
  | .vld d a t m => some (fmt (0x0#6 ++ (bit m)) 0x0#5 t a d 0x16#6)
  | .vst d a t m => some (fmt (0x2#6 ++ (bit m)) 0x0#5 t a d 0x16#6)
  | .vlds d a b t m => some (fmt (0x4#6 ++ (bit m)) b t a d 0x16#6)
  | .vsts d a b t m => some (fmt (0x6#6 ++ (bit m)) b t a d 0x16#6)
  | .vgath d a b t m => some (fmt (0x8#6 ++ (bit m)) b t a d 0x16#6)
  | .vscat d a b t m => some (fmt (0xA#6 ++ (bit m)) b t a d 0x16#6)
  | .vldT d a t m => some (fmt (0xC#6 ++ (bit m)) 0x0#5 t a d 0x16#6)
  | .vstT d a t m => some (fmt (0xE#6 ++ (bit m)) 0x0#5 t a d 0x16#6)
  | .vbcast d a t m => some (fmt (0x0#6 ++ (bit m)) 0x0#5 t a d 0x17#6)
  | .vgetl d a b t => some (fmt 0x4#7 b t a d 0x17#6)
  | .vsetl d a b t => some (fmt 0x8#7 b t a d 0x17#6)
  | .vperm d a b t m => some (fmt (0x6#6 ++ (bit m)) b t a d 0x17#6)
  | .vslide d a b t m => some (fmt (0x8#6 ++ (bit m)) b t a d 0x17#6)
  | .vmovm d a => some (fmt 0x14#7 0x0#5 0x0#3 (0x0#2 ++ a) (0x0#2 ++ d) 0x17#6)
  | .vsett a => some (fmt 0x18#7 0x0#5 0x0#3 a 0x0#5 0x17#6)
  | .vrsum d a t m => some (fmt (0x0#6 ++ (bit m)) 0x0#5 t a d 0x18#6)
  | .vrmax d a t m => some (fmt (0x2#6 ++ (bit m)) 0x0#5 t a d 0x18#6)
  | .vrmin d a t m => some (fmt (0x4#6 ++ (bit m)) 0x0#5 t a d 0x18#6)
  | .vpsum d a t m => some (fmt (0x6#6 ++ (bit m)) 0x0#5 t a d 0x18#6)
  | .vcvtBf16F32 d a m => some (fmt (0x0#6 ++ (bit m)) 0x0#5 0x0#3 a d 0x19#6)
  | .vcvtF32Bf16 d a m => some (fmt (0x2#6 ++ (bit m)) 0x0#5 0x0#3 a d 0x19#6)
  | .vcvtF32S32 d a m => some (fmt (0x4#6 ++ (bit m)) 0x0#5 0x0#3 a d 0x19#6)
  | .vcvtS32F32 d a m => some (fmt (0x6#6 ++ (bit m)) 0x0#5 0x0#3 a d 0x19#6)
  | .vcvtS32S8 d a g m => some (fmt (0x8#6 ++ (bit m)) (0x0#3 ++ g) 0x0#3 a d 0x19#6)
  | .vcvtS8S32 d a g m => some (fmt (0xA#6 ++ (bit m)) (0x0#3 ++ g) 0x0#3 a d 0x19#6)
  | .vlgx d a m => some (fmt (0xC#6 ++ (bit m)) 0x0#5 0x0#3 a d 0x19#6)
  | .vlgq d a b m => some (fmt (0xE#6 ++ (bit m)) b 0x0#3 a d 0x19#6)
  | .vceq d a b t m q => some (fmt (0x0#5 ++ (bit q) ++ (bit m)) b t a (0x0#2 ++ d) 0x1A#6)
  | .vclt d a b t m q => some (fmt (0x1#5 ++ (bit q) ++ (bit m)) b t a (0x0#2 ++ d) 0x1A#6)
  | .vcle d a b t m q => some (fmt (0x2#5 ++ (bit q) ++ (bit m)) b t a (0x0#2 ++ d) 0x1A#6)
  | .vsel d a b t q => some (fmt (0x3#5 ++ (bit q) ++ 0x0#1) b t a d 0x1A#6)
  | .mand d a b => some (fmt 0x10#7 (0x0#2 ++ b) 0x0#3 (0x0#2 ++ a) (0x0#2 ++ d) 0x1A#6)
  | .mor d a b => some (fmt 0x14#7 (0x0#2 ++ b) 0x0#3 (0x0#2 ++ a) (0x0#2 ++ d) 0x1A#6)
  | .mnot d a => some (fmt 0x18#7 0x0#5 0x0#3 (0x0#2 ++ a) (0x0#2 ++ d) 0x1A#6)
  | .mpopc d a => some (fmt 0x1C#7 0x0#5 0x0#3 (0x0#2 ++ a) d 0x1A#6)
  | .blkunp d a => some (fmt 0x0#7 0x0#5 0x0#3 a d 0x1C#6)
  | .blkpk d a t => some (fmt 0x4#7 0x0#5 t a d 0x1C#6)
  | .blkaddq a b => some (fmt 0x8#7 b 0x0#3 a 0x0#5 0x1C#6)
  | .blkhdr d a => some (fmt 0xC#7 0x0#5 0x0#3 a d 0x1C#6)
  | .blkscl a b => some (fmt 0x10#7 b 0x0#3 a 0x0#5 0x1C#6)
  | .mzero c => some (fmt 0x0#7 0x0#5 0x0#3 (0x0#4 ++ c) 0x0#5 0x1D#6)
  | .mmul d a b => some (fmt 0x1#7 b 0x0#3 a d 0x1D#6)
  | .mstw d a => some (fmt 0x2#7 0x0#5 0x0#3 a d 0x1D#6)
  | .mldw d a => some (fmt 0x3#7 0x0#5 0x0#3 a d 0x1D#6)
  | .mqry d => some (fmt 0x4#7 0x0#5 0x0#3 0x0#5 d 0x1D#6)
  | .cpy d a q => some (fmt 0x0#7 0x0#5 (0x0#1 ++ q) a d 0x1E#6)
  | .cpyrAddS32 d a q => some (fmt 0x1#7 0x0#5 (0x0#1 ++ q) a d 0x1E#6)
  | .cpyrAddF32 d a q => some (fmt 0x9#7 0x0#5 (0x0#1 ++ q) a d 0x1E#6)
  | .cpyrAddBf16 d a q => some (fmt 0x11#7 0x0#5 (0x0#1 ++ q) a d 0x1E#6)
  | .cpyrMinS32 d a q => some (fmt 0x19#7 0x0#5 (0x0#1 ++ q) a d 0x1E#6)
  | .cpyrMaxS32 d a q => some (fmt 0x21#7 0x0#5 (0x0#1 ++ q) a d 0x1E#6)
  | .cpyrMinF32 d a q => some (fmt 0x29#7 0x0#5 (0x0#1 ++ q) a d 0x1E#6)
  | .cpyrMaxF32 d a q => some (fmt 0x31#7 0x0#5 (0x0#1 ++ q) a d 0x1E#6)
  | .cpyrAnd d a q => some (fmt 0x39#7 0x0#5 (0x0#1 ++ q) a d 0x1E#6)
  | .cpyrOr d a q => some (fmt 0x41#7 0x0#5 (0x0#1 ++ q) a d 0x1E#6)
  | .cpyg d a q => some (fmt 0x2#7 0x0#5 (0x0#1 ++ q) a d 0x1E#6)
  | .cpyh d a q => some (fmt 0x3#7 0x0#5 (0x0#1 ++ q) a d 0x1E#6)
  | .cpyx d a q => some (fmt 0x4#7 0x0#5 (0x0#1 ++ q) a d 0x1E#6)
  | .cpyq d q => some (fmt 0x5#7 0x0#5 (0x0#1 ++ q) 0x0#5 d 0x1E#6)
  | .ptask d a => some (fmt 0x0#7 0x0#5 0x0#3 a d 0x1F#6)
  | .ptinv a b => some (fmt 0x1#7 b 0x0#3 a 0x0#5 0x1F#6)
  | .ptstat d a => some (fmt 0x2#7 0x0#5 0x0#3 a d 0x1F#6)
  | .nput d a => some (fmt 0x0#7 0x0#5 0x0#3 a d 0x20#6)
  | .nget d a => some (fmt 0x1#7 0x0#5 0x0#3 a d 0x20#6)
  | .nsend d a => some (fmt 0x2#7 0x0#5 0x0#3 a d 0x20#6)
  | .nrecv d a => some (fmt 0x3#7 0x0#5 0x0#3 a d 0x20#6)
  | .nchain d a b => some (fmt 0x4#7 b 0x0#3 a d 0x20#6)
  | .ncnt d a => some (fmt 0x5#7 0x0#5 0x0#3 a d 0x20#6)
  | .bqpop d a => some (fmt 0x0#7 0x0#5 0x0#3 a d 0x21#6)
  | .bqdone a b => some (fmt 0x0#7 b 0x1#3 a 0x0#5 0x21#6)
  | _ => none

/-- The halfword of a 16-bit lane form (R18). -/
def encHalf : Instr → Option (BitVec 16)
  | .vmov16 d b m => some (fmtHalf m b d 0x0#4)
  | .vadd16 d b m => some (fmtHalf m b d 0x1#4)
  | .vsub16 d b m => some (fmtHalf m b d 0x2#4)
  | .vmul16 d b m => some (fmtHalf m b d 0x3#4)
  | .vmad16 d b m => some (fmtHalf m b d 0x4#4)
  | .vmin16 d b m => some (fmtHalf m b d 0x5#4)
  | .vmax16 d b m => some (fmtHalf m b d 0x6#4)
  | .vand16 d b m => some (fmtHalf m b d 0x7#4)
  | .vor16 d b m => some (fmtHalf m b d 0x8#4)
  | .vxor16 d b m => some (fmtHalf m b d 0x9#4)
  | .vneg16 d b m => some (fmtHalf m b d 0xA#4)
  | .vabs16 d b m => some (fmtHalf m b d 0xB#4)
  | .vshl16 d b m => some (fmtHalf m b d 0xC#4)
  | .vsra16 d b m => some (fmtHalf m b d 0xD#4)
  | .vsel16 d b => some (fmtHalf false b d 0xE#4)
  | .vsqr d b m => some (fmtHalf m b d 0xF#4)
  | _ => none

/-- The bits of an instruction, zero-extended as TVAL holds them (R23), and its length in bytes; none for a step. -/
def encode (i : Instr) : Option (Nat × BitVec 32) :=
  match encWord i with
  | some w => some (4, w)
  | none =>
    match encHalf i with
    | some h => some (2, h.setWidth 32)
    | none => none

/-- TVAL for ILLEGAL and PRIV: the instruction bits, zero-extended (R23, R24). -/
def Instr.bits (i : Instr) : Word :=
  match encode i with
  | some (_, w) => w.setWidth 64
  | none => 0#64

/-- The length of an instruction in bytes (R13). -/
def Instr.len (i : Instr) : Nat :=
  match encode i with
  | some (n, _) => n
  | none => 0

end Sys2Proof
end

