-- ==== Sys2Proof/Machine/Event.lean ====
section
/-! DEFINITION. The events of the part: what is in flight between its agents, and what reaches it from outside. Each event
is the data of one step row of the opcode table; the row's meaning performs the oldest event in flight. -/

namespace Sys2Proof

/-- The four privilege modes in rising order (R29). -/
inductive Mode where
  | u | s | h | m
deriving DecidableEq, Repr

/-- The number of a mode as PM fields and the context image hold it: 0 U, 1 S, 2 H, 3 M (R48, R157). -/
def Mode.code : Mode → Nat
  | .u => 0 | .s => 1 | .h => 2 | .m => 3

/-- The mode of a two-bit code (R48). -/
def Mode.ofCode (n : Nat) : Mode :=
  match n with
  | 0 => .u | 1 => .s | 2 => .h | _ => .m

/-- A release signature as it travels: the set, the count and the ALL flag (R100). -/
structure Sig where
  set : BitVec 512
  count : Nat
  all : Bool
deriving DecidableEq, Repr

/-- No signature (R100). -/
def Sig.empty : Sig := ⟨0, 0, false⟩

/-- The sender of a put, to which its acknowledgement travels (R44): node, core, hart, tag, and the status register of a .S
form (R47); the low half of TIME when the put was sent (R148), and which of the puts sent it is, the model's own number (R191). -/
structure Sender where
  node : Nat
  core : Nat
  hart : Nat
  tag : BitVec 16
  status : Option Reg
  /-- a status form with rd = x0 reports nothing (R68) -/
  isStatus : Bool
  sent : BitVec 32
  id : Nat
deriving DecidableEq, Repr

/-- An arrival at a landing port: a put, an LDTO delivery or an engine token (R38, R44). -/
structure Put where
  loc : Word
  wide : Bool
  val : VWord
  sig : Option Sig
  hop : Nat
  /-- who is acknowledged; none for a token or a put released after HEND (R290) -/
  sender : Option Sender
  /-- 1 = an engine token, which is not acknowledged and reports nothing when dropped (R44) -/
  token : Bool
  /-- the sticky flags an engine command hands over with its completion: bit 0 PSN, 1 FMT, 2 NAR (R220) -/
  flags : BitVec 3
  /-- a token that settles an engine command of the issuer (R125) -/
  settles : Bool
  /-- the MATRIX command whose two tokens keep their order (R248) -/
  cmd : Option Nat
deriving DecidableEq, Repr

/-- An acknowledgement on its way to the sender (R39, R44). -/
structure Ack where
  code : Nat
  loc : Word
  dest : Sender
  hop : Nat
deriving DecidableEq, Repr

/-- A message as its send-queue entry holds it (R148, R169): words 0 to 7 of the 64-byte slot. -/
structure Msg where
  id : Nat
  srcCore : Nat
  srcHart : Nat
  srcTag : BitVec 16
  srcNode : Nat
  reply : Bool
  dstNode : Nat
  dstCore : Nat
  chan : BitVec 6
  count : Nat
  call : Bool
  words : List Word
  status : Option Reg
  isStatus : Bool
deriving DecidableEq, Repr

/-- The outcome of a message at its destination (R170). -/
inductive MsgOutcome where
  | accepted
  | returned (reason : Nat)
  | deferred
deriving DecidableEq, Repr

/-- Who writes a window register: the core the access came from, its mode and its hart there (R28, R343). -/
structure Writer where
  core : Nat
  mode : Mode
  hart : Nat
deriving DecidableEq, Repr

/-- Who performs a barrier operation, as a fault record names it (R164). -/
structure Agent where
  master : Nat
  core : Nat
  unit : Nat
deriving DecidableEq, Repr

/-- A barrier operation on its way to the object's home (R128). -/
structure BarOp where
  expect : Bool
  va : Word
  pa : Nat
  count : Nat
  agent : Agent
  sig : Option Sig
  /-- the hart whose UNACK it counts in, with its tag; none for an engine's arrival -/
  slot : Option (Nat × BitVec 16)
  /-- the VMID whose entries translated its address (R77) -/
  vmid : BitVec 6
deriving DecidableEq, Repr

/-- Bytes as an engine moves them, each with whether its block was delivered as poison (R296). -/
abbrev EngBytes := List (Byte × Bool)

/-- What a fabric packet carries (R191, R196, R200). -/
inductive Packet where
  | put (p : Put)
  | ack (a : Ack)
  | msg (m : Msg)
  | outcome (m : Msg) (o : MsgOutcome)
  /-- a piece of an NPUT; the last one is answered; `ref` names the command at its sender, here and below -/
  | write (conn srcNode srcConn ref : Nat) (va : Word) (data : EngBytes) (last : Bool)
  | read (conn srcNode srcConn ref : Nat) (va : Word) (len : Nat)
  /-- a send; `again` marks the repeat of a refused one -/
  | send (conn srcNode srcConn ref : Nat) (tag : BitVec 32) (len : Nat) (data : EngBytes) (again : Bool)
  /-- the outcome of a command at the peer, with the last of the bytes an NGET read and the flags its writes there raised (R296) -/
  | result (conn ref code : Nat) (data : EngBytes) (flags : BitVec 3)
  /-- the receiver asks for the bytes of a matched rendezvous send -/
  | pull (conn ref len : Nat)
  /-- the last bytes of a pull; `ok` false = a terminal fault reading -/
  | payload (conn ref : Nat) (ok : Bool) (data : EngBytes)
  /-- bytes of an answer, ahead of the packet that ends it -/
  | part (conn : Nat) (data : EngBytes)
  /-- an eager send is taken -/
  | held (conn ref : Nat)
  /-- a send finds the unexpected queue full -/
  | refuse (conn ref : Nat)
  /-- the peer has received packet `seq` of the flow it arrives on (R191); it has no sequence number of its own -/
  | seen (seq : Nat)
deriving DecidableEq, Repr

/-- A send as the tenant's Yarrow engine meets it (R199, R200); data is empty for a rendezvous send. -/
structure YSend where
  conn : Nat
  ref : Nat
  src : Nat
  tag : BitVec 32
  len : Nat
  data : EngBytes
  /-- the repeat of a refused send (R201) -/
  again : Bool
deriving DecidableEq, Repr

/-- Where a register with no row of its own is written from (R6, R313, R345). -/
inductive Port where
  | window (w : Writer)
  | bar0 (func : Nat)
  | mgmt
deriving DecidableEq, Repr

/-- A packet of a CPYH command (R254, R268). -/
structure LandPacket where
  srcCore : Nat
  srcQueue : Nat
  dstCore : Nat
  chan : BitVec 6
  offset : Nat
  block : VWord
  hart : Nat
  /-- the header its handler reads in HMSG (R148) -/
  header : Word
deriving DecidableEq, Repr

/-- An engine queue (R243, R251). -/
inductive EngineRef where
  | copy (core queue : Nat)
  | matrix (core : Nat)
deriving DecidableEq, Repr

/-- An element that leaves the adaptive routing tables (R192). -/
inductive Elem where
  | link (k : Nat)
  | router (core : Nat)
  | peer (node : Nat)
deriving DecidableEq, Repr

/-- An event in flight; the row of the same name performs it. -/
inductive Event where
  /-- R6. A write to a register with no row of its own. -/
  | registerWrite (port : Port) (off val : Word)
  /-- R27. Writes hart roles. -/
  | hroleWrite (w : Writer) (g : Nat) (val : Word)
  /-- R38. The landing port decides an arrival. -/
  | putArrival (p : Put)
  /-- R44. An acknowledgement reaches its sender. -/
  | ackArrival (k : Ack)
  /-- R36. Entry `k` of the core's departure table expires. -/
  | departureExpiry (core k : Nat)
  /-- R63. The data of outstanding load `id` of slot `h` returns. -/
  | loadReturn (h id : Nat)
  /-- R66. Store `id` to a remote stash window is written there. -/
  | remoteStashWrite (id : Nat)
  /-- R163. Entry `id` of a core's side log is replayed. -/
  | sideLogReplay (core id : Nat)
  /-- R87. A full write to MSGPORT of function `f`. -/
  | directStart (f : Nat) (g : Nat) (pc p q : Word)
  /-- R87. A full write to SUBMIT of function `f`. -/
  | submission (f : Nat) (hdr base arg compl : Word)
  /-- R88. The launch service takes up the next record of die `die`. -/
  | launchRecordProcess (die : Nat)
  /-- R89. Waiting thread `n` of launch `l` starts. -/
  | threadStart (l n : Nat)
  /-- R100. The release signatures rotate generations. -/
  | signatureGeneration
  /-- R97. The current hart writes STMAP register `k`. -/
  | stmapWrite (k : BitVec 3) (val : Word)
  /-- R128. A barrier operation is applied at its home. -/
  | barrierUpdate (b : BarOp)
  /-- R142. Writes word `hi` of a handler-table entry. -/
  | handlerTableWrite (w : Writer) (g : Nat) (chan : BitVec 6) (hi : Bool) (val : Word)
  /-- R176. Writes word 1 of a software queue. -/
  | softwareQueueWrite (w : Writer) (g : Nat) (idx : BitVec 4) (val : Word)
  /-- R143. A message arrives at its destination channel. -/
  | messageArrival (k : Msg)
  /-- R143. A deferred message is offered again. -/
  | messageReoffer (k : Msg)
  /-- R170. The outcome of a message reaches its sender. -/
  | messageOutcome (k : Msg) (o : MsgOutcome)
  /-- R152. A waiting returned message enters channel 1. -/
  | returnBufferDrain (core : Nat)
  /-- R146. An activation is dispatched on the core. -/
  | activationDispatch (core : Nat)
  /-- R149. The watchdog budget of slot `h` runs out. -/
  | watchdogExpiry (h : Nat)
  /-- R149. The grace of slot `h` runs out. -/
  | watchdogKill (h : Nat)
  /-- R164. The reporting port writes the oldest waiting record of a ring. -/
  | ringRecordWrite (f ring : Nat)
  /-- R165. FAULTRES of function `f` with action retry. -/
  | faultresRetry (f : Nat) (fid : BitVec 32)
  /-- R165. FAULTRES of function `f` with action terminal. -/
  | faultresTerminal (f : Nat) (fid : BitVec 32)
  /-- R167. Thaws hart `k` of core `g`. -/
  | frzThawHart (w : Writer) (g k : Nat)
  /-- R167. Thaws copy queue `k` of core `g`. -/
  | frzThawCq (w : Writer) (g k : Nat)
  /-- R167. Ends the frozen occupant of hart `k` of core `g`. -/
  | frzkillHart (w : Writer) (g k : Nat)
  /-- R167. Drops the commands of frozen copy queue `k` of core `g`. -/
  | frzkillCq (w : Writer) (g k : Nat)
  /-- R195. Writes word 0 of connection `c`. -/
  | connectionWrite (w : Writer) (c : Nat) (val : Word)
  /-- R191. A link die receives packet `seq` of a flow. -/
  | fabricPacketReceive (flow seq : Nat) (p : Packet)
  /-- R191. Packet `seq` of a flow is resent. -/
  | packetRetransmit (flow seq : Nat)
  /-- R192. A dead element leaves the routing tables. -/
  | routeRemoval (e : Elem)
  /-- R192. A peer is lost. -/
  | peerLost (node : Nat)
  /-- R183. Command `id` of connection `c` completes with a code (and the bytes an NGET read). -/
  | fabricCommandComplete (c id code : Nat) (data : EngBytes) (flags : BitVec 3)
  /-- R187. The receiver asks link `k` to replay; `crc` tells a CRC failure, `fail` that the same flit failed again. -/
  | linkReplay (k : Nat) (crc fail : Bool)
  /-- R188. Lane `lane` of link `k` crosses the error threshold. -/
  | laneSpare (k lane : Nat)
  /-- R189. A peer signals on link `k`. -/
  | linkPeerSignal (k : Nat)
  /-- R189. Training of link `k` ends. -/
  | linkTrained (k : Nat) (ok : Bool) (peer : BitVec 10) (spared : Option (BitVec 3))
  /-- R189. The peer of link `k` has been silent for 1 us. -/
  | linkPeerSilent (k : Nat)
  /-- R189. Link `k` has drained. -/
  | linkQuiesced (k : Nat)
  /-- R323. Quiesce command. -/
  | lnkcmdQuiesce (k : Nat)
  /-- R323. Detach command. -/
  | lnkcmdDetach (k : Nat)
  /-- R323. Resume command. -/
  | lnkcmdResume (k : Nat)
  /-- R323. Reattach command. -/
  | lnkcmdReattach (k : Nat)
  /-- R199. A send reaches the tenant's Yarrow engine. -/
  | yarrowSendArrival (k : YSend)
  /-- R200. The pull of a matched rendezvous send ends with its bytes; `ok` false = a terminal fault at the sender. -/
  | rendezvousPull (conn ref : Nat) (ok : Bool) (data : EngBytes)
  /-- R201. The head send of connection `c`, refused before, is retried. -/
  | nsendRetry (c : Nat)
  /-- R203. Writes word `k` of an assignment queue. -/
  | assignQueueWrite (w : Writer) (die q k : Nat) (val : Word)
  /-- R251. A queued engine command starts. -/
  | engineCommandStart (e : EngineRef)
  /-- R255. The oldest waiting command of die `die` receives leave. -/
  | leaveGrant (die : Nat)
  /-- R321. The pools are refilled; `ext` is the energy measured outside the compute dies in nJ. -/
  | cloverRefill (ext : Nat)
  /-- R243. The matrix unit of a cluster performs its next step. -/
  | matrixStepComplete (cluster : Nat)
  /-- R250. Quarter-array `k` of a cluster is gated. -/
  | arrayGate (cluster k : Nat)
  /-- R250. The gated quarters of a cluster are awake. -/
  | arrayWakeDone (cluster : Nat)
  /-- R244. Writes MXWT of the writer's core. -/
  | mxwtWrite (w : Writer) (val : Word)
  /-- R250. Writes MXIDLE of the writer's cluster. -/
  | mxidleWrite (w : Writer) (val : Word)
  /-- R253. The next piece of the head command of copy queue `q` is performed. -/
  | copyPieceDone (core q : Nat)
  /-- R254. A CPYH packet starts a landing handler. -/
  | landingHandlerStart (k : LandPacket)
  /-- R283. A write is about to be performed to 4 KiB frame `f`. -/
  | chicoryInvalidation (f : Nat)
  /-- R285. Writes the Class Map entry of frame `f`. -/
  | classMapWrite (w : Writer) (f : Nat) (val : Word)
  /-- R294. A new error-budget window of partition `p` begins. -/
  | ebudgetWindow (p : Nat)
  /-- R293. Lockstepped clusters 2k and 2k + 1 differ. -/
  | lockstepMismatch (k : Nat)
  /-- R307. Slice end of partition `p`. -/
  | sliceEnd (p : Nat)
  /-- R49. Every core of partition `p` has finished the slice-end steps. -/
  | sliceEndDone (p : Nat)
  /-- R307. Restore of partition `p`. -/
  | restore (p : Nat)
  /-- R50. Every core of partition `p` has finished the restore steps. -/
  | restoreDone (p : Nat)
  /-- R307. Teardown of partition `p`. -/
  | teardown (p : Nat)
  /-- R306. Writes dword `k` of the record of partition `p`. -/
  | partitionWrite (w : Writer) (p k : Nat) (val : Word)
  /-- R306. 10 us of TIME have passed. -/
  | tbuTick
  /-- R309. Launch `l` has reached its time budget. -/
  | launchBudgetExpiry (l : Nat)
  /-- R314. Writes dword 1 of a ring with EN set. -/
  | ringEnable (f ring : Nat) (val : Word)
  /-- R314. Writes RD of a ring. -/
  | ringRdWrite (f ring : Nat) (val : BitVec 32)
  /-- R315. Writes VFFRZ. -/
  | vfThaw (mask : Word)
  /-- R315. Writes VFKILL. -/
  | vfKill (mask : Word)
  /-- R316. Writes FEATACC register `k`. -/
  | feataccWrite (k : BitVec 2) (val : Word)
  /-- R317. Reset: the start-up steps, stopping at step `fail` (1 to 5) if given; the manifest's node number. -/
  | boot (fail : Option Nat) (node : BitVec 10)
  /-- R318. Writes NODEID. -/
  | nodeidWrite (val : Word)
  /-- R319. Writes the 32-byte nonce. -/
  | attnonceWrite (nonce : BitVec 256)
  /-- R319. The report becomes readable. -/
  | attestationReportDone
  /-- R322. EMTHROT_N goes low. -/
  | emthrotAssert
  /-- R322. EMTHROT_N is released. -/
  | emthrotRelease
  /-- R323. TRAYPRES_N goes high. -/
  | traypresNHigh
  /-- R324. A private write: offset, then data. -/
  | i3cPrivateWrite (off : BitVec 16) (data : Option Word)
  /-- R324. A private read from the last offset written. -/
  | i3cPrivateRead
  /-- R324. A broadcast write of the cap of a group. -/
  | i3cBroadcastCap (group : BitVec 10) (cap : BitVec 16)
  /-- R99. Store `id` is performed at its home. -/
  | storePerformed (id : Nat)
  /-- R281. The head PTASK of copy queue 0 of a core finishes its hash and the table is searched. -/
  | chicoryLookup (core : Nat)
deriving DecidableEq, Repr

end Sys2Proof
end

