-- ==== Sys2Proof/Machine/Memory.lean ====
section
/-! DEFINITION. Byte memories: (address, byte) pairs in one canonical form, addresses strictly rising, no byte 0 listed; an
unlisted address reads 0 (notes/assumptions/3.md: frames come online filled with zeros, R287; the other memories have no
stated contents). Wider accesses are little-endian (R2). -/

namespace Sys2Proof.Machine

/-- A byte memory. -/
abbrev Memory := List Host.Cell

/-- The byte an unlisted address reads as. -/
def memDefault : Byte := 0#8

/-- The byte at an address. -/
def Memory.read : Memory → Nat → Byte
  | [], _ => memDefault
  | (k, v) :: t, a => if a = k then v else Memory.read t a

/-- The memory without an entry at an address. -/
def Memory.clear : Memory → Nat → Memory
  | [], _ => []
  | (k, v) :: t, a => if a = k then Memory.clear t a else (k, v) :: Memory.clear t a

/-- The memory with an entry put in its place. -/
def Memory.insert : Memory → Nat → Byte → Memory
  | [], a, b => [(a, b)]
  | (k, v) :: t, a, b =>
    if a = k then (a, b) :: t
    else if a < k then (a, b) :: (k, v) :: t
    else (k, v) :: Memory.insert t a b

/-- The memory with a byte written; a byte equal to the default is not listed. -/
def Memory.write (m : Memory) (a : Nat) (b : Byte) : Memory :=
  if b = memDefault then Memory.clear m a else Memory.insert m a b

/-- Addresses strictly rise from `lo` on, and no entry holds the default. -/
def Memory.wfFrom : Nat → Memory → Bool
  | _, [] => true
  | lo, (k, v) :: t => decide (lo ≤ k) && (v != memDefault) && Memory.wfFrom (k + 1) t

/-- The canonical form. -/
def Memory.wf (m : Memory) : Bool := Memory.wfFrom 0 m

/-- The n bytes from an address on. -/
def Memory.readBytes (m : Memory) (a n : Nat) : List Byte := (List.range n).map fun i => Memory.read m (a + i)

/-- Bytes written from an address on, in rising order. -/
def Memory.writeBytes : Memory → Nat → List Byte → Memory
  | m, _, [] => m
  | m, a, b :: bs => Memory.writeBytes (Memory.write m a b) (a + 1) bs

/-- Little-endian value of bytes (R2). -/
def leNat : List Byte → Nat
  | [] => 0
  | b :: bs => b.toNat + 256 * leNat bs

/-- The n little-endian bytes of a value (R2). -/
def leBytes : Nat → Nat → List Byte
  | 0, _ => []
  | n + 1, v => BitVec.ofNat 8 v :: leBytes n (v / 256)

/-- The little-endian value of n bytes (R2). -/
def Memory.readNat (m : Memory) (a n : Nat) : Nat := leNat (Memory.readBytes m a n)

/-- A little-endian value of n bytes written (R2). -/
def Memory.writeNat (m : Memory) (a n v : Nat) : Memory := Memory.writeBytes m a (leBytes n v)

/-- The dword at an address. -/
def Memory.readDword (m : Memory) (a : Nat) : Word := BitVec.ofNat 64 (Memory.readNat m a 8)

/-- The 64-byte block at an address. -/
def Memory.readBlock (m : Memory) (a : Nat) : VWord := BitVec.ofNat 512 (Memory.readNat m a 64)

/-- A 64-byte block written. -/
def Memory.writeBlock (m : Memory) (a : Nat) (v : VWord) : Memory := Memory.writeNat m a 64 v.toNat

/-- The memory with a range of n bytes as in another one. -/
def Memory.copyRange (m : Memory) (a n : Nat) (src : Memory) (b : Nat) : Memory :=
  Memory.writeBytes m a (Memory.readBytes src b n)

/-- The memory with every byte from `lo` up to `hi` reading 0. -/
def Memory.zeroRange (m : Memory) (lo hi : Nat) : Memory := m.filter fun c => c.1 < lo || hi ≤ c.1

end Sys2Proof.Machine
end

