-- ==== Sys2Proof/Machine/Table.lean ====
section
/-! DEFINITION. Sparse data by number: a list of (key, value) pairs in rising order of key. A key that is not listed reads
as the default its reader names. -/

namespace Sys2Proof.Machine

/-- Values by key. -/
abbrev Table (α : Type) := List (Nat × α)

/-- The value of a key, if listed. -/
def Table.find? {α : Type} : Table α → Nat → Option α
  | [], _ => none
  | (k, v) :: t, j => if j = k then some v else Table.find? t j

/-- The value of a key, or the default. -/
def Table.get {α : Type} (d : α) (t : Table α) (j : Nat) : α := (Table.find? t j).getD d

/-- The table with a key set. -/
def Table.set {α : Type} : Table α → Nat → α → Table α
  | [], j, w => [(j, w)]
  | (k, v) :: t, j, w =>
    if j = k then (j, w) :: t
    else if j < k then (j, w) :: (k, v) :: t
    else (k, v) :: Table.set t j w

/-- The table without a key. -/
def Table.erase {α : Type} : Table α → Nat → Table α
  | [], _ => []
  | (k, v) :: t, j => if j = k then Table.erase t j else (k, v) :: Table.erase t j

/-- The keys, in order. -/
def Table.keys {α : Type} (t : Table α) : List Nat := t.map (·.1)

/-- Every value changed by a function of its key. -/
def Table.mapVals {α : Type} (t : Table α) (f : Nat → α → α) : Table α := t.map fun e => (e.1, f e.1 e.2)

/-- The pairs that satisfy a test. -/
def Table.keep {α : Type} (t : Table α) (p : Nat → α → Bool) : Table α := t.filter fun e => p e.1 e.2

end Sys2Proof.Machine
end

