-- ==== Sys2Proof/Machine/State.lean ====
section
/-! DEFINITION. The state of one Damwin package as plain data, its reset, and the ways a step can end without a next state.
Every sub-structure names the rules that give its fields; a reset value marked DC n is a design choice of
notes/assumptions/n.md. -/

namespace Sys2Proof.Machine

/-! ### Harts -/

/-- The five trap registers of one level (R157). -/
structure TrapRegs where
  cause : Word
  epc : Word
  tval : Word
  tvec : Word
  scratch : Word
deriving DecidableEq, Repr

/-- What a slot holds (R27, R34, R79, R89, R146, R254, R298). -/
inductive Slot where
  | free
  | thread
  /-- a thread whose state stands in its context image: saved by PARK, or by slice end -/
  | parked
  | sliced
  /-- reserved for a co-resident launch -/
  | reserved (launch : Nat)
  /-- an activation of a channel -/
  | activation (chan : BitVec 6)
  /-- a pure-task activation -/
  | pure
  /-- a landing handler of CPYH -/
  | landing (chan : BitVec 6)
deriving DecidableEq, Repr

/-- Why the instruction at the PC did not retire when it was last tried (the model's own mark, R30, R45). -/
inductive Stall where
  /-- a register it reads is not ready, or a load to its destination is outstanding (R30, R63) -/
  | reg
  /-- a queue, an entry, a store or a barrier -/
  | other
  /-- FENCE or a release form waits, UNACK not being 0 (R45) -/
  | unack
  /-- EXIT or HEND waits for UNACK 0 (R45, R75, R173) -/
  | leave
  /-- UNACK is 1,023 (R43) -/
  | count
deriving DecidableEq, Repr

/-- Where BLKADDQ or BLKSCL stands between its read and its write (R242). -/
inductive BlkStage where
  /-- the next one reads and writes with nothing between -/
  | whole
  /-- other harts come between the read and the write of the next one -/
  | split
  /-- its read is done: the block it writes, and the flags it sets -/
  | done (z : VWord) (f : Sticky)
deriving DecidableEq, Repr

/-- The context an access translates under (R92, R160). -/
structure TCtx where
  asid : BitVec 12
  ptroot : Word
  vmid : BitVec 6
  s2root : Word
  guest : Bool
  /-- U-mode's permissions apply -/
  user : Bool
deriving DecidableEq, Repr

/-- Where a load's data goes (R62, R63). -/
inductive LoadTarget where
  | xreg (r : Reg) (v : Word)
  | vreg (r : Reg) (v : VWord)
  /-- BLKUNP: five v registers from the base -/
  | vgroup (r : Reg) (vs : List VWord)
deriving DecidableEq, Repr

/-- A load whose data has not returned (R63). -/
structure Load where
  id : Nat
  target : LoadTarget
  flags : Sticky
  /-- accesses to the L2 its return counts (R310) -/
  l2 : Nat
deriving DecidableEq, Repr

/-- A binding of a queue handle (R156, R177). -/
inductive Binding where
  | chan (c : BitVec 6)
  | soft (idx : BitVec 4) (producer : Bool)
  /-- the one-slot queue of a CPYH packet (R254) -/
  | packet
deriving DecidableEq, Repr

/-- A send-queue entry (R151, R169): request or reply, whether it still stands in an activation buffer, whether the network
has taken it (a reply entry is then free, and only its order is kept, R144), whether it has come back. -/
structure SendEntry where
  msg : Msg
  request : Bool
  buffered : Bool
  taken : Bool
  /-- returned, and waiting to enter channel 1 (R152) -/
  returned : Bool
deriving DecidableEq, Repr

/-- An entry of an activation buffer (R290). -/
inductive BufEntry where
  /-- a store: `rep` is the address its instruction named (R64, R65) -/
  | store (va : Word) (bytes : List Byte) (rel : Bool) (rep : Word)
  /-- a lane or a block of vector store `group`, which never enters the side log (R228) -/
  | lanes (va : Word) (bytes : List Byte) (group : Nat)
  | put (p : Put) (rel : Bool)
  | ldto (loc va : Word) (word : Bool)
  | msg (id : Nat)
deriving DecidableEq, Repr

/-- A pure-task activation's bounds and output (R273, R298 to R301). -/
structure PureRun where
  /-- the PTASK's command -/
  core : Nat
  cmd : Nat
  codeVa : Word
  codeLen : Nat
  /-- argument tiles: address and length -/
  tiles : List (Word × Nat)
  outVa : Word
  outLen : Nat
  /-- output bytes written so far, by offset (activation buffer and staging area); the 64-byte blocks of it, by address, that a copy
  has delivered as poison (R296) -/
  out : Table Byte
  bad : List Nat
  entry : Nat
  /-- CPY commands of the task not yet complete -/
  copies : Nat
  redeliv : Nat
deriving DecidableEq, Repr

/-- One hart: the state of its slot and of the thread or activation in it. -/
structure Hart where
  x : Table Word
  v : Table VWord
  m : Table (BitVec 64)
  xready : BitVec 32
  vready : BitVec 32
  pc : Word
  mode : Mode
  slot : Slot
  tagCtr : BitVec 16
  tag : BitVec 16
  /-- the cause and value of the trap a frozen hart keeps (R167); beside it whether the cause was raised as an async one, and whether
  its fault was of the second stage (R158) -/
  frozen : Option (Nat × Word)
  froze : Bool × Bool
  /-- the kind of access and the address of its freeze record (R164) -/
  frozeAt : Nat × Word
  /-- a frozen thread thawed while it is saved takes its trap once it is resident again (R167) -/
  thawDue : Bool
  /-- async causes of thawed freezes that wait for their level's TE (R159, R167) -/
  thawed : List (Nat × Word)
  idle : Bool
  yielded : Bool
  stall : Option Stall
  blk : BlkStage
  vtype : EType
  unack : Nat
  landCode : BitVec 3
  landMiss : BitVec 8
  landLoc : Word
  landCnt : Word
  refusal : Bool
  /-- the acknowledgement that recorded the refusal ended the wait of the instruction at the PC, which retires first (R45) -/
  retires : Bool
  heldCause : Word
  heldTval : Word
  reqd : BitVec 4
  repd : BitVec 4
  sendq : List SendEntry
  utvec : Word
  uepc : Word
  ucause : Word
  utval : Word
  udeleg : Word
  tdeleg : Word
  status : Word
  sregs : TrapRegs
  hstatus : Word
  hregs : TrapRegs
  mstatus : Word
  mregs : TrapRegs
  asid : BitVec 12
  ptroot : Word
  vmid : BitVec 6
  s2root : Word
  stmap : Table Word
  pmc : Table Word
  pmsel : Word
  rclass : Word
  ptviol : Word
  wid : Word
  widf : Word
  launchId : Word
  nthreads : Word
  larg0 : Word
  larg1 : Word
  /-- the launch the thread belongs to, and its thread number; copy B of a V launch numbers from NTHREADS on (R292) -/
  launch : Option (Nat × Nat)
  hmsg : Word
  wdog : Nat
  grace : Bool
  /-- dispatch order of the activation (R150), and the acceptance order of its message -/
  order : Nat
  msgStamp : Nat
  handles : Table Binding
  /-- the bytes of the CPYH packet under q15, its issuer's core and copy queue (R254) -/
  packet : VWord
  packetFrom : Nat × Nat
  packetCons : Nat
  pend : List (Nat × Word)
  /-- the fault that holds the hart: its FID, the address its instruction named, whether it is of the second stage (R162, R165) -/
  hold : Option (Nat × Word × Bool)
  /-- the faults of further pages of a vector access, held likewise (R228) -/
  holds : List (Nat × Word × Bool)
  loads : List Load
  sigCur : Sig
  sigPrev : Sig
  abuf : List BufEntry
  unrollable : Bool
  /-- the launch that takes the hart once the channel 0 activation it is lent to has ended (R89, R146) -/
  heldFor : Option Nat
  /-- slots popped from its own channel: acceptance order and content (R291) -/
  popped : List (Nat × VWord)
  /-- whether the activation has taken its own slot past its pop, by PRELOAD or QPOP (R147) -/
  past : Bool
  pure : Option PureRun
  /-- engine commands of the thread not yet settled (R125) -/
  engines : Nat
  /-- HSTATUS, the H copy, MSTATUS and the M registers as they stood when the activation started (R173) -/
  startTrap : Word × TrapRegs × Word × TrapRegs
deriving DecidableEq, Repr

/-- All five zero. -/
def TrapRegs.zero : TrapRegs := ⟨0, 0, 0, 0, 0⟩

/-- A hart after reset: free, every register 0 and ready (DC 1, DC 2), every enable as R157 gives it. -/
def Hart.reset : Hart where
  x := []
  v := []
  m := []
  xready := BitVec.allOnes 32
  vready := BitVec.allOnes 32
  pc := 0
  mode := .u
  slot := .free
  tagCtr := 0
  tag := 0
  frozen := none
  froze := (false, false)
  frozeAt := (0, 0)
  thawDue := false
  thawed := []
  idle := false
  yielded := false
  stall := none
  blk := .whole
  vtype := 2
  unack := 0
  landCode := 0
  landMiss := 0
  landLoc := 0
  landCnt := 0
  refusal := false
  retires := false
  heldCause := 0
  heldTval := 0
  reqd := 8
  repd := 8
  sendq := []
  utvec := 0
  uepc := 0
  ucause := 0
  utval := 0
  udeleg := 0x8000000000000000
  tdeleg := 0
  status := 0x10
  sregs := .zero
  hstatus := 0x10
  hregs := .zero
  mstatus := 0x10
  mregs := .zero
  asid := 0
  ptroot := 0
  vmid := 0
  s2root := 0
  stmap := []
  pmc := []
  pmsel := 0
  rclass := 0
  ptviol := 0
  wid := 0
  widf := 0
  launchId := 0
  nthreads := 0
  larg0 := 0
  larg1 := 0
  launch := none
  hmsg := 0
  wdog := 0
  grace := false
  order := 0
  msgStamp := 0
  handles := []
  packet := 0
  packetFrom := (0, 0)
  packetCons := 0
  pend := []
  hold := none
  holds := []
  loads := []
  sigCur := .empty
  sigPrev := .empty
  abuf := []
  unrollable := false
  heldFor := none
  popped := []
  past := false
  pure := none
  engines := 0
  startTrap := (0x10, .zero, 0x10, .zero)

/-! ### Cores and clusters -/

/-- A channel's queue state (R141, R145, R146). -/
structure Chan where
  w0 : Word
  w1 : Word
  prod : BitVec 16
  cons : BitVec 16
  masked : Bool
  /-- messages that the mask defers, by node and send number (R145) -/
  defer : List (Nat × Nat)
  /-- acceptance order of the slots from CONS on -/
  stamps : List Nat
  /-- activations started and not yet past their pop -/
  started : Nat
  /-- redeliveries so far, by acceptance order of the message (R291) -/
  redeliv : Table Nat
deriving DecidableEq, Repr

/-- An empty channel (R141, R145). -/
def Chan.reset : Chan := ⟨0, 0, 0, 0, false, [], [], 0, []⟩

/-- A software queue (R176). -/
structure SoftQ where
  prod : BitVec 16
  cons : BitVec 16
  w1 : Word
deriving DecidableEq, Repr

/-- An entry of a departure table (R35); `byPark` tells PARK's saves from slice end's (R80), `part` the partition whose save area holds
the image (R308). -/
structure Dep where
  stamp : BitVec 32
  state : Nat
  hart : Nat
  tag : BitVec 16
  place : Word
  byPark : Bool
  part : Nat
deriving DecidableEq, Repr

/-- A free departure entry. -/
def Dep.free : Dep := ⟨0, 0, 0, 0, 0, false, 0⟩

/-- A side-log entry (R64, R163): a scalar store or a reduction that waits on translation. -/
structure LogEntry where
  id : Nat
  hart : Nat
  tag : BitVec 16
  va : Word
  /-- the address its instruction named (R64) -/
  rep : Word
  bytes : List Byte
  ctx : TCtx
  /-- the partition it was made in, under whose rights it is replayed (R163, R285) -/
  part : Option Nat
  /-- the fault that is not resolved yet -/
  fid : Option Nat
  /-- a release store publishes its signature when it is performed (R118) -/
  rel : Option Sig
  /-- the copy of a V launch its thread belongs to (R292) -/
  shadow : Option (Nat × Bool)
deriving DecidableEq, Repr

/-- A command of the copy engine, the matrix unit or a connection (R17, R251, R257, R271). -/
structure Cmd where
  id : Nat
  word : BitVec 32
  g : List Word
  /-- the token's locator, index 0 for no token, and MMUL's completion token -/
  loc : Word
  loc2 : Word
  hart : Nat
  tag : BitVec 16
  ctx : TCtx
  cls : Nat
  off : Nat
  started : Bool
  /-- leave: none asked, waiting with its place in the order, or granted (R255) -/
  leave : Option (Nat × Bool)
  held : Option Nat
  sig : Sig
  flags : Sticky
  /-- MMUL has written its operands-consumed token (R248) -/
  consumed : Bool
  /-- a CPYH packet's handler or a PTASK's activation is due or runs -/
  busy : Bool
  /-- a copy of a pure task: its bytes go to the task's output (R301) -/
  pure : Bool
  /-- what PTASK read at issue: the code length, the mode, the argument records (R298); after a hit the stored result follows.
  `consumed` marks a PTASK's hit; `off` is a missed PTASK's pending entry, `done` its reruns (R299) -/
  args : List Word
  /-- codes below an NPUT or NGET that has ended without being counted yet (R183) -/
  done : Option Nat
  /-- the copy of a V launch it works for (R292) -/
  shadow : Option (Nat × Bool)
  /-- bytes of a hit's stored result that are poison, by offset (R296) -/
  bad : List Nat
  /-- what racing reads may still see: the stashes when an MMUL issued (R249), the weight buffers when an MLDW started (R246) -/
  old : Option Memory
deriving DecidableEq, Repr

/-- A message on its way back that waits for channel 1, with its reason (R152). -/
structure Returned where
  msg : Msg
  reason : Nat
  /-- the low half of TIME at the return (R152) -/
  stamp : Nat
deriving DecidableEq, Repr

/-- One core (R27, R35, R37, R141 to R152, R163, R167, R176, R244, R246, R251). -/
structure Core where
  hrole : BitVec 16
  roles : BitVec 16
  cqFrozen : BitVec 4
  wbwin : Word
  chans : Table Chan
  soft : Table SoftQ
  dep : Table Dep
  depgrace : BitVec 20
  mxwt : BitVec 4
  retbuf : List Returned
  front : List Cmd
  cq : Table (List Cmd)
  mq : List Cmd
  sidelog : List LogEntry
  /-- the cores the loaded route table names (R88), as locators cut to NODE, DIE and CORE -/
  routes : List Word
  /-- CPYH packets that wait for H7 (R254) -/
  packets : List LandPacket
  /-- the resident hart that last issued, and the cycles of the core since (R150) -/
  lastHart : Nat
  sinceResident : Nat
deriving DecidableEq, Repr

/-- A core after reset. -/
def Core.reset : Core where
  hrole := 0
  roles := 0
  cqFrozen := 0
  wbwin := 0x3F00
  chans := []
  soft := []
  dep := []
  depgrace := 1000
  mxwt := 1
  retbuf := []
  front := []
  cq := []
  mq := []
  sidelog := []
  routes := []
  packets := []
  lastHart := 7
  sinceResident := 0

/-- One cluster's matrix unit (R244, R250): MXIDLE, the gated quarters, whether they wake, the arbiter's queue and the
steps left of its turn (DC 10). -/
structure Cluster where
  mxidle : BitVec 20
  gated : BitVec 4
  waking : Bool
  /-- the queue of the last turn, 8 between rounds; the steps left of the turn; the weights of the round (R244) -/
  queue : Nat
  turn : Nat
  weights : List Nat
  frozen : Bool
  /-- cycles since the last MMUL step -/
  idle : Nat
deriving DecidableEq, Repr

/-- A cluster after reset: every quarter gated (R250), no round of the arbiter begun (R244). -/
def Cluster.reset : Cluster := ⟨8192, 0xF, false, 8, 0, [], false, 0⟩

/-! ### The memory system -/

/-- A line held in an L1D or a stash window: the generation it was filled at, its words, the words still held (R96 to
R101). -/
structure LineCopy where
  gen : Nat
  data : VWord
  valid : BitVec 8
deriving DecidableEq, Repr

/-- A die's copy of a software-managed line, with its dirty bytes (R105). -/
structure DieCopy where
  data : VWord
  dirty : BitVec 64
deriving DecidableEq, Repr

/-- A cached translation (R160): the first-stage result and, where V = 1, the second-stage leaf of its page if cached. -/
structure TlbEntry where
  core : Nat
  vmid : BitVec 6
  asid : BitVec 12
  glob : Bool
  guest : Bool
  /-- page base and size of the first stage -/
  va : Nat
  size : Nat
  gpa : Nat
  /-- leaf flags of the first stage -/
  flags : Nat
  /-- second stage: page base, size, physical base, leaf flags -/
  s2 : Option (Nat × Nat × Nat × Nat)
deriving DecidableEq, Repr

/-- Where a store is performed (R106). -/
inductive StorePlace where
  /-- a home: the software-managed die if any, the holder that becomes owner if cacheable, its die copy's line -/
  | home (sm : Option Nat) (holder : Option Nat)
  | remoteStash (core : Nat)
  | host
deriving DecidableEq, Repr

/-- A store not yet performed (R66, R99). -/
structure Store where
  id : Nat
  hart : Nat
  tag : BitVec 16
  va : Word
  pa : Nat
  bytes : List Byte
  place : StorePlace
  /-- the VMID it was translated under (R77) -/
  vmid : BitVec 6
  /-- its write is one of a V launch's copy (R292) -/
  shadow : Option (Nat × Bool)
  /-- the vector store it is a lane of (R229) -/
  group : Option Nat
deriving DecidableEq, Repr

/-- An error in memory that no read has met (R288): a 64-byte line, correctable or not. -/
structure MemError where
  line : Nat
  correctable : Bool
deriving DecidableEq, Repr

/-- The memory system (R96 to R106, R116, R117, R285 to R289). -/
structure MemSys where
  /-- physical memory: the latest performed value of every byte at its home -/
  mem : Memory
  stash : Memory
  wbuf : Memory
  acc : Table (BitVec 32)
  copies : Table LineCopy
  owners : Table Nat
  dies : Table DieCopy
  /-- signatures stored per line, current and previous (R102); the generation a slice last dropped one at -/
  homeSigs : Table (Sig × Sig)
  sigDrops : Table Nat
  /-- a dirty line's value in its memory, and whether it is held there as poison (R116, R289) -/
  dirty : Table (VWord × Bool)
  /-- pinned lines of L2 slices, each with the partition that pinned it, 64 for none (R134) -/
  pins : Table Nat
  /-- read-mostly lines replicated in another die's L2, by die and line (R104) -/
  replicas : List Nat
  poison : List Nat
  stashPoison : List Nat
  errors : List MemError
  classMap : Table Word
  /-- expander ranges the HDM decoders map: base and length (R342); none are programmed while the ports are held in reset (R316) -/
  hdm : List (Nat × Nat)
  tlb : List TlbEntry
  stores : List Store
  /-- shadow frames of V launches: (launch, copy) to the lines of every page shadowed, by physical line number (R292) -/
  shadows : Table (Table VWord)
  /-- lines of them that are held as poison (R296) -/
  shadowPoison : Table (List Nat)
  shadowPool : Table Nat
deriving DecidableEq, Repr

/-! ### Faults and rings -/

/-- Who a fault record's resolution goes to (R165). -/
inductive FaultOwner where
  | hart (h : Nat) (tag : BitVec 16)
  | log (core id : Nat)
  | copy (core queue : Nat)
  | matrix (core : Nat)
  | conn (c : Nat)
  | recv (id : Nat)
  | nobody
deriving DecidableEq, Repr

/-- A fault record (R164), with the function whose ring it goes to (0 is the PF) and the ring. -/
structure Record where
  time : Word
  addr : Word
  cause : Nat
  stage : Nat
  acc : Nat
  master : Nat
  g : Nat
  unit : Nat
  asid : BitVec 12
  vmid : BitVec 6
  retry : Bool
  fid : Nat
  func : Nat
  ring : Nat
  die : Nat
  owner : FaultOwner
deriving DecidableEq, Repr

/-- A fault ring (R314). -/
structure Ring where
  base : Word
  log : Nat
  en : Bool
  err : Bool
  wr : BitVec 32
  rd : BitVec 32
deriving DecidableEq, Repr

/-- A ring after reset. -/
def Ring.reset : Ring := ⟨0, 0, false, false, 0, 0⟩

/-- Records and rings (R164, R165, R313 to R315). -/
structure FaultSys where
  /-- records that wait to be written, in the order detected -/
  waiting : List Record
  /-- records not resolved yet -/
  unresolved : List Record
  rings : Table Ring
  ringwt : Word
  vffrz : Word
  msgstat : Table Word
  /-- records the reporting port may still write this round, by ring (R164) -/
  credit : Table Nat
deriving DecidableEq, Repr

/-! ### Launches -/

/-- Where a launch's status goes (R88, R137). -/
inductive StatusTo where
  | token (loc : Word) (node : Nat)
  | host (addr : Word)
  | locator (loc : Word) (hart : Nat)
  | nowhere
deriving DecidableEq, Repr

/-- A launch record (R94, R95). -/
structure LaunchRec where
  id : Nat
  hdr : List Word
  presets : List Word
  base : Nat
  /-- an interval length that replaces the header's L; 0 takes it from the header (R136) -/
  len : Nat
  arg0 : Option Word
  arg1 : Word
  dest : StatusTo
  part : Option Nat
  smode : Bool
  ctx : TCtx
  sig : Option Sig
  /-- a pre-built record, by die and index -/
  prebuilt : Option (Nat × Nat)
  /-- the header address of a host submission; its header is copied when the record is accepted, none where it cannot be read (R87) -/
  hdrVa : Option Word
  /-- the die whose pool it goes to (R94) -/
  die : Nat
  /-- its place in the memory-backed queue (R94, R308) -/
  place : Option Nat
deriving DecidableEq, Repr

/-- A pre-built record (R95). -/
structure Prebuilt where
  hdr : List Word
  presets : List Word
  owner : Nat
  armed : Bool
deriving DecidableEq, Repr

/-- The two copies of a V launch (R292). -/
structure VRun where
  sigA : Word
  sigB : Word
  second : Bool
  failed : Bool
deriving DecidableEq, Repr

/-- A launch in progress (R88 to R92, R292, R309). -/
structure Launch where
  id : Nat
  record : LaunchRec
  base : Nat
  len : Nat
  harts : Nat
  n : Nat
  sstart : Bool
  /-- thread numbers not started, and those running -/
  waiting : List Nat
  running : List Nat
  tbu : Nat
  ver : Option VRun
deriving DecidableEq, Repr

/-- Launch records and launches (R94, R95). -/
structure LaunchSys where
  pool : Table (List LaunchRec)
  queue : Table (List LaunchRec)
  /-- records that have entered each partition's queue in memory so far -/
  qtail : Table Nat
  prebuilt : Table Prebuilt
  armed : Table (List LaunchRec)
  live : Table Launch
  next : Nat
deriving DecidableEq, Repr

/-! ### Fabric -/

/-- A Sceug link (R187 to R190). -/
structure Link where
  state : Nat
  peer : Nat
  spared : Nat
  badlanes : BitVec 8
  replays : BitVec 32
  crcerr : BitVec 16
  spares : BitVec 16
  /-- consecutive failed replays of one flit -/
  fails : Nat
  /-- the sequence number of the next flit, and the replay buffer, oldest first: the flow, number and flits of each packet (R187) -/
  seqno : Nat
  buf : List (Nat × Nat × Nat)
  /-- for each lane, the TIME of its errors in the window (R188) -/
  errs : Table (List Nat)
deriving DecidableEq, Repr

/-- A link after reset. -/
def Link.reset : Link := ⟨0, 0, 15, 0, 0, 0, 0, 0, 0, [], []⟩

/-- An entry of a connection's command queue: a command, or an NCHAIN wait (R183). -/
inductive ConnItem where
  | cmd (c : Cmd)
  | chain (conn : Nat) (count : Word)
deriving DecidableEq, Repr

/-- A connection (R194). -/
structure Conn where
  state : Nat
  peern : Nat
  pconn : Nat
  part : Nat
  vmid : BitVec 6
  asid : BitVec 12
  count : Word
  refused : BitVec 32
  resent : BitVec 32
  queue : List ConnItem
  /-- the refused send that waits, and its back-off in microseconds; 0 = none has been refused (R201) -/
  refusedRef : Nat
  backoff : Nat
  /-- nanoseconds of the back-off that are left -/
  wait : Nat
  /-- arrived requests not performed yet, oldest first; the fault that holds the first; the command and code of an NPUT
  whose pieces are arriving (R181, R182) -/
  inbox : List Packet
  inHeld : Option Nat
  inCode : Nat × Nat
  inFlags : BitVec 3
  /-- a send of the peer has been refused: others wait behind it (R201) -/
  inRefused : Bool
  /-- the bytes of an answer whose last packet has not come (R182, R200) -/
  parts : EngBytes
deriving DecidableEq, Repr

/-- A connection after reset. -/
def Conn.reset : Conn := ⟨0, 0, 0, 0, 0, 0, 0, 0, 0, [], 0, 0, 0, [], none, (0, 0), 0, false, []⟩

/-- A flow's ends (R191): the next number to send and to deliver, packets kept until the peer has acknowledged them, with the TIME each
was sent last, and packets held out of order; puts and messages acknowledged as packets whose answer is still due (R192). -/
structure Flow where
  next : Nat
  expect : Nat
  kept : List (Nat × Packet)
  sentAt : Table Nat
  open_ : List Packet
  early : List (Nat × Packet)
  resent : Nat
deriving DecidableEq, Repr

/-- A flow before its first packet. -/
def Flow.reset : Flow := ⟨0, 0, [], [], [], [], 0⟩

/-- A tenant's Yarrow entry (R198). -/
structure YTenant where
  uqbase : Word
  uqlog : Nat
  rquota : Nat
deriving DecidableEq, Repr

/-- A Yarrow entry after reset. -/
def YTenant.reset : YTenant := ⟨0, 24, 1024⟩

/-- A receive (R185, R199, R202). -/
structure Recv where
  id : Nat
  src : Nat
  smask : Nat
  tag : BitVec 32
  tmask : BitVec 32
  va : Word
  max : Nat
  loc : Word
  ctx : TCtx
  hart : Nat
  /-- the tenant that posted it, and the position of its core in that tenant's interval (R202) -/
  part : Nat
  pos : Nat
deriving DecidableEq, Repr

/-- A matched receive whose payload is landing (R200, R202): the send's tag, source and length, the bytes, how many have
landed, the fault that holds it, whether the payload ended in a fault at the sender. -/
structure Landing where
  recv : Recv
  tag : BitVec 32
  src : Nat
  len : Nat
  data : EngBytes
  off : Nat
  held : Option Nat
  broken : Bool
  /-- the connection and command of an eager send whose token waits for the landing (R184) -/
  answer : Option (Nat × Nat)
  /-- the eager entry of the unexpected queue it is copied from, freed with its end (R202) -/
  entry : Option YSend
  flags : Sticky
deriving DecidableEq, Repr

/-- A block-assignment queue (R203). -/
structure AssignQ where
  count : BitVec 32
  next : BitVec 32
  part : Nat
  done : BitVec 32
  cloc : Word
  /-- the blocks marked done -/
  marks : List Nat
  /-- indices an abandoned collective had handed out, and those below that number whose blocks were done (R203) -/
  handed : Nat
  past : List Nat
deriving DecidableEq, Repr

/-- An assignment queue after reset. -/
def AssignQ.reset : AssignQ := ⟨0, 0, 0, 0, 0, [], 0, []⟩

/-- The fabric (R187 to R203). -/
structure FabricSys where
  links : Table Link
  conns : Table Conn
  flows : Table Flow
  removed : List Elem
  lost : List Nat
  /-- nodes that no path reaches, with the nanoseconds since (R192) -/
  cut : Table Nat
  yarrow : Table YTenant
  posted : Table (List Recv)
  unexpected : Table (List YSend)
  /-- matched rendezvous receives whose pull is under way, by receive -/
  pulls : Table (Recv × YSend)
  landings : List Landing
  assign : Table AssignQ
  /-- packets that have left the package, newest first: (destination node, flow, sequence number, packet) -/
  sent : List (Nat × Nat × Nat × Packet)
deriving DecidableEq, Repr

/-! ### Chicory, partitions, platform -/

/-- The states of a reuse entry (R284); free entries are not kept. -/
inductive REntryState where
  | pending | voided | valid
deriving DecidableEq, Repr

/-- An entry of the reuse table (R278, R284). -/
structure REntry where
  id : Nat
  hash : BitVec 128
  asid : BitVec 12
  vmid : BitVec 6
  cls : Nat
  part : Nat
  len : Nat
  result : List Byte
  /-- its bytes that are poison, by offset (R296) -/
  bad : List Nat
  frames : List Nat
  age : Nat
  set : Nat
  state : REntryState
deriving DecidableEq, Repr

/-- Chicory (R276 to R284). -/
structure ReuseSys where
  /-- the tenant table's two words -/
  tenants : Table (Word × Word)
  entries : List REntry
  watched : List Nat
  quota : Table (BitVec 17)
  /-- LOOKUPS, HITS, INSERTS, INVALS by 4 × PARTID + k -/
  counts : Table Word
deriving DecidableEq, Repr

/-- A partition record (R306) with its error budget (R294). -/
structure Part where
  state : Nat
  base : Nat
  len : Nat
  savebase : Word
  route : Word
  ebu : BitVec 32
  tbu : BitVec 32
  dw4 : Word
  dw5 : Word
  ebwin : BitVec 20
  eblimit : BitVec 32
  det : BitVec 16
  corr : BitVec 16
  spent : BitVec 32
  /-- EBUDGET has become pending in this window -/
  raised : Bool
  /-- leave units granted and not yet charged as a whole EBU (R255) -/
  lu : Nat
  /-- TIME at which the error window began -/
  winStart : Word
deriving DecidableEq, Repr

/-- A partition after reset. -/
def Part.reset : Part := ⟨0, 0, 0, 0, 0, 0, 0, 0, 0, 1000, 1024, 0, 0, 0, false, 0, 0⟩

/-- What slice end keeps of a core for its partition beside what goes to the save area: channel and software queues, the threads of
its slots, waiting engine commands (R49, R308). -/
structure SavedCore where
  chans : Table Chan
  soft : Table SoftQ
  harts : Table Hart
  cq : Table (List Cmd)
  mq : List Cmd
  /-- its frozen copy queues, which only a thaw or a kill moves on (R167, R253) -/
  cqFrozen : BitVec 4
  /-- HROLE, and the roles in force, under which its threads come back (R27) -/
  hrole : BitVec 16
  roles : BitVec 16
  /-- CPYH packets held until restore (R268) -/
  packets : List LandPacket
  /-- where the records of its commands stand, by command (R271) -/
  records : List (Nat × Nat)
deriving DecidableEq, Repr

/-- Platform registers (R311 to R324). -/
structure Platform where
  parts : Table Part
  /-- cores saved by slice end, by 1,024 × PARTID + position in the interval -/
  saved : Table SavedCore
  /-- pending launch records saved by slice end, by PARTID (R94) -/
  savedRecs : Table (List LaunchRec)
  vft : Table Word
  featacc : Table Word
  /-- FEATACC registers written since reset -/
  featdone : BitVec 4
  bootstat : Word
  node : BitVec 10
  nodeLock : Bool
  deverr : Word
  pwrcap : BitVec 16
  pwrcapt : BitVec 16
  pwrfloor : BitVec 16
  energy : BitVec 32
  avg : BitVec 16
  rackgrp : BitVec 10
  /-- Clover pools of the compute dies in LU (R255, R321) -/
  pools : Table Int
  /-- the share of the last refill in LU -/
  share : Int
  throttle : Bool
  nonce : BitVec 256
  report : Bool
  /-- bytes 0 to 247 of the report, which its signatures cover (R319) -/
  reportData : List Byte
  i3coff : BitVec 16
  i3cdata : Word
  /-- in-band interrupts raised (R324) -/
  ibis : Nat
  trayHigh : Bool
  /-- cluster pairs bound in delayed lockstep, each with the ASID and VMID of its context; those whose streams differ, with the cycles until
  the comparison meets it; the harts of first clusters whose repetition in the second one is in another state, with that state (R293) -/
  lockstep : Table (BitVec 12 × BitVec 6)
  lockDue : Table Nat
  lockHarts : Table Hart
  /-- the partition a gateway core serves (R186, notes/assumptions/11.md) -/
  gwPart : Table Nat
deriving DecidableEq, Repr

/-- Which agent moves next (notes/assumptions/5.md). -/
inductive Turn where
  /-- the k-th event in flight is performed -/
  | event (k : Nat)
  /-- something reaches the package from outside -/
  | outside (e : Event)
  /-- hart h issues -/
  | issue (h : Nat)
  /-- TIME advances by ns and CYCLE by cyc -/
  | pass (ns cyc : Nat)
  /-- the next BLKADDQ or BLKSCL of hart h lets other harts come between its read and its write (R242) -/
  | splitBlock (h : Nat)
  /-- a holder gives up an unowned line -/
  | dropCopy (holder line : Nat)
  /-- a dirty line is written to its memory -/
  | writeBack (line : Nat)
  /-- a die's copy of a software-managed line is evicted -/
  | evict (die line : Nat)
  /-- a cached translation is dropped -/
  | dropTlb (k : Nat)
  /-- a slice drops a line's stored signatures -/
  | dropSig (line : Nat)
  /-- an error appears in memory -/
  | memError (line : Nat) (correctable : Bool)
  /-- an error is met in a core's stash, L1D or accumulators (R295) -/
  | coreError (core : Nat) (corrected : Bool)
  /-- an error is met in a cluster's weight buffer (R295) -/
  | wbError (cluster : Nat) (corrected : Bool)
  /-- errors of shared units are counted in DEVERR -/
  | devError (kind : Nat)
  /-- the partition manager adds pages to a shadow pool -/
  | shadowPages (part n : Nat)
  /-- the peer of a link acknowledges the oldest n packets of its replay buffer (R187) -/
  | linkAck (k n : Nat)
  /-- a lane of a link meets an error; lane 8 is the spare (R188) -/
  | laneError (k lane : Nat)
  /-- firmware programs an HDM decoder range; a port held in reset takes none (R316) -/
  | hdmRange (base len : Nat)
  /-- M-mode firmware binds a lockstep pair for a context, ASID and VMID, or unbinds it -/
  | lockstep (k : Nat) (context : Option (BitVec 12 × BitVec 6))
  /-- an upset in the second cluster of a pair: the repetition of hart h holds v in x[r], in the PC for r = 0 (R293) -/
  | lockUpset (h : Nat) (r : Reg) (v : Word)
  /-- M-mode firmware writes a pre-built record at boot -/
  | prebuild (die idx : Nat) (p : Prebuilt)
  /-- the partition manager gives a gateway core to a partition -/
  | gateway (core : Nat) (part : Option Nat)
  /-- the partition manager sets the decoded entries of a route table that a load of it will find (R88) -/
  | routes (part : Nat) (cores : List Word)
deriving DecidableEq, Repr

/-- The package. -/
structure State where
  harts : Table Hart
  cores : Table Core
  clusters : Table Cluster
  ms : MemSys
  flt : FaultSys
  lch : LaunchSys
  fab : FabricSys
  reuse : ReuseSys
  plat : Platform
  time : Word
  /-- CYCLE of every core: the main clocks count together (notes/assumptions/15.md) -/
  cycle : Word
  /-- decoded route tables in memory, by partition (R88, notes/assumptions/9.md) -/
  routeTabs : Table (List Word)
  /-- the model's own: the hart that issues next (8 × core + hart) -/
  cur : Nat
  /-- the model's own: events in flight, oldest first -/
  flight : List Event
  /-- the model's own: the events of those in flight, the oldest, that come before the next issue -/
  lag : Nat
  /-- the model's own: which agent moves next; empty = the default order -/
  turns : List Turn
  /-- the model's own: the index of the next free value (notes/assumptions/4.md) -/
  freeCtr : Nat
  /-- the model's own: the next identifier -/
  nextId : Nat
deriving DecidableEq, Repr

/-- A stop of the machine with a fault. -/
inductive Fault where
  /-- Raised by the meaning of a step row when the event it performs is not the oldest in flight: the row then does not
  occur. Safe: nothing happens where nothing would. -/
  | noEvent (row : String)
deriving DecidableEq, Repr

/-- An instruction that is turned away. -/
inductive Refusal where
  /-- Raised by the dispatch for an instruction without a meaning. Safe: nothing is claimed of it. -/
  | notModelled (mnemonic : String)
deriving DecidableEq, Repr

/-- The memory system after reset: nothing listed, every frame offline (R285). -/
def MemSys.reset : MemSys where
  mem := []
  stash := []
  wbuf := []
  acc := []
  copies := []
  owners := []
  dies := []
  homeSigs := []
  sigDrops := []
  dirty := []
  pins := []
  replicas := []
  poison := []
  stashPoison := []
  errors := []
  classMap := []
  hdm := []
  tlb := []
  stores := []
  shadows := []
  shadowPoison := []
  shadowPool := []

/-- The platform after reset: PWRCAP 1,800, PWRCAPT 100, PWRFLOOR 1,000 (R320), each pool full (R321). -/
def Platform.reset : Platform where
  parts := []
  saved := []
  savedRecs := []
  vft := []
  featacc := []
  featdone := 0
  bootstat := 0
  node := 0
  nodeLock := false
  deverr := 0
  pwrcap := 1800
  pwrcapt := 100
  pwrfloor := 1000
  energy := 0
  avg := 0
  rackgrp := 0
  pools := [(0, 45000000), (1, 45000000), (2, 45000000), (3, 45000000)]
  share := 4500000
  throttle := false
  nonce := 0
  report := false
  reportData := []
  i3coff := 0
  i3cdata := 0
  ibis := 0
  trayHigh := false
  lockstep := []
  lockDue := []
  lockHarts := []
  gwPart := []

/-- The machine right after reset: every hart free, every table empty, the ring weights 4, 2 and 1 (R164). -/
def State.reset : State where
  harts := []
  cores := []
  clusters := []
  ms := .reset
  flt := ⟨[], [], [], 0x010204, 0, [], []⟩
  lch := ⟨[], [], [], [], [], [], 1⟩
  fab := ⟨[], [], [], [], [], [], [], [], [], [], [], [], []⟩
  reuse := ⟨[], [], [], [], []⟩
  plat := .reset
  time := 0
  cycle := 0
  routeTabs := []
  cur := 0
  flight := []
  lag := 0
  turns := []
  freeCtr := 0
  nextId := 1

/-! ### Reading and replacing the parts of the state -/

/-- Hart `h` = 8 × core + hart number. -/
def State.hart (s : State) (h : Nat) : Hart := Table.get Hart.reset s.harts h

/-- The state with a hart replaced. -/
def State.setHart (s : State) (h : Nat) (a : Hart) : State := { s with harts := Table.set s.harts h a }

/-- The issuing hart. -/
def State.me (s : State) : Hart := s.hart s.cur

/-- The state with the issuing hart replaced. -/
def State.setMe (s : State) (a : Hart) : State := s.setHart s.cur a

/-- Core `c`. -/
def State.core (s : State) (c : Nat) : Core := Table.get Core.reset s.cores c

/-- The state with a core replaced. -/
def State.setCore (s : State) (c : Nat) (a : Core) : State := { s with cores := Table.set s.cores c a }

/-- The core of the issuing hart. -/
def State.myCore (s : State) : Nat := s.cur / 8

/-- Cluster `c`. -/
def State.cluster (s : State) (c : Nat) : Cluster := Table.get Cluster.reset s.clusters c

/-- The state with a cluster replaced. -/
def State.setCluster (s : State) (c : Nat) (a : Cluster) : State := { s with clusters := Table.set s.clusters c a }

/-- Partition `p`. -/
def State.part (s : State) (p : Nat) : Part := Table.get Part.reset s.plat.parts p

/-- The state with a partition record replaced. -/
def State.setPart (s : State) (p : Nat) (a : Part) : State :=
  { s with plat := { s.plat with parts := Table.set s.plat.parts p a } }

/-- Connection `c`. -/
def State.conn (s : State) (c : Nat) : Conn := Table.get Conn.reset s.fab.conns c

/-- The state with a connection replaced. -/
def State.setConn (s : State) (c : Nat) (a : Conn) : State :=
  { s with fab := { s.fab with conns := Table.set s.fab.conns c a } }

/-- The state with an event added at the end of those in flight. -/
def State.fly (s : State) (e : Event) : State := { s with flight := s.flight ++ [e] }

end Sys2Proof.Machine
end

