-- ==== Sys2Proof/Machine/Ops.lean ====
section
/-! DEFINITION. The named operations over registers, places and traps that the meanings share: reading and writing registers
(R30, R52, R63), locators and the Hilbert map (R32, R93), partitions (R306), fault records and freezing (R164, R167),
taking a trap and returning from one (R157 to R159, R72). -/

namespace Sys2Proof.Machine

/-! ### How an instruction ends -/

/-- Why an instruction did not complete. -/
inductive Stop where
  /-- a precise trap (R158) -/
  | trap (cause : Nat) (tval : Word)
  /-- a precise trap met by a kind of access (R158, R164) -/
  | trapAcc (acc cause : Nat) (tval : Word)
  /-- ACCESS, precise, met by a kind of access (R158, R164) -/
  | deny (acc : Nat) (va : Word)
  /-- it waits at issue -/
  | wait (k : Stall)
  /-- a translation fault holds the hart at it: the address named, the address of the record, stage, kind of access, whether a leaf
  lacks a permission (R162, R164) -/
  | hold (va addr : Word) (stage acc : Nat) (perm : Bool)
  /-- as `hold`, for lanes in several pages: for each page the lowest lane's address, the record's and the stage (R228) -/
  | holdLanes (acc : Nat) (pages : List (Word × Word × Nat))
  /-- a purity violation with its address (R300) -/
  | purity (va : Word)
  /-- an access of a kind met poison in class D or a stash, or an uncorrectable class P error, in a line, at an address (R288) -/
  | memErr (acc line : Nat) (uncorr : Bool) (va : Word)
  /-- a V launch finds the shadow pool empty (R292) -/
  | poolEmpty
  /-- it has done part of its work and is tried again: a release of the activation buffer (R290) -/
  | again (s : State)
deriving DecidableEq, Repr

/-- The result of an instruction's own effect. -/
abbrev Res := Except Stop State

/-- Cause codes (R158). -/
def cIllegal : Nat := 0x01
def cPriv : Nat := 0x02
def cMisalign : Nat := 0x03
def cLoadPf : Nat := 0x04
def cStorePf : Nat := 0x05
def cAccess : Nat := 0x06
def cDestGone : Nat := 0x07
def cDestUnk : Nat := 0x08
def cSendqFull : Nat := 0x09
def cWatchdog : Nat := 0x0B
def cPoison : Nat := 0x0D
def cUncorr : Nat := 0x0E
def cEbudget : Nat := 0x0F
def cBarover : Nat := 0x11
def cQunbound : Nat := 0x12
def cSyscall : Nat := 0x13
def cBreak : Nat := 0x14
def cPartesc : Nat := 0x15
def cFabric : Nat := 0x16
def cVeffect : Nat := 0x17

/-! ### Registers of a hart -/

/-- x[r]; x0 reads 0 (R30). -/
def Hart.rx (h : Hart) (r : Reg) : Word := if r = 0#5 then 0#64 else Table.get 0#64 h.x r.toNat

/-- v[r]. -/
def Hart.rv (h : Hart) (r : Reg) : VWord := Table.get 0#512 h.v r.toNat

/-- m[r]. -/
def Hart.rm (h : Hart) (r : MReg) : BitVec 64 := Table.get 0#64 h.m r.toNat

/-- A bit of a ready mask. -/
def readyBit (w : BitVec 32) (r : Reg) : Bool := w.getLsbD r.toNat

/-- The mask with one bit set, or cleared. -/
def setReady (w : BitVec 32) (r : Reg) : BitVec 32 := w ||| (1#32 <<< r.toNat)

def clearReady (w : BitVec 32) (r : Reg) : BitVec 32 := w &&& ~~~(1#32 <<< r.toNat)

/-- Whether x[r] is ready; x0 always is (R30). -/
def Hart.xok (h : Hart) (r : Reg) : Bool := r == 0#5 || readyBit h.xready r

/-- Whether v[r] is ready. -/
def Hart.vok (h : Hart) (r : Reg) : Bool := readyBit h.vready r

/-- A write of x[r] sets its ready bit; a write of x0 is discarded (R52). -/
def Hart.wx (h : Hart) (r : Reg) (v : Word) : Hart :=
  if r = 0#5 then h else { h with x := Table.set h.x r.toNat v, xready := setReady h.xready r }

/-- A write of v[r] sets its ready bit (R223). -/
def Hart.wv (h : Hart) (r : Reg) (v : VWord) : Hart :=
  { h with v := Table.set h.v r.toNat v, vready := setReady h.vready r }

/-- A write of m[r]. -/
def Hart.wm (h : Hart) (r : MReg) (v : BitVec 64) : Hart := { h with m := Table.set h.m r.toNat v }

/-- x[r] made not ready; x0 stays ready (R30, R70). -/
def Hart.armX (h : Hart) (r : Reg) : Hart := if r = 0#5 then h else { h with xready := clearReady h.xready r }

/-- v[r] made not ready. -/
def Hart.armV (h : Hart) (r : Reg) : Hart := { h with vready := clearReady h.vready r }

/-- Whether a load to x[r] is outstanding (R63). -/
def Hart.xloading (h : Hart) (r : Reg) : Bool :=
  r != 0#5 && h.loads.any fun l => match l.target with | .xreg q _ => q == r | _ => false

/-- Whether a load to v[r] is outstanding (R63, R238). -/
def Hart.vloading (h : Hart) (r : Reg) : Bool :=
  h.loads.any fun l => match l.target with
    | .xreg _ _ => false
    | .vreg q _ => q == r
    | .vgroup q vs => q.toNat ≤ r.toNat && r.toNat < q.toNat + vs.length

/-- Issue waits until x[r] is ready (R30). -/
def needX (r : Reg) (s : State) : Except Stop Unit := if s.me.xok r then .ok () else .error (.wait .reg)

/-- Issue waits until v[r] is ready. -/
def needV (r : Reg) (s : State) : Except Stop Unit := if s.me.vok r then .ok () else .error (.wait .reg)

/-- An instruction that writes x[r] waits until an outstanding load has written it (R63). -/
def freeX (r : Reg) (s : State) : Except Stop Unit := if s.me.xloading r then .error (.wait .reg) else .ok ()

/-- As `freeX`, for v[r]. -/
def freeV (r : Reg) (s : State) : Except Stop Unit := if s.me.vloading r then .error (.wait .reg) else .ok ()

/-- A check with its stop. -/
def check (c : Bool) (e : Stop) : Except Stop Unit := if c then .ok () else .error e

/-! ### Counters and retirement -/

/-- Event codes of PMSEL (R310). -/
def evIssue : Nat := 0x01
def evRetired : Nat := 0x02
def evAsleep : Nat := 0x03
def evL1dMiss : Nat := 0x04
def evReturned : Nat := 0x0A
def evBank : Nat := 0x05
def evL2 : Nat := 0x10
def evMatrix : Nat := 0x11
def evFabric : Nat := 0x12

/-- Event k of PMSEL (R310). -/
def pmEvent (pmsel : Word) (k : Nat) : Nat := fieldOf pmsel (8 * k + 7) (8 * k)

/-- The counters that select an event advance by n (R310). -/
def Hart.count (h : Hart) (code n : Nat) : Hart :=
  if h.pmsel = 0#64 then h
  else
    { h with pmc := (List.range 8).foldl (fun t k =>
        if pmEvent h.pmsel k = code then Table.set t k (Table.get 0#64 t k + BitVec.ofNat 64 n) else t) h.pmc }

/-- A PC, a vector or a return address: bit 0 is clear (R13). -/
def evenBits (v : Word) : Word := v &&& ~~~1#64

/-- The issuing hart past an instruction of n bytes: one issue slot, one instruction retired (R52, R310). -/
def Hart.retire (h : Hart) (n : Nat) : Hart :=
  ({ h with pc := h.pc + BitVec.ofNat 64 n, stall := none }.count evIssue 1).count evRetired 1

/-- A retired jump to a PC; bit 0 is clear (R13). -/
def Hart.jump (h : Hart) (pc : Word) : Hart :=
  ({ h with pc := evenBits pc, stall := none }.count evIssue 1).count evRetired 1

/-- The state with the issuing hart changed and past a 4-byte instruction. -/
def State.step4 (s : State) (f : Hart → Hart) : State := s.setMe ((f s.me).retire 4)

/-- As `step4`, for a 16-bit form. -/
def State.step2 (s : State) (f : Hart → Hart) : State := s.setMe ((f s.me).retire 2)

/-! ### Privilege and kinds of occupant -/

/-- Whether the hart runs in `need` or a higher mode (R29). -/
def modeAtLeast (have_ need : Mode) : Bool := need.code ≤ have_.code

/-- PRIV for an instruction that needs a higher mode (R24). -/
def needMode (need : Mode) (bits : Word) (s : State) : Except Stop Unit := check (modeAtLeast s.me.mode need) (.trap cPriv bits)

/-- ILLEGAL for an instruction that breaks a limit of R21 (R22, R24). -/
def needWf (i : Instr) (_s : State) : Except Stop Unit := check i.wf (.trap cIllegal i.bits)

/-- A violation in pure mode, with its address (R300). -/
def noPure (va : Word) (s : State) : Except Stop Unit := check s.me.pure.isNone (.purity va)

/-- Whether the slot runs an activation: of a channel, of a pure task, or a landing handler (R146, R147). -/
def Hart.isActivation (h : Hart) : Bool :=
  match h.slot with
  | .activation _ => true
  | .pure => true
  | .landing _ => true
  | _ => false

/-- Whether the slot runs something. -/
def Hart.running (h : Hart) : Bool := h.slot == .thread || h.isActivation

/-- Whether the hart runs a thread of a V launch (R292). -/
def Hart.isV (h : Hart) : Bool := h.slot == .thread && rclassClass h.rclass == 3

/-- VEFFECT for an instruction a V kernel may not issue (R292). -/
def noV (tval : Word) (s : State) : Except Stop Unit := check (!s.me.isV) (.trap cVeffect tval)

/-- The translation context of a hart (R160). -/
def Hart.tctx (h : Hart) : TCtx :=
  ⟨h.asid, h.ptroot, h.vmid, h.s2root, h.hstatus.getLsbD 8, h.mode == .u⟩

/-! ### Cores, positions and locators -/

/-- One step of the Hilbert curve of R93, from scale s. -/
def hilbertStep (s : Nat) (p : Nat × Nat × Nat) : Nat × Nat × Nat :=
  let (x, y, t) := p
  let rx := t / 2 % 2
  let ry := (t ^^^ rx) % 2
  let (x, y) := if ry = 0 then
      (if rx = 1 then (s - 1 - y, s - 1 - x) else (y, x))
    else (x, y)
  (x + s * rx, y + s * ry, t / 4)

/-- R93: the grid point of a Hilbert position. -/
def gridOf (hpos : Nat) : Nat × Nat :=
  let (x, y, _) := [1, 2, 4, 8, 16].foldl (fun p s => hilbertStep s p) (0, 0, hpos)
  (x, y)

/-- R93: the die of a grid point. -/
def dieOfGrid (x y : Nat) : Nat := if x < 16 then (if y < 16 then 0 else 1) else (if y < 16 then 3 else 2)

/-- R93: the global index of the core at a Hilbert position. -/
def gOfHpos (hpos : Nat) : Nat :=
  let (x, y) := gridOf hpos
  dieOfGrid x y * 256 + y % 16 * 16 + x % 16

/-- One step of the inverse curve, from scale s down. -/
def hilbertInvStep (s : Nat) (p : Nat × Nat × Nat) : Nat × Nat × Nat :=
  let (x, y, d) := p
  let rx := x / s % 2
  let ry := y / s % 2
  let d := d + s * s * ((3 * rx) ^^^ ry)
  let (x, y) := if ry = 0 then (if rx = 1 then (31 - y, 31 - x) else (y, x)) else (x, y)
  (x, y, d)

/-- The Hilbert position of a compute core: the inverse of R93. -/
def hposOf (g : Nat) : Nat :=
  let die := g / 256
  let x := g % 16 + (if die = 2 ∨ die = 3 then 16 else 0)
  let y := g / 16 % 16 + (if die = 1 ∨ die = 2 then 16 else 0)
  ([16, 8, 4, 2, 1].foldl (fun p s => hilbertInvStep s p) (x, y, 0)).2.2

/-- Whether a core number is a gateway's (R32). -/
def isGateway (c : Nat) : Bool := 1024 ≤ c

/-- A connection acting at its home on arrived requests: the model's own number for a master that is no core. -/
def connMaster (c : Nat) : Nat := 4096 + c

/-- The die of a core: 0 to 3, or 4 and 5 for gateways (R5, R32) and connections (R193). -/
def dieOf (c : Nat) : Nat := if c < 1024 then c / 256 else if c < 4096 then 4 + (c - 1024) / 9 else 4 + (c - 4096) / 2048

/-- The cluster of a core and its queue number there (R93, R243). -/
def clusterOf (c : Nat) : Nat := hposOf c / 8

def queueOf (c : Nat) : Nat := hposOf c % 8

/-- DIE and CORE fields of a locator for a core (R32). -/
def locPlace (c : Nat) : Nat := if c < 1024 then c / 256 * 2 ^ 8 + c % 256 else dieOf c * 2 ^ 8 + (c - 1024) % 9

/-- A locator of its fields (R32). -/
def mkLoc (node core hart tag kind idx : Nat) : Word :=
  BitVec.ofNat 64 (node * 2 ^ 54 + locPlace core * 2 ^ 43 + hart * 2 ^ 40 + tag * 2 ^ 24 + kind * 2 ^ 22 + idx * 2 ^ 16)

/-- Fields of a locator (R32). -/
def locNode (l : Word) : Nat := fieldOf l 63 54
def locDie (l : Word) : Nat := fieldOf l 53 51
def locCoreField (l : Word) : Nat := fieldOf l 50 43
def locHart (l : Word) : Nat := fieldOf l 42 40
def locTag (l : Word) : BitVec 16 := l.extractLsb' 24 16
def locKind (l : Word) : Nat := fieldOf l 23 22
def locIdx (l : Word) : Nat := fieldOf l 21 16
def locLocal (l : Word) : Bool := l.getLsbD 15

/-- R33: the core a locator names, if any. -/
def locCore (l : Word) : Option Nat :=
  let d := locDie l
  let c := locCoreField l
  if d ≤ 3 then some (d * 256 + c)
  else if d ≤ 5 then (if c ≤ 8 then some (1024 + 9 * (d - 4) + c) else none)
  else none

/-- NODE, DIE and CORE alone, as a route table names a core. -/
def locRoute (l : Word) : Word := l &&& 0xFFFFF80000000000#64

/-- R32: LOCAL = 1 names this package: NODE filled in, LOCAL cleared. -/
def resolveLocal (node : BitVec 10) (l : Word) : Word :=
  if locLocal l then withField (l &&& ~~~0x8000#64) 63 54 node.toNat else l

/-- The locator with kind and index replaced. -/
def locWith (l : Word) (kind idx : Nat) : Word := withField (withField l 23 22 kind) 21 16 idx

/-- The slot number of a locator's core and hart. -/
def slotOf (core hart : Nat) : Nat := 8 * core + hart

/-- The locator of a slot's occupant with kind 0 and index `r` (R32). -/
def locOfSlot (s : State) (h : Nat) (r : Nat) : Word :=
  mkLoc s.plat.node.toNat (h / 8) (h % 8) (s.hart h).tag.toNat 0 r

/-! ### Partitions (R306) -/

/-- Whether a partition's interval holds a Hilbert position. -/
def Part.holds (p : Part) (hpos : Nat) : Bool := p.len != 0 && p.base ≤ hpos && hpos < p.base + p.len

/-- PARTID of a core: the record whose interval holds it; none = NONE is set, as on every gateway core (R306). -/
def partOf (s : State) (c : Nat) : Option Nat :=
  if c < 1024 then (List.find? (fun (e : Nat × Part) => e.2.holds (hposOf c)) s.plat.parts).map (·.1) else none

/-- The partition a master works for: its core's; the current tenant of a gateway, which no interval holds (R186,
notes/assumptions/11.md); the PART of a connection (R194). -/
def tenantOf (s : State) (c : Nat) : Option Nat :=
  if c < 1024 then partOf s c
  else if c < 4096 then Table.find? s.plat.gwPart c
  else some (s.conn (c - 4096)).part

/-- R306: the partition whose number an owner field is compared with, and to which the errors of a master are charged: PARTID of its
core, so none for a gateway core; the PART of a connection. -/
def ownerOf (s : State) (c : Nat) : Option Nat := if c < 4096 then partOf s c else some (s.conn (c - 4096)).part

/-- Whether two cores work for one partition. -/
def samePart (s : State) (a b : Nat) : Bool := (tenantOf s a).isSome && tenantOf s a == tenantOf s b

/-- R244, R250: every core of a cluster lies in the writer's partition. -/
def clusterOwned (s : State) (writer cl : Nat) : Bool :=
  (List.range 8).all fun k => samePart s writer (gOfHpos (8 * cl + k))

/-- The context of threads and activations started in a partition (dwords 4 and 5, R306), for S-mode or U-mode. -/
def Part.tctx (p : Part) (user : Bool) : TCtx :=
  ⟨p.dw4.extractLsb' 0 12, p.dw4 &&& 0x000FFFFFFFFFF000#64, p.dw5.extractLsb' 0 6, p.dw5 &&& 0x000FFFFFFFFFF000#64,
    p.dw5.getLsbD 8, user⟩

/-- A hart's context registers taken from a context (R92, R147). -/
def Hart.withCtx (h : Hart) (c : TCtx) : Hart :=
  { h with asid := c.asid, ptroot := c.ptroot, vmid := c.vmid, s2root := c.s2root,
           hstatus := if c.guest then h.hstatus ||| 0x100#64 else h.hstatus &&& ~~~0x100#64 }

/-- Whether a feature is enabled: its bit set in FEATOFF0 and FEATACC0. -/
def featureOn (s : State) (k : Nat) : Bool := ((Table.get 0#64 s.plat.featacc 0) &&& Config.featOff0).getLsbD k

/-! ### Lockstep (R293) -/

/-- R293: whether a core lies in the second cluster of a bound pair, which has no harts of its own to fill: the pair counts as one cluster
(notes/assumptions/65.md). -/
def lockSecond (s : State) (core : Nat) : Bool :=
  core < 1024 && featureOn s 5 && clusterOf core % 2 == 1 && (Table.find? s.plat.lockstep (clusterOf core / 2)).isSome

/-- R293: whether a core does no work of its own in lockstep: its cluster is frozen, or is the second of a bound pair, whose
harts, queues and units repeat the first's (`repeatLock`, notes/assumptions/65.md). -/
def lockHalted (s : State) (core : Nat) : Bool :=
  lockSecond s core || (core < 1024 && (s.cluster (clusterOf core)).frozen)

/-! ### Roles and free harts (R27, R89, R146) -/

/-- The role of hart k of a core: 0 resident, 1 handler, 2 landing, 3 off (R27). -/
def roleOf (s : State) (h : Nat) : Nat := (s.core (h / 8)).roles.toNat / 2 ^ (2 * (h % 8)) % 4

/-- Whether the hart is lent to a channel 0 activation (R146). -/
def lent (s : State) (h : Nat) : Bool := roleOf s h == 0 && (s.hart h).slot == .activation 0#6

/-- A resident-role hart that counts as free; a borrowed hart does, unless a launch has taken it (R89, R146). -/
def freeResident (s : State) (h : Nat) : Bool :=
  roleOf s h == 0 && !lockSecond s (h / 8) && ((s.hart h).slot == .free || (lent s h && (s.hart h).heldFor.isNone))

/-- Roles written while the hart was busy take effect when it is free (R27). -/
def settleRole (s : State) (h : Nat) : State :=
  let c := s.core (h / 8)
  let k := h % 8
  let want := c.hrole.toNat / 2 ^ (2 * k) % 4
  let cleared := c.roles.toNat - c.roles.toNat / 2 ^ (2 * k) % 4 * 2 ^ (2 * k)
  s.setCore (h / 8) { c with roles := BitVec.ofNat 16 (cleared + want * 2 ^ (2 * k)) }

/-! ### Fault records and freezing (R164, R167) -/

/-- The function whose ring a partition's records go to: the lowest VF bound to its partition, else the PF (R164, R312). -/
def funcFor (s : State) (part : Option Nat) : Nat :=
  match part with
  | none => 0
  | some p =>
    match (List.find? (fun (e : Nat × Word) => e.1 != 0 && e.2.getLsbD 63 && fieldOf e.2 5 0 == p) s.plat.vft) with
    | some e => e.1
    | none => 0

/-- The function whose ring the records of a core's masters go to. -/
def funcOf (s : State) (core : Nat) : Nat := funcFor s (tenantOf s core)

/-- The ring: a VF's own, the PF's retryable ring 1 or terminal ring 0 (R164). -/
def ringOf (func : Nat) (retry : Bool) : Nat := if func = 0 ∧ retry then 1 else 0

/-- A record made now for a master of a core. -/
def mkRecord (s : State) (core : Nat) (addr : Word) (cause stage acc master unit : Nat) (ctx : TCtx) (retry : Bool)
    (owner : FaultOwner) : Record :=
  let f := funcOf s core
  ⟨s.time, addr, cause, stage, acc, master, core, unit, ctx.asid, ctx.vmid, retry, s.nextId, f, ringOf f retry, dieOf core,
    owner⟩

/-- The record joins the records that wait to be written; one that is to be resolved is kept under its FID (R164). -/
def addRecord (s : State) (r : Record) : State :=
  { s with
    nextId := s.nextId + 1
    flt := { s.flt with
      waiting := s.flt.waiting ++ [r]
      unresolved := if r.retry then s.flt.unresolved ++ [r] else s.flt.unresolved } }

/-- A freeze record also goes to the PF's terminal ring (R164). -/
def addFreezeRecord (s : State) (r : Record) : State :=
  let s := addRecord s r
  if r.func = 0 then s else addRecord s { r with func := 0, ring := 0, fid := s.nextId }

/-- R164: the STAGE of a freeze record: that of a page fault, 0 for any other cause. -/
def freezeStage (cause : Nat) (stage2 : Bool) : Nat := if cause = cLoadPf ∨ cause = cStorePf then (if stage2 then 2 else 1) else 0

/-- R167: whether a hart reads as frozen: it is, and no thaw of it is due. -/
def Hart.isFrozen (h : Hart) : Bool := h.frozen.isSome && !h.thawDue

/-- R164: the MASTER of a hart's records: a pure activation's are of a task (notes/assumptions/86.md). -/
def Hart.master (h : Hart) : Nat := if h.pure.isSome then 3 else 0

/-- A hart frozen with the cause and value it keeps (R167), and what its record tells: the kind of access and the address (R164). -/
def Hart.freeze (h : Hart) (cause : Nat) (tval addr : Word) (acc : Nat) (async stage2 : Bool) : Hart :=
  { h with frozen := some (cause, tval), froze := (async, stage2), frozeAt := (acc, addr), thawDue := false }

/-- A hart is frozen; its record names the kind of access and the VA, or the GPA of a second-stage fault (R164, R167). -/
def freezeHart (s : State) (h : Nat) (cause : Nat) (tval addr : Word) (acc : Nat) (async stage2 : Bool) : State :=
  let a := s.hart h
  let s := s.setHart h { a.freeze cause tval addr acc async stage2 with stall := none }
  addFreezeRecord s (mkRecord s (h / 8) addr cause (freezeStage cause stage2) acc a.master (h % 8) a.tctx false .nobody)

/-! ### Taking a trap (R157 to R159) -/

/-- R158: causes U may be delegated. -/
def delegable (c : Nat) : Bool :=
  [0x01, 0x03, 0x07, 0x08, 0x09, 0x0B, 0x0D, 0x12, 0x13, 0x14].contains c

/-- R158: causes that freeze their master. -/
def freezes (c : Nat) : Bool := [0x05, 0x06, 0x15].contains c

/-- R158: the async causes; ACCESS of a store is async by how it is raised. -/
def isAsync (c : Nat) : Bool := [0x07, 0x08, 0x0B, 0x0F, 0x16].contains c

/-- HSTATUS.V (R157). -/
def Hart.v1 (h : Hart) : Bool := h.hstatus.getLsbD 8

/-- R158: whether the default level is H: a second-stage LOADPF, ACCESS and PARTESC, with V = 1. -/
def defaultH (h : Hart) (c : Nat) (stage2 : Bool) : Bool :=
  h.v1 && ((c == cLoadPf && stage2) || c == cAccess || c == cPartesc)

/-- UTE (R157). -/
def Hart.ute (h : Hart) : Bool := h.udeleg.getLsbD 63

/-- TE of a level (R157, R159). -/
def Hart.te (h : Hart) : Mode → Bool
  | .u => h.ute
  | .s => h.status.getLsbD 4
  | .h => h.hstatus.getLsbD 4
  | .m => h.mstatus.getLsbD 4

/-- TVEC of a level. -/
def Hart.vecOf (h : Hart) : Mode → Word
  | .u => h.utvec
  | .s => h.sregs.tvec
  | .h => h.hregs.tvec
  | .m => h.mregs.tvec

/-- R159: the level a trap starts from. -/
def Hart.firstLevel (h : Hart) (c : Nat) (stage2 : Bool) : Mode :=
  if h.mode = .m then .m
  else if defaultH h c stage2 || h.mode = .h then .h
  else if h.mode = .u && delegable c && h.tdeleg.getLsbD c && h.udeleg.getLsbD c && h.ute && h.utvec ≠ 0#64 then .u
  else .s

/-- R159: the next level above. -/
def Hart.above (h : Hart) : Mode → Mode
  | .u => .s
  | .s => if h.v1 then .h else .m
  | .h => .m
  | .m => .m

/-- Where a trap goes: a level, pending, or a frozen hart (R159). -/
inductive TrapWay where
  | level (l : Mode)
  | pending
  | freeze
deriving DecidableEq, Repr

/-- R159: the search for a level whose TE is 1. -/
def Hart.trapSearch (h : Hart) (async : Bool) : Nat → Mode → TrapWay
  | 0, _ => .freeze
  | n + 1, l =>
    if h.te l then .level l
    else if async then .pending
    else if l = .m then .freeze
    else h.trapSearch async n (h.above l)

/-- R159: where cause c goes; a level without a vector freezes. -/
def Hart.trapWay (h : Hart) (c : Nat) (async stage2 : Bool) : TrapWay :=
  match h.trapSearch async 4 (h.firstLevel c stage2) with
  | .level l => if l ≠ .u ∧ h.vecOf l = 0#64 then .freeze else .level l
  | w => w

/-- A status word with PTE ← TE, TE ← 0, PM ← m (R159). -/
def enterStatus (w : Word) (old : Mode) : Word :=
  withField (withField w 5 4 (if w.getLsbD 4 then 2 else 0)) 1 0 old.code

/-- R159: the entry at a level: EPC, CAUSE and TVAL written, TE saved and cleared, the mode changed, PC at the vector. -/
def Hart.enter (h : Hart) (l : Mode) (c : Nat) (tval epc : Word) : Hart :=
  let h := { h with stall := none, idle := false, blk := .whole }
  match l with
  | .u =>
    { h with uepc := epc, ucause := BitVec.ofNat 64 c, utval := tval, pc := h.utvec,
             udeleg := withField h.udeleg 63 62 (if h.ute then 1 else 0) }
  | .s =>
    { h with sregs := { h.sregs with epc := epc, cause := BitVec.ofNat 64 c, tval := tval }, pc := h.sregs.tvec,
             status := enterStatus h.status h.mode, mode := .s }
  | .h =>
    { h with hregs := { h.hregs with epc := epc, cause := BitVec.ofNat 64 c, tval := tval }, pc := h.hregs.tvec,
             hstatus := enterStatus h.hstatus h.mode, mode := .h }
  | .m =>
    { h with mregs := { h.mregs with epc := epc, cause := BitVec.ofNat 64 c, tval := tval }, pc := h.mregs.tvec,
             mstatus := enterStatus h.mstatus h.mode, mode := .m }

/-- R159: a trap of cause c is entered by slot h, with EPC at its PC; none where an async cause stays pending. A freeze's record names
the kind of access and the address (R164). -/
def enterTrap (s : State) (h : Nat) (c : Nat) (tval addr : Word) (acc : Nat) (async stage2 : Bool) : Option State :=
  let a := s.hart h
  match a.trapWay c async stage2 with
  | .level l => some (s.setHart h (a.enter l c tval a.pc))
  | .pending => none
  | .freeze => some (freezeHart s h c tval addr acc async stage2)

/-- R158, R167: a synchronous trap of slot h, met by a kind of access at an address: a cause that freezes leaves the trap unentered
until a thaw. -/
def takeTrapAt (s : State) (h : Nat) (c : Nat) (tval addr : Word) (acc : Nat) (stage2 : Bool) : State :=
  if freezes c then freezeHart s h c tval addr acc false stage2
  else (enterTrap s h c tval addr acc false stage2).getD s

/-- R158: a synchronous trap of slot h that no access to memory has met: ACC of a freeze's record is 0 (notes/assumptions/74.md). -/
def takeTrap (s : State) (h : Nat) (c : Nat) (tval : Word) (stage2 : Bool) : State := takeTrapAt s h c tval tval 0 stage2

/-- A status word with TE ← PTE (R72, R159). -/
def leaveStatus (w : Word) : Word := withField w 4 4 (if w.getLsbD 5 then 1 else 0)

/-- R72: the return of TRET from the trap level of the current mode. -/
def Hart.leave (h : Hart) : Hart :=
  match h.mode with
  | .u => { h with pc := h.uepc, udeleg := withField h.udeleg 63 63 (if h.udeleg.getLsbD 62 then 1 else 0) }
  | .s => { h with pc := h.sregs.epc, status := leaveStatus h.status, mode := Mode.ofCode (fieldOf h.status 0 0) }
  | .h => { h with pc := h.hregs.epc, hstatus := leaveStatus h.hstatus, mode := Mode.ofCode (fieldOf h.hstatus 1 0) }
  | .m => { h with pc := h.mregs.epc, mstatus := leaveStatus h.mstatus, mode := Mode.ofCode (fieldOf h.mstatus 1 0) }

/-! ### Release signatures (R100 to R102) -/

/-- R100: the two bits a line sets. -/
def sigBits (line : Nat) : Nat × Nat :=
  let part := fun k => line / 2 ^ (9 * k) % 512
  let l0 := part 0
  let h1 := l0 ^^^ part 1 ^^^ part 2 ^^^ part 3 ^^^ part 4
  let rot := (l0 * 16 % 512) ||| (l0 / 32)
  let h2 := rot ^^^ part 2 ^^^ (line / 2 ^ 45 % 2)
  (h1, h2)

/-- R100: a line inserted. -/
def sigInsert (g : Sig) (line : Nat) : Sig :=
  let (h1, h2) := sigBits line
  let fresh := !(g.set.getLsbD h1 && g.set.getLsbD h2)
  { g with set := g.set ||| (1#512 <<< h1) ||| (1#512 <<< h2), count := if fresh then g.count + 1 else g.count }

/-- Two signatures ORed, counts added (R100, R102). -/
def sigUnion (a b : Sig) : Sig := ⟨a.set ||| b.set, a.count + b.count, a.all || b.all⟩

/-- The signature of everything (R113). -/
def sigAll : Sig := ⟨0#512, 0, true⟩

/-- R100: what a release publishes. -/
def Hart.releaseSig (h : Hart) : Sig :=
  let u := sigUnion h.sigCur h.sigPrev
  if 160 < u.count then { u with all := true } else u

/-- R100: whether a line matches. -/
def sigHits (g : Sig) (line : Nat) : Bool :=
  let (h1, h2) := sigBits line
  g.all || (g.set.getLsbD h1 && g.set.getLsbD h2)

/-- R100: the generation number. -/
def State.gen (s : State) : Nat := s.time.toNat / 4096

/-- The signature a hart's acquire inherits (R100). -/
def Hart.inherit (h : Hart) (g : Sig) : Hart := { h with sigCur := sigUnion h.sigCur g }

/-! ### Features (R316) -/

/-- R317: a package that stopped during start-up answers its management paths only. -/
def bootStopped (s : State) : Bool := fieldOf s.plat.bootstat 15 8 != 0

/-! ### Free values -/

/-- A fresh free choice. -/
def State.freshNat (s : State) : Nat × State := (Config.freeNat s.freeCtr, { s with freeCtr := s.freeCtr + 1 })

end Sys2Proof.Machine
end

