-- ==== Sys2Proof/Machine/Translate.lean ====
section
/-! DEFINITION. The address regions (R28, R65, R66, R342, R343), two-stage translation and its caches (R160 to R162, R77),
and who may reach a physical address (R285, R342). -/

namespace Sys2Proof.Machine

/-! ### Virtual regions -/

/-- What a virtual address names before translation. -/
inductive Region where
  /-- an offset of the local stash (R65) -/
  | stash (off : Nat)
  /-- an offset of a remote stash (R66) -/
  | remote (core off : Nat)
  /-- the stash ranges that name no stash (R66) -/
  | noStash
  /-- a core control window (R28) -/
  | ctrl (core off : Nat)
  /-- the package windows, by offset from 0xFFFF_FE00_0000_0000 (R343) -/
  | pkg (off : Nat)
  | global
deriving DecidableEq, Repr

/-- Base addresses of R28, R65 and R66. -/
def stashBase : Nat := 0x007F000000000000
def remoteBase : Nat := 0x007E000000000000
def windowBase : Nat := 0xFFFFFE0000000000

/-- Bytes of a stash (R96). -/
def stashSize : Nat := 0x40000

/-- R28, R65, R66, R343. -/
def regionOf (va : Word) : Region :=
  let a := va.toNat
  if a < remoteBase then .global
  else if a < stashBase then
    let o := a - remoteBase
    if o < 0x40000000 then (if o % 0x100000 < stashSize then .remote (o / 0x100000) (o % 0x100000) else .noStash)
    else .noStash
  else if a < stashBase + stashSize then .stash (a - stashBase)
  else if a < 0x0080000000000000 then .noStash
  else if a < windowBase then .global
  else
    let o := a - windowBase
    if o < 0x40000000 then .ctrl (o / 0x100000) (o % 0x100000) else .pkg o

/-- R64: bits 63:56 equal bit 55. -/
def canonical (va : Word) : Bool := va.toNat < 2 ^ 55 || 2 ^ 64 - 2 ^ 55 ≤ va.toNat

/-- Whether a whole range stays in canonical space; modulo 2^64 addresses do not wrap into it (R131). -/
def canonicalRange (va : Word) (len : Nat) : Bool :=
  len == 0 || (canonical va && (va.toNat + (len - 1) < 2 ^ 55 || (2 ^ 55 ≤ va.toNat && va.toNat + (len - 1) < 2 ^ 64)))

/-! ### Physical ranges (R342) -/

/-- The ranges of the physical map. -/
inductive PaKind where
  | lpddr (frame : Nat)
  | cxl
  | host
  | nothing
deriving DecidableEq, Repr

/-- R342. -/
def paKind (pa : Nat) : PaKind :=
  if pa < 0x40000000000 then .lpddr (pa / 0x200000)
  else if pa < 0x80000000000 then .nothing
  else if pa < 0x100000000000 then .cxl
  else if pa < 0x8000000000000 then .nothing
  else if pa < 0x10000000000000 then .host
  else .nothing

/-- The Class Map entry of a frame (R285). -/
def classEntry (ms : MemSys) (f : Nat) : Word := Table.get 0#64 ms.classMap f

/-- R285: ONLINE, PART and CLASS. -/
def entryOnline (w : Word) : Bool := w.getLsbD 2
def entryPart (w : Word) : Nat := fieldOf w 15 10
def entryClass (w : Word) : Nat := fieldOf w 1 0

/-- R342: whether a physical address reaches memory. -/
def reaches (ms : MemSys) (pa : Nat) : Bool :=
  match paKind pa with
  | .lpddr f => f ≤ Config.lastFrame && entryOnline (classEntry ms f)
  | .cxl => ms.hdm.any fun r => r.1 ≤ pa && pa < r.1 + r.2
  | .host => true
  | .nothing => false

/-- R162, R285: whether a master of a partition may access the address; the Class Map covers LPDDR 6 frames only. -/
def mayReach (ms : MemSys) (part : Option Nat) (pa : Nat) : Bool :=
  reaches ms pa &&
    match paKind pa with
    | .lpddr f => part == some (entryPart (classEntry ms f))
    | _ => true

/-- The reliability class of a physical address: 0 U, 1 D, 2 P (R285); an expander reports P (notes/assumptions/12.md), host
memory is outside the classes. -/
def classOf (ms : MemSys) (pa : Nat) : Nat :=
  match paKind pa with
  | .lpddr f => entryClass (classEntry ms f)
  | .cxl => 2
  | _ => 0

/-- Whether the address is host memory (scope 9, R106). -/
def isHost (pa : Nat) : Bool := paKind pa == .host

/-! ### Walks (R160, R161) -/

/-- How a translation ends without an address. -/
inductive TransErr where
  /-- a page fault of a stage with its address; `perm` tells a leaf that lacks R, W, X or U from an address without one (R131) -/
  | page (stage : Nat) (addr : Word) (perm : Bool)
  | access
deriving DecidableEq, Repr

/-- A leaf: page base, page size, target base, flag bits 10:0 of the entry (R161). -/
structure Leaf where
  base : Nat
  size : Nat
  target : Nat
  flags : Nat
deriving DecidableEq, Repr

/-- Flag bits of an entry (R161). -/
def pteNC (f : Nat) : Bool := f.testBit 10
def pteSM (f : Nat) : Bool := f.testBit 9
def pteRM (f : Nat) : Bool := f.testBit 8
def pteC (f : Nat) : Bool := f.testBit 7
def pteG (f : Nat) : Bool := f.testBit 5
def pteU (f : Nat) : Bool := f.testBit 4
def pteX (f : Nat) : Bool := f.testBit 3
def pteW (f : Nat) : Bool := f.testBit 2
def pteR (f : Nat) : Bool := f.testBit 1
def pteV (f : Nat) : Bool := f.testBit 0

/-- R161: the target frame of an entry. -/
def ptePpn (e : Nat) : Nat := e / 4096 % 2 ^ 40 * 4096

/-- R161: bits that must be 0. -/
def pteBad (e : Nat) : Bool := e / 2 ^ 60 != 0 || e.testBit 11 || e.testBit 6

/-- R161: the page of a level-0 leaf: 64 KiB where its 16 aligned entries agree and the frame is aligned. -/
def leaf0 (rd : Nat → Except TransErr Nat) (tab va e : Nat) : Except TransErr Leaf :=
  let small : Leaf := ⟨va / 4096 * 4096, 4096, ptePpn e, e % 2048⟩
  if pteC e && ptePpn e % 65536 == 0 then do
    let first := tab + 8 * (va / 4096 % 512 / 16 * 16)
    let same ← (List.range 16).foldlM (init := true) fun ok k => do pure (ok && (← rd (first + 8 * k)) == e)
    pure (if same then ⟨va / 65536 * 65536, 65536, ptePpn e, e % 2048⟩ else small)
  else pure small

/-- R160, R161: the walk from a level down; `err` is the page fault of its stage. The index of level 4 is bits 55:48, of which a
guest physical address has only 51:48. -/
def walk (rd : Nat → Except TransErr Nat) (err : TransErr) (va : Nat) : Nat → Nat → Except TransErr Leaf
  | 0, tab => do
    let e ← rd (tab + 8 * (va / 4096 % 512))
    if !pteV e || pteBad e then .error err
    else if pteR e || pteW e || pteX e then leaf0 rd tab va e
    else .error err
  | l + 1, tab => do
    let e ← rd (tab + 8 * (va / 2 ^ (12 + 9 * (l + 1)) % (if l = 3 then 256 else 512)))
    if !pteV e || pteBad e then .error err
    else if pteR e || pteW e || pteX e then
      if 2 ≤ l then .error err
      else
        let size := 2 ^ (12 + 9 * (l + 1))
        .ok ⟨va / size * size, size, ptePpn e / size * size, e % 2048⟩
    else walk rd err va l (ptePpn e)

/-- A table entry read at its home; an address that reaches nothing ends the walk in ACCESS (R160, R342). -/
def readEntry (ms : MemSys) (pa : Nat) : Except TransErr Nat :=
  if reaches ms pa then .ok (Memory.readNat ms.mem pa 8) else .error .access

/-- R160: the second stage of a guest physical address. -/
def walk2 (ms : MemSys) (s2root : Word) (gpa : Nat) : Except TransErr Leaf :=
  walk (readEntry ms) (.page 2 (BitVec.ofNat 64 gpa) false) gpa 4 (ptePpn s2root.toNat)

/-- An address through a leaf. -/
def Leaf.at (l : Leaf) (a : Nat) : Nat := l.target + (a - l.base)

/-- R160: a first-stage table entry; with a guest its address is translated by the second stage, for reading. -/
def readEntry1 (ms : MemSys) (c : TCtx) (a : Nat) : Except TransErr Nat :=
  if c.guest then do
    let l ← walk2 ms c.s2root a
    if pteR l.flags then readEntry ms (l.at a) else .error (.page 2 (BitVec.ofNat 64 a) false)
  else readEntry ms a

/-- R160: the first stage of a virtual address. -/
def walk1 (ms : MemSys) (c : TCtx) (va : Word) : Except TransErr Leaf :=
  walk (readEntry1 ms c) (.page 1 va false) va.toNat 4 (ptePpn c.ptroot.toNat)

/-- Kinds of access as fault records name them (R164). -/
def accRead : Nat := 0
def accWrite : Nat := 1
def accFetch : Nat := 2
def accAmo : Nat := 3

/-- R161, R162: whether flags grant an access; an AMO reads and writes. -/
def grants (f acc : Nat) : Bool :=
  match acc with
  | 0 => pteR f
  | 1 => pteW f
  | 2 => pteX f
  | _ => pteR f && pteW f

/-- A translated address: physical address, uncacheable, software-managed, read-mostly (R161). -/
structure Phys where
  pa : Nat
  nc : Bool
  sm : Bool
  rm : Bool
deriving DecidableEq, Repr

/-- Whether a cached translation serves an address (R160). -/
def TlbEntry.serves (e : TlbEntry) (core : Nat) (c : TCtx) (va : Nat) : Bool :=
  e.core == core && e.vmid == c.vmid && e.guest == c.guest && (e.glob || e.asid == c.asid) && e.va ≤ va && va < e.va + e.size

/-- The entry of a fresh first-stage walk. -/
def newEntry (core : Nat) (c : TCtx) (l : Leaf) : TlbEntry :=
  ⟨core, c.vmid, c.asid, pteG l.flags, c.guest, l.base, l.size, l.target, l.flags, none⟩

/-- Permissions and attributes of an entry whose second stage is known (R161, R162). -/
def finishTrans (e : TlbEntry) (c : TCtx) (va : Word) (acc : Nat) : Except TransErr Phys :=
  let gpa := e.gpa + (va.toNat - e.va)
  if !grants e.flags acc || (c.user && !pteU e.flags) then .error (.page 1 va true)
  else if c.guest then
    match e.s2 with
    | none => .error .access
    | some (b, _, t, f) =>
      if !grants f acc then .error (.page 2 (BitVec.ofNat 64 gpa) true)
      else
        .ok ⟨t + (gpa - b), pteNC e.flags || pteNC f, pteSM e.flags, pteRM e.flags⟩
  else .ok ⟨gpa, pteNC e.flags, pteSM e.flags, pteRM e.flags⟩

/-- The second-stage part of an entry made good for an address: walked where it is not cached or holds another page. -/
def withStage2 (ms : MemSys) (e : TlbEntry) (c : TCtx) (va : Word) : Except TransErr TlbEntry :=
  if !c.guest then .ok e
  else
    let gpa := e.gpa + (va.toNat - e.va)
    let cached := match e.s2 with
      | some (b, n, _, _) => b ≤ gpa && gpa < b + n
      | none => false
    if cached then .ok e
    else do
      let l ← walk2 ms c.s2root gpa
      .ok { e with s2 := some (l.base, l.size, l.target, l.flags) }

/-- R160, R162: a virtual address translated for an access, with the entries cached afterwards. A cached first stage is used
while it is not dropped; a first-stage walk also walks the second stage afresh. -/
def translate (ms : MemSys) (core : Nat) (c : TCtx) (va : Word) (acc : Nat) : Except TransErr (Phys × MemSys) :=
  match ms.tlb.find? (·.serves core c va.toNat) with
  | some e => do
    let e' ← withStage2 ms e c va
    let p ← finishTrans e' c va acc
    .ok (p, if e' = e then ms else { ms with tlb := e' :: ms.tlb.filter (· != e) })
  | none => do
    let l ← walk1 ms c va
    let e ← withStage2 ms (newEntry core c l) c va
    let p ← finishTrans e c va acc
    .ok (p, { ms with tlb := e :: ms.tlb })

/-- R77: the entries TLBINV drops. -/
def tlbDropAll (ms : MemSys) (vmid : BitVec 6) : MemSys := { ms with tlb := ms.tlb.filter fun e => e.vmid != vmid }

def tlbDropAsid (ms : MemSys) (vmid : BitVec 6) (asid : BitVec 12) : MemSys :=
  { ms with tlb := ms.tlb.filter fun e => !(e.vmid == vmid && e.asid == asid) }

def tlbDropVa (ms : MemSys) (vmid : BitVec 6) (asid : BitVec 12) (va : Word) : MemSys :=
  if canonical va then
    { ms with tlb := ms.tlb.filter fun e =>
        !(e.vmid == vmid && (e.glob || e.asid == asid) && e.va ≤ va.toNat && va.toNat < e.va + e.size) }
  else ms

/-- R77: second-stage parts of a VMID whose guest page contains the address; 0 names all of them. -/
def tlbDropStage2 (ms : MemSys) (vmid : BitVec 6) (gpa : Word) : MemSys :=
  { ms with tlb := ms.tlb.map fun e =>
      match e.s2 with
      | some (b, n, _, _) =>
        if e.vmid == vmid && (gpa == 0#64 || (b ≤ gpa.toNat && gpa.toNat < b + n)) then { e with s2 := none } else e
      | none => e }

end Sys2Proof.Machine
end

