-- ==== Sys2Proof/Machine/Access.lean ====
section
/-! DEFINITION. Data at its homes and in the caches: dirty lines, ownership, unowned copies, signatures (R96 to R105, R116),
poison and memory errors (R288, R289), the watch on source frames (R283), stash windows (R97, R98), and finding the place an
access reaches (R64 to R66, R98, R106). -/

namespace Sys2Proof.Machine

/-! ### Lines -/

/-- The line of a physical address (R100). -/
def lineOf (pa : Nat) : Nat := pa / 64

/-- A line at its home: its memory's, or a die's copy of a software-managed line (R105). -/
def homeKey (sm : Option Nat) (line : Nat) : Nat :=
  match sm with
  | none => line
  | some d => (d + 1) * 2 ^ 46 + line

/-- Holders of unowned words: a core's L1D, its stash windows, its fetch path. -/
def l1dOf (core : Nat) : Nat := core * 64
def windowHolder (core hart k : Nat) : Nat := core * 64 + 1 + hart * 4 + k
def fetchHolder (core : Nat) : Nat := core * 64 + 63

/-- The key of a holder's copy of a line. -/
def copyKey (holder key : Nat) : Nat := holder * 2 ^ 50 + key

/-- The key of a word of a line. -/
def wordKey (key pa : Nat) : Nat := key * 8 + pa / 8 % 8

/-- Byte i of 512 bits. -/
def byteAt (v : VWord) (i : Nat) : Byte := BitVec.ofNat 8 (v.toNat / 2 ^ (8 * i))

/-- 512 bits with byte i replaced. -/
def withByte (v : VWord) (i : Nat) (b : Byte) : VWord :=
  BitVec.ofNat 512 (v.toNat - v.toNat / 2 ^ (8 * i) % 256 * 2 ^ (8 * i) + b.toNat * 2 ^ (8 * i))

/-! ### Slices, their sets and pins (R96, R103 to R105, R117) -/

/-- The slice of a line: its home die and one of 16 (R96); the manual gives no index function. -/
def sliceOf (line : Nat) : Nat :=
  let pa := line * 64
  let die := match paKind pa with | .lpddr f => f % 4 | _ => pa / 4096 % 4
  die * 16 + Config.l2Slice line % 16

/-- The die whose L2 holds the line of a key: the home die (R103), or the die of a copy or replica. -/
def dieOfKey (key : Nat) : Nat := if key / 2 ^ 46 = 0 then sliceOf key / 16 else key / 2 ^ 46 - 1

/-- Whether two lines of L2 slices share a set: one die, and one set of it (R117). -/
def sameSet (a b : Nat) : Bool := dieOfKey a == dieOfKey b && Config.l2Set (a % 2 ^ 46) == Config.l2Set (b % 2 ^ 46)

/-- R117, R134: pinned lines in the set of a line. -/
def pinnedInSet (ms : MemSys) (key : Nat) : Nat := (ms.pins.filter fun e => sameSet e.1 key).length

/-- Whether a line is pinned. -/
def isPinned (ms : MemSys) (key : Nat) : Bool := (Table.find? ms.pins key).isSome

/-- R117: whether a line finds every way of its set pinned by others, so that it is served without allocation. -/
def setFull (ms : MemSys) (key : Nat) : Bool := Config.l2Ways ≤ pinnedInSet ms key && !isPinned ms key

/-! ### Poison (R289) -/

/-- Whether a line of memory, or a die's copy of it by its key, is held as poison. -/
def isPoison (ms : MemSys) (line : Nat) : Bool := ms.poison.contains line

/-- The key under which the poison of a line is kept for its readers: a die's copy has a mark of its own (R105, R289). -/
def poisonKey (ms : MemSys) (sm : Option Nat) (line : Nat) : Nat :=
  let key := homeKey sm line
  match sm, Table.find? ms.dies key with
  | some _, some _ => key
  | _, _ => line

/-- A line or copy marked as poison. -/
def markPoison (ms : MemSys) (key : Nat) : MemSys :=
  { ms with poison := if ms.poison.contains key then ms.poison else key :: ms.poison }

/-- The mark of a line or copy taken away. -/
def clearPoison (ms : MemSys) (key : Nat) : MemSys := { ms with poison := ms.poison.filter (· != key) }

/-- The block a poisoned line is delivered as: format 0xFF, payload zero (R288). -/
def poisonByte (i : Nat) : Byte := if i = 0 then 0xFF#8 else 0#8

/-- Whether a block of a stash is held as poison (R296); blocks are numbered across all stashes. -/
def isStashPoison (ms : MemSys) (block : Nat) : Bool := ms.stashPoison.contains block

/-! ### What a read meets (R288) -/

/-- What a read of a line meets. -/
inductive LineState where
  | clean | corrected | poisoned | uncorr
deriving DecidableEq, Repr

/-- R288: the state of a line of memory, by its class and the errors in it; a die's copy has met its errors when it was filled. -/
def lineState (ms : MemSys) (sm : Option Nat) (pa : Nat) : LineState :=
  let line := lineOf pa
  if isPoison ms (poisonKey ms sm line) then .poisoned
  else if poisonKey ms sm line ≠ line then .clean
  else
    match ms.errors.find? (fun e => e.line == line) with
    | none => .clean
    | some e =>
      match classOf ms pa with
      | 2 => if e.correctable then .corrected else .uncorr
      | 1 => .poisoned
      | _ => .clean

/-- Whether a read of a line in a state delivers its bytes. -/
def LineState.reads : LineState → Bool
  | .clean => true
  | .corrected => true
  | _ => false

/-! ### Homes -/

/-- The byte of a physical address at its home (R99, R105). -/
def homeByte (ms : MemSys) (sm : Option Nat) (pa : Nat) : Byte :=
  match sm with
  | none => Memory.read ms.mem pa
  | some d =>
    match Table.find? ms.dies (homeKey (some d) (lineOf pa)) with
    | some c => byteAt c.data (pa % 64)
    | none => Memory.read ms.mem pa

/-- The 64 bytes of a line at its home. -/
def homeLine (ms : MemSys) (sm : Option Nat) (line : Nat) : VWord :=
  match sm with
  | none => Memory.readBlock ms.mem (line * 64)
  | some d =>
    match Table.find? ms.dies (homeKey (some d) line) with
    | some c => c.data
    | none => Memory.readBlock ms.mem (line * 64)

/-- A line becomes dirty: its memory's value is kept underneath, with its poison (R116, R289). -/
def markDirty (ms : MemSys) (line : Nat) : MemSys :=
  match Table.find? ms.dirty line with
  | some _ => ms
  | none => { ms with dirty := Table.set ms.dirty line (Memory.readBlock ms.mem (line * 64), isPoison ms line) }

/-- A die's copy made, if it holds none and a way of its set is free of pins; a line that does not deliver its bytes is poison in
the copy (R105, R117, R289). -/
def fillDie (ms : MemSys) (d line : Nat) : MemSys :=
  let key := homeKey (some d) line
  match Table.find? ms.dies key with
  | some _ => ms
  | none =>
    if setFull ms key then ms
    else
      let ms := if (lineState ms none (line * 64)).reads then ms else markPoison ms key
      { ms with dies := Table.set ms.dies key ⟨Memory.readBlock ms.mem (line * 64), 0⟩ }

/-- R104: the replicas of a line collapsed. -/
def collapse (ms : MemSys) (line : Nat) : MemSys :=
  { ms with replicas := ms.replicas.filter fun k => k % 2 ^ 46 != line }

/-- R104: whether another die holds a replica of a line. -/
def replicated (ms : MemSys) (line : Nat) : Bool := ms.replicas.any fun k => k % 2 ^ 46 == line

/-- R104: a die that reads a read-mostly line of another home keeps a replica of it; it holds the home's value, since no write is
performed while one stands. -/
def replicate (ms : MemSys) (d line : Nat) : MemSys :=
  let key := homeKey (some d) line
  if dieOfKey line == d || ms.replicas.contains key || setFull ms key then ms else { ms with replicas := key :: ms.replicas }

/-- Bytes put into a die's copy, with their dirty bits. -/
def dieWrite (c : DieCopy) (off : Nat) : List Byte → DieCopy
  | [] => c
  | b :: bs => dieWrite ⟨withByte c.data off b, c.dirty ||| (1#64 <<< off)⟩ (off + 1) bs

/-- R283: the pending entries that source a frame are voided and the valid ones dropped, counted in INVALS of their tenant; a
frame that no entry sources is no longer watched. -/
def invalFrame (r : ReuseSys) (f : Nat) : ReuseSys :=
  if r.watched.contains f then
    let hit := fun (e : REntry) => e.frames.contains f
    let counts := r.entries.foldl (fun (t : Table Word) (e : REntry) =>
      if hit e && e.state == .valid then Table.set t (4 * e.part + 3) (Table.get 0#64 t (4 * e.part + 3) + 1#64) else t) r.counts
    if r.entries.any hit then
      { r with
        counts := counts
        entries := (r.entries.filter fun e => !(hit e && e.state == .valid)).map fun e =>
          if hit e && e.state == .pending then { e with state := .voided } else e }
    else { r with watched := r.watched.filter (· != f) }
  else r

/-- Whether bytes are a whole 64-byte block (R289). -/
def wholeLine (pa : Nat) (bs : List Byte) : Bool := pa % 64 == 0 && bs.length == 64

/-- Bytes written to a line at its true home, the replicas of the line collapsed first (R104): the line is dirty, but in a set
full of pins it is written through (R117). A poisoned line keeps its poison unless all 64 bytes are written (R289). -/
def trueWrite (ms : MemSys) (pa : Nat) (bs : List Byte) : MemSys :=
  let line := lineOf pa
  let ms := collapse ms line
  if isPoison ms line && !wholeLine pa bs then ms
  else
    let ms := if setFull ms line then { ms with dirty := Table.erase ms.dirty line } else markDirty ms line
    let ms := if wholeLine pa bs then { clearPoison ms line with errors := ms.errors.filter fun e => e.line != line } else ms
    { ms with mem := Memory.writeBytes ms.mem pa bs }

/-- Bytes written to a die's copy of a line, which keeps its own poison likewise (R105, R289). -/
def copyWrite (ms : MemSys) (d pa : Nat) (bs : List Byte) : MemSys :=
  let key := homeKey (some d) (lineOf pa)
  if isPoison ms key && !wholeLine pa bs then ms
  else
    let ms := if wholeLine pa bs then clearPoison ms key else ms
    { ms with dies := Table.set ms.dies key (dieWrite (Table.get ⟨0, 0⟩ ms.dies key) (pa % 64) bs) }

/-- Bytes written at the home of a line, not crossing it: memory's, or the die's copy of a software-managed line, which a set
full of pins does not hold (R105, R117). -/
def homeWrite (ms : MemSys) (sm : Option Nat) (pa : Nat) (bs : List Byte) : MemSys :=
  match sm with
  | none => trueWrite ms pa bs
  | some d =>
    let ms := fillDie ms d (lineOf pa)
    match Table.find? ms.dies (homeKey (some d) (lineOf pa)) with
    | some _ => copyWrite ms d pa bs
    | none => trueWrite ms pa bs

/-- A write at a home with the watch on source frames before it (R283). -/
def writeAt (s : State) (sm : Option Nat) (pa : Nat) (bs : List Byte) : State :=
  { s with reuse := invalFrame s.reuse (pa / 4096), ms := homeWrite s.ms sm pa bs }

/-! ### Ownership and copies (R99 to R101) -/

/-- Whether a holder belongs to a core's L1D or stash windows, which acquires invalidate (R101). -/
def isDataHolder (core holder : Nat) : Bool := holder / 64 == core && holder != fetchHolder core

/-- Whether a holder is a stash window. -/
def isWindow (holder : Nat) : Bool := holder % 64 != 0 && holder % 64 != 63

/-- Copies that end: those of an L1D are gone; a stash window's words are invalid, but its stash bytes keep what they last were
(R98, R101). -/
def endCopies (t : Table LineCopy) (p : Nat → LineCopy → Bool) : Table LineCopy :=
  Table.mapVals (Table.keep t fun k c => !p k c || isWindow (k / 2 ^ 50)) fun k c => if p k c then { c with valid := 0#8 } else c

/-- The words of a mask end in every copy of a line that a core's L1D and windows hold. -/
def dropMask (ms : MemSys) (core key : Nat) (lost : BitVec 8) : MemSys :=
  { ms with copies := Table.mapVals ms.copies fun k c =>
      if isDataHolder core (k / 2 ^ 50) && k % 2 ^ 50 == key then { c with valid := c.valid &&& ~~~lost } else c }

/-- The former owner of a word keeps its value as an unowned word (R99); a stash window drops the word (R98). -/
def disown (ms : MemSys) (g : Nat) (sm : Option Nat) (pa : Nat) : MemSys :=
  let key := homeKey sm (lineOf pa)
  match Table.find? ms.owners (wordKey key pa) with
  | none => ms
  | some o =>
    let w := pa / 8 % 8
    let old := Table.get ⟨g, 0, 0⟩ ms.copies (copyKey o key)
    let line := homeLine ms sm (lineOf pa)
    let data := (List.range 8).foldl (fun d i => withByte d (8 * w + i) (byteAt line (8 * w + i))) old.data
    { ms with owners := Table.erase ms.owners (wordKey key pa),
              copies := Table.set ms.copies (copyKey o key)
                ⟨old.gen, data, if isWindow o then old.valid &&& ~~~(1#8 <<< w) else old.valid ||| (1#8 <<< w)⟩ }

/-- A holder becomes owner of a word (R99); no holder of its core keeps an unowned copy of the word, so that no later load of a
hart of the core is older than the store (R110). -/
def own (ms : MemSys) (g : Nat) (sm : Option Nat) (holder pa : Nat) : MemSys :=
  let key := homeKey sm (lineOf pa)
  let ms := if Table.find? ms.owners (wordKey key pa) = some holder then ms else disown ms g sm pa
  let ms := dropMask ms (holder / 64) key (1#8 <<< (pa / 8 % 8))
  { ms with owners := Table.set ms.owners (wordKey key pa) holder }

/-- The words a range of bytes touches, by the address of each word. -/
def wordsOf (pa n : Nat) : List Nat :=
  if n = 0 then [] else (List.range ((pa + n - 1) / 8 - pa / 8 + 1)).map fun k => (pa / 8 + k) * 8


/-- A write at the home by another agent: an engine, an AMO, an uncached store (R99, R112). -/
def storeHome (s : State) (sm : Option Nat) (pa : Nat) (bs : List Byte) : State :=
  let ms := (wordsOf pa bs.length).foldl (fun ms w => disown ms s.gen sm w) s.ms
  writeAt { s with ms := ms } sm pa bs

/-- Whether a holder reads a word from its own copy. -/
def holdsWord (ms : MemSys) (holder : Nat) (sm : Option Nat) (pa : Nat) : Bool :=
  match Table.find? ms.copies (copyKey holder (homeKey sm (lineOf pa))) with
  | some c => c.valid.getLsbD (pa / 8 % 8)
  | none => false

/-- A byte as a holder reads it: its unowned copy where it holds one, else the home's value (R99, R110). -/
def viewByte (ms : MemSys) (holder : Nat) (sm : Option Nat) (pa : Nat) : Byte :=
  match Table.find? ms.copies (copyKey holder (homeKey sm (lineOf pa))) with
  | some c => if c.valid.getLsbD (pa / 8 % 8) then byteAt c.data (pa % 64) else homeByte ms sm pa
  | none => homeByte ms sm pa

/-- A line filled by a holder: every word it neither owns nor holds becomes an unowned word (R99, R101). -/
def fillLine (ms : MemSys) (g holder : Nat) (sm : Option Nat) (line : Nat) : MemSys :=
  let key := homeKey sm line
  let k := copyKey holder key
  let old := Table.get ⟨g, 0, 0⟩ ms.copies k
  let home := homeLine ms sm line
  let take := fun (w : Nat) => !old.valid.getLsbD w && Table.find? ms.owners (key * 8 + w) != some holder
  let data := (List.range 64).foldl (fun d i => if take (i / 8) then withByte d i (byteAt home i) else d) old.data
  let valid := (List.range 8).foldl (fun (v : BitVec 8) w => if take w then v ||| (1#8 <<< w) else v) old.valid
  { ms with copies := Table.set ms.copies k ⟨if old.valid = 0 then g else old.gen, data, valid⟩ }

/-- Whether a holder has a word of a line: one it owns or an unowned one. -/
def hasWord (ms : MemSys) (holder key : Nat) : Bool :=
  (match Table.find? ms.copies (copyKey holder key) with
    | some c => c.valid != 0#8
    | none => false) || (List.range 8).any fun w => Table.find? ms.owners (key * 8 + w) == some holder

/-- R98: the first access to a line of a stash window, a store among them, fills it; so does the first one after the line was dropped. -/
def fillWindow (ms : MemSys) (g holder : Nat) (sm : Option Nat) (pa : Nat) : MemSys :=
  if isWindow holder && !hasWord ms holder (homeKey sm (lineOf pa)) then fillLine ms g holder sm (lineOf pa)
  else ms

/-- R98: what is written at the home through a window is what the window's words last were. -/
def keepWritten (ms : MemSys) (holder : Nat) (sm : Option Nat) (pa n : Nat) : MemSys :=
  let k := copyKey holder (homeKey sm (lineOf pa))
  match Table.find? ms.copies k with
  | none => ms
  | some c =>
    if isWindow holder then
      let line := homeLine ms sm (lineOf pa)
      let data := (wordsOf pa n).foldl (fun d w =>
        (List.range 8).foldl (fun d i => withByte d (w % 64 + i) (byteAt line (w % 64 + i))) d) c.data
      { ms with copies := Table.set ms.copies k { c with data := data } }
    else ms

/-- Whether a holder owns every word of a write already. -/
def ownsAll (ms : MemSys) (holder : Nat) (sm : Option Nat) (pa n : Nat) : Bool :=
  (wordsOf pa n).all fun a => Table.find? ms.owners (wordKey (homeKey sm (lineOf pa)) a) == some holder

/-- A write that registers ownership: a store through an L1D or a window (R98, R99). -/
def storeOwned (s : State) (sm : Option Nat) (holder pa : Nat) (bs : List Byte) : State :=
  let ms := (wordsOf pa bs.length).foldl (fun ms w => own ms s.gen sm holder w) (fillWindow s.ms s.gen holder sm pa)
  writeAt { s with ms := ms } sm pa bs

/-- R110: what a core's other data holders hold unowned of a line ends, as one of them takes its words from the home: two loads of a
hart return no older value by another of its core's holders. -/
def dropOthers (ms : MemSys) (holder key : Nat) : MemSys :=
  if isDataHolder (holder / 64) holder then
    { ms with copies := endCopies ms.copies fun k _ =>
        isDataHolder (holder / 64) (k / 2 ^ 50) && k / 2 ^ 50 != holder && k % 2 ^ 50 == key }
  else ms

/-- R101: the acquire of a core at generation `g`: unowned words of matching lines, and of lines filled at g − 2 or before. -/
def acquireAt (ms : MemSys) (core g : Nat) (sig : Sig) : MemSys :=
  { ms with copies := endCopies ms.copies fun k c =>
      isDataHolder core (k / 2 ^ 50) && (sigHits sig (k % 2 ^ 46) || c.gen + 2 ≤ g) }

/-- FENCE's acquire half, and an acquire that receives ALL (R101, R125). -/
def dropUnowned (ms : MemSys) (core : Nat) : MemSys :=
  { ms with copies := endCopies ms.copies fun k _ => isDataHolder core (k / 2 ^ 50) }

/-- R126: the instructions held in a core's fetch path are discarded. -/
def dropFetched (ms : MemSys) (core : Nat) : MemSys :=
  { ms with copies := Table.keep ms.copies fun k _ => k / 2 ^ 50 != fetchHolder core }

/-- R102: a signature published to a line at its home. -/
def publish (ms : MemSys) (key : Nat) (sig : Sig) : MemSys :=
  let (c, p) := Table.get (Sig.empty, Sig.empty) ms.homeSigs key
  { ms with homeSigs := Table.set ms.homeSigs key (sigUnion c sig, p) }

/-- R102: what an acquire that reads a line at its home receives. -/
def receivedSig (ms : MemSys) (g key : Nat) : Sig :=
  match Table.find? ms.homeSigs key with
  | some (c, p) => sigUnion c p
  | none =>
    match Table.find? ms.sigDrops (sliceOf (key % 2 ^ 46)) with
    | some d => if g ≤ d + 2 then sigAll else Sig.empty
    | none => Sig.empty

/-! ### Memory errors (R288, R294, R295) -/

/-- A cost charged to a partition's error budget; at the limit EBUDGET becomes pending once in the window (R294). -/
def chargeError (s : State) (p : Nat) (corrected : Bool) : State :=
  let a := s.part p
  let cost : Nat := if corrected then 1 else 16
  let spent := a.spent + BitVec.ofNat 32 cost
  let a := { a with spent := spent,
                    corr := if corrected then (if a.corr = 0xFFFF#16 then a.corr else a.corr + 1) else a.corr,
                    det := if corrected then a.det else (if a.det = 0xFFFF#16 then a.det else a.det + 1) }
  if a.ebwin ≠ 0 ∧ a.eblimit ≤ spent ∧ !a.raised then
    let s := s.setPart p { a with raised := true }
    let h := slotOf (gOfHpos a.base) 0
    s.setHart h { s.hart h with pend := (s.hart h).pend ++ [(cEbudget, 0#64)], idle := false }
  else s.setPart p a

/-- R295: the partition an error in a line is charged to. -/
def errorPart (s : State) (pa : Nat) : Option Nat :=
  match paKind pa with
  | .lpddr f => some (entryPart (classEntry s.ms f))
  | _ => none

/-- R295: an error of a core's stash, L1D or accumulators, charged to the partition that owns the core; its data stay as they are
(notes/assumptions/66.md). -/
def chargeCore (s : State) (core : Nat) (corrected : Bool) : State :=
  match ownerOf s core with
  | some p => chargeError s p corrected
  | none => s

/-- The pattern of poison in a line (R206, R288). -/
def putPoison (ms : MemSys) (line : Nat) : MemSys :=
  { ms with mem := Memory.writeBlock ms.mem (line * 64) poisonBlock,
            poison := if ms.poison.contains line then ms.poison else line :: ms.poison,
            errors := ms.errors.filter fun e => e.line != line }

/-- A read of a line settles its errors: a correctable class P error is corrected and counted; a class D error is detected,
counted, and the block is poison from then on (R288, R294). -/
def settleLine (s : State) (pa : Nat) : State :=
  match s.ms.errors.find? (fun e => e.line == lineOf pa) with
  | none => s
  | some e =>
    let charge := fun (s : State) (c : Bool) => match errorPart s pa with | some p => chargeError s p c | none => s
    match classOf s.ms pa with
    | 2 =>
      if e.correctable then
        charge { s with ms := { s.ms with errors := s.ms.errors.filter fun e => e.line != lineOf pa } } true
      else charge s false
    | 1 => charge { s with ms := putPoison s.ms (lineOf pa) } false
    | _ => { s with ms := { s.ms with errors := s.ms.errors.filter fun e => e.line != lineOf pa } }

/-! ### Stash windows (R97, R98) -/

/-- STMAP fields. -/
def stmapEn (w : Word) : Bool := w.getLsbD 63
def stmapLen (w : Word) : Nat := fieldOf w 13 8
def stmapOff (w : Word) : Nat := fieldOf w 5 0

/-- The virtual base of a window: sext(VBASE << 12) from bit 55. -/
def stmapBase (w : Word) : Word := (w.extractLsb' 12 44 ++ 0#12).signExtend 64

/-- STMAP register n of a hart. -/
def Hart.st (h : Hart) (n : Nat) : Word := Table.get 0#64 h.stmap n

/-- Whether window k of a hart covers a stash offset. -/
def Hart.covers (h : Hart) (k off : Nat) : Bool :=
  let e := h.st (2 * k + 1)
  stmapEn e && stmapOff e * 4096 ≤ off && off < (stmapOff e + stmapLen e + 1) * 4096

/-- The window of a core that covers a stash offset: the hart that owns it, and its number (R98). DESIGN CHOICE (notes/assumptions/84.md):
the windows of a parked thread, whose lines have been written back and dropped, keep their EN and go on mapping the core's offsets. -/
def windowAt (s : State) (core off : Nat) : Option (Nat × Nat) :=
  ((List.range 32).find? fun n => (s.hart (slotOf core (n / 4))).covers (n % 4) off).map fun n => (n / 4, n % 4)

/-- R98: the global address a window gives a stash offset. -/
def windowVa (h : Hart) (k off : Nat) : Word :=
  stmapBase (h.st (2 * k)) + BitVec.ofNat 64 (off - stmapOff (h.st (2 * k + 1)) * 4096)

/-! ### The place of an access -/

/-- Where an access goes (R106). -/
inductive Place where
  /-- a byte of the stashes, numbered across all cores -/
  | stash (idx : Nat)
  /-- memory: the die whose copy is the home (software-managed), whether uncacheable, who caches, whether read-mostly -/
  | mem (pa : Nat) (sm : Option Nat) (nc : Bool) (holder : Nat) (rm : Bool)
deriving DecidableEq, Repr

/-- The number of a stash byte. -/
def stashIdx (core off : Nat) : Nat := core * stashSize + off

/-- A translation error as an instruction meets it (R64, R162). -/
def transStop (va : Word) (acc : Nat) : TransErr → Stop
  | .page st a perm => .hold va a st acc perm
  | .access => .deny acc va

/-- R105: the die whose L2 copy is the home of a software-managed page for a core; gateways sit on link dies, and use the
copy of the die that homes the line's memory (notes/assumptions/13.md). -/
def smDie (core pa : Nat) (sm : Bool) : Option Nat :=
  if sm then some (if core < 1024 then dieOf core else sliceOf (lineOf pa) / 16) else none

/-- The place of a translated address: an uncacheable page takes neither SM nor RM, and SM comes before RM (R103 to R105). -/
def physPlace (core holder : Nat) (p : Phys) : Place :=
  let nc := p.nc || isHost p.pa
  .mem p.pa (smDie core p.pa (p.sm && !nc)) nc holder (p.rm && !p.sm && !nc)

/-- A global address reached by a core for a partition under a context, for an access: translation, then who may reach it (R162). -/
def reachGlobal (s : State) (part : Option Nat) (core holder : Nat) (c : TCtx) (va rep : Word) (acc : Nat) :
    Except Stop (Place × State) :=
  match translate s.ms core c va acc with
  | .error e => .error (transStop rep acc e)
  | .ok (p, ms) =>
    if mayReach ms part p.pa then .ok (physPlace core holder p, { s with ms := ms }) else .error (.deny acc rep)

/-- R65, R66, R98: the place of a stash offset of a core: its window's global address, or the stash. -/
def reachStash (s : State) (part : Option Nat) (core off : Nat) (rep : Word) (acc : Nat) : Except Stop (Place × State) :=
  match windowAt s core off with
  | none => .ok (.stash (stashIdx core off), s)
  | some (k, w) =>
    let h := s.hart (slotOf core k)
    reachGlobal s part core (windowHolder core k w) h.tctx (windowVa h w off) rep acc

/-- The place a virtual address reaches for a core and a partition, outside the control and package windows, after the canonical check
(R64 to R66); its own stash goes through its windows however it is named (R98). -/
def reachFor (s : State) (part : Option Nat) (core : Nat) (c : TCtx) (va : Word) (acc : Nat) : Except Stop (Place × State) :=
  if !canonical va then .error (.deny acc va)
  else
    match regionOf va with
    | .stash o => reachStash s part core o va acc
    | .remote g o => if g = core then reachStash s part core o va acc else .ok (.stash (stashIdx g o), s)
    | .noStash => .error (.deny acc va)
    | .ctrl _ _ => .error (.deny acc va)
    | .pkg _ => .error (.deny acc va)
    | .global => reachGlobal s part core (l1dOf core) c va va acc

/-- The place a virtual address reaches for a core, under the rights of the partition that owns it (R285, R306). -/
def reach (s : State) (core : Nat) (c : TCtx) (va : Word) (acc : Nat) : Except Stop (Place × State) :=
  reachFor s (ownerOf s core) core c va acc

/-- The bytes of a place as the accessor's copies show them, n bytes within a line. -/
def viewBytes (ms : MemSys) (p : Place) (n : Nat) : List Byte :=
  match p with
  | .stash i => Memory.readBytes ms.stash i n
  | .mem pa sm nc holder _ =>
    (List.range n).map fun k => if nc then homeByte ms sm (pa + k) else viewByte ms holder sm (pa + k)

/-- The bytes of a place at its home. -/
def homeBytes (ms : MemSys) (p : Place) (n : Nat) : List Byte :=
  match p with
  | .stash i => Memory.readBytes ms.stash i n
  | .mem pa sm _ _ _ => (List.range n).map fun k => homeByte ms sm (pa + k)

/-- What a read leaves in the L2 of the reader's die: a copy of a software-managed line, a replica of a read-mostly one (R104,
R105). -/
def cacheInDie (ms : MemSys) (p : Place) : MemSys :=
  match p with
  | .mem pa (some d) _ _ _ => fillDie ms d (lineOf pa)
  | .mem pa none _ holder true => if holder / 64 < 1024 then replicate ms (dieOf (holder / 64)) (lineOf pa) else ms
  | _ => ms

/-- The copies after a cached read of a place (R99, R104, R105). -/
def touch (s : State) (p : Place) : State :=
  match p with
  | .stash _ => s
  | .mem pa sm nc holder _ =>
    if nc then s else { s with ms := fillLine (dropOthers (cacheInDie s.ms p) holder (homeKey sm (lineOf pa))) s.gen holder sm (lineOf pa) }

/-- R98: what a read at the home leaves: the die's copy (R105), and the line of the window it goes through filled. -/
def touchHome (s : State) (p : Place) : State :=
  match p with
  | .stash _ => s
  | .mem pa sm nc holder _ =>
    let ms := cacheInDie s.ms p
    { s with ms := if nc then ms else fillWindow ms s.gen holder sm pa }

/-- What a read of a place meets (R288, R296). -/
def placeState (ms : MemSys) (p : Place) : LineState :=
  match p with
  | .stash i => if isStashPoison ms (i / 64) then .poisoned else .clean
  | .mem pa sm _ _ _ => lineState ms sm pa

/-- The line number a place's errors are kept under; stash blocks are numbered above memory. -/
def placeLine (p : Place) : Nat :=
  match p with
  | .stash i => 2 ^ 46 + i / 64
  | .mem pa _ _ _ _ => lineOf pa

/-- Errors settled by a read that goes on (R288). -/
def settlePlace (s : State) (p : Place) : State :=
  match p with
  | .stash _ => s
  | .mem pa _ _ _ _ => settleLine s pa

/-- Bytes written to a stash; a partial write leaves a poisoned block poison (R289). -/
def stashWrite (ms : MemSys) (i : Nat) (bs : List Byte) : MemSys :=
  let whole := i % 64 == 0 && bs.length == 64
  if isStashPoison ms (i / 64) && !whole then ms
  else { ms with stash := Memory.writeBytes ms.stash i bs,
                 stashPoison := if whole then ms.stashPoison.filter (· != i / 64) else ms.stashPoison }

/-- Bytes written at the home of a place by an agent that takes no ownership (an AMO, a release, an engine), through the window that
covers it, if one does (R98). -/
def writePlaceHome (s : State) (p : Place) (bs : List Byte) : State :=
  match p with
  | .stash i => { s with ms := stashWrite s.ms i bs }
  | .mem pa sm nc holder _ =>
    if nc || !isWindow holder then storeHome s sm pa bs
    else
      let s := storeHome { s with ms := fillWindow s.ms s.gen holder sm pa } sm pa bs
      { s with ms := keepWritten s.ms holder sm pa bs.length }

/-- The key of a place's line at its home, for signatures; none for a stash (R102, R119). -/
def placeKey (p : Place) : Option Nat :=
  match p with
  | .stash _ => none
  | .mem pa sm _ _ _ => some (homeKey sm (lineOf pa))

end Sys2Proof.Machine
end

