-- ==== Sys2Proof/Machine/Reads.lean ====
section
/-! DEFINITION. What a read of a place delivers: the accessor's view, its own earlier stores on top (R66, R99, R114, R290,
R292), poison and errors by class (R288, R296), and a load's outstanding data (R63). -/

namespace Sys2Proof.Machine

/-! ### Own earlier stores -/

/-- One byte of a list of bytes that starts at `base`, if it holds address `a`. -/
def byteIn (base : Nat) (bs : List Byte) (a : Nat) : Option Byte := if base ≤ a then bs[a - base]? else none

/-- The last of the stores of a thread that covers a physical byte and is not yet performed (R99). -/
def pendingByte (stores : List Store) (h : Nat) (tag : BitVec 16) (a : Nat) : Option Byte :=
  stores.foldl (fun r st =>
    if st.hart == h && st.tag == tag && (match st.place with | .remoteStash _ => false | _ => true) then
      (match byteIn st.pa st.bytes a with | some b => some b | none => r)
    else r) none

/-- The byte at a place or address among bytes stored at another. -/
def placedByte (p q : Place) (bs : List Byte) (k : Nat) : Option Byte :=
  match p, q with
  | .stash i, .stash j => byteIn j bs (i + k)
  | .mem a _ _ _ _, .mem b _ _ _ _ => byteIn b bs (a + k)
  | _, _ => none

/-- Where the buffered store of a hart at an address will go, as its page is mapped now; none where it is not. -/
def bufferPlace (s : State) (h : Nat) (va : Word) : Option Place :=
  match reach s (h / 8) (s.hart h).tctx va accWrite with
  | .ok (p, _) => some p
  | .error _ => none

/-- Byte k of a place as a buffered store puts it: by the place, whatever address names it, else by the address (R229, R290). -/
def entryByte (s : State) (h : Nat) (va : Word) (p : Place) (k : Nat) (v : Word) (bs : List Byte) : Option Byte :=
  match bufferPlace s h v with
  | some q => placedByte p q bs k
  | none => byteIn v.toNat bs (va.toNat + k)

/-- The last buffered store of a hart's activation that covers byte k of a place (R290). -/
def bufferedByte (s : State) (h : Nat) (va : Word) (p : Place) (k : Nat) : Option Byte :=
  (s.hart h).abuf.foldl (fun r e => match e with
    | .store v bs _ _ | .lanes v bs _ => (match entryByte s h va p k v bs with | some b => some b | none => r)
    | _ => r) none

/-- R289, R290: whether a hart's activation buffer holds one access that writes all 64 bytes of the block of a place. -/
def bufferedBlock (s : State) (h : Nat) (va : Word) (p : Place) : Bool :=
  (s.hart h).abuf.any fun e => match e with
    | .store v bs _ _ | .lanes v bs _ => wholeLine v.toNat bs && (entryByte s h va p 0 v bs).isSome
    | _ => false

/-- The key of the shadow frames of one copy of a V launch (R292). -/
def shadowKey (launch : Nat) (second : Bool) : Nat := 2 * launch + (if second then 1 else 0)

/-- The copy of a V launch a thread belongs to: copy B's threads are numbered from NTHREADS on. -/
def Hart.vcopy (h : Hart) : Option (Nat × Bool) :=
  if h.isV then h.launch.map fun e => (e.1, h.nthreads.toNat ≤ e.2) else none

/-- A byte of a copy's shadow frames (R292). -/
def shadowByte (ms : MemSys) (k : Option (Nat × Bool)) (a : Nat) : Option Byte :=
  match k with
  | none => none
  | some (l, b) => (Table.find? (Table.get [] ms.shadows (shadowKey l b)) (lineOf a)).map fun v => byteAt v (a % 64)

/-- R289, R292: whether a copy's shadows decide what its reads of a line meet: poison that they hold, or a line that they hold. -/
def shadowState (ms : MemSys) (k : Option (Nat × Bool)) (line : Nat) : Option LineState :=
  match k with
  | none => none
  | some (l, b) =>
    if (Table.get [] ms.shadowPoison (shadowKey l b)).contains line then some .poisoned
    else if (Table.find? (Table.get [] ms.shadows (shadowKey l b)) line).isSome then some .clean
    else none

/-- The bytes of a read of n bytes at `va`, with what the hart itself has stored on top; a pure task
never sees its own output (R301). -/
def ownView (s : State) (h : Nat) (va : Word) (p : Place) (bs : List Byte) : List Byte :=
  let a := s.hart h
  bs.mapIdx fun k b =>
    let b := match p with
      | .stash _ => b
      | .mem pa _ _ _ _ =>
        let b := (shadowByte s.ms a.vcopy (pa + k)).getD b
        (pendingByte s.ms.stores h a.tag (pa + k)).getD b
    (bufferedByte s h va p k).getD b

/-- R66: a remote stash store of the thread, not yet written, that overlaps bytes of a stash place. -/
def remotePending (s : State) (h : Nat) (p : Place) (n : Nat) : Bool :=
  match p with
  | .mem _ _ _ _ _ => false
  | .stash i => s.ms.stores.any fun st =>
      st.hart == h && st.tag == (s.hart h).tag && (match st.place with | .remoteStash _ => true | _ => false) &&
        st.pa < i + n && i < st.pa + st.bytes.length

/-- R114: a side-log entry of the core in the line of an address. -/
def lineLogged (s : State) (core : Nat) (va : Word) : Bool :=
  (s.core core).sidelog.any fun e => e.va.toNat / 64 == va.toNat / 64

/-- R163, R124: a side-log entry of one hart in the line of an address. -/
def ownLineLogged (s : State) (core h : Nat) (va : Word) : Bool :=
  (s.core core).sidelog.any fun e => e.va.toNat / 64 == va.toNat / 64 && e.hart == h && e.tag == (s.hart h).tag

/-- Stores of the thread not yet performed that touch the line of a place (R99). -/
def linePending (s : State) (h : Nat) (p : Place) : Bool :=
  match p with
  | .stash _ => false
  | .mem pa _ _ _ _ => s.ms.stores.any fun st =>
      st.hart == h && st.tag == (s.hart h).tag && (match st.place with | .remoteStash _ => false | _ => true) &&
        lineOf st.pa ≤ lineOf pa && lineOf pa ≤ lineOf (st.pa + (st.bytes.length - 1))

/-- A barrier operation of the thread on its way to the line of a place (R128). -/
def barrierPending (s : State) (h : Nat) (p : Place) : Bool :=
  match p with
  | .stash _ => false
  | .mem pa _ _ _ _ => s.flight.any fun e => match e with
    | .barrierUpdate b => b.slot == some (h, (s.hart h).tag) && lineOf b.pa == lineOf pa
    | _ => false

/-- R109, R110: a load comes after the barrier operations of its own hart; where the line does not read clean, after its
stores too, since what they do to the line decides what it reads (R289). -/
def needOwnBefore (s : State) (h : Nat) (p : Place) (clean : Bool) : Except Stop Unit :=
  check (!barrierPending s h p && (clean || !linePending s h p)) (.wait .other)

/-- R110: the copies a core holds of words that its hart has met at the home end, so that no later load is older. -/
def dropWords (ms : MemSys) (core : Nat) (p : Place) (n : Nat) : MemSys :=
  match p with
  | .stash _ => ms
  | .mem pa sm _ _ _ =>
    dropMask ms core (homeKey sm (lineOf pa)) ((wordsOf pa n).foldl (fun (v : BitVec 8) w => v ||| (1#8 <<< (w / 8 % 8))) 0#8)

/-- R110: a hart of a core has met n bytes of a place at the home. -/
def meetHome (s : State) (core : Nat) (p : Place) (n : Nat) : State := { s with ms := dropWords s.ms core p n }

/-- Whether a place lies in an uncacheable page. -/
def Place.uncached : Place → Bool
  | .stash _ => false
  | .mem _ _ nc _ _ => nc

/-! ### What a read delivers -/

/-- Whether every word of the bytes is served from the holder's own copy, so that memory is not read. -/
def allHeld (ms : MemSys) (p : Place) (n : Nat) : Bool :=
  match p with
  | .stash _ => false
  | .mem pa sm nc holder _ => !nc && (wordsOf pa n).all fun a => holdsWord ms holder sm a

/-- What a copy of a V launch meets at a place; `st` is what the place itself shows (R292). -/
def viewState (ms : MemSys) (k : Option (Nat × Bool)) (p : Place) (st : LineState) : LineState :=
  match p with
  | .mem pa _ _ _ _ => (shadowState ms k (lineOf pa)).getD st
  | .stash _ => st

/-- What a read of n bytes of a place meets (R288, R289). -/
def readState (ms : MemSys) (p : Place) (n : Nat) : LineState :=
  match p with
  | .mem pa sm _ _ _ => if allHeld ms p n && !isPoison ms (poisonKey ms sm (lineOf pa)) then .clean else placeState ms p
  | .stash _ => placeState ms p

/-- The offset of a place in its 64-byte block. -/
def placeOff (p : Place) : Nat :=
  match p with
  | .stash i => i % 64
  | .mem pa _ _ _ _ => pa % 64

/-- A read's data: the bytes, whether they come from a poisoned block, and the state after it. -/
structure Got where
  bytes : List Byte
  poison : Bool
  st : State

/-- The state after a read that delivers its bytes: a corrected error is settled (R288). -/
def settleRead (s : State) (p : Place) (st : LineState) : State :=
  match st with
  | .corrected => settlePlace s p
  | _ => s

/-- What a hart's read of a place meets, `st` being what the place shows: its own buffered whole block reads clean (R289, R290). -/
def ownState (s : State) (h : Nat) (va : Word) (p : Place) (st : LineState) : LineState :=
  if bufferedBlock s h va p then .clean else viewState s.ms (s.hart h).vcopy p st

/-- n bytes of a place as a hart reads them; a vector or block read takes poison as delivered, a scalar one stops (R288). -/
def readPlace (s : State) (h : Nat) (va : Word) (p : Place) (n : Nat) (scalar : Bool) : Except Stop Got := do
  let st := ownState s h va p (readState s.ms p n)
  needOwnBefore s h p st.reads
  match st with
  | .uncorr => .error (.memErr accRead (placeLine p) true va)
  | .poisoned =>
    if scalar then .error (.memErr accRead (placeLine p) false va)
    else .ok ⟨(List.range n).map fun k => poisonByte (placeOff p + k), true, settlePlace s p⟩
  | _ =>
    let s := settleRead s p st
    .ok ⟨ownView s h va p (viewBytes s.ms p n), false, if p.uncached then meetHome s (h / 8) p n else touch s p⟩

/-- As `readPlace`, at the home: LD.AQ, AMO, LDTO (R108, R120). -/
def readHome (s : State) (h : Nat) (va : Word) (p : Place) (n : Nat) : Except Stop Got := do
  let st := ownState s h va p (placeState s.ms p)
  needOwnBefore s h p st.reads
  match st with
  | .uncorr => .error (.memErr accRead (placeLine p) true va)
  | .poisoned => .error (.memErr accRead (placeLine p) false va)
  | _ =>
    let s := settleRead s p st
    .ok ⟨ownView s h va p (homeBytes s.ms p n), false, meetHome (touchHome s p) (h / 8) p n⟩

/-! ### The outstanding load -/

/-- R310: a load that misses the L1D counts in its thread; a load past the L1D is none. -/
def countMiss (s : State) (p : Place) (n : Nat) (h : Hart) : Hart :=
  match p with
  | .stash _ => h
  | .mem _ _ nc _ _ => if nc || allHeld s.ms p n then h else h.count evL1dMiss 1

/-- R310: the accesses to the L2 of a load, one where the L1D does not hold what it reads; they count when its data returns. -/
def l2Reads (s : State) (p : Place) (n : Nat) : Nat :=
  match p with
  | .stash _ => 0
  | .mem _ _ nc _ _ => if !nc && allHeld s.ms p n then 0 else 1

/-- R310: the access to the L2 of an operation performed at its home. -/
def l2Home : Place → Nat
  | .stash _ => 0
  | .mem _ _ _ _ _ => 1

/-- R63: the data of a load on its way to a register. -/
def startLoad (s : State) (t : LoadTarget) (f : Sticky) (l2 : Nat) : State :=
  let id := s.nextId
  let h := s.me
  let h := { h with loads := h.loads ++ [⟨id, t, f, l2⟩] }
  ({ s.setMe h with nextId := id + 1 }).fly (.loadReturn s.cur id)

/-- R63: the data is written, the ready bit set, the flags of the data set. -/
def Hart.finishLoad (h : Hart) (l : Load) : Hart :=
  let h := { h with loads := h.loads.filter fun k => k.id != l.id, rclass := stickyOr h.rclass l.flags }
  let h := if l.l2 = 0 then h else h.count evL2 l.l2
  match l.target with
  | .xreg r v => h.wx r v
  | .vreg r v => h.wv r v
  | .vgroup r vs => (vs.foldl (fun (p : Hart × Nat) v => (p.1.wv (BitVec.ofNat 5 p.2) v, p.2 + 1)) (h, r.toNat)).1

/-- R40, R63: every load of a hart returns: a thread that is saved takes its data with it. -/
def Hart.finishLoads (h : Hart) : Hart := h.loads.foldl Hart.finishLoad h

end Sys2Proof.Machine
end

