-- ==== Sys2Proof/Machine/Operands.lean ====
section
/-! DEFINITION. Operand forms: effective addresses (R62), tile addresses (R65), operand groups (R17), queue handles and queue
operands (R156, R175 to R180). -/

namespace Sys2Proof.Machine

/-! ### Addresses -/

/-- R62: x[rs1] + sext(imm), modulo 2^64. -/
def effAddr (s : State) (a : Reg) (i : BitVec 12) : Word := s.me.rx a + i.signExtend 64

/-- R65: the stash offset of a tile-mode offset: dword w of row r sits at dword (w + r) mod 32. -/
def tileOff (o : Nat) : Nat := o / 256 * 256 + (o / 8 % 32 + o / 256) % 32 * 8 + o % 8

/-- The offset of an address in the local stash window, if it lies there (R65). -/
def localOff (va : Word) : Option Nat :=
  match regionOf va with
  | .stash o => some o
  | _ => none

/-- Whether an address is a multiple of a size. -/
def aligned (va : Word) (n : Nat) : Bool := va.toNat % n == 0

/-! ### Groups (R17) -/

/-- The members of the group at a base. -/
def groupRegs (b : Reg) : List Reg := [b, b + 1#5, b + 2#5, b + 3#5]

/-- Issue waits until all of some registers are ready. -/
def needXs : List Reg → State → Except Stop Unit
  | [], _ => .ok ()
  | r :: rs, s => do
    needX r s
    needXs rs s

/-- The staged values of a group. -/
def stage (h : Hart) (b : Reg) : List Word := (groupRegs b).map h.rx

/-- Member k of staged values. -/
def member (g : List Word) (k : Nat) : Word := g.getD k 0#64

/-! ### Queues -/

/-- A queue as a handle sees it: stash offset of slot 0, log2 of its slot count, slot size, CONS, filled count, whether it is
a software queue or channel (its number), or a packet (R176, R254). -/
structure QView where
  base : Nat
  logn : Nat
  slotBytes : Nat
  cons : Nat
  filled : Nat
deriving DecidableEq, Repr

/-- Fields of a queue's configuration word (R141, R176). -/
def qBase (w : Word) : Nat := fieldOf w 25 10 * 64
def qLogn (w : Word) : Nat := fieldOf w 9 6
def qSlot (w : Word) : Nat := if w.getLsbD 5 then 64 else 8
def qEn (w : Word) : Bool := w.getLsbD 3

/-- R142: the size limits of a queue. -/
def qFits (w : Word) : Bool := 1 ≤ qLogn w && qLogn w ≤ 12 && qBase w + 2 ^ qLogn w * qSlot w ≤ 0x40000

/-- Channel `c` of a core. -/
def Core.chan (k : Core) (c : Nat) : Chan := Table.get Chan.reset k.chans c

/-- Software queue `i` of a core. -/
def Core.softq (k : Core) (i : Nat) : SoftQ := Table.get ⟨0, 0, 0⟩ k.soft i

/-- The core with a channel replaced. -/
def Core.setChan (k : Core) (c : Nat) (a : Chan) : Core := { k with chans := Table.set k.chans c a }

/-- The core with a software queue replaced. -/
def Core.setSoft (k : Core) (i : Nat) (a : SoftQ) : Core := { k with soft := Table.set k.soft i a }

/-- R145: the filled count. -/
def Chan.filled (c : Chan) : Nat := (c.prod - c.cons).toNat

/-- The queue of a binding. DESIGN CHOICE (notes/assumptions/88.md): a software queue whose EN is 0 acts as an enabled one. -/
def qview (s : State) (h : Nat) (b : Binding) : QView :=
  let k := s.core (h / 8)
  match b with
  | .chan c =>
    let a := k.chan c.toNat
    ⟨qBase a.w1, qLogn a.w1, qSlot a.w1, a.cons.toNat, a.filled⟩
  | .soft i _ =>
    let a := k.softq i.toNat
    ⟨qBase a.w1, qLogn a.w1, qSlot a.w1, a.cons.toNat, (a.prod - a.cons).toNat⟩
  | .packet => ⟨0, 0, 64, (s.hart h).packetCons, 1 - (s.hart h).packetCons⟩

/-- The stash offset of slot k from the oldest (R143, R177). -/
def QView.slotOff (q : QView) (k : Nat) : Nat := q.base + (q.cons + k) % 2 ^ q.logn * q.slotBytes

/-- The role of a binding. -/
def Binding.isProducer : Binding → Bool
  | .soft _ p => p
  | _ => false

/-- R178: the binding of a handle in the role an instruction needs, else QUNBOUND with the handle number. -/
def needBinding (q : QReg) (producer : Option Bool) (s : State) : Except Stop Binding :=
  match Table.find? s.me.handles q.toNat with
  | none => .error (.trap cQunbound (BitVec.ofNat 64 q.toNat))
  | some b => if producer.getD b.isProducer == b.isProducer then .ok b else .error (.trap cQunbound (BitVec.ofNat 64 q.toNat))

/-- R180: the slot of a queue operand: handle rs2[4:1], slot rs2[0]. -/
def qoperand (r : Reg) : QReg × Nat := (r.extractLsb' 1 4, r.toNat % 2)

/-- R180: the 512 bits of a queue operand, with the flags of the read (R229). -/
def readQOperand (r : Reg) (s : State) : Except Stop (VWord × Sticky × State) := do
  let (q, k) := qoperand r
  let b ← needBinding q (some false) s
  let v := qview s s.cur b
  let va := BitVec.ofNat 64 (v.slotOff k)
  check (v.slotBytes == 64) (.trap cMisalign va)
  check (k + 1 ≤ v.filled) (.wait .other)
  match b with
  | .packet => .ok (s.me.packet, 0#3, s)
  | _ =>
    let (p, s) ← reachStash s (ownerOf s s.myCore) s.myCore (v.slotOff k) (BitVec.ofNat 64 (stashBase + v.slotOff k)) accRead
    let g ← readPlace s s.cur (BitVec.ofNat 64 (stashBase + v.slotOff k)) p 64 false
    .ok (BitVec.ofNat 512 (leNat g.bytes), Sticky.when g.poison psn, g.st)

/-- A second vector source: a register, or a queue operand (R16, R180). -/
def readV2 (r : Reg) (q : Bool) (s : State) : Except Stop (VWord × Sticky × State) :=
  if q then readQOperand r s
  else do
    needV r s
    .ok (s.me.rv r, 0#3, s)

end Sys2Proof.Machine
end

