-- ==== Sys2Proof/Machine/Threads.lean ====
section
/-! DEFINITION. Threads in their slots: tags (R31), the departure table (R35 to R37), context images (R48), where a (slot, tag)
stands (R34), UNACK (R43, R44), starting a thread or an activation (R90 to R92, R147), saving and reloading (R49 to R51,
R79 to R82). -/

namespace Sys2Proof.Machine

/-! ### Bytes over lines -/

/-- Bytes from an address cut at 64-byte lines. -/
def cutLines : Nat → List Byte → List (Nat × List Byte)
  | _, [] => []
  | a, b :: bs =>
    match cutLines (a + 1) bs with
    | [] => [(a, [b])]
    | (c, cs) :: r => if (a + 1) % 64 = 0 then (a, [b]) :: (c, cs) :: r else (a, b :: cs) :: r

/-- Bytes written at their homes by another agent, over any number of lines. -/
def writeRange (s : State) (sm : Option Nat) (pa : Nat) (bs : List Byte) : State :=
  (cutLines pa bs).foldl (fun s c => storeHome s sm c.1 c.2) s

/-- Bytes of memory at their homes (not of a software-managed copy). -/
def readRange (s : State) (pa n : Nat) : List Byte := Memory.readBytes s.ms.mem pa n

/-- A little-endian number at its home. -/
def memNat (s : State) (pa n : Nat) : Nat := leNat (readRange s pa n)

/-- A little-endian number written at its home. -/
def setMemNat (s : State) (pa n v : Nat) : State := writeRange s none pa (leBytes n v)

/-! ### The save area (R308) -/

/-- R308: the bytes of the save area of a partition of `len` cores. -/
def areaSize (len : Nat) : Nat := 0x80000 * len + 0xC80000

/-- A place in a save area: the partition that acts on it, and the address (SAVEBASE is 64 bits wide, and the offsets of R308 never carry
out of the 72 bits kept for it). -/
def areaKey (p pa : Nat) : Nat := p * 2 ^ 72 + pa

/-- The physical address of a place in a save area. -/
def areaPa (at_ : Nat) : Nat := at_ % 2 ^ 72

/-- Whether a place lies in the save area of the partition that acts on it, in an online frame that this partition owns, as R308 asks.
Nothing else is reached through a save area (R1, notes/assumptions/56.md). -/
def areaBacked (s : State) (at_ : Nat) : Bool :=
  let p := at_ / 2 ^ 72
  let pa := areaPa at_
  let a := s.part p
  match paKind pa with
  | .lpddr f =>
    f ≤ Config.lastFrame && entryOnline (classEntry s.ms f) && entryPart (classEntry s.ms f) == p && a.len != 0 &&
      a.savebase.toNat ≤ pa && pa < a.savebase.toNat + areaSize a.len
  | _ => false

/-- Bytes written into a save area, line by line. -/
def saveWrite (s : State) (at_ : Nat) (bs : List Byte) : State :=
  (cutLines at_ bs).foldl (fun s c => if areaBacked s c.1 then storeHome s none (areaPa c.1) c.2 else s) s

/-- Bytes of one line of a save area; where it is not backed they read 0. -/
def saveRead (s : State) (at_ n : Nat) : List Byte :=
  if areaBacked s at_ then readRange s (areaPa at_) n else List.replicate n 0#8

/-- A little-endian number of a save area, read and written. -/
def saveNat (s : State) (pa n : Nat) : Nat := leNat (saveRead s pa n)
def setSaveNat (s : State) (pa n v : Nat) : State := saveWrite s pa (leBytes n v)

/-- Words written one after the other into a save area. -/
def saveWords (s : State) (pa : Nat) (ws : List Word) : State := saveWrite s pa (ws.flatMap fun w => leBytes 8 w.toNat)

/-! ### The departure table (R35 to R37) -/

/-- Entry k of a core. -/
def Core.depAt (k : Core) (i : Nat) : Dep := Table.get Dep.free k.dep i

/-- DEPGRACE as it acts, in nanoseconds (R37). -/
def Core.grace (k : Core) : Nat :=
  let g := k.depgrace.toNat
  (if g = 0 then 1 else if 1000000 < g then 1000000 else g) * 1000

/-- R36: TIME − STAMP modulo 2^32 exceeds DEPGRACE. -/
def depExpired (s : State) (k : Core) (e : Dep) : Bool :=
  (e.state == 2 || e.state == 3) && k.grace < (s.time.setWidth 32 - e.stamp).toNat

/-- A live entry. -/
def depLive (s : State) (k : Core) (e : Dep) : Bool := e.state != 0 && !depExpired s k e

/-- The numbers of the 64 entries. -/
def depSlots : List Nat := List.range 64

/-- The live entry of a hart and tag. -/
def findDep (s : State) (core hart : Nat) (tag : BitVec 16) : Option Nat :=
  let k := s.core core
  depSlots.find? fun i =>
    let e := k.depAt i
    depLive s k e && e.hart == hart && e.tag == tag

/-- The oldest moved or exited entry, by age modulo 2^32. -/
def oldestDep (s : State) (k : Core) : Option Nat :=
  depSlots.foldl (fun (r : Option Nat) i =>
    let e := k.depAt i
    if e.state = 2 ∨ e.state = 3 then
      match r with
      | none => some i
      | some j => if (s.time.setWidth 32 - (k.depAt j).stamp).toNat < (s.time.setWidth 32 - e.stamp).toNat then some i else r
    else r) none

/-- R36: the entry a new one takes: a free one, else the oldest moved or exited one. -/
def depRoom (s : State) (core : Nat) : Option Nat :=
  let k := s.core core
  match depSlots.find? fun i => !depLive s k (k.depAt i) with
  | some i => some i
  | none => oldestDep s k

/-- The place of the image that an entry names. -/
def depImage (s : State) (core i : Nat) : Nat := areaKey ((s.core core).depAt i).part ((s.core core).depAt i).place.toNat

/-- An entry written. -/
def setDep (s : State) (core i : Nat) (e : Dep) : State :=
  let k := s.core core
  s.setCore core { k with dep := Table.set k.dep i e }

/-- R36: a moved or exited entry made, if there is room. -/
def addDep (s : State) (core : Nat) (e : Dep) : State :=
  match depRoom s core with
  | some i => setDep s core i e
  | none => s

/-- An entry freed. -/
def freeDep (s : State) (core i : Nat) : State := setDep s core i Dep.free

/-! ### Tags (R31) -/

/-- The next counter value: 0 is skipped. -/
def tagSucc (t : BitVec 16) : BitVec 16 := if t + 1 = 0#16 then 1#16 else t + 1

/-- R31: the next tag of a slot; values held by live departure entries of the hart are skipped. -/
def nextTagFrom (s : State) (h : Nat) : Nat → BitVec 16 → BitVec 16
  | 0, t => t
  | n + 1, t => if (findDep s (h / 8) (h % 8) t).isSome then nextTagFrom s h n (tagSucc t) else t

/-- The tag of the next thread or activation of a slot. -/
def nextTag (s : State) (h : Nat) : BitVec 16 := nextTagFrom s h 64 (tagSucc (s.hart h).tagCtr)

/-! ### Context images (R48) -/

/-- R308: the place of a slot's image frame: the partition of its core and SAVEBASE; none = no partition. -/
def imageFrame (s : State) (h : Nat) : Option Nat :=
  if h / 8 < 1024 then
    match tenantOf s (h / 8) with
    | some p =>
      let a := s.part p
      some (a.savebase.toNat + 0x80000 * (hposOf (h / 8) - a.base) + 0x1000 * (h % 8))
    | none => none
  else none

/-- R79: the frame is an online class P frame owned by the partition of the target's core. -/
def imageBacked (s : State) (h : Nat) : Bool :=
  match imageFrame s h, tenantOf s (h / 8) with
  | some pa, some p =>
    match paKind pa with
    | .lpddr f => f ≤ Config.lastFrame && entryOnline (classEntry s.ms f) && entryClass (classEntry s.ms f) == 2 &&
        entryPart (classEntry s.ms f) == p
    | _ => false
  | _, _ => false

/-- The dwords of LANDST (R46). -/
def Hart.landst (h : Hart) : Word := BitVec.ofNat 64 (h.landMiss.toNat * 256 + h.landCode.toNat)

/-- R156: the saved form of a binding. -/
def bindingWord (b : Option Binding) : Nat :=
  match b with
  | some (.chan c) => 2 ^ 63 + c.toNat
  | some (.soft i p) => 2 ^ 63 + (if p then 512 else 0) + 256 + i.toNat
  | _ => 0

/-- The state word of an image. -/
def stateWord (a : Hart) (h : Nat) (released : Bool) : Nat :=
  a.tag.toNat + h % 8 * 2 ^ 16 + (if a.refusal then 2 ^ 19 else 0) + (if released then 2 ^ 20 else 0) + a.mode.code * 2 ^ 21

/-- The dwords of an image from 0x000 to 0x1FF. -/
def imageLow (a : Hart) (h : Nat) : List Nat :=
  [stateWord a h false] ++ (List.range 31).map (fun i => (a.rx (BitVec.ofNat 5 (i + 1))).toNat) ++
    [(a.xready ||| 1#32).toNat + a.vready.toNat * 2 ^ 32, a.pc.toNat, a.vtype.toNat, a.unack, a.landst.toNat, a.landLoc.toNat,
      a.landCnt.toNat, a.utvec.toNat, a.uepc.toNat, a.ucause.toNat, a.utval.toNat, a.udeleg.toNat] ++
    (List.range 8).map (fun i => (a.st i).toNat) ++ (List.range 8).map (fun i => (Table.get 0#64 a.pmc i).toNat) ++
    [a.pmsel.toNat, a.heldCause.toNat, a.heldTval.toNat, a.rclass.toNat]

/-- The bytes of the whole image; copy and matrix records are zero. -/
def imageBytes (a : Hart) (h : Nat) : List Byte :=
  (imageLow a h).flatMap (leBytes 8) ++ (List.range 32).flatMap (fun i => leBytes 64 (a.rv (BitVec.ofNat 5 i)).toNat) ++
    (List.range 8).flatMap (fun i => leBytes 8 (a.rm (BitVec.ofNat 3 i)).toNat) ++
    (List.range 16).flatMap (fun i => leBytes 16 (bindingWord (Table.find? a.handles i))) ++
    List.replicate 384 0#8 ++
    [a.status, a.sregs.cause, a.sregs.epc, a.sregs.tval, a.sregs.tvec, a.sregs.scratch, a.tdeleg].flatMap
      (fun w => leBytes 8 w.toNat) ++ List.replicate 776 0#8

/-- R177: whether QCFG would accept a binding's fields. -/
def bindingOk (w : Nat) : Bool :=
  let kind := w / 256 % 2
  let role := w / 512 % 2
  let idx := w % 64
  w / 1024 == 0 && w / 64 % 4 == 0 && !(kind == 1 && 15 < idx) && !(kind == 0 && role == 1) && !(kind == 0 && idx == 0)

/-- The binding of a descriptor (R177). -/
def bindingOf (w : Nat) : Binding :=
  if w / 256 % 2 = 1 then .soft (BitVec.ofNat 4 w) (w / 512 % 2 == 1) else .chan (BitVec.ofNat 6 w)

/-- R97: the bits of an STMAP register that are not reserved. -/
def stmapMask (k : Nat) (v : Word) : Word := if k % 2 = 0 then v &&& 0x00FFFFFFFFFFF000#64 else v &&& 0x8000000000003F3F#64

/-- A dword of an image. -/
def imgWord (s : State) (pa off : Nat) : Word := BitVec.ofNat 64 (saveNat s (pa + off) 8)

/-- R80, R50: the hart with the state of an image, everything the image does not hold kept; a reserved bit of a register, bit 0 of
the PC among them, stays 0 whatever the image holds (R13, R157). -/
def loadImage (s : State) (pa : Nat) (a : Hart) : Hart :=
  let w := imgWord s pa
  let st := (w 0).toNat
  { a with
    x := (List.range 31).foldl (fun t i => Table.set t (i + 1) (w (8 * (i + 1)))) []
    v := (List.range 32).foldl (fun t i => Table.set t i (BitVec.ofNat 512 (saveNat s (pa + 0x200 + 64 * i) 64))) []
    m := (List.range 8).foldl (fun t i => Table.set t i (w (0xA00 + 8 * i))) []
    xready := BitVec.ofNat 32 (saveNat s (pa + 0x100) 4) ||| 1#32
    vready := BitVec.ofNat 32 (saveNat s (pa + 0x104) 4)
    refusal := st.testBit 19
    mode := Mode.ofCode (st / 2 ^ 21 % 4)
    pc := evenBits (w 0x108)
    vtype := (w 0x110).extractLsb' 0 3
    unack := (w 0x118).toNat % 1024
    landCode := (w 0x120).extractLsb' 0 3
    landMiss := (w 0x120).extractLsb' 8 8
    landLoc := w 0x128
    landCnt := w 0x130
    utvec := evenBits (w 0x138)
    uepc := evenBits (w 0x140)
    ucause := w 0x148 &&& 0xFF#64
    utval := w 0x150
    udeleg := w 0x158 &&& 0xC000000001FFFFFF#64
    stmap := (List.range 8).foldl (fun t i => Table.set t i (stmapMask i (w (0x160 + 8 * i)))) []
    pmc := (List.range 8).foldl (fun t i => Table.set t i (w (0x1A0 + 8 * i))) []
    pmsel := w 0x1E0
    heldCause := w 0x1E8 &&& 0xFF#64
    heldTval := w 0x1F0
    rclass := w 0x1F8 &&& 0x703#64
    handles := (List.range 16).foldl (fun t i =>
      let b := (w (0xA40 + 16 * i)).toNat
      if b.testBit 63 && bindingOk (b % 2 ^ 63) then Table.set t i (bindingOf b) else t) []
    status := w 0xCC0 &&& 0x31#64
    sregs := ⟨w 0xCC8 &&& 0xFF#64, evenBits (w 0xCD0), w 0xCD8, evenBits (w 0xCE0), w 0xCE8⟩
    tdeleg := w 0xCF0 &&& 0x1FFFFFF#64
    stall := none
    blk := .whole
    idle := false
    yielded := false }

/-- R42: whether the image records a release landing. -/
def imgReleased (s : State) (pa : Nat) : Bool := (imgWord s pa 0).getLsbD 20

/-! ### Where a (slot, tag) stands (R34) -/

/-- What the landing port finds for a slot and tag. -/
inductive Found where
  | resident (h : Nat)
  /-- saved: its slot and tag, and the place of its image -/
  | saved (h : Nat) (tag : BitVec 16) (pa : Nat)
  | moved (loc : Word)
  | exited
  | nothing
deriving DecidableEq, Repr

/-- R38: a resident occupant first, then a departure entry. -/
def findSlot (s : State) (core hart : Nat) (tag : BitVec 16) : Found :=
  let a := s.hart (slotOf core hart)
  if tag ≠ 0 ∧ a.running ∧ a.tag = tag then .resident (slotOf core hart)
  else
    match findDep s core hart tag with
    | none => .nothing
    | some i =>
      let e := (s.core core).depAt i
      if e.state = 1 then .saved (slotOf core hart) tag (areaKey e.part e.place.toNat)
      else if e.state = 2 then .moved e.place
      else .exited

/-- R44: where an acknowledgement reaches its thread: forwarded over at most two moves. -/
def followSlot (s : State) : Nat → Nat → Nat → BitVec 16 → Found
  | 0, core, hart, tag => match findSlot s core hart tag with
    | .moved _ => .nothing
    | r => r
  | n + 1, core, hart, tag => match findSlot s core hart tag with
    | .moved l => match locCore l with
      | some c => followSlot s n c (locHart l) (locTag l)
      | none => .nothing
    | r => r

/-- The thread or activation of a slot number and tag, wherever it is now. -/
def whereIs (s : State) (h : Nat) (tag : BitVec 16) : Found := followSlot s 2 (h / 8) (h % 8) tag

/-- A saved thread, beside its image, changed: in its slot while that stands, else among what slice end keeps, found by its image
(R49, R308). -/
def onSaved (s : State) (h : Nat) (tag : BitVec 16) (pa : Nat) (f : Hart → Hart) : State :=
  let a := s.hart h
  if a.tag = tag ∧ (a.slot = .parked ∨ a.slot = .sliced) then s.setHart h (f a)
  else
    let one := fun (k : Nat) (c : SavedCore) =>
      { c with harts := Table.mapVals c.harts fun j b =>
          if b.tag = tag ∧ areaKey (k / 1024) ((s.part (k / 1024)).savebase.toNat + 0x80000 * (k % 1024) + 0x1000 * j) = pa then f b
          else b }
    { s with plat := { s.plat with saved := Table.mapVals s.plat.saved one } }

/-- What a saved thread is beside its image, where `onSaved` finds it. -/
def savedThread (s : State) (h : Nat) (tag : BitVec 16) (pa : Nat) : Option Hart :=
  let a := s.hart h
  if a.tag = tag ∧ (a.slot = .parked ∨ a.slot = .sliced) then some a
  else s.plat.saved.findSome? fun e =>
    (List.find? (fun (b : Nat × Hart) => b.2.tag == tag &&
      areaKey (e.1 / 1024) ((s.part (e.1 / 1024)).savebase.toNat + 0x80000 * (e.1 % 1024) + 0x1000 * b.1) == pa) e.2.harts).map (·.2)

/-- A thread or activation changed wherever it is now, beside its image. -/
def onThread (s : State) (h : Nat) (tag : BitVec 16) (f : Hart → Hart) : State :=
  match whereIs s h tag with
  | .resident r => s.setHart r (f (s.hart r))
  | .saved k t pa => onSaved s k t pa f
  | _ => s

/-! ### Counts of shared events (R310) -/

/-- A shared event counted into its thread's PMC, wherever the thread is (R44, R310). -/
def countAt (s : State) (h : Nat) (tag : BitVec 16) (code n : Nat) : State :=
  if n = 0 then s
  else
    match whereIs s h tag with
    | .resident r => s.setHart r ((s.hart r).count code n)
    | .saved _ _ pa =>
      let sel := imgWord s pa 0x1E0
      (List.range 8).foldl (fun s k =>
        if pmEvent sel k = code then setSaveNat s (pa + 0x1A0 + 8 * k) 8 (saveNat s (pa + 0x1A0 + 8 * k) 8 + n) else s) s
    | _ => s

/-! ### UNACK (R43) -/

/-- R43, R44: one counted operation of a thread ends. -/
def lowerUnack (s : State) (h : Nat) (tag : BitVec 16) : State :=
  match whereIs s h tag with
  | .resident r => s.setHart r { s.hart r with unack := (s.hart r).unack - 1 }
  | .saved _ _ pa => setSaveNat s (pa + 0x118) 8 ((saveNat s (pa + 0x118) 8) - 1)
  | _ => s

/-- R43: an instruction that would raise COUNT to 1,024 waits at issue. -/
def needCount (s : State) : Except Stop Unit := check (s.me.unack < 1023) (.wait .count)

/-- COUNT + 1. -/
def Hart.countUp (h : Hart) : Hart := { h with unack := h.unack + 1 }

/-! ### Starting a thread or an activation -/

/-- The hart of a starting thread or activation: every register 0 and ready, the U- and S-level CSRs at their start values
(R90, R147, R157). EBUDGET, which goes to a hart, stays pending (R294). The H and M trap registers, which no image holds, stay with the hart; so do its send queues and, for
handler harts, TDELEG (notes/assumptions/14.md). -/
def freshHart (a : Hart) (tag : BitVec 16) (slot : Slot) : Hart :=
  { Hart.reset with
    tagCtr := tag
    tag := tag
    slot := slot
    hstatus := a.hstatus
    hregs := a.hregs
    mstatus := a.mstatus
    mregs := a.mregs
    tdeleg := a.tdeleg
    reqd := a.reqd
    repd := a.repd
    sendq := a.sendq
    pend := a.pend.filter (fun p => p.1 == cEbudget)
    startTrap := (a.hstatus, a.hregs, a.mstatus, a.mregs) }

/-- A slot given back: free, or reserved for the launch that has taken it while it was lent (R146); its tag counter and send queues
kept; an activation's H and M trap state returns to its values at activation start (R173). -/
def freedHart (a : Hart) : Hart :=
  let b := freshHart a a.tagCtr (match a.heldFor with | some l => .reserved l | none => .free)
  let b := { b with tag := 0, asid := a.asid, ptroot := a.ptroot, vmid := a.vmid, s2root := a.s2root }
  if a.isActivation then
    { b with hstatus := a.startTrap.1, hregs := a.startTrap.2.1, mstatus := a.startTrap.2.2.1, mregs := a.startTrap.2.2.2 }
  else b

/-- The slot of an ended thread or activation: free, its waiting role taken (R27). -/
def freeSlot (s : State) (h : Nat) : State := settleRole (s.setHart h (freedHart (s.hart h))) h

/-! ### The end of a stash window (R98) -/

/-- R98: a window's lines written back (their words' values stand at the home) and dropped. -/
def dropWindow (ms : MemSys) (holder : Nat) : MemSys :=
  { ms with copies := Table.keep ms.copies fun k _ => k / 2 ^ 50 != holder,
            owners := Table.keep ms.owners fun _ o => o != holder }

/-- Whether a holder has filled a line or owns a word of it. -/
def holdsLine (ms : MemSys) (holder key : Nat) : Bool :=
  (Table.find? ms.copies (copyKey holder key)).isSome ||
    (List.range 8).any fun w => Table.find? ms.owners (key * 8 + w) == some holder

/-- The byte of a window line that its stash bytes hold: the window's view, or what an invalidated word last was. -/
def lastByte (ms : MemSys) (holder : Nat) (sm : Option Nat) (pa : Nat) : Byte :=
  let key := homeKey sm (lineOf pa)
  if Table.find? ms.owners (wordKey key pa) == some holder then homeByte ms sm pa
  else match Table.find? ms.copies (copyKey holder key) with
    | some c => byteAt c.data (pa % 64)
    | none => homeByte ms sm pa

/-- R98: the stash bytes of a line keep the line's last value as plain scratchpad. -/
def keepLine (ms : MemSys) (holder : Nat) (sm : Option Nat) (pa idx : Nat) : MemSys :=
  if holdsLine ms holder (homeKey sm (lineOf pa)) then
    stashWrite ms idx ((List.range 64).map fun i => lastByte ms holder sm (pa + i))
  else ms

/-- The lines of one 4 KiB unit of a window kept. -/
def keepUnit (s : State) (h k off : Nat) : State :=
  let a := s.hart h
  match translate s.ms (h / 8) a.tctx (windowVa a k off) accRead with
  | .error _ => s
  | .ok (p, _) =>
    let one := fun ms j => keepLine ms (windowHolder (h / 8) (h % 8) k) (smDie (h / 8) p.pa p.sm) (p.pa + 64 * j)
      (stashIdx (h / 8) (off + 64 * j))
    { s with ms := (List.range 64).foldl one s.ms }

/-- R98: window k of a hart ends: its lines are written back and dropped, its stash bytes keep their last values. -/
def closeWindow (s : State) (h k : Nat) : State :=
  let e := (s.hart h).st (2 * k + 1)
  let holder := windowHolder (h / 8) (h % 8) k
  if stmapEn e then
    let s := (List.range (stmapLen e + 1)).foldl (fun s u => keepUnit s h k ((stmapOff e + u) * 4096)) s
    { s with ms := dropWindow s.ms holder }
  else s

end Sys2Proof.Machine
end

