-- ==== Sys2Proof/Machine/Stores.lean ====
section
/-! DEFINITION. Stores: on their way to their homes (R99, R106), through the side log (R64, R163), into a V launch's shadows
(R292), the wait of a release (R108), and the publishing of signatures (R100, R102). -/

namespace Sys2Proof.Machine

/-! ### Shadows of V launches (R292) -/

/-- One store added to a copy's signature: lane a of the hash of VA and data, the data in words of eight bytes, finished with the
size. -/
def storeSig (va : Word) (bs : List Byte) : Word :=
  (chicory128 (va :: runWords bs ++ [BitVec.ofNat 64 bs.length])).1

/-- The signature of a copy with a store added. -/
def VRun.add (v : VRun) (second : Bool) (w : Word) : VRun :=
  if second then { v with sigB := v.sigB + w } else { v with sigA := v.sigA + w }

/-- Whether a copy has a shadow of the page of a physical address. -/
def hasShadow (ms : MemSys) (l : Nat) (b : Bool) (pa : Nat) : Bool :=
  (Table.get [] ms.shadows (shadowKey l b)).any fun e => e.1 / 64 == pa / 4096

/-- Bytes of one line put into a copy's shadow frame; a block held as poison stays poison until all of it is written (R289). -/
def shadowBytes (ms : MemSys) (l : Nat) (b : Bool) (pa : Nat) (bs : List Byte) : MemSys :=
  let k := shadowKey l b
  let bad := (viewState ms (some (l, b)) (.mem pa none false 0 false) (if isPoison ms (lineOf pa) then .poisoned else .clean)) == .poisoned
  if bad && !wholeLine pa bs then ms
  else
    { ms with
      shadows := Table.set ms.shadows k
        ((List.range bs.length).foldl (fun t i => Table.set t (lineOf (pa + i))
            (withByte (Table.get (homeLine ms none (lineOf (pa + i))) t (lineOf (pa + i))) ((pa + i) % 64) (bs.getD i 0#8)))
          (Table.get [] ms.shadows k))
      shadowPoison := if wholeLine pa bs then
          Table.set ms.shadowPoison k ((Table.get [] ms.shadowPoison k).filter (· != lineOf pa)) else ms.shadowPoison }

/-- A block of a copy's shadows held as poison (R296). -/
def shadowMark (ms : MemSys) (l : Nat) (b : Bool) (line : Nat) : MemSys :=
  let k := shadowKey l b
  let old := Table.get [] ms.shadowPoison k
  { ms with shadowPoison := Table.set ms.shadowPoison k (if old.contains line then old else line :: old) }

/-- R292: a performed store of a copy added to its signature; `k` is the copy, none outside V launches. -/
def signStore (s : State) (k : Option (Nat × Bool)) (va : Word) (bs : List Byte) : State :=
  match k with
  | none => s
  | some (l, b) =>
    match Table.find? s.lch.live l with
    | some a => (match a.ver with
      | some v => { s with lch := { s.lch with live := Table.set s.lch.live l { a with ver := some (v.add b (storeSig va bs)) } } }
      | none => s)
    | none => s

/-- A store of a copy put into its shadows and into its signature. -/
def shadowWrite (s : State) (l : Nat) (b : Bool) (va : Word) (pa : Nat) (bs : List Byte) : State :=
  signStore { s with ms := shadowBytes s.ms l b pa bs } (some (l, b)) va bs

/-- R292: the lines of the page of an address as its shadow frame first holds them, in a software-managed page those of the writer's die;
a line that a read would meet as uncorrectable is left to be read at its home (R288). -/
def pageLines (ms : MemSys) (sm : Option Nat) (pa : Nat) : List (Nat × VWord) :=
  (List.range 64).filterMap fun i =>
    let line := pa / 4096 * 64 + i
    if lineState ms sm (line * 64) == .uncorr then none else some (line, homeLine ms sm line)

/-- R292: a store of a V copy to a page, for a partition: VEFFECT for frames of class U or D; the first one draws a frame of
the partition's pool, which takes the page's content. -/
def shadowPage (s : State) (part : Option Nat) (ea : Word) (k : Nat × Bool) (sm : Option Nat) (pa : Nat) : Except Stop State :=
  if classOf s.ms pa ≠ 2 then .error (.trapAcc accWrite cVeffect ea)
  else if hasShadow s.ms k.1 k.2 pa then .ok s
  else
    match part with
    | none => .error .poolEmpty
    | some p =>
      let n := Table.get 0 s.ms.shadowPool p
      if n = 0 then .error .poolEmpty
      else
        let key := shadowKey k.1 k.2
        let ls := pageLines s.ms sm pa
        let t := ls.foldl (fun t e => Table.set t e.1 e.2) (Table.get [] s.ms.shadows key)
        let bad := (ls.filter fun e => lineState s.ms sm (e.1 * 64) == .poisoned).map (·.1)
        .ok { s with ms := { s.ms with
          shadowPool := Table.set s.ms.shadowPool p (n - 1), shadows := Table.set s.ms.shadows key t
          shadowPoison := Table.set s.ms.shadowPoison key (bad ++ Table.get [] s.ms.shadowPoison key) } }

/-! ### Blocks that are poison (R289, R296) -/

/-- A block of a place marked as poison, or written with its pattern in class U (R289, R296). -/
def engPoison (s : State) (p : Place) : State × Sticky :=
  match p with
  | .stash i =>
    let b := i / 64
    let ms := { s.ms with stash := Memory.writeBlock s.ms.stash (b * 64) poisonBlock,
                          stashPoison := if s.ms.stashPoison.contains b then s.ms.stashPoison else b :: s.ms.stashPoison }
    ({ s with ms := ms }, 0#3)
  | .mem pa sm _ _ _ =>
    let s := storeHome s sm (lineOf pa * 64) (leBytes 64 poisonBlock.toNat)
    if classOf s.ms pa = 0 then (s, psn) else ({ s with ms := markPoison s.ms (poisonKey s.ms sm (lineOf pa)) }, 0#3)

/-! ### Performing a store -/

/-- R100: the line of a written address joins the current signature of the thread that wrote it, resident or saved. -/
def noteWritten (s : State) (h : Nat) (tag : BitVec 16) (pa : Nat) : State :=
  onThread s h tag fun a => { a with sigCur := sigInsert a.sigCur (lineOf pa) }

/-- R110: the line of a synchronisation write joins the hart's signature, so that its later releases cover the write. -/
def noteSync (s : State) (h : Nat) (p : Place) : State :=
  match p with
  | .mem pa _ _ _ _ => noteWritten s h (s.hart h).tag pa
  | .stash _ => s

/-- R110: after a write of a hart at the home of a line its core holds no older copy of the words. -/
def dropOlder (s : State) (core : Nat) (sm : Option Nat) (pa n : Nat) : State :=
  { s with ms := dropWords s.ms core (.mem pa sm false 0 false) n }

/-- R310: a store that the home L2 slice has registered counts in its thread; none is made there where the core owns every word. -/
def registerCount (s : State) (owned : Bool) (h : Nat) (tag : BitVec 16) : State := countAt s h tag evL2 (if owned then 0 else 1)

/-- A store performed where its place says (R99, R106). -/
def performAt (s : State) (st : Store) : State :=
  match st.place, st.shadow with
  | .remoteStash _, k =>
    lowerUnack (signStore { s with ms := stashWrite s.ms st.pa st.bytes } k st.va st.bytes) st.hart st.tag
  | _, some (l, b) => countAt (shadowWrite s l b st.va st.pa st.bytes) st.hart st.tag evL2 1
  | place, none =>
    match place with
    | .home sm (some holder) =>
      registerCount (noteWritten (storeOwned s sm holder st.pa st.bytes) st.hart st.tag st.pa)
        (ownsAll s.ms holder sm st.pa st.bytes.length) st.hart st.tag
    | .home sm none => countAt (dropOlder (storeHome s sm st.pa st.bytes) (st.hart / 8) sm st.pa st.bytes.length) st.hart st.tag evL2 1
    | .remoteStash _ => s
    | .host => writeAt s none st.pa st.bytes

/-- Whether two stores of one thread are performed in program order: they write a common byte (R110), or are lanes of one vector store
(R229). -/
def Store.clashes (a b : Store) : Bool :=
  a.hart == b.hart && a.tag == b.tag &&
    ((a.pa < b.pa + b.bytes.length && b.pa < a.pa + a.bytes.length) || (a.group.isSome && a.group == b.group))

/-- The stores of a list, oldest first, that are performed before a store: those it clashes with, those that these clash with, and so
on. -/
def storesBefore (l : List Store) (st : Store) : List Store :=
  l.foldr (fun e r => if e.clashes st || r.any e.clashes then e :: r else r) []

/-- One store performed and no longer pending. -/
def performOne (s : State) (st : Store) : State :=
  performAt { s with ms := { s.ms with stores := s.ms.stores.filter (·.id != st.id) } } st

/-- Store `id` is performed, after the earlier ones of its thread that come before it. -/
def performStore (s : State) (id : Nat) : State :=
  match s.ms.stores.find? (·.id == id) with
  | none => s
  | some st => performOne ((storesBefore (s.ms.stores.filter (·.id < id)) st).foldl performOne s) st

/-- R82: every store of a thread performed at once, when it is saved or moved. -/
def performOwn (s : State) (h : Nat) : State :=
  let mine := s.ms.stores.filter fun st => st.hart == h && st.tag == (s.hart h).tag
  mine.foldl (fun s st => performStore s st.id) s

/-- R98: window k of a hart ends, after the stores on their way through it. -/
def endWindow (s : State) (h k : Nat) : State :=
  let holder := windowHolder (h / 8) (h % 8) k
  let through := s.ms.stores.filter fun st => match st.place with
    | .home _ o => o == some holder
    | _ => false
  closeWindow (through.foldl (fun s st => performStore s st.id) s) h k

/-- R98: every window of a hart ends. -/
def endWindows (s : State) (h : Nat) : State := (List.range 4).foldl (fun s k => endWindow s h k) s

/-- The VMID a store is translated under: through a window, that of the thread that owns the window (R77, R98). -/
def placeVmid (s : State) (h : Nat) (place : StorePlace) : BitVec 6 :=
  match place with
  | .home _ (some o) => if isWindow o then (s.hart (slotOf (o / 64) ((o % 64 - 1) / 4))).vmid else (s.hart h).vmid
  | _ => (s.hart h).vmid

/-- A store not performed yet (R66, R99). -/
def addStore (s : State) (h : Nat) (va : Word) (pa : Nat) (bs : List Byte) (place : StorePlace)
    (shadow : Option (Nat × Bool)) : State :=
  let st : Store := ⟨s.nextId, h, (s.hart h).tag, va, pa, bs, place, placeVmid s h place, shadow, none⟩
  { s with nextId := s.nextId + 1, ms := { s.ms with stores := s.ms.stores ++ [st] } }

/-- A store set on its way. -/
def sendStore (s : State) (h : Nat) (va : Word) (pa : Nat) (bs : List Byte) (place : StorePlace)
    (shadow : Option (Nat × Bool)) : State :=
  (addStore s h va pa bs place shadow).fly
    (match place with | .remoteStash _ => .remoteStashWrite s.nextId | _ => .storePerformed s.nextId)

/-! ### Read-mostly lines (R104) -/

/-- R104: a store or an AMO to a read-mostly line collapses its replicas and is tried again once they are gone. -/
def needCollapsed (s : State) (p : Place) : Except Stop Unit :=
  match p with
  | .mem pa _ _ _ true =>
    if replicated s.ms (lineOf pa) then .error (.again { s with ms := collapse s.ms (lineOf pa) }) else .ok ()
  | _ => .ok ()

/-! ### The wait of a release (R108) -/

/-- Whether the hart has a store not yet performed (R106). -/
def hasOwnStore (s : State) (h : Nat) : Bool := s.ms.stores.any fun st => st.hart == h && st.tag == (s.hart h).tag

/-- Whether a side-log entry of the hart waits to be replayed (R64). -/
def hasOwnLog (s : State) (h : Nat) : Bool := (s.core (h / 8)).sidelog.any fun e => e.hart == h && e.tag == (s.hart h).tag

/-- R77, R126: the earlier stores of the issuing hart performed, those of its side log replayed. -/
def needStored (s : State) : Except Stop Unit := check (!hasOwnStore s s.cur && !hasOwnLog s s.cur) (.wait .other)

/-- R108: earlier loads returned, earlier stores performed, UNACK 0. -/
def needRelease (s : State) : Except Stop Unit :=
  let kind : Stall := if s.me.unack = 0 then .other else .unack
  check (s.me.loads.isEmpty && !hasOwnStore s s.cur && s.me.unack == 0) (.wait kind)

/-- R101: what an acquire that receives a signature invalidates in a core. -/
def acquireAs (s : State) (core : Nat) (sig : Sig) : State :=
  { s with ms := if sig.all then dropUnowned s.ms core else acquireAt s.ms core s.gen sig }

/-- R108: an acquire after every earlier release: a release of this model is performed when it retires. -/
def applySig (s : State) (core h : Nat) (sig : Sig) : State :=
  let s := acquireAs s core sig
  s.setHart h ((s.hart h).inherit sig)

/-- R107, R109: the acquire of a thread back in its slot: of all where a release landed in its image (R42), else of its own earlier
writes, which its core must not hide by older copies; its later releases pass it on (R100, R109). -/
def acquireBack (s : State) (h : Nat) (released : Bool) : State :=
  if released then applySig s (h / 8) h sigAll else acquireAs s (h / 8) (s.hart h).releaseSig

/-! ### The side log (R64, R163) -/

/-- A scalar store or a reduction enters the log: UNACK counts it (R43). -/
def logStore (s : State) (h : Nat) (va rep : Word) (bs : List Byte) (fid : Option Nat) (rel : Option Sig) : State :=
  let a := s.hart h
  let c := s.core (h / 8)
  let e : LogEntry := ⟨s.nextId, h, a.tag, va, rep, bs, a.tctx, ownerOf s (h / 8), fid, rel, a.vcopy⟩
  let s := { s with nextId := s.nextId + 1 }
  (s.setCore (h / 8) { c with sidelog := c.sidelog ++ [e] }).setHart h a.countUp

/-- Room in the log for a 33rd entry, and in UNACK. -/
def needLogRoom (s : State) (h : Nat) : Except Stop Unit := do
  check ((s.core (h / 8)).sidelog.length < 32) (.wait .other)
  check ((s.hart h).unack < 1023) (.wait .count)

/-- The entries of the thread of an entry, oldest first. -/
def ownLog (s : State) (core : Nat) (e : LogEntry) : List LogEntry :=
  (s.core core).sidelog.filter fun k => k.hart == e.hart && k.tag == e.tag

/-- An entry leaves the log; the next one of its thread, if it waits on nothing, is replayed. -/
def dropLog (s : State) (core : Nat) (e : LogEntry) : State :=
  let c := s.core core
  let s := s.setCore core { c with sidelog := c.sidelog.filter fun k => k.id != e.id }
  match (ownLog s core e).head? with
  | some n => if n.fid.isNone then s.fly (.sideLogReplay core n.id) else s
  | none => s

/-- ACCESS of a store, pending for its thread where it now is, resident or saved (R64). -/
def pendAccess (s : State) (h : Nat) (tag : BitVec 16) (va : Word) : State :=
  onThread s h tag fun a => { a with pend := a.pend ++ [(cAccess, va)], idle := false }

/-- A page fault record of a scalar store, whose resolution goes to its log entry (R162, R164). -/
def faultLog (s : State) (h : Nat) (va rep addr : Word) (stage : Nat) (bs : List Byte) (rel : Option Sig) : State :=
  let a := s.hart h
  let id := s.nextId + 1
  let r := mkRecord s (h / 8) addr 0x05 stage accWrite 0 (h % 8) a.tctx true (.log (h / 8) id)
  let s := addRecord s r
  logStore s h va rep bs (some r.fid) rel

/-! ### A scalar or lane store once its address has passed its checks -/

/-- Where a store goes, once reached: performed in the local stash at once, at its home before it retires where the page is
read-mostly (R104), else on its way. -/
def storeTo (s : State) (h : Nat) (va : Word) (p : Place) (bs : List Byte) : Except Stop State :=
  match p with
  | .stash i => .ok (signStore { s with ms := stashWrite s.ms i bs } (s.hart h).vcopy va bs)
  | .mem pa sm nc holder rm =>
    match (s.hart h).vcopy with
    | some k => do
      let s ← shadowPage s (ownerOf s (h / 8)) va k sm pa
      .ok (sendStore s h va pa bs (.home sm none) (some k))
    | none =>
      if isHost pa then .ok (sendStore s h va pa bs .host none)
      else if rm then do
        needCollapsed s p
        .ok (performStore (addStore s h va pa bs (.home sm (some holder)) none) s.nextId)
      else .ok (sendStore s h va pa bs (.home sm (if nc then none else some holder)) none)

/-- R229: the lanes of vector store `g` that are on their way performed: a later lane is performed at once. -/
def performGroup (s : State) (g : Nat) : State :=
  (s.ms.stores.filter (·.group == some g)).foldl (fun s st => performStore s st.id) s

/-- A number for a vector store that none on its way has. -/
def freshGroup (l : List Store) : Nat := l.foldl (fun n st => Nat.max n (st.group.getD 0 + 1)) 0

/-- R229: the stores on their way but for the first n are lanes of vector store `g`. -/
def groupStores (s : State) (n g : Nat) : State :=
  { s with ms := { s.ms with
      stores := s.ms.stores.take n ++ (s.ms.stores.drop n).map fun (st : Store) => { st with group := some g } } }

/-- Whether a store to a place is performed as its instruction retires. -/
def atOnce : Place → Bool
  | .stash _ => true
  | .mem _ _ _ _ rm => rm

/-- The remote stash a store of a hart names; its own stash counts as local where a window covers the offset (R66, R98). -/
def remoteOf (s : State) (h : Nat) (va : Word) : Option (Nat × Nat) :=
  match regionOf va with
  | .remote g o => if g == h / 8 && (windowAt s g o).isSome then none else some (g, o)
  | _ => none

/-- R62, R64, R66: a scalar store sent out directly by hart h; `rep` is the address its instruction named. -/
def scalarOut (s : State) (h : Nat) (va rep : Word) (bs : List Byte) : Except Stop State :=
  match remoteOf s h va with
  | some (g, o) =>
    if (s.hart h).unack < 1023 then
      .ok ((sendStore s h va (stashIdx g o) bs (.remoteStash g) (s.hart h).vcopy).setHart h (s.hart h).countUp)
    else .error (.wait .count)
  | none =>
    if ownLineLogged s (h / 8) h va then do
      needLogRoom s h
      .ok (logStore s h va rep bs none none)
    else
      match reach s (h / 8) (s.hart h).tctx va accWrite with
      | .error (.hold _ addr st _ _) => do
        needLogRoom s h
        .ok (faultLog s h va rep addr st bs none)
      | .error _ => .ok (pendAccess s h (s.hart h).tag rep)
      | .ok (p, s) => storeTo s h va p bs

/-- R229: a lane of vector store `g` sent out directly, once reached, after the lanes below it. -/
def laneTo (s : State) (h : Nat) (va : Word) (p : Place) (bs : List Byte) (g : Nat) : Except Stop State :=
  match remoteOf s h va with
  | some _ => do
    let t ← scalarOut s h va va bs
    .ok (groupStores t s.ms.stores.length g)
  | none => do
    let s := if atOnce p then performGroup s g else s
    let t ← storeTo s h va p bs
    .ok (groupStores t s.ms.stores.length g)

end Sys2Proof.Machine
end

