-- ==== Sys2Proof/Machine/Channels.lean ====
section
/-! DEFINITION. Packets that leave the package (R191, R192, R196), messages and their send entries (R143, R144, R151, R152,
R169, R170), channel queues and dispatch (R141 to R147), and the end of an activation (R149, R173, R290, R291). -/

namespace Sys2Proof.Machine

/-! ### Leaving the package -/

/-- Virtual networks (R153). -/
def netRequest : Nat := 0
def netReply : Nat := 1
def netSystem : Nat := 2

/-- R153: the network of a message: channel 0 traffic goes on the system network. -/
def msgNet (m : Msg) : Nat := if m.chan = 0 then netSystem else if m.reply then netReply else netRequest

/-- The flow of traffic without a connection (R191): by destination and network. -/
def flowTo (node net : Nat) : Nat := node * 4 + net

/-- The flow of a connection. -/
def flowConn (c : Nat) : Nat := 2 ^ 16 + c

/-- Flow state by number. -/
def State.flow (s : State) (f : Nat) : Flow := Table.get Flow.reset s.fab.flows f

/-- Flow state replaced. -/
def State.setFlow (s : State) (f : Nat) (a : Flow) : State :=
  { s with fab := { s.fab with flows := Table.set s.fab.flows f a } }

/-- A link, by number 0 to 17. -/
def State.link (s : State) (k : Nat) : Link := Table.get Link.reset s.fab.links k

/-- A link replaced. -/
def State.setLink (s : State) (k : Nat) (a : Link) : State := { s with fab := { s.fab with links := Table.set s.fab.links k a } }

/-- The payload bytes of a packet. -/
def packetBytes : Packet → Nat
  | .write _ _ _ _ _ d _ => d.length
  | .send _ _ _ _ _ _ d _ => d.length
  | .result _ _ _ d _ => d.length
  | .payload _ _ _ d => d.length
  | .part _ d => d.length
  | .put _ => 64
  | .msg _ => 64
  | _ => 0

/-- The 64-byte flits of a packet: a header flit and its payload. -/
def packetFlits (p : Packet) : Nat := 1 + (packetBytes p + 63) / 64

/-- Flits in the replay buffer of a link. -/
def Link.load (a : Link) : Nat := a.buf.foldl (fun n e => n + e.2.2) 0

/-- R187: whether the replay buffer of 128 KiB takes n more flits. -/
def Link.room (a : Link) (n : Nat) : Bool := a.load + n ≤ 2048

/-- R189, R192: whether a link is UP and stands in the routing tables, with the router of the gateway beside it and its peer
(notes/assumptions/60.md). -/
def linkUsable (s : State) (k : Nat) : Bool :=
  (s.link k).state == 2 && !s.fab.removed.contains (.link k) && !s.fab.removed.contains (.router (1024 + k)) &&
    !s.fab.removed.contains (.peer (s.link k).peer)

/-- R191, R192: the paths to a node: up to four links that are usable, those that end there before others; none to a node that the
routing tables have lost (notes/assumptions/60.md). -/
def pathsTo (s : State) (node : Nat) : List Nat :=
  if s.fab.removed.contains (.peer node) then []
  else
    let up := (List.range 18).filter (linkUsable s)
    let near := up.filter fun k => (s.link k).peer == node
    (if near.isEmpty then up else near).take 4

/-- R191: the path a packet of n flits takes: that with the least load among those with room. -/
def pathFor (s : State) (node n : Nat) : Option Nat :=
  ((pathsTo s node).filter fun k => (s.link k).room n).foldl (fun (r : Option Nat) k => match r with
    | none => some k
    | some j => if (s.link k).load < (s.link j).load then some k else some j) none

/-- R187, R191: a packet sent on a path; where none has room it waits for its resend. -/
def transmit (s : State) (node flow seq : Nat) (p : Packet) : State :=
  match pathFor s node (packetFlits p) with
  | none => s
  | some k =>
    let a := s.link k
    let s := s.setLink k { a with seqno := a.seqno + (packetFlits p), buf := a.buf ++ [(flow, seq, (packetFlits p))] }
    { s with fab := { s.fab with sent := (node, flow, seq, p) :: s.fab.sent } }

/-- R191: a packet leaves under the next sequence number of its flow, and is kept. -/
def emitPacket (s : State) (node flow : Nat) (p : Packet) : State :=
  let f := s.flow flow
  let s := s.setFlow flow { f with next := f.next + 1, kept := f.kept ++ [(f.next, p)], sentAt := Table.set f.sentAt f.next s.time.toNat }
  transmit s node flow f.next p

/-- R192: a packet toward a lost peer: a put is refused with code 4, a message returned with reason DISABLED. -/
def sendPacket (s : State) (node net : Nat) (p : Packet) : State :=
  if s.fab.lost.contains node then
    match p with
    | .put q => match q.sender with
      | some d => s.fly (.ackArrival ⟨4, q.loc, d, 0⟩)
      | none => s
    | .msg m => s.fly (.messageOutcome m (.returned 2))
    | _ => s
  else emitPacket s node (flowTo node net) p

/-- A put or token set on its way (R68, R196). -/
def sendPut (s : State) (p : Put) : State :=
  if locNode p.loc = s.plat.node.toNat then s.fly (.putArrival p) else sendPacket s (locNode p.loc) netReply (.put p)

/-- An acknowledgement set on its way to its sender (R44, R196). -/
def sendAck (s : State) (k : Ack) : State :=
  if k.dest.node = s.plat.node.toNat then s.fly (.ackArrival k) else sendPacket s k.dest.node netReply (.ack k)

/-! ### Messages and send entries -/

/-- R148: the header word of a message. -/
def headerWord (s : State) (core hart : Nat) (chan : BitVec 6) (cnt : Nat) : Word :=
  let src := if isGateway core then (dieOf core - 4) * 16 + (core - 1024) % 9 else core
  BitVec.ofNat 64 ((s.time.toNat % 2 ^ 32) * 2 ^ 32 + (if isGateway core then 2 ^ 31 else 0) + cnt * 2 ^ 29 + chan.toNat * 2 ^ 23 +
    hart * 2 ^ 20 + s.plat.node.toNat * 2 ^ 10 + src)

/-- Entries of a queue that are claimed (R151). -/
def claimed (q : List SendEntry) (request : Bool) : Nat := (q.filter fun e => e.request == request && !e.taken).length

/-- R151: a depth as it acts. -/
def sqDepth (d : BitVec 4) : Nat := if d = 0#4 then 1 else if 8 < d.toNat then 8 else d.toNat

/-- Whether an entry of a network's send queue is free. -/
def sendFree (h : Hart) (request : Bool) : Bool :=
  claimed h.sendq request < sqDepth (if request then h.reqd else h.repd)

/-- Two messages of one hart toward one channel, whichever occupants of the hart sent them (R144). -/
def sameStream (a b : Msg) : Bool := a.dstNode == b.dstNode && a.dstCore == b.dstCore && a.chan == b.chan

/-- R144: whether a message waits for one of the entries before its own. -/
def waitsBehind (earlier : List SendEntry) (m : Msg) : Bool := earlier.any fun e => sameStream e.msg m && !e.buffered && !e.returned

/-- The entries of a hart before that of a message. -/
def entriesBefore (h : Hart) (m : Msg) : List SendEntry := h.sendq.takeWhile fun e => e.msg.id != m.id

/-- R144: a message is offered if no earlier one of its hart toward the same channel is still undecided. -/
def offerMsg (s : State) (h : Nat) (m : Msg) : State :=
  if waitsBehind (entriesBefore (s.hart h) m) m then s
  else if m.dstNode = s.plat.node.toNat then s.fly (.messageArrival m)
  else sendPacket s m.dstNode (msgNet m) (.msg m)

/-- A claimed message released: it is offered unless it waits; its entry stays claimed on the request network, and a reply entry is
free once the network has taken the message (R151, R290). -/
def releaseMsg (s : State) (h id : Nat) : State :=
  let a := s.hart h
  let s := s.setHart h { a with sendq := a.sendq.map fun e =>
    if e.msg.id = id then { e with buffered := false, taken := !e.request && !waitsBehind (entriesBefore a e.msg) e.msg } else e }
  match a.sendq.find? (·.msg.id == id) with
  | some e => offerMsg s h e.msg
  | none => s

/-- R151: a put or an LDTO delivery needs a free reply entry; the network takes it at once, which frees the entry again. -/
def needReply (s : State) (h : Nat) : Except Stop Unit := check (sendFree (s.hart h) false) (.wait .other)

/-- R144: the next message of a stream is offered once the one before it is decided. -/
def offerNext (s : State) (m : Msg) : State :=
  let h := slotOf m.srcCore m.srcHart
  match (s.hart h).sendq.find? fun e => sameStream e.msg m && !e.buffered && !e.returned with
  | some e => releaseMsg s h e.msg.id
  | none => s

/-- R170: the entry of a message freed. -/
def closeMsg (s : State) (m : Msg) : State :=
  let h := slotOf m.srcCore m.srcHart
  let a := s.hart h
  s.setHart h { a with sendq := a.sendq.filter fun e => e.msg.id != m.id }

/-- R152: the entry of a message marked returned. -/
def markReturned (s : State) (m : Msg) : State :=
  let h := slotOf m.srcCore m.srcHart
  let a := s.hart h
  s.setHart h { a with sendq := a.sendq.map fun e => if e.msg.id = m.id then { e with returned := true } else e }

/-! ### Channel queues -/

/-- Fields of a handler-table entry (R141). -/
def chanPri (w1 : Word) : Nat := fieldOf w1 2 0
def chanReplyClass (w1 : Word) : Bool := w1.getLsbD 4
def chanMode (w0 : Word) : Nat := fieldOf w0 57 56
def chanPC (w0 : Word) : Word := (w0.extractLsb' 1 55 ++ 0#1).signExtend 64
def chanCall (a : Chan) : Bool := a.w1.getLsbD 42 && chanMode a.w0 == 0
def chanPreload (w1 : Word) : Bool := w1.getLsbD 43
def chanConcurrent (w1 : Word) : Bool := w1.getLsbD 44 && chanPreload w1
def chanBudget (w1 : Word) : Nat := (let w := fieldOf w1 41 26; if w = 0 then 1024 else w) * 64

/-- The stash byte of slot i of a channel (R143). -/
def chanSlot (a : Chan) (i : Nat) : Nat := qBase a.w1 + i % 2 ^ qLogn a.w1 * qSlot a.w1

/-- Whether the queue is full. -/
def chanFull (a : Chan) : Bool := 2 ^ qLogn a.w1 ≤ a.filled

/-- R143: a slot written and the producer count raised. -/
def acceptSlot (s : State) (core : Nat) (c : BitVec 6) (words : List Word) : State :=
  let k := s.core core
  let a := k.chan c.toNat
  let off := chanSlot a a.prod.toNat
  let bs := if qSlot a.w1 = 64 then (List.range 8).flatMap fun i => leBytes 8 (words.getD i 0#64).toNat
    else leBytes 8 (words.getD 1 0#64).toNat
  let s := { s with nextId := s.nextId + 1, ms := stashWrite s.ms (stashIdx core off) bs }
  s.setCore core (k.setChan c.toNat { a with prod := a.prod + 1, stamps := a.stamps ++ [s.nextId] })

/-- A dword of a slot. -/
def slotWord (s : State) (core : Nat) (a : Chan) (i k : Nat) : Word :=
  Memory.readDword s.ms.stash (stashIdx core (chanSlot a i) + 8 * k)

/-- n slots popped from a channel (R145, R178). -/
def popChan (a : Chan) (n : Nat) : Chan := { a with cons := a.cons + BitVec.ofNat 16 n, stamps := a.stamps.drop n }

/-- The oldest slots of a channel with their acceptance order and content (R291). -/
def slotsOf (s : State) (core : Nat) (a : Chan) (n : Nat) : List (Nat × VWord) :=
  (List.range n).map fun k =>
    (a.stamps.getD k 0, BitVec.ofNat 512 (Memory.readNat s.ms.stash (stashIdx core (chanSlot a (a.cons.toNat + k))) (qSlot a.w1)))

/-! ### Dispatch (R146) -/

/-- Harts of a core. -/
def hartsOf (core : Nat) : List Nat := (List.range 8).map (slotOf core)

/-- Activations of a channel that run (R145). -/
def activeCount (s : State) (core : Nat) (c : BitVec 6) : Nat :=
  ((hartsOf core).filter fun h => (s.hart h).slot == .activation c).length

/-- Whether a core starts work: its partition runs (R49, R307), and it is not halted in lockstep (R293). -/
def coreRuns (s : State) (core : Nat) : Bool :=
  !lockHalted s core && match tenantOf s core with
    | some p => (s.part p).state == 0
    | none => true

/-- R146: the lowest-numbered free handler-role hart. -/
def freeHandler (s : State) (core : Nat) : Option Nat :=
  (hartsOf core).find? fun h => roleOf s h == 1 && (s.hart h).slot == .free

/-- R146: the hart an activation of a channel takes. -/
def dispatchHart (s : State) (core : Nat) (c : Nat) : Option Nat :=
  match freeHandler s core with
  | some h => some h
  | none => if c = 0 then (hartsOf core).reverse.find? fun h => roleOf s h == 0 && (s.hart h).slot == .free else none

/-- R146: whether a channel qualifies. -/
def qualifies (s : State) (core c : Nat) : Bool :=
  let a := (s.core core).chan c
  qEn a.w1 && !a.masked && a.started < a.filled && (chanConcurrent a.w1 || activeCount s core (BitVec.ofNat 6 c) == 0) &&
    (dispatchHart s core c).isSome

/-- R146: whether channel c goes before channel d. -/
def before (s : State) (core c d : Nat) : Bool :=
  let a := (s.core core).chan c
  let b := (s.core core).chan d
  c == 0 || (d != 0 && (chanPri b.w1 < chanPri a.w1 ||
    (chanPri a.w1 == chanPri b.w1 && a.stamps.getD a.started 0 < b.stamps.getD b.started 0)))

/-- The channel dispatched next. -/
def nextChannel (s : State) (core : Nat) : Option Nat :=
  if coreRuns s core then
    (Table.keys (s.core core).chans).foldl (fun (r : Option Nat) c =>
      if qualifies s core c then (match r with
        | none => some c
        | some d => if before s core c d then some c else r)
      else r) none
  else none

/-- R298: the head command of copy queue 0 is a PTASK that has missed and whose activation waits for a hart. -/
def taskWaiting (s : State) (core : Nat) : Option Cmd :=
  match (Table.get [] (s.core core).cq 0).head? with
  | some c =>
    if !c.args.isEmpty && c.busy && !(hartsOf core).any (fun h => match (s.hart h).pure with
      | some r => r.cmd == c.id
      | none => false) then some c else none
  | none => none

/-- Whether a dispatch is due on a core. -/
def dispatchDue (s : State) (core : Nat) : Bool :=
  (nextChannel s core).isSome || ((taskWaiting s core).isSome && coreRuns s core && (freeHandler s core).isSome)

/-- A dispatch set on its way where one is due. -/
def kickDispatch (s : State) (core : Nat) : State :=
  if dispatchDue s core && !(s.flight.contains (.activationDispatch core)) then s.fly (.activationDispatch core) else s

/-- The context of activations of a core (R147). -/
def coreCtx (s : State) (core : Nat) (user : Bool) : TCtx :=
  match tenantOf s core with
  | some p => (s.part p).tctx user
  | none => ⟨0, 0, 0, 0, false, user⟩

/-- R147: the hart of a started activation, before its registers are loaded. -/
def newActivation (s : State) (h : Nat) (slot : Slot) (mode : Mode) (pc : Word) : Hart :=
  let a := freshHart (s.hart h) (nextTag s h) slot
  let a := a.withCtx (coreCtx s (h / 8) (mode == .u))
  { a with
    mode := mode
    pc := evenBits pc
    tdeleg := if roleOf s h = 1 then a.tdeleg else 0
    rclass := 2
    order := s.nextId }

/-- R147: an activation of channel c starts on hart h. -/
def startActivation (s : State) (core h c : Nat) : State :=
  let k := s.core core
  let ch := k.chan c
  let i := ch.cons.toNat + ch.started
  let wide := qSlot ch.w1 == 64
  let w := slotWord s core ch i
  let pc := if chanCall ch && wide then w 5 else chanPC ch.w0
  let a := newActivation s h (.activation (BitVec.ofNat 6 c)) (Mode.ofCode (chanMode ch.w0)) pc
  let a := { a with
    hmsg := if wide then w 0 else BitVec.ofNat 64 (c * 2 ^ 23)
    wdog := chanBudget ch.w1
    msgStamp := ch.stamps.getD ch.started 0 }
  let s := { s with nextId := s.nextId + 1 }
  if chanPreload ch.w1 then
    let a := if wide then
        [(9, 6), (10, 1), (11, 2), (12, 3), (13, 4)].foldl (fun (a : Hart) e => a.wx (BitVec.ofNat 5 e.1) (w e.2)) a
      else a.wx 10#5 (w 0)
    let a := { a with popped := slotsOf s core ch 1, past := true }
    (s.setCore core (k.setChan c (popChan ch 1))).setHart h a
  else
    let a := { a with handles := Table.set a.handles 15 (.chan (BitVec.ofNat 6 c)) }
    (s.setCore core (k.setChan c { ch with started := ch.started + 1 })).setHart h a

/-! ### The end of an activation -/

/-- R290: the buffer dropped unsent, with the send entries its messages hold. -/
def dropBuffer (h : Hart) : Hart := { h with abuf := [], sendq := h.sendq.filter fun e => !e.buffered }

/-- R173 step 2, R149: the slot of an activation that has not advanced past it is popped. -/
def popOwn (s : State) (h : Nat) : State :=
  let a := s.hart h
  match a.slot with
  | .activation c =>
    if a.past then s
    else
      let k := s.core (h / 8)
      let ch := k.chan c.toNat
      (s.setCore (h / 8) (k.setChan c.toNat { popChan ch 1 with started := ch.started - 1 })).setHart h { a with past := true }
  | _ => s

/-- R291: the slots an activation popped from its own channel are restored; one more redelivery of its message is counted. -/
def restoreSlots (s : State) (h : Nat) (count : Bool) : State :=
  let a := s.hart h
  match a.slot with
  | .activation c =>
    let k := s.core (h / 8)
    let ch := k.chan c.toNat
    let n := a.popped.length
    let ch' := { ch with
      cons := ch.cons - BitVec.ofNat 16 n
      stamps := a.popped.map (·.1) ++ ch.stamps
      started := if a.past then ch.started else ch.started - 1
      redeliv := if count then Table.set ch.redeliv a.msgStamp (Table.get 0 ch.redeliv a.msgStamp + 1) else ch.redeliv }
    let s := s.setCore (h / 8) (k.setChan c.toNat ch')
    let put := fun (p : State × Nat) (e : Nat × VWord) =>
      let i := stashIdx (h / 8) (chanSlot ch' (ch'.cons.toNat + p.2))
      let ms := stashWrite p.1.ms i (leBytes (qSlot ch.w1) e.2.toNat)
      ({ p.1 with ms := ms }, p.2 + 1)
    (a.popped.foldl put (s, 0)).1
  | _ => s

/-- R291: whether a rollable activation is rolled back: at most two redeliveries of its message. -/
def canRollBack (s : State) (h : Nat) : Bool :=
  let a := s.hart h
  match a.slot with
  | .activation c => !a.unrollable && Table.get 0 ((s.core (h / 8)).chan c.toNat).redeliv a.msgStamp < 2
  | _ => false

/-- Whether a core can take slots at its channel 1 (R152). -/
def retOpen (s : State) (core : Nat) : Bool :=
  let a := (s.core core).chan 1
  qEn a.w1 && !a.masked && !chanFull a

/-- R151: an entry of the return buffer is waiting and channel 1 can take it. -/
def kickReturned (s : State) (core : Nat) : State :=
  if !(s.core core).retbuf.isEmpty && retOpen s core && !(s.flight.contains (.returnBufferDrain core)) then
    s.fly (.returnBufferDrain core)
  else s

/-- An activation's slot freed; its channel may be dispatched again. -/
def freeActivation (s : State) (h : Nat) : State :=
  kickReturned (kickDispatch (freeSlot (endWindows s h) h) (h / 8)) (h / 8)

/-- R291: rollback of the activation on hart h. -/
def rollBack (s : State) (h : Nat) (count : Bool) : State :=
  let s := restoreSlots s h count
  freeActivation (s.setHart h (dropBuffer (s.hart h))) h

/-- R149, R167: an activation killed: buffer dropped, its message not redelivered, the hart free. -/
def killActivation (s : State) (h : Nat) : State :=
  let s := popOwn s h
  freeActivation (s.setHart h (dropBuffer (s.hart h))) h

/-! ### Messages at their destination (R143, R152) -/

/-- R143: what the destination's landing port does with a message. -/
def decideMsg (s : State) (core : Nat) (m : Msg) : MsgOutcome :=
  let a := (s.core core).chan m.chan.toNat
  if !qEn a.w1 then .returned 2
  else if a.masked && !m.reply then .deferred
  else if a.masked || chanFull a then .returned 1
  else if (1 < m.count || m.call) && qSlot a.w1 == 8 then .returned 3
  else if chanCall a && !m.call then .returned 4
  else .accepted

/-- The outcome of a message sent back to its source (R154, R196). -/
def sendOutcome (s : State) (m : Msg) (o : MsgOutcome) : State :=
  if m.srcNode = s.plat.node.toNat then s.fly (.messageOutcome m o)
  else sendPacket s m.srcNode netReply (.outcome m o)

/-- R152: a returned message enters channel 1: word 7 holds the reason and the time of the return. -/
def enterReturned (s : State) (core : Nat) (r : Returned) : State :=
  let w7 := BitVec.ofNat 64 (r.stamp * 2 ^ 32 + r.reason)
  let s := acceptSlot s core 1#6 ((r.msg.words.take 7) ++ [w7])
  kickDispatch (closeMsg s r.msg) core

end Sys2Proof.Machine
end

