-- ==== Sys2Proof/Machine/Landing.lean ====
section
/-! DEFINITION. The landing port: what it does with a put, a token or a delivery (R33, R38 to R42, R113), and how an
acknowledgement is applied at its sender (R43 to R47). -/

namespace Sys2Proof.Machine

/-- R33: a locator the port refuses. -/
def badLocator (p : Put) : Bool :=
  (locCore p.loc).isNone || locKind p.loc == 3 || (locKind p.loc != 2 && 31 < locIdx p.loc) ||
    (locKind p.loc != 2 && locTag p.loc == 0#16) || fieldOf p.loc 15 0 != 0 || (p.wide && locKind p.loc != 1) ||
    (!p.wide && locKind p.loc == 1)

/-- R39: the acknowledgement of a decided put, carrying a locator; a token is never acknowledged (R44). -/
def answer (s : State) (p : Put) (code : Nat) : State :=
  match p.token, p.sender with
  | false, some d => sendAck s ⟨code, p.loc, d, 0⟩
  | _, _ => s

/-- R39: the code of a put that was written. -/
def writtenCode (p : Put) (direct : Nat) : Nat := if p.hop = 0 then direct else 2

/-- R125: an engine command of the thread has settled. -/
def Hart.settle (h : Hart) (p : Put) : Hart := if p.settles then { h with engines := h.engines - 1 } else h

/-- R38, R41: a landed value written: register, ready bit, LANDCNT, the flags a completion hands over; x0 takes nothing. -/
def Hart.land (h : Hart) (p : Put) : Hart :=
  let h := { (h.settle p) with rclass := stickyOr h.rclass p.flags }
  let r := BitVec.ofNat 5 (locIdx p.loc)
  if p.wide then { (h.wv r p.val) with landCnt := h.landCnt + 1, idle := false }
  else if r = 0#5 then h
  else { (h.wx r (p.val.setWidth 64)) with landCnt := h.landCnt + 1, idle := false }

/-- R42, R113: the signature of a landing applied at the core before the ready bit is set; from another package it is ALL. -/
def landSig (s : State) (h : Nat) (p : Put) : State :=
  match p.sig with
  | some g => applySig s (h / 8) h g
  | none => s

/-- A value OR-ed into a number of an image. -/
def imgOr (s : State) (pa n v : Nat) : State := setSaveNat s pa n (saveNat s pa n ||| v)

/-- R38, R42: a value held in an image: its register and ready bit, LANDCNT, and the record of a release. -/
def holdPut (s : State) (pa : Nat) (p : Put) : State :=
  let i := locIdx p.loc
  let s := if p.flags = 0#3 then s else imgOr s (pa + 0x1F8) 8 (p.flags.toNat * 256)
  if !p.wide && i == 0 then s
  else
    let s := match p.sig with
      | some _ => imgOr s pa 8 (2 ^ 20)
      | none => s
    let s := if p.wide then imgOr (setSaveNat s (pa + 0x200 + 64 * i) 64 p.val.toNat) (pa + 0x104) 4 (2 ^ i)
      else imgOr (setSaveNat s (pa + 8 * i) 8 (p.val.toNat % 2 ^ 64)) (pa + 0x100) 4 (2 ^ i)
    setSaveNat s (pa + 0x130) 8 (saveNat s (pa + 0x130) 8 + 1)

/-- R148: the header a put into a channel writes: STAMP is the time the put was sent. -/
def putHeader (s : State) (p : Put) (chan : BitVec 6) : Word :=
  match p.sender with
  | some d => withField (withField (headerWord s d.core d.hart chan 0) 19 10 d.node) 63 32 d.sent.toNat
  | none => headerWord s 0 0 chan 0

/-- R33, R143: a put of kind 2: a one-word message. -/
def landChannel (s : State) (core : Nat) (p : Put) : State :=
  let c := BitVec.ofNat 6 (locIdx p.loc)
  let a := (s.core core).chan c.toNat
  if !qEn a.w1 || a.masked || chanFull a then answer s p 5
  else if chanCall a then answer s p 4
  else kickDispatch (answer (acceptSlot s core c [putHeader s p c, p.val.setWidth 64]) p (writtenCode p 0)) core

/-- R38: the port decides an arrival. -/
def landPut (s : State) (p : Put) : State :=
  match locCore p.loc with
  | none => answer s p 4
  | some core =>
    if badLocator p then answer s p 4
    else if locKind p.loc = 2 then landChannel s core p
    else
      let hart := locHart p.loc
      match findSlot s core hart (locTag p.loc) with
      | .resident h =>
        let s := landSig s h p
        answer (s.setHart h ((s.hart h).land p)) p (writtenCode p 0)
      | .saved h t pa =>
        let s := onSaved s h t pa (fun a => a.settle p)
        answer (holdPut s pa p) p (writtenCode p 1)
      | .moved w =>
        if p.hop < 2 then sendPut s { p with loc := locWith w (locKind p.loc) (locIdx p.loc), hop := p.hop + 1 }
        else answer s p 4
      | .exited => answer s p 3
      | .nothing => answer s p 4

/-! ### Acknowledgements -/

/-- R45: an acknowledgement of a plain form, applied; `ends` tells that it ends the wait of the instruction at the PC. -/
def Hart.ackPlain (h : Hart) (code : Nat) (loc : Word) (ends : Bool) : Hart :=
  if code = 0 then h
  else
    let h := { h with landCode := BitVec.ofNat 3 code, landLoc := loc }
    if code < 3 then h
    else if !h.refusal then
      { h with refusal := true, retires := ends, heldCause := BitVec.ofNat 64 (if code = 3 then cDestGone else cDestUnk), heldTval := loc }
    else { h with landMiss := if h.landMiss = 255#8 then h.landMiss else h.landMiss + 1 }

/-- R47: an acknowledgement of a status form, applied. -/
def Hart.ackStatus (h : Hart) (d : Sender) (code : Nat) (loc : Word) : Hart :=
  match d.status with
  | none => h
  | some r =>
    let h := if r = 0#5 then h else { (h.wx r (BitVec.ofNat 64 code)) with landCnt := h.landCnt + 1 }
    if code = 2 then { h with landLoc := loc } else h

/-- R43 to R47: an acknowledgement applied to a sender. It ends the wait of an instruction at the PC that waits for UNACK 0 where it brings
UNACK to 0 (R45). -/
def Hart.ack (h : Hart) (k : Ack) : Hart :=
  let h := { h with unack := h.unack - 1, idle := false }
  if k.dest.isStatus then h.ackStatus k.dest k.code k.loc
  else h.ackPlain k.code k.loc (h.stall == some .unack && h.unack == 0)

/-- The part of a hart an acknowledgement changes, read from an image. -/
def ackView (s : State) (pa : Nat) : Hart :=
  { Hart.reset with
    unack := saveNat s (pa + 0x118) 8 % 1024
    landCode := (imgWord s pa 0x120).extractLsb' 0 3
    landMiss := (imgWord s pa 0x120).extractLsb' 8 8
    landLoc := imgWord s pa 0x128
    landCnt := imgWord s pa 0x130
    refusal := (imgWord s pa 0).getLsbD 19
    heldCause := imgWord s pa 0x1E8
    heldTval := imgWord s pa 0x1F0 }

/-- R44: an acknowledgement applied to a saved sender's image. -/
def ackImage (s : State) (pa : Nat) (k : Ack) : State :=
  let h := (ackView s pa).ack k
  let s := [(0x118, h.unack), (0x120, h.landst.toNat), (0x128, h.landLoc.toNat), (0x130, h.landCnt.toNat), (0x1E8, h.heldCause.toNat),
    (0x1F0, h.heldTval.toNat)].foldl (fun s e => setSaveNat s (pa + e.1) 8 e.2) s
  let s := if h.refusal then imgOr s pa 8 (2 ^ 19) else s
  match k.dest.status with
  | some r => if k.dest.isStatus ∧ r ≠ 0#5 then
      imgOr (setSaveNat s (pa + 8 * r.toNat) 8 k.code) (pa + 0x100) 4 (2 ^ r.toNat) else s
  | none => s

/-- R44: an acknowledgement at its sender's core. DEDUCED (notes/assumptions/82.md): the wait of R45 is the one for UNACK 0, and its "other
operations" are those that UNACK counts. -/
def applyAck (s : State) (k : Ack) : State :=
  match findSlot s k.dest.core k.dest.hart k.dest.tag with
  | .resident h => s.setHart h ((s.hart h).ack k)
  | .saved _ _ pa => ackImage s pa k
  | .moved w =>
    match locCore w with
    | some c => if k.hop < 2 then
        sendAck s { k with dest := { k.dest with core := c, hart := locHart w, tag := locTag w }, hop := k.hop + 1 } else s
    | none => s
  | _ => s

/-! ### Tokens -/

/-- R44, R112: an engine token: its locator, value, signature, the flags handed over, and whether it settles a command. -/
def tokenPut (s : State) (loc : Word) (val : Word) (sig : Sig) (flags : Sticky) (settles : Bool) : State :=
  s.fly (.putArrival ⟨loc, false, val.setWidth 512, some sig, 0, none, true, flags, settles, none⟩)

/-- R248: a token of MATRIX command `cmd`, which keeps its order with the other one. -/
def matrixToken (s : State) (cmd : Nat) (loc val : Word) (sig : Sig) (flags : Sticky) (settles : Bool) : State :=
  s.fly (.putArrival ⟨loc, false, val.setWidth 512, some sig, 0, none, true, flags, settles, some cmd⟩)

end Sys2Proof.Machine
end

