-- ==== Sys2Proof/Machine/Windows.lean ====
section
/-! DEFINITION. The core control windows (R28) and the package windows (R343): what a load reads there, and which register
write a store becomes on the system network. -/

namespace Sys2Proof.Machine

/-! ### Words of the registers -/

/-- R35: word k of a departure entry; an expired entry reads as free. -/
def depWord (s : State) (k : Core) (e : Dep) (hi : Bool) : Word :=
  if !depLive s k e then 0#64
  else if hi then e.place
  else BitVec.ofNat 64 (e.stamp.toNat * 2 ^ 32 + e.state * 2 ^ 20 + e.hart * 2 ^ 16 + e.tag.toNat)

/-- R145: the queue state of a channel. -/
def chanWord (s : State) (core c : Nat) : Word :=
  let a := (s.core core).chan c
  BitVec.ofNat 64 (activeCount s core (BitVec.ofNat 6 c) * 2 ^ 36 + (if a.defer.isEmpty then 0 else 2 ^ 34) + (if a.masked then 2 ^ 33 else 0) +
    a.prod.toNat * 2 ^ 16 + a.cons.toNat)

/-- R167: FRZ. -/
def frzWord (s : State) (core : Nat) : Word :=
  let harts := (List.range 8).foldl (fun n k => if (s.hart (slotOf core k)).isFrozen then n + 2 ^ k else n) 0
  BitVec.ofNat 64 ((s.core core).cqFrozen.toNat * 256 + harts)

/-- R28: a dword of a core control window. -/
def ctrlRead (s : State) (core off : Nat) : Word :=
  let k := s.core core
  if off = 0 then k.hrole.setWidth 64
  else if off = 8 then frzWord s core
  else if off = 0x18 then k.wbwin
  else if 0x1000 ≤ off ∧ off < 0x1400 then
    let a := k.chan ((off - 0x1000) / 16)
    if off % 16 = 0 then a.w0 else a.w1
  else if 0x2000 ≤ off ∧ off < 0x2400 then depWord s k (k.depAt ((off - 0x2000) / 16)) (off % 16 == 8)
  else if 0x3000 ≤ off ∧ off < 0x3400 then (if off % 16 = 0 then chanWord s core ((off - 0x3000) / 16) else 0#64)
  else if 0x3400 ≤ off ∧ off < 0x3500 then
    let q := k.softq ((off - 0x3400) / 16)
    if off % 16 = 0 then BitVec.ofNat 64 (q.prod.toNat * 2 ^ 16 + q.cons.toNat) else q.w1
  else 0#64

/-- R190: a register of link k. -/
def linkWord (a : Link) (hi : Bool) : Word :=
  if hi then BitVec.ofNat 64 (a.replays.toNat * 2 ^ 32 + a.crcerr.toNat * 2 ^ 16 + a.spares.toNat)
  else BitVec.ofNat 64 (a.peer * 2 ^ 48 + a.spared * 2 ^ 40 + a.badlanes.toNat * 2 ^ 32 + a.state)

/-- R194: word 0 of a connection. -/
def connWord0 (c : Conn) : Word :=
  BitVec.ofNat 64 (c.state * 2 ^ 62 + c.peern * 2 ^ 52 + c.pconn * 2 ^ 40 + c.part * 2 ^ 34 + c.vmid.toNat * 2 ^ 28 + c.asid.toNat * 2 ^ 16)

/-- R194: word k of a connection. -/
def connWord (c : Conn) (k : Nat) : Word :=
  if k = 0 then connWord0 c
  else if k = 1 then c.count
  else if k = 2 then BitVec.ofNat 64 (c.refused.toNat * 2 ^ 32 + c.resent.toNat)
  else 0#64

/-- R200: the bytes an unexpected entry takes. -/
def unexpBytes (y : YSend) : Nat := if y.len ≤ 4096 then 64 + (y.len + 63) / 64 * 64 else 64

/-- Bytes of a tenant's unexpected queue in use (R198). -/
def uqUsed (s : State) (p : Nat) : Nat :=
  (Table.get [] s.fab.unexpected p).foldl (fun n y => n + unexpBytes y) 0

/-- A tenant's Yarrow entry. -/
def State.ytenant (s : State) (p : Nat) : YTenant := Table.get YTenant.reset s.fab.yarrow p

/-- R198: word k of a Yarrow entry. -/
def yarrowWord (s : State) (p k : Nat) : Word :=
  let y := s.ytenant p
  if k = 0 then (y.uqbase &&& ~~~0xFFF#64) ||| BitVec.ofNat 64 (y.uqlog % 64)
  else if k = 1 then BitVec.ofNat 64 (y.rquota * 2 ^ 32 + uqUsed s p)
  else 0#64

/-- An assignment queue, by link die and number. -/
def assignKey (die q : Nat) : Nat := (die - 4) * 64 + q

/-- An assignment queue. -/
def State.assignq (s : State) (die q : Nat) : AssignQ := Table.get AssignQ.reset s.fab.assign (assignKey die q)

/-- R203: word k of an assignment queue. -/
def assignWord (a : AssignQ) (k : Nat) : Word :=
  if k = 0 then BitVec.ofNat 64 (a.next.toNat * 2 ^ 32 + a.count.toNat)
  else if k = 1 then BitVec.ofNat 64 (a.part * 2 ^ 32 + a.done.toNat)
  else if k = 2 then a.cloc
  else 0#64

/-- R193: a dword of the fabric window of link die d. DESIGN CHOICE (notes/assumptions/90.md): both dies' windows show one Yarrow tenant
table. -/
def fabricRead (s : State) (die off : Nat) : Word :=
  if off < 0x10000 then connWord (s.conn ((die - 4) * 2048 + off / 32)) (off / 8 % 4)
  else if 0x20000 ≤ off ∧ off < 0x20800 then yarrowWord s ((off - 0x20000) / 32) (off / 8 % 4)
  else if 0x30000 ≤ off ∧ off < 0x30800 then assignWord (s.assignq die ((off - 0x30000) / 32)) (off / 8 % 4)
  else if 0x40000 ≤ off ∧ off < 0x40090 then
    linkWord (Table.get Link.reset s.fab.links ((die - 4) * 9 + (off - 0x40000) / 16)) (off % 16 == 8)
  else 0#64

/-- R286: raw units an online frame costs in a class. -/
def rawCost (cls : Nat) : Nat := if cls = 0 then 32 else if cls = 1 then 33 else 36

/-- R286: RAWUSED. -/
def rawUsed (ms : MemSys) : Nat :=
  ms.classMap.foldl (fun n e => if entryOnline e.2 then n + rawCost (entryClass e.2) else n) 0

/-- R306: dword k of a partition record. -/
def partWord (a : Part) (k : Nat) : Word :=
  match k with
  | 0 => BitVec.ofNat 64 (a.state * 2 ^ 62 + a.len * 2 ^ 10 + a.base)
  | 1 => a.savebase
  | 2 => a.route
  | 3 => BitVec.ofNat 64 (a.ebu.toNat * 2 ^ 32 + a.tbu.toNat)
  | 4 => a.dw4
  | 5 => a.dw5
  | _ => 0#64

/-- R343: a dword of a package window, by its offset from the base of the windows, at a privilege. -/
def pkgRead (s : State) (mode : Mode) (off : Nat) : Word :=
  if 0x42000000 ≤ off ∧ off < 0x44000000 then fabricRead s (4 + (off - 0x42000000) / 0x1000000) ((off - 0x42000000) % 0x1000000)
  else if mode ≠ .m then 0#64
  else if 0x44000000 ≤ off ∧ off < 0x44000400 then
    let w := Table.get (0#64, 0#64) s.reuse.tenants ((off - 0x44000000) / 16)
    if off % 16 = 0 then w.1 else w.2
  else if off = 0x47000000 then BitVec.ofNat 64 (Config.rawTotal * 2 ^ 32 + rawUsed s.ms)
  else if 0x48000000 ≤ off ∧ off < 0x49000000 then classEntry s.ms ((off - 0x48000000) / 8)
  else if 0x49000000 ≤ off ∧ off < 0x49001000 then partWord (s.part ((off - 0x49000000) / 64)) (off / 8 % 8)
  else if off = 0x4A000000 then s.plat.deverr
  else if 0x4B000000 ≤ off ∧ off < 0x4B000200 then Table.get 0#64 s.plat.vft ((off - 0x4B000000) / 8)
  else 0#64

/-! ### Access checks (R28, R343) -/

/-- Whether an address lies in the core control or package windows. -/
def inWindow (va : Word) : Bool :=
  match regionOf va with
  | .ctrl _ _ => true
  | .pkg _ => true
  | _ => false

/-- R28: U-mode reaches no window; S- and H-mode reach the control windows of their partition only. -/
def needWindow (s : State) (h : Nat) (va : Word) (acc : Nat) : Except Stop Unit :=
  let a := s.hart h
  match regionOf va with
  | .ctrl g _ => check (a.mode == .m || (a.mode != .u && samePart s (h / 8) g)) (.deny acc va)
  | .pkg _ => check (a.mode != .u) (.deny acc va)
  | _ => .ok ()

/-- R28: an instruction other than LOAD and STORE that names an address in a window raises ACCESS. -/
def noWindow (va : Word) (acc : Nat) : Except Stop Unit := check (!inWindow va) (.deny acc va)

/-- The writer of a register write on its way over the system network. -/
def Event.writer : Event → Option Writer
  | .registerWrite (.window w) _ _ => some w
  | .hroleWrite w _ _ => some w
  | .handlerTableWrite w _ _ _ _ => some w
  | .softwareQueueWrite w _ _ _ => some w
  | .frzThawHart w _ _ => some w
  | .frzThawCq w _ _ => some w
  | .frzkillHart w _ _ => some w
  | .frzkillCq w _ _ => some w
  | .connectionWrite w _ _ => some w
  | .assignQueueWrite w _ _ _ _ => some w
  | .classMapWrite w _ _ => some w
  | .partitionWrite w _ _ _ => some w
  | _ => none

/-- Whether a register write of a core is on its way over the system network. -/
def Event.fromCore (core : Nat) (e : Event) : Bool := (Event.writer e).any (·.core == core)

/-- R28: accesses of a core to the windows are delivered in program order: a later one waits for the writes on their way. -/
def needDelivered (s : State) (core : Nat) : Except Stop Unit := check (!s.flight.any (Event.fromCore core)) (.wait .other)

/-- R28, R343: a load from a window. -/
def windowLoad (s : State) (h : Nat) (va : Word) (size : Nat) : Except Stop Word := do
  needWindow s h va accRead
  check (size == 8 && aligned va 8) (.trap cMisalign va)
  needDelivered s (h / 8)
  match regionOf va with
  | .ctrl g o => .ok (ctrlRead s g o)
  | .pkg o => .ok (pkgRead s (s.hart h).mode o)
  | _ => .ok 0#64

/-! ### Stores -/

/-- The bits set among 0 to n − 1 of a value from bit `lo` on. -/
def bitsSet (v : Word) (lo n : Nat) : List Nat := (List.range n).filter fun k => v.getLsbD (lo + k)

/-- R28: the register write a store to a control window becomes. -/
def ctrlWrite (w : Writer) (va : Word) (g off : Nat) (v : Word) : List Event :=
  if off = 0 then [.hroleWrite w g v]
  else if off = 8 then (bitsSet v 0 8).map (.frzThawHart w g ·) ++ (bitsSet v 8 4).map (.frzThawCq w g ·)
  else if off = 0x10 then (bitsSet v 0 8).map (.frzkillHart w g ·) ++ (bitsSet v 8 4).map (.frzkillCq w g ·)
  else if off = 0x18 then [.registerWrite (.window w) va v]
  else if 0x1000 ≤ off ∧ off < 0x1400 then
    [.handlerTableWrite w g (BitVec.ofNat 6 ((off - 0x1000) / 16)) (off % 16 == 8) v]
  else if 0x3400 ≤ off ∧ off < 0x3500 ∧ off % 16 = 8 then [.softwareQueueWrite w g (BitVec.ofNat 4 ((off - 0x3400) / 16)) v]
  else []

/-- R343: the register write a store to a package window becomes. -/
def pkgWrite (w : Writer) (va : Word) (off : Nat) (v : Word) : List Event :=
  if 0x42000000 ≤ off ∧ off < 0x44000000 then
    let die := 4 + (off - 0x42000000) / 0x1000000
    let o := (off - 0x42000000) % 0x1000000
    if o < 0x10000 then (if o % 32 = 0 then [.connectionWrite w ((die - 4) * 2048 + o / 32) v] else [])
    else if 0x20000 ≤ o ∧ o < 0x20800 then [.registerWrite (.window w) va v]
    else if 0x30000 ≤ o ∧ o < 0x30800 then [.assignQueueWrite w die ((o - 0x30000) / 32) (o / 8 % 4) v]
    else []
  else if 0x44000000 ≤ off ∧ off < 0x44000400 then [.registerWrite (.window w) va v]
  else if 0x48000000 ≤ off ∧ off < 0x49000000 then [.classMapWrite w ((off - 0x48000000) / 8) v]
  else if 0x49000000 ≤ off ∧ off < 0x49001000 then [.partitionWrite w ((off - 0x49000000) / 64) (off / 8 % 8) v]
  else if 0x4B000000 ≤ off ∧ off < 0x4B000200 then [.registerWrite (.window w) va v]
  else []

/-- R28, R343: a store to a window sets its register write on its way. -/
def windowStore (s : State) (h : Nat) (va : Word) (v : Word) : State :=
  let w : Writer := ⟨h / 8, (s.hart h).mode, h % 8⟩
  let es := match regionOf va with
    | .ctrl g o => ctrlWrite w va g o v
    | .pkg o => pkgWrite w va o v
    | _ => []
  es.foldl State.fly s

/-- R28: the checks of a store to a window. -/
def needWindowStore (s : State) (h : Nat) (va : Word) (size : Nat) : Except Stop Unit := do
  needWindow s h va accWrite
  check (size == 8 && aligned va 8) (.trapAcc accWrite cMisalign va)

end Sys2Proof.Machine
end

