-- ==== Sys2Proof/Machine/Buffer.lean ====
section
/-! DEFINITION. The activation buffer (R290): what enters it, its release in order, and the stores, puts and deliveries that go
out directly; release stores (R119), deliveries to a locator (R120), the route check of locators (R68, R88). -/

namespace Sys2Proof.Machine

/-! ### Waits and the route check -/

/-- R108: the wait of a release, window writes included. -/
def needReleased (s : State) : Except Stop Unit := do
  needRelease s
  needDelivered s s.myCore

/-- R88: whether the route table of a core permits a locator. DESIGN CHOICE (notes/assumptions/11.md): a gateway core that serves the
partition counts as inside it. -/
def permits (s : State) (core : Nat) (loc : Word) : Bool :=
  let listed := (s.core core).routes.contains (locRoute loc)
  if locNode loc = s.plat.node.toNat then
    match locCore loc with
    | some g => samePart s core g || listed
    | none => false
  else listed

/-- R68: PARTESC for a locator the table does not permit. -/
def needRoute (loc : Word) (s : State) : Except Stop Unit := check (permits s s.myCore loc) (.trap cPartesc loc)

/-- R292: whether a core belongs to a V launch: to the interval of one of its copies. -/
def launchCore (a : Launch) (g : Nat) : Bool :=
  let inside := fun (p : Nat) => a.base ≤ p && p < a.base + a.len
  g < 1024 && (inside (hposOf g) || inside (hposOf g ^^^ 256))

/-- R292: whether the thread a locator names belongs to a launch. DESIGN CHOICE (notes/assumptions/39.md): one that has ended, of which
nothing else is known, counts by the hart it ran on. -/
def launchThread (s : State) (a : Launch) (loc : Word) (g : Nat) : Bool :=
  let mine := fun (t : Hart) => match t.launch with
    | some (l, _) => l == a.id
    | none => false
  match whereIs s (slotOf g (locHart loc)) (locTag loc) with
  | .resident r => mine (s.hart r)
  | .saved h t pa => (savedThread s h t pa).any mine
  | _ => launchCore a g && locHart loc < a.harts

/-- R292: whether a locator stays inside the V launch of its sender: a thread of the launch, or a channel of one of its cores; `chan` tells
that it is used for its core alone. -/
def insideLaunch (s : State) (h : Nat) (loc : Word) (chan : Bool) : Bool :=
  match (s.hart h).vcopy, locCore loc with
  | some (l, _), some g =>
    (match Table.find? s.lch.live l with
    | some a => locNode loc == s.plat.node.toNat && (if chan then launchCore a g else launchThread s a loc g)
    | none => false)
  | _, _ => false

/-- R292: VEFFECT for a put or message of a V thread that leaves its launch. -/
def needInside (loc : Word) (chan : Bool) (s : State) : Except Stop Unit :=
  check (!s.me.isV || insideLaunch s s.cur loc chan) (.trap cVeffect loc)

/-! ### Release stores and deliveries -/

/-- R119: a release store performed at its home, its signature published; a page fault sends it to the side log (R118). The
hart's own core keeps no older copy (R110). -/
def releaseStore (s : State) (h : Nat) (va : Word) (bs : List Byte) : Except Stop State :=
  let sig := (s.hart h).releaseSig
  match reach s (h / 8) (s.hart h).tctx va accWrite with
  | .error (.hold _ addr st _ _) => do
    needLogRoom s h
    .ok (faultLog s h va va addr st bs (some sig))
  | .error _ => .ok (pendAccess s h (s.hart h).tag va)
  | .ok (p, s) =>
    let publishTo := fun (s : State) => match placeKey p with
      | some key => { s with ms := publish s.ms key sig }
      | none => s
    match p, (s.hart h).vcopy with
    | .mem pa sm _ _ _, some k => do
      let s ← shadowPage s (ownerOf s (h / 8)) va k sm pa
      .ok (publishTo (shadowWrite s k.1 k.2 va pa bs))
    | _, _ => do
      needCollapsed s p
      let s := signStore (writePlaceHome s p bs) (s.hart h).vcopy va bs
      let s := { s with ms := dropWords s.ms (h / 8) p bs.length }
      .ok (countAt (noteSync (publishTo s) h p) h (s.hart h).tag evL2 (l2Home p))

/-- R148, R191: a put as it is sent: its sender with the time and the put's own number. -/
def stampPut (s : State) (p : Put) : Put :=
  { p with sender := p.sender.map fun d => { d with sent := s.time.setWidth 32, id := s.nextId } }

/-- R68, R191: a put sent, under a number of its own. -/
def launchPut (s : State) (p : Put) : State := sendPut { s with nextId := s.nextId + 1 } (stampPut s p)

/-- R120: the value of LDTO or LDTO.W, read at its home, delivered to a locator. -/
def deliverLoad (s : State) (h : Nat) (d : Sender) (loc va : Word) (word : Bool) : Except Stop State := do
  let n := if word then 4 else 8
  let (p, s) ← reach s (h / 8) (s.hart h).tctx va accRead
  check (!remotePending s h p n) (.wait .other)
  let g ← readHome s h va p n
  let v := leNat g.bytes
  let val : Word := if word then (BitVec.ofNat 32 v).signExtend 64 else BitVec.ofNat 64 v
  let s := countAt g.st h (s.hart h).tag evL2 (l2Home p)
  .ok (launchPut (s.setHart h (s.hart h).countUp) ⟨loc, false, val.setWidth 512, none, 0, some d, false, 0#3, false, none⟩)

/-- The sender of a hart's put (R44): `quiet` reports nothing. -/
def senderOf (s : State) (h : Nat) (status : Option Reg) (isStatus : Bool) : Sender :=
  ⟨s.plat.node.toNat, h / 8, h % 8, (s.hart h).tag, status, isStatus, 0, 0⟩

/-- R68: a put sent, counted in UNACK; a release form carries the hart's signature. -/
def putOut (s : State) (h : Nat) (p : Put) (rel : Bool) : State :=
  let sig := if rel then some (s.hart h).releaseSig else none
  launchPut (s.setHart h (s.hart h).countUp) { p with sig := sig }

/-- R62: a store sent out directly: to a window, or on its way to its home; `rep` is the address its instruction named. -/
def storeOut (s : State) (h : Nat) (va rep : Word) (bs : List Byte) : Except Stop State :=
  if inWindow va then .ok (windowStore s h va (BitVec.ofNat 64 (leNat bs))) else scalarOut s h va rep bs

/-! ### The buffer -/

/-- R290: bytes an activation's buffer holds: 16 for each distinct aligned dword stored, 64 for each put or message. -/
def bufBytes (buf : List BufEntry) : Nat :=
  let dwords := buf.foldl (fun (r : List Nat) e => match e with
    | .store va bs _ _ | .lanes va bs _ =>
      (wordsOf va.toNat bs.length).foldl (fun r a => if r.contains a then r else a :: r) r
    | _ => r) []
  16 * dwords.length + 64 * (buf.filter fun e => match e with | .store _ _ _ _ | .lanes _ _ _ => false | _ => true).length

/-- Whether the hart runs an activation whose buffer is in use: rollable and not pure. -/
def Hart.buffering (h : Hart) : Bool := h.isActivation && !h.unrollable && h.pure.isNone

/-- The wait of a release form among released entries: earlier ones performed and acknowledged (R69, R108, R290). -/
def needOwnDone (s : State) (h : Nat) : Except Stop Unit := do
  check ((s.hart h).unack == 0) (.wait .unack)
  check (!hasOwnStore s h) (.wait .other)
  needDelivered s (h / 8)

/-- R228: a lane of vector store `g` released: it enters no side log, so that a fault holds the hart at the instruction that releases. -/
def lanesOut (s : State) (h : Nat) (va : Word) (bs : List Byte) (g : Nat) : Except Stop State := do
  if (remoteOf s h va).isNone then check (!ownLineLogged s (h / 8) h va) (.wait .other)
  match remoteOf s h va with
  | some _ => laneTo s h va (.stash 0) bs g
  | none => do
    let (p, s) ← reach s (h / 8) (s.hart h).tctx va accWrite
    laneTo s h va p bs g

/-- One entry released; at HEND its acknowledgement reports nothing. -/
def releaseOne (s : State) (h : Nat) (final : Bool) : BufEntry → Except Stop State
  | .store va bs rel rep =>
    if rel then do
      needOwnDone s h
      releaseStore s h va bs
    else storeOut s h va rep bs
  | .lanes va bs g => lanesOut s h va bs g
  | .put p rel => do
    if rel then needOwnDone s h
    check ((s.hart h).unack < 1023) (.wait .count)
    needReply s h
    .ok (putOut s h (if final then { p with sender := some (senderOf s h none true) } else p) rel)
  | .ldto loc va word => do
    check ((s.hart h).unack < 1023) (.wait .count)
    needReply s h
    deliverLoad s h (senderOf s h none final) loc va word
  | .msg id => .ok (releaseMsg s h id)

/-- R290: entries released in order until one must wait; the rest stays in the buffer. -/
def releaseAll (s : State) (h : Nat) (final : Bool) : List BufEntry → State × Option Stop
  | [] => (s, none)
  | e :: es =>
    match releaseOne s h final e with
    | .error (.again t) => (t.setHart h { t.hart h with abuf := e :: es }, some (.again t))
    | .error k => (s.setHart h { s.hart h with abuf := e :: es }, some k)
    | .ok s => releaseAll s h final es

/-- R290: the buffer of the issuing activation released as far as it goes; the instruction is then tried again. -/
def flush (s : State) (final : Bool) : Except Stop State :=
  let a := s.me
  match releaseAll (s.setMe { a with abuf := [] }) s.cur final a.abuf with
  | (s', none) => .ok s'
  | (s', some (.again _)) => .error (.again s')
  | (s', some k) => if s'.me.abuf.length = a.abuf.length then .error k else .error (.again s')

/-- R290: an instruction that releases the buffer first makes the activation unrollable. -/
def needUnrollable (s : State) : Except Stop Unit :=
  if s.me.buffering then
    match flush s false with
    | .ok s => .error (.again (s.setMe { s.me with unrollable := true }))
    | .error k => .error k
  else .ok ()

/-- An entry put into the buffer, or released directly once it does not fit (R290). -/
def bufferOr (s : State) (e : BufEntry) (out : State → Except Stop State) : Except Stop State :=
  if s.me.buffering then
    if bufBytes (s.me.abuf ++ [e]) ≤ 2048 then .ok (s.setMe { s.me with abuf := s.me.abuf ++ [e] })
    else
      match needUnrollable s with
      | .ok _ => out s
      | .error k => .error k
  else out s

/-! ### Stores of the issuing hart -/

/-- R273, R301: bytes a pure task stores go to its output by offset; a block that is poison stays so until all of it is written
(R289). -/
def PureRun.put (r : PureRun) (va : Word) (bs : List Byte) : PureRun :=
  { r with bad := if wholeLine va.toNat bs then r.bad.filter (· != va.toNat / 64) else r.bad, out := (List.range bs.length).foldl (fun t i =>
      Table.set t (va.toNat + i - r.outVa.toNat) (bs.getD i 0#8)) r.out }

/-- A store of the issuing hart whose address has passed its checks: to a pure task's output, an activation's buffer, or out; `rep` is
the address its instruction named. -/
def storeMem (s : State) (va rep : Word) (bs : List Byte) : Except Stop State :=
  match s.me.pure with
  | some r => .ok (s.setMe { s.me with pure := some (r.put va bs) })
  | none => bufferOr s (.store va bs false rep) (fun s => storeOut s s.cur va rep bs)

/-- R300: whether a range lies in one of a list of tiles. -/
def inTile (va : Word) (n : Nat) (t : Word × Nat) : Bool :=
  t.1.toNat ≤ va.toNat && va.toNat + n ≤ t.1.toNat + t.2

/-- R300: an in-bounds read: every byte in an argument tile or the code range. -/
def pureReadOk (r : PureRun) (va : Word) (n : Nat) : Bool :=
  (List.range n).all fun k => ((r.codeVa, r.codeLen) :: r.tiles).any (inTile (va + BitVec.ofNat 64 k) 1)

/-- R300: an in-bounds write. -/
def pureWriteOk (r : PureRun) (va : Word) (n : Nat) : Bool := inTile va n (r.outVa, r.outLen)

/-- R300: a load in pure mode must be an in-bounds read. -/
def needPureRead (va : Word) (n : Nat) (s : State) : Except Stop Unit :=
  match s.me.pure with
  | some r => check (pureReadOk r va n) (.purity va)
  | none => .ok ()

/-- R300: a store in pure mode must be an in-bounds write. -/
def needPureWrite (va : Word) (n : Nat) (s : State) : Except Stop Unit :=
  match s.me.pure with
  | some r => check (pureWriteOk r va n) (.purity va)
  | none => .ok ()

end Sys2Proof.Machine
end

