-- ==== Sys2Proof/Machine/EngKick.lean ====
section
/-! DEFINITION. The engine queues as their cores hold them (R243, R251), and what sets their heads going. -/

namespace Sys2Proof.Machine

/-! ### Copy queues -/

/-- Copy queue q of a core, its head first. -/
def Core.copyq (k : Core) (q : Nat) : List Cmd := Table.get [] k.cq q

/-- The core with a copy queue replaced. -/
def Core.setCopyq (k : Core) (q : Nat) (l : List Cmd) : Core := { k with cq := Table.set k.cq q l }

/-- The head command of a copy queue. -/
def headOf (s : State) (core q : Nat) : Option Cmd := ((s.core core).copyq q).head?

/-- The head command replaced. -/
def setHead (s : State) (core q : Nat) (c : Cmd) : State :=
  let k := s.core core
  s.setCore core (k.setCopyq q (c :: (k.copyq q).tail))

/-- Whether a copy queue is frozen (R167). -/
def qFrozen (s : State) (core q : Nat) : Bool := (s.core core).cqFrozen.getLsbD q

/-- Whether a command waits for leave (R255). -/
def Cmd.waitsLeave (c : Cmd) : Bool :=
  match c.leave with
  | some (_, granted) => !granted
  | none => false

/-- Whether a command has leave to go on, or needs none. -/
def Cmd.hasLeave (c : Cmd) : Bool :=
  match c.leave with
  | some (_, granted) => granted
  | none => false

/-- Whether a command is a PTASK. -/
def Cmd.isTask (c : Cmd) : Bool := !c.args.isEmpty

/-- The step a copy queue's head makes next. -/
def copyStep (core q : Nat) (c : Cmd) : Event :=
  if !c.started then .engineCommandStart (.copy core q)
  else if c.isTask && !c.consumed then .chicoryLookup core
  else .copyPieceDone core q

/-- Whether a command goes on by itself: not held, not waiting for leave or for a handler. -/
def Cmd.ready (c : Cmd) : Bool := !c.busy && c.held.isNone && !c.waitsLeave

/-- The next step of a copy queue set on its way. -/
def kickCopy (s : State) (core q : Nat) : State :=
  match headOf s core q with
  | none => s
  | some c =>
    let e := copyStep core q c
    if c.ready && !qFrozen s core q && coreRuns s core && !s.flight.contains e then s.fly e else s

/-- R251: commands behind the heads of the four queues. -/
def behindHeads (k : Core) : Nat := (List.range 4).foldl (fun n q => n + ((k.copyq q).length - 1)) 0

/-- The instruction of a command. -/
def Cmd.instr (c : Cmd) : Option Instr := (decode32 c.word).toOption

/-- The queue of a command: f3, and queue 0 for MLDW and PTASK (R251, R252, R298). -/
def Cmd.queue (c : Cmd) : Nat :=
  match c.instr with
  | some (.mldw _ _) => 0
  | some (.ptask _ _) => 0
  | _ => c.word.toNat / 2 ^ 17 % 4

/-- R251: commands leave the front queue while there is room behind the heads. -/
def drainFront (s : State) (core : Nat) : Nat → State
  | 0 => s
  | n + 1 =>
    let k := s.core core
    match k.front with
    | [] => s
    | c :: rest =>
      if behindHeads k < 1024 then
        let k := { k with front := rest }
        drainFront (kickCopy (s.setCore core (k.setCopyq c.queue (k.copyq c.queue ++ [c]))) core c.queue) core n
      else s

/-! ### Matrix queues -/

/-- The head command of a core's matrix queue. -/
def mheadOf (s : State) (core : Nat) : Option Cmd := (s.core core).mq.head?

/-- The head command replaced. -/
def setMhead (s : State) (core : Nat) (c : Cmd) : State :=
  let k := s.core core
  s.setCore core { k with mq := c :: k.mq.tail }

/-- The core of queue q of a cluster (R93, R243). -/
def coreOfQueue (cl q : Nat) : Nat := gOfHpos (8 * cl + q)

/-- Whether the head command of a matrix queue takes steps: started, with leave, not held (R244, R260). -/
def stepsReady (s : State) (core : Nat) : Bool :=
  match mheadOf s core with
  | some c => c.started && c.ready
  | none => false

/-- A step of a cluster's unit set on its way; none while it wakes or is frozen (R250, R293). -/
def kickMatrix (s : State) (cl : Nat) : State :=
  let u := s.cluster cl
  if !u.waking && !lockHalted s (coreOfQueue cl 0) && (List.range 8).any (fun q => stepsReady s (coreOfQueue cl q)) &&
      !s.flight.contains (.matrixStepComplete cl) then s.fly (.matrixStepComplete cl)
  else s

/-- The head of a core's matrix queue set going. -/
def kickMhead (s : State) (core : Nat) : State :=
  match mheadOf s core with
  | none => s
  | some c =>
    if c.started then (if core < 1024 then kickMatrix s (clusterOf core) else s)
    else
      let e := Event.engineCommandStart (.matrix core)
      if c.ready && coreRuns s core && !s.flight.contains e then s.fly e else s

end Sys2Proof.Machine
end

