-- ==== Sys2Proof/Machine/Launches.lean ====
section
/-! DEFINITION. Launches: records and their pools (R94, R95), the header (R86), the checks of the launch service (R88, R89),
starting and ending threads (R75, R89 to R92), completion (R88, R292, R309). -/

namespace Sys2Proof.Machine

/-! ### The header (R86) -/

/-- Dword k of a header. -/
def hdrWord (hdr : List Word) (k : Nat) : Word := hdr.getD k 0#64

def hdrL (hdr : List Word) : Nat := fieldOf (hdrWord hdr 1) 31 0
def hdrH (hdr : List Word) : Nat := fieldOf (hdrWord hdr 1) 39 32
def hdrFlags (hdr : List Word) : Nat := fieldOf (hdrWord hdr 1) 47 40
def hdrClass (hdr : List Word) : Nat := fieldOf (hdrWord hdr 1) 55 48
def hdrPrio (hdr : List Word) : Nat := fieldOf (hdrWord hdr 1) 63 56
def hdrSB (hdr : List Word) : Nat := fieldOf (hdrWord hdr 6) 31 0
def hdrBudget (hdr : List Word) : Nat := fieldOf (hdrWord hdr 6) 63 32

/-- Sum of the widths of WIDF. -/
def widthSum (w : Word) : Nat := (List.range 6).foldl (fun n k => n + fieldOf w (7 * k + 6) (7 * k)) 0

/-- The interval length of a record: its own where it has one (R136). -/
def recL (r : LaunchRec) : Nat := if r.len = 0 then hdrL r.hdr else r.len

/-- R86: every field within its limits. -/
def headerOk (r : LaunchRec) : Bool :=
  let h := r.hdr
  (hdrWord h 0).toNat % 2 == 0 && canonical (hdrWord h 0) && 1 ≤ recL r && recL r ≤ 1024 && 1 ≤ hdrH h && hdrH h ≤ 8 &&
    hdrFlags h < 8 && hdrClass h ≤ 3 && hdrPrio h < 8 && (hdrWord h 2).toNat < 2 ^ 42 && widthSum (hdrWord h 2) ≤ 64 && hdrSB h % 16 == 0

/-! ### Status -/

/-- R88, R136, R137: the status of a launch written where it is wanted. DESIGN CHOICE (notes/assumptions/72.md): the put to an armed
launch's completion locator has no sender, which no UNACK counts, and no route check. -/
def reportStatus (s : State) (d : StatusTo) (code : Nat) : State :=
  match d with
  | .token loc _ => tokenPut s loc (BitVec.ofNat 64 code) sigAll 0#3 false
  | .host pa => if isHost pa.toNat then writeRange s none pa.toNat (leBytes 8 code) else s
  | .locator loc _ => sendPut s ⟨loc, false, BitVec.ofNat 512 code, none, 0, none, false, 0#3, false, none⟩
  | .nowhere => s

/-- R95: a pre-built record is unarmed once its launch completes or is refused. -/
def unarm (s : State) (r : LaunchRec) : State :=
  match r.prebuilt with
  | some (d, i) =>
    match Table.find? s.lch.prebuilt (64 * d + i) with
    | some p => { s with lch := { s.lch with prebuilt := Table.set s.lch.prebuilt (64 * d + i) { p with armed := false } } }
    | none => s
  | none => s

/-- A record ended with a status and no launch (R88). -/
def refuseRecord (s : State) (r : LaunchRec) : State := reportStatus (unarm s r) r.dest 0x18

/-! ### Shadows at the end of a V launch (R292) -/

/-- Pages a copy has shadowed. -/
def shadowPages (ms : MemSys) (k : Nat) : Nat :=
  ((Table.get [] ms.shadows k).foldl (fun (r : List Nat) e =>
    if r.contains (e.1 / 64) then r else (e.1 / 64) :: r) []).length

/-- A copy's shadows dropped; its pages return to the partition's pool. -/
def dropShadow (s : State) (p : Option Nat) (l : Nat) (b : Bool) : State :=
  let k := shadowKey l b
  let n := shadowPages s.ms k
  let pool := match p with
    | some q => Table.set s.ms.shadowPool q (Table.get 0 s.ms.shadowPool q + n)
    | none => s.ms.shadowPool
  { s with ms := { s.ms with
      shadows := Table.erase s.ms.shadows k, shadowPoison := Table.erase s.ms.shadowPoison k, shadowPool := pool } }

/-- Whether a copy of a launch made what carries it. -/
def ofLaunch (l : Nat) (k : Option (Nat × Bool)) : Bool :=
  match k with
  | some (j, _) => j == l
  | none => false

/-- The commands of one core's engines without those of a launch, the rest set going. -/
def dropCommands (l : Nat) (s : State) (core : Nat) : State :=
  let k := s.core core
  let keep := fun (c : Cmd) => !ofLaunch l c.shadow
  if k.front.all keep && k.mq.all keep && k.cq.all (fun e => e.2.all keep) then s
  else
    let s := s.setCore core { k with
      front := k.front.filter keep, mq := k.mq.filter keep, cq := Table.mapVals k.cq fun _ (c : List Cmd) => c.filter keep }
    drainFront ((List.range 4).foldl (fun s q => kickCopy s core q) (kickMhead s core)) core 2

/-- R292: what the copies of a launch still have on its way is dropped with their shadows, so that none of it reaches a second run: stores,
log entries and engine commands (notes/assumptions/39.md). -/
def dropWork (s : State) (l : Nat) : State :=
  let keep := fun (c : Cmd) => !ofLaunch l c.shadow
  let s := { s with
    ms := { s.ms with stores := s.ms.stores.filter fun st => !ofLaunch l st.shadow }
    cores := Table.mapVals s.cores fun _ k => { k with sidelog := k.sidelog.filter fun e => !ofLaunch l e.shadow }
    plat := { s.plat with saved := Table.mapVals s.plat.saved fun _ (c : SavedCore) =>
      { c with cq := Table.mapVals c.cq fun _ (d : List Cmd) => d.filter keep, mq := c.mq.filter keep } } }
  (Table.keys s.cores).foldl (dropCommands l) s

/-- Both copies' shadows dropped, with what the copies still have on its way. -/
def dropShadows (s : State) (a : Launch) : State :=
  dropShadow (dropShadow (dropWork s a.id) a.record.part a.id false) a.record.part a.id true

/-- R292: copy A's shadow frames put into place, line by line, their poison as poison; copy B's freed, the TLBs invalidated. DESIGN CHOICE
(notes/assumptions/39.md): a frame keeps the physical address of the page it takes the place of. -/
def commitShadows (s : State) (a : Launch) : State :=
  let k := shadowKey a.id false
  let bad := Table.get [] s.ms.shadowPoison k
  let s := (Table.get [] s.ms.shadows k).foldl (fun s e => storeHome s none (64 * e.1) (leBytes 64 e.2.toNat)) s
  let s := bad.foldl (fun s l => (engPoison s (.mem (64 * l) none false 0 false)).1) s
  let s := dropShadows s a
  { s with ms := { s.ms with tlb := [] } }

/-! ### Placement -/

/-- R90, R292: the position of thread n; copy B runs on the position xor 256. -/
def threadPos (a : Launch) (n : Nat) : Nat :=
  if n < a.n then a.base + n / a.harts else (a.base + (n - a.n) / a.harts) ^^^ 256

/-- R90: the slot of thread n. -/
def threadSlot (a : Launch) (n : Nat) : Nat := slotOf (gOfHpos (threadPos a n)) (n % a.n % a.harts)

/-- Whether a record's partition runs (R49, R94). -/
def recRuns (s : State) (r : LaunchRec) : Bool :=
  match r.part with
  | some p => (s.part p).state == 0
  | none => true

/-- R89: whether waiting thread n may start: its hart free and resident, lower threads of its core started. -/
def canStart (s : State) (a : Launch) (n : Nat) : Bool :=
  let h := threadSlot a n
  a.waiting.contains n && roleOf s h == 0 && ((s.hart h).slot == .free || (s.hart h).slot == .reserved a.id) &&
    recRuns s a.record && !lockSecond s (h / 8) && tenantOf s (h / 8) == a.record.part && !(a.waiting.any fun m => m < n && threadPos a m == threadPos a n)

/-- Starts set on their way for a launch. -/
def kickLaunch (s : State) (l : Nat) : State :=
  match Table.find? s.lch.live l with
  | none => s
  | some a => a.waiting.foldl (fun s n =>
      if canStart s a n && !(s.flight.contains (.threadStart l n)) then s.fly (.threadStart l n) else s) s

/-- Starts that a freed hart allows. -/
def kickStarts (s : State) : State := (Table.keys s.lch.live).foldl kickLaunch s

/-- R97: whether an extent may be enabled for window k of hart h. -/
def windowFits (s : State) (h k : Nat) (ext : Word) : Bool :=
  let lo := stmapOff ext
  let hi := lo + stmapLen ext + 1
  hi ≤ 64 && (hartsOf (h / 8)).all fun g => (List.range 4).all fun j =>
    let e := (s.hart g).st (2 * j + 1)
    (g == h && j == k) || !stmapEn e || stmapOff e + stmapLen e + 1 ≤ lo || hi ≤ stmapOff e

/-- R97, R98: STMAP register k written in a hart, with the check of EN; an enabled window that the write changes ends first. DESIGN
CHOICE (notes/assumptions/84.md): LEN and SOFF of a write whose EN is refused are stored. -/
def setStmap (s : State) (h k : Nat) (v : Word) : State :=
  let v := stmapMask k v
  let s := if v = (s.hart h).st k then s else endWindow s h (k / 2)
  let v := if k % 2 = 1 && stmapEn v && !windowFits s h (k / 2) v then v &&& ~~~0x8000000000000000#64 else v
  s.setHart h { s.hart h with stmap := Table.set (s.hart h).stmap k v }

/-- R90 to R92: thread n of a launch starts. -/
def startThread (s : State) (a : Launch) (n : Nat) : State :=
  let h := threadSlot a n
  let hdr := a.record.hdr
  let wid := n % a.n
  let mask := hdrWord hdr 7 &&& 0x1FFFFFF#64
  let arg0 := a.record.arg0.getD (hdrWord hdr 3)
  let t := freshHart (s.hart h) (nextTag s h) .thread
  let t := t.withCtx a.record.ctx
  let t := { t with
    mode := if a.sstart then .s else .u
    pc := hdrWord hdr 0
    udeleg := 0x8000000000000000#64 ||| mask
    tdeleg := mask
    rclass := BitVec.ofNat 64 (hdrClass hdr)
    wid := BitVec.ofNat 64 wid
    widf := hdrWord hdr 2
    launchId := BitVec.ofNat 64 a.id
    nthreads := BitVec.ofNat 64 a.n
    larg0 := arg0
    larg1 := a.record.arg1
    launch := some (a.id, n) }
  let t := (t.wx 10#5 arg0).wx 11#5 a.record.arg1
  let t := if hdrSB hdr = 0 then t else t.wx 2#5 (hdrWord hdr 5 + BitVec.ofNat 64 ((wid + 1) * hdrSB hdr))
  let s := s.setHart h t
  let s := (List.range 8).foldl (fun s k => setStmap s h k (a.record.presets.getD k 0#64)) s
  let s := match a.record.sig with
    | some g => applySig s (h / 8) h g
    | none => s
  let a := { a with waiting := a.waiting.filter (· != n), running := a.running ++ [n] }
  { s with lch := { s.lch with live := Table.set s.lch.live a.id a } }

/-- R29, R87: a host direct start on a hart. -/
def directThread (s : State) (h : Nat) (ctx : TCtx) (pc p q : Word) : State :=
  let t := freshHart (s.hart h) (nextTag s h) .thread
  let t := t.withCtx ctx
  let t := { t with
    pc := evenBits pc, rclass := 2, launchId := 0xFFFFFFFF, nthreads := 1, larg0 := p, larg1 := q, tdeleg := 0 }
  s.setHart h ((t.wx 10#5 p).wx 11#5 q)

/-! ### The end of threads and launches -/

/-- The launch removed, its reservations released, its status written. -/
def closeLaunch (s : State) (a : Launch) (code : Nat) : State :=
  let s := { s with lch := { s.lch with live := Table.erase s.lch.live a.id } }
  let free := fun (_ : Nat) (h : Hart) =>
    let h := if h.heldFor = some a.id then { h with heldFor := none } else h
    if h.slot = .reserved a.id then { h with slot := .free } else h
  let s := { s with harts := Table.mapVals s.harts free }
  kickStarts (reportStatus (unarm s a.record) a.record.dest code)

/-- R292: a V launch run once more: shadows dropped, signatures 0, every thread waiting. -/
def rerun (s : State) (a : Launch) : State :=
  let s := dropShadows s a
  let a := { a with waiting := List.range (2 * a.n), running := [], ver := some ⟨0, 0, true, false⟩ }
  kickLaunch { s with lch := { s.lch with live := Table.set s.lch.live a.id a } } a.id

/-- R88, R292: every thread has started and exited. -/
def launchDone (s : State) (a : Launch) : State :=
  match a.ver with
  | none => closeLaunch s a 0
  | some v =>
    if v.sigA = v.sigB ∧ !v.failed then closeLaunch (commitShadows s a) a 0
    else if v.second then closeLaunch (dropShadows s a) a 0x10
    else rerun s a

/-- Thread n of a launch has ended. -/
def threadEnded (s : State) (l n : Nat) : State :=
  match Table.find? s.lch.live l with
  | none => s
  | some a =>
    let a := { a with running := a.running.filter (· != n) }
    let s := { s with lch := { s.lch with live := Table.set s.lch.live l a } }
    if a.waiting.isEmpty && a.running.isEmpty then launchDone s a else s

/-- R34, R51, R75: the thread of a slot ends: an exited entry, the hart free; its launch may complete. -/
def endThread (s : State) (h : Nat) : State :=
  let a := s.hart h
  let s := endWindows s h
  let s := addDep s (h / 8) ⟨s.time.setWidth 32, 3, h % 8, a.tag, 0, false, 0⟩
  let s := freeSlot s h
  let s := match a.launch with
    | some (l, n) => threadEnded s l n
    | none => s
  kickDispatch (kickStarts s) (h / 8)

/-- R36, R80: the thread of a slot, resident or saved, ended without waiting: its saved entry freed, an exited one made. -/
def killSlot (s : State) (h : Nat) : State :=
  let t := s.hart h
  let s := match findDep s (h / 8) (h % 8) t.tag with
    | some i => freeDep s (h / 8) i
    | none => s
  let s := endWindows s h
  freeSlot (addDep s (h / 8) ⟨s.time.setWidth 32, 3, h % 8, t.tag, 0, false, 0⟩) h

/-- R167, R309: the thread of a slot ended without waiting, and told to its launch, which may complete. -/
def killThread (s : State) (h : Nat) : State :=
  let a := s.hart h
  let s := killSlot s h
  let s := match a.launch with
    | some (l, n) => threadEnded s l n
    | none => s
  kickDispatch (kickStarts s) (h / 8)

/-- Whether a hart holds a thread of a launch, resident or saved. -/
def Hart.runsFor (t : Hart) (l : Nat) : Bool :=
  (match t.launch with | some (k, _) => k == l | none => false) && (t.slot == .thread || t.slot == .parked || t.slot == .sliced)

/-- Threads of a launch that slice end keeps for core k of partition p ended likewise. -/
def killKept (l : Nat) (s : State) (e : Nat × SavedCore) : State :=
  let core := gOfHpos ((s.part (e.1 / 1024)).base + e.1 % 1024)
  let gone := e.2.harts.filter fun t => t.2.runsFor l
  let s := gone.foldl (fun s t =>
    let s := match findDep s core t.1 t.2.tag with
      | some i => freeDep s core i
      | none => s
    addDep s core ⟨s.time.setWidth 32, 3, t.1, t.2.tag, 0, false, 0⟩) s
  if gone.isEmpty then s
  else
    let kept := { e.2 with harts := e.2.harts.filter fun t => !t.2.runsFor l }
    { s with plat := { s.plat with saved := Table.set s.plat.saved e.1 kept } }

/-- R309, R292: every remaining thread of a launch ended without waiting, a saved one too. -/
def killThreads (s : State) (l : Nat) : State :=
  match Table.find? s.lch.live l with
  | none => s
  | some a =>
    let b := { a with waiting := [], running := [] }
    let s := { s with lch := { s.lch with live := Table.set s.lch.live l b } }
    let s := (Table.keys s.harts).foldl (fun s h => if (s.hart h).runsFor l then killSlot s h else s) s
    s.plat.saved.foldl (killKept l) s

/-- R309, R292: a launch ended with a status before its threads have exited; nothing is committed. -/
def killLaunch (s : State) (l code : Nat) : State :=
  match Table.find? s.lch.live l with
  | none => s
  | some a =>
    let s := killThreads s l
    let s := if a.ver.isSome then dropShadows s a else s
    closeLaunch s a code

/-- R292: a copy of a V launch has consumed an uncorrectable error. -/
def vFailed (s : State) (l : Nat) : State :=
  match Table.find? s.lch.live l with
  | none => s
  | some a =>
    let s := killThreads s l
    match a.ver with
    | some v => if v.second then closeLaunch (dropShadows s a) a 0x10 else rerun s a
    | none => s

/-! ### Records (R94, R95) -/

/-- Records in a die's pool, in its order of arrival. -/
def State.poolOf (s : State) (die : Nat) : List LaunchRec := Table.get [] s.lch.pool die

/-- A die's pool replaced. -/
def State.setPool (s : State) (die : Nat) (l : List LaunchRec) : State :=
  { s with lch := { s.lch with pool := Table.set s.lch.pool die l } }

/-- R146: whether channel 0 of a core may start an activation: enabled, not masked, none of it running unless CONCURRENT is honoured. -/
def serviceOpen (s : State) (core : Nat) : Bool :=
  let a := (s.core core).chan 0
  qEn a.w1 && !a.masked && (chanConcurrent a.w1 || activeCount s core 0#6 == 0)

/-- R87, R146: the hart that the channel 0 activation of a record takes on the core at its interval base. DESIGN CHOICE
(notes/assumptions/40.md): a base of 1,024 or more, which R88 refuses, is taken modulo 1,024 here. -/
def serviceHart (s : State) (r : LaunchRec) : Option Nat :=
  let core := gOfHpos (r.base % 1024)
  if coreRuns s core && serviceOpen s core then dispatchHart s core 0 else none

/-- Whether a record can be processed now: its partition runs, and a hart can take its activation (R88, R146). -/
def recDue (s : State) (r : LaunchRec) : Bool := recRuns s r && (serviceHart s r).isSome

/-- R94: whether record r goes before record c: the higher priority, of equal ones the one accepted first, wherever it has waited since
(DESIGN CHOICE, notes/assumptions/57.md). -/
def recBefore (r c : LaunchRec) : Bool :=
  hdrPrio c.hdr % 8 < hdrPrio r.hdr % 8 || (hdrPrio c.hdr % 8 == hdrPrio r.hdr % 8 && r.id < c.id)

/-- R94, R95: the record processed next: armed ones first, then highest priority, then oldest, of those that can be. -/
def nextRecord (s : State) (die : Nat) : Option LaunchRec :=
  match (Table.get [] s.lch.armed die).find? (recDue s) with
  | some r => some r
  | none => (s.poolOf die).foldl (fun (b : Option LaunchRec) r =>
      if recDue s r then (match b with
        | none => some r
        | some c => if recBefore r c then some r else b)
      else b) none

/-- The launch service takes up a record of a die. -/
def kickService (s : State) (die : Nat) : State :=
  if (nextRecord s die).isSome && !(s.flight.contains (.launchRecordProcess die)) then s.fly (.launchRecordProcess die) else s

/-- R94, R308: the address of place n of a partition's launch queue in memory, and the words of a record there. -/
def queuePlace (s : State) (p n : Nat) : Nat := areaKey p ((s.part p).savebase.toNat + 0x80000 * (s.part p).len + 192 * n)
def recordDwords (r : LaunchRec) : List Word :=
  (List.range 8).map (hdrWord r.hdr) ++ (List.range 8).map (fun k => r.presets.getD k 0#64) ++
    [BitVec.ofNat 64 r.base, BitVec.ofNat 64 r.len, r.arg0.getD 0#64, r.arg1, (match r.dest with | .token l _ => l | _ => 0#64), 0#64, 0#64, 0#64]

/-- A record of the queue with the header and the presets that its place holds. -/
def fromQueue (s : State) (r : LaunchRec) : LaunchRec :=
  match r.part, r.place with
  | some p, some n =>
    let w := imgWord s (queuePlace s p n)
    { r with hdr := (List.range 8).map fun k => w (8 * k)
             presets := if r.presets.isEmpty then [] else (List.range 8).map fun k => w (64 + 8 * k)
             place := none }
  | _, _ => r

/-- R94: records that wait in memory move into their die's pool while more than 32 pool records are free, those of a queue in the
order they entered it. DESIGN CHOICE (notes/assumptions/57.md): of several partitions' queues the one of the lowest PARTID comes
first, and a record bound for another die, whose pool is not refilled, holds up none behind it. -/
def refillFrom (die : Nat) : Nat → State → State
  | 0, s => s
  | n + 1, s =>
    if (s.poolOf die).length < 224 then
      match s.lch.queue.findSome? fun e => e.2.find? fun r => recRuns s r && r.die == die with
      | some r =>
        let queue := Table.mapVals s.lch.queue fun _ l => l.filter fun k => k.id != r.id
        let s := { s with lch := { s.lch with queue := queue } }
        refillFrom die n (s.setPool die (s.poolOf die ++ [fromQueue s r]))
      | none => s
    else s

/-- R94: a die's pool refilled. -/
def refill (s : State) (die : Nat) : State := kickService (refillFrom die 224 s) die

/-- Places of a partition's launch queue that hold records, those of its pool that slice end has saved among them. -/
def usedPlaces (s : State) (p : Nat) : List Nat :=
  (Table.get [] s.lch.queue p ++ Table.get [] s.plat.savedRecs p).filterMap (·.place)

/-- The first place from `n` on that is not used, of 65,536. -/
def freePlace (used : List Nat) : Nat → Nat → Nat
  | 0, n => n % 65536
  | fuel + 1, n => if used.contains (n % 65536) then freePlace used fuel (n + 1) else n % 65536

/-- R94, R308: a record written to a free place of its partition's launch queue in memory; none where all are taken. -/
def placeRecordIn (s : State) (p : Nat) (r : LaunchRec) : Option (State × LaunchRec) :=
  let used := usedPlaces s p
  if used.length < 65536 then
    let n := freePlace used used.length (Table.get 0 s.lch.qtail p)
    let s := saveWords s (queuePlace s p n) (recordDwords r)
    some ({ s with lch := { s.lch with qtail := Table.set s.lch.qtail p (n + 1) } }, { r with place := some n })
  else none

/-- R94: a record accepted, or refused where the queue of its partition is full. -/
def acceptRecord (s : State) (die : Nat) (r : LaunchRec) : State :=
  if (s.poolOf die).length < 256 then kickService (s.setPool die (s.poolOf die ++ [r])) die
  else
    match r.part with
    | some p =>
      match placeRecordIn s p r with
      | some (s, r) => { s with lch := { s.lch with queue := Table.set s.lch.queue p (Table.get [] s.lch.queue p ++ [r]) } }
      | none => refuseRecord s r
    | none => refuseRecord s r

/-! ### The checks of R88 -/

/-- The slots of a launch, in rising order of position. -/
def launchSlots (base len harts : Nat) : List Nat :=
  (List.range len).flatMap fun k => (List.range harts).map fun j => slotOf (gOfHpos (base + k)) j

/-- R88 step 4, R89: every slot holds the resident role; a co-resident launch needs them free. The second cluster of a bound pair has
none (R293, notes/assumptions/65.md). -/
def slotsOk (s : State) (slots : List Nat) (coResident : Bool) : Bool :=
  slots.all fun h => roleOf s h == 0 && !lockSecond s (h / 8) && (!coResident || freeResident s h)

/-- R292: the interval of copy B lies within one die and the partition, as copy A's must. -/
def verOk (s : State) (p base len : Nat) : Bool :=
  base / 256 == (base + len - 1) / 256 && (List.range len).all fun k => tenantOf s (gOfHpos ((base + k) ^^^ 256)) == some p

/-- R88, R316, R292: whether a record passes the checks, its header being readable. -/
def recordOk (s : State) (r : LaunchRec) : Bool :=
  let l := recL r
  let h := hdrH r.hdr
  let feat := (Table.get 0#64 s.plat.featacc 0) &&& Config.featOff0
  s.plat.featdone.getLsbD 0 && headerOk r && r.base + l ≤ 1024 &&
    (match r.part with
    | none => false
    | some p =>
      ((List.range l).all fun k => tenantOf s (gOfHpos (r.base + k)) == some p) &&
        l * h ≤ 2 ^ widthSum (hdrWord r.hdr 2) && slotsOk s (launchSlots r.base l h) ((hdrFlags r.hdr).testBit 0) &&
        (hdrClass r.hdr != 3 || (feat.getLsbD 1 && verOk s p r.base l &&
          slotsOk s (launchSlots (r.base ^^^ 256) l h) ((hdrFlags r.hdr).testBit 0))))

/-- R88 step 5: the route table of a partition loaded into a core. -/
def loadRoutes (s : State) (core p : Nat) : State :=
  s.setCore core { s.core core with routes := Table.get [] s.routeTabs p }

/-- R146: a lent hart taken for a launch: its thread starts there once the activation has ended. -/
def holdLent (s : State) (l h : Nat) : State :=
  if lent s h && (s.hart h).heldFor.isNone then s.setHart h { s.hart h with heldFor := some l } else s

/-- R89: a slot reserved. -/
def reserveSlot (s : State) (l h : Nat) : State :=
  if (s.hart h).slot = .free then s.setHart h { s.hart h with slot := .reserved l } else holdLent s l h

/-- R88, R90: a record that has passed its checks becomes a launch, its threads waiting. -/
def placeRecord (s : State) (r : LaunchRec) : State :=
  let l := recL r
  let h := hdrH r.hdr
  let ver := hdrClass r.hdr == 3
  let a : Launch := ⟨s.lch.next, r, r.base, l, h, l * h, r.smode && (hdrFlags r.hdr).testBit 1,
    List.range (if ver then 2 * (l * h) else l * h), [], 0, if ver then some ⟨0, 0, false, false⟩ else none⟩
  let cores := (List.range l).map (fun k => gOfHpos (r.base + k)) ++
    (if ver then (List.range l).map fun k => gOfHpos ((r.base + k) ^^^ 256) else [])
  let s := match r.part with
    | some p => cores.foldl (fun s c => loadRoutes s c p) s
    | none => s
  let nxt := if s.lch.next + 1 = 0xFFFFFFFF ∨ s.lch.next = 0xFFFFFFFF then 1 else s.lch.next + 1
  let s := { s with lch := { s.lch with live := Table.set s.lch.live a.id a, next := nxt } }
  let take := if (hdrFlags r.hdr).testBit 0 then reserveSlot else holdLent
  let s := a.waiting.foldl (fun s n => take s a.id (threadSlot a n)) s
  kickLaunch s a.id

/-- R88 step 1: a record whose header could be read. -/
def fillRecord (r : LaunchRec) : Option LaunchRec := if r.hdrVa.isSome && r.hdr.isEmpty then none else some r

/-- R31, R87: a channel 0 activation of the launch service has run on a hart, and taken a tag. -/
def passActivation (s : State) (h : Nat) : State := s.setHart h { s.hart h with tagCtr := nextTag s h }

/-- R88: one record processed, in a channel 0 activation on a hart of its base core. -/
def processRecord (s : State) (die : Nat) : State :=
  match nextRecord s die with
  | none => s
  | some r =>
    let armed := Table.mapVals s.lch.armed fun _ l => l.filter fun k => k.id != r.id
    let pool := Table.mapVals s.lch.pool fun _ l => l.filter fun k => k.id != r.id
    let s := { s with lch := { s.lch with armed := armed, pool := pool } }
    let s := match serviceHart s r with
      | some h => passActivation s h
      | none => s
    let s := refill s die
    let s := match fillRecord r with
      | none => refuseRecord s r
      | some r => if recordOk s r then placeRecord s r else refuseRecord s r
    kickService s die

end Sys2Proof.Machine
end

