-- ==== Sys2Proof/Machine/EngBase.lean ====
section
/-! DEFINITION. What the engines share: commands and their forms (R257, R258), accesses at the homes (R112, R253, R288, R296),
completion and tokens, barrier updates (R128), counts of shared events (R310), leave (R255). -/

namespace Sys2Proof.Machine

/-! ### Commands -/

/-- Group member k of a command. -/
def Cmd.x (c : Cmd) (k : Nat) : Word := member c.g k

/-- The locator of a thread's register as a token (R17): index 0 names no register. -/
def tokenLoc (s : State) (h : Nat) (r : Reg) : Word := locOfSlot s h r.toNat

/-- A command of the issuing hart. -/
def newCmd (s : State) (i : Instr) (g : List Word) (rd rd2 : Reg) : Cmd :=
  let a := s.me
  ⟨s.nextId, i.bits.setWidth 32, g, tokenLoc s s.cur rd, tokenLoc s s.cur rd2, s.cur, a.tag, a.tctx, rclassClass a.rclass, 0, false,
    none, none, .empty, 0#3, false, false, a.pure.isSome, [], none, a.vcopy, [], none⟩

/-- R17, R125: the command counted, its token registers made not ready. -/
def Hart.armTokens (h : Hart) (rd rd2 : Reg) : Hart := { ((h.armX rd).armX rd2) with engines := h.engines + 1 }

/-! ### Accesses at the homes -/

/-- How an engine access fails. -/
inductive EngErr where
  | page (stage : Nat) (addr : Word)
  /-- the address reaches nothing, or a place no form may reach: code 0x06 (R258, R342) -/
  | nothing
  /-- mapped, and not the issuer's to reach: the queue is frozen (R167, R253) -/
  | owner (va : Word)
  /-- a V launch's copy finds its pool of shadow pages empty (R292) -/
  | pool
deriving DecidableEq, Repr

/-- A global address reached at its home by a core, with the rights of a partition. -/
def homeReach (s : State) (owner : Option Nat) (core holder : Nat) (c : TCtx) (va : Word) (acc : Nat) : Except EngErr (Place × State) :=
  match translate s.ms core c va acc with
  | .error (.page st a _) => .error (.page st a)
  | .error .access => .error .nothing
  | .ok (p, ms) =>
    if !reaches ms p.pa then .error .nothing
    else if mayReach ms owner p.pa then
      .ok (physPlace core holder p, { s with ms := ms })
    else .error (.owner va)

/-- The place of a stash offset of an engine's own core: through its window, if one covers it (R98). -/
def engStash (s : State) (owner : Option Nat) (core o acc : Nat) : Except EngErr (Place × State) :=
  match windowAt s core o with
  | none => .ok (.stash (stashIdx core o), s)
  | some (k, w) =>
    let h := s.hart (slotOf core k)
    homeReach s owner core (windowHolder core k w) h.tctx (windowVa h w o) acc

/-- The place of an address for an engine of a core that works for a partition (R98, R112, R253). -/
def engReachFor (s : State) (owner : Option Nat) (core : Nat) (c : TCtx) (va : Word) (acc : Nat) : Except EngErr (Place × State) :=
  if !canonical va then .error .nothing
  else
    match regionOf va with
    | .stash o => if 4096 ≤ core then .error .nothing else engStash s owner core o acc
    | .remote g o => if g = core then engStash s owner core o acc else .ok (.stash (stashIdx g o), s)
    | .global => homeReach s owner core (l1dOf core) c va acc
    | _ => .error .nothing

/-- The place of an address for an engine of a core. -/
def engReach (s : State) (core : Nat) (c : TCtx) (va : Word) (acc : Nat) : Except EngErr (Place × State) :=
  engReachFor s (ownerOf s core) core c va acc

/-- R28: whether an engine operand names the core control or package windows. -/
def namesWindow (va : Word) (n : Nat) : Bool := windowBase ≤ va.toNat + (n - 1)

/-- The parts of a range within 64-byte lines: offset and length. -/
def lineCuts (a n : Nat) : List (Nat × Nat) :=
  if n = 0 then []
  else (List.range ((a + n - 1) / 64 - a / 64 + 1)).map fun k =>
    let lo := Nat.max a ((a / 64 + k) * 64)
    let hi := Nat.min (a + n) ((a / 64 + k + 1) * 64)
    (lo - a, hi - lo)

/-- The thread an engine's command was issued by: its accesses to the L2 count there (R310). -/
def Cmd.who (c : Cmd) : Option (Nat × BitVec 16) := some (c.hart, c.tag)

/-- R310: an engine's access to a place, which counts in the thread it is made for. -/
def countEng (s : State) (who : Option (Nat × BitVec 16)) (p : Place) : State :=
  match who, p with
  | some (h, t), .mem pa _ _ _ _ => if isHost pa then s else countAt s h t evL2 1
  | _, _ => s

/-- One line read at its home: an uncorrectable error and poison are delivered as poison (R288). -/
def engLine (s : State) (who : Option (Nat × BitVec 16)) (shadow : Option (Nat × Bool)) (p : Place) (n : Nat) : EngBytes × State :=
  let view := match p with
    | .stash _ => homeBytes s.ms p n
    | .mem pa _ _ _ _ => (homeBytes s.ms p n).mapIdx fun k b => (shadowByte s.ms shadow (pa + k)).getD b
  let st := viewState s.ms shadow p (placeState s.ms p)
  let s := countEng s who p
  match st with
  | .clean => (view.map fun b => (b, false), touchHome s p)
  | .corrected => (view.map fun b => (b, false), touchHome (settlePlace s p) p)
  | _ => ((List.range n).map fun k => (poisonByte (placeOff p + k), true), settlePlace s p)

/-- A range read by an engine. -/
def engRead (s : State) (core : Nat) (c : TCtx) (who : Option (Nat × BitVec 16)) (shadow : Option (Nat × Bool)) (va : Word) (n : Nat) :
    Except EngErr (EngBytes × State) :=
  (lineCuts va.toNat n).foldlM (fun (r : EngBytes × State) cut => do
    let (p, s) ← engReach r.2 core c (va + BitVec.ofNat 64 cut.1) accRead
    let (bs, s) := engLine s who shadow p cut.2
    pure (r.1 ++ bs, s)) ([], s)

/-- What a write has done beside its bytes: flags, and the lines written (R112, R296). -/
structure EngWrote where
  st : State
  flags : Sticky
  sig : Sig

/-- Bytes of one line written at their home. -/
def engWriteLine (w : EngWrote) (who : Option (Nat × BitVec 16)) (shadow : Option (Nat × Bool)) (va : Word) (p : Place) (bs : EngBytes) :
    EngWrote :=
  let w := { w with st := countEng w.st who p }
  let sig := match p with
    | .stash _ => w.sig
    | .mem pa _ _ _ _ => sigInsert w.sig (lineOf pa)
  match p, shadow with
  | .mem pa _ _ _ _, some (l, b) =>
    let s := shadowWrite w.st l b va pa (bs.map (·.1))
    ⟨if bs.any (·.2) then { s with ms := shadowMark s.ms l b (lineOf pa) } else s, w.flags, sig⟩
  | _, _ =>
    let s := signStore w.st shadow va (bs.map (·.1))
    if bs.any (·.2) then
      let (s, f) := engPoison s p
      ⟨s, w.flags ||| f, sig⟩
    else ⟨writePlaceHome s p (bs.map (·.1)), w.flags, sig⟩

/-- R292: what an engine's write to a place needs in a V launch: a shadow of the page, which the first write draws from the pool. A
frame of class U or D is a destination the form may not reach (notes/assumptions/39.md). -/
def engShadow (s : State) (owner : Option Nat) (shadow : Option (Nat × Bool)) (va : Word) (p : Place) : Except EngErr State :=
  match p, shadow with
  | .mem pa sm _ _ _, some k => match shadowPage s owner va k sm pa with
    | .ok s => .ok s
    | .error .poolEmpty => .error .pool
    | .error _ => .error .nothing
  | _, _ => .ok s

/-- A range written by an engine of a core that works for a partition. -/
def engWriteFor (s : State) (owner : Option Nat) (core : Nat) (c : TCtx) (who : Option (Nat × BitVec 16)) (shadow : Option (Nat × Bool)) (va : Word)
    (bs : EngBytes) (sig : Sig) : Except EngErr EngWrote :=
  (lineCuts va.toNat bs.length).foldlM (fun (w : EngWrote) cut => do
    let a := va + BitVec.ofNat 64 cut.1
    let (p, s) ← engReachFor w.st owner core c a accWrite
    let s ← engShadow s owner shadow a p
    pure (engWriteLine { w with st := s } who shadow a p ((bs.drop cut.1).take cut.2))) ⟨s, 0#3, sig⟩

/-- A range written by an engine of a core. -/
def engWrite (s : State) (core : Nat) (c : TCtx) (who : Option (Nat × BitVec 16)) (shadow : Option (Nat × Bool)) (va : Word)
    (bs : EngBytes) (sig : Sig) : Except EngErr EngWrote :=
  engWriteFor s (ownerOf s core) core c who shadow va bs sig

/-! ### Barrier updates (R128) -/

/-- R128: the update at the home, atomic over the 16 bytes; an overrun makes a record once. A hart's own core keeps no older
copy (R110). DESIGN CHOICE: the record's ASID and VMID are 0 (notes/assumptions/69.md); a V launch's update acts on the object itself
(notes/assumptions/70.md). -/
def barrierApply (s : State) (b : BarOp) : State :=
  let c := BitVec.ofNat 32 b.count
  let old := BitVec.ofNat 32 (memNat s b.pa 4)
  let phase := BitVec.ofNat 32 (memNat s (b.pa + 4) 4)
  let fl := memNat s (b.pa + 8) 4
  let pending := if b.expect then old + c else old - c
  let expect := b.expect || fl.testBit 0
  let done := expect && (pending.msb || pending == 0#32)
  let ovr := done && pending.msb
  let fl' := fl / 4 * 4 + (if ovr || fl.testBit 1 then 2 else 0) + (if expect && !done then 1 else 0)
  let phase' := if done then phase + 1 else phase
  let s := writeRange s none b.pa (leBytes 4 pending.toNat ++ leBytes 4 phase'.toNat ++ leBytes 4 fl')
  let s := match b.sig with
    | some g => { s with ms := publish s.ms (lineOf b.pa) g }
    | none => s
  let s := if ovr && !fl.testBit 1 then
      addRecord s (mkRecord s b.agent.core b.va cBarover 0 accAmo b.agent.master b.agent.unit ⟨0, 0, 0, 0, false, false⟩ false .nobody)
    else s
  match b.slot with
  | some (h, tag) => lowerUnack (countAt (noteWritten (dropOlder s (h / 8) none b.pa 16) h tag b.pa) h tag evL2 1) h tag
  | none => s

/-- R127: the physical address of an object: aligned, in memory of scope 5, 6 or 10, outside software-managed pages. -/
def barrierPlace : Place → Option Nat
  | .mem pa none _ _ _ => if isHost pa then none else some pa
  | _ => none

/-! ### Completion -/

/-- R258: a command's completion: its token, with the signature of the lines it wrote and the flags it hands over. -/
def completeCmd (s : State) (c : Cmd) (code : Nat) : State :=
  tokenPut s c.loc (BitVec.ofNat 64 code) c.sig c.flags true

/-- R164: the MASTER of a copy queue's records: a PTASK's are of a task (notes/assumptions/86.md). -/
def Cmd.copyMaster (c : Cmd) : Nat := if c.isTask then 3 else 1

/-- R164, R167: a copy queue frozen by a protection violation; its record names the kind of access. -/
def freezeQueue (s : State) (core q : Nat) (c : Cmd) (va : Word) (acc : Nat) : State :=
  let k := s.core core
  let s := s.setCore core { k with cqFrozen := k.cqFrozen ||| BitVec.ofNat 4 (2 ^ q) }
  addFreezeRecord s (mkRecord s core va cAccess 0 acc c.copyMaster q c.ctx false .nobody)

/-! ### Leave (R255) -/

/-- Rounded up to a multiple of 64, in units of 64. -/
def units64 (n : Nat) : Nat := (n + 63) / 64

/-- Steps of an MMUL (R243). -/
def mmulSteps (c : Cmd) : Nat :=
  let n := fieldOf (c.x 3) 7 0
  if (c.x 3).getLsbD 9 then n / 2 else n

/-- R255: the leave a command asks for, for the bytes it still has to do; 0 = none. -/
def leaveCost (c : Cmd) : Nat :=
  let big := fun (n : Nat) => if n < 0x10000 then 0 else 2 * units64 (n - c.off)
  match c.instr with
  | some (.mmul _ _ _) => 210 * (mmulSteps c - c.off)
  | some (.mldw _ _) =>
    let l := (c.x 2).toNat
    2 * units64 (l - c.off) + (if c.x 3 = 0#64 then 0 else 2 * units64 (20 * (l / 64) - (c.off - l)))
  | some (.cpy _ _ _) => big (c.x 2).toNat
  | some (.cpyx _ _ _) => big (c.x 2).toNat
  | some (.cpyh _ _ _) => big (c.x 3).toNat
  | some (.cpyg _ _ _) => big (fieldOf (c.x 3) 31 0 * fieldOf (c.x 2) 31 0)
  | some (.cpyrAddS32 _ _ _) | some (.cpyrAddF32 _ _ _) | some (.cpyrAddBf16 _ _ _) | some (.cpyrMinS32 _ _ _)
  | some (.cpyrMaxS32 _ _ _) | some (.cpyrMinF32 _ _ _) | some (.cpyrMaxF32 _ _ _) | some (.cpyrAnd _ _ _)
  | some (.cpyrOr _ _ _) => big (c.x 2).toNat
  | _ => 0

/-- A die's pool in LU. -/
def State.lu (s : State) (die : Nat) : Int := Table.get 0 s.plat.pools die

/-- PWRCAPT as it acts (R320). -/
def capTc (s : State) : Nat := (let t := s.plat.pwrcapt.toNat; if t < 10 then 10 else if 160 < t then 160 else t)

/-- The size of a full pool (R321). -/
def poolFull (s : State) : Int := s.plat.share * (capTc s : Int) / 10

/-- A grant or a further draw charged to a partition: 10^6 LU to 1 EBU (R255). -/
def chargeLeave (s : State) (core cost : Nat) : State :=
  match tenantOf s core with
  | none => s
  | some p =>
    let a := s.part p
    let lu := a.lu + cost
    s.setPart p { a with ebu := a.ebu + BitVec.ofNat 32 (lu / 1000000), lu := lu % 1000000 }

/-- Leave drawn from the pool of a core's die. -/
def drawLeave (s : State) (core cost : Nat) : State :=
  let die := dieOf core
  chargeLeave { s with plat := { s.plat with pools := Table.set s.plat.pools die (s.lu die - (cost : Int)) } } core cost

/-- R255: whether a request of a cost can be granted now. -/
def leaveCovers (s : State) (die cost : Nat) : Bool :=
  !s.plat.throttle && ((cost : Int) ≤ s.lu die || (poolFull s < (cost : Int) && poolFull s ≤ s.lu die))


end Sys2Proof.Machine
end

