-- ==== Sys2Proof/Machine/EngQueues.lean ====
section
/-! DEFINITION. The queues of the engines: the front queue and the four copy queues (R251), the matrix queues (R243), leave
(R255), commands held at faults (R165, R253), frozen queues (R167), completion (R258). -/

namespace Sys2Proof.Machine

/-! ### Copy queues -/

/-- R251: a copy command of the issuing hart enters the front queue. -/
def enterFront (s : State) (c : Cmd) : State :=
  let core := s.myCore
  let k := s.core core
  drainFront (s.setCore core { k with front := k.front ++ [c] }) core 2

/-- R251, R257: a COPY command waits at issue while the front queue is full. -/
def needFront (s : State) : Except Stop Unit := check ((s.core s.myCore).front.length < 2) (.wait .other)

/-! ### Matrix queues -/

/-- R243, R257: MZERO, MMUL and MSTW wait at issue while the core's matrix queue is full. -/
def needMatrix (s : State) : Except Stop Unit := check ((s.core s.myCore).mq.length < 2) (.wait .other)

/-- R243: a matrix command of the issuing hart enters its core's queue. -/
def enterMatrix (s : State) (c : Cmd) : State :=
  let core := s.myCore
  let k := s.core core
  kickMhead (s.setCore core { k with mq := k.mq ++ [c] }) core

/-! ### Completion and faults -/

/-- R258: the head of a copy queue ends with a code; the next command of the queue starts. -/
def finishCopy (s : State) (core q : Nat) (c : Cmd) (code : Nat) : State :=
  let k := s.core core
  let s := s.setCore core (k.setCopyq q (k.copyq q).tail)
  let s := completeCmd s c code
  kickCopy (drainFront s core 2) core q

/-- R258, R260: the head of a matrix queue ends with a code; an MMUL that has not written its operands-consumed token writes it
first (R248). -/
def finishMatrix (s : State) (core : Nat) (c : Cmd) (code : Nat) : State :=
  let k := s.core core
  let s := s.setCore core { k with mq := k.mq.tail }
  let s := match c.instr with
    | some (.mmul _ _ _) =>
      let s := if c.consumed then s else matrixToken s c.id c.loc (BitVec.ofNat 64 code) c.sig 0#3 false
      matrixToken s c.id c.loc2 (BitVec.ofNat 64 code) c.sig c.flags true
    | _ => completeCmd s c code
  kickMhead s core

/-- The cause of a page fault's record (R164). -/
def pageCause (acc : Nat) : Nat := if acc = accWrite ∨ acc = accAmo then 0x05 else 0x04

/-- R164, R253: the head of a copy queue held at a translation fault. -/
def holdCopy (s : State) (core q : Nat) (c : Cmd) (stage : Nat) (addr : Word) (acc : Nat) : State :=
  let r := mkRecord s core addr (pageCause acc) stage acc c.copyMaster q c.ctx true (.copy core q)
  setHead (addRecord s r) core q { c with held := some r.fid }

/-- R164, R260: the head of a matrix queue held at a translation fault. -/
def holdMatrix (s : State) (core : Nat) (c : Cmd) (stage : Nat) (addr : Word) (acc : Nat) : State :=
  let r := mkRecord s core addr (pageCause acc) stage acc 2 (c.hart % 8) c.ctx true (.matrix core)
  setMhead (addRecord s r) core { c with held := some r.fid }

/-- How a piece or a step ends. -/
inductive EngEnd where
  | more
  | done (code : Nat)
  | fault (e : EngErr) (acc : Nat)
deriving DecidableEq, Repr

/-- R292: a store of a command that finds its launch's pool empty ends the launch. -/
def endCopyLaunch (s : State) (c : Cmd) : State :=
  match c.shadow with
  | some (l, _) => killLaunch s l 0x18
  | none => s

/-- The head of a copy queue after a piece. -/
def settleCopy (s : State) (core q : Nat) (c : Cmd) : EngEnd → State
  | .more => kickCopy (setHead s core q c) core q
  | .done code => finishCopy s core q c code
  | .fault (.page st a) acc => holdCopy s core q c st a acc
  | .fault .nothing _ => finishCopy s core q c 0x06
  | .fault .pool _ => endCopyLaunch (finishCopy s core q c 0x06) c
  | .fault (.owner va) acc => freezeQueue (setHead s core q c) core q c va acc

/-- The head of a matrix queue after a step; the registers of R167 name no matrix queue to freeze, so a frame of another owner
ends the command with 0x06. -/
def settleMatrix (s : State) (core : Nat) (c : Cmd) : EngEnd → State
  | .more => kickMhead (setMhead s core c) core
  | .done code => finishMatrix s core c code
  | .fault (.page st a) acc => holdMatrix s core c st a acc
  | .fault .pool _ => endCopyLaunch (finishMatrix s core c 0x06) c
  | .fault _ _ => finishMatrix s core c 0x06

/-! ### Leave (R255) -/

/-- The cores of a die. -/
def coresOfDie (die : Nat) : List Nat := (List.range 256).map (256 * die + ·)

/-- The waiting requests of a core: place in the order, engine, cost. -/
def leaveRequests (s : State) (core : Nat) : List (Nat × EngineRef × Nat) :=
  let one := fun (e : EngineRef) (c : Option Cmd) => match c with
    | some c => (match c.leave with
      | some (n, false) => [(n, e, leaveCost c)]
      | _ => [])
    | none => []
  one (.matrix core) (mheadOf s core) ++ (List.range 4).flatMap fun q => one (.copy core q) (headOf s core q)

/-- R255: the oldest waiting request of a die. -/
def oldestRequest (s : State) (die : Nat) : Option (Nat × EngineRef × Nat) :=
  ((Table.keys s.cores).filter (fun c => c < 1024 && dieOf c == die)).foldl (fun r core =>
    (leaveRequests s core).foldl (fun (r : Option (Nat × EngineRef × Nat)) e => match r with
      | none => some e
      | some f => if e.1 < f.1 then some e else r) r) none

/-- A grant set on its way where the oldest request can be granted. -/
def kickLeave (s : State) (die : Nat) : State :=
  match oldestRequest s die with
  | some e => if leaveCovers s die e.2.2 && !s.flight.contains (.leaveGrant die) then s.fly (.leaveGrant die) else s
  | none => s

/-- R255: the oldest request of a die is granted, and charged; the next one may follow. -/
def grantLeave (s : State) (die : Nat) : State :=
  match oldestRequest s die with
  | none => s
  | some (n, e, cost) =>
    if leaveCovers s die cost then
      let s := match e with
        | .copy core q => match headOf s core q with
          | some c => kickCopy (setHead (drawLeave s core cost) core q { c with leave := some (n, true) }) core q
          | none => s
        | .matrix core => match mheadOf s core with
          | some c => kickMhead (setMhead (drawLeave s core cost) core { c with leave := some (n, true) }) core
          | none => s
      kickLeave s die
    else s

/-- Whether a command must still ask for leave on its core; the link dies of gateways have no pool. -/
def asksLeave (core : Nat) (c : Cmd) : Bool := core < 1024 && leaveCost c != 0 && c.leave.isNone

/-- R112: the fork: a command's first access comes after the stores its hart made before the issue. -/
def forkStores (s : State) (c : Cmd) : State := if (s.hart c.hart).tag = c.tag then performOwn s c.hart else s

/-! ### The weight buffer's window (R246) -/

/-- WBWIN.BASE and LEN as they act. -/
def wbBase (w : Word) : Nat := fieldOf w 5 0
def wbLen (w : Word) : Nat := Nat.min (fieldOf w 13 8) (63 - wbBase w)

/-- Bytes of the window. -/
def wbBytes (w : Word) : Nat := (wbLen w + 1) * 65536

/-- The weight buffer byte of an offset of a core's window. -/
def wbIdx (s : State) (core off : Nat) : Nat := clusterOf core * 0x400000 + wbBase (s.core core).wbwin * 65536 + off

end Sys2Proof.Machine
end

