-- ==== Sys2Proof/Machine/Tasks.lean ====
section
/-! DEFINITION. Pure tasks and the reuse table: the checks of PTASK, the watch, the hash, hit and miss (R273 to R284, R297 to
R302), the pure activation's end, insertion, PTINV (R303). -/

namespace Sys2Proof.Machine

/-! ### Fields of a PTASK command -/

/-- Code length and mode that the issue read, and the argument records: address and dword 1. -/
def Cmd.codeLen (c : Cmd) : Nat := (c.args.getD 0 0#64).toNat
def Cmd.mode (c : Cmd) : Mode := Mode.ofCode ((c.args.getD 1 0#64).toNat)
def Cmd.argCount (c : Cmd) : Nat := fieldOf (c.x 3) 35 32
def Cmd.outLen (c : Cmd) : Nat := fieldOf (c.x 3) 31 0
def Cmd.argAddr (c : Cmd) (k : Nat) : Word := c.args.getD (2 + 2 * k) 0#64
def Cmd.argWord (c : Cmd) (k : Nat) : Word := c.args.getD (3 + 2 * k) 0#64
def Cmd.argLen (c : Cmd) (k : Nat) : Nat := fieldOf (c.argWord k) 31 0

/-- Where the stored result begins among the staged words after a hit. -/
def resultFrom : Nat := 10

/-- Whether a range lies in global memory, outside every stash and stash window (R297). -/
def globalRange (va : Word) (n : Nat) : Bool :=
  canonical va && canonicalRange va n &&
    (match regionOf va, regionOf (va + BitVec.ofNat 64 (n - 1)) with
    | .global, .global => (va.toNat + (n - 1) < remoteBase) || 0x0080000000000000 ≤ va.toNat
    | .global, _ => n == 0
    | _, _ => false)

/-- R297: the operands of a PTASK within their limits. -/
def taskOk (c : Cmd) : Bool :=
  let n := c.argCount
  let entry := c.x 0
  !entry.getLsbD 0 && canonical entry && 1 ≤ c.codeLen && c.codeLen ≤ 65536 && globalRange entry c.codeLen &&
    n ≤ 4 && (n == 0 || aligned (c.x 1) 8) && c.outLen ≤ 65536 && globalRange (c.x 2) c.outLen &&
    (List.range n).all fun k => fieldOf (c.argWord k) 63 40 == 0 && globalRange (c.argAddr k) (c.argLen k)

/-- R28, R297: whether an operand of a PTASK names a window: its code, its argument table, or a tile. -/
def taskWindow (c : Cmd) : Bool :=
  namesWindow (c.x 0) c.codeLen || (c.argCount != 0 && namesWindow (c.x 1) (16 * c.argCount)) ||
  namesWindow (c.x 2) c.outLen || (List.range (Nat.min c.argCount 4)).any fun k => namesWindow (c.argAddr k) (c.argLen k)

/-- The ranges a task reads: its code, then each argument tile. -/
def taskRanges (c : Cmd) : List (Word × Nat) :=
  (c.x 0, c.codeLen) :: (List.range c.argCount).map fun k => (c.argAddr k, c.argLen k)

/-! ### The table (R278 to R282) -/

/-- A tenant's two words. -/
def State.rtenant (s : State) (p : Nat) : Word × Word := Table.get (0#64, 0#64) s.reuse.tenants p

/-- Whether a core's partition may use Chicory. -/
def chicoryOn (s : State) (core : Nat) : Option Nat :=
  match ownerOf s core with
  | some p => if (s.rtenant p).1.getLsbD 63 && featureOn s 2 then some p else none
  | none => none

/-- R279: SETLOG as it acts, and the set of a hash. -/
def setLog (w1 : Word) : Nat := Nat.min (fieldOf w1 19 16) 13
def setOf (w1 : Word) (hash : BitVec 128) : Nat := (fieldOf w1 12 0 + hash.toNat % 8192 % 2 ^ setLog w1) % 8192

/-- R280: QUOTA as it acts. -/
def quotaOf (s : State) (p : Nat) : Nat :=
  Nat.min (Table.get 65536#17 s.reuse.quota p).toNat (8 * 2 ^ setLog (s.rtenant p).2)

/-- A tenant's valid entries. -/
def tenantValid (s : State) (p : Nat) : List REntry := s.reuse.entries.filter fun e => e.part == p && e.state == .valid

/-- USED (R280). -/
def usedOf (s : State) (p : Nat) : Nat := (tenantValid s p).length

/-- Counter k of a tenant raised (R282). -/
def countReuse (s : State) (p k : Nat) : State :=
  { s with reuse := { s.reuse with counts := Table.set s.reuse.counts (4 * p + k) (Table.get 0#64 s.reuse.counts (4 * p + k) + 1#64) } }

/-- R278: whether two entries are of the same task. -/
def sameTask (a b : REntry) : Bool :=
  a.hash == b.hash && a.asid == b.asid && a.vmid == b.vmid && a.cls == b.cls && a.part == b.part && a.len == b.len

/-- The table with an entry removed. -/
def dropEntry (s : State) (id : Nat) : State :=
  { s with reuse := { s.reuse with entries := s.reuse.entries.filter fun e => e.id != id } }

/-! ### Watch and hash (R276, R281, R283) -/

/-- The frames of the pages of a range, each translated with read permission. -/
def framesOf (s : State) (core : Nat) (c : TCtx) (va : Word) (n : Nat) (acc : List Nat) : Except EngErr (List Nat × State) :=
  if n = 0 then .ok (acc, s)
  else
    (List.range ((va.toNat + n - 1) / 4096 - va.toNat / 4096 + 1)).foldlM (fun (r : List Nat × State) k => do
      let a := if k = 0 then va else BitVec.ofNat 64 ((va.toNat / 4096 + k) * 4096)
      let (p, s) ← engReach r.2 core c a accRead
      match p with
      | .mem pa _ _ _ _ => pure (if r.1.contains (pa / 4096) then r.1 else r.1 ++ [pa / 4096], s)
      | .stash _ => .error .nothing) (acc, s)

/-- The frames of every range a task reads. -/
def taskFrames (s : State) (core : Nat) (c : Cmd) : Except EngErr (List Nat × State) :=
  (taskRanges c).foldlM (fun (r : List Nat × State) e => framesOf r.2 core c.ctx e.1 e.2 r.1) ([], s)

/-- Frames watched (R283). -/
def watchFrames (s : State) (fs : List Nat) : State :=
  { s with reuse := { s.reuse with
      watched := fs.foldl (fun (w : List Nat) f => if w.contains f then w else f :: w) s.reuse.watched } }

/-- R276: the finalisation words. -/
def finalWords (c : Cmd) : List Word :=
  [BitVec.ofNat 64 c.codeLen] ++
    (List.range c.argCount).map (fun k => withField (c.argWord k) 41 40 k) ++
    [BitVec.ofNat 64 c.outLen, BitVec.ofNat 64 c.argCount]

/-- R276: the words of a task, read by the copy engine, and whether a block was delivered as poison. -/
def taskWords (s : State) (core : Nat) (c : Cmd) : Except EngErr (List Word × Bool × State) := do
  let (ws, bad, s) ← (taskRanges c).foldlM (fun (r : List Word × Bool × State) e => do
    let (bs, s) ← engRead r.2.2 core c.ctx c.who c.shadow e.1 e.2
    pure (r.1 ++ runWords (bs.map (·.1)), r.2.1 || bs.any (·.2), s)) ([], false, s)
  pure (ws ++ finalWords c, bad, s)

/-! ### Completion of a PTASK (R298) -/

/-- The token of a PTASK: its code with the output length above; the head of copy queue 0 is done. -/
def finishTask (s : State) (core : Nat) (c : Cmd) (code : Nat) : State :=
  let k := s.core core
  let s := s.setCore core (k.setCopyq 0 (k.copyq 0).tail)
  let s := tokenPut s c.loc (BitVec.ofNat 64 (c.outLen * 2 ^ 32 + code)) c.sig c.flags true
  kickCopy (drainFront s core 2) core 0

/-- R281: a miss, or a run without lookup: the activation waits for a hart; `entry` is the pending entry, 0 for none. -/
def missTask (s : State) (core : Nat) (c : Cmd) (entry : Nat) : State :=
  kickDispatch (setHead s core 0 { c with busy := true, off := entry, started := true }) core

/-- R28, R298 steps 4 and 5: a PTASK starts: the checks, then the watch. -/
def startTask (s : State) (core : Nat) (c : Cmd) : State :=
  if taskWindow c then finishTask s core c 6
  else if !taskOk c || !((hartsOf core).any fun h => roleOf s h == 1) then finishTask s core c 4
  else
    match chicoryOn s core with
    | none => missTask s core c 0
    | some _ =>
      match taskFrames s core c with
      | .error (.page st a) => holdCopy s core 0 c st a accRead
      | .error _ => finishTask s core c 4
      | .ok (fs, s) =>
        if 16 < fs.length then missTask s core c 0
        else kickCopy (setHead (watchFrames s fs) core 0 { c with started := true }) core 0

/-- R298: a PTASK that a terminal fault ends: once its stream has begun, its lookup is counted. -/
def failTask (s : State) (core : Nat) (c : Cmd) : State :=
  match chicoryOn s core with
  | some p => finishTask (if c.started && !c.consumed then countReuse s p 0 else s) core c 4
  | none => finishTask s core c 4

/-- R281 steps 2 to 4: the lookup. The frames are watched before the hash reads a byte, also where their translation has changed since
the start (R283). -/
def lookupTask (s : State) (core : Nat) (c : Cmd) : State :=
  match chicoryOn s core with
  | none => missTask s core c 0
  | some p =>
    match taskFrames s core c with
    | .error (.page st a) => holdCopy s core 0 c st a accRead
    | .error _ => finishTask (countReuse s p 0) core c 4
    | .ok (fs, s) =>
      if 16 < fs.length then missTask s core c 0 else
      match taskWords (watchFrames s fs) core c with
      | .error (.page st a) => holdCopy s core 0 c st a accRead
      | .error _ => finishTask (countReuse s p 0) core c 4
      | .ok (ws, bad, s) =>
        if bad then finishTask s core { c with flags := c.flags ||| psn } 4
        else
          let s := countReuse s p 0
          let hash := chicHash ws
          let id := s.nextId
          let e : REntry := ⟨id, hash, c.ctx.asid, c.ctx.vmid, c.cls, p, c.outLen, [], [], fs, 0, setOf (s.rtenant p).2 hash, .pending⟩
          let s := { s with nextId := id + 1 }
          match s.reuse.entries.find? fun k => k.state == .valid && k.set == e.set && sameTask k e with
          | some k =>
            let pad := List.replicate (resultFrom - c.args.length) 0#64
            kickCopy (setHead s core 0 { c with
              consumed := true, off := 0, done := some k.id, bad := k.bad, args := c.args ++ pad ++ runWords k.result }) core 0
          | none => missTask { s with reuse := { s.reuse with entries := s.reuse.entries ++ [e] } } core c id

/-- Bytes of the stored result after a hit. -/
def hitBytes (c : Cmd) : List Byte := ((c.args.drop resultFrom).flatMap fun w => leBytes 8 w.toNat).take c.outLen

/-- R281 step 3, R298: a hit is done: it is counted and the entry's age renewed, then the token written. -/
def finishHit (s : State) (core : Nat) (c : Cmd) : State :=
  let s := match ownerOf s core with
    | some p => countReuse s p 1
    | none => s
  let entries := s.reuse.entries.map fun j => if c.done = some j.id then { j with age := s.nextId } else j
  finishTask { s with nextId := s.nextId + 1, reuse := { s.reuse with entries := entries } } core c 2

/-- R298: the output tile reached for writing before the copy of a hit writes its first byte, so that a fault met then leaves it
unchanged. -/
def hitReach (s : State) (core : Nat) (c : Cmd) : Except EngErr State :=
  if c.off ≠ 0 then .ok s
  else (lineCuts (c.x 2).toNat c.outLen).foldlM (fun s cut => do
    let (_, s) ← engReach s core c.ctx (c.x 2 + BitVec.ofNat 64 cut.1) accWrite
    pure s) s

/-- A byte of a hit's result with whether it is poison. -/
def Cmd.hitByte (c : Cmd) (b : Byte) (k : Nat) : Byte × Bool := (b, c.bad.contains k)

/-- R281 step 3: a piece of a hit's copy. -/
def hitPiece (s : State) (core : Nat) (c : Cmd) : State :=
  if c.outLen ≤ c.off then finishHit s core c
  else
    let dst := c.x 2 + BitVec.ofNat 64 c.off
    let n := Nat.min (c.outLen - c.off) (4096 - dst.toNat % 4096)
    let bs := ((hitBytes c).drop c.off).take n
    let write := (hitReach s core c).bind fun s => engWrite s core c.ctx c.who c.shadow dst (bs.mapIdx fun k b => c.hitByte b (c.off + k)) c.sig
    match write with
    | .error (.page st a) => holdCopy s core 0 c st a accWrite
    | .error (.owner va) => freezeQueue s core 0 c va accWrite
    | .error _ => finishTask s core c 4
    | .ok w =>
      let c := { c with off := c.off + n, sig := w.sig, flags := c.flags ||| w.flags }
      if c.outLen ≤ c.off then finishHit w.st core c else kickCopy (setHead w.st core 0 c) core 0

/-! ### The pure activation (R273, R298, R299) -/

/-- R273, R275: the activation of a missed task starts on hart h. -/
def startPure (s : State) (core h : Nat) (c : Cmd) : State :=
  let a := newActivation s h .pure c.mode (c.x 0)
  let a := a.withCtx c.ctx
  let n := c.argCount
  let run : PureRun := ⟨core, c.id, c.x 0, c.codeLen, (List.range n).map (fun k => (c.argAddr k, c.argLen k)), c.x 2, c.outLen, [],
    [], c.off, 0, c.done.getD 0⟩
  let a := { a with rclass := BitVec.ofNat 64 c.cls, wdog := 65536, pure := some run }
  let regs := [(9, c.x 2), (8, BitVec.ofNat 64 c.outLen)] ++
    (List.range n).map (fun k => (10 + k, c.argAddr k)) ++ (List.range n).map (fun k => (14 + k, BitVec.ofNat 64 (c.argLen k)))
  let a := regs.foldl (fun (a : Hart) e => a.wx (BitVec.ofNat 5 e.1) e.2) a
  ({ s with nextId := s.nextId + 1 }).setHart h a

/-- The PTASK of a running task: the head of its core's queue 0. -/
def taskCmd (s : State) (r : PureRun) : Option Cmd :=
  match headOf s r.core 0 with
  | some c => if c.id = r.cmd then some c else none
  | none => none

/-- R299, R301: a pure activation ends without insertion: the hart is free, the PTASK ends with a code. -/
def endTask (s : State) (h code : Nat) (sig : Sig) (flags : Sticky) : State :=
  match (s.hart h).pure with
  | none => s
  | some r =>
    let s := if r.entry = 0 then s else dropEntry s r.entry
    let s := match taskCmd s r with
      | some c => finishTask s r.core { c with sig := sigUnion c.sig sig, flags := c.flags ||| flags } code
      | none => s
    freeActivation s h

/-- R275, R300: PTVIOL of the issuing thread, wherever it is. -/
def notePurity (s : State) (h : Nat) (va : Word) : State :=
  match (s.hart h).pure with
  | none => s
  | some r =>
    match taskCmd s r with
    | none => s
    | some c => onThread s c.hart c.tag fun a => { a with ptviol := va }

/-- R275: a purity violation aborts the task. -/
def abortPurity (s : State) (h : Nat) (va : Word) : State := endTask (notePurity s h va) h 3 .empty 0#3

/-- R299: a task that consumes an uncorrectable error runs again, at most twice. -/
def rerunTask (s : State) (h : Nat) : State :=
  match (s.hart h).pure with
  | none => s
  | some r =>
    if 2 ≤ r.redeliv then endTask s h 4 .empty 0#3
    else
      match taskCmd s r with
      | none => endTask s h 4 .empty 0#3
      | some c => freeActivation (setHead s r.core 0 { c with done := some (r.redeliv + 1) }) h

/-! ### Insertion (R281 step 5, R302) -/

/-- 64-byte units of a length. -/
def roomUnits (n : Nat) : Nat := (n + 63) / 64

/-- R279, R301: staging units of the tenant's other running tasks. -/
def stagingUnits (s : State) (p h : Nat) : Nat :=
  s.harts.foldl (fun n e => match e.2.pure with
    | some r =>
      let d := ((r.out.foldl (fun (t : List Nat) b => if t.contains ((r.outVa.toNat + b.1) / 8) then t
        else ((r.outVa.toNat + b.1) / 8) :: t) [])).length
      if e.1 != h && r.entry != 0 && tenantOf s r.core == some p then n + roomUnits (8 * (d - 128)) else n
    | none => n) 0

/-- The least recently hit entry of a list. -/
def oldestHit (l : List REntry) : Option REntry :=
  l.foldl (fun (r : Option REntry) e => match r with
    | none => some e
    | some f => if e.age < f.age then some e else r) none

/-- R281: the table with a way of the entry's set free for it; none = no way available. -/
def makeWay (s : State) (e : REntry) : Option State :=
  let q := quotaOf s e.part
  let inSet := s.reuse.entries.filter fun k => k.state == .valid && k.set == e.set
  let mine := inSet.filter (·.part == e.part)
  let room := inSet.length < 8
  if q = 0 then none
  else if usedOf s e.part < q then
    if room then some s
    else (oldestHit mine).map fun k => dropEntry s k.id
  else
    match oldestHit mine with
    | some k => some (dropEntry s k.id)
    | none => if room then (oldestHit (tenantValid s e.part)).map fun k => dropEntry s k.id else none

/-- Units of a tenant's region in use beside those of the task on hart h (R279). -/
def heldUnits (s : State) (p h : Nat) : Nat := (tenantValid s p).foldl (fun n e => n + roomUnits e.len) 0 + stagingUnits s p h

/-- R281: the tenant's least recently hit entries dropped until a result fits its region, or none is left. -/
def makeRoom (p h need total : Nat) : Nat → State → State
  | 0, s => s
  | n + 1, s =>
    if heldUnits s p h + need ≤ total then s
    else
      match oldestHit (tenantValid s p) with
      | some k => makeRoom p h need total n (dropEntry s k.id)
      | none => s

/-- R281 steps 5 and 6, R302: insertion at HEND; the code of the token. -/
def insertResult (s : State) (h id : Nat) (result : List Byte × List Nat) : State × Nat :=
  match s.reuse.entries.find? (·.id == id) with
  | none => (s, 5)
  | some e =>
    let s' := dropEntry s id
    if e.state == .voided then (s', 5)
    else if s'.reuse.entries.any fun k => k.state == .valid && sameTask k e then (s', 1)
    else
      let need := roomUnits e.len
      let total := fieldOf (s.rtenant e.part).1 15 0 * 32768
      if total < need then (s', 5)
      else
        match makeWay s' e with
        | none => (s', 5)
        | some s' =>
          let s' := makeRoom e.part h need total s'.reuse.entries.length s'
          if total < heldUnits s' e.part h + need then (s', 5)
          else
            let e := { e with state := .valid, result := result.1, bad := result.2, age := s'.nextId }
            let s' := { s' with nextId := s'.nextId + 1, reuse := { s'.reuse with entries := s'.reuse.entries ++ [e] } }
            (countReuse s' e.part 2, 1)

/-- The runs of consecutive bytes of an output table. -/
def runsOf : Table Byte → List (Nat × List Byte)
  | [] => []
  | (k, b) :: t =>
    match runsOf t with
    | (j, bs) :: r => if j = k + 1 then (k, b :: bs) :: r else (k, [b]) :: (j, bs) :: r
    | [] => [(k, [b])]

/-- R296: whether byte k of a task's output stands in a block that is poison. -/
def PureRun.badAt (r : PureRun) (k : Nat) : Bool := r.bad.contains ((r.outVa.toNat + k) / 64)

/-- R301: the buffer and the staging area released to the output tile. -/
def releaseOutput (s : State) (h : Nat) (r : PureRun) : Except EngErr EngWrote :=
  (runsOf r.out).foldlM (fun (w : EngWrote) e =>
    engWrite w.st r.core (s.hart h).tctx none none (r.outVa + BitVec.ofNat 64 e.1)
      (e.2.mapIdx fun k b => (b, r.badAt (e.1 + k))) w.sig) ⟨s, 0#3, .empty⟩

/-- R301: HEND of a pure activation: its copies done, its output released, its result inserted, its token written. -/
def hendPure (s : State) (h : Nat) (r : PureRun) : Except Stop State := do
  check (r.copies == 0) (.wait .other)
  match releaseOutput s h r with
  | .error (.page st a) => .error (.hold r.outVa a st accWrite false)
  | .error _ => .ok (endTask s h 4 .empty 0#3)
  | .ok w =>
    let s := w.st
    if r.entry = 0 then .ok (endTask s h 5 w.sig w.flags)
    else
      let result := (List.range r.outLen).map fun k => Table.get 0#8 r.out k
      let (s, code) := insertResult s h r.entry (result, (List.range r.outLen).filter r.badAt)
      .ok (endTask (s.setHart h { s.hart h with pure := some { r with entry := 0 } }) h code w.sig w.flags)

/-! ### PTINV (R303) -/

/-- R303: the tenant's entries that source a frame of a range dropped or voided. -/
def dropFrames (s : State) (p : Nat) (fs : List Nat) : State :=
  let hit := fun (e : REntry) => e.part == p && e.frames.any fs.contains
  let n := (s.reuse.entries.filter fun e => hit e && e.state == .valid).length
  { s with reuse := { s.reuse with
      counts := Table.set s.reuse.counts (4 * p + 3) (Table.get 0#64 s.reuse.counts (4 * p + 3) + BitVec.ofNat 64 n)
      entries := (s.reuse.entries.filter fun e => !(hit e && e.state == .valid)).map fun e =>
        if hit e && e.state == .pending then { e with state := .voided } else e } }

end Sys2Proof.Machine
end

