-- ==== Sys2Proof/Machine/Copies.lean ====
section
/-! DEFINITION. The commands of the copy engine (R253, R254, R263, R265 to R269, R296): their operand checks, their pieces, and
landing handlers of CPYH. -/

namespace Sys2Proof.Machine

/-! ### Lengths -/

/-- Bytes of an index stream of MLDW (R263). -/
def ixBytes (c : Cmd) : Nat := if c.x 3 = 0#64 then 0 else 20 * ((c.x 2).toNat / 64)

/-- Destination bytes of a command. -/
def copyTotal (c : Cmd) : Nat :=
  match c.instr with
  | some (.mldw _ _) => (c.x 2).toNat + ixBytes c
  | some (.cpyg _ _ _) => fieldOf (c.x 3) 31 0 * fieldOf (c.x 2) 31 0
  | some (.cpyh _ _ _) => (c.x 3).toNat
  | _ => (c.x 2).toNat

/-- R253: the bytes of the next piece, cut at the 4 KiB boundaries of both sides. -/
def pieceLen (src dst left : Nat) : Nat := Nat.min left (Nat.min (4096 - src % 4096) (4096 - dst % 4096))

/-- The barrier address of a command, 0 for none (R265, R269). -/
def barrierOf (c : Cmd) : Word :=
  match c.instr with
  | some (.cpyx _ _ _) => c.x 3 &&& ~~~15#64
  | some (.cpy _ _ _) => c.x 3
  | some (.mldw _ _) => 0
  | some (.cpyg _ _ _) => 0
  | some (.cpyh _ _ _) => 0
  | _ => c.x 3

/-! ### CPYR (R266) -/

/-- The reductions. -/
inductive RedKind where
  | addS32 | addF32 | addBf16 | minS32 | maxS32 | minF32 | maxF32 | and | or
deriving DecidableEq, Repr

/-- The reduction of a command. -/
def redKind (c : Cmd) : Option RedKind :=
  match c.instr with
  | some (.cpyrAddS32 _ _ _) => some .addS32
  | some (.cpyrAddF32 _ _ _) => some .addF32
  | some (.cpyrAddBf16 _ _ _) => some .addBf16
  | some (.cpyrMinS32 _ _ _) => some .minS32
  | some (.cpyrMaxS32 _ _ _) => some .maxS32
  | some (.cpyrMinF32 _ _ _) => some .minF32
  | some (.cpyrMaxF32 _ _ _) => some .maxF32
  | some (.cpyrAnd _ _ _) => some .and
  | some (.cpyrOr _ _ _) => some .or
  | _ => none

/-- Bytes of an element. -/
def RedKind.bytes : RedKind → Nat
  | .addBf16 => 2
  | _ => 4

/-- R266: the new value of an element. -/
def RedKind.apply (k : RedKind) (old new : Nat) : Nat :=
  match k with
  | .addS32 => (old + new) % 2 ^ 32
  | .addF32 => fAdd f32Fmt old new
  | .addBf16 => fAdd bf16Fmt old new
  | .minS32 => if sval 32 old ≤ sval 32 new then old else new
  | .maxS32 => if sval 32 new ≤ sval 32 old then old else new
  | .minF32 => fMin f32Fmt old new
  | .maxF32 => fMax f32Fmt old new
  | .and => old &&& new
  | .or => old ||| new

/-- One element read from the source and reduced at its home (R254, R266). -/
def reduceOne (s : State) (core : Nat) (c : Cmd) (k : RedKind) : State × Cmd × EngEnd :=
  let n := k.bytes
  let dst := c.x 1 + BitVec.ofNat 64 c.off
  match engRead s core c.ctx c.who c.shadow (c.x 0 + BitVec.ofNat 64 c.off) n with
  | .error e => (s, c, .fault e accRead)
  | .ok (bs, s1) =>
    if bs.any (·.2) then (s1, { c with flags := c.flags ||| psn }, .done 0x0D)
    else
      match engReach s1 core c.ctx dst accWrite with
      | .error e => (s1, c, .fault e accWrite)
      | .ok (p, s2) =>
        match p with
        | .stash _ => (s2, c, .done 0x06)
        | .mem pa _ _ _ _ =>
          if isHost pa then (s2, c, .done 0x06)
          else
            match engShadow s2 (ownerOf s2 core) c.shadow dst p with
            | .error e => (s2, c, .fault e accWrite)
            | .ok s2 =>
              let (old, s3) := engLine s2 none c.shadow p n
              let v := k.apply (leNat (old.map (·.1))) (leNat (bs.map (·.1)))
              let w := engWriteLine ⟨s3, 0#3, c.sig⟩ c.who c.shadow dst p ((leBytes n v).map fun b => (b, false))
              (w.st, { c with off := c.off + n, sig := w.sig, flags := c.flags ||| w.flags }, .more)

/-- The elements of a piece, in rising offset. -/
def reduceMany (core : Nat) (k : RedKind) : Nat → State → Cmd → State × Cmd × EngEnd
  | 0, s, c => (s, c, .more)
  | n + 1, s, c =>
    match reduceOne s core c k with
    | (s, c, .more) => reduceMany core k n s c
    | r => r

/-! ### Barriers of copies (R128, R265) -/

/-- The barrier's home, reached for an update. -/
def copyBarrier (s : State) (core : Nat) (c : Cmd) : Except EngErr (Option Nat × State) :=
  if barrierOf c = 0#64 then .ok (none, s)
  else do
    let (p, s) ← engReach s core c.ctx (barrierOf c) accAmo
    match barrierPlace p with
    | some pa => .ok (some pa, s)
    | none => .error .nothing

/-- R128: the arrival of a piece's bytes, with the signature of the lines it covers. -/
def pieceArrives (s : State) (core q : Nat) (c : Cmd) (pa : Option Nat) (n : Nat) (sig : Sig) : State :=
  match pa with
  | none => s
  | some pa => countAt (barrierApply s ⟨false, barrierOf c, pa, n, ⟨1, core, q⟩, some sig, none, c.ctx.vmid⟩) c.hart c.tag evL2 1

/-- R112: the lines a piece wrote: its arrival's object is one of them. -/
def withBarrier (g : Sig) (pa : Option Nat) : Sig :=
  match pa with
  | none => g
  | some pa => sigInsert g (lineOf pa)

/-! ### Pieces -/

/-- R296: bytes of a copy put into a pure task's output: a block of the output that takes a byte delivered as poison is poison. -/
def PureRun.putCopy (r : PureRun) (va : Word) (bs : EngBytes) : PureRun :=
  (lineCuts va.toNat bs.length).foldl (fun (r : PureRun) cut =>
    let a := va + BitVec.ofNat 64 cut.1
    let part := (bs.drop cut.1).take cut.2
    let r := r.put a (part.map (·.1))
    if part.any (·.2) && !r.bad.contains (a.toNat / 64) then { r with bad := a.toNat / 64 :: r.bad } else r) r

/-- R301: bytes a pure task's CPY puts into its output. -/
def purePut (s : State) (c : Cmd) (va : Word) (bs : EngBytes) : State :=
  match whereIs s c.hart c.tag with
  | .resident h => match (s.hart h).pure with
    | some r => s.setHart h { s.hart h with pure := some (r.putCopy va bs) }
    | none => s
  | _ => s

/-- R265: a piece of CPY: read wholly, then written. -/
def cpyPiece (s : State) (core q : Nat) (c : Cmd) (n : Nat) : State × Cmd × EngEnd :=
  let src := c.x 0 + BitVec.ofNat 64 c.off
  let dst := c.x 1 + BitVec.ofNat 64 c.off
  match copyBarrier s core c with
  | .error e => (s, c, .fault e accAmo)
  | .ok (pa, s0) =>
    match engRead s0 core c.ctx c.who c.shadow src n with
    | .error e => (s0, c, .fault e accRead)
    | .ok (bs, s1) =>
      if c.pure then (purePut s1 c dst bs, { c with off := c.off + n }, .more)
      else
        match engWrite s1 core c.ctx c.who c.shadow dst bs .empty with
        | .error e => (s1, c, .fault e accWrite)
        | .ok w =>
          (pieceArrives w.st core q c pa n w.sig,
            { c with off := c.off + n, sig := withBarrier (sigUnion c.sig w.sig) pa, flags := c.flags ||| w.flags }, .more)

/-- R269, R296: a poisoned block as CPYX with TYPED = 1 writes it: a poison block; in a stash it stays poison. -/
def typedBlock (p : Place) (bs : EngBytes) : EngBytes :=
  match p with
  | .stash _ => bs
  | .mem _ _ _ _ _ => (leBytes 64 poisonBlock.toNat).map fun b => (b, false)

/-- R269, R296: one 64-byte block of CPYX. -/
def cpyxBlock (s : State) (core : Nat) (c : Cmd) : State × Cmd × EngEnd :=
  let dst := c.x 1 + BitVec.ofNat 64 c.off
  let typed := (c.x 3).getLsbD 0
  match engRead s core c.ctx c.who c.shadow (c.x 0 + BitVec.ofNat 64 c.off) 64 with
  | .error e => (s, c, .fault e accRead)
  | .ok (bs, s1) =>
    match engReach s1 core c.ctx dst accWrite with
    | .error e => (s1, c, .fault e accWrite)
    | .ok (p, s2) =>
      let toU := match p with
        | .stash _ => false
        | .mem pa _ _ _ _ => classOf s2.ms pa == 0
      if bs.any (·.2) && !typed && toU then (s2, c, .done 0x0D)
      else
        let bs := if bs.any (·.2) && typed then typedBlock p bs else bs
        match engShadow s2 (ownerOf s2 core) c.shadow dst p with
        | .error e => (s2, c, .fault e accWrite)
        | .ok s2 =>
          let w := engWriteLine ⟨s2, 0#3, c.sig⟩ c.who c.shadow dst p bs
          (w.st, { c with off := c.off + 64, sig := w.sig, flags := c.flags ||| w.flags }, .more)

/-- The blocks of a piece. -/
def cpyxMany (core : Nat) : Nat → State → Cmd → State × Cmd × EngEnd
  | 0, s, c => (s, c, .more)
  | n + 1, s, c =>
    match cpyxBlock s core c with
    | (s, c, .more) => cpyxMany core n s c
    | r => r

/-- A piece of CPYR or CPYX, with its barrier update for the bytes it has done. -/
def blockPiece (s : State) (core q : Nat) (c : Cmd) (run : State → Cmd → State × Cmd × EngEnd) : State × Cmd × EngEnd :=
  match copyBarrier s core c with
  | .error e => (s, c, .fault e accAmo)
  | .ok (pa, s0) =>
    let (s1, c1, e) := run s0 { c with sig := .empty }
    let n := c1.off - c.off
    let s1 := if n = 0 then s1 else pieceArrives s1 core q c pa n c1.sig
    let g := sigUnion c.sig c1.sig
    (s1, { c1 with sig := if n = 0 then g else withBarrier g pa }, e)

/-- R267: the next piece of CPYG: of the element that the offset lies in. DESIGN CHOICE (notes/assumptions/92.md): an index word delivered
as poison is used as delivered and sets PSN. -/
def cpygPiece (s : State) (core : Nat) (c : Cmd) : State × Cmd × EngEnd :=
  let e := fieldOf (c.x 2) 31 0
  let k := c.off / e
  match engRead s core c.ctx c.who c.shadow (c.x 1 + BitVec.ofNat 64 (4 * k)) 4 with
  | .error x => (s, c, .fault x accRead)
  | .ok (ix, s1) =>
    let idx := leNat (ix.map (·.1))
    let src := c.x 0 + BitVec.ofNat 64 (idx * e + c.off % e)
    let dst := BitVec.ofNat 64 (stashBase + fieldOf (c.x 2) 49 32 + c.off)
    let n := pieceLen src.toNat dst.toNat (e - c.off % e)
    let c := if ix.any (·.2) then { c with flags := c.flags ||| psn } else c
    match engRead s1 core c.ctx c.who c.shadow src n with
    | .error x => (s1, c, .fault x accRead)
    | .ok (bs, s2) =>
      match engWrite s2 core c.ctx c.who c.shadow dst bs c.sig with
      | .error x => (s2, c, .fault x accWrite)
      | .ok w => (w.st, { c with off := c.off + n, sig := w.sig, flags := c.flags ||| w.flags }, .more)

/-- Whether a command is an MLDW. -/
def isMldw (c : Cmd) : Bool := match c.instr with
  | some (.mldw _ _) => true
  | _ => false

/-- R246: the length of a piece of MLDW from an offset, `room` bytes before the end of a source page and `left` before that of the command:
whole words of the weight buffer, of which one may cross the page, but for the last. -/
def mldwLen (room left : Nat) : Nat := if left ≤ room then left else if room < 8 then Nat.min left 8 else room / 8 * 8

/-- R263: the next piece of MLDW; it is performed with a turn of its own once every byte is written (R246). -/
def mldwPiece (s : State) (core : Nat) (c : Cmd) : State × Cmd × EngEnd :=
  if copyTotal c ≤ c.off then (s, { c with consumed := true }, .more)
  else
  let l := (c.x 2).toNat
  let src := if c.off < l then c.x 0 + BitVec.ofNat 64 c.off else c.x 3 + BitVec.ofNat 64 (c.off - l)
  let left := if c.off < l then l - c.off else l + ixBytes c - c.off
  let n := mldwLen (4096 - src.toNat % 4096) left
  match engRead s core c.ctx c.who c.shadow src n with
  | .error e => (s, c, .fault e accRead)
  | .ok (bs, s1) =>
    let wbuf := Memory.writeBytes s1.ms.wbuf (wbIdx s1 core ((c.x 1).toNat + c.off)) (bs.map (·.1))
    ({ s1 with ms := { s1.ms with wbuf := wbuf } }, { c with off := c.off + n }, .more)

/-- R254, R268: the core a CPYH names, where its locator is one it may name. -/
def cpyhCore (s : State) (core : Nat) (c : Cmd) : Option Nat :=
  let l := resolveLocal s.plat.node (c.x 1)
  if locNode l = s.plat.node.toNat ∧ locDie l ≤ 3 then
    match locCore l with
    | some g => if samePart s core g then some g else none
    | none => none
  else none

/-- R254: the next packet of CPYH is sent; the queue waits for its handler. DESIGN CHOICE (notes/assumptions/92.md): a block delivered as
poison travels as delivered, without a mark. -/
def cpyhPiece (s : State) (core q : Nat) (c : Cmd) : State × Cmd × EngEnd :=
  match engRead s core c.ctx c.who c.shadow (c.x 0 + BitVec.ofNat 64 c.off) 64 with
  | .error e => (s, c, .fault e accRead)
  | .ok (bs, s1) =>
    match cpyhCore s1 core c with
    | none => (s1, c, .done 0x06)
    | some g =>
      let k : LandPacket := ⟨core, q, g, BitVec.ofNat 6 (fieldOf (c.x 2) 5 0), c.off, BitVec.ofNat 512 (leNat (bs.map (·.1))), c.hart,
        headerWord s core c.hart (BitVec.ofNat 6 (fieldOf (c.x 2) 5 0)) 3⟩
      (s1.fly (.landingHandlerStart k), { c with busy := true }, .more)

/-- R265: a copy of a pure task ends: one less for HEND to wait for. -/
def pureCopyDone (s : State) (c : Cmd) : State :=
  if c.pure then
    match whereIs s c.hart c.tag with
    | .resident h => match (s.hart h).pure with
      | some r => s.setHart h { s.hart h with pure := some { r with copies := r.copies - 1 } }
      | none => s
    | _ => s
  else s

/-- The state after a piece: the command ends where its last byte is done (R265). -/
def afterPiece (core q : Nat) (r : State × Cmd × EngEnd) : State :=
  let (s, c, e) := r
  let e := match e with
    | .more => if copyTotal c ≤ c.off ∧ !c.busy ∧ (!isMldw c || c.consumed) then .done 0 else .more
    | e => e
  let ends := match e with
    | .more => false
    | .fault (.page _ _) _ => false
    | .fault (.owner _) _ => false
    | _ => true
  settleCopy (if ends then pureCopyDone s c else s) core q c e

/-- R253: the next piece of the head command of a copy queue. -/
def copyPiece (s : State) (core q : Nat) (c : Cmd) : State :=
  if c.isTask then hitPiece s core c
  else
    let n := pieceLen ((c.x 0).toNat + c.off) ((c.x 1).toNat + c.off) (copyTotal c - c.off)
    match c.instr with
    | some (.mldw _ _) => afterPiece core q (mldwPiece s core c)
    | some (.cpyg _ _ _) => afterPiece core q (cpygPiece s core c)
    | some (.cpyh _ _ _) => afterPiece core q (cpyhPiece s core q c)
    | some (.cpyx _ _ _) => afterPiece core q (blockPiece s core q c (cpyxMany core (n / 64)))
    | _ =>
      match redKind c with
      | some k => afterPiece core q (blockPiece s core q c (reduceMany core k (Nat.max 1 (n / k.bytes))))
      | none => afterPiece core q (cpyPiece s core q c n)

/-! ### Operand checks at the start (R257, R258) -/

/-- Whether a number is a multiple of another. -/
def multOf (w : Word) (n : Nat) : Bool := w.toNat % n == 0

/-- R28: whether an operand of a command names the core control or package windows. -/
def copyWindow (c : Cmd) : Bool :=
  match c.instr with
  | some (.cpyg _ _ _) => namesWindow (c.x 0) 1 || namesWindow (c.x 1) (4 * fieldOf (c.x 3) 31 0)
  | some (.cpyh _ _ _) => namesWindow (c.x 0) (c.x 3).toNat
  | some (.mldw _ _) => namesWindow (c.x 0) (c.x 2).toNat || namesWindow (c.x 3) (ixBytes c)
  | some (.cpyx _ _ _) =>
    namesWindow (c.x 0) (c.x 2).toNat || namesWindow (c.x 1) (c.x 2).toNat || namesWindow (c.x 3 &&& ~~~15#64) 16
  | _ => namesWindow (c.x 0) (c.x 2).toNat || namesWindow (c.x 1) (c.x 2).toNat || namesWindow (c.x 3) 16

/-- The code a command's operands end it with; none = they are within their limits. -/
def copyCheck (s : State) (core : Nat) (c : Cmd) : Option Nat :=
  if copyWindow c then some 0x06
  else
  let ranges := canonicalRange (c.x 0) (c.x 2).toNat && canonicalRange (c.x 1) (c.x 2).toNat
  match c.instr with
  | some (.cpy _ _ _) =>
    if c.x 3 ≠ 0#64 && !multOf (c.x 3) 16 then some 0x03 else if ranges then none else some 0x06
  | some (.cpyx _ _ _) =>
    if !(multOf (c.x 0) 64 && multOf (c.x 1) 64 && multOf (c.x 2) 64) then some 0x03 else if ranges then none else some 0x06
  | some (.cpyg _ _ _) =>
    if !multOf (c.x 1) 4 then some 0x03
    else if 0x40000 < fieldOf (c.x 2) 49 32 + copyTotal c then some 0x06 else none
  | some (.cpyh _ _ _) =>
    if !multOf (c.x 3) 64 then some 0x03
    else if (cpyhCore s core c).isNone || fieldOf (c.x 2) 5 0 ≤ 1 then some 0x06 else none
  | some (.mldw _ _) =>
    if !(multOf (c.x 0) 64 && multOf (c.x 1) 64 && multOf (c.x 2) 64 && multOf (c.x 3) 4) then some 0x03
    else if !(core < 1024) || wbBytes (s.core core).wbwin < (c.x 1).toNat + copyTotal c then some 0x06 else none
  | _ =>
    match redKind c with
    | none => none
    | some k =>
      if !(multOf (c.x 1) k.bytes && multOf (c.x 2) k.bytes) || (c.x 3 ≠ 0#64 && !multOf (c.x 3) 16) then some 0x03
      else if !ranges || (match regionOf (c.x 1) with | .global => false | _ => true) then some 0x06
      else none

/-- R251, R255: the head of a copy queue starts. -/
def startCopy (s : State) (core q : Nat) (c : Cmd) : State :=
  let s := forkStores s c
  if c.isTask then startTask s core c
  else
    match copyCheck s core c with
    | some code => finishCopy (pureCopyDone s c) core q c code
    | none =>
      if asksLeave core c then
        kickLeave (setHead { s with nextId := s.nextId + 1 } core q { c with leave := some (s.nextId, false) }) (dieOf core)
      else
        match copyBarrier s core c with
        | .error (.page st a) => holdCopy s core q c st a accAmo
        | .error (.owner va) => freezeQueue s core q c va accAmo
        | .error _ => finishCopy (pureCopyDone s c) core q c 0x06
        | .ok (_, s) =>
          if copyTotal c ≤ c.off then finishCopy (pureCopyDone s c) core q c 0
          else kickCopy (setHead s core q { c with started := true, old := if isMldw c then some s.ms.wbuf else c.old }) core q

/-! ### Landing handlers (R254, R268) -/

/-- The slot of H7 of a core. -/
def landingSlot (core : Nat) : Nat := slotOf core 7

/-- R254: whether a packet is taken: H7 in the landing role, the channel enabled. -/
def landingOpen (s : State) (k : LandPacket) : Bool :=
  roleOf s (landingSlot k.dstCore) == 2 && qEn ((s.core k.dstCore).chan k.chan.toNat).w1

/-- R254: a packet starts its handler on H7, in the channel's mode, with x10 its offset and q15 bound to it. -/
def startLanding (s : State) (k : LandPacket) : State :=
  let h := landingSlot k.dstCore
  let ch := (s.core k.dstCore).chan k.chan.toNat
  let a := newActivation s h (.landing k.chan) (Mode.ofCode (chanMode ch.w0)) (chanPC ch.w0)
  let a := { a with
    handles := Table.set a.handles 15 .packet
    packet := k.block
    hmsg := k.header
    packetFrom := (k.srcCore, k.srcQueue)
    packetCons := 0
    wdog := chanBudget ch.w1 }
  ({ s with nextId := s.nextId + 1 }).setHart h (a.wx 10#5 (BitVec.ofNat 64 k.offset))

/-- The oldest waiting packet of a core set on its way to H7. -/
def kickLanding (s : State) (core : Nat) : State :=
  let k := s.core core
  match k.packets with
  | p :: rest =>
    if (s.hart (landingSlot core)).slot = .free ∧ coreRuns s core then
      (s.setCore core { k with packets := rest }).fly (.landingHandlerStart p)
    else s
  | [] => s

/-- R268: a packet kept with what slice end keeps of its core, until restore. -/
def keepPacket (s : State) (p i : Nat) (k : LandPacket) : State :=
  match Table.find? s.plat.saved (1024 * p + i) with
  | some a => { s with plat := { s.plat with saved := Table.set s.plat.saved (1024 * p + i) { a with packets := a.packets ++ [k] } } }
  | none => s.setCore k.dstCore { s.core k.dstCore with packets := (s.core k.dstCore).packets ++ [k] }

/-- R254, R268: a packet arrives: its handler starts, it waits for H7 or for the restore of its core's partition, or it is refused and
its command ends with 0x06. -/
def landingArrival (s : State) (k : LandPacket) : State :=
  let p := (partOf s k.dstCore).getD 64
  if 2 ≤ (s.part p).state then keepPacket s p (hposOf k.dstCore - (s.part p).base) k
  else if landingOpen s k then
    if (s.hart (landingSlot k.dstCore)).slot = .free ∧ coreRuns s k.dstCore then startLanding s k
    else
      let d := s.core k.dstCore
      s.setCore k.dstCore { d with packets := d.packets ++ [k] }
  else
    let s := match headOf s k.srcCore k.srcQueue with
      | some c => if c.busy && !c.isTask then finishCopy s k.srcCore k.srcQueue c 0x06 else s
      | none => s
    kickLanding s k.dstCore

/-- R254: a packet's handler has ended: the next packet follows, or the command is done. -/
def landingDone (s : State) (from_ : Nat × Nat) : State :=
  match headOf s from_.1 from_.2 with
  | some c =>
    if c.busy && !c.isTask then
      afterPiece from_.1 from_.2 (s, { c with busy := false, off := c.off + 64 }, .more)
    else s
  | none => s

/-- The slot of a landing handler freed, its command told, the next packet sent on. -/
def endLanding (s : State) (h : Nat) : State :=
  let from_ := (s.hart h).packetFrom
  kickLanding (landingDone (freeActivation s h) from_) (h / 8)

end Sys2Proof.Machine
end

