-- ==== Sys2Proof/Machine/MatrixUnit.lean ====
section
/-! DEFINITION. The matrix unit: accumulators (R245), the steps of MMUL, MZERO and MSTW (R259 to R262), the arbiter (R244),
power gating (R250), and the start and the next step of any engine command (R251, R257). -/

namespace Sys2Proof.Machine

/-! ### Accumulators (R245) -/

/-- The key of the first element of an accumulator of a core. -/
def accBase (core a : Nat) : Nat := (core * 2 + a) * 16384

/-- The key of element (i, j). -/
def accKey (core a i j : Nat) : Nat := accBase core a + 128 * i + j

/-- Element (i, j) of an accumulator. -/
def accAt (ms : MemSys) (core a i j : Nat) : Nat := (Table.get 0#32 ms.acc (accKey core a i j)).toNat

/-- R259: every element +0. -/
def clearAcc (ms : MemSys) (core a : Nat) : MemSys :=
  { ms with acc := ms.acc.filter fun e => e.1 < accBase core a || accBase core a + 16384 ≤ e.1 }

/-- An accumulator with every element replaced. -/
def setAcc (ms : MemSys) (core a : Nat) (f : Nat → Nat → Nat) : MemSys :=
  let lo := ms.acc.filter fun e => e.1 < accBase core a
  let hi := ms.acc.filter fun e => accBase core a + 16384 ≤ e.1
  let new := (List.range 128).flatMap fun i => (List.range 128).map fun j =>
    (accKey core a i j, BitVec.ofNat 32 (f i j))
  { ms with acc := lo ++ new ++ hi }

/-! ### Stash operands -/

/-- n bytes of the issuing core's stash, through a window where one maps the offset (R98, R248). -/
def stashRead (s : State) (core : Nat) (c : Cmd) (off n : Nat) : Except EngErr (EngBytes × State) :=
  engRead s core c.ctx c.who c.shadow (BitVec.ofNat 64 (stashBase + off)) n

/-! ### MMUL (R260) -/

/-- The fields of an MMUL's group. -/
def mmN (c : Cmd) : Nat := fieldOf (c.x 3) 7 0
def mmAcc (c : Cmd) : Nat := fieldOf (c.x 3) 8 8
def mmSparse (c : Cmd) : Bool := (c.x 3).getLsbD 9

/-- The code an MMUL's operands end it with. -/
def mmulCheck (s : State) (core : Nat) (c : Cmd) : Option Nat :=
  let n := mmN c
  let bb := if mmSparse c then 5376 * n else 8192 * n
  if !(multOf (c.x 0) 64 && multOf (c.x 1) 64 && multOf (c.x 2) 64) then some 0x03
  else if mmSparse c && (n % 2 == 1 || !featureOn s 0) then some 0x06
  else if 0x40000 < (c.x 0).toNat + 127 * (c.x 1).toNat + 64 * n then some 0x06
  else if wbBytes (s.core core).wbwin < (c.x 2).toNat + bb then some 0x06
  else none

/-- R249: the bytes of a block at a stash offset as a racing MMUL reads them: each aligned word as it is, or as it was when the command
issued; the bits of `pick` decide, by word. -/
def mixOld (core off pick : Nat) (old : Memory) (bs : List Byte) : List Byte :=
  bs.mapIdx fun k b => if pick.testBit ((off + k) / 8) then Memory.read old (stashIdx core (off + k)) else b

/-- R248, R249: one A block. Through a window it is read as it is (notes/assumptions/62.md). -/
def aBlock (s : State) (core : Nat) (c : Cmd) (pick off : Nat) : Except EngErr (VWord × State) := do
  let (bs, s) ← stashRead s core c off 64
  let bytes := match c.old with
    | some old => if old == s.ms.stash || (windowAt s core off).isSome then bs.map (·.1) else mixOld core off pick old (bs.map (·.1))
    | none => bs.map (·.1)
  .ok (BitVec.ofNat 512 (leNat bytes), s)

/-- The A blocks of K-block kb, one for each row. -/
def aBlocks (s : State) (core : Nat) (c : Cmd) (pick kb : Nat) : Except EngErr (List VWord × State) :=
  (List.range 128).foldlM (fun (r : List VWord × State) i => do
    let (b, s) ← aBlock r.2 core c pick ((c.x 0).toNat + i * (c.x 1).toNat + 64 * kb)
    pure (r.1 ++ [b], s)) ([], s)

/-- R246: the MLDWs of a cluster that are writing: the whole words of the weight buffers each has written, and what they held before. -/
def wbRaces (s : State) (cl : Nat) : List (Nat × Nat × Memory) :=
  (List.range 8).filterMap fun q =>
    match headOf s (coreOfQueue cl q) 0 with
    | some c => (match c.old with
      | some old =>
        if isMldw c && c.started then
          some (wbIdx s (coreOfQueue cl q) (c.x 1).toNat, wbIdx s (coreOfQueue cl q) ((c.x 1).toNat + c.off), old)
        else none
      | none => none)
    | none => none

/-- R246: n bytes of the weight buffer as an MMUL reads them: each aligned word that an MLDW is still writing with its old or its new
value, as the bits of `pick` decide. -/
def wbBytesAt (s : State) (races : List (Nat × Nat × Memory)) (pick i n : Nat) : List Byte :=
  (List.range n).map fun k =>
    let a := i + k
    races.foldl (fun b r => if r.1 ≤ a && a < r.2.1 && pick.testBit (a / 8) then Memory.read r.2.2 a else b)
      (Memory.read s.ms.wbuf a)

/-- A block of the weight buffer. -/
def wbBlock (s : State) (races : List (Nat × Nat × Memory)) (pick core off : Nat) : VWord :=
  if races.isEmpty then Memory.readBlock s.ms.wbuf (wbIdx s core off)
  else BitVec.ofNat 512 (leNat (wbBytesAt s races pick (wbIdx s core off) 64))

/-- R260, R261: the B blocks of K-block kb, one for each column. -/
def bBlocks (s : State) (core : Nat) (c : Cmd) (pick kb : Nat) : List VWord :=
  let races := wbRaces s (clusterOf core)
  let bo := (c.x 2).toNat
  (List.range 128).map fun j =>
    if mmSparse c then
      let k := kb / 2 * 128 + j
      let i := wbIdx s core (bo + 4096 * mmN c + 20 * k)
      let idx := if races.isEmpty then Memory.readNat s.ms.wbuf i 20 else leNat (wbBytesAt s races pick i 20)
      expand (wbBlock s races pick core (bo + 64 * k)) idx (kb % 2)
    else wbBlock s races pick core (bo + 64 * (128 * kb + j))

/-- R243: whether a block makes its step cost 120 cycles. -/
def costly (b : VWord) : Bool := blkFmt b == 2 || blkFmt b == 3

/-- R215: one K-block folded into the accumulator, with the flags raised. -/
def foldBlock (ms : MemSys) (core a : Nat) (as bs : List VWord) : MemSys × Sticky :=
  let term := fun (i j : Nat) => pairterm (as.getD i 0#512) (bs.getD j 0#512)
  let flags := (List.range 128).foldl (fun (f : Sticky) i => (List.range 128).foldl (fun f j => f ||| (term i j).2) f) 0#3
  (setAcc ms core a fun i j => fAdd f32Fmt (accAt ms core a i j) (term i j).1, flags)

/-- R243, R247: the K-blocks of a step. -/
def stepBlocks (c : Cmd) : List Nat := if mmSparse c then [2 * c.off, 2 * c.off + 1] else [c.off]

/-- The A and B blocks of the K-blocks of a step. -/
def stepOperands (s : State) (core : Nat) (c : Cmd) : Except EngErr (List (List VWord × List VWord) × State) :=
  let (pick, s) := s.freshNat
  (stepBlocks c).foldlM (fun (r : List (List VWord × List VWord) × State) kb => do
    let (as, s) ← aBlocks r.2 core c pick kb
    pure (r.1 ++ [(as, bBlocks s core c pick kb)], s)) ([], s)

/-- R260: one step of an MMUL; the operands-consumed token follows the last A block (R248). -/
def mmulStep (s : State) (core : Nat) (c : Cmd) : State × Cmd × EngEnd :=
  match stepOperands s core c with
  | .error e => (s, c, .fault e accRead)
  | .ok (ops, s) =>
    let dear := ops.any fun e => e.1.any costly || (!mmSparse c && e.2.any costly)
    let s := if dear then drawLeave s core 105 else s
    let (ms, flags) := ops.foldl (fun (r : MemSys × Sticky) e =>
      let (ms, f) := foldBlock r.1 core (mmAcc c) e.1 e.2
      (ms, r.2 ||| f)) (s.ms, 0#3)
    let s := { s with ms := ms }
    let c := { c with off := c.off + 1, flags := c.flags ||| flags }
    if mmulSteps c ≤ c.off then (matrixToken s c.id c.loc 0 c.sig 0#3 false, { c with consumed := true }, .done 0) else (s, c, .more)

/-! ### MSTW (R262) -/

/-- The fields of an MSTW's group. -/
def stFmt (c : Cmd) : Nat := fieldOf (c.x 2) 2 0
def stClear (c : Cmd) : Bool := (c.x 2).getLsbD 3
def stAcc (c : Cmd) : Nat := fieldOf (c.x 2) 4 4
def stRow (c : Cmd) : Nat := if stFmt c = 0 then 512 else if stFmt c = 1 then 256 else 128

/-- The code an MSTW's operands end it with. -/
def mstwCheck (c : Cmd) : Option Nat :=
  if !(multOf (c.x 0) 64 && multOf (c.x 1) 64 && multOf (c.x 3) 64) then some 0x03
  else if 2 < stFmt c then some 0x06
  else if 0x40000 < (c.x 0).toNat + 127 * (c.x 1).toNat + stRow c || (c.x 3 ≠ 0#64 && 0x40000 < (c.x 3).toNat + 512) then some 0x06
  else none

/-- The bytes of a row of values, and the flags of packing it. -/
def rowBytes (f : Nat) (v : List Nat) : List Byte × Sticky :=
  match f with
  | 0 => (v.flatMap fun x => leBytes 4 (if f32Fmt.isNaN x then f32Fmt.nanBits else x), 0#3)
  | 1 => (v.flatMap fun x => leBytes 2 (f32ToBf16 x), 0#3)
  | _ =>
    let a := packBlock 1 (v.take 80)
    let b := packBlock 1 (v.drop 80 ++ List.replicate 32 0)
    (leBytes 64 a.1.toNat ++ leBytes 64 b.1.toNat, a.2 ||| b.2)

/-- The bias row, none where the command names none (R262). DESIGN CHOICE (notes/assumptions/92.md): one delivered as poison is added as
delivered and sets PSN. -/
def biasRow (s : State) (core : Nat) (c : Cmd) : Except EngErr (Option (List Nat) × Sticky × State) :=
  if c.x 3 = 0#64 then .ok (none, 0#3, s)
  else do
    let (bs, s) ← stashRead s core c (c.x 3).toNat 512
    let bytes := bs.map (·.1)
    pure (some ((List.range 128).map fun j => leNat ((bytes.drop (4 * j)).take 4)), Sticky.when (bs.any (·.2)) psn, s)

/-- Row `off` of an MSTW. -/
def mstwRow (s : State) (core : Nat) (c : Cmd) : State × Cmd × EngEnd :=
  match biasRow s core c with
  | .error e => (s, c, .fault e accRead)
  | .ok (bias, pf, s) =>
    let acc := fun j => accAt s.ms core (stAcc c) c.off j
    let v := (List.range 128).map fun j => match bias with
      | none => acc j
      | some b => fAdd f32Fmt (acc j) (b.getD j 0)
    let (bytes, f) := rowBytes (stFmt c) v
    let dst := BitVec.ofNat 64 (stashBase + (c.x 0).toNat + c.off * (c.x 1).toNat)
    match engWrite s core c.ctx c.who c.shadow dst (bytes.map fun b => (b, false)) c.sig with
    | .error e => (s, c, .fault e accWrite)
    | .ok w => (w.st, { c with off := c.off + 1, sig := w.sig, flags := c.flags ||| w.flags ||| f ||| pf }, .more)

/-- The rows left, in rising order; a fault leaves the rest (R262). -/
def mstwRows (core : Nat) : Nat → State → Cmd → State × Cmd × EngEnd
  | 0, s, c => (s, c, .more)
  | n + 1, s, c =>
    match mstwRow s core c with
    | (s, c, .more) => mstwRows core n s c
    | r => r

/-- R262: the step of an MSTW. -/
def mstwStep (s : State) (core : Nat) (c : Cmd) : State × Cmd × EngEnd :=
  match mstwRows core (128 - c.off) s c with
  | (s, c, .more) =>
    let s := if stClear c then { s with ms := clearAcc s.ms core (stAcc c) } else s
    (s, c, .done 0)
  | r => r

/-! ### One step of a command -/

/-- The next step of the head command of a core's matrix queue. -/
def matrixStep (s : State) (core : Nat) (c : Cmd) : State :=
  let s := countAt s c.hart c.tag evMatrix 1
  match c.instr with
  | some (.mmul _ _ _) => (fun (r : State × Cmd × EngEnd) => settleMatrix r.1 core r.2.1 r.2.2) (mmulStep s core c)
  | some (.mstw _ _) => (fun (r : State × Cmd × EngEnd) => settleMatrix r.1 core r.2.1 r.2.2) (mstwStep s core c)
  | some (.mzero a) => settleMatrix { s with ms := clearAcc s.ms core a.toNat } core c (.done 0)
  | _ => settleMatrix s core c (.done 0x06)

/-- R257: the head of a matrix queue starts. A gateway has no matrix unit: its commands end with 0x06. -/
def startMatrix (s : State) (core : Nat) (c : Cmd) : State :=
  let s := forkStores s c
  if !(core < 1024) then finishMatrix s core c 0x06
  else
    let code := match c.instr with
      | some (.mmul _ _ _) => mmulCheck s core c
      | some (.mstw _ _) => mstwCheck c
      | _ => none
    match code with
    | some k => finishMatrix s core c k
    | none =>
      if asksLeave core c then
        kickLeave (setMhead { s with nextId := s.nextId + 1 } core { c with leave := some (s.nextId, false) }) (dieOf core)
      else
        let empty := match c.instr with
          | some (.mmul _ _ _) => mmN c == 0
          | _ => false
        if empty then finishMatrix s core c 0 else kickMhead (setMhead s core { c with started := true }) core

/-! ### The arbiter (R244) and gating (R250) -/

/-- MXWT.WEIGHT as it acts. -/
def weightOf (s : State) (core : Nat) : Nat := if (s.core core).mxwt = 0#4 then 1 else (s.core core).mxwt.toNat

/-- The weights of a round that begins now. -/
def roundWeights (s : State) (cl : Nat) : List Nat := (List.range 8).map fun k => weightOf s (coreOfQueue cl k)

/-- R244: the queue whose turn it is, the steps left of it and the weights of its round: the current one while its turn lasts, else the
next ready one of the round, else the first of a new round, which takes the weights as they are then. -/
def pickQueue (s : State) (cl : Nat) : Option (Nat × Nat × List Nat) :=
  let u := s.cluster cl
  let ready := fun (k : Nat) => stepsReady s (coreOfQueue cl k)
  if u.turn ≠ 0 ∧ ready u.queue = true then some (u.queue, u.turn, u.weights)
  else
    match (List.range 8).find? fun k => u.queue < k && ready k with
    | some k => some (k, u.weights.getD k 1, u.weights)
    | none =>
      let ws := roundWeights s cl
      match (List.range 8).find? ready with
      | some k => some (k, ws.getD k 1, ws)
      | none => none

/-- Whether a command's steps use the quarter-arrays (R250). -/
def usesArrays (c : Cmd) : Bool :=
  match c.instr with
  | some (.mmul _ _ _) => true
  | _ => false

/-- R243, R244, R250: the unit's next step. -/
def unitStep (s : State) (cl : Nat) : State :=
  let u := s.cluster cl
  if u.waking || lockHalted s (coreOfQueue cl 0) then s
  else
    match pickQueue s cl with
    | none => s
    | some (q, left, ws) =>
      let core := coreOfQueue cl q
      match mheadOf s core with
      | none => s
      | some c =>
        if usesArrays c && u.gated != 0#4 then
          (s.setCluster cl { u with waking := true, queue := q, turn := left, weights := ws }).fly (.arrayWakeDone cl)
        else
          let s := s.setCluster cl { u with queue := q, turn := left - 1, weights := ws, idle := if usesArrays c then 0 else u.idle }
          let s := matrixStep s core c
          let ended := match mheadOf s core with
            | some d => d.id != c.id
            | none => true
          let s := if ended then s.setCluster cl { s.cluster cl with turn := 0 } else s
          -- with no queue ready the rounds pass over all of them
          let s := if (List.range 8).any fun k => stepsReady s (coreOfQueue cl k) then s
            else s.setCluster cl { s.cluster cl with queue := 8, turn := 0 }
          kickMatrix s cl

/-- R250: quarter k is gated once it has done no step for more than MXIDLE cycles; MXIDLE 0 gates none. -/
def gateQuarter (s : State) (cl k : Nat) : State :=
  let u := s.cluster cl
  if u.mxidle ≠ 0#20 ∧ u.mxidle.toNat < u.idle ∧ !u.waking then
    s.setCluster cl { u with gated := u.gated ||| BitVec.ofNat 4 (2 ^ (k % 4)) }
  else s

/-- R250: the gated quarters are awake. -/
def wakeDone (s : State) (cl : Nat) : State :=
  let u := s.cluster cl
  if u.waking then kickMatrix (s.setCluster cl { u with gated := 0, waking := false, idle := 0 }) cl else s

/-! ### Events of engines -/

/-- R251, R255: a queued command starts. -/
def engineStart (s : State) (e : EngineRef) : State :=
  match e with
  | .copy core q =>
    match headOf s core q with
    | some c => if c.ready && !c.started && !qFrozen s core q && coreRuns s core then startCopy s core q c else s
    | none => s
  | .matrix core =>
    match mheadOf s core with
    | some c => if c.ready && !c.started && coreRuns s core then startMatrix s core c else s
    | none => s

/-- R253: the next piece of a copy queue. -/
def pieceDone (s : State) (core q : Nat) : State :=
  match headOf s core q with
  | some c =>
    if c.ready && c.started && !qFrozen s core q && coreRuns s core && !(c.isTask && !c.consumed) then copyPiece s core q c else s
  | none => s

/-- R281: the lookup of the head PTASK of a core. -/
def taskLookup (s : State) (core : Nat) : State :=
  match headOf s core 0 with
  | some c =>
    if c.ready && c.started && c.isTask && !c.consumed && !qFrozen s core 0 && coreRuns s core then lookupTask s core c else s
  | none => s

end Sys2Proof.Machine
end

