-- ==== Sys2Proof/Machine/Fabric.lean ====
section
/-! DEFINITION. The fabric: link states (R187 to R190), packets and flows (R191, R192), connections and their commands (R181 to
R184, R194, R195), Yarrow (R185, R197 to R202), block assignment (R186, R203). -/

namespace Sys2Proof.Machine

/-! ### Links (R187 to R190) -/

/-- DEVERR with one more link error (R311). -/
def linkError (s : State) : State :=
  { s with plat := { s.plat with deverr := withField s.plat.deverr 63 48 (fieldOf s.plat.deverr 63 48 + 1) } }

/-- Whether a link carries flits. -/
def Link.carries (a : Link) : Bool := a.state == 2 || a.state == 3

/-- R189, R191, R192: a link goes down: its replay buffer is lost, whose packets R191 resends, and the routing tables lose it. -/
def linkDown (s : State) (k : Nat) (a : Link) : State :=
  (s.setLink k { a with state := 0, fails := 0, buf := [], errs := [] }).fly (.routeRemoval (.link k))

/-- R187: the receiver asks for a replay, and the flits of the replay buffer go out again; a flit that fails 16 consecutive replays
takes the link down. -/
def replayLink (s : State) (k : Nat) (crc fail : Bool) : State :=
  let a := s.link k
  if a.carries then
    let a := { a with replays := a.replays + 1, crcerr := if crc then a.crcerr + 1 else a.crcerr, fails := if fail then a.fails + 1 else 0 }
    let s := if 16 ≤ a.fails then linkDown s k a else s.setLink k a
    if crc then linkError s else s
  else s

/-- R188: a lane crosses the threshold: the spare takes its place, or the link goes down; lane 8 is the spare itself, which matters
once it is in use. -/
def spareLane (s : State) (k lane : Nat) : State :=
  let a := s.link k
  if a.carries && lane < 8 then
    let a := { a with badlanes := a.badlanes ||| (1#8 <<< lane), errs := Table.erase a.errs lane }
    if a.spared = 15 then s.setLink k { a with spared := lane, spares := a.spares + 1 } else linkDown s k a
  else if a.carries && lane == 8 && a.spared != 15 then linkDown s k a
  else s

/-- R188: a lane meets an error: those of the last 1 ms count, and more than 32 cross the threshold. -/
def laneError (s : State) (k lane : Nat) : State :=
  let a := s.link k
  if a.carries && lane ≤ 8 then
    let ts := s.time.toNat :: (Table.get [] a.errs lane).filter fun t => s.time.toNat < t + 1000000
    let s := s.setLink k { a with errs := Table.set a.errs lane ts }
    if 32 < ts.length && !s.flight.contains (.laneSpare k lane) then s.fly (.laneSpare k lane) else s
  else s

/-- R189: a link moved between two states; a stopped package moves none (R317). -/
def moveLink (s : State) (k src dst : Nat) : State :=
  let a := s.link k
  if a.state = src ∧ k < 18 ∧ !bootStopped s then s.setLink k { a with state := dst, fails := 0 } else s

/-- R189: a quiescing link whose replay buffer is empty, so that no packet is in flight on it, becomes QUIESCED. -/
def quiesceLink (s : State) (k : Nat) : State := if (s.link k).buf.isEmpty then moveLink s k 3 4 else s

/-- R189: the end of quiescing set on its way where nothing is left to acknowledge. -/
def kickQuiesced (s : State) (k : Nat) : State :=
  if (s.link k).state = 3 && (s.link k).buf.isEmpty && !s.flight.contains (.linkQuiesced k) then s.fly (.linkQuiesced k) else s

/-- R187: the peer acknowledges the oldest n packets of a replay buffer. -/
def ackLink (s : State) (k n : Nat) : State :=
  kickQuiesced (s.setLink k { s.link k with buf := (s.link k).buf.drop n }) k

/-- R189, R318: training ends; a peer with this package's own node number takes the link down. A stopped package trains none (R317). -/
def trainLink (s : State) (k : Nat) (ok : Bool) (peer : BitVec 10) (spared : Option (BitVec 3)) : State :=
  let a := s.link k
  if a.state = 1 ∧ !bootStopped s then
    if ok && peer != s.plat.node then
      let s := s.setLink k { a with state := 2, peer := peer.toNat, spared := (match spared with | some l => l.toNat | none => 15) }
      -- R192: the link is a path again, and its peer is reached
      let s := { s with fab := { s.fab with
        removed := s.fab.removed.filter fun e => e != Elem.link k && e != Elem.router (1024 + k) && e != Elem.peer peer.toNat
        lost := s.fab.lost.filter (· != peer.toNat), cut := Table.erase s.fab.cut peer.toNat } }
      { s with plat := { s.plat with nodeLock := true } }
    else s.setLink k { a with state := 0, peer := if ok then peer.toNat else a.peer }
  else s

/-- R189: a peer silent for 1 µs. DESIGN CHOICE (notes/assumptions/89.md): the silence is ignored in QUIESCING. -/
def silentLink (s : State) (k : Nat) : State :=
  let a := s.link k
  if a.state = 1 ∨ a.state = 2 then linkDown s k a else s

/-! ### Commands of a connection -/

/-- The tenant context of a connection: its VMID and ASID, under the roots of its partition's record (R194, R306). -/
def connCtx (s : State) (c : Nat) : TCtx :=
  let a := s.conn c
  { (s.part a.part).tctx true with asid := a.asid, vmid := a.vmid }

/-- R181: open, and owned by the tenant a core works for, on a gateway its current one (R186). -/
def connUsable (s : State) (core c : Nat) : Bool := (s.conn c).state == 1 && tenantOf s core == some (s.conn c).part

/-- Commands a connection holds. -/
def connLoad (a : Conn) : Nat := (a.queue.filter fun e => match e with | .cmd _ => true | .chain _ _ => false).length

/-- A command of a connection's queue replaced. -/
def setConnCmd (s : State) (c : Nat) (d : Cmd) : State :=
  let a := s.conn c
  s.setConn c { a with queue := a.queue.map fun e => match e with
    | .cmd b => if b.id = d.id then .cmd d else e
    | .chain _ _ => e }

/-- A command of a connection's queue. -/
def connCmd (s : State) (c id : Nat) : Option Cmd :=
  (s.conn c).queue.findSome? fun e => match e with
    | .cmd b => if b.id = id then some b else none
    | .chain _ _ => none

/-- R183: the leading commands that have ended are counted and leave the queue; a closing entry with none left is closed. -/
def raiseCount : Nat → Conn → Conn
  | 0, a => a
  | n + 1, a =>
    match a.queue with
    | .cmd b :: rest => if b.done.isSome then raiseCount n { a with queue := rest, count := a.count + 1 } else a
    | _ => a

/-- The connection after commands have ended. -/
def settleConn (a : Conn) : Conn :=
  let a := raiseCount a.queue.length a
  if a.state = 3 ∧ a.queue.isEmpty = true then { a with state := 0 } else a

/-- Lengths of the group forms: connection number and length fields (R181). -/
def connNum (w : Word) : Nat := fieldOf w 11 0
def len32 (w : Word) : Nat := fieldOf w 31 0

/-- The length and the local address of a command. -/
def fabLen (c : Cmd) : Nat :=
  match c.instr with
  | some (.nsend _ _) => len32 (c.x 2)
  | _ => len32 (c.x 3)

/-- A command ends: its token carries ALL (R113, R181); its bytes sent are counted (R310). -/
def endConnCmd (s : State) (c : Nat) (d : Cmd) (code : Nat) : State :=
  let sent := match d.instr with
    | some (.nget _ _) => 0
    | _ => fabLen d
  let s := if code = 0 ∧ sent ≠ 0 then countAt s d.hart d.tag evFabric sent else s
  let s := tokenPut s d.loc (BitVec.ofNat 64 code) sigAll d.flags true
  let s := setConnCmd s c { d with done := some code, held := none }
  s.setConn c (settleConn (s.conn c))

/-- R181: a local violation: a terminal-ring record with MASTER 4, code 0x06. -/
def localViolation (s : State) (c : Nat) (d : Cmd) (va : Word) (acc : Nat) : State :=
  let s := addRecord s (mkRecord s (d.hart / 8) va cAccess 0 acc 4 (d.hart % 8) d.ctx false .nobody)
  endConnCmd s c d 0x06

/-- R181: a local translation fault stalls a command. -/
def stallConn (s : State) (c : Nat) (d : Cmd) (stage : Nat) (addr : Word) (acc : Nat) : State :=
  let r := mkRecord s (d.hart / 8) addr (pageCause acc) stage acc 4 (d.hart % 8) d.ctx true (.conn c)
  setConnCmd (addRecord s r) c { d with held := some r.fid }

/-- The longest prefix of a range an engine can read: its bytes and the error that ends it. -/
def engPrefix (core : Nat) (ctx : TCtx) (who : Option (Nat × BitVec 16)) (va : Word) : List (Nat × Nat) → State → EngBytes → State × EngBytes × Option EngErr
  | [], s, acc => (s, acc, none)
  | cut :: rest, s, acc =>
    match engReach s core ctx (va + BitVec.ofNat 64 cut.1) accRead with
    | .error e => (s, acc, some e)
    | .ok (p, s) =>
      let (bs, s) := engLine s who none p cut.2
      engPrefix core ctx who va rest s (acc ++ bs)

/-- The longest prefix of n bytes at an address. -/
def readPrefix (s : State) (core : Nat) (ctx : TCtx) (who : Option (Nat × BitVec 16)) (va : Word) (n : Nat) : State × EngBytes × Option EngErr :=
  engPrefix core ctx who va (lineCuts va.toNat n) s []

/-- Bytes cut into payloads of at most 256 (four flits), n pieces at most. -/
def payloads : Nat → EngBytes → List EngBytes
  | 0, _ => []
  | n + 1, bs => if bs.length ≤ 256 then [bs] else bs.take 256 :: payloads n (bs.drop 256)

/-- R191: a packet of a connection. -/
def connSend (s : State) (c : Nat) (p : Packet) : State := emitPacket s (s.conn c).peern (flowConn c) p

/-- R182, R200: the bytes of an answer sent by `send` in payload packets toward a connection of the peer, the last of them in the packet
that ends it. -/
def answerParts (send : State → Packet → State) (conn : Nat) (last : EngBytes → Packet) (s : State) (bs : EngBytes) : State :=
  let ps := payloads (bs.length / 256 + 1) bs
  send (ps.dropLast.foldl (fun s b => send s (.part conn b)) s) (last (ps.getLastD []))

/-- R182: the packets of a range of an NPUT; the last packet of the command is marked. -/
def putPackets (s : State) (c : Nat) (d : Cmd) (bs : EngBytes) (whole : Bool) : State :=
  let a := s.conn c
  let ps := payloads (bs.length / 256 + 1) bs
  ((List.range ps.length).foldl (fun (r : State × Nat) k =>
    let b := ps.getD k []
    let p := Packet.write a.pconn s.plat.node.toNat c d.id (d.x 2 + BitVec.ofNat 64 r.2) b (whole && k + 1 == ps.length)
    (connSend r.1 c p, r.2 + b.length)) (s, d.off)).1

/-- R28: whether a command names the core control or package windows: its local range, or the range at its peer. -/
def connWindow (d : Cmd) : Bool :=
  namesWindow (d.x 1) (fabLen d) || (match d.instr with
    | some (.nsend _ _) => false
    | _ => namesWindow (d.x 2) (fabLen d))

/-- R182, R184: a command starts, or goes on after a fault from the byte it has reached; true where it holds up those behind it. -/
def startConnCmd (s : State) (c : Nat) (d : Cmd) : State × Bool :=
  let a := s.conn c
  let core := d.hart / 8
  let s := forkStores s d
  if connWindow d then (endConnCmd s c d 0x06, false)
  else match d.instr with
  | some (.nput _ _) =>
    let (s, bs, e) := readPrefix s core d.ctx d.who (d.x 1 + BitVec.ofNat 64 d.off) (fabLen d - d.off)
    let s := if e.isNone || !bs.isEmpty then putPackets s c d bs e.isNone else s
    let d := { d with started := e.isNone, off := d.off + bs.length }
    (match e with
    | none => (setConnCmd s c d, false)
    | some (.page st va) => (stallConn s c d st va accRead, true)
    | some _ => (localViolation s c d (d.x 1 + BitVec.ofNat 64 d.off) accRead, false))
  | some (.nget _ _) =>
    (setConnCmd (connSend s c (.read a.pconn s.plat.node.toNat c d.id (d.x 2) (fabLen d))) c { d with started := true }, false)
  | _ =>
    if !featureOn s 3 then (endConnCmd s c d cFabric, false)
    else
      let again := decide (a.backoff ≠ 0)
      let s := if again then s.setConn c { a with refusedRef := d.id } else s
      let hdr := fun data => Packet.send a.pconn s.plat.node.toNat c d.id ((d.x 3).setWidth 32) (fabLen d) data again
      if 4096 < fabLen d then (setConnCmd (connSend s c (hdr [])) c { d with started := true }, again)
      else
        let (s, bs, e) := readPrefix s core d.ctx d.who (d.x 1) (fabLen d)
        (match e with
        | none => (setConnCmd (connSend s c (hdr bs)) c { d with started := true }, again)
        | some (.page st va) => (stallConn s c d st va accRead, true)
        | some _ => (localViolation s c d (d.x 1) accRead, false))

/-- R183: whether a wait entry is satisfied. -/
def chainMet (s : State) (c : Nat) (n : Word) : Bool := !((s.conn c).count - n).msb

/-- R183, R201: the queue from its head on: each command that may start does; a wait entry, a stalled command or a send that waits
for its retry holds up the rest. -/
def pumpGo (s : State) (c : Nat) : List ConnItem → State
  | [] => s
  | .chain k n :: rest =>
    if chainMet s k n then
      let a := s.conn c
      pumpGo (s.setConn c (settleConn { a with queue := a.queue.erase (.chain k n) })) c rest
    else s
  | .cmd d :: rest =>
    if d.done.isSome then pumpGo s c rest
    else if d.held.isSome || (d.busy && !d.started) then s
    else if d.started then pumpGo s c rest
    else
      match startConnCmd s c d with
      | (s, true) => s
      | (s, false) => pumpGo s c rest

/-- Every connection pumped once. -/
def pumpRound (s : State) : State := (Table.keys s.fab.conns).foldl (fun s c => pumpGo s c (s.conn c).queue) s

/-- Rounds until every wait entry that a rise of a count satisfies has been passed. -/
def pumpRounds : Nat → State → State
  | 0, s => s
  | n + 1, s => pumpRounds n (pumpRound s)

/-- The connections set going. -/
def pumpAll (s : State) : State := pumpRounds (1 + s.fab.conns.foldl (fun n e => n + e.2.queue.length) 0) s

/-- R181: a command of the issuing hart enters its connection's queue, or ends at once with 0x16. -/
def enterConn (s : State) (c : Nat) (d : Cmd) : State :=
  if connUsable s s.myCore c then
    let a := s.conn c
    pumpAll (s.setConn c { a with queue := a.queue ++ [.cmd d] })
  else tokenPut s d.loc (BitVec.ofNat 64 cFabric) sigAll 0#3 true

/-- R181: a full connection holds its commands at issue. -/
def needConnRoom (s : State) (c : Nat) : Except Stop Unit :=
  check (!connUsable s s.myCore c || connLoad (s.conn c) < 64) (.wait .other)

/-! ### Completion of commands -/

/-- R182: the bytes an NGET has read are performed locally. -/
def landGet (s : State) (c : Nat) (d : Cmd) : State :=
  let bs : EngBytes := (((d.args.flatMap fun w => leBytes 8 w.toNat).take (fabLen d)).mapIdx fun k b => (b, d.bad.contains k)).drop d.off
  let dst := d.x 1 + BitVec.ofNat 64 d.off
  let n := Nat.min bs.length (4096 - dst.toNat % 4096)
  match engWrite s (d.hart / 8) d.ctx d.who none dst (bs.take n) .empty with
  | .error (.page st va) => stallConn s c d st va accWrite
  | .error _ => localViolation s c d dst accWrite
  | .ok w =>
    let d := { d with off := d.off + n, flags := d.flags ||| w.flags }
    if fabLen d ≤ d.off ∨ n = 0 then endConnCmd w.st c d 0 else setConnCmd w.st c { d with busy := true }

/-- `landGet` over every page of a command's bytes. -/
def landGets : Nat → State → Nat → Nat → State
  | 0, s, _, _ => s
  | n + 1, s, c, id =>
    match connCmd s c id with
    | some d => if d.done.isSome || d.held.isSome then s else landGets n (landGet s c d) c id
    | none => s

/-- R183: a command completes at its peer with a code, an NGET with its bytes. -/
def commandComplete (s : State) (c id code : Nat) (data : EngBytes) (flags : Sticky) : State :=
  match connCmd s c id with
  | none => s
  | some d =>
    if d.done.isSome || !d.started then s
    else
      let d := { d with flags := d.flags ||| flags }
      match d.instr with
      | some (.nget _ _) =>
        if code = 0 then
          let d := { d with
            args := runWords (data.map (·.1)), bad := (List.range data.length).filter fun k => (data.getD k (0#8, false)).2, off := 0 }
          pumpAll (landGets (data.length / 4096 + 3) (setConnCmd s c d) c id)
        else pumpAll (endConnCmd s c d code)
      | _ => pumpAll (endConnCmd s c d code)

/-- R200: the bytes of a matched rendezvous send are read at the sender and sent; the command ends when the pull does. -/
def answerPull (s : State) (c : Nat) (d : Cmd) (n : Nat) : State :=
  let (s, bs, e) := readPrefix s (d.hart / 8) d.ctx d.who (d.x 1) (Nat.min n (fabLen d))
  let pc := (s.conn c).pconn
  let answer := fun (ok : Bool) => answerParts (fun s p => connSend s c p) pc (.payload pc d.id ok) s bs
  match e with
  | none => setConnCmd (answer true) c { d with consumed := false }
  | some (.page st va) => stallConn s c { d with args := [BitVec.ofNat 64 n], consumed := true } st va accRead
  | some _ => localViolation (answer false) c d (d.x 1 + BitVec.ofNat 64 bs.length) accRead

/-- R200: a terminal fault reading ends the send with 0x04. -/
def failPull (s : State) (c : Nat) (d : Cmd) (n : Nat) : State :=
  let (s, bs, _) := readPrefix s (d.hart / 8) d.ctx d.who (d.x 1) (Nat.min n (fabLen d))
  let pc := (s.conn c).pconn
  endConnCmd (answerParts (fun s p => connSend s c p) pc (.payload pc d.id false) s bs) c d 0x04

/-- R201: the back-off after one more refusal, in microseconds. -/
def refuseBackoff (a : Conn) : Nat := if a.backoff = 0 then 2 else if 256 ≤ a.backoff then 256 else 2 * a.backoff

/-- R201: a refused send, and the sends behind it, are offered again after the back-off: 2 µs, doubling up to 256. -/
def refuseSend (s : State) (c id : Nat) : State :=
  match connCmd s c id with
  | none => s
  | some d =>
    let a := s.conn c
    let back := fun (e : ConnItem) => match e with
      | .cmd b => (match b.instr with
        | some (.nsend _ _) =>
          if b.started && b.done.isNone && d.id ≤ b.id then .cmd { b with started := false, busy := b.id == d.id } else e
        | _ => e)
      | .chain _ _ => e
    s.setConn c { a with
      queue := a.queue.map back
      refused := a.refused + 1
      refusedRef := id
      backoff := refuseBackoff a
      wait := refuseBackoff a * 1000 }

/-- R201: the retry of a refused send. -/
def retrySend (s : State) (c : Nat) : State :=
  let a := s.conn c
  let free := fun (e : ConnItem) => match e with
    | .cmd b => if b.busy && !b.started then .cmd { b with busy := false } else e
    | .chain _ _ => e
  if a.backoff = 0 then s else pumpAll (s.setConn c { a with queue := a.queue.map free })

/-- R201: the send that was refused, or the one that goes in its place, is taken: the back-off ends. -/
def endBackoff (s : State) (c id : Nat) : State :=
  if (s.conn c).refusedRef = id then s.setConn c { s.conn c with backoff := 0, wait := 0 } else s

/-- A send is taken (R184, R200): the back-off it had ends; a rendezvous send stays open for its pull. -/
def sendTaken (s : State) (c id : Nat) : State :=
  match connCmd s c id with
  | none => s
  | some d =>
    let s := endBackoff s c id
    if d.done.isSome || !d.started then s
    else if 4096 < fabLen d then pumpAll s
    else pumpAll (endConnCmd s c d 0)

/-! ### Requests that arrive at a connection (R182, R195) -/

/-- R195: a packet at an entry that is not open, or whose PEERN and PCONN do not name its source. -/
def connAccepts (s : State) (c srcNode srcConn : Nat) : Bool :=
  let a := s.conn c
  a.state == 1 && a.peern == srcNode && a.pconn == srcConn

/-- An answer to a command at its sender. -/
def answerConn (s : State) (c node : Nat) (p : Packet) : State := emitPacket s node (flowConn c) p

/-- A record of a fault met by a connection's arrived request. -/
def stallInbox (s : State) (c : Nat) (stage : Nat) (addr : Word) (acc : Nat) : State :=
  let r := mkRecord s (connMaster c) addr (pageCause acc) stage acc 4 0 (connCtx s c) true (.conn c)
  let s := addRecord s r
  s.setConn c { s.conn c with inHeld := some r.fid }

/-- The code of an NPUT whose pieces arrive. -/
def inCodeOf (a : Conn) (ref : Nat) : Nat := if a.inCode.1 = ref then a.inCode.2 else 0

/-- The first request of the inbox dealt with. -/
def inboxNext (s : State) (c : Nat) : State := s.setConn c { s.conn c with inbox := (s.conn c).inbox.tail }

/-- A piece of an NPUT decided with a code of its own and the flags its writes raised; the command is answered after its last piece. -/
def writeDecided (s : State) (c node srcConn ref code : Nat) (last : Bool) (flags : Sticky) : State :=
  let a := s.conn c
  let code := if inCodeOf a ref = 0 then code else inCodeOf a ref
  let flags := if a.inCode.1 = ref then a.inFlags ||| flags else flags
  let s := s.setConn c { a with inCode := (ref, code), inFlags := flags }
  if last then answerConn s c node (.result srcConn ref code [] flags) else s

/-- R182: the first request of a connection's inbox performed at its home; it stays there where a fault holds it. -/
def performInbox (s : State) (c : Nat) : State :=
  match (s.conn c).inbox with
  | .write _ node sc ref va data last :: _ =>
    if !connAccepts s c node sc then inboxNext (answerConn s c node (.result sc ref cFabric [] 0#3)) c
    else if inCodeOf (s.conn c) ref ≠ 0 then inboxNext (writeDecided s c node sc ref 0 last 0#3) c
    else
      match engWrite s (connMaster c) (connCtx s c) none none va data .empty with
      | .error (.page st a) => stallInbox s c st a accWrite
      | .error _ => inboxNext (writeDecided s c node sc ref 0x06 last 0#3) c
      | .ok w => inboxNext (writeDecided w.st c node sc ref 0 last w.flags) c
  | .read _ node sc ref va len :: _ =>
    if !connAccepts s c node sc then inboxNext (answerConn s c node (.result sc ref cFabric [] 0#3)) c
    else
      match readPrefix s (connMaster c) (connCtx s c) none va len with
      | (s, _, some (.page st a)) => stallInbox s c st a accRead
      | (s, _, some _) => inboxNext (answerConn s c node (.result sc ref 0x06 [] 0#3)) c
      | (s, bs, none) => inboxNext (answerParts (fun s p => answerConn s c node p) sc (fun b => .result sc ref 0 b 0#3) s bs) c
  | .send _ node sc ref tag len data again :: _ =>
    if !connAccepts s c node sc || !featureOn s 3 then inboxNext (answerConn s c node (.result sc ref cFabric [] 0#3)) c
    else if (s.conn c).inRefused && !again then inboxNext s c
    else inboxNext (s.fly (.yarrowSendArrival ⟨c, ref, node, tag, len, data, again⟩)) c
  | _ :: _ => inboxNext s c
  | [] => s

/-- The requests of an inbox in their order, until a fault holds one. -/
def drainInbox : Nat → State → Nat → State
  | 0, s, _ => s
  | n + 1, s, c => if (s.conn c).inHeld.isSome || (s.conn c).inbox.isEmpty then s else drainInbox n (performInbox s c) c

/-- A request joins its connection's inbox. -/
def toInbox (s : State) (c : Nat) (p : Packet) : State :=
  let a := s.conn c
  drainInbox (a.inbox.length + 1) (s.setConn c { a with inbox := a.inbox ++ [p] }) c

/-- R165: a terminal outcome of the request that a fault holds. -/
def failInbox (s : State) (c : Nat) : State :=
  let s := s.setConn c { s.conn c with inHeld := none }
  let s := match (s.conn c).inbox with
    | .write _ node sc ref _ _ last :: _ => inboxNext (writeDecided s c node sc ref 0x05 last 0#3) c
    | .read _ node sc ref _ _ :: _ => inboxNext (answerConn s c node (.result sc ref 0x04 [] 0#3)) c
    | _ => s
  drainInbox ((s.conn c).inbox.length + 1) s c

/-! ### Packets that arrive (R191, R196) -/

/-- A put or message that has been answered is no longer kept, neither for a resend nor for its answer. -/
def forget (f : Flow) (p : Packet → Bool) : Flow := { f with kept := f.kept.eraseP (fun e => p e.2), open_ := f.open_.eraseP p }

/-- A flow's kept packets without the first that satisfies a test. -/
def forgetKept (s : State) (node net : Nat) (p : Packet → Bool) : State :=
  s.setFlow (flowTo node net) (forget (s.flow (flowTo node net)) p)

/-- Whether a kept packet is the put an acknowledgement answers. -/
def isPutOf (k : Ack) : Packet → Bool
  | .put p => p.sender == some k.dest
  | _ => false

/-- Whether a kept packet is a message. -/
def isMsg (m : Msg) : Packet → Bool
  | .msg n => n.id == m.id
  | _ => false

/-- The bytes of an answer that have come before its last packet, which takes them. -/
def takeParts (s : State) (c : Nat) : EngBytes × State := ((s.conn c).parts, s.setConn c { s.conn c with parts := [] })

/-- A packet delivered in its turn. -/
def deliverPacket (s : State) (p : Packet) : State :=
  match p with
  | .put q => s.fly (.putArrival { q with sig := q.sig.map fun _ => sigAll })
  | .ack k => (forgetKept s (locNode k.loc) netReply (isPutOf k)).fly (.ackArrival k)
  | .msg m => s.fly (.messageArrival m)
  | .outcome m o => (forgetKept s m.dstNode (msgNet m) (isMsg m)).fly (.messageOutcome m o)
  | .write c _ _ _ _ _ _ => toInbox s (c % 4096) p
  | .read c _ _ _ _ _ => toInbox s (c % 4096) p
  | .send c _ _ _ _ _ _ _ => toInbox s (c % 4096) p
  | .part c data => s.setConn (c % 4096) { s.conn (c % 4096) with parts := (s.conn (c % 4096)).parts ++ data }
  | .result c ref code data fl =>
    let (first, s) := takeParts s (c % 4096)
    s.fly (.fabricCommandComplete (c % 4096) ref code (first ++ data) fl)
  | .pull c ref n =>
    match connCmd s (c % 4096) ref with
    | some d => if d.done.isSome || !d.started then s
      else pumpAll (answerPull (endBackoff s (c % 4096) ref) (c % 4096) d n)
    | none => s
  | .payload c ref ok data =>
    let (first, s) := takeParts s (c % 4096)
    s.fly (.rendezvousPull (c % 4096) ref ok (first ++ data))
  | .held c ref => sendTaken s (c % 4096) ref
  | .refuse c ref => refuseSend s (c % 4096) ref
  | .seen _ => s

/-- R191: the packets of a flow that are next in sequence. -/
def deliverRun : Nat → State → Nat → State
  | 0, s, _ => s
  | n + 1, s, f =>
    let a := s.flow f
    match a.early.find? (·.1 == a.expect) with
    | some (_, p) =>
      let s := s.setFlow f { a with expect := a.expect + 1, early := a.early.filter (·.1 != a.expect) }
      deliverRun n (deliverPacket s p) f
    | none => s

/-- The node at the other end of a flow. -/
def flowNode (s : State) (f : Nat) : Nat := if 65536 ≤ f then (s.conn (f - 65536)).peern else f / 4

/-- Whether a packet is answered by another beside its acknowledgement (R192). -/
def isAnswered : Packet → Bool
  | .put p => p.sender.isSome
  | .msg _ => true
  | _ => false

/-- R191: the peer has acknowledged a packet: it is no longer kept for a resend; a put or a message still waits for its answer. -/
def seenPacket (s : State) (f seq : Nat) : State :=
  let a := s.flow f
  let still := (a.kept.filter fun e => e.1 == seq && isAnswered e.2).map (·.2)
  s.setFlow f { a with kept := a.kept.filter (·.1 != seq), sentAt := Table.erase a.sentAt seq, open_ := a.open_ ++ still }

/-- R191: a packet received: it is acknowledged, duplicates are discarded, others delivered in sequence order. A stopped package
answers none (R317). -/
def receivePacket (s : State) (f seq : Nat) (p : Packet) : State :=
  if bootStopped s then s
  else match p with
  | .seen n => seenPacket s f n
  | p =>
    let s := transmit s (flowNode s f) f seq (.seen seq)
    let a := s.flow f
    if seq < a.expect || a.early.any (·.1 == seq) then s
    else deliverRun (a.early.length + 1) (s.setFlow f { a with early := a.early ++ [(seq, p)] }) f

/-- R191: a kept packet resent on a path that is left; where there is none it waits another 20 µs. -/
def resendPacket (s : State) (f seq : Nat) : State :=
  let a := s.flow f
  match a.kept.find? (·.1 == seq) with
  | none => s
  | some (_, p) =>
    let node := flowNode s f
    let s := s.setFlow f { a with sentAt := Table.set a.sentAt seq s.time.toNat }
    if (pathFor s node (packetFlits p)).isNone then s
    else
      let s := s.setFlow f { s.flow f with resent := a.resent + 1 }
      let s := if 65536 ≤ f then s.setConn (f - 65536) { s.conn (f - 65536) with resent := (s.conn (f - 65536)).resent + 1 } else s
      transmit s node f seq p

/-- R191: packets of a flow unacknowledged after 20 µs set on their way to be resent. -/
def kickResends (s : State) (f : Nat) : State :=
  (s.flow f).kept.foldl (fun s e =>
    let at_ := Table.get 0 (s.flow f).sentAt e.1
    if at_ + 20000 ≤ s.time.toNat ∧ !s.flight.contains (.packetRetransmit f e.1) then s.fly (.packetRetransmit f e.1) else s) s

/-! ### Lost peers and connection writes (R192, R195) -/

/-- R183, R195: every queued command of a connection ends with 0x16 and is counted; what the connection holds is dropped. DESIGN CHOICE
(notes/assumptions/91.md): matched rendezvous receives and unexpected entries stay, and the sequence numbers of its flow run on, the
kept packets dropped (R191). -/
def emptyConn (s : State) (c : Nat) (b : Conn) : State :=
  let queue := (s.conn c).queue
  let done := queue.filter fun e => match e with | .cmd _ => true | .chain _ _ => false
  let s := s.setConn c { b with
    count := b.count + BitVec.ofNat 64 done.length, queue := [], backoff := 0, wait := 0, inbox := [], inHeld := none, parts := [] }
  let s := s.setFlow (flowConn c) { s.flow (flowConn c) with kept := [], sentAt := [] }
  pumpAll (queue.foldl (fun s e => match e with
    | .cmd d => if d.done.isSome then s else tokenPut s d.loc (BitVec.ofNat 64 cFabric) sigAll d.flags true
    | .chain _ _ => s) s)

/-- R195: a lost connection ends every queued command with 0x16. -/
def loseConn (s : State) (c : Nat) : State := emptyConn s c { s.conn c with state := 2 }

/-- R192: what becomes of a packet kept toward a lost peer. -/
def losePacket (s : State) (p : Packet) : State :=
  match p with
  | .put q => match q.sender with
    | some d => s.fly (.ackArrival ⟨4, q.loc, d, 0⟩)
    | none => s
  | .msg m => s.fly (.messageOutcome m (.returned 2))
  | _ => s

/-- R192: a peer is lost. -/
def losePeer (s : State) (node : Nat) : State :=
  let lost := if s.fab.lost.contains node then s.fab.lost else node :: s.fab.lost
  let s := { s with fab := { s.fab with lost := lost, cut := Table.erase s.fab.cut node } }
  let s := (Table.keys s.fab.conns).foldl (fun s c =>
    let a := s.conn c
    if a.peern = node ∧ (a.state = 1 ∨ a.state = 3) then loseConn s c else s) s
  [netRequest, netReply, netSystem].foldl (fun s net =>
    let f := s.flow (flowTo node net)
    (f.open_ ++ f.kept.map (·.2)).foldl losePacket (s.setFlow (flowTo node net) { f with kept := [], sentAt := [], open_ := [] })) s

/-- R192: nodes this package sends to: peers of connections in use, ends of flows with packets kept. -/
def nodesUsed (s : State) : List Nat :=
  let conns := (s.fab.conns.filter fun e => e.2.state == 1 || e.2.state == 3).map fun e => e.2.peern
  let flows := (s.fab.flows.filter fun e => e.1 < 65536 && !(e.2.kept.isEmpty && e.2.open_.isEmpty)).map fun e => e.1 / 4
  (conns ++ flows).eraseDups

/-- R192: time passes for a node: it is lost once no path has reached it for 1 ms. -/
def passNode (ns : Nat) (s : State) (node : Nat) : State :=
  if !(pathsTo s node).isEmpty then { s with fab := { s.fab with cut := Table.erase s.fab.cut node } }
  else
    let t := Table.get 0 s.fab.cut node + ns
    let s := { s with fab := { s.fab with cut := Table.set s.fab.cut node t } }
    if 1000000 ≤ t ∧ !s.flight.contains (.peerLost node) ∧ !s.fab.lost.contains node then s.fly (.peerLost node) else s

/-- R195: whether a writer may write an entry. -/
def mayWriteConn (s : State) (w : Writer) (a : Conn) (val : Word) : Bool :=
  let part := fieldOf val 39 34
  modeAtLeast w.mode .h ||
    (if a.state = 0 then partOf s w.core == some part else partOf s w.core == some a.part && part == a.part)

/-- R194, R195: word 0 of a connection written. Opening takes a closed entry, and meets a lost peer as any connection to it does; closing
lets the queue run empty; only STATE 0 clears a lost entry. DESIGN CHOICE (notes/assumptions/61.md): STATE 0 and STATE 2 end what an open
or closing entry holds with 0x16. -/
def writeConn (s : State) (w : Writer) (c : Nat) (val : Word) : State :=
  let a := s.conn c
  let b := { a with
    peern := fieldOf val 61 52, pconn := fieldOf val 51 40, part := fieldOf val 39 34,
    vmid := val.extractLsb' 28 6, asid := val.extractLsb' 16 12 }
  if !modeAtLeast w.mode .s || !mayWriteConn s w a val then s
  else
    match a.state, fieldOf val 63 62 with
    | 0, 1 =>
      let s := s.setConn c { b with
        state := 1, count := 0, refused := 0, resent := 0, queue := [], backoff := 0, wait := 0, inbox := [], inHeld := none
        inCode := (0, 0), inFlags := 0, inRefused := false, parts := [] }
      if s.fab.lost.contains b.peern then loseConn s c else s
    | _, 1 => s
    | _, 0 => emptyConn s c { b with state := 0 }
    | 2, _ => s.setConn c { b with state := 2 }
    | _, 2 => emptyConn s c { b with state := 2 }
    | _, _ => s.setConn c (settleConn { b with state := 3 })

/-! ### Yarrow (R184, R185, R197 to R202) -/

/-- R198: bytes of a tenant's unexpected queue. -/
def uqSize (y : YTenant) : Nat := 2 ^ (if y.uqlog < 16 then 16 else if 30 < y.uqlog then 30 else y.uqlog)

/-- R198: RQUOTA as it acts. -/
def rquotaOf (y : YTenant) : Nat := Nat.min y.rquota 8192

/-- The 64-byte header of an unexpected entry: its source node, tag, length and connection (R200). -/
def uqHeader (y : YSend) : List Byte :=
  leBytes 8 (y.src % 1024 * 2 ^ 32 + y.tag.toNat) ++ leBytes 8 (y.conn * 2 ^ 32 + y.len) ++ List.replicate 48 0#8

/-- The bytes of an unexpected entry: its header, an eager payload after it, rounded up to 64 bytes (R200). -/
def uqEntry (y : YSend) : EngBytes :=
  let pad := List.replicate ((y.len + 63) / 64 * 64 - y.data.length) (0#8, false)
  (uqHeader y).map (·, false) ++ (if y.len ≤ 4096 then y.data ++ pad else [])

/-- R198: the unexpected queue written at UQBASE, in frames that are online and the tenant's; its layout there is the model's
(notes/assumptions/63.md). A block that holds a byte delivered as poison is written as poison (R296). -/
def writeUq (s : State) (p : Nat) : State :=
  let base := ((s.ytenant p).uqbase &&& ~~~0xFFF#64).toNat
  let mine := fun (pa : Nat) => match paKind pa with
    | .lpddr f => f ≤ Config.lastFrame && entryOnline (classEntry s.ms f) && entryPart (classEntry s.ms f) == p
    | _ => false
  let bs := (Table.get [] s.fab.unexpected p).flatMap uqEntry
  (lineCuts base bs.length).foldl (fun s c =>
    if mine (base + c.1) then
      (engWriteLine ⟨s, 0#3, .empty⟩ none none 0 (.mem (base + c.1) none false 0 false) ((bs.drop c.1).take c.2)).st
    else s) s

/-- R199: whether a send and a receive match. -/
def yMatch (y : YSend) (r : Recv) : Bool :=
  (y.src &&& r.smask) == (r.src &&& r.smask) && (y.tag &&& r.tmask) == (r.tag &&& r.tmask)

/-- Posted receives and unexpected sends of a tenant. -/
def State.postedOf (s : State) (p : Nat) : List Recv := Table.get [] s.fab.posted p
def State.unexpOf (s : State) (p : Nat) : List YSend := Table.get [] s.fab.unexpected p

/-- They, replaced. -/
def State.setPosted (s : State) (p : Nat) (l : List Recv) : State := { s with fab := { s.fab with posted := Table.set s.fab.posted p l } }
def State.setUnexp (s : State) (p : Nat) (l : List YSend) : State :=
  writeUq { s with fab := { s.fab with unexpected := Table.set s.fab.unexpected p l } } p

/-- R198: receives posted at the engine of a tenant. -/
def enginePosted (s : State) (p : Nat) : Nat :=
  s.fab.posted.foldl (fun n e => if e.1 % 2 = p % 2 then n + e.2.length else n) 0

/-- R185: the token of a receive. -/
def recvToken (tag : BitVec 32) (status src len : Nat) : Word :=
  BitVec.ofNat 64 (tag.toNat % 65536 * 2 ^ 48 + status * 2 ^ 44 + src % 1024 * 2 ^ 32 + len)

/-- R202: an entry leaves the unexpected queue of the tenant whose receive it matched. -/
def freeEntry (s : State) (r : Recv) (y : YSend) : State := s.setUnexp r.part ((s.unexpOf r.part).erase y)

/-- A landing removed and its receive's token written; the sender of an eager payload that landed at once is told, an unexpected entry
is freed (R184, R202). A payload that has not landed whole ends its send with a code: 0x05 for a terminal fault, 0x06 for a violation
(R181). -/
def endLandingRecv (s : State) (l : Landing) (status code : Nat) : State :=
  let broken := decide (status = 2)
  let s := { s with fab := { s.fab with landings := s.fab.landings.filter fun k => k.recv.id != l.recv.id } }
  let s := match l.answer with
    | some (c, ref) => connSend s c (if broken then .result (s.conn c).pconn ref code [] 0#3 else .held (s.conn c).pconn ref)
    | none => s
  let s := match l.entry with
    | some y => freeEntry s l.recv y
    | none => s
  tokenPut s l.recv.loc (recvToken l.tag status l.src l.off) sigAll l.flags true

/-- A landing replaced. -/
def setLanding (s : State) (l : Landing) : State :=
  { s with fab := { s.fab with landings := s.fab.landings.map fun k => if k.recv.id = l.recv.id then l else k } }

/-- R202: whether a receive names a stash while its tenant is saved, whose cores are another's then: it waits for the restore (DESIGN CHOICE,
notes/assumptions/94.md). -/
def landWaits (s : State) (r : Recv) (va : Word) : Bool :=
  (match regionOf va with | .global => false | _ => true) && ((s.part r.part).state == 2 || (s.part r.part).state == 3)

/-- R200, R202: the bytes of a matched receive land, page by page, with the rights of the tenant that posted it. DESIGN CHOICE
(notes/assumptions/76.md): a protection violation ends the receive with STATUS 2 and makes no record. -/
def landRecv : Nat → State → Landing → State
  | 0, s, _ => s
  | n + 1, s, l =>
    let left := l.data.drop l.off
    if left.isEmpty then endLandingRecv s l (if l.broken then 2 else if l.recv.max < l.len then 1 else 0) 0x05
    else
      let dst := l.recv.va + BitVec.ofNat 64 l.off
      let k := Nat.min left.length (4096 - dst.toNat % 4096)
      if landWaits s l.recv dst then setLanding s l
      else
      match engWriteFor s (some l.recv.part) (l.recv.hart / 8) l.recv.ctx none none dst (left.take k) .empty with
      | .error (.page st a) =>
        let r := mkRecord s (l.recv.hart / 8) a 0x05 st accWrite 4 (l.recv.hart % 8) l.recv.ctx true (.recv l.recv.id)
        setLanding (addRecord s r) { l with held := some r.fid }
      | .error _ => endLandingRecv s l 2 0x06
      | .ok w => landRecv n w.st { l with off := l.off + k, flags := l.flags ||| w.flags }

/-- A matched payload starts to land: only the receive's maximum. -/
def startLand (s : State) (r : Recv) (y : YSend) (data : EngBytes) (broken : Bool) (answer : Option (Nat × Nat))
    (entry : Option YSend) : State :=
  let l : Landing := ⟨r, y.tag, y.src, y.len, data.take r.max, 0, none, broken, answer, entry, 0#3⟩
  let s := { s with fab := { s.fab with landings := s.fab.landings ++ [l] } }
  landRecv (data.length / 4096 + 3) s l

/-- R200: a match: an eager payload lands, a rendezvous payload is pulled; `direct` is a match at the send's arrival. -/
def matched (s : State) (r : Recv) (y : YSend) (direct : Bool) : State :=
  if y.len ≤ 4096 then startLand s r y y.data false (if direct then some (y.conn, y.ref) else none) (if direct then none else some y)
  else
    let s := { s with fab := { s.fab with pulls := Table.set s.fab.pulls r.id (r, y) } }
    connSend s y.conn (.pull (s.conn y.conn).pconn y.ref (Nat.min y.len r.max))

/-- R199, R201: whether a send waits behind an earlier one of its connection that was refused: it is then not taken, and offered again
after that one. -/
def sendWaits (s : State) (y : YSend) : Bool := (s.conn y.conn).inRefused && !y.again

/-- R199 to R201: a send reaches the tenant's engine. -/
def sendArrives (s : State) (y : YSend) : State :=
  let p := (s.conn y.conn).part
  let pc := (s.conn y.conn).pconn
  if sendWaits s y then s
  else
  let s := s.setConn y.conn { s.conn y.conn with inRefused := false }
  match (s.postedOf p).find? (yMatch y) with
  | some r => matched (s.setPosted p ((s.postedOf p).filter fun k => k.id != r.id)) r y true
  | none =>
    if uqUsed s p + unexpBytes y ≤ uqSize (s.ytenant p) then
      connSend (s.setUnexp p (s.unexpOf p ++ [y])) y.conn (.held pc y.ref)
    else
      connSend (s.setConn y.conn { s.conn y.conn with inRefused := true }) y.conn (.refuse pc y.ref)

/-- R202: whether an unexpected entry is still there to match: neither its pull nor its copy is under way. -/
def entryOpen (s : State) (y : YSend) : Bool := !s.fab.pulls.any (fun e => e.2.2 == y) && !s.fab.landings.any (·.entry == some y)

/-- R202: the landings of a tenant that waited for its restore, and those of its receives, on the cores it now holds. -/
def resumeLandings (s : State) (p : Nat) : State :=
  let here := fun (r : Recv) => if r.part = p then { r with hart := slotOf (gOfHpos ((s.part p).base + r.pos)) (r.hart % 8) } else r
  let s := { s with fab := { s.fab with
    posted := Table.set s.fab.posted p ((s.postedOf p).map here)
    landings := (s.fab.landings.map fun (l : Landing) => { l with recv := here l.recv })
    pulls := Table.mapVals s.fab.pulls fun _ e => (here e.1, e.2) } }
  s.fab.landings.foldl (fun s l => if l.recv.part = p && l.held.isNone then landRecv (l.data.length / 4096 + 3) s l else s) s

/-- R307: the landings of a torn-down tenant end, their senders told. -/
def dropLandings (s : State) (p : Nat) : State :=
  (s.fab.landings.filter (·.recv.part == p)).foldl (fun s l => endLandingRecv s l 2 0x06) s

/-- R199: a receive of tenant p searches the unexpected queue, then is posted. -/
def postRecv (s : State) (p : Nat) (r : Recv) : State :=
  match (s.unexpOf p).find? (fun y => yMatch y r && entryOpen s y) with
  | some y => matched s r y false
  | none => s.setPosted p (s.postedOf p ++ [r])

/-- R200: a pull ends, which completes the send where its bytes are all there; a rendezvous entry of the unexpected queue is freed. -/
def pullEnds (s : State) (conn ref : Nat) (ok : Bool) (data : EngBytes) : State :=
  match List.find? (fun (e : Nat × Recv × YSend) => e.2.2.conn == conn && e.2.2.ref == ref) s.fab.pulls with
  | none => s
  | some (k, r, y) =>
    let s := { s with fab := { s.fab with pulls := Table.erase s.fab.pulls k } }
    let s := if ok then connSend s conn (.result (s.conn conn).pconn ref 0 [] 0#3) else s
    startLand (freeEntry s r y) r y data (!ok) none none

/-! ### Block assignment (R186, R203) -/

/-- An assignment queue replaced. -/
def State.setAssignq (s : State) (die q : Nat) (a : AssignQ) : State :=
  { s with fab := { s.fab with assign := Table.set s.fab.assign (assignKey die q) a } }

/-- R186, R203: whether an index has been handed out, by the collective or by the abandoned one before it, and is not done. -/
def AssignQ.open_ (k : AssignQ) (x : Nat) : Bool :=
  !k.marks.contains x && (x < k.next.toNat || (x < k.handed && !k.past.contains x))

/-- R203: COUNT written: a collective that is not done is abandoned, and its indices still out count toward the new one. -/
def AssignQ.rewrite (a : AssignQ) (count : BitVec 32) : AssignQ :=
  let a' := { a with count := count, next := 0, done := 0, marks := [], handed := 0, past := [] }
  if a.done.toNat < a.count.toNat then
    { a' with handed := Nat.max a.next.toNat a.handed, past := a.marks ++ a.past.filter (a.next.toNat ≤ ·) }
  else a'

/-- R203: a word of an assignment queue written. -/
def writeAssign (s : State) (w : Writer) (die q k : Nat) (val : Word) : State :=
  let a := s.assignq die q
  let high := modeAtLeast w.mode .h
  let mine := modeAtLeast w.mode .s && partOf s w.core == some a.part
  if k = 0 then
    (if high || mine then s.setAssignq die q (a.rewrite (val.setWidth 32)) else s)
  else if k = 1 then (if high then s.setAssignq die q { a with part := fieldOf val 37 32 } else s)
  else if k = 2 then (if high || mine then s.setAssignq die q { a with cloc := val } else s)
  else s

end Sys2Proof.Machine
end

