-- ==== Sys2Proof/Machine/Faults.lean ====
section
/-! DEFINITION. Fault records at their rings (R164, R314), their resolution (R165), thawing and killing frozen masters (R167),
the watchdog (R149), and how an instruction that did not complete ends (R23, R158, R288, R290 to R292, R299). -/

namespace Sys2Proof.Machine

/-! ### Rings (R164, R313, R314) -/

/-- The key of a ring of a function. -/
def ringKey (f ring : Nat) : Nat := 2 * f + ring

/-- A ring. -/
def State.ringAt (s : State) (f ring : Nat) : Ring := Table.get Ring.reset s.flt.rings (ringKey f ring)

/-- A ring replaced. -/
def State.setRing (s : State) (f ring : Nat) (a : Ring) : State :=
  { s with flt := { s.flt with rings := Table.set s.flt.rings (ringKey f ring) a } }

/-- LOG as it acts. -/
def ringLog (a : Ring) : Nat := if 4 ≤ a.log ∧ a.log ≤ 16 then a.log else 4

/-- The first host physical address (R342). -/
def hostBase : Nat := 2 ^ 51

/-- R312, R314: a function's host address as a physical address, for writing; a VF's passes its second stage where its tenant
runs as a guest. -/
def hostWrite (s : State) (f : Nat) (addr : Nat) : Option Nat :=
  let flat := if addr < 2 ^ 51 then some (hostBase + addr) else none
  if f = 0 then flat
  else
    let e := Table.get 0#64 s.plat.vft f
    let p := s.part (fieldOf e 5 0)
    if p.dw5.getLsbD 8 then
      match walk2 s.ms (p.dw5 &&& 0x000FFFFFFFFFF000#64) addr with
      | .ok l => if pteW l.flags && isHost (l.at addr) then some (l.at addr) else none
      | .error _ => none
    else flat

/-- R314: whether a ring has room. -/
def ringRoom (a : Ring) : Bool := (a.wr - a.rd).toNat < 2 ^ ringLog a

/-- Whether a function is frozen (R315). -/
def vfFrozen (s : State) (f : Nat) : Bool := f != 0 && s.flt.vffrz.getLsbD f

/-- The oldest record that waits for a ring. -/
def ringHead (s : State) (f ring : Nat) : Option Record := s.flt.waiting.find? fun r => r.func == f && r.ring == ring

/-- Whether a ring could take its oldest record. -/
def ringReady (s : State) (f ring : Nat) : Bool :=
  (ringHead s f ring).isSome && (s.ringAt f ring).en && ringRoom (s.ringAt f ring) && !vfFrozen s f

/-- R313: the weight of a ring. -/
def ringWeight (s : State) (f ring : Nat) : Nat :=
  let w := if f ≠ 0 then fieldOf s.flt.ringwt 23 16 else if ring = 0 then fieldOf s.flt.ringwt 7 0 else fieldOf s.flt.ringwt 15 8
  if w = 0 then 1 else w

/-- Records a ring may still write in this round. -/
def ringCredit (s : State) (f ring : Nat) : Nat := (Table.find? s.flt.credit (ringKey f ring)).getD (ringWeight s f ring)

/-- Functions and rings in the order of the round. -/
def allRings : List (Nat × Nat) := [(0, 0), (0, 1)] ++ (List.range 63).map fun k => (k + 1, 0)

/-- R164: the ring served next: the first of the round with credit, else the first of a new round. -/
def nextRing (s : State) : Option (Nat × Nat) :=
  let ready := allRings.filter fun e => ringReady s e.1 e.2
  match ready.find? fun e => ringCredit s e.1 e.2 != 0 with
  | some e => some e
  | none => ready.head?

/-- R164: the dwords of a record. DESIGN CHOICE (notes/assumptions/74.md): the 10 bits of G hold a gateway core's number modulo 1024. -/
def recordWords (r : Record) : List Nat :=
  [r.time.toNat, r.addr.toNat,
    r.cause + r.stage * 2 ^ 8 + r.acc * 2 ^ 10 + r.master * 2 ^ 12 + r.g % 1024 * 2 ^ 16 + r.unit * 2 ^ 26 + r.asid.toNat * 2 ^ 32 +
      r.vmid.toNat * 2 ^ 44 + (if r.retry then 2 ^ 50 else 0),
    r.fid % 2 ^ 32]

/-- R164, R314: the reporting port writes the oldest waiting record of a ring whose turn it is. -/
def writeRecord (s : State) (f ring : Nat) : State :=
  match ringHead s f ring with
  | none => s
  | some r =>
    if ringReady s f ring && nextRing s == some (f, ring) then
      let a := s.ringAt f ring
      match hostWrite s f (a.base.toNat + 32 * (a.wr.toNat % 2 ^ ringLog a)) with
      | none => s
      | some pa =>
        let fresh := ringCredit s f ring = 0
        let credit := if fresh then [] else s.flt.credit
        let left := (if fresh then ringWeight s f ring else ringCredit s f ring) - 1
        let s := writeRange s none pa ((recordWords r).flatMap (leBytes 8))
        let s := { s with flt := { s.flt with
          waiting := s.flt.waiting.erase r
          credit := Table.set credit (ringKey f ring) left } }
        s.setRing f ring { a with wr := a.wr + 1 }
    else s

/-- A record write set on its way where one is due. -/
def kickRings (s : State) : State :=
  if s.flt.waiting.isEmpty then s
  else match nextRing s with
  | some (f, ring) => if s.flight.any (fun e => match e with | .ringRecordWrite _ _ => true | _ => false) then s
    else s.fly (.ringRecordWrite f ring)
  | none => s

/-! ### How an instruction that did not complete ends -/

/-- R162, R164: a hart held at the instruction by a translation fault. -/
def holdHart (s : State) (h : Nat) (va addr : Word) (stage acc : Nat) : State :=
  let a := s.hart h
  let r := mkRecord s (h / 8) addr (pageCause acc) stage acc a.master (h % 8) a.tctx true (.hart h a.tag)
  (addRecord s r).setHart h { a with hold := some (r.fid, va, stage == 2), stall := some .other }

/-- R228: the record of one more faulting page of a vector access. -/
def holdPage (acc : Nat) (s : State) (e : Word × Word × Nat) : State :=
  let a := s.me
  let r := mkRecord s s.myCore e.2.1 (pageCause acc) e.2.2 acc a.master (s.cur % 8) a.tctx true (.hart s.cur a.tag)
  (addRecord s r).setMe { a with holds := a.holds ++ [(r.fid, e.1, e.2.2 == 2)] }

/-- R162, R228: a hart held at a vector access by every page that faults. -/
def holdPages (s : State) (acc : Nat) : List (Word × Word × Nat) → State
  | [] => s
  | e :: es => es.foldl (holdPage acc) (holdHart s s.cur e.1 e.2.1 e.2.2 acc)

/-- R288, R295: a memory error that a read has met is charged and settled with its line. -/
def consumeError (s : State) (line : Nat) : State := if line < 2 ^ 46 then settleLine s (line * 64) else s

/-- R288, R291, R292, R299: an access has met poison, or an uncorrectable error. -/
def consumed (s : State) (h acc line : Nat) (uncorr : Bool) (va : Word) : State :=
  let s := consumeError s line
  let a := s.hart h
  if !uncorr then (if a.pure.isSome then endTask s h 4 .empty 0#3 else takeTrapAt s h cPoison va va acc false)
  else if a.pure.isSome then rerunTask s h
  else
    match a.vcopy with
    | some (l, _) => vFailed s l
    | none => if canRollBack s h then rollBack s h true else takeTrapAt s h cUncorr va va acc false

/-- A synchronous trap of the issuing hart: a pure activation ends with FAULT (R299). -/
def trapNow (s : State) (c : Nat) (tval : Word) : State :=
  if s.me.pure.isSome then endTask s s.cur 4 .empty 0#3 else takeTrap s s.cur c tval false

/-- As `trapNow`, of a cause that a kind of access has met (R164). -/
def trapAccess (s : State) (acc c : Nat) (tval : Word) : State :=
  if s.me.pure.isSome then endTask s s.cur 4 .empty 0#3 else takeTrapAt s s.cur c tval tval acc false

/-- How a stopped instruction leaves the machine. -/
def stopped (s : State) : Stop → State
  | .trap c tval => trapNow s c tval
  | .trapAcc acc c tval => trapAccess s acc c tval
  | .wait k => s.setMe { s.me with stall := some k }
  | .hold va addr st acc _ => holdHart s s.cur va addr st acc
  | .holdLanes acc l => holdPages s acc l
  | .deny acc va => if s.me.pure.isSome then endTask s s.cur 4 .empty 0#3 else freezeHart s s.cur cAccess va va acc false false
  | .purity va => abortPurity s s.cur va
  | .memErr acc line uncorr va => consumed s s.cur acc line uncorr va
  | .poolEmpty => match s.me.launch with
    | some (l, _) => killLaunch s l 0x18
    | none => s
  | .again s' => s'.setMe { s'.me with stall := none }

/-- The outcome of a meaning. -/
def finish (s : State) (r : Res) : Host.Outcome State Fault Refusal :=
  match r with
  | .ok t => .next t
  | .error e => .next (stopped s e)

/-! ### Resolution (R165) -/

/-- R164: the record of a terminal outcome. -/
def terminalRecord (s : State) (r : Record) : State :=
  addRecord s { r with time := s.time, retry := false, fid := s.nextId, ring := ringOf r.func false, owner := .nobody }

/-- The side-log entry with a fault. -/
def logEntry (s : State) (core id : Nat) : Option LogEntry := (s.core core).sidelog.find? (·.id == id)

/-- R163: whether an entry may be replayed: it waits on nothing and is the oldest of its thread. -/
def logReady (s : State) (core : Nat) (e : LogEntry) : Bool :=
  e.fid.isNone && ((ownLog s core e).head?.map (·.id)) == some e.id

/-- What is written of an entry whose bytes stand in a V copy: its shadow, which may be refused (R292). -/
def replayShadow (s : State) (e : LogEntry) (k : Nat × Bool) (sm : Option Nat) (pa : Nat) : State :=
  match shadowPage s e.part e.va k sm pa with
  | .ok s => shadowWrite s k.1 k.2 e.va pa e.bytes
  | .error .poolEmpty => killLaunch s k.1 0x18
  | .error _ => onThread s e.hart e.tag fun a => { a with pend := a.pend ++ [(cVeffect, e.rep)], idle := false }

/-- The bytes of an entry written where they go: its home, a stash, a V copy. -/
def replayAt (s : State) (e : LogEntry) (p : Place) : State :=
  match p, e.shadow with
  | .stash i, k => signStore { s with ms := stashWrite s.ms i e.bytes } k e.va e.bytes
  | .mem pa sm _ _ _, some k => replayShadow s e k sm pa
  | .mem pa sm nc holder _, none =>
    if nc then countAt (storeHome s sm pa e.bytes) e.hart e.tag evL2 1
    else registerCount (noteWritten (storeOwned s sm holder pa e.bytes) e.hart e.tag pa) (ownsAll s.ms holder sm pa e.bytes.length)
      e.hart e.tag

/-- R163: where an entry goes: translated again under its context and the rights of its own partition. A stash offset of a core that has
gone to another partition is no longer its thread's stash (DESIGN CHOICE, notes/assumptions/83.md). -/
def entryPlace (s : State) (core : Nat) (e : LogEntry) : Except Stop (Place × State) :=
  if e.part == ownerOf s core || regionOf e.va == .global then reachFor s e.part core e.ctx e.va accWrite
  else .error (.deny accWrite e.va)

/-- R163: an entry replayed and performed at its home, unless it faults anew. -/
def replayEntry (s : State) (core : Nat) (e : LogEntry) : State :=
  match entryPlace s core e with
  | .error (.hold _ addr st _ _) =>
    let r := mkRecord s core addr 0x05 st accWrite 0 (e.hart % 8) e.ctx true (.log core e.id)
    let f := funcFor s e.part
    let r := { r with func := f, ring := ringOf f true }
    let s := addRecord s r
    let c := s.core core
    s.setCore core { c with sidelog := c.sidelog.map fun k => if k.id = e.id then { k with fid := some r.fid } else k }
  | .error _ => pendAccess (lowerUnack (dropLog s core e) e.hart e.tag) e.hart e.tag e.rep
  | .ok (p, s) =>
    let s := replayAt s e p
    let s := match e.rel, placeKey p with
      | some g, some k => { s with ms := publish s.ms k g }
      | _, _ => s
    dropLog (lowerUnack s e.hart e.tag) core e

/-- R165: the entry's fault cleared and its replay set on its way, once it is the oldest of its thread (R163). -/
def retryLog (s : State) (core id : Nat) : State :=
  let c := s.core core
  let s := s.setCore core { c with sidelog := c.sidelog.map fun k => if k.id = id then { k with fid := none } else k }
  match logEntry s core id with
  | some e => if logReady s core e then s.fly (.sideLogReplay core id) else s
  | none => s

/-- A thread frozen with a cause where it now is: a saved one finds itself frozen when it is resident again (R165, R167). One that is
frozen already keeps the trap it has not entered (R167), and the record alone is made. -/
def freezeThread (s : State) (h : Nat) (tag : BitVec 16) (cause : Nat) (tval addr : Word) (acc : Nat) (stage2 : Bool) (c : TCtx) : State :=
  match whereIs s h tag with
  | .resident r =>
    if (s.hart r).frozen.isSome then
      addFreezeRecord s (mkRecord s (r / 8) addr cause (freezeStage cause stage2) acc (s.hart r).master (r % 8) (s.hart r).tctx false .nobody)
    else freezeHart s r cause tval addr acc true stage2
  | .saved k t pa =>
    let s := onSaved s k t pa fun a => if a.frozen.isSome then a else a.freeze cause tval addr acc true stage2
    addFreezeRecord s (mkRecord s (k / 8) addr cause (freezeStage cause stage2) acc 0 (k % 8) c false .nobody)
  | _ => s

/-- R165: the entry dropped, UNACK lowered, its thread frozen with STOREPF, saved or not. -/
def failLog (s : State) (core id : Nat) (addr : Word) (stage2 : Bool) : State :=
  match logEntry s core id with
  | none => s
  | some e =>
    freezeThread (lowerUnack (dropLog s core e) e.hart e.tag) e.hart e.tag cStorePf e.rep addr accWrite stage2 e.ctx

/-- The connection command that a fault holds. -/
def heldConnCmd (s : State) (c fid : Nat) : Option Cmd :=
  (s.conn c).queue.findSome? fun e => match e with
    | .cmd b => if b.held = some fid then some b else none
    | .chain _ _ => none

/-- R165, R228: a hart whose fault is resolved by retry: held no more once no other page of its access holds it. -/
def Hart.release (h : Hart) (fid : Nat) : Hart :=
  if h.hold.map (·.1) = some fid then
    match h.holds with
    | [] => { h with hold := none, stall := none }
    | e :: es => { h with hold := some e, holds := es }
  else { h with holds := h.holds.filter fun e => e.1 != fid }

/-- R165: a record resolved by retry. -/
def retryRecord (s : State) (r : Record) : State :=
  match r.owner with
  | .hart h tag =>
    let a := s.hart h
    if a.tag = tag then s.setHart h (a.release r.fid) else s
  | .log core id => retryLog s core id
  | .copy core q => match headOf s core q with
    | some c => if c.held = some r.fid then kickCopy (setHead s core q { c with held := none }) core q else s
    | none => s
  | .matrix core => match mheadOf s core with
    | some c => if c.held = some r.fid then kickMhead (setMhead s core { c with held := none }) core else s
    | none => s
  | .conn c =>
    if (s.conn c).inHeld = some r.fid then
      let s := s.setConn c { s.conn c with inHeld := none }
      drainInbox ((s.conn c).inbox.length + 1) s c
    else match heldConnCmd s c r.fid with
    | some d =>
      let d := { d with held := none }
      let s := setConnCmd s c d
      pumpAll (if d.consumed then answerPull s c d ((d.args.getD 0 0#64).toNat)
        else if d.args.isEmpty then s
        else landGets (fabLen d / 4096 + 3) s c d.id)
    | none => s
  | .recv id => match s.fab.landings.find? (·.recv.id == id) with
    | some l => landRecv (l.data.length / 4096 + 3) s { l with held := none }
    | none => s
  | .nobody => s

/-- The completion code of a terminal fault: 0x04 reading, 0x05 writing (R258). -/
def faultCode (acc : Nat) : Nat := if acc = accWrite ∨ acc = accAmo then 0x05 else 0x04

/-- R165: a record resolved as terminal. A held hart that is frozen keeps the LOADPF as its trap unentered (R167). -/
def failRecord (s : State) (r : Record) : State :=
  let s := terminalRecord s r
  match r.owner with
  | .hart h tag =>
    let a := s.hart h
    match (a.hold.toList ++ a.holds).find? fun e => e.1 == r.fid with
    | some (_, va, st2) =>
      if a.tag = tag then
        let s := s.setHart h { a with hold := none, holds := [], stall := none }
        if a.pure.isSome then endTask s h 4 .empty 0#3
        else if a.frozen.isSome then s.setHart h ((s.hart h).freeze cLoadPf va r.addr r.acc false st2)
        else takeTrapAt s h cLoadPf va r.addr r.acc st2
      else s
    | none => s
  | .log core id => failLog s core id r.addr (r.stage == 2)
  | .copy core q => match headOf s core q with
    | some c =>
      if c.held = some r.fid then
        if c.isTask then failTask s core c else finishCopy (pureCopyDone s c) core q c (faultCode r.acc)
      else s
    | none => s
  | .matrix core => match mheadOf s core with
    | some c => if c.held = some r.fid then finishMatrix s core c (faultCode r.acc) else s
    | none => s
  | .conn c =>
    if (s.conn c).inHeld = some r.fid then failInbox s c
    else match heldConnCmd s c r.fid with
    | some d => pumpAll (if d.consumed then failPull s c d ((d.args.getD 0 0#64).toNat) else endConnCmd s c d (faultCode r.acc))
    | none => s
  | .recv id => match s.fab.landings.find? (·.recv.id == id) with
    | some l => endLandingRecv s l 2 0x05
    | none => s
  | .nobody => s

/-- R165, R315: FAULTRES of a function with an action. -/
def resolve (s : State) (f : Nat) (fid : BitVec 32) (act : State → Record → State) : State :=
  match s.flt.unresolved.find? fun r => r.fid % 2 ^ 32 == fid.toNat && r.func == f with
  | some r =>
    if vfFrozen s f || bootStopped s then s
    else act { s with flt := { s.flt with unresolved := s.flt.unresolved.erase r } } r
  | none => s

/-! ### Frozen masters (R167) -/

/-- R167: whether a writer may thaw or kill. -/
def mayThaw (w : Writer) : Bool := modeAtLeast w.mode .h

/-- R159, R167: a thawed hart takes its trap, an async one that finds its level's TE 0 when that is 1 again; a STOREPF freeze, which is
a record only (R158), leaves none to take. -/
def thawTrap (s : State) (h : Nat) : State :=
  let a := s.hart h
  match a.frozen with
  | none => s
  | some (c, tval) =>
    let s := s.setHart h { a with frozen := none, thawDue := false }
    if c = cStorePf then s
    else (enterTrap s h c tval a.frozeAt.2 a.frozeAt.1 a.froze.1 a.froze.2).getD (s.setHart h { s.hart h with thawed := (s.hart h).thawed ++ [(c, tval)] })

/-- R167: a frozen hart thawed. The registers of a saved thread stand in its image: it takes its trap once it is resident again. -/
def thawHart (s : State) (h : Nat) : State :=
  let a := s.hart h
  if a.isFrozen then
    if a.slot = .parked ∨ a.slot = .sliced then s.setHart h { a with thawDue := true } else thawTrap s h
  else s

/-- R167: a thread resident again that has been thawed while it was saved. -/
def takeThawed (s : State) (h : Nat) : State := if (s.hart h).thawDue then thawTrap s h else s

/-- R167: a frozen copy queue thawed goes on. -/
def thawQueue (s : State) (core q : Nat) : State :=
  let k := s.core core
  if k.cqFrozen.getLsbD q then
    kickCopy (s.setCore core { k with cqFrozen := k.cqFrozen &&& ~~~(BitVec.ofNat 4 (2 ^ q)) }) core q
  else s

/-- R167: the occupant of a frozen hart ended. -/
def killOccupant (s : State) (h : Nat) : State :=
  match (s.hart h).slot with
  | .thread => endThread s h
  | .parked => killThread s h
  | .sliced => killThread s h
  | .activation _ => killActivation s h
  | .landing _ => endLanding (s.setHart h (dropBuffer (s.hart h))) h
  | .pure => endTask s h 4 .empty 0#3
  | _ => s

/-- R167: FRZKILL of a hart. -/
def killFrozen (s : State) (h : Nat) : State := if (s.hart h).isFrozen then killOccupant s h else s

/-- R167: FRZKILL of a copy queue: every command's token is written with its fault code, 0x06. -/
def killQueue (s : State) (core q : Nat) : State :=
  let k := s.core core
  if k.cqFrozen.getLsbD q then
    let cs := k.copyq q
    let s := s.setCore core { (k.setCopyq q []) with cqFrozen := k.cqFrozen &&& ~~~(BitVec.ofNat 4 (2 ^ q)) }
    let s := cs.foldl (fun s c => if c.isTask then tokenPut s c.loc (BitVec.ofNat 64 (c.outLen * 2 ^ 32 + 4)) c.sig c.flags true
      else completeCmd (pureCopyDone s c) c 0x06) s
    kickCopy (drainFront s core 2) core q
  else s

/-! ### The watchdog (R149) -/

/-- R149, R299: the budget of an activation is spent: WATCHDOG becomes pending and the grace is loaded; a pure task ends. -/
def watchdogOut (s : State) (h : Nat) : State :=
  let a := s.hart h
  if a.isActivation && !a.grace && a.wdog == 0 then
    if a.pure.isSome then endTask s h 4 .empty 0#3
    else s.setHart h { a with grace := true, wdog := 4096, pend := a.pend ++ [(cWatchdog, 0#64)], idle := false }
  else s

/-- R149: the grace is spent: the activation is killed, with a record in the terminal ring. DESIGN CHOICE (notes/assumptions/75.md): the
record's ADDR is 0. -/
def watchdogEnd (s : State) (h : Nat) : State :=
  let a := s.hart h
  if a.isActivation && a.grace && a.wdog == 0 then
    let s := addRecord s (mkRecord s (h / 8) 0 cWatchdog 0 0 a.master (h % 8) a.tctx false .nobody)
    killOccupant s h
  else s

end Sys2Proof.Machine
end

