-- ==== Sys2Proof/Machine/Slices.lean ====
section
/-! DEFINITION. Slice end, restore and teardown of a partition (R49, R50, R271, R307, R308), the partition table's writes (R306),
time and error budgets (R294, R309). -/

namespace Sys2Proof.Machine

/-! ### The interval of a partition -/

/-- The cores of a partition's interval with their positions in it. -/
def partCores (s : State) (p : Nat) : List (Nat × Nat) :=
  let a := s.part p
  (List.range a.len).map fun k => (k, gOfHpos (a.base + k))

/-- The slots of a partition. -/
def partSlots (s : State) (p : Nat) : List Nat := (partCores s p).flatMap fun e => hartsOf e.2

/-- R308: the base of a core's part of the save area. -/
def saveCore (s : State) (p k : Nat) : Nat := areaKey p ((s.part p).savebase.toNat + 0x80000 * k)

/-! ### Saving threads (R49 step 3) -/

/-- R49, R79, R82: what stopping a thread for its image does: its stores performed, its loads returned, a held load left to be
made again, its windows written back. -/
def stopThread (s : State) (h : Nat) : State :=
  let s := performOwn s h
  let s := s.setHart h { ((s.hart h).finishLoads) with hold := none, holds := [], stall := none }
  endWindows s h

/-- R35, R79: a stopped thread's image written into frame pa of its partition's save area, and a saved entry made in room i. -/
def saveImage (s : State) (h pa i : Nat) (byPark : Bool) : State :=
  let a := s.hart h
  let p := (tenantOf s (h / 8)).getD 0
  let s := saveWrite s (areaKey p pa) (imageBytes a h)
  let s := setDep s (h / 8) i ⟨s.time.setWidth 32, 1, h % 8, a.tag, BitVec.ofNat 64 pa, byPark, p⟩
  s.setHart h { a with slot := if byPark then .parked else .sliced }

/-- R49 step 3: the thread of a slot saved, if an entry is to be had (R36). -/
def saveThread (s : State) (h : Nat) : State :=
  match imageFrame s h, depRoom s (h / 8) with
  | some pa, some i => saveImage (stopThread s h) h pa i false
  | _, _ => s

/-- The threads of a partition not saved yet are saved. -/
def saveThreads (s : State) (p : Nat) : State :=
  (partSlots s p).foldl (fun s h => if (s.hart h).slot = .thread then saveThread s h else s) s

/-- R307: slice end: STATE 1; every thread stops at once, running activations go on. -/
def beginSlice (s : State) (p : Nat) : State :=
  if (s.part p).state = 0 then saveThreads (s.setPart p { s.part p with state := 1 }) p else s

/-! ### The end of slice end (R49, R271) -/

/-- Whether a hart still runs an activation that can end by itself. -/
def stillRuns (a : Hart) : Bool := a.isActivation && a.frozen.isNone

/-- Whether the head of a core's matrix queue has taken its first step. -/
def matrixBusy (s : State) (core : Nat) : Bool :=
  match mheadOf s core with
  | some c => c.started && c.off != 0
  | none => false

/-- R49: whether every core of a partition has finished: its threads saved, its activations ended, its unit's commands run. -/
def sliceReady (s : State) (p : Nat) : Bool :=
  (s.part p).state == 1 &&
    (partSlots s p).all (fun h => (s.hart h).slot != .thread && !stillRuns (s.hart h)) &&
    (partCores s p).all fun e => !matrixBusy s e.2

/-- R49 step 1: a frozen activation ended. -/
def endFrozen (s : State) (h : Nat) : State :=
  let a := s.hart h
  if a.isActivation then
    match a.slot with
    | .activation _ => if a.unrollable then killActivation s h else rollBack s h false
    | _ => killOccupant s h
  else s

/-- Whether a command is a PTASK that has not met its hit: `off` is then no offset, and it starts afresh (R305). -/
def Cmd.missed (c : Cmd) : Bool := c.isTask && !c.consumed

/-- R256, R271: the words of a copy record; a command waiting for leave goes with offset 0 (notes/assumptions/81.md). -/
def copyRecord (c : Cmd) : List Word :=
  let w := 2 ^ 63 + (if c.held.isSome then 2 ^ 62 else 0) + (if c.waitsLeave then 2 ^ 61 else 0) + c.word.toNat
  [BitVec.ofNat 64 w, c.x 0, c.x 1, c.x 2, c.x 3, BitVec.ofNat 64 (if c.missed || c.waitsLeave then 0 else c.off), 0#64, 0#64]

/-- R271: the words of a matrix record. -/
def matrixRecord (c : Cmd) : List Word :=
  [BitVec.ofNat 64 (2 ^ 63 + c.word.toNat), c.x 0, c.x 1, c.x 2, c.x 3, 0#64, 0#64, 0#64]

/-- The place of a record in the image of the thread that issued a command, where that thread is saved from the command's core. A thread
that has moved takes no record of its old core, whose place in the image a command of its new one may need (R271). -/
def imagePlace (s : State) (core : Nat) (c : Cmd) (off : Nat) : Option Nat :=
  match whereIs s c.hart c.tag with
  | .saved h _ pa => if h / 8 = core then some (pa + off) else none
  | _ => none

/-- R49 step 4, R271: the records of copy queue q, oldest first; its head's goes to the image. -/
def copyRecords (s : State) (core q : Nat) : List Cmd → List (Cmd × List Word × Option Nat)
  | [] => []
  | c :: rest => (c, copyRecord c, imagePlace s core c (0xB40 + 64 * q)) :: rest.map fun d => (d, copyRecord d, none)

/-- R49 step 5, R271: the records of a matrix queue, oldest first; `before` holds the commands of the queue that come before. The
first two of a thread go to its image. -/
def matrixRecords (s : State) (core : Nat) (before : List Cmd) : List Cmd → List (Cmd × List Word × Option Nat)
  | [] => []
  | c :: rest =>
    let n := (before.filter fun d => d.hart == c.hart && d.tag == c.tag).length
    (c, matrixRecord c, if n < 2 then imagePlace s core c (0xC40 + 64 * n) else none) :: matrixRecords s core (before ++ [c]) rest

/-- R308: the offsets of the engine-queue area and of the queue state in a core's part of the save area. -/
def engineArea : Nat := 0x68000
def queueArea : Nat := 0x78000

/-- R251, R308: place n of the engine-queue area. DESIGN CHOICE (notes/assumptions/81.md): the front queue's commands and the heads
that no image takes find room past its 1,024 records in what the queue state leaves of its region. -/
def recordPlace (area n : Nat) : Nat := if n < 1024 then area + engineArea + 64 * n else area + queueArea + 0x1000 + 64 * (n - 1024)

/-- R271: records placed: those that go to no image stand one after the other in the engine-queue area, from place n on. -/
def placeRecords (area : Nat) : Nat → List (Cmd × List Word × Option Nat) → List (Nat × Nat × List Word)
  | _, [] => []
  | n, (c, ws, some pa) :: rest => (c.id, pa, ws) :: placeRecords area n rest
  | n, (c, ws, none) :: rest => (c.id, recordPlace area n, ws) :: placeRecords area (n + 1) rest

/-- R49 steps 4 and 5: the records of a core's waiting commands, each with its place. -/
def coreRecords (s : State) (core area : Nat) (cq : Table (List Cmd)) (mq : List Cmd) : List (Nat × Nat × List Word) :=
  placeRecords area 0 (((List.range 4).flatMap fun q => copyRecords s core q (Table.get [] cq q)) ++ matrixRecords s core [] mq)

/-- R308: a core's channel and software queue state and its departure table, as its control window reads them, 16 bytes an entry. -/
def saveQueueState (s : State) (core area : Nat) : State :=
  let put := fun (n win off : Nat) (s : State) => (List.range n).foldl (fun s i =>
    saveWords s (area + queueArea + off + 16 * i) [ctrlRead s core (win + 16 * i), ctrlRead s core (win + 16 * i + 8)]) s
  put 64 0x2000 0x500 (put 16 0x3400 0x400 (put 64 0x3000 0 s))

/-- The bytes of an accumulator, row by row. -/
def accBytes (ms : MemSys) (core a : Nat) : List Byte :=
  (List.range 128).flatMap fun i => (List.range 128).flatMap fun j => leBytes 4 (accAt ms core a i j)

/-- R49 step 6, R308: accumulators and stash to the core's save area; a poisoned block stays poison. -/
def saveStores (s : State) (core area : Nat) : State :=
  let s := saveWrite s (area + 0x8000) (accBytes s.ms core 0)
  let s := saveWrite s (area + 0x18000) (accBytes s.ms core 1)
  let s := saveWrite s (area + 0x28000) (Memory.readBytes s.ms.stash (stashIdx core 0) stashSize)
  let bad := (List.range (stashSize / 64)).filter fun b =>
    isStashPoison s.ms (stashIdx core 0 / 64 + b) && areaBacked s (area + 0x28000 + 64 * b)
  { s with ms := bad.foldl (fun ms b => putPoison ms (lineOf (areaPa area + 0x28000) + b)) s.ms }

/-- A command as a restored queue reissues it: leave is asked again, a held one is tried again; a copy keeps its offset (R50,
R271), the copy of a hit goes on (R305), a matrix command and a missed PTASK start afresh. A CPYH whose packet is held for its
landing hart waits for it, so that each packet starts one handler (R268), and asks leave for its remaining bytes after it. -/
def reissue (c : Cmd) (matrix : Bool) : Cmd :=
  { c with leave := none, held := none, busy := c.busy && !c.isTask, started := c.isTask && c.consumed,
           off := if matrix || c.missed then 0 else c.off }

/-- R50 steps 3 and 4: a saved command with what its record holds: the instruction word, the group, the offset; a record that is no
longer valid is not reissued. One that waited for leave, whose record has offset 0, goes on after the bytes it had done (R256). -/
def recalled (s : State) (records : List (Nat × Nat)) (c : Cmd) : Option Cmd :=
  let c := { c with old := c.old.map fun _ => if isMldw c then s.ms.wbuf else s.ms.stash }
  match records.find? fun e => e.1 == c.id with
  | none => some c
  | some (_, pa) =>
    let w := fun k => imgWord s pa (8 * k)
    if (w 0).getLsbD 63 then
      some { c with word := (w 0).setWidth 32, g := [w 1, w 2, w 3, w 4], off := if (w 0).getLsbD 61 then c.off else (w 5).toNat }
    else none

/-- The pending entry of a PTASK that waits for its activation is given up: the task is looked up again. -/
def dropPending (s : State) (c : Cmd) : State := if c.missed && c.off != 0 then dropEntry s c.off else s

/-- The queues of a core as the save area keeps them: the front queue's commands behind those of their copy queue. -/
def savedQueues (k : Core) : Table (List Cmd) :=
  (k.front.foldl (fun (k : Core) c => k.setCopyq c.queue (k.copyq c.queue ++ [c])) k).cq

/-- A slot that slice end keeps for its partition. -/
def keptSlot (a : Hart) : Bool :=
  match a.slot with
  | .sliced => true
  | .parked => true
  | .reserved _ => true
  | _ => false

/-- CPYH packets on their way to a core. -/
def landingsTo (s : State) (core : Nat) : List LandPacket :=
  s.flight.filterMap fun e => match e with
    | .landingHandlerStart k => if k.dstCore = core then some k else none
    | _ => none

/-- Whether an event is a CPYH packet on its way to a core. -/
def landsOn (core : Nat) : Event → Bool
  | .landingHandlerStart k => k.dstCore == core
  | _ => false

/-- R268: the packets on their way to a core held. -/
def holdLandings (s : State) (core : Nat) : State :=
  { s with flight := s.flight.filter fun e => !landsOn core e, lag := s.lag - ((s.flight.take s.lag).filter (landsOn core)).length }

/-- R49: a core of a partition cleared for the next tenant, its state kept. A slot whose thread is kept does not become free for R27:
a waiting role stays waiting. -/
def saveOneCore (s : State) (p k core : Nat) : State :=
  let area := saveCore s p k
  let c := s.core core
  let cq := savedQueues c
  let records := coreRecords s core area cq c.mq
  let s := records.foldl (fun s r => saveWords s r.2.1 r.2.2) s
  let s := saveStores (saveQueueState s core area) core area
  let harts : Table Hart := ((hartsOf core).filter fun h => keptSlot (s.hart h)).map fun h => (h % 8, s.hart h)
  let packets := c.packets ++ landingsTo s core
  let s := holdLandings ((cq.flatMap (·.2)).foldl dropPending s) core
  let saved : SavedCore := ⟨Table.mapVals c.chans fun _ a => { a with started := 0 }, c.soft, harts,
    Table.mapVals cq fun _ l => l.map fun d => reissue d false, c.mq.map fun d => reissue d true, c.cqFrozen, c.hrole, c.roles, packets,
    records.map fun r => (r.1, r.2.1)⟩
  let s := { s with plat := { s.plat with saved := Table.set s.plat.saved (1024 * p + k) saved } }
  let s := s.setCore core { c with chans := [], soft := [], front := [], cq := [], mq := [], packets := [], cqFrozen := 0 }
  (hartsOf core).foldl (fun s h => if keptSlot (s.hart h) then s.setHart h (freedHart (s.hart h)) else s) s

/-- R308: the place of a partition's posted receives in its save area. -/
def recvArea (s : State) (p : Nat) : Nat := areaKey p ((s.part p).savebase.toNat + 0x80000 * (s.part p).len + 0xC00000)

/-- R308: the posted receives of a partition written to its save area, 64 bytes each. -/
def saveReceives (s : State) (p : Nat) : State :=
  let one := fun (r : Recv) => ([BitVec.ofNat 64 (r.src + 2 ^ 16 * r.smask), r.tag ++ r.tmask, r.va, BitVec.ofNat 64 r.max, r.loc,
    BitVec.ofNat 64 r.id, BitVec.ofNat 64 r.hart, 0#64] : List Word)
  saveWords s (recvArea s p) ((Table.get [] s.fab.posted p).flatMap one)

/-- R94, R308: a pending record of a pool saved in the launch queue of its partition's save area. DESIGN CHOICE
(notes/assumptions/57.md): one that finds no free place there is kept all the same. -/
def saveRecord (p : Nat) (s : State) (r : LaunchRec) : State :=
  let (s, r) := (placeRecordIn s p r).getD (s, r)
  { s with plat := { s.plat with savedRecs := Table.set s.plat.savedRecs p (Table.get [] s.plat.savedRecs p ++ [r]) } }

/-- R94: pending launch records of a partition leave the pools for its save area. -/
def saveRecords (s : State) (p : Nat) : State :=
  let mine := s.lch.pool.flatMap fun e => e.2.filter fun r => r.part == some p
  let pool := Table.mapVals s.lch.pool fun _ l => l.filter fun r => r.part != some p
  mine.foldl (saveRecord p) { s with lch := { s.lch with pool := pool } }

/-- R49: every core has finished: STATE 2. -/
def endSlice (s : State) (p : Nat) : State :=
  if sliceReady s p then
    let s := (partSlots s p).foldl endFrozen s
    let s := (partCores s p).foldl (fun s e => saveOneCore s p e.1 e.2) s
    let s := saveReceives (saveRecords s p) p
    (List.range 6).foldl refill (s.setPart p { s.part p with state := 2 })
  else s

/-! ### Restore (R50) -/

/-- R307: restore: STATE 3. -/
def beginRestore (s : State) (p : Nat) : State :=
  if (s.part p).state = 2 then s.setPart p { s.part p with state := 3 } else s

/-- R50 step 1, R308: accumulators and stash reloaded. -/
def loadStores (s : State) (core area : Nat) : State :=
  let acc := fun (off i j : Nat) => saveNat s (area + off + 4 * (128 * i + j)) 4
  let ms := setAcc (setAcc s.ms core 0 (acc 0x8000)) core 1 (acc 0x18000)
  let ms := (List.range (stashSize / 64)).foldl (fun (ms : MemSys) b =>
    let off := 64 * b
    let i := stashIdx core off
    let src := area + 0x28000 + off
    let ms := { ms with stash := Memory.writeBytes ms.stash i (saveRead s src 64) }
    if isPoison s.ms (lineOf (areaPa src)) && areaBacked s src then { ms with stashPoison := (i / 64) :: ms.stashPoison.filter (· != i / 64) }
    else { ms with stashPoison := ms.stashPoison.filter (· != i / 64) }) ms
  { s with ms := ms }

/-- R202, R308: a posted receive with what its record in the save area holds; as it is where no record there carries its number. -/
def loadReceive (s : State) (p : Nat) (r : Recv) : Recv :=
  let at_ := fun (i k : Nat) => imgWord s (recvArea s p) (64 * i + 8 * k)
  match (List.range 8192).find? fun i => (at_ i 5).toNat == r.id with
  | none => r
  | some i =>
    { r with src := fieldOf (at_ i 0) 15 0, smask := fieldOf (at_ i 0) 31 16, tag := (at_ i 1).extractLsb' 32 32
             tmask := (at_ i 1).extractLsb' 0 32, va := at_ i 2, max := fieldOf (at_ i 3) 31 0, loc := at_ i 4 }

/-- R202, R308: the posted receives of a partition that no send has matched meanwhile read back. -/
def loadReceives (s : State) (p : Nat) : State :=
  { s with fab := { s.fab with posted := Table.set s.fab.posted p ((Table.get [] s.fab.posted p).map (loadReceive s p)) } }

/-- R308: entry i of a departure table as the save area holds it. -/
def savedDep (s : State) (area i : Nat) : Dep :=
  let w := imgWord s (area + queueArea) (0x500 + 16 * i)
  ⟨w.extractLsb' 32 32, fieldOf w 21 20, fieldOf w 18 16, w.extractLsb' 0 16, imgWord s (area + queueArea) (0x508 + 16 * i), false, 0⟩

/-- R36, R308: a moved or exited entry of the saved table that has left the core's meanwhile stands there again, unless it has expired,
its pair is in use or no entry is free. -/
def loadDep (core area : Nat) (s : State) (i : Nat) : State :=
  let d := savedDep s area i
  let k := s.core core
  let gone := (d.state == 2 || d.state == 3) && depLive s k d && (findDep s core d.hart d.tag).isNone &&
    (s.hart (slotOf core d.hart)).tag != d.tag
  match depSlots.find? fun j => !depLive s k (k.depAt j) with
  | some j => if gone then setDep s core j d else s
  | none => s

/-- The saved entry of an image freed, on whichever core it stands. -/
def freeImage (s : State) (pa : Nat) : State :=
  let free := fun (_ : Nat) (d : Dep) => if d.state = 1 ∧ areaKey d.part d.place.toNat = pa then Dep.free else d
  { s with cores := Table.mapVals s.cores fun _ c => { c with dep := Table.mapVals c.dep free } }

/-- R50 step 2: a kept slot given back: a thread takes its image and its own tag, its saved entry is freed, and its first instruction
comes after an acquire (R42, R107). The send queues are the hart's, as they stand by now (R151, notes/assumptions/14.md). -/
def restoreSlot (s : State) (area core : Nat) (e : Nat × Hart) : State :=
  let h := slotOf core e.1
  let a := { e.2 with tagCtr := (s.hart h).tagCtr, sendq := (s.hart h).sendq }
  match a.slot with
  | .sliced =>
    let pa := area + 0x1000 * e.1
    let s := (freeImage s pa).setHart h { (loadImage s pa a) with slot := .thread }
    takeThawed (acquireBack s h (imgReleased s pa)) h
  | _ => s.setHart h a

/-- R50 step 5, R308: the counts and the mask of a channel as the save area holds them. -/
def loadChan (s : State) (area k : Nat) (a : Chan) : Chan :=
  let w := imgWord s (area + queueArea) (16 * k)
  let a := { a with masked := w.getLsbD 33, defer := if w.getLsbD 34 then a.defer else [] }
  let prod := w.extractLsb' 16 16
  let cons := w.extractLsb' 0 16
  if prod = a.prod ∧ cons = a.cons then a else { a with prod := prod, cons := cons, stamps := List.replicate (prod - cons).toNat 0 }

/-- R50 step 5, R308: a software queue as the save area holds it. -/
def loadSoft (s : State) (area k : Nat) (q : SoftQ) : SoftQ :=
  let w := imgWord s (area + queueArea) (0x400 + 16 * k)
  { q with prod := w.extractLsb' 16 16, cons := w.extractLsb' 0 16 }

/-- R50 steps 3 to 6: the queues of a core go on. -/
def wakeCore (s : State) (core : Nat) : State :=
  let s := kickMhead s core
  let s := (List.range 4).foldl (fun s q => kickCopy s core q) s
  kickLanding (kickReturned (kickDispatch s core) core) core

/-- R50: a core given back to its partition. -/
def restoreCore (s : State) (p k core : Nat) : State :=
  match Table.find? s.plat.saved (1024 * p + k) with
  | none => loadRoutes s core p
  | some a =>
    let area := saveCore s p k
    let s := loadStores s core area
    let s := a.harts.foldl (fun s e => restoreSlot s area core e) s
    let s := depSlots.foldl (loadDep core area) s
    let back := fun (l : List Cmd) => l.filterMap (recalled s a.records)
    let s := s.setCore core { s.core core with
      chans := Table.mapVals a.chans (loadChan s area), soft := Table.mapVals a.soft (loadSoft s area)
      cq := Table.mapVals a.cq fun _ l => back l, mq := back a.mq, cqFrozen := a.cqFrozen, hrole := a.hrole, roles := a.roles
      packets := a.packets }
    let s := { s with plat := { s.plat with saved := Table.erase s.plat.saved (1024 * p + k) } }
    loadRoutes s core p

/-- R94: the pending records of a partition return to the pools. -/
def restoreRecords (s : State) (p : Nat) : State :=
  let mine := Table.get [] s.plat.savedRecs p
  let mine := mine.map (fromQueue s)
  let s := { s with plat := { s.plat with savedRecs := Table.erase s.plat.savedRecs p } }
  mine.foldl (fun s r => acceptRecord s r.die r) s

/-- R50, R307: every core has finished the restore: the route table is loaded, STATE 0, work goes on. -/
def endRestore (s : State) (p : Nat) : State :=
  if (s.part p).state = 3 then
    let s := (partCores s p).foldl (fun s e => restoreCore s p e.1 e.2) s
    let s := s.setPart p { s.part p with state := 0 }
    let s := (partCores s p).foldl (fun s e => wakeCore s e.2) s
    let s := restoreRecords (resumeLandings (loadReceives s p) p) p
    kickStarts ((List.range 6).foldl refill s)
  else s

/-! ### Teardown (R307) -/

/-- A partition's launches forgotten, without status; a pre-built record whose armed record or launch is dropped is unarmed (DESIGN
CHOICE, notes/assumptions/38.md). -/
def dropLaunches (s : State) (p : Nat) : State :=
  let other := fun (r : LaunchRec) => r.part != some p
  let gone := s.lch.live.map (·.2.record) ++ s.lch.armed.flatMap (·.2)
  let s := (gone.filter fun r => !other r).foldl unarm s
  { s with lch := { s.lch with
      live := Table.keep s.lch.live fun _ a => other a.record
      pool := Table.mapVals s.lch.pool fun _ l => l.filter other
      armed := Table.mapVals s.lch.armed fun _ l => l.filter other
      queue := Table.erase s.lch.queue p
      qtail := Table.erase s.lch.qtail p } }

/-- R134, R307: a partition's pins removed, wherever the lines lie. -/
def dropPins (s : State) (p : Nat) : State := { s with ms := { s.ms with pins := Table.keep s.ms.pins fun _ q => q != p } }

/-- R307: the saved entries of a partition's images freed: those that this partition saved, and no entry of another partition, whatever
SAVEBASE holds (R1). -/
def dropImages (s : State) (p : Nat) : State :=
  let a := s.part p
  let lo := a.savebase.toNat
  let hi := lo + 0x80000 * a.len
  let free := fun (d : Dep) => if d.state = 1 ∧ d.part = p ∧ lo ≤ d.place.toNat ∧ d.place.toNat < hi then Dep.free else d
  { s with
    cores := Table.mapVals s.cores fun _ c => { c with dep := Table.mapVals c.dep fun _ d => free d }
    plat := { s.plat with
      saved := Table.keep s.plat.saved fun k _ => k / 1024 != p
      savedRecs := Table.erase s.plat.savedRecs p } }

/-- R307: teardown. -/
def tearDown (s : State) (p : Nat) : State :=
  if (s.part p).state = 2 then
    let s := dropPins (dropLaunches (dropImages (dropLandings s p) p) p) p
    let s := { s with
      fab := { s.fab with posted := Table.erase s.fab.posted p }
      reuse := { s.reuse with entries := s.reuse.entries.filter fun e => e.part != p } }
    s.setPart p { s.part p with len := 0 }
  else s

/-! ### The partition table (R306) -/

/-- R306: whether an interval may be written: within 1,024 cores, apart from every other defined one. -/
def intervalOk (s : State) (p base len : Nat) : Bool :=
  base + len ≤ 1024 && s.plat.parts.all fun e =>
    e.1 == p || e.2.len == 0 || len == 0 || base + len ≤ e.2.base || e.2.base + e.2.len ≤ base

/-- R306, R282: the interval of a record written; a newly defined partition starts its counters
at 0. -/
def writeInterval (s : State) (p base len : Nat) : State :=
  let a := s.part p
  if (a.state = 2 ∨ a.len = 0) ∧ intervalOk s p base len then
    let fresh := a.len == 0 && len != 0
    let s := s.setPart p { a with base := base, len := len, ebu := if fresh then 0 else a.ebu, tbu := if fresh then 0 else a.tbu }
    if fresh then { s with reuse := { s.reuse with counts := Table.keep s.reuse.counts fun k _ => k / 4 != p } } else s
  else s

/-- R307: a command of PCTL sets its step on its way; one that STATE does not allow, or that comes while one is on its way, is ignored. -/
def partCommand (s : State) (p cmd : Nat) : State :=
  let on := s.flight.contains (.sliceEnd p) || s.flight.contains (.restore p) || s.flight.contains (.teardown p)
  match cmd, (s.part p).state with
  | 1, 0 => if on then s else s.fly (.sliceEnd p)
  | 2, 2 => if on then s else s.fly (.restore p)
  | 3, 2 => if on then s else s.fly (.teardown p)
  | _, _ => s

/-- R306: dword k of a record written by M-mode. -/
def writePart (s : State) (w : Writer) (p k : Nat) (v : Word) : State :=
  if w.mode ≠ .m ∨ 64 ≤ p then s
  else
    let a := s.part p
    match k with
    | 0 =>
      let s := writeInterval s p (fieldOf v 9 0) (fieldOf v 20 10)
      partCommand s p (fieldOf v 23 22)
    | 1 => s.setPart p { a with savebase := v &&& ~~~0x1FFFFF#64 }
    | 2 => s.setPart p { a with route := v }
    | 4 => s.setPart p { a with dw4 := v &&& 0x000FFFFFFFFFFFFF#64 }
    | 5 => s.setPart p { a with dw5 := v &&& 0x000FFFFFFFFFF13F#64 }
    | _ => s

/-! ### Time and error budgets -/

/-- R306: one more TBU for a partition that is defined and runs. -/
def tickPart (_ : Nat) (a : Part) : Part := if a.state = 0 ∧ a.len ≠ 0 then { a with tbu := a.tbu + 1 } else a

/-- R309: one more TBU for a launch with a budget, while its partition runs and a thread of it exists. -/
def tickLaunch (s : State) (_ : Nat) (a : Launch) : Launch :=
  if hdrBudget a.record.hdr ≠ 0 ∧ !a.running.isEmpty ∧ recRuns s a.record then { a with tbu := a.tbu + 1 } else a

/-- R309: whether a launch has reached its budget. -/
def overBudget (a : Launch) : Bool := hdrBudget a.record.hdr != 0 && hdrBudget a.record.hdr ≤ a.tbu

/-- R306, R309: 10 µs of TIME have passed. -/
def tbuPass (s : State) : State :=
  let s := { s with
    plat := { s.plat with parts := Table.mapVals s.plat.parts tickPart }
    lch := { s.lch with live := Table.mapVals s.lch.live (tickLaunch s) } }
  s.lch.live.foldl (fun s e =>
    if overBudget e.2 && !s.flight.contains (.launchBudgetExpiry e.1) then s.fly (.launchBudgetExpiry e.1) else s) s

/-- R309: a launch at its budget ends with status 0x18. -/
def endBudget (s : State) (l : Nat) : State :=
  match Table.find? s.lch.live l with
  | some a => if overBudget a then killLaunch s l 0x18 else s
  | none => s

/-- R294: the length of an error window in nanoseconds of TIME. -/
def windowNs (a : Part) : Nat := a.ebwin.toNat * 1000000

/-- R294: the start of the window that TIME lies in: windows run back to back. -/
def windowStart (s : State) (a : Part) : Word :=
  if windowNs a = 0 then s.time else s.time - BitVec.ofNat 64 ((s.time - a.winStart).toNat % windowNs a)

/-- R294: a new error window. -/
def newWindow (s : State) (p : Nat) : State :=
  let a := s.part p
  s.setPart p { a with det := 0, corr := 0, spent := 0, raised := false, winStart := windowStart s a }

end Sys2Proof.Machine
end

