-- ==== Sys2Proof/Machine/HostPort.lean ====
section
/-! DEFINITION. The platform: control-window registers (R27, R141, R142, R176, R246), package windows (R198, R279, R285 to R287,
R312), the host's ports (R87, R313 to R316), the management page (R317 to R320, R345), Clover's refill and the throttle (R321,
R322), the tray and the I3C path (R323, R324), lockstep (R293), the rotation of release signatures (R100). -/

namespace Sys2Proof.Machine

/-! ### Hart roles (R27) -/

/-- R27: the roles a write names; code 2 on a hart other than H7 leaves its field. -/
def rolesWritten (old : BitVec 16) (v : Word) : BitVec 16 :=
  BitVec.ofNat 16 ((List.range 8).foldl (fun n k =>
    let new := fieldOf v (2 * k + 1) (2 * k)
    let cur := old.toNat / 2 ^ (2 * k) % 4
    n + (if k ≠ 7 ∧ new = 2 then cur else new) * 2 ^ (2 * k)) 0)

/-- Whether a slot holds nothing that runs or is parked, so that a role change applies at once (R27). -/
def roleFree (s : State) (h : Nat) : Bool :=
  match (s.hart h).slot with
  | .free => true
  | .reserved _ => true
  | _ => false

/-- R27: HROLE of a core written. -/
def writeRoles (s : State) (g : Nat) (v : Word) : State :=
  let k := s.core g
  let s := s.setCore g { k with hrole := rolesWritten k.hrole v }
  let s := (hartsOf g).foldl (fun s h => if roleFree s h then settleRole s h else s) s
  kickLanding (kickDispatch (kickStarts s) g) g

/-! ### The handler table (R141, R142) -/

/-- R142: whether a word 1 may enable its channel. -/
def mayEnable (c : Nat) (w0 w1 : Word) : Bool := chanMode w0 ≤ 1 && qFits w1 && (c != 1 || w1.getLsbD 5)

/-- R142: whether only PRI, EN and WDOG of a channel may change. -/
def chanBusy (s : State) (g : Nat) (c : BitVec 6) : Bool :=
  let a := (s.core g).chan c.toNat
  a.filled != 0 || activeCount s g c != 0

/-- R142: word 1 as a write leaves it. -/
def chanWord1 (s : State) (g : Nat) (c : BitVec 6) (v : Word) : Word :=
  let a := (s.core g).chan c.toNat
  let v := v &&& 0x1FFFFFFFFFFF#64
  let mine : Word := 0x3FFFC00000F#64
  let v := if chanBusy s g c then (v &&& mine) ||| (a.w1 &&& ~~~mine) else v
  if v.getLsbD 3 && !mayEnable c.toNat a.w0 v then v &&& ~~~8#64 else v

/-- R141, R142: a word of a handler-table entry written. -/
def writeHandler (s : State) (w : Writer) (g : Nat) (c : BitVec 6) (hi : Bool) (v : Word) : State :=
  if c = 0#6 ∧ w.mode ≠ .m then s
  else
    let k := s.core g
    let a := k.chan c.toNat
    let s :=
      if hi then s.setCore g (k.setChan c.toNat { a with w1 := chanWord1 s g c v })
      else if chanBusy s g c then s
      else
        let v := v &&& 0x03FFFFFFFFFFFFFE#64
        let v := if qEn a.w1 && 1 < chanMode v then withField v 57 56 (chanMode a.w0) else v
        s.setCore g (k.setChan c.toNat { a with w0 := v })
    kickReturned (kickDispatch s g) g

/-- R176: word 1 of a software queue written. DESIGN CHOICE (notes/assumptions/87.md): a write whose EN the size limits refuse stores the
other fields with EN 0 and clears PROD and CONS. -/
def writeSoft (s : State) (g : Nat) (i : BitVec 4) (v : Word) : State :=
  let k := s.core g
  let q := k.softq i.toNat
  let v := v &&& 0x3FFFFE8#64
  let v := if v.getLsbD 3 && !qFits v then v &&& ~~~8#64 else v
  let q := if v.getLsbD 3 then { q with w1 := v } else ⟨0, 0, v⟩
  s.setCore g (k.setSoft i.toNat q)

/-! ### The Class Map (R285 to R287) -/

/-- R287: a frame comes online filled with zeros under fresh check bits; no cache holds words of it. -/
def freshFrame (ms : MemSys) (f : Nat) : MemSys :=
  let lo := f * 0x200000
  let out := fun (line : Nat) => line * 64 < lo || lo + 0x200000 ≤ line * 64
  { ms with
    mem := Memory.zeroRange ms.mem lo (lo + 0x200000)
    dirty := Table.keep ms.dirty fun k _ => out k
    dies := Table.keep ms.dies fun k _ => out (k % 2 ^ 46)
    copies := Table.keep ms.copies fun k _ => out (k % 2 ^ 46)
    owners := Table.keep ms.owners fun k _ => out (k / 8 % 2 ^ 46)
    replicas := ms.replicas.filter fun k => out (k % 2 ^ 46)
    poison := ms.poison.filter fun k => out (k % 2 ^ 46)
    errors := ms.errors.filter fun e => out e.line }

/-- R285, R286, R342: an entry written, in the three steps of R285; a frame that does not exist takes no write of ONLINE. -/
def writeClass (s : State) (w : Writer) (f : Nat) (v : Word) : State :=
  if w.mode ≠ .m then s
  else
    let v := if Config.lastFrame < f then v &&& ~~~4#64 else v
    let old := classEntry s.ms f
    let stays := entryOnline old && v.getLsbD 2
    let cls := if stays || entryClass v == 3 then entryClass old else entryClass v
    let offline := BitVec.ofNat 64 (entryPart v * 2 ^ 10 + cls)
    let without := Table.set s.ms.classMap f offline
    let used := rawUsed { s.ms with classMap := without }
    if stays then { s with ms := { s.ms with classMap := Table.set s.ms.classMap f (offline ||| 4#64) } }
    else if v.getLsbD 2 && used + rawCost cls ≤ Config.rawTotal then
      { s with ms := { freshFrame s.ms f with classMap := Table.set s.ms.classMap f (offline ||| 4#64) } }
    else { s with ms := { s.ms with classMap := without } }

/-! ### Tables of the partition manager (R198, R279, R312) -/

/-- R198: a word of a Yarrow entry written. -/
def writeYarrow (s : State) (p k : Nat) (v : Word) : State :=
  let y := s.ytenant p
  let y := if k = 0 then { y with uqbase := v &&& ~~~0xFFF#64, uqlog := fieldOf v 5 0 }
    else if k = 1 then { y with rquota := fieldOf v 45 32 } else y
  { s with fab := { s.fab with yarrow := Table.set s.fab.yarrow p y } }

/-- R279: a word of a Chicory tenant entry written. -/
def writeTenant (s : State) (p : Nat) (hi : Bool) (v : Word) : State :=
  let t := s.rtenant p
  let t := if hi then (t.1, v &&& 0xF1FFF#64) else (v &&& 0x800FFFFFFFE0FFFF#64, t.2)
  { s with reuse := { s.reuse with tenants := Table.set s.reuse.tenants p t } }

/-- R312: an entry of the VF table written. -/
def writeVf (s : State) (f : Nat) (v : Word) : State :=
  { s with plat := { s.plat with vft := Table.set s.plat.vft f (v &&& 0x8000000000000FFF#64) } }

/-- R246, R198, R279, R312: a window register without a row of its own; only M-mode's writes take effect. -/
def writeWindowReg (s : State) (w : Writer) (va v : Word) : State :=
  if w.mode ≠ .m then s
  else
    match regionOf va with
    | .ctrl g off => if off = 0x18 then s.setCore g { s.core g with wbwin := v &&& 0x3F3F#64 } else s
    | .pkg off =>
      if 0x42000000 ≤ off ∧ off < 0x44000000 then
        let o := (off - 0x42000000) % 0x1000000
        if 0x20000 ≤ o ∧ o < 0x20800 then writeYarrow s ((o - 0x20000) / 32) (o / 8 % 4) v else s
      else if 0x44000000 ≤ off ∧ off < 0x44000400 then writeTenant s ((off - 0x44000000) / 16) (off % 16 == 8) v
      else if 0x4B000000 ≤ off ∧ off < 0x4B000200 then writeVf s ((off - 0x4B000000) / 8) v
      else s
    | _ => s

/-! ### The host's ports (R87, R313) -/

/-- A function's entry of the VF table (R312). -/
def vfEntry (s : State) (f : Nat) : Word := Table.get 0#64 s.plat.vft f

/-- R312: whether a function is bound, and the partition it serves. -/
def vfBound (s : State) (f : Nat) : Bool := (vfEntry s f).getLsbD 63
def vfPart (s : State) (f : Nat) : Nat := fieldOf (vfEntry s f) 5 0


/-- R313: a direct start returned to the host: MSGSTAT counts it and keeps its reason. -/
def returnStart (s : State) (f reason : Nat) : State :=
  let w := Table.get 0#64 s.flt.msgstat f
  let n := (fieldOf w 31 0 + 1) % 2 ^ 32
  { s with flt := { s.flt with msgstat := Table.set s.flt.msgstat f (BitVec.ofNat 64 (reason * 2 ^ 32 + n)) } }

/-- R87: the lowest-numbered resident-role hart of a core that is free and lent to nothing. -/
def startHart (s : State) (g : Nat) : Option Nat :=
  if coreRuns s g then (hartsOf g).find? fun h => roleOf s h == 0 && (s.hart h).slot == .free else none

/-- R87: a host direct start. -/
def startDirect (s : State) (f g : Nat) (pc p q : Word) : State :=
  if vfFrozen s f || bootStopped s then s
  else if !vfBound s f || tenantOf s g != some (vfPart s f) then returnStart s f 2
  else if pc.getLsbD 0 || !canonical pc then returnStart s f 3
  else
    match startHart s g with
    | none => returnStart s f 1
    | some h => directThread s h ((s.part (vfPart s f)).tctx true) pc p q

/-- R87: where a thread of a partition on the core of a submission reads the header: its translation, rights and die copy (R105). DESIGN
CHOICE (notes/assumptions/40.md): an address in a stash range is no translated one (R65, R66), and names the stash of the interval
base's core, where that is the partition's, or the remote core's stash. -/
def headerPlace (s : State) (p core : Nat) (c : TCtx) (va : Word) : Except EngErr (Place × State) :=
  match regionOf va with
  | .global => homeReach s (some p) core (l1dOf core) c va accRead
  | .stash _ => if ownerOf s core = some p then engReach s core c va accRead else .error .nothing
  | _ => engReachFor s (some p) core c va accRead

/-- R87: eight dwords of the header of a submission; none where a thread's read would fault or meet poison. -/
def readHeader (s : State) (p core : Nat) (c : TCtx) (va : Word) : Option (List Word) × State :=
  if !aligned va 64 || !canonical va then (none, s)
  else
    match headerPlace s p core c va with
    | .error _ => (none, s)
    | .ok (at_, s) =>
      let (bs, s) := engLine s none none at_ 64
      (if bs.any (·.2) then none
       else some ((List.range 8).map fun k => BitVec.ofNat 64 (leNat (((bs.map (·.1)).drop (8 * k)).take 8))), s)

/-- R87, R94: a submission's record with its header and presets copied, read under a context; as it is where they cannot be read. -/
def copyHeader (s : State) (r : LaunchRec) (p : Nat) (c : TCtx) (va : Word) : LaunchRec × State :=
  let core := gOfHpos (r.base % 1024)
  match readHeader s p core c va with
  | (none, s) => (r, s)
  | (some hdr, s) =>
    if (hdrFlags hdr).testBit 2 then
      match readHeader s p core c (va + 64#64) with
      | (some pre, s) => ({ r with hdr := hdr, presets := pre }, s)
      | (none, s) => (r, s)
    else ({ r with hdr := hdr }, s)

/-- R87: a host submission becomes a launch record at the core of its interval base. DESIGN CHOICE (notes/assumptions/40.md): its header
is read as a U-mode load of the partition's threads reads it, through the PF too (R26, R86), under the function's VMID; where the
function cannot write the completion address, the launch runs and its status is written nowhere; its threads take the context that
dwords 4 and 5 of the partition record hold when it is taken, not when each of them starts (R92). -/
def submit (s : State) (f : Nat) (hdr base arg compl : Word) : State :=
  if vfFrozen s f || bootStopped s || !vfBound s f then s
  else
    let p := vfPart s f
    let ctx := (s.part p).tctx true
    let die := base.toNat % 1024 / 256
    let dest := match hostWrite s f compl.toNat with
      | some pa => StatusTo.host (BitVec.ofNat 64 pa)
      | none => .nowhere
    let r : LaunchRec := ⟨s.nextId, [], [], base.toNat, 0, none, arg, dest, some p, f == 0, ctx, some sigAll, none, some hdr, die, none⟩
    let (r, s) := copyHeader s r p { ctx with vmid := BitVec.ofNat 6 (fieldOf (vfEntry s f) 11 6) } hdr
    acceptRecord { s with nextId := s.nextId + 1 } die r

/-! ### Rings (R314, R315) -/

/-- R314: whether every page of a ring can be written by its function. -/
def ringChecks (s : State) (f : Nat) (a : Ring) : Bool :=
  let pages := (32 * 2 ^ ringLog a + 4095) / 4096
  (List.range pages).all fun k => (hostWrite s f (a.base.toNat + 4096 * k)).isSome

/-- R167, R315: a function frozen: its freeze record. -/
def freezeVf (s : State) (f : Nat) (addr : Word) : State :=
  let ctx := (s.part (vfPart s f)).tctx true
  let r : Record := ⟨s.time, addr, cAccess, 0, accWrite, 5, f, 0, ctx.asid, ctx.vmid, false, s.nextId, f, 0, 5, .nobody⟩
  addFreezeRecord { s with flt := { s.flt with vffrz := s.flt.vffrz ||| BitVec.ofNat 64 (2 ^ f) } } r

/-- ERR after a write of dword 1: writing 1 clears it (R314). -/
def ringErr (a : Ring) (v : Word) : Bool := a.err && !v.getLsbD 62

/-- R314: dword 1 of a ring written with EN set; a stopped package ignores it (R317). -/
def enableRing (s : State) (f ring : Nat) (v : Word) : State :=
  let a := s.ringAt f ring
  if bootStopped s then s
  else if ringChecks s f a then s.setRing f ring { a with en := true, err := ringErr a v }
  else if f = 0 then s
  else freezeVf (s.setRing f ring { a with en := false, err := ringErr a v }) f a.base

/-- R314: the read index as a write leaves it. -/
def ringRead (a : Ring) (v : BitVec 32) : Ring :=
  let n := 2 ^ ringLog a
  if (a.wr - v).toNat ≤ n then { a with rd := v }
  else { a with rd := BitVec.ofNat 32 (v.toNat % n + (a.wr.toNat - a.wr.toNat % n)), err := true }

/-- R314: RD of a ring written; a stopped package ignores it (R317). -/
def writeRd (s : State) (f ring : Nat) (v : BitVec 32) : State :=
  if bootStopped s then s else s.setRing f ring (ringRead (s.ringAt f ring) v)

/-- R313, R314: a dword of a ring without a row of its own. -/
def writeRingReg (s : State) (f ring k : Nat) (v : Word) : State :=
  let a := s.ringAt f ring
  match k with
  | 0 => if a.en then s else s.setRing f ring { a with base := v &&& ~~~0xFFF#64, log := fieldOf v 4 0 }
  | 1 => if v.getLsbD 63 then enableRing s f ring v else s.setRing f ring { a with en := false, err := ringErr a v }
  | 3 => writeRd s f ring (v.setWidth 32)
  | _ => s

/-- R315: VFFRZ: a 1 thaws its VF; a stopped package ignores the write (R317). -/
def thawVfs (s : State) (mask : Word) : State :=
  if bootStopped s then s else { s with flt := { s.flt with vffrz := s.flt.vffrz &&& ~~~mask } }

/-- R315: VFKILL: a 1 drops the VF's waiting records and clears its EN; a stopped package ignores the write (R317). -/
def killVfs (s : State) (mask : Word) : State :=
  if bootStopped s then s
  else
    let hit := fun (f : Nat) => f != 0 && f < 64 && mask.getLsbD f
    let clear := fun (f : Nat) (w : Word) => if hit f then w &&& ~~~0x8000000000000000#64 else w
    { s with
      flt := { s.flt with waiting := s.flt.waiting.filter fun r => !hit r.func }
      plat := { s.plat with vft := Table.mapVals s.plat.vft clear } }

/-! ### The management page (R316 to R320, R345) -/

/-- R316: FEATACC takes its first write after reset. -/
def writeFeat (s : State) (k : BitVec 2) (v : Word) : State :=
  if s.plat.featdone.getLsbD k.toNat then s
  else { s with plat := { s.plat with
    featacc := Table.set s.plat.featacc k.toNat v
    featdone := s.plat.featdone ||| (1#4 <<< k.toNat) } }

/-- R318: NODEID. -/
def writeNode (s : State) (v : Word) : State :=
  if s.plat.nodeLock then s else { s with plat := { s.plat with node := v.setWidth 10 } }

/-- R316: FEATOFF registers. -/
def featOff (k : Nat) : Word := if k = 0 then Config.featOff0 else 0#64

/-- R319: bytes 0 to 247 of the report for a nonce. -/
def reportBytes (s : State) (n : BitVec 256) : List Byte :=
  leBytes 4 1 ++ leBytes 4 s.plat.node.toNat ++ leBytes 32 n.toNat ++ (List.range 96).map (fun k => Config.digestByte (40 + k)) ++
    (List.range 4).flatMap (fun k => leBytes 8 (featOff k).toNat) ++
    (List.range 4).flatMap (fun k => leBytes 8 (Table.get 0#64 s.plat.featacc k).toNat) ++
    (List.range 48).map fun k => Config.digestByte (200 + k)

/-- R319: a nonce starts a new report, whose end is on its way; it covers what the package holds when the nonce is written. -/
def writeNonce (s : State) (n : BitVec 256) : State :=
  let t := { s with plat := { s.plat with nonce := n, report := false, reportData := reportBytes s n } }
  if t.flight.contains .attestationReportDone then t else t.fly .attestationReportDone

/-- A dword of the nonce written; the last one completes it. -/
def writeNonceWord (s : State) (k : Nat) (v : Word) : State :=
  let old := s.plat.nonce.toNat
  let n := old - old / 2 ^ (64 * k) % 2 ^ 64 * 2 ^ (64 * k) + v.toNat * 2 ^ (64 * k)
  let s := { s with plat := { s.plat with nonce := BitVec.ofNat 256 n } }
  if k = 3 then s.fly (.attnonceWrite (BitVec.ofNat 256 n)) else s

/-- R345: a dword of the management page written; a register with a row of its own takes that row's effect. -/
def writeMgmt (s : State) (off : Nat) (v : Word) : State :=
  if off = 0x100 then { s with plat := { s.plat with pwrcap := v.setWidth 16 } }
  else if off = 0x108 then { s with plat := { s.plat with pwrcapt := v.setWidth 16 } }
  else if off = 0x110 then { s with plat := { s.plat with pwrfloor := v.setWidth 16 } }
  else if off = 0x120 then { s with plat := { s.plat with rackgrp := v.setWidth 10 } }
  else if off = 0x128 then writeNode s v
  else if 0x30 ≤ off ∧ off ≤ 0x48 ∧ off % 8 = 0 then writeFeat s (BitVec.ofNat 2 ((off - 0x30) / 8)) v
  else if 0x200 ≤ off ∧ off ≤ 0x288 ∧ off % 8 = 0 then
    let k := (off - 0x200) / 8
    match fieldOf v 2 0, (s.link k).state with
    | 1, 2 => s.fly (.lnkcmdQuiesce k)
    | 2, 4 => s.fly (.lnkcmdDetach k)
    | 3, 4 => s.fly (.lnkcmdResume k)
    | 4, 5 => s.fly (.lnkcmdReattach k)
    | _, _ => s
  else if 0x400 ≤ off ∧ off < 0x420 ∧ off % 8 = 0 then writeNonceWord s ((off - 0x400) / 8) v
  else s

/-- R319: byte i of the report; bytes 0 to 3 read 0 while it is being produced, every byte where no nonce has been written. -/
def reportByteOf (s : State) (i : Nat) : Byte :=
  let d := s.plat.reportData
  if i < 4 ∧ !s.plat.report then 0#8
  else if i < 248 then d.getD i 0#8
  else if d.isEmpty then 0#8 else Config.signByte d i

/-- R318: NODEID as it reads. -/
def nodeWord (s : State) : Word := BitVec.ofNat 64 ((if s.plat.nodeLock then 2 ^ 63 else 0) + s.plat.node.toNat)

/-- R345: a dword of the management page. -/
def mgmtRead (s : State) (off : Nat) : Word :=
  if off = 0 then s.plat.bootstat
  else if 0x10 ≤ off ∧ off ≤ 0x28 ∧ off % 8 = 0 then featOff ((off - 0x10) / 8)
  else if 0x30 ≤ off ∧ off ≤ 0x48 ∧ off % 8 = 0 then Table.get 0#64 s.plat.featacc ((off - 0x30) / 8)
  else if off = 0x50 then s.plat.deverr
  else if off = 0x100 then s.plat.pwrcap.setWidth 64
  else if off = 0x108 then s.plat.pwrcapt.setWidth 64
  else if off = 0x110 then s.plat.pwrfloor.setWidth 64
  else if off = 0x118 then BitVec.ofNat 64 (s.plat.energy.toNat * 2 ^ 32 + s.plat.avg.toNat)
  else if off = 0x120 then s.plat.rackgrp.setWidth 64
  else if off = 0x128 then nodeWord s
  else if 0x1000 ≤ off ∧ off < 0x1E25 then
    BitVec.ofNat 64 (leNat ((List.range 8).map fun k =>
      if off - 0x1000 + k < 3621 then reportByteOf s (off - 0x1000 + k) else 0#8))
  else 0#64

/-- R313: a BAR0 register without a row of its own. -/
def writeBar (s : State) (f off : Nat) (v : Word) : State :=
  if off / 32 = 8 ∧ off % 8 = 0 then writeRingReg s f 0 (off / 8 % 4) v
  else if f = 0 ∧ off / 32 = 9 ∧ off % 8 = 0 then writeRingReg s 0 1 (off / 8 % 4) v
  else if f = 0 ∧ off = 0x200 then { s with flt := { s.flt with ringwt := v &&& 0xFFFFFF#64 } }
  else if f = 0 ∧ off = 0x300 then thawVfs s v
  else if f = 0 ∧ off = 0x308 then killVfs s v
  else if f = 0 ∧ 0x8000 ≤ off ∧ off < 0xA000 then writeMgmt s (off - 0x8000) v
  else s

/-- R314: a dword of a ring read. -/
def ringWord (a : Ring) (k : Nat) : Word :=
  match k with
  | 0 => a.base ||| BitVec.ofNat 64 (a.log % 32)
  | 1 => (if a.en then 0x8000000000000000#64 else 0#64) ||| (if a.err then 0x4000000000000000#64 else 0#64)
  | 2 => a.wr.setWidth 64
  | 3 => a.rd.setWidth 64
  | _ => 0#64

/-- R6, R313 to R315, R317: a dword of BAR0 of a function read; the ports, the action registers and an unlisted offset read 0
(notes/assumptions/67.md). A stopped package answers the management page alone. -/
def barRead (s : State) (f off : Nat) : Word :=
  if f = 0 ∧ 0x8000 ≤ off ∧ off < 0xA000 then mgmtRead s (off - 0x8000)
  else if bootStopped s then 0#64
  else if off = 0x80 then Table.get 0#64 s.flt.msgstat f
  else if off / 32 = 8 ∧ off % 8 = 0 then ringWord (s.ringAt f 0) (off / 8 % 4)
  else if f = 0 ∧ off / 32 = 9 ∧ off % 8 = 0 then ringWord (s.ringAt 0 1) (off / 8 % 4)
  else if f = 0 ∧ off = 0x200 then s.flt.ringwt
  else if f = 0 ∧ off = 0x300 then s.flt.vffrz
  else 0#64

/-- R6: a register with no row of its own written from one of its ports. -/
def writeRegister (s : State) (port : Port) (off v : Word) : State :=
  match port with
  | .window w => writeWindowReg s w off v
  | .bar0 f => if bootStopped s && !(f == 0 && 0x8000 ≤ off.toNat) then s else writeBar s f off.toNat v
  | .mgmt => writeMgmt s off.toNat v

/-! ### Start-up (R317) -/

/-- R317: reset and the start-up steps; a failing step stops the package with its code. -/
def bootUp (s : State) (fail : Option Nat) (node : BitVec 10) : State :=
  let code := match fail with
    | some k => if 1 ≤ k ∧ k ≤ 5 then k else 0
    | none => 0
  let step := if code = 0 then 6 else code
  let fresh := State.reset
  { fresh with
    turns := s.turns
    freeCtr := s.freeCtr
    plat := { fresh.plat with
      bootstat := BitVec.ofNat 64 (code * 256 + step)
      node := if code = 0 ∨ code = 5 then node else 0
      ibis := if code = 0 then 0 else 1 } }

/-! ### Power (R320 to R322) -/

/-- R320: the cap in W as it acts. -/
def capEff (s : State) : Nat :=
  let f := s.plat.pwrfloor.toNat
  let f := if f < 1000 then 1000 else if 2000 < f then 2000 else f
  let c := s.plat.pwrcap.toNat
  if c < f then f else if 2000 < c then 2000 else c

/-- R321: the share of each compute die in LU, with the energy measured outside them in nJ. -/
def shareOf (s : State) (ext : Nat) : Int := ((capEff s : Int) * 10000 - (ext : Int)) / 4

/-- R320: the meter's registers take what is measured. -/
def measure (s : State) : State :=
  let w := Config.measuredPower s.freeCtr
  { s with
    freeCtr := s.freeCtr + 1
    plat := { s.plat with energy := s.plat.energy + w.extractLsb' 32 32, avg := w.setWidth 16 } }

/-- R321: the refill of every pool; none while the throttle is asserted (R322). -/
def refillPools (s : State) (ext : Nat) : State :=
  let s := measure s
  if s.plat.throttle then s
  else
    let share := shareOf s ext
    if share < 0 then s
    else
      let s := { s with plat := { s.plat with share := share } }
      let pools := (List.range 4).map fun d => (d, Min.min (s.lu d + share) (poolFull s))
      (List.range 4).foldl kickLeave { s with plat := { s.plat with pools := pools } }

/-- R322, R324: EMTHROT_N goes low: every pool is empty, an in-band interrupt is raised. -/
def throttleOn (s : State) : State :=
  { s with plat := { s.plat with throttle := true, pools := (List.range 4).map fun d => (d, 0), ibis := s.plat.ibis + 1 } }

/-- R322: EMTHROT_N is released. -/
def throttleOff (s : State) : State := { s with plat := { s.plat with throttle := false } }

/-! ### The management path (R324) -/

/-- R324: a private write: the offset, then data. -/
def i3cWrite (s : State) (off : BitVec 16) (v : Option Word) : State :=
  let s := { s with plat := { s.plat with i3coff := off } }
  match v with
  | some w => writeMgmt s off.toNat w
  | none => s

/-- R324: a private read from the last offset written. -/
def i3cRead (s : State) : State := { s with plat := { s.plat with i3cdata := mgmtRead s s.plat.i3coff.toNat } }

/-- R324: a broadcast cap. -/
def i3cCap (s : State) (group : BitVec 10) (cap : BitVec 16) : State :=
  if s.plat.rackgrp = group then { s with plat := { s.plat with pwrcap := cap } } else s

/-! ### Lockstep (R293) -/

/-- R293: a difference between the clusters of a bound pair: both freeze, with a terminal record of cause UNCORR. -/
def mismatch (s : State) (k : Nat) : State :=
  if (Table.find? s.plat.lockstep k).isSome && featureOn s 5 then
    let core := gOfHpos (8 * (2 * k))
    let r := mkRecord s core 0 cUncorr 0 0 0 0 ⟨0, 0, 0, 0, false, false⟩ false .nobody
    let s := addRecord s { r with func := 0, ring := 0 }
    let s := s.setCluster (2 * k) { s.cluster (2 * k) with frozen := true }
    s.setCluster (2 * k + 1) { s.cluster (2 * k + 1) with frozen := true }
  else s

/-! ### Release signatures (R100) -/

/-- R100: the generations of a hart's signature move on. -/
def Hart.rotate (h : Hart) : Hart := { h with sigPrev := h.sigCur, sigCur := .empty }

/-- R100, R102: every signature moves one generation on, those of saved threads too. -/
def rotateSigs (s : State) : State :=
  { s with
    harts := Table.mapVals s.harts fun _ h => h.rotate
    plat := { s.plat with saved := Table.mapVals s.plat.saved fun _ c => { c with harts := Table.mapVals c.harts fun _ h => h.rotate } }
    ms := { s.ms with homeSigs := Table.mapVals s.ms.homeSigs fun _ e => (.empty, e.1) } }

end Sys2Proof.Machine
end

