-- ==== Sys2Proof/Machine/Alu.lean ====
section
/-! DEFINITION. The integer operations: OPR (R53 to R56), OPI (R57), LIH and LPC (R58). -/

namespace Sys2Proof.Machine

/-! ### Forms -/

/-- R52, R53: an operation of two registers. -/
def aluRR (d a b : Reg) (f : Word → Word → Word) (s : State) : Host.Outcome State Fault Refusal :=
  finish s do
    needX a s
    needX b s
    freeX d s
    .ok (s.step4 fun h => h.wx d (f (h.rx a) (h.rx b)))

/-- R52, R57: an operation of one register. -/
def aluR (d a : Reg) (f : Word → Word) (s : State) : Host.Outcome State Fault Refusal :=
  finish s do
    needX a s
    freeX d s
    .ok (s.step4 fun h => h.wx d (f (h.rx a)))

/-- R52, R58: an operation of the PC. -/
def aluPc (d : Reg) (f : Word → Word) (s : State) : Host.Outcome State Fault Refusal :=
  finish s do
    freeX d s
    .ok (s.step4 fun h => h.wx d (f h.pc))

/-! ### Results -/

/-- A truth value as a register holds it. -/
def boolWord (c : Bool) : Word := if c then 1#64 else 0#64

/-- R53: signed and unsigned minimum and maximum. -/
def minS (a b : Word) : Word := if a.toInt ≤ b.toInt then a else b
def maxS (a b : Word) : Word := if a.toInt ≤ b.toInt then b else a
def minU (a b : Word) : Word := if a.toNat ≤ b.toNat then a else b
def maxU (a b : Word) : Word := if a.toNat ≤ b.toNat then b else a

/-- R53: comparisons. -/
def ltS (a b : Word) : Bool := decide (a.toInt < b.toInt)
def ltU (a b : Word) : Bool := decide (a.toNat < b.toNat)

/-- R53: the shift amount of a register. -/
def shamt (b : Word) : Nat := b.toNat % 64

/-- R53, R57: shifts. -/
def shl (a : Word) (n : Nat) : Word := a <<< n
def shrL (a : Word) (n : Nat) : Word := a >>> n
def shrA (a : Word) (n : Nat) : Word := a.sshiftRight n

/-- R53: rotations by less than 64. -/
def rotL (a : Word) (n : Nat) : Word := (a <<< n) ||| (a >>> (64 - n))
def rotR (a : Word) (n : Nat) : Word := (a >>> n) ||| (a <<< (64 - n))

/-- R54: the high halves of the products. -/
def mulHighS (a b : Word) : Word := BitVec.ofInt 64 (a.toInt * b.toInt / 2 ^ 64)
def mulHighU (a b : Word) : Word := BitVec.ofNat 64 (a.toNat * b.toNat / 2 ^ 64)

/-- R54: divisions and remainders; a quotient of 2^63 wraps to −2^63. -/
def divS (a b : Word) : Word := if b = 0#64 then BitVec.allOnes 64 else BitVec.ofInt 64 (Int.tdiv a.toInt b.toInt)
def divU (a b : Word) : Word := if b = 0#64 then BitVec.allOnes 64 else BitVec.ofNat 64 (a.toNat / b.toNat)
def remS (a b : Word) : Word := if b = 0#64 then a else BitVec.ofInt 64 (Int.tmod a.toInt b.toInt)
def remU (a b : Word) : Word := if b = 0#64 then a else BitVec.ofNat 64 (a.toNat % b.toNat)

/-- R55: bit counts and bit reversal. -/
def clz64 (a : Word) : Nat := ((List.range 64).find? fun k => a.getLsbD (63 - k)).getD 64
def ctz64 (a : Word) : Nat := ((List.range 64).find? fun k => a.getLsbD k).getD 64
def popc64 (a : Word) : Nat := ((List.range 64).filter fun k => a.getLsbD k).length
def brev64 (a : Word) : Word :=
  BitVec.ofNat 64 ((List.range 64).foldl (fun n i => n + (if a.getLsbD (63 - i) then 2 ^ i else 0)) 0)

/-- R56: position and length of a field, and its mask. -/
def fieldPos (b : Word) : Nat := fieldOf b 5 0
def fieldMask (b : Word) : Word := BitVec.ofNat 64 (2 ^ fieldOf b 13 8 - 1)

/-- R56: BEXT and BINS. -/
def bextOf (a b : Word) : Word := (a >>> fieldPos b) &&& fieldMask b
def binsOf (old a b : Word) : Word :=
  let f := fieldMask b <<< fieldPos b
  (old &&& ~~~f) ||| ((a <<< fieldPos b) &&& f)

/-- R57, R58: immediates. -/
def imm12 (i : BitVec 12) : Word := i.signExtend 64
def upper20 (i : BitVec 20) : Word := (i ++ 0#12).signExtend 64

/-! ### The meanings -/

/-- R53: ADD. -/
def execAdd (d a b : Reg) (s : State) : Host.Outcome State Fault Refusal := aluRR d a b (fun a b => a + b) s

/-- R53: SUB. -/
def execSub (d a b : Reg) (s : State) : Host.Outcome State Fault Refusal := aluRR d a b (fun a b => a - b) s

/-- R53: MIN. -/
def execMin (d a b : Reg) (s : State) : Host.Outcome State Fault Refusal := aluRR d a b minS s

/-- R53: MAX. -/
def execMax (d a b : Reg) (s : State) : Host.Outcome State Fault Refusal := aluRR d a b maxS s

/-- R53: MINU. -/
def execMinu (d a b : Reg) (s : State) : Host.Outcome State Fault Refusal := aluRR d a b minU s

/-- R53: MAXU. -/
def execMaxu (d a b : Reg) (s : State) : Host.Outcome State Fault Refusal := aluRR d a b maxU s

/-- R53: SLT. -/
def execSlt (d a b : Reg) (s : State) : Host.Outcome State Fault Refusal := aluRR d a b (fun a b => boolWord (ltS a b)) s

/-- R53: SLTU. -/
def execSltu (d a b : Reg) (s : State) : Host.Outcome State Fault Refusal := aluRR d a b (fun a b => boolWord (ltU a b)) s

/-- R53: AND. -/
def execAnd (d a b : Reg) (s : State) : Host.Outcome State Fault Refusal := aluRR d a b (fun a b => a &&& b) s

/-- R53: OR. -/
def execOr (d a b : Reg) (s : State) : Host.Outcome State Fault Refusal := aluRR d a b (fun a b => a ||| b) s

/-- R53: XOR. -/
def execXor (d a b : Reg) (s : State) : Host.Outcome State Fault Refusal := aluRR d a b (fun a b => a ^^^ b) s

/-- R53: ANDN. -/
def execAndn (d a b : Reg) (s : State) : Host.Outcome State Fault Refusal := aluRR d a b (fun a b => a &&& ~~~b) s

/-- R53: ORN. -/
def execOrn (d a b : Reg) (s : State) : Host.Outcome State Fault Refusal := aluRR d a b (fun a b => a ||| ~~~b) s

/-- R53: XNOR. -/
def execXnor (d a b : Reg) (s : State) : Host.Outcome State Fault Refusal := aluRR d a b (fun a b => ~~~(a ^^^ b)) s

/-- R53: SLL. -/
def execSll (d a b : Reg) (s : State) : Host.Outcome State Fault Refusal := aluRR d a b (fun a b => shl a (shamt b)) s

/-- R53: SRL. -/
def execSrl (d a b : Reg) (s : State) : Host.Outcome State Fault Refusal := aluRR d a b (fun a b => shrL a (shamt b)) s

/-- R53: SRA. -/
def execSra (d a b : Reg) (s : State) : Host.Outcome State Fault Refusal := aluRR d a b (fun a b => shrA a (shamt b)) s

/-- R53: ROL. -/
def execRol (d a b : Reg) (s : State) : Host.Outcome State Fault Refusal := aluRR d a b (fun a b => rotL a (shamt b)) s

/-- R53: ROR. -/
def execRor (d a b : Reg) (s : State) : Host.Outcome State Fault Refusal := aluRR d a b (fun a b => rotR a (shamt b)) s

/-- R54: MUL. -/
def execMul (d a b : Reg) (s : State) : Host.Outcome State Fault Refusal := aluRR d a b (fun a b => a * b) s

/-- R54: MULH. -/
def execMulh (d a b : Reg) (s : State) : Host.Outcome State Fault Refusal := aluRR d a b mulHighS s

/-- R54: MULHU. -/
def execMulhu (d a b : Reg) (s : State) : Host.Outcome State Fault Refusal := aluRR d a b mulHighU s

/-- R54: DIV. -/
def execDiv (d a b : Reg) (s : State) : Host.Outcome State Fault Refusal := aluRR d a b divS s

/-- R54: DIVU. -/
def execDivu (d a b : Reg) (s : State) : Host.Outcome State Fault Refusal := aluRR d a b divU s

/-- R54: REM. -/
def execRem (d a b : Reg) (s : State) : Host.Outcome State Fault Refusal := aluRR d a b remS s

/-- R54: REMU. -/
def execRemu (d a b : Reg) (s : State) : Host.Outcome State Fault Refusal := aluRR d a b remU s

/-- R56: BEXT. -/
def execBext (d a b : Reg) (s : State) : Host.Outcome State Fault Refusal := aluRR d a b bextOf s

/-- R56: BINS; it also reads x[rd]. -/
def execBins (d a b : Reg) (s : State) : Host.Outcome State Fault Refusal :=
  finish s do
    needX a s
    needX b s
    needX d s
    freeX d s
    .ok (s.step4 fun h => h.wx d (binsOf (h.rx d) (h.rx a) (h.rx b)))

/-- R55: CLZ. -/
def execClz (d a : Reg) (s : State) : Host.Outcome State Fault Refusal := aluR d a (fun a => BitVec.ofNat 64 (clz64 a)) s

/-- R55: CTZ. -/
def execCtz (d a : Reg) (s : State) : Host.Outcome State Fault Refusal := aluR d a (fun a => BitVec.ofNat 64 (ctz64 a)) s

/-- R55: POPC. -/
def execPopc (d a : Reg) (s : State) : Host.Outcome State Fault Refusal := aluR d a (fun a => BitVec.ofNat 64 (popc64 a)) s

/-- R55: BREV. -/
def execBrev (d a : Reg) (s : State) : Host.Outcome State Fault Refusal := aluR d a brev64 s

/-- R57: ADDI. -/
def execAddi (d a : Reg) (i : BitVec 12) (s : State) : Host.Outcome State Fault Refusal := aluR d a (fun a => a + imm12 i) s

/-- R57: ANDI. -/
def execAndi (d a : Reg) (i : BitVec 12) (s : State) : Host.Outcome State Fault Refusal := aluR d a (fun a => a &&& imm12 i) s

/-- R57: ORI. -/
def execOri (d a : Reg) (i : BitVec 12) (s : State) : Host.Outcome State Fault Refusal := aluR d a (fun a => a ||| imm12 i) s

/-- R57: XORI. -/
def execXori (d a : Reg) (i : BitVec 12) (s : State) : Host.Outcome State Fault Refusal := aluR d a (fun a => a ^^^ imm12 i) s

/-- R57: SLLI. -/
def execSlli (d a : Reg) (i : BitVec 6) (s : State) : Host.Outcome State Fault Refusal := aluR d a (fun a => shl a i.toNat) s

/-- R57: SRLI. -/
def execSrli (d a : Reg) (i : BitVec 6) (s : State) : Host.Outcome State Fault Refusal := aluR d a (fun a => shrL a i.toNat) s

/-- R57: SRAI. -/
def execSrai (d a : Reg) (i : BitVec 6) (s : State) : Host.Outcome State Fault Refusal := aluR d a (fun a => shrA a i.toNat) s

/-- R57: SLTI. -/
def execSlti (d a : Reg) (i : BitVec 12) (s : State) : Host.Outcome State Fault Refusal := aluR d a (fun a => boolWord (ltS a (imm12 i))) s

/-- R58: LIH. -/
def execLih (d : Reg) (i : BitVec 20) (s : State) : Host.Outcome State Fault Refusal := aluPc d (fun _ => upper20 i) s

/-- R58: LPC. -/
def execLpc (d : Reg) (i : BitVec 20) (s : State) : Host.Outcome State Fault Refusal := aluPc d (fun pc => pc + upper20 i) s

end Sys2Proof.Machine
end

