-- ==== Sys2Proof/Machine/Control.lean ====
section
/-! DEFINITION. Branches and jumps (R59 to R61). -/

namespace Sys2Proof.Machine

/-- R59: the target of a branch at a PC. -/
def branchTarget (pc : Word) (o : BitVec 12) : Word := pc + o.signExtend 64 * 2#64

/-- R59: a hart that branches or goes on. -/
def Hart.branch (h : Hart) (t : Bool) (o : BitVec 12) : Hart := if t then h.jump (branchTarget h.pc o) else h.retire 4

/-- R59: a branch on two registers. -/
def branchOn (a b : Reg) (o : BitVec 12) (f : Word → Word → Bool) (s : State) : Host.Outcome State Fault Refusal :=
  finish s do
    needX a s
    needX b s
    .ok (s.setMe (s.me.branch (f (s.me.rx a) (s.me.rx b)) o))

/-- R59: BEQ. -/
def execBeq (a b : Reg) (o : BitVec 12) (s : State) : Host.Outcome State Fault Refusal := branchOn a b o (fun x y => x == y) s

/-- R59: BNE. -/
def execBne (a b : Reg) (o : BitVec 12) (s : State) : Host.Outcome State Fault Refusal := branchOn a b o (fun x y => x != y) s

/-- R59: BLT. -/
def execBlt (a b : Reg) (o : BitVec 12) (s : State) : Host.Outcome State Fault Refusal := branchOn a b o ltS s

/-- R59: BGE. -/
def execBge (a b : Reg) (o : BitVec 12) (s : State) : Host.Outcome State Fault Refusal :=
  branchOn a b o (fun x y => !ltS x y) s

/-- R59: BLTU. -/
def execBltu (a b : Reg) (o : BitVec 12) (s : State) : Host.Outcome State Fault Refusal := branchOn a b o ltU s

/-- R59: BGEU. -/
def execBgeu (a b : Reg) (o : BitVec 12) (s : State) : Host.Outcome State Fault Refusal :=
  branchOn a b o (fun x y => !ltU x y) s

/-- R59, R60: BRDY, which does not wait; a pure task may not run it (R300). -/
def execBrdy (a : Reg) (o : BitVec 12) (s : State) : Host.Outcome State Fault Refusal :=
  finish s do
    noPure 0#64 s
    .ok (s.setMe (s.me.branch (s.me.xok a) o))

/-- R59, R60: BNRDY, which does not wait; a pure task may not run it (R300). -/
def execBnrdy (a : Reg) (o : BitVec 12) (s : State) : Host.Outcome State Fault Refusal :=
  finish s do
    noPure 0#64 s
    .ok (s.setMe (s.me.branch (!s.me.xok a) o))

/-- R61: a hart that jumps and links. -/
def Hart.link (h : Hart) (d : Reg) (target : Word) : Hart := (h.wx d (h.pc + 4#64)).jump target

/-- R61: JL. -/
def execJl (d : Reg) (i : BitVec 20) (s : State) : Host.Outcome State Fault Refusal :=
  finish s do
    freeX d s
    .ok (s.setMe (s.me.link d (s.me.pc + i.signExtend 64 * 2#64)))

/-- R61: JLR; the target uses the old x[rs1]. -/
def execJlr (d a : Reg) (i : BitVec 12) (s : State) : Host.Outcome State Fault Refusal :=
  finish s do
    needX a s
    freeX d s
    .ok (s.setMe (s.me.link d (effAddr s a i)))

end Sys2Proof.Machine
end

