-- ==== Sys2Proof/Machine/LoadStore.lean ====
section
/-! DEFINITION. LOAD and STORE (R62 to R66). -/

namespace Sys2Proof.Machine

/-! ### Loads -/

/-- R62: a value sign-extended from n bytes, and zero-extended. -/
def sextBytes (n v : Nat) : Word := (BitVec.ofNat (8 * n) v).signExtend 64
def zextBytes (v : Nat) : Word := BitVec.ofNat 64 v

/-- R63: a value on its way to x[rd] past a retired load. -/
def loadValue (s : State) (d : Reg) (v : Word) (l2 : Nat) : State :=
  startLoad (s.setMe ((s.me.armX d).retire 4)) (.xreg d v) 0#3 l2

/-- R62, R63, R66, R114: a load of a place once reached. -/
def loadPlace (s : State) (d : Reg) (va rep : Word) (p : Place) (n : Nat) (ext : Nat → Word) : Res := do
  check (!remotePending s s.cur p n) (.wait .other)
  let g ← match readPlace s s.cur va p n true with
    | .error (.memErr acc l u _) => .error (.memErr acc l u rep)
    | r => r
  let h := countMiss s p n g.st.me
  .ok (loadValue (g.st.setMe h) d (ext (leNat g.bytes)) (l2Reads s p n))

/-- R62, R64: a load of n bytes. -/
def loadOp (d a : Reg) (i : BitVec 12) (n : Nat) (ext : Nat → Word) (s : State) : Host.Outcome State Fault Refusal :=
  finish s do
    needX a s
    let ea := effAddr s a i
    needPureRead ea n s
    freeX d s
    if inWindow ea then do
      let v ← windowLoad s s.cur ea n
      .ok (loadValue s d v 0)
    else do
      check (aligned ea n) (.trap cMisalign ea)
      check (!lineLogged s s.myCore ea) (.wait .other)
      let (p, s) ← reach s s.myCore s.me.tctx ea accRead
      loadPlace s d ea ea p n ext

/-- R62: LD.B. -/
def execLdB (d a : Reg) (i : BitVec 12) (s : State) : Host.Outcome State Fault Refusal := loadOp d a i 1 (sextBytes 1) s

/-- R62: LD.H. -/
def execLdH (d a : Reg) (i : BitVec 12) (s : State) : Host.Outcome State Fault Refusal := loadOp d a i 2 (sextBytes 2) s

/-- R62: LD.W. -/
def execLdW (d a : Reg) (i : BitVec 12) (s : State) : Host.Outcome State Fault Refusal := loadOp d a i 4 (sextBytes 4) s

/-- R62: LD.D. -/
def execLdD (d a : Reg) (i : BitVec 12) (s : State) : Host.Outcome State Fault Refusal := loadOp d a i 8 zextBytes s

/-- R62: LDU.B. -/
def execLduB (d a : Reg) (i : BitVec 12) (s : State) : Host.Outcome State Fault Refusal := loadOp d a i 1 zextBytes s

/-- R62: LDU.H. -/
def execLduH (d a : Reg) (i : BitVec 12) (s : State) : Host.Outcome State Fault Refusal := loadOp d a i 2 zextBytes s

/-- R62: LDU.W. -/
def execLduW (d a : Reg) (i : BitVec 12) (s : State) : Host.Outcome State Fault Refusal := loadOp d a i 4 zextBytes s

/-- R28, R65: the stash offset of a tile access, or MISALIGN, after the privilege and partition checks of an address in a window. -/
def tileOf (s : State) (ea : Word) (acc : Nat) : Except Stop Nat :=
  match localOff ea with
  | some o => if aligned ea 8 then .ok (tileOff o) else .error (.trapAcc acc cMisalign ea)
  | none => do
    needWindow s s.cur ea acc
    .error (.trapAcc acc cMisalign ea)

/-- The virtual address of an offset of the local stash. -/
def stashVa (o : Nat) : Word := BitVec.ofNat 64 (stashBase + o)

/-- R62, R65: LD.T. -/
def execLdT (d a : Reg) (i : BitVec 12) (s : State) : Host.Outcome State Fault Refusal :=
  finish s do
    needX a s
    let ea := effAddr s a i
    noPure ea s
    freeX d s
    let o ← tileOf s ea accRead
    check (!lineLogged s s.myCore (stashVa o)) (.wait .other)
    let (p, s) ← reachStash s (ownerOf s s.myCore) s.myCore o ea accRead
    loadPlace s d (stashVa o) ea p 8 zextBytes

/-! ### Stores -/

/-- R64, R66: the precise checks of a store's address outside the windows. -/
def needStoreAddr (ea : Word) (n : Nat) : Except Stop Unit := do
  check (aligned ea n) (.trapAcc accWrite cMisalign ea)
  check (canonical ea && regionOf ea != .noStash) (.deny accWrite ea)

/-- R62, R64: a store of the low n bytes of x[rs2]. -/
def storeOp (a b : Reg) (i : BitVec 12) (n : Nat) (s : State) : Host.Outcome State Fault Refusal :=
  finish s do
    needX a s
    needX b s
    let ea := effAddr s a i
    needPureWrite ea n s
    if inWindow ea then needWindowStore s s.cur ea n else needStoreAddr ea n
    let s ← storeMem s ea ea (leBytes n (s.me.rx b).toNat)
    .ok (s.step4 id)

/-- R62: ST.B. -/
def execStB (a b : Reg) (i : BitVec 12) (s : State) : Host.Outcome State Fault Refusal := storeOp a b i 1 s

/-- R62: ST.H. -/
def execStH (a b : Reg) (i : BitVec 12) (s : State) : Host.Outcome State Fault Refusal := storeOp a b i 2 s

/-- R62: ST.W. -/
def execStW (a b : Reg) (i : BitVec 12) (s : State) : Host.Outcome State Fault Refusal := storeOp a b i 4 s

/-- R62: ST.D. -/
def execStD (a b : Reg) (i : BitVec 12) (s : State) : Host.Outcome State Fault Refusal := storeOp a b i 8 s

/-- R62, R65: ST.T. -/
def execStT (a b : Reg) (i : BitVec 12) (s : State) : Host.Outcome State Fault Refusal :=
  finish s do
    needX a s
    needX b s
    let ea := effAddr s a i
    noPure ea s
    let o ← tileOf s ea accWrite
    let s ← storeMem s (stashVa o) ea (leBytes 8 (s.me.rx b).toNat)
    .ok (s.step4 id)

end Sys2Proof.Machine
end

