-- ==== Sys2Proof/Machine/Order.lean ====
section
/-! DEFINITION. ORDER and SYNC: LD.AQ, ST.RL, LDTO (R118 to R120), FENCE and IFLUSH (R125, R126), barrier objects (R127 to
R130). -/

namespace Sys2Proof.Machine

/-! ### What the synchronisation forms share -/

/-- Whether a put is a release of a thread (R107). -/
def putReleases (h : Nat) (tag : BitVec 16) (p : Put) : Bool :=
  p.sig.isSome && (match p.sender with
    | some d => slotOf d.core d.hart == h && d.tag == tag
    | none => false)

/-- Whether an event in flight is a release put of a thread, or a barrier operation of one (R107). -/
def Event.releasingPut (h : Nat) (tag : BitVec 16) : Event → Bool
  | .putArrival p => putReleases h tag p
  | _ => false

def Event.releasingBarrier (h : Nat) (tag : BitVec 16) : Event → Bool
  | .barrierUpdate b => b.slot == some (h, tag)
  | _ => false

/-- Whether a release put of a thread has left the package and is not acknowledged yet (R107, R191). -/
def putAway (s : State) (h : Nat) (tag : BitVec 16) : Bool :=
  let mine := fun (p : Packet) => match p with
    | .put p => putReleases h tag p
    | _ => false
  s.fab.flows.any fun f => f.2.kept.any (fun e => mine e.2) || f.2.open_.any mine

/-- R108: a synchronisation operation on memory comes after every earlier one of the hart: a barrier operation on its way, a release
store in the side log. -/
def needSyncOrder (s : State) : Except Stop Unit := do
  check (!s.flight.any (Event.releasingBarrier s.cur s.me.tag)) (.wait .other)
  check (!(s.core s.myCore).sidelog.any fun e => e.hart == s.cur && e.tag == s.me.tag && e.rel.isSome) (.wait .other)

/-- R108: an acquire waits for every earlier release of the hart, puts within the package and beyond it among them. -/
def needAcquire (s : State) : Except Stop Unit := do
  needSyncOrder s
  check (!s.flight.any (Event.releasingPut s.cur s.me.tag) && !putAway s s.cur s.me.tag) (.wait .other)

/-- The signature an acquire of a place receives (R101, R102); a stash keeps none. -/
def placeSig (s : State) (p : Place) : Option Sig := (placeKey p).map fun k => receivedSig s.ms s.gen k

/-- R101: the acquire of the issuing hart at a place. -/
def acquirePlace (s : State) (p : Place) : State :=
  match placeSig s p with
  | some g => applySig s s.myCore s.cur g
  | none => s

/-- Own stores not yet performed that touch a place are waited for: what acts at the home acts on them. -/
def needPerformed (s : State) (p : Place) (n : Nat) : Except Stop Unit := do
  check (!remotePending s s.cur p n) (.wait .other)
  match p with
  | .stash _ => .ok ()
  | .mem pa _ _ _ _ => check ((List.range n).all fun k => (pendingByte s.ms.stores s.cur s.me.tag (pa + k)).isNone) (.wait .other)

/-- The address checks of R28 and R64 for a form that reaches no window. -/
def needAddr (ea : Word) (n acc : Nat) : Except Stop Unit := do
  noWindow ea acc
  check (aligned ea n) (.trapAcc acc cMisalign ea)
  check (canonical ea) (.deny acc ea)

/-! ### LD.AQ, ST.RL, LDTO (R118 to R120) -/

/-- R119: LD.AQ. -/
def execLdAq (d a : Reg) (s : State) : Host.Outcome State Fault Refusal :=
  finish s do
    needX a s
    let ea := s.me.rx a
    needPureRead ea 8 s
    freeX d s
    needAddr ea 8 accRead
    check (!lineLogged s s.myCore ea) (.wait .other)
    needAcquire s
    let (p, s) ← reach s s.myCore s.me.tctx ea accRead
    check (!remotePending s s.cur p 8) (.wait .other)
    let g ← readHome s s.cur ea p 8
    .ok (loadValue (acquirePlace g.st p) d (zextBytes (leNat g.bytes)) (l2Home p))

/-- R119: ST.RL sent out directly: its wait, then the store at the home. -/
def releaseOut (va : Word) (bs : List Byte) (s : State) : Except Stop State := do
  needReleased s
  releaseStore s s.cur va bs

/-- R119: ST.RL. -/
def execStRl (a b : Reg) (s : State) : Host.Outcome State Fault Refusal :=
  finish s do
    needX a s
    needX b s
    let ea := s.me.rx a
    needPureWrite ea 8 s
    noWindow ea accWrite
    needStoreAddr ea 8
    let bs := leBytes 8 (s.me.rx b).toNat
    let s ← match s.me.pure with
      | some _ => storeMem s ea ea bs
      | none => bufferOr s (.store ea bs true ea) (releaseOut ea bs)
    .ok (s.step4 id)

/-- R120: LDTO and LDTO.W. -/
def ldtoOp (a b : Reg) (word : Bool) (s : State) : Host.Outcome State Fault Refusal :=
  finish s do
    needX a s
    needX b s
    let ea := s.me.rx a
    noPure ea s
    needCount s
    let loc := resolveLocal s.plat.node (s.me.rx b)
    needRoute loc s
    needAddr ea (if word then 4 else 8) accRead
    check (!lineLogged s s.myCore ea) (.wait .other)
    let _ ← reach s s.myCore s.me.tctx ea accRead
    let s ← bufferOr s (.ldto loc ea word) fun s => do
      needReply s s.cur
      deliverLoad s s.cur (senderOf s s.cur none false) loc ea word
    .ok (s.step4 id)

/-- R120: LDTO. -/
def execLdto (a b : Reg) (s : State) : Host.Outcome State Fault Refusal := ldtoOp a b false s

/-- R120: LDTO.W. -/
def execLdtoW (a b : Reg) (s : State) : Host.Outcome State Fault Refusal := ldtoOp a b true s

/-! ### Fences (R125, R126) -/

/-- R109, R125: FENCE once its waits are over: every unowned word of the core's L1D and windows ends, as at an acquire that receives
ALL, which the hart's later releases pass on (R100, notes/assumptions/80.md). -/
def fenced (s : State) : State := ({ s with ms := dropUnowned s.ms s.myCore }).step4 (·.inherit sigAll)

/-- R125: FENCE. -/
def execFence (s : State) : Host.Outcome State Fault Refusal :=
  finish s do
    needUnrollable s
    needReleased s
    .ok (fenced s)

/-- R125: FENCE.E also waits for the hart's engine commands. -/
def execFenceE (s : State) : Host.Outcome State Fault Refusal :=
  finish s do
    needUnrollable s
    check (s.me.engines == 0) (.wait .other)
    needReleased s
    .ok (fenced s)

/-- R126: IFLUSH, once the earlier stores of the hart are performed, those to windows among them. DEDUCED (notes/assumptions/22.md): those
that an activation's buffer still holds are not waited for, since IFLUSH does not release it (R290). -/
def execIflush (s : State) : Host.Outcome State Fault Refusal :=
  finish s do
    needStored s
    needDelivered s s.myCore
    .ok (({ s with ms := dropFetched s.ms s.myCore }).step4 id)

/-! ### Barrier objects (R127 to R130) -/

/-- R127: a barrier object reached: its physical address. -/
def reachBarrier (s : State) (va : Word) (acc : Nat) : Except Stop (Place × Nat × State) := do
  needAddr va 16 acc
  let (p, s) ← reach s s.myCore s.me.tctx va acc
  match barrierPlace p with
  | some pa => .ok (p, pa, s)
  | none => .error (.deny acc va)

/-- R128: BAREXP and BARARR: sent once the hart's release wait is over, counted in UNACK until performed. -/
def barrierOp (a n : Reg) (expect : Bool) (s : State) : Host.Outcome State Fault Refusal :=
  finish s do
    needX a s
    needX n s
    let va := s.me.rx a
    noPure va s
    let (_, pa, s') ← reachBarrier s va accAmo
    needUnrollable s
    needReleased s
    needCount s
    let c := (s.me.rx n).toNat % 2 ^ 32
    let op : BarOp := ⟨expect, va, pa, c, ⟨0, s.myCore, s.cur % 8⟩, some s.me.releaseSig, some (s.cur, s.me.tag), s.me.vmid⟩
    .ok ((s'.fly (.barrierUpdate op)).step4 Hart.countUp)

/-- R128: BAREXP. -/
def execBarexp (a n : Reg) (s : State) : Host.Outcome State Fault Refusal := barrierOp a n true s

/-- R128: BARARR. -/
def execBararr (a n : Reg) (s : State) : Host.Outcome State Fault Refusal := barrierOp a n false s

/-- R129: the value BARWAIT returns: PHASE, with OVERRUN in bit 63. DESIGN CHOICE: read from the object itself in a V launch too
(notes/assumptions/70.md), as it stands where its line is poisoned (notes/assumptions/71.md). -/
def barrierValue (s : State) (pa : Nat) : Word :=
  BitVec.ofNat 64 (memNat s (pa + 4) 4 + (if (memNat s (pa + 8) 4).testBit 1 then 2 ^ 63 else 0))

/-- R129: BARWAIT. DESIGN CHOICE (notes/assumptions/71.md): it meets no poison and no memory error, and does not wait for the hart's
own logged store to the object's line. -/
def execBarwait (d a n : Reg) (s : State) : Host.Outcome State Fault Refusal :=
  finish s do
    needX a s
    needX n s
    let va := s.me.rx a
    noPure va s
    freeX d s
    let (p, pa, s') ← reachBarrier s va accRead
    needUnrollable s
    needAcquire s
    needPerformed s' p 16
    check (memNat s' (pa + 4) 4 != (s.me.rx n).toNat % 2 ^ 32) (.wait .other)
    let v := barrierValue s' pa
    let s := acquirePlace (meetHome s' s'.myCore p 16) p
    .ok (s.step4 fun h => (h.wx d v).count evL2 (l2Home p))

end Sys2Proof.Machine
end

