-- ==== Sys2Proof/Machine/Atomics.lean ====
section
/-! DEFINITION. AMO (R121 to R124). -/

namespace Sys2Proof.Machine

/-- R121: the operations but CAS. -/
inductive AmoOp where
  | swap | add | and | or | xor | min | max | minu | maxu | fadd
deriving DecidableEq, Repr

/-- A number of n bytes as two's complement. -/
def signed (n v : Nat) : Int := (BitVec.ofNat (8 * n) v).toInt

/-- R123: AMOFADD.W: the FP32 sum rounded once to nearest even, subnormals kept; a NaN operand and ∞ − ∞ give 0x7FC0_0000; an exact zero
is +0 unless both operands are −0; no flag and no trap. -/
def amoFadd (old b : Nat) : Nat := fAdd f32Fmt old b

/-- R121, R123: the new value of n bytes. -/
def AmoOp.apply (op : AmoOp) (n old b : Nat) : Nat :=
  match op with
  | .swap => b
  | .add => (old + b) % 2 ^ (8 * n)
  | .and => old &&& b
  | .or => old ||| b
  | .xor => old ^^^ b
  | .min => if signed n old ≤ signed n b then old else b
  | .max => if signed n old ≤ signed n b then b else old
  | .minu => if old ≤ b then old else b
  | .maxu => if old ≤ b then b else old
  | .fadd => amoFadd old b

/-- R122, R124, R292: bytes written at the home of an AMO's word, or to the copy of a V launch. -/
def amoWrite (s : State) (va : Word) (p : Place) (bs : List Byte) : Except Stop State :=
  match p, s.me.vcopy with
  | .mem pa sm _ _ _, some k => do
    let s ← shadowPage s (ownerOf s s.myCore) va k sm pa
    .ok (shadowWrite s k.1 k.2 va pa bs)
  | _, k => .ok (signStore (writePlaceHome s p bs) k va bs)

/-- R102, R122: the hart's release signature published to the line. -/
def publishPlace (s : State) (p : Place) : State :=
  match placeKey p with
  | some k => { s with ms := publish s.ms k s.me.releaseSig }
  | none => s

/-- R164, R288: a memory error that the read of an AMO meets is met by an AMO. -/
def asAmo (r : Except Stop Got) : Except Stop Got :=
  match r with
  | .error (.memErr _ l u va) => .error (.memErr accAmo l u va)
  | r => r

/-- R122, R124: an AMO of n bytes; `new` gives the new value, or none where nothing is written. -/
def amoBody (d a : Reg) (n : Nat) (aq rl : Bool) (new : Nat → Option Nat) (s : State) : Res := do
  let ea := s.me.rx a
  noPure ea s
  freeX d s
  needAddr ea n accAmo
  check (!ownLineLogged s s.myCore s.cur ea) (.wait .other)
  let (p, s') ← reach s s.myCore s.me.tctx ea accAmo
  check (match p with
    | .mem pa _ _ _ _ => !isHost pa
    | .stash _ => true) (.deny accAmo ea)
  needUnrollable s
  if rl then needReleased s else .ok ()
  if aq then needAcquire s else needSyncOrder s
  needCollapsed s' p
  needPerformed s' p n
  let g ← asAmo (readHome s' s.cur ea p n)
  let old := leNat g.bytes
  let s ← match new old with
    | some v => amoWrite g.st ea p (leBytes n v)
    | none => .ok g.st
  let s := if rl then publishPlace s p else s
  let s := if (new old).isSome then noteSync s s.cur p else s
  let s := if aq then acquirePlace s p else s
  .ok (loadValue s d (sextBytes n old) (l2Home p))

/-- R121: an AMO other than CAS. -/
def amoOp (d a b : Reg) (n : Nat) (aq rl : Bool) (op : AmoOp) (s : State) : Host.Outcome State Fault Refusal :=
  finish s do
    needX a s
    needX b s
    amoBody d a n aq rl (fun old => some (op.apply n old ((s.me.rx b).toNat % 2 ^ (8 * n)))) s

/-- R121: CAS, which also reads x[rd]. -/
def amoCas (d a b : Reg) (n : Nat) (aq rl : Bool) (s : State) : Host.Outcome State Fault Refusal :=
  finish s do
    needX a s
    needX b s
    needX d s
    let e := (s.me.rx d).toNat % 2 ^ (8 * n)
    amoBody d a n aq rl (fun old => if old = e then some ((s.me.rx b).toNat % 2 ^ (8 * n)) else none) s

/-- R121: AMOSWAP.W. -/
def execAmoswapW (d a b : Reg) (q r : Bool) (s : State) : Host.Outcome State Fault Refusal := amoOp d a b 4 q r .swap s

/-- R121: AMOSWAP.D. -/
def execAmoswapD (d a b : Reg) (q r : Bool) (s : State) : Host.Outcome State Fault Refusal := amoOp d a b 8 q r .swap s

/-- R121: AMOADD.W. -/
def execAmoaddW (d a b : Reg) (q r : Bool) (s : State) : Host.Outcome State Fault Refusal := amoOp d a b 4 q r .add s

/-- R121: AMOADD.D. -/
def execAmoaddD (d a b : Reg) (q r : Bool) (s : State) : Host.Outcome State Fault Refusal := amoOp d a b 8 q r .add s

/-- R121: AMOAND.W. -/
def execAmoandW (d a b : Reg) (q r : Bool) (s : State) : Host.Outcome State Fault Refusal := amoOp d a b 4 q r .and s

/-- R121: AMOAND.D. -/
def execAmoandD (d a b : Reg) (q r : Bool) (s : State) : Host.Outcome State Fault Refusal := amoOp d a b 8 q r .and s

/-- R121: AMOOR.W. -/
def execAmoorW (d a b : Reg) (q r : Bool) (s : State) : Host.Outcome State Fault Refusal := amoOp d a b 4 q r .or s

/-- R121: AMOOR.D. -/
def execAmoorD (d a b : Reg) (q r : Bool) (s : State) : Host.Outcome State Fault Refusal := amoOp d a b 8 q r .or s

/-- R121: AMOXOR.W. -/
def execAmoxorW (d a b : Reg) (q r : Bool) (s : State) : Host.Outcome State Fault Refusal := amoOp d a b 4 q r .xor s

/-- R121: AMOXOR.D. -/
def execAmoxorD (d a b : Reg) (q r : Bool) (s : State) : Host.Outcome State Fault Refusal := amoOp d a b 8 q r .xor s

/-- R121: AMOMIN.W. -/
def execAmominW (d a b : Reg) (q r : Bool) (s : State) : Host.Outcome State Fault Refusal := amoOp d a b 4 q r .min s

/-- R121: AMOMIN.D. -/
def execAmominD (d a b : Reg) (q r : Bool) (s : State) : Host.Outcome State Fault Refusal := amoOp d a b 8 q r .min s

/-- R121: AMOMAX.W. -/
def execAmomaxW (d a b : Reg) (q r : Bool) (s : State) : Host.Outcome State Fault Refusal := amoOp d a b 4 q r .max s

/-- R121: AMOMAX.D. -/
def execAmomaxD (d a b : Reg) (q r : Bool) (s : State) : Host.Outcome State Fault Refusal := amoOp d a b 8 q r .max s

/-- R121: AMOMINU.W. -/
def execAmominuW (d a b : Reg) (q r : Bool) (s : State) : Host.Outcome State Fault Refusal := amoOp d a b 4 q r .minu s

/-- R121: AMOMINU.D. -/
def execAmominuD (d a b : Reg) (q r : Bool) (s : State) : Host.Outcome State Fault Refusal := amoOp d a b 8 q r .minu s

/-- R121: AMOMAXU.W. -/
def execAmomaxuW (d a b : Reg) (q r : Bool) (s : State) : Host.Outcome State Fault Refusal := amoOp d a b 4 q r .maxu s

/-- R121: AMOMAXU.D. -/
def execAmomaxuD (d a b : Reg) (q r : Bool) (s : State) : Host.Outcome State Fault Refusal := amoOp d a b 8 q r .maxu s

/-- R121: AMOCAS.W. -/
def execAmocasW (d a b : Reg) (q r : Bool) (s : State) : Host.Outcome State Fault Refusal := amoCas d a b 4 q r s

/-- R121: AMOCAS.D. -/
def execAmocasD (d a b : Reg) (q r : Bool) (s : State) : Host.Outcome State Fault Refusal := amoCas d a b 8 q r s

/-- R121, R123: AMOFADD.W. -/
def execAmofaddW (d a b : Reg) (q r : Bool) (s : State) : Host.Outcome State Fault Refusal := amoOp d a b 4 q r .fadd s

end Sys2Proof.Machine
end

