-- ==== Sys2Proof/Machine/Cache.lean ====
section
/-! DEFINITION. CACHE (R116, R117, R131 to R135). -/

namespace Sys2Proof.Machine

/-! ### Ranges (R131) -/

/-- The lines of a range of whole lines. -/
def rangeLines (va : Word) (n : Nat) : List Word := (List.range (n / 64)).map fun k => va + BitVec.ofNat 64 (64 * k)

/-- R28, R131: the checks of a range. -/
def needRange (va len : Word) (acc : Nat) : Except Stop Unit := do
  noWindow va acc
  check (aligned va 64 && aligned len 64) (.trap cMisalign va)
  check (len == 0#64 || canonicalRange va len.toNat) (.deny acc va)

/-- R131: a line of a range reached: a page without the permission named raises ACCESS; any other translation fault holds the hart. -/
def reachLine (s : State) (v : Word) (acc : Nat) : Except Stop (Place × State) :=
  match reach s s.myCore s.me.tctx v acc with
  | .error (.hold _ _ _ _ true) => .error (.deny acc v)
  | r => r

/-- R131: a form applied to each line of a range in turn, once its page is translated. DESIGN CHOICE (notes/assumptions/25.md): the
hart's own stores on their way are waited for; those in its side log and its activation buffer are neither waited for nor acted on. -/
def overRange (a b : Reg) (acc : Nat) (f : State → Place → State) (s : State) : Res := do
  let va := s.me.rx a
  let len := s.me.rx b
  needRange va len acc
  check (!hasOwnStore s s.cur) (.wait .other)
  let s ← (rangeLines va len.toNat).foldlM (fun s v => do
    noWindow v acc
    let (p, s) ← reachLine s v acc
    .ok (f s p)) s
  .ok (s.step4 id)

/-- A range form, with its privilege and the purity rule (R131, R300). -/
def cacheOp (i : Instr) (need : Mode) (a b : Reg) (acc : Nat) (f : State → Place → State) (s : State) :
    Host.Outcome State Fault Refusal :=
  finish s do
    needMode need i.bits s
    needX a s
    needX b s
    noPure (s.me.rx a) s
    overRange a b acc f s

/-! ### RWB and RINV (R105, R132) -/

/-- The bytes of a line whose bits are set in a mask, with their offsets. -/
def maskedBytes (v : VWord) (mask : BitVec 64) : List (Nat × Byte) :=
  ((List.range 64).filter fun i => mask.getLsbD i).map fun i => (i, byteAt v i)

/-- R105: the dirty bytes of a die's copy written to the true home, its mask cleared; a copy made poison is poison there (R289). -/
def writeBackDie (s : State) (d line : Nat) : State :=
  let key := homeKey (some d) line
  match Table.find? s.ms.dies key with
  | none => s
  | some c =>
    let s := { s with ms := { s.ms with dies := Table.set s.ms.dies key { c with dirty := 0 } } }
    if isPoison s.ms key && c.dirty != 0#64 then { s with reuse := invalFrame s.reuse (line / 64), ms := putPoison s.ms line }
    else if c.dirty = BitVec.allOnes 64 then storeHome s none (line * 64) (leBytes 64 c.data.toNat)
    else (maskedBytes c.data c.dirty).foldl (fun s e => storeHome s none (line * 64 + e.1) [e.2]) s

/-- R98, R132: the words of a line that a core owns, those of its windows alone in a software-managed page, are given up, and the
line is dropped from its windows. -/
def giveUpWords (s : State) (sm : Option Nat) (line : Nat) : State :=
  let key := homeKey sm line
  let mine := fun (pa : Nat) => match Table.find? s.ms.owners (wordKey key pa) with
    | some o => isDataHolder s.myCore o && (sm.isNone || isWindow o)
    | none => false
  let ms := (wordsOf (line * 64) 64).foldl (fun ms w => if mine w then disown ms s.gen sm w else ms) s.ms
  let held := fun k (_ : LineCopy) => isDataHolder s.myCore (k / 2 ^ 50) && isWindow (k / 2 ^ 50) && k % 2 ^ 50 == key
  { s with ms := { ms with copies := endCopies ms.copies held } }

/-- R132: RWB of a line. -/
def rwbLine (s : State) (p : Place) : State :=
  match p with
  | .stash _ => s
  | .mem pa sm nc _ _ =>
    if nc then s
    else
      let s := giveUpWords s sm (lineOf pa)
      match sm with
      | some d => writeBackDie s d (lineOf pa)
      | none => s

/-- R101, R132: the unowned words of a line dropped in a core's holders. -/
def dropUnownedLine (ms : MemSys) (core key : Nat) : MemSys :=
  { ms with copies := endCopies ms.copies fun k _ => isDataHolder core (k / 2 ^ 50) && k % 2 ^ 50 == key }

/-- R105, R132: a die's copy dropped, with the unowned copies of its cores; bytes of owned words stay with their owners. -/
def dropDie (ms : MemSys) (d line : Nat) : MemSys :=
  let key := homeKey (some d) line
  let ms := { ms with copies := endCopies ms.copies fun k _ => k % 2 ^ 50 == key && k / 2 ^ 50 % 64 != 63 }
  match Table.find? ms.dies key with
  | none => ms
  | some c =>
    let held := (List.range 8).filter fun w => (Table.find? ms.owners (key * 8 + w)).isSome
    let mask := held.foldl (fun (m : BitVec 64) w => m ||| (0xFF#64 <<< (8 * w))) 0#64
    if held.isEmpty then { clearPoison ms key with dies := Table.erase ms.dies key }
    else
      let home := Memory.readBlock ms.mem (line * 64)
      let data := (maskedBytes c.data mask).foldl (fun v e => withByte v e.1 e.2) home
      { ms with dies := Table.set ms.dies key ⟨data, c.dirty &&& mask⟩ }

/-- R132: RINV of a line. -/
def rinvLine (s : State) (p : Place) : State :=
  match p with
  | .stash _ => s
  | .mem pa sm nc _ _ =>
    match sm with
    | some d => { s with ms := dropDie s.ms d (lineOf pa) }
    | none => if nc then s else { s with ms := dropUnownedLine s.ms s.myCore (lineOf pa) }

/-! ### DISC (R116, R133) -/

/-- R116: every copy of a line and every ownership of its words ends, in every die and core. -/
def dropLine (ms : MemSys) (line : Nat) : MemSys :=
  { collapse ms line with
    copies := endCopies ms.copies fun k _ => k % 2 ^ 46 == line && k / 2 ^ 50 % 64 != 63
    owners := Table.keep ms.owners fun k _ => k / 8 % 2 ^ 46 != line
    poison := ms.poison.filter fun k => k % 2 ^ 46 != line || k == line
    dies := Table.keep ms.dies fun k _ => k % 2 ^ 46 != line }

/-- R116, R283, R289: a line's dirty value dropped: the block holds its value in memory, poison or not as it is there, and the frame
counts as written. -/
def discLine (s : State) (p : Place) : State :=
  match p with
  | .stash _ => s
  | .mem pa _ _ _ _ =>
    let line := lineOf pa
    let s := { s with reuse := invalFrame s.reuse (pa / 4096) }
    let ms := dropLine s.ms line
    match Table.find? ms.dirty line with
    | none => { s with ms := ms }
    | some (v, bad) =>
      let ms := if bad then markPoison ms line else clearPoison ms line
      { s with ms := { ms with dirty := Table.erase ms.dirty line, mem := Memory.writeBlock ms.mem (line * 64) v } }

/-! ### PIN, UNPIN, PREF (R117, R134, R135) -/

/-- The key of the L2 slice's line of a place. DESIGN CHOICE (notes/assumptions/85.md): a line of an uncacheable page, of which R134 says
nothing, is pinned at its home like any other. -/
def pinKey (p : Place) : Option Nat :=
  match p with
  | .stash _ => none
  | .mem pa sm _ _ _ => if isHost pa then none else some (homeKey sm (lineOf pa))

/-- R117: once a set holds pinned lines alone, the other lines of the set have left it: dirty ones written to their memory, dies'
copies written back and dropped, replicas collapsed. -/
def emptySet (s : State) (key : Nat) : State :=
  if Config.l2Ways ≤ pinnedInSet s.ms key then
    let out := fun (ms : MemSys) (k : Nat) => sameSet k key && !isPinned ms k
    let s := (Table.keys s.ms.dies).foldl (fun s k =>
      if out s.ms k then (let t := writeBackDie s (k / 2 ^ 46 - 1) (k % 2 ^ 46); { t with ms := dropDie t.ms (k / 2 ^ 46 - 1) (k % 2 ^ 46) })
      else s) s
    { s with ms := { s.ms with dirty := Table.keep s.ms.dirty fun k _ => !out s.ms k,
                               replicas := s.ms.replicas.filter fun k => !out s.ms k } }
  else s

/-- R134: PIN of a line: filled and locked, unless its set is fully pinned. -/
def pinLine (s : State) (p : Place) : State :=
  match pinKey p with
  | none => s
  | some key =>
    if isPinned s.ms key || Config.l2Ways ≤ pinnedInSet s.ms key then s
    else
      let ms := cacheInDie s.ms p
      emptySet { s with ms := { ms with pins := Table.set ms.pins key ((ownerOf s s.myCore).getD 64) } } key

/-- R134: UNPIN of a line. -/
def unpinLine (s : State) (p : Place) : State :=
  match pinKey p with
  | none => s
  | some key => { s with ms := { s.ms with pins := Table.erase s.ms.pins key } }

/-- R135: a line filled, unowned, where it can be reached without a fault. -/
def prefLine (s : State) (va : Word) : State :=
  if inWindow va then s
  else
    match reach s s.myCore s.me.tctx va accRead with
    | .error _ => s
    | .ok (p, s') => match placeState s'.ms p with
      | .clean => touch s' p
      | _ => s

/-! ### The meanings -/

/-- R132: RWB. -/
def execRwb (a b : Reg) (s : State) : Host.Outcome State Fault Refusal := cacheOp (.rwb a b) .u a b accRead rwbLine s

/-- R132: RINV. -/
def execRinv (a b : Reg) (s : State) : Host.Outcome State Fault Refusal := cacheOp (.rinv a b) .u a b accRead rinvLine s

/-- R133: DISC. -/
def execDisc (a b : Reg) (s : State) : Host.Outcome State Fault Refusal := cacheOp (.disc a b) .u a b accWrite discLine s

/-- R134: PIN. -/
def execPin (a b : Reg) (s : State) : Host.Outcome State Fault Refusal := cacheOp (.pin a b) .s a b accRead pinLine s

/-- R134: UNPIN. -/
def execUnpin (a b : Reg) (s : State) : Host.Outcome State Fault Refusal := cacheOp (.unpin a b) .s a b accRead unpinLine s

/-- R135: PREF, which never faults. -/
def execPref (a b : Reg) (s : State) : Host.Outcome State Fault Refusal :=
  finish s do
    needX a s
    needX b s
    let n := Nat.min (s.me.rx b).toNat 4096
    .ok (((rangeLines (s.me.rx a) n).foldl prefLine s).step4 id)

end Sys2Proof.Machine
end

