-- ==== Sys2Proof/Machine/Remote.lean ====
section
/-! DEFINITION. REMOTE (R67 to R70) and MSG (R168 to R174) but for HEND. -/

namespace Sys2Proof.Machine

/-! ### Puts (R67 to R69) -/

/-- The locator an instruction names, LOCAL resolved (R32). -/
def locOf (s : State) (a : Reg) : Word := resolveLocal s.plat.node (s.me.rx a)

/-- A put of the issuing hart. -/
def newPut (_s : State) (loc : Word) (wide : Bool) (val : VWord) (d : Sender) : Put :=
  ⟨loc, wide, val, none, 0, some d, false, 0#3, false, none⟩

/-- R68: the checks of a put. -/
def needPut (loc : Word) (s : State) : Except Stop Unit := do
  noPure 0 s
  needCount s
  needRoute loc s
  needInside loc (locKind loc == 2) s

/-- R68, R290: a plain put. -/
def putPlain (a : Reg) (wide : Bool) (val : VWord) (rl : Bool) (s : State) : Res := do
  let loc := locOf s a
  needPut loc s
  let p := newPut s loc wide val (senderOf s s.cur none false)
  let s ← bufferOr s (.put p rl) fun s => do
    needReply s s.cur
    if rl then needReleased s else .ok ()
    .ok (putOut s s.cur p rl)
  .ok (s.step4 id)

/-- R47, R68: a put with a status. -/
def putStatus (d a : Reg) (wide : Bool) (val : VWord) (rl : Bool) (s : State) : Res := do
  freeX d s
  let loc := locOf s a
  needPut loc s
  needUnrollable s
  needReply s s.cur
  if rl then needReleased s else .ok ()
  let s := putOut s s.cur (newPut s loc wide val (senderOf s s.cur (some d) true)) rl
  .ok (s.step4 fun h => h.armX d)

/-- R68: RPUT. -/
def execRput (a b : Reg) (r : Bool) (s : State) : Host.Outcome State Fault Refusal :=
  finish s do
    needX a s
    needX b s
    putPlain a false ((s.me.rx b).setWidth 512) r s

/-- R68: RPUT.S. -/
def execRputS (d a b : Reg) (r : Bool) (s : State) : Host.Outcome State Fault Refusal :=
  finish s do
    needX a s
    needX b s
    putStatus d a false ((s.me.rx b).setWidth 512) r s

/-- R68: RPUTV. -/
def execRputv (a b : Reg) (r : Bool) (s : State) : Host.Outcome State Fault Refusal :=
  finish s do
    needX a s
    needV b s
    putPlain a true (s.me.rv b) r s

/-- R68: RPUTV.S. -/
def execRputvS (d a b : Reg) (r : Bool) (s : State) : Host.Outcome State Fault Refusal :=
  finish s do
    needX a s
    needV b s
    putStatus d a true (s.me.rv b) r s

/-- R70: ARM. -/
def execArm (d : Reg) (s : State) : Host.Outcome State Fault Refusal :=
  finish s do
    noPure 0 s
    .ok (s.step4 fun h => h.armX d)

/-- R70: ARMV. -/
def execArmv (d : Reg) (s : State) : Host.Outcome State Fault Refusal :=
  finish s do
    noPure 0 s
    .ok (s.step4 fun h => h.armV d)

/-! ### Messages (R168 to R171) -/

/-- R168: whether a hart sends on the request network. -/
def sendsRequest (s : State) (h : Nat) : Bool :=
  let class_ := fun (c : BitVec 6) => chanReplyClass ((s.core (h / 8)).chan c.toNat).w1
  match (s.hart h).slot with
  | .activation c => !class_ c
  | .landing c => !class_ c
  | _ => true

/-- R151, R169: a free entry of the send queue. -/
def needEntry (s : State) (loc : Word) (request : Bool) : Except Stop Unit :=
  if sendFree s.me request then .ok ()
  else if s.me.isActivation && request then .error (.trap cSendqFull loc)
  else .error (.wait .other)

/-- The payload registers of a message. -/
def payloadRegs (b : Reg) (n : Nat) : List Reg := (List.range n).map fun k => BitVec.ofNat 5 (b.toNat + k)

/-- R169: the message of the issuing hart. -/
def newMsg (s : State) (loc : Word) (payload : List Word) (call : Bool) (w5 w6 : Word) (status : Option Reg) (isStatus : Bool)
    (request : Bool) : Msg :=
  let n := payload.length
  let chan := BitVec.ofNat 6 (locIdx loc)
  let words := [headerWord s s.myCore (s.cur % 8) chan (n - 1)] ++ payload ++ List.replicate (4 - n) 0#64 ++ [w5, w6, 0#64]
  ⟨s.nextId, s.myCore, s.cur % 8, s.me.tag, s.plat.node.toNat, !request, locNode loc, (locCore loc).getD 4095, chan, n, call, words,
    status, isStatus⟩

/-- R169: the entry of a message claimed; a reply entry is free again once the network has taken the message (R151). -/
def claimEntry (s : State) (m : Msg) (request buffered : Bool) : State :=
  let e : SendEntry := ⟨m, request, buffered, !request && !buffered && !waitsBehind s.me.sendq m, false⟩
  { (s.setMe { s.me with sendq := s.me.sendq ++ [e] }) with nextId := s.nextId + 1 }

/-- R169: a message claimed and offered. -/
def sendNow (s : State) (m : Msg) (request : Bool) : State := offerMsg (claimEntry s m request false) s.cur m

/-- R169, R290: a message that writes no register: into the buffer of a rollable activation, else offered. -/
def sendPlain (s : State) (m : Msg) (request : Bool) : Except Stop State :=
  if s.me.buffering && bufBytes (s.me.abuf ++ [.msg m.id]) ≤ 2048 then
    let s := claimEntry s m request true
    .ok (s.setMe { s.me with abuf := s.me.abuf ++ [.msg m.id] })
  else do
    needUnrollable s
    .ok (sendNow s m request)

/-- R168, R169: the checks of a message; its network. -/
def needSend (loc : Word) (s : State) : Except Stop Bool := do
  noPure 0 s
  needRoute loc s
  needInside loc true s
  let request := sendsRequest s s.cur
  needEntry s loc request
  .ok request

/-- R169: MSEND. -/
def execMsend (a b : Reg) (c : BitVec 2) (s : State) : Host.Outcome State Fault Refusal :=
  finish s do
    needWf (.msend a b c) s
    let regs := payloadRegs b (c.toNat + 1)
    needX a s
    needXs regs s
    let loc := locOf s a
    let request ← needSend loc s
    let s ← sendPlain s (newMsg s loc (regs.map s.me.rx) false 0 0 none false request) request
    .ok (s.step4 id)

/-- R169, R170: MSEND.S. -/
def execMsendS (d a b : Reg) (c : BitVec 2) (s : State) : Host.Outcome State Fault Refusal :=
  finish s do
    needWf (.msendS d a b c) s
    let regs := payloadRegs b (c.toNat + 1)
    needX a s
    needXs regs s
    freeX d s
    let loc := locOf s a
    let request ← needSend loc s
    needUnrollable s
    let s := sendNow s (newMsg s loc (regs.map s.me.rx) false 0 0 (some d) true request) request
    .ok (s.step4 fun h => h.armX d)

/-- R169, R171: CALLAT. -/
def execCallat (d a b : Reg) (s : State) : Host.Outcome State Fault Refusal :=
  finish s do
    let regs := payloadRegs 10#5 4
    needX a s
    needX b s
    needXs regs s
    freeX d s
    let loc := locOf s a
    let request ← needSend loc s
    let w6 := if d = 0#5 then 0#64 else locOfSlot s s.cur d.toNat
    let m := newMsg s loc (regs.map s.me.rx) true (s.me.rx b &&& ~~~1#64) w6 none false request
    if d = 0#5 then do
      let s ← sendPlain s m request
      .ok (s.step4 id)
    else do
      needUnrollable s
      .ok ((sendNow s m request).step4 fun h => h.armX d)

/-! ### HMASK (R174) -/

/-- R174: the masks of the channels named in a word set or cleared; channel 0 is never named. -/
def maskChannels (s : State) (core : Nat) (w : Word) (masked : Bool) : State :=
  let one := fun (k : Core) (c : Nat) => if c ≠ 0 ∧ w.getLsbD c then k.setChan c { k.chan c with masked := masked } else k
  let s := s.setCore core ((List.range 64).foldl one (s.core core))
  kickReturned (kickDispatch s core) core

/-- R174: HMASK. -/
def execHmask (a : Reg) (s : State) : Host.Outcome State Fault Refusal :=
  finish s do
    needX a s
    noPure 0 s
    .ok ((maskChannels s s.myCore (s.me.rx a) true).step4 id)

/-- R174: HUNMASK. -/
def execHunmask (a : Reg) (s : State) : Host.Outcome State Fault Refusal :=
  finish s do
    needX a s
    noPure 0 s
    .ok ((maskChannels s s.myCore (s.me.rx a) false).step4 id)

end Sys2Proof.Machine
end

