-- ==== Sys2Proof/Machine/Queue.lean ====
section
/-! DEFINITION. QUEUE (R175 to R179). -/

namespace Sys2Proof.Machine

/-- R178: imm12 limited to the slot count. -/
def qCount (v : QView) (i : BitVec 12) : Nat := Nat.min i.toNat (2 ^ v.logn)

/-- R178: the wait for filled slots. -/
def needFilled (v : QView) (n : Nat) : Except Stop Unit := check (n ≤ v.filled) (.wait .other)

/-- R147, R178, R291: n slots of a channel popped by a hart; its own activation's slots are kept for a rollback. -/
def popSlots (s : State) (h : Nat) (c : BitVec 6) (n : Nat) : State :=
  let k := s.core (h / 8)
  let ch := k.chan c.toNat
  let a := s.hart h
  let mine := a.slot == .activation c
  let passes := mine && !a.past && n != 0
  let ch' := popChan ch n
  let ch' := if passes then { ch' with started := ch'.started - 1 } else ch'
  let a := if mine then { a with popped := a.popped ++ slotsOf s (h / 8) ch n, past := a.past || passes } else a
  let s := (s.setCore (h / 8) (k.setChan c.toNat ch')).setHart h a
  kickReturned (kickDispatch s (h / 8)) (h / 8)

/-- R178: n slots popped from the queue of a binding. -/
def popBinding (s : State) (h : Nat) (b : Binding) (n : Nat) : State :=
  match b with
  | .chan c => popSlots s h c n
  | .soft i _ =>
    let k := s.core (h / 8)
    let q := k.softq i.toNat
    s.setCore (h / 8) (k.setSoft i.toNat { q with cons := q.cons + BitVec.ofNat 16 n })
  | .packet => s.setHart h { s.hart h with packetCons := (s.hart h).packetCons + n }

/-- R178: QPOP. -/
def execQpop (h : QReg) (_x : Reg) (i : BitVec 12) (s : State) : Host.Outcome State Fault Refusal :=
  finish s do
    noPure 0 s
    let b ← needBinding h (some false) s
    let v := qview s s.cur b
    let n := qCount v i
    needFilled v n
    check s.me.loads.isEmpty (.wait .other)
    .ok ((popBinding s s.cur b n).step4 id)

/-- Whether an address names the stash of a core, plainly or by its remote window. -/
def namesStash (core : Nat) (va : Word) : Bool :=
  match regionOf va with
  | .stash _ => true
  | .remote g _ => g == core
  | _ => false

/-- Whether an activation's buffer holds a store to the local stash. -/
def holdsStashStore (s : State) (h : Nat) : Bool :=
  (s.hart h).abuf.any fun e => match e with
    | .store va _ _ _ | .lanes va _ _ => namesStash (h / 8) va
    | _ => false

/-- R178: whether a store of the hart to the local stash is on its way, or waits in the side log. -/
def stashStoreOut (s : State) (h : Nat) : Bool :=
  (s.ms.stores.any fun st => st.hart == h && st.tag == (s.hart h).tag && namesStash (h / 8) st.va) ||
  ((s.core (h / 8)).sidelog.any fun e => e.hart == h && e.tag == (s.hart h).tag && namesStash (h / 8) e.va)

/-- R178: n slots advanced by a producer. -/
def pushBinding (s : State) (h : Nat) (b : Binding) (n : Nat) : State :=
  match b with
  | .soft i _ =>
    let k := s.core (h / 8)
    let q := k.softq i.toNat
    s.setCore (h / 8) (k.setSoft i.toNat { q with prod := q.prod + BitVec.ofNat 16 n })
  | _ => s

/-- R178: QADV; stash stores that stand in the activation buffer are performed first, which releases it, and those on their way are
waited for. -/
def execQadv (h : QReg) (_x : Reg) (i : BitVec 12) (s : State) : Host.Outcome State Fault Refusal :=
  finish s do
    noPure 0 s
    let b ← needBinding h (some true) s
    let v := qview s s.cur b
    let n := qCount v i
    check (v.filled + n ≤ 2 ^ v.logn) (.wait .other)
    if holdsStashStore s s.cur then needUnrollable s else .ok ()
    check (!stashStoreOut s s.cur) (.wait .other)
    .ok ((pushBinding s s.cur b n).step4 id)

/-- R178: QCNT. -/
def execQcnt (d : Reg) (h : QReg) (_x : BitVec 12) (s : State) : Host.Outcome State Fault Refusal :=
  finish s do
    noPure 0 s
    freeX d s
    let b ← needBinding h none s
    let n := (qview s s.cur b).filled
    .ok (s.step4 fun a => a.wx d (BitVec.ofNat 64 n))

/-- R178: QWAIT. -/
def execQwait (h : QReg) (_x : Reg) (i : BitVec 12) (s : State) : Host.Outcome State Fault Refusal :=
  finish s do
    noPure 0 s
    let b ← needBinding h (some false) s
    let v := qview s s.cur b
    needFilled v (qCount v i)
    .ok (s.step4 id)

/-- R177: QCFG. -/
def execQcfg (h : QReg) (a : Reg) (x : BitVec 12) (s : State) : Host.Outcome State Fault Refusal :=
  finish s do
    needMode .s (Instr.bits (.qcfg h a x)) s
    needX a s
    noPure 0 s
    let va := s.me.rx a
    needAddr va 16 accRead
    check (!lineLogged s s.myCore va) (.wait .other)
    let (p, s) ← reach s s.myCore s.me.tctx va accRead
    check (!remotePending s s.cur p 16) (.wait .other)
    let g ← readPlace s s.cur va p 16 true
    let w := leNat (g.bytes.take 8)
    check (bindingOk w && leNat (g.bytes.drop 8) == 0) (.trap cAccess va)
    .ok (g.st.step4 fun a => { a with handles := Table.set a.handles h.toNat (bindingOf w) })

end Sys2Proof.Machine
end

