-- ==== Sys2Proof/Machine/System.lean ====
section
/-! DEFINITION. SYS: system calls, breaks and returns (R71, R72), IDLE, YIELD, EXIT (R73 to R75), HEND (R173), TLBINV (R77). -/

namespace Sys2Proof.Machine

/-- R71: SYSCALL. -/
def execSyscall (s : State) : Host.Outcome State Fault Refusal :=
  finish s do
    noPure 0 s
    .error (.trap cSyscall 0)

/-- R71: BRK. -/
def execBrk (s : State) : Host.Outcome State Fault Refusal :=
  finish s do
    noPure 0 s
    .error (.trap cBreak 0)

/-- R72: TRET; the new PC has bit 0 clear. -/
def execTret (s : State) : Host.Outcome State Fault Refusal :=
  finish s do
    noPure 0 s
    .ok (s.setMe ((s.me.leave).jump s.me.leave.pc))

/-- R73: a hart that sleeps until a wake event; in an activation IDLE does nothing. -/
def Hart.sleep (h : Hart) : Hart := { h with idle := !h.isActivation }

/-- R73: IDLE. -/
def execIdle (s : State) : Host.Outcome State Fault Refusal := finish s (.ok (s.step4 Hart.sleep))

/-- R74: YIELD: the hart is passed over once; in pure mode it does nothing (R300). -/
def execYield (s : State) : Host.Outcome State Fault Refusal :=
  finish s (.ok (s.step4 fun a => { a with yielded := a.pure.isNone }))

/-- Whether step 2 of R173 is done. -/
def slotLeft (a : Hart) : Bool :=
  (Table.find? a.handles 15).isNone && (a.past || (match a.slot with | .activation _ => false | _ => true))

/-- R173 step 2: the slot popped and q15 unbound. -/
def leaveSlotOf (s : State) (h : Nat) : State :=
  let s := popOwn s h
  s.setHart h { s.hart h with handles := Table.erase (s.hart h).handles 15 }

/-- R173: the end of the issuing activation: the wait, its slot popped, its buffer released, its hart free. A release that does not
complete leaves the steps before it done. -/
def endActivation (s : State) : Except Stop State := do
  check (s.me.unack == 0) (.wait .leave)
  match s.me.pure with
  | some r => hendPure s s.cur r
  | none =>
    let u := leaveSlotOf s s.cur
    let s ← match flush u true with
      | .error (.again t) => .error (.again t)
      | .error k => if slotLeft s.me then .error k else .error (.again u)
      | r => r
    match s.me.slot with
    | .landing _ => .ok (endLanding s s.cur)
    | _ => .ok (freeActivation s s.cur)

/-- R51, R75: the end of the issuing thread. -/
def leaveThread (s : State) : Except Stop State := do
  check (s.me.unack == 0) (.wait .leave)
  check (!s.me.refusal) (.wait .other)
  needReleased s
  .ok (endThread s s.cur)

/-- R75, R173: EXIT and HEND: each ends what the hart runs. -/
def endOccupant (s : State) : Except Stop State := if s.me.isActivation then endActivation s else leaveThread s

/-- R75: EXIT. -/
def execExit (s : State) : Host.Outcome State Fault Refusal := finish s (endOccupant s)

/-- R173: HEND; in a thread it acts as EXIT. -/
def execHend (s : State) : Host.Outcome State Fault Refusal := finish s (endOccupant s)

/-! ### TLBINV (R77) -/

/-- R77: the accesses on their way that a guest's entries have translated: stores, of which those to a remote stash take no translation,
and barrier operations. -/
def vmidStores (s : State) (vmid : BitVec 6) : Bool :=
  s.ms.stores.any fun st => st.vmid == vmid && (match st.place with | .remoteStash _ => false | _ => true)
def vmidBarriers (s : State) (vmid : BitVec 6) : Bool :=
  s.flight.any fun e => match e with
    | .barrierUpdate b => b.vmid == vmid
    | _ => false

/-- Whether a buffer holds a store that has not gone out. -/
def bufferedStore (buf : List BufEntry) : Bool :=
  buf.any fun e => match e with
    | .store _ _ _ _ | .lanes _ _ _ => true
    | _ => false

/-- R77: what every form waits for: its own page-table stores and the accesses that used its guest's entries performed. DEDUCED
(notes/assumptions/30.md): stores that an activation's buffer holds are released for it, as by the instructions that R290 lists. -/
def needInvalidate (s : State) : Except Stop Unit := do
  if bufferedStore s.me.abuf then needUnrollable s
  needStored s
  check (!vmidStores s s.me.vmid && !vmidBarriers s s.me.vmid) (.wait .other)

/-- The state with the memory system changed, past a 4-byte instruction. -/
def State.stepMs (s : State) (f : MemSys → MemSys) : State := { s with ms := f s.ms }.step4 id

/-- R77: TLBINV.ALL. -/
def execTlbinvAll (x y : Reg) (s : State) : Host.Outcome State Fault Refusal :=
  finish s do
    needMode .s (Instr.bits (.tlbinvAll x y)) s
    noPure 0 s
    needInvalidate s
    .ok (s.stepMs fun ms => tlbDropAll ms s.me.vmid)

/-- R77: TLBINV.ASID. -/
def execTlbinvAsid (a y : Reg) (s : State) : Host.Outcome State Fault Refusal :=
  finish s do
    needMode .s (Instr.bits (.tlbinvAsid a y)) s
    needX a s
    noPure 0 s
    needInvalidate s
    .ok (s.stepMs fun ms => tlbDropAsid ms s.me.vmid ((s.me.rx a).setWidth 12))

/-- R77: TLBINV.VA. -/
def execTlbinvVa (a y : Reg) (s : State) : Host.Outcome State Fault Refusal :=
  finish s do
    needMode .s (Instr.bits (.tlbinvVa a y)) s
    needX a s
    noPure 0 s
    needInvalidate s
    .ok (s.stepMs fun ms => tlbDropVa ms s.me.vmid s.me.asid (s.me.rx a))

/-- R77: TLBINV.STAGE2. -/
def execTlbinvStage2 (a y : Reg) (s : State) : Host.Outcome State Fault Refusal :=
  finish s do
    needMode .h (Instr.bits (.tlbinvStage2 a y)) s
    needX a s
    noPure 0 s
    needInvalidate s
    .ok (s.stepMs fun ms => tlbDropStage2 ms s.me.vmid (s.me.rx a))

end Sys2Proof.Machine
end

