-- ==== Sys2Proof/Machine/Csr.lean ====
section
/-! DEFINITION. The CSRs (R340, R341) and the CSR instructions (R24, R76). -/

namespace Sys2Proof.Machine

/-! ### The map (R340) -/

/-- The CSRs that are read and written. -/
def csrRw : List Nat :=
  [0x011, 0x020, 0x040, 0x041, 0x042, 0x043, 0x044, 0x060, 0x061, 0x062, 0x063, 0x064, 0x065, 0x066, 0x067, 0x081, 0x091, 0x0C8] ++
    [0x400, 0x401, 0x402, 0x403, 0x404, 0x405, 0x406, 0x410, 0x411, 0x430, 0x431, 0x440, 0x441, 0x450, 0x460] ++
    [0x800, 0x801, 0x802, 0xC00, 0xC01, 0xC02, 0xC03, 0xC04, 0xC24, 0xC25, 0xC26, 0xC27]

/-- The CSRs that are only read. -/
def csrRo : List Nat :=
  [0x000, 0x001, 0x002, 0x003, 0x004, 0x005, 0x006, 0x007, 0x010, 0x012, 0x013, 0x014, 0x030, 0x031, 0x050, 0x051, 0x052, 0x080] ++
    [0x090, 0x0A0, 0x0A1, 0x0A2, 0x0A3, 0x0A4, 0x0C0, 0x0C1, 0x0C2, 0x0C3, 0x0C4, 0x0C5, 0x0C6, 0x0C7] ++
    [0xC10, 0xC11, 0xC12, 0xC20, 0xC21, 0xC22, 0xC23]

/-- Whether a number is in the map. -/
def csrPresent (n : Nat) : Bool := csrRw.contains n || csrRo.contains n

/-- The least mode of a number: its bits 11:10. -/
def csrLevel (n : Nat) : Mode := Mode.ofCode (n / 0x400)

/-! ### Reading -/

/-- HCHAN (R148). -/
def Hart.hchan (h : Hart) : Word :=
  match h.slot with
  | .activation c => c.setWidth 64
  | .landing c => c.setWidth 64
  | .pure => 0
  | _ => 0x8000000000000000#64

/-- R157: the trap registers that 0x401 to 0x405 name: in H-mode the H copy unless SEL is 1, else the S copy. -/
def Hart.named (h : Hart) : TrapRegs := if h.mode = .h ∧ !h.hstatus.getLsbD 9 then h.hregs else h.sregs

/-- The trap registers that 0x401 to 0x405 name, replaced. -/
def Hart.setNamed (h : Hart) (r : TrapRegs) : Hart :=
  if h.mode = .h ∧ !h.hstatus.getLsbD 9 then { h with hregs := r } else { h with sregs := r }

/-- A register of the partition of the issuing core; a core in none has no such register. -/
def partCsr (s : State) (n bits : Nat) (f : Nat → Word) : Word :=
  match partOf s s.myCore with
  | some p => f p
  | none => BitVec.ofNat 64 ((Config.absentCsr s.myCore n).toNat % 2 ^ bits)

/-- EBUDGET of a partition (R294). -/
def budgetWord (a : Part) : Word := BitVec.ofNat 64 (a.det.toNat * 2 ^ 48 + a.corr.toNat * 2 ^ 32 + a.spent.toNat)

/-- PTQUOTA of a partition (R280). -/
def quotaWord (s : State) (p : Nat) : Word := BitVec.ofNat 64 (usedOf s p * 2 ^ 32 + (Table.get 65536#17 s.reuse.quota p).toNat)

/-- SQOCC (R151). -/
def Hart.sqocc (h : Hart) : Word := BitVec.ofNat 64 (claimed h.sendq false * 16 + claimed h.sendq true)

/-- A CSR of U-level (R340). -/
def readU (s : State) (n : Nat) : Word :=
  let h := s.me
  if 0x060 ≤ n ∧ n ≤ 0x067 then h.st (n - 0x060)
  else if 0x0A0 ≤ n ∧ n ≤ 0x0A3 then partCsr s n 64 fun p => Table.get 0#64 s.reuse.counts (4 * p + (n - 0x0A0))
  else if 0x0C0 ≤ n ∧ n ≤ 0x0C7 then Table.get 0#64 h.pmc (n - 0x0C0)
  else match n with
    | 0x000 => locOfSlot s s.cur 0
    | 0x001 => h.wid
    | 0x002 => h.widf
    | 0x003 => h.launchId
    | 0x004 => if s.myCore < 1024 then BitVec.ofNat 64 (hposOf s.myCore) else BitVec.ofNat 64 ((Config.absentCsr s.myCore n).toNat % 1024)
    | 0x005 => h.nthreads
    | 0x006 => h.larg0
    | 0x007 => h.larg1
    | 0x010 => BitVec.ofNat 64 h.unack
    | 0x011 => h.landst
    | 0x012 => h.landLoc
    | 0x013 => h.landCnt
    | 0x014 => h.sqocc
    | 0x020 => h.vtype.setWidth 64
    | 0x030 => s.time
    | 0x031 => s.cycle
    | 0x040 => h.utvec
    | 0x041 => h.uepc
    | 0x042 => h.ucause
    | 0x043 => h.utval
    | 0x044 => h.udeleg
    | 0x050 => h.hchan
    | 0x051 => h.hmsg
    | 0x052 => BitVec.ofNat 64 h.wdog
    | 0x080 => partCsr s n 64 fun p => budgetWord (s.part p)
    | 0x081 => h.rclass
    | 0x090 => BitVec.ofNat 64 Config.mxWake
    | 0x091 => if s.myCore < 1024 then ((s.cluster (clusterOf s.myCore)).mxidle).setWidth 64
      else BitVec.ofNat 64 ((Config.absentCsr s.myCore n).toNat % 2 ^ 20)
    | 0x0A4 => h.ptviol
    | 0x0C8 => h.pmsel
    | _ => 0

/-- A CSR of S-level. -/
def readS (s : State) (n : Nat) : Word :=
  let h := s.me
  match n with
  | 0x400 => h.status
  | 0x401 => h.named.cause
  | 0x402 => h.named.epc
  | 0x403 => h.named.tval
  | 0x404 => h.named.tvec
  | 0x405 => h.named.scratch
  | 0x406 => h.tdeleg
  | 0x410 => (s.core s.myCore).depgrace.setWidth 64
  | 0x411 => BitVec.ofNat 64 (h.repd.toNat * 16 + h.reqd.toNat)
  | 0x430 => h.asid.setWidth 64
  | 0x431 => h.ptroot
  | 0x440 => partCsr s n 20 fun p => (s.part p).ebwin.setWidth 64
  | 0x441 => partCsr s n 32 fun p => (s.part p).eblimit.setWidth 64
  | 0x450 => partCsr s n 17 (quotaWord s)
  | 0x460 => (s.core s.myCore).mxwt.setWidth 64
  | _ => 0

/-- R306: PARTBASE, PARTLEN and PARTID of a core. -/
def partId (s : State) (k : Nat) : Word :=
  match partOf s s.myCore with
  | none => if k = 2 then 0x8000000000000000#64 else 0
  | some p => BitVec.ofNat 64 (if k = 0 then (s.part p).base else if k = 1 then (s.part p).len else p)

/-- A CSR of H- or M-level. -/
def readHM (s : State) (n : Nat) : Word :=
  let h := s.me
  match n with
  | 0x800 => h.hstatus
  | 0x801 => h.vmid.setWidth 64
  | 0x802 => h.s2root
  | 0xC00 => h.mstatus
  | 0xC01 => h.mregs.cause
  | 0xC02 => h.mregs.epc
  | 0xC03 => h.mregs.tval
  | 0xC04 => h.mregs.tvec
  | 0xC10 => partId s 0
  | 0xC11 => partId s 1
  | 0xC12 => partId s 2
  | 0xC20 => Config.featOff0
  | 0xC24 => Table.get 0#64 s.plat.featacc 0
  | 0xC25 => Table.get 0#64 s.plat.featacc 1
  | 0xC26 => Table.get 0#64 s.plat.featacc 2
  | 0xC27 => Table.get 0#64 s.plat.featacc 3
  | _ => 0

/-- The value of a CSR of the map. -/
def readCsr (s : State) (n : Nat) : Word := if n < 0x400 then readU s n else if n < 0x800 then readS s n else readHM s n

/-! ### Writing -/

/-- R244: MXWT written from a core in a mode. -/
def writeMxwt (s : State) (w : Writer) (v : Word) : State :=
  if w.mode = .m ∨ (w.core < 1024 ∧ clusterOwned s w.core (clusterOf w.core)) then
    s.setCore w.core { s.core w.core with mxwt := v.setWidth 4 }
  else s

/-- R250: MXIDLE of the writer's cluster. -/
def writeMxidle (s : State) (w : Writer) (v : Word) : State :=
  if w.core < 1024 ∧ (w.mode = .m ∨ clusterOwned s w.core (clusterOf w.core)) then
    let c := clusterOf w.core
    s.setCluster c { s.cluster c with mxidle := v.setWidth 20 }
  else s

/-- The issuing hart as a writer of registers. -/
def State.writer (s : State) : Writer := ⟨s.myCore, s.me.mode, s.cur % 8⟩

/-- A register of the writer's partition. -/
def setPartCsr (s : State) (f : Part → Part) : State :=
  match partOf s s.myCore with
  | some p => s.setPart p (f (s.part p))
  | none => s

/-- PTQUOTA written (R280). -/
def writeQuota (s : State) (v : Word) : State :=
  match partOf s s.myCore with
  | some p => { s with reuse := { s.reuse with quota := Table.set s.reuse.quota p (v.setWidth 17) } }
  | none => s

/-- A root register: PPN in bits 51:12. -/
def rootBits (v : Word) : Word := v &&& 0x000FFFFFFFFFF000#64

/-- Register k of the five trap registers written (R341). -/
def TrapRegs.write (r : TrapRegs) (k : Nat) (v : Word) : TrapRegs :=
  match k with
  | 0 => { r with cause := v &&& 0xFF#64 }
  | 1 => { r with epc := evenBits v }
  | 2 => { r with tval := v }
  | 3 => { r with tvec := evenBits v }
  | _ => { r with scratch := v }

/-- A CSR kept in the hart, written (R20, R46, R157, R310, R341). -/
def Hart.writeOwn (h : Hart) (n : Nat) (v : Word) : Hart :=
  if 0x401 ≤ n ∧ n ≤ 0x405 then h.setNamed (h.named.write (n - 0x401) v)
  else if 0xC01 ≤ n ∧ n ≤ 0xC04 then { h with mregs := h.mregs.write (n - 0xC01) v }
  else match n with
    | 0x011 => { h with landMiss := v.extractLsb' 8 8, landCode := v.setWidth 3 }
    | 0x020 => { h with vtype := v.setWidth 3 }
    | 0x040 => { h with utvec := evenBits v }
    | 0x041 => { h with uepc := evenBits v }
    | 0x042 => { h with ucause := v &&& 0xFF#64 }
    | 0x043 => { h with utval := v }
    | 0x044 => { h with udeleg := v &&& 0xC000000001FFFFFF#64 }
    | 0x0C8 => { h with pmsel := v }
    | 0x400 => { h with status := v &&& 0x31#64 }
    | 0x406 => { h with tdeleg := v &&& 0x1FFFFFF#64 }
    | 0x411 => { h with repd := v.extractLsb' 4 4, reqd := v.setWidth 4 }
    | 0x430 => { h with asid := v.setWidth 12 }
    | 0x431 => { h with ptroot := rootBits v }
    | 0x800 => { h with hstatus := v &&& 0x333#64 }
    | 0x801 => { h with vmid := v.setWidth 6 }
    | 0x802 => { h with s2root := rootBits v }
    | 0xC00 => { h with mstatus := v &&& 0x33#64 }
    | _ => h

/-- A CSR of the map that may be written takes a value; RCLASS, which is W1C, is written apart. -/
def writeCsr (s : State) (n : Nat) (v : Word) : State :=
  if 0x060 ≤ n ∧ n ≤ 0x067 then setStmap s s.cur (n - 0x060) v
  else if 0xC24 ≤ n ∧ n ≤ 0xC27 then writeFeat s (BitVec.ofNat 2 (n - 0xC24)) v
  else match n with
    | 0x091 => writeMxidle s s.writer v
    | 0x410 => s.setCore s.myCore { s.core s.myCore with depgrace := v.setWidth 20 }
    | 0x440 => setPartCsr s fun p => { p with ebwin := v.setWidth 20 }
    | 0x441 => setPartCsr s fun p => { p with eblimit := v.setWidth 32 }
    | 0x450 => writeQuota s v
    | 0x460 => writeMxwt s s.writer v
    | _ => s.setMe (s.me.writeOwn n v)

/-! ### The instructions (R76) -/

/-- R300: a CSR instruction in pure mode: VTYPE, and a read of RCLASS, are permitted. -/
def needPureCsr (n : Nat) (write : Bool) (s : State) : Except Stop Unit :=
  if n = 0x020 ∨ (n = 0x081 ∧ !write) then .ok () else noPure 0 s

/-- R24: the checks of a CSR instruction in their order. -/
def needCsr (n : Nat) (write : Bool) (bits : Word) (s : State) : Except Stop Unit := do
  check (csrPresent n) (.trap cIllegal bits)
  needMode (csrLevel n) bits s
  check (!write || csrRw.contains n) (.trap cIllegal bits)

/-- R97, R98: a write of STMAP waits for the stores on their way. -/
def needStmap (n : Nat) (s : State) : Except Stop Unit :=
  check (!(0x060 ≤ n && n ≤ 0x067) || !hasOwnStore s s.cur) (.wait .other)

/-- R76: a CSR written with a function of its old value; RCLASS changes by `w1c` alone. -/
def csrUpdate (i : Instr) (d a : Reg) (c : BitVec 12) (f : Word → Word → Word) (w1c : Bool) (s : State) :
    Host.Outcome State Fault Refusal :=
  finish s do
    let n := c.toNat
    needX a s
    needPureCsr n true s
    needCsr n true i.bits s
    freeX d s
    needStmap n s
    let old := readCsr s n
    let x := s.me.rx a
    let s := s.step4 fun h => h.wx d old
    if n = 0x081 then .ok (if w1c then s.setMe { s.me with rclass := rclassW1C s.me.rclass x } else s)
    else .ok (writeCsr s n (f old x))

/-- R76: CSRR. -/
def execCsrr (d x : Reg) (c : BitVec 12) (s : State) : Host.Outcome State Fault Refusal :=
  finish s do
    needPureCsr c.toNat false s
    needCsr c.toNat false (Instr.bits (.csrr d x c)) s
    freeX d s
    .ok (s.step4 fun h => h.wx d (readCsr s c.toNat))

/-- R76: CSRW. -/
def execCsrw (d a : Reg) (c : BitVec 12) (s : State) : Host.Outcome State Fault Refusal :=
  csrUpdate (.csrw d a c) d a c (fun _ x => x) true s

/-- R76: CSRS. -/
def execCsrs (d a : Reg) (c : BitVec 12) (s : State) : Host.Outcome State Fault Refusal :=
  csrUpdate (.csrs d a c) d a c (fun o x => o ||| x) false s

/-- R76: CSRC. -/
def execCsrc (d a : Reg) (c : BitVec 12) (s : State) : Host.Outcome State Fault Refusal :=
  csrUpdate (.csrc d a c) d a c (fun o x => o &&& ~~~x) false s

end Sys2Proof.Machine
end

