-- ==== Sys2Proof/Machine/Park.lean ====
section
/-! DEFINITION. PARK, RESUME and MIGRATE (R51, R78 to R83). -/

namespace Sys2Proof.Machine

/-- R78: the check of a target or destination: this package, a compute core of the caller's partition. -/
def needTarget (l : Word) (s : State) : Except Stop Nat :=
  let l := resolveLocal s.plat.node l
  match locCore l with
  | some c =>
    if locNode l = s.plat.node.toNat ∧ c < 1024 ∧ samePart s s.myCore c then .ok c else .error (.trap cPartesc l)
  | none => .error (.trap cPartesc l)

/-- The slot a locator names on a core. -/
def namedSlot (core : Nat) (l : Word) : Nat := slotOf core (locHart l)

/-- Whether a locator's tag is resident as a thread (R79, R81). -/
def threadAt (s : State) (h : Nat) (tag : BitVec 16) : Bool :=
  (s.hart h).slot == .thread && findSlot s (h / 8) (h % 8) tag == .resident h

/-- The entry of a thread saved by PARK (R80, R81). -/
def parkedAt (s : State) (h : Nat) (tag : BitVec 16) : Option Nat :=
  match findDep s (h / 8) (h % 8) tag with
  | some i =>
    let e := (s.core (h / 8)).depAt i
    if e.state = 1 ∧ e.byPark ∧ (s.hart h).slot = .parked then some i else none
  | none => none

/-! ### PARK (R79) -/

/-- R79: a resident thread saved: its image written, a saved entry made in room i. -/
def parkThread (s : State) (h pa i : Nat) : State :=
  saveImage (stopThread s h) h pa i true

/-- R79: PARK. -/
def execPark (a : Reg) (s : State) : Host.Outcome State Fault Refusal :=
  finish s do
    needMode .s (Instr.bits (.park a)) s
    needX a s
    noPure 0 s
    let l := s.me.rx a
    let core ← needTarget l s
    let h := namedSlot core l
    if threadAt s h (locTag l) then do
      let pa := (imageFrame s h).getD 0
      check (imageBacked s h) (.trap cAccess (BitVec.ofNat 64 pa))
      match depRoom s core with
      | none => .error (.wait .other)
      | some i => .ok (parkThread (s.step4 id) h pa i)
    else .ok (s.step4 id)

/-! ### RESUME (R80) -/

/-- R80, R42, R107: a parked thread resident again from its image; its first instruction comes after an acquire. -/
def resumeThread (s : State) (h i : Nat) : State :=
  let pa := depImage s (h / 8) i
  let s := freeDep s (h / 8) i
  let s := s.setHart h { (loadImage s pa (s.hart h)) with slot := .thread }
  takeThawed (acquireBack s h (imgReleased s pa)) h

/-- R80: RESUME. -/
def execResume (a : Reg) (s : State) : Host.Outcome State Fault Refusal :=
  finish s do
    needMode .s (Instr.bits (.resume a)) s
    needX a s
    noPure 0 s
    let l := s.me.rx a
    let core ← needTarget l s
    let h := namedSlot core l
    match parkedAt s h (locTag l) with
    | some i => .ok (resumeThread (s.step4 id) h i)
    | none => .ok (s.step4 id)

/-! ### MIGRATE (R81, R82) -/

/-- R81, R82: what the thread is at its new slot: what an image holds, its launch and its context. Its trap registers of H and
M, its send queues and an EBUDGET pending are those of the new hart. -/
def movedHart (a d : Hart) (tag : BitVec 16) : Hart :=
  { a with
    tagCtr := tag
    tag := tag
    slot := .thread
    stall := none
    blk := .whole
    idle := false
    yielded := false
    stmap := []
    hstatus := d.hstatus
    hregs := d.hregs
    mstatus := d.mstatus
    mregs := d.mregs
    reqd := d.reqd
    repd := d.repd
    sendq := d.sendq
    pend := d.pend.filter (fun p => p.1 == cEbudget) ++ a.pend.filter (fun p => p.1 != cEbudget)
    sigCur := .empty
    sigPrev := .empty
    startTrap := d.startTrap }

/-- R51, R81: the old slot of a moved thread: a moved entry, the hart free. -/
def leaveSlot (s : State) (h : Nat) (tag : BitVec 16) (loc : Word) (room : Option Nat) : State :=
  let e : Dep := ⟨s.time.setWidth 32, 2, h % 8, tag, loc, false, 0⟩
  let s := match room with
    | some i => setDep s (h / 8) i e
    | none => addDep s (h / 8) e
  freeSlot s h

/-- R81, R82: a thread, resident or parked, moved to a free hart; the new slot is ready before the old one is left, whose windows end first
(R97, R98). -/
def moveThread (s : State) (h dst : Nat) (parked : Option Nat) : State :=
  let image := depImage s (h / 8)
  let released := parked.any fun i => imgReleased s (image i)
  let s := match parked with
    | none => stopThread s h
    | some i => let s := endWindows s h; s.setHart h (loadImage s (image i) (s.hart h))
  let a := s.hart h
  let s := s.setHart h { a with stmap := [] }
  let guest := a.v1
  let t := movedHart a (s.hart dst) (nextTag s dst)
  let t := t.withCtx { a.tctx with guest := guest }
  let s := s.setHart dst t
  let s := (List.range 8).foldl (fun s k => setStmap s dst k (a.st k)) s
  let s := applySig s (dst / 8) dst (if released then sigAll else a.releaseSig)
  leaveSlot (takeThawed s dst) h a.tag (locOfSlot s dst 0) parked

/-- R81: MIGRATE. -/
def execMigrate (d a : Reg) (s : State) : Host.Outcome State Fault Refusal :=
  finish s do
    needMode .s (Instr.bits (.migrate d a)) s
    needX a s
    needX d s
    noPure 0 s
    freeX d s
    let l := s.me.rx a
    let core ← needTarget l s
    let to_ ← needTarget (s.me.rx d) s
    let h := namedSlot core l
    let dst := namedSlot to_ (s.me.rx d)
    let open_ := (s.hart dst).slot == .free && roleOf s dst == 0 && !lockSecond s (dst / 8)
    let parked := parkedAt s h (locTag l)
    let live := threadAt s h (locTag l) || parked.isSome
    if open_ && live && h != s.cur then
      let s' := moveThread s h dst parked
      let loc := locOfSlot s' dst 0
      let s' := s'.step4 fun m => m.wx d loc
      .ok (kickDispatch (kickStarts s') core)
    else .ok (s.step4 fun m => m.wx d 0)

end Sys2Proof.Machine
end

