-- ==== Sys2Proof/Machine/LaunchI.lean ====
section
/-! DEFINITION. LAUNCH (R136 to R138). -/

namespace Sys2Proof.Machine

/-- R136: 64 bytes of a header read as loads. -/
def loadHeader (s : State) (va : Word) : Except Stop (List Word × State) := do
  check (!lineLogged s s.myCore va) (.wait .other)
  let (p, s) ← reach s s.myCore s.me.tctx va accRead
  check (!remotePending s s.cur p 64) (.wait .other)
  let g ← readPlace s s.cur va p 64 true
  let n := leNat g.bytes
  .ok ((List.range 8).map (fun k => BitVec.ofNat 64 (n / 2 ^ (64 * k))), g.st)

/-- R136: the presets behind a header, where its flag bit 2 is set. -/
def loadPresets (s : State) (hdr : List Word) (va : Word) : Except Stop (List Word × State) :=
  if (hdrFlags hdr).testBit 2 then loadHeader s (va + 64#64) else .ok ([], s)

/-- Whether a launcher in a mode may start S-mode threads (R86). -/
def sLauncher (md : Mode) : Bool := modeAtLeast md .s

/-- R94, R136: the record of a SPAWN. -/
def spawnRecord (s : State) (d : Reg) (g hdr presets : List Word) : LaunchRec :=
  let h := s.me
  let dest := if d = 0#5 then .nowhere else .token (tokenLoc s s.cur d) s.plat.node.toNat
  ⟨s.nextId, hdr, presets, (member g 1).toNat, (member g 2).toNat, none, member g 3, dest, tenantOf s s.myCore, sLauncher h.mode,
    h.tctx, some h.releaseSig, none, none, dieOf s.myCore, none⟩

/-- R136: SPAWN. -/
def execSpawn (d a x : Reg) (s : State) : Host.Outcome State Fault Refusal :=
  finish s do
    needWf (.spawn d a x) s
    needXs (groupRegs a) s
    noPure 0 s
    noV 0 s
    freeX d s
    let g := stage s.me a
    let va := member g 0
    needAddr va 64 accRead
    let (hdr, s') ← loadHeader s va
    let (presets, s') ← loadPresets s' hdr va
    needUnrollable s
    needReleased s
    let r := spawnRecord s' d g hdr presets
    let s' := { s' with nextId := s'.nextId + 1 }
    .ok (acceptRecord (s'.step4 fun h => h.armX d) (dieOf s.myCore) r)

/-- R137: the channel whose activation issues, for ARMLR. DESIGN CHOICE (notes/assumptions/73.md): any channel's activation may issue
it, and one whose channel owns no record of the index gets ACCESS. -/
def needChannel (bits : Word) (s : State) : Except Stop (BitVec 6) :=
  match s.me.slot with
  | .activation c => .ok c
  | _ => .error (.trap cPriv bits)

/-- R137: the record of an armed launch, and its completion locator (notes/assumptions/72.md). -/
def armedRecord (s : State) (p : Prebuilt) (i : Nat) (g : List Word) : LaunchRec :=
  let l := resolveLocal s.plat.node (member g 3)
  let dest := if member g 3 = 0 then .nowhere else .locator l s.cur
  ⟨s.nextId, p.hdr, p.presets, (member g 0).toNat, 0, some (member g 1), member g 2, dest, tenantOf s s.myCore, true, s.me.tctx, none,
    some (dieOf s.myCore, i), none, dieOf s.myCore, none⟩

/-- R95, R137: a record armed, ahead of every pool record. -/
def armRecord (s : State) (p : Prebuilt) (i : Nat) (r : LaunchRec) : State :=
  let die := dieOf s.myCore
  let lch := { s.lch with
    prebuilt := Table.set s.lch.prebuilt (64 * die + i) { p with armed := true }
    armed := Table.set s.lch.armed die (Table.get [] s.lch.armed die ++ [r]) }
  kickService { s with lch := lch, nextId := s.nextId + 1 } die

/-- R137: ARMLR. -/
def execArmlr (a b : Reg) (s : State) : Host.Outcome State Fault Refusal :=
  finish s do
    needWf (.armlr a b) s
    needMode .s (Instr.bits (.armlr a b)) s
    needX a s
    needXs (groupRegs b) s
    noPure 0 s
    let c ← needChannel (Instr.bits (.armlr a b)) s
    let x := s.me.rx a
    let i := x.toNat
    match Table.find? s.lch.prebuilt (64 * dieOf s.myCore + i % 64) with
    | none => .error (.trap cAccess x)
    | some p => do
      check (i < 64 && p.owner == c.toNat) (.trap cAccess x)
      needUnrollable s
      let r := armedRecord s p i (stage s.me b)
      if p.armed then .ok (reportStatus (s.step4 id) r.dest 0x18) else .ok (armRecord (s.step4 id) p i r)

/-- R138: the free resident-role harts of a core, seen from another. -/
def countFree (s : State) (me core : Nat) : Nat :=
  if samePart s me core then ((hartsOf core).filter (freeResident s)).length else 0

/-- R138: LCHK. -/
def execLchk (d a b : Reg) (s : State) : Host.Outcome State Fault Refusal :=
  finish s do
    needX a s
    needX b s
    noPure 0 s
    freeX d s
    let base := (s.me.rx a).toNat
    let n := Nat.min (s.me.rx b).toNat (1024 - Nat.min base 1024)
    needUnrollable s
    let total := (List.range n).foldl (fun t k => t + countFree s s.myCore (gOfHpos (base + k))) 0
    .ok (s.step4 fun h => h.wx d (BitVec.ofNat 64 total))

end Sys2Proof.Machine
end

