-- ==== Sys2Proof/Machine/Vector.lean ====
section
/-! DEFINITION. VINT, VFLT, VMOVE, VRED, VCVT and VCMP (R223 to R226, R231 to R236). -/

namespace Sys2Proof.Machine

/-- R220: the sticky flags an instruction sets when it retires. -/
def Hart.stick (h : Hart) (f : Sticky) : Hart := { h with rclass := stickyOr h.rclass f }

/-- R223: v[rd] is a source where lanes of it are kept or it is accumulated into. -/
def needOld (d : Reg) (keeps : Bool) (s : State) : Except Stop Unit := if keeps then needV d s else .ok ()

/-- R300: a queue operand is a purity violation. -/
def needPureQ (q : Bool) (s : State) : Except Stop Unit := if q then noPure 0 s else .ok ()

/-- A two-source lane instruction: the second source a register or a queue slot (R180, R223). -/
def lanes2 (i : Instr) (d a b : Reg) (t : EType) (m q acc : Bool) (f : Nat → Nat → Nat → Nat) (s : State) :
    Host.Outcome State Fault Refusal :=
  finish s do
    needWf i s
    needV a s
    needOld d (m || acc) s
    needPureQ q s
    freeV d s
    let (y, fl, s) ← readV2 b q s
    .ok (s.step4 fun h => (h.wv d (mapLanes t m (h.rm 0) f (h.rv a) y (h.rv d))).stick fl)

/-- A one-source lane instruction. -/
def lanes1 (i : Instr) (d a : Reg) (t : EType) (m : Bool) (f : Nat → Nat) (s : State) : Host.Outcome State Fault Refusal :=
  finish s do
    needWf i s
    needV a s
    needOld d m s
    freeV d s
    .ok (s.step4 fun h => h.wv d (mapLanes t m (h.rm 0) (fun x _ _ => f x) (h.rv a) 0 (h.rv d)))

/-! ### VINT (R224) -/

/-- R224: VADD. -/
def execVadd (d a b : Reg) (t : EType) (m q : Bool) (s : State) : Host.Outcome State Fault Refusal :=
  lanes2 (.vadd d a b t m q) d a b t m q false (intLane .add t) s

/-- R224: VSUB. -/
def execVsub (d a b : Reg) (t : EType) (m q : Bool) (s : State) : Host.Outcome State Fault Refusal :=
  lanes2 (.vsub d a b t m q) d a b t m q false (intLane .sub t) s

/-- R224: VMUL. -/
def execVmul (d a b : Reg) (t : EType) (m q : Bool) (s : State) : Host.Outcome State Fault Refusal :=
  lanes2 (.vmul d a b t m q) d a b t m q false (intLane .mul t) s

/-- R224: VMULH. -/
def execVmulh (d a b : Reg) (t : EType) (m q : Bool) (s : State) : Host.Outcome State Fault Refusal :=
  lanes2 (.vmulh d a b t m q) d a b t m q false (intLane .mulh t) s

/-- R224: VMIN. -/
def execVmin (d a b : Reg) (t : EType) (m q : Bool) (s : State) : Host.Outcome State Fault Refusal :=
  lanes2 (.vmin d a b t m q) d a b t m q false (intLane .min t) s

/-- R224: VMAX. -/
def execVmax (d a b : Reg) (t : EType) (m q : Bool) (s : State) : Host.Outcome State Fault Refusal :=
  lanes2 (.vmax d a b t m q) d a b t m q false (intLane .max t) s

/-- R224: VAND. -/
def execVand (d a b : Reg) (t : EType) (m q : Bool) (s : State) : Host.Outcome State Fault Refusal :=
  lanes2 (.vand d a b t m q) d a b t m q false (intLane .and t) s

/-- R224: VOR. -/
def execVor (d a b : Reg) (t : EType) (m q : Bool) (s : State) : Host.Outcome State Fault Refusal :=
  lanes2 (.vor d a b t m q) d a b t m q false (intLane .or t) s

/-- R224: VXOR. -/
def execVxor (d a b : Reg) (t : EType) (m q : Bool) (s : State) : Host.Outcome State Fault Refusal :=
  lanes2 (.vxor d a b t m q) d a b t m q false (intLane .xor t) s

/-- R224: VSHL. -/
def execVshl (d a b : Reg) (t : EType) (m q : Bool) (s : State) : Host.Outcome State Fault Refusal :=
  lanes2 (.vshl d a b t m q) d a b t m q false (intLane .shl t) s

/-- R224: VSHR. -/
def execVshr (d a b : Reg) (t : EType) (m q : Bool) (s : State) : Host.Outcome State Fault Refusal :=
  lanes2 (.vshr d a b t m q) d a b t m q false (intLane .shr t) s

/-- R224: VSRA. -/
def execVsra (d a b : Reg) (t : EType) (m q : Bool) (s : State) : Host.Outcome State Fault Refusal :=
  lanes2 (.vsra d a b t m q) d a b t m q false (intLane .sra t) s

/-- R224: VABS. -/
def execVabs (d a : Reg) (t : EType) (m : Bool) (s : State) : Host.Outcome State Fault Refusal :=
  lanes1 (.vabs d a t m) d a t m (fun x => intLane .abs t x 0 0) s

/-- R224: VNEG. -/
def execVneg (d a : Reg) (t : EType) (m : Bool) (s : State) : Host.Outcome State Fault Refusal :=
  lanes1 (.vneg d a t m) d a t m (fun x => intLane .neg t x 0 0) s

/-- R224: VADDS. -/
def execVadds (d a b : Reg) (t : EType) (m q : Bool) (s : State) : Host.Outcome State Fault Refusal :=
  lanes2 (.vadds d a b t m q) d a b t m q false (intLane .adds t) s

/-- R224: VSUBS. -/
def execVsubs (d a b : Reg) (t : EType) (m q : Bool) (s : State) : Host.Outcome State Fault Refusal :=
  lanes2 (.vsubs d a b t m q) d a b t m q false (intLane .subs t) s

/-- R224: VMAD. -/
def execVmad (d a b : Reg) (t : EType) (m q : Bool) (s : State) : Host.Outcome State Fault Refusal :=
  lanes2 (.vmad d a b t m q) d a b t m q true (intLane .mad t) s

/-! ### VFLT (R225, R226) -/

/-- R225: VFADD. -/
def execVfadd (d a b : Reg) (t : BitVec 1) (m q : Bool) (s : State) : Host.Outcome State Fault Refusal :=
  lanes2 (.vfadd d a b t m q) d a b (fltType t) m q false (fltLane .add (fltType t)) s

/-- R225: VFSUB. -/
def execVfsub (d a b : Reg) (t : BitVec 1) (m q : Bool) (s : State) : Host.Outcome State Fault Refusal :=
  lanes2 (.vfsub d a b t m q) d a b (fltType t) m q false (fltLane .sub (fltType t)) s

/-- R225: VFMUL. -/
def execVfmul (d a b : Reg) (t : BitVec 1) (m q : Bool) (s : State) : Host.Outcome State Fault Refusal :=
  lanes2 (.vfmul d a b t m q) d a b (fltType t) m q false (fltLane .mul (fltType t)) s

/-- R225: VFMA. -/
def execVfma (d a b : Reg) (t : BitVec 1) (m q : Bool) (s : State) : Host.Outcome State Fault Refusal :=
  lanes2 (.vfma d a b t m q) d a b (fltType t) m q true (fltLane .fma (fltType t)) s

/-- R225: VFMIN. -/
def execVfmin (d a b : Reg) (t : BitVec 1) (m q : Bool) (s : State) : Host.Outcome State Fault Refusal :=
  lanes2 (.vfmin d a b t m q) d a b (fltType t) m q false (fltLane .min (fltType t)) s

/-- R225: VFMAX. -/
def execVfmax (d a b : Reg) (t : BitVec 1) (m q : Bool) (s : State) : Host.Outcome State Fault Refusal :=
  lanes2 (.vfmax d a b t m q) d a b (fltType t) m q false (fltLane .max (fltType t)) s

/-- R225: VFABS. -/
def execVfabs (d a : Reg) (t : BitVec 1) (m : Bool) (s : State) : Host.Outcome State Fault Refusal :=
  lanes1 (.vfabs d a t m) d a (fltType t) m (fun x => fltLane .abs (fltType t) x 0 0) s

/-- R225: VFNEG. -/
def execVfneg (d a : Reg) (t : BitVec 1) (m : Bool) (s : State) : Host.Outcome State Fault Refusal :=
  lanes1 (.vfneg d a t m) d a (fltType t) m (fun x => fltLane .neg (fltType t) x 0 0) s

/-- R226: VEXP2. -/
def execVexp2 (d a : Reg) (t : BitVec 1) (m : Bool) (s : State) : Host.Outcome State Fault Refusal :=
  lanes1 (.vexp2 d a t m) d a (fltType t) m (fun x => fltLane .exp2 (fltType t) x 0 0) s

/-- R226: VLOG2. -/
def execVlog2 (d a : Reg) (t : BitVec 1) (m : Bool) (s : State) : Host.Outcome State Fault Refusal :=
  lanes1 (.vlog2 d a t m) d a (fltType t) m (fun x => fltLane .log2 (fltType t) x 0 0) s

/-- R226: VRCP. -/
def execVrcp (d a : Reg) (t : BitVec 1) (m : Bool) (s : State) : Host.Outcome State Fault Refusal :=
  lanes1 (.vrcp d a t m) d a (fltType t) m (fun x => fltLane .rcp (fltType t) x 0 0) s

/-- R226: VRSQ. -/
def execVrsq (d a : Reg) (t : BitVec 1) (m : Bool) (s : State) : Host.Outcome State Fault Refusal :=
  lanes1 (.vrsq d a t m) d a (fltType t) m (fun x => fltLane .rsq (fltType t) x 0 0) s

/-! ### VMOVE (R231) -/

/-- A register of lanes under a mask: lane i is `f i` where active. -/
def Hart.putLanes (h : Hart) (d : Reg) (t : EType) (m : Bool) (f : Nat → Nat) : Hart :=
  h.wv d (mergeLanes (eltBits t) (laneCount t) (laneActive m (h.rm 0)) (h.rv d) f)

/-- R231: VBCAST. -/
def execVbcast (d a : Reg) (t : EType) (m : Bool) (s : State) : Host.Outcome State Fault Refusal :=
  finish s do
    needX a s
    needOld d m s
    freeV d s
    .ok (s.step4 fun h => h.putLanes d t m fun _ => (h.rx a).toNat)

/-- R231: VGETL. -/
def execVgetl (d a b : Reg) (t : EType) (s : State) : Host.Outcome State Fault Refusal :=
  finish s do
    needV a s
    needX b s
    freeX d s
    .ok (s.step4 fun h => h.wx d (getLane t (lane (eltBits t) (h.rv a) ((h.rx b).toNat % laneCount t))))

/-- R231: VSETL. -/
def execVsetl (d a b : Reg) (t : EType) (s : State) : Host.Outcome State Fault Refusal :=
  finish s do
    needX a s
    needX b s
    needV d s
    freeV d s
    .ok (s.step4 fun h =>
      let k := (h.rx b).toNat % laneCount t
      h.wv d (mergeLanes (eltBits t) (laneCount t) (fun i => i == k) (h.rv d) fun _ => (h.rx a).toNat))

/-- R231: VPERM. -/
def execVperm (d a b : Reg) (t : EType) (m : Bool) (s : State) : Host.Outcome State Fault Refusal :=
  finish s do
    needV a s
    needV b s
    needOld d m s
    freeV d s
    .ok (s.step4 fun h => h.putLanes d t m fun i =>
      lane (eltBits t) (h.rv a) (lane (eltBits t) (h.rv b) i % laneCount t))

/-- R231: VSLIDE. -/
def execVslide (d a b : Reg) (t : EType) (m : Bool) (s : State) : Host.Outcome State Fault Refusal :=
  finish s do
    needV a s
    needX b s
    needOld d m s
    freeV d s
    .ok (s.step4 fun h => h.putLanes d t m (slideLane t (h.rv a) (h.rx b).toInt))

/-- R231: VMOVM. -/
def execVmovm (d a : MReg) (s : State) : Host.Outcome State Fault Refusal := finish s (.ok (s.step4 fun h => h.wm d (h.rm a)))

/-- R20, R231: VSETT. -/
def execVsett (a : Reg) (s : State) : Host.Outcome State Fault Refusal :=
  finish s do
    needX a s
    .ok (s.step4 fun h => { h with vtype := (h.rx a).setWidth 3 })

/-! ### VRED (R232) -/

/-- A reduction; the mask governs only which lanes are written. -/
def reduce (op : RedOp) (d a : Reg) (t : EType) (m : Bool) (s : State) : Host.Outcome State Fault Refusal :=
  finish s do
    needV a s
    needOld d m s
    freeV d s
    .ok (s.step4 fun h => h.putLanes d t m (redLane op t (h.rv a)))

/-- R232: VRSUM. -/
def execVrsum (d a : Reg) (t : EType) (m : Bool) (s : State) : Host.Outcome State Fault Refusal := reduce .sum d a t m s

/-- R232: VRMAX. -/
def execVrmax (d a : Reg) (t : EType) (m : Bool) (s : State) : Host.Outcome State Fault Refusal := reduce .max d a t m s

/-- R232: VRMIN. -/
def execVrmin (d a : Reg) (t : EType) (m : Bool) (s : State) : Host.Outcome State Fault Refusal := reduce .min d a t m s

/-- R232: VPSUM. -/
def execVpsum (d a : Reg) (t : EType) (m : Bool) (s : State) : Host.Outcome State Fault Refusal := reduce .psum d a t m s

/-! ### VCVT (R233, R234) -/

/-- A conversion: lane i of destination type t from the source register, with the flags it sets. -/
def convert (d a : Reg) (t : EType) (m : Bool) (f : VWord → Nat → Nat) (fl : VWord → Sticky) (s : State) :
    Host.Outcome State Fault Refusal :=
  finish s do
    needV a s
    needOld d m s
    freeV d s
    .ok (s.step4 fun h => (h.putLanes d t m (f (h.rv a))).stick (fl (h.rv a)))

/-- No flags. -/
def noFlags (_ : VWord) : Sticky := 0#3

/-- R233: VCVT.BF16.F32; the upper lanes are 0. -/
def execVcvtBf16F32 (d a : Reg) (m : Bool) (s : State) : Host.Outcome State Fault Refusal :=
  convert d a 6 m (fun v i => if i < 16 then f32ToBf16 (lane 32 v i) else 0) noFlags s

/-- R233: VCVT.F32.BF16. -/
def execVcvtF32Bf16 (d a : Reg) (m : Bool) (s : State) : Host.Outcome State Fault Refusal :=
  convert d a 7 m (fun v i => bf16ToF32 (lane 16 v i)) noFlags s

/-- R233: VCVT.F32.S32. -/
def execVcvtF32S32 (d a : Reg) (m : Bool) (s : State) : Host.Outcome State Fault Refusal :=
  convert d a 7 m (fun v i => intToF32 (sval 32 (lane 32 v i))) noFlags s

/-- R233: VCVT.S32.F32. -/
def execVcvtS32F32 (d a : Reg) (m : Bool) (s : State) : Host.Outcome State Fault Refusal :=
  convert d a 2 m (fun v i => wrap 32 (f32ToS32 (lane 32 v i))) noFlags s

/-- R233: VCVT.S32.S8. -/
def execVcvtS32S8 (d a : Reg) (g : BitVec 2) (m : Bool) (s : State) : Host.Outcome State Fault Refusal :=
  convert d a 2 m (fun v i => wrap 32 (sval 8 (lane 8 v (16 * g.toNat + i)))) noFlags s

/-- R233: VCVT.S8.S32; lanes outside the group are kept. -/
def execVcvtS8S32 (d a : Reg) (g : BitVec 2) (m : Bool) (s : State) : Host.Outcome State Fault Refusal :=
  finish s do
    needV a s
    needV d s
    freeV d s
    .ok (s.step4 fun h =>
      let mine := fun i => i / 16 == g.toNat && laneActive m (h.rm 0) i
      h.wv d (mergeLanes 8 64 mine (h.rv d) fun i => satLane 0 (sval 32 (lane 32 (h.rv a) (i % 16)))))

/-- R234: NaR among the sixteen codes of VLGX. -/
def lgxFlags (v : VWord) : Sticky := Sticky.when ((List.range 16).any fun i => lgIsNaR (lane 8 v i)) nar

/-- R234: VLGX. -/
def execVlgx (d a : Reg) (m : Bool) (s : State) : Host.Outcome State Fault Refusal :=
  convert d a 7 m (fun v i => lgxLane (lane 8 v i)) lgxFlags s

/-- R234: VLGQ's lane: 0x20 for a scale of E 0 or 255, in every lane; else a code under the scale of E and F, 0 in lanes 16 to 63.
DEDUCED (notes/assumptions/35.md): "every written lane" takes in lanes 16 to 63. -/
def lgqLane (x : Word) (v : VWord) (i : Nat) : Nat :=
  let e := fieldOf x 7 0
  if e = 0 ∨ e = 255 then 0x20 else if 16 ≤ i then 0 else lg6q (lane 32 v i) e (fieldOf x 23 8)

/-- R234: VLGQ. -/
def execVlgq (d a b : Reg) (m : Bool) (s : State) : Host.Outcome State Fault Refusal :=
  finish s do
    needV a s
    needX b s
    needOld d m s
    freeV d s
    .ok (s.step4 fun h =>
      let e := fieldOf (h.rx b) 7 0
      (h.putLanes d 4 m (lgqLane (h.rx b) (h.rv a))).stick (Sticky.when (e == 0 || e == 255) fmtFlag))

/-! ### VCMP (R235, R236) -/

/-- A comparison into a mask register. -/
def compare (op : CmpOp) (d : MReg) (a b : Reg) (t : EType) (m q : Bool) (s : State) : Host.Outcome State Fault Refusal :=
  finish s do
    needV a s
    needPureQ q s
    let (y, fl, s) ← readV2 b q s
    .ok (s.step4 fun h => (h.wm d (cmpMask op t m (h.rm 0) (h.rm d) (h.rv a) y)).stick fl)

/-- R235: VCEQ. -/
def execVceq (d : MReg) (a b : Reg) (t : EType) (m q : Bool) (s : State) : Host.Outcome State Fault Refusal :=
  compare .eq d a b t m q s

/-- R235: VCLT. -/
def execVclt (d : MReg) (a b : Reg) (t : EType) (m q : Bool) (s : State) : Host.Outcome State Fault Refusal :=
  compare .lt d a b t m q s

/-- R235: VCLE. -/
def execVcle (d : MReg) (a b : Reg) (t : EType) (m q : Bool) (s : State) : Host.Outcome State Fault Refusal :=
  compare .le d a b t m q s

/-- R235: a selection by m0. -/
def selectLanes (d a : Reg) (t : EType) (y : VWord) (h : Hart) : Hart :=
  let w := eltBits t
  h.wv d (mkLanes w (laneCount t) fun i => if laneActive true (h.rm 0) i then lane w y i else lane w (h.rv a) i)

/-- R235: VSEL. -/
def execVsel (d a b : Reg) (t : EType) (q : Bool) (s : State) : Host.Outcome State Fault Refusal :=
  finish s do
    needV a s
    needPureQ q s
    freeV d s
    let (y, fl, s) ← readV2 b q s
    .ok (s.step4 fun h => (selectLanes d a t y h).stick fl)

/-- R236: MAND. -/
def execMand (d a b : MReg) (s : State) : Host.Outcome State Fault Refusal :=
  finish s (.ok (s.step4 fun h => h.wm d (h.rm a &&& h.rm b)))

/-- R236: MOR. -/
def execMor (d a b : MReg) (s : State) : Host.Outcome State Fault Refusal :=
  finish s (.ok (s.step4 fun h => h.wm d (h.rm a ||| h.rm b)))

/-- R236: MNOT. -/
def execMnot (d a : MReg) (s : State) : Host.Outcome State Fault Refusal := finish s (.ok (s.step4 fun h => h.wm d (~~~(h.rm a))))

/-- R236: the 1 bits of a mask. -/
def maskCount (v : BitVec 64) : Nat := ((List.range 64).filter v.getLsbD).length

/-- R236: MPOPC. -/
def execMpopc (d : Reg) (a : MReg) (s : State) : Host.Outcome State Fault Refusal :=
  finish s do
    freeX d s
    .ok (s.step4 fun h => h.wx d (BitVec.ofNat 64 (maskCount (h.rm a))))

end Sys2Proof.Machine
end

