-- ==== Sys2Proof/Machine/VecMem.lean ====
section
/-! DEFINITION. VMEM (R227 to R230) and BLOCK (R237 to R242). -/

namespace Sys2Proof.Machine

/-! ### Lanes and their addresses (R227, R230) -/

/-- The active lanes of a form, with the address each lies at. -/
def activeLanes (t : EType) (m : Bool) (m0 : BitVec 64) (addr : Nat → Word) : List (Nat × Word) :=
  ((List.range (laneCount t)).filter (laneActive m m0)).map fun i => (i, addr i)

/-- VLD and VST: lane i at ea + i × s. -/
def unitAddr (ea : Word) (t : EType) (i : Nat) : Word := ea + BitVec.ofNat 64 (i * eltBytes t)

/-- VLDS and VSTS: lane i at ea + i × the stride. -/
def strideAddr (ea stride : Word) (i : Nat) : Word := ea + BitVec.ofNat 64 i * stride

/-- R227: the offset of VGATH and VSCAT: zero-extended for n8 and n32, sign-extended for every other type. -/
def gatherOff (t : EType) (v : VWord) (i : Nat) : Word :=
  let x := lane (eltBits t) v i
  if t = 4#3 ∨ t = 5#3 then BitVec.ofNat 64 x else BitVec.ofInt 64 (sval (eltBits t) x)

/-- VGATH and VSCAT. -/
def gatherAddr (ea : Word) (t : EType) (v : VWord) (i : Nat) : Word := ea + gatherOff t v i

/-- R230: the row address of the dword that holds lane i. -/
def rowAddr (ea : Word) (t : EType) (i : Nat) : Word := ea + BitVec.ofNat 64 (256 * (i * eltBytes t / 8))

/-- R230: the stash address of lane i in tile mode. -/
def tileAddr (ea : Word) (t : EType) (i : Nat) : Word :=
  match localOff (rowAddr ea t i) with
  | some o => stashVa (tileOff o + i * eltBytes t % 8)
  | none => rowAddr ea t i

/-! ### Checks (R228) -/

/-- The first lane that fails a test. -/
def firstLane (ls : List (Nat × Word)) (ok : Word → Bool) : Option Word := (ls.find? fun e => !ok e.2).map (·.2)

/-- A check over lanes, reported at the lowest lane that fails. -/
def lanesCheck (ls : List (Nat × Word)) (ok : Word → Bool) (e : Word → Stop) : Except Stop Unit :=
  match firstLane ls ok with
  | some va => .error (e va)
  | none => .ok ()

/-- R28, R64: alignment, then canonical form, of every lane; a lane in a window raises ACCESS. -/
def needLanes (ls : List (Nat × Word)) (n acc : Nat) : Except Stop Unit := do
  lanesCheck ls (fun va => inWindow va || aligned va n) (.trapAcc acc cMisalign)
  lanesCheck ls canonical (.deny acc)
  lanesCheck ls (fun va => !inWindow va) (.deny acc)

/-- Every lane reached in rising order, with the state the translations leave. -/
def reachLanes (s : State) (acc : Nat) : List (Nat × Word) → Except Stop (List (Nat × Word × Place) × State)
  | [] => .ok ([], s)
  | (i, va) :: ls => do
    let (p, s) ← reach s s.myCore s.me.tctx va acc
    let (ps, s) ← reachLanes s acc ls
    .ok ((i, va, p) :: ps, s)

/-- The translation fault a lane meets: its address, the record's and the stage. -/
def laneFault (s : State) (acc : Nat) (va : Word) : Option (Word × Word × Nat) :=
  match reach s s.myCore s.me.tctx va acc with
  | .error (.hold _ addr st _ _) => some (va, addr, st)
  | _ => none

/-- Faults of lanes with one for each page (R228). -/
def byPage : List (Word × Word × Nat) → List (Word × Word × Nat)
  | [] => []
  | e :: es => e :: (byPage es).filter fun k => !(k.2.1.toNat / 4096 == e.2.1.toNat / 4096 && k.2.2 == e.2.2)

/-- R228: translation of every lane before protection: page faults of any lanes come first, each page with its own record. -/
def placeLanes (s : State) (acc : Nat) (ls : List (Nat × Word)) : Except Stop (List (Nat × Word × Place) × State) :=
  match reachLanes s acc ls with
  | .ok r => .ok r
  | .error e =>
    match byPage (ls.filterMap fun l => laneFault s acc l.2) with
    | [] => .error e
    | fs => .error (.holdLanes acc fs)

/-- R300: the lanes a pure task reads must be in bounds. -/
def needPureLanes (ls : List (Nat × Word)) (n : Nat) (s : State) : Except Stop Unit :=
  match s.me.pure with
  | some r => lanesCheck ls (fun va => pureReadOk r va n) .purity
  | none => .ok ()

/-- R300: VLD.T and VST.T are violations in pure mode, at the address of the lowest active lane, or without one. -/
def noPureTile (ls : List (Nat × Word)) (s : State) : Except Stop Unit :=
  noPure (match ls with | e :: _ => e.2 | [] => 0#64) s

/-- R300: the lanes a pure task writes must be in bounds. -/
def needPureOut (ls : List (Nat × Word)) (n : Nat) (s : State) : Except Stop Unit :=
  match s.me.pure with
  | some r => lanesCheck ls (fun va => pureWriteOk r va n) .purity
  | none => .ok ()

/-! ### Bank conflicts (R65, R230, R310) -/

/-- R65: the dwords of the local stash that lanes lie in, each once. -/
def stashDwords (ls : List (Nat × Word)) : List Nat := (ls.filterMap fun e => (localOff e.2).map (· / 8)).eraseDups

/-- DEDUCED (notes/assumptions/58.md). R65, R310: the bank conflicts of one access: dwords that share a bank with one before them. -/
def bankConflicts (ls : List (Nat × Word)) : Nat :=
  let ds := stashDwords ls
  ds.length - (ds.map (· % 32)).eraseDups.length

/-- The bank conflicts of an access counted in its thread (R310). -/
def Hart.conflict (h : Hart) (ls : List (Nat × Word)) : Hart :=
  if bankConflicts ls = 0 then h else h.count evBank (bankConflicts ls)

/-! ### Loads -/

/-- Every lane read in rising order: its value, whether any was poison, and the accesses to the L2. -/
def readLanes (n : Nat) (s : State) : List (Nat × Word × Place) → Except Stop (List (Nat × Nat) × Bool × Nat × State)
  | [] => .ok ([], false, 0, s)
  | (i, va, p) :: ls => do
    check (!remotePending s s.cur p n) (.wait .other)
    let l2 := l2Reads s p n
    let s := s.setMe (countMiss s p n s.me)
    let g ← readPlace s s.cur va p n false
    let (vs, bad, k, s) ← readLanes n g.st ls
    .ok ((i, leNat g.bytes) :: vs, g.poison || bad, l2 + k, s)

/-- The register a vector load writes: lanes read, every other lane as it was. -/
def loadedLanes (t : EType) (old : VWord) (vs : List (Nat × Nat)) : VWord :=
  let w := eltBits t
  mkLanes w (laneCount t) fun i => match vs.find? fun e => e.1 == i with
    | some e => e.2
    | none => lane w old i

/-- R227 to R229: a load of lanes into v[rd] through the scoreboard. -/
def loadLanes (d : Reg) (t : EType) (ls : List (Nat × Word)) (s : State) : Res := do
  check (ls.all fun e => !lineLogged s s.myCore e.2) (.wait .other)
  let (ps, s) ← placeLanes s accRead ls
  let (vs, bad, l2, s) ← readLanes (eltBytes t) s ps
  let v := loadedLanes t (s.me.rv d) vs
  let s := s.setMe ((((s.me.armV d).retire 4).stick (Sticky.when bad psn)).conflict ls)
  .ok (startLoad s (.vreg d v) 0#3 l2)

/-- A vector load of a form: its lanes by an address function of the hart. -/
def vload (d a : Reg) (t : EType) (m : Bool) (addr : Hart → Nat → Word) (s : State) : Except Stop State := do
  needX a s
  needOld d m s
  let ls := activeLanes t m (s.me.rm 0) (addr s.me)
  needPureLanes ls (eltBytes t) s
  freeV d s
  needLanes ls (eltBytes t) accRead
  loadLanes d t ls s

/-- R227: VLD. -/
def execVld (d a : Reg) (t : EType) (m : Bool) (s : State) : Host.Outcome State Fault Refusal :=
  finish s (vload d a t m (fun h => unitAddr (h.rx a) t) s)

/-- R227: VLDS. -/
def execVlds (d a b : Reg) (t : EType) (m : Bool) (s : State) : Host.Outcome State Fault Refusal :=
  finish s do
    needX b s
    vload d a t m (fun h => strideAddr (h.rx a) (h.rx b)) s

/-- R227: VGATH. -/
def execVgath (d a b : Reg) (t : EType) (m : Bool) (s : State) : Host.Outcome State Fault Refusal :=
  finish s do
    needV b s
    vload d a t m (fun h => gatherAddr (h.rx a) t (h.rv b)) s

/-- R65, R230: the address checks of the tile forms: ea, then the row of each active lane. -/
def needTile (ea : Word) (t : EType) (acc : Nat) (ls : List (Nat × Word)) : Except Stop Unit :=
  if ls.isEmpty then .ok ()
  else do
    noWindow ea acc
    let ok := fun va => aligned va 8 && (localOff va).isSome
    check (ok ea) (.trapAcc acc cMisalign ea)
    lanesCheck (ls.map fun e => (e.1, rowAddr ea t e.1)) ok (.trapAcc acc cMisalign)

/-- R230: VLD.T. -/
def execVldT (d a : Reg) (t : EType) (m : Bool) (s : State) : Host.Outcome State Fault Refusal :=
  finish s do
    needX a s
    needOld d m s
    let ea := s.me.rx a
    let ls := activeLanes t m (s.me.rm 0) (tileAddr ea t)
    noPureTile ls s
    freeV d s
    needTile ea t accRead ls
    loadLanes d t ls s

/-! ### Stores -/

/-- R229: the lanes of a vector store sent out directly, once reached, to be performed in rising order. -/
def storeOuts (s : State) (es : List (Word × Place × List Byte)) : Except Stop State :=
  es.foldlM (fun t e => laneTo t t.cur e.1 e.2.1 e.2.2 (freshGroup s.ms.stores)) s

/-- R104: the replicas of every read-mostly line among some places collapsed, before any lane is performed. -/
def needAllCollapsed (s : State) (ps : List Place) : Except Stop Unit :=
  match ps.find? fun p => match needCollapsed s p with | .ok _ => false | .error _ => true with
  | some p => needCollapsed s p
  | none => .ok ()

/-- Vector and block stores of the issuing hart: to a pure task's output, the activation's buffer as long as they fit, or out. -/
def storeAll (s : State) (es : List (Word × Place × List Byte)) : Except Stop State :=
  match s.me.pure with
  | some r => .ok (s.setMe { s.me with pure := some (es.foldl (fun (r : PureRun) e => r.put e.1 e.2.2) r) })
  | none => do
    if s.me.buffering then
      let new := s.me.abuf ++ es.map fun e => .lanes e.1 e.2.2 s.nextId
      if bufBytes new ≤ 2048 then .ok { s.setMe { s.me with abuf := new } with nextId := s.nextId + 1 }
      else
        match needUnrollable s with
        | .ok _ => storeOuts s es
        | .error k => .error k
    else
      needAllCollapsed s (es.map fun e => e.2.1)
      storeOuts s es

/-- R227 to R229: lanes stored once every one is checked; `whole` is the block of an aligned VST of all its lanes, one access
(R289). -/
def storeLanes (d : Reg) (t : EType) (ls : List (Nat × Word)) (whole : Option Word) (s : State) : Res := do
  check (ls.all fun e => !ownLineLogged s s.myCore s.cur e.2) (.wait .other)
  let v := s.me.rv d
  let n := eltBytes t
  let (ps, s) ← placeLanes s accWrite ls
  let es := match whole, ps with
    | some va, (_, _, p) :: _ => [(va, p, leBytes 64 v.toNat)]
    | _, _ => ps.map fun e => (e.2.1, e.2.2, leBytes n (lane (eltBits t) v e.1))
  let s ← storeAll s es
  .ok (s.step4 fun h => h.conflict ls)

/-- A vector store of a form. -/
def vstore (d a : Reg) (t : EType) (m : Bool) (addr : Hart → Nat → Word) (whole : Hart → Option Word) (s : State) :
    Except Stop State := do
  needX a s
  needV d s
  let ls := activeLanes t m (s.me.rm 0) (addr s.me)
  needPureOut ls (eltBytes t) s
  needLanes ls (eltBytes t) accWrite
  storeLanes d t ls (whole s.me) s

/-- R289: a 64-byte aligned VST of every lane. -/
def wholeBlock (ea : Word) (m : Bool) (m0 : BitVec 64) (t : EType) : Option Word :=
  if aligned ea 64 && (List.range (laneCount t)).all (laneActive m m0) then some ea else none

/-- R227: VST. -/
def execVst (d a : Reg) (t : EType) (m : Bool) (s : State) : Host.Outcome State Fault Refusal :=
  finish s (vstore d a t m (fun h => unitAddr (h.rx a) t) (fun h => wholeBlock (h.rx a) m (h.rm 0) t) s)

/-- R227: VSTS. -/
def execVsts (d a b : Reg) (t : EType) (m : Bool) (s : State) : Host.Outcome State Fault Refusal :=
  finish s do
    needX b s
    vstore d a t m (fun h => strideAddr (h.rx a) (h.rx b)) (fun _ => none) s

/-- R227: VSCAT. -/
def execVscat (d a b : Reg) (t : EType) (m : Bool) (s : State) : Host.Outcome State Fault Refusal :=
  finish s do
    needV b s
    vstore d a t m (fun h => gatherAddr (h.rx a) t (h.rv b)) (fun _ => none) s

/-- R230: VST.T. -/
def execVstT (d a : Reg) (t : EType) (m : Bool) (s : State) : Host.Outcome State Fault Refusal :=
  finish s do
    needX a s
    needV d s
    let ea := s.me.rx a
    let ls := activeLanes t m (s.me.rm 0) (tileAddr ea t)
    noPureTile ls s
    needTile ea t accWrite ls
    storeLanes d t ls none s

/-! ### BLOCK (R237 to R242) -/

/-- R237: a block address: in the local stash window, a multiple of 64. -/
def needBlock (va : Word) (acc : Nat) : Except Stop Unit := do
  noWindow va acc
  check (aligned va 64 && (localOff va).isSome) (.trapAcc acc cMisalign va)

/-- R237, R242: the 64 bytes of a block, read in one access; a poisoned one is delivered as poison. -/
def readBlk (s : State) (va : Word) : Except Stop (VWord × State) := do
  check (!lineLogged s s.myCore va) (.wait .other)
  let (p, s) ← reach s s.myCore s.me.tctx va accRead
  check (!remotePending s s.cur p 64) (.wait .other)
  let g ← readPlace s s.cur va p 64 false
  .ok (BitVec.ofNat 512 (leNat g.bytes), g.st)

/-- R237, R242: a block written in one access. -/
def writeBlk (s : State) (va : Word) (b : VWord) : Except Stop State := do
  check (!ownLineLogged s s.myCore s.cur va) (.wait .other)
  let (p, s) ← reach s s.myCore s.me.tctx va accWrite
  storeAll s [(va, p, leBytes 64 b.toNat)]

/-- The five registers from a base. -/
def blkRegs (d : Reg) : List Reg := (List.range 5).map fun k => d + BitVec.ofNat 5 k

/-- A check of every register of a list. -/
def needEach (f : Reg → State → Except Stop Unit) (s : State) : List Reg → Except Stop Unit
  | [] => .ok ()
  | r :: rs => do
    f r s
    needEach f s rs

/-- R238: the five registers of an unpacked block. -/
def unpacked (b : VWord) : List VWord := (List.range 5).map fun k => mkLanes 32 16 fun i => unpackLane b (16 * k + i)

/-- R238: BLKUNP. -/
def execBlkunp (d a : Reg) (s : State) : Host.Outcome State Fault Refusal :=
  finish s do
    needWf (.blkunp d a) s
    needX a s
    let va := s.me.rx a
    noPure va s
    needEach freeV s (blkRegs d)
    needBlock va accRead
    let (b, s) ← readBlk s va
    let h := (blkRegs d).foldl Hart.armV s.me
    .ok (startLoad (s.setMe ((h.retire 4).stick (readFlags b))) (.vgroup d (unpacked b)) 0#3 0)

/-- R239: the FP32 values of lanes 0 to n − 1 of five registers. -/
def blkValues (h : Hart) (d : Reg) (n : Nat) : List Nat :=
  (List.range n).map fun i => lane 32 (h.rv (d + BitVec.ofNat 5 (i / 16))) (i % 16)

/-- R239: BLKPK. -/
def execBlkpk (d a : Reg) (t : EType) (s : State) : Host.Outcome State Fault Refusal :=
  finish s do
    needWf (.blkpk d a t) s
    needX a s
    needEach needV s (blkRegs d)
    let va := s.me.rx a
    noPure va s
    needBlock va accWrite
    let (b, fl) := packBlock t.toNat (blkValues s.me d (fmtCount t.toNat))
    let s ← writeBlk s va b
    .ok (s.step4 fun h => h.stick fl)

/-- R240 to R242: the write of a block instruction whose reads are done. -/
def blkWrite (s : State) (va : Word) (z : VWord) (fl : Sticky) : Res := do
  let s ← writeBlk s va z
  .ok (s.step4 fun h => { h.stick fl with blk := .whole })

/-- R240 to R242: an instruction that reads, then writes a block; other harts may come between the two. -/
def blkUpdate (s : State) (va : Word) (read : State → Except Stop (VWord × Sticky × State)) : Res :=
  match s.me.blk with
  | .done z fl => blkWrite s va z fl
  | .whole => do
    let (z, fl, s) ← read s
    blkWrite s va z fl
  | .split => do
    let (z, fl, s) ← read s
    .error (.again (s.setMe { s.me with blk := .done z fl }))

/-- R240: BLKADDQ. -/
def execBlkaddq (a b : Reg) (s : State) : Host.Outcome State Fault Refusal :=
  finish s do
    needX a s
    needX b s
    let va := s.me.rx a
    let vb := s.me.rx b
    noPure va s
    needBlock va accWrite
    needBlock vb accRead
    blkUpdate s va fun s => do
      let (x, s) ← readBlk s va
      let (y, s) ← readBlk s vb
      let (z, fl) := blkAdd x y
      .ok (z, fl, s)

/-- R241: BLKHDR. -/
def execBlkhdr (d a : Reg) (s : State) : Host.Outcome State Fault Refusal :=
  finish s do
    needX a s
    let va := s.me.rx a
    noPure va s
    freeX d s
    needBlock va accRead
    let (b, s) ← readBlk s va
    .ok (s.step4 fun h => h.wx d ((b.setWidth 32).setWidth 64))

/-- R241: BLKSCL. -/
def execBlkscl (a b : Reg) (s : State) : Host.Outcome State Fault Refusal :=
  finish s do
    needX a s
    needX b s
    let va := s.me.rx a
    noPure va s
    needBlock va accWrite
    blkUpdate s va fun s => do
      let (x, s) ← readBlk s va
      let (y, fl) := blkScl x ((s.me.rx b).toNat % 2 ^ 32)
      .ok (y, fl, s)

end Sys2Proof.Machine
end

