-- ==== Sys2Proof/Machine/Lane16.lean ====
section
/-! DEFINITION. The 16-bit lane forms (R18, R19): each has the effect of its 32-bit form with the type of VTYPE. -/

namespace Sys2Proof.Machine

/-- R18: a lane form on sources a and b, of the integer or the float operation of its type. -/
def half (i : Instr) (d a b : Reg) (m acc : Bool) (f : EType → Nat → Nat → Nat → Nat) (s : State) :
    Host.Outcome State Fault Refusal :=
  finish s do
    needWf i s
    needV a s
    needV b s
    needOld d (m || acc) s
    freeV d s
    let t := s.me.vtype
    .ok (s.step2 fun h => h.wv d (mapLanes t m (h.rm 0) (f t) (h.rv a) (h.rv b) (h.rv d)))

/-- R18: the operation of a type: VINT's, or VFLT's for bf16 and f32. -/
def byType (op : IntOp) (fop : FltOp) (t : EType) (a b d : Nat) : Nat := if isFloat t then fltLane fop t a b d else intLane op t a b d

/-- R19: a shift with VTYPE bf16 or f32 raises ILLEGAL. -/
def needShiftType (i : Instr) (s : State) : Except Stop Unit := check (!isFloat s.me.vtype) (.trap cIllegal i.bits)

/-- R18: VMOV. -/
def execVmov16 (d b : Reg) (m : Bool) (s : State) : Host.Outcome State Fault Refusal :=
  half (.vmov16 d b m) d b b m false (fun t => intLane .or t) s

/-- R18: VADD. -/
def execVadd16 (d b : Reg) (m : Bool) (s : State) : Host.Outcome State Fault Refusal :=
  half (.vadd16 d b m) d d b m false (byType .add .add) s

/-- R18: VSUB. -/
def execVsub16 (d b : Reg) (m : Bool) (s : State) : Host.Outcome State Fault Refusal :=
  half (.vsub16 d b m) d d b m false (byType .sub .sub) s

/-- R18: VMUL. -/
def execVmul16 (d b : Reg) (m : Bool) (s : State) : Host.Outcome State Fault Refusal :=
  half (.vmul16 d b m) d d b m false (byType .mul .mul) s

/-- R18: VMAD. -/
def execVmad16 (d b : Reg) (m : Bool) (s : State) : Host.Outcome State Fault Refusal :=
  half (.vmad16 d b m) d b 0#5 m true (byType .mad .fma) s

/-- R18: VMIN. -/
def execVmin16 (d b : Reg) (m : Bool) (s : State) : Host.Outcome State Fault Refusal :=
  half (.vmin16 d b m) d d b m false (byType .min .min) s

/-- R18: VMAX. -/
def execVmax16 (d b : Reg) (m : Bool) (s : State) : Host.Outcome State Fault Refusal :=
  half (.vmax16 d b m) d d b m false (byType .max .max) s

/-- R18: VAND. -/
def execVand16 (d b : Reg) (m : Bool) (s : State) : Host.Outcome State Fault Refusal :=
  half (.vand16 d b m) d d b m false (fun t => intLane .and t) s

/-- R18: VOR. -/
def execVor16 (d b : Reg) (m : Bool) (s : State) : Host.Outcome State Fault Refusal :=
  half (.vor16 d b m) d d b m false (fun t => intLane .or t) s

/-- R18: VXOR. -/
def execVxor16 (d b : Reg) (m : Bool) (s : State) : Host.Outcome State Fault Refusal :=
  half (.vxor16 d b m) d d b m false (fun t => intLane .xor t) s

/-- R18: VNEG. -/
def execVneg16 (d b : Reg) (m : Bool) (s : State) : Host.Outcome State Fault Refusal :=
  half (.vneg16 d b m) d b b m false (byType .neg .neg) s

/-- R18: VABS. -/
def execVabs16 (d b : Reg) (m : Bool) (s : State) : Host.Outcome State Fault Refusal :=
  half (.vabs16 d b m) d b b m false (byType .abs .abs) s

/-- R18, R19: VSHL. -/
def execVshl16 (d b : Reg) (m : Bool) (s : State) : Host.Outcome State Fault Refusal :=
  match needShiftType (.vshl16 d b m) s with
  | .error e => finish s (.error e)
  | .ok _ => half (.vshl16 d b m) d d b m false (fun t => intLane .shl t) s

/-- R18, R19: VSRA. -/
def execVsra16 (d b : Reg) (m : Bool) (s : State) : Host.Outcome State Fault Refusal :=
  match needShiftType (.vsra16 d b m) s with
  | .error e => finish s (.error e)
  | .ok _ => half (.vsra16 d b m) d d b m false (fun t => intLane .sra t) s

/-- R18: VSQR. -/
def execVsqr (d b : Reg) (m : Bool) (s : State) : Host.Outcome State Fault Refusal :=
  half (.vsqr d b m) d b b m false (byType .mul .mul) s

/-- R18: VSEL. -/
def execVsel16 (d b : Reg) (s : State) : Host.Outcome State Fault Refusal :=
  finish s do
    needV d s
    needV b s
    freeV d s
    .ok (s.step2 fun h => selectLanes d d h.vtype (h.rv b) h)

end Sys2Proof.Machine
end

