-- ==== Sys2Proof/Machine/Matrix.lean ====
section
/-! DEFINITION. MATRIX (R257, R259, R260, R262 to R264). -/

namespace Sys2Proof.Machine

/-! ### Issue of a command (R17, R257) -/

/-- R17, R21, R300: what a command with a group needs before it may leave the hart: its encoding limits, its group ready, no
pure task. -/
def needCommand (i : Instr) (a : Reg) (s : State) : Except Stop Unit := do
  needWf i s
  needXs (groupRegs a) s
  noPure 0 s

/-- R17, R52, R125: a command of the issuing hart enters a unit: its tokens are armed and the instruction retires. -/
def issueCmd (s : State) (c : Cmd) (rd rd2 : Reg) (enter : State → Cmd → State) : State :=
  enter (({ s with nextId := s.nextId + 1 }).step4 fun h => h.armTokens rd rd2) c

/-- The command of an instruction with its group and its token. -/
def groupCmd (s : State) (i : Instr) (a rd rd2 : Reg) : Cmd := newCmd s i (stage s.me a) rd rd2

/-! ### Queued forms -/

/-- R259: MZERO; it has no token. -/
def execMzero (c : BitVec 1) (s : State) : Host.Outcome State Fault Refusal :=
  finish s do
    noPure 0 s
    needUnrollable s
    needMatrix s
    .ok (issueCmd s (newCmd s (.mzero c) [] 0#5 0#5) 0#5 0#5 enterMatrix)

/-- R260: MMUL; rd is the operands-consumed token, rs2 the completion token. -/
def execMmul (d a b : Reg) (s : State) : Host.Outcome State Fault Refusal :=
  finish s do
    needCommand (.mmul d a b) a s
    freeX d s
    freeX b s
    needUnrollable s
    needMatrix s
    .ok (issueCmd s { groupCmd s (.mmul d a b) a d b with old := some (performOwn s s.cur).ms.stash } d b enterMatrix)

/-- R262: MSTW. -/
def execMstw (d a : Reg) (s : State) : Host.Outcome State Fault Refusal :=
  finish s do
    needCommand (.mstw d a) a s
    freeX d s
    needUnrollable s
    needMatrix s
    .ok (issueCmd s (groupCmd s (.mstw d a) a d 0#5) d 0#5 enterMatrix)

/-- R252, R263: MLDW runs in copy queue 0. -/
def execMldw (d a : Reg) (s : State) : Host.Outcome State Fault Refusal :=
  finish s do
    needCommand (.mldw d a) a s
    freeX d s
    needUnrollable s
    needFront s
    .ok (issueCmd s (groupCmd s (.mldw d a) a d 0#5) d 0#5 enterFront)

/-! ### MQRY (R264) -/

/-- Steps left in a command. -/
def stepsLeft (c : Cmd) : Nat :=
  match c.instr with
  | some (.mmul _ _ _) => mmulSteps c - c.off
  | _ => 1

/-- R264: BUSYQ: the queues of cores of the caller's partition that hold a command. -/
def busyQueues (s : State) (core : Nat) : Nat :=
  if core < 1024 then
    (List.range 8).foldl (fun n q =>
      let g := coreOfQueue (clusterOf core) q
      if samePart s core g && !(s.core g).mq.isEmpty then n + 2 ^ q else n) 0
  else 0

/-- R264: the sample; a gateway has no matrix unit, so that its BUSYQ and GATED read 0. -/
def matrixSample (s : State) (core : Nat) : Word :=
  let mq := (s.core core).mq
  let gated := if core < 1024 then (s.cluster (clusterOf core)).gated.toNat else 0
  let (steps, leave) := match mq.head? with
    | some c => (stepsLeft c, c.waitsLeave)
    | none => (0, false)
  BitVec.ofNat 64 (busyQueues s core * 2 ^ 24 + (s.core core).mxwt.toNat * 2 ^ 16 + steps * 2 ^ 8 + gated * 2 ^ 4 +
    (if leave then 4 else 0) + mq.length)

/-- R264: MQRY. -/
def execMqry (d : Reg) (s : State) : Host.Outcome State Fault Refusal :=
  finish s do
    noPure 0 s
    freeX d s
    needUnrollable s
    .ok (s.step4 fun h => h.wx d (matrixSample s s.myCore))

end Sys2Proof.Machine
end

