-- ==== Sys2Proof/Machine/CopyI.lean ====
section
/-! DEFINITION. COPY (R257, R265 to R270). -/

namespace Sys2Proof.Machine

/-! ### Queued forms -/

/-- R251, R257: a COPY form with a group enters the front queue. -/
def copyOp (i : Instr) (d a : Reg) (s : State) : Host.Outcome State Fault Refusal :=
  finish s do
    needCommand i a s
    freeX d s
    needUnrollable s
    needFront s
    .ok (issueCmd s (groupCmd s i a d 0#5) d 0#5 enterFront)

/-- R300: the CPY a pure task may issue: into its output, from its arguments or code, without a barrier. -/
def needPureCopy (g : List Word) (s : State) : Except Stop Unit :=
  match s.me.pure with
  | none => .ok ()
  | some r => do
    let n := (member g 2).toNat
    check (n == 0 || pureWriteOk r (member g 1) n) (.purity (member g 1))
    check (pureReadOk r (member g 0) n) (.purity (member g 0))
    check (member g 3 == 0#64) (.purity 0#64)

/-- R301: a copy of a pure task counted, for its HEND to wait for. -/
def Hart.countCopy (h : Hart) : Hart :=
  match h.pure with
  | some r => { h with pure := some { r with copies := r.copies + 1 } }
  | none => h

/-- R265: CPY. -/
def execCpy (d a : Reg) (q : BitVec 2) (s : State) : Host.Outcome State Fault Refusal :=
  finish s do
    needWf (.cpy d a q) s
    needXs (groupRegs a) s
    needPureCopy (stage s.me a) s
    freeX d s
    needUnrollable s
    needFront s
    let c := groupCmd s (.cpy d a q) a d 0#5
    .ok (issueCmd (s.setMe s.me.countCopy) c d 0#5 enterFront)

/-- R266: CPYR.ADD.S32. -/
def execCpyrAddS32 (d a : Reg) (q : BitVec 2) (s : State) : Host.Outcome State Fault Refusal :=
  copyOp (.cpyrAddS32 d a q) d a s

/-- R266: CPYR.ADD.F32. -/
def execCpyrAddF32 (d a : Reg) (q : BitVec 2) (s : State) : Host.Outcome State Fault Refusal :=
  copyOp (.cpyrAddF32 d a q) d a s

/-- R266: CPYR.ADD.BF16. -/
def execCpyrAddBf16 (d a : Reg) (q : BitVec 2) (s : State) : Host.Outcome State Fault Refusal :=
  copyOp (.cpyrAddBf16 d a q) d a s

/-- R266: CPYR.MIN.S32. -/
def execCpyrMinS32 (d a : Reg) (q : BitVec 2) (s : State) : Host.Outcome State Fault Refusal :=
  copyOp (.cpyrMinS32 d a q) d a s

/-- R266: CPYR.MAX.S32. -/
def execCpyrMaxS32 (d a : Reg) (q : BitVec 2) (s : State) : Host.Outcome State Fault Refusal :=
  copyOp (.cpyrMaxS32 d a q) d a s

/-- R266: CPYR.MIN.F32. -/
def execCpyrMinF32 (d a : Reg) (q : BitVec 2) (s : State) : Host.Outcome State Fault Refusal :=
  copyOp (.cpyrMinF32 d a q) d a s

/-- R266: CPYR.MAX.F32. -/
def execCpyrMaxF32 (d a : Reg) (q : BitVec 2) (s : State) : Host.Outcome State Fault Refusal :=
  copyOp (.cpyrMaxF32 d a q) d a s

/-- R266: CPYR.AND. -/
def execCpyrAnd (d a : Reg) (q : BitVec 2) (s : State) : Host.Outcome State Fault Refusal :=
  copyOp (.cpyrAnd d a q) d a s

/-- R266: CPYR.OR. -/
def execCpyrOr (d a : Reg) (q : BitVec 2) (s : State) : Host.Outcome State Fault Refusal :=
  copyOp (.cpyrOr d a q) d a s

/-- R267: CPYG. -/
def execCpyg (d a : Reg) (q : BitVec 2) (s : State) : Host.Outcome State Fault Refusal :=
  copyOp (.cpyg d a q) d a s

/-- R268: CPYH. -/
def execCpyh (d a : Reg) (q : BitVec 2) (s : State) : Host.Outcome State Fault Refusal :=
  copyOp (.cpyh d a q) d a s

/-- R269: CPYX. -/
def execCpyx (d a : Reg) (q : BitVec 2) (s : State) : Host.Outcome State Fault Refusal :=
  copyOp (.cpyx d a q) d a s

/-! ### CPYQ (R270) -/

/-- R270: the commands of a queue that a hart's occupant issued. -/
def ownCommands (s : State) (core q h : Nat) : List Cmd :=
  ((s.core core).copyq q).filter fun c => c.hart == h && c.tag == (s.hart h).tag

/-- Destination bytes a command has completed; a PTASK has done none before its hit. -/
def bytesDone (c : Cmd) : Nat := if c.isTask && !c.consumed then 0 else c.off

/-- R270: the sample of a queue. -/
def copySample (s : State) (core q h : Nat) : Word :=
  let cs := ownCommands s core q h
  let n := Nat.min cs.length 65535
  match cs.head? with
  | none => 0#64
  | some c =>
    BitVec.ofNat 64 ((if c.held.isSome then 2 ^ 63 else 0) + (if c.waitsLeave then 2 ^ 62 else 0) + n * 2 ^ 32 +
      bytesDone c % 2 ^ 32)

/-- R270: CPYQ. -/
def execCpyq (d : Reg) (q : BitVec 2) (s : State) : Host.Outcome State Fault Refusal :=
  finish s do
    noPure 0 s
    freeX d s
    needUnrollable s
    .ok (s.step4 fun h => h.wx d (copySample s s.myCore q.toNat s.cur))

end Sys2Proof.Machine
end

