-- ==== Sys2Proof/Machine/TaskI.lean ====
section
/-! DEFINITION. TASK (R297, R298, R303, R304). -/

namespace Sys2Proof.Machine

/-! ### PTASK -/

/-- R298: a dword read as a load, at any alignment: R297 bounds an entry to even addresses only and leaves a misaligned table to
the check at the start. -/
def loadDword (s : State) (va : Word) : Except Stop (Word × State) := do
  let (bs, s) ← (lineCuts va.toNat 8).foldlM (fun (r : List Byte × State) cut => do
    let (s, a) := (r.2, va + BitVec.ofNat 64 cut.1)
    check (!lineLogged s s.myCore a) (.wait .other)
    let (p, s) ← reach s s.myCore s.me.tctx a accRead
    check (!remotePending s s.cur p cut.2) (.wait .other)
    let g ← readPlace s s.cur a p cut.2 true
    .ok (r.1 ++ g.bytes, g.st)) ([], s)
  .ok (BitVec.ofNat 64 (leNat bs), s)

/-- R273, R298: n argument records of a table, two dwords each; a count above 4 is left to the check at the start. -/
def loadRecords (s : State) (table : Word) (n : Nat) : Except Stop (List Word × State) :=
  if n ≤ 4 then
    (List.range (2 * n)).foldlM (fun (r : List Word × State) k => do
      let (w, s) ← loadDword r.2 (table + BitVec.ofNat 64 (8 * k))
      .ok (r.1 ++ [w], s)) ([], s)
  else .ok ([], s)

/-- R298: PTASK. -/
def execPtask (d a : Reg) (s : State) : Host.Outcome State Fault Refusal :=
  finish s do
    needCommand (.ptask d a) a s
    noV 0 s
    freeX d s
    needUnrollable s
    needReleased s
    let g := stage s.me a
    let (len, s) ← loadDword s (member g 0 - 8#64)
    let (recs, s) ← loadRecords s (member g 1) (fieldOf (member g 3) 35 32)
    needFront s
    let c := { newCmd s (.ptask d a) g d 0#5 with args := [len, BitVec.ofNat 64 s.me.mode.code] ++ recs }
    .ok (issueCmd s c d 0#5 enterFront)

/-! ### PTINV and PTSTAT -/

/-- The start of each 4 KiB page that a range touches, the first at the range's own start. -/
def pageStarts (va : Word) (n : Nat) : List Word :=
  if n = 0 then []
  else
    (List.range ((va.toNat + n - 1) / 4096 - va.toNat / 4096 + 1)).map fun k =>
      if k = 0 then va else BitVec.ofNat 64 ((va.toNat / 4096 + k) * 4096)

/-- R303: the frames of a range, each page translated in turn; a page of a stash has none. -/
def rangeFrames (s : State) (va : Word) (n : Nat) : Except Stop (List Nat × State) :=
  (pageStarts va n).foldlM (fun (r : List Nat × State) v => do
    let (p, s) ← reach r.2 r.2.myCore r.2.me.tctx v accRead
    match p with
    | .mem pa _ _ _ _ => .ok (r.1 ++ [pa / 4096], s)
    | .stash _ => .ok (r.1, s)) ([], s)

/-- R303: PTINV. -/
def execPtinv (a b : Reg) (s : State) : Host.Outcome State Fault Refusal :=
  finish s do
    needX a s
    needX b s
    noPure 0 s
    let va := s.me.rx a
    let n := (s.me.rx b).toNat
    check (canonicalRange va n) (.trap cAccess va)
    needUnrollable s
    let (fs, s) ← rangeFrames s va n
    let s := match ownerOf s s.myCore with
      | some p => dropFrames s p fs
      | none => s
    .ok (s.step4 id)

/-- R304: the value of a selector. -/
def taskStat (s : State) (k : Word) : Word :=
  match k.toNat with
  | 0 => readCsr s 0x0A0
  | 1 => readCsr s 0x0A1
  | 2 => readCsr s 0x0A2
  | 3 => readCsr s 0x0A3
  | 4 => readCsr s 0x450
  | 5 => readCsr s 0x0A4
  | _ => 0#64

/-- R304: PTSTAT. -/
def execPtstat (d a : Reg) (s : State) : Host.Outcome State Fault Refusal :=
  finish s do
    needX a s
    noPure 0 s
    freeX d s
    needUnrollable s
    .ok (s.step4 fun h => h.wx d (taskStat s (s.me.rx a)))

end Sys2Proof.Machine
end

