-- ==== Sys2Proof/Machine/FabricI.lean ====
section
/-! DEFINITION. FABRIC (R181 to R185) and GATE (R186). Each reads registers of the link dies, so it comes after the window writes
of its core that are on their way (R109; notes/assumptions/34.md). -/

namespace Sys2Proof.Machine

/-! ### Commands of a connection -/

/-- R181: NPUT, NGET and NSEND enter the queue of their connection. -/
def connOp (i : Instr) (d a : Reg) (s : State) : Host.Outcome State Fault Refusal :=
  finish s do
    needCommand i a s
    noV 0 s
    freeX d s
    needUnrollable s
    needDelivered s s.myCore
    let c := connNum (member (stage s.me a) 0)
    needConnRoom s c
    .ok (issueCmd s (groupCmd s i a d 0#5) d 0#5 fun s k => enterConn s c k)

/-- R182: NPUT. -/
def execNput (d a : Reg) (s : State) : Host.Outcome State Fault Refusal := connOp (.nput d a) d a s

/-- R182: NGET. -/
def execNget (d a : Reg) (s : State) : Host.Outcome State Fault Refusal := connOp (.nget d a) d a s

/-- R184: NSEND. -/
def execNsend (d a : Reg) (s : State) : Host.Outcome State Fault Refusal := connOp (.nsend d a) d a s

/-! ### NRECV (R185, R198, R199) -/

/-- R185: the receive of a group, posted by tenant p. -/
def newRecv (s : State) (d : Reg) (g : List Word) (p : Nat) : Recv :=
  ⟨s.nextId, fieldOf (member g 0) 9 0, fieldOf (member g 0) 25 16, (member g 1).setWidth 32, (member g 1).extractLsb' 32 32,
    member g 2, len32 (member g 3), tokenLoc s s.cur d, s.me.tctx, s.cur, p, hposOf s.myCore - (s.part p).base⟩

/-- R198: whether a receive may be posted, or finds its send. -/
def recvRoom (s : State) (p : Nat) (r : Recv) : Bool :=
  (s.unexpOf p).any (fun y => yMatch y r && entryOpen s y) ||
    ((s.postedOf p).length < rquotaOf (s.ytenant p) && enginePosted s p < 8192)

/-- R185: the token of a receive that is not posted: STATUS 3, the cause FABRIC. -/
def refusedRecv : Word := recvToken 0#32 3 0 cFabric

/-- R28, R185: the token of a receive whose destination names a window: STATUS 3, the cause ACCESS. DEDUCED (notes/assumptions/64.md):
R28 ends the command with code 0x06 before it does anything, and STATUS 3 is the one whose LEN holds a cause. -/
def windowRecv : Word := recvToken 0#32 3 0 0x06

/-- R185: NRECV. -/
def execNrecv (d a : Reg) (s : State) : Host.Outcome State Fault Refusal :=
  finish s do
    needCommand (.nrecv d a) a s
    noV 0 s
    freeX d s
    needUnrollable s
    needDelivered s s.myCore
    let r := newRecv s d (stage s.me a) ((ownerOf s s.myCore).getD 0)
    let t := ({ s with nextId := s.nextId + 1 }).step4 fun h => h.armTokens d 0#5
    if namesWindow r.va r.max then .ok (tokenPut t r.loc windowRecv sigAll 0#3 true)
    else match ownerOf s s.myCore with
    | none => .ok (tokenPut t r.loc refusedRecv sigAll 0#3 true)
    | some p =>
      if featureOn s 3 then do
        check (recvRoom s p r) (.wait .other)
        .ok (postRecv (performOwn t t.cur) p r)
      else .ok (tokenPut t r.loc refusedRecv sigAll 0#3 true)

/-! ### NCHAIN and NCNT (R183) -/

/-- R158, R183: FABRIC left pending for the issuing hart, with the connection number. -/
def Hart.pendFabric (h : Hart) (c : Nat) : Hart := { h with pend := h.pend ++ [(cFabric, BitVec.ofNat 64 c)] }

/-- R183: a wait entry joins a connection's queue. -/
def addChain (s : State) (c n : Nat) (count : Word) : State :=
  pumpAll (s.setConn c { s.conn c with queue := (s.conn c).queue ++ [.chain n count] })

/-- R183: NCHAIN; rd is a source. -/
def execNchain (d a b : Reg) (s : State) : Host.Outcome State Fault Refusal :=
  finish s do
    needX a s
    needX b s
    needX d s
    noPure 0 s
    needUnrollable s
    needDelivered s s.myCore
    let c := connNum (s.me.rx a)
    let n := connNum (s.me.rx b)
    if !connUsable s s.myCore c then .ok (s.step4 fun h => h.pendFabric c)
    else if !connUsable s s.myCore n then .ok (s.step4 fun h => h.pendFabric n)
    else .ok (addChain (s.step4 id) c n (s.me.rx d))

/-- R183: NCNT. -/
def execNcnt (d a : Reg) (s : State) : Host.Outcome State Fault Refusal :=
  finish s do
    needX a s
    noPure 0 s
    freeX d s
    needUnrollable s
    needDelivered s s.myCore
    let c := connNum (s.me.rx a)
    if connUsable s s.myCore c then .ok (s.step4 fun h => h.wx d (s.conn c).count)
    else .ok (s.step4 fun h => (h.wx d 0#64).pendFabric c)

/-! ### GATE (R186) -/

/-- R186: the queue a GATE form names: of the gateway's die, configured for its tenant; else ACCESS. -/
def needQueue (x : Word) (s : State) : Except Stop (Nat × Nat) := do
  let die := dieOf s.myCore
  let q := fieldOf x 5 0
  check (isGateway s.myCore && tenantOf s s.myCore == some (s.assignq die q).part) (.trap cAccess x)
  .ok (die, q)

/-- R186: BQPOP. -/
def execBqpop (d a : Reg) (s : State) : Host.Outcome State Fault Refusal :=
  finish s do
    needX a s
    noPure 0 s
    freeX d s
    needDelivered s s.myCore
    let (die, q) ← needQueue (s.me.rx a) s
    let k := s.assignq die q
    if k.next.toNat < k.count.toNat then
      .ok ((s.setAssignq die q { k with next := k.next + 1 }).step4 fun h => h.wx d (k.next.setWidth 64))
    else .ok (s.step4 fun h => h.wx d (BitVec.allOnes 64))

/-- R186: a block marked done. -/
def AssignQ.mark (k : AssignQ) (x : Word) : AssignQ := { k with done := k.done + 1, marks := k.marks ++ [x.toNat] }

/-- R186, R203: BQDONE; the last block's completion put goes out as RPUT.RL's does, none to a locator of 0. -/
def execBqdone (a b : Reg) (s : State) : Host.Outcome State Fault Refusal :=
  finish s do
    needX a s
    needX b s
    noPure 0 s
    needDelivered s s.myCore
    let (die, q) ← needQueue (s.me.rx a) s
    let k := s.assignq die q
    let x := s.me.rx b
    let loc := resolveLocal s.plat.node k.cloc
    let last := k.open_ x.toNat && k.done + 1 == k.count && k.cloc != 0#64
    if last then needCount s else .ok ()
    if last then needRoute loc s else .ok ()
    needUnrollable s
    needReleased s
    if last then needReply s s.cur else .ok ()
    let s := if k.open_ x.toNat then s.setAssignq die q (k.mark x) else s
    let s := if last then putOut s s.cur (newPut s loc false 0#512 (senderOf s s.cur none false)) true else s
    .ok (s.step4 id)

end Sys2Proof.Machine
end

