-- ==== Sys2Proof/Machine/Fetch.lean ====
section
/-! DEFINITION. Fetching an instruction (R13, R24), and what is taken at an instruction boundary: ILLEGAL for a pattern that
decodes to nothing (R22, R23), fetch faults, pending refusals and asynchronous causes (R45, R158, R159). -/

namespace Sys2Proof.Machine

/-! ### Fetch -/

/-- What a fetch delivers, with the state after it: an instruction, the bits of a pattern that is none, or a fault. -/
inductive Fetched where
  | instr (i : Instr) (s : State)
  | illegal (bits : Word) (s : State)
  | fault (e : Stop)

/-- A place as the fetch path reads it: through the core's instruction copies (R126). -/
def fetchPlace (core : Nat) : Place → Place
  | .mem pa sm nc _ rm => .mem pa sm nc (fetchHolder core) rm
  | .stash i => .stash i

/-- R300: a pure task fetches inside its code range only. -/
def needPureFetch (va : Word) (s : State) : Except Stop Unit :=
  match s.me.pure with
  | some r => check (inTile va 2 (r.codeVa, r.codeLen)) (.purity va)
  | none => .ok ()

/-- R13: a halfword fetched. -/
def fetchHalf (s : State) (va : Word) : Except Stop (BitVec 16 × State) := do
  needPureFetch va s
  let (p, s) ← reach s s.myCore s.me.tctx va accFetch
  let p := fetchPlace s.myCore p
  let st := readState s.ms p 2
  match st with
  | .uncorr => .error (.memErr accFetch (placeLine p) true va)
  | .poisoned => .error (.memErr accFetch (placeLine p) false va)
  | _ =>
    let s := settleRead s p st
    .ok (BitVec.ofNat 16 (leNat (viewBytes s.ms p 2)), touch s p)

/-- A decoded pattern, or its bits where it decodes to nothing (R22). -/
def fetched (d : Except DecodeError Instr) (bits : Word) (s : State) : Fetched :=
  match d with
  | .ok i => .instr i s
  | .error _ => .illegal bits s

/-- R13: the instruction at the PC of the issuing hart. -/
def fetch (s : State) : Fetched :=
  match fetchHalf s s.me.pc with
  | .error e => .fault e
  | .ok (lo, s) =>
    if isLong lo then
      match fetchHalf s (s.me.pc + 2#64) with
      | .error e => .fault e
      | .ok (hi, s) => fetched (decode32 (hi ++ lo)) ((hi ++ lo).setWidth 64) s
    else fetched (decode16 lo) (lo.setWidth 64) s

/-- R22, R23: a fetched pattern that is no instruction raises ILLEGAL. -/
def execIllegalEncoding (s : State) : Host.Outcome State Fault Refusal :=
  match fetch s with
  | .illegal bits s => .next (trapNow s cIllegal bits)
  | _ => .fault (.noEvent "ILLEGAL_ENCODING")

/-- R13, R24, R162: a fetch that faults. -/
def execInstructionFetchFault (s : State) : Host.Outcome State Fault Refusal :=
  match fetch s with
  | .fault e => .next (stopped s e)
  | _ => .fault (.noEvent "INSTRUCTION_FETCH_FAULT")

/-! ### Pending causes -/

/-- R45, R158: whether a pending cause is taken now: a freezing one always is, another where its level's TE is 1. -/
def takeable (h : Hart) (c : Nat) : Bool := freezes c || h.trapWay c true false != .pending

/-- The pending cause that is taken next: the refusal, then those of thawed freezes, then the others in the order in which they became
pending. -/
inductive Pending where
  | refusal
  | cause (c : Nat) (tval : Word)
  | thawed (c : Nat) (tval : Word)
deriving DecidableEq, Repr

/-- R45: the acknowledgement that recorded the refusal brought UNACK to 0, for which a FENCE, a FENCE.E or a release form waited: that
instruction retires first, however long the loads and stores it also waits for take (notes/assumptions/82.md). -/
def waitEnded (h : Hart) : Bool := h.retires && h.stall.isSome

/-- R45, R159, R299: what the hart takes at its next boundary; a pure activation is delivered no trap. A refusal waits while EXIT or
HEND waits for UNACK 0 (R75, R173), and while the instruction whose wait it ended has not retired (R45). -/
def nextPending (h : Hart) : Option Pending :=
  if h.pure.isSome then none
  else if h.refusal && !(h.stall == some .leave && h.unack != 0) && !waitEnded h && takeable h h.heldCause.toNat then some .refusal
  else
    match h.thawed.find? fun e => h.trapWay e.1 true false != .pending with
    | some e => some (.thawed e.1 e.2)
    | none => (h.pend.find? fun e => takeable h e.1).map fun e => .cause e.1 e.2

/-- The hart without the pending cause it takes. -/
def Hart.dropPending (h : Hart) : Pending → Hart
  | .refusal => { h with refusal := false, retires := false }
  | .cause c v => { h with pend := h.pend.erase (c, v) }
  | .thawed c v => { h with thawed := h.thawed.erase (c, v) }

/-- Cause and value of a pending trap. -/
def Hart.pendingTrap (h : Hart) : Pending → Nat × Word
  | .refusal => (h.heldCause.toNat, h.heldTval)
  | .cause c v => (c, v)
  | .thawed c v => (c, v)

/-- R164: the kind of access of an async cause: ACCESS is a store's, the others are of none. -/
def asyncAcc (c : Nat) : Nat := if c = cAccess then accWrite else 0

/-- R45, R159: a pending refusal or asynchronous cause is taken at an instruction boundary. -/
def execTakePendingTrap (s : State) : Host.Outcome State Fault Refusal :=
  match nextPending s.me with
  | none => .fault (.noEvent "TAKE_PENDING_TRAP")
  | some p =>
    let (c, v) := s.me.pendingTrap p
    let s := s.setMe (s.me.dropPending p)
    match p with
    | .thawed _ _ => .next ((enterTrap s s.cur c v v (asyncAcc c) true false).getD s)
    | _ =>
      if freezes c then .next (freezeHart s s.cur c v v (asyncAcc c) true false)
      else .next ((enterTrap s s.cur c v v (asyncAcc c) true false).getD s)

end Sys2Proof.Machine
end

