-- ==== Sys2Proof/Machine/HartEvents.lean ====
section
/-! DEFINITION. The steps of harts, threads, channels and faults: each performs the oldest event in flight. -/

namespace Sys2Proof.Machine

/-! ### Arrivals, loads and stores -/

/-- R38: PUT_ARRIVAL. -/
def execPutArrival (s : State) : Host.Outcome State Fault Refusal :=
  match s.flight with
  | .putArrival p :: r => .next (landPut { s with flight := r } p)
  | _ => .fault (.noEvent "PUT_ARRIVAL")

/-- R44: ACK_ARRIVAL. -/
def execAckArrival (s : State) : Host.Outcome State Fault Refusal :=
  match s.flight with
  | .ackArrival k :: r => .next (applyAck { s with flight := r } k)
  | _ => .fault (.noEvent "ACK_ARRIVAL")

/-- R36: a moved or exited entry freed once it has expired. -/
def expireDep (s : State) (core k : Nat) : State :=
  if depExpired s (s.core core) ((s.core core).depAt k) then freeDep s core k else s

/-- R36: DEPARTURE_EXPIRY. -/
def execDepartureExpiry (s : State) : Host.Outcome State Fault Refusal :=
  match s.flight with
  | .departureExpiry core k :: r => .next (expireDep { s with flight := r } core k)
  | _ => .fault (.noEvent "DEPARTURE_EXPIRY")

/-- R63: the data of one outstanding load written. -/
def returnLoad (s : State) (h id : Nat) : State :=
  match (s.hart h).loads.find? (·.id == id) with
  | some l => s.setHart h ((s.hart h).finishLoad l)
  | none => s

/-- R63: LOAD_RETURN. -/
def execLoadReturn (s : State) : Host.Outcome State Fault Refusal :=
  match s.flight with
  | .loadReturn h id :: r => .next (returnLoad { s with flight := r } h id)
  | _ => .fault (.noEvent "LOAD_RETURN")

/-- R66: REMOTE_STASH_WRITE. -/
def execRemoteStashWrite (s : State) : Host.Outcome State Fault Refusal :=
  match s.flight with
  | .remoteStashWrite id :: r => .next (performStore { s with flight := r } id)
  | _ => .fault (.noEvent "REMOTE_STASH_WRITE")

/-- R99: STORE_PERFORMED. -/
def execStorePerformed (s : State) : Host.Outcome State Fault Refusal :=
  match s.flight with
  | .storePerformed id :: r => .next (performStore { s with flight := r } id)
  | _ => .fault (.noEvent "STORE_PERFORMED")

/-- R163: a side-log entry whose fault is resolved, replayed. -/
def replayLog (s : State) (core id : Nat) : State :=
  match logEntry s core id with
  | some e => if logReady s core e then replayEntry s core e else s
  | none => s

/-- R163: SIDE_LOG_REPLAY. -/
def execSideLogReplay (s : State) : Host.Outcome State Fault Refusal :=
  match s.flight with
  | .sideLogReplay core id :: r => .next (replayLog { s with flight := r } core id)
  | _ => .fault (.noEvent "SIDE_LOG_REPLAY")

/-- R128: BARRIER_UPDATE. -/
def execBarrierUpdate (s : State) : Host.Outcome State Fault Refusal :=
  match s.flight with
  | .barrierUpdate b :: r => .next (barrierApply { s with flight := r } b)
  | _ => .fault (.noEvent "BARRIER_UPDATE")

/-- R100, R102: SIGNATURE_GENERATION. -/
def execSignatureGeneration (s : State) : Host.Outcome State Fault Refusal :=
  match s.flight with
  | .signatureGeneration :: r => .next (rotateSigs { s with flight := r })
  | _ => .fault (.noEvent "SIGNATURE_GENERATION")

/-- R97, R98: STMAP_WRITE, by the current hart. -/
def execStmapWrite (s : State) : Host.Outcome State Fault Refusal :=
  match s.flight with
  | .stmapWrite k v :: r => .next (setStmap (performOwn { s with flight := r } s.cur) s.cur k.toNat v)
  | _ => .fault (.noEvent "STMAP_WRITE")

/-! ### Threads and launches -/

/-- R87: DIRECT_START. -/
def execDirectStart (s : State) : Host.Outcome State Fault Refusal :=
  match s.flight with
  | .directStart f g pc p q :: r => .next (startDirect { s with flight := r } f g pc p q)
  | _ => .fault (.noEvent "DIRECT_START")

/-- R87: SUBMISSION. -/
def execSubmission (s : State) : Host.Outcome State Fault Refusal :=
  match s.flight with
  | .submission f hdr base arg compl :: r => .next (submit { s with flight := r } f hdr base arg compl)
  | _ => .fault (.noEvent "SUBMISSION")

/-- R88: LAUNCH_RECORD_PROCESS. -/
def execLaunchRecordProcess (s : State) : Host.Outcome State Fault Refusal :=
  match s.flight with
  | .launchRecordProcess die :: r => .next (processRecord { s with flight := r } die)
  | _ => .fault (.noEvent "LAUNCH_RECORD_PROCESS")

/-- R89: a waiting thread starts where its hart allows it. -/
def startWaiting (s : State) (l n : Nat) : State :=
  match Table.find? s.lch.live l with
  | some a => if a.waiting.contains n && canStart s a n then startThread s a n else s
  | none => s

/-- R89: THREAD_START. -/
def execThreadStart (s : State) : Host.Outcome State Fault Refusal :=
  match s.flight with
  | .threadStart l n :: r => .next (startWaiting { s with flight := r } l n)
  | _ => .fault (.noEvent "THREAD_START")

/-- R309: LAUNCH_BUDGET_EXPIRY. -/
def execLaunchBudgetExpiry (s : State) : Host.Outcome State Fault Refusal :=
  match s.flight with
  | .launchBudgetExpiry l :: r => .next (endBudget { s with flight := r } l)
  | _ => .fault (.noEvent "LAUNCH_BUDGET_EXPIRY")

/-! ### Channels and messages -/

/-- R27: HROLE_WRITE. -/
def execHroleWrite (s : State) : Host.Outcome State Fault Refusal :=
  match s.flight with
  | .hroleWrite _ g v :: r => .next (writeRoles { s with flight := r } g v)
  | _ => .fault (.noEvent "HROLE_WRITE")

/-- R142: HANDLER_TABLE_WRITE. -/
def execHandlerTableWrite (s : State) : Host.Outcome State Fault Refusal :=
  match s.flight with
  | .handlerTableWrite w g c hi v :: r => .next (writeHandler { s with flight := r } w g c hi v)
  | _ => .fault (.noEvent "HANDLER_TABLE_WRITE")

/-- R176: SOFTWARE_QUEUE_WRITE. -/
def execSoftwareQueueWrite (s : State) : Host.Outcome State Fault Refusal :=
  match s.flight with
  | .softwareQueueWrite _ g i v :: r => .next (writeSoft { s with flight := r } g i v)
  | _ => .fault (.noEvent "SOFTWARE_QUEUE_WRITE")

/-- R145: a message decided otherwise is deferred no more at a channel that the save area keeps. -/
def undeferSaved (s : State) (e : Nat × Nat) : State :=
  let one := fun (_ : Nat) (c : SavedCore) => { c with chans := Table.mapVals c.chans fun _ a => { a with defer := a.defer.filter (· != e) } }
  { s with plat := { s.plat with saved := Table.mapVals s.plat.saved one } }

/-- R145: the messages deferred at a channel, once a message has been decided there. -/
def noteDeferred (s : State) (m : Msg) (o : MsgOutcome) : State :=
  let s := if o == .deferred then s else undeferSaved s (m.srcNode, m.id)
  let k := s.core m.dstCore
  let a := k.chan m.chan.toNat
  let e := (m.srcNode, m.id)
  if (o == .deferred) == a.defer.contains e then s
  else s.setCore m.dstCore (k.setChan m.chan.toNat { a with defer := if o == .deferred then e :: a.defer else a.defer.filter (· != e) })

/-- R143: a message decided at its destination, its slot written where it is accepted. -/
def arriveMsg (s : State) (m : Msg) : State :=
  let o := decideMsg s m.dstCore m
  let s := noteDeferred s m o
  let s := if o = .accepted then kickDispatch (acceptSlot s m.dstCore m.chan m.words) m.dstCore else s
  sendOutcome s m o

/-- R143: a deferred message offered again. -/
def offerAgain (s : State) (m : Msg) : State :=
  if m.dstNode = s.plat.node.toNat then arriveMsg s m else sendPacket s m.dstNode (msgNet m) (.msg m)

/-- R170: the status of a message written to its sender, resident or saved; dropped once it has ended. -/
def statusMsg (s : State) (m : Msg) (code : Nat) : State :=
  match m.status with
  | none => s
  | some r =>
    if r = 0#5 then s
    else
      match whereIs s (slotOf m.srcCore m.srcHart) m.srcTag with
      | .resident h =>
        let a := (s.hart h).wx r (BitVec.ofNat 64 code)
        s.setHart h { a with landCnt := a.landCnt + 1, idle := false }
      | .saved _ _ pa =>
        let s := imgOr (setSaveNat s (pa + 8 * r.toNat) 8 code) (pa + 0x100) 4 (2 ^ r.toNat)
        setSaveNat s (pa + 0x130) 8 (saveNat s (pa + 0x130) 8 + 1)
      | _ => s

/-- R152: a returned message waits for channel 1 of its sender's core, its entry claimed. -/
def queueReturned (s : State) (m : Msg) (reason : Nat) : State :=
  let s := markReturned s m
  let k := s.core m.srcCore
  kickReturned (s.setCore m.srcCore { k with retbuf := k.retbuf ++ [⟨m, reason, s.time.toNat % 2 ^ 32⟩] }) m.srcCore

/-- R152, R170: the outcome of a message at its sender. -/
def takeOutcome (s : State) (m : Msg) (o : MsgOutcome) : State :=
  match o with
  | .accepted => offerNext (closeMsg (statusMsg s m 0) m) m
  | .deferred => s.fly (.messageReoffer m)
  | .returned c =>
    let s := countAt s (slotOf m.srcCore m.srcHart) m.srcTag evReturned 1
    if m.isStatus then offerNext (closeMsg (statusMsg s m c) m) m else offerNext (queueReturned s m c) m

/-- R143: MESSAGE_ARRIVAL. -/
def execMessageArrival (s : State) : Host.Outcome State Fault Refusal :=
  match s.flight with
  | .messageArrival k :: r => .next (arriveMsg { s with flight := r } k)
  | _ => .fault (.noEvent "MESSAGE_ARRIVAL")

/-- R143: MESSAGE_REOFFER. -/
def execMessageReoffer (s : State) : Host.Outcome State Fault Refusal :=
  match s.flight with
  | .messageReoffer k :: r => .next (offerAgain { s with flight := r } k)
  | _ => .fault (.noEvent "MESSAGE_REOFFER")

/-- R170: MESSAGE_OUTCOME. -/
def execMessageOutcome (s : State) : Host.Outcome State Fault Refusal :=
  match s.flight with
  | .messageOutcome k o :: r => .next (takeOutcome { s with flight := r } k o)
  | _ => .fault (.noEvent "MESSAGE_OUTCOME")

/-- R152: the oldest returned message enters channel 1 where it has room. -/
def drainReturned (s : State) (core : Nat) : State :=
  let k := s.core core
  match k.retbuf with
  | m :: rest =>
    if retOpen s core then kickReturned (enterReturned (s.setCore core { k with retbuf := rest }) core m) core else s
  | [] => s

/-- R152: RETURN_BUFFER_DRAIN. -/
def execReturnBufferDrain (s : State) : Host.Outcome State Fault Refusal :=
  match s.flight with
  | .returnBufferDrain core :: r => .next (drainReturned { s with flight := r } core)
  | _ => .fault (.noEvent "RETURN_BUFFER_DRAIN")

/-- R146: the activation of a channel starts on the hart it takes. -/
def dispatchChannel (s : State) (core : Nat) (c : Option Nat) : State :=
  match c with
  | none => s
  | some c =>
    match dispatchHart s core c with
    | some h => startActivation s core h c
    | none => s

/-- R146, R298: the activation dispatched next: of channel 0, of a missed PTASK, of another channel. -/
def dispatchNext (s : State) (core : Nat) : State :=
  let c := nextChannel s core
  let s :=
    if c = some 0 || !coreRuns s core then dispatchChannel s core c
    else
      match taskWaiting s core, freeHandler s core with
      | some d, some h => startPure s core h d
      | _, _ => dispatchChannel s core c
  kickDispatch s core

/-- R146, R298: ACTIVATION_DISPATCH. -/
def execActivationDispatch (s : State) : Host.Outcome State Fault Refusal :=
  match s.flight with
  | .activationDispatch core :: r => .next (dispatchNext { s with flight := r } core)
  | _ => .fault (.noEvent "ACTIVATION_DISPATCH")

/-- R149: WATCHDOG_EXPIRY. -/
def execWatchdogExpiry (s : State) : Host.Outcome State Fault Refusal :=
  match s.flight with
  | .watchdogExpiry h :: r => .next (watchdogOut { s with flight := r } h)
  | _ => .fault (.noEvent "WATCHDOG_EXPIRY")

/-- R149: WATCHDOG_KILL. -/
def execWatchdogKill (s : State) : Host.Outcome State Fault Refusal :=
  match s.flight with
  | .watchdogKill h :: r => .next (watchdogEnd { s with flight := r } h)
  | _ => .fault (.noEvent "WATCHDOG_KILL")

/-! ### Faults -/

/-- R164: RING_RECORD_WRITE. -/
def execRingRecordWrite (s : State) : Host.Outcome State Fault Refusal :=
  match s.flight with
  | .ringRecordWrite f ring :: r => .next (writeRecord { s with flight := r } f ring)
  | _ => .fault (.noEvent "RING_RECORD_WRITE")

/-- R165: FAULTRES_RETRY. -/
def execFaultresRetry (s : State) : Host.Outcome State Fault Refusal :=
  match s.flight with
  | .faultresRetry f fid :: r => .next (resolve { s with flight := r } f fid retryRecord)
  | _ => .fault (.noEvent "FAULTRES_RETRY")

/-- R165: FAULTRES_TERMINAL. -/
def execFaultresTerminal (s : State) : Host.Outcome State Fault Refusal :=
  match s.flight with
  | .faultresTerminal f fid :: r => .next (resolve { s with flight := r } f fid failRecord)
  | _ => .fault (.noEvent "FAULTRES_TERMINAL")

/-- R167: FRZ_THAW_HART; a writer below H-mode is ignored. -/
def execFrzThawHart (s : State) : Host.Outcome State Fault Refusal :=
  match s.flight with
  | .frzThawHart w g k :: r => .next (if mayThaw w then thawHart { s with flight := r } (slotOf g k) else { s with flight := r })
  | _ => .fault (.noEvent "FRZ_THAW_HART")

/-- R167: FRZ_THAW_CQ. -/
def execFrzThawCq (s : State) : Host.Outcome State Fault Refusal :=
  match s.flight with
  | .frzThawCq w g k :: r => .next (if mayThaw w then thawQueue { s with flight := r } g k else { s with flight := r })
  | _ => .fault (.noEvent "FRZ_THAW_CQ")

/-- R167: FRZKILL_HART. -/
def execFrzkillHart (s : State) : Host.Outcome State Fault Refusal :=
  match s.flight with
  | .frzkillHart w g k :: r => .next (if mayThaw w then killFrozen { s with flight := r } (slotOf g k) else { s with flight := r })
  | _ => .fault (.noEvent "FRZKILL_HART")

/-- R167: FRZKILL_CQ. -/
def execFrzkillCq (s : State) : Host.Outcome State Fault Refusal :=
  match s.flight with
  | .frzkillCq w g k :: r => .next (if mayThaw w then killQueue { s with flight := r } g k else { s with flight := r })
  | _ => .fault (.noEvent "FRZKILL_CQ")

end Sys2Proof.Machine
end

