-- ==== Sys2Proof/Machine/FabricEvents.lean ====
section
/-! DEFINITION. The steps of the links, the fabric, connections and Yarrow. -/

namespace Sys2Proof.Machine

/-! ### Links (R187 to R190, R323) -/

/-- R187: LINK_REPLAY. -/
def execLinkReplay (s : State) : Host.Outcome State Fault Refusal :=
  match s.flight with
  | .linkReplay k crc f :: r => .next (replayLink { s with flight := r } k crc f)
  | _ => .fault (.noEvent "LINK_REPLAY")

/-- R188: LANE_SPARE. -/
def execLaneSpare (s : State) : Host.Outcome State Fault Refusal :=
  match s.flight with
  | .laneSpare k lane :: r => .next (spareLane { s with flight := r } k lane)
  | _ => .fault (.noEvent "LANE_SPARE")

/-- R189: LINK_PEER_SIGNAL. -/
def execLinkPeerSignal (s : State) : Host.Outcome State Fault Refusal :=
  match s.flight with
  | .linkPeerSignal k :: r => .next (moveLink { s with flight := r } k 0 1)
  | _ => .fault (.noEvent "LINK_PEER_SIGNAL")

/-- R189: LINK_TRAINED. -/
def execLinkTrained (s : State) : Host.Outcome State Fault Refusal :=
  match s.flight with
  | .linkTrained k ok peer spared :: r => .next (trainLink { s with flight := r } k ok peer spared)
  | _ => .fault (.noEvent "LINK_TRAINED")

/-- R189: LINK_PEER_SILENT. -/
def execLinkPeerSilent (s : State) : Host.Outcome State Fault Refusal :=
  match s.flight with
  | .linkPeerSilent k :: r => .next (silentLink { s with flight := r } k)
  | _ => .fault (.noEvent "LINK_PEER_SILENT")

/-- R189: LINK_QUIESCED. -/
def execLinkQuiesced (s : State) : Host.Outcome State Fault Refusal :=
  match s.flight with
  | .linkQuiesced k :: r => .next (quiesceLink { s with flight := r } k)
  | _ => .fault (.noEvent "LINK_QUIESCED")

/-- R189, R323: LNKCMD_QUIESCE. -/
def execLnkcmdQuiesce (s : State) : Host.Outcome State Fault Refusal :=
  match s.flight with
  | .lnkcmdQuiesce k :: r => .next (kickQuiesced (moveLink { s with flight := r } k 2 3) k)
  | _ => .fault (.noEvent "LNKCMD_QUIESCE")

/-- R189, R323: LNKCMD_DETACH. -/
def execLnkcmdDetach (s : State) : Host.Outcome State Fault Refusal :=
  match s.flight with
  | .lnkcmdDetach k :: r => .next (moveLink { s with flight := r } k 4 5)
  | _ => .fault (.noEvent "LNKCMD_DETACH")

/-- R189, R323: LNKCMD_RESUME. -/
def execLnkcmdResume (s : State) : Host.Outcome State Fault Refusal :=
  match s.flight with
  | .lnkcmdResume k :: r => .next (moveLink { s with flight := r } k 4 2)
  | _ => .fault (.noEvent "LNKCMD_RESUME")

/-- R189, R323: LNKCMD_REATTACH. -/
def execLnkcmdReattach (s : State) : Host.Outcome State Fault Refusal :=
  match s.flight with
  | .lnkcmdReattach k :: r => .next (moveLink { s with flight := r } k 5 1)
  | _ => .fault (.noEvent "LNKCMD_REATTACH")

/-! ### Packets (R191, R192) -/

/-- R191: FABRIC_PACKET_RECEIVE. -/
def execFabricPacketReceive (s : State) : Host.Outcome State Fault Refusal :=
  match s.flight with
  | .fabricPacketReceive f n p :: r => .next (receivePacket { s with flight := r } f n p)
  | _ => .fault (.noEvent "FABRIC_PACKET_RECEIVE")

/-- R191: PACKET_RETRANSMIT. -/
def execPacketRetransmit (s : State) : Host.Outcome State Fault Refusal :=
  match s.flight with
  | .packetRetransmit f n :: r => .next (resendPacket { s with flight := r } f n)
  | _ => .fault (.noEvent "PACKET_RETRANSMIT")

/-- R192: an element leaves the adaptive routing tables. -/
def removeElem (s : State) (e : Elem) : State :=
  if s.fab.removed.contains e then s else { s with fab := { s.fab with removed := e :: s.fab.removed } }

/-- R192: ROUTE_REMOVAL. -/
def execRouteRemoval (s : State) : Host.Outcome State Fault Refusal :=
  match s.flight with
  | .routeRemoval e :: r => .next (removeElem { s with flight := r } e)
  | _ => .fault (.noEvent "ROUTE_REMOVAL")

/-- R192: PEER_LOST. -/
def execPeerLost (s : State) : Host.Outcome State Fault Refusal :=
  match s.flight with
  | .peerLost n :: r => .next (losePeer { s with flight := r } n)
  | _ => .fault (.noEvent "PEER_LOST")

/-! ### Connections and Yarrow (R181 to R185, R195, R199 to R201) -/

/-- R195: CONNECTION_WRITE. -/
def execConnectionWrite (s : State) : Host.Outcome State Fault Refusal :=
  match s.flight with
  | .connectionWrite w c v :: r => .next (writeConn { s with flight := r } w c v)
  | _ => .fault (.noEvent "CONNECTION_WRITE")

/-- R183: FABRIC_COMMAND_COMPLETE. -/
def execFabricCommandComplete (s : State) : Host.Outcome State Fault Refusal :=
  match s.flight with
  | .fabricCommandComplete c id code data fl :: r => .next (commandComplete { s with flight := r } c id code data fl)
  | _ => .fault (.noEvent "FABRIC_COMMAND_COMPLETE")

/-- R199 to R201: YARROW_SEND_ARRIVAL. -/
def execYarrowSendArrival (s : State) : Host.Outcome State Fault Refusal :=
  match s.flight with
  | .yarrowSendArrival k :: r => .next (sendArrives { s with flight := r } k)
  | _ => .fault (.noEvent "YARROW_SEND_ARRIVAL")

/-- R200: RENDEZVOUS_PULL. -/
def execRendezvousPull (s : State) : Host.Outcome State Fault Refusal :=
  match s.flight with
  | .rendezvousPull c ref ok data :: r => .next (pullEnds { s with flight := r } c ref ok data)
  | _ => .fault (.noEvent "RENDEZVOUS_PULL")

/-- R201: NSEND_RETRY. -/
def execNsendRetry (s : State) : Host.Outcome State Fault Refusal :=
  match s.flight with
  | .nsendRetry c :: r => .next (retrySend { s with flight := r } c)
  | _ => .fault (.noEvent "NSEND_RETRY")

/-- R203: ASSIGN_QUEUE_WRITE. -/
def execAssignQueueWrite (s : State) : Host.Outcome State Fault Refusal :=
  match s.flight with
  | .assignQueueWrite w die q k v :: r => .next (writeAssign { s with flight := r } w die q k v)
  | _ => .fault (.noEvent "ASSIGN_QUEUE_WRITE")

end Sys2Proof.Machine
end

