-- ==== Sys2Proof/Machine/EngineEvents.lean ====
section
/-! DEFINITION. The steps of the engines, Clover and Chicory. -/

namespace Sys2Proof.Machine

/-! ### Commands and leave (R251, R253, R255) -/

/-- R251: ENGINE_COMMAND_START. -/
def execEngineCommandStart (s : State) : Host.Outcome State Fault Refusal :=
  match s.flight with
  | .engineCommandStart e :: r => .next (engineStart { s with flight := r } e)
  | _ => .fault (.noEvent "ENGINE_COMMAND_START")

/-- R253: COPY_PIECE_DONE. -/
def execCopyPieceDone (s : State) : Host.Outcome State Fault Refusal :=
  match s.flight with
  | .copyPieceDone core q :: r => .next (pieceDone { s with flight := r } core q)
  | _ => .fault (.noEvent "COPY_PIECE_DONE")

/-- R255: LEAVE_GRANT. -/
def execLeaveGrant (s : State) : Host.Outcome State Fault Refusal :=
  match s.flight with
  | .leaveGrant die :: r => .next (grantLeave { s with flight := r } die)
  | _ => .fault (.noEvent "LEAVE_GRANT")

/-- R321: CLOVER_REFILL. -/
def execCloverRefill (s : State) : Host.Outcome State Fault Refusal :=
  match s.flight with
  | .cloverRefill ext :: r => .next (refillPools { s with flight := r } ext)
  | _ => .fault (.noEvent "CLOVER_REFILL")

/-- R254: LANDING_HANDLER_START. -/
def execLandingHandlerStart (s : State) : Host.Outcome State Fault Refusal :=
  match s.flight with
  | .landingHandlerStart k :: r => .next (landingArrival { s with flight := r } k)
  | _ => .fault (.noEvent "LANDING_HANDLER_START")

/-! ### The matrix unit (R243, R244, R250) -/

/-- R243: MATRIX_STEP_COMPLETE. -/
def execMatrixStepComplete (s : State) : Host.Outcome State Fault Refusal :=
  match s.flight with
  | .matrixStepComplete cl :: r => .next (unitStep { s with flight := r } cl)
  | _ => .fault (.noEvent "MATRIX_STEP_COMPLETE")

/-- R250: ARRAY_GATE. -/
def execArrayGate (s : State) : Host.Outcome State Fault Refusal :=
  match s.flight with
  | .arrayGate cl k :: r => .next (gateQuarter { s with flight := r } cl k)
  | _ => .fault (.noEvent "ARRAY_GATE")

/-- R250: ARRAY_WAKE_DONE. -/
def execArrayWakeDone (s : State) : Host.Outcome State Fault Refusal :=
  match s.flight with
  | .arrayWakeDone cl :: r => .next (wakeDone { s with flight := r } cl)
  | _ => .fault (.noEvent "ARRAY_WAKE_DONE")

/-- R244: MXWT_WRITE. -/
def execMxwtWrite (s : State) : Host.Outcome State Fault Refusal :=
  match s.flight with
  | .mxwtWrite w v :: r => .next (writeMxwt { s with flight := r } w v)
  | _ => .fault (.noEvent "MXWT_WRITE")

/-- R250: MXIDLE_WRITE. -/
def execMxidleWrite (s : State) : Host.Outcome State Fault Refusal :=
  match s.flight with
  | .mxidleWrite w v :: r => .next (writeMxidle { s with flight := r } w v)
  | _ => .fault (.noEvent "MXIDLE_WRITE")

/-! ### Chicory (R281, R283) -/

/-- R281: CHICORY_LOOKUP. -/
def execChicoryLookup (s : State) : Host.Outcome State Fault Refusal :=
  match s.flight with
  | .chicoryLookup core :: r => .next (taskLookup { s with flight := r } core)
  | _ => .fault (.noEvent "CHICORY_LOOKUP")

/-- R283: the entries that source a frame dropped or voided. -/
def invalidate (s : State) (f : Nat) : State := { s with reuse := invalFrame s.reuse f }

/-- R283: CHICORY_INVALIDATION. -/
def execChicoryInvalidation (s : State) : Host.Outcome State Fault Refusal :=
  match s.flight with
  | .chicoryInvalidation f :: r => .next (invalidate { s with flight := r } f)
  | _ => .fault (.noEvent "CHICORY_INVALIDATION")

end Sys2Proof.Machine
end

