-- ==== Sys2Proof/Machine/PlatformEvents.lean ====
section
/-! DEFINITION. The steps of the platform: registers, partitions, start-up, power, the tray. -/

namespace Sys2Proof.Machine

/-! ### Registers -/

/-- R6: REGISTER_WRITE. -/
def execRegisterWrite (s : State) : Host.Outcome State Fault Refusal :=
  match s.flight with
  | .registerWrite port off v :: r => .next (writeRegister { s with flight := r } port off v)
  | _ => .fault (.noEvent "REGISTER_WRITE")

/-- R285: CLASS_MAP_WRITE. -/
def execClassMapWrite (s : State) : Host.Outcome State Fault Refusal :=
  match s.flight with
  | .classMapWrite w f v :: r => .next (writeClass { s with flight := r } w f v)
  | _ => .fault (.noEvent "CLASS_MAP_WRITE")

/-- R314: RING_ENABLE. -/
def execRingEnable (s : State) : Host.Outcome State Fault Refusal :=
  match s.flight with
  | .ringEnable f ring v :: r => .next (enableRing { s with flight := r } f ring v)
  | _ => .fault (.noEvent "RING_ENABLE")

/-- R314: RING_RD_WRITE. -/
def execRingRdWrite (s : State) : Host.Outcome State Fault Refusal :=
  match s.flight with
  | .ringRdWrite f ring v :: r => .next (writeRd { s with flight := r } f ring v)
  | _ => .fault (.noEvent "RING_RD_WRITE")

/-- R315: VF_THAW. -/
def execVfThaw (s : State) : Host.Outcome State Fault Refusal :=
  match s.flight with
  | .vfThaw mask :: r => .next (thawVfs { s with flight := r } mask)
  | _ => .fault (.noEvent "VF_THAW")

/-- R315: VF_KILL. -/
def execVfKill (s : State) : Host.Outcome State Fault Refusal :=
  match s.flight with
  | .vfKill mask :: r => .next (killVfs { s with flight := r } mask)
  | _ => .fault (.noEvent "VF_KILL")

/-- R316: FEATACC_WRITE. -/
def execFeataccWrite (s : State) : Host.Outcome State Fault Refusal :=
  match s.flight with
  | .feataccWrite k v :: r => .next (writeFeat { s with flight := r } k v)
  | _ => .fault (.noEvent "FEATACC_WRITE")

/-- R318: NODEID_WRITE. -/
def execNodeidWrite (s : State) : Host.Outcome State Fault Refusal :=
  match s.flight with
  | .nodeidWrite v :: r => .next (writeNode { s with flight := r } v)
  | _ => .fault (.noEvent "NODEID_WRITE")

/-! ### Partitions (R49, R50, R294, R306 to R309) -/

/-- R306: PARTITION_WRITE. -/
def execPartitionWrite (s : State) : Host.Outcome State Fault Refusal :=
  match s.flight with
  | .partitionWrite w p k v :: r => .next (writePart { s with flight := r } w p k v)
  | _ => .fault (.noEvent "PARTITION_WRITE")

/-- R307: SLICE_END. -/
def execSliceEnd (s : State) : Host.Outcome State Fault Refusal :=
  match s.flight with
  | .sliceEnd p :: r => .next (beginSlice { s with flight := r } p)
  | _ => .fault (.noEvent "SLICE_END")

/-- R49: SLICE_END_DONE. -/
def execSliceEndDone (s : State) : Host.Outcome State Fault Refusal :=
  match s.flight with
  | .sliceEndDone p :: r => .next (endSlice { s with flight := r } p)
  | _ => .fault (.noEvent "SLICE_END_DONE")

/-- R307: RESTORE. -/
def execRestore (s : State) : Host.Outcome State Fault Refusal :=
  match s.flight with
  | .restore p :: r => .next (beginRestore { s with flight := r } p)
  | _ => .fault (.noEvent "RESTORE")

/-- R50: RESTORE_DONE. -/
def execRestoreDone (s : State) : Host.Outcome State Fault Refusal :=
  match s.flight with
  | .restoreDone p :: r => .next (endRestore { s with flight := r } p)
  | _ => .fault (.noEvent "RESTORE_DONE")

/-- R307: TEARDOWN. -/
def execTeardown (s : State) : Host.Outcome State Fault Refusal :=
  match s.flight with
  | .teardown p :: r => .next (tearDown { s with flight := r } p)
  | _ => .fault (.noEvent "TEARDOWN")

/-- R306, R309: TBU_TICK. -/
def execTbuTick (s : State) : Host.Outcome State Fault Refusal :=
  match s.flight with
  | .tbuTick :: r => .next (tbuPass { s with flight := r })
  | _ => .fault (.noEvent "TBU_TICK")

/-- R294: EBUDGET_WINDOW. -/
def execEbudgetWindow (s : State) : Host.Outcome State Fault Refusal :=
  match s.flight with
  | .ebudgetWindow p :: r => .next (newWindow { s with flight := r } p)
  | _ => .fault (.noEvent "EBUDGET_WINDOW")

/-! ### The package -/

/-- R317: BOOT. -/
def execBoot (s : State) : Host.Outcome State Fault Refusal :=
  match s.flight with
  | .boot fail node :: r => .next (bootUp { s with flight := r } fail node)
  | _ => .fault (.noEvent "BOOT")

/-- R319: ATTNONCE_WRITE. -/
def execAttnonceWrite (s : State) : Host.Outcome State Fault Refusal :=
  match s.flight with
  | .attnonceWrite n :: r => .next (writeNonce { s with flight := r } n)
  | _ => .fault (.noEvent "ATTNONCE_WRITE")

/-- R319: the report is readable. -/
def reportDone (s : State) : State := { s with plat := { s.plat with report := true } }

/-- R319: ATTESTATION_REPORT_DONE. -/
def execAttestationReportDone (s : State) : Host.Outcome State Fault Refusal :=
  match s.flight with
  | .attestationReportDone :: r => .next (reportDone { s with flight := r })
  | _ => .fault (.noEvent "ATTESTATION_REPORT_DONE")

/-- R293: LOCKSTEP_MISMATCH. -/
def execLockstepMismatch (s : State) : Host.Outcome State Fault Refusal :=
  match s.flight with
  | .lockstepMismatch k :: r => .next (mismatch { s with flight := r } k)
  | _ => .fault (.noEvent "LOCKSTEP_MISMATCH")

/-- R322: EMTHROT_ASSERT. -/
def execEmthrotAssert (s : State) : Host.Outcome State Fault Refusal :=
  match s.flight with
  | .emthrotAssert :: r => .next (throttleOn { s with flight := r })
  | _ => .fault (.noEvent "EMTHROT_ASSERT")

/-- R322: EMTHROT_RELEASE. -/
def execEmthrotRelease (s : State) : Host.Outcome State Fault Refusal :=
  match s.flight with
  | .emthrotRelease :: r => .next (throttleOff { s with flight := r })
  | _ => .fault (.noEvent "EMTHROT_RELEASE")

/-- R323: the tray presence input goes high. -/
def trayHigh (s : State) : State := { s with plat := { s.plat with trayHigh := true } }

/-- R323: TRAYPRES_N_HIGH. -/
def execTraypresNHigh (s : State) : Host.Outcome State Fault Refusal :=
  match s.flight with
  | .traypresNHigh :: r => .next (trayHigh { s with flight := r })
  | _ => .fault (.noEvent "TRAYPRES_N_HIGH")

/-- R324: I3C_PRIVATE_WRITE. -/
def execI3cPrivateWrite (s : State) : Host.Outcome State Fault Refusal :=
  match s.flight with
  | .i3cPrivateWrite off v :: r => .next (i3cWrite { s with flight := r } off v)
  | _ => .fault (.noEvent "I3C_PRIVATE_WRITE")

/-- R324: I3C_PRIVATE_READ. -/
def execI3cPrivateRead (s : State) : Host.Outcome State Fault Refusal :=
  match s.flight with
  | .i3cPrivateRead :: r => .next (i3cRead { s with flight := r })
  | _ => .fault (.noEvent "I3C_PRIVATE_READ")

/-- R324: I3C_BROADCAST_CAP. -/
def execI3cBroadcastCap (s : State) : Host.Outcome State Fault Refusal :=
  match s.flight with
  | .i3cBroadcastCap g cap :: r => .next (i3cCap { s with flight := r } g cap)
  | _ => .fault (.noEvent "I3C_BROADCAST_CAP")

end Sys2Proof.Machine
end

