-- ==== Sys2Proof/Machine/Dispatch.lean ====
section
/-! DEFINITION. The dispatch: one arm for every row of the opcode table, each one call of its meaning. -/

namespace Sys2Proof.Machine

open Sys2Proof

/-- The meaning of an instruction or step. -/
def exec (i : Instr) (s : State) : Host.Outcome State Fault Refusal :=
  match i with
  | .add d a b => Sys2Proof.Machine.execAdd d a b s
  | .sub d a b => Sys2Proof.Machine.execSub d a b s
  | .min d a b => Sys2Proof.Machine.execMin d a b s
  | .max d a b => Sys2Proof.Machine.execMax d a b s
  | .minu d a b => Sys2Proof.Machine.execMinu d a b s
  | .maxu d a b => Sys2Proof.Machine.execMaxu d a b s
  | .slt d a b => Sys2Proof.Machine.execSlt d a b s
  | .sltu d a b => Sys2Proof.Machine.execSltu d a b s
  | .and d a b => Sys2Proof.Machine.execAnd d a b s
  | .or d a b => Sys2Proof.Machine.execOr d a b s
  | .xor d a b => Sys2Proof.Machine.execXor d a b s
  | .andn d a b => Sys2Proof.Machine.execAndn d a b s
  | .orn d a b => Sys2Proof.Machine.execOrn d a b s
  | .xnor d a b => Sys2Proof.Machine.execXnor d a b s
  | .sll d a b => Sys2Proof.Machine.execSll d a b s
  | .srl d a b => Sys2Proof.Machine.execSrl d a b s
  | .sra d a b => Sys2Proof.Machine.execSra d a b s
  | .rol d a b => Sys2Proof.Machine.execRol d a b s
  | .ror d a b => Sys2Proof.Machine.execRor d a b s
  | .mul d a b => Sys2Proof.Machine.execMul d a b s
  | .mulh d a b => Sys2Proof.Machine.execMulh d a b s
  | .mulhu d a b => Sys2Proof.Machine.execMulhu d a b s
  | .div d a b => Sys2Proof.Machine.execDiv d a b s
  | .divu d a b => Sys2Proof.Machine.execDivu d a b s
  | .rem d a b => Sys2Proof.Machine.execRem d a b s
  | .remu d a b => Sys2Proof.Machine.execRemu d a b s
  | .clz d a => Sys2Proof.Machine.execClz d a s
  | .ctz d a => Sys2Proof.Machine.execCtz d a s
  | .popc d a => Sys2Proof.Machine.execPopc d a s
  | .brev d a => Sys2Proof.Machine.execBrev d a s
  | .bext d a b => Sys2Proof.Machine.execBext d a b s
  | .bins d a b => Sys2Proof.Machine.execBins d a b s
  | .addi d a imm => Sys2Proof.Machine.execAddi d a imm s
  | .andi d a imm => Sys2Proof.Machine.execAndi d a imm s
  | .ori d a imm => Sys2Proof.Machine.execOri d a imm s
  | .xori d a imm => Sys2Proof.Machine.execXori d a imm s
  | .slli d a imm => Sys2Proof.Machine.execSlli d a imm s
  | .srli d a imm => Sys2Proof.Machine.execSrli d a imm s
  | .srai d a imm => Sys2Proof.Machine.execSrai d a imm s
  | .slti d a imm => Sys2Proof.Machine.execSlti d a imm s
  | .lih d imm => Sys2Proof.Machine.execLih d imm s
  | .lpc d imm => Sys2Proof.Machine.execLpc d imm s
  | .beq a b o => Sys2Proof.Machine.execBeq a b o s
  | .bne a b o => Sys2Proof.Machine.execBne a b o s
  | .blt a b o => Sys2Proof.Machine.execBlt a b o s
  | .bge a b o => Sys2Proof.Machine.execBge a b o s
  | .bltu a b o => Sys2Proof.Machine.execBltu a b o s
  | .bgeu a b o => Sys2Proof.Machine.execBgeu a b o s
  | .brdy a o => Sys2Proof.Machine.execBrdy a o s
  | .bnrdy a o => Sys2Proof.Machine.execBnrdy a o s
  | .jl d imm => Sys2Proof.Machine.execJl d imm s
  | .jlr d a imm => Sys2Proof.Machine.execJlr d a imm s
  | .ldB d a imm => Sys2Proof.Machine.execLdB d a imm s
  | .ldH d a imm => Sys2Proof.Machine.execLdH d a imm s
  | .ldW d a imm => Sys2Proof.Machine.execLdW d a imm s
  | .ldD d a imm => Sys2Proof.Machine.execLdD d a imm s
  | .lduB d a imm => Sys2Proof.Machine.execLduB d a imm s
  | .lduH d a imm => Sys2Proof.Machine.execLduH d a imm s
  | .lduW d a imm => Sys2Proof.Machine.execLduW d a imm s
  | .ldT d a imm => Sys2Proof.Machine.execLdT d a imm s
  | .stB a b imm => Sys2Proof.Machine.execStB a b imm s
  | .stH a b imm => Sys2Proof.Machine.execStH a b imm s
  | .stW a b imm => Sys2Proof.Machine.execStW a b imm s
  | .stD a b imm => Sys2Proof.Machine.execStD a b imm s
  | .stT a b imm => Sys2Proof.Machine.execStT a b imm s
  | .ldAq d a => Sys2Proof.Machine.execLdAq d a s
  | .stRl a b => Sys2Proof.Machine.execStRl a b s
  | .ldto a b => Sys2Proof.Machine.execLdto a b s
  | .ldtoW a b => Sys2Proof.Machine.execLdtoW a b s
  | .amoswapW d a b q r => Sys2Proof.Machine.execAmoswapW d a b q r s
  | .amoswapD d a b q r => Sys2Proof.Machine.execAmoswapD d a b q r s
  | .amoaddW d a b q r => Sys2Proof.Machine.execAmoaddW d a b q r s
  | .amoaddD d a b q r => Sys2Proof.Machine.execAmoaddD d a b q r s
  | .amoandW d a b q r => Sys2Proof.Machine.execAmoandW d a b q r s
  | .amoandD d a b q r => Sys2Proof.Machine.execAmoandD d a b q r s
  | .amoorW d a b q r => Sys2Proof.Machine.execAmoorW d a b q r s
  | .amoorD d a b q r => Sys2Proof.Machine.execAmoorD d a b q r s
  | .amoxorW d a b q r => Sys2Proof.Machine.execAmoxorW d a b q r s
  | .amoxorD d a b q r => Sys2Proof.Machine.execAmoxorD d a b q r s
  | .amominW d a b q r => Sys2Proof.Machine.execAmominW d a b q r s
  | .amominD d a b q r => Sys2Proof.Machine.execAmominD d a b q r s
  | .amomaxW d a b q r => Sys2Proof.Machine.execAmomaxW d a b q r s
  | .amomaxD d a b q r => Sys2Proof.Machine.execAmomaxD d a b q r s
  | .amominuW d a b q r => Sys2Proof.Machine.execAmominuW d a b q r s
  | .amominuD d a b q r => Sys2Proof.Machine.execAmominuD d a b q r s
  | .amomaxuW d a b q r => Sys2Proof.Machine.execAmomaxuW d a b q r s
  | .amomaxuD d a b q r => Sys2Proof.Machine.execAmomaxuD d a b q r s
  | .amocasW d a b q r => Sys2Proof.Machine.execAmocasW d a b q r s
  | .amocasD d a b q r => Sys2Proof.Machine.execAmocasD d a b q r s
  | .amofaddW d a b q r => Sys2Proof.Machine.execAmofaddW d a b q r s
  | .barexp a n => Sys2Proof.Machine.execBarexp a n s
  | .bararr a n => Sys2Proof.Machine.execBararr a n s
  | .barwait d a n => Sys2Proof.Machine.execBarwait d a n s
  | .rput a b r => Sys2Proof.Machine.execRput a b r s
  | .rputS d a b r => Sys2Proof.Machine.execRputS d a b r s
  | .rputv a b r => Sys2Proof.Machine.execRputv a b r s
  | .rputvS d a b r => Sys2Proof.Machine.execRputvS d a b r s
  | .arm d => Sys2Proof.Machine.execArm d s
  | .armv d => Sys2Proof.Machine.execArmv d s
  | .msend a b c => Sys2Proof.Machine.execMsend a b c s
  | .msendS d a b c => Sys2Proof.Machine.execMsendS d a b c s
  | .callat d a b => Sys2Proof.Machine.execCallat d a b s
  | .hmask a => Sys2Proof.Machine.execHmask a s
  | .hunmask a => Sys2Proof.Machine.execHunmask a s
  | .qpop h x imm => Sys2Proof.Machine.execQpop h x imm s
  | .qadv h x imm => Sys2Proof.Machine.execQadv h x imm s
  | .qcnt d h x => Sys2Proof.Machine.execQcnt d h x s
  | .qcfg h a x => Sys2Proof.Machine.execQcfg h a x s
  | .qwait h x imm => Sys2Proof.Machine.execQwait h x imm s
  | .csrr d x c => Sys2Proof.Machine.execCsrr d x c s
  | .csrw d a c => Sys2Proof.Machine.execCsrw d a c s
  | .csrs d a c => Sys2Proof.Machine.execCsrs d a c s
  | .csrc d a c => Sys2Proof.Machine.execCsrc d a c s
  | .tlbinvAll x y => Sys2Proof.Machine.execTlbinvAll x y s
  | .tlbinvAsid a y => Sys2Proof.Machine.execTlbinvAsid a y s
  | .tlbinvVa a y => Sys2Proof.Machine.execTlbinvVa a y s
  | .tlbinvStage2 a y => Sys2Proof.Machine.execTlbinvStage2 a y s
  | .park a => Sys2Proof.Machine.execPark a s
  | .resume a => Sys2Proof.Machine.execResume a s
  | .migrate d a => Sys2Proof.Machine.execMigrate d a s
  | .spawn d a x => Sys2Proof.Machine.execSpawn d a x s
  | .armlr a b => Sys2Proof.Machine.execArmlr a b s
  | .lchk d a b => Sys2Proof.Machine.execLchk d a b s
  | .rwb a b => Sys2Proof.Machine.execRwb a b s
  | .rinv a b => Sys2Proof.Machine.execRinv a b s
  | .disc a b => Sys2Proof.Machine.execDisc a b s
  | .pin a b => Sys2Proof.Machine.execPin a b s
  | .unpin a b => Sys2Proof.Machine.execUnpin a b s
  | .pref a b => Sys2Proof.Machine.execPref a b s
  | .vadd d a b t m q => Sys2Proof.Machine.execVadd d a b t m q s
  | .vsub d a b t m q => Sys2Proof.Machine.execVsub d a b t m q s
  | .vmul d a b t m q => Sys2Proof.Machine.execVmul d a b t m q s
  | .vmulh d a b t m q => Sys2Proof.Machine.execVmulh d a b t m q s
  | .vmin d a b t m q => Sys2Proof.Machine.execVmin d a b t m q s
  | .vmax d a b t m q => Sys2Proof.Machine.execVmax d a b t m q s
  | .vand d a b t m q => Sys2Proof.Machine.execVand d a b t m q s
  | .vor d a b t m q => Sys2Proof.Machine.execVor d a b t m q s
  | .vxor d a b t m q => Sys2Proof.Machine.execVxor d a b t m q s
  | .vshl d a b t m q => Sys2Proof.Machine.execVshl d a b t m q s
  | .vshr d a b t m q => Sys2Proof.Machine.execVshr d a b t m q s
  | .vsra d a b t m q => Sys2Proof.Machine.execVsra d a b t m q s
  | .vabs d a t m => Sys2Proof.Machine.execVabs d a t m s
  | .vneg d a t m => Sys2Proof.Machine.execVneg d a t m s
  | .vadds d a b t m q => Sys2Proof.Machine.execVadds d a b t m q s
  | .vsubs d a b t m q => Sys2Proof.Machine.execVsubs d a b t m q s
  | .vmad d a b t m q => Sys2Proof.Machine.execVmad d a b t m q s
  | .vfadd d a b t m q => Sys2Proof.Machine.execVfadd d a b t m q s
  | .vfsub d a b t m q => Sys2Proof.Machine.execVfsub d a b t m q s
  | .vfmul d a b t m q => Sys2Proof.Machine.execVfmul d a b t m q s
  | .vfma d a b t m q => Sys2Proof.Machine.execVfma d a b t m q s
  | .vfmin d a b t m q => Sys2Proof.Machine.execVfmin d a b t m q s
  | .vfmax d a b t m q => Sys2Proof.Machine.execVfmax d a b t m q s
  | .vfabs d a t m => Sys2Proof.Machine.execVfabs d a t m s
  | .vfneg d a t m => Sys2Proof.Machine.execVfneg d a t m s
  | .vexp2 d a t m => Sys2Proof.Machine.execVexp2 d a t m s
  | .vlog2 d a t m => Sys2Proof.Machine.execVlog2 d a t m s
  | .vrcp d a t m => Sys2Proof.Machine.execVrcp d a t m s
  | .vrsq d a t m => Sys2Proof.Machine.execVrsq d a t m s
  | .vld d a t m => Sys2Proof.Machine.execVld d a t m s
  | .vst d a t m => Sys2Proof.Machine.execVst d a t m s
  | .vlds d a b t m => Sys2Proof.Machine.execVlds d a b t m s
  | .vsts d a b t m => Sys2Proof.Machine.execVsts d a b t m s
  | .vgath d a b t m => Sys2Proof.Machine.execVgath d a b t m s
  | .vscat d a b t m => Sys2Proof.Machine.execVscat d a b t m s
  | .vldT d a t m => Sys2Proof.Machine.execVldT d a t m s
  | .vstT d a t m => Sys2Proof.Machine.execVstT d a t m s
  | .vbcast d a t m => Sys2Proof.Machine.execVbcast d a t m s
  | .vgetl d a b t => Sys2Proof.Machine.execVgetl d a b t s
  | .vsetl d a b t => Sys2Proof.Machine.execVsetl d a b t s
  | .vperm d a b t m => Sys2Proof.Machine.execVperm d a b t m s
  | .vslide d a b t m => Sys2Proof.Machine.execVslide d a b t m s
  | .vmovm d a => Sys2Proof.Machine.execVmovm d a s
  | .vsett a => Sys2Proof.Machine.execVsett a s
  | .vrsum d a t m => Sys2Proof.Machine.execVrsum d a t m s
  | .vrmax d a t m => Sys2Proof.Machine.execVrmax d a t m s
  | .vrmin d a t m => Sys2Proof.Machine.execVrmin d a t m s
  | .vpsum d a t m => Sys2Proof.Machine.execVpsum d a t m s
  | .vcvtBf16F32 d a m => Sys2Proof.Machine.execVcvtBf16F32 d a m s
  | .vcvtF32Bf16 d a m => Sys2Proof.Machine.execVcvtF32Bf16 d a m s
  | .vcvtF32S32 d a m => Sys2Proof.Machine.execVcvtF32S32 d a m s
  | .vcvtS32F32 d a m => Sys2Proof.Machine.execVcvtS32F32 d a m s
  | .vcvtS32S8 d a g m => Sys2Proof.Machine.execVcvtS32S8 d a g m s
  | .vcvtS8S32 d a g m => Sys2Proof.Machine.execVcvtS8S32 d a g m s
  | .vlgx d a m => Sys2Proof.Machine.execVlgx d a m s
  | .vlgq d a b m => Sys2Proof.Machine.execVlgq d a b m s
  | .vceq d a b t m q => Sys2Proof.Machine.execVceq d a b t m q s
  | .vclt d a b t m q => Sys2Proof.Machine.execVclt d a b t m q s
  | .vcle d a b t m q => Sys2Proof.Machine.execVcle d a b t m q s
  | .vsel d a b t q => Sys2Proof.Machine.execVsel d a b t q s
  | .mand d a b => Sys2Proof.Machine.execMand d a b s
  | .mor d a b => Sys2Proof.Machine.execMor d a b s
  | .mnot d a => Sys2Proof.Machine.execMnot d a s
  | .mpopc d a => Sys2Proof.Machine.execMpopc d a s
  | .blkunp d a => Sys2Proof.Machine.execBlkunp d a s
  | .blkpk d a t => Sys2Proof.Machine.execBlkpk d a t s
  | .blkaddq a b => Sys2Proof.Machine.execBlkaddq a b s
  | .blkhdr d a => Sys2Proof.Machine.execBlkhdr d a s
  | .blkscl a b => Sys2Proof.Machine.execBlkscl a b s
  | .vmov16 d b m => Sys2Proof.Machine.execVmov16 d b m s
  | .vadd16 d b m => Sys2Proof.Machine.execVadd16 d b m s
  | .vsub16 d b m => Sys2Proof.Machine.execVsub16 d b m s
  | .vmul16 d b m => Sys2Proof.Machine.execVmul16 d b m s
  | .vmad16 d b m => Sys2Proof.Machine.execVmad16 d b m s
  | .vmin16 d b m => Sys2Proof.Machine.execVmin16 d b m s
  | .vmax16 d b m => Sys2Proof.Machine.execVmax16 d b m s
  | .vand16 d b m => Sys2Proof.Machine.execVand16 d b m s
  | .vor16 d b m => Sys2Proof.Machine.execVor16 d b m s
  | .vxor16 d b m => Sys2Proof.Machine.execVxor16 d b m s
  | .vneg16 d b m => Sys2Proof.Machine.execVneg16 d b m s
  | .vabs16 d b m => Sys2Proof.Machine.execVabs16 d b m s
  | .vshl16 d b m => Sys2Proof.Machine.execVshl16 d b m s
  | .vsra16 d b m => Sys2Proof.Machine.execVsra16 d b m s
  | .vsel16 d b => Sys2Proof.Machine.execVsel16 d b s
  | .vsqr d b m => Sys2Proof.Machine.execVsqr d b m s
  | .mzero c => Sys2Proof.Machine.execMzero c s
  | .mmul d a b => Sys2Proof.Machine.execMmul d a b s
  | .mstw d a => Sys2Proof.Machine.execMstw d a s
  | .mldw d a => Sys2Proof.Machine.execMldw d a s
  | .mqry d => Sys2Proof.Machine.execMqry d s
  | .cpy d a q => Sys2Proof.Machine.execCpy d a q s
  | .cpyrAddS32 d a q => Sys2Proof.Machine.execCpyrAddS32 d a q s
  | .cpyrAddF32 d a q => Sys2Proof.Machine.execCpyrAddF32 d a q s
  | .cpyrAddBf16 d a q => Sys2Proof.Machine.execCpyrAddBf16 d a q s
  | .cpyrMinS32 d a q => Sys2Proof.Machine.execCpyrMinS32 d a q s
  | .cpyrMaxS32 d a q => Sys2Proof.Machine.execCpyrMaxS32 d a q s
  | .cpyrMinF32 d a q => Sys2Proof.Machine.execCpyrMinF32 d a q s
  | .cpyrMaxF32 d a q => Sys2Proof.Machine.execCpyrMaxF32 d a q s
  | .cpyrAnd d a q => Sys2Proof.Machine.execCpyrAnd d a q s
  | .cpyrOr d a q => Sys2Proof.Machine.execCpyrOr d a q s
  | .cpyg d a q => Sys2Proof.Machine.execCpyg d a q s
  | .cpyh d a q => Sys2Proof.Machine.execCpyh d a q s
  | .cpyx d a q => Sys2Proof.Machine.execCpyx d a q s
  | .cpyq d q => Sys2Proof.Machine.execCpyq d q s
  | .ptask d a => Sys2Proof.Machine.execPtask d a s
  | .ptinv a b => Sys2Proof.Machine.execPtinv a b s
  | .ptstat d a => Sys2Proof.Machine.execPtstat d a s
  | .nput d a => Sys2Proof.Machine.execNput d a s
  | .nget d a => Sys2Proof.Machine.execNget d a s
  | .nsend d a => Sys2Proof.Machine.execNsend d a s
  | .nrecv d a => Sys2Proof.Machine.execNrecv d a s
  | .nchain d a b => Sys2Proof.Machine.execNchain d a b s
  | .ncnt d a => Sys2Proof.Machine.execNcnt d a s
  | .bqpop d a => Sys2Proof.Machine.execBqpop d a s
  | .bqdone a b => Sys2Proof.Machine.execBqdone a b s
  | .fence => Sys2Proof.Machine.execFence s
  | .fenceE => Sys2Proof.Machine.execFenceE s
  | .iflush => Sys2Proof.Machine.execIflush s
  | .hend => Sys2Proof.Machine.execHend s
  | .syscall => Sys2Proof.Machine.execSyscall s
  | .brk => Sys2Proof.Machine.execBrk s
  | .tret => Sys2Proof.Machine.execTret s
  | .idle => Sys2Proof.Machine.execIdle s
  | .yield => Sys2Proof.Machine.execYield s
  | .exit => Sys2Proof.Machine.execExit s
  | .takePendingTrap => Sys2Proof.Machine.execTakePendingTrap s
  | .registerWrite => Sys2Proof.Machine.execRegisterWrite s
  | .hroleWrite => Sys2Proof.Machine.execHroleWrite s
  | .putArrival => Sys2Proof.Machine.execPutArrival s
  | .ackArrival => Sys2Proof.Machine.execAckArrival s
  | .departureExpiry => Sys2Proof.Machine.execDepartureExpiry s
  | .loadReturn => Sys2Proof.Machine.execLoadReturn s
  | .remoteStashWrite => Sys2Proof.Machine.execRemoteStashWrite s
  | .sideLogReplay => Sys2Proof.Machine.execSideLogReplay s
  | .directStart => Sys2Proof.Machine.execDirectStart s
  | .submission => Sys2Proof.Machine.execSubmission s
  | .launchRecordProcess => Sys2Proof.Machine.execLaunchRecordProcess s
  | .threadStart => Sys2Proof.Machine.execThreadStart s
  | .signatureGeneration => Sys2Proof.Machine.execSignatureGeneration s
  | .stmapWrite => Sys2Proof.Machine.execStmapWrite s
  | .barrierUpdate => Sys2Proof.Machine.execBarrierUpdate s
  | .handlerTableWrite => Sys2Proof.Machine.execHandlerTableWrite s
  | .softwareQueueWrite => Sys2Proof.Machine.execSoftwareQueueWrite s
  | .messageArrival => Sys2Proof.Machine.execMessageArrival s
  | .messageReoffer => Sys2Proof.Machine.execMessageReoffer s
  | .messageOutcome => Sys2Proof.Machine.execMessageOutcome s
  | .returnBufferDrain => Sys2Proof.Machine.execReturnBufferDrain s
  | .activationDispatch => Sys2Proof.Machine.execActivationDispatch s
  | .watchdogExpiry => Sys2Proof.Machine.execWatchdogExpiry s
  | .watchdogKill => Sys2Proof.Machine.execWatchdogKill s
  | .ringRecordWrite => Sys2Proof.Machine.execRingRecordWrite s
  | .faultresRetry => Sys2Proof.Machine.execFaultresRetry s
  | .faultresTerminal => Sys2Proof.Machine.execFaultresTerminal s
  | .frzThawHart => Sys2Proof.Machine.execFrzThawHart s
  | .frzThawCq => Sys2Proof.Machine.execFrzThawCq s
  | .frzkillHart => Sys2Proof.Machine.execFrzkillHart s
  | .frzkillCq => Sys2Proof.Machine.execFrzkillCq s
  | .connectionWrite => Sys2Proof.Machine.execConnectionWrite s
  | .fabricPacketReceive => Sys2Proof.Machine.execFabricPacketReceive s
  | .packetRetransmit => Sys2Proof.Machine.execPacketRetransmit s
  | .routeRemoval => Sys2Proof.Machine.execRouteRemoval s
  | .peerLost => Sys2Proof.Machine.execPeerLost s
  | .fabricCommandComplete => Sys2Proof.Machine.execFabricCommandComplete s
  | .linkReplay => Sys2Proof.Machine.execLinkReplay s
  | .laneSpare => Sys2Proof.Machine.execLaneSpare s
  | .linkPeerSignal => Sys2Proof.Machine.execLinkPeerSignal s
  | .linkTrained => Sys2Proof.Machine.execLinkTrained s
  | .linkPeerSilent => Sys2Proof.Machine.execLinkPeerSilent s
  | .linkQuiesced => Sys2Proof.Machine.execLinkQuiesced s
  | .lnkcmdQuiesce => Sys2Proof.Machine.execLnkcmdQuiesce s
  | .lnkcmdDetach => Sys2Proof.Machine.execLnkcmdDetach s
  | .lnkcmdResume => Sys2Proof.Machine.execLnkcmdResume s
  | .lnkcmdReattach => Sys2Proof.Machine.execLnkcmdReattach s
  | .yarrowSendArrival => Sys2Proof.Machine.execYarrowSendArrival s
  | .rendezvousPull => Sys2Proof.Machine.execRendezvousPull s
  | .nsendRetry => Sys2Proof.Machine.execNsendRetry s
  | .assignQueueWrite => Sys2Proof.Machine.execAssignQueueWrite s
  | .engineCommandStart => Sys2Proof.Machine.execEngineCommandStart s
  | .leaveGrant => Sys2Proof.Machine.execLeaveGrant s
  | .cloverRefill => Sys2Proof.Machine.execCloverRefill s
  | .matrixStepComplete => Sys2Proof.Machine.execMatrixStepComplete s
  | .arrayGate => Sys2Proof.Machine.execArrayGate s
  | .arrayWakeDone => Sys2Proof.Machine.execArrayWakeDone s
  | .mxwtWrite => Sys2Proof.Machine.execMxwtWrite s
  | .mxidleWrite => Sys2Proof.Machine.execMxidleWrite s
  | .copyPieceDone => Sys2Proof.Machine.execCopyPieceDone s
  | .landingHandlerStart => Sys2Proof.Machine.execLandingHandlerStart s
  | .chicoryInvalidation => Sys2Proof.Machine.execChicoryInvalidation s
  | .classMapWrite => Sys2Proof.Machine.execClassMapWrite s
  | .ebudgetWindow => Sys2Proof.Machine.execEbudgetWindow s
  | .lockstepMismatch => Sys2Proof.Machine.execLockstepMismatch s
  | .sliceEnd => Sys2Proof.Machine.execSliceEnd s
  | .sliceEndDone => Sys2Proof.Machine.execSliceEndDone s
  | .restore => Sys2Proof.Machine.execRestore s
  | .restoreDone => Sys2Proof.Machine.execRestoreDone s
  | .teardown => Sys2Proof.Machine.execTeardown s
  | .partitionWrite => Sys2Proof.Machine.execPartitionWrite s
  | .tbuTick => Sys2Proof.Machine.execTbuTick s
  | .launchBudgetExpiry => Sys2Proof.Machine.execLaunchBudgetExpiry s
  | .ringEnable => Sys2Proof.Machine.execRingEnable s
  | .ringRdWrite => Sys2Proof.Machine.execRingRdWrite s
  | .vfThaw => Sys2Proof.Machine.execVfThaw s
  | .vfKill => Sys2Proof.Machine.execVfKill s
  | .feataccWrite => Sys2Proof.Machine.execFeataccWrite s
  | .boot => Sys2Proof.Machine.execBoot s
  | .nodeidWrite => Sys2Proof.Machine.execNodeidWrite s
  | .attnonceWrite => Sys2Proof.Machine.execAttnonceWrite s
  | .attestationReportDone => Sys2Proof.Machine.execAttestationReportDone s
  | .emthrotAssert => Sys2Proof.Machine.execEmthrotAssert s
  | .emthrotRelease => Sys2Proof.Machine.execEmthrotRelease s
  | .traypresNHigh => Sys2Proof.Machine.execTraypresNHigh s
  | .i3cPrivateWrite => Sys2Proof.Machine.execI3cPrivateWrite s
  | .i3cPrivateRead => Sys2Proof.Machine.execI3cPrivateRead s
  | .i3cBroadcastCap => Sys2Proof.Machine.execI3cBroadcastCap s
  | .illegalEncoding => Sys2Proof.Machine.execIllegalEncoding s
  | .instructionFetchFault => Sys2Proof.Machine.execInstructionFetchFault s
  | .storePerformed => Sys2Proof.Machine.execStorePerformed s
  | .chicoryLookup => Sys2Proof.Machine.execChicoryLookup s

end Sys2Proof.Machine
end

