-- ==== Sys2Proof/Machine/Run.lean ====
section
/-! DEFINITION. How the machine moves: which agent acts next (notes/assumptions/5.md), issue selection (R74, R150), the passing
of TIME and CYCLE, and what the memory system and firmware do on their own. -/

namespace Sys2Proof.Machine

/-! ### Events and their rows -/

/-- The row of the opcode table that performs an event. -/
def rowOf : Event → Instr
  | .registerWrite _ _ _ => .registerWrite
  | .hroleWrite _ _ _ => .hroleWrite
  | .putArrival _ => .putArrival
  | .ackArrival _ => .ackArrival
  | .departureExpiry _ _ => .departureExpiry
  | .loadReturn _ _ => .loadReturn
  | .remoteStashWrite _ => .remoteStashWrite
  | .sideLogReplay _ _ => .sideLogReplay
  | .directStart _ _ _ _ _ => .directStart
  | .submission _ _ _ _ _ => .submission
  | .launchRecordProcess _ => .launchRecordProcess
  | .threadStart _ _ => .threadStart
  | .signatureGeneration => .signatureGeneration
  | .stmapWrite _ _ => .stmapWrite
  | .barrierUpdate _ => .barrierUpdate
  | .handlerTableWrite _ _ _ _ _ => .handlerTableWrite
  | .softwareQueueWrite _ _ _ _ => .softwareQueueWrite
  | .messageArrival _ => .messageArrival
  | .messageReoffer _ => .messageReoffer
  | .messageOutcome _ _ => .messageOutcome
  | .returnBufferDrain _ => .returnBufferDrain
  | .activationDispatch _ => .activationDispatch
  | .watchdogExpiry _ => .watchdogExpiry
  | .watchdogKill _ => .watchdogKill
  | .ringRecordWrite _ _ => .ringRecordWrite
  | .faultresRetry _ _ => .faultresRetry
  | .faultresTerminal _ _ => .faultresTerminal
  | .frzThawHart _ _ _ => .frzThawHart
  | .frzThawCq _ _ _ => .frzThawCq
  | .frzkillHart _ _ _ => .frzkillHart
  | .frzkillCq _ _ _ => .frzkillCq
  | .connectionWrite _ _ _ => .connectionWrite
  | .fabricPacketReceive _ _ _ => .fabricPacketReceive
  | .packetRetransmit _ _ => .packetRetransmit
  | .routeRemoval _ => .routeRemoval
  | .peerLost _ => .peerLost
  | .fabricCommandComplete _ _ _ _ _ => .fabricCommandComplete
  | .linkReplay _ _ _ => .linkReplay
  | .laneSpare _ _ => .laneSpare
  | .linkPeerSignal _ => .linkPeerSignal
  | .linkPeerSilent _ => .linkPeerSilent
  | .linkQuiesced _ => .linkQuiesced
  | .lnkcmdQuiesce _ => .lnkcmdQuiesce
  | .lnkcmdDetach _ => .lnkcmdDetach
  | .lnkcmdResume _ => .lnkcmdResume
  | .lnkcmdReattach _ => .lnkcmdReattach
  | .yarrowSendArrival _ => .yarrowSendArrival
  | .rendezvousPull _ _ _ _ => .rendezvousPull
  | .nsendRetry _ => .nsendRetry
  | .assignQueueWrite _ _ _ _ _ => .assignQueueWrite
  | .engineCommandStart _ => .engineCommandStart
  | .leaveGrant _ => .leaveGrant
  | .cloverRefill _ => .cloverRefill
  | .matrixStepComplete _ => .matrixStepComplete
  | .arrayGate _ _ => .arrayGate
  | .arrayWakeDone _ => .arrayWakeDone
  | .mxwtWrite _ _ => .mxwtWrite
  | .mxidleWrite _ _ => .mxidleWrite
  | .copyPieceDone _ _ => .copyPieceDone
  | .landingHandlerStart _ => .landingHandlerStart
  | .chicoryInvalidation _ => .chicoryInvalidation
  | .classMapWrite _ _ _ => .classMapWrite
  | .ebudgetWindow _ => .ebudgetWindow
  | .lockstepMismatch _ => .lockstepMismatch
  | .sliceEnd _ => .sliceEnd
  | .sliceEndDone _ => .sliceEndDone
  | .restore _ => .restore
  | .restoreDone _ => .restoreDone
  | .teardown _ => .teardown
  | .partitionWrite _ _ _ _ => .partitionWrite
  | .tbuTick => .tbuTick
  | .launchBudgetExpiry _ => .launchBudgetExpiry
  | .ringEnable _ _ _ => .ringEnable
  | .ringRdWrite _ _ _ => .ringRdWrite
  | .vfThaw _ => .vfThaw
  | .vfKill _ => .vfKill
  | .feataccWrite _ _ => .feataccWrite
  | .boot _ _ => .boot
  | .nodeidWrite _ => .nodeidWrite
  | .attnonceWrite _ => .attnonceWrite
  | .attestationReportDone => .attestationReportDone
  | .emthrotAssert => .emthrotAssert
  | .emthrotRelease => .emthrotRelease
  | .traypresNHigh => .traypresNHigh
  | .i3cPrivateWrite _ _ => .i3cPrivateWrite
  | .i3cPrivateRead => .i3cPrivateRead
  | .i3cBroadcastCap _ _ => .i3cBroadcastCap
  | .storePerformed _ => .storePerformed
  | .chicoryLookup _ => .chicoryLookup
  | .linkTrained _ _ _ _ => .linkTrained

/-- The next state of an outcome changed. -/
def onNext (f : State → State) : Host.Outcome State Fault Refusal → Host.Outcome State Fault Refusal
  | .next s => .next (f s)
  | .fault e => .fault e
  | .refused r => .refused r

/-! ### Issue -/

/-- Whether the hart holds an instruction that could issue now: it runs, and is neither frozen, held, asleep, nor stopped by
slice end or lockstep (R49, R73, R162, R167, R293). -/
def canIssue (s : State) (h : Nat) : Bool :=
  let a := s.hart h
  a.running && a.frozen.isNone && a.hold.isNone && !a.idle &&
    !lockHalted s (h / 8) && (coreRuns s (h / 8) || a.isActivation)

/-- The current hart at its instruction boundary: a pending cause is taken, else the instruction at its PC (R13, R24, R45). -/
def issueOne (s : State) : Host.Outcome State Fault Refusal :=
  if (nextPending s.me).isSome then exec .takePendingTrap s
  else
    match fetch s with
    | .instr i s => exec i s
    | .illegal _ _ => exec .illegalEncoding s
    | .fault _ => exec .instructionFetchFault s

/-- What trying a hart's instruction would wait for; none where it does more than wait. -/
def trial (s : State) (h : Nat) : Option Stall :=
  match issueOne { s with cur := h } with
  | .next t => if (t.hart h).hold.isSome then none else (t.hart h).stall
  | _ => none

/-- Whether trying a hart's instruction does more than wait. -/
def moves (s : State) (h : Nat) : Bool := (trial s h).isNone

/-- R150: whether a hart is ready to issue. -/
def ready (s : State) (h : Nat) : Bool := canIssue s h && ((s.hart h).stall.isNone || moves s h)

/-- The slots of a core from the one after the hart that last issued, in turn (R150). -/
def residentsFrom (s : State) (core : Nat) : List Nat := (List.range 8).map fun k => slotOf core (((s.core core).lastHart + 1 + k) % 8)

/-- R150: earlier in the order of steps 1 and 4: higher priority, then earlier dispatch. -/
def handlerBefore (s : State) (h k : Nat) : Bool :=
  let rank := fun (j : Nat) => match (s.hart j).slot with
    | .pure => 8
    | .activation c => chanPri ((s.core (j / 8)).chan c.toNat).w1
    | _ => 0
  rank k < rank h || (rank h == rank k && (s.hart h).order < (s.hart k).order)

/-- The first hart of a list in that order. -/
def firstHandler (s : State) (l : List Nat) : Option Nat :=
  l.foldl (fun (r : Option Nat) h => match r with
    | none => some h
    | some k => if handlerBefore s h k then some h else r) none

/-- Whether a slot runs a thread, an activation of channel 0, or a landing handler. -/
def runsThread (s : State) (h : Nat) : Bool := (s.hart h).slot == .thread
def runsFirst (s : State) (h : Nat) : Bool := (s.hart h).slot == .activation 0#6
def runsLanding (s : State) (h : Nat) : Bool := match (s.hart h).slot with | .landing _ => true | _ => false

/-- R74: the ready harts without those that have yielded while another is ready; all of them where none would be left. -/
def notPassed (s : State) (rs : List Nat) : List Nat :=
  let l := rs.filter fun h => !((s.hart h).yielded && rs.any (· != h))
  if l.isEmpty then rs else l

/-- R74, R150: the hart a core issues next, from its ready harts; one that has yielded is passed over. -/
def selectHart (s : State) (core : Nat) (ready : List Nat) : Option Nat :=
  let rs := notPassed s ready
  let residents := rs.filter (runsThread s)
  let handlers := rs.filter fun h => !runsThread s h && !runsFirst s h && !runsLanding s h
  let resident := ((residentsFrom s core).filter residents.contains).head?
  match firstHandler s (rs.filter (runsFirst s)) with
  | some h => some h
  | none =>
    if !residents.isEmpty && 7 ≤ (s.core core).sinceResident then resident
    else
      match rs.find? (runsLanding s) with
      | some h => some h
      | none =>
        match firstHandler s handlers with
        | some h => some h
        | none => resident

/-- R74: a hart that has yielded is selected with others ready only where all of those have yielded too; its YIELD has then passed. -/
def endYield (s : State) (h : Nat) (rs : List Nat) : State :=
  if (s.hart h).yielded && rs.any (· != h) then s.setHart h { s.hart h with yielded := false } else s

/-- R74: a cycle in which a hart of the core issues ends the YIELD of every other one, whether that one is ready or not. -/
def endYields (s : State) (h : Nat) : State :=
  (hartsOf (h / 8)).foldl (fun s k =>
    if k != h && (s.hart k).yielded then s.setHart k { s.hart k with yielded := false } else s) s

/-- The cores with a hart that is not as reset left it, in rising order. -/
def liveCores : List Nat → List Nat
  | [] => []
  | h :: t => match liveCores t with
    | c :: r => if c = h / 8 then c :: r else h / 8 :: c :: r
    | [] => [h / 8]

/-- The cores in turn, from the one after the current hart's. -/
def coresInTurn (s : State) : List Nat :=
  let cs := liveCores (Table.keys s.harts)
  cs.filter (s.myCore < ·) ++ cs.filter (· ≤ s.myCore)

/-- The ready harts of a core. -/
def readyHarts (s : State) (core : Nat) : List Nat := (hartsOf core).filter (ready s)

/-- The choice of a core: its ready harts and the one that issues. -/
def coreChoice (s : State) (core : Nat) : Option (List Nat × Nat) :=
  let rs := readyHarts s core
  (selectHart s core rs).map fun h => (rs, h)

/-- The hart that issues next: of the next core in turn with a ready hart (R150). -/
def reselect (s : State) : State :=
  match (coresInTurn s).findSome? (coreChoice s) with
  | some (rs, h) => { (endYield s h rs) with cur := h }
  | none => s

/-- R30, R45, R74: what each hart that could issue waits for, as things stand: one whose instruction would only wait is not ready. -/
def markWaits (s : State) : State :=
  (Table.keys s.harts).foldl (fun s h =>
    if canIssue s h then
      (match trial s h with
      | some k => s.setHart h { s.hart h with stall := some k }
      | none => s)
    else s) s

/-- R74, R150: the hart of the current core that issues next as things now stand; where none of it is ready, that of the next core. -/
def select (s : State) : State :=
  match coreChoice s s.myCore with
  | some (rs, h) => { (endYield s h rs) with cur := h }
  | none => reselect s

/-! ### What follows every step -/

/-- R49, R50: slice end and restore move on by themselves. -/
def moveSlice (s : State) (p : Nat) : State :=
  let st := (s.part p).state
  if st = 1 then
    let s := saveThreads s p
    if sliceReady s p && !s.flight.contains (.sliceEndDone p) then s.fly (.sliceEndDone p) else s
  else if st = 3 && !s.flight.contains (.restoreDone p) then s.fly (.restoreDone p)
  else s

/-- R100: whether G has risen and the signatures have not turned yet, which comes before anything else. -/
def turning (s : State) : Bool := s.flight.head? == some .signatureGeneration

/-- Records that can be written, starts that can be made, slices that can move on. -/
def housekeep (s : State) : State :=
  if turning s then s
  else (Table.keys s.plat.parts).foldl moveSlice ((List.range 6).foldl kickService (kickStarts (kickRings s)))

/-- The end of a step that is no issue. -/
def settle (s : State) : State := select (markWaits (housekeep s))

/-- R150: a cycle that another core uses passes at a core none of whose harts is ready. -/
def passAsleep (s : State) (h c : Nat) : State :=
  if c = h / 8 || (Table.keys s.harts).any fun k => k / 8 == c && ready s k then s
  else
    let k := s.core c
    s.setCore c { k with sinceResident := k.sinceResident + 1 }

/-- R74, R150: what issue selection remembers of an issue: the YIELDs it ends, the last resident hart, and the cycles since a resident
hart issued, at its core and at those whose harts all sleep. An instruction that only waits has not issued; one that a page fault holds
has. -/
def noteIssue (s : State) (h : Nat) (resident : Bool) : State :=
  if (s.hart h).stall.isSome && (s.hart h).hold.isNone then s
  else
    let s := endYields ((liveCores (Table.keys s.harts)).foldl (fun s c => passAsleep s h c) s) h
    let k := s.core (h / 8)
    s.setCore (h / 8) (if resident then { k with lastHart := h % 8, sinceResident := 0 }
      else { k with sinceResident := k.sinceResident + 1 })

/-! ### The passing of time -/

/-- Boundaries of a period that TIME crosses. -/
def crossings (a b period : Nat) : Nat := b / period - a / period

/-- R149, R310: the cycles of one hart: watchdog and the count of cycles asleep. -/
def passHart (cyc : Nat) (s : State) (h : Nat) : State :=
  let a := s.hart h
  let a := if a.stall == some .reg && a.frozen.isNone then a.count evAsleep cyc else a
  if a.isActivation && a.frozen.isNone && a.wdog != 0 then
    let s := s.setHart h { a with wdog := a.wdog - cyc }
    if a.wdog ≤ cyc then s.fly (if a.grace then .watchdogKill h else .watchdogExpiry h) else s
  else s.setHart h a

/-- R36: entries of a core that have expired. -/
def passDeps (s : State) (core : Nat) : State :=
  (Table.keys (s.core core).dep).foldl (fun s k =>
    if depExpired s (s.core core) ((s.core core).depAt k) && !s.flight.contains (.departureExpiry core k) then
      s.fly (.departureExpiry core k) else s) s

/-- R250: the cycles of a cluster's array; idle quarters are gated. -/
def passCluster (cyc : Nat) (s : State) (c : Nat) : State :=
  let u := s.cluster c
  let u := { u with idle := u.idle + cyc }
  let s := s.setCluster c u
  if u.mxidle ≠ 0#20 ∧ u.mxidle.toNat < u.idle ∧ !u.waking ∧ u.gated ≠ 0xF#4 then
    (List.range 4).foldl (fun s k => if s.flight.contains (.arrayGate c k) then s else s.fly (.arrayGate c k)) s
  else s

/-- R294: the error windows that have run out. -/
def passWindow (s : State) (p : Nat) : State :=
  let a := s.part p
  if windowNs a ≠ 0 ∧ windowNs a ≤ (s.time - a.winStart).toNat ∧ !s.flight.contains (.ebudgetWindow p) then s.fly (.ebudgetWindow p)
  else s

/-- R201: refused sends whose back-off has run out. -/
def passConn (ns : Nat) (s : State) (c : Nat) : State :=
  let a := s.conn c
  if a.backoff = 0 ∨ a.wait = 0 then s
  else
    let s := s.setConn c { a with wait := a.wait - ns }
    if a.wait ≤ ns ∧ !s.flight.contains (.nsendRetry c) then s.fly (.nsendRetry c) else s

/-- R306, R321: what happens at each 10 µs of TIME. -/
def passTick (s : State) (_ : Nat) : State :=
  let (ext, s) := s.freshNat
  (s.fly .tbuTick).fly (.cloverRefill ext)

/-- R150: cycles in which no hart of a core issues. -/
def passIdle (cyc : Nat) (s : State) : State :=
  { s with cores := Table.mapVals s.cores fun _ k => { k with sinceResident := k.sinceResident + cyc } }

/-- R293: the cycles of the second cluster of a pair whose streams have parted. -/
def passLock (cyc : Nat) (s : State) (k : Nat) : State :=
  match Table.find? s.plat.lockDue k with
  | none => s
  | some n =>
    if n ≤ cyc then { s with plat := { s.plat with lockDue := Table.erase s.plat.lockDue k } }.fly (.lockstepMismatch k)
    else { s with plat := { s.plat with lockDue := Table.set s.plat.lockDue k (n - cyc) } }

/-- TIME advances by ns and CYCLE by cyc. -/
def passTime (s : State) (ns cyc : Nat) : State :=
  let t0 := s.time.toNat
  let s := { s with time := s.time + BitVec.ofNat 64 ns, cycle := s.cycle + BitVec.ofNat 64 cyc }
  let turns := List.replicate (Nat.min 2 (crossings t0 (t0 + ns) 4096)) Event.signatureGeneration
  let s := { s with flight := turns ++ s.flight, lag := s.lag + turns.length }
  let s := (List.range (crossings t0 (t0 + ns) 10000)).foldl passTick s
  let s := (Table.keys s.harts).foldl (passHart cyc) s
  let s := (Table.keys s.cores).foldl passDeps s
  let s := (Table.keys s.clusters).foldl (passCluster cyc) s
  let s := (Table.keys s.plat.parts).foldl passWindow s
  let s := (Table.keys s.plat.lockDue).foldl (passLock cyc) s
  let s := (Table.keys s.fab.conns).foldl (passConn ns) s
  let s := (Table.keys s.fab.flows).foldl kickResends s
  (nodesUsed s).foldl (passNode ns) s

/-! ### The end of an issue -/

/-- Nanoseconds of TIME that one more cycle of the main clock ends: 27 cycles take 10 ns. -/
def cycleNs (s : State) : Nat := (s.cycle.toNat + 1) * 10 / 27 - s.cycle.toNat * 10 / 27

/-- The end of an issue by a hart: a cycle has passed (notes/assumptions/5.md). -/
def settleIssue (h : Nat) (resident : Bool) (s : State) : State :=
  let s := noteIssue s h resident
  reselect (markWaits (housekeep (passTime s (cycleNs s) 1)))

/-- The current hart issues; the events that were in flight come before the next issue. -/
def issueStep (s : State) : Host.Outcome State Fault Refusal :=
  onNext (settleIssue s.cur (runsThread s s.cur)) (issueOne { s with lag := s.flight.length })

/-! ### Events -/

/-- The ordered stream an event in flight belongs to, none for an event that keeps no order: the window accesses of one
hart (R28); the messages, returns and deferral notices of one network from one core to another (R155); the tokens of one
MATRIX command (R248); the sends of one connection (R199); the commands written for one link (R323). -/
def Event.stream (e : Event) : List Nat :=
  match Event.writer e, e with
  | some w, _ => [0, w.core, w.hart]
  | none, .messageArrival m => [1, m.srcNode, m.srcCore, m.dstNode, m.dstCore, msgNet m]
  | none, .messageOutcome m (.returned _) => [1, m.dstNode, m.dstCore, m.srcNode, m.srcCore, netReply]
  | none, .messageOutcome m .deferred => [1, m.dstNode, m.dstCore, m.srcNode, m.srcCore, netReply]
  | none, .putArrival p => (match p.cmd with
    | some c => [2, c]
    | none => [])
  | none, .yarrowSendArrival y => [3, y.conn]
  | none, .lnkcmdQuiesce k => [4, k]
  | none, .lnkcmdDetach k => [4, k]
  | none, .lnkcmdResume k => [4, k]
  | none, .lnkcmdReattach k => [4, k]
  | none, _ => []

/-- The event performed where event k is picked: the first in flight of its stream. -/
def streamHead (s : State) (k : Nat) : Nat :=
  match s.flight[k]? with
  | some e => if (Event.stream e).isEmpty then k else s.flight.findIdx fun f => Event.stream f == Event.stream e
  | none => k

/-- An event brought to the head of those in flight and performed. -/
def performEvent (s : State) (k : Nat) (e : Event) : Host.Outcome State Fault Refusal :=
  onNext settle (exec (rowOf e) { s with flight := e :: s.flight.eraseIdx k, lag := s.lag - 1 })

/-- R143: a deferred message waits while its channel still defers it; every other event may be performed at once. -/
def due (s : State) (e : Event) : Bool :=
  match e with
  | .messageReoffer m => m.dstNode != s.plat.node.toNat || decideMsg s m.dstCore m != .deferred
  | _ => true

/-- The oldest event that is due, with its place. -/
def dueEvent (s : State) : List Event → Nat → Option (Nat × Event)
  | [], _ => none
  | e :: t, k => if due s e then some (k, e) else dueEvent s t (k + 1)

/-! ### What the memory system and firmware do on their own -/

/-- R98, R101: a holder gives up a line of which it owns no word; a stash window keeps the bytes it last held. -/
def giveUpCopy (ms : MemSys) (holder key : Nat) : MemSys :=
  if (List.range 8).any fun w => Table.find? ms.owners (key * 8 + w) == some holder then ms
  else { ms with copies := endCopies ms.copies fun k _ => k == copyKey holder key }

/-- R102: a slice drops the signatures stored for a line. -/
def forgetSig (ms : MemSys) (g line : Nat) : MemSys :=
  { ms with homeSigs := Table.erase ms.homeSigs line, sigDrops := Table.set ms.sigDrops (sliceOf (line % 2 ^ 46)) g }

/-- R288: an error appears in a line. -/
def addError (ms : MemSys) (line : Nat) (correctable : Bool) : MemSys :=
  if ms.errors.any (·.line == line) then ms else { ms with errors := ms.errors ++ [⟨line, correctable⟩] }

/-- R311: an error of a shared unit counted: 0 OTHER, 1 MESH, 2 L2TAG, 3 LINK. -/
def countDevError (w : Word) (kind : Nat) : Word :=
  let lo := 16 * (kind % 4)
  withField w (lo + 15) lo (fieldOf w (lo + 15) lo + 1)

/-- R293: a pair bound in lockstep for a context, the second cluster in the state of the first, or released; a comparison that is due ends
with the binding. -/
def setLockstep (s : State) (k : Nat) (context : Option (BitVec 12 × BitVec 6)) : State :=
  if 64 ≤ k then s
  else
    { s with plat := { s.plat with
        lockstep := (match context with
          | some c => Table.set s.plat.lockstep k c
          | none => Table.erase s.plat.lockstep k)
        lockDue := Table.erase s.plat.lockDue k
        lockHarts := Table.keep s.plat.lockHarts fun h _ => clusterOf (h / 8) / 2 != k } }

/-- R293: whether a hart lies in the first cluster of a bound pair and runs in the pair's context, so that the second cluster repeats it. -/
def lockRuns (s : State) (h : Nat) : Bool :=
  h < 8192 && featureOn s 5 && clusterOf (h / 8) % 2 == 0 &&
    Table.find? s.plat.lockstep (clusterOf (h / 8) / 2) == some ((s.hart h).asid, (s.hart h).vmid)

/-- R293: hart h as the second cluster repeats it: in the same state but where an upset has parted the two. -/
def lockHart (s : State) (h : Nat) : Hart := Table.get (s.hart h) s.plat.lockHarts h

/-- R293: an upset in the second cluster. -/
def upsetLockstep (s : State) (h : Nat) (r : Reg) (v : Word) : State :=
  if lockRuns s h then
    let a := lockHart s h
    let a := if r = 0#5 then { a with pc := v } else { a with x := Table.set a.x r.toNat v }
    { s with plat := { s.plat with lockHarts := Table.set s.plat.lockHarts h a } }
  else s

/-- R104, R105, R117: a die's copy of a line evicted, written back where it is dirty, unless it is pinned. -/
def evictLine (s : State) (die line : Nat) : State :=
  if isPinned s.ms (homeKey (some die) line) then s
  else
    let s := writeBackDie s die line
    { s with ms := { dropDie s.ms die line with replicas := s.ms.replicas.filter (· != homeKey (some die) line) } }

/-- A turn that changes the state without an instruction or an event. -/
def actTurn (s : State) : Turn → State
  | .pass ns cyc => passIdle cyc (passTime s ns cyc)
  | .splitBlock h => s.setHart h { s.hart h with blk := (match (s.hart h).blk with
      | .whole => .split
      | k => k) }
  | .dropCopy holder line => { s with ms := giveUpCopy s.ms holder line }
  | .writeBack line => { s with ms := { s.ms with dirty := Table.erase s.ms.dirty line } }
  | .evict die line => evictLine s die line
  | .dropTlb k => { s with ms := { s.ms with tlb := s.ms.tlb.eraseIdx k } }
  | .dropSig line => { s with ms := forgetSig s.ms s.gen line }
  | .memError line c => { s with ms := addError s.ms line c }
  | .coreError core c => chargeCore s core c
  | .wbError cl c => chargeCore s (coreOfQueue cl 0) c
  | .devError kind => { s with plat := { s.plat with deverr := countDevError s.plat.deverr kind } }
  | .shadowPages p n =>
    { s with ms := { s.ms with shadowPool := Table.set s.ms.shadowPool p (Table.get 0 s.ms.shadowPool p + n) } }
  | .linkAck k n => ackLink s k n
  | .laneError k lane => laneError s k lane
  | .hdmRange b n => if !featureOn s 4 then s else { s with ms := { s.ms with hdm := s.ms.hdm ++ [(b, n)] } }
  | .lockstep k c => setLockstep s k c
  | .lockUpset h r v => upsetLockstep s h r v
  | .prebuild die i p => { s with lch := { s.lch with prebuilt := Table.set s.lch.prebuilt (64 * die + i) p } }
  | .gateway c p => { s with plat := { s.plat with gwPart := (match p with
      | some p => Table.set s.plat.gwPart c p
      | none => Table.erase s.plat.gwPart c) } }
  | .routes p cs => { s with routeTabs := Table.set s.routeTabs p cs }
  | .event _ => s
  | .outside _ => s
  | .issue _ => s

/-! ### One step -/

/-- A turn taken from the list of those set. -/
def takeTurn (s : State) (t : Turn) : Host.Outcome State Fault Refusal :=
  match t with
  | .event k =>
    (match s.flight[streamHead s k]? with
    | some e => performEvent s (streamHead s k) e
    | none => .next s)
  | .outside e => performEvent { s with flight := e :: s.flight } 0 e
  | .issue h => if canIssue s h then issueStep { s with cur := h } else .next s
  | t => .next (settle (actTurn s t))

/-- Where nothing else can move, 10 ns pass, 27 cycles of the main clock. -/
def idleStep (s : State) : Host.Outcome State Fault Refusal := .next (settle (passIdle 27 (passTime s 10 27)))

/-- The event performed next: one that comes before the next issue, or any where no instruction is ready (R150). -/
def nextEvent (s : State) : Option (Nat × Event) :=
  match dueEvent s (s.flight.take s.lag) 0 with
  | some r => some r
  | none => if ready s s.cur then none else dueEvent s s.flight 0

/-- One step: signatures that must turn (R100); the turn that is set; else the oldest event that comes first; else the current hart issues; else time passes. -/
def runStep (s : State) : Host.Outcome State Fault Refusal :=
  if turning s then performEvent s 0 .signatureGeneration
  else
    match s.turns with
    | t :: ts => takeTurn { s with turns := ts } t
    | [] =>
      match nextEvent s with
      | some (k, e) => performEvent s k e
      | none => if ready s s.cur then issueStep s else idleStep s

/-! ### Lockstep (R293) -/

/-- R293: what a hart has retired, told by the PC and the registers it has changed, is the same in both clusters: `a` and `b` are the hart
before, in the first cluster and in the second, `a'` and `b'` after. -/
def sameRetired (a a' b b' : Hart) : Bool :=
  a'.pc == b'.pc &&
    ((List.range 32).all fun k =>
      let r := BitVec.ofNat 5 k
      (a'.rx r == b'.rx r || (a'.rx r == a.rx r && b'.rx r == b.rx r)) &&
        (a'.rv r == b'.rv r || (a'.rv r == a.rv r && b'.rv r == b.rv r))) &&
    (List.range 8).all fun k =>
      let m := BitVec.ofNat 3 k
      a'.rm m == b'.rm m || (a'.rm m == a.rm m && b'.rm m == b.rm m)

/-- R293: what a step has asked of memory and of the rest of the machine: the state without the harts repeated. -/
def withoutHarts (s : State) (hs : List Nat) : State :=
  { s with harts := hs.foldl Table.erase s.harts, plat := { s.plat with lockHarts := [], lockDue := [] } }

/-- The harts of the first cluster of pair k that its second one repeats. -/
def lockHartsOf (s : State) (k : Nat) : List Nat :=
  ((List.range 8).flatMap fun q => hartsOf (coreOfQueue (2 * k) q)).filter (lockRuns s)

/-- R293: the second cluster of pair k repeats a step from `s` to `t` with its own harts. A retirement or a memory request that differs
is met by the comparison 32 cycles later. -/
def repeatPair (s t : State) (k : Nat) : State :=
  let hs := lockHartsOf s k
  if !hs.any (fun h => (Table.find? s.plat.lockHarts h).isSome) || lockHalted s (coreOfQueue (2 * k) 0) then t
  else
    let s' := hs.foldl (fun s' h => s'.setHart h (lockHart s h)) s
    let part := fun (t : State) => if (Table.find? t.plat.lockDue k).isSome then t
      else { t with plat := { t.plat with lockDue := Table.set t.plat.lockDue k 32 } }
    match runStep s' with
    | .next u =>
      let kept := hs.foldl (fun l h => if u.hart h = t.hart h then Table.erase l h else Table.set l h (u.hart h)) t.plat.lockHarts
      let t := { t with plat := { t.plat with lockHarts := kept } }
      if hs.all (fun h => sameRetired (s.hart h) (t.hart h) (s'.hart h) (u.hart h)) && withoutHarts t hs == withoutHarts u hs then t
      else part t
    | _ => part t

/-- R293: the second clusters of the bound pairs repeat a step. Where none of their harts is in a state of its own they do what the first
ones did, and there is nothing to compare; a turn that writes the binding is no step of theirs. -/
def repeatLock (s t : State) : State :=
  if s.plat.lockHarts.isEmpty then t
  else
    match s.turns with
    | .lockstep _ _ :: _ => t
    | .lockUpset _ _ _ :: _ => t
    | _ => (Table.keys s.plat.lockstep).foldl (repeatPair s) t

/-- One step, repeated in the second clusters of lockstep pairs. -/
def lockedStep (s : State) : Host.Outcome State Fault Refusal := onNext (repeatLock s) (runStep s)

end Sys2Proof.Machine
end

