-- ==== Sys2Proof/Machine/Step.lean ====
section
/-! DEFINITION. The step of the machine, and an instruction placed where it fetches next (notes/assumptions/16.md). -/

namespace Sys2Proof.Machine

/-- One step (notes/assumptions/5.md). -/
def step (s : State) : Host.Outcome State Fault Refusal := lockedStep s

/-- The physical address of the placed instruction: its virtual address too, under the placed page tables. -/
def placedAt : Nat := 0x4000

/-- R160, R161: tables that map the first GiB onto itself for every kind of access: root, level 3, and a leaf at level 2. -/
def placedTables (m : Memory) : Memory :=
  Memory.writeNat (Memory.writeNat (Memory.writeNat m 0x1000 8 0x2001) 0x2000 8 0x3001) 0x3000 8 0x0F

/-- The words of an instruction in their byte order: nbits as given, zeros above up to the longest instruction (R2, R13). -/
def placedBytes (nbits w : Nat) : List Byte := leBytes 4 (w % 2 ^ nbits)

/-- The memory system with the tables and the instruction in a frame of class P of partition 0, nothing cached. -/
def MemSys.placed (ms : MemSys) (nbits w : Nat) : MemSys :=
  { ms with
    mem := Memory.writeBytes (placedTables ms.mem) placedAt (placedBytes nbits w)
    classMap := Table.set ms.classMap 0 6
    copies := []
    poison := []
    errors := []
    tlb := [] }

/-- A thread in M-mode at the placed instruction, every other register as reset leaves it. -/
def placedHart : Hart :=
  { Hart.reset with slot := .thread, tagCtr := 1, tag := 1, mode := .m, pc := 0x4000, ptroot := 0x1000 }

/-- Partition 0 over all compute cores (R306). -/
def placedPart : Part := { Part.reset with base := 0, len := 1024 }

/-- The state with an instruction placed where the next step fetches: in memory, under page tables, at the PC of a thread on
core 0, hart 0, in a partition that runs. It stands for the load of a program from outside. -/
def State.withFetchWord (s : State) (nbits w : Nat) : State :=
  { s with
    harts := Table.set s.harts 0 placedHart
    ms := s.ms.placed nbits w
    plat := { s.plat with parts := Table.set s.plat.parts 0 placedPart }
    clusters := Table.erase s.clusters 0
    cur := 0
    flight := []
    lag := 0
    turns := [] }

end Sys2Proof.Machine
end

