-- ==== Sys2Proof/Safety.lean ====
section
/-! DEFINITION. What counts as a safe run, and the terms that claims about instructions use: what must be ready, what an
instruction leaves as it was, and what it writes. -/

namespace Sys2Proof.Safety

open Sys2Proof.Machine

/-! ### Runs -/

/-- A step that ends in a next state. -/
def Completes (o : Host.Outcome State Fault Refusal) : Prop := ∃ t, o = .next t

/-- Every byte memory is in its canonical form. -/
abbrev MemoriesOk (s : State) : Prop :=
  Memory.wf s.ms.mem = true ∧ Memory.wf s.ms.stash = true ∧ Memory.wf s.ms.wbuf = true

/-- A step is safe if it reaches a next state: no instruction that the hardware would execute is turned away. -/
def Safe (s : State) : Prop := Completes (step s)

/-! ### What an instruction waits for -/

/-- Every x register of a list is ready at the issuing hart (R30). -/
abbrev XReady (s : State) (rs : List Reg) : Prop := ∀ r ∈ rs, s.me.xok r = true

/-- Every v register of a list is ready. -/
abbrev VReady (s : State) (rs : List Reg) : Prop := ∀ r ∈ rs, s.me.vok r = true

/-- No load to x[d] is outstanding (R63). -/
abbrev XFree (s : State) (d : Reg) : Prop := s.me.xloading d = false

/-- No load to v[d] is outstanding. -/
abbrev VFree (s : State) (d : Reg) : Prop := s.me.vloading d = false

/-- The hart runs no pure task (R300). -/
abbrev Impure (s : State) : Prop := s.me.pure = none

/-- Nothing of the hart stands in an activation buffer that an instruction would release first (R290). -/
abbrev NoBuffer (s : State) : Prop := s.me.buffering = false

/-- No store of the issuing hart is on its way to its place (R65). -/
abbrev NoOwnStore (s : State) : Prop := ∀ st ∈ s.ms.stores, ¬ (st.hart = s.cur ∧ st.tag = s.me.tag)

/-- Every store and barrier operation that was translated under the hart's VMID is performed, but for a store to another core's stash; no
activation's buffer holds a store (R77). -/
abbrev TlbIdle (s : State) : Prop :=
  (∀ st ∈ s.ms.stores, st.vmid = s.me.vmid → ∃ k, st.place = .remoteStash k) ∧
    (∀ b, .barrierUpdate b ∈ s.flight → b.vmid ≠ s.me.vmid) ∧ (s.me.buffering = true → bufferedStore s.me.abuf = false)

/-- Every write of the issuing core to a control window has been performed (R28). -/
abbrev Delivered (s : State) : Prop := ∀ e ∈ s.flight, Event.fromCore s.myCore e = false

/-- R108: what a release waits for: earlier loads returned, earlier stores performed, earlier puts acknowledged. -/
abbrev Released (s : State) : Prop := s.me.loads = [] ∧ NoOwnStore s ∧ s.me.unack = 0 ∧ Delivered s

/-! ### What an instruction leaves -/

/-- All of the state but the issuing hart is as it was: memory, stashes, every other hart, every engine, queue and register
outside the hart. -/
def OthersKept (s t : State) : Prop := t = { s with harts := t.harts } ∧ ∀ h, h ≠ s.cur → t.hart h = s.hart h

/-- Of a hart, all but the register files, the ready masks, the PC, the stall mark, the counters and RCLASS is as it was: mode,
trap registers, translation context, UNACK, queues, windows, loads under way. -/
def HartKept (a b : Hart) : Prop :=
  b = { a with x := b.x, xready := b.xready, v := b.v, vready := b.vready, m := b.m, pc := b.pc, stall := none, pmc := b.pmc,
               rclass := b.rclass }

/-- Every x register but those listed, with its ready bit. -/
def XKept (a b : Hart) (ds : List Reg) : Prop := ∀ r, r ∉ ds → b.rx r = a.rx r ∧ b.xok r = a.xok r

/-- Every v register but those listed, with its ready bit. -/
def VKept (a b : Hart) (ds : List Reg) : Prop := ∀ r, r ∉ ds → b.rv r = a.rv r ∧ b.vok r = a.vok r

/-- Every mask register but those listed. -/
def MKept (a b : Hart) (ds : List MReg) : Prop := ∀ r, r ∉ ds → b.rm r = a.rm r

/-- The registers, the PC, the mode and the tag of a hart are as they were. -/
def RegistersKept (a b : Hart) : Prop :=
  b.x = a.x ∧ b.xready = a.xready ∧ b.v = a.v ∧ b.vready = a.vready ∧ b.m = a.m ∧ b.pc = a.pc ∧ b.mode = a.mode ∧ b.tag = a.tag

/-- R310: the counters after an instruction that retires: the event of an issue and of a retirement. -/
def Counted (a b : Hart) : Prop := b.pmc = ((a.count evIssue 1).count evRetired 1).pmc

/-- The frame that every register instruction keeps. -/
def RegFrame (s t : State) : Prop := OthersKept s t ∧ HartKept s.me t.me ∧ Counted s.me t.me

/-- x[d] ← v and PC ← PC + n, and nothing else; a write of x0 is discarded (R52). -/
def WritesX (s t : State) (d : Reg) (v : Word) (n : Nat) : Prop :=
  RegFrame s t ∧ t.me.pc = s.me.pc + BitVec.ofNat 64 n ∧ t.me.rclass = s.me.rclass ∧
    t.me.rx d = (if d = 0#5 then 0#64 else v) ∧ t.me.xok d = true ∧ XKept s.me t.me [d] ∧ VKept s.me t.me [] ∧ MKept s.me t.me []

/-- v[d] ← v, the sticky flags f set in RCLASS, and PC ← PC + n, and nothing else (R220, R223). -/
def WritesV (s t : State) (d : Reg) (v : VWord) (f : Sticky) (n : Nat) : Prop :=
  RegFrame s t ∧ t.me.pc = s.me.pc + BitVec.ofNat 64 n ∧ t.me.rclass = s.me.rclass ||| (f.setWidth 64 <<< 8) ∧
    t.me.rv d = v ∧ t.me.vok d = true ∧ VKept s.me t.me [d] ∧ XKept s.me t.me [] ∧ MKept s.me t.me []

/-- R16, R223: v[d] takes g i in each lane i of type e that the mask m0 lets through (m = true) or in every lane (m = false), its
other lanes are kept; the flags f stick; PC ← PC + 4; nothing else changes. -/
def WritesLanes (s t : State) (d : Reg) (e : EType) (m : Bool) (f : Sticky) (g : Nat → Nat) : Prop :=
  ∃ v, WritesV s t d v f 4 ∧ ∀ i, i < laneCount e →
    lane (eltBits e) v i = if m = true ∧ (s.me.rm 0).getLsbD i = false then lane (eltBits e) (s.me.rv d) i else g i

/-- m[d] ← v, flags f set, PC ← PC + n, and nothing else. -/
def WritesM (s t : State) (d : MReg) (v : BitVec 64) (f : Sticky) (n : Nat) : Prop :=
  RegFrame s t ∧ t.me.pc = s.me.pc + BitVec.ofNat 64 n ∧ t.me.rclass = s.me.rclass ||| (f.setWidth 64 <<< 8) ∧
    t.me.rm d = v ∧ MKept s.me t.me [d] ∧ XKept s.me t.me [] ∧ VKept s.me t.me []

/-- PC ← p and no register written: a branch, a jump without a link. -/
def Jumps (s t : State) (p : Word) : Prop :=
  RegFrame s t ∧ t.me.pc = p ∧ t.me.rclass = s.me.rclass ∧ XKept s.me t.me [] ∧ VKept s.me t.me [] ∧ MKept s.me t.me []

/-- R63: a load to x[d] under way past its instruction: x[d] is not ready (x0 always is) and keeps its old value, the value v is
outstanding, with the number k of its accesses to an L2 that its return counts (R310), its return is in flight, PC ← PC + 4; of the
rest only the counters may have changed. -/
def LoadsX (s t : State) (d : Reg) (v : Word) : Prop :=
  t = { s with harts := t.harts, nextId := s.nextId + 1, flight := s.flight ++ [.loadReturn s.cur s.nextId] } ∧
    (∀ h, h ≠ s.cur → t.hart h = s.hart h) ∧
    t.me = { s.me with xready := t.me.xready, pc := t.me.pc, stall := none, pmc := t.me.pmc, loads := t.me.loads } ∧
    t.me.pc = s.me.pc + 4 ∧ (∃ k, t.me.loads = s.me.loads ++ [⟨s.nextId, .xreg d v, 0#3, k⟩]) ∧ t.me.xok d = (d == 0#5) ∧
    XKept s.me t.me [d]

/-- R63, R227: a load to v[d] under way past its instruction, as `LoadsX`. -/
def LoadsV (s t : State) (d : Reg) (v : VWord) : Prop :=
  t = { s with harts := t.harts, nextId := s.nextId + 1, flight := s.flight ++ [.loadReturn s.cur s.nextId] } ∧
    (∀ h, h ≠ s.cur → t.hart h = s.hart h) ∧
    (∃ k, t.me = { s.me with vready := t.me.vready, pc := s.me.pc + 4, stall := none, pmc := t.me.pmc,
                             loads := s.me.loads ++ [⟨s.nextId, .vreg d v, 0#3, k⟩] }) ∧
    t.me.vok d = false ∧ VKept s.me t.me [d]

/-- Where a lane or a block of n bytes at va stands in the local stash, with nothing in its way: aligned, in no window, its line in no
side log, not poisoned, no store to it pending or buffered. -/
def InStash (s : State) (va : Word) (n : Nat) : Prop :=
  ∃ o, va = BitVec.ofNat 64 (0x007F000000000000 + o) ∧ o + n ≤ 0x40000 ∧ o % n = 0 ∧ windowAt s s.myCore o = none ∧
    lineLogged s s.myCore va = false ∧ ownLineLogged s s.myCore s.cur va = false ∧
    isStashPoison s.ms (stashIdx s.myCore o / 64) = false ∧ remotePending s s.cur (.stash (stashIdx s.myCore o)) n = false ∧
    ∀ k, k < n → bufferedByte s s.cur (BitVec.ofNat 64 (0x007F000000000000 + o)) (.stash (stashIdx s.myCore o)) k = none

/-- The number of a local stash address among the bytes of all stashes. -/
def stashAt (s : State) (va : Word) : Nat := stashIdx s.myCore (va.toNat - 0x007F000000000000)

/-- The block at a local stash address. -/
def blockAt (s : State) (va : Word) : VWord := BitVec.ofNat 512 (leNat (Memory.readBytes s.ms.stash (stashAt s va) 64))

/-- R292: the launches once the hart has stored bytes at va: in a copy of a V launch the store joins the copy's signature. -/
def signedLch (s : State) (va : Word) (bs : List Byte) : LaunchSys := (signStore s s.me.vcopy va bs).lch

/-- R239 to R241: a block written in the local stash, flags stuck in RCLASS, PC ← PC + 4, and nothing else, but for the signature of a
copy of a V launch (R292). -/
def WritesBlock (s t : State) (va : Word) (b : VWord) (f : Sticky) : Prop :=
  t = { s with harts := t.harts, ms := { s.ms with stash := t.ms.stash }, lch := signedLch s va (leBytes 64 b.toNat) } ∧
    (∀ h, h ≠ s.cur → t.hart h = s.hart h) ∧ HartKept s.me t.me ∧ t.me.pc = s.me.pc + 4 ∧ t.me.rclass = s.me.rclass ||| (f.setWidth 64 <<< 8) ∧ XKept s.me t.me [] ∧
    VKept s.me t.me [] ∧ MKept s.me t.me [] ∧ blockAt t va = b ∧
    ∀ a, a < stashAt s va ∨ stashAt s va + 64 ≤ a → Memory.read t.ms.stash a = Memory.read s.ms.stash a

/-- R17, R257: a command of the issuing hart, with its group g and its token registers, as it leaves the hart: the tokens not ready,
one more command counted, PC ← PC + 4, nothing else changed. -/
def Issues (s t : State) (c : Cmd) (i : Instr) (g : List Word) (rd rd2 : Reg) : Prop :=
  c.id = s.nextId ∧ c.word = i.bits.setWidth 32 ∧ c.g = g ∧ c.loc = locOfSlot s s.cur rd.toNat ∧ c.loc2 = locOfSlot s s.cur rd2.toNat ∧
    c.hart = s.cur ∧ c.tag = s.me.tag ∧ c.ctx = s.me.tctx ∧ c.cls = rclassClass s.me.rclass ∧ c.off = 0 ∧ c.started = false ∧
    c.held = none ∧ c.pure = s.me.pure.isSome ∧ t = { s with harts := t.harts, nextId := s.nextId + 1 } ∧
    (∀ h, h ≠ s.cur → t.hart h = s.hart h) ∧
    t.me = { s.me with xready := t.me.xready, pc := s.me.pc + 4, engines := s.me.engines + 1, stall := none, pmc := t.me.pmc } ∧
    ∀ r, t.me.xok r = (s.me.xok r && (r == 0#5 || (r != rd && r != rd2)))

/-- PC ← PC + 4 and nothing else of the hart; the state otherwise is u's. -/
def Passes (u t : State) : Prop := Jumps u t (u.me.pc + 4)

/-- n bytes from `base` on in the stashes, stored at the address va, take the little-endian bytes of v; every other byte of every stash,
the rest of the memory system and the rest of the state are as before, but for the signature of a copy of a V launch (R292), and
PC ← PC + 4. -/
def StoresStash (s t : State) (va : Word) (base n : Nat) (v : Word) : Prop :=
  t = { s with harts := t.harts, ms := { s.ms with stash := t.ms.stash }, lch := signedLch s va (leBytes n v.toNat) } ∧
    (∀ h, h ≠ s.cur → t.hart h = s.hart h) ∧ HartKept s.me t.me ∧ t.me.pc = s.me.pc + 4 ∧ XKept s.me t.me [] ∧ VKept s.me t.me [] ∧ MKept s.me t.me [] ∧
    (∀ k, k < n → Memory.read t.ms.stash (base + k) = v.extractLsb' (8 * k) 8) ∧
    ∀ a, a < base ∨ base + n ≤ a → Memory.read t.ms.stash a = Memory.read s.ms.stash a

/-- The x register a form makes not ready, if any, and PC ← PC + 4: of the registers of a hart nothing else has changed (R70). -/
def Arms (a b : Hart) (d : Option Reg) : Prop :=
  b.pc = a.pc + 4 ∧ (∀ r, b.rx r = a.rx r) ∧ (∀ r, b.rv r = a.rv r ∧ b.vok r = a.vok r) ∧ (∀ r, b.rm r = a.rm r) ∧
    ∀ r, b.xok r = (if d = some r then r == 0#5 else a.xok r)

/-- R68: a put has left: UNACK counts it, it is on its way, under a number of its own and with the time it left (R148, R191), to the
landing port of its locator or to the other package, and nothing else has changed but the PC and the ready bit of the register that its status goes to. -/
def Sends (s t : State) (p : Put) (d : Option Reg) : Prop :=
  t = { s with harts := t.harts, fab := (launchPut s p).fab, flight := (launchPut s p).flight, nextId := s.nextId + 1 } ∧
    (∀ h, h ≠ s.cur → t.hart h = s.hart h) ∧
    t.me = { s.me with xready := t.me.xready, pc := t.me.pc, unack := s.me.unack + 1, stall := none, pmc := t.me.pmc } ∧
    Arms s.me t.me d

/-- R169: a message is claimed: the last entry of the send queue holds it, with its words, and nothing else of the hart has
changed but the PC and the ready bit of d; no byte of memory has changed. -/
def Claims (s t : State) (m : Msg) (e : SendEntry) (d : Option Reg) : Prop :=
  e.msg = m ∧ t.me = { s.me with xready := t.me.xready, pc := t.me.pc, sendq := s.me.sendq ++ [e], stall := none, pmc := t.me.pmc,
                                 abuf := t.me.abuf } ∧
    Arms s.me t.me d ∧ (∀ h, h ≠ s.cur → t.hart h = s.hart h) ∧ t.ms = s.ms

/-! ### The layouts of R14 -/

/-- R14: the R layout. -/
def wordR (f7 : BitVec 7) (rs2 : Reg) (f3 : BitVec 3) (rs1 rd : Reg) (major : BitVec 6) : BitVec 32 :=
  f7 ++ rs2 ++ f3 ++ rs1 ++ rd ++ major ++ 1#1

/-- R14: the I layout. -/
def wordI (imm : BitVec 12) (f3 : BitVec 3) (rs1 rd : Reg) (major : BitVec 6) : BitVec 32 := imm ++ f3 ++ rs1 ++ rd ++ major ++ 1#1

/-- R14: the B layout. -/
def wordB (off : BitVec 12) (rs2 : Reg) (f3 : BitVec 3) (rs1 : Reg) (major : BitVec 6) : BitVec 32 :=
  off.extractLsb' 5 7 ++ rs2 ++ f3 ++ rs1 ++ off.extractLsb' 0 5 ++ major ++ 1#1

/-- R14: the U and J layouts. -/
def wordU (imm : BitVec 20) (rd : Reg) (major : BitVec 6) : BitVec 32 := imm ++ rd ++ major ++ 1#1

end Sys2Proof.Safety
end

