-- ==== Sys2Proof/Certificates/Slice0/Obligations.lean ====
section
/-! DEFINITION. The statements for the provers, each the Lean form of what its docstring says. -/

open Sys2Proof Sys2Proof.Machine Sys2Proof.Safety

/-! ### Reset and the memories -/

/-- The values that the spec gives for reset: of every hart, the tag counter (R31), UNACK (R43), LANDST and LANDLOC (R46), VTYPE (R20),
SQDEPTH (R151) and the trap state (R157); of every core, HROLE (R27), WBWIN (R246), DEPGRACE (R37), MXWT (R244), the departure table, all
free (R35), the handler table (R141), the channel queues, empty (R145), and the software queues, disabled and empty (R176); of every
cluster, MXIDLE and its gated quarters (R250); the power registers (R320). That every byte memory has nothing
listed, in its canonical form, is the model's own (notes/assumptions/3.md). -/
def Obligations.ResetValues : Prop :=
  MemoriesOk State.reset ∧
  (∀ h : Nat, let a := State.reset.hart h
    a.tagCtr = 0 ∧ a.unack = 0 ∧ a.landCode = 0 ∧ a.landMiss = 0 ∧ a.landLoc = 0 ∧ a.vtype = 2#3 ∧ a.reqd = 8 ∧ a.repd = 8 ∧
      a.sendq = [] ∧ a.udeleg = 0x8000000000000000#64 ∧ a.status = 0x10#64 ∧ a.hstatus = 0x10#64 ∧ a.mstatus = 0x10#64) ∧
  (∀ c : Nat, let k := State.reset.core c
    k.hrole = 0 ∧ k.wbwin = 0x3F00#64 ∧ k.depgrace = 1000 ∧ k.mxwt = 1 ∧ (∀ n, k.depAt n = Dep.free) ∧
      (∀ n, (k.chan n).w0 = 0 ∧ (k.chan n).w1 = 0 ∧ (k.chan n).prod = 0 ∧ (k.chan n).cons = 0) ∧ ∀ n, k.softq n = ⟨0, 0, 0⟩) ∧
  (∀ c : Nat, (State.reset.cluster c).mxidle = 8192 ∧ (State.reset.cluster c).gated = 0xF) ∧
  State.reset.plat.pwrcap = 1800 ∧ State.reset.plat.pwrcapt = 100 ∧ State.reset.plat.pwrfloor = 1000 ∧ State.reset.plat.rackgrp = 0

/-- No step takes a byte memory (physical memory, the stashes, the weight buffers) out of its canonical form: addresses rising, and no
byte listed that an unlisted address reads as. Two memories that read the same everywhere are then the same data
(notes/assumptions/3.md). -/
def Obligations.StepKeepsMemoriesCanonical : Prop :=
  ∀ s t : State, MemoriesOk s → step s = .next t → MemoriesOk t

/-! ### Integer instructions -/

/-- R53, R54: each operation of two registers writes its result to x[rd] and changes nothing else: sums, comparisons, logic, shifts and
rotations; the halves of the products, the quotients toward zero and the remainders, with a zero divisor and the overflow. Each is
encoded as its rule says. -/
def Obligations.IntegerOperations : Prop :=
  (∀ (s : State) (d a b : Reg), XReady s [a, b] → XFree s d →
      let x := s.me.rx a
      let y := s.me.rx b
      let n := y.toNat % 64
      (∃ t, exec (.add d a b) s = .next t ∧ WritesX s t d (x + y) 4) ∧
      (∃ t, exec (.sub d a b) s = .next t ∧ WritesX s t d (x - y) 4) ∧
      (∃ t, exec (.min d a b) s = .next t ∧ WritesX s t d (if x.slt y then x else y) 4) ∧
      (∃ t, exec (.max d a b) s = .next t ∧ WritesX s t d (if x.slt y then y else x) 4) ∧
      (∃ t, exec (.minu d a b) s = .next t ∧ WritesX s t d (if x.ult y then x else y) 4) ∧
      (∃ t, exec (.maxu d a b) s = .next t ∧ WritesX s t d (if x.ult y then y else x) 4) ∧
      (∃ t, exec (.slt d a b) s = .next t ∧ WritesX s t d (if x.slt y then 1 else 0) 4) ∧
      (∃ t, exec (.sltu d a b) s = .next t ∧ WritesX s t d (if x.ult y then 1 else 0) 4) ∧
      (∃ t, exec (.and d a b) s = .next t ∧ WritesX s t d (x &&& y) 4) ∧
      (∃ t, exec (.or d a b) s = .next t ∧ WritesX s t d (x ||| y) 4) ∧
      (∃ t, exec (.xor d a b) s = .next t ∧ WritesX s t d (x ^^^ y) 4) ∧
      (∃ t, exec (.andn d a b) s = .next t ∧ WritesX s t d (x &&& ~~~y) 4) ∧
      (∃ t, exec (.orn d a b) s = .next t ∧ WritesX s t d (x ||| ~~~y) 4) ∧
      (∃ t, exec (.xnor d a b) s = .next t ∧ WritesX s t d (~~~(x ^^^ y)) 4) ∧
      (∃ t, exec (.sll d a b) s = .next t ∧ WritesX s t d (x <<< n) 4) ∧
      (∃ t, exec (.srl d a b) s = .next t ∧ WritesX s t d (x >>> n) 4) ∧
      (∃ t, exec (.sra d a b) s = .next t ∧ WritesX s t d (x.sshiftRight n) 4) ∧
      (∃ t, exec (.rol d a b) s = .next t ∧ WritesX s t d (x.rotateLeft n) 4) ∧
      (∃ t, exec (.ror d a b) s = .next t ∧ WritesX s t d (x.rotateRight n) 4)) ∧
  (∀ (s : State) (d a b : Reg), XReady s [a, b] → XFree s d →
      let x := s.me.rx a
      let y := s.me.rx b
      (∃ t, exec (.mul d a b) s = .next t ∧ WritesX s t d (x * y) 4) ∧
      (∃ t, exec (.mulh d a b) s = .next t ∧
        WritesX s t d ((x.signExtend 128 * y.signExtend 128).extractLsb' 64 64) 4) ∧
      (∃ t, exec (.mulhu d a b) s = .next t ∧ WritesX s t d ((x.setWidth 128 * y.setWidth 128).extractLsb' 64 64) 4) ∧
      (∃ t, exec (.div d a b) s = .next t ∧ WritesX s t d (if y = 0#64 then BitVec.allOnes 64 else x.sdiv y) 4) ∧
      (∃ t, exec (.divu d a b) s = .next t ∧ WritesX s t d (if y = 0#64 then BitVec.allOnes 64 else x.udiv y) 4) ∧
      (∃ t, exec (.rem d a b) s = .next t ∧ WritesX s t d (if y = 0#64 then x else x.srem y) 4) ∧
      (∃ t, exec (.remu d a b) s = .next t ∧ WritesX s t d (if y = 0#64 then x else x.umod y) 4)) ∧
  (∀ (d a b : Reg) (i : Instr) (f7 : BitVec 7) (f3 : BitVec 3),
      (i, f7, f3) ∈ ([(.add d a b, 0, 0), (.sub d a b, 1, 0), (.min d a b, 2, 0), (.max d a b, 3, 0), (.minu d a b, 4, 0),
        (.maxu d a b, 5, 0), (.slt d a b, 6, 0), (.sltu d a b, 7, 0), (.and d a b, 0, 1), (.or d a b, 1, 1),
        (.xor d a b, 2, 1), (.andn d a b, 3, 1), (.orn d a b, 4, 1), (.xnor d a b, 5, 1), (.sll d a b, 0, 2),
        (.srl d a b, 1, 2), (.sra d a b, 2, 2), (.rol d a b, 3, 2), (.ror d a b, 4, 2), (.mul d a b, 0, 3),
        (.mulh d a b, 1, 3), (.mulhu d a b, 2, 3), (.div d a b, 3, 3), (.divu d a b, 4, 3), (.rem d a b, 5, 3),
        (.remu d a b, 6, 3)] :
        List (Instr × BitVec 7 × BitVec 3)) →
      encode i = some (4, wordR f7 b f3 a d 0x01))

/-- R55, R56: leading and trailing zero bits, 1 bits and the reversal, each by the bits of the source; a field of length x[rs2][13:8] at
position x[rs2][5:0], taken out by BEXT and put in by BINS, bit by bit; BINS waits until x[rd] is ready. R57, R58: the operations of a
register and an immediate, sign-extended, or a shift amount; LIH and LPC: imm20 times 4,096, sign-extended, to which LPC adds its own
address. Each is encoded as its rule says. -/
def Obligations.BitAndImmediateOperations : Prop :=
  (∀ (s : State) (d a : Reg), XReady s [a] → XFree s d →
      let x := s.me.rx a
      (∃ t n, exec (.clz d a) s = .next t ∧ WritesX s t d (BitVec.ofNat 64 n) 4 ∧ n ≤ 64 ∧
        (∀ k, k < n → x.getLsbD (63 - k) = false) ∧ (n < 64 → x.getLsbD (63 - n) = true)) ∧
      (∃ t n, exec (.ctz d a) s = .next t ∧ WritesX s t d (BitVec.ofNat 64 n) 4 ∧ n ≤ 64 ∧
        (∀ k, k < n → x.getLsbD k = false) ∧ (n < 64 → x.getLsbD n = true)) ∧
      (∃ t, exec (.popc d a) s = .next t ∧ WritesX s t d (BitVec.ofNat 64 ((List.range 64).countP fun k => x.getLsbD k)) 4) ∧
      (∃ t v, exec (.brev d a) s = .next t ∧ WritesX s t d v 4 ∧ ∀ i, i < 64 → v.getLsbD i = x.getLsbD (63 - i))) ∧
  (∀ (s : State) (d a b : Reg), XReady s [a, b] → XFree s d →
      let x := s.me.rx a
      let pos := ((s.me.rx b).extractLsb' 0 6).toNat
      let len := ((s.me.rx b).extractLsb' 8 6).toNat
      (∃ t v, exec (.bext d a b) s = .next t ∧ WritesX s t d v 4 ∧
        ∀ i, i < 64 → v.getLsbD i = (decide (i < len) && x.getLsbD (pos + i))) ∧
      (XReady s [d] → ∃ t v, exec (.bins d a b) s = .next t ∧ WritesX s t d v 4 ∧
        ∀ i, i < 64 → v.getLsbD i = if pos ≤ i ∧ i < pos + len then x.getLsbD (i - pos) else (s.me.rx d).getLsbD i) ∧
      (s.me.xok d = false → ∃ t, exec (.bins d a b) s = .next t ∧ t.me.pc = s.me.pc ∧ ∀ r, t.me.rx r = s.me.rx r)) ∧
  (∀ d a b : Reg,
      encode (.clz d a) = some (4, wordR 0 0 4 a d 0x01) ∧ encode (.ctz d a) = some (4, wordR 1 0 4 a d 0x01) ∧
      encode (.popc d a) = some (4, wordR 2 0 4 a d 0x01) ∧ encode (.brev d a) = some (4, wordR 3 0 4 a d 0x01) ∧
      encode (.bext d a b) = some (4, wordR 0 b 5 a d 0x01) ∧ encode (.bins d a b) = some (4, wordR 1 b 5 a d 0x01)) ∧
  (∀ (s : State) (d a : Reg) (i : BitVec 12) (n : BitVec 6), XReady s [a] → XFree s d →
      let x := s.me.rx a
      let y := i.signExtend 64
      (∃ t, exec (.addi d a i) s = .next t ∧ WritesX s t d (x + y) 4) ∧
      (∃ t, exec (.andi d a i) s = .next t ∧ WritesX s t d (x &&& y) 4) ∧
      (∃ t, exec (.ori d a i) s = .next t ∧ WritesX s t d (x ||| y) 4) ∧
      (∃ t, exec (.xori d a i) s = .next t ∧ WritesX s t d (x ^^^ y) 4) ∧
      (∃ t, exec (.slli d a n) s = .next t ∧ WritesX s t d (x <<< n.toNat) 4) ∧
      (∃ t, exec (.srli d a n) s = .next t ∧ WritesX s t d (x >>> n.toNat) 4) ∧
      (∃ t, exec (.srai d a n) s = .next t ∧ WritesX s t d (x.sshiftRight n.toNat) 4) ∧
      (∃ t, exec (.slti d a i) s = .next t ∧ WritesX s t d (if x.slt y then 1 else 0) 4)) ∧
  (∀ (s : State) (d : Reg) (i : BitVec 20), XFree s d →
      (∃ t, exec (.lih d i) s = .next t ∧ WritesX s t d (i.signExtend 64 <<< 12) 4) ∧
      (∃ t, exec (.lpc d i) s = .next t ∧ WritesX s t d (s.me.pc + (i.signExtend 64 <<< 12)) 4)) ∧
  (∀ (d a : Reg) (i : BitVec 12) (n : BitVec 6) (j : BitVec 20),
      encode (.addi d a i) = some (4, wordI i 0 a d 0x02) ∧ encode (.andi d a i) = some (4, wordI i 1 a d 0x02) ∧
      encode (.ori d a i) = some (4, wordI i 2 a d 0x02) ∧ encode (.xori d a i) = some (4, wordI i 3 a d 0x02) ∧
      encode (.slli d a n) = some (4, wordI (n.setWidth 12) 4 a d 0x02) ∧
      encode (.srli d a n) = some (4, wordI (n.setWidth 12) 5 a d 0x02) ∧
      encode (.srai d a n) = some (4, wordI (n.setWidth 12) 6 a d 0x02) ∧ encode (.slti d a i) = some (4, wordI i 7 a d 0x02) ∧
      encode (.lih d j) = some (4, wordU j d 0x03) ∧ encode (.lpc d j) = some (4, wordU j d 0x04))

/-! ### Branches and jumps -/

/-- R59: each branch goes to PC + sext(off) × 2 where its condition holds, else to PC + 4; BRDY and BNRDY do not wait, and a pure task
may run neither (R300). R61: JL and JLR write PC + 4 to x[rd] and jump; JLR's target is the old x[rs1] plus the immediate, bit 0
cleared. Each is encoded as its rule says. -/
def Obligations.BranchesAndJumps : Prop :=
  (∀ (s : State) (a b : Reg) (o : BitVec 12), s.me.pc.getLsbD 0 = false →
      let x := s.me.rx a
      let y := s.me.rx b
      let go := fun (c : Bool) => if c then s.me.pc + o.signExtend 64 * 2 else s.me.pc + 4
      (XReady s [a, b] →
        (∃ t, exec (.beq a b o) s = .next t ∧ Jumps s t (go (x == y))) ∧
        (∃ t, exec (.bne a b o) s = .next t ∧ Jumps s t (go (x != y))) ∧
        (∃ t, exec (.blt a b o) s = .next t ∧ Jumps s t (go (x.slt y))) ∧
        (∃ t, exec (.bge a b o) s = .next t ∧ Jumps s t (go (y.sle x))) ∧
        (∃ t, exec (.bltu a b o) s = .next t ∧ Jumps s t (go (x.ult y))) ∧
        (∃ t, exec (.bgeu a b o) s = .next t ∧ Jumps s t (go (y.ule x)))) ∧
      (Impure s →
        (∃ t, exec (.brdy a o) s = .next t ∧ Jumps s t (go (s.me.xok a))) ∧
        (∃ t, exec (.bnrdy a o) s = .next t ∧ Jumps s t (go (!s.me.xok a))))) ∧
  (∀ (s : State) (d a : Reg) (i : BitVec 12) (j : BitVec 20), XFree s d →
      let links := fun (t : State) (target : Word) =>
        RegFrame s t ∧ t.me.pc = target ∧ t.me.rclass = s.me.rclass ∧
          t.me.rx d = (if d = 0#5 then 0#64 else s.me.pc + 4) ∧ t.me.xok d = true ∧ XKept s.me t.me [d] ∧ VKept s.me t.me [] ∧
          MKept s.me t.me []
      (s.me.pc.getLsbD 0 = false → ∃ t, exec (.jl d j) s = .next t ∧ links t (s.me.pc + j.signExtend 64 * 2)) ∧
      (XReady s [a] → ∃ t, exec (.jlr d a i) s = .next t ∧ links t ((s.me.rx a + i.signExtend 64) &&& ~~~1#64))) ∧
  (∀ (d a b : Reg) (o i : BitVec 12) (j : BitVec 20),
      encode (.beq a b o) = some (4, wordB o b 0 a 0x05) ∧ encode (.bne a b o) = some (4, wordB o b 1 a 0x05) ∧
      encode (.blt a b o) = some (4, wordB o b 2 a 0x05) ∧ encode (.bge a b o) = some (4, wordB o b 3 a 0x05) ∧
      encode (.bltu a b o) = some (4, wordB o b 4 a 0x05) ∧ encode (.bgeu a b o) = some (4, wordB o b 5 a 0x05) ∧
      encode (.brdy a o) = some (4, wordB o 0 6 a 0x05) ∧ encode (.bnrdy a o) = some (4, wordB o 0 7 a 0x05) ∧
      encode (.jl d j) = some (4, wordU j d 0x06) ∧ encode (.jlr d a i) = some (4, wordI i 0 a d 0x07))

/-! ### Loads and stores -/

/-- R62, R63, R65: a load of the local stash, at an aligned offset that no STMAP window covers, has the little-endian value of the bytes
on its way, sign- or zero-extended; LD.T reads the dword that tile mode permutes its offset to. No store of those bytes stands in the
hart's activation buffer (R290). Rests on the model's choices in notes/assumptions/6.md. -/
def Obligations.LocalStashLoads : Prop :=
  ∀ (s : State) (d a : Reg) (i : BitVec 12) (o : Nat), Impure s → XReady s [a] → XFree s d → o < 0x40000 →
    s.me.rx a + i.signExtend 64 = BitVec.ofNat 64 (0x007F000000000000 + o) →
    let plain := fun (o n : Nat) => windowAt s s.myCore o = none ∧
      lineLogged s s.myCore (BitVec.ofNat 64 (0x007F000000000000 + o)) = false ∧
      remotePending s s.cur (.stash (stashIdx s.myCore o)) n = false ∧ isStashPoison s.ms (stashIdx s.myCore o / 64) = false ∧
      ∀ k, k < n → bufferedByte s s.cur (BitVec.ofNat 64 (0x007F000000000000 + o)) (.stash (stashIdx s.myCore o)) k = none
    let value := fun (o n : Nat) => leNat (Memory.readBytes s.ms.stash (stashIdx s.myCore o) n)
    let tile := o / 256 * 256 + (o / 8 % 32 + o / 256) % 32 * 8
    (plain o 1 → ∃ t, exec (.ldB d a i) s = .next t ∧ LoadsX s t d ((BitVec.ofNat 8 (value o 1)).signExtend 64)) ∧
    (plain o 2 → o % 2 = 0 → ∃ t, exec (.ldH d a i) s = .next t ∧ LoadsX s t d ((BitVec.ofNat 16 (value o 2)).signExtend 64)) ∧
    (plain o 4 → o % 4 = 0 → ∃ t, exec (.ldW d a i) s = .next t ∧ LoadsX s t d ((BitVec.ofNat 32 (value o 4)).signExtend 64)) ∧
    (plain o 8 → o % 8 = 0 → ∃ t, exec (.ldD d a i) s = .next t ∧ LoadsX s t d (BitVec.ofNat 64 (value o 8))) ∧
    (plain o 1 → ∃ t, exec (.lduB d a i) s = .next t ∧ LoadsX s t d (BitVec.ofNat 64 (value o 1))) ∧
    (plain o 2 → o % 2 = 0 → ∃ t, exec (.lduH d a i) s = .next t ∧ LoadsX s t d (BitVec.ofNat 64 (value o 2))) ∧
    (plain o 4 → o % 4 = 0 → ∃ t, exec (.lduW d a i) s = .next t ∧ LoadsX s t d (BitVec.ofNat 64 (value o 4))) ∧
    (plain tile 8 → o % 8 = 0 → ∃ t, exec (.ldT d a i) s = .next t ∧ LoadsX s t d (BitVec.ofNat 64 (value tile 8)))

/-- R62, R63: a load of any place its address reaches and that it may read delivers the bytes read there; u is the state after the
translation, g what the read delivers with the state after it. R99: from memory outside software-managed and read-mostly pages, in a line
that reads clean and of which the core holds no copy, where no store of the hart itself is on its way, these are the little-endian bytes
of memory, and no byte changes. A dword load of a register window delivers the register. Rests on the model's choices in
notes/assumptions/6.md. -/
def Obligations.LoadsFromAnyPlace : Prop :=
  ∀ (s : State) (d a : Reg) (i : BitVec 12) (form : Instr) (n : Nat) (ext : Nat → Word),
    (form, n, ext) ∈ ([(.ldB d a i, 1, fun v => (BitVec.ofNat 8 v).signExtend 64),
      (.ldH d a i, 2, fun v => (BitVec.ofNat 16 v).signExtend 64), (.ldW d a i, 4, fun v => (BitVec.ofNat 32 v).signExtend 64),
      (.ldD d a i, 8, BitVec.ofNat 64), (.lduB d a i, 1, BitVec.ofNat 64), (.lduH d a i, 2, BitVec.ofNat 64),
      (.lduW d a i, 4, BitVec.ofNat 64)] : List (Instr × Nat × (Nat → Word))) →
    XReady s [a] → XFree s d →
    let ea := s.me.rx a + i.signExtend 64
    (∀ (p : Place) (u : State) (g : Got), needPureRead ea n s = .ok () → inWindow ea = false → ea.toNat % n = 0 →
      lineLogged s s.myCore ea = false → reach s s.myCore s.me.tctx ea accRead = .ok (p, u) → remotePending u u.cur p n = false →
      readPlace u u.cur ea p n true = .ok g →
      ∃ t, exec form s = .next t ∧ LoadsX g.st t d (ext (leNat g.bytes))) ∧
    (∀ (u : State) (pa holder : Nat) (nc : Bool), needPureRead ea n s = .ok () → inWindow ea = false → ea.toNat % n = 0 →
      lineLogged s s.myCore ea = false → reach s s.myCore s.me.tctx ea accRead = .ok (.mem pa none nc holder false, u) →
      lineState s.ms none pa = .clean → Table.find? s.ms.copies (copyKey holder (pa / 64)) = none → s.me.vcopy = none →
      hasOwnStore s s.cur = false → barrierPending s s.cur (.mem pa none nc holder false) = false → s.me.abuf = [] →
      ∃ v t, exec form s = .next t ∧ LoadsX v t d (ext (leNat (Memory.readBytes s.ms.mem pa n))) ∧ v.ms.mem = s.ms.mem ∧
        v.ms.stash = s.ms.stash ∧ v.ms.wbuf = s.ms.wbuf ∧ (∀ h, v.hart h = s.hart h) ∧ v = { s with ms := v.ms }) ∧
    (∀ v, needPureRead ea n s = .ok () → inWindow ea = true → windowLoad s s.cur ea n = .ok v →
      ∃ t, exec form s = .next t ∧ LoadsX s t d v)

/-- R63: when the data of an outstanding load to x[d] returns, x[d] takes it and is ready; a load to x0 is discarded; nothing else
changes but the load, which is no longer outstanding, the event, and the counters, which count its accesses to an L2 (R310). The same
of a vector load (R227), to v[d], and of BLKUNP (R238), to the registers from v[d] on; the flags of the data stick in RCLASS (R220). R62,
R99: a
store performed at its home, memory outside software-managed pages, of a line that holds no poison, its thread in its slot where it is
past the caches or the home registers it (R310 counts it there): the bytes it wrote read there from then on, and every other byte of physical memory and every stash byte reads as
before. R128: the update of a barrier object at its home, in a line that holds no poison: PENDING
moves by the count; where EXPECT stands and PENDING is not positive, PHASE moves on, EXPECT ends and a negative PENDING sets OVERRUN;
the reserved bits and every other byte of memory stay; the thread that sent it is resident. Rests on the model's choices in
notes/assumptions/48.md. -/
def Obligations.AccessEvents : Prop :=
  (∀ (s : State) (h id n : Nat) (d : Reg) (v : Word) (r : List Event), s.flight = .loadReturn h id :: r →
      (s.hart h).loads.find? (·.id == id) = some ⟨id, .xreg d v, 0#3, n⟩ →
      ∃ t, exec .loadReturn s = .next t ∧ (t.hart h).rx d = (if d = 0#5 then 0#64 else v) ∧ (t.hart h).xok d = true ∧
        (∀ q, q ≠ d → (t.hart h).rx q = (s.hart h).rx q ∧ (t.hart h).xok q = (s.hart h).xok q) ∧
        (t.hart h).loads = (s.hart h).loads.filter (fun l => l.id != id) ∧
        (t.hart h).pmc = (if n = 0 then (s.hart h).pmc else ((s.hart h).count 0x10 n).pmc) ∧
        t.hart h = { s.hart h with x := (t.hart h).x, xready := (t.hart h).xready, loads := (t.hart h).loads, pmc := (t.hart h).pmc } ∧
        (∀ k, k ≠ h → t.hart k = s.hart k) ∧ t = { s with harts := t.harts, flight := r }) ∧
  (∀ (s : State) (h id n : Nat) (d : Reg) (target : LoadTarget) (vs : List VWord) (fl : Sticky) (r : List Event),
      s.flight = .loadReturn h id :: r → (s.hart h).loads.find? (·.id == id) = some ⟨id, target, fl, n⟩ →
      (∃ v, target = .vreg d v ∧ vs = [v]) ∨ target = .vgroup d vs → d.toNat + vs.length ≤ 32 →
      ∃ t, exec .loadReturn s = .next t ∧
        (∀ k, k < vs.length → (t.hart h).rv (d + BitVec.ofNat 5 k) = vs.getD k 0 ∧ (t.hart h).vok (d + BitVec.ofNat 5 k) = true) ∧
        (∀ q : Reg, q.toNat < d.toNat ∨ d.toNat + vs.length ≤ q.toNat →
          (t.hart h).rv q = (s.hart h).rv q ∧ (t.hart h).vok q = (s.hart h).vok q) ∧
        (t.hart h).rclass = (s.hart h).rclass ||| (fl.setWidth 64 <<< 8) ∧
        (t.hart h).loads = (s.hart h).loads.filter (fun l => l.id != id) ∧
        (t.hart h).pmc = (if n = 0 then (s.hart h).pmc else ((s.hart h).count 0x10 n).pmc) ∧
        t.hart h = { s.hart h with v := (t.hart h).v, vready := (t.hart h).vready, loads := (t.hart h).loads, pmc := (t.hart h).pmc
                                   rclass := (t.hart h).rclass } ∧
        (∀ k, k ≠ h → t.hart k = s.hart k) ∧ t = { s with harts := t.harts, flight := r }) ∧
  (∀ (s : State) (id : Nat) (st : Store) (holder : Option Nat) (r : List Event), s.flight = .storePerformed id :: r →
      s.ms.stores.find? (·.id == id) = some st → storesBefore (s.ms.stores.filter (·.id < id)) st = [] →
      st.place = .home none holder → st.shadow = none → isPoison s.ms (st.pa / 64) = false →
      ((∃ o, holder = some o ∧ ownsAll s.ms o none st.pa st.bytes.length = true) ∨
        ∀ k tag p, whereIs s st.hart st.tag ≠ .saved k tag p) →
      ∃ t, exec .storePerformed s = .next t ∧
        (∀ k, k < st.bytes.length → Memory.read t.ms.mem (st.pa + k) = st.bytes.getD k 0#8) ∧
        (∀ a, a < st.pa ∨ st.pa + st.bytes.length ≤ a → Memory.read t.ms.mem a = Memory.read s.ms.mem a) ∧
        t.ms.stash = s.ms.stash ∧ t.ms.stores = s.ms.stores.filter (fun e => e.id != id)) ∧
  (∀ (s : State) (b : BarOp) (r : List Event), s.flight = .barrierUpdate b :: r → b.pa % 16 = 0 →
      isPoison s.ms (b.pa / 64) = false → (∀ h tag, b.slot = some (h, tag) → ∃ k, whereIs s h tag = .resident k) →
      let w := fun (m : Memory) (k : Nat) => BitVec.ofNat 32 (leNat (Memory.readBytes m (b.pa + k) 4))
      let c := BitVec.ofNat 32 b.count
      let pending := if b.expect then w s.ms.mem 0 + c else w s.ms.mem 0 - c
      let expect := b.expect || (w s.ms.mem 8).getLsbD 0
      let completes := expect && pending.sle 0#32
      ∃ t, exec .barrierUpdate s = .next t ∧ w t.ms.mem 0 = pending ∧
        w t.ms.mem 4 = (if completes then w s.ms.mem 4 + 1 else w s.ms.mem 4) ∧
        (w t.ms.mem 8).getLsbD 0 = (expect && !completes) ∧
        (w t.ms.mem 8).getLsbD 1 = ((w s.ms.mem 8).getLsbD 1 || (completes && pending.slt 0#32)) ∧
        (w t.ms.mem 8).extractLsb' 2 30 = (w s.ms.mem 8).extractLsb' 2 30 ∧
        (∀ x, x < b.pa ∨ b.pa + 12 ≤ x → Memory.read t.ms.mem x = Memory.read s.ms.mem x) ∧ t.ms.stash = s.ms.stash)

/-- R62, R65: a store to the local stash, at an aligned offset that no STMAP window covers, writes the low bytes of x[rs2] there and no
other byte; ST.T writes the dword that tile mode permutes its offset to. The hart holds no buffered activation. R62, R64, R66, R99: a
store to a global address outside the stashes and the register windows is set on its way to its home with its bytes: no byte of memory
has changed yet, PC ← PC + 4 (u is the state after the translation). A store to a remote stash counts in UNACK and is on its way to the
byte it names. R104: a store to a line of a read-mostly page that other dies replicate first collapses the replicas: it has not gone
past its instruction, no byte has changed, and no replica of the line is left. -/
def Obligations.Stores : Prop :=
  (∀ (s : State) (a b : Reg) (i : BitVec 12) (o : Nat), Impure s → NoBuffer s → XReady s [a, b] → o < 0x40000 →
      s.me.rx a + i.signExtend 64 = BitVec.ofNat 64 (0x007F000000000000 + o) →
      let plain := fun (o : Nat) => windowAt s s.myCore o = none ∧
        ownLineLogged s s.myCore s.cur (BitVec.ofNat 64 (0x007F000000000000 + o)) = false ∧
        isStashPoison s.ms (stashIdx s.myCore o / 64) = false
      let ea := s.me.rx a + i.signExtend 64
      let y := s.me.rx b
      let tile := o / 256 * 256 + (o / 8 % 32 + o / 256) % 32 * 8
      (plain o → ∃ t, exec (.stB a b i) s = .next t ∧ StoresStash s t ea (stashIdx s.myCore o) 1 y) ∧
      (plain o → o % 2 = 0 → ∃ t, exec (.stH a b i) s = .next t ∧ StoresStash s t ea (stashIdx s.myCore o) 2 y) ∧
      (plain o → o % 4 = 0 → ∃ t, exec (.stW a b i) s = .next t ∧ StoresStash s t ea (stashIdx s.myCore o) 4 y) ∧
      (plain o → o % 8 = 0 → ∃ t, exec (.stD a b i) s = .next t ∧ StoresStash s t ea (stashIdx s.myCore o) 8 y) ∧
      (plain tile → o % 8 = 0 → ∃ t, exec (.stT a b i) s = .next t ∧ StoresStash s t (BitVec.ofNat 64 (0x007F000000000000 + tile)) (stashIdx s.myCore tile) 8 y)) ∧
  (∀ (s : State) (a b : Reg) (i : BitVec 12) (form : Instr) (n : Nat),
      (form, n) ∈ ([(.stB a b i, 1), (.stH a b i, 2), (.stW a b i, 4), (.stD a b i, 8)] : List (Instr × Nat)) →
      Impure s → NoBuffer s → XReady s [a, b] →
      let ea := s.me.rx a + i.signExtend 64
      let bytes := leBytes n (s.me.rx b).toNat
      let sent := fun (u t : State) (id pa : Nat) (place : StorePlace) =>
        id = u.nextId ∧
          t.ms = { u.ms with stores := u.ms.stores ++ [⟨id, u.cur, u.me.tag, ea, pa, bytes, place, placeVmid u u.cur place, u.me.vcopy, none⟩] } ∧
          t.me.pc = u.me.pc + 4 ∧ (∀ r, t.me.rx r = u.me.rx r ∧ t.me.xok r = u.me.xok r) ∧ ∀ h, h ≠ u.cur → t.hart h = u.hart h
      ea.toNat % n = 0 → canonical ea = true →
      (∀ (u : State) (pa : Nat) (sm : Option Nat) (nc : Bool) (holder : Nat), regionOf ea = .global →
        ownLineLogged s s.myCore s.cur ea = false → s.me.vcopy = none → isHost pa = false →
        reach s s.myCore s.me.tctx ea accWrite = .ok (.mem pa sm nc holder false, u) →
        ∃ t, exec form s = .next t ∧ sent u t u.nextId pa (.home sm (if nc then none else some holder)) ∧
          t.flight = u.flight ++ [.storePerformed u.nextId] ∧ t.me.unack = u.me.unack) ∧
      (∀ (u : State) (pa : Nat) (sm : Option Nat) (nc : Bool) (holder : Nat), regionOf ea = .global →
        ownLineLogged s s.myCore s.cur ea = false → s.me.vcopy = none → isHost pa = false →
        reach s s.myCore s.me.tctx ea accWrite = .ok (.mem pa sm nc holder true, u) → replicated u.ms (pa / 64) = true →
        ∃ t, exec form s = .next t ∧ t.me.pc = s.me.pc ∧ (∀ r, t.me.rx r = s.me.rx r) ∧ t.ms.mem = s.ms.mem ∧
          t.ms.stores = s.ms.stores ∧ replicated t.ms (pa / 64) = false ∧ ∀ h, h ≠ s.cur → t.hart h = s.hart h) ∧
      (∀ (g o : Nat), regionOf ea = .remote g o → remoteOf s s.cur ea = some (g, o) → s.me.unack < 1023 →
        ∃ t, exec form s = .next t ∧ sent s t s.nextId (stashIdx g o) (.remoteStash g) ∧
          t.flight = s.flight ++ [.remoteStashWrite s.nextId] ∧ t.me.unack = s.me.unack + 1))

/-! ### Puts, ready bits and messages -/

/-- R68, R69, R43: a put to a locator that the route table permits leaves with the value of the register and, in a release form, the
hart's signature; UNACK counts it, and a status form makes x[rd] not ready. A put on its way to a locator of this node is in flight to
its landing port, with the time it left (R148). In a rollable activation a plain form goes into the buffer instead (R290), whether or not a reply entry is free, though R151
makes every put claim one: the model's choice (notes/assumptions/22.md), by which a buffered put takes its entry when the buffer
releases it. A put to a locator that the route table
does not permit traps PARTESC, precisely, with nothing sent, in every form; PARTESC freezes the hart (R158, R167). -/
def Obligations.PutsSent : Prop :=
  (∀ (s : State) (d a b : Reg) (r : Bool), Impure s → s.me.isV = false → s.me.unack < 1023 → XReady s [a] →
      let loc := resolveLocal s.plat.node (s.me.rx a)
      let p := fun (wide : Bool) (v : VWord) (st : Option Reg) (isStatus : Bool) =>
        (⟨loc, wide, v, if r then some s.me.releaseSig else none, 0,
          some ⟨s.plat.node.toNat, s.cur / 8, s.cur % 8, s.me.tag, st, isStatus, 0, 0⟩, false, 0#3, false, none⟩ : Put)
      permits s s.myCore loc = true → (r = true → needReleased s = .ok ()) →
      (NoBuffer s → sendFree s.me false = true →
        (XReady s [b] → ∃ t, exec (.rput a b r) s = .next t ∧ Sends s t (p false ((s.me.rx b).setWidth 512) none false) none) ∧
        (VReady s [b] → ∃ t, exec (.rputv a b r) s = .next t ∧ Sends s t (p true (s.me.rv b) none false) none) ∧
        (XReady s [b] → XFree s d → ∃ t, exec (.rputS d a b r) s = .next t ∧
          Sends s t (p false ((s.me.rx b).setWidth 512) (some d) true) (some d)) ∧
        (VReady s [b] → XFree s d → ∃ t, exec (.rputvS d a b r) s = .next t ∧ Sends s t (p true (s.me.rv b) (some d) true) (some d)) ∧
        (∀ (q : Put), locNode loc = s.plat.node.toNat → q.loc = loc →
          let stamped : Put := { q with sender := q.sender.map fun d => { d with sent := s.time.setWidth 32, id := s.nextId } }
          (launchPut s q).flight = s.flight ++ [.putArrival stamped] ∧ (launchPut s q).fab = s.fab)) ∧
      (s.me.buffering = true → bufBytes (s.me.abuf ++ [.put { p false 0 none false with sig := none } r]) ≤ 2048 →
        (XReady s [b] → ∃ t, exec (.rput a b r) s = .next t ∧ t.flight = s.flight ∧ t.ms = s.ms ∧ t.me.unack = s.me.unack ∧
          t.me.abuf = s.me.abuf ++ [.put { p false ((s.me.rx b).setWidth 512) none false with sig := none } r] ∧ Arms s.me t.me none) ∧
        (VReady s [b] → ∃ t, exec (.rputv a b r) s = .next t ∧ t.flight = s.flight ∧ t.ms = s.ms ∧ t.me.unack = s.me.unack ∧
          t.me.abuf = s.me.abuf ++ [.put { p true (s.me.rv b) none false with sig := none } r] ∧ Arms s.me t.me none))) ∧
  (∀ (s : State) (d a b : Reg) (r : Bool), Impure s → s.me.unack < 1023 → XReady s [a] →
      let loc := resolveLocal s.plat.node (s.me.rx a)
      permits s s.myCore loc = false →
      let escapes := fun (i : Instr) => ∃ t, exec i s = .next t ∧ t = takeTrap s s.cur 0x15 loc false ∧ t.me.frozen = some (0x15, loc) ∧
        t.flight = s.flight ∧ t.ms = s.ms ∧ t.me.unack = s.me.unack
      (XReady s [b] → escapes (.rput a b r)) ∧ (VReady s [b] → escapes (.rputv a b r)) ∧
        (XReady s [b] → XFree s d → escapes (.rputS d a b r)) ∧ (VReady s [b] → XFree s d → escapes (.rputvS d a b r)))

/-- R70: ARM and ARMV clear one ready bit and change nothing else; ARM x0 leaves x0 ready. R174: HMASK and HUNMASK set and clear the
masks of the channels 1 to 63 that bits 1 to 63 of x[rs1] name, at the issuing core; no other channel's mask changes, nor any other
core's; PC ← PC + 4 and no register changes. -/
def Obligations.ReadyBitsAndMasks : Prop :=
  (∀ (s : State) (d : Reg), Impure s →
      (∃ t, exec (.arm d) s = .next t ∧ RegFrame s t ∧ Arms s.me t.me (some d) ∧ t.me.rclass = s.me.rclass) ∧
      (∃ t, exec (.armv d) s = .next t ∧ RegFrame s t ∧ t.me.pc = s.me.pc + 4 ∧ t.me.rclass = s.me.rclass ∧ t.me.vok d = false ∧
        (∀ r, t.me.rv r = s.me.rv r) ∧ (∀ r, r ≠ d → t.me.vok r = s.me.vok r) ∧ XKept s.me t.me [] ∧ MKept s.me t.me [])) ∧
  (∀ (s : State) (a : Reg), Impure s → XReady s [a] →
      let w := s.me.rx a
      let masks := fun (t : State) (v : Bool) =>
        (∀ c, c < 64 → ((t.core s.myCore).chan c).masked = if c ≠ 0 ∧ w.getLsbD c = true then v else ((s.core s.myCore).chan c).masked) ∧
        (∀ k, k ≠ s.myCore → t.core k = s.core k) ∧ t.ms = s.ms ∧ Arms s.me t.me none
      (∃ t, exec (.hmask a) s = .next t ∧ masks t true) ∧ (∃ t, exec (.hunmask a) s = .next t ∧ masks t false))

/-- R169, R171: MSEND, MSEND.S and CALLAT claim an entry that holds the message: the header, the payload, unused words 0, word 5 and
word 6; it is offered at once where no earlier message of the hart to that channel is undecided (R144). -/
def Obligations.MessagesSent : Prop :=
  ∀ (s : State) (d a b : Reg) (c : BitVec 2), Impure s → NoBuffer s → s.me.isV = false → XReady s [a] →
    let loc := resolveLocal s.plat.node (s.me.rx a)
    let request := sendsRequest s s.cur
    permits s s.myCore loc = true → sendFree s.me request = true →
    let payload := fun (from_ n : Nat) => (List.range n).map fun k => s.me.rx (BitVec.ofNat 5 (from_ + k))
    let message := fun (m : Msg) (n : Nat) (data : List Word) (w5 w6 : Word) (call : Bool) (st : Option Reg) =>
      m.words = [headerWord s s.myCore (s.cur % 8) (BitVec.ofNat 6 (locIdx loc)) (n - 1)] ++ data ++ List.replicate (4 - n) 0#64 ++
        [w5, w6, 0#64] ∧ m.srcCore = s.myCore ∧ m.srcHart = s.cur % 8 ∧ m.srcTag = s.me.tag ∧ m.srcNode = s.plat.node.toNat ∧
      m.reply = !request ∧ m.dstNode = locNode loc ∧ m.dstCore = (locCore loc).getD 4095 ∧ m.chan = BitVec.ofNat 6 (locIdx loc) ∧
      m.count = n ∧ m.call = call ∧ m.status = st
    let offered := fun (t : State) (m : Msg) =>
      (∀ e ∈ s.me.sendq, e.msg.id < s.nextId) → m.dstNode = s.plat.node.toNat →
      (∀ e ∈ s.me.sendq, sameStream e.msg m = true → e.buffered = true ∨ e.returned = true) →
      t.flight = s.flight ++ [.messageArrival m]
    let n := c.toNat + 1
    (b.toNat + n ≤ 32 → XReady s ((List.range n).map fun k => BitVec.ofNat 5 (b.toNat + k)) →
      (∃ t m e, exec (.msend a b c) s = .next t ∧ Claims s t m e none ∧ message m n (payload b.toNat n) 0 0 false none ∧ offered t m) ∧
      (XFree s d → ∃ t m e, exec (.msendS d a b c) s = .next t ∧ Claims s t m e (some d) ∧
        message m n (payload b.toNat n) 0 0 false (some d) ∧ offered t m)) ∧
    (XReady s [b, 10#5, 11#5, 12#5, 13#5] → XFree s d → ∃ t m e, exec (.callat d a b) s = .next t ∧ Claims s t m e (some d) ∧
      message m 4 (payload 10 4) (s.me.rx b &&& ~~~1#64) (if d = 0#5 then 0#64 else locOfSlot s s.cur d.toNat) true none ∧ offered t m)

/-! ### Queue handles -/

/-- R178: QPOP, QADV, QCNT and QWAIT on a handle bound to a software queue or to a channel, once the wait is over: the counts of the queue
move by n = min(imm12, slots), the PC advances, and nothing else changes, but that a pop by an activation of its own channel keeps the
slots popped (R291) and marks it past its pop (R147), and that a pop of a channel may set on their way what the free slots allow: a
dispatch and a drain of the return buffer. A handle unbound traps QUNBOUND. R177: QCFG from a mode of at least S, of a
descriptor in the local stash: a descriptor whose reserved bits and second dword are zero, a software queue 0 to 15 or a channel 1 to 63
as consumer binds the handle to it; any other descriptor traps ACCESS; a lower mode traps PRIV. Rests on the model's choices in
notes/assumptions/24.md. -/
def Obligations.QueueForms : Prop :=
  (∀ (s : State) (d x : Reg) (h : QReg) (i : BitVec 12), Impure s →
      let k := s.core s.myCore
      (∀ (j : BitVec 4) (producer : Bool), Table.find? s.me.handles h.toNat = some (.soft j producer) →
        let q := k.softq j.toNat
        let filled := (q.prod - q.cons).toNat
        let size := 2 ^ (q.w1.extractLsb' 6 4).toNat
        let n := min i.toNat size
        let only := fun (t : State) (q' : SoftQ) => (t.core s.myCore).softq j.toNat = q' ∧
          (∀ l, l ≠ j.toNat → (t.core s.myCore).softq l = k.softq l) ∧ t.core s.myCore = { k with soft := (t.core s.myCore).soft } ∧
          (∀ c, c ≠ s.myCore → t.core c = s.core c) ∧ Passes { s with cores := t.cores } t
        (producer = false → n ≤ filled → s.me.loads = [] →
          ∃ t, exec (.qpop h x i) s = .next t ∧ only t { q with cons := q.cons + BitVec.ofNat 16 n }) ∧
        (producer = true → filled + n ≤ size → (NoBuffer s ∨ s.me.abuf = []) → stashStoreOut s s.cur = false →
          ∃ t, exec (.qadv h x i) s = .next t ∧ only t { q with prod := q.prod + BitVec.ofNat 16 n }) ∧
        (producer = false → n ≤ filled → ∃ t, exec (.qwait h x i) s = .next t ∧ Passes s t) ∧
        (XFree s d → ∃ t, exec (.qcnt d h i) s = .next t ∧ WritesX s t d (BitVec.ofNat 64 filled) 4)) ∧
      (∀ c, Table.find? s.me.handles h.toNat = some (.chan c) →
        let q := k.chan c.toNat
        let filled := (q.prod - q.cons).toNat
        let n := min i.toNat (2 ^ (q.w1.extractLsb' 6 4).toNat)
        (n ≤ filled → s.me.loads = [] → ∃ t, exec (.qpop h x i) s = .next t ∧
          (t.core s.myCore).chan c.toNat = { q with
            cons := q.cons + BitVec.ofNat 16 n, stamps := q.stamps.drop n, started := ((t.core s.myCore).chan c.toNat).started } ∧
          (s.me.slot ≠ .activation c → ((t.core s.myCore).chan c.toNat).started = q.started) ∧
          (∀ l, l ≠ c.toNat → (t.core s.myCore).chan l = k.chan l) ∧ t.core s.myCore = { k with chans := (t.core s.myCore).chans } ∧
          (∀ l, l ≠ s.myCore → t.core l = s.core l) ∧
          (∃ l, t.flight = s.flight ++ l ∧ ∀ e ∈ l, e = .activationDispatch s.myCore ∨ e = .returnBufferDrain s.myCore) ∧
          Passes ({ s with cores := t.cores, flight := t.flight }.setMe { s.me with popped := t.me.popped, past := t.me.past }) t ∧
          (s.me.slot ≠ .activation c → t.me.popped = s.me.popped ∧ t.me.past = s.me.past)) ∧
        (n ≤ filled → ∃ t, exec (.qwait h x i) s = .next t ∧ Passes s t) ∧
        (XFree s d → ∃ t, exec (.qcnt d h i) s = .next t ∧ WritesX s t d (BitVec.ofNat 64 filled) 4)) ∧
      (Table.find? s.me.handles h.toNat = none →
        let unbound := fun (f : Instr) => exec f s = .next (takeTrap s s.cur 0x12 (BitVec.ofNat 64 h.toNat) false)
        unbound (.qpop h x i) ∧ unbound (.qadv h x i) ∧ unbound (.qwait h x i) ∧ (XFree s d → unbound (.qcnt d h i)))) ∧
  (∀ (s : State) (a : Reg) (h : QReg) (x : BitVec 12) (o : Nat), Impure s → XReady s [a] → o < 0x40000 → o % 16 = 0 →
      s.me.rx a = BitVec.ofNat 64 (0x007F000000000000 + o) →
      let w : BitVec 64 := BitVec.ofNat 64 (leNat (Memory.readBytes s.ms.stash (stashIdx s.myCore o) 8))
      let legal : Prop := leNat (Memory.readBytes s.ms.stash (stashIdx s.myCore o + 8) 8) = 0 ∧
        w.extractLsb' 10 54 = 0#54 ∧ w.extractLsb' 6 2 = 0#2 ∧
        (if w.getLsbD 8 then (w.extractLsb' 0 6).toNat ≤ 15 else w.getLsbD 9 = false ∧ w.extractLsb' 0 6 ≠ 0#6)
      (s.me.mode = .u → exec (.qcfg h a x) s = .next (takeTrap s s.cur 0x02 (Instr.bits (.qcfg h a x)) false)) ∧
      (s.me.mode ≠ .u → windowAt s s.myCore o = none → lineLogged s s.myCore (s.me.rx a) = false →
        remotePending s s.cur (.stash (stashIdx s.myCore o)) 16 = false → isStashPoison s.ms (stashIdx s.myCore o / 64) = false →
        (∀ k, k < 16 → bufferedByte s s.cur (BitVec.ofNat 64 (0x007F000000000000 + o)) (.stash (stashIdx s.myCore o)) k = none) →
        (legal → ∃ t, exec (.qcfg h a x) s = .next t ∧
          Table.find? t.me.handles h.toNat =
            some (if w.getLsbD 8 then .soft (w.extractLsb' 0 4) (w.getLsbD 9) else .chan (w.extractLsb' 0 6)) ∧
          (∀ l, l ≠ h.toNat → Table.find? t.me.handles l = Table.find? s.me.handles l) ∧ Arms s.me t.me none ∧ OthersKept s t) ∧
        (¬ legal → exec (.qcfg h a x) s = .next (takeTrap s s.cur 0x06 (s.me.rx a) false))))

/-! ### Atomics, acquires and releases -/

/-- R121, R122, R124: each AMO on the local stash, at its aligned offset: the bytes there take the new value, every other byte is kept,
and the old value, sign-extended, is on its way to x[rd]; with .AQ and .RL once their waits are over. CAS writes b only where the old
value is x[rd]. An earlier synchronisation operation of the hart that is still under way comes first (R108). Rests on the model's
choices in notes/assumptions/21.md. -/
def Obligations.AmoOperations : Prop :=
  ∀ (s : State) (d a b : Reg) (q r : Bool) (o : Nat), Impure s → NoBuffer s → XReady s [a, b] → XFree s d → o < 0x40000 →
    s.me.rx a = BitVec.ofNat 64 (0x007F000000000000 + o) → s.me.vcopy = none →
    windowAt s s.myCore o = none → ownLineLogged s s.myCore s.cur (s.me.rx a) = false → needSyncOrder s = .ok () →
    (r = true → needReleased s = .ok ()) → (q = true → needAcquire s = .ok ()) →
    isStashPoison s.ms (stashIdx s.myCore o / 64) = false →
    let idx := stashIdx s.myCore o
    let amo := fun (f : Instr) (n : Nat) (new : BitVec (8 * n) → BitVec (8 * n) → BitVec (8 * n)) =>
      o % n = 0 → remotePending s s.cur (.stash idx) n = false →
      (∀ k, k < n → bufferedByte s s.cur (BitVec.ofNat 64 (0x007F000000000000 + o)) (.stash (stashIdx s.myCore o)) k = none) →
      let old := BitVec.ofNat (8 * n) (leNat (Memory.readBytes s.ms.stash idx n))
      ∃ u t, exec f s = .next t ∧ LoadsX u t d (old.signExtend 64) ∧ u = { s with ms := { s.ms with stash := u.ms.stash } } ∧
        leNat (Memory.readBytes u.ms.stash idx n) = (new old ((s.me.rx b).setWidth (8 * n))).toNat ∧
        ∀ x, x < idx ∨ idx + n ≤ x → Memory.read u.ms.stash x = Memory.read s.ms.stash x
    amo (.amoswapW d a b q r) 4 (fun _ y => y) ∧ amo (.amoswapD d a b q r) 8 (fun _ y => y) ∧
    amo (.amoaddW d a b q r) 4 (fun x y => x + y) ∧ amo (.amoaddD d a b q r) 8 (fun x y => x + y) ∧
    amo (.amoandW d a b q r) 4 (fun x y => x &&& y) ∧ amo (.amoandD d a b q r) 8 (fun x y => x &&& y) ∧
    amo (.amoorW d a b q r) 4 (fun x y => x ||| y) ∧ amo (.amoorD d a b q r) 8 (fun x y => x ||| y) ∧
    amo (.amoxorW d a b q r) 4 (fun x y => x ^^^ y) ∧ amo (.amoxorD d a b q r) 8 (fun x y => x ^^^ y) ∧
    amo (.amominW d a b q r) 4 (fun x y => if x.sle y then x else y) ∧
    amo (.amominD d a b q r) 8 (fun x y => if x.sle y then x else y) ∧
    amo (.amomaxW d a b q r) 4 (fun x y => if x.sle y then y else x) ∧
    amo (.amomaxD d a b q r) 8 (fun x y => if x.sle y then y else x) ∧
    amo (.amominuW d a b q r) 4 (fun x y => if x.ule y then x else y) ∧
    amo (.amominuD d a b q r) 8 (fun x y => if x.ule y then x else y) ∧
    amo (.amomaxuW d a b q r) 4 (fun x y => if x.ule y then y else x) ∧
    amo (.amomaxuD d a b q r) 8 (fun x y => if x.ule y then y else x) ∧
    amo (.amofaddW d a b q r) 4 (fun x y => BitVec.ofNat 32 (fAdd f32Fmt x.toNat y.toNat)) ∧
    (XReady s [d] → amo (.amocasW d a b q r) 4 (fun x y => if x = (s.me.rx d).setWidth 32 then y else x)) ∧
    (XReady s [d] → amo (.amocasD d a b q r) 8 (fun x y => if x = (s.me.rx d).setWidth 64 then y else x))

/-- R122: an AMO on memory, in a line that reads clean, outside software-managed and read-mostly pages and V launches: the word at its
home takes the new value and every other byte of memory and of the stashes is kept; the old value is on its way to x[rd]. The new values
are those of the statement on the local stash. Rests on the model's choices in notes/assumptions/21.md. -/
def Obligations.AmoOnMemory : Prop :=
  ∀ (s u : State) (d a b : Reg) (q r : Bool) (pa holder : Nat) (nc : Bool),
    Impure s → NoBuffer s → XReady s [a, b] → XFree s d → s.me.vcopy = none → s.me.running = true → s.me.tag ≠ 0 →
    inWindow (s.me.rx a) = false → ownLineLogged s s.myCore s.cur (s.me.rx a) = false →
    reach s s.myCore s.me.tctx (s.me.rx a) accAmo = .ok (.mem pa none nc holder false, u) → isHost pa = false →
    needSyncOrder s = .ok () → (r = true → needReleased s = .ok ()) → (q = true → needAcquire s = .ok ()) →
    hasOwnStore s s.cur = false → barrierPending s s.cur (.mem pa none nc holder false) = false → s.me.abuf = [] →
    lineState s.ms none pa = .clean →
    let amo := fun (f : Instr) (n : Nat) (new : Nat → Nat → Nat) => (s.me.rx a).toNat % n = 0 →
      let old := leNat (Memory.readBytes s.ms.mem pa n)
      ∃ v t, exec f s = .next t ∧ LoadsX v t d ((BitVec.ofNat (8 * n) old).signExtend 64) ∧
        v.me = { s.me with sigCur := v.me.sigCur } ∧ (∀ h, h ≠ s.cur → v.hart h = s.hart h) ∧
        leNat (Memory.readBytes v.ms.mem pa n) = new old ((s.me.rx b).toNat % 2 ^ (8 * n)) % 2 ^ (8 * n) ∧
        (∀ x, x < pa ∨ pa + n ≤ x → Memory.read v.ms.mem x = Memory.read s.ms.mem x) ∧ v.ms.stash = s.ms.stash
    amo (.amoswapW d a b q r) 4 (AmoOp.swap.apply 4) ∧ amo (.amoswapD d a b q r) 8 (AmoOp.swap.apply 8) ∧
    amo (.amoaddW d a b q r) 4 (AmoOp.add.apply 4) ∧ amo (.amoaddD d a b q r) 8 (AmoOp.add.apply 8) ∧
    amo (.amoandW d a b q r) 4 (AmoOp.and.apply 4) ∧ amo (.amoandD d a b q r) 8 (AmoOp.and.apply 8) ∧
    amo (.amoorW d a b q r) 4 (AmoOp.or.apply 4) ∧ amo (.amoorD d a b q r) 8 (AmoOp.or.apply 8) ∧
    amo (.amoxorW d a b q r) 4 (AmoOp.xor.apply 4) ∧ amo (.amoxorD d a b q r) 8 (AmoOp.xor.apply 8) ∧
    amo (.amominW d a b q r) 4 (AmoOp.min.apply 4) ∧ amo (.amominD d a b q r) 8 (AmoOp.min.apply 8) ∧
    amo (.amomaxW d a b q r) 4 (AmoOp.max.apply 4) ∧ amo (.amomaxD d a b q r) 8 (AmoOp.max.apply 8) ∧
    amo (.amominuW d a b q r) 4 (AmoOp.minu.apply 4) ∧ amo (.amominuD d a b q r) 8 (AmoOp.minu.apply 8) ∧
    amo (.amomaxuW d a b q r) 4 (AmoOp.maxu.apply 4) ∧ amo (.amomaxuD d a b q r) 8 (AmoOp.maxu.apply 8) ∧
    amo (.amofaddW d a b q r) 4 (AmoOp.fadd.apply 4) ∧
    (XReady s [d] → amo (.amocasW d a b q r) 4 (fun x y => if x = (s.me.rx d).toNat % 2 ^ 32 then y else x)) ∧
    (XReady s [d] → amo (.amocasD d a b q r) 8 (fun x y => if x = (s.me.rx d).toNat % 2 ^ 64 then y else x))

/-- R118, R119: LD.AQ and ST.RL of the local stash, at an aligned offset, and of memory, once their waits are over. In the stash LD.AQ
is a load of the dword and ST.RL a store of it. In memory LD.AQ delivers the dword at its home and changes no byte; ST.RL writes the
dword at its home and no other byte, and publishes the hart's release signature to the line (R102). Rests on the model's choices in
notes/assumptions/21.md, notes/assumptions/22.md. -/
def Obligations.AcquireRelease : Prop :=
  ∀ (s : State) (d a b : Reg), Impure s → NoBuffer s → XReady s [a] →
    let ea := s.me.rx a
    let dword := fun (m : Memory) (x : Nat) => BitVec.ofNat 64 (leNat (Memory.readBytes m x 8))
    (∀ o, o < 0x40000 → o % 8 = 0 → ea = BitVec.ofNat 64 (0x007F000000000000 + o) → windowAt s s.myCore o = none →
      isStashPoison s.ms (stashIdx s.myCore o / 64) = false →
      (XFree s d → lineLogged s s.myCore ea = false → needAcquire s = .ok () →
        remotePending s s.cur (.stash (stashIdx s.myCore o)) 8 = false →
        (∀ k, k < 8 → bufferedByte s s.cur (BitVec.ofNat 64 (0x007F000000000000 + o)) (.stash (stashIdx s.myCore o)) k = none) →
        ∃ t, exec (.ldAq d a) s = .next t ∧ LoadsX s t d (dword s.ms.stash (stashIdx s.myCore o))) ∧
      (XReady s [b] → needReleased s = .ok () →
        ∃ t, exec (.stRl a b) s = .next t ∧ StoresStash s t ea (stashIdx s.myCore o) 8 (s.me.rx b))) ∧
    (∀ (u : State) (pa holder : Nat) (nc : Bool), inWindow ea = false → ea.toNat % 8 = 0 → regionOf ea ≠ .noStash →
      s.me.vcopy = none → lineState s.ms none pa = .clean →
      (XFree s d → lineLogged s s.myCore ea = false → needAcquire s = .ok () → hasOwnStore s s.cur = false → s.me.abuf = [] →
        barrierPending s s.cur (.mem pa none nc holder false) = false →
        reach s s.myCore s.me.tctx ea accRead = .ok (.mem pa none nc holder false, u) →
        ∃ v t, exec (.ldAq d a) s = .next t ∧ LoadsX v t d (dword s.ms.mem pa) ∧ v.me = { s.me with sigCur := v.me.sigCur } ∧
          (∀ h, h ≠ s.cur → v.hart h = s.hart h) ∧ v.ms.mem = s.ms.mem ∧ v.ms.stash = s.ms.stash) ∧
      (XReady s [b] → needReleased s = .ok () → s.me.running = true → s.me.tag ≠ 0 →
        reach s s.myCore s.me.tctx ea accWrite = .ok (.mem pa none nc holder false, u) →
        ∃ t, exec (.stRl a b) s = .next t ∧ dword t.ms.mem pa = s.me.rx b ∧
          (∀ x, x < pa ∨ pa + 8 ≤ x → Memory.read t.ms.mem x = Memory.read s.ms.mem x) ∧ t.ms.stash = s.ms.stash ∧
          (Table.get (Sig.empty, Sig.empty) t.ms.homeSigs (pa / 64)).1 =
            sigUnion (Table.get (Sig.empty, Sig.empty) s.ms.homeSigs (pa / 64)).1 s.me.releaseSig ∧
          Arms s.me t.me none ∧ ∀ h, h ≠ s.cur → t.hart h = s.hart h))

/-- R120: LDTO and LDTO.W of the local stash send the dword, or the word sign-extended, to the locator in x[rs2], without a signature;
UNACK counts the delivery; no register is written. Rests on the model's choices in notes/assumptions/6.md, notes/assumptions/24.md. -/
def Obligations.LoadsToLocators : Prop :=
  ∀ (s : State) (a b : Reg) (o : Nat), Impure s → NoBuffer s → XReady s [a, b] → s.me.unack < 1023 → o < 0x40000 →
    s.me.rx a = BitVec.ofNat 64 (0x007F000000000000 + o) → windowAt s s.myCore o = none →
    lineLogged s s.myCore (s.me.rx a) = false → isStashPoison s.ms (stashIdx s.myCore o / 64) = false →
    let loc := resolveLocal s.plat.node (s.me.rx b)
    permits s s.myCore loc = true → sendFree s.me false = true →
    let sent := fun (n : Nat) (v : Word) (f : Instr) => o % n = 0 →
      remotePending s s.cur (.stash (stashIdx s.myCore o)) n = false →
      (∀ k, k < n → bufferedByte s s.cur (BitVec.ofNat 64 (0x007F000000000000 + o)) (.stash (stashIdx s.myCore o)) k = none) →
      ∃ t, exec f s = .next t ∧ Sends s t ⟨loc, false, v.setWidth 512, none, 0,
        some ⟨s.plat.node.toNat, s.cur / 8, s.cur % 8, s.me.tag, none, false, 0, 0⟩, false, 0#3, false, none⟩ none
    let value := fun (n : Nat) => leNat (Memory.readBytes s.ms.stash (stashIdx s.myCore o) n)
    sent 8 (BitVec.ofNat 64 (value 8)) (.ldto a b) ∧ sent 4 ((BitVec.ofNat 32 (value 4)).signExtend 64) (.ldtoW a b)

/-! ### Fences, barrier objects, cache ranges and translation buffers -/

/-- R125, R126: FENCE and FENCE.E, once their waits are over, end every unowned word of the core's L1D and stash windows, and the hart's
signature then covers every line (the model's choice, notes/assumptions/80.md); IFLUSH ends every instruction held in the core's fetch
path, once the hart's earlier stores are performed, those of its side log and those to control and package windows among them; no other
copy, no byte of memory and no register changes. -/
def Obligations.Fences : Prop :=
  ∀ (s : State), NoBuffer s →
    let drops := fun (u t : State) (gone : Nat → Bool) =>
      Passes { u with ms := { u.ms with copies := t.ms.copies } } t ∧
        (∀ k c, gone (k / 2 ^ 50) = true → (k, c) ∈ t.ms.copies → c.valid = 0#8) ∧
        ∀ k c, gone (k / 2 ^ 50) = false → ((k, c) ∈ t.ms.copies ↔ (k, c) ∈ s.ms.copies)
    let v := s.setMe { s.me with sigCur := sigUnion s.me.sigCur sigAll }
    (needReleased s = .ok () →
      (∃ t, exec .fence s = .next t ∧ drops v t (fun holder => holder / 64 == s.myCore && holder != fetchHolder s.myCore)) ∧
      (s.me.engines = 0 → ∃ t, exec .fenceE s = .next t ∧
        drops v t (fun holder => holder / 64 == s.myCore && holder != fetchHolder s.myCore))) ∧
    (s.me.engines ≠ 0 → exec .fenceE s = .next (s.setMe { s.me with stall := some .other })) ∧
    (hasOwnStore s s.cur = false → hasOwnLog s s.cur = false → Delivered s →
      ∃ t, exec .iflush s = .next t ∧ drops s t (fun holder => holder == fetchHolder s.myCore))

/-- R127, R128, R129: the barrier forms at an object that they reach: BAREXP and BARARR set their update, with the hart's signature, on
its way to the object and UNACK counts it; BARWAIT waits while PHASE is the one named, else writes PHASE, with OVERRUN in bit 63, to
x[rd], and its access at the home counts as one to an L2 (R310). Rests on the model's choices in notes/assumptions/21.md, notes/assumptions/24.md, notes/assumptions/71.md. -/
def Obligations.BarrierForms : Prop :=
  ∀ (s u : State) (d a n : Reg) (pa holder : Nat) (nc rm : Bool), Impure s → NoBuffer s → XReady s [a, n] →
    let va := s.me.rx a
    inWindow va = false → va.toNat % 16 = 0 → isHost pa = false →
    let sent := fun (expect : Bool) (t : State) =>
      t.flight = s.flight ++ [.barrierUpdate ⟨expect, va, pa, ((s.me.rx n).extractLsb' 0 32).toNat, ⟨0, s.myCore, s.cur % 8⟩,
        some s.me.releaseSig, some (s.cur, s.me.tag), s.me.vmid⟩] ∧
      t.me.unack = s.me.unack + 1 ∧ Arms s.me t.me none ∧ t.ms = { s.ms with tlb := t.ms.tlb } ∧ ∀ h, h ≠ s.cur → t.hart h = s.hart h
    (needReleased s = .ok () → s.me.unack < 1023 →
      reach s s.myCore s.me.tctx va accAmo = .ok (.mem pa none nc holder rm, u) →
      (∃ t, exec (.barexp a n) s = .next t ∧ sent true t) ∧ (∃ t, exec (.bararr a n) s = .next t ∧ sent false t)) ∧
    (needAcquire s = .ok () → XFree s d → hasOwnStore s s.cur = false →
      reach s s.myCore s.me.tctx va accRead = .ok (.mem pa none nc holder rm, u) →
      let phase := BitVec.ofNat 32 (leNat (Memory.readBytes s.ms.mem (pa + 4) 4))
      let overrun := (Memory.read s.ms.mem (pa + 8)).getLsbD 1
      (phase = (s.me.rx n).setWidth 32 → exec (.barwait d a n) s = .next (s.setMe { s.me with stall := some .other })) ∧
      (phase ≠ (s.me.rx n).setWidth 32 → ∃ v t, exec (.barwait d a n) s = .next t ∧
        WritesX v t d (phase.setWidth 64 ||| (if overrun then 0x8000000000000000#64 else 0#64)) 4 ∧
        v.me = { s.me with sigCur := v.me.sigCur, pmc := (s.me.count 0x10 1).pmc } ∧ (∀ h, h ≠ s.cur → v.hart h = s.hart h) ∧
        v.ms.mem = s.ms.mem ∧ v.ms.stash = s.ms.stash))

/-- R131 to R135: the cache forms. A form over no line changes nothing but the PC. A form over one line that it reaches acts on that
line; a start or a length that is no multiple of 64 traps MISALIGN with the start; a page that lacks the permission raises ACCESS with
the start; PIN and UNPIN trap PRIV below S. PREF runs whatever the range and changes no byte. R132, R133, R134: what the forms do to a
line of memory outside software-managed pages. RINV ends the core's unowned words of the line and keeps every byte of memory; DISC puts
back the value the line had in memory before it was dirty, poison where it was (R289); PIN and UNPIN lock and unlock it and change no byte, but where a pin leaves
its set no free way. Rests on the model's choices in notes/assumptions/25.md. -/
def Obligations.CacheForms : Prop :=
  (∀ (s : State) (a b : Reg), XReady s [a, b] → Impure s →
      let va := s.me.rx a
      let len := s.me.rx b
      let forms : List (Instr × Nat × (State → Place → State)) := [(.rwb a b, accRead, rwbLine), (.rinv a b, accRead, rinvLine),
        (.disc a b, accWrite, discLine), (.pin a b, accRead, pinLine), (.unpin a b, accRead, unpinLine)]
      (∀ f ∈ forms, (modeAtLeast s.me.mode .s = true ∨ f.1 = .rwb a b ∨ f.1 = .rinv a b ∨ f.1 = .disc a b) →
        inWindow va = false →
        (¬ (va.toNat % 64 = 0 ∧ len.toNat % 64 = 0) → exec f.1 s = .next (takeTrap s s.cur 0x03 va false)) ∧
        (va.toNat % 64 = 0 → len = 0#64 → hasOwnStore s s.cur = false → ∃ t, exec f.1 s = .next t ∧ Passes s t) ∧
        (∀ x y st acc, va.toNat % 64 = 0 → len = 64#64 → canonicalRange va 64 = true → hasOwnStore s s.cur = false →
          reach s s.myCore s.me.tctx va f.2.1 = .error (.hold x y st acc true) →
          ∃ t, exec f.1 s = .next t ∧ t.me.frozen = some (0x06, va) ∧ t.ms = s.ms ∧ ∀ h, h ≠ s.cur → t.hart h = s.hart h) ∧
        (∀ p u, va.toNat % 64 = 0 → len = 64#64 → canonicalRange va 64 = true → hasOwnStore s s.cur = false →
          reach s s.myCore s.me.tctx va f.2.1 = .ok (p, u) → ∃ t, exec f.1 s = .next t ∧ Passes (f.2.2 u p) t)) ∧
      (s.me.mode = .u → exec (.pin a b) s = .next (takeTrap s s.cur 0x02 (Instr.bits (.pin a b)) false) ∧
        exec (.unpin a b) s = .next (takeTrap s s.cur 0x02 (Instr.bits (.unpin a b)) false)) ∧
      (∃ t, exec (.pref a b) s = .next t ∧ Arms s.me t.me none ∧
        t = { s with harts := t.harts, ms := { s.ms with tlb := t.ms.tlb, copies := t.ms.copies, dies := t.ms.dies,
                                                         replicas := t.ms.replicas, poison := t.ms.poison } })) ∧
  (∀ (s : State) (pa holder : Nat),
      let p := Place.mem pa none false holder false
      let gone := fun k => isDataHolder s.myCore (k / 2 ^ 50) = true ∧ k % 2 ^ 50 = pa / 64
      ((rinvLine s p).ms.mem = s.ms.mem ∧ (rinvLine s p).ms.owners = s.ms.owners ∧
        (∀ k c, gone k → (k, c) ∈ (rinvLine s p).ms.copies → c.valid = 0#8) ∧
        ∀ k c, ¬ gone k → ((k, c) ∈ (rinvLine s p).ms.copies ↔ (k, c) ∈ s.ms.copies)) ∧
      (∀ v bad, Table.find? s.ms.dirty (pa / 64) = some (v, bad) →
        Memory.readBlock (discLine s p).ms.mem (pa / 64 * 64) = v ∧ isPoison (discLine s p).ms (pa / 64) = bad) ∧
      (∀ x, x < pa / 64 * 64 ∨ pa / 64 * 64 + 64 ≤ x → Memory.read (discLine s p).ms.mem x = Memory.read s.ms.mem x) ∧
      (isHost pa = false →
        (pinnedInSet s.ms (pa / 64) + 1 < Config.l2Ways → (pinLine s p).ms.mem = s.ms.mem) ∧
        (pinnedInSet s.ms (pa / 64) < Config.l2Ways → isPinned (pinLine s p).ms (pa / 64) = true) ∧
        (Config.l2Ways ≤ pinnedInSet s.ms (pa / 64) → pinLine s p = s) ∧
        (unpinLine s p).ms.mem = s.ms.mem ∧ isPinned (unpinLine s p).ms (pa / 64) = false ∧
        ∀ k, k ≠ pa / 64 → isPinned (unpinLine s p).ms k = isPinned s.ms k) ∧
      (rwbLine s p).ms.mem = s.ms.mem)

/-- R77: each form of TLBINV, from S on (the second stage's from H on), completes once the hart's own stores, those of its side log
among them, and the stores and barrier operations translated under its VMID are performed: it drops the named entries of the current
VMID, in every core, and changes nothing else; below, it traps PRIV. That the buffer of an activation is released first where it holds a
store is the model's choice (notes/assumptions/30.md). -/
def Obligations.TranslationInvalidated : Prop :=
  (∀ (s : State) (x y : Reg), Impure s → s.me.mode ≠ .u → NoOwnStore s → hasOwnLog s s.cur = false → TlbIdle s →
    ∃ t, exec (.tlbinvAll x y) s = .next t ∧ Passes { s with ms := { s.ms with tlb := t.ms.tlb } } t ∧
      ∀ e, e ∈ t.ms.tlb ↔ e ∈ s.ms.tlb ∧ e.vmid ≠ s.me.vmid) ∧
  (∀ (s : State) (a y : Reg), Impure s → s.me.mode ≠ .u → NoOwnStore s → hasOwnLog s s.cur = false → TlbIdle s → XReady s [a] →
    ∃ t, exec (.tlbinvAsid a y) s = .next t ∧ Passes { s with ms := { s.ms with tlb := t.ms.tlb } } t ∧
      ∀ e, e ∈ t.ms.tlb ↔ e ∈ s.ms.tlb ∧ ¬ (e.vmid = s.me.vmid ∧ e.asid = (s.me.rx a).extractLsb' 0 12)) ∧
  (∀ (s : State) (a y : Reg), Impure s → s.me.mode ≠ .u → NoOwnStore s → hasOwnLog s s.cur = false → TlbIdle s → XReady s [a] →
    ∃ t, exec (.tlbinvVa a y) s = .next t ∧ Passes { s with ms := { s.ms with tlb := t.ms.tlb } } t ∧
      ∀ e, e ∈ t.ms.tlb ↔ e ∈ s.ms.tlb ∧ ¬ (canonical (s.me.rx a) = true ∧ e.vmid = s.me.vmid ∧
        (e.glob = true ∨ e.asid = s.me.asid) ∧ e.va ≤ (s.me.rx a).toNat ∧ (s.me.rx a).toNat < e.va + e.size)) ∧
  (∀ (s : State) (a y : Reg), Impure s → s.me.mode = .h ∨ s.me.mode = .m → NoOwnStore s → hasOwnLog s s.cur = false → TlbIdle s →
    XReady s [a] →
    let va := (s.me.rx a).toNat
    let hit := fun (o : TlbEntry) => o.vmid = s.me.vmid ∧ ∃ b n p f, o.s2 = some (b, n, p, f) ∧ (va = 0 ∨ (b ≤ va ∧ va < b + n))
    ∃ t, exec (.tlbinvStage2 a y) s = .next t ∧ Passes { s with ms := { s.ms with tlb := t.ms.tlb } } t ∧
      ∀ e, e ∈ t.ms.tlb ↔ ∃ o ∈ s.ms.tlb, (hit o ∧ e = { o with s2 := none }) ∨ (¬ hit o ∧ e = o)) ∧
  (∀ (s : State) (x y : Reg), Impure s → s.me.mode ≠ .u → s.me.buffering = true → bufferedStore s.me.abuf = true →
    ∀ u, flush s false = .ok u → ∃ t, exec (.tlbinvAll x y) s = .next t ∧ t = { u with harts := t.harts } ∧
      t.me = { u.me with unrollable := true, stall := none } ∧ ∀ h, h ≠ u.cur → t.hart h = u.hart h) ∧
  (∀ (s : State) (a x y : Reg), Impure s →
    (s.me.mode = .u → ∀ f ∈ [Instr.tlbinvAll x y, .tlbinvAsid a y, .tlbinvVa a y],
      exec f s = .next (takeTrap s s.cur 0x02 f.bits false)) ∧
    (s.me.mode = .u ∨ s.me.mode = .s →
      exec (.tlbinvStage2 a y) s = .next (takeTrap s s.cur 0x02 (Instr.bits (.tlbinvStage2 a y)) false)))

/-! ### System calls, traps and returns -/

/-- R71: SYSCALL raises cause 0x13 and BRK cause 0x14, at their own address. R72, R159: TRET: PC, the enable and the mode from the trap
registers of the hart's mode. R73, R74: IDLE retires and the hart sleeps, but in an activation; YIELD retires and the hart is passed
over once, but in pure mode (R300). R75, R51, R173: EXIT and HEND do the same. A thread with UNACK 0, no refusal pending and its stores performed ends: its hart is free
and its slot and tag are an exited entry where the table has room. An activation whose operations are settled ends: its hart is free.
No launch holds the hart for a thread of its own (R146). With UNACK not 0 both wait, before all else. The registers of every other
hart stay. Rests on the model's choices in notes/assumptions/29.md. -/
def Obligations.SystemForms : Prop :=
  (∀ (s : State), Impure s →
      exec .syscall s = .next (takeTrap s s.cur 0x13 0 false) ∧ exec .brk s = .next (takeTrap s s.cur 0x14 0 false)) ∧
  (∀ (s : State), Impure s →
      let a := s.me
      let back := fun (w : Word) => (w &&& ~~~0x10#64) ||| (if w.getLsbD 5 then 0x10#64 else 0#64)
      let even := fun (w : Word) => w &&& ~~~1#64
      ∃ t, exec .tret s = .next t ∧ OthersKept s t ∧ Counted a t.me ∧
        t.me = { (match a.mode with
          | .u => { a with pc := even a.uepc, udeleg := (a.udeleg &&& ~~~0x8000000000000000#64) ||| ((a.udeleg &&& 0x4000000000000000#64) <<< 1) }
          | .s => { a with pc := even a.sregs.epc, status := back a.status, mode := if a.status.getLsbD 0 then .s else .u }
          | .h => { a with pc := even a.hregs.epc, hstatus := back a.hstatus, mode := Mode.ofCode (a.hstatus.toNat % 4) }
          | .m => { a with pc := even a.mregs.epc, mstatus := back a.mstatus, mode := Mode.ofCode (a.mstatus.toNat % 4) } : Hart) with
          stall := none, pmc := t.me.pmc }) ∧
  (∀ (s : State),
      (∃ t, exec .idle s = .next t ∧ Passes (s.setMe { s.me with idle := !s.me.isActivation }) t) ∧
      (∃ t, exec .yield s = .next t ∧ Passes (s.setMe { s.me with yielded := s.me.pure.isNone }) t)) ∧
  (∀ (s : State),
    let ends := fun (t : State) => (t.hart s.cur).slot = .free ∧ ∀ h, h ≠ s.cur → RegistersKept (s.hart h) (t.hart h)
    exec .exit s = exec .hend s ∧
    (s.me.unack ≠ 0 → exec .exit s = .next (s.setMe { s.me with stall := some .leave })) ∧
    (s.me.unack = 0 → s.me.heldFor = none → s.me.slot = .thread → s.me.refusal = false → needReleased s = .ok () →
      ∃ t, exec .exit s = .next t ∧ ends t ∧
        ∀ i, depRoom s s.myCore = some i →
          (t.core s.myCore).depAt i = ⟨s.time.setWidth 32, 3, s.cur % 8, s.me.tag, 0, false, 0⟩) ∧
    (s.me.unack = 0 → s.me.heldFor = none → s.me.isActivation = true → Impure s → s.me.abuf = [] → ∃ t, exec .exit s = .next t ∧ ends t))

/-- R159, with the default levels and the delegable causes of R158: the level that a synchronous trap goes to, and its entry: EPC, CAUSE
and TVAL written, TE saved and cleared, PM and the mode set, the PC at the vector. A trap that finds no level, a level without a vector,
and a cause that freezes (R158) leave the hart frozen with the cause and the value, and with the kind of access and the address of its
record (R164); nothing else of the hart changes. A trap that no access meets has the value as its address, and kind 0 (the model's
choice, notes/assumptions/74.md). -/
def Obligations.TrapEntry : Prop :=
  ∀ (s : State) (c : Nat) (v addr : Word) (acc : Nat) (stage2 : Bool),
    let a := s.me
    let t := takeTrapAt s s.cur c v addr acc stage2
    let guest := a.hstatus.getLsbD 8
    let toH := guest && ((c == 0x04 && stage2) || c == 0x06 || c == 0x15)
    let toU := [0x01, 0x03, 0x07, 0x08, 0x09, 0x0B, 0x0D, 0x12, 0x13, 0x14].contains c && a.tdeleg.getLsbD c && a.udeleg.getLsbD c &&
      a.udeleg.getLsbD 63 && a.utvec != 0#64
    let levels : List Mode :=
      if a.mode = .m then [.m]
      else if toH = true ∨ a.mode = .h then [.h, .m]
      else if a.mode = .u ∧ toU = true then [.u]
      else if guest then [.s, .h, .m] else [.s, .m]
    let te : Mode → Bool := fun l => match l with
      | .u => a.udeleg.getLsbD 63
      | .s => a.status.getLsbD 4
      | .h => a.hstatus.getLsbD 4
      | .m => a.mstatus.getLsbD 4
    let saved := fun (w : Word) => (w &&& ~~~0x33#64) ||| (if w.getLsbD 4 then 0x20#64 else 0#64) ||| BitVec.ofNat 64 a.mode.code
    let at_ := fun (r : TrapRegs) => { r with epc := a.pc, cause := BitVec.ofNat 64 c, tval := v }
    let awake := { a with stall := none, idle := false, blk := .whole }
    let entered : Mode → Hart := fun l => match l with
      | .u => { awake with uepc := a.pc, ucause := BitVec.ofNat 64 c, utval := v, pc := a.utvec,
                           udeleg := (a.udeleg &&& ~~~0xC000000000000000#64) ||| 0x4000000000000000#64 }
      | .s => { awake with sregs := at_ a.sregs, pc := a.sregs.tvec, status := saved a.status, mode := .s }
      | .h => { awake with hregs := at_ a.hregs, pc := a.hregs.tvec, hstatus := saved a.hstatus, mode := .h }
      | .m => { awake with mregs := at_ a.mregs, pc := a.mregs.tvec, mstatus := saved a.mstatus, mode := .m }
    let frozen := t.me = { a with frozen := some (c, v), froze := (false, stage2), frozeAt := (acc, addr), thawDue := false,
                                  stall := none } ∧ t.ms = s.ms ∧ ∀ h, h ≠ s.cur → t.hart h = s.hart h
    takeTrap s s.cur c v stage2 = takeTrapAt s s.cur c v v 0 stage2 ∧
    (c = 0x05 ∨ c = 0x06 ∨ c = 0x15 → frozen) ∧
    (¬ (c = 0x05 ∨ c = 0x06 ∨ c = 0x15) → match levels.find? te with
      | some l => if l ≠ .u ∧ a.vecOf l = 0#64 then frozen else t = s.setMe (entered l)
      | none => frozen)

/-! ### CSRs -/

/-- R76, R24: CSRR reads; CSRW, CSRS and CSRC write the old value to x[rd] and then the new one to the CSR. RCLASS is changed by CSRW
alone, a written 1 clearing (R220). Pure mode may use VTYPE (R300). A CSR number outside the map raises ILLEGAL; one below the hart's
mode raises PRIV; a write of a read-only one raises ILLEGAL. -/
def Obligations.CsrInstructions : Prop :=
  (∀ (s : State) (d a : Reg) (c : BitVec 12), Impure s ∨ c = 0x020#12 → XFree s d →
      let n := c.toNat
      modeAtLeast s.me.mode (Mode.ofCode (n / 0x400)) = true →
      (csrPresent n = true → ∃ t, exec (.csrr d a c) s = .next t ∧ WritesX s t d (readCsr s n) 4) ∧
      (XReady s [a] →
        let x := s.me.rx a
        let old := readCsr s n
        (n ∈ csrRw → n ≠ 0x081 → (0x060 ≤ n ∧ n ≤ 0x067 → hasOwnStore s s.cur = false) →
          ∀ f ∈ [(Instr.csrw d a c, x), (.csrs d a c, old ||| x), (.csrc d a c, old &&& ~~~x)],
            ∃ u, WritesX s u d old 4 ∧ exec f.1 s = .next (writeCsr u n f.2)) ∧
        (n = 0x081 →
          (∃ u, WritesX s u d old 4 ∧ exec (.csrw d a c) s = .next (u.setMe { u.me with rclass := s.me.rclass &&& ~~~(x &&& 0x700#64) })) ∧
          (∃ t, exec (.csrs d a c) s = .next t ∧ WritesX s t d old 4) ∧ (∃ t, exec (.csrc d a c) s = .next t ∧ WritesX s t d old 4)))) ∧
  (∀ (s : State) (d a : Reg) (c : BitVec 12), Impure s → XReady s [a] →
      let n := c.toNat
      let writes := [Instr.csrw d a c, .csrs d a c, .csrc d a c]
      (csrPresent n = false → ∀ f ∈ Instr.csrr d a c :: writes, exec f s = .next (takeTrap s s.cur 0x01 f.bits false)) ∧
      (csrPresent n = true → modeAtLeast s.me.mode (Mode.ofCode (n / 0x400)) = false →
        ∀ f ∈ Instr.csrr d a c :: writes, exec f s = .next (takeTrap s s.cur 0x02 f.bits false)) ∧
      (n ∈ csrRo → n ∉ csrRw → modeAtLeast s.me.mode (Mode.ofCode (n / 0x400)) = true →
        ∀ f ∈ writes, exec f s = .next (takeTrap s s.cur 0x01 f.bits false)))

/-- R340: what each CSR of the map reads, register by register, on a compute core of a partition where the register is the core's or the
partition's. R341, R157, R46, R20, R97, R244, R250, R280, R294: what a write of a CSR stores; reserved bits stay 0, a write of STMAP has
EN only where the extent is free. Rests on the model's choices in notes/assumptions/33.md, notes/assumptions/84.md. -/
def Obligations.CsrFields : Prop :=
  ∀ (s : State) (v : Word),
    let h := s.me
    let own := fun (n : Nat) (b : Hart) => writeCsr s n v = s.setMe b
    let even := v &&& ~~~1#64
    let root := v &&& 0x000FFFFFFFFFF000#64
    own 0x011 { h with landCode := v.extractLsb' 0 3, landMiss := v.extractLsb' 8 8 } ∧ own 0x020 { h with vtype := v.extractLsb' 0 3 } ∧
    own 0x040 { h with utvec := even } ∧ own 0x041 { h with uepc := even } ∧ own 0x042 { h with ucause := v &&& 0xFF#64 } ∧
    own 0x043 { h with utval := v } ∧ own 0x044 { h with udeleg := v &&& 0xC000000001FFFFFF#64 } ∧ own 0x0C8 { h with pmsel := v } ∧
    own 0x400 { h with status := v &&& 0x31#64 } ∧ own 0x406 { h with tdeleg := v &&& 0x1FFFFFF#64 } ∧
    own 0x411 { h with reqd := v.extractLsb' 0 4, repd := v.extractLsb' 4 4 } ∧ own 0x430 { h with asid := v.extractLsb' 0 12 } ∧
    own 0x431 { h with ptroot := root } ∧ own 0x800 { h with hstatus := v &&& 0x333#64 } ∧
    own 0x801 { h with vmid := v.extractLsb' 0 6 } ∧ own 0x802 { h with s2root := root } ∧ own 0xC00 { h with mstatus := v &&& 0x33#64 } ∧
    own 0xC01 { h with mregs := { h.mregs with cause := v &&& 0xFF#64 } } ∧ own 0xC02 { h with mregs := { h.mregs with epc := even } } ∧
    own 0xC03 { h with mregs := { h.mregs with tval := v } } ∧ own 0xC04 { h with mregs := { h.mregs with tvec := even } } ∧
    (let copyH := h.mode = .h ∧ h.hstatus.getLsbD 9 = false
     let five := fun (r : TrapRegs) (put : TrapRegs → Hart) =>
       own 0x401 (put { r with cause := v &&& 0xFF#64 }) ∧ own 0x402 (put { r with epc := even }) ∧ own 0x403 (put { r with tval := v }) ∧
         own 0x404 (put { r with tvec := even }) ∧ own 0x405 (put { r with scratch := v })
     (copyH → five h.hregs fun r => { h with hregs := r }) ∧ (¬ copyH → five h.sregs fun r => { h with sregs := r })) ∧
    writeCsr s 0x410 v = s.setCore s.myCore { s.core s.myCore with depgrace := v.extractLsb' 0 20 } ∧
    (∀ p, partOf s s.myCore = some p →
      writeCsr s 0x440 v = s.setPart p { s.part p with ebwin := v.extractLsb' 0 20 } ∧
      writeCsr s 0x441 v = s.setPart p { s.part p with eblimit := v.extractLsb' 0 32 }) ∧
    (partOf s s.myCore = none → writeCsr s 0x440 v = s ∧ writeCsr s 0x441 v = s ∧ writeCsr s 0x450 v = s) ∧
    (∀ p, partOf s s.myCore = some p → writeCsr s 0x450 v =
      { s with reuse := { s.reuse with quota := Table.set s.reuse.quota p (v.extractLsb' 0 17) } }) ∧
    (h.mode = .m → writeCsr s 0x460 v = s.setCore s.myCore { s.core s.myCore with mxwt := v.extractLsb' 0 4 }) ∧
    (h.mode = .m → s.myCore < 1024 → writeCsr s 0x091 v = s.setCluster (clusterOf s.myCore)
      { s.cluster (clusterOf s.myCore) with mxidle := v.extractLsb' 0 20 }) ∧
    (∀ k, k < 8 →
      let w := if k % 2 = 0 then v &&& 0x00FFFFFFFFFFF000#64 else v &&& 0x8000000000003F3F#64
      (writeCsr s (0x060 + k) v).me.st k = (if k % 2 = 1 ∧ w.getLsbD 63 = true ∧ windowFits s s.cur (k / 2) w = false then
        w &&& ~~~0x8000000000000000#64 else w) ∧
      ∀ j, j < 8 → j ≠ k → (writeCsr s (0x060 + k) v).me.st j = h.st j) ∧
    (let k := s.core s.myCore
     let reads := fun (n : Nat) (x : Word) => readCsr s n = x
     let fields := fun (n : Nat) (fs : List (Nat × Nat × Nat)) =>
       ∀ b, b < 64 → (readCsr s n).getLsbD b = fs.any fun f => decide (f.1 ≤ b) && decide (b < f.1 + f.2.1) && f.2.2.testBit (b - f.1)
     let count := fun (q : Bool) => ((h.sendq.filter fun e => e.request == q && !e.taken).length)
     reads 0x000 (locOfSlot s s.cur 0) ∧ reads 0x001 h.wid ∧ reads 0x002 h.widf ∧ reads 0x003 h.launchId ∧
     (s.myCore < 1024 → reads 0x004 (BitVec.ofNat 64 (hposOf s.myCore))) ∧ reads 0x005 h.nthreads ∧ reads 0x006 h.larg0 ∧
     reads 0x007 h.larg1 ∧ reads 0x010 (BitVec.ofNat 64 h.unack) ∧ fields 0x011 [(0, 3, h.landCode.toNat), (8, 8, h.landMiss.toNat)] ∧
     reads 0x012 h.landLoc ∧ reads 0x013 h.landCnt ∧
     (count true < 16 → count false < 16 → fields 0x014 [(0, 4, count true), (4, 4, count false)]) ∧ reads 0x020 (h.vtype.setWidth 64) ∧
     reads 0x030 s.time ∧ reads 0x031 s.cycle ∧ reads 0x040 h.utvec ∧ reads 0x041 h.uepc ∧ reads 0x042 h.ucause ∧ reads 0x043 h.utval ∧
     reads 0x044 h.udeleg ∧ (∀ c, h.slot = .activation c ∨ h.slot = .landing c → reads 0x050 (c.setWidth 64)) ∧
     (h.slot = .thread → reads 0x050 0x8000000000000000#64) ∧ reads 0x051 h.hmsg ∧ reads 0x052 (BitVec.ofNat 64 h.wdog) ∧
     (∀ j, j < 8 → reads (0x060 + j) (h.st j) ∧ reads (0x0C0 + j) (Table.get 0#64 h.pmc j)) ∧ reads 0x081 h.rclass ∧
     (s.myCore < 1024 → reads 0x091 ((s.cluster (clusterOf s.myCore)).mxidle.setWidth 64)) ∧ reads 0x0A4 h.ptviol ∧
     reads 0x0C8 h.pmsel ∧ reads 0x090 (BitVec.ofNat 64 Config.mxWake) ∧ reads 0xC20 Config.featOff0 ∧
     (∀ j, 1 ≤ j → j < 4 → reads (0xC20 + j) 0) ∧ reads 0x400 h.status ∧
     (let r := if h.mode = .h ∧ h.hstatus.getLsbD 9 = false then h.hregs else h.sregs
      reads 0x401 r.cause ∧ reads 0x402 r.epc ∧ reads 0x403 r.tval ∧ reads 0x404 r.tvec ∧ reads 0x405 r.scratch) ∧
     reads 0x406 h.tdeleg ∧ reads 0x410 (k.depgrace.setWidth 64) ∧ fields 0x411 [(0, 4, h.reqd.toNat), (4, 4, h.repd.toNat)] ∧
     reads 0x430 (h.asid.setWidth 64) ∧ reads 0x431 h.ptroot ∧ reads 0x460 (k.mxwt.setWidth 64) ∧ reads 0x800 h.hstatus ∧
     reads 0x801 (h.vmid.setWidth 64) ∧ reads 0x802 h.s2root ∧ reads 0xC00 h.mstatus ∧ reads 0xC01 h.mregs.cause ∧
     reads 0xC02 h.mregs.epc ∧ reads 0xC03 h.mregs.tval ∧ reads 0xC04 h.mregs.tvec ∧
     (∀ j, j < 4 → reads (0xC24 + j) (Table.get 0#64 s.plat.featacc j)) ∧
     (partOf s s.myCore = none → reads 0xC10 0 ∧ reads 0xC11 0 ∧ reads 0xC12 0x8000000000000000#64) ∧
     ∀ p, partOf s s.myCore = some p → let a := s.part p
       reads 0xC10 (BitVec.ofNat 64 a.base) ∧ reads 0xC11 (BitVec.ofNat 64 a.len) ∧ reads 0xC12 (BitVec.ofNat 64 p) ∧
       fields 0x080 [(0, 32, a.spent.toNat), (32, 16, a.corr.toNat), (48, 16, a.det.toNat)] ∧
       (∀ j, j < 4 → reads (0x0A0 + j) (Table.get 0#64 s.reuse.counts (4 * p + j))) ∧ reads 0x440 (a.ebwin.setWidth 64) ∧
       reads 0x441 (a.eblimit.setWidth 64) ∧
       (usedOf s p < 2 ^ 17 → fields 0x450 [(0, 17, (Table.get 65536#17 s.reuse.quota p).toNat), (32, 17, usedOf s p)]))

/-! ### Threads moved -/

/-- R78 to R82: PARK, RESUME and MIGRATE, at S or above, of a target on a compute core of the caller's partition. PARK of a resident
thread saves it: a saved entry with its tag and the place of its image, its slot parked. RESUME of a parked thread makes it resident from
that image, all but the signature, which an acquire joins (R42, R107), and frees the entry; a thaw of it that was due is due no longer
(R167). MIGRATE to a free resident-role hart, of no second cluster of a lockstep pair (R293), makes the thread resident there and the old
slot free, and x[rd] takes the new locator (no launch holds the old slot for a thread of its own, R146). Each does nothing else but advance, MIGRATE with x[rd]
← 0, where the target is none of these. Rests on the model's choices in notes/assumptions/31.md, notes/assumptions/65.md. -/
def Obligations.ParkResumeMigrate : Prop :=
  ∀ (s : State) (d a : Reg) (core : Nat), Impure s → modeAtLeast s.me.mode .s = true → XReady s [a] →
    needTarget (s.me.rx a) s = .ok core →
    let h := namedSlot core (s.me.rx a)
    let tag := locTag (s.me.rx a)
    (threadAt s h tag = true → ∀ i, imageBacked s h = true → depRoom s core = some i →
      ∃ t, exec (.park a) s = .next t ∧ (t.hart h).slot = .parked ∧
        (t.core (h / 8)).depAt i = ⟨s.time.setWidth 32, 1, h % 8, (s.hart h).tag, BitVec.ofNat 64 ((imageFrame s h).getD 0), true,
          (tenantOf s (h / 8)).getD 0⟩ ∧
        ∀ k, k ≠ h → k ≠ s.cur → RegistersKept (s.hart k) (t.hart k)) ∧
    (threadAt s h tag = false → ∃ t, exec (.park a) s = .next t ∧ Passes s t) ∧
    (∀ i, parkedAt s h tag = some i → ∃ t, exec (.resume a) s = .next t ∧ (t.hart h).slot = .thread ∧
      (t.core (h / 8)).depAt i = Dep.free ∧ (∀ k, k ≠ h → k ≠ s.cur → t.hart k = s.hart k) ∧ t.ms.mem = s.ms.mem ∧
      (h ≠ s.cur → (s.hart h).thawDue = false →
        t.hart h = { (loadImage s (depImage s (h / 8) i) (s.hart h)) with slot := .thread, sigCur := (t.hart h).sigCur }) ∧
      (h ≠ s.cur → (s.hart h).frozen.isSome = true → (t.hart h).thawDue = false)) ∧
    (parkedAt s h tag = none → ∃ t, exec (.resume a) s = .next t ∧ Passes s t) ∧
    (XReady s [d] → XFree s d → ∀ to_, needTarget (s.me.rx d) s = .ok to_ →
      let dst := namedSlot to_ (s.me.rx d)
      let ok := (s.hart dst).slot = .free ∧ roleOf s dst = 0 ∧ (threadAt s h tag = true ∨ (parkedAt s h tag).isSome = true) ∧ h ≠ s.cur ∧
        lockSecond s (dst / 8) = false
      (ok → (s.hart h).heldFor = none → ∃ t, exec (.migrate d a) s = .next t ∧ (t.hart dst).slot = .thread ∧ (t.hart h).slot = .free ∧
        t.me.rx d = (if d = 0#5 then 0#64 else locOfSlot t dst 0)) ∧
      (¬ ok → ∃ t, exec (.migrate d a) s = .next t ∧ WritesX s t d 0 4))

/-! ### Vector instructions -/

/-- R180: the slot a queue operand reads: the 64-byte slot k of a bound consumer queue with more than k slots filled, in the local
stash, without a flag and without a change; a queue of 8-byte slots traps MISALIGN with the slot's offset, an unbound handle QUNBOUND,
and a slot not yet filled waits. A register operand waits until it is ready. -/
def Obligations.QueueOperands : Prop :=
  ∀ (s : State) (r : Reg) (b : Binding),
    let q := r.extractLsb' 1 4
    let v := qview s s.cur b
    let off := v.base + (v.cons + r.toNat % 2) % 2 ^ v.logn * v.slotBytes
    (s.me.vok r = true → readV2 r false s = .ok (s.me.rv r, 0#3, s)) ∧
    (Table.find? s.me.handles q.toNat = none → readV2 r true s = .error (.trap 0x12 (BitVec.ofNat 64 q.toNat))) ∧
    (Table.find? s.me.handles q.toNat = some b → b.isProducer = false → b ≠ .packet →
      (v.slotBytes ≠ 64 → readV2 r true s = .error (.trap 0x03 (BitVec.ofNat 64 off))) ∧
      (v.slotBytes = 64 → v.filled ≤ r.toNat % 2 → readV2 r true s = .error (.wait .other)) ∧
      (v.slotBytes = 64 → r.toNat % 2 < v.filled → off + 64 ≤ 0x40000 → off % 64 = 0 → windowAt s s.myCore off = none →
        isStashPoison s.ms (stashIdx s.myCore off / 64) = false → s.me.abuf = [] →
        readV2 r true s = .ok (BitVec.ofNat 512 (leNat (Memory.readBytes s.ms.stash (stashIdx s.myCore off) 64)), 0#3, s)))

/-- R224: the integer lane operations, each lane an integer of its type, the result modulo 2^w or saturated. The second source is a
register or a queue slot; types 0 to 5, and 6 and 7 for VAND, VOR and VXOR. -/
def Obligations.VectorIntegers : Prop :=
  ∀ (s u : State) (d a b : Reg) (e : EType) (m q : Bool) (y : VWord) (fl : Sticky),
    VReady s [a] → VFree s d → (m = true → VReady s [d]) → (q = true → Impure s) →
    let w := eltBits e
    let num := fun (k : Nat) => if e.toNat ≤ 3 then (BitVec.ofNat w k).toInt else (k : Int)
    let x := fun i => lane w (s.me.rv a) i
    (readV2 b q s = .ok (y, fl, u) → u.me = s.me →
      let y := fun i => lane w y i
      let o := fun i => lane w (s.me.rv d) i
      let lanes := fun (f : Instr) (z : Nat → Int) =>
        ∃ t, exec f s = .next t ∧ WritesLanes u t d e m fl fun i => (z i % ((2 ^ w : Nat) : Int)).toNat
      let lo : Int := if e.toNat ≤ 3 then -((2 ^ (w - 1) : Nat) : Int) else 0
      let hi : Int := if e.toNat ≤ 3 then ((2 ^ (w - 1) : Nat) : Int) - 1 else ((2 ^ w : Nat) : Int) - 1
      lanes (.vand d a b e m q) (fun i => (x i &&& y i : Nat)) ∧ lanes (.vor d a b e m q) (fun i => (x i ||| y i : Nat)) ∧
      lanes (.vxor d a b e m q) (fun i => (x i ^^^ y i : Nat)) ∧
      (e.toNat ≤ 5 →
        lanes (.vadd d a b e m q) (fun i => num (x i) + num (y i)) ∧ lanes (.vsub d a b e m q) (fun i => num (x i) - num (y i)) ∧
        lanes (.vmul d a b e m q) (fun i => num (x i) * num (y i)) ∧
        lanes (.vmulh d a b e m q) (fun i => num (x i) * num (y i) / ((2 ^ w : Nat) : Int)) ∧
        lanes (.vmin d a b e m q) (fun i => min (num (x i)) (num (y i))) ∧
        lanes (.vmax d a b e m q) (fun i => max (num (x i)) (num (y i))) ∧
        lanes (.vshl d a b e m q) (fun i => (x i <<< (y i % w) : Nat)) ∧ lanes (.vshr d a b e m q) (fun i => (x i >>> (y i % w) : Nat)) ∧
        lanes (.vsra d a b e m q) (fun i => (BitVec.ofNat w (x i)).toInt >>> (y i % w)) ∧
        lanes (.vadds d a b e m q) (fun i => max lo (min hi (num (x i) + num (y i)))) ∧
        lanes (.vsubs d a b e m q) (fun i => max lo (min hi (num (x i) - num (y i)))) ∧
        (VReady s [d] → lanes (.vmad d a b e m q) (fun i => num (o i) + num (x i) * num (y i))))) ∧
    (e.toNat ≤ 5 →
      let lanes := fun (f : Instr) (z : Nat → Int) =>
        ∃ t, exec f s = .next t ∧ WritesLanes s t d e m 0 fun i => (z i % ((2 ^ w : Nat) : Int)).toNat
      lanes (.vabs d a e m) (fun i => ((num (x i)).natAbs : Int)) ∧ lanes (.vneg d a e m) (fun i => - num (x i)))

/-- R225, R226: the floating-point lane operations of bf16 (type 6, k = 0) and f32 (type 7, k = 1): each lane is the correctly rounded
result, or the approximation of R226. The second source is a register or a queue slot. -/
def Obligations.VectorFloats : Prop :=
  ∀ (s u : State) (d a b : Reg) (k : BitVec 1) (m q : Bool) (y : VWord) (fl : Sticky),
    VReady s [a] → VFree s d → (m = true → VReady s [d]) → (q = true → Impure s) →
    let e : EType := if k = 0#1 then 6#3 else 7#3
    let w := if k = 0#1 then 16 else 32
    let f := if k = 0#1 then bf16Fmt else f32Fmt
    let x := fun i => lane w (s.me.rv a) i
    (readV2 b q s = .ok (y, fl, u) → u.me = s.me →
      let y := fun i => lane w y i
      let o := fun i => lane w (s.me.rv d) i
      let lanes := fun (i : Instr) (z : Nat → Nat) => ∃ t, exec i s = .next t ∧ WritesLanes u t d e m fl z
      lanes (.vfadd d a b k m q) (fun i => fAdd f (x i) (y i)) ∧ lanes (.vfsub d a b k m q) (fun i => fSub f (x i) (y i)) ∧
      lanes (.vfmul d a b k m q) (fun i => fMul f (x i) (y i)) ∧ lanes (.vfmin d a b k m q) (fun i => fMin f (x i) (y i)) ∧
      lanes (.vfmax d a b k m q) (fun i => fMax f (x i) (y i)) ∧
      (VReady s [d] → lanes (.vfma d a b k m q) (fun i => fFma f (x i) (y i) (o i)))) ∧
    (let lanes := fun (i : Instr) (z : Nat → Nat) => ∃ t, exec i s = .next t ∧ WritesLanes s t d e m 0 z
     let nan := fun (n : Nat) => f.isNaN n
     lanes (.vfabs d a k m) (fun i => if nan (x i) then f.nanBits else x i % 2 ^ (w - 1)) ∧
     lanes (.vfneg d a k m) (fun i => if nan (x i) then f.nanBits else x i ^^^ 2 ^ (w - 1)) ∧
     lanes (.vexp2 d a k m) (fun i => approx (k == 0#1) fExp2 (x i)) ∧ lanes (.vlog2 d a k m) (fun i => approx (k == 0#1) fLog2 (x i)) ∧
     lanes (.vrcp d a k m) (fun i => approx (k == 0#1) fRcp (x i)) ∧ lanes (.vrsq d a k m) (fun i => approx (k == 0#1) fRsq (x i)))

/-- R231, R20: moving lanes and masks, and VSETT; lane numbers are reduced modulo the lane count. R232: the reductions. Of integers VRSUM
is the sum of all lanes and VPSUM that of the lanes up to its own, modulo 2^w, VRMAX and VRMIN the greatest and the least. Of floats
VRSUM, VRMAX and VRMIN combine the lanes in the pairwise tree. The mask governs only which lanes are written. -/
def Obligations.LaneMovesAndReductions : Prop :=
  (∀ (s : State) (d a b : Reg) (e : EType) (m : Bool),
    let w := eltBits e
    let n := laneCount e
    let va := s.me.rv a
    (VFree s d → (m = true → VReady s [d]) →
      (XReady s [a] → ∃ t, exec (.vbcast d a e m) s = .next t ∧ WritesLanes s t d e m 0 fun _ => (s.me.rx a).toNat % 2 ^ w) ∧
      (VReady s [a, b] → ∃ t, exec (.vperm d a b e m) s = .next t ∧
        WritesLanes s t d e m 0 fun i => lane w va (lane w (s.me.rv b) i % n)) ∧
      (VReady s [a] → XReady s [b] → ∃ t, exec (.vslide d a b e m) s = .next t ∧ WritesLanes s t d e m 0 fun i =>
        let j : Int := i + (s.me.rx b).toInt
        if 0 ≤ j ∧ j < n then lane w va j.toNat else 0)) ∧
    (VFree s d → VReady s [d] → XReady s [a, b] → ∃ t, exec (.vsetl d a b e) s = .next t ∧ WritesLanes s t d e false 0 fun i =>
      if i = (s.me.rx b).toNat % n then (s.me.rx a).toNat % 2 ^ w else lane w (s.me.rv d) i) ∧
    (XFree s d → VReady s [a] → XReady s [b] → ∃ t, exec (.vgetl d a b e) s = .next t ∧
      let l := lane w va ((s.me.rx b).toNat % n)
      WritesX s t d (if e.toNat ≤ 2 then (BitVec.ofNat w l).signExtend 64 else BitVec.ofNat 64 l) 4) ∧
    (∀ (md ma : MReg), ∃ t, exec (.vmovm md ma) s = .next t ∧ WritesM s t md (s.me.rm ma) 0 4) ∧
    (XReady s [a] → ∃ t, exec (.vsett a) s = .next t ∧ Passes (s.setMe { s.me with vtype := (s.me.rx a).extractLsb' 0 3 }) t)) ∧
  (∀ (s : State) (d a : Reg) (e : EType) (m : Bool), VReady s [a] → VFree s d → (m = true → VReady s [d]) →
    let w := eltBits e
    let n := laneCount e
    let x := lane w (s.me.rv a)
    let num := fun (k : Nat) => if e.toNat ≤ 3 then (BitVec.ofNat w k).toInt else (k : Int)
    let lanes := fun (f : Instr) (z : Nat → Nat) => ∃ t, exec f s = .next t ∧ WritesLanes s t d e m 0 z
    (e.toNat ≤ 5 →
      lanes (.vrsum d a e m) (fun _ => ((List.range n).map x).sum % 2 ^ w) ∧
      lanes (.vpsum d a e m) (fun i => ((List.range (i + 1)).map x).sum % 2 ^ w) ∧
      (∃ k, k < n ∧ (∀ j, j < n → num (x j) ≤ num (x k)) ∧ lanes (.vrmax d a e m) fun _ => x k) ∧
      (∃ k, k < n ∧ (∀ j, j < n → num (x k) ≤ num (x j)) ∧ lanes (.vrmin d a e m) fun _ => x k)) ∧
    (6 ≤ e.toNat →
      let f := if e = 6#3 then bf16Fmt else f32Fmt
      let tree := fun (op : Nat → Nat → Nat) => redNode op x (Nat.log2 n) 0
      lanes (.vrsum d a e m) (fun _ => tree (fAdd f)) ∧ lanes (.vrmax d a e m) (fun _ => tree (fMax f)) ∧
      lanes (.vrmin d a e m) (fun _ => tree (fMin f)) ∧
      lanes (.vpsum d a e m) (fun i => (redPrefix (fAdd f) x i (Nat.log2 n) 0 none).getD 0)))

/-- R233, R234: the conversions, lane by lane of the destination type, and the flags of VLGX and VLGQ. Rests on the model's choices in
notes/assumptions/20.md, notes/assumptions/35.md. -/
def Obligations.Conversions : Prop :=
  ∀ (s : State) (d a b : Reg) (g : BitVec 2) (m : Bool), VReady s [a] → VFree s d → (m = true → VReady s [d]) →
    let v := s.me.rv a
    let s32 := fun (k : Nat) => (BitVec.ofNat 32 k).toInt
    let lanes := fun (f : Instr) (e : EType) (fl : Sticky) (z : Nat → Nat) => ∃ t, exec f s = .next t ∧ WritesLanes s t d e m fl z
    lanes (.vcvtBf16F32 d a m) 6 0 (fun i => if i < 16 then f32ToBf16 (lane 32 v i) else 0) ∧
    lanes (.vcvtF32Bf16 d a m) 7 0 (fun i => lane 16 v i * 2 ^ 16) ∧
    lanes (.vcvtF32S32 d a m) 7 0 (fun i => intToF32 (s32 (lane 32 v i))) ∧
    lanes (.vcvtS32F32 d a m) 2 0 (fun i => (f32ToS32 (lane 32 v i) % ((2 ^ 32 : Nat) : Int)).toNat) ∧
    lanes (.vcvtS32S8 d a g m) 2 0 (fun i => ((BitVec.ofNat 8 (lane 8 v (16 * g.toNat + i))).signExtend 32).toNat) ∧
    (VReady s [d] → lanes (.vcvtS8S32 d a g m) 0 0 fun i =>
      if i / 16 = g.toNat then (max (-128) (min 127 (s32 (lane 32 v (i % 16)))) % 256).toNat else lane 8 (s.me.rv d) i) ∧
    lanes (.vlgx d a m) 7 (if (List.range 16).any (fun i => lgIsNaR (lane 8 v i)) then 4#3 else 0#3) (fun i => lgxLane (lane 8 v i)) ∧
    (XReady s [b] →
      let e := ((s.me.rx b).extractLsb' 0 8).toNat
      let bad := e = 0 ∨ e = 255
      lanes (.vlgq d a b m) 4 (if bad then 2#3 else 0#3) fun i =>
        if bad then 0x20 else if 16 ≤ i then 0 else lg6q (lane 32 v i) e ((s.me.rx b).extractLsb' 8 16).toNat)

/-- R235, R236: the compares write one bit a lane, 0 above the lane count and the old bit where a lane is masked; VSEL picks by m0; the
mask operations act on all 64 bits, MPOPC counts them. -/
def Obligations.ComparesAndMasks : Prop :=
  ∀ (s u : State) (d a b : Reg) (md ma mb : MReg) (e : EType) (m q : Bool) (y : VWord) (fl : Sticky),
    (VReady s [a] → (q = true → Impure s) → readV2 b q s = .ok (y, fl, u) → u.me = s.me →
      let w := eltBits e
      let x := fun i => lane w (s.me.rv a) i
      let y := fun i => lane w y i
      let num := fun (k : Nat) => if e.toNat ≤ 3 then (BitVec.ofNat w k).toInt else (k : Int)
      let f := if e = 6#3 then bf16Fmt else f32Fmt
      let bits := fun (i : Instr) (c : Nat → Bool) => ∃ t v, exec i s = .next t ∧ WritesM u t md v fl 4 ∧ ∀ k, k < 64 →
        v.getLsbD k = (decide (k < laneCount e) && if m = true ∧ (s.me.rm 0).getLsbD k = false then (s.me.rm md).getLsbD k else c k)
      let cmp := fun (i : Instr) (int : Int → Int → Bool) (flt : Nat → Nat → Bool) =>
        bits i fun k => if e.toNat ≤ 5 then int (num (x k)) (num (y k)) else flt (x k) (y k)
      cmp (.vceq md a b e m q) (fun p r => decide (p = r)) (fEq f) ∧ cmp (.vclt md a b e m q) (fun p r => decide (p < r)) (fLt f) ∧
      cmp (.vcle md a b e m q) (fun p r => decide (p ≤ r)) (fLe f) ∧
      (VFree s d → ∃ t, exec (.vsel d a b e q) s = .next t ∧
        WritesLanes u t d e false fl fun i => if (s.me.rm 0).getLsbD i then y i else x i)) ∧
    (∃ t, exec (.mand md ma mb) s = .next t ∧ WritesM s t md (s.me.rm ma &&& s.me.rm mb) 0 4) ∧
    (∃ t, exec (.mor md ma mb) s = .next t ∧ WritesM s t md (s.me.rm ma ||| s.me.rm mb) 0 4) ∧
    (∃ t, exec (.mnot md ma) s = .next t ∧ WritesM s t md (~~~(s.me.rm ma)) 0 4) ∧
    (XFree s d → ∃ t, exec (.mpopc d ma) s = .next t ∧
      WritesX s t d (BitVec.ofNat 64 ((List.range 64).countP fun k => (s.me.rm ma).getLsbD k)) 4)

/-- R227, R228, R230: the vector loads where every active lane lies in the local stash: the active lanes of v[rd] take the bytes at
their addresses, the others are kept; a lane that is not active is not read. Rests on the model's choices in notes/assumptions/6.md,
notes/assumptions/28.md. -/
def Obligations.VectorLoads : Prop :=
  ∀ (s : State) (d a b : Reg) (e : EType) (m : Bool), XReady s [a] → VFree s d → (m = true → VReady s [d]) → Impure s →
    let w := eltBits e
    let n := eltBytes e
    let ea := s.me.rx a
    let active := fun i => m = true → (s.me.rm 0).getLsbD i = true
    let loads := fun (f : Instr) (va : Nat → Word) => (∀ i, i < laneCount e → active i → InStash s (va i) n) →
      ∃ v t, exec f s = .next t ∧ LoadsV s t d v ∧ ∀ i, i < laneCount e →
        (active i → lane w v i = leNat (Memory.readBytes s.ms.stash (stashAt s (va i)) n)) ∧
        (¬ active i → lane w v i = lane w (s.me.rv d) i)
    let off := fun i => if e = 4#3 ∨ e = 5#3 then BitVec.ofNat 64 (lane w (s.me.rv b) i)
      else (BitVec.ofNat w (lane w (s.me.rv b) i)).signExtend 64
    loads (.vld d a e m) (fun i => ea + BitVec.ofNat 64 (i * n)) ∧
    (XReady s [b] → loads (.vlds d a b e m) fun i => ea + BitVec.ofNat 64 i * s.me.rx b) ∧
    (VReady s [b] → loads (.vgath d a b e m) fun i => ea + off i) ∧
    (∀ o, ea = BitVec.ofNat 64 (0x007F000000000000 + o) → o % 8 = 0 → o < 0x40000 →
      (∀ i, i < laneCount e → active i → o + 256 * (i * n / 8) < 0x40000) →
      loads (.vldT d a e m) fun i =>
        let r := o + 256 * (i * n / 8)
        BitVec.ofNat 64 (0x007F000000000000 + r / 256 * 256 + (r / 8 % 32 + r / 256) % 32 * 8 + i * n % 8))

/-- R227 to R230: the vector stores where every active lane lies in the local stash: the active lanes are stored in rising order, the
higher lane's byte standing where two lanes meet; every other byte, and every register, is as before, and so is all else but for the
signature of a copy of a V launch (R292). Rests on the model's choices in
notes/assumptions/28.md. -/
def Obligations.VectorStores : Prop :=
  ∀ (s : State) (d a b : Reg) (e : EType) (m : Bool), XReady s [a] → VReady s [d] → Impure s → NoBuffer s →
    let w := eltBits e
    let n := eltBytes e
    let ea := s.me.rx a
    let active := fun i => m = true → (s.me.rm 0).getLsbD i = true
    let stores := fun (f : Instr) (va : Nat → Word) => (∀ i, i < laneCount e → active i → InStash s (va i) n) →
      ∃ t, exec f s = .next t ∧ t = { s with harts := t.harts, ms := { s.ms with stash := t.ms.stash }, lch := t.lch } ∧
        (s.me.vcopy = none → t.lch = s.lch) ∧ (∀ h, h ≠ s.cur → t.hart h = s.hart h) ∧ HartKept s.me t.me ∧ t.me.pc = s.me.pc + 4 ∧ t.me.rclass = s.me.rclass ∧
        XKept s.me t.me [] ∧ VKept s.me t.me [] ∧ MKept s.me t.me [] ∧
        ∀ x, Memory.read t.ms.stash x = Memory.read
          (((List.range (laneCount e)).filter fun i => !m || (s.me.rm 0).getLsbD i).foldl
            (fun k i => Memory.writeBytes k (stashAt s (va i)) (leBytes n (lane w (s.me.rv d) i))) s.ms.stash) x
    let off := fun i => if e = 4#3 ∨ e = 5#3 then BitVec.ofNat 64 (lane w (s.me.rv b) i)
      else (BitVec.ofNat w (lane w (s.me.rv b) i)).signExtend 64
    stores (.vst d a e m) (fun i => ea + BitVec.ofNat 64 (i * n)) ∧
    (XReady s [b] → stores (.vsts d a b e m) fun i => ea + BitVec.ofNat 64 i * s.me.rx b) ∧
    (VReady s [b] → stores (.vscat d a b e m) fun i => ea + off i) ∧
    (∀ o, ea = BitVec.ofNat 64 (0x007F000000000000 + o) → o % 8 = 0 → o < 0x40000 →
      (∀ i, i < laneCount e → active i → o + 256 * (i * n / 8) < 0x40000) →
      stores (.vstT d a e m) fun i =>
        let r := o + 256 * (i * n / 8)
        BitVec.ofNat 64 (0x007F000000000000 + r / 256 * 256 + (r / 8 % 32 + r / 256) % 32 * 8 + i * n % 8))

/-! ### Blocks -/

/-- R237 to R241: the block instructions on blocks of the local stash: BLKUNP loads the 80 lanes of five registers, BLKPK packs, BLKADDQ
adds, BLKHDR reads the header and BLKSCL scales; each sticks the flags of what it consumed and produced. R242: BLKADDQ and BLKSCL read,
then write: in one step, or in two, between which other harts may come. Rests on the model's choices in
notes/assumptions/35.md. -/
def Obligations.BlockInstructions : Prop :=
  ∀ (s : State) (d a b : Reg) (e : EType), XReady s [a] → Impure s → NoBuffer s → InStash s (s.me.rx a) 64 →
    let va := s.me.rx a
    let blk := blockAt s va
    let group := fun (k : Nat) => d + BitVec.ofNat 5 k
    let inParts := fun (i : Instr) (z : VWord) (f : Sticky) =>
      (s.me.blk = .whole → ∃ t, exec i s = .next t ∧ WritesBlock s t va z f) ∧
      (s.me.blk = .split → exec i s = .next (s.setMe { s.me with blk := .done z f, stall := none })) ∧
      ∀ y g, s.me.blk = .done y g → ∃ t, exec i s = .next t ∧ WritesBlock (s.setMe { s.me with blk := .whole }) t va y g
    (d.toNat ≤ 27 → (∀ k, k < 5 → VFree s (group k)) → ∃ t vs, exec (.blkunp d a) s = .next t ∧
      t = { s with harts := t.harts, nextId := s.nextId + 1, flight := s.flight ++ [.loadReturn s.cur s.nextId] } ∧
      (∀ h, h ≠ s.cur → t.hart h = s.hart h) ∧
      t.me = { s.me with vready := t.me.vready, pc := s.me.pc + 4, stall := none, pmc := t.me.pmc,
                         loads := s.me.loads ++ [⟨s.nextId, .vgroup d vs, 0#3, 0⟩],
                         rclass := s.me.rclass ||| ((readFlags blk).setWidth 64 <<< 8) } ∧
      VKept s.me t.me ((List.range 5).map group) ∧ (∀ k, k < 5 → t.me.vok (group k) = false) ∧ vs.length = 5 ∧
      ∀ i, i < 80 → lane 32 (vs.getD (i / 16) 0) (i % 16) =
        if blkReserved blk = true ∨ blkPoison blk = true then f32Fmt.nanBits
        else if i < fmtCount (blkFmt blk) then eltF32 blk i else 0) ∧
    (d.toNat ≤ 27 → 1 ≤ e.toNat → e.toNat ≤ 4 → (∀ k, k < 5 → VReady s [group k]) →
      let r := packBlock e.toNat ((List.range (fmtCount e.toNat)).map fun i => lane 32 (s.me.rv (group (i / 16))) (i % 16))
      ∃ t, exec (.blkpk d a e) s = .next t ∧ WritesBlock s t va r.1 r.2) ∧
    (XReady s [b] → InStash s (s.me.rx b) 64 →
      let r := blkAdd blk (blockAt s (s.me.rx b))
      inParts (.blkaddq a b) r.1 r.2) ∧
    (XFree s d → ∃ t, exec (.blkhdr d a) s = .next t ∧ WritesX s t d ((blk.extractLsb' 0 32).setWidth 64) 4) ∧
    (XReady s [b] →
      let r := blkScl blk ((s.me.rx b).extractLsb' 0 32).toNat
      inParts (.blkscl a b) r.1 r.2)

/-- R18, R19: each 16-bit lane form does what its 32-bit form does with the type of VTYPE, but advances the PC by 2; VSHL and VSRA of a
float type raise ILLEGAL, and so does the halfword 0, with the pattern 0. -/
def Obligations.HalfwordForms : Prop :=
  ∀ (s : State) (d b : Reg) (m : Bool), VReady s [d, b, 0#5] → VFree s d →
    let e := s.me.vtype
    let k : BitVec 1 := e.extractLsb' 0 1
    let like := fun (f g : Instr) => ∃ t u, exec f s = .next t ∧ exec g s = .next u ∧ t = { u with harts := t.harts } ∧
      (∀ h, h ≠ s.cur → t.hart h = u.hart h) ∧ t.me = { u.me with pc := s.me.pc + 2 } ∧ u.me.pc = s.me.pc + 4
    (¬ (d = 0#5 ∧ b = 0#5 ∧ m = false) → like (.vmov16 d b m) (.vor d b b e m false)) ∧
    (Impure s → exec (.vmov16 0#5 0#5 false) s = .next (takeTrap s s.cur 0x01 0#64 false)) ∧
    like (.vand16 d b m) (.vand d d b e m false) ∧ like (.vor16 d b m) (.vor d d b e m false) ∧
    like (.vxor16 d b m) (.vxor d d b e m false) ∧ like (.vsel16 d b) (.vsel d d b e false) ∧
    (e.toNat ≤ 5 →
      like (.vadd16 d b m) (.vadd d d b e m false) ∧ like (.vsub16 d b m) (.vsub d d b e m false) ∧
      like (.vmul16 d b m) (.vmul d d b e m false) ∧ like (.vmad16 d b m) (.vmad d b 0#5 e m false) ∧
      like (.vmin16 d b m) (.vmin d d b e m false) ∧ like (.vmax16 d b m) (.vmax d d b e m false) ∧
      like (.vneg16 d b m) (.vneg d b e m) ∧ like (.vabs16 d b m) (.vabs d b e m) ∧
      like (.vshl16 d b m) (.vshl d d b e m false) ∧ like (.vsra16 d b m) (.vsra d d b e m false) ∧
      like (.vsqr d b m) (.vmul d b b e m false)) ∧
    (6 ≤ e.toNat →
      like (.vadd16 d b m) (.vfadd d d b k m false) ∧ like (.vsub16 d b m) (.vfsub d d b k m false) ∧
      like (.vmul16 d b m) (.vfmul d d b k m false) ∧ like (.vmad16 d b m) (.vfma d b 0#5 k m false) ∧
      like (.vmin16 d b m) (.vfmin d d b k m false) ∧ like (.vmax16 d b m) (.vfmax d d b k m false) ∧
      like (.vneg16 d b m) (.vfneg d b k m) ∧ like (.vabs16 d b m) (.vfabs d b k m) ∧ like (.vsqr d b m) (.vfmul d b b k m false) ∧
      (Impure s → exec (.vshl16 d b m) s = .next (takeTrap s s.cur 0x01 (Instr.bits (.vshl16 d b m)) false) ∧
        exec (.vsra16 d b m) s = .next (takeTrap s s.cur 0x01 (Instr.bits (.vsra16 d b m)) false)))

/-! ### Engine commands -/

/-- R17, R257, R259, R260, R262, R264: MZERO, MMUL and MSTW join their core's matrix queue, which holds two; MQRY samples the unit.
Rests on the model's choices in notes/assumptions/43.md. -/
def Obligations.MatrixCommands : Prop :=
  ∀ (s : State) (d a b : Reg) (c : BitVec 1), Impure s → NoBuffer s →
    let k := s.core s.myCore
    let joins := fun (f : Instr) (g : List Word) (rd rd2 : Reg) => ∃ t u cmd, exec f s = .next t ∧ Issues s u cmd f g rd rd2 ∧
      (t.core s.myCore).mq = k.mq ++ [cmd] ∧ t.harts = u.harts ∧ t.ms = s.ms
    (k.mq.length < 2 →
      joins (.mzero c) [] 0#5 0#5 ∧
      (Instr.wf (.mmul d a b) = true → XReady s (groupRegs a) → XFree s d → XFree s b →
        joins (.mmul d a b) ((groupRegs a).map s.me.rx) d b) ∧
      (Instr.wf (.mstw d a) = true → XReady s (groupRegs a) → XFree s d → joins (.mstw d a) ((groupRegs a).map s.me.rx) d 0#5)) ∧
    (k.mq.length = 2 → exec (.mzero c) s = .next (s.setMe { s.me with stall := some .other })) ∧
    (XFree s d → k.mq.length ≤ 2 → ∃ t v, exec (.mqry d) s = .next t ∧ WritesX s t d v 4 ∧
      v.extractLsb' 0 2 = BitVec.ofNat 2 k.mq.length ∧ v.getLsbD 3 = false ∧ v.extractLsb' 16 4 = k.mxwt ∧ v.extractLsb' 20 4 = 0#4 ∧
      v.extractLsb' 32 32 = 0#32 ∧
      (s.myCore < 1024 → v.extractLsb' 4 4 = (s.cluster (clusterOf s.myCore)).gated ∧ ∀ q, q < 8 →
        v.getLsbD (24 + q) = (samePart s s.myCore (gOfHpos (8 * clusterOf s.myCore + q)) &&
          !(s.core (gOfHpos (8 * clusterOf s.myCore + q))).mq.isEmpty)))

/-- R251, R252, R257, R263, R265 to R270: the copy commands and MLDW join their core's copy engine: the commands it holds, in its front
queue and its four queues, are those of before and the new one. A CPY of a pure task counts among the task's copies (R301). CPYQ samples
a queue. Rests on the model's choices in notes/assumptions/42.md. -/
def Obligations.CopyCommands : Prop :=
  ∀ (s : State) (d a : Reg) (q : BitVec 2), NoBuffer s → XFree s d →
    let held := fun (k : Core) => ((List.range 4).flatMap k.copyq) ++ k.front
    let joins := fun (f : Instr) (s0 : State) => ∃ t u cmd, exec f s = .next t ∧ Issues s0 u cmd f ((groupRegs a).map s.me.rx) d 0#5 ∧
      (held (t.core s.myCore)).Perm (held (s.core s.myCore) ++ [cmd]) ∧ t.harts = u.harts ∧ t.ms = s.ms
    ((s.core s.myCore).front.length < 2 → XReady s (groupRegs a) →
      (Impure s → ∀ f ∈ [Instr.cpyrAddS32 d a q, .cpyrAddF32 d a q, .cpyrAddBf16 d a q, .cpyrMinS32 d a q, .cpyrMaxS32 d a q,
          .cpyrMinF32 d a q, .cpyrMaxF32 d a q, .cpyrAnd d a q, .cpyrOr d a q, .cpyg d a q, .cpyh d a q, .cpyx d a q, .mldw d a],
        f.wf = true → joins f s) ∧
      (needPureCopy ((groupRegs a).map s.me.rx) s = .ok () → Instr.wf (.cpy d a q) = true →
        joins (.cpy d a q) (s.setMe s.me.countCopy))) ∧
    (Impure s → ∃ t v, exec (.cpyq d q) s = .next t ∧ WritesX s t d v 4 ∧
      let own := ((s.core s.myCore).copyq q.toNat).filter fun c => c.hart == s.cur && c.tag == s.me.tag
      (own = [] → v = 0#64) ∧ (∀ c r, own = c :: r →
        v.getLsbD 63 = c.held.isSome ∧ v.getLsbD 62 = c.waitsLeave ∧ v.extractLsb' 48 14 = 0#14 ∧
        v.extractLsb' 32 16 = BitVec.ofNat 16 (min own.length 65535) ∧
        v.extractLsb' 0 32 = BitVec.ofNat 32 (if c.isTask && !c.consumed then 0 else c.off)))

/-- R297, R298, R303, R304: PTASK reads the code length before its entry and its argument records as loads and joins the copy engine
with them; PTINV drops the tenant's entries that source a page of its range; PTSTAT reads a count, the quota or PTVIOL. Rests on the
model's choices in notes/assumptions/41.md. -/
def Obligations.TaskInstructions : Prop :=
  ∀ (s : State) (d a b : Reg), Impure s → NoBuffer s →
    let g := (groupRegs a).map s.me.rx
    let held := fun (k : Core) => ((List.range 4).flatMap k.copyq) ++ k.front
    (∀ (u v : State) (len : Word) (recs : List Word), Instr.wf (.ptask d a) = true → XReady s (groupRegs a) → s.me.isV = false →
      XFree s d → needReleased s = .ok () → loadDword s (g.getD 0 0 - 8) = .ok (len, u) →
      loadRecords u (g.getD 1 0) ((g.getD 3 0).extractLsb' 32 4).toNat = .ok (recs, v) → (v.core v.myCore).front.length < 2 →
      ∃ t w c, exec (.ptask d a) s = .next t ∧ Issues v w c (.ptask d a) g d 0#5 ∧
        c.args = [len, BitVec.ofNat 64 v.me.mode.code] ++ recs ∧
        (held (t.core v.myCore)).Perm (held (v.core v.myCore) ++ [c]) ∧ t.harts = w.harts ∧ t.ms = v.ms) ∧
    (XReady s [a, b] → ∀ (fs : List Nat) (u : State), canonicalRange (s.me.rx a) (s.me.rx b).toNat = true →
      rangeFrames s (s.me.rx a) (s.me.rx b).toNat = .ok (fs, u) →
      ∃ t, exec (.ptinv a b) s = .next t ∧ Arms u.me t.me none ∧ t.ms = u.ms ∧ (∀ h, h ≠ u.cur → t.hart h = u.hart h) ∧
        ∀ p, ownerOf u u.myCore = some p →
          (∀ e ∈ t.reuse.entries, ¬ (e.part = p ∧ e.state = .valid ∧ ∃ f ∈ e.frames, f ∈ fs)) ∧
          (∀ e ∈ t.reuse.entries, e.part = p → e.state = .pending → ¬ ∃ f ∈ e.frames, f ∈ fs) ∧
          ∀ e, e.part ≠ p → (e ∈ t.reuse.entries ↔ e ∈ u.reuse.entries)) ∧
    (XReady s [a] → XFree s d → ∃ t, exec (.ptstat d a) s = .next t ∧ WritesX s t d (
      let k := (s.me.rx a).toNat
      if k ≤ 3 then readCsr s (0x0A0 + k) else if k = 4 then readCsr s 0x450 else if k = 5 then readCsr s 0x0A4 else 0#64) 4)

/-- R181 to R185: the group forms of FABRIC enter the queue of the connection named in x[rs1][11:0], or, where it is not open or not the
tenant's, end with the token FABRIC; NCHAIN places a wait entry and NCNT reads the count, each leaving FABRIC pending where a connection
is not usable; NRECV of a core whose PARTID is NONE, a gateway's among them, or without Yarrow, ends refused, and so does one whose destination is a window. Rests on
the model's choices in notes/assumptions/34.md, notes/assumptions/44.md, notes/assumptions/64.md. -/
def Obligations.FabricCommands : Prop :=
  ∀ (s : State) (d a b : Reg), Impure s → NoBuffer s → Delivered s →
    let g := (groupRegs a).map s.me.rx
    let conn := fun (w : Word) => (w.extractLsb' 0 12).toNat
    let usable := fun (c : Nat) => (s.conn c).state = 1 ∧ tenantOf s s.myCore = some (s.conn c).part
    (∀ f ∈ [Instr.nput d a, .nget d a, .nsend d a], f.wf = true → XReady s (groupRegs a) → s.me.isV = false → XFree s d →
      let c := conn (g.getD 0 0)
      (usable c → connLoad (s.conn c) < 64 → ∃ u cmd, Issues s u cmd f g d 0#5 ∧
        exec f s = .next (pumpAll (u.setConn c { s.conn c with queue := (s.conn c).queue ++ [.cmd cmd] }))) ∧
      (¬ usable c → ∃ u cmd, Issues s u cmd f g d 0#5 ∧ exec f s = .next (tokenPut u cmd.loc 0x16 sigAll 0 true))) ∧
    (Instr.wf (.nrecv d a) = true → XReady s (groupRegs a) → s.me.isV = false → XFree s d →
      let r : Recv := ⟨s.nextId, ((g.getD 0 0).extractLsb' 0 10).toNat, ((g.getD 0 0).extractLsb' 16 10).toNat,
        (g.getD 1 0).extractLsb' 0 32, (g.getD 1 0).extractLsb' 32 32, g.getD 2 0, ((g.getD 3 0).extractLsb' 0 32).toNat,
        locOfSlot s s.cur d.toNat, s.me.tctx, s.cur, (ownerOf s s.myCore).getD 0,
        hposOf s.myCore - (s.part ((ownerOf s s.myCore).getD 0)).base⟩
      ∃ u c, Issues s u c (.nrecv d a) g d 0#5 ∧
        (namesWindow r.va r.max = true → exec (.nrecv d a) s = .next (tokenPut u r.loc 0x0000300000000006#64 sigAll 0 true)) ∧
        (namesWindow r.va r.max = false → ownerOf s s.myCore = none ∨ featureOn s 3 = false →
          exec (.nrecv d a) s = .next (tokenPut u r.loc 0x0000300000000016#64 sigAll 0 true)) ∧
        (∀ p, namesWindow r.va r.max = false → ownerOf s s.myCore = some p → featureOn s 3 = true → recvRoom s p r = true →
          exec (.nrecv d a) s = .next (postRecv (performOwn u u.cur) p r))) ∧
    (XReady s [a, b, d] →
      let c := conn (s.me.rx a)
      let n := conn (s.me.rx b)
      (usable c → usable n → ∃ u, Passes s u ∧ exec (.nchain d a b) s =
        .next (pumpAll (u.setConn c { s.conn c with queue := (s.conn c).queue ++ [.chain n (s.me.rx d)] }))) ∧
      (¬ usable c ∨ ¬ usable n → ∃ t, exec (.nchain d a b) s = .next t ∧
        ∃ x, Passes (s.setMe { s.me with pend := s.me.pend ++ [(0x16, BitVec.ofNat 64 x)] }) t)) ∧
    (XReady s [a] → XFree s d →
      let c := conn (s.me.rx a)
      (usable c → ∃ t, exec (.ncnt d a) s = .next t ∧ WritesX s t d (s.conn c).count 4) ∧
      (¬ usable c → ∃ t, exec (.ncnt d a) s = .next t ∧
        WritesX (s.setMe { s.me with pend := s.me.pend ++ [(0x16, BitVec.ofNat 64 c)] }) t d 0 4))

/-- R186: BQPOP hands out the next index of the queue, or all ones where none is left; BQDONE marks an index handed out and not done,
by the collective or by the one it abandoned (R203), counts it, and with the last one puts 0, as a release, to the queue's locator, where that is not 0 (R203); an index not handed out or
already done changes nothing. A core that is no gateway of the queue's tenant traps ACCESS. Rests on the model's choices in
notes/assumptions/11.md, notes/assumptions/34.md, notes/assumptions/45.md. -/
def Obligations.GateForms : Prop :=
  (∀ (s : State) (d a : Reg), Impure s → XReady s [a] → XFree s d → Delivered s →
    let die := dieOf s.myCore
    let q := ((s.me.rx a).extractLsb' 0 6).toNat
    let k := s.assignq die q
    (isGateway s.myCore = true → tenantOf s s.myCore = some k.part → ∃ t, exec (.bqpop d a) s = .next t ∧
      (k.next.toNat < k.count.toNat → WritesX (s.setAssignq die q { k with next := k.next + 1 }) t d (k.next.setWidth 64) 4) ∧
      (k.count.toNat ≤ k.next.toNat → WritesX s t d 0xFFFFFFFFFFFFFFFF#64 4)) ∧
    (isGateway s.myCore = false ∨ tenantOf s s.myCore ≠ some k.part →
      exec (.bqpop d a) s = .next (takeTrap s s.cur 0x06 (s.me.rx a) false))) ∧
  (∀ (s : State) (a b : Reg), Impure s → XReady s [a, b] → NoBuffer s → Released s →
    let die := dieOf s.myCore
    let q := ((s.me.rx a).extractLsb' 0 6).toNat
    let k := s.assignq die q
    let x := s.me.rx b
    let fresh := x.toNat ∉ k.marks ∧ (x.toNat < k.next.toNat ∨ (x.toNat < k.handed ∧ x.toNat ∉ k.past))
    let k' : AssignQ := { k with done := k.done + 1, marks := k.marks ++ [x.toNat] }
    let loc := resolveLocal s.plat.node k.cloc
    (isGateway s.myCore = true → tenantOf s s.myCore = some k.part →
      (fresh → k.done + 1 = k.count → k.cloc ≠ 0#64 → permits s s.myCore loc = true ∧ sendFree s.me false = true) →
      ∃ t, exec (.bqdone a b) s = .next t ∧
        (¬ fresh → Passes s t) ∧
        (fresh → k.done + 1 ≠ k.count ∨ k.cloc = 0#64 → Passes (s.setAssignq die q k') t) ∧
        (fresh → k.done + 1 = k.count → k.cloc ≠ 0#64 →
          ∃ p : Put, p.loc = loc ∧ p.val = 0#512 ∧ p.sig.isSome = true ∧ Sends (s.setAssignq die q k') t p none)) ∧
    (isGateway s.myCore = false ∨ tenantOf s s.myCore ≠ some k.part →
      exec (.bqdone a b) s = .next (takeTrap s s.cur 0x06 (s.me.rx a) false)))

/-! ### Launches -/

/-- R136, R137, R138: SPAWN reads its header, and the presets where the header names them, as loads (of the local stash, and of any place
they can be read from), and its record joins the pool of its die where that has room; x[rd] is not ready. ARMLR in an activation of the
record's owner arms an unarmed pre-built record; one already armed reports 0x18, which a zero locator drops; a record of another owner
traps ACCESS; a resident thread, and a mode below S, PRIV. LCHK counts the free resident-role harts of its interval's cores of its own
partition. Rests on the model's choices in notes/assumptions/24.md, notes/assumptions/72.md, notes/assumptions/73.md. -/
def Obligations.LaunchForms : Prop :=
  ∀ (s : State) (d a b : Reg), Impure s → NoBuffer s →
    let g := (groupRegs a).map s.me.rx
    (∀ x : Reg, Instr.wf (.spawn d a x) = true → XReady s (groupRegs a) → s.me.isV = false → XFree s d → Released s →
      let va := g.getD 0 0
      let word := fun (p : Word) (k : Nat) => (blockAt s p).extractLsb' (64 * k) 64
      let preset := (word va 1).getLsbD 42
      InStash s va 64 → (preset = true → InStash s (va + 64) 64) →
      ∃ t, exec (.spawn d a x) s = .next t ∧ Arms s.me t.me (some d) ∧ (∀ h, h ≠ s.cur → t.hart h = s.hart h) ∧
        ((s.poolOf (dieOf s.myCore)).length < 256 → t.ms = s.ms ∧
          ∃ r, t.poolOf (dieOf s.myCore) = s.poolOf (dieOf s.myCore) ++ [r] ∧ r.hdr = (List.range 8).map (word va) ∧
            r.presets = (if preset then (List.range 8).map (word (va + 64)) else []) ∧ r.base = (g.getD 1 0).toNat ∧
            r.len = (g.getD 2 0).toNat ∧ r.arg1 = g.getD 3 0 ∧ r.part = tenantOf s s.myCore ∧ r.ctx = s.me.tctx)) ∧
    (∀ (x : Reg) (hdr presets : List Word) (u v : State), Instr.wf (.spawn d a x) = true → XReady s (groupRegs a) → s.me.isV = false →
      XFree s d → Released s → inWindow (g.getD 0 0) = false → (g.getD 0 0).toNat % 64 = 0 →
      canonical (g.getD 0 0) = true → loadHeader s (g.getD 0 0) = .ok (hdr, u) → loadPresets u hdr (g.getD 0 0) = .ok (presets, v) →
      (v.poolOf (dieOf v.myCore)).length < 256 →
      ∃ t r, exec (.spawn d a x) s = .next t ∧ t.poolOf (dieOf v.myCore) = v.poolOf (dieOf v.myCore) ++ [r] ∧
        r.hdr = hdr ∧ r.presets = presets ∧ r.base = (g.getD 1 0).toNat ∧ r.len = (g.getD 2 0).toNat ∧ r.arg0 = none ∧
        r.arg1 = g.getD 3 0 ∧ r.dest = (if d = 0#5 then .nowhere else .token (locOfSlot v v.cur d.toNat) v.plat.node.toNat) ∧
        r.part = tenantOf v v.myCore ∧ r.ctx = v.me.tctx ∧ Arms v.me t.me (some d) ∧ t.ms = v.ms ∧
        ∀ h, h ≠ v.cur → t.hart h = v.hart h) ∧
    (∀ (c : BitVec 6), Instr.wf (.armlr b a) = true → modeAtLeast s.me.mode .s = true → s.me.slot = .activation c →
      XReady s [b] → XReady s (groupRegs a) →
      let i := (s.me.rx b).toNat
      let die := dieOf s.myCore
      let access := exec (.armlr b a) s = .next (takeTrap s s.cur 0x06 (s.me.rx b) false)
      (64 ≤ i → access) ∧ (Table.find? s.lch.prebuilt (64 * die + i % 64) = none → access) ∧
      (∀ p, i < 64 → Table.find? s.lch.prebuilt (64 * die + i) = some p →
        (p.owner ≠ c.toNat → access) ∧
        (p.owner = c.toNat → p.armed = false → ∃ t r, exec (.armlr b a) s = .next t ∧
          Table.find? t.lch.prebuilt (64 * die + i) = some { p with armed := true } ∧
          Table.get [] t.lch.armed die = Table.get [] s.lch.armed die ++ [r] ∧ r.hdr = p.hdr ∧ r.presets = p.presets ∧
          r.base = (g.getD 0 0).toNat ∧ r.arg0 = some (g.getD 1 0) ∧ r.arg1 = g.getD 2 0 ∧ r.part = tenantOf s s.myCore ∧
          Arms s.me t.me none ∧ t.ms = s.ms ∧ ∀ h, h ≠ s.cur → t.hart h = s.hart h) ∧
        (p.owner = c.toNat → p.armed = true → ∃ u, Passes s u ∧ exec (.armlr b a) s = .next (if g.getD 3 0 = 0#64 then u else
          reportStatus u (.locator (resolveLocal s.plat.node (g.getD 3 0)) s.cur) 0x18)))) ∧
    (Instr.wf (.armlr b a) = true → modeAtLeast s.me.mode .s = false ∨ (s.me.slot = .thread ∧ XReady s (b :: groupRegs a)) →
      exec (.armlr b a) s = .next (takeTrap s s.cur 0x02 (Instr.bits (.armlr b a)) false)) ∧
    (XReady s [a, b] → XFree s d →
      let base := (s.me.rx a).toNat
      let n := min (s.me.rx b).toNat (1024 - base)
      let free := fun (k : Nat) => if samePart s s.myCore (gOfHpos (base + k)) = true then
        ((List.range 8).filter fun j => freeResident s (slotOf (gOfHpos (base + k)) j)).length else 0
      ∃ t, exec (.lchk d a b) s = .next t ∧ WritesX s t d (BitVec.ofNat 64 ((List.range n).map free).sum) 4)

/-! ### Patterns that are no instruction, and what waits for an instruction boundary -/

/-- R22, R23, R24: a pattern that decodes to nothing, and an instruction that breaks a limit of R21, raise ILLEGAL with the pattern; a
fetch that may not be made leaves the hart frozen with ACCESS and its address, one that meets a page fault is held (R162). R45, R158,
R159: a pending refusal, in U or S under S's enable and with no delegation to U, is taken at S with the locator; it is no longer
pending. A pending cause that freezes leaves the hart frozen. -/
def Obligations.NoInstruction : Prop :=
  (∀ (s u : State) (bits : Word), fetch s = .illegal bits u → Impure u →
    exec .illegalEncoding s = .next (takeTrap u u.cur 0x01 bits false)) ∧
  (∀ (s : State) (acc : Nat) (v : Word), fetch s = .fault (.deny acc v) → Impure s →
    ∃ t, exec .instructionFetchFault s = .next t ∧ t.me.frozen = some (0x06, v) ∧ t.me.frozeAt = (acc, v) ∧ t.me.pc = s.me.pc ∧
      t.ms = s.ms ∧
      ∀ h, h ≠ s.cur → t.hart h = s.hart h) ∧
  (∀ (s : State) (va addr : Word) (st acc : Nat) (perm : Bool), fetch s = .fault (.hold va addr st acc perm) →
    ∃ t fid, exec .instructionFetchFault s = .next t ∧ t.me = { s.me with hold := some (fid, va, st == 2), stall := some .other } ∧
      t.ms = s.ms ∧ ∀ h, h ≠ s.cur → t.hart h = s.hart h) ∧
  (∀ (s : State) (i : Instr), Instr.check i ≠ none → Impure s → exec i s = .next (takeTrap s s.cur 0x01 i.bits false)) ∧
  (∀ s : State, Impure s →
    let a := s.me
    let c := a.heldCause.toNat
    let entered : Hart := { a with
      refusal := false, stall := none, idle := false, blk := .whole, mode := .s, pc := a.sregs.tvec
      sregs := { a.sregs with epc := a.pc, cause := BitVec.ofNat 64 c, tval := a.heldTval }
      status := (a.status &&& ~~~0x33#64) ||| 0x20#64 ||| BitVec.ofNat 64 a.mode.code }
    (a.refusal = true → a.stall ≠ some .leave ∨ a.unack = 0 → c = 0x07 ∨ c = 0x08 → a.mode = .u ∨ a.mode = .s →
      a.udeleg.getLsbD c = false → a.status.getLsbD 4 = true →
      a.sregs.tvec ≠ 0#64 → exec .takePendingTrap s = .next (s.setMe entered)) ∧
    (∀ v l, a.refusal = false → a.thawed = [] → a.pend = (0x06, v) :: l → ∃ t, exec .takePendingTrap s = .next t ∧
      t.me = { a with pend := l, frozen := some (0x06, v), froze := (true, false), frozeAt := (1, v), thawDue := false,
                      stall := none } ∧ t.ms = s.ms ∧
        ∀ h, h ≠ s.cur → t.hart h = s.hart h))

/-! ### Steps -/

/-- R13, R150: where no turn is set, no event comes first and the current hart is ready, a step is exec of the instruction that the bytes
at its PC decode to, at the state after the fetch, and then what ends an issue (`settleIssue`: TIME and CYCLE move on, the next hart is
chosen); where an event comes first, it is brought to the head of those in flight and its row performed; signatures that must turn (R100)
turn first. The fetch reads one halfword, or two where the first begins a 32-bit instruction. R293: what a step did is then repeated in
the second clusters of lockstep pairs, which moves nothing but what State holds of them, and that only where a pair has parted. Rests on
the model's choices in notes/assumptions/5.md, notes/assumptions/65.md. -/
def Obligations.StepRunsDecodedInstruction : Prop :=
  (∀ (s u : State) (i : Instr), s.turns = [] → nextEvent s = none → turning s = false → ready s s.cur = true →
    nextPending s.me = none → fetch { s with lag := s.flight.length } = .instr i u →
    step s = onNext (repeatLock s) (onNext (settleIssue s.cur (runsThread s s.cur)) (exec i u))) ∧
  (∀ (s : State) (k : Nat) (e : Event), s.turns = [] → turning s = false → nextEvent s = some (k, e) →
    step s = onNext (repeatLock s) (onNext settle (exec (rowOf e) { s with flight := e :: s.flight.eraseIdx k, lag := s.lag - 1 }))) ∧
  (∀ (s : State) (l : List Event), s.flight = .signatureGeneration :: l →
    step s = onNext (repeatLock s) (onNext settle (exec .signatureGeneration { s with lag := s.lag - 1 }))) ∧
  (∀ s t : State, (s.plat.lockHarts = [] → repeatLock s t = t) ∧
    repeatLock s t = { t with plat := { t.plat with lockHarts := (repeatLock s t).plat.lockHarts
                                                    lockDue := (repeatLock s t).plat.lockDue } }) ∧
  (∀ (s u v : State) (lo hi : BitVec 16) (i : Instr), fetchHalf s s.me.pc = .ok (lo, u) → u.me = s.me →
    (isLong lo = true → fetchHalf u (s.me.pc + 2) = .ok (hi, v) → decode32 (hi ++ lo) = .ok i → fetch s = .instr i v) ∧
    (isLong lo = false → decode16 lo = .ok i → fetch s = .instr i u))

/-- Every step of every state reaches a next state: no instruction and no event is turned away (R24: what does not complete takes its
trap, waits, is held, or freezes its hart). Rests on the model's choices in notes/assumptions/5.md. -/
def Obligations.StepAlwaysMoves : Prop := ∀ s : State, Safe s

/-! ### Encodings -/

/-- The words that the spec writes out in its tables of encodings, one of each kind of layout, decode to the instructions they stand
for. -/
def Obligations.DecodesSpecWords : Prop :=
  decodeTableWord 32 0x00605383 = some (.add 7 5 6) ∧ decodeTableWord 32 0xA4505285 = some (.addi 5 5 0xA45) ∧
  decodeTableWord 32 0x00013287 = some (.lih 5 0x13) ∧ decodeTableWord 32 0x000CC20B = some (.brdy 12 4) ∧
  decodeTableWord 32 0x008E6291 = some (.ldT 5 6 8) ∧ decodeTableWord 32 0x00066813 = some (.stD 6 0 16) ∧
  decodeTableWord 32 0x0FA73617 = some (.amoaddD 12 19 26 true true) ∧ decodeTableWord 32 0x08A0639D = some (.msendS 7 6 10 0) ∧
  decodeTableWord 32 0x0433441B = some (.rputvS 8 20 3 false) ∧ decodeTableWord 32 0x0010079F = some (.qpop 15 0 1) ∧
  decodeTableWord 32 0x04467021 = some (.csrs 0 7 0x044) ∧ decodeTableWord 32 0x045411A9 = some (.vadd 3 1 5 2 false true) ∧
  decodeTableWord 32 0x182E122B = some (.vfma 4 1 2 1 false false) ∧ decodeTableWord 32 0x28204333 = some (.vcvtS8S32 6 4 2 false) ∧
  decodeTableWord 32 0x0291443B = some (.mmul 8 20 9) ∧ decodeTableWord 32 0x120544BD = some (.cpyrAddF32 9 20 2) ∧
  decodeTableWord 32 0x087062C1 = some (.nchain 5 6 7) ∧ decodeTableWord 16 0 = none

/-- R14 to R22: the encoding of every well-formed instruction decodes to that instruction, with every operand. -/
def Obligations.DecodeOfEncode : Prop :=
  ∀ (i : Instr) (n : Nat) (w : BitVec 32), i.wf = true → encode i = some (n, w) → decodeTableWord (8 * n) w.toNat = some i

/-! ### Events -/

/-- R38, R41, R44: a put or token that finds its resident occupant writes the register its locator names, sets its ready bit, counts in
LANDCNT and is acknowledged with code 0; one whose slot has ended or never held the tag writes nothing and is acknowledged with 3 or 4.
R45, R47: an acknowledgement lowers UNACK; a plain refusal becomes pending with its locator, a status is written to its register. R66: a
store to a remote stash is written there and lowers UNACK. R36: a moved or exited entry is freed once it is older than DEPGRACE. R97: an
STMAP register takes its implemented bits, EN only where the extent is free. R163: an entry of the side log is replayed, where it is ready and its place
is reached, and is then gone from the log. R100, R102: every signature moves one generation on. That the instruction which waited for
the last acknowledgement retires before its refusal is raised (notes/assumptions/82.md), that a refused EN keeps the other fields
(notes/assumptions/84.md), and when a logged store is ready (notes/assumptions/83.md) are the model's choices, as are those in
notes/assumptions/48.md. -/
def Obligations.ArrivalEvents : Prop :=
  ∀ (s : State) (r : List Event),
    (∀ p core, s.flight = .putArrival p :: r → locCore p.loc = some core → badLocator p = false → locKind p.loc ≠ 2 →
      let n : Reg := BitVec.ofNat 5 (locIdx p.loc)
      let acked := fun (t : State) (code : Nat) => ∀ d, p.token = false → p.sender = some d → d.node = s.plat.node.toNat →
        t.flight = r ++ [.ackArrival ⟨code, p.loc, d, 0⟩]
      (∀ h, findSlot s core (locHart p.loc) (locTag p.loc) = .resident h → p.hop = 0 → ∃ t, exec .putArrival s = .next t ∧
        (p.wide = false → n ≠ 0#5 → (t.hart h).rx n = p.val.setWidth 64 ∧ (t.hart h).xok n = true) ∧
        (p.wide = true → (t.hart h).rv n = p.val ∧ (t.hart h).vok n = true) ∧
        (t.hart h).landCnt = (if p.wide = false ∧ n = 0#5 then (s.hart h).landCnt else (s.hart h).landCnt + 1) ∧
        XKept (s.hart h) (t.hart h) (if p.wide then [] else [n]) ∧ VKept (s.hart h) (t.hart h) (if p.wide then [n] else []) ∧
        (t.hart h).pc = (s.hart h).pc ∧ (∀ k, k ≠ h → t.hart k = s.hart k) ∧ t.ms.mem = s.ms.mem ∧ t.ms.stash = s.ms.stash ∧
        acked t 0) ∧
      (findSlot s core (locHart p.loc) (locTag p.loc) = .exited →
        ∃ t, exec .putArrival s = .next t ∧ t.harts = s.harts ∧ t.ms = s.ms ∧ acked t 3) ∧
      (findSlot s core (locHart p.loc) (locTag p.loc) = .nothing →
        ∃ t, exec .putArrival s = .next t ∧ t.harts = s.harts ∧ t.ms = s.ms ∧ acked t 4)) ∧
    (∀ k h, s.flight = .ackArrival k :: r → findSlot s k.dest.core k.dest.hart k.dest.tag = .resident h →
      ∃ t, exec .ackArrival s = .next t ∧ (∀ j, j ≠ h → t.hart j = s.hart j) ∧ t.ms = s.ms ∧ t.flight = r ∧
        (let a := { s.hart h with unack := (s.hart h).unack - 1, idle := false }
         (k.dest.isStatus = false → k.code = 0 → t.hart h = a) ∧
         (k.dest.isStatus = false → k.code = 3 ∨ k.code = 4 → a.refusal = false → t.hart h = { a with
           landCode := BitVec.ofNat 3 k.code, landLoc := k.loc, refusal := true, heldTval := k.loc
           retires := a.stall == some .unack && a.unack == 0
           heldCause := if k.code = 3 then 0x07#64 else 0x08#64 }) ∧
         (∀ q, k.dest.isStatus = true → k.dest.status = some q → q ≠ 0#5 → (t.hart h).rx q = BitVec.ofNat 64 k.code ∧
           (t.hart h).xok q = true ∧ XKept (s.hart h) (t.hart h) [q] ∧ (t.hart h).landCnt = (s.hart h).landCnt + 1))) ∧
    (∀ id st k g, s.flight = .remoteStashWrite id :: r → s.ms.stores.find? (·.id == id) = some st →
      storesBefore (s.ms.stores.filter (·.id < id)) st = [] → st.place = .remoteStash g → st.shadow = none →
      isStashPoison s.ms (st.pa / 64) = false → whereIs s st.hart st.tag = .resident k →
      ∃ t, exec .remoteStashWrite s = .next t ∧ (∀ j, j < st.bytes.length → Memory.read t.ms.stash (st.pa + j) = st.bytes.getD j 0#8) ∧
        (∀ a, a < st.pa ∨ st.pa + st.bytes.length ≤ a → Memory.read t.ms.stash a = Memory.read s.ms.stash a) ∧
        t.ms.mem = s.ms.mem ∧ t.hart k = { s.hart k with unack := (s.hart k).unack - 1 } ∧ (∀ j, j ≠ k → t.hart j = s.hart j)) ∧
    (∀ core k, s.flight = .departureExpiry core k :: r →
      let e := (s.core core).depAt k
      let old := (e.state = 2 ∨ e.state = 3) ∧ (s.core core).grace < (s.time.setWidth 32 - e.stamp).toNat
      (old → ∃ t, exec .departureExpiry s = .next t ∧ (t.core core).depAt k = Dep.free ∧ t.harts = s.harts ∧ t.ms = s.ms ∧
        (∀ j, j ≠ k → (t.core core).depAt j = (s.core core).depAt j) ∧ ∀ c, c ≠ core → t.core c = s.core c) ∧
      (¬ old → exec .departureExpiry s = .next { s with flight := r })) ∧
    (∀ core id, s.flight = .sideLogReplay core id :: r →
      (logEntry s core id = none → exec .sideLogReplay s = .next { s with flight := r }) ∧
      (∀ e, logEntry s core id = some e → logReady s core e = false → exec .sideLogReplay s = .next { s with flight := r }) ∧
      (∀ e u i, logEntry s core id = some e → logReady s core e = true →
        entryPlace { s with flight := r } core e = .ok (.stash i, u) →
        isStashPoison s.ms (i / 64) = false → e.rel = none → ∃ t, exec .sideLogReplay s = .next t ∧
          (∀ j, j < e.bytes.length → Memory.read t.ms.stash (i + j) = e.bytes.getD j 0#8) ∧
          (t.core core).sidelog.find? (·.id == e.id) = none)) ∧
    (∀ k v, s.flight = .stmapWrite k v :: r →
      let w := if k.toNat % 2 = 0 then v &&& 0x00FFFFFFFFFFF000#64 else v &&& 0x8000000000003F3F#64
      ∃ t, exec .stmapWrite s = .next t ∧
        t.me.st k.toNat = (if k.toNat % 2 = 1 ∧ w.getLsbD 63 = true ∧ windowFits s s.cur (k.toNat / 2) w = false then
          w &&& ~~~0x8000000000000000#64 else w) ∧
        ∀ j, j < 8 → j ≠ k.toNat → t.me.st j = s.me.st j) ∧
    (s.flight = .signatureGeneration :: r → ∃ t, exec .signatureGeneration s = .next t ∧
      (∀ h, t.hart h = { s.hart h with sigPrev := (s.hart h).sigCur, sigCur := .empty }) ∧
      (∀ l, Table.get (Sig.empty, Sig.empty) t.ms.homeSigs l = (.empty, (Table.get (Sig.empty, Sig.empty) s.ms.homeSigs l).1)) ∧
      t.ms.mem = s.ms.mem ∧ t.ms.stash = s.ms.stash)

/-- R87, R88, R90 to R92: a host direct start starts its thread where a resident-role hart is free, else is returned with its reason; a
submission becomes a record of its die's pool; a record that fails its checks ends with status 0x18, one that passes them becomes a
launch; a thread starts at its entry with its arguments. R309: a launch at its budget ends. Rests on the model's choices in
notes/assumptions/40.md. -/
def Obligations.ThreadEvents : Prop :=
  ∀ (s : State) (r : List Event),
    (∀ f g pc p q, s.flight = .directStart f g pc p q :: r → vfFrozen s f = false → bootStopped s = false →
      let back := fun (reason : Nat) => ∃ t, exec .directStart s = .next t ∧ t.harts = s.harts ∧ t.ms = s.ms ∧
        (Table.get 0#64 t.flt.msgstat f).toNat / 2 ^ 32 = reason ∧
        (Table.get 0#64 t.flt.msgstat f).toNat % 2 ^ 32 = ((Table.get 0#64 s.flt.msgstat f).toNat % 2 ^ 32 + 1) % 2 ^ 32
      let owned := vfBound s f = true ∧ tenantOf s g = some (vfPart s f)
      let entry := pc.getLsbD 0 = false ∧ canonical pc = true
      (¬ owned → back 2) ∧ (owned → ¬ entry → back 3) ∧ (owned → entry → startHart s g = none → back 1) ∧
      (∀ h, owned → entry → startHart s g = some h → ∃ t, exec .directStart s = .next t ∧ (t.hart h).slot = .thread ∧
        (t.hart h).pc = pc ∧ (t.hart h).mode = .u ∧ (t.hart h).tag = nextTag s h ∧
        (∀ n, (t.hart h).rx n = if n = 10#5 then p else if n = 11#5 then q else 0#64) ∧ (∀ n, (t.hart h).xok n = true) ∧
        (∀ k, k ≠ h → t.hart k = s.hart k) ∧ t.ms = s.ms)) ∧
    (∀ f hdr base arg compl, s.flight = .submission f hdr base arg compl :: r →
      let taken := vfFrozen s f = false ∧ bootStopped s = false ∧ vfBound s f = true
      let die := base.toNat % 1024 / 256
      (¬ taken → exec .submission s = .next { s with flight := r }) ∧
      (taken → (s.poolOf die).length < 256 → ∃ t x, exec .submission s = .next t ∧ t.poolOf die = s.poolOf die ++ [x] ∧
        x.base = base.toNat ∧ x.arg1 = arg ∧ x.hdrVa = some hdr ∧ x.part = some (vfPart s f) ∧ t.harts = s.harts ∧ t.ms.mem = s.ms.mem ∧
        t.ms.stash = s.ms.stash)) ∧
    (∀ die, s.flight = .launchRecordProcess die :: r →
      (nextRecord s die = none → exec .launchRecordProcess s = .next { s with flight := r }) ∧
      (∀ x loc n, nextRecord s die = some x → x.hdrVa = none → recordOk s x = false → x.dest = .token loc n →
        ∃ t, exec .launchRecordProcess s = .next t ∧ .putArrival ⟨loc, false, 0x18, some sigAll, 0, none, true, 0, false, none⟩ ∈ t.flight ∧
          (∀ h, t.hart h = { s.hart h with tagCtr := (t.hart h).tagCtr }) ∧ t.ms = s.ms) ∧
      (∀ x, nextRecord s die = some x → x.hdrVa = none → recordOk s x = true → ∃ t a, exec .launchRecordProcess s = .next t ∧
        Table.find? t.lch.live s.lch.next = some a ∧ a.record = x ∧ a.base = x.base ∧ a.n = recL x * hdrH x.hdr ∧ a.running = [] ∧
        t.ms = s.ms)) ∧
    (∀ l n a, s.flight = .threadStart l n :: r → Table.find? s.lch.live l = some a → a.id = l →
      (canStart s a n = false → exec .threadStart s = .next { s with flight := r }) ∧
      (canStart s a n = true → ∃ t, exec .threadStart s = .next t ∧
        (let h := threadSlot a n
         let hdr := a.record.hdr
         (t.hart h).slot = .thread ∧ (t.hart h).pc = hdrWord hdr 0 ∧ (t.hart h).mode = (if a.sstart then .s else .u) ∧
         (t.hart h).tag = nextTag s h ∧ (t.hart h).rx 10 = a.record.arg0.getD (hdrWord hdr 3) ∧ (t.hart h).rx 11 = a.record.arg1 ∧
         (t.hart h).wid = BitVec.ofNat 64 (n % a.n) ∧ (t.hart h).nthreads = BitVec.ofNat 64 a.n ∧
         Table.find? t.lch.live l = some { a with waiting := a.waiting.filter (· != n), running := a.running ++ [n] }))) ∧
    (∀ l a, s.flight = .launchBudgetExpiry l :: r → Table.find? s.lch.live l = some a → a.id = l →
      (overBudget a = false → exec .launchBudgetExpiry s = .next { s with flight := r }) ∧
      (overBudget a = true → ∃ t, exec .launchBudgetExpiry s = .next t ∧ Table.find? t.lch.live l = none))

/-- R306, R307, R49, R50, R294: the partition table's writes by M-mode, slice end, restore and teardown of a partition, each from the
STATE it needs, the count of time units of defined partitions that run, and a new error window. Rests on the model's choices in
notes/assumptions/36.md, notes/assumptions/38.md. -/
def Obligations.PartitionEvents : Prop :=
  ∀ (s : State) (r : List Event) (p : Nat),
    let u := { s with flight := r }
    let a := s.part p
    (∀ w k v, s.flight = .partitionWrite w p k v :: r →
      (w.mode ≠ .m ∨ 64 ≤ p → exec .partitionWrite s = .next u) ∧
      (w.mode = .m → p < 64 → ∃ t, exec .partitionWrite s = .next t ∧ t.ms = s.ms ∧ t.harts = s.harts ∧
        (k = 0 → (a.state = 2 ∨ a.len = 0) → intervalOk s p (fieldOf v 9 0) (fieldOf v 20 10) = true →
          (t.part p).base = fieldOf v 9 0 ∧ (t.part p).len = fieldOf v 20 10) ∧
        (k = 0 → ¬ ((a.state = 2 ∨ a.len = 0) ∧ intervalOk s p (fieldOf v 9 0) (fieldOf v 20 10) = true) → t.part p = a) ∧
        (let cmd := fieldOf v 23 22
         let idle := .sliceEnd p ∉ r ∧ .restore p ∉ r ∧ .teardown p ∉ r
         (k = 0 → idle → cmd = 1 → a.state = 0 → t.flight = r ++ [.sliceEnd p]) ∧
         (k = 0 → idle → cmd = 2 → a.state = 2 → t.flight = r ++ [.restore p]) ∧
         (k = 0 → idle → cmd = 3 → a.state = 2 → t.flight = r ++ [.teardown p]) ∧
         (¬ idle ∨ ¬ ((cmd = 1 ∧ a.state = 0) ∨ (cmd = 2 ∧ a.state = 2) ∨ (cmd = 3 ∧ a.state = 2)) → t.flight = r)) ∧
        (k = 1 → t.part p = { a with savebase := v &&& ~~~0x1FFFFF#64 }) ∧ (k = 2 → t.part p = { a with route := v }) ∧
        ∀ q, q ≠ p → t.part q = s.part q)) ∧
    (s.flight = .sliceEnd p :: r →
      (a.state = 0 → ∃ t, exec .sliceEnd s = .next t ∧ (t.part p).state = 1) ∧ (a.state ≠ 0 → exec .sliceEnd s = .next u)) ∧
    (s.flight = .sliceEndDone p :: r →
      (sliceReady s p = true → ∃ t, exec .sliceEndDone s = .next t ∧ (t.part p).state = 2) ∧
      (sliceReady s p = false → exec .sliceEndDone s = .next u)) ∧
    (s.flight = .restore p :: r →
      (a.state = 2 → exec .restore s = .next (u.setPart p { a with state := 3 })) ∧ (a.state ≠ 2 → exec .restore s = .next u)) ∧
    (s.flight = .restoreDone p :: r →
      (a.state = 3 → ∃ t, exec .restoreDone s = .next t ∧ (t.part p).state = 0) ∧ (a.state ≠ 3 → exec .restoreDone s = .next u)) ∧
    (s.flight = .teardown p :: r →
      (a.state = 2 → ∃ t, exec .teardown s = .next t ∧ (t.part p).len = 0 ∧ (∀ e ∈ t.reuse.entries, e.part ≠ p) ∧ t.harts = s.harts ∧
        t.ms.mem = s.ms.mem) ∧
      (a.state ≠ 2 → exec .teardown s = .next u)) ∧
    (s.flight = .tbuTick :: r → ∃ t, exec .tbuTick s = .next t ∧ t.harts = s.harts ∧ t.ms = s.ms ∧
      t.part p = { a with tbu := if a.state = 0 ∧ a.len ≠ 0 then a.tbu + 1 else a.tbu }) ∧
    (s.flight = .ebudgetWindow p :: r → ∃ t x, exec .ebudgetWindow s = .next t ∧ t = u.setPart p x ∧
      x = { a with det := 0, corr := 0, spent := 0, raised := false, winStart := x.winStart })

/-- R27, R142, R176: a write of HROLE leaves code 2 for H7 alone and moves the role of a hart that holds nothing; a handler-table word
takes its implemented bits, its EN only within the limits of R142; a software queue that is not enabled is empty. R143, R170: what a
message's destination does with it and how the outcome reaches its sender; R152: a returned message enters channel 1. R141 gives the
implemented bits of a handler word. That returned messages stand in one list in order of return, without a bound, with the TIME at which
the return reaches the sender's core, is the model's choice (notes/assumptions/51.md); so is what notes/assumptions/46.md and
notes/assumptions/87.md say. -/
def Obligations.ChannelEvents : Prop :=
  ∀ (s : State) (r : List Event),
    (∀ w g v, s.flight = .hroleWrite w g v :: r → ∃ t, exec .hroleWrite s = .next t ∧ ∀ k, k < 8 →
      let code := (v.toNat / 4 ^ k) % 4
      let old := (s.core g).hrole.toNat / 4 ^ k % 4
      let new := if k ≠ 7 ∧ code = 2 then old else code
      (t.core g).hrole.toNat / 4 ^ k % 4 = new ∧
        roleOf t (slotOf g k) = (if roleFree s (slotOf g k) = true then new else roleOf s (slotOf g k))) ∧
    (∀ w g c hi v, s.flight = .handlerTableWrite w g c hi v :: r →
      let a := (s.core g).chan c.toNat
      let v1 := v &&& 0x1FFFFFFFFFFF#64
      let fits := chanMode a.w0 ≤ 1 ∧ 1 ≤ fieldOf v1 9 6 ∧ fieldOf v1 9 6 ≤ 12 ∧
        fieldOf v1 25 10 * 64 + 2 ^ fieldOf v1 9 6 * (if v1.getLsbD 5 then 64 else 8) ≤ 0x40000 ∧ (c ≠ 1#6 ∨ v1.getLsbD 5 = true)
      (c = 0#6 → w.mode ≠ .m → exec .handlerTableWrite s = .next { s with flight := r }) ∧
      (c ≠ 0#6 ∨ w.mode = .m → ∃ t, exec .handlerTableWrite s = .next t ∧ t.harts = s.harts ∧ t.ms = s.ms ∧
        (∀ b, b ≠ c.toNat → (t.core g).chan b = (s.core g).chan b) ∧ (∀ k, k ≠ g → t.core k = s.core k) ∧
        (hi = true → chanBusy s g c = false →
          (t.core g).chan c.toNat = { a with w1 := if v1.getLsbD 3 = true ∧ ¬ fits then v1 &&& ~~~8#64 else v1 }) ∧
        (hi = true → chanBusy s g c = true → ((t.core g).chan c.toNat).w1 &&& ~~~0x3FFFC00000F#64 = a.w1 &&& ~~~0x3FFFC00000F#64) ∧
        (hi = false → chanBusy s g c = true → (t.core g).chan c.toNat = a) ∧
        (hi = false → chanBusy s g c = false → a.w1.getLsbD 3 = false →
          (t.core g).chan c.toNat = { a with w0 := v &&& 0x03FFFFFFFFFFFFFE#64 }))) ∧
    (∀ w g i v, s.flight = .softwareQueueWrite w g i v :: r →
      let q := (s.core g).softq i.toNat
      let v1 := v &&& 0x3FFFFE8#64
      let on := v1.getLsbD 3 = true ∧ qFits v1 = true
      ∃ t, exec .softwareQueueWrite s = .next t ∧ t.ms = s.ms ∧ t.harts = s.harts ∧
        (on → (t.core g).softq i.toNat = { q with w1 := v1 }) ∧ (¬ on → (t.core g).softq i.toNat = ⟨0, 0, v1 &&& ~~~8#64⟩) ∧
        ∀ j, j ≠ i.toNat → (t.core g).softq j = (s.core g).softq j) ∧
    (∀ m, m.srcNode = s.plat.node.toNat →
      let a := (s.core m.dstCore).chan m.chan.toNat
      let full := 2 ^ fieldOf a.w1 9 6 ≤ (a.prod - a.cons).toNat
      let callChan := a.w1.getLsbD 42 = true ∧ chanMode a.w0 = 0
      let turned := fun (o : MsgOutcome) => s.flight = .messageArrival m :: r → ∃ t l, exec .messageArrival s = .next t ∧
        t = { s with cores := t.cores, plat := { s.plat with saved := t.plat.saved }, flight := r ++ [.messageOutcome m o] } ∧
        (o = .deferred ∨ s.plat.saved = [] → t.plat = s.plat) ∧ (∀ k, k ≠ m.dstCore → t.core k = s.core k) ∧
        (t.core m.dstCore).chan m.chan.toNat = { a with defer := l } ∧ ((m.srcNode, m.id) ∈ l ↔ o = .deferred) ∧
        ∀ j, j ≠ m.chan.toNat → (t.core m.dstCore).chan j = (s.core m.dstCore).chan j
      let on := a.w1.getLsbD 3 = true
      (¬ on → turned (.returned 2)) ∧ (on → a.masked = true → m.reply = false → turned .deferred) ∧
      (on → (a.masked = true ∧ m.reply = true) ∨ (a.masked = false ∧ full) → turned (.returned 1)) ∧
      (on → a.masked = false → ¬ full → (1 < m.count ∨ m.call = true) → a.w1.getLsbD 5 = false → turned (.returned 3)) ∧
      (on → a.masked = false → ¬ full → ¬ ((1 < m.count ∨ m.call = true) ∧ a.w1.getLsbD 5 = false) → callChan → m.call = false →
        turned (.returned 4)) ∧
      (s.flight = .messageArrival m :: r → on → a.masked = false → ¬ full →
        ¬ ((1 < m.count ∨ m.call = true) ∧ a.w1.getLsbD 5 = false) → ¬ (callChan ∧ m.call = false) →
        ∃ t, exec .messageArrival s = .next t ∧ .messageOutcome m .accepted ∈ t.flight ∧ t.harts = s.harts ∧ t.ms.mem = s.ms.mem ∧
          ((t.core m.dstCore).chan m.chan.toNat).prod = a.prod + 1 ∧ ((t.core m.dstCore).chan m.chan.toNat).cons = a.cons ∧
          (a.w1.getLsbD 5 = true → ∀ k, k < 8 → let x := stashIdx m.dstCore (fieldOf a.w1 25 10 * 64 +
            a.prod.toNat % 2 ^ fieldOf a.w1 9 6 * 64)
            isStashPoison s.ms (x / 64) = false → Memory.readDword t.ms.stash (x + 8 * k) = m.words.getD k 0#64)) ∧
      (s.flight = .messageReoffer m :: r → m.dstNode = s.plat.node.toNat → ∃ t, exec .messageReoffer s = .next t ∧
        exec .messageArrival { s with flight := .messageArrival m :: r } = .next t)) ∧
    (∀ m o, s.flight = .messageOutcome m o :: r →
      let h := slotOf m.srcCore m.srcHart
      (o = .deferred → exec .messageOutcome s = .next { s with flight := r ++ [.messageReoffer m] }) ∧
      (o = .accepted → m.status = none → ∃ t, exec .messageOutcome s = .next t ∧ t.ms = s.ms ∧
        t.hart h = { s.hart h with sendq := (t.hart h).sendq } ∧
        (t.hart h).sendq.map (·.msg) = ((s.hart h).sendq.filter fun e => e.msg.id != m.id).map (·.msg) ∧
        ∀ k, k ≠ h → t.hart k = s.hart k) ∧
      (∀ q k, o = .accepted → m.status = some q → q ≠ 0#5 → whereIs s h m.srcTag = .resident k → ∃ t, exec .messageOutcome s = .next t ∧
        (t.hart k).rx q = 0#64 ∧ (t.hart k).xok q = true ∧ XKept (s.hart k) (t.hart k) [q] ∧ t.ms = s.ms) ∧
      (∀ c, o = .returned c → m.isStatus = false → (∀ j g p, whereIs s h m.srcTag ≠ .saved j g p) → ∃ t, exec .messageOutcome s = .next t ∧
        (t.core m.srcCore).retbuf = (s.core m.srcCore).retbuf ++ [⟨m, c, s.time.toNat % 2 ^ 32⟩] ∧ t.ms = s.ms)) ∧
    (∀ core, s.flight = .returnBufferDrain core :: r →
      let k := s.core core
      let a := k.chan 1
      let open_ := a.w1.getLsbD 3 = true ∧ a.masked = false ∧ ¬ 2 ^ fieldOf a.w1 9 6 ≤ (a.prod - a.cons).toNat
      (k.retbuf = [] ∨ ¬ open_ → exec .returnBufferDrain s = .next { s with flight := r }) ∧
      (∀ m l, k.retbuf = m :: l → open_ → ∃ t, exec .returnBufferDrain s = .next t ∧ (t.core core).retbuf = l ∧
        ((t.core core).chan 1).prod = a.prod + 1 ∧ t.ms.mem = s.ms.mem))

/-- R146, R147: the activation dispatched next starts on the hart it takes, in its channel's mode. R149: a watchdog that runs out makes
WATCHDOG pending and grants 4,096 cycles, after which the activation is killed; a budget loaded anew changes nothing. R254: a packet
starts its handler on a free H7, waits for it, or is kept for the restore of a saved partition (R268). Rests on the model's choices in notes/assumptions/14.md. -/
def Obligations.ActivationEvents : Prop :=
  ∀ (s : State) (r : List Event),
    (∀ core, s.flight = .activationDispatch core :: r →
      (∀ c h, nextChannel s core = some c → taskWaiting s core = none → dispatchHart s core c = some h → coreRuns s core = true →
        let ch := (s.core core).chan c
        let wide := ch.w1.getLsbD 5 = true
        ∃ t, exec .activationDispatch s = .next t ∧ (t.hart h).slot = .activation (BitVec.ofNat 6 c) ∧ (t.hart h).tag = nextTag s h ∧
          (t.hart h).mode = Mode.ofCode (chanMode ch.w0) ∧
          (¬ (chanCall ch = true ∧ wide) → (t.hart h).pc = chanPC ch.w0 &&& ~~~1#64) ∧ (∀ k, k ≠ h → t.hart k = s.hart k) ∧
          t.ms = s.ms) ∧
      (nextChannel s core = none → taskWaiting s core = none → exec .activationDispatch s = .next { s with flight := r })) ∧
    (∀ h, s.flight = .watchdogExpiry h :: r →
      let a := s.hart h
      let due := a.isActivation = true ∧ a.grace = false ∧ a.wdog = 0
      (due → a.pure = none → ∃ t, exec .watchdogExpiry s = .next t ∧ (∀ k, k ≠ h → t.hart k = s.hart k) ∧ t.ms = s.ms ∧
        t.hart h = { a with grace := true, wdog := 4096, pend := a.pend ++ [(0x0B, 0#64)], idle := false }) ∧
      (¬ due → exec .watchdogExpiry s = .next { s with flight := r })) ∧
    (∀ h, s.flight = .watchdogKill h :: r →
      let a := s.hart h
      let due := a.isActivation = true ∧ a.grace = true ∧ a.wdog = 0
      (∀ c, due → a.slot = .activation c → a.heldFor = none → ∃ t, exec .watchdogKill s = .next t ∧ (t.hart h).slot = .free) ∧
      (¬ due → exec .watchdogKill s = .next { s with flight := r })) ∧
    (∀ k, s.flight = .landingHandlerStart k :: r → landingOpen s k = true →
      let h := slotOf k.dstCore 7
      let kept := 2 ≤ (s.part ((partOf s k.dstCore).getD 64)).state
      (kept → ∃ t, exec .landingHandlerStart s = .next t ∧ t.harts = s.harts ∧ t.ms = s.ms ∧ t.flight = r) ∧
      (¬ kept → ¬ ((s.hart h).slot = .free ∧ coreRuns s k.dstCore = true) → ∃ t, exec .landingHandlerStart s = .next t ∧
        (t.core k.dstCore).packets = (s.core k.dstCore).packets ++ [k] ∧ t.harts = s.harts ∧ t.ms = s.ms) ∧
      (¬ kept → (s.hart h).slot = .free → coreRuns s k.dstCore = true → ∃ t, exec .landingHandlerStart s = .next t ∧
        (t.hart h).slot = .landing k.chan ∧ (t.hart h).packet = k.block ∧ (t.hart h).hmsg = k.header ∧
        (t.hart h).rx 10 = BitVec.ofNat 64 k.offset ∧
        (∀ j, j ≠ h → t.hart j = s.hart j) ∧ t.ms = s.ms))

/-- R164: a ring takes its oldest record while it has room. R165: a retry lets a held hart go on; a terminal outcome takes LOADPF at its
load, or, where the hart is frozen too, leaves it as the trap it has not entered (R167). R159, R167: a writer below H-mode is ignored; a thawed hart in U or S takes its trap at S, and the
thaw of a saved thread is noted as due; a thawed copy queue is no longer frozen; FRZKILL ends the thread of a frozen hart, and the commands of a frozen queue with token 0x06. Rests on the model's choices in
notes/assumptions/27.md. -/
def Obligations.FaultEvents : Prop :=
  ∀ (s : State) (r : List Event),
    let same := fun (i : Instr) => exec i s = .next { s with flight := r }
    (∀ f ring, s.flight = .ringRecordWrite f ring :: r →
      let a := s.ringAt f ring
      (ringHead s f ring = none → same .ringRecordWrite) ∧
      (∀ x pa, ringHead s f ring = some x → ringReady s f ring = true → nextRing s = some (f, ring) →
        hostWrite s f (a.base.toNat + 32 * (a.wr.toNat % 2 ^ ringLog a)) = some pa → pa % 32 = 0 → isPoison s.ms (pa / 64) = false →
        ∃ t, exec .ringRecordWrite s = .next t ∧ t.ringAt f ring = { a with wr := a.wr + 1 } ∧
          t.flt.waiting = s.flt.waiting.erase x ∧
          (∀ k, k < 4 → Memory.readDword t.ms.mem (pa + 8 * k) = BitVec.ofNat 64 ((recordWords x).getD k 0)) ∧
          ∀ y, y < pa ∨ pa + 32 ≤ y → Memory.read t.ms.mem y = Memory.read s.ms.mem y)) ∧
    (∀ f fid x, s.flt.unresolved.find? (fun y => y.fid % 2 ^ 32 == fid.toNat && y.func == f) = some x → vfFrozen s f = false →
      bootStopped s = false → ∀ h tag va st2, x.owner = .hart h tag → (s.hart h).tag = tag →
      (s.hart h).hold = some (x.fid, va, st2) → (s.hart h).holds = [] →
      (s.flight = .faultresRetry f fid :: r → ∃ t, exec .faultresRetry s = .next t ∧ t.flt.unresolved = s.flt.unresolved.erase x ∧
        t.hart h = { s.hart h with hold := none, stall := none } ∧ (∀ k, k ≠ h → t.hart k = s.hart k) ∧ t.ms = s.ms) ∧
      (s.flight = .faultresTerminal f fid :: r → (s.hart h).pure = none → (s.hart h).frozen.isSome = true →
        ∃ t, exec .faultresTerminal s = .next t ∧ (t.hart h).frozen = some (0x04, va) ∧ (t.hart h).pc = (s.hart h).pc ∧
          t.flt.unresolved = s.flt.unresolved.erase x ∧ (∀ k, k ≠ h → t.hart k = s.hart k) ∧ t.ms = s.ms) ∧
      (s.flight = .faultresTerminal f fid :: r → (s.hart h).pure = none → (s.hart h).frozen = none → ∃ t u, exec .faultresTerminal s = .next t ∧
        t = takeTrapAt u h 0x04 va x.addr x.acc st2 ∧ u.flt.unresolved = s.flt.unresolved.erase x ∧
        u.hart h = { s.hart h with hold := none, stall := none } ∧ (∀ k, k ≠ h → u.hart k = s.hart k) ∧ u.ms = s.ms)) ∧
    (∀ w g k, s.flight = .frzThawHart w g k :: r →
      let h := slotOf g k
      let a := s.hart h
      let gone := a.slot = .parked ∨ a.slot = .sliced
      (modeAtLeast w.mode .h = false ∨ a.frozen = none ∨ a.thawDue = true → same .frzThawHart) ∧
      (modeAtLeast w.mode .h = true → a.frozen.isSome = true → a.thawDue = false → gone →
        exec .frzThawHart s = .next ({ s with flight := r }.setHart h { a with thawDue := true })) ∧
      (∀ c v, modeAtLeast w.mode .h = true → a.frozen = some (c, v) → a.thawDue = false → ¬ gone → c = 0x06 ∨ c = 0x15 →
        a.mode = .u ∨ a.mode = .s → a.hstatus.getLsbD 8 = false → a.status.getLsbD 4 = true → a.sregs.tvec ≠ 0#64 →
        ∃ t, exec .frzThawHart s = .next t ∧ t.hart h = { a with
          frozen := none, stall := none, idle := false, blk := .whole, mode := .s, pc := a.sregs.tvec
          sregs := { a.sregs with epc := a.pc, cause := BitVec.ofNat 64 c, tval := v }
          status := (a.status &&& ~~~0x33#64) ||| 0x20#64 ||| BitVec.ofNat 64 a.mode.code } ∧
        (∀ j, j ≠ h → t.hart j = s.hart j) ∧ t.ms = s.ms)) ∧
    (∀ w g k, s.flight = .frzThawCq w g k :: r → k < 4 →
      (modeAtLeast w.mode .h = false ∨ (s.core g).cqFrozen.getLsbD k = false → same .frzThawCq) ∧
      (modeAtLeast w.mode .h = true → (s.core g).cqFrozen.getLsbD k = true → ∃ t, exec .frzThawCq s = .next t ∧
        (∀ j, j < 4 → (t.core g).cqFrozen.getLsbD j = ((s.core g).cqFrozen.getLsbD j && j != k)) ∧ t.harts = s.harts ∧ t.ms = s.ms)) ∧
    (∀ w g k, s.flight = .frzkillHart w g k :: r →
      (modeAtLeast w.mode .h = false ∨ (s.hart (slotOf g k)).isFrozen = false → same .frzkillHart) ∧
      (modeAtLeast w.mode .h = true → (s.hart (slotOf g k)).isFrozen = true → (s.hart (slotOf g k)).slot = .thread →
        (s.hart (slotOf g k)).heldFor = none → ∃ t, exec .frzkillHart s = .next t ∧ (t.hart (slotOf g k)).slot = .free)) ∧
    (∀ w g k, s.flight = .frzkillCq w g k :: r → k < 4 →
      (modeAtLeast w.mode .h = false ∨ (s.core g).cqFrozen.getLsbD k = false → same .frzkillCq) ∧
      (modeAtLeast w.mode .h = true → (s.core g).cqFrozen.getLsbD k = true → ∃ t, exec .frzkillCq s = .next t ∧
        (t.core g).cqFrozen.getLsbD k = false ∧ ∀ c ∈ (s.core g).copyq k, c.isTask = false →
          .putArrival ⟨c.loc, false, 6, some c.sig, 0, none, true, c.flags, true, none⟩ ∈ t.flight))

/-- R187 to R189, R192, R323: the link events: the state each moves between, and none from another state; a replay counts, and 16
consecutive failures of a flit take the link down; the first bad lane takes the spare, the second takes the link down; training with
this package's own node number takes it down. R191: a packet received is acknowledged, and delivered once, in the order of its flow; a
kept packet is resent on a path that is left. R317: a stopped package moves no link on and takes no packet. Rests on the model's choices in notes/assumptions/44.md, notes/assumptions/60.md. -/
def Obligations.LinkEvents : Prop :=
  ∀ (s : State) (r : List Event) (k : Nat),
    let u := { s with flight := r }
    let a := s.link k
    let same := fun (i : Instr) => exec i s = .next u
    let moves := fun (e : Event) (i : Instr) (src dst : Nat) => s.flight = e :: r →
      (a.state = src → k < 18 → bootStopped s = false → exec i s = .next (u.setLink k { a with state := dst, fails := 0 })) ∧
      (a.state ≠ src ∨ bootStopped s = true → same i)
    moves (.linkPeerSignal k) .linkPeerSignal 0 1 ∧ moves (.lnkcmdDetach k) .lnkcmdDetach 4 5 ∧
    moves (.lnkcmdResume k) .lnkcmdResume 4 2 ∧ moves (.lnkcmdReattach k) .lnkcmdReattach 5 1 ∧
    (s.flight = .linkQuiesced k :: r →
      (a.state = 3 → a.buf = [] → k < 18 → bootStopped s = false →
        exec .linkQuiesced s = .next (u.setLink k { a with state := 4, fails := 0 })) ∧
      (a.state ≠ 3 ∨ a.buf ≠ [] ∨ bootStopped s = true → same .linkQuiesced)) ∧
    (s.flight = .lnkcmdQuiesce k :: r →
      (a.state = 2 → k < 18 → bootStopped s = false → ∃ t, exec .lnkcmdQuiesce s = .next t ∧ t.link k = { a with state := 3, fails := 0 } ∧
        (.linkQuiesced k ∈ t.flight ↔ a.buf = [] ∨ .linkQuiesced k ∈ r) ∧ ∀ j, j ≠ k → t.link j = s.link j) ∧
      (a.state ≠ 2 ∨ bootStopped s = true → ∃ t, exec .lnkcmdQuiesce s = .next t ∧ t = { u with flight := t.flight })) ∧
    (s.flight = .linkPeerSilent k :: r →
      (a.state = 1 ∨ a.state = 2 → exec .linkPeerSilent s =
        .next ((u.setLink k { a with state := 0, fails := 0, buf := [], errs := [] }).fly (.routeRemoval (.link k)))) ∧
      (¬ (a.state = 1 ∨ a.state = 2) → same .linkPeerSilent)) ∧
    (∀ crc fail, s.flight = .linkReplay k crc fail :: r →
      (¬ (a.state = 2 ∨ a.state = 3) → same .linkReplay) ∧
      (a.state = 2 ∨ a.state = 3 → ∃ t, exec .linkReplay s = .next t ∧ (t.link k).replays = a.replays + 1 ∧
        (t.link k).crcerr = (if crc then a.crcerr + 1 else a.crcerr) ∧
        (t.link k).state = (if fail = true ∧ 15 ≤ a.fails then 0 else a.state) ∧ ∀ j, j ≠ k → t.link j = s.link j)) ∧
    (∀ lane, lane < 8 → s.flight = .laneSpare k lane :: r →
      (¬ (a.state = 2 ∨ a.state = 3) → same .laneSpare) ∧
      (a.state = 2 ∨ a.state = 3 → ∃ t, exec .laneSpare s = .next t ∧ (t.link k).badlanes.getLsbD lane = true ∧
        (a.spared = 15 → (t.link k).spared = lane ∧ (t.link k).spares = a.spares + 1 ∧ (t.link k).state = a.state) ∧
        (a.spared ≠ 15 → (t.link k).state = 0 ∧ (t.link k).spared = a.spared))) ∧
    (s.flight = .laneSpare k 8 :: r →
      ((a.state = 2 ∨ a.state = 3) → a.spared ≠ 15 → ∃ t, exec .laneSpare s = .next t ∧ (t.link k).state = 0) ∧
      (¬ (a.state = 2 ∨ a.state = 3) ∨ a.spared = 15 → same .laneSpare)) ∧
    (∀ ok peer spared, s.flight = .linkTrained k ok peer spared :: r →
      (a.state ≠ 1 ∨ bootStopped s = true → same .linkTrained) ∧
      (a.state = 1 → bootStopped s = false → ok = true → peer ≠ s.plat.node → ∃ t, exec .linkTrained s = .next t ∧ (t.link k).state = 2 ∧
        (t.link k).peer = peer.toNat ∧ t.plat.nodeLock = true) ∧
      (a.state = 1 → bootStopped s = false → ok = false ∨ peer = s.plat.node → ∃ t, exec .linkTrained s = .next t ∧ (t.link k).state = 0 ∧
        t.plat.nodeLock = s.plat.nodeLock)) ∧
    (∀ f n p, s.flight = .fabricPacketReceive f n p :: r →
      let w := s.flow f
      let v := transmit u (flowNode s f) f n (.seen n)
      (bootStopped s = true → same .fabricPacketReceive) ∧
      (bootStopped s = false → (∀ q, p = .seen q → ∃ t, exec .fabricPacketReceive s = .next t ∧ (t.flow f).kept = w.kept.filter (·.1 != q) ∧
        (t.flow f).expect = w.expect ∧ t.flight = r ∧ t.harts = s.harts ∧ t.ms = s.ms) ∧
      ((∀ q, p ≠ .seen q) → n < w.expect ∨ (w.early.any (·.1 == n)) = true → exec .fabricPacketReceive s = .next v) ∧
      ((∀ q, p ≠ .seen q) → w.expect < n → (∀ e ∈ w.early, e.1 ≠ n ∧ e.1 ≠ w.expect) → exec .fabricPacketReceive s =
        .next (v.setFlow f { w with early := w.early ++ [(n, p)] })) ∧
      (∀ q, n = w.expect → w.early = [] → p = .put q → ∃ t, exec .fabricPacketReceive s = .next t ∧ (t.flow f).expect = n + 1 ∧
        t.flight = r ++ [.putArrival { q with sig := q.sig.map fun _ => sigAll }] ∧ t.harts = s.harts ∧ t.ms = s.ms))) ∧
    (∀ f n, s.flight = .packetRetransmit f n :: r →
      ((s.flow f).kept.find? (·.1 == n) = none → same .packetRetransmit) ∧
      (∀ m p, (s.flow f).kept.find? (·.1 == n) = some (m, p) → f < 65536 → ∃ t, exec .packetRetransmit s = .next t ∧
        (t.flow f).kept = (s.flow f).kept ∧ Table.get 0 (t.flow f).sentAt n = s.time.toNat ∧
        (pathFor s (f / 4) (packetFlits p) = none → t.fab.sent = s.fab.sent) ∧
        (∀ j, pathFor s (f / 4) (packetFlits p) = some j →
          t.fab.sent = (f / 4, f, n, p) :: s.fab.sent ∧ (t.flow f).resent = (s.flow f).resent + 1))) ∧
    (∀ e, s.flight = .routeRemoval e :: r → ∃ t, exec .routeRemoval s = .next t ∧
      ∀ x, x ∈ t.fab.removed ↔ x = e ∨ x ∈ s.fab.removed) ∧
    (∀ n, s.flight = .peerLost n :: r → ∃ t, exec .peerLost s = .next t ∧ n ∈ t.fab.lost ∧
      ∀ c, c ∈ Table.keys s.fab.conns → (s.conn c).peern = n → (s.conn c).state = 1 →
        (t.conn c).state = 2 ∧ (t.conn c).queue = [])

/-- R195, R183, R199 to R201, R203: a write of a connection by who may write it: opening, closing, and what ends its commands; a command
that completes writes its token; a send that meets a posted receive takes it, else joins the unexpected queue where it has room, else is
refused, and those behind it wait; a pull that ends is no longer open; a word of an assignment queue written from the mode it needs. Rests
on the model's choices in notes/assumptions/44.md, notes/assumptions/61.md. -/
def Obligations.ConnectionEvents : Prop :=
  ∀ (s : State) (r : List Event),
    let u := { s with flight := r }
    (∀ w c v, s.flight = .connectionWrite w c v :: r →
      let a := s.conn c
      let b := { a with
        peern := fieldOf v 61 52, pconn := fieldOf v 51 40, part := fieldOf v 39 34, vmid := v.extractLsb' 28 6
        asid := v.extractLsb' 16 12 }
      let state := fieldOf v 63 62
      let may := modeAtLeast w.mode .h = true ∨ (w.mode = .s ∧
        if a.state = 0 then partOf s w.core = some b.part else partOf s w.core = some a.part ∧ b.part = a.part)
      let same := exec .connectionWrite s = .next u
      let emptied := fun (st : Nat) => ∃ t, exec .connectionWrite s = .next t ∧ (t.conn c).state = st ∧ (t.conn c).queue = [] ∧
        (t.conn c).peern = b.peern ∧ (t.conn c).pconn = b.pconn ∧ (t.conn c).part = b.part ∧ (t.conn c).vmid = b.vmid ∧
        (t.conn c).asid = b.asid ∧ ∀ d, .cmd d ∈ a.queue → d.done = none →
          .putArrival ⟨d.loc, false, 0x16, some sigAll, 0, none, true, d.flags, true, none⟩ ∈ t.flight
      (¬ may → same) ∧ (may → a.state ≠ 0 → state = 1 → same) ∧
      (may → a.state = 0 → state = 1 → s.fab.lost.contains b.peern = false → ∃ t x, exec .connectionWrite s = .next t ∧
        t = u.setConn c x ∧ x.state = 1 ∧ x.count = 0 ∧ x.refused = 0 ∧ x.resent = 0 ∧ x.queue = [] ∧ x.peern = b.peern ∧
        x.pconn = b.pconn ∧ x.part = b.part ∧ x.vmid = b.vmid ∧ x.asid = b.asid) ∧
      (may → a.state = 0 → state = 1 → s.fab.lost.contains b.peern = true → ∃ t, exec .connectionWrite s = .next t ∧
        (t.conn c).state = 2 ∧ (t.conn c).queue = []) ∧
      (may → state = 0 → emptied 0) ∧ (may → a.state ≠ 2 → state = 2 → emptied 2) ∧
      (may → a.state = 2 → state = 2 ∨ state = 3 → exec .connectionWrite s = .next (u.setConn c { b with state := 2 })) ∧
      (may → a.state ≠ 2 → state = 3 → (∀ d l, a.queue = .cmd d :: l → d.done = none) →
        exec .connectionWrite s = .next (u.setConn c { b with state := if a.queue = [] then 0 else 3 }))) ∧
    (∀ c id code data fl, s.flight = .fabricCommandComplete c id code data fl :: r →
      (connCmd s c id = none → exec .fabricCommandComplete s = .next u) ∧
      (∀ d x y, connCmd s c id = some d → d.done = none → d.started = true → d.instr = some (.nput x y) →
        ∃ t, exec .fabricCommandComplete s = .next t ∧
          .putArrival ⟨d.loc, false, BitVec.ofNat 512 (code % 2 ^ 64), some sigAll, 0, none, true, d.flags ||| fl, true, none⟩ ∈
            t.flight)) ∧
    (∀ y, s.flight = .yarrowSendArrival y :: r →
      let p := (s.conn y.conn).part
      let heard := sendWaits s y = false
      (sendWaits s y = true → exec .yarrowSendArrival s = .next u) ∧
      (heard → (s.postedOf p).find? (yMatch y) = none → uqUsed s p + unexpBytes y ≤ uqSize (s.ytenant p) →
        ∃ t, exec .yarrowSendArrival s = .next t ∧ t.unexpOf p = s.unexpOf p ++ [y] ∧ t.postedOf p = s.postedOf p ∧
          t.harts = s.harts ∧ t.ms.stash = s.ms.stash) ∧
      (heard → (s.postedOf p).find? (yMatch y) = none → ¬ uqUsed s p + unexpBytes y ≤ uqSize (s.ytenant p) →
        ∃ t, exec .yarrowSendArrival s = .next t ∧ t.unexpOf p = s.unexpOf p ∧ (t.conn y.conn).inRefused = true ∧ t.ms = s.ms) ∧
      (∀ x, heard → (s.postedOf p).find? (yMatch y) = some x → ∃ t, exec .yarrowSendArrival s = .next t ∧
        t.postedOf p = (s.postedOf p).filter (fun z => z.id != x.id) ∧ t.unexpOf p = s.unexpOf p)) ∧
    (∀ c ref ok data, s.flight = .rendezvousPull c ref ok data :: r →
      let open_ := fun (e : Nat × Recv × YSend) => e.2.2.conn == c && e.2.2.ref == ref
      (List.find? open_ s.fab.pulls = none → exec .rendezvousPull s = .next u) ∧
      (∀ k x y, List.find? open_ s.fab.pulls = some (k, x, y) → ∃ t, exec .rendezvousPull s = .next t ∧
        Table.find? t.fab.pulls k = none ∧ t.unexpOf x.part = (s.unexpOf x.part).erase y)) ∧
    (∀ c, s.flight = .nsendRetry c :: r →
      ((s.conn c).backoff = 0 → exec .nsendRetry s = .next u) ∧
      ((s.conn c).backoff ≠ 0 → ∃ t, exec .nsendRetry s = .next t ∧ (t.conn c).refused = (s.conn c).refused)) ∧
    (∀ w die q k v, s.flight = .assignQueueWrite w die q k v :: r →
      let a := s.assignq die q
      let high := modeAtLeast w.mode .h = true
      let mine := w.mode = .s ∧ partOf s w.core = some a.part
      (k = 0 → high ∨ mine → exec .assignQueueWrite s =
        .next (u.setAssignq die q { a with
          count := v.setWidth 32, next := 0, done := 0, marks := []
          handed := if a.done.toNat < a.count.toNat then max a.next.toNat a.handed else 0
          past := if a.done.toNat < a.count.toNat then a.marks ++ a.past.filter (a.next.toNat ≤ ·) else [] })) ∧
      (k = 1 → high → exec .assignQueueWrite s = .next (u.setAssignq die q { a with part := fieldOf v 37 32 })) ∧
      (k = 2 → high ∨ mine → exec .assignQueueWrite s = .next (u.setAssignq die q { a with cloc := v })) ∧
      (¬ ((k = 0 ∨ k = 2) ∧ (high ∨ mine) ∨ k = 1 ∧ high) → exec .assignQueueWrite s = .next u))

/-- R251, R255, R321: a command starts, leave is granted to the oldest request that the pool covers, the pools are refilled. R250, R244:
gating and waking of the array, and the registers that set them. R281, R283: the lookup of a PTASK whose tenant has no reuse table is a miss; an invalidation drops what sources the frame. Rests on the
model's choices in notes/assumptions/4.md, notes/assumptions/42.md, notes/assumptions/43.md. -/
def Obligations.EngineEvents : Prop :=
  ∀ (s : State) (r : List Event),
    let u := { s with flight := r }
    (∀ core c a, s.flight = .engineCommandStart (.matrix core) :: r → core < 1024 → mheadOf s core = some c → c.ready = true →
      c.started = false → coreRuns s core = true → c.instr = some (.mzero a) → ∃ t, exec .engineCommandStart s = .next t ∧
        mheadOf t core = some { c with started := true }) ∧
    (∀ core q, s.flight = .engineCommandStart (.copy core q) :: r → headOf s core q = none → exec .engineCommandStart s = .next u) ∧
    (∀ die, s.flight = .leaveGrant die :: r →
      (oldestRequest s die = none → exec .leaveGrant s = .next u) ∧
      (∀ n e cost, oldestRequest s die = some (n, e, cost) →
        let covered := s.plat.throttle = false ∧ ((cost : Int) ≤ s.lu die ∨ (poolFull s < (cost : Int) ∧ poolFull s ≤ s.lu die))
        (¬ covered → exec .leaveGrant s = .next u) ∧
        (covered → ∃ t, exec .leaveGrant s = .next t ∧ t.lu die = s.lu die - (cost : Int) ∧ t.ms = s.ms ∧ t.harts = s.harts ∧
          ∀ d, d ≠ die → t.lu d = s.lu d))) ∧
    (∀ ext, s.flight = .cloverRefill ext :: r → ∃ t, exec .cloverRefill s = .next t ∧ t.harts = s.harts ∧ t.ms = s.ms ∧
      (let share := ((capEff s : Int) * 10000 - (ext : Int)) / 4
       (s.plat.throttle = true ∨ share < 0 → t.plat.pools = s.plat.pools) ∧
       (s.plat.throttle = false → 0 ≤ share → ∀ d, d < 4 → t.lu d = min (s.lu d + share) (share * (capTc s : Int) / 10)))) ∧
    (∀ cl k, k < 4 → s.flight = .arrayGate cl k :: r →
      let a := s.cluster cl
      let due := a.mxidle ≠ 0 ∧ a.mxidle.toNat < a.idle ∧ a.waking = false
      (due → ∃ t, exec .arrayGate s = .next t ∧ (∀ j, j < 4 → (t.cluster cl).gated.getLsbD j = (a.gated.getLsbD j || j == k))) ∧
      (¬ due → exec .arrayGate s = .next u)) ∧
    (∀ cl, s.flight = .arrayWakeDone cl :: r →
      let a := s.cluster cl
      (a.waking = false → exec .arrayWakeDone s = .next u) ∧
      (a.waking = true → ∃ t, exec .arrayWakeDone s = .next t ∧ t.cluster cl = { a with gated := 0, waking := false, idle := 0 })) ∧
    (∀ w v, s.flight = .mxwtWrite w v :: r → w.mode = .m →
      exec .mxwtWrite s = .next (u.setCore w.core { s.core w.core with mxwt := v.setWidth 4 })) ∧
    (∀ w v, s.flight = .mxidleWrite w v :: r → w.mode = .m → w.core < 1024 → exec .mxidleWrite s =
      .next (u.setCluster (clusterOf w.core) { s.cluster (clusterOf w.core) with mxidle := v.setWidth 20 })) ∧
    (∀ core c, s.flight = .chicoryLookup core :: r → headOf s core 0 = some c → c.ready = true → c.started = true → c.isTask = true →
      c.consumed = false → qFrozen s core 0 = false → coreRuns s core = true → chicoryOn s core = none →
      ∃ t, exec .chicoryLookup s = .next t ∧ headOf t core 0 = some { c with busy := true, off := 0 } ∧ t.reuse = s.reuse) ∧
    (∀ f, s.flight = .chicoryInvalidation f :: r → ∃ t, exec .chicoryInvalidation s = .next t ∧
      (s.reuse.watched.contains f = true →
        (∀ e ∈ t.reuse.entries, f ∈ e.frames → e.state ≠ .valid ∧ e.state ≠ .pending) ∧
        ∀ e, f ∉ e.frames → (e ∈ t.reuse.entries ↔ e ∈ s.reuse.entries)) ∧
      (s.reuse.watched.contains f = false → t = u))

/-- R243, R244, R245: a step of the unit is of the command whose turn it is; a frozen or waking unit takes none, and an MMUL that meets a
gated quarter wakes the array first (R250). R259: MZERO makes its accumulator +0. R247, R249, R260, R261: a step of MMUL folds the terms
of its K-block, or of the two of a compressed step, into every element, in order; each dword of an A block is what the stash holds or
what it held at the issue, the B blocks are those of the weight buffer, and no byte of memory, stash or weight buffer changes; the last
step writes both tokens (R248). R262: MSTW stores its 128 rows in rising order, biased, in its format, and clears after where it is told
to. R215: the term of a pair of blocks and its flags. Rests on the model's choices in notes/assumptions/43.md, notes/assumptions/59.md,
notes/assumptions/62.md. -/
def Obligations.MatrixSteps : Prop :=
  (∀ (s : State) (r : List Event) (cl : Nat), s.flight = .matrixStepComplete cl :: r →
    ((s.cluster cl).waking = true ∨ lockHalted s (coreOfQueue cl 0) = true →
      exec .matrixStepComplete s = .next { s with flight := r }) ∧
    (∀ q left ws c, (s.cluster cl).waking = false → lockHalted s (coreOfQueue cl 0) = false → pickQueue s cl = some (q, left, ws) →
      let core := coreOfQueue cl q
      mheadOf s core = some c → core < 1024 → c.shadow = none → (∀ h g p, whereIs s c.hart c.tag ≠ .saved h g p) →
      let othersKept := fun (t : State) (a : Nat) => (∀ k b i j, b < 2 → i < 128 → j < 128 → k ≠ core ∨ b ≠ a →
        accAt t.ms k b i j = accAt s.ms k b i j) ∧ t.ms.mem = s.ms.mem ∧ t.ms.wbuf = s.ms.wbuf
      let token := fun (t : State) (loc : Word) (fl : Sticky) (settles : Bool) (cmd : Option Nat) =>
        .putArrival ⟨loc, false, 0, some c.sig, 0, none, true, fl, settles, cmd⟩ ∈ t.flight
      (∀ a, c.instr = some (.mzero a) → ∃ t, exec .matrixStepComplete s = .next t ∧
        (∀ i j, i < 128 → j < 128 → accAt t.ms core a.toNat i j = 0) ∧ othersKept t a.toNat ∧ t.ms.stash = s.ms.stash ∧
        (t.core core).mq = (s.core core).mq.tail ∧ token t c.loc c.flags true none) ∧
      (∀ d x y, c.instr = some (.mmul d x y) → (s.cluster cl).gated ≠ 0 → ∃ t, exec .matrixStepComplete s = .next t ∧
        (t.cluster cl).waking = true ∧ .arrayWakeDone cl ∈ t.flight ∧ t.ms = s.ms ∧ t.cores = s.cores ∧ t.harts = s.harts) ∧
      (∀ d x y, c.instr = some (.mmul d x y) → (s.cluster cl).gated = 0 → wbRaces s (clusterOf core) = [] →
        (c.x 0).toNat % 64 = 0 → (c.x 1).toNat % 64 = 0 →
        let sparse := (c.x 3).getLsbD 9
        let n := ((c.x 3).extractLsb' 0 8).toNat
        let steps := if sparse then n / 2 else n
        let a := ((c.x 3).extractLsb' 8 1).toNat
        let kbs := if sparse then [2 * c.off, 2 * c.off + 1] else [c.off]
        let at_ := fun (kb i : Nat) => (c.x 0).toNat + i * (c.x 1).toNat + 64 * kb
        let dword := fun (m : Memory) (o : Nat) => BitVec.ofNat 64 (leNat (Memory.readBytes m (stashIdx core o) 8))
        let bo := (c.x 2).toNat
        let block := fun (o : Nat) => Memory.readBlock s.ms.wbuf (wbIdx s core o)
        let bOf := fun (kb j : Nat) => if sparse then
          expand (block (bo + 64 * (kb / 2 * 128 + j))) (Memory.readNat s.ms.wbuf (wbIdx s core (bo + 4096 * n + 20 * (kb / 2 * 128 + j))) 20) (kb % 2)
          else block (bo + 64 * (128 * kb + j))
        c.off < steps → (∀ kb ∈ kbs, ∀ i, i < 128 → at_ kb i + 64 ≤ 0x40000 ∧ windowAt s core (at_ kb i) = none ∧
          isStashPoison s.ms (stashIdx core (at_ kb i) / 64) = false) →
        ∃ (t : State) (aOf : Nat → Nat → VWord) (fl : Sticky), exec .matrixStepComplete s = .next t ∧
          (∀ kb ∈ kbs, ∀ i w, i < 128 → w < 8 → (aOf kb i).extractLsb' (64 * w) 64 = dword s.ms.stash (at_ kb i + 8 * w) ∨
            ∃ old, c.old = some old ∧ (aOf kb i).extractLsb' (64 * w) 64 = dword old (at_ kb i + 8 * w)) ∧
          (∀ i j, i < 128 → j < 128 → accAt t.ms core a i j =
            kbs.foldl (fun v kb => fAdd f32Fmt v (pairterm (aOf kb i) (bOf kb j)).1 % 2 ^ 32) (accAt s.ms core a i j)) ∧
          (∀ b, fl.getLsbD b = true ↔ c.flags.getLsbD b = true ∨
            ∃ kb ∈ kbs, ∃ i j, i < 128 ∧ j < 128 ∧ (pairterm (aOf kb i) (bOf kb j)).2.getLsbD b = true) ∧
          othersKept t a ∧ t.ms.stash = s.ms.stash ∧
          (c.off + 1 < steps → mheadOf t core = some { c with off := c.off + 1, flags := fl }) ∧
          (c.off + 1 = steps → (t.core core).mq = (s.core core).mq.tail ∧ token t c.loc 0 false (some c.id) ∧
            token t c.loc2 fl true (some c.id))) ∧
      (∀ d x, c.instr = some (.mstw d x) → c.off = 0 → (∀ o, windowAt s core o = none) →
        let dst := (c.x 0).toNat
        let pitch := (c.x 1).toNat
        let bias := (c.x 3).toNat
        let f := ((c.x 2).extractLsb' 0 3).toNat
        let a := ((c.x 2).extractLsb' 4 1).toNat
        let row := if f = 0 then 512 else if f = 1 then 256 else 128
        let vals := fun (m : Memory) (i : Nat) => (List.range 128).map fun j => if bias = 0 then accAt s.ms core a i j
          else fAdd f32Fmt (accAt s.ms core a i j) (leNat (Memory.readBytes m (stashIdx core (bias + 4 * j)) 4))
        let lo := fun (v : List Nat) => packBlock 1 (v.take 80)
        let hi := fun (v : List Nat) => packBlock 1 (v.drop 80 ++ List.replicate 32 0)
        let bytes := fun (v : List Nat) =>
          if f = 0 then v.flatMap fun x => leBytes 4 (if f32Fmt.isNaN x then f32Fmt.nanBits else x)
          else if f = 1 then v.flatMap fun x => leBytes 2 (f32ToBf16 x)
          else leBytes 64 (lo v).1.toNat ++ leBytes 64 (hi v).1.toNat
        let store := fun (p : Memory × Sticky) (i : Nat) =>
          (Memory.writeBytes p.1 (stashIdx core (dst + i * pitch)) (bytes (vals p.1 i)),
            if f = 2 then p.2 ||| (lo (vals p.1 i)).2 ||| (hi (vals p.1 i)).2 else p.2)
        let out := (List.range 128).foldl store (s.ms.stash, c.flags)
        dst % 64 = 0 → pitch % 64 = 0 → bias % 64 = 0 → f ≤ 2 → dst + 127 * pitch + row ≤ 0x40000 → (bias ≠ 0 → bias + 512 ≤ 0x40000) →
        (∀ k, k < 0x1000 → isStashPoison s.ms (core * 0x1000 + k) = false) →
        ∃ t, exec .matrixStepComplete s = .next t ∧ (∀ y, Memory.read t.ms.stash y = Memory.read out.1 y) ∧
          (∀ i j, i < 128 → j < 128 → accAt t.ms core a i j = if (c.x 2).getLsbD 3 then 0 else accAt s.ms core a i j) ∧
          othersKept t a ∧ (t.core core).mq = (s.core core).mq.tail ∧ token t c.loc out.2 true none))) ∧
  (∀ a b : VWord,
    let nan := f32Fmt.nanBits
    let sc := f32Fmt.round ((blkScale a).mul (blkScale b))
    let value := fun (u : Nat) => if f32Fmt.isNaN u then nan else if f32Fmt.mag u = 0 then 0 else fMul f32Fmt u sc
    let sum := fun (n : Nat) (f : Nat → Int) => ((List.range n).map f).sum
    (blkReserved a = true ∨ blkReserved b = true → pairterm a b = (nan, 3#3)) ∧
    (blkReserved a = false → blkReserved b = false →
      (blkPoison a = true ∨ blkPoison b = true → pairterm a b = (nan, 1#3)) ∧
      (blkPoison a = false → blkPoison b = false →
        (blkFmt a = 0 ∨ blkFmt b = 0 ∨ blkE a = 0 ∨ blkE b = 0 → pairterm a b = (0, 0#3)) ∧
        (blkFmt a ≠ 0 → blkFmt b ≠ 0 → blkE a ≠ 0 → blkE b ≠ 0 →
          (blkFmt a ≠ blkFmt b ∨ blkFmt a = 4 → pairterm a b = (nan, 2#3)) ∧
          (blkFmt a = 1 → blkFmt b = 1 → (∃ i, i < 80 ∧ (blkElt a i = 32 ∨ blkElt b i = 32)) → pairterm a b = (nan, 4#3)) ∧
          (blkFmt a = 1 → blkFmt b = 1 → (∀ i, i < 80 → blkElt a i ≠ 32 ∧ blkElt b i ≠ 32) →
            let z := sum 80 fun i => lgprod (blkElt a i) (blkElt b i)
            pairterm a b = (value (f32Fmt.round (.fin (z < 0) z.natAbs (-20))), 0#3)) ∧
          (blkFmt a = 2 → blkFmt b = 2 →
            pairterm a b = (value (intToF32 (sum 60 fun i => (BitVec.ofNat 8 (blkElt a i)).toInt * (BitVec.ofNat 8 (blkElt b i)).toInt)), 0#3)) ∧
          (blkFmt a = 3 → blkFmt b = 3 →
            pairterm a b = (value ((List.range 30).foldl (fun u i => f32Fmt.round ((f32Fmt.value u).add
              ((bf16Fmt.value (blkElt a i)).mul (bf16Fmt.value (blkElt b i))))) 0), 0#3))))))

/-- R253: a piece of a copy, of a started command at the head of its queue, that reads a remote stash: the next bytes up to the 4 KiB
boundaries of both sides. R265: CPY writes them as they were. R263: MLDW writes them to the weight buffer, the index stream after the
length, and its token comes once every byte is written. R254, R266: CPYR reduces the element at its home; a poisoned source ends it with
0x0D and PSN, a stash as destination with 0x06. R267: CPYG gathers the bytes of the element that its index names. R254, R268: CPYH sends
its packet and waits for the handler, or ends with 0x06 where it may not name the core. R269, R296: CPYX copies its blocks; a block
delivered as poison stays poison in a stash, and ends a copy without TYPED to a class U frame with 0x0D. The last piece writes the token
(R258). Rests on the model's choices in notes/assumptions/42.md. -/
def Obligations.CopyPieces : Prop :=
  ∀ (s : State) (r : List Event) (core q : Nat) (c : Cmd) (d a : Reg) (k : BitVec 2),
    s.flight = .copyPieceDone core q :: r → headOf s core q = some c → c.ready = true → c.started = true → qFrozen s core q = false →
    coreRuns s core = true → c.isTask = false → c.pure = false → c.shadow = none →
    let remote := fun (va : Word) (n i : Nat) => ∃ g o, g ≠ core ∧ regionOf va = .remote g o ∧ o + n ≤ 0x40000 ∧ i = stashIdx g o
    let clean := fun (i n : Nat) => ∀ k, k < n → isStashPoison s.ms ((i + k) / 64) = false
    let bytes := fun (i n : Nat) => Memory.readBytes s.ms.stash i n
    let room := fun (va : Word) => 4096 - va.toNat % 4096
    let off := BitVec.ofNat 64 c.off
    let stashTakes := fun (t : State) (j n i : Nat) => Memory.readBytes t.ms.stash j n = bytes i n ∧
      (∀ x, x < j ∨ j + n ≤ x → Memory.read t.ms.stash x = Memory.read s.ms.stash x) ∧ t.ms.mem = s.ms.mem ∧ t.ms.wbuf = s.ms.wbuf
    let token := fun (t : State) (code : Nat) (fl : Sticky) => ∃ g, .putArrival ⟨c.loc, false, BitVec.ofNat 512 code, some g, 0, none, true, fl, true, none⟩ ∈ t.flight
    let goes := fun (t : State) (to_ total : Nat) =>
      (to_ < total → ∃ e, headOf t core q = some e ∧ e.id = c.id ∧ e.off = to_ ∧ e.started = true) ∧ (total ≤ to_ → token t 0 c.flags)
    let total := (c.x 2).toNat
    (∀ n i j, c.instr = some (.cpy d a k) → c.x 3 = 0#64 → c.off < total → n = min (total - c.off) (min (room (c.x 0 + off)) (room (c.x 1 + off))) →
      remote (c.x 0 + off) n i → remote (c.x 1 + off) n j → clean i n → clean j n →
      ∃ t, exec .copyPieceDone s = .next t ∧ stashTakes t j n i ∧ goes t (c.off + n) total) ∧
    (c.instr = some (.mldw d a) →
      let all := total + (if c.x 3 = 0#64 then 0 else 20 * (total / 64))
      (∀ n i, c.off < all → c.consumed = false →
        let src := if c.off < total then c.x 0 + off else c.x 3 + BitVec.ofNat 64 (c.off - total)
        let left := if c.off < total then total - c.off else all - c.off
        n = (if left ≤ room src then left else if room src < 8 then min left 8 else room src / 8 * 8) → remote src n i → clean i n →
        let w := wbIdx s core ((c.x 1).toNat + c.off)
        ∃ t e, exec .copyPieceDone s = .next t ∧ Memory.readBytes t.ms.wbuf w n = bytes i n ∧
          (∀ x, x < w ∨ w + n ≤ x → Memory.read t.ms.wbuf x = Memory.read s.ms.wbuf x) ∧ t.ms.mem = s.ms.mem ∧
          t.ms.stash = s.ms.stash ∧ headOf t core q = some e ∧ e.id = c.id ∧ e.off = c.off + n) ∧
      (all ≤ c.off → ∃ t, exec .copyPieceDone s = .next t ∧ t.ms.wbuf = s.ms.wbuf ∧ token t 0 c.flags)) ∧
    (∀ n ii i, c.instr = some (.cpyg d a k) → core < 4096 → (∀ o, windowAt s core o = none) →
      let e := ((c.x 2).extractLsb' 0 32).toNat
      let dst := ((c.x 2).extractLsb' 32 18).toNat + c.off
      let count := ((c.x 3).extractLsb' 0 32).toNat
      let src := c.x 0 + BitVec.ofNat 64 (leNat (bytes ii 4) * e + c.off % e)
      c.off < e * count → n = min (e - c.off % e) (min (room src) (4096 - dst % 4096)) → dst + n ≤ 0x40000 →
      remote (c.x 1 + BitVec.ofNat 64 (4 * (c.off / e))) 4 ii → clean ii 4 → remote src n i → clean i n → clean (stashIdx core dst) n →
      ∃ t, exec .copyPieceDone s = .next t ∧ stashTakes t (stashIdx core dst) n i ∧ goes t (c.off + n) (e * count)) ∧
    (c.instr = some (.cpyh d a k) → ∀ i, remote (c.x 0 + off) 64 i → clean i 64 → i % 64 = 0 →
      let l := resolveLocal s.plat.node (c.x 1)
      let ok := fun (g : Nat) => locNode l = s.plat.node.toNat ∧ locDie l ≤ 3 ∧ locCore l = some g ∧ samePart s core g = true
      (∀ g, ok g → ∃ t p, exec .copyPieceDone s = .next t ∧ .landingHandlerStart p ∈ t.flight ∧ p.dstCore = g ∧ p.offset = c.off ∧
        p.chan = (c.x 2).extractLsb' 0 6 ∧ p.block = BitVec.ofNat 512 (leNat (bytes i 64)) ∧ t.ms = s.ms ∧ t.harts = s.harts ∧
        headOf t core q = some { c with busy := true }) ∧
      ((∀ g, ¬ ok g) → ∃ t, exec .copyPieceDone s = .next t ∧ token t 6 c.flags ∧ t.ms = s.ms)) ∧
    (c.instr = some (.cpyx d a k) → c.x 3 &&& ~~~15#64 = 0#64 → (c.x 0).toNat % 64 = 0 → (c.x 1).toNat % 64 = 0 → total % 64 = 0 →
      c.off % 64 = 0 → c.off < total → ∀ i, i % 64 = 0 →
      (∀ n j, n = min (total - c.off) (min (room (c.x 0 + off)) (room (c.x 1 + off))) → j % 64 = 0 → (i + n ≤ j ∨ j + n ≤ i) →
        remote (c.x 0 + off) n i → remote (c.x 1 + off) n j → clean i n →
        ∃ t, exec .copyPieceDone s = .next t ∧ stashTakes t j n i ∧ goes t (c.off + n) total) ∧
      (isStashPoison s.ms (i / 64) = true → remote (c.x 0 + off) 64 i → c.off + 64 = total →
        (∀ j, j % 64 = 0 → remote (c.x 1 + off) 64 j → ∃ t, exec .copyPieceDone s = .next t ∧ isStashPoison t.ms (j / 64) = true ∧
          Memory.readBlock t.ms.stash j = poisonBlock ∧ token t 0 c.flags) ∧
        (∀ u pa sm nc holder rm, (c.x 3).getLsbD 0 = false → classOf u.ms pa = 0 →
          engReach s core c.ctx (c.x 1 + off) accWrite = .ok (.mem pa sm nc holder rm, u) →
          ∃ t, exec .copyPieceDone s = .next t ∧ token t 0x0D c.flags ∧ t.ms.mem = s.ms.mem ∧ t.ms.stash = s.ms.stash))) ∧
    (∀ (f : Instr) (n : Nat) (op : Nat → Nat → Nat), c.instr = some f →
      (f, n, op) ∈ ([(.cpyrAddS32 d a k, 4, fun x y => x + y), (.cpyrAddF32 d a k, 4, fAdd f32Fmt),
        (.cpyrAddBf16 d a k, 2, fAdd bf16Fmt), (.cpyrMinS32 d a k, 4, fun x y => if (BitVec.ofNat 32 x).sle (BitVec.ofNat 32 y) then x else y),
        (.cpyrMaxS32 d a k, 4, fun x y => if (BitVec.ofNat 32 y).sle (BitVec.ofNat 32 x) then x else y), (.cpyrMinF32 d a k, 4, fMin f32Fmt),
        (.cpyrMaxF32 d a k, 4, fMax f32Fmt), (.cpyrAnd d a k, 4, fun x y => x &&& y), (.cpyrOr d a k, 4, fun x y => x ||| y)] :
        List (Instr × Nat × (Nat → Nat → Nat))) →
      c.x 3 = 0#64 → c.off + n = total → (c.x 1 + off).toNat % n = 0 → ∀ i, remote (c.x 0 + off) n i →
      (clean i n → ∀ u pa nc holder rm, engReach s core c.ctx (c.x 1 + off) accWrite = .ok (.mem pa none nc holder rm, u) →
        isHost pa = false → pa % n = 0 → lineState u.ms none pa = .clean → (∀ h g p, whereIs s c.hart c.tag ≠ .saved h g p) →
        ∃ t, exec .copyPieceDone s = .next t ∧
          leNat (Memory.readBytes t.ms.mem pa n) = op (leNat (Memory.readBytes s.ms.mem pa n)) (leNat (bytes i n)) % 2 ^ (8 * n) ∧
          (∀ x, x < pa ∨ pa + n ≤ x → Memory.read t.ms.mem x = Memory.read s.ms.mem x) ∧ t.ms.stash = s.ms.stash ∧
          token t 0 c.flags) ∧
      (clean i n → ∀ j, remote (c.x 1 + off) n j → ∃ t, exec .copyPieceDone s = .next t ∧ token t 6 c.flags ∧ t.ms = s.ms) ∧
      ((∀ m, m < n → isStashPoison s.ms ((i + m) / 64) = true) → ∃ t, exec .copyPieceDone s = .next t ∧ token t 0x0D (c.flags ||| 1#3) ∧
        t.ms.mem = s.ms.mem ∧ t.ms.stash = s.ms.stash))

/-- R6, R345, R313: registers without a row of their own. A write of the package and control windows from below M-mode changes nothing;
from M-mode it stores the implemented bits of WBWIN (R246), of a Yarrow entry's UQBASE, UQLOG and RQUOTA, through either link die's
window (R198; one table behind both is the model's choice, notes/assumptions/90.md), of a Chicory tenant entry (R279) and of a VF's entry
(R312). The management page's power registers (R320) and link commands (R323), and what BAR0 stores and reads. Rests on the model's
choices in notes/assumptions/46.md, notes/assumptions/67.md. -/
def Obligations.PlatformRegisters : Prop :=
  ∀ (s : State) (r : List Event),
    let u := { s with flight := r }
    (∀ w va v, s.flight = .registerWrite (.window w) va v :: r →
      let stores := fun (t : State) => exec .registerWrite s = .next t
      (w.mode ≠ .m → stores u) ∧
      (w.mode = .m →
        (∀ g, regionOf va = .ctrl g 0x18 → stores (u.setCore g { s.core g with wbwin := v &&& 0x3F3F#64 })) ∧
        (∀ die p, die < 2 → p < 64 →
          let off := 0x42020000 + 0x1000000 * die + 32 * p
          let y := s.ytenant p
          let entry := fun (y : YTenant) => stores { u with fab := { s.fab with yarrow := Table.set s.fab.yarrow p y } }
          (regionOf va = .pkg off → entry { y with uqbase := v &&& 0xFFFFFFFFFFFFF000#64, uqlog := (v.extractLsb' 0 6).toNat }) ∧
          (regionOf va = .pkg (off + 8) → entry { y with rquota := (v.extractLsb' 32 14).toNat })) ∧
        (∀ p, p < 64 →
          let x := s.rtenant p
          let entry := fun (x : Word × Word) => stores { u with reuse := { s.reuse with tenants := Table.set s.reuse.tenants p x } }
          (regionOf va = .pkg (0x44000000 + 16 * p) → entry (v &&& 0x800FFFFFFFE0FFFF#64, x.2)) ∧
          (regionOf va = .pkg (0x44000008 + 16 * p) → entry (x.1, v &&& 0xF1FFF#64)) ∧
          (regionOf va = .pkg (0x4B000000 + 8 * p) →
            stores { u with plat := { s.plat with vft := Table.set s.plat.vft p (v &&& 0x8000000000000FFF#64) } })))) ∧
    (∀ v, (s.flight = .registerWrite .mgmt 0x100 v :: r →
        exec .registerWrite s = .next { u with plat := { s.plat with pwrcap := v.setWidth 16 } }) ∧
      (s.flight = .registerWrite .mgmt 0x108 v :: r →
        exec .registerWrite s = .next { u with plat := { s.plat with pwrcapt := v.setWidth 16 } }) ∧
      (s.flight = .registerWrite .mgmt 0x110 v :: r →
        exec .registerWrite s = .next { u with plat := { s.plat with pwrfloor := v.setWidth 16 } }) ∧
      (s.flight = .registerWrite .mgmt 0x120 v :: r →
        exec .registerWrite s = .next { u with plat := { s.plat with rackgrp := v.setWidth 10 } }) ∧
      (∀ k, k < 18 → s.flight = .registerWrite .mgmt (BitVec.ofNat 64 (0x200 + 8 * k)) v :: r →
        let cmd := fieldOf v 2 0
        let st := (s.link k).state
        (cmd = 1 → st = 2 → exec .registerWrite s = .next (u.fly (.lnkcmdQuiesce k))) ∧
        (cmd = 2 → st = 4 → exec .registerWrite s = .next (u.fly (.lnkcmdDetach k))) ∧
        (cmd = 3 → st = 4 → exec .registerWrite s = .next (u.fly (.lnkcmdResume k))) ∧
        (cmd = 4 → st = 5 → exec .registerWrite s = .next (u.fly (.lnkcmdReattach k))) ∧
        (¬ ((cmd = 1 ∧ st = 2) ∨ (cmd = 2 ∧ st = 4) ∨ (cmd = 3 ∧ st = 4) ∨ (cmd = 4 ∧ st = 5)) → exec .registerWrite s = .next u)) ∧
      (s.flight = .registerWrite (.bar0 0) 0x200 v :: r → bootStopped s = false →
        exec .registerWrite s = .next { u with flt := { s.flt with ringwt := v &&& 0xFFFFFF#64 } })) ∧
    (bootStopped s = false → barRead s 0 0x200 = s.flt.ringwt ∧ barRead s 0 0x300 = s.flt.vffrz ∧ barRead s 0 0x308 = 0#64 ∧
      ∀ f, barRead s f 0x80 = Table.get 0#64 s.flt.msgstat f ∧ barRead s f 0x110 = (s.ringAt f 0).wr.setWidth 64 ∧
        barRead s f 0x118 = (s.ringAt f 0).rd.setWidth 64 ∧ barRead s f 0x400 = 0#64)

/-- R285 to R287, R314 to R324: a Class Map entry, rings, the VFs' freeze and kill, what the board and the rack do, the emergency throttle
(R322), and lockstep's comparison, which freezes both clusters of a bound pair (R293); a package stopped at start-up ignores its other
ports. Rests on the model's choices in notes/assumptions/4.md (what a report holds is fixed at the nonce's write), notes/assumptions/7.md,
notes/assumptions/46.md, notes/assumptions/47.md, notes/assumptions/65.md. -/
def Obligations.PlatformEvents : Prop :=
  ∀ (s : State) (r : List Event),
    let u := { s with flight := r }
    (∀ w f v, s.flight = .classMapWrite w f v :: r →
      (w.mode ≠ .m → exec .classMapWrite s = .next u) ∧
      (w.mode = .m → v.getLsbD 2 = false → ∃ t, exec .classMapWrite s = .next t ∧ entryOnline (classEntry t.ms f) = false ∧
        entryPart (classEntry t.ms f) = entryPart v ∧ t.ms.mem = s.ms.mem) ∧
      (w.mode = .m → f ≤ Config.lastFrame → v.getLsbD 2 = true → entryClass v ≠ 3 → entryOnline (classEntry s.ms f) = false →
        rawUsed { s.ms with classMap := Table.set s.ms.classMap f (BitVec.ofNat 64 (entryPart v * 2 ^ 10 + entryClass v)) } +
          rawCost (entryClass v) ≤ Config.rawTotal →
        ∃ t, exec .classMapWrite s = .next t ∧ entryOnline (classEntry t.ms f) = true ∧
          entryClass (classEntry t.ms f) = entryClass v ∧
          (∀ x, f * 0x200000 ≤ x → x < f * 0x200000 + 0x200000 → Memory.read t.ms.mem x = 0#8) ∧
          ∀ x, x < f * 0x200000 ∨ f * 0x200000 + 0x200000 ≤ x → Memory.read t.ms.mem x = Memory.read s.ms.mem x)) ∧
    (∀ f ring v, s.flight = .ringEnable f ring v :: r →
      let a := s.ringAt f ring
      (bootStopped s = true → exec .ringEnable s = .next u) ∧
      (bootStopped s = false → ringChecks s f a = true →
        exec .ringEnable s = .next (u.setRing f ring { a with en := true, err := a.err && !v.getLsbD 62 })) ∧
      (bootStopped s = false → ringChecks s f a = false → f = 0 → exec .ringEnable s = .next u) ∧
      (bootStopped s = false → ringChecks s f a = false → 0 < f → f < 64 → ∃ t, exec .ringEnable s = .next t ∧ (t.ringAt f ring).en = false ∧
        t.flt.vffrz.getLsbD f = true)) ∧
    (∀ f ring v, s.flight = .ringRdWrite f ring v :: r → ∃ t, exec .ringRdWrite s = .next t ∧
      (let a := s.ringAt f ring
       (bootStopped s = true → t = u) ∧
       (bootStopped s = false → (a.wr - v).toNat ≤ 2 ^ ringLog a → t.ringAt f ring = { a with rd := v }) ∧
       (bootStopped s = false → ¬ (a.wr - v).toNat ≤ 2 ^ ringLog a → (t.ringAt f ring).err = true ∧ (t.ringAt f ring).wr = a.wr))) ∧
    (∀ m, s.flight = .vfThaw m :: r → exec .vfThaw s =
      .next (if bootStopped s then u else { u with flt := { s.flt with vffrz := s.flt.vffrz &&& ~~~m } })) ∧
    (∀ m, s.flight = .vfKill m :: r → bootStopped s = true → exec .vfKill s = .next u) ∧
    (∀ m, s.flight = .vfKill m :: r → bootStopped s = false → ∃ t, exec .vfKill s = .next t ∧
      (∀ x, x ∈ t.flt.waiting ↔ x ∈ s.flt.waiting ∧ ¬ (0 < x.func ∧ x.func < 64 ∧ m.getLsbD x.func = true)) ∧
      ∀ f, vfBound t f = (vfBound s f && !(decide (0 < f ∧ f < 64) && m.getLsbD f))) ∧
    (∀ k v, s.flight = .feataccWrite k v :: r →
      (s.plat.featdone.getLsbD k.toNat = true → exec .feataccWrite s = .next u) ∧
      (s.plat.featdone.getLsbD k.toNat = false → ∃ t, exec .feataccWrite s = .next t ∧ Table.get 0#64 t.plat.featacc k.toNat = v ∧
        t.plat.featdone.getLsbD k.toNat = true)) ∧
    (∀ fail node, s.flight = .boot fail node :: r → ∃ t, exec .boot s = .next t ∧ t.harts = State.reset.harts ∧
      t.cores = State.reset.cores ∧ t.ms = State.reset.ms ∧ t.fab = State.reset.fab ∧ t.lch = State.reset.lch ∧ t.flight = [] ∧
      (fail = none → t.plat.bootstat = 6#64 ∧ t.plat.node = node) ∧
      (∀ k, fail = some k → 1 ≤ k → k ≤ 4 → t.plat.bootstat = BitVec.ofNat 64 (257 * k) ∧ t.plat.node = 0)) ∧
    (∀ v, s.flight = .nodeidWrite v :: r →
      (s.plat.nodeLock = true → exec .nodeidWrite s = .next u) ∧
      (s.plat.nodeLock = false → exec .nodeidWrite s = .next { u with plat := { s.plat with node := v.setWidth 10 } })) ∧
    (∀ n, s.flight = .attnonceWrite n :: r →
      let t : State := { u with
        plat := { s.plat with nonce := n, report := false, reportData := reportBytes s n }
        flight := if r.contains .attestationReportDone then r else r ++ [.attestationReportDone] }
      exec .attnonceWrite s = .next t ∧ (∀ i, i < 4 → reportByteOf t i = 0#8) ∧
        ∀ i, i < 32 → reportByteOf t (8 + i) = n.extractLsb' (8 * i) 8) ∧
    (s.flight = .attestationReportDone :: r →
      exec .attestationReportDone s = .next { u with plat := { s.plat with report := true } }) ∧
    (s.flight = .emthrotAssert :: r → ∃ t, exec .emthrotAssert s = .next t ∧ t.plat.throttle = true ∧ ∀ d, d < 4 → t.lu d = 0) ∧
    (s.flight = .emthrotRelease :: r → exec .emthrotRelease s = .next { u with plat := { s.plat with throttle := false } }) ∧
    (s.flight = .traypresNHigh :: r → exec .traypresNHigh s = .next { u with plat := { s.plat with trayHigh := true } }) ∧
    (∀ off v, (s.flight = .i3cPrivateWrite off none :: r →
        exec .i3cPrivateWrite s = .next { u with plat := { s.plat with i3coff := off } }) ∧
      (s.flight = .i3cPrivateWrite 0x120 (some v) :: r →
        exec .i3cPrivateWrite s = .next { u with plat := { s.plat with i3coff := 0x120, rackgrp := v.setWidth 10 } })) ∧
    (s.flight = .i3cPrivateRead :: r → ∃ t, exec .i3cPrivateRead s = .next t ∧
      (s.plat.i3coff = 0x100#16 → t.plat.i3cdata = s.plat.pwrcap.setWidth 64) ∧
      (s.plat.i3coff = 0#16 → t.plat.i3cdata = s.plat.bootstat)) ∧
    (∀ g c, s.flight = .i3cBroadcastCap g c :: r →
      (s.plat.rackgrp = g → exec .i3cBroadcastCap s = .next { u with plat := { s.plat with pwrcap := c } }) ∧
      (s.plat.rackgrp ≠ g → exec .i3cBroadcastCap s = .next u)) ∧
    (∀ k, s.flight = .lockstepMismatch k :: r →
      let on := (Table.find? s.plat.lockstep k).isSome = true ∧ featureOn s 5 = true
      (on → ∃ t, exec .lockstepMismatch s = .next t ∧ (t.cluster (2 * k)).frozen = true ∧ (t.cluster (2 * k + 1)).frozen = true) ∧
      (¬ on → exec .lockstepMismatch s = .next u))
end

