-- ==== Sys2Proof/Laws/Dispatch.lean ====
section
/-! SUPPORT. Each instruction runs its own meaning: one equation per arm of the dispatch. -/

namespace Sys2Proof.Machine

theorem exec_add {d} {a} {b} (s : State) : exec (.add d a b) s = execAdd d a b s := rfl
theorem exec_sub {d} {a} {b} (s : State) : exec (.sub d a b) s = execSub d a b s := rfl
theorem exec_min {d} {a} {b} (s : State) : exec (.min d a b) s = execMin d a b s := rfl
theorem exec_max {d} {a} {b} (s : State) : exec (.max d a b) s = execMax d a b s := rfl
theorem exec_minu {d} {a} {b} (s : State) : exec (.minu d a b) s = execMinu d a b s := rfl
theorem exec_maxu {d} {a} {b} (s : State) : exec (.maxu d a b) s = execMaxu d a b s := rfl
theorem exec_slt {d} {a} {b} (s : State) : exec (.slt d a b) s = execSlt d a b s := rfl
theorem exec_sltu {d} {a} {b} (s : State) : exec (.sltu d a b) s = execSltu d a b s := rfl
theorem exec_and {d} {a} {b} (s : State) : exec (.and d a b) s = execAnd d a b s := rfl
theorem exec_or {d} {a} {b} (s : State) : exec (.or d a b) s = execOr d a b s := rfl
theorem exec_xor {d} {a} {b} (s : State) : exec (.xor d a b) s = execXor d a b s := rfl
theorem exec_andn {d} {a} {b} (s : State) : exec (.andn d a b) s = execAndn d a b s := rfl
theorem exec_orn {d} {a} {b} (s : State) : exec (.orn d a b) s = execOrn d a b s := rfl
theorem exec_xnor {d} {a} {b} (s : State) : exec (.xnor d a b) s = execXnor d a b s := rfl
theorem exec_sll {d} {a} {b} (s : State) : exec (.sll d a b) s = execSll d a b s := rfl
theorem exec_srl {d} {a} {b} (s : State) : exec (.srl d a b) s = execSrl d a b s := rfl
theorem exec_sra {d} {a} {b} (s : State) : exec (.sra d a b) s = execSra d a b s := rfl
theorem exec_rol {d} {a} {b} (s : State) : exec (.rol d a b) s = execRol d a b s := rfl
theorem exec_ror {d} {a} {b} (s : State) : exec (.ror d a b) s = execRor d a b s := rfl
theorem exec_mul {d} {a} {b} (s : State) : exec (.mul d a b) s = execMul d a b s := rfl
theorem exec_mulh {d} {a} {b} (s : State) : exec (.mulh d a b) s = execMulh d a b s := rfl
theorem exec_mulhu {d} {a} {b} (s : State) : exec (.mulhu d a b) s = execMulhu d a b s := rfl
theorem exec_div {d} {a} {b} (s : State) : exec (.div d a b) s = execDiv d a b s := rfl
theorem exec_divu {d} {a} {b} (s : State) : exec (.divu d a b) s = execDivu d a b s := rfl
theorem exec_rem {d} {a} {b} (s : State) : exec (.rem d a b) s = execRem d a b s := rfl
theorem exec_remu {d} {a} {b} (s : State) : exec (.remu d a b) s = execRemu d a b s := rfl
theorem exec_clz {d} {a} (s : State) : exec (.clz d a) s = execClz d a s := rfl
theorem exec_ctz {d} {a} (s : State) : exec (.ctz d a) s = execCtz d a s := rfl
theorem exec_popc {d} {a} (s : State) : exec (.popc d a) s = execPopc d a s := rfl
theorem exec_brev {d} {a} (s : State) : exec (.brev d a) s = execBrev d a s := rfl
theorem exec_bext {d} {a} {b} (s : State) : exec (.bext d a b) s = execBext d a b s := rfl
theorem exec_bins {d} {a} {b} (s : State) : exec (.bins d a b) s = execBins d a b s := rfl
theorem exec_addi {d} {a} {imm} (s : State) : exec (.addi d a imm) s = execAddi d a imm s := rfl
theorem exec_andi {d} {a} {imm} (s : State) : exec (.andi d a imm) s = execAndi d a imm s := rfl
theorem exec_ori {d} {a} {imm} (s : State) : exec (.ori d a imm) s = execOri d a imm s := rfl
theorem exec_xori {d} {a} {imm} (s : State) : exec (.xori d a imm) s = execXori d a imm s := rfl
theorem exec_slli {d} {a} {imm} (s : State) : exec (.slli d a imm) s = execSlli d a imm s := rfl
theorem exec_srli {d} {a} {imm} (s : State) : exec (.srli d a imm) s = execSrli d a imm s := rfl
theorem exec_srai {d} {a} {imm} (s : State) : exec (.srai d a imm) s = execSrai d a imm s := rfl
theorem exec_slti {d} {a} {imm} (s : State) : exec (.slti d a imm) s = execSlti d a imm s := rfl
theorem exec_lih {d} {imm} (s : State) : exec (.lih d imm) s = execLih d imm s := rfl
theorem exec_lpc {d} {imm} (s : State) : exec (.lpc d imm) s = execLpc d imm s := rfl
theorem exec_beq {a} {b} {o} (s : State) : exec (.beq a b o) s = execBeq a b o s := rfl
theorem exec_bne {a} {b} {o} (s : State) : exec (.bne a b o) s = execBne a b o s := rfl
theorem exec_blt {a} {b} {o} (s : State) : exec (.blt a b o) s = execBlt a b o s := rfl
theorem exec_bge {a} {b} {o} (s : State) : exec (.bge a b o) s = execBge a b o s := rfl
theorem exec_bltu {a} {b} {o} (s : State) : exec (.bltu a b o) s = execBltu a b o s := rfl
theorem exec_bgeu {a} {b} {o} (s : State) : exec (.bgeu a b o) s = execBgeu a b o s := rfl
theorem exec_brdy {a} {o} (s : State) : exec (.brdy a o) s = execBrdy a o s := rfl
theorem exec_bnrdy {a} {o} (s : State) : exec (.bnrdy a o) s = execBnrdy a o s := rfl
theorem exec_jl {d} {imm} (s : State) : exec (.jl d imm) s = execJl d imm s := rfl
theorem exec_jlr {d} {a} {imm} (s : State) : exec (.jlr d a imm) s = execJlr d a imm s := rfl
theorem exec_ldB {d} {a} {imm} (s : State) : exec (.ldB d a imm) s = execLdB d a imm s := rfl
theorem exec_ldH {d} {a} {imm} (s : State) : exec (.ldH d a imm) s = execLdH d a imm s := rfl
theorem exec_ldW {d} {a} {imm} (s : State) : exec (.ldW d a imm) s = execLdW d a imm s := rfl
theorem exec_ldD {d} {a} {imm} (s : State) : exec (.ldD d a imm) s = execLdD d a imm s := rfl
theorem exec_lduB {d} {a} {imm} (s : State) : exec (.lduB d a imm) s = execLduB d a imm s := rfl
theorem exec_lduH {d} {a} {imm} (s : State) : exec (.lduH d a imm) s = execLduH d a imm s := rfl
theorem exec_lduW {d} {a} {imm} (s : State) : exec (.lduW d a imm) s = execLduW d a imm s := rfl
theorem exec_ldT {d} {a} {imm} (s : State) : exec (.ldT d a imm) s = execLdT d a imm s := rfl
theorem exec_stB {a} {b} {imm} (s : State) : exec (.stB a b imm) s = execStB a b imm s := rfl
theorem exec_stH {a} {b} {imm} (s : State) : exec (.stH a b imm) s = execStH a b imm s := rfl
theorem exec_stW {a} {b} {imm} (s : State) : exec (.stW a b imm) s = execStW a b imm s := rfl
theorem exec_stD {a} {b} {imm} (s : State) : exec (.stD a b imm) s = execStD a b imm s := rfl
theorem exec_stT {a} {b} {imm} (s : State) : exec (.stT a b imm) s = execStT a b imm s := rfl
theorem exec_ldAq {d} {a} (s : State) : exec (.ldAq d a) s = execLdAq d a s := rfl
theorem exec_stRl {a} {b} (s : State) : exec (.stRl a b) s = execStRl a b s := rfl
theorem exec_ldto {a} {b} (s : State) : exec (.ldto a b) s = execLdto a b s := rfl
theorem exec_ldtoW {a} {b} (s : State) : exec (.ldtoW a b) s = execLdtoW a b s := rfl
theorem exec_amoswapW {d} {a} {b} {q} {r} (s : State) : exec (.amoswapW d a b q r) s = execAmoswapW d a b q r s := rfl
theorem exec_amoswapD {d} {a} {b} {q} {r} (s : State) : exec (.amoswapD d a b q r) s = execAmoswapD d a b q r s := rfl
theorem exec_amoaddW {d} {a} {b} {q} {r} (s : State) : exec (.amoaddW d a b q r) s = execAmoaddW d a b q r s := rfl
theorem exec_amoaddD {d} {a} {b} {q} {r} (s : State) : exec (.amoaddD d a b q r) s = execAmoaddD d a b q r s := rfl
theorem exec_amoandW {d} {a} {b} {q} {r} (s : State) : exec (.amoandW d a b q r) s = execAmoandW d a b q r s := rfl
theorem exec_amoandD {d} {a} {b} {q} {r} (s : State) : exec (.amoandD d a b q r) s = execAmoandD d a b q r s := rfl
theorem exec_amoorW {d} {a} {b} {q} {r} (s : State) : exec (.amoorW d a b q r) s = execAmoorW d a b q r s := rfl
theorem exec_amoorD {d} {a} {b} {q} {r} (s : State) : exec (.amoorD d a b q r) s = execAmoorD d a b q r s := rfl
theorem exec_amoxorW {d} {a} {b} {q} {r} (s : State) : exec (.amoxorW d a b q r) s = execAmoxorW d a b q r s := rfl
theorem exec_amoxorD {d} {a} {b} {q} {r} (s : State) : exec (.amoxorD d a b q r) s = execAmoxorD d a b q r s := rfl
theorem exec_amominW {d} {a} {b} {q} {r} (s : State) : exec (.amominW d a b q r) s = execAmominW d a b q r s := rfl
theorem exec_amominD {d} {a} {b} {q} {r} (s : State) : exec (.amominD d a b q r) s = execAmominD d a b q r s := rfl
theorem exec_amomaxW {d} {a} {b} {q} {r} (s : State) : exec (.amomaxW d a b q r) s = execAmomaxW d a b q r s := rfl
theorem exec_amomaxD {d} {a} {b} {q} {r} (s : State) : exec (.amomaxD d a b q r) s = execAmomaxD d a b q r s := rfl
theorem exec_amominuW {d} {a} {b} {q} {r} (s : State) : exec (.amominuW d a b q r) s = execAmominuW d a b q r s := rfl
theorem exec_amominuD {d} {a} {b} {q} {r} (s : State) : exec (.amominuD d a b q r) s = execAmominuD d a b q r s := rfl
theorem exec_amomaxuW {d} {a} {b} {q} {r} (s : State) : exec (.amomaxuW d a b q r) s = execAmomaxuW d a b q r s := rfl
theorem exec_amomaxuD {d} {a} {b} {q} {r} (s : State) : exec (.amomaxuD d a b q r) s = execAmomaxuD d a b q r s := rfl
theorem exec_amocasW {d} {a} {b} {q} {r} (s : State) : exec (.amocasW d a b q r) s = execAmocasW d a b q r s := rfl
theorem exec_amocasD {d} {a} {b} {q} {r} (s : State) : exec (.amocasD d a b q r) s = execAmocasD d a b q r s := rfl
theorem exec_amofaddW {d} {a} {b} {q} {r} (s : State) : exec (.amofaddW d a b q r) s = execAmofaddW d a b q r s := rfl
theorem exec_barexp {a} {n} (s : State) : exec (.barexp a n) s = execBarexp a n s := rfl
theorem exec_bararr {a} {n} (s : State) : exec (.bararr a n) s = execBararr a n s := rfl
theorem exec_barwait {d} {a} {n} (s : State) : exec (.barwait d a n) s = execBarwait d a n s := rfl
theorem exec_rput {a} {b} {r} (s : State) : exec (.rput a b r) s = execRput a b r s := rfl
theorem exec_rputS {d} {a} {b} {r} (s : State) : exec (.rputS d a b r) s = execRputS d a b r s := rfl
theorem exec_rputv {a} {b} {r} (s : State) : exec (.rputv a b r) s = execRputv a b r s := rfl
theorem exec_rputvS {d} {a} {b} {r} (s : State) : exec (.rputvS d a b r) s = execRputvS d a b r s := rfl
theorem exec_arm {d} (s : State) : exec (.arm d) s = execArm d s := rfl
theorem exec_armv {d} (s : State) : exec (.armv d) s = execArmv d s := rfl
theorem exec_msend {a} {b} {c} (s : State) : exec (.msend a b c) s = execMsend a b c s := rfl
theorem exec_msendS {d} {a} {b} {c} (s : State) : exec (.msendS d a b c) s = execMsendS d a b c s := rfl
theorem exec_callat {d} {a} {b} (s : State) : exec (.callat d a b) s = execCallat d a b s := rfl
theorem exec_hmask {a} (s : State) : exec (.hmask a) s = execHmask a s := rfl
theorem exec_hunmask {a} (s : State) : exec (.hunmask a) s = execHunmask a s := rfl
theorem exec_qpop {h} {x} {imm} (s : State) : exec (.qpop h x imm) s = execQpop h x imm s := rfl
theorem exec_qadv {h} {x} {imm} (s : State) : exec (.qadv h x imm) s = execQadv h x imm s := rfl
theorem exec_qcnt {d} {h} {x} (s : State) : exec (.qcnt d h x) s = execQcnt d h x s := rfl
theorem exec_qcfg {h} {a} {x} (s : State) : exec (.qcfg h a x) s = execQcfg h a x s := rfl
theorem exec_qwait {h} {x} {imm} (s : State) : exec (.qwait h x imm) s = execQwait h x imm s := rfl
theorem exec_csrr {d} {x} {c} (s : State) : exec (.csrr d x c) s = execCsrr d x c s := rfl
theorem exec_csrw {d} {a} {c} (s : State) : exec (.csrw d a c) s = execCsrw d a c s := rfl
theorem exec_csrs {d} {a} {c} (s : State) : exec (.csrs d a c) s = execCsrs d a c s := rfl
theorem exec_csrc {d} {a} {c} (s : State) : exec (.csrc d a c) s = execCsrc d a c s := rfl
theorem exec_tlbinvAll {x} {y} (s : State) : exec (.tlbinvAll x y) s = execTlbinvAll x y s := rfl
theorem exec_tlbinvAsid {a} {y} (s : State) : exec (.tlbinvAsid a y) s = execTlbinvAsid a y s := rfl
theorem exec_tlbinvVa {a} {y} (s : State) : exec (.tlbinvVa a y) s = execTlbinvVa a y s := rfl
theorem exec_tlbinvStage2 {a} {y} (s : State) : exec (.tlbinvStage2 a y) s = execTlbinvStage2 a y s := rfl
theorem exec_park {a} (s : State) : exec (.park a) s = execPark a s := rfl
theorem exec_resume {a} (s : State) : exec (.resume a) s = execResume a s := rfl
theorem exec_migrate {d} {a} (s : State) : exec (.migrate d a) s = execMigrate d a s := rfl
theorem exec_spawn {d} {a} {x} (s : State) : exec (.spawn d a x) s = execSpawn d a x s := rfl
theorem exec_armlr {a} {b} (s : State) : exec (.armlr a b) s = execArmlr a b s := rfl
theorem exec_lchk {d} {a} {b} (s : State) : exec (.lchk d a b) s = execLchk d a b s := rfl
theorem exec_rwb {a} {b} (s : State) : exec (.rwb a b) s = execRwb a b s := rfl
theorem exec_rinv {a} {b} (s : State) : exec (.rinv a b) s = execRinv a b s := rfl
theorem exec_disc {a} {b} (s : State) : exec (.disc a b) s = execDisc a b s := rfl
theorem exec_pin {a} {b} (s : State) : exec (.pin a b) s = execPin a b s := rfl
theorem exec_unpin {a} {b} (s : State) : exec (.unpin a b) s = execUnpin a b s := rfl
theorem exec_pref {a} {b} (s : State) : exec (.pref a b) s = execPref a b s := rfl
theorem exec_vadd {d} {a} {b} {t} {m} {q} (s : State) : exec (.vadd d a b t m q) s = execVadd d a b t m q s := rfl
theorem exec_vsub {d} {a} {b} {t} {m} {q} (s : State) : exec (.vsub d a b t m q) s = execVsub d a b t m q s := rfl
theorem exec_vmul {d} {a} {b} {t} {m} {q} (s : State) : exec (.vmul d a b t m q) s = execVmul d a b t m q s := rfl
theorem exec_vmulh {d} {a} {b} {t} {m} {q} (s : State) : exec (.vmulh d a b t m q) s = execVmulh d a b t m q s := rfl
theorem exec_vmin {d} {a} {b} {t} {m} {q} (s : State) : exec (.vmin d a b t m q) s = execVmin d a b t m q s := rfl
theorem exec_vmax {d} {a} {b} {t} {m} {q} (s : State) : exec (.vmax d a b t m q) s = execVmax d a b t m q s := rfl
theorem exec_vand {d} {a} {b} {t} {m} {q} (s : State) : exec (.vand d a b t m q) s = execVand d a b t m q s := rfl
theorem exec_vor {d} {a} {b} {t} {m} {q} (s : State) : exec (.vor d a b t m q) s = execVor d a b t m q s := rfl
theorem exec_vxor {d} {a} {b} {t} {m} {q} (s : State) : exec (.vxor d a b t m q) s = execVxor d a b t m q s := rfl
theorem exec_vshl {d} {a} {b} {t} {m} {q} (s : State) : exec (.vshl d a b t m q) s = execVshl d a b t m q s := rfl
theorem exec_vshr {d} {a} {b} {t} {m} {q} (s : State) : exec (.vshr d a b t m q) s = execVshr d a b t m q s := rfl
theorem exec_vsra {d} {a} {b} {t} {m} {q} (s : State) : exec (.vsra d a b t m q) s = execVsra d a b t m q s := rfl
theorem exec_vabs {d} {a} {t} {m} (s : State) : exec (.vabs d a t m) s = execVabs d a t m s := rfl
theorem exec_vneg {d} {a} {t} {m} (s : State) : exec (.vneg d a t m) s = execVneg d a t m s := rfl
theorem exec_vadds {d} {a} {b} {t} {m} {q} (s : State) : exec (.vadds d a b t m q) s = execVadds d a b t m q s := rfl
theorem exec_vsubs {d} {a} {b} {t} {m} {q} (s : State) : exec (.vsubs d a b t m q) s = execVsubs d a b t m q s := rfl
theorem exec_vmad {d} {a} {b} {t} {m} {q} (s : State) : exec (.vmad d a b t m q) s = execVmad d a b t m q s := rfl
theorem exec_vfadd {d} {a} {b} {t} {m} {q} (s : State) : exec (.vfadd d a b t m q) s = execVfadd d a b t m q s := rfl
theorem exec_vfsub {d} {a} {b} {t} {m} {q} (s : State) : exec (.vfsub d a b t m q) s = execVfsub d a b t m q s := rfl
theorem exec_vfmul {d} {a} {b} {t} {m} {q} (s : State) : exec (.vfmul d a b t m q) s = execVfmul d a b t m q s := rfl
theorem exec_vfma {d} {a} {b} {t} {m} {q} (s : State) : exec (.vfma d a b t m q) s = execVfma d a b t m q s := rfl
theorem exec_vfmin {d} {a} {b} {t} {m} {q} (s : State) : exec (.vfmin d a b t m q) s = execVfmin d a b t m q s := rfl
theorem exec_vfmax {d} {a} {b} {t} {m} {q} (s : State) : exec (.vfmax d a b t m q) s = execVfmax d a b t m q s := rfl
theorem exec_vfabs {d} {a} {t} {m} (s : State) : exec (.vfabs d a t m) s = execVfabs d a t m s := rfl
theorem exec_vfneg {d} {a} {t} {m} (s : State) : exec (.vfneg d a t m) s = execVfneg d a t m s := rfl
theorem exec_vexp2 {d} {a} {t} {m} (s : State) : exec (.vexp2 d a t m) s = execVexp2 d a t m s := rfl
theorem exec_vlog2 {d} {a} {t} {m} (s : State) : exec (.vlog2 d a t m) s = execVlog2 d a t m s := rfl
theorem exec_vrcp {d} {a} {t} {m} (s : State) : exec (.vrcp d a t m) s = execVrcp d a t m s := rfl
theorem exec_vrsq {d} {a} {t} {m} (s : State) : exec (.vrsq d a t m) s = execVrsq d a t m s := rfl
theorem exec_vld {d} {a} {t} {m} (s : State) : exec (.vld d a t m) s = execVld d a t m s := rfl
theorem exec_vst {d} {a} {t} {m} (s : State) : exec (.vst d a t m) s = execVst d a t m s := rfl
theorem exec_vlds {d} {a} {b} {t} {m} (s : State) : exec (.vlds d a b t m) s = execVlds d a b t m s := rfl
theorem exec_vsts {d} {a} {b} {t} {m} (s : State) : exec (.vsts d a b t m) s = execVsts d a b t m s := rfl
theorem exec_vgath {d} {a} {b} {t} {m} (s : State) : exec (.vgath d a b t m) s = execVgath d a b t m s := rfl
theorem exec_vscat {d} {a} {b} {t} {m} (s : State) : exec (.vscat d a b t m) s = execVscat d a b t m s := rfl
theorem exec_vldT {d} {a} {t} {m} (s : State) : exec (.vldT d a t m) s = execVldT d a t m s := rfl
theorem exec_vstT {d} {a} {t} {m} (s : State) : exec (.vstT d a t m) s = execVstT d a t m s := rfl
theorem exec_vbcast {d} {a} {t} {m} (s : State) : exec (.vbcast d a t m) s = execVbcast d a t m s := rfl
theorem exec_vgetl {d} {a} {b} {t} (s : State) : exec (.vgetl d a b t) s = execVgetl d a b t s := rfl
theorem exec_vsetl {d} {a} {b} {t} (s : State) : exec (.vsetl d a b t) s = execVsetl d a b t s := rfl
theorem exec_vperm {d} {a} {b} {t} {m} (s : State) : exec (.vperm d a b t m) s = execVperm d a b t m s := rfl
theorem exec_vslide {d} {a} {b} {t} {m} (s : State) : exec (.vslide d a b t m) s = execVslide d a b t m s := rfl
theorem exec_vmovm {d} {a} (s : State) : exec (.vmovm d a) s = execVmovm d a s := rfl
theorem exec_vsett {a} (s : State) : exec (.vsett a) s = execVsett a s := rfl
theorem exec_vrsum {d} {a} {t} {m} (s : State) : exec (.vrsum d a t m) s = execVrsum d a t m s := rfl
theorem exec_vrmax {d} {a} {t} {m} (s : State) : exec (.vrmax d a t m) s = execVrmax d a t m s := rfl
theorem exec_vrmin {d} {a} {t} {m} (s : State) : exec (.vrmin d a t m) s = execVrmin d a t m s := rfl
theorem exec_vpsum {d} {a} {t} {m} (s : State) : exec (.vpsum d a t m) s = execVpsum d a t m s := rfl
theorem exec_vcvtBf16F32 {d} {a} {m} (s : State) : exec (.vcvtBf16F32 d a m) s = execVcvtBf16F32 d a m s := rfl
theorem exec_vcvtF32Bf16 {d} {a} {m} (s : State) : exec (.vcvtF32Bf16 d a m) s = execVcvtF32Bf16 d a m s := rfl
theorem exec_vcvtF32S32 {d} {a} {m} (s : State) : exec (.vcvtF32S32 d a m) s = execVcvtF32S32 d a m s := rfl
theorem exec_vcvtS32F32 {d} {a} {m} (s : State) : exec (.vcvtS32F32 d a m) s = execVcvtS32F32 d a m s := rfl
theorem exec_vcvtS32S8 {d} {a} {g} {m} (s : State) : exec (.vcvtS32S8 d a g m) s = execVcvtS32S8 d a g m s := rfl
theorem exec_vcvtS8S32 {d} {a} {g} {m} (s : State) : exec (.vcvtS8S32 d a g m) s = execVcvtS8S32 d a g m s := rfl
theorem exec_vlgx {d} {a} {m} (s : State) : exec (.vlgx d a m) s = execVlgx d a m s := rfl
theorem exec_vlgq {d} {a} {b} {m} (s : State) : exec (.vlgq d a b m) s = execVlgq d a b m s := rfl
theorem exec_vceq {d} {a} {b} {t} {m} {q} (s : State) : exec (.vceq d a b t m q) s = execVceq d a b t m q s := rfl
theorem exec_vclt {d} {a} {b} {t} {m} {q} (s : State) : exec (.vclt d a b t m q) s = execVclt d a b t m q s := rfl
theorem exec_vcle {d} {a} {b} {t} {m} {q} (s : State) : exec (.vcle d a b t m q) s = execVcle d a b t m q s := rfl
theorem exec_vsel {d} {a} {b} {t} {q} (s : State) : exec (.vsel d a b t q) s = execVsel d a b t q s := rfl
theorem exec_mand {d} {a} {b} (s : State) : exec (.mand d a b) s = execMand d a b s := rfl
theorem exec_mor {d} {a} {b} (s : State) : exec (.mor d a b) s = execMor d a b s := rfl
theorem exec_mnot {d} {a} (s : State) : exec (.mnot d a) s = execMnot d a s := rfl
theorem exec_mpopc {d} {a} (s : State) : exec (.mpopc d a) s = execMpopc d a s := rfl
theorem exec_blkunp {d} {a} (s : State) : exec (.blkunp d a) s = execBlkunp d a s := rfl
theorem exec_blkpk {d} {a} {t} (s : State) : exec (.blkpk d a t) s = execBlkpk d a t s := rfl
theorem exec_blkaddq {a} {b} (s : State) : exec (.blkaddq a b) s = execBlkaddq a b s := rfl
theorem exec_blkhdr {d} {a} (s : State) : exec (.blkhdr d a) s = execBlkhdr d a s := rfl
theorem exec_blkscl {a} {b} (s : State) : exec (.blkscl a b) s = execBlkscl a b s := rfl
theorem exec_vmov16 {d} {b} {m} (s : State) : exec (.vmov16 d b m) s = execVmov16 d b m s := rfl
theorem exec_vadd16 {d} {b} {m} (s : State) : exec (.vadd16 d b m) s = execVadd16 d b m s := rfl
theorem exec_vsub16 {d} {b} {m} (s : State) : exec (.vsub16 d b m) s = execVsub16 d b m s := rfl
theorem exec_vmul16 {d} {b} {m} (s : State) : exec (.vmul16 d b m) s = execVmul16 d b m s := rfl
theorem exec_vmad16 {d} {b} {m} (s : State) : exec (.vmad16 d b m) s = execVmad16 d b m s := rfl
theorem exec_vmin16 {d} {b} {m} (s : State) : exec (.vmin16 d b m) s = execVmin16 d b m s := rfl
theorem exec_vmax16 {d} {b} {m} (s : State) : exec (.vmax16 d b m) s = execVmax16 d b m s := rfl
theorem exec_vand16 {d} {b} {m} (s : State) : exec (.vand16 d b m) s = execVand16 d b m s := rfl
theorem exec_vor16 {d} {b} {m} (s : State) : exec (.vor16 d b m) s = execVor16 d b m s := rfl
theorem exec_vxor16 {d} {b} {m} (s : State) : exec (.vxor16 d b m) s = execVxor16 d b m s := rfl
theorem exec_vneg16 {d} {b} {m} (s : State) : exec (.vneg16 d b m) s = execVneg16 d b m s := rfl
theorem exec_vabs16 {d} {b} {m} (s : State) : exec (.vabs16 d b m) s = execVabs16 d b m s := rfl
theorem exec_vshl16 {d} {b} {m} (s : State) : exec (.vshl16 d b m) s = execVshl16 d b m s := rfl
theorem exec_vsra16 {d} {b} {m} (s : State) : exec (.vsra16 d b m) s = execVsra16 d b m s := rfl
theorem exec_vsel16 {d} {b} (s : State) : exec (.vsel16 d b) s = execVsel16 d b s := rfl
theorem exec_vsqr {d} {b} {m} (s : State) : exec (.vsqr d b m) s = execVsqr d b m s := rfl
theorem exec_mzero {c} (s : State) : exec (.mzero c) s = execMzero c s := rfl
theorem exec_mmul {d} {a} {b} (s : State) : exec (.mmul d a b) s = execMmul d a b s := rfl
theorem exec_mstw {d} {a} (s : State) : exec (.mstw d a) s = execMstw d a s := rfl
theorem exec_mldw {d} {a} (s : State) : exec (.mldw d a) s = execMldw d a s := rfl
theorem exec_mqry {d} (s : State) : exec (.mqry d) s = execMqry d s := rfl
theorem exec_cpy {d} {a} {q} (s : State) : exec (.cpy d a q) s = execCpy d a q s := rfl
theorem exec_cpyrAddS32 {d} {a} {q} (s : State) : exec (.cpyrAddS32 d a q) s = execCpyrAddS32 d a q s := rfl
theorem exec_cpyrAddF32 {d} {a} {q} (s : State) : exec (.cpyrAddF32 d a q) s = execCpyrAddF32 d a q s := rfl
theorem exec_cpyrAddBf16 {d} {a} {q} (s : State) : exec (.cpyrAddBf16 d a q) s = execCpyrAddBf16 d a q s := rfl
theorem exec_cpyrMinS32 {d} {a} {q} (s : State) : exec (.cpyrMinS32 d a q) s = execCpyrMinS32 d a q s := rfl
theorem exec_cpyrMaxS32 {d} {a} {q} (s : State) : exec (.cpyrMaxS32 d a q) s = execCpyrMaxS32 d a q s := rfl
theorem exec_cpyrMinF32 {d} {a} {q} (s : State) : exec (.cpyrMinF32 d a q) s = execCpyrMinF32 d a q s := rfl
theorem exec_cpyrMaxF32 {d} {a} {q} (s : State) : exec (.cpyrMaxF32 d a q) s = execCpyrMaxF32 d a q s := rfl
theorem exec_cpyrAnd {d} {a} {q} (s : State) : exec (.cpyrAnd d a q) s = execCpyrAnd d a q s := rfl
theorem exec_cpyrOr {d} {a} {q} (s : State) : exec (.cpyrOr d a q) s = execCpyrOr d a q s := rfl
theorem exec_cpyg {d} {a} {q} (s : State) : exec (.cpyg d a q) s = execCpyg d a q s := rfl
theorem exec_cpyh {d} {a} {q} (s : State) : exec (.cpyh d a q) s = execCpyh d a q s := rfl
theorem exec_cpyx {d} {a} {q} (s : State) : exec (.cpyx d a q) s = execCpyx d a q s := rfl
theorem exec_cpyq {d} {q} (s : State) : exec (.cpyq d q) s = execCpyq d q s := rfl
theorem exec_ptask {d} {a} (s : State) : exec (.ptask d a) s = execPtask d a s := rfl
theorem exec_ptinv {a} {b} (s : State) : exec (.ptinv a b) s = execPtinv a b s := rfl
theorem exec_ptstat {d} {a} (s : State) : exec (.ptstat d a) s = execPtstat d a s := rfl
theorem exec_nput {d} {a} (s : State) : exec (.nput d a) s = execNput d a s := rfl
theorem exec_nget {d} {a} (s : State) : exec (.nget d a) s = execNget d a s := rfl
theorem exec_nsend {d} {a} (s : State) : exec (.nsend d a) s = execNsend d a s := rfl
theorem exec_nrecv {d} {a} (s : State) : exec (.nrecv d a) s = execNrecv d a s := rfl
theorem exec_nchain {d} {a} {b} (s : State) : exec (.nchain d a b) s = execNchain d a b s := rfl
theorem exec_ncnt {d} {a} (s : State) : exec (.ncnt d a) s = execNcnt d a s := rfl
theorem exec_bqpop {d} {a} (s : State) : exec (.bqpop d a) s = execBqpop d a s := rfl
theorem exec_bqdone {a} {b} (s : State) : exec (.bqdone a b) s = execBqdone a b s := rfl
theorem exec_fence (s : State) : exec .fence s = execFence s := rfl
theorem exec_fenceE (s : State) : exec .fenceE s = execFenceE s := rfl
theorem exec_iflush (s : State) : exec .iflush s = execIflush s := rfl
theorem exec_hend (s : State) : exec .hend s = execHend s := rfl
theorem exec_syscall (s : State) : exec .syscall s = execSyscall s := rfl
theorem exec_brk (s : State) : exec .brk s = execBrk s := rfl
theorem exec_tret (s : State) : exec .tret s = execTret s := rfl
theorem exec_idle (s : State) : exec .idle s = execIdle s := rfl
theorem exec_yield (s : State) : exec .yield s = execYield s := rfl
theorem exec_exit (s : State) : exec .exit s = execExit s := rfl
theorem exec_takePendingTrap (s : State) : exec .takePendingTrap s = execTakePendingTrap s := rfl
theorem exec_registerWrite (s : State) : exec .registerWrite s = execRegisterWrite s := rfl
theorem exec_hroleWrite (s : State) : exec .hroleWrite s = execHroleWrite s := rfl
theorem exec_putArrival (s : State) : exec .putArrival s = execPutArrival s := rfl
theorem exec_ackArrival (s : State) : exec .ackArrival s = execAckArrival s := rfl
theorem exec_departureExpiry (s : State) : exec .departureExpiry s = execDepartureExpiry s := rfl
theorem exec_loadReturn (s : State) : exec .loadReturn s = execLoadReturn s := rfl
theorem exec_remoteStashWrite (s : State) : exec .remoteStashWrite s = execRemoteStashWrite s := rfl
theorem exec_sideLogReplay (s : State) : exec .sideLogReplay s = execSideLogReplay s := rfl
theorem exec_directStart (s : State) : exec .directStart s = execDirectStart s := rfl
theorem exec_submission (s : State) : exec .submission s = execSubmission s := rfl
theorem exec_launchRecordProcess (s : State) : exec .launchRecordProcess s = execLaunchRecordProcess s := rfl
theorem exec_threadStart (s : State) : exec .threadStart s = execThreadStart s := rfl
theorem exec_signatureGeneration (s : State) : exec .signatureGeneration s = execSignatureGeneration s := rfl
theorem exec_stmapWrite (s : State) : exec .stmapWrite s = execStmapWrite s := rfl
theorem exec_barrierUpdate (s : State) : exec .barrierUpdate s = execBarrierUpdate s := rfl
theorem exec_handlerTableWrite (s : State) : exec .handlerTableWrite s = execHandlerTableWrite s := rfl
theorem exec_softwareQueueWrite (s : State) : exec .softwareQueueWrite s = execSoftwareQueueWrite s := rfl
theorem exec_messageArrival (s : State) : exec .messageArrival s = execMessageArrival s := rfl
theorem exec_messageReoffer (s : State) : exec .messageReoffer s = execMessageReoffer s := rfl
theorem exec_messageOutcome (s : State) : exec .messageOutcome s = execMessageOutcome s := rfl
theorem exec_returnBufferDrain (s : State) : exec .returnBufferDrain s = execReturnBufferDrain s := rfl
theorem exec_activationDispatch (s : State) : exec .activationDispatch s = execActivationDispatch s := rfl
theorem exec_watchdogExpiry (s : State) : exec .watchdogExpiry s = execWatchdogExpiry s := rfl
theorem exec_watchdogKill (s : State) : exec .watchdogKill s = execWatchdogKill s := rfl
theorem exec_ringRecordWrite (s : State) : exec .ringRecordWrite s = execRingRecordWrite s := rfl
theorem exec_faultresRetry (s : State) : exec .faultresRetry s = execFaultresRetry s := rfl
theorem exec_faultresTerminal (s : State) : exec .faultresTerminal s = execFaultresTerminal s := rfl
theorem exec_frzThawHart (s : State) : exec .frzThawHart s = execFrzThawHart s := rfl
theorem exec_frzThawCq (s : State) : exec .frzThawCq s = execFrzThawCq s := rfl
theorem exec_frzkillHart (s : State) : exec .frzkillHart s = execFrzkillHart s := rfl
theorem exec_frzkillCq (s : State) : exec .frzkillCq s = execFrzkillCq s := rfl
theorem exec_connectionWrite (s : State) : exec .connectionWrite s = execConnectionWrite s := rfl
theorem exec_fabricPacketReceive (s : State) : exec .fabricPacketReceive s = execFabricPacketReceive s := rfl
theorem exec_packetRetransmit (s : State) : exec .packetRetransmit s = execPacketRetransmit s := rfl
theorem exec_routeRemoval (s : State) : exec .routeRemoval s = execRouteRemoval s := rfl
theorem exec_peerLost (s : State) : exec .peerLost s = execPeerLost s := rfl
theorem exec_fabricCommandComplete (s : State) : exec .fabricCommandComplete s = execFabricCommandComplete s := rfl
theorem exec_linkReplay (s : State) : exec .linkReplay s = execLinkReplay s := rfl
theorem exec_laneSpare (s : State) : exec .laneSpare s = execLaneSpare s := rfl
theorem exec_linkPeerSignal (s : State) : exec .linkPeerSignal s = execLinkPeerSignal s := rfl
theorem exec_linkTrained (s : State) : exec .linkTrained s = execLinkTrained s := rfl
theorem exec_linkPeerSilent (s : State) : exec .linkPeerSilent s = execLinkPeerSilent s := rfl
theorem exec_linkQuiesced (s : State) : exec .linkQuiesced s = execLinkQuiesced s := rfl
theorem exec_lnkcmdQuiesce (s : State) : exec .lnkcmdQuiesce s = execLnkcmdQuiesce s := rfl
theorem exec_lnkcmdDetach (s : State) : exec .lnkcmdDetach s = execLnkcmdDetach s := rfl
theorem exec_lnkcmdResume (s : State) : exec .lnkcmdResume s = execLnkcmdResume s := rfl
theorem exec_lnkcmdReattach (s : State) : exec .lnkcmdReattach s = execLnkcmdReattach s := rfl
theorem exec_yarrowSendArrival (s : State) : exec .yarrowSendArrival s = execYarrowSendArrival s := rfl
theorem exec_rendezvousPull (s : State) : exec .rendezvousPull s = execRendezvousPull s := rfl
theorem exec_nsendRetry (s : State) : exec .nsendRetry s = execNsendRetry s := rfl
theorem exec_assignQueueWrite (s : State) : exec .assignQueueWrite s = execAssignQueueWrite s := rfl
theorem exec_engineCommandStart (s : State) : exec .engineCommandStart s = execEngineCommandStart s := rfl
theorem exec_leaveGrant (s : State) : exec .leaveGrant s = execLeaveGrant s := rfl
theorem exec_cloverRefill (s : State) : exec .cloverRefill s = execCloverRefill s := rfl
theorem exec_matrixStepComplete (s : State) : exec .matrixStepComplete s = execMatrixStepComplete s := rfl
theorem exec_arrayGate (s : State) : exec .arrayGate s = execArrayGate s := rfl
theorem exec_arrayWakeDone (s : State) : exec .arrayWakeDone s = execArrayWakeDone s := rfl
theorem exec_mxwtWrite (s : State) : exec .mxwtWrite s = execMxwtWrite s := rfl
theorem exec_mxidleWrite (s : State) : exec .mxidleWrite s = execMxidleWrite s := rfl
theorem exec_copyPieceDone (s : State) : exec .copyPieceDone s = execCopyPieceDone s := rfl
theorem exec_landingHandlerStart (s : State) : exec .landingHandlerStart s = execLandingHandlerStart s := rfl
theorem exec_chicoryInvalidation (s : State) : exec .chicoryInvalidation s = execChicoryInvalidation s := rfl
theorem exec_classMapWrite (s : State) : exec .classMapWrite s = execClassMapWrite s := rfl
theorem exec_ebudgetWindow (s : State) : exec .ebudgetWindow s = execEbudgetWindow s := rfl
theorem exec_lockstepMismatch (s : State) : exec .lockstepMismatch s = execLockstepMismatch s := rfl
theorem exec_sliceEnd (s : State) : exec .sliceEnd s = execSliceEnd s := rfl
theorem exec_sliceEndDone (s : State) : exec .sliceEndDone s = execSliceEndDone s := rfl
theorem exec_restore (s : State) : exec .restore s = execRestore s := rfl
theorem exec_restoreDone (s : State) : exec .restoreDone s = execRestoreDone s := rfl
theorem exec_teardown (s : State) : exec .teardown s = execTeardown s := rfl
theorem exec_partitionWrite (s : State) : exec .partitionWrite s = execPartitionWrite s := rfl
theorem exec_tbuTick (s : State) : exec .tbuTick s = execTbuTick s := rfl
theorem exec_launchBudgetExpiry (s : State) : exec .launchBudgetExpiry s = execLaunchBudgetExpiry s := rfl
theorem exec_ringEnable (s : State) : exec .ringEnable s = execRingEnable s := rfl
theorem exec_ringRdWrite (s : State) : exec .ringRdWrite s = execRingRdWrite s := rfl
theorem exec_vfThaw (s : State) : exec .vfThaw s = execVfThaw s := rfl
theorem exec_vfKill (s : State) : exec .vfKill s = execVfKill s := rfl
theorem exec_feataccWrite (s : State) : exec .feataccWrite s = execFeataccWrite s := rfl
theorem exec_boot (s : State) : exec .boot s = execBoot s := rfl
theorem exec_nodeidWrite (s : State) : exec .nodeidWrite s = execNodeidWrite s := rfl
theorem exec_attnonceWrite (s : State) : exec .attnonceWrite s = execAttnonceWrite s := rfl
theorem exec_attestationReportDone (s : State) : exec .attestationReportDone s = execAttestationReportDone s := rfl
theorem exec_emthrotAssert (s : State) : exec .emthrotAssert s = execEmthrotAssert s := rfl
theorem exec_emthrotRelease (s : State) : exec .emthrotRelease s = execEmthrotRelease s := rfl
theorem exec_traypresNHigh (s : State) : exec .traypresNHigh s = execTraypresNHigh s := rfl
theorem exec_i3cPrivateWrite (s : State) : exec .i3cPrivateWrite s = execI3cPrivateWrite s := rfl
theorem exec_i3cPrivateRead (s : State) : exec .i3cPrivateRead s = execI3cPrivateRead s := rfl
theorem exec_i3cBroadcastCap (s : State) : exec .i3cBroadcastCap s = execI3cBroadcastCap s := rfl
theorem exec_illegalEncoding (s : State) : exec .illegalEncoding s = execIllegalEncoding s := rfl
theorem exec_instructionFetchFault (s : State) : exec .instructionFetchFault s = execInstructionFetchFault s := rfl
theorem exec_storePerformed (s : State) : exec .storePerformed s = execStorePerformed s := rfl
theorem exec_chicoryLookup (s : State) : exec .chicoryLookup s = execChicoryLookup s := rfl

end Sys2Proof.Machine
end

