-- ==== Sys2Proof/Laws/State.lean ====
section
/-! SUPPORT. What each update of the state and of a hart leaves as it was: one lemma per field per update, and reading back what
was set. -/

namespace Sys2Proof.Machine

/-! ### Tables -/

@[simp] theorem Table.find?_nil {α : Type} (j : Nat) : Table.find? ([] : Table α) j = none := rfl

theorem Table.find?_set_self {α : Type} (t : Table α) (j : Nat) (w : α) : Table.find? (Table.set t j w) j = some w := by
  induction t with
  | nil => simp [Table.set, Table.find?]
  | cons e t ih =>
    obtain ⟨k, v⟩ := e
    simp only [Table.set]
    split
    · simp [Table.find?]
    · split <;> simp [Table.find?, *]

theorem Table.find?_set_ne {α : Type} (t : Table α) {i j : Nat} (w : α) (h : i ≠ j) :
    Table.find? (Table.set t j w) i = Table.find? t i := by
  induction t with
  | nil => simp [Table.set, Table.find?, h]
  | cons e t ih =>
    obtain ⟨k, v⟩ := e
    simp only [Table.set]
    split
    · subst k; simp [Table.find?, h]
    · split <;> simp [Table.find?, h, ih]

@[simp] theorem Table.get_set_self {α : Type} (d : α) (t : Table α) (j : Nat) (w : α) : Table.get d (Table.set t j w) j = w := by
  simp [Table.get, Table.find?_set_self]

theorem Table.get_set_ne {α : Type} (d : α) (t : Table α) {i j : Nat} (w : α) (h : i ≠ j) :
    Table.get d (Table.set t j w) i = Table.get d t i := by
  simp [Table.get, Table.find?_set_ne t w h]

/-! ### The state -/

@[simp] theorem State.setHart_cores (s : State) (h : Nat) (a : Hart) : (s.setHart h a).cores = s.cores := rfl
@[simp] theorem State.setHart_clusters (s : State) (h : Nat) (a : Hart) : (s.setHart h a).clusters = s.clusters := rfl
@[simp] theorem State.setHart_ms (s : State) (h : Nat) (a : Hart) : (s.setHart h a).ms = s.ms := rfl
@[simp] theorem State.setHart_flt (s : State) (h : Nat) (a : Hart) : (s.setHart h a).flt = s.flt := rfl
@[simp] theorem State.setHart_lch (s : State) (h : Nat) (a : Hart) : (s.setHart h a).lch = s.lch := rfl
@[simp] theorem State.setHart_fab (s : State) (h : Nat) (a : Hart) : (s.setHart h a).fab = s.fab := rfl
@[simp] theorem State.setHart_reuse (s : State) (h : Nat) (a : Hart) : (s.setHart h a).reuse = s.reuse := rfl
@[simp] theorem State.setHart_plat (s : State) (h : Nat) (a : Hart) : (s.setHart h a).plat = s.plat := rfl
@[simp] theorem State.setHart_time (s : State) (h : Nat) (a : Hart) : (s.setHart h a).time = s.time := rfl
@[simp] theorem State.setHart_cycle (s : State) (h : Nat) (a : Hart) : (s.setHart h a).cycle = s.cycle := rfl
@[simp] theorem State.setHart_routeTabs (s : State) (h : Nat) (a : Hart) : (s.setHart h a).routeTabs = s.routeTabs := rfl
@[simp] theorem State.setHart_cur (s : State) (h : Nat) (a : Hart) : (s.setHart h a).cur = s.cur := rfl
@[simp] theorem State.setHart_flight (s : State) (h : Nat) (a : Hart) : (s.setHart h a).flight = s.flight := rfl
@[simp] theorem State.setHart_lag (s : State) (h : Nat) (a : Hart) : (s.setHart h a).lag = s.lag := rfl
@[simp] theorem State.setHart_turns (s : State) (h : Nat) (a : Hart) : (s.setHart h a).turns = s.turns := rfl
@[simp] theorem State.setHart_freeCtr (s : State) (h : Nat) (a : Hart) : (s.setHart h a).freeCtr = s.freeCtr := rfl
@[simp] theorem State.setHart_nextId (s : State) (h : Nat) (a : Hart) : (s.setHart h a).nextId = s.nextId := rfl

@[simp] theorem State.setMe_cores (s : State) (a : Hart) : (s.setMe a).cores = s.cores := rfl
@[simp] theorem State.setMe_clusters (s : State) (a : Hart) : (s.setMe a).clusters = s.clusters := rfl
@[simp] theorem State.setMe_ms (s : State) (a : Hart) : (s.setMe a).ms = s.ms := rfl
@[simp] theorem State.setMe_flt (s : State) (a : Hart) : (s.setMe a).flt = s.flt := rfl
@[simp] theorem State.setMe_lch (s : State) (a : Hart) : (s.setMe a).lch = s.lch := rfl
@[simp] theorem State.setMe_fab (s : State) (a : Hart) : (s.setMe a).fab = s.fab := rfl
@[simp] theorem State.setMe_reuse (s : State) (a : Hart) : (s.setMe a).reuse = s.reuse := rfl
@[simp] theorem State.setMe_plat (s : State) (a : Hart) : (s.setMe a).plat = s.plat := rfl
@[simp] theorem State.setMe_time (s : State) (a : Hart) : (s.setMe a).time = s.time := rfl
@[simp] theorem State.setMe_cycle (s : State) (a : Hart) : (s.setMe a).cycle = s.cycle := rfl
@[simp] theorem State.setMe_routeTabs (s : State) (a : Hart) : (s.setMe a).routeTabs = s.routeTabs := rfl
@[simp] theorem State.setMe_cur (s : State) (a : Hart) : (s.setMe a).cur = s.cur := rfl
@[simp] theorem State.setMe_flight (s : State) (a : Hart) : (s.setMe a).flight = s.flight := rfl
@[simp] theorem State.setMe_lag (s : State) (a : Hart) : (s.setMe a).lag = s.lag := rfl
@[simp] theorem State.setMe_turns (s : State) (a : Hart) : (s.setMe a).turns = s.turns := rfl
@[simp] theorem State.setMe_freeCtr (s : State) (a : Hart) : (s.setMe a).freeCtr = s.freeCtr := rfl
@[simp] theorem State.setMe_nextId (s : State) (a : Hart) : (s.setMe a).nextId = s.nextId := rfl

@[simp] theorem State.setCore_harts (s : State) (c : Nat) (a : Core) : (s.setCore c a).harts = s.harts := rfl
@[simp] theorem State.setCore_clusters (s : State) (c : Nat) (a : Core) : (s.setCore c a).clusters = s.clusters := rfl
@[simp] theorem State.setCore_ms (s : State) (c : Nat) (a : Core) : (s.setCore c a).ms = s.ms := rfl
@[simp] theorem State.setCore_flt (s : State) (c : Nat) (a : Core) : (s.setCore c a).flt = s.flt := rfl
@[simp] theorem State.setCore_lch (s : State) (c : Nat) (a : Core) : (s.setCore c a).lch = s.lch := rfl
@[simp] theorem State.setCore_fab (s : State) (c : Nat) (a : Core) : (s.setCore c a).fab = s.fab := rfl
@[simp] theorem State.setCore_reuse (s : State) (c : Nat) (a : Core) : (s.setCore c a).reuse = s.reuse := rfl
@[simp] theorem State.setCore_plat (s : State) (c : Nat) (a : Core) : (s.setCore c a).plat = s.plat := rfl
@[simp] theorem State.setCore_time (s : State) (c : Nat) (a : Core) : (s.setCore c a).time = s.time := rfl
@[simp] theorem State.setCore_cycle (s : State) (c : Nat) (a : Core) : (s.setCore c a).cycle = s.cycle := rfl
@[simp] theorem State.setCore_routeTabs (s : State) (c : Nat) (a : Core) : (s.setCore c a).routeTabs = s.routeTabs := rfl
@[simp] theorem State.setCore_cur (s : State) (c : Nat) (a : Core) : (s.setCore c a).cur = s.cur := rfl
@[simp] theorem State.setCore_flight (s : State) (c : Nat) (a : Core) : (s.setCore c a).flight = s.flight := rfl
@[simp] theorem State.setCore_lag (s : State) (c : Nat) (a : Core) : (s.setCore c a).lag = s.lag := rfl
@[simp] theorem State.setCore_turns (s : State) (c : Nat) (a : Core) : (s.setCore c a).turns = s.turns := rfl
@[simp] theorem State.setCore_freeCtr (s : State) (c : Nat) (a : Core) : (s.setCore c a).freeCtr = s.freeCtr := rfl
@[simp] theorem State.setCore_nextId (s : State) (c : Nat) (a : Core) : (s.setCore c a).nextId = s.nextId := rfl

@[simp] theorem State.setCluster_harts (s : State) (c : Nat) (a : Cluster) : (s.setCluster c a).harts = s.harts := rfl
@[simp] theorem State.setCluster_cores (s : State) (c : Nat) (a : Cluster) : (s.setCluster c a).cores = s.cores := rfl
@[simp] theorem State.setCluster_ms (s : State) (c : Nat) (a : Cluster) : (s.setCluster c a).ms = s.ms := rfl
@[simp] theorem State.setCluster_flt (s : State) (c : Nat) (a : Cluster) : (s.setCluster c a).flt = s.flt := rfl
@[simp] theorem State.setCluster_lch (s : State) (c : Nat) (a : Cluster) : (s.setCluster c a).lch = s.lch := rfl
@[simp] theorem State.setCluster_fab (s : State) (c : Nat) (a : Cluster) : (s.setCluster c a).fab = s.fab := rfl
@[simp] theorem State.setCluster_reuse (s : State) (c : Nat) (a : Cluster) : (s.setCluster c a).reuse = s.reuse := rfl
@[simp] theorem State.setCluster_plat (s : State) (c : Nat) (a : Cluster) : (s.setCluster c a).plat = s.plat := rfl
@[simp] theorem State.setCluster_time (s : State) (c : Nat) (a : Cluster) : (s.setCluster c a).time = s.time := rfl
@[simp] theorem State.setCluster_cycle (s : State) (c : Nat) (a : Cluster) : (s.setCluster c a).cycle = s.cycle := rfl
@[simp] theorem State.setCluster_routeTabs (s : State) (c : Nat) (a : Cluster) : (s.setCluster c a).routeTabs = s.routeTabs := rfl
@[simp] theorem State.setCluster_cur (s : State) (c : Nat) (a : Cluster) : (s.setCluster c a).cur = s.cur := rfl
@[simp] theorem State.setCluster_flight (s : State) (c : Nat) (a : Cluster) : (s.setCluster c a).flight = s.flight := rfl
@[simp] theorem State.setCluster_lag (s : State) (c : Nat) (a : Cluster) : (s.setCluster c a).lag = s.lag := rfl
@[simp] theorem State.setCluster_turns (s : State) (c : Nat) (a : Cluster) : (s.setCluster c a).turns = s.turns := rfl
@[simp] theorem State.setCluster_freeCtr (s : State) (c : Nat) (a : Cluster) : (s.setCluster c a).freeCtr = s.freeCtr := rfl
@[simp] theorem State.setCluster_nextId (s : State) (c : Nat) (a : Cluster) : (s.setCluster c a).nextId = s.nextId := rfl

@[simp] theorem State.setPart_harts (s : State) (p : Nat) (a : Part) : (s.setPart p a).harts = s.harts := rfl
@[simp] theorem State.setPart_cores (s : State) (p : Nat) (a : Part) : (s.setPart p a).cores = s.cores := rfl
@[simp] theorem State.setPart_clusters (s : State) (p : Nat) (a : Part) : (s.setPart p a).clusters = s.clusters := rfl
@[simp] theorem State.setPart_ms (s : State) (p : Nat) (a : Part) : (s.setPart p a).ms = s.ms := rfl
@[simp] theorem State.setPart_flt (s : State) (p : Nat) (a : Part) : (s.setPart p a).flt = s.flt := rfl
@[simp] theorem State.setPart_lch (s : State) (p : Nat) (a : Part) : (s.setPart p a).lch = s.lch := rfl
@[simp] theorem State.setPart_fab (s : State) (p : Nat) (a : Part) : (s.setPart p a).fab = s.fab := rfl
@[simp] theorem State.setPart_reuse (s : State) (p : Nat) (a : Part) : (s.setPart p a).reuse = s.reuse := rfl
@[simp] theorem State.setPart_time (s : State) (p : Nat) (a : Part) : (s.setPart p a).time = s.time := rfl
@[simp] theorem State.setPart_cycle (s : State) (p : Nat) (a : Part) : (s.setPart p a).cycle = s.cycle := rfl
@[simp] theorem State.setPart_routeTabs (s : State) (p : Nat) (a : Part) : (s.setPart p a).routeTabs = s.routeTabs := rfl
@[simp] theorem State.setPart_cur (s : State) (p : Nat) (a : Part) : (s.setPart p a).cur = s.cur := rfl
@[simp] theorem State.setPart_flight (s : State) (p : Nat) (a : Part) : (s.setPart p a).flight = s.flight := rfl
@[simp] theorem State.setPart_lag (s : State) (p : Nat) (a : Part) : (s.setPart p a).lag = s.lag := rfl
@[simp] theorem State.setPart_turns (s : State) (p : Nat) (a : Part) : (s.setPart p a).turns = s.turns := rfl
@[simp] theorem State.setPart_freeCtr (s : State) (p : Nat) (a : Part) : (s.setPart p a).freeCtr = s.freeCtr := rfl
@[simp] theorem State.setPart_nextId (s : State) (p : Nat) (a : Part) : (s.setPart p a).nextId = s.nextId := rfl

@[simp] theorem State.setConn_harts (s : State) (c : Nat) (a : Conn) : (s.setConn c a).harts = s.harts := rfl
@[simp] theorem State.setConn_cores (s : State) (c : Nat) (a : Conn) : (s.setConn c a).cores = s.cores := rfl
@[simp] theorem State.setConn_clusters (s : State) (c : Nat) (a : Conn) : (s.setConn c a).clusters = s.clusters := rfl
@[simp] theorem State.setConn_ms (s : State) (c : Nat) (a : Conn) : (s.setConn c a).ms = s.ms := rfl
@[simp] theorem State.setConn_flt (s : State) (c : Nat) (a : Conn) : (s.setConn c a).flt = s.flt := rfl
@[simp] theorem State.setConn_lch (s : State) (c : Nat) (a : Conn) : (s.setConn c a).lch = s.lch := rfl
@[simp] theorem State.setConn_reuse (s : State) (c : Nat) (a : Conn) : (s.setConn c a).reuse = s.reuse := rfl
@[simp] theorem State.setConn_plat (s : State) (c : Nat) (a : Conn) : (s.setConn c a).plat = s.plat := rfl
@[simp] theorem State.setConn_time (s : State) (c : Nat) (a : Conn) : (s.setConn c a).time = s.time := rfl
@[simp] theorem State.setConn_cycle (s : State) (c : Nat) (a : Conn) : (s.setConn c a).cycle = s.cycle := rfl
@[simp] theorem State.setConn_routeTabs (s : State) (c : Nat) (a : Conn) : (s.setConn c a).routeTabs = s.routeTabs := rfl
@[simp] theorem State.setConn_cur (s : State) (c : Nat) (a : Conn) : (s.setConn c a).cur = s.cur := rfl
@[simp] theorem State.setConn_flight (s : State) (c : Nat) (a : Conn) : (s.setConn c a).flight = s.flight := rfl
@[simp] theorem State.setConn_lag (s : State) (c : Nat) (a : Conn) : (s.setConn c a).lag = s.lag := rfl
@[simp] theorem State.setConn_turns (s : State) (c : Nat) (a : Conn) : (s.setConn c a).turns = s.turns := rfl
@[simp] theorem State.setConn_freeCtr (s : State) (c : Nat) (a : Conn) : (s.setConn c a).freeCtr = s.freeCtr := rfl
@[simp] theorem State.setConn_nextId (s : State) (c : Nat) (a : Conn) : (s.setConn c a).nextId = s.nextId := rfl

@[simp] theorem State.fly_harts (s : State) (e : Event) : (s.fly e).harts = s.harts := rfl
@[simp] theorem State.fly_cores (s : State) (e : Event) : (s.fly e).cores = s.cores := rfl
@[simp] theorem State.fly_clusters (s : State) (e : Event) : (s.fly e).clusters = s.clusters := rfl
@[simp] theorem State.fly_ms (s : State) (e : Event) : (s.fly e).ms = s.ms := rfl
@[simp] theorem State.fly_flt (s : State) (e : Event) : (s.fly e).flt = s.flt := rfl
@[simp] theorem State.fly_lch (s : State) (e : Event) : (s.fly e).lch = s.lch := rfl
@[simp] theorem State.fly_fab (s : State) (e : Event) : (s.fly e).fab = s.fab := rfl
@[simp] theorem State.fly_reuse (s : State) (e : Event) : (s.fly e).reuse = s.reuse := rfl
@[simp] theorem State.fly_plat (s : State) (e : Event) : (s.fly e).plat = s.plat := rfl
@[simp] theorem State.fly_time (s : State) (e : Event) : (s.fly e).time = s.time := rfl
@[simp] theorem State.fly_cycle (s : State) (e : Event) : (s.fly e).cycle = s.cycle := rfl
@[simp] theorem State.fly_routeTabs (s : State) (e : Event) : (s.fly e).routeTabs = s.routeTabs := rfl
@[simp] theorem State.fly_cur (s : State) (e : Event) : (s.fly e).cur = s.cur := rfl
@[simp] theorem State.fly_lag (s : State) (e : Event) : (s.fly e).lag = s.lag := rfl
@[simp] theorem State.fly_turns (s : State) (e : Event) : (s.fly e).turns = s.turns := rfl
@[simp] theorem State.fly_freeCtr (s : State) (e : Event) : (s.fly e).freeCtr = s.freeCtr := rfl
@[simp] theorem State.fly_nextId (s : State) (e : Event) : (s.fly e).nextId = s.nextId := rfl

@[simp] theorem State.fly_flight (s : State) (e : Event) : (s.fly e).flight = s.flight ++ [e] := rfl

@[simp] theorem State.hart_setHart (s : State) (h : Nat) (a : Hart) : (s.setHart h a).hart h = a := by
  simp [State.hart, State.setHart]

theorem State.hart_setHart_ne (s : State) {h k : Nat} (a : Hart) (ne : k ≠ h) : (s.setHart h a).hart k = s.hart k := by
  simp [State.hart, State.setHart, Table.get_set_ne _ _ _ ne]

@[simp] theorem State.me_setMe (s : State) (a : Hart) : (s.setMe a).me = a := by
  simp [State.me, State.setMe]

@[simp] theorem State.hart_setMe_cur (s : State) (a : Hart) : (s.setMe a).hart s.cur = a := by
  simp [State.setMe]

theorem State.hart_setMe_ne (s : State) {k : Nat} (a : Hart) (ne : k ≠ s.cur) : (s.setMe a).hart k = s.hart k := by
  simp [State.setMe, State.hart_setHart_ne _ _ ne]

@[simp] theorem State.core_setCore (s : State) (c : Nat) (a : Core) : (s.setCore c a).core c = a := by
  simp [State.core, State.setCore]

theorem State.core_setCore_ne (s : State) {c d : Nat} (a : Core) (ne : d ≠ c) : (s.setCore c a).core d = s.core d := by
  simp [State.core, State.setCore, Table.get_set_ne _ _ _ ne]

@[simp] theorem State.cluster_setCluster (s : State) (c : Nat) (a : Cluster) : (s.setCluster c a).cluster c = a := by
  simp [State.cluster, State.setCluster]

@[simp] theorem State.part_setPart (s : State) (p : Nat) (a : Part) : (s.setPart p a).part p = a := by
  simp [State.part, State.setPart]

theorem State.part_setPart_ne (s : State) {p q : Nat} (a : Part) (ne : q ≠ p) : (s.setPart p a).part q = s.part q := by
  simp [State.part, State.setPart, Table.get_set_ne _ _ _ ne]

@[simp] theorem State.conn_setConn (s : State) (c : Nat) (a : Conn) : (s.setConn c a).conn c = a := by
  simp [State.conn, State.setConn]

@[simp] theorem State.hart_setCore (s : State) (c h : Nat) (a : Core) : (s.setCore c a).hart h = s.hart h := rfl
@[simp] theorem State.hart_fly (s : State) (e : Event) (h : Nat) : (s.fly e).hart h = s.hart h := rfl
@[simp] theorem State.me_fly (s : State) (e : Event) : (s.fly e).me = s.me := rfl
@[simp] theorem State.me_setCore (s : State) (c : Nat) (a : Core) : (s.setCore c a).me = s.me := rfl
@[simp] theorem State.core_fly (s : State) (e : Event) (c : Nat) : (s.fly e).core c = s.core c := rfl
@[simp] theorem State.core_setHart (s : State) (h c : Nat) (a : Hart) : (s.setHart h a).core c = s.core c := rfl
@[simp] theorem State.core_setMe (s : State) (c : Nat) (a : Hart) : (s.setMe a).core c = s.core c := rfl
@[simp] theorem State.myCore_setMe (s : State) (a : Hart) : (s.setMe a).myCore = s.myCore := rfl

/-! ### Harts: what the register operations leave -/

/-- wx changes nothing but the fields named. -/
theorem Hart.wx_frame (h : Hart) (r : Reg) (v : Word) :
    h.wx r v = { h with x := (h.wx r v).x, xready := (h.wx r v).xready } := by unfold Hart.wx; split <;> rfl
@[simp] theorem Hart.wx_v (h : Hart) (r : Reg) (v : Word) : (h.wx r v).v = h.v := (congrArg Hart.v (h.wx_frame r v) :)
@[simp] theorem Hart.wx_m (h : Hart) (r : Reg) (v : Word) : (h.wx r v).m = h.m := (congrArg Hart.m (h.wx_frame r v) :)
@[simp] theorem Hart.wx_vready (h : Hart) (r : Reg) (v : Word) : (h.wx r v).vready = h.vready := (congrArg Hart.vready (h.wx_frame r v) :)
@[simp] theorem Hart.wx_pc (h : Hart) (r : Reg) (v : Word) : (h.wx r v).pc = h.pc := (congrArg Hart.pc (h.wx_frame r v) :)
@[simp] theorem Hart.wx_mode (h : Hart) (r : Reg) (v : Word) : (h.wx r v).mode = h.mode := (congrArg Hart.mode (h.wx_frame r v) :)
@[simp] theorem Hart.wx_slot (h : Hart) (r : Reg) (v : Word) : (h.wx r v).slot = h.slot := (congrArg Hart.slot (h.wx_frame r v) :)
@[simp] theorem Hart.wx_tagCtr (h : Hart) (r : Reg) (v : Word) : (h.wx r v).tagCtr = h.tagCtr := (congrArg Hart.tagCtr (h.wx_frame r v) :)
@[simp] theorem Hart.wx_tag (h : Hart) (r : Reg) (v : Word) : (h.wx r v).tag = h.tag := (congrArg Hart.tag (h.wx_frame r v) :)
@[simp] theorem Hart.wx_frozen (h : Hart) (r : Reg) (v : Word) : (h.wx r v).frozen = h.frozen := (congrArg Hart.frozen (h.wx_frame r v) :)
@[simp] theorem Hart.wx_froze (h : Hart) (r : Reg) (v : Word) : (h.wx r v).froze = h.froze := (congrArg Hart.froze (h.wx_frame r v) :)
@[simp] theorem Hart.wx_frozeAt (h : Hart) (r : Reg) (v : Word) : (h.wx r v).frozeAt = h.frozeAt := (congrArg Hart.frozeAt (h.wx_frame r v) :)
@[simp] theorem Hart.wx_thawDue (h : Hart) (r : Reg) (v : Word) : (h.wx r v).thawDue = h.thawDue := (congrArg Hart.thawDue (h.wx_frame r v) :)
@[simp] theorem Hart.wx_thawed (h : Hart) (r : Reg) (v : Word) : (h.wx r v).thawed = h.thawed := (congrArg Hart.thawed (h.wx_frame r v) :)
@[simp] theorem Hart.wx_idle (h : Hart) (r : Reg) (v : Word) : (h.wx r v).idle = h.idle := (congrArg Hart.idle (h.wx_frame r v) :)
@[simp] theorem Hart.wx_yielded (h : Hart) (r : Reg) (v : Word) : (h.wx r v).yielded = h.yielded := (congrArg Hart.yielded (h.wx_frame r v) :)
@[simp] theorem Hart.wx_stall (h : Hart) (r : Reg) (v : Word) : (h.wx r v).stall = h.stall := (congrArg Hart.stall (h.wx_frame r v) :)
@[simp] theorem Hart.wx_blk (h : Hart) (r : Reg) (v : Word) : (h.wx r v).blk = h.blk := (congrArg Hart.blk (h.wx_frame r v) :)
@[simp] theorem Hart.wx_vtype (h : Hart) (r : Reg) (v : Word) : (h.wx r v).vtype = h.vtype := (congrArg Hart.vtype (h.wx_frame r v) :)
@[simp] theorem Hart.wx_unack (h : Hart) (r : Reg) (v : Word) : (h.wx r v).unack = h.unack := (congrArg Hart.unack (h.wx_frame r v) :)
@[simp] theorem Hart.wx_landCode (h : Hart) (r : Reg) (v : Word) : (h.wx r v).landCode = h.landCode := (congrArg Hart.landCode (h.wx_frame r v) :)
@[simp] theorem Hart.wx_landMiss (h : Hart) (r : Reg) (v : Word) : (h.wx r v).landMiss = h.landMiss := (congrArg Hart.landMiss (h.wx_frame r v) :)
@[simp] theorem Hart.wx_landLoc (h : Hart) (r : Reg) (v : Word) : (h.wx r v).landLoc = h.landLoc := (congrArg Hart.landLoc (h.wx_frame r v) :)
@[simp] theorem Hart.wx_landCnt (h : Hart) (r : Reg) (v : Word) : (h.wx r v).landCnt = h.landCnt := (congrArg Hart.landCnt (h.wx_frame r v) :)
@[simp] theorem Hart.wx_refusal (h : Hart) (r : Reg) (v : Word) : (h.wx r v).refusal = h.refusal := (congrArg Hart.refusal (h.wx_frame r v) :)
@[simp] theorem Hart.wx_retires (h : Hart) (r : Reg) (v : Word) : (h.wx r v).retires = h.retires := (congrArg Hart.retires (h.wx_frame r v) :)
@[simp] theorem Hart.wx_heldCause (h : Hart) (r : Reg) (v : Word) : (h.wx r v).heldCause = h.heldCause := (congrArg Hart.heldCause (h.wx_frame r v) :)
@[simp] theorem Hart.wx_heldTval (h : Hart) (r : Reg) (v : Word) : (h.wx r v).heldTval = h.heldTval := (congrArg Hart.heldTval (h.wx_frame r v) :)
@[simp] theorem Hart.wx_reqd (h : Hart) (r : Reg) (v : Word) : (h.wx r v).reqd = h.reqd := (congrArg Hart.reqd (h.wx_frame r v) :)
@[simp] theorem Hart.wx_repd (h : Hart) (r : Reg) (v : Word) : (h.wx r v).repd = h.repd := (congrArg Hart.repd (h.wx_frame r v) :)
@[simp] theorem Hart.wx_sendq (h : Hart) (r : Reg) (v : Word) : (h.wx r v).sendq = h.sendq := (congrArg Hart.sendq (h.wx_frame r v) :)
@[simp] theorem Hart.wx_utvec (h : Hart) (r : Reg) (v : Word) : (h.wx r v).utvec = h.utvec := (congrArg Hart.utvec (h.wx_frame r v) :)
@[simp] theorem Hart.wx_uepc (h : Hart) (r : Reg) (v : Word) : (h.wx r v).uepc = h.uepc := (congrArg Hart.uepc (h.wx_frame r v) :)
@[simp] theorem Hart.wx_ucause (h : Hart) (r : Reg) (v : Word) : (h.wx r v).ucause = h.ucause := (congrArg Hart.ucause (h.wx_frame r v) :)
@[simp] theorem Hart.wx_utval (h : Hart) (r : Reg) (v : Word) : (h.wx r v).utval = h.utval := (congrArg Hart.utval (h.wx_frame r v) :)
@[simp] theorem Hart.wx_udeleg (h : Hart) (r : Reg) (v : Word) : (h.wx r v).udeleg = h.udeleg := (congrArg Hart.udeleg (h.wx_frame r v) :)
@[simp] theorem Hart.wx_tdeleg (h : Hart) (r : Reg) (v : Word) : (h.wx r v).tdeleg = h.tdeleg := (congrArg Hart.tdeleg (h.wx_frame r v) :)
@[simp] theorem Hart.wx_status (h : Hart) (r : Reg) (v : Word) : (h.wx r v).status = h.status := (congrArg Hart.status (h.wx_frame r v) :)
@[simp] theorem Hart.wx_sregs (h : Hart) (r : Reg) (v : Word) : (h.wx r v).sregs = h.sregs := (congrArg Hart.sregs (h.wx_frame r v) :)
@[simp] theorem Hart.wx_hstatus (h : Hart) (r : Reg) (v : Word) : (h.wx r v).hstatus = h.hstatus := (congrArg Hart.hstatus (h.wx_frame r v) :)
@[simp] theorem Hart.wx_hregs (h : Hart) (r : Reg) (v : Word) : (h.wx r v).hregs = h.hregs := (congrArg Hart.hregs (h.wx_frame r v) :)
@[simp] theorem Hart.wx_mstatus (h : Hart) (r : Reg) (v : Word) : (h.wx r v).mstatus = h.mstatus := (congrArg Hart.mstatus (h.wx_frame r v) :)
@[simp] theorem Hart.wx_mregs (h : Hart) (r : Reg) (v : Word) : (h.wx r v).mregs = h.mregs := (congrArg Hart.mregs (h.wx_frame r v) :)
@[simp] theorem Hart.wx_asid (h : Hart) (r : Reg) (v : Word) : (h.wx r v).asid = h.asid := (congrArg Hart.asid (h.wx_frame r v) :)
@[simp] theorem Hart.wx_ptroot (h : Hart) (r : Reg) (v : Word) : (h.wx r v).ptroot = h.ptroot := (congrArg Hart.ptroot (h.wx_frame r v) :)
@[simp] theorem Hart.wx_vmid (h : Hart) (r : Reg) (v : Word) : (h.wx r v).vmid = h.vmid := (congrArg Hart.vmid (h.wx_frame r v) :)
@[simp] theorem Hart.wx_s2root (h : Hart) (r : Reg) (v : Word) : (h.wx r v).s2root = h.s2root := (congrArg Hart.s2root (h.wx_frame r v) :)
@[simp] theorem Hart.wx_stmap (h : Hart) (r : Reg) (v : Word) : (h.wx r v).stmap = h.stmap := (congrArg Hart.stmap (h.wx_frame r v) :)
@[simp] theorem Hart.wx_pmc (h : Hart) (r : Reg) (v : Word) : (h.wx r v).pmc = h.pmc := (congrArg Hart.pmc (h.wx_frame r v) :)
@[simp] theorem Hart.wx_pmsel (h : Hart) (r : Reg) (v : Word) : (h.wx r v).pmsel = h.pmsel := (congrArg Hart.pmsel (h.wx_frame r v) :)
@[simp] theorem Hart.wx_rclass (h : Hart) (r : Reg) (v : Word) : (h.wx r v).rclass = h.rclass := (congrArg Hart.rclass (h.wx_frame r v) :)
@[simp] theorem Hart.wx_ptviol (h : Hart) (r : Reg) (v : Word) : (h.wx r v).ptviol = h.ptviol := (congrArg Hart.ptviol (h.wx_frame r v) :)
@[simp] theorem Hart.wx_wid (h : Hart) (r : Reg) (v : Word) : (h.wx r v).wid = h.wid := (congrArg Hart.wid (h.wx_frame r v) :)
@[simp] theorem Hart.wx_widf (h : Hart) (r : Reg) (v : Word) : (h.wx r v).widf = h.widf := (congrArg Hart.widf (h.wx_frame r v) :)
@[simp] theorem Hart.wx_launchId (h : Hart) (r : Reg) (v : Word) : (h.wx r v).launchId = h.launchId := (congrArg Hart.launchId (h.wx_frame r v) :)
@[simp] theorem Hart.wx_nthreads (h : Hart) (r : Reg) (v : Word) : (h.wx r v).nthreads = h.nthreads := (congrArg Hart.nthreads (h.wx_frame r v) :)
@[simp] theorem Hart.wx_larg0 (h : Hart) (r : Reg) (v : Word) : (h.wx r v).larg0 = h.larg0 := (congrArg Hart.larg0 (h.wx_frame r v) :)
@[simp] theorem Hart.wx_larg1 (h : Hart) (r : Reg) (v : Word) : (h.wx r v).larg1 = h.larg1 := (congrArg Hart.larg1 (h.wx_frame r v) :)
@[simp] theorem Hart.wx_launch (h : Hart) (r : Reg) (v : Word) : (h.wx r v).launch = h.launch := (congrArg Hart.launch (h.wx_frame r v) :)
@[simp] theorem Hart.wx_hmsg (h : Hart) (r : Reg) (v : Word) : (h.wx r v).hmsg = h.hmsg := (congrArg Hart.hmsg (h.wx_frame r v) :)
@[simp] theorem Hart.wx_wdog (h : Hart) (r : Reg) (v : Word) : (h.wx r v).wdog = h.wdog := (congrArg Hart.wdog (h.wx_frame r v) :)
@[simp] theorem Hart.wx_grace (h : Hart) (r : Reg) (v : Word) : (h.wx r v).grace = h.grace := (congrArg Hart.grace (h.wx_frame r v) :)
@[simp] theorem Hart.wx_order (h : Hart) (r : Reg) (v : Word) : (h.wx r v).order = h.order := (congrArg Hart.order (h.wx_frame r v) :)
@[simp] theorem Hart.wx_msgStamp (h : Hart) (r : Reg) (v : Word) : (h.wx r v).msgStamp = h.msgStamp := (congrArg Hart.msgStamp (h.wx_frame r v) :)
@[simp] theorem Hart.wx_handles (h : Hart) (r : Reg) (v : Word) : (h.wx r v).handles = h.handles := (congrArg Hart.handles (h.wx_frame r v) :)
@[simp] theorem Hart.wx_packet (h : Hart) (r : Reg) (v : Word) : (h.wx r v).packet = h.packet := (congrArg Hart.packet (h.wx_frame r v) :)
@[simp] theorem Hart.wx_packetFrom (h : Hart) (r : Reg) (v : Word) : (h.wx r v).packetFrom = h.packetFrom := (congrArg Hart.packetFrom (h.wx_frame r v) :)
@[simp] theorem Hart.wx_packetCons (h : Hart) (r : Reg) (v : Word) : (h.wx r v).packetCons = h.packetCons := (congrArg Hart.packetCons (h.wx_frame r v) :)
@[simp] theorem Hart.wx_pend (h : Hart) (r : Reg) (v : Word) : (h.wx r v).pend = h.pend := (congrArg Hart.pend (h.wx_frame r v) :)
@[simp] theorem Hart.wx_hold (h : Hart) (r : Reg) (v : Word) : (h.wx r v).hold = h.hold := (congrArg Hart.hold (h.wx_frame r v) :)
@[simp] theorem Hart.wx_holds (h : Hart) (r : Reg) (v : Word) : (h.wx r v).holds = h.holds := (congrArg Hart.holds (h.wx_frame r v) :)
@[simp] theorem Hart.wx_loads (h : Hart) (r : Reg) (v : Word) : (h.wx r v).loads = h.loads := (congrArg Hart.loads (h.wx_frame r v) :)
@[simp] theorem Hart.wx_sigCur (h : Hart) (r : Reg) (v : Word) : (h.wx r v).sigCur = h.sigCur := (congrArg Hart.sigCur (h.wx_frame r v) :)
@[simp] theorem Hart.wx_sigPrev (h : Hart) (r : Reg) (v : Word) : (h.wx r v).sigPrev = h.sigPrev := (congrArg Hart.sigPrev (h.wx_frame r v) :)
@[simp] theorem Hart.wx_abuf (h : Hart) (r : Reg) (v : Word) : (h.wx r v).abuf = h.abuf := (congrArg Hart.abuf (h.wx_frame r v) :)
@[simp] theorem Hart.wx_unrollable (h : Hart) (r : Reg) (v : Word) : (h.wx r v).unrollable = h.unrollable := (congrArg Hart.unrollable (h.wx_frame r v) :)
@[simp] theorem Hart.wx_heldFor (h : Hart) (r : Reg) (v : Word) : (h.wx r v).heldFor = h.heldFor := (congrArg Hart.heldFor (h.wx_frame r v) :)
@[simp] theorem Hart.wx_popped (h : Hart) (r : Reg) (v : Word) : (h.wx r v).popped = h.popped := (congrArg Hart.popped (h.wx_frame r v) :)
@[simp] theorem Hart.wx_past (h : Hart) (r : Reg) (v : Word) : (h.wx r v).past = h.past := (congrArg Hart.past (h.wx_frame r v) :)
@[simp] theorem Hart.wx_pure (h : Hart) (r : Reg) (v : Word) : (h.wx r v).pure = h.pure := (congrArg Hart.pure (h.wx_frame r v) :)
@[simp] theorem Hart.wx_engines (h : Hart) (r : Reg) (v : Word) : (h.wx r v).engines = h.engines := (congrArg Hart.engines (h.wx_frame r v) :)
@[simp] theorem Hart.wx_startTrap (h : Hart) (r : Reg) (v : Word) : (h.wx r v).startTrap = h.startTrap := (congrArg Hart.startTrap (h.wx_frame r v) :)

/-- wv changes nothing but the fields named. -/
theorem Hart.wv_frame (h : Hart) (r : Reg) (v : VWord) :
    h.wv r v = { h with v := (h.wv r v).v, vready := (h.wv r v).vready } := rfl
@[simp] theorem Hart.wv_x (h : Hart) (r : Reg) (v : VWord) : (h.wv r v).x = h.x := (congrArg Hart.x (h.wv_frame r v) :)
@[simp] theorem Hart.wv_m (h : Hart) (r : Reg) (v : VWord) : (h.wv r v).m = h.m := (congrArg Hart.m (h.wv_frame r v) :)
@[simp] theorem Hart.wv_xready (h : Hart) (r : Reg) (v : VWord) : (h.wv r v).xready = h.xready := (congrArg Hart.xready (h.wv_frame r v) :)
@[simp] theorem Hart.wv_pc (h : Hart) (r : Reg) (v : VWord) : (h.wv r v).pc = h.pc := (congrArg Hart.pc (h.wv_frame r v) :)
@[simp] theorem Hart.wv_mode (h : Hart) (r : Reg) (v : VWord) : (h.wv r v).mode = h.mode := (congrArg Hart.mode (h.wv_frame r v) :)
@[simp] theorem Hart.wv_slot (h : Hart) (r : Reg) (v : VWord) : (h.wv r v).slot = h.slot := (congrArg Hart.slot (h.wv_frame r v) :)
@[simp] theorem Hart.wv_tagCtr (h : Hart) (r : Reg) (v : VWord) : (h.wv r v).tagCtr = h.tagCtr := (congrArg Hart.tagCtr (h.wv_frame r v) :)
@[simp] theorem Hart.wv_tag (h : Hart) (r : Reg) (v : VWord) : (h.wv r v).tag = h.tag := (congrArg Hart.tag (h.wv_frame r v) :)
@[simp] theorem Hart.wv_frozen (h : Hart) (r : Reg) (v : VWord) : (h.wv r v).frozen = h.frozen := (congrArg Hart.frozen (h.wv_frame r v) :)
@[simp] theorem Hart.wv_froze (h : Hart) (r : Reg) (v : VWord) : (h.wv r v).froze = h.froze := (congrArg Hart.froze (h.wv_frame r v) :)
@[simp] theorem Hart.wv_frozeAt (h : Hart) (r : Reg) (v : VWord) : (h.wv r v).frozeAt = h.frozeAt := (congrArg Hart.frozeAt (h.wv_frame r v) :)
@[simp] theorem Hart.wv_thawDue (h : Hart) (r : Reg) (v : VWord) : (h.wv r v).thawDue = h.thawDue := (congrArg Hart.thawDue (h.wv_frame r v) :)
@[simp] theorem Hart.wv_thawed (h : Hart) (r : Reg) (v : VWord) : (h.wv r v).thawed = h.thawed := (congrArg Hart.thawed (h.wv_frame r v) :)
@[simp] theorem Hart.wv_idle (h : Hart) (r : Reg) (v : VWord) : (h.wv r v).idle = h.idle := (congrArg Hart.idle (h.wv_frame r v) :)
@[simp] theorem Hart.wv_yielded (h : Hart) (r : Reg) (v : VWord) : (h.wv r v).yielded = h.yielded := (congrArg Hart.yielded (h.wv_frame r v) :)
@[simp] theorem Hart.wv_stall (h : Hart) (r : Reg) (v : VWord) : (h.wv r v).stall = h.stall := (congrArg Hart.stall (h.wv_frame r v) :)
@[simp] theorem Hart.wv_blk (h : Hart) (r : Reg) (v : VWord) : (h.wv r v).blk = h.blk := (congrArg Hart.blk (h.wv_frame r v) :)
@[simp] theorem Hart.wv_vtype (h : Hart) (r : Reg) (v : VWord) : (h.wv r v).vtype = h.vtype := (congrArg Hart.vtype (h.wv_frame r v) :)
@[simp] theorem Hart.wv_unack (h : Hart) (r : Reg) (v : VWord) : (h.wv r v).unack = h.unack := (congrArg Hart.unack (h.wv_frame r v) :)
@[simp] theorem Hart.wv_landCode (h : Hart) (r : Reg) (v : VWord) : (h.wv r v).landCode = h.landCode := (congrArg Hart.landCode (h.wv_frame r v) :)
@[simp] theorem Hart.wv_landMiss (h : Hart) (r : Reg) (v : VWord) : (h.wv r v).landMiss = h.landMiss := (congrArg Hart.landMiss (h.wv_frame r v) :)
@[simp] theorem Hart.wv_landLoc (h : Hart) (r : Reg) (v : VWord) : (h.wv r v).landLoc = h.landLoc := (congrArg Hart.landLoc (h.wv_frame r v) :)
@[simp] theorem Hart.wv_landCnt (h : Hart) (r : Reg) (v : VWord) : (h.wv r v).landCnt = h.landCnt := (congrArg Hart.landCnt (h.wv_frame r v) :)
@[simp] theorem Hart.wv_refusal (h : Hart) (r : Reg) (v : VWord) : (h.wv r v).refusal = h.refusal := (congrArg Hart.refusal (h.wv_frame r v) :)
@[simp] theorem Hart.wv_retires (h : Hart) (r : Reg) (v : VWord) : (h.wv r v).retires = h.retires := (congrArg Hart.retires (h.wv_frame r v) :)
@[simp] theorem Hart.wv_heldCause (h : Hart) (r : Reg) (v : VWord) : (h.wv r v).heldCause = h.heldCause := (congrArg Hart.heldCause (h.wv_frame r v) :)
@[simp] theorem Hart.wv_heldTval (h : Hart) (r : Reg) (v : VWord) : (h.wv r v).heldTval = h.heldTval := (congrArg Hart.heldTval (h.wv_frame r v) :)
@[simp] theorem Hart.wv_reqd (h : Hart) (r : Reg) (v : VWord) : (h.wv r v).reqd = h.reqd := (congrArg Hart.reqd (h.wv_frame r v) :)
@[simp] theorem Hart.wv_repd (h : Hart) (r : Reg) (v : VWord) : (h.wv r v).repd = h.repd := (congrArg Hart.repd (h.wv_frame r v) :)
@[simp] theorem Hart.wv_sendq (h : Hart) (r : Reg) (v : VWord) : (h.wv r v).sendq = h.sendq := (congrArg Hart.sendq (h.wv_frame r v) :)
@[simp] theorem Hart.wv_utvec (h : Hart) (r : Reg) (v : VWord) : (h.wv r v).utvec = h.utvec := (congrArg Hart.utvec (h.wv_frame r v) :)
@[simp] theorem Hart.wv_uepc (h : Hart) (r : Reg) (v : VWord) : (h.wv r v).uepc = h.uepc := (congrArg Hart.uepc (h.wv_frame r v) :)
@[simp] theorem Hart.wv_ucause (h : Hart) (r : Reg) (v : VWord) : (h.wv r v).ucause = h.ucause := (congrArg Hart.ucause (h.wv_frame r v) :)
@[simp] theorem Hart.wv_utval (h : Hart) (r : Reg) (v : VWord) : (h.wv r v).utval = h.utval := (congrArg Hart.utval (h.wv_frame r v) :)
@[simp] theorem Hart.wv_udeleg (h : Hart) (r : Reg) (v : VWord) : (h.wv r v).udeleg = h.udeleg := (congrArg Hart.udeleg (h.wv_frame r v) :)
@[simp] theorem Hart.wv_tdeleg (h : Hart) (r : Reg) (v : VWord) : (h.wv r v).tdeleg = h.tdeleg := (congrArg Hart.tdeleg (h.wv_frame r v) :)
@[simp] theorem Hart.wv_status (h : Hart) (r : Reg) (v : VWord) : (h.wv r v).status = h.status := (congrArg Hart.status (h.wv_frame r v) :)
@[simp] theorem Hart.wv_sregs (h : Hart) (r : Reg) (v : VWord) : (h.wv r v).sregs = h.sregs := (congrArg Hart.sregs (h.wv_frame r v) :)
@[simp] theorem Hart.wv_hstatus (h : Hart) (r : Reg) (v : VWord) : (h.wv r v).hstatus = h.hstatus := (congrArg Hart.hstatus (h.wv_frame r v) :)
@[simp] theorem Hart.wv_hregs (h : Hart) (r : Reg) (v : VWord) : (h.wv r v).hregs = h.hregs := (congrArg Hart.hregs (h.wv_frame r v) :)
@[simp] theorem Hart.wv_mstatus (h : Hart) (r : Reg) (v : VWord) : (h.wv r v).mstatus = h.mstatus := (congrArg Hart.mstatus (h.wv_frame r v) :)
@[simp] theorem Hart.wv_mregs (h : Hart) (r : Reg) (v : VWord) : (h.wv r v).mregs = h.mregs := (congrArg Hart.mregs (h.wv_frame r v) :)
@[simp] theorem Hart.wv_asid (h : Hart) (r : Reg) (v : VWord) : (h.wv r v).asid = h.asid := (congrArg Hart.asid (h.wv_frame r v) :)
@[simp] theorem Hart.wv_ptroot (h : Hart) (r : Reg) (v : VWord) : (h.wv r v).ptroot = h.ptroot := (congrArg Hart.ptroot (h.wv_frame r v) :)
@[simp] theorem Hart.wv_vmid (h : Hart) (r : Reg) (v : VWord) : (h.wv r v).vmid = h.vmid := (congrArg Hart.vmid (h.wv_frame r v) :)
@[simp] theorem Hart.wv_s2root (h : Hart) (r : Reg) (v : VWord) : (h.wv r v).s2root = h.s2root := (congrArg Hart.s2root (h.wv_frame r v) :)
@[simp] theorem Hart.wv_stmap (h : Hart) (r : Reg) (v : VWord) : (h.wv r v).stmap = h.stmap := (congrArg Hart.stmap (h.wv_frame r v) :)
@[simp] theorem Hart.wv_pmc (h : Hart) (r : Reg) (v : VWord) : (h.wv r v).pmc = h.pmc := (congrArg Hart.pmc (h.wv_frame r v) :)
@[simp] theorem Hart.wv_pmsel (h : Hart) (r : Reg) (v : VWord) : (h.wv r v).pmsel = h.pmsel := (congrArg Hart.pmsel (h.wv_frame r v) :)
@[simp] theorem Hart.wv_rclass (h : Hart) (r : Reg) (v : VWord) : (h.wv r v).rclass = h.rclass := (congrArg Hart.rclass (h.wv_frame r v) :)
@[simp] theorem Hart.wv_ptviol (h : Hart) (r : Reg) (v : VWord) : (h.wv r v).ptviol = h.ptviol := (congrArg Hart.ptviol (h.wv_frame r v) :)
@[simp] theorem Hart.wv_wid (h : Hart) (r : Reg) (v : VWord) : (h.wv r v).wid = h.wid := (congrArg Hart.wid (h.wv_frame r v) :)
@[simp] theorem Hart.wv_widf (h : Hart) (r : Reg) (v : VWord) : (h.wv r v).widf = h.widf := (congrArg Hart.widf (h.wv_frame r v) :)
@[simp] theorem Hart.wv_launchId (h : Hart) (r : Reg) (v : VWord) : (h.wv r v).launchId = h.launchId := (congrArg Hart.launchId (h.wv_frame r v) :)
@[simp] theorem Hart.wv_nthreads (h : Hart) (r : Reg) (v : VWord) : (h.wv r v).nthreads = h.nthreads := (congrArg Hart.nthreads (h.wv_frame r v) :)
@[simp] theorem Hart.wv_larg0 (h : Hart) (r : Reg) (v : VWord) : (h.wv r v).larg0 = h.larg0 := (congrArg Hart.larg0 (h.wv_frame r v) :)
@[simp] theorem Hart.wv_larg1 (h : Hart) (r : Reg) (v : VWord) : (h.wv r v).larg1 = h.larg1 := (congrArg Hart.larg1 (h.wv_frame r v) :)
@[simp] theorem Hart.wv_launch (h : Hart) (r : Reg) (v : VWord) : (h.wv r v).launch = h.launch := (congrArg Hart.launch (h.wv_frame r v) :)
@[simp] theorem Hart.wv_hmsg (h : Hart) (r : Reg) (v : VWord) : (h.wv r v).hmsg = h.hmsg := (congrArg Hart.hmsg (h.wv_frame r v) :)
@[simp] theorem Hart.wv_wdog (h : Hart) (r : Reg) (v : VWord) : (h.wv r v).wdog = h.wdog := (congrArg Hart.wdog (h.wv_frame r v) :)
@[simp] theorem Hart.wv_grace (h : Hart) (r : Reg) (v : VWord) : (h.wv r v).grace = h.grace := (congrArg Hart.grace (h.wv_frame r v) :)
@[simp] theorem Hart.wv_order (h : Hart) (r : Reg) (v : VWord) : (h.wv r v).order = h.order := (congrArg Hart.order (h.wv_frame r v) :)
@[simp] theorem Hart.wv_msgStamp (h : Hart) (r : Reg) (v : VWord) : (h.wv r v).msgStamp = h.msgStamp := (congrArg Hart.msgStamp (h.wv_frame r v) :)
@[simp] theorem Hart.wv_handles (h : Hart) (r : Reg) (v : VWord) : (h.wv r v).handles = h.handles := (congrArg Hart.handles (h.wv_frame r v) :)
@[simp] theorem Hart.wv_packet (h : Hart) (r : Reg) (v : VWord) : (h.wv r v).packet = h.packet := (congrArg Hart.packet (h.wv_frame r v) :)
@[simp] theorem Hart.wv_packetFrom (h : Hart) (r : Reg) (v : VWord) : (h.wv r v).packetFrom = h.packetFrom := (congrArg Hart.packetFrom (h.wv_frame r v) :)
@[simp] theorem Hart.wv_packetCons (h : Hart) (r : Reg) (v : VWord) : (h.wv r v).packetCons = h.packetCons := (congrArg Hart.packetCons (h.wv_frame r v) :)
@[simp] theorem Hart.wv_pend (h : Hart) (r : Reg) (v : VWord) : (h.wv r v).pend = h.pend := (congrArg Hart.pend (h.wv_frame r v) :)
@[simp] theorem Hart.wv_hold (h : Hart) (r : Reg) (v : VWord) : (h.wv r v).hold = h.hold := (congrArg Hart.hold (h.wv_frame r v) :)
@[simp] theorem Hart.wv_holds (h : Hart) (r : Reg) (v : VWord) : (h.wv r v).holds = h.holds := (congrArg Hart.holds (h.wv_frame r v) :)
@[simp] theorem Hart.wv_loads (h : Hart) (r : Reg) (v : VWord) : (h.wv r v).loads = h.loads := (congrArg Hart.loads (h.wv_frame r v) :)
@[simp] theorem Hart.wv_sigCur (h : Hart) (r : Reg) (v : VWord) : (h.wv r v).sigCur = h.sigCur := (congrArg Hart.sigCur (h.wv_frame r v) :)
@[simp] theorem Hart.wv_sigPrev (h : Hart) (r : Reg) (v : VWord) : (h.wv r v).sigPrev = h.sigPrev := (congrArg Hart.sigPrev (h.wv_frame r v) :)
@[simp] theorem Hart.wv_abuf (h : Hart) (r : Reg) (v : VWord) : (h.wv r v).abuf = h.abuf := (congrArg Hart.abuf (h.wv_frame r v) :)
@[simp] theorem Hart.wv_unrollable (h : Hart) (r : Reg) (v : VWord) : (h.wv r v).unrollable = h.unrollable := (congrArg Hart.unrollable (h.wv_frame r v) :)
@[simp] theorem Hart.wv_heldFor (h : Hart) (r : Reg) (v : VWord) : (h.wv r v).heldFor = h.heldFor := (congrArg Hart.heldFor (h.wv_frame r v) :)
@[simp] theorem Hart.wv_popped (h : Hart) (r : Reg) (v : VWord) : (h.wv r v).popped = h.popped := (congrArg Hart.popped (h.wv_frame r v) :)
@[simp] theorem Hart.wv_past (h : Hart) (r : Reg) (v : VWord) : (h.wv r v).past = h.past := (congrArg Hart.past (h.wv_frame r v) :)
@[simp] theorem Hart.wv_pure (h : Hart) (r : Reg) (v : VWord) : (h.wv r v).pure = h.pure := (congrArg Hart.pure (h.wv_frame r v) :)
@[simp] theorem Hart.wv_engines (h : Hart) (r : Reg) (v : VWord) : (h.wv r v).engines = h.engines := (congrArg Hart.engines (h.wv_frame r v) :)
@[simp] theorem Hart.wv_startTrap (h : Hart) (r : Reg) (v : VWord) : (h.wv r v).startTrap = h.startTrap := (congrArg Hart.startTrap (h.wv_frame r v) :)

/-- wm changes nothing but the fields named. -/
theorem Hart.wm_frame (h : Hart) (r : MReg) (v : BitVec 64) :
    h.wm r v = { h with m := (h.wm r v).m } := rfl
@[simp] theorem Hart.wm_x (h : Hart) (r : MReg) (v : BitVec 64) : (h.wm r v).x = h.x := (congrArg Hart.x (h.wm_frame r v) :)
@[simp] theorem Hart.wm_v (h : Hart) (r : MReg) (v : BitVec 64) : (h.wm r v).v = h.v := (congrArg Hart.v (h.wm_frame r v) :)
@[simp] theorem Hart.wm_xready (h : Hart) (r : MReg) (v : BitVec 64) : (h.wm r v).xready = h.xready := (congrArg Hart.xready (h.wm_frame r v) :)
@[simp] theorem Hart.wm_vready (h : Hart) (r : MReg) (v : BitVec 64) : (h.wm r v).vready = h.vready := (congrArg Hart.vready (h.wm_frame r v) :)
@[simp] theorem Hart.wm_pc (h : Hart) (r : MReg) (v : BitVec 64) : (h.wm r v).pc = h.pc := (congrArg Hart.pc (h.wm_frame r v) :)
@[simp] theorem Hart.wm_mode (h : Hart) (r : MReg) (v : BitVec 64) : (h.wm r v).mode = h.mode := (congrArg Hart.mode (h.wm_frame r v) :)
@[simp] theorem Hart.wm_slot (h : Hart) (r : MReg) (v : BitVec 64) : (h.wm r v).slot = h.slot := (congrArg Hart.slot (h.wm_frame r v) :)
@[simp] theorem Hart.wm_tagCtr (h : Hart) (r : MReg) (v : BitVec 64) : (h.wm r v).tagCtr = h.tagCtr := (congrArg Hart.tagCtr (h.wm_frame r v) :)
@[simp] theorem Hart.wm_tag (h : Hart) (r : MReg) (v : BitVec 64) : (h.wm r v).tag = h.tag := (congrArg Hart.tag (h.wm_frame r v) :)
@[simp] theorem Hart.wm_frozen (h : Hart) (r : MReg) (v : BitVec 64) : (h.wm r v).frozen = h.frozen := (congrArg Hart.frozen (h.wm_frame r v) :)
@[simp] theorem Hart.wm_froze (h : Hart) (r : MReg) (v : BitVec 64) : (h.wm r v).froze = h.froze := (congrArg Hart.froze (h.wm_frame r v) :)
@[simp] theorem Hart.wm_frozeAt (h : Hart) (r : MReg) (v : BitVec 64) : (h.wm r v).frozeAt = h.frozeAt := (congrArg Hart.frozeAt (h.wm_frame r v) :)
@[simp] theorem Hart.wm_thawDue (h : Hart) (r : MReg) (v : BitVec 64) : (h.wm r v).thawDue = h.thawDue := (congrArg Hart.thawDue (h.wm_frame r v) :)
@[simp] theorem Hart.wm_thawed (h : Hart) (r : MReg) (v : BitVec 64) : (h.wm r v).thawed = h.thawed := (congrArg Hart.thawed (h.wm_frame r v) :)
@[simp] theorem Hart.wm_idle (h : Hart) (r : MReg) (v : BitVec 64) : (h.wm r v).idle = h.idle := (congrArg Hart.idle (h.wm_frame r v) :)
@[simp] theorem Hart.wm_yielded (h : Hart) (r : MReg) (v : BitVec 64) : (h.wm r v).yielded = h.yielded := (congrArg Hart.yielded (h.wm_frame r v) :)
@[simp] theorem Hart.wm_stall (h : Hart) (r : MReg) (v : BitVec 64) : (h.wm r v).stall = h.stall := (congrArg Hart.stall (h.wm_frame r v) :)
@[simp] theorem Hart.wm_blk (h : Hart) (r : MReg) (v : BitVec 64) : (h.wm r v).blk = h.blk := (congrArg Hart.blk (h.wm_frame r v) :)
@[simp] theorem Hart.wm_vtype (h : Hart) (r : MReg) (v : BitVec 64) : (h.wm r v).vtype = h.vtype := (congrArg Hart.vtype (h.wm_frame r v) :)
@[simp] theorem Hart.wm_unack (h : Hart) (r : MReg) (v : BitVec 64) : (h.wm r v).unack = h.unack := (congrArg Hart.unack (h.wm_frame r v) :)
@[simp] theorem Hart.wm_landCode (h : Hart) (r : MReg) (v : BitVec 64) : (h.wm r v).landCode = h.landCode := (congrArg Hart.landCode (h.wm_frame r v) :)
@[simp] theorem Hart.wm_landMiss (h : Hart) (r : MReg) (v : BitVec 64) : (h.wm r v).landMiss = h.landMiss := (congrArg Hart.landMiss (h.wm_frame r v) :)
@[simp] theorem Hart.wm_landLoc (h : Hart) (r : MReg) (v : BitVec 64) : (h.wm r v).landLoc = h.landLoc := (congrArg Hart.landLoc (h.wm_frame r v) :)
@[simp] theorem Hart.wm_landCnt (h : Hart) (r : MReg) (v : BitVec 64) : (h.wm r v).landCnt = h.landCnt := (congrArg Hart.landCnt (h.wm_frame r v) :)
@[simp] theorem Hart.wm_refusal (h : Hart) (r : MReg) (v : BitVec 64) : (h.wm r v).refusal = h.refusal := (congrArg Hart.refusal (h.wm_frame r v) :)
@[simp] theorem Hart.wm_retires (h : Hart) (r : MReg) (v : BitVec 64) : (h.wm r v).retires = h.retires := (congrArg Hart.retires (h.wm_frame r v) :)
@[simp] theorem Hart.wm_heldCause (h : Hart) (r : MReg) (v : BitVec 64) : (h.wm r v).heldCause = h.heldCause := (congrArg Hart.heldCause (h.wm_frame r v) :)
@[simp] theorem Hart.wm_heldTval (h : Hart) (r : MReg) (v : BitVec 64) : (h.wm r v).heldTval = h.heldTval := (congrArg Hart.heldTval (h.wm_frame r v) :)
@[simp] theorem Hart.wm_reqd (h : Hart) (r : MReg) (v : BitVec 64) : (h.wm r v).reqd = h.reqd := (congrArg Hart.reqd (h.wm_frame r v) :)
@[simp] theorem Hart.wm_repd (h : Hart) (r : MReg) (v : BitVec 64) : (h.wm r v).repd = h.repd := (congrArg Hart.repd (h.wm_frame r v) :)
@[simp] theorem Hart.wm_sendq (h : Hart) (r : MReg) (v : BitVec 64) : (h.wm r v).sendq = h.sendq := (congrArg Hart.sendq (h.wm_frame r v) :)
@[simp] theorem Hart.wm_utvec (h : Hart) (r : MReg) (v : BitVec 64) : (h.wm r v).utvec = h.utvec := (congrArg Hart.utvec (h.wm_frame r v) :)
@[simp] theorem Hart.wm_uepc (h : Hart) (r : MReg) (v : BitVec 64) : (h.wm r v).uepc = h.uepc := (congrArg Hart.uepc (h.wm_frame r v) :)
@[simp] theorem Hart.wm_ucause (h : Hart) (r : MReg) (v : BitVec 64) : (h.wm r v).ucause = h.ucause := (congrArg Hart.ucause (h.wm_frame r v) :)
@[simp] theorem Hart.wm_utval (h : Hart) (r : MReg) (v : BitVec 64) : (h.wm r v).utval = h.utval := (congrArg Hart.utval (h.wm_frame r v) :)
@[simp] theorem Hart.wm_udeleg (h : Hart) (r : MReg) (v : BitVec 64) : (h.wm r v).udeleg = h.udeleg := (congrArg Hart.udeleg (h.wm_frame r v) :)
@[simp] theorem Hart.wm_tdeleg (h : Hart) (r : MReg) (v : BitVec 64) : (h.wm r v).tdeleg = h.tdeleg := (congrArg Hart.tdeleg (h.wm_frame r v) :)
@[simp] theorem Hart.wm_status (h : Hart) (r : MReg) (v : BitVec 64) : (h.wm r v).status = h.status := (congrArg Hart.status (h.wm_frame r v) :)
@[simp] theorem Hart.wm_sregs (h : Hart) (r : MReg) (v : BitVec 64) : (h.wm r v).sregs = h.sregs := (congrArg Hart.sregs (h.wm_frame r v) :)
@[simp] theorem Hart.wm_hstatus (h : Hart) (r : MReg) (v : BitVec 64) : (h.wm r v).hstatus = h.hstatus := (congrArg Hart.hstatus (h.wm_frame r v) :)
@[simp] theorem Hart.wm_hregs (h : Hart) (r : MReg) (v : BitVec 64) : (h.wm r v).hregs = h.hregs := (congrArg Hart.hregs (h.wm_frame r v) :)
@[simp] theorem Hart.wm_mstatus (h : Hart) (r : MReg) (v : BitVec 64) : (h.wm r v).mstatus = h.mstatus := (congrArg Hart.mstatus (h.wm_frame r v) :)
@[simp] theorem Hart.wm_mregs (h : Hart) (r : MReg) (v : BitVec 64) : (h.wm r v).mregs = h.mregs := (congrArg Hart.mregs (h.wm_frame r v) :)
@[simp] theorem Hart.wm_asid (h : Hart) (r : MReg) (v : BitVec 64) : (h.wm r v).asid = h.asid := (congrArg Hart.asid (h.wm_frame r v) :)
@[simp] theorem Hart.wm_ptroot (h : Hart) (r : MReg) (v : BitVec 64) : (h.wm r v).ptroot = h.ptroot := (congrArg Hart.ptroot (h.wm_frame r v) :)
@[simp] theorem Hart.wm_vmid (h : Hart) (r : MReg) (v : BitVec 64) : (h.wm r v).vmid = h.vmid := (congrArg Hart.vmid (h.wm_frame r v) :)
@[simp] theorem Hart.wm_s2root (h : Hart) (r : MReg) (v : BitVec 64) : (h.wm r v).s2root = h.s2root := (congrArg Hart.s2root (h.wm_frame r v) :)
@[simp] theorem Hart.wm_stmap (h : Hart) (r : MReg) (v : BitVec 64) : (h.wm r v).stmap = h.stmap := (congrArg Hart.stmap (h.wm_frame r v) :)
@[simp] theorem Hart.wm_pmc (h : Hart) (r : MReg) (v : BitVec 64) : (h.wm r v).pmc = h.pmc := (congrArg Hart.pmc (h.wm_frame r v) :)
@[simp] theorem Hart.wm_pmsel (h : Hart) (r : MReg) (v : BitVec 64) : (h.wm r v).pmsel = h.pmsel := (congrArg Hart.pmsel (h.wm_frame r v) :)
@[simp] theorem Hart.wm_rclass (h : Hart) (r : MReg) (v : BitVec 64) : (h.wm r v).rclass = h.rclass := (congrArg Hart.rclass (h.wm_frame r v) :)
@[simp] theorem Hart.wm_ptviol (h : Hart) (r : MReg) (v : BitVec 64) : (h.wm r v).ptviol = h.ptviol := (congrArg Hart.ptviol (h.wm_frame r v) :)
@[simp] theorem Hart.wm_wid (h : Hart) (r : MReg) (v : BitVec 64) : (h.wm r v).wid = h.wid := (congrArg Hart.wid (h.wm_frame r v) :)
@[simp] theorem Hart.wm_widf (h : Hart) (r : MReg) (v : BitVec 64) : (h.wm r v).widf = h.widf := (congrArg Hart.widf (h.wm_frame r v) :)
@[simp] theorem Hart.wm_launchId (h : Hart) (r : MReg) (v : BitVec 64) : (h.wm r v).launchId = h.launchId := (congrArg Hart.launchId (h.wm_frame r v) :)
@[simp] theorem Hart.wm_nthreads (h : Hart) (r : MReg) (v : BitVec 64) : (h.wm r v).nthreads = h.nthreads := (congrArg Hart.nthreads (h.wm_frame r v) :)
@[simp] theorem Hart.wm_larg0 (h : Hart) (r : MReg) (v : BitVec 64) : (h.wm r v).larg0 = h.larg0 := (congrArg Hart.larg0 (h.wm_frame r v) :)
@[simp] theorem Hart.wm_larg1 (h : Hart) (r : MReg) (v : BitVec 64) : (h.wm r v).larg1 = h.larg1 := (congrArg Hart.larg1 (h.wm_frame r v) :)
@[simp] theorem Hart.wm_launch (h : Hart) (r : MReg) (v : BitVec 64) : (h.wm r v).launch = h.launch := (congrArg Hart.launch (h.wm_frame r v) :)
@[simp] theorem Hart.wm_hmsg (h : Hart) (r : MReg) (v : BitVec 64) : (h.wm r v).hmsg = h.hmsg := (congrArg Hart.hmsg (h.wm_frame r v) :)
@[simp] theorem Hart.wm_wdog (h : Hart) (r : MReg) (v : BitVec 64) : (h.wm r v).wdog = h.wdog := (congrArg Hart.wdog (h.wm_frame r v) :)
@[simp] theorem Hart.wm_grace (h : Hart) (r : MReg) (v : BitVec 64) : (h.wm r v).grace = h.grace := (congrArg Hart.grace (h.wm_frame r v) :)
@[simp] theorem Hart.wm_order (h : Hart) (r : MReg) (v : BitVec 64) : (h.wm r v).order = h.order := (congrArg Hart.order (h.wm_frame r v) :)
@[simp] theorem Hart.wm_msgStamp (h : Hart) (r : MReg) (v : BitVec 64) : (h.wm r v).msgStamp = h.msgStamp := (congrArg Hart.msgStamp (h.wm_frame r v) :)
@[simp] theorem Hart.wm_handles (h : Hart) (r : MReg) (v : BitVec 64) : (h.wm r v).handles = h.handles := (congrArg Hart.handles (h.wm_frame r v) :)
@[simp] theorem Hart.wm_packet (h : Hart) (r : MReg) (v : BitVec 64) : (h.wm r v).packet = h.packet := (congrArg Hart.packet (h.wm_frame r v) :)
@[simp] theorem Hart.wm_packetFrom (h : Hart) (r : MReg) (v : BitVec 64) : (h.wm r v).packetFrom = h.packetFrom := (congrArg Hart.packetFrom (h.wm_frame r v) :)
@[simp] theorem Hart.wm_packetCons (h : Hart) (r : MReg) (v : BitVec 64) : (h.wm r v).packetCons = h.packetCons := (congrArg Hart.packetCons (h.wm_frame r v) :)
@[simp] theorem Hart.wm_pend (h : Hart) (r : MReg) (v : BitVec 64) : (h.wm r v).pend = h.pend := (congrArg Hart.pend (h.wm_frame r v) :)
@[simp] theorem Hart.wm_hold (h : Hart) (r : MReg) (v : BitVec 64) : (h.wm r v).hold = h.hold := (congrArg Hart.hold (h.wm_frame r v) :)
@[simp] theorem Hart.wm_holds (h : Hart) (r : MReg) (v : BitVec 64) : (h.wm r v).holds = h.holds := (congrArg Hart.holds (h.wm_frame r v) :)
@[simp] theorem Hart.wm_loads (h : Hart) (r : MReg) (v : BitVec 64) : (h.wm r v).loads = h.loads := (congrArg Hart.loads (h.wm_frame r v) :)
@[simp] theorem Hart.wm_sigCur (h : Hart) (r : MReg) (v : BitVec 64) : (h.wm r v).sigCur = h.sigCur := (congrArg Hart.sigCur (h.wm_frame r v) :)
@[simp] theorem Hart.wm_sigPrev (h : Hart) (r : MReg) (v : BitVec 64) : (h.wm r v).sigPrev = h.sigPrev := (congrArg Hart.sigPrev (h.wm_frame r v) :)
@[simp] theorem Hart.wm_abuf (h : Hart) (r : MReg) (v : BitVec 64) : (h.wm r v).abuf = h.abuf := (congrArg Hart.abuf (h.wm_frame r v) :)
@[simp] theorem Hart.wm_unrollable (h : Hart) (r : MReg) (v : BitVec 64) : (h.wm r v).unrollable = h.unrollable := (congrArg Hart.unrollable (h.wm_frame r v) :)
@[simp] theorem Hart.wm_heldFor (h : Hart) (r : MReg) (v : BitVec 64) : (h.wm r v).heldFor = h.heldFor := (congrArg Hart.heldFor (h.wm_frame r v) :)
@[simp] theorem Hart.wm_popped (h : Hart) (r : MReg) (v : BitVec 64) : (h.wm r v).popped = h.popped := (congrArg Hart.popped (h.wm_frame r v) :)
@[simp] theorem Hart.wm_past (h : Hart) (r : MReg) (v : BitVec 64) : (h.wm r v).past = h.past := (congrArg Hart.past (h.wm_frame r v) :)
@[simp] theorem Hart.wm_pure (h : Hart) (r : MReg) (v : BitVec 64) : (h.wm r v).pure = h.pure := (congrArg Hart.pure (h.wm_frame r v) :)
@[simp] theorem Hart.wm_engines (h : Hart) (r : MReg) (v : BitVec 64) : (h.wm r v).engines = h.engines := (congrArg Hart.engines (h.wm_frame r v) :)
@[simp] theorem Hart.wm_startTrap (h : Hart) (r : MReg) (v : BitVec 64) : (h.wm r v).startTrap = h.startTrap := (congrArg Hart.startTrap (h.wm_frame r v) :)

/-- armX changes nothing but the fields named. -/
theorem Hart.armX_frame (h : Hart) (r : Reg) :
    h.armX r = { h with xready := (h.armX r).xready } := by unfold Hart.armX; split <;> rfl
@[simp] theorem Hart.armX_x (h : Hart) (r : Reg) : (h.armX r).x = h.x := (congrArg Hart.x (h.armX_frame r) :)
@[simp] theorem Hart.armX_v (h : Hart) (r : Reg) : (h.armX r).v = h.v := (congrArg Hart.v (h.armX_frame r) :)
@[simp] theorem Hart.armX_m (h : Hart) (r : Reg) : (h.armX r).m = h.m := (congrArg Hart.m (h.armX_frame r) :)
@[simp] theorem Hart.armX_vready (h : Hart) (r : Reg) : (h.armX r).vready = h.vready := (congrArg Hart.vready (h.armX_frame r) :)
@[simp] theorem Hart.armX_pc (h : Hart) (r : Reg) : (h.armX r).pc = h.pc := (congrArg Hart.pc (h.armX_frame r) :)
@[simp] theorem Hart.armX_mode (h : Hart) (r : Reg) : (h.armX r).mode = h.mode := (congrArg Hart.mode (h.armX_frame r) :)
@[simp] theorem Hart.armX_slot (h : Hart) (r : Reg) : (h.armX r).slot = h.slot := (congrArg Hart.slot (h.armX_frame r) :)
@[simp] theorem Hart.armX_tagCtr (h : Hart) (r : Reg) : (h.armX r).tagCtr = h.tagCtr := (congrArg Hart.tagCtr (h.armX_frame r) :)
@[simp] theorem Hart.armX_tag (h : Hart) (r : Reg) : (h.armX r).tag = h.tag := (congrArg Hart.tag (h.armX_frame r) :)
@[simp] theorem Hart.armX_frozen (h : Hart) (r : Reg) : (h.armX r).frozen = h.frozen := (congrArg Hart.frozen (h.armX_frame r) :)
@[simp] theorem Hart.armX_froze (h : Hart) (r : Reg) : (h.armX r).froze = h.froze := (congrArg Hart.froze (h.armX_frame r) :)
@[simp] theorem Hart.armX_frozeAt (h : Hart) (r : Reg) : (h.armX r).frozeAt = h.frozeAt := (congrArg Hart.frozeAt (h.armX_frame r) :)
@[simp] theorem Hart.armX_thawDue (h : Hart) (r : Reg) : (h.armX r).thawDue = h.thawDue := (congrArg Hart.thawDue (h.armX_frame r) :)
@[simp] theorem Hart.armX_thawed (h : Hart) (r : Reg) : (h.armX r).thawed = h.thawed := (congrArg Hart.thawed (h.armX_frame r) :)
@[simp] theorem Hart.armX_idle (h : Hart) (r : Reg) : (h.armX r).idle = h.idle := (congrArg Hart.idle (h.armX_frame r) :)
@[simp] theorem Hart.armX_yielded (h : Hart) (r : Reg) : (h.armX r).yielded = h.yielded := (congrArg Hart.yielded (h.armX_frame r) :)
@[simp] theorem Hart.armX_stall (h : Hart) (r : Reg) : (h.armX r).stall = h.stall := (congrArg Hart.stall (h.armX_frame r) :)
@[simp] theorem Hart.armX_blk (h : Hart) (r : Reg) : (h.armX r).blk = h.blk := (congrArg Hart.blk (h.armX_frame r) :)
@[simp] theorem Hart.armX_vtype (h : Hart) (r : Reg) : (h.armX r).vtype = h.vtype := (congrArg Hart.vtype (h.armX_frame r) :)
@[simp] theorem Hart.armX_unack (h : Hart) (r : Reg) : (h.armX r).unack = h.unack := (congrArg Hart.unack (h.armX_frame r) :)
@[simp] theorem Hart.armX_landCode (h : Hart) (r : Reg) : (h.armX r).landCode = h.landCode := (congrArg Hart.landCode (h.armX_frame r) :)
@[simp] theorem Hart.armX_landMiss (h : Hart) (r : Reg) : (h.armX r).landMiss = h.landMiss := (congrArg Hart.landMiss (h.armX_frame r) :)
@[simp] theorem Hart.armX_landLoc (h : Hart) (r : Reg) : (h.armX r).landLoc = h.landLoc := (congrArg Hart.landLoc (h.armX_frame r) :)
@[simp] theorem Hart.armX_landCnt (h : Hart) (r : Reg) : (h.armX r).landCnt = h.landCnt := (congrArg Hart.landCnt (h.armX_frame r) :)
@[simp] theorem Hart.armX_refusal (h : Hart) (r : Reg) : (h.armX r).refusal = h.refusal := (congrArg Hart.refusal (h.armX_frame r) :)
@[simp] theorem Hart.armX_retires (h : Hart) (r : Reg) : (h.armX r).retires = h.retires := (congrArg Hart.retires (h.armX_frame r) :)
@[simp] theorem Hart.armX_heldCause (h : Hart) (r : Reg) : (h.armX r).heldCause = h.heldCause := (congrArg Hart.heldCause (h.armX_frame r) :)
@[simp] theorem Hart.armX_heldTval (h : Hart) (r : Reg) : (h.armX r).heldTval = h.heldTval := (congrArg Hart.heldTval (h.armX_frame r) :)
@[simp] theorem Hart.armX_reqd (h : Hart) (r : Reg) : (h.armX r).reqd = h.reqd := (congrArg Hart.reqd (h.armX_frame r) :)
@[simp] theorem Hart.armX_repd (h : Hart) (r : Reg) : (h.armX r).repd = h.repd := (congrArg Hart.repd (h.armX_frame r) :)
@[simp] theorem Hart.armX_sendq (h : Hart) (r : Reg) : (h.armX r).sendq = h.sendq := (congrArg Hart.sendq (h.armX_frame r) :)
@[simp] theorem Hart.armX_utvec (h : Hart) (r : Reg) : (h.armX r).utvec = h.utvec := (congrArg Hart.utvec (h.armX_frame r) :)
@[simp] theorem Hart.armX_uepc (h : Hart) (r : Reg) : (h.armX r).uepc = h.uepc := (congrArg Hart.uepc (h.armX_frame r) :)
@[simp] theorem Hart.armX_ucause (h : Hart) (r : Reg) : (h.armX r).ucause = h.ucause := (congrArg Hart.ucause (h.armX_frame r) :)
@[simp] theorem Hart.armX_utval (h : Hart) (r : Reg) : (h.armX r).utval = h.utval := (congrArg Hart.utval (h.armX_frame r) :)
@[simp] theorem Hart.armX_udeleg (h : Hart) (r : Reg) : (h.armX r).udeleg = h.udeleg := (congrArg Hart.udeleg (h.armX_frame r) :)
@[simp] theorem Hart.armX_tdeleg (h : Hart) (r : Reg) : (h.armX r).tdeleg = h.tdeleg := (congrArg Hart.tdeleg (h.armX_frame r) :)
@[simp] theorem Hart.armX_status (h : Hart) (r : Reg) : (h.armX r).status = h.status := (congrArg Hart.status (h.armX_frame r) :)
@[simp] theorem Hart.armX_sregs (h : Hart) (r : Reg) : (h.armX r).sregs = h.sregs := (congrArg Hart.sregs (h.armX_frame r) :)
@[simp] theorem Hart.armX_hstatus (h : Hart) (r : Reg) : (h.armX r).hstatus = h.hstatus := (congrArg Hart.hstatus (h.armX_frame r) :)
@[simp] theorem Hart.armX_hregs (h : Hart) (r : Reg) : (h.armX r).hregs = h.hregs := (congrArg Hart.hregs (h.armX_frame r) :)
@[simp] theorem Hart.armX_mstatus (h : Hart) (r : Reg) : (h.armX r).mstatus = h.mstatus := (congrArg Hart.mstatus (h.armX_frame r) :)
@[simp] theorem Hart.armX_mregs (h : Hart) (r : Reg) : (h.armX r).mregs = h.mregs := (congrArg Hart.mregs (h.armX_frame r) :)
@[simp] theorem Hart.armX_asid (h : Hart) (r : Reg) : (h.armX r).asid = h.asid := (congrArg Hart.asid (h.armX_frame r) :)
@[simp] theorem Hart.armX_ptroot (h : Hart) (r : Reg) : (h.armX r).ptroot = h.ptroot := (congrArg Hart.ptroot (h.armX_frame r) :)
@[simp] theorem Hart.armX_vmid (h : Hart) (r : Reg) : (h.armX r).vmid = h.vmid := (congrArg Hart.vmid (h.armX_frame r) :)
@[simp] theorem Hart.armX_s2root (h : Hart) (r : Reg) : (h.armX r).s2root = h.s2root := (congrArg Hart.s2root (h.armX_frame r) :)
@[simp] theorem Hart.armX_stmap (h : Hart) (r : Reg) : (h.armX r).stmap = h.stmap := (congrArg Hart.stmap (h.armX_frame r) :)
@[simp] theorem Hart.armX_pmc (h : Hart) (r : Reg) : (h.armX r).pmc = h.pmc := (congrArg Hart.pmc (h.armX_frame r) :)
@[simp] theorem Hart.armX_pmsel (h : Hart) (r : Reg) : (h.armX r).pmsel = h.pmsel := (congrArg Hart.pmsel (h.armX_frame r) :)
@[simp] theorem Hart.armX_rclass (h : Hart) (r : Reg) : (h.armX r).rclass = h.rclass := (congrArg Hart.rclass (h.armX_frame r) :)
@[simp] theorem Hart.armX_ptviol (h : Hart) (r : Reg) : (h.armX r).ptviol = h.ptviol := (congrArg Hart.ptviol (h.armX_frame r) :)
@[simp] theorem Hart.armX_wid (h : Hart) (r : Reg) : (h.armX r).wid = h.wid := (congrArg Hart.wid (h.armX_frame r) :)
@[simp] theorem Hart.armX_widf (h : Hart) (r : Reg) : (h.armX r).widf = h.widf := (congrArg Hart.widf (h.armX_frame r) :)
@[simp] theorem Hart.armX_launchId (h : Hart) (r : Reg) : (h.armX r).launchId = h.launchId := (congrArg Hart.launchId (h.armX_frame r) :)
@[simp] theorem Hart.armX_nthreads (h : Hart) (r : Reg) : (h.armX r).nthreads = h.nthreads := (congrArg Hart.nthreads (h.armX_frame r) :)
@[simp] theorem Hart.armX_larg0 (h : Hart) (r : Reg) : (h.armX r).larg0 = h.larg0 := (congrArg Hart.larg0 (h.armX_frame r) :)
@[simp] theorem Hart.armX_larg1 (h : Hart) (r : Reg) : (h.armX r).larg1 = h.larg1 := (congrArg Hart.larg1 (h.armX_frame r) :)
@[simp] theorem Hart.armX_launch (h : Hart) (r : Reg) : (h.armX r).launch = h.launch := (congrArg Hart.launch (h.armX_frame r) :)
@[simp] theorem Hart.armX_hmsg (h : Hart) (r : Reg) : (h.armX r).hmsg = h.hmsg := (congrArg Hart.hmsg (h.armX_frame r) :)
@[simp] theorem Hart.armX_wdog (h : Hart) (r : Reg) : (h.armX r).wdog = h.wdog := (congrArg Hart.wdog (h.armX_frame r) :)
@[simp] theorem Hart.armX_grace (h : Hart) (r : Reg) : (h.armX r).grace = h.grace := (congrArg Hart.grace (h.armX_frame r) :)
@[simp] theorem Hart.armX_order (h : Hart) (r : Reg) : (h.armX r).order = h.order := (congrArg Hart.order (h.armX_frame r) :)
@[simp] theorem Hart.armX_msgStamp (h : Hart) (r : Reg) : (h.armX r).msgStamp = h.msgStamp := (congrArg Hart.msgStamp (h.armX_frame r) :)
@[simp] theorem Hart.armX_handles (h : Hart) (r : Reg) : (h.armX r).handles = h.handles := (congrArg Hart.handles (h.armX_frame r) :)
@[simp] theorem Hart.armX_packet (h : Hart) (r : Reg) : (h.armX r).packet = h.packet := (congrArg Hart.packet (h.armX_frame r) :)
@[simp] theorem Hart.armX_packetFrom (h : Hart) (r : Reg) : (h.armX r).packetFrom = h.packetFrom := (congrArg Hart.packetFrom (h.armX_frame r) :)
@[simp] theorem Hart.armX_packetCons (h : Hart) (r : Reg) : (h.armX r).packetCons = h.packetCons := (congrArg Hart.packetCons (h.armX_frame r) :)
@[simp] theorem Hart.armX_pend (h : Hart) (r : Reg) : (h.armX r).pend = h.pend := (congrArg Hart.pend (h.armX_frame r) :)
@[simp] theorem Hart.armX_hold (h : Hart) (r : Reg) : (h.armX r).hold = h.hold := (congrArg Hart.hold (h.armX_frame r) :)
@[simp] theorem Hart.armX_holds (h : Hart) (r : Reg) : (h.armX r).holds = h.holds := (congrArg Hart.holds (h.armX_frame r) :)
@[simp] theorem Hart.armX_loads (h : Hart) (r : Reg) : (h.armX r).loads = h.loads := (congrArg Hart.loads (h.armX_frame r) :)
@[simp] theorem Hart.armX_sigCur (h : Hart) (r : Reg) : (h.armX r).sigCur = h.sigCur := (congrArg Hart.sigCur (h.armX_frame r) :)
@[simp] theorem Hart.armX_sigPrev (h : Hart) (r : Reg) : (h.armX r).sigPrev = h.sigPrev := (congrArg Hart.sigPrev (h.armX_frame r) :)
@[simp] theorem Hart.armX_abuf (h : Hart) (r : Reg) : (h.armX r).abuf = h.abuf := (congrArg Hart.abuf (h.armX_frame r) :)
@[simp] theorem Hart.armX_unrollable (h : Hart) (r : Reg) : (h.armX r).unrollable = h.unrollable := (congrArg Hart.unrollable (h.armX_frame r) :)
@[simp] theorem Hart.armX_heldFor (h : Hart) (r : Reg) : (h.armX r).heldFor = h.heldFor := (congrArg Hart.heldFor (h.armX_frame r) :)
@[simp] theorem Hart.armX_popped (h : Hart) (r : Reg) : (h.armX r).popped = h.popped := (congrArg Hart.popped (h.armX_frame r) :)
@[simp] theorem Hart.armX_past (h : Hart) (r : Reg) : (h.armX r).past = h.past := (congrArg Hart.past (h.armX_frame r) :)
@[simp] theorem Hart.armX_pure (h : Hart) (r : Reg) : (h.armX r).pure = h.pure := (congrArg Hart.pure (h.armX_frame r) :)
@[simp] theorem Hart.armX_engines (h : Hart) (r : Reg) : (h.armX r).engines = h.engines := (congrArg Hart.engines (h.armX_frame r) :)
@[simp] theorem Hart.armX_startTrap (h : Hart) (r : Reg) : (h.armX r).startTrap = h.startTrap := (congrArg Hart.startTrap (h.armX_frame r) :)

/-- armV changes nothing but the fields named. -/
theorem Hart.armV_frame (h : Hart) (r : Reg) :
    h.armV r = { h with vready := (h.armV r).vready } := rfl
@[simp] theorem Hart.armV_x (h : Hart) (r : Reg) : (h.armV r).x = h.x := (congrArg Hart.x (h.armV_frame r) :)
@[simp] theorem Hart.armV_v (h : Hart) (r : Reg) : (h.armV r).v = h.v := (congrArg Hart.v (h.armV_frame r) :)
@[simp] theorem Hart.armV_m (h : Hart) (r : Reg) : (h.armV r).m = h.m := (congrArg Hart.m (h.armV_frame r) :)
@[simp] theorem Hart.armV_xready (h : Hart) (r : Reg) : (h.armV r).xready = h.xready := (congrArg Hart.xready (h.armV_frame r) :)
@[simp] theorem Hart.armV_pc (h : Hart) (r : Reg) : (h.armV r).pc = h.pc := (congrArg Hart.pc (h.armV_frame r) :)
@[simp] theorem Hart.armV_mode (h : Hart) (r : Reg) : (h.armV r).mode = h.mode := (congrArg Hart.mode (h.armV_frame r) :)
@[simp] theorem Hart.armV_slot (h : Hart) (r : Reg) : (h.armV r).slot = h.slot := (congrArg Hart.slot (h.armV_frame r) :)
@[simp] theorem Hart.armV_tagCtr (h : Hart) (r : Reg) : (h.armV r).tagCtr = h.tagCtr := (congrArg Hart.tagCtr (h.armV_frame r) :)
@[simp] theorem Hart.armV_tag (h : Hart) (r : Reg) : (h.armV r).tag = h.tag := (congrArg Hart.tag (h.armV_frame r) :)
@[simp] theorem Hart.armV_frozen (h : Hart) (r : Reg) : (h.armV r).frozen = h.frozen := (congrArg Hart.frozen (h.armV_frame r) :)
@[simp] theorem Hart.armV_froze (h : Hart) (r : Reg) : (h.armV r).froze = h.froze := (congrArg Hart.froze (h.armV_frame r) :)
@[simp] theorem Hart.armV_frozeAt (h : Hart) (r : Reg) : (h.armV r).frozeAt = h.frozeAt := (congrArg Hart.frozeAt (h.armV_frame r) :)
@[simp] theorem Hart.armV_thawDue (h : Hart) (r : Reg) : (h.armV r).thawDue = h.thawDue := (congrArg Hart.thawDue (h.armV_frame r) :)
@[simp] theorem Hart.armV_thawed (h : Hart) (r : Reg) : (h.armV r).thawed = h.thawed := (congrArg Hart.thawed (h.armV_frame r) :)
@[simp] theorem Hart.armV_idle (h : Hart) (r : Reg) : (h.armV r).idle = h.idle := (congrArg Hart.idle (h.armV_frame r) :)
@[simp] theorem Hart.armV_yielded (h : Hart) (r : Reg) : (h.armV r).yielded = h.yielded := (congrArg Hart.yielded (h.armV_frame r) :)
@[simp] theorem Hart.armV_stall (h : Hart) (r : Reg) : (h.armV r).stall = h.stall := (congrArg Hart.stall (h.armV_frame r) :)
@[simp] theorem Hart.armV_blk (h : Hart) (r : Reg) : (h.armV r).blk = h.blk := (congrArg Hart.blk (h.armV_frame r) :)
@[simp] theorem Hart.armV_vtype (h : Hart) (r : Reg) : (h.armV r).vtype = h.vtype := (congrArg Hart.vtype (h.armV_frame r) :)
@[simp] theorem Hart.armV_unack (h : Hart) (r : Reg) : (h.armV r).unack = h.unack := (congrArg Hart.unack (h.armV_frame r) :)
@[simp] theorem Hart.armV_landCode (h : Hart) (r : Reg) : (h.armV r).landCode = h.landCode := (congrArg Hart.landCode (h.armV_frame r) :)
@[simp] theorem Hart.armV_landMiss (h : Hart) (r : Reg) : (h.armV r).landMiss = h.landMiss := (congrArg Hart.landMiss (h.armV_frame r) :)
@[simp] theorem Hart.armV_landLoc (h : Hart) (r : Reg) : (h.armV r).landLoc = h.landLoc := (congrArg Hart.landLoc (h.armV_frame r) :)
@[simp] theorem Hart.armV_landCnt (h : Hart) (r : Reg) : (h.armV r).landCnt = h.landCnt := (congrArg Hart.landCnt (h.armV_frame r) :)
@[simp] theorem Hart.armV_refusal (h : Hart) (r : Reg) : (h.armV r).refusal = h.refusal := (congrArg Hart.refusal (h.armV_frame r) :)
@[simp] theorem Hart.armV_retires (h : Hart) (r : Reg) : (h.armV r).retires = h.retires := (congrArg Hart.retires (h.armV_frame r) :)
@[simp] theorem Hart.armV_heldCause (h : Hart) (r : Reg) : (h.armV r).heldCause = h.heldCause := (congrArg Hart.heldCause (h.armV_frame r) :)
@[simp] theorem Hart.armV_heldTval (h : Hart) (r : Reg) : (h.armV r).heldTval = h.heldTval := (congrArg Hart.heldTval (h.armV_frame r) :)
@[simp] theorem Hart.armV_reqd (h : Hart) (r : Reg) : (h.armV r).reqd = h.reqd := (congrArg Hart.reqd (h.armV_frame r) :)
@[simp] theorem Hart.armV_repd (h : Hart) (r : Reg) : (h.armV r).repd = h.repd := (congrArg Hart.repd (h.armV_frame r) :)
@[simp] theorem Hart.armV_sendq (h : Hart) (r : Reg) : (h.armV r).sendq = h.sendq := (congrArg Hart.sendq (h.armV_frame r) :)
@[simp] theorem Hart.armV_utvec (h : Hart) (r : Reg) : (h.armV r).utvec = h.utvec := (congrArg Hart.utvec (h.armV_frame r) :)
@[simp] theorem Hart.armV_uepc (h : Hart) (r : Reg) : (h.armV r).uepc = h.uepc := (congrArg Hart.uepc (h.armV_frame r) :)
@[simp] theorem Hart.armV_ucause (h : Hart) (r : Reg) : (h.armV r).ucause = h.ucause := (congrArg Hart.ucause (h.armV_frame r) :)
@[simp] theorem Hart.armV_utval (h : Hart) (r : Reg) : (h.armV r).utval = h.utval := (congrArg Hart.utval (h.armV_frame r) :)
@[simp] theorem Hart.armV_udeleg (h : Hart) (r : Reg) : (h.armV r).udeleg = h.udeleg := (congrArg Hart.udeleg (h.armV_frame r) :)
@[simp] theorem Hart.armV_tdeleg (h : Hart) (r : Reg) : (h.armV r).tdeleg = h.tdeleg := (congrArg Hart.tdeleg (h.armV_frame r) :)
@[simp] theorem Hart.armV_status (h : Hart) (r : Reg) : (h.armV r).status = h.status := (congrArg Hart.status (h.armV_frame r) :)
@[simp] theorem Hart.armV_sregs (h : Hart) (r : Reg) : (h.armV r).sregs = h.sregs := (congrArg Hart.sregs (h.armV_frame r) :)
@[simp] theorem Hart.armV_hstatus (h : Hart) (r : Reg) : (h.armV r).hstatus = h.hstatus := (congrArg Hart.hstatus (h.armV_frame r) :)
@[simp] theorem Hart.armV_hregs (h : Hart) (r : Reg) : (h.armV r).hregs = h.hregs := (congrArg Hart.hregs (h.armV_frame r) :)
@[simp] theorem Hart.armV_mstatus (h : Hart) (r : Reg) : (h.armV r).mstatus = h.mstatus := (congrArg Hart.mstatus (h.armV_frame r) :)
@[simp] theorem Hart.armV_mregs (h : Hart) (r : Reg) : (h.armV r).mregs = h.mregs := (congrArg Hart.mregs (h.armV_frame r) :)
@[simp] theorem Hart.armV_asid (h : Hart) (r : Reg) : (h.armV r).asid = h.asid := (congrArg Hart.asid (h.armV_frame r) :)
@[simp] theorem Hart.armV_ptroot (h : Hart) (r : Reg) : (h.armV r).ptroot = h.ptroot := (congrArg Hart.ptroot (h.armV_frame r) :)
@[simp] theorem Hart.armV_vmid (h : Hart) (r : Reg) : (h.armV r).vmid = h.vmid := (congrArg Hart.vmid (h.armV_frame r) :)
@[simp] theorem Hart.armV_s2root (h : Hart) (r : Reg) : (h.armV r).s2root = h.s2root := (congrArg Hart.s2root (h.armV_frame r) :)
@[simp] theorem Hart.armV_stmap (h : Hart) (r : Reg) : (h.armV r).stmap = h.stmap := (congrArg Hart.stmap (h.armV_frame r) :)
@[simp] theorem Hart.armV_pmc (h : Hart) (r : Reg) : (h.armV r).pmc = h.pmc := (congrArg Hart.pmc (h.armV_frame r) :)
@[simp] theorem Hart.armV_pmsel (h : Hart) (r : Reg) : (h.armV r).pmsel = h.pmsel := (congrArg Hart.pmsel (h.armV_frame r) :)
@[simp] theorem Hart.armV_rclass (h : Hart) (r : Reg) : (h.armV r).rclass = h.rclass := (congrArg Hart.rclass (h.armV_frame r) :)
@[simp] theorem Hart.armV_ptviol (h : Hart) (r : Reg) : (h.armV r).ptviol = h.ptviol := (congrArg Hart.ptviol (h.armV_frame r) :)
@[simp] theorem Hart.armV_wid (h : Hart) (r : Reg) : (h.armV r).wid = h.wid := (congrArg Hart.wid (h.armV_frame r) :)
@[simp] theorem Hart.armV_widf (h : Hart) (r : Reg) : (h.armV r).widf = h.widf := (congrArg Hart.widf (h.armV_frame r) :)
@[simp] theorem Hart.armV_launchId (h : Hart) (r : Reg) : (h.armV r).launchId = h.launchId := (congrArg Hart.launchId (h.armV_frame r) :)
@[simp] theorem Hart.armV_nthreads (h : Hart) (r : Reg) : (h.armV r).nthreads = h.nthreads := (congrArg Hart.nthreads (h.armV_frame r) :)
@[simp] theorem Hart.armV_larg0 (h : Hart) (r : Reg) : (h.armV r).larg0 = h.larg0 := (congrArg Hart.larg0 (h.armV_frame r) :)
@[simp] theorem Hart.armV_larg1 (h : Hart) (r : Reg) : (h.armV r).larg1 = h.larg1 := (congrArg Hart.larg1 (h.armV_frame r) :)
@[simp] theorem Hart.armV_launch (h : Hart) (r : Reg) : (h.armV r).launch = h.launch := (congrArg Hart.launch (h.armV_frame r) :)
@[simp] theorem Hart.armV_hmsg (h : Hart) (r : Reg) : (h.armV r).hmsg = h.hmsg := (congrArg Hart.hmsg (h.armV_frame r) :)
@[simp] theorem Hart.armV_wdog (h : Hart) (r : Reg) : (h.armV r).wdog = h.wdog := (congrArg Hart.wdog (h.armV_frame r) :)
@[simp] theorem Hart.armV_grace (h : Hart) (r : Reg) : (h.armV r).grace = h.grace := (congrArg Hart.grace (h.armV_frame r) :)
@[simp] theorem Hart.armV_order (h : Hart) (r : Reg) : (h.armV r).order = h.order := (congrArg Hart.order (h.armV_frame r) :)
@[simp] theorem Hart.armV_msgStamp (h : Hart) (r : Reg) : (h.armV r).msgStamp = h.msgStamp := (congrArg Hart.msgStamp (h.armV_frame r) :)
@[simp] theorem Hart.armV_handles (h : Hart) (r : Reg) : (h.armV r).handles = h.handles := (congrArg Hart.handles (h.armV_frame r) :)
@[simp] theorem Hart.armV_packet (h : Hart) (r : Reg) : (h.armV r).packet = h.packet := (congrArg Hart.packet (h.armV_frame r) :)
@[simp] theorem Hart.armV_packetFrom (h : Hart) (r : Reg) : (h.armV r).packetFrom = h.packetFrom := (congrArg Hart.packetFrom (h.armV_frame r) :)
@[simp] theorem Hart.armV_packetCons (h : Hart) (r : Reg) : (h.armV r).packetCons = h.packetCons := (congrArg Hart.packetCons (h.armV_frame r) :)
@[simp] theorem Hart.armV_pend (h : Hart) (r : Reg) : (h.armV r).pend = h.pend := (congrArg Hart.pend (h.armV_frame r) :)
@[simp] theorem Hart.armV_hold (h : Hart) (r : Reg) : (h.armV r).hold = h.hold := (congrArg Hart.hold (h.armV_frame r) :)
@[simp] theorem Hart.armV_holds (h : Hart) (r : Reg) : (h.armV r).holds = h.holds := (congrArg Hart.holds (h.armV_frame r) :)
@[simp] theorem Hart.armV_loads (h : Hart) (r : Reg) : (h.armV r).loads = h.loads := (congrArg Hart.loads (h.armV_frame r) :)
@[simp] theorem Hart.armV_sigCur (h : Hart) (r : Reg) : (h.armV r).sigCur = h.sigCur := (congrArg Hart.sigCur (h.armV_frame r) :)
@[simp] theorem Hart.armV_sigPrev (h : Hart) (r : Reg) : (h.armV r).sigPrev = h.sigPrev := (congrArg Hart.sigPrev (h.armV_frame r) :)
@[simp] theorem Hart.armV_abuf (h : Hart) (r : Reg) : (h.armV r).abuf = h.abuf := (congrArg Hart.abuf (h.armV_frame r) :)
@[simp] theorem Hart.armV_unrollable (h : Hart) (r : Reg) : (h.armV r).unrollable = h.unrollable := (congrArg Hart.unrollable (h.armV_frame r) :)
@[simp] theorem Hart.armV_heldFor (h : Hart) (r : Reg) : (h.armV r).heldFor = h.heldFor := (congrArg Hart.heldFor (h.armV_frame r) :)
@[simp] theorem Hart.armV_popped (h : Hart) (r : Reg) : (h.armV r).popped = h.popped := (congrArg Hart.popped (h.armV_frame r) :)
@[simp] theorem Hart.armV_past (h : Hart) (r : Reg) : (h.armV r).past = h.past := (congrArg Hart.past (h.armV_frame r) :)
@[simp] theorem Hart.armV_pure (h : Hart) (r : Reg) : (h.armV r).pure = h.pure := (congrArg Hart.pure (h.armV_frame r) :)
@[simp] theorem Hart.armV_engines (h : Hart) (r : Reg) : (h.armV r).engines = h.engines := (congrArg Hart.engines (h.armV_frame r) :)
@[simp] theorem Hart.armV_startTrap (h : Hart) (r : Reg) : (h.armV r).startTrap = h.startTrap := (congrArg Hart.startTrap (h.armV_frame r) :)

/-- count changes nothing but the fields named. -/
theorem Hart.count_frame (h : Hart) (c n : Nat) :
    h.count c n = { h with pmc := (h.count c n).pmc } := by unfold Hart.count; split <;> rfl
@[simp] theorem Hart.count_x (h : Hart) (c n : Nat) : (h.count c n).x = h.x := (congrArg Hart.x (h.count_frame c n) :)
@[simp] theorem Hart.count_v (h : Hart) (c n : Nat) : (h.count c n).v = h.v := (congrArg Hart.v (h.count_frame c n) :)
@[simp] theorem Hart.count_m (h : Hart) (c n : Nat) : (h.count c n).m = h.m := (congrArg Hart.m (h.count_frame c n) :)
@[simp] theorem Hart.count_xready (h : Hart) (c n : Nat) : (h.count c n).xready = h.xready := (congrArg Hart.xready (h.count_frame c n) :)
@[simp] theorem Hart.count_vready (h : Hart) (c n : Nat) : (h.count c n).vready = h.vready := (congrArg Hart.vready (h.count_frame c n) :)
@[simp] theorem Hart.count_pc (h : Hart) (c n : Nat) : (h.count c n).pc = h.pc := (congrArg Hart.pc (h.count_frame c n) :)
@[simp] theorem Hart.count_mode (h : Hart) (c n : Nat) : (h.count c n).mode = h.mode := (congrArg Hart.mode (h.count_frame c n) :)
@[simp] theorem Hart.count_slot (h : Hart) (c n : Nat) : (h.count c n).slot = h.slot := (congrArg Hart.slot (h.count_frame c n) :)
@[simp] theorem Hart.count_tagCtr (h : Hart) (c n : Nat) : (h.count c n).tagCtr = h.tagCtr := (congrArg Hart.tagCtr (h.count_frame c n) :)
@[simp] theorem Hart.count_tag (h : Hart) (c n : Nat) : (h.count c n).tag = h.tag := (congrArg Hart.tag (h.count_frame c n) :)
@[simp] theorem Hart.count_frozen (h : Hart) (c n : Nat) : (h.count c n).frozen = h.frozen := (congrArg Hart.frozen (h.count_frame c n) :)
@[simp] theorem Hart.count_froze (h : Hart) (c n : Nat) : (h.count c n).froze = h.froze := (congrArg Hart.froze (h.count_frame c n) :)
@[simp] theorem Hart.count_frozeAt (h : Hart) (c n : Nat) : (h.count c n).frozeAt = h.frozeAt := (congrArg Hart.frozeAt (h.count_frame c n) :)
@[simp] theorem Hart.count_thawDue (h : Hart) (c n : Nat) : (h.count c n).thawDue = h.thawDue := (congrArg Hart.thawDue (h.count_frame c n) :)
@[simp] theorem Hart.count_thawed (h : Hart) (c n : Nat) : (h.count c n).thawed = h.thawed := (congrArg Hart.thawed (h.count_frame c n) :)
@[simp] theorem Hart.count_idle (h : Hart) (c n : Nat) : (h.count c n).idle = h.idle := (congrArg Hart.idle (h.count_frame c n) :)
@[simp] theorem Hart.count_yielded (h : Hart) (c n : Nat) : (h.count c n).yielded = h.yielded := (congrArg Hart.yielded (h.count_frame c n) :)
@[simp] theorem Hart.count_stall (h : Hart) (c n : Nat) : (h.count c n).stall = h.stall := (congrArg Hart.stall (h.count_frame c n) :)
@[simp] theorem Hart.count_blk (h : Hart) (c n : Nat) : (h.count c n).blk = h.blk := (congrArg Hart.blk (h.count_frame c n) :)
@[simp] theorem Hart.count_vtype (h : Hart) (c n : Nat) : (h.count c n).vtype = h.vtype := (congrArg Hart.vtype (h.count_frame c n) :)
@[simp] theorem Hart.count_unack (h : Hart) (c n : Nat) : (h.count c n).unack = h.unack := (congrArg Hart.unack (h.count_frame c n) :)
@[simp] theorem Hart.count_landCode (h : Hart) (c n : Nat) : (h.count c n).landCode = h.landCode := (congrArg Hart.landCode (h.count_frame c n) :)
@[simp] theorem Hart.count_landMiss (h : Hart) (c n : Nat) : (h.count c n).landMiss = h.landMiss := (congrArg Hart.landMiss (h.count_frame c n) :)
@[simp] theorem Hart.count_landLoc (h : Hart) (c n : Nat) : (h.count c n).landLoc = h.landLoc := (congrArg Hart.landLoc (h.count_frame c n) :)
@[simp] theorem Hart.count_landCnt (h : Hart) (c n : Nat) : (h.count c n).landCnt = h.landCnt := (congrArg Hart.landCnt (h.count_frame c n) :)
@[simp] theorem Hart.count_refusal (h : Hart) (c n : Nat) : (h.count c n).refusal = h.refusal := (congrArg Hart.refusal (h.count_frame c n) :)
@[simp] theorem Hart.count_retires (h : Hart) (c n : Nat) : (h.count c n).retires = h.retires := (congrArg Hart.retires (h.count_frame c n) :)
@[simp] theorem Hart.count_heldCause (h : Hart) (c n : Nat) : (h.count c n).heldCause = h.heldCause := (congrArg Hart.heldCause (h.count_frame c n) :)
@[simp] theorem Hart.count_heldTval (h : Hart) (c n : Nat) : (h.count c n).heldTval = h.heldTval := (congrArg Hart.heldTval (h.count_frame c n) :)
@[simp] theorem Hart.count_reqd (h : Hart) (c n : Nat) : (h.count c n).reqd = h.reqd := (congrArg Hart.reqd (h.count_frame c n) :)
@[simp] theorem Hart.count_repd (h : Hart) (c n : Nat) : (h.count c n).repd = h.repd := (congrArg Hart.repd (h.count_frame c n) :)
@[simp] theorem Hart.count_sendq (h : Hart) (c n : Nat) : (h.count c n).sendq = h.sendq := (congrArg Hart.sendq (h.count_frame c n) :)
@[simp] theorem Hart.count_utvec (h : Hart) (c n : Nat) : (h.count c n).utvec = h.utvec := (congrArg Hart.utvec (h.count_frame c n) :)
@[simp] theorem Hart.count_uepc (h : Hart) (c n : Nat) : (h.count c n).uepc = h.uepc := (congrArg Hart.uepc (h.count_frame c n) :)
@[simp] theorem Hart.count_ucause (h : Hart) (c n : Nat) : (h.count c n).ucause = h.ucause := (congrArg Hart.ucause (h.count_frame c n) :)
@[simp] theorem Hart.count_utval (h : Hart) (c n : Nat) : (h.count c n).utval = h.utval := (congrArg Hart.utval (h.count_frame c n) :)
@[simp] theorem Hart.count_udeleg (h : Hart) (c n : Nat) : (h.count c n).udeleg = h.udeleg := (congrArg Hart.udeleg (h.count_frame c n) :)
@[simp] theorem Hart.count_tdeleg (h : Hart) (c n : Nat) : (h.count c n).tdeleg = h.tdeleg := (congrArg Hart.tdeleg (h.count_frame c n) :)
@[simp] theorem Hart.count_status (h : Hart) (c n : Nat) : (h.count c n).status = h.status := (congrArg Hart.status (h.count_frame c n) :)
@[simp] theorem Hart.count_sregs (h : Hart) (c n : Nat) : (h.count c n).sregs = h.sregs := (congrArg Hart.sregs (h.count_frame c n) :)
@[simp] theorem Hart.count_hstatus (h : Hart) (c n : Nat) : (h.count c n).hstatus = h.hstatus := (congrArg Hart.hstatus (h.count_frame c n) :)
@[simp] theorem Hart.count_hregs (h : Hart) (c n : Nat) : (h.count c n).hregs = h.hregs := (congrArg Hart.hregs (h.count_frame c n) :)
@[simp] theorem Hart.count_mstatus (h : Hart) (c n : Nat) : (h.count c n).mstatus = h.mstatus := (congrArg Hart.mstatus (h.count_frame c n) :)
@[simp] theorem Hart.count_mregs (h : Hart) (c n : Nat) : (h.count c n).mregs = h.mregs := (congrArg Hart.mregs (h.count_frame c n) :)
@[simp] theorem Hart.count_asid (h : Hart) (c n : Nat) : (h.count c n).asid = h.asid := (congrArg Hart.asid (h.count_frame c n) :)
@[simp] theorem Hart.count_ptroot (h : Hart) (c n : Nat) : (h.count c n).ptroot = h.ptroot := (congrArg Hart.ptroot (h.count_frame c n) :)
@[simp] theorem Hart.count_vmid (h : Hart) (c n : Nat) : (h.count c n).vmid = h.vmid := (congrArg Hart.vmid (h.count_frame c n) :)
@[simp] theorem Hart.count_s2root (h : Hart) (c n : Nat) : (h.count c n).s2root = h.s2root := (congrArg Hart.s2root (h.count_frame c n) :)
@[simp] theorem Hart.count_stmap (h : Hart) (c n : Nat) : (h.count c n).stmap = h.stmap := (congrArg Hart.stmap (h.count_frame c n) :)
@[simp] theorem Hart.count_pmsel (h : Hart) (c n : Nat) : (h.count c n).pmsel = h.pmsel := (congrArg Hart.pmsel (h.count_frame c n) :)
@[simp] theorem Hart.count_rclass (h : Hart) (c n : Nat) : (h.count c n).rclass = h.rclass := (congrArg Hart.rclass (h.count_frame c n) :)
@[simp] theorem Hart.count_ptviol (h : Hart) (c n : Nat) : (h.count c n).ptviol = h.ptviol := (congrArg Hart.ptviol (h.count_frame c n) :)
@[simp] theorem Hart.count_wid (h : Hart) (c n : Nat) : (h.count c n).wid = h.wid := (congrArg Hart.wid (h.count_frame c n) :)
@[simp] theorem Hart.count_widf (h : Hart) (c n : Nat) : (h.count c n).widf = h.widf := (congrArg Hart.widf (h.count_frame c n) :)
@[simp] theorem Hart.count_launchId (h : Hart) (c n : Nat) : (h.count c n).launchId = h.launchId := (congrArg Hart.launchId (h.count_frame c n) :)
@[simp] theorem Hart.count_nthreads (h : Hart) (c n : Nat) : (h.count c n).nthreads = h.nthreads := (congrArg Hart.nthreads (h.count_frame c n) :)
@[simp] theorem Hart.count_larg0 (h : Hart) (c n : Nat) : (h.count c n).larg0 = h.larg0 := (congrArg Hart.larg0 (h.count_frame c n) :)
@[simp] theorem Hart.count_larg1 (h : Hart) (c n : Nat) : (h.count c n).larg1 = h.larg1 := (congrArg Hart.larg1 (h.count_frame c n) :)
@[simp] theorem Hart.count_launch (h : Hart) (c n : Nat) : (h.count c n).launch = h.launch := (congrArg Hart.launch (h.count_frame c n) :)
@[simp] theorem Hart.count_hmsg (h : Hart) (c n : Nat) : (h.count c n).hmsg = h.hmsg := (congrArg Hart.hmsg (h.count_frame c n) :)
@[simp] theorem Hart.count_wdog (h : Hart) (c n : Nat) : (h.count c n).wdog = h.wdog := (congrArg Hart.wdog (h.count_frame c n) :)
@[simp] theorem Hart.count_grace (h : Hart) (c n : Nat) : (h.count c n).grace = h.grace := (congrArg Hart.grace (h.count_frame c n) :)
@[simp] theorem Hart.count_order (h : Hart) (c n : Nat) : (h.count c n).order = h.order := (congrArg Hart.order (h.count_frame c n) :)
@[simp] theorem Hart.count_msgStamp (h : Hart) (c n : Nat) : (h.count c n).msgStamp = h.msgStamp := (congrArg Hart.msgStamp (h.count_frame c n) :)
@[simp] theorem Hart.count_handles (h : Hart) (c n : Nat) : (h.count c n).handles = h.handles := (congrArg Hart.handles (h.count_frame c n) :)
@[simp] theorem Hart.count_packet (h : Hart) (c n : Nat) : (h.count c n).packet = h.packet := (congrArg Hart.packet (h.count_frame c n) :)
@[simp] theorem Hart.count_packetFrom (h : Hart) (c n : Nat) : (h.count c n).packetFrom = h.packetFrom := (congrArg Hart.packetFrom (h.count_frame c n) :)
@[simp] theorem Hart.count_packetCons (h : Hart) (c n : Nat) : (h.count c n).packetCons = h.packetCons := (congrArg Hart.packetCons (h.count_frame c n) :)
@[simp] theorem Hart.count_pend (h : Hart) (c n : Nat) : (h.count c n).pend = h.pend := (congrArg Hart.pend (h.count_frame c n) :)
@[simp] theorem Hart.count_hold (h : Hart) (c n : Nat) : (h.count c n).hold = h.hold := (congrArg Hart.hold (h.count_frame c n) :)
@[simp] theorem Hart.count_holds (h : Hart) (c n : Nat) : (h.count c n).holds = h.holds := (congrArg Hart.holds (h.count_frame c n) :)
@[simp] theorem Hart.count_loads (h : Hart) (c n : Nat) : (h.count c n).loads = h.loads := (congrArg Hart.loads (h.count_frame c n) :)
@[simp] theorem Hart.count_sigCur (h : Hart) (c n : Nat) : (h.count c n).sigCur = h.sigCur := (congrArg Hart.sigCur (h.count_frame c n) :)
@[simp] theorem Hart.count_sigPrev (h : Hart) (c n : Nat) : (h.count c n).sigPrev = h.sigPrev := (congrArg Hart.sigPrev (h.count_frame c n) :)
@[simp] theorem Hart.count_abuf (h : Hart) (c n : Nat) : (h.count c n).abuf = h.abuf := (congrArg Hart.abuf (h.count_frame c n) :)
@[simp] theorem Hart.count_unrollable (h : Hart) (c n : Nat) : (h.count c n).unrollable = h.unrollable := (congrArg Hart.unrollable (h.count_frame c n) :)
@[simp] theorem Hart.count_heldFor (h : Hart) (c n : Nat) : (h.count c n).heldFor = h.heldFor := (congrArg Hart.heldFor (h.count_frame c n) :)
@[simp] theorem Hart.count_popped (h : Hart) (c n : Nat) : (h.count c n).popped = h.popped := (congrArg Hart.popped (h.count_frame c n) :)
@[simp] theorem Hart.count_past (h : Hart) (c n : Nat) : (h.count c n).past = h.past := (congrArg Hart.past (h.count_frame c n) :)
@[simp] theorem Hart.count_pure (h : Hart) (c n : Nat) : (h.count c n).pure = h.pure := (congrArg Hart.pure (h.count_frame c n) :)
@[simp] theorem Hart.count_engines (h : Hart) (c n : Nat) : (h.count c n).engines = h.engines := (congrArg Hart.engines (h.count_frame c n) :)
@[simp] theorem Hart.count_startTrap (h : Hart) (c n : Nat) : (h.count c n).startTrap = h.startTrap := (congrArg Hart.startTrap (h.count_frame c n) :)

/-- retire changes nothing but the fields named. -/
theorem Hart.retire_frame (h : Hart) (n : Nat) :
    h.retire n = { h with pc := (h.retire n).pc, stall := (h.retire n).stall, pmc := (h.retire n).pmc } := by unfold Hart.retire; rw [Hart.count_frame, Hart.count_frame]
@[simp] theorem Hart.retire_x (h : Hart) (n : Nat) : (h.retire n).x = h.x := (congrArg Hart.x (h.retire_frame n) :)
@[simp] theorem Hart.retire_v (h : Hart) (n : Nat) : (h.retire n).v = h.v := (congrArg Hart.v (h.retire_frame n) :)
@[simp] theorem Hart.retire_m (h : Hart) (n : Nat) : (h.retire n).m = h.m := (congrArg Hart.m (h.retire_frame n) :)
@[simp] theorem Hart.retire_xready (h : Hart) (n : Nat) : (h.retire n).xready = h.xready := (congrArg Hart.xready (h.retire_frame n) :)
@[simp] theorem Hart.retire_vready (h : Hart) (n : Nat) : (h.retire n).vready = h.vready := (congrArg Hart.vready (h.retire_frame n) :)
@[simp] theorem Hart.retire_mode (h : Hart) (n : Nat) : (h.retire n).mode = h.mode := (congrArg Hart.mode (h.retire_frame n) :)
@[simp] theorem Hart.retire_slot (h : Hart) (n : Nat) : (h.retire n).slot = h.slot := (congrArg Hart.slot (h.retire_frame n) :)
@[simp] theorem Hart.retire_tagCtr (h : Hart) (n : Nat) : (h.retire n).tagCtr = h.tagCtr := (congrArg Hart.tagCtr (h.retire_frame n) :)
@[simp] theorem Hart.retire_tag (h : Hart) (n : Nat) : (h.retire n).tag = h.tag := (congrArg Hart.tag (h.retire_frame n) :)
@[simp] theorem Hart.retire_frozen (h : Hart) (n : Nat) : (h.retire n).frozen = h.frozen := (congrArg Hart.frozen (h.retire_frame n) :)
@[simp] theorem Hart.retire_froze (h : Hart) (n : Nat) : (h.retire n).froze = h.froze := (congrArg Hart.froze (h.retire_frame n) :)
@[simp] theorem Hart.retire_frozeAt (h : Hart) (n : Nat) : (h.retire n).frozeAt = h.frozeAt := (congrArg Hart.frozeAt (h.retire_frame n) :)
@[simp] theorem Hart.retire_thawDue (h : Hart) (n : Nat) : (h.retire n).thawDue = h.thawDue := (congrArg Hart.thawDue (h.retire_frame n) :)
@[simp] theorem Hart.retire_thawed (h : Hart) (n : Nat) : (h.retire n).thawed = h.thawed := (congrArg Hart.thawed (h.retire_frame n) :)
@[simp] theorem Hart.retire_idle (h : Hart) (n : Nat) : (h.retire n).idle = h.idle := (congrArg Hart.idle (h.retire_frame n) :)
@[simp] theorem Hart.retire_yielded (h : Hart) (n : Nat) : (h.retire n).yielded = h.yielded := (congrArg Hart.yielded (h.retire_frame n) :)
@[simp] theorem Hart.retire_blk (h : Hart) (n : Nat) : (h.retire n).blk = h.blk := (congrArg Hart.blk (h.retire_frame n) :)
@[simp] theorem Hart.retire_vtype (h : Hart) (n : Nat) : (h.retire n).vtype = h.vtype := (congrArg Hart.vtype (h.retire_frame n) :)
@[simp] theorem Hart.retire_unack (h : Hart) (n : Nat) : (h.retire n).unack = h.unack := (congrArg Hart.unack (h.retire_frame n) :)
@[simp] theorem Hart.retire_landCode (h : Hart) (n : Nat) : (h.retire n).landCode = h.landCode := (congrArg Hart.landCode (h.retire_frame n) :)
@[simp] theorem Hart.retire_landMiss (h : Hart) (n : Nat) : (h.retire n).landMiss = h.landMiss := (congrArg Hart.landMiss (h.retire_frame n) :)
@[simp] theorem Hart.retire_landLoc (h : Hart) (n : Nat) : (h.retire n).landLoc = h.landLoc := (congrArg Hart.landLoc (h.retire_frame n) :)
@[simp] theorem Hart.retire_landCnt (h : Hart) (n : Nat) : (h.retire n).landCnt = h.landCnt := (congrArg Hart.landCnt (h.retire_frame n) :)
@[simp] theorem Hart.retire_refusal (h : Hart) (n : Nat) : (h.retire n).refusal = h.refusal := (congrArg Hart.refusal (h.retire_frame n) :)
@[simp] theorem Hart.retire_retires (h : Hart) (n : Nat) : (h.retire n).retires = h.retires := (congrArg Hart.retires (h.retire_frame n) :)
@[simp] theorem Hart.retire_heldCause (h : Hart) (n : Nat) : (h.retire n).heldCause = h.heldCause := (congrArg Hart.heldCause (h.retire_frame n) :)
@[simp] theorem Hart.retire_heldTval (h : Hart) (n : Nat) : (h.retire n).heldTval = h.heldTval := (congrArg Hart.heldTval (h.retire_frame n) :)
@[simp] theorem Hart.retire_reqd (h : Hart) (n : Nat) : (h.retire n).reqd = h.reqd := (congrArg Hart.reqd (h.retire_frame n) :)
@[simp] theorem Hart.retire_repd (h : Hart) (n : Nat) : (h.retire n).repd = h.repd := (congrArg Hart.repd (h.retire_frame n) :)
@[simp] theorem Hart.retire_sendq (h : Hart) (n : Nat) : (h.retire n).sendq = h.sendq := (congrArg Hart.sendq (h.retire_frame n) :)
@[simp] theorem Hart.retire_utvec (h : Hart) (n : Nat) : (h.retire n).utvec = h.utvec := (congrArg Hart.utvec (h.retire_frame n) :)
@[simp] theorem Hart.retire_uepc (h : Hart) (n : Nat) : (h.retire n).uepc = h.uepc := (congrArg Hart.uepc (h.retire_frame n) :)
@[simp] theorem Hart.retire_ucause (h : Hart) (n : Nat) : (h.retire n).ucause = h.ucause := (congrArg Hart.ucause (h.retire_frame n) :)
@[simp] theorem Hart.retire_utval (h : Hart) (n : Nat) : (h.retire n).utval = h.utval := (congrArg Hart.utval (h.retire_frame n) :)
@[simp] theorem Hart.retire_udeleg (h : Hart) (n : Nat) : (h.retire n).udeleg = h.udeleg := (congrArg Hart.udeleg (h.retire_frame n) :)
@[simp] theorem Hart.retire_tdeleg (h : Hart) (n : Nat) : (h.retire n).tdeleg = h.tdeleg := (congrArg Hart.tdeleg (h.retire_frame n) :)
@[simp] theorem Hart.retire_status (h : Hart) (n : Nat) : (h.retire n).status = h.status := (congrArg Hart.status (h.retire_frame n) :)
@[simp] theorem Hart.retire_sregs (h : Hart) (n : Nat) : (h.retire n).sregs = h.sregs := (congrArg Hart.sregs (h.retire_frame n) :)
@[simp] theorem Hart.retire_hstatus (h : Hart) (n : Nat) : (h.retire n).hstatus = h.hstatus := (congrArg Hart.hstatus (h.retire_frame n) :)
@[simp] theorem Hart.retire_hregs (h : Hart) (n : Nat) : (h.retire n).hregs = h.hregs := (congrArg Hart.hregs (h.retire_frame n) :)
@[simp] theorem Hart.retire_mstatus (h : Hart) (n : Nat) : (h.retire n).mstatus = h.mstatus := (congrArg Hart.mstatus (h.retire_frame n) :)
@[simp] theorem Hart.retire_mregs (h : Hart) (n : Nat) : (h.retire n).mregs = h.mregs := (congrArg Hart.mregs (h.retire_frame n) :)
@[simp] theorem Hart.retire_asid (h : Hart) (n : Nat) : (h.retire n).asid = h.asid := (congrArg Hart.asid (h.retire_frame n) :)
@[simp] theorem Hart.retire_ptroot (h : Hart) (n : Nat) : (h.retire n).ptroot = h.ptroot := (congrArg Hart.ptroot (h.retire_frame n) :)
@[simp] theorem Hart.retire_vmid (h : Hart) (n : Nat) : (h.retire n).vmid = h.vmid := (congrArg Hart.vmid (h.retire_frame n) :)
@[simp] theorem Hart.retire_s2root (h : Hart) (n : Nat) : (h.retire n).s2root = h.s2root := (congrArg Hart.s2root (h.retire_frame n) :)
@[simp] theorem Hart.retire_stmap (h : Hart) (n : Nat) : (h.retire n).stmap = h.stmap := (congrArg Hart.stmap (h.retire_frame n) :)
@[simp] theorem Hart.retire_pmsel (h : Hart) (n : Nat) : (h.retire n).pmsel = h.pmsel := (congrArg Hart.pmsel (h.retire_frame n) :)
@[simp] theorem Hart.retire_rclass (h : Hart) (n : Nat) : (h.retire n).rclass = h.rclass := (congrArg Hart.rclass (h.retire_frame n) :)
@[simp] theorem Hart.retire_ptviol (h : Hart) (n : Nat) : (h.retire n).ptviol = h.ptviol := (congrArg Hart.ptviol (h.retire_frame n) :)
@[simp] theorem Hart.retire_wid (h : Hart) (n : Nat) : (h.retire n).wid = h.wid := (congrArg Hart.wid (h.retire_frame n) :)
@[simp] theorem Hart.retire_widf (h : Hart) (n : Nat) : (h.retire n).widf = h.widf := (congrArg Hart.widf (h.retire_frame n) :)
@[simp] theorem Hart.retire_launchId (h : Hart) (n : Nat) : (h.retire n).launchId = h.launchId := (congrArg Hart.launchId (h.retire_frame n) :)
@[simp] theorem Hart.retire_nthreads (h : Hart) (n : Nat) : (h.retire n).nthreads = h.nthreads := (congrArg Hart.nthreads (h.retire_frame n) :)
@[simp] theorem Hart.retire_larg0 (h : Hart) (n : Nat) : (h.retire n).larg0 = h.larg0 := (congrArg Hart.larg0 (h.retire_frame n) :)
@[simp] theorem Hart.retire_larg1 (h : Hart) (n : Nat) : (h.retire n).larg1 = h.larg1 := (congrArg Hart.larg1 (h.retire_frame n) :)
@[simp] theorem Hart.retire_launch (h : Hart) (n : Nat) : (h.retire n).launch = h.launch := (congrArg Hart.launch (h.retire_frame n) :)
@[simp] theorem Hart.retire_hmsg (h : Hart) (n : Nat) : (h.retire n).hmsg = h.hmsg := (congrArg Hart.hmsg (h.retire_frame n) :)
@[simp] theorem Hart.retire_wdog (h : Hart) (n : Nat) : (h.retire n).wdog = h.wdog := (congrArg Hart.wdog (h.retire_frame n) :)
@[simp] theorem Hart.retire_grace (h : Hart) (n : Nat) : (h.retire n).grace = h.grace := (congrArg Hart.grace (h.retire_frame n) :)
@[simp] theorem Hart.retire_order (h : Hart) (n : Nat) : (h.retire n).order = h.order := (congrArg Hart.order (h.retire_frame n) :)
@[simp] theorem Hart.retire_msgStamp (h : Hart) (n : Nat) : (h.retire n).msgStamp = h.msgStamp := (congrArg Hart.msgStamp (h.retire_frame n) :)
@[simp] theorem Hart.retire_handles (h : Hart) (n : Nat) : (h.retire n).handles = h.handles := (congrArg Hart.handles (h.retire_frame n) :)
@[simp] theorem Hart.retire_packet (h : Hart) (n : Nat) : (h.retire n).packet = h.packet := (congrArg Hart.packet (h.retire_frame n) :)
@[simp] theorem Hart.retire_packetFrom (h : Hart) (n : Nat) : (h.retire n).packetFrom = h.packetFrom := (congrArg Hart.packetFrom (h.retire_frame n) :)
@[simp] theorem Hart.retire_packetCons (h : Hart) (n : Nat) : (h.retire n).packetCons = h.packetCons := (congrArg Hart.packetCons (h.retire_frame n) :)
@[simp] theorem Hart.retire_pend (h : Hart) (n : Nat) : (h.retire n).pend = h.pend := (congrArg Hart.pend (h.retire_frame n) :)
@[simp] theorem Hart.retire_hold (h : Hart) (n : Nat) : (h.retire n).hold = h.hold := (congrArg Hart.hold (h.retire_frame n) :)
@[simp] theorem Hart.retire_holds (h : Hart) (n : Nat) : (h.retire n).holds = h.holds := (congrArg Hart.holds (h.retire_frame n) :)
@[simp] theorem Hart.retire_loads (h : Hart) (n : Nat) : (h.retire n).loads = h.loads := (congrArg Hart.loads (h.retire_frame n) :)
@[simp] theorem Hart.retire_sigCur (h : Hart) (n : Nat) : (h.retire n).sigCur = h.sigCur := (congrArg Hart.sigCur (h.retire_frame n) :)
@[simp] theorem Hart.retire_sigPrev (h : Hart) (n : Nat) : (h.retire n).sigPrev = h.sigPrev := (congrArg Hart.sigPrev (h.retire_frame n) :)
@[simp] theorem Hart.retire_abuf (h : Hart) (n : Nat) : (h.retire n).abuf = h.abuf := (congrArg Hart.abuf (h.retire_frame n) :)
@[simp] theorem Hart.retire_unrollable (h : Hart) (n : Nat) : (h.retire n).unrollable = h.unrollable := (congrArg Hart.unrollable (h.retire_frame n) :)
@[simp] theorem Hart.retire_heldFor (h : Hart) (n : Nat) : (h.retire n).heldFor = h.heldFor := (congrArg Hart.heldFor (h.retire_frame n) :)
@[simp] theorem Hart.retire_popped (h : Hart) (n : Nat) : (h.retire n).popped = h.popped := (congrArg Hart.popped (h.retire_frame n) :)
@[simp] theorem Hart.retire_past (h : Hart) (n : Nat) : (h.retire n).past = h.past := (congrArg Hart.past (h.retire_frame n) :)
@[simp] theorem Hart.retire_pure (h : Hart) (n : Nat) : (h.retire n).pure = h.pure := (congrArg Hart.pure (h.retire_frame n) :)
@[simp] theorem Hart.retire_engines (h : Hart) (n : Nat) : (h.retire n).engines = h.engines := (congrArg Hart.engines (h.retire_frame n) :)
@[simp] theorem Hart.retire_startTrap (h : Hart) (n : Nat) : (h.retire n).startTrap = h.startTrap := (congrArg Hart.startTrap (h.retire_frame n) :)

/-- jump changes nothing but the fields named. -/
theorem Hart.jump_frame (h : Hart) (p : Word) :
    h.jump p = { h with pc := (h.jump p).pc, stall := (h.jump p).stall, pmc := (h.jump p).pmc } := by unfold Hart.jump; rw [Hart.count_frame, Hart.count_frame]
@[simp] theorem Hart.jump_x (h : Hart) (p : Word) : (h.jump p).x = h.x := (congrArg Hart.x (h.jump_frame p) :)
@[simp] theorem Hart.jump_v (h : Hart) (p : Word) : (h.jump p).v = h.v := (congrArg Hart.v (h.jump_frame p) :)
@[simp] theorem Hart.jump_m (h : Hart) (p : Word) : (h.jump p).m = h.m := (congrArg Hart.m (h.jump_frame p) :)
@[simp] theorem Hart.jump_xready (h : Hart) (p : Word) : (h.jump p).xready = h.xready := (congrArg Hart.xready (h.jump_frame p) :)
@[simp] theorem Hart.jump_vready (h : Hart) (p : Word) : (h.jump p).vready = h.vready := (congrArg Hart.vready (h.jump_frame p) :)
@[simp] theorem Hart.jump_mode (h : Hart) (p : Word) : (h.jump p).mode = h.mode := (congrArg Hart.mode (h.jump_frame p) :)
@[simp] theorem Hart.jump_slot (h : Hart) (p : Word) : (h.jump p).slot = h.slot := (congrArg Hart.slot (h.jump_frame p) :)
@[simp] theorem Hart.jump_tagCtr (h : Hart) (p : Word) : (h.jump p).tagCtr = h.tagCtr := (congrArg Hart.tagCtr (h.jump_frame p) :)
@[simp] theorem Hart.jump_tag (h : Hart) (p : Word) : (h.jump p).tag = h.tag := (congrArg Hart.tag (h.jump_frame p) :)
@[simp] theorem Hart.jump_frozen (h : Hart) (p : Word) : (h.jump p).frozen = h.frozen := (congrArg Hart.frozen (h.jump_frame p) :)
@[simp] theorem Hart.jump_froze (h : Hart) (p : Word) : (h.jump p).froze = h.froze := (congrArg Hart.froze (h.jump_frame p) :)
@[simp] theorem Hart.jump_frozeAt (h : Hart) (p : Word) : (h.jump p).frozeAt = h.frozeAt := (congrArg Hart.frozeAt (h.jump_frame p) :)
@[simp] theorem Hart.jump_thawDue (h : Hart) (p : Word) : (h.jump p).thawDue = h.thawDue := (congrArg Hart.thawDue (h.jump_frame p) :)
@[simp] theorem Hart.jump_thawed (h : Hart) (p : Word) : (h.jump p).thawed = h.thawed := (congrArg Hart.thawed (h.jump_frame p) :)
@[simp] theorem Hart.jump_idle (h : Hart) (p : Word) : (h.jump p).idle = h.idle := (congrArg Hart.idle (h.jump_frame p) :)
@[simp] theorem Hart.jump_yielded (h : Hart) (p : Word) : (h.jump p).yielded = h.yielded := (congrArg Hart.yielded (h.jump_frame p) :)
@[simp] theorem Hart.jump_blk (h : Hart) (p : Word) : (h.jump p).blk = h.blk := (congrArg Hart.blk (h.jump_frame p) :)
@[simp] theorem Hart.jump_vtype (h : Hart) (p : Word) : (h.jump p).vtype = h.vtype := (congrArg Hart.vtype (h.jump_frame p) :)
@[simp] theorem Hart.jump_unack (h : Hart) (p : Word) : (h.jump p).unack = h.unack := (congrArg Hart.unack (h.jump_frame p) :)
@[simp] theorem Hart.jump_landCode (h : Hart) (p : Word) : (h.jump p).landCode = h.landCode := (congrArg Hart.landCode (h.jump_frame p) :)
@[simp] theorem Hart.jump_landMiss (h : Hart) (p : Word) : (h.jump p).landMiss = h.landMiss := (congrArg Hart.landMiss (h.jump_frame p) :)
@[simp] theorem Hart.jump_landLoc (h : Hart) (p : Word) : (h.jump p).landLoc = h.landLoc := (congrArg Hart.landLoc (h.jump_frame p) :)
@[simp] theorem Hart.jump_landCnt (h : Hart) (p : Word) : (h.jump p).landCnt = h.landCnt := (congrArg Hart.landCnt (h.jump_frame p) :)
@[simp] theorem Hart.jump_refusal (h : Hart) (p : Word) : (h.jump p).refusal = h.refusal := (congrArg Hart.refusal (h.jump_frame p) :)
@[simp] theorem Hart.jump_retires (h : Hart) (p : Word) : (h.jump p).retires = h.retires := (congrArg Hart.retires (h.jump_frame p) :)
@[simp] theorem Hart.jump_heldCause (h : Hart) (p : Word) : (h.jump p).heldCause = h.heldCause := (congrArg Hart.heldCause (h.jump_frame p) :)
@[simp] theorem Hart.jump_heldTval (h : Hart) (p : Word) : (h.jump p).heldTval = h.heldTval := (congrArg Hart.heldTval (h.jump_frame p) :)
@[simp] theorem Hart.jump_reqd (h : Hart) (p : Word) : (h.jump p).reqd = h.reqd := (congrArg Hart.reqd (h.jump_frame p) :)
@[simp] theorem Hart.jump_repd (h : Hart) (p : Word) : (h.jump p).repd = h.repd := (congrArg Hart.repd (h.jump_frame p) :)
@[simp] theorem Hart.jump_sendq (h : Hart) (p : Word) : (h.jump p).sendq = h.sendq := (congrArg Hart.sendq (h.jump_frame p) :)
@[simp] theorem Hart.jump_utvec (h : Hart) (p : Word) : (h.jump p).utvec = h.utvec := (congrArg Hart.utvec (h.jump_frame p) :)
@[simp] theorem Hart.jump_uepc (h : Hart) (p : Word) : (h.jump p).uepc = h.uepc := (congrArg Hart.uepc (h.jump_frame p) :)
@[simp] theorem Hart.jump_ucause (h : Hart) (p : Word) : (h.jump p).ucause = h.ucause := (congrArg Hart.ucause (h.jump_frame p) :)
@[simp] theorem Hart.jump_utval (h : Hart) (p : Word) : (h.jump p).utval = h.utval := (congrArg Hart.utval (h.jump_frame p) :)
@[simp] theorem Hart.jump_udeleg (h : Hart) (p : Word) : (h.jump p).udeleg = h.udeleg := (congrArg Hart.udeleg (h.jump_frame p) :)
@[simp] theorem Hart.jump_tdeleg (h : Hart) (p : Word) : (h.jump p).tdeleg = h.tdeleg := (congrArg Hart.tdeleg (h.jump_frame p) :)
@[simp] theorem Hart.jump_status (h : Hart) (p : Word) : (h.jump p).status = h.status := (congrArg Hart.status (h.jump_frame p) :)
@[simp] theorem Hart.jump_sregs (h : Hart) (p : Word) : (h.jump p).sregs = h.sregs := (congrArg Hart.sregs (h.jump_frame p) :)
@[simp] theorem Hart.jump_hstatus (h : Hart) (p : Word) : (h.jump p).hstatus = h.hstatus := (congrArg Hart.hstatus (h.jump_frame p) :)
@[simp] theorem Hart.jump_hregs (h : Hart) (p : Word) : (h.jump p).hregs = h.hregs := (congrArg Hart.hregs (h.jump_frame p) :)
@[simp] theorem Hart.jump_mstatus (h : Hart) (p : Word) : (h.jump p).mstatus = h.mstatus := (congrArg Hart.mstatus (h.jump_frame p) :)
@[simp] theorem Hart.jump_mregs (h : Hart) (p : Word) : (h.jump p).mregs = h.mregs := (congrArg Hart.mregs (h.jump_frame p) :)
@[simp] theorem Hart.jump_asid (h : Hart) (p : Word) : (h.jump p).asid = h.asid := (congrArg Hart.asid (h.jump_frame p) :)
@[simp] theorem Hart.jump_ptroot (h : Hart) (p : Word) : (h.jump p).ptroot = h.ptroot := (congrArg Hart.ptroot (h.jump_frame p) :)
@[simp] theorem Hart.jump_vmid (h : Hart) (p : Word) : (h.jump p).vmid = h.vmid := (congrArg Hart.vmid (h.jump_frame p) :)
@[simp] theorem Hart.jump_s2root (h : Hart) (p : Word) : (h.jump p).s2root = h.s2root := (congrArg Hart.s2root (h.jump_frame p) :)
@[simp] theorem Hart.jump_stmap (h : Hart) (p : Word) : (h.jump p).stmap = h.stmap := (congrArg Hart.stmap (h.jump_frame p) :)
@[simp] theorem Hart.jump_pmsel (h : Hart) (p : Word) : (h.jump p).pmsel = h.pmsel := (congrArg Hart.pmsel (h.jump_frame p) :)
@[simp] theorem Hart.jump_rclass (h : Hart) (p : Word) : (h.jump p).rclass = h.rclass := (congrArg Hart.rclass (h.jump_frame p) :)
@[simp] theorem Hart.jump_ptviol (h : Hart) (p : Word) : (h.jump p).ptviol = h.ptviol := (congrArg Hart.ptviol (h.jump_frame p) :)
@[simp] theorem Hart.jump_wid (h : Hart) (p : Word) : (h.jump p).wid = h.wid := (congrArg Hart.wid (h.jump_frame p) :)
@[simp] theorem Hart.jump_widf (h : Hart) (p : Word) : (h.jump p).widf = h.widf := (congrArg Hart.widf (h.jump_frame p) :)
@[simp] theorem Hart.jump_launchId (h : Hart) (p : Word) : (h.jump p).launchId = h.launchId := (congrArg Hart.launchId (h.jump_frame p) :)
@[simp] theorem Hart.jump_nthreads (h : Hart) (p : Word) : (h.jump p).nthreads = h.nthreads := (congrArg Hart.nthreads (h.jump_frame p) :)
@[simp] theorem Hart.jump_larg0 (h : Hart) (p : Word) : (h.jump p).larg0 = h.larg0 := (congrArg Hart.larg0 (h.jump_frame p) :)
@[simp] theorem Hart.jump_larg1 (h : Hart) (p : Word) : (h.jump p).larg1 = h.larg1 := (congrArg Hart.larg1 (h.jump_frame p) :)
@[simp] theorem Hart.jump_launch (h : Hart) (p : Word) : (h.jump p).launch = h.launch := (congrArg Hart.launch (h.jump_frame p) :)
@[simp] theorem Hart.jump_hmsg (h : Hart) (p : Word) : (h.jump p).hmsg = h.hmsg := (congrArg Hart.hmsg (h.jump_frame p) :)
@[simp] theorem Hart.jump_wdog (h : Hart) (p : Word) : (h.jump p).wdog = h.wdog := (congrArg Hart.wdog (h.jump_frame p) :)
@[simp] theorem Hart.jump_grace (h : Hart) (p : Word) : (h.jump p).grace = h.grace := (congrArg Hart.grace (h.jump_frame p) :)
@[simp] theorem Hart.jump_order (h : Hart) (p : Word) : (h.jump p).order = h.order := (congrArg Hart.order (h.jump_frame p) :)
@[simp] theorem Hart.jump_msgStamp (h : Hart) (p : Word) : (h.jump p).msgStamp = h.msgStamp := (congrArg Hart.msgStamp (h.jump_frame p) :)
@[simp] theorem Hart.jump_handles (h : Hart) (p : Word) : (h.jump p).handles = h.handles := (congrArg Hart.handles (h.jump_frame p) :)
@[simp] theorem Hart.jump_packet (h : Hart) (p : Word) : (h.jump p).packet = h.packet := (congrArg Hart.packet (h.jump_frame p) :)
@[simp] theorem Hart.jump_packetFrom (h : Hart) (p : Word) : (h.jump p).packetFrom = h.packetFrom := (congrArg Hart.packetFrom (h.jump_frame p) :)
@[simp] theorem Hart.jump_packetCons (h : Hart) (p : Word) : (h.jump p).packetCons = h.packetCons := (congrArg Hart.packetCons (h.jump_frame p) :)
@[simp] theorem Hart.jump_pend (h : Hart) (p : Word) : (h.jump p).pend = h.pend := (congrArg Hart.pend (h.jump_frame p) :)
@[simp] theorem Hart.jump_hold (h : Hart) (p : Word) : (h.jump p).hold = h.hold := (congrArg Hart.hold (h.jump_frame p) :)
@[simp] theorem Hart.jump_holds (h : Hart) (p : Word) : (h.jump p).holds = h.holds := (congrArg Hart.holds (h.jump_frame p) :)
@[simp] theorem Hart.jump_loads (h : Hart) (p : Word) : (h.jump p).loads = h.loads := (congrArg Hart.loads (h.jump_frame p) :)
@[simp] theorem Hart.jump_sigCur (h : Hart) (p : Word) : (h.jump p).sigCur = h.sigCur := (congrArg Hart.sigCur (h.jump_frame p) :)
@[simp] theorem Hart.jump_sigPrev (h : Hart) (p : Word) : (h.jump p).sigPrev = h.sigPrev := (congrArg Hart.sigPrev (h.jump_frame p) :)
@[simp] theorem Hart.jump_abuf (h : Hart) (p : Word) : (h.jump p).abuf = h.abuf := (congrArg Hart.abuf (h.jump_frame p) :)
@[simp] theorem Hart.jump_unrollable (h : Hart) (p : Word) : (h.jump p).unrollable = h.unrollable := (congrArg Hart.unrollable (h.jump_frame p) :)
@[simp] theorem Hart.jump_heldFor (h : Hart) (p : Word) : (h.jump p).heldFor = h.heldFor := (congrArg Hart.heldFor (h.jump_frame p) :)
@[simp] theorem Hart.jump_popped (h : Hart) (p : Word) : (h.jump p).popped = h.popped := (congrArg Hart.popped (h.jump_frame p) :)
@[simp] theorem Hart.jump_past (h : Hart) (p : Word) : (h.jump p).past = h.past := (congrArg Hart.past (h.jump_frame p) :)
@[simp] theorem Hart.jump_pure (h : Hart) (p : Word) : (h.jump p).pure = h.pure := (congrArg Hart.pure (h.jump_frame p) :)
@[simp] theorem Hart.jump_engines (h : Hart) (p : Word) : (h.jump p).engines = h.engines := (congrArg Hart.engines (h.jump_frame p) :)
@[simp] theorem Hart.jump_startTrap (h : Hart) (p : Word) : (h.jump p).startTrap = h.startTrap := (congrArg Hart.startTrap (h.jump_frame p) :)

@[simp] theorem Hart.retire_pc (h : Hart) (n : Nat) : (h.retire n).pc = h.pc + BitVec.ofNat 64 n := by simp [Hart.retire]
@[simp] theorem Hart.retire_stall (h : Hart) (n : Nat) : (h.retire n).stall = none := by simp [Hart.retire]
@[simp] theorem Hart.jump_pc (h : Hart) (p : Word) : (h.jump p).pc = p &&& ~~~1#64 := by simp [Hart.jump, evenBits]
@[simp] theorem Hart.jump_stall (h : Hart) (p : Word) : (h.jump p).stall = none := by simp [Hart.jump]

end Sys2Proof.Machine
end

