-- ==== Sys2Proof/Laws/Registers.lean ====
section
/-! SUPPORT. Registers read back after the operations that write them, and how a meaning ends. -/

namespace Sys2Proof.Machine

/-! ### x registers -/

theorem Reg.toNat_ne {a b : Reg} (h : a ≠ b) : a.toNat ≠ b.toNat := fun e => h (BitVec.eq_of_toNat_eq e)

@[simp] theorem Hart.rx_zero (h : Hart) : h.rx 0#5 = 0#64 := by simp [Hart.rx]

theorem Hart.rx_wx_self (h : Hart) (r : Reg) (v : Word) : (h.wx r v).rx r = if r = 0#5 then 0#64 else v := by
  unfold Hart.rx Hart.wx
  split <;> simp_all

theorem Hart.rx_wx_ne (h : Hart) {r q : Reg} (v : Word) (ne : q ≠ r) : (h.wx r v).rx q = h.rx q := by
  unfold Hart.rx Hart.wx
  by_cases hr : r = 0#5
  · simp [hr]
  · simp [hr, Table.get_set_ne _ _ _ (Reg.toNat_ne ne)]

theorem readyBit_setReady (w : BitVec 32) (r q : Reg) : readyBit (setReady w r) q = (readyBit w q || q == r) := by
  unfold readyBit setReady
  have hq : q.toNat < 32 := q.isLt
  have hr : r.toNat < 32 := r.isLt
  simp only [BitVec.getLsbD_or, BitVec.getLsbD_shiftLeft, hq, decide_true, Bool.true_and, BitVec.getLsbD_one]
  congr 1
  by_cases e : q = r
  · subst e; simp
  · have := Reg.toNat_ne e
    by_cases lt : q.toNat < r.toNat
    · simp [lt, e]
    · have : q.toNat - r.toNat ≠ 0 := by omega
      simp [lt, this, e]

theorem readyBit_clearReady (w : BitVec 32) (r q : Reg) : readyBit (clearReady w r) q = (readyBit w q && q != r) := by
  unfold readyBit clearReady
  have hq : q.toNat < 32 := q.isLt
  have hr : r.toNat < 32 := r.isLt
  simp only [BitVec.getLsbD_and, BitVec.getLsbD_not, BitVec.getLsbD_shiftLeft, hq, decide_true, Bool.true_and, BitVec.getLsbD_one]
  congr 1
  by_cases e : q = r
  · subst e; simp
  · have := Reg.toNat_ne e
    by_cases lt : q.toNat < r.toNat
    · simp [lt, e]
    · have : q.toNat - r.toNat ≠ 0 := by omega
      simp [lt, this, e]

@[simp] theorem Hart.xok_wx_self (h : Hart) (r : Reg) (v : Word) : (h.wx r v).xok r = true := by
  unfold Hart.xok Hart.wx
  split <;> simp_all [readyBit_setReady]

theorem Hart.xok_wx_ne (h : Hart) {r q : Reg} (v : Word) (ne : q ≠ r) : (h.wx r v).xok q = h.xok q := by
  unfold Hart.xok Hart.wx
  split
  · rfl
  · simp [readyBit_setReady, beq_eq_false_iff_ne.mpr ne]

theorem Hart.xok_armX_self (h : Hart) (r : Reg) : (h.armX r).xok r = (r == 0#5) := by
  unfold Hart.xok Hart.armX
  split <;> simp_all [readyBit_clearReady]

theorem Hart.xok_armX_ne (h : Hart) {r q : Reg} (ne : q ≠ r) : (h.armX r).xok q = h.xok q := by
  unfold Hart.xok Hart.armX
  split
  · rfl
  · simp [readyBit_clearReady, bne_iff_ne.mpr ne]

/-- A read depends on the register file alone. -/
theorem Hart.rx_congr {h k : Hart} (e : h.x = k.x) (r : Reg) : h.rx r = k.rx r := by simp [Hart.rx, e]

theorem Hart.xok_congr {h k : Hart} (e : h.xready = k.xready) (r : Reg) : h.xok r = k.xok r := by simp [Hart.xok, e]

@[simp] theorem Hart.rx_armX (h : Hart) (r q : Reg) : (h.armX r).rx q = h.rx q := Hart.rx_congr (by simp) q
@[simp] theorem Hart.rx_armV (h : Hart) (r q : Reg) : (h.armV r).rx q = h.rx q := rfl
@[simp] theorem Hart.rx_retire (h : Hart) (n : Nat) (q : Reg) : (h.retire n).rx q = h.rx q := Hart.rx_congr (by simp) q
@[simp] theorem Hart.rx_jump (h : Hart) (p : Word) (q : Reg) : (h.jump p).rx q = h.rx q := Hart.rx_congr (by simp) q
@[simp] theorem Hart.rx_wv (h : Hart) (r q : Reg) (v : VWord) : (h.wv r v).rx q = h.rx q := rfl
@[simp] theorem Hart.rx_wm (h : Hart) (r : MReg) (q : Reg) (v : BitVec 64) : (h.wm r v).rx q = h.rx q := rfl
@[simp] theorem Hart.xok_retire (h : Hart) (n : Nat) (q : Reg) : (h.retire n).xok q = h.xok q := Hart.xok_congr (by simp) q
@[simp] theorem Hart.xok_jump (h : Hart) (p : Word) (q : Reg) : (h.jump p).xok q = h.xok q := Hart.xok_congr (by simp) q
@[simp] theorem Hart.xok_wv (h : Hart) (r q : Reg) (v : VWord) : (h.wv r v).xok q = h.xok q := rfl
@[simp] theorem Hart.xok_wm (h : Hart) (r : MReg) (q : Reg) (v : BitVec 64) : (h.wm r v).xok q = h.xok q := rfl
@[simp] theorem Hart.xok_armV (h : Hart) (r q : Reg) : (h.armV r).xok q = h.xok q := rfl

/-! ### v and m registers -/

@[simp] theorem Hart.rv_wv_self (h : Hart) (r : Reg) (v : VWord) : (h.wv r v).rv r = v := by simp [Hart.rv, Hart.wv]

theorem Hart.rv_wv_ne (h : Hart) {r q : Reg} (v : VWord) (ne : q ≠ r) : (h.wv r v).rv q = h.rv q := by
  simp [Hart.rv, Hart.wv, Table.get_set_ne _ _ _ (Reg.toNat_ne ne)]

@[simp] theorem Hart.vok_wv_self (h : Hart) (r : Reg) (v : VWord) : (h.wv r v).vok r = true := by
  simp [Hart.vok, Hart.wv, readyBit_setReady]

theorem Hart.vok_wv_ne (h : Hart) {r q : Reg} (v : VWord) (ne : q ≠ r) : (h.wv r v).vok q = h.vok q := by
  simp [Hart.vok, Hart.wv, readyBit_setReady, ne]

@[simp] theorem Hart.vok_armV_self (h : Hart) (r : Reg) : (h.armV r).vok r = false := by
  simp [Hart.vok, Hart.armV, readyBit_clearReady]

theorem Hart.vok_armV_ne (h : Hart) {r q : Reg} (ne : q ≠ r) : (h.armV r).vok q = h.vok q := by
  simp [Hart.vok, Hart.armV, readyBit_clearReady, ne]

@[simp] theorem Hart.rm_wm_self (h : Hart) (r : MReg) (v : BitVec 64) : (h.wm r v).rm r = v := by simp [Hart.rm, Hart.wm]

theorem Hart.rm_wm_ne (h : Hart) {r q : MReg} (v : BitVec 64) (ne : q ≠ r) : (h.wm r v).rm q = h.rm q := by
  have : q.toNat ≠ r.toNat := fun e => ne (BitVec.eq_of_toNat_eq e)
  simp [Hart.rm, Hart.wm, Table.get_set_ne _ _ _ this]

theorem Hart.rv_congr {h k : Hart} (e : h.v = k.v) (r : Reg) : h.rv r = k.rv r := by simp [Hart.rv, e]
theorem Hart.vok_congr {h k : Hart} (e : h.vready = k.vready) (r : Reg) : h.vok r = k.vok r := by simp [Hart.vok, e]
theorem Hart.rm_congr {h k : Hart} (e : h.m = k.m) (r : MReg) : h.rm r = k.rm r := by simp [Hart.rm, e]

@[simp] theorem Hart.rv_retire (h : Hart) (n : Nat) (q : Reg) : (h.retire n).rv q = h.rv q := Hart.rv_congr (by simp) q
@[simp] theorem Hart.vok_retire (h : Hart) (n : Nat) (q : Reg) : (h.retire n).vok q = h.vok q := Hart.vok_congr (by simp) q
@[simp] theorem Hart.rm_retire (h : Hart) (n : Nat) (q : MReg) : (h.retire n).rm q = h.rm q := Hart.rm_congr (by simp) q
@[simp] theorem Hart.rv_wx (h : Hart) (r q : Reg) (v : Word) : (h.wx r v).rv q = h.rv q := Hart.rv_congr (by simp) q
@[simp] theorem Hart.vok_wx (h : Hart) (r q : Reg) (v : Word) : (h.wx r v).vok q = h.vok q := Hart.vok_congr (by simp) q
@[simp] theorem Hart.rm_wx (h : Hart) (r : Reg) (q : MReg) (v : Word) : (h.wx r v).rm q = h.rm q := Hart.rm_congr (by simp) q
@[simp] theorem Hart.rm_wv (h : Hart) (r : Reg) (q : MReg) (v : VWord) : (h.wv r v).rm q = h.rm q := rfl
@[simp] theorem Hart.rv_wm (h : Hart) (r : MReg) (q : Reg) (v : BitVec 64) : (h.wm r v).rv q = h.rv q := rfl
@[simp] theorem Hart.vok_wm (h : Hart) (r : MReg) (q : Reg) (v : BitVec 64) : (h.wm r v).vok q = h.vok q := rfl
@[simp] theorem Hart.rv_stick (h : Hart) (f : Sticky) (q : Reg) : (h.stick f).rv q = h.rv q := rfl
@[simp] theorem Hart.vok_stick (h : Hart) (f : Sticky) (q : Reg) : (h.stick f).vok q = h.vok q := rfl
@[simp] theorem Hart.rm_stick (h : Hart) (f : Sticky) (q : MReg) : (h.stick f).rm q = h.rm q := rfl
@[simp] theorem Hart.rx_stick (h : Hart) (f : Sticky) (q : Reg) : (h.stick f).rx q = h.rx q := rfl
@[simp] theorem Hart.xok_stick (h : Hart) (f : Sticky) (q : Reg) : (h.stick f).xok q = h.xok q := rfl

/-! ### How a meaning ends -/

@[simp] theorem finish_ok (s t : State) : finish s (.ok t) = .next t := rfl
@[simp] theorem finish_error (s : State) (e : Stop) : finish s (.error e) = .next (stopped s e) := rfl

/-- A meaning never ends the machine: it answers a next state, of its effect or of its stop. -/
theorem finish_next (s : State) (r : Res) : ∃ t, finish s r = .next t := by
  cases r <;> simp

/-- A check that holds goes on. -/
@[simp] theorem check_true (e : Stop) : check true e = .ok () := rfl
@[simp] theorem check_false (e : Stop) : check false e = .error e := rfl

theorem needX_ok {r : Reg} {s : State} (h : s.me.xok r = true) : needX r s = .ok () := by simp [needX, h]
theorem needV_ok {r : Reg} {s : State} (h : s.me.vok r = true) : needV r s = .ok () := by simp [needV, h]
theorem freeX_ok {r : Reg} {s : State} (h : s.me.xloading r = false) : freeX r s = .ok () := by simp [freeX, h]
theorem freeV_ok {r : Reg} {s : State} (h : s.me.vloading r = false) : freeV r s = .ok () := by simp [freeV, h]
theorem noPure_ok {va : Word} {s : State} (h : s.me.pure = none) : noPure va s = .ok () := by simp [noPure, h]
theorem needWf_ok {i : Instr} {s : State} (h : i.wf = true) : needWf i s = .ok () := by simp [needWf, h]

/-- Whole-register results: the issuing hart's x[d] gets a value and it goes past the instruction. -/
theorem State.step4_me (s : State) (f : Hart → Hart) : (s.step4 f).me = (f s.me).retire 4 := by simp [State.step4]
theorem State.step2_me (s : State) (f : Hart → Hart) : (s.step2 f).me = (f s.me).retire 2 := by simp [State.step2]

theorem State.step4_hart_ne (s : State) (f : Hart → Hart) {h : Nat} (ne : h ≠ s.cur) : (s.step4 f).hart h = s.hart h := by
  simp [State.step4, State.hart_setMe_ne _ _ ne]

theorem State.step2_hart_ne (s : State) (f : Hart → Hart) {h : Nat} (ne : h ≠ s.cur) : (s.step2 f).hart h = s.hart h := by
  simp [State.step2, State.hart_setMe_ne _ _ ne]

/-- Past an instruction, all but the issuing hart is as before. -/
theorem State.step4_rest (s : State) (f : Hart → Hart) : s.step4 f = { s with harts := (s.step4 f).harts } := rfl
theorem State.step2_rest (s : State) (f : Hart → Hart) : s.step2 f = { s with harts := (s.step2 f).harts } := rfl

end Sys2Proof.Machine
end

