-- ==== Sys2Proof/Laws/Frames.lean ====
section
/-! SUPPORT. The frames of Safety.lean for the updates the meanings make, and one lemma per shared operation of the integer and
vector instructions. -/

namespace Sys2Proof.Machine

open Sys2Proof.Safety

/-! ### A hart past an instruction -/

theorem Hart.retire_eq (h : Hart) (n : Nat) : h.retire n = { h with pc := (h.retire n).pc, stall := none, pmc := (h.retire n).pmc } := by
  have e := h.retire_frame n
  rwa [Hart.retire_stall] at e

theorem Hart.jump_eq (h : Hart) (p : Word) : h.jump p = { h with pc := (h.jump p).pc, stall := none, pmc := (h.jump p).pmc } := by
  have e := h.jump_frame p
  rwa [Hart.jump_stall] at e

/-- An update of registers alone, then retirement, keeps the rest of the hart. -/
theorem hartKept_retire {h k : Hart} (n : Nat)
    (e : k = { h with x := k.x, xready := k.xready, v := k.v, vready := k.vready, m := k.m, rclass := k.rclass }) :
    HartKept h (k.retire n) := by
  generalize k.x = x, k.xready = xr, k.v = v, k.vready = vr, k.m = m, k.rclass = rc at e
  subst e
  rw [Hart.retire_eq]
  rfl

theorem hartKept_jump {h k : Hart} (p : Word)
    (e : k = { h with x := k.x, xready := k.xready, v := k.v, vready := k.vready, m := k.m, rclass := k.rclass }) :
    HartKept h (k.jump p) := by
  generalize k.x = x, k.xready = xr, k.v = v, k.vready = vr, k.m = m, k.rclass = rc at e
  subst e
  rw [Hart.jump_eq]
  rfl

theorem count_pmc_congr {h k : Hart} (e : h.pmc = k.pmc) (e2 : h.pmsel = k.pmsel) (c n : Nat) :
    (h.count c n).pmc = (k.count c n).pmc := by
  unfold Hart.count
  rw [e2]
  split <;> simp [e]

theorem counted_retire {a b : Hart} (n : Nat) (e : b.pmc = a.pmc) (e2 : b.pmsel = a.pmsel) : Counted a (b.retire n) := by
  unfold Counted Hart.retire
  apply count_pmc_congr
  · apply count_pmc_congr <;> simp [e, e2]
  · simp [e2]

theorem counted_jump {a b : Hart} (p : Word) (e : b.pmc = a.pmc) (e2 : b.pmsel = a.pmsel) : Counted a (b.jump p) := by
  unfold Counted Hart.jump
  apply count_pmc_congr
  · apply count_pmc_congr <;> simp [e, e2]
  · simp [e2]

theorem XKept.refl (a : Hart) (ds : List Reg) : XKept a a ds := fun _ _ => ⟨rfl, rfl⟩

/-! ### The state past an instruction -/

theorem othersKept_step4 (s : State) (f : Hart → Hart) : OthersKept s (s.step4 f) :=
  ⟨State.step4_rest s f, fun _ ne => State.step4_hart_ne s f ne⟩

theorem othersKept_step2 (s : State) (f : Hart → Hart) : OthersKept s (s.step2 f) :=
  ⟨State.step2_rest s f, fun _ ne => State.step2_hart_ne s f ne⟩

theorem othersKept_setMe (s : State) (a : Hart) : OthersKept s (s.setMe a) :=
  ⟨rfl, fun _ ne => State.hart_setMe_ne s a ne⟩

theorem step4_congr {s : State} {f g : Hart → Hart} (e : f s.me = g s.me) : s.step4 f = s.step4 g := by
  unfold State.step4
  rw [e]

theorem step2_congr {s : State} {f g : Hart → Hart} (e : f s.me = g s.me) : s.step2 f = s.step2 g := by
  unfold State.step2
  rw [e]

/-- x[d] written and the instruction left. -/
theorem writesX_step4 (s : State) (d : Reg) (v : Word) : WritesX s (s.step4 fun h => h.wx d v) d v 4 := by
  refine ⟨⟨othersKept_step4 _ _, ?_, ?_⟩, ?_, ?_, ?_, ?_, ?_, ?_, ?_⟩
  · rw [State.step4_me]
    apply hartKept_retire
    simpa using s.me.wx_frame d v
  · rw [State.step4_me]; apply counted_retire <;> simp
  · simp [State.step4_me]
  · simp [State.step4_me]
  · simp [State.step4_me, Hart.rx_wx_self]
  · simp [State.step4_me]
  · intro r hr; simp at hr; simp [State.step4_me, Hart.rx_wx_ne _ _ hr, Hart.xok_wx_ne _ _ hr]
  · intro r _; simp [State.step4_me]
  · intro r _; simp [State.step4_me]

/-- v[d] written with flags, past an instruction of n bytes. -/
theorem writesV_retire (s : State) (d : Reg) (v : VWord) (f : Sticky) (n : Nat) :
    WritesV s (s.setMe (((s.me.wv d v).stick f).retire n)) d v f n := by
  refine ⟨⟨othersKept_setMe _ _, ?_, ?_⟩, ?_, ?_, ?_, ?_, ?_, ?_, ?_⟩
  · rw [State.me_setMe]
    apply hartKept_retire
    rfl
  · rw [State.me_setMe]; apply counted_retire <;> rfl
  · rw [State.me_setMe, Hart.retire_pc]; rfl
  · rw [State.me_setMe, Hart.retire_rclass]; rfl
  · simp
  · simp
  · intro r hr; simp at hr; simp [Hart.rv_wv_ne _ _ hr, Hart.vok_wv_ne _ _ hr]
  · intro r _; simp
  · intro r _; simp

/-- m[d] written with flags. -/
theorem writesM_retire (s : State) (d : MReg) (v : BitVec 64) (f : Sticky) (n : Nat) :
    WritesM s (s.setMe (((s.me.wm d v).stick f).retire n)) d v f n := by
  refine ⟨⟨othersKept_setMe _ _, ?_, ?_⟩, ?_, ?_, ?_, ?_, ?_, ?_⟩
  · rw [State.me_setMe]
    apply hartKept_retire
    rfl
  · rw [State.me_setMe]; apply counted_retire <;> rfl
  · rw [State.me_setMe, Hart.retire_pc]; rfl
  · rw [State.me_setMe, Hart.retire_rclass]; rfl
  · simp
  · intro r hr; simp at hr; simp [Hart.rm_wm_ne _ _ hr]
  · intro r _; simp
  · intro r _; simp

/-- A hart that only moves its PC, to a target with bit 0 clear. -/
theorem jumps_setMe_jump (s : State) (p : Word) : Jumps s (s.setMe (s.me.jump p)) (p &&& ~~~1#64) := by
  refine ⟨⟨othersKept_setMe _ _, ?_, ?_⟩, ?_, ?_, ?_, ?_, ?_⟩
  · rw [State.me_setMe]; exact hartKept_jump _ rfl
  · rw [State.me_setMe]; exact counted_jump _ rfl rfl
  · simp
  · simp
  · intro r _; simp
  · intro r _; rw [State.me_setMe]; exact ⟨Hart.rv_congr (by simp) r, Hart.vok_congr (by simp) r⟩
  · intro r _; rw [State.me_setMe]; exact Hart.rm_congr (by simp) r

theorem jumps_setMe_retire (s : State) (n : Nat) : Jumps s (s.setMe (s.me.retire n)) (s.me.pc + BitVec.ofNat 64 n) := by
  refine ⟨⟨othersKept_setMe _ _, ?_, ?_⟩, ?_, ?_, ?_, ?_, ?_⟩
  · rw [State.me_setMe]; exact hartKept_retire _ rfl
  · rw [State.me_setMe]; exact counted_retire _ rfl rfl
  · simp
  · simp
  · intro r _; simp
  · intro r _; simp
  · intro r _; simp

/-! ### Shared operations of the integer instructions -/

/-- An operation of two registers whose sources are ready and whose destination is free. -/
theorem aluRR_ok {s : State} {d a b : Reg} (f : Word → Word → Word) (h : XReady s [a, b]) (hd : XFree s d) :
    aluRR d a b f s = .next (s.step4 fun k => k.wx d (f (s.me.rx a) (s.me.rx b))) := by
  have ha := needX_ok (h a (by simp))
  have hb := needX_ok (h b (by simp))
  have hf := freeX_ok hd
  simp only [aluRR, ha, hb, hf, bind, Except.bind, finish_ok]
  rw [step4_congr]
  rfl

/-- An operation of one register. -/
theorem aluR_ok {s : State} {d a : Reg} (f : Word → Word) (h : XReady s [a]) (hd : XFree s d) :
    aluR d a f s = .next (s.step4 fun k => k.wx d (f (s.me.rx a))) := by
  have ha := needX_ok (h a (by simp))
  have hf := freeX_ok hd
  simp only [aluR, ha, hf, bind, Except.bind, finish_ok]
  rw [step4_congr]
  rfl

/-- An operation of the PC. -/
theorem aluPc_ok {s : State} {d : Reg} (f : Word → Word) (hd : XFree s d) :
    aluPc d f s = .next (s.step4 fun k => k.wx d (f s.me.pc)) := by
  have hf := freeX_ok hd
  simp only [aluPc, hf, bind, Except.bind, finish_ok]
  rw [step4_congr]
  rfl

/-- A branch on two registers that are ready. -/
theorem branchOn_ok {s : State} {a b : Reg} (o : BitVec 12) (f : Word → Word → Bool) (h : XReady s [a, b]) :
    branchOn a b o f s = .next (s.setMe (s.me.branch (f (s.me.rx a) (s.me.rx b)) o)) := by
  have ha := needX_ok (h a (by simp))
  have hb := needX_ok (h b (by simp))
  simp only [branchOn, ha, hb, bind, Except.bind, finish_ok]

end Sys2Proof.Machine
end

