-- ==== Sys2Proof/Laws/Loads.lean ====
section
/-! SUPPORT. Loads and stores: what a load leaves on its way to its register, and the checks of an access once its conditions
hold. -/

namespace Sys2Proof.Machine

open Sys2Proof.Safety

/-- An operation that answers goes on with its answer. -/
theorem bind_ok {α β : Type} (x : α) (f : α → Except Stop β) : (Except.ok x >>= f) = f x := rfl

theorem check_ok {c : Bool} {e : Stop} (h : c = true) : check c e = .ok () := by subst h; rfl

/-! ### The load under way -/

theorem startLoad_eq (s : State) (t : LoadTarget) (f : Sticky) (k : Nat) :
    startLoad s t f k = { s.setMe { s.me with loads := s.me.loads ++ [⟨s.nextId, t, f, k⟩] } with
      nextId := s.nextId + 1, flight := s.flight ++ [.loadReturn s.cur s.nextId] } := by
  unfold startLoad State.fly
  rfl

theorem startLoad_me (s : State) (t : LoadTarget) (f : Sticky) (k : Nat) :
    (startLoad s t f k).me = { s.me with loads := s.me.loads ++ [⟨s.nextId, t, f, k⟩] } := by
  rw [startLoad_eq]
  exact State.me_setMe s _

theorem startLoad_hart_ne (s : State) (t : LoadTarget) (f : Sticky) (k : Nat) {h : Nat} (ne : h ≠ s.cur) :
    (startLoad s t f k).hart h = s.hart h := by
  rw [startLoad_eq]
  exact State.hart_setMe_ne s _ ne

theorem startLoad_rest (s : State) (t : LoadTarget) (f : Sticky) (k : Nat) :
    startLoad s t f k = { s with harts := (startLoad s t f k).harts, nextId := s.nextId + 1,
                                 flight := s.flight ++ [.loadReturn s.cur s.nextId] } := rfl

theorem loadValue_me (s : State) (d : Reg) (v : Word) (k : Nat) :
    (loadValue s d v k).me = { (s.me.armX d).retire 4 with
      loads := ((s.me.armX d).retire 4).loads ++ [⟨s.nextId, .xreg d v, 0#3, k⟩] } := by
  unfold loadValue
  rw [startLoad_me, State.me_setMe]
  rfl

theorem loadValue_hart_ne (s : State) (d : Reg) (v : Word) (k : Nat) {h : Nat} (ne : h ≠ s.cur) : (loadValue s d v k).hart h = s.hart h := by
  unfold loadValue
  rw [startLoad_hart_ne _ _ _ _ (by exact ne)]
  exact State.hart_setMe_ne s _ ne

theorem loadValue_rest (s : State) (d : Reg) (v : Word) (k : Nat) :
    loadValue s d v k = { s with harts := (loadValue s d v k).harts, nextId := s.nextId + 1,
                                 flight := s.flight ++ [.loadReturn s.cur s.nextId] } := rfl

/-- A hart past a load of x[d], of whose other fields only the counters had changed. -/
theorem loaded_eq {h k : Hart} {x : Table Word} (e : k = { h with pmc := x }) (d : Reg) (l : Load) :
    ∃ y, { (k.armX d).retire 4 with loads := ((k.armX d).retire 4).loads ++ [l] } =
      { h with xready := (h.armX d).xready, pc := h.pc + 4, stall := none, pmc := y, loads := h.loads ++ [l] } := by
  have e2 : Hart.armX { h with pmc := x } d = { h with pmc := x, xready := (h.armX d).xready } := by
    unfold Hart.armX
    split <;> rfl
  refine ⟨((k.armX d).retire 4).pmc, ?_⟩
  subst e
  rw [Hart.retire_eq, e2]
  simp

/-- A hart past a load, and the rest of the state, say that the load is under way. -/
theorem loadsX_of {s t : State} {d : Reg} {v : Word} {y : Table Word} {n : Nat}
    (h1 : t = { s with harts := t.harts, nextId := s.nextId + 1, flight := s.flight ++ [.loadReturn s.cur s.nextId] })
    (h2 : ∀ h, h ≠ s.cur → t.hart h = s.hart h)
    (e : t.me = { s.me with xready := (s.me.armX d).xready, pc := s.me.pc + 4, stall := none, pmc := y,
                            loads := s.me.loads ++ [⟨s.nextId, .xreg d v, 0#3, n⟩] }) : LoadsX s t d v := by
  refine ⟨h1, h2, ?_, ?_, ⟨n, ?_⟩, ?_, fun r hr => ?_⟩
  · rw [e]
  · rw [e]
  · rw [e]
  · rw [e]; exact Hart.xok_armX_self _ _
  · simp at hr
    rw [e]
    exact ⟨rfl, Hart.xok_armX_ne _ hr⟩

/-- The value on its way to x[d], of the rest of the hart only the counters changed before. -/
theorem loadsX_loadValue (s : State) (d : Reg) (v : Word) (n : Nat) {h : Hart} (x : Table Word) (hp : h = { s.me with pmc := x }) :
    LoadsX s (loadValue (s.setMe h) d v n) d v := by
  obtain ⟨y, e⟩ := loaded_eq hp d ⟨s.nextId, .xreg d v, 0#3, n⟩
  refine loadsX_of (y := y) (n := n) (loadValue_rest _ _ _ _) (fun k ne => ?_) ?_
  · rw [loadValue_hart_ne _ _ _ _ (by exact ne)]
    exact State.hart_setMe_ne s _ ne
  · rw [loadValue_me, State.me_setMe]
    exact e

theorem loadsX_loadValue' (s : State) (d : Reg) (v : Word) (n : Nat) : LoadsX s (loadValue s d v n) d v := by
  obtain ⟨y, e⟩ := loaded_eq (h := s.me) (x := s.me.pmc) rfl d ⟨s.nextId, .xreg d v, 0#3, n⟩
  refine loadsX_of (y := y) (n := n) (loadValue_rest _ _ _ _) (fun k ne => loadValue_hart_ne _ _ _ _ ne) ?_
  rw [loadValue_me]
  exact e

theorem countMiss_eq (s : State) (p : Place) (n : Nat) (h : Hart) : ∃ x, countMiss s p n h = { h with pmc := x } := by
  unfold countMiss
  split
  · exact ⟨h.pmc, rfl⟩
  · split
    · exact ⟨h.pmc, rfl⟩
    · exact ⟨_, Hart.count_frame _ _ _⟩

/-! ### Checks -/

theorem needPureRead_ok {s : State} (h : Impure s) (va : Word) (n : Nat) : needPureRead va n s = .ok () := by
  unfold needPureRead; rw [h]

theorem needPureWrite_ok {s : State} (h : Impure s) (va : Word) (n : Nat) : needPureWrite va n s = .ok () := by
  unfold needPureWrite; rw [h]

/-- A load of a place that is reached and reads. -/
theorem loadOp_place {s : State} {d a : Reg} {i : BitVec 12} {n : Nat} {ext : Nat → Word} (h : XReady s [a]) (hd : XFree s d)
    {p : Place} {u : State} {g : Got} (h1 : needPureRead (effAddr s a i) n s = .ok ()) (h2 : inWindow (effAddr s a i) = false)
    (h3 : (effAddr s a i).toNat % n = 0) (h4 : lineLogged s s.myCore (effAddr s a i) = false)
    (h5 : reach s s.myCore s.me.tctx (effAddr s a i) accRead = .ok (p, u)) (h6 : remotePending u u.cur p n = false)
    (h7 : readPlace u u.cur (effAddr s a i) p n true = .ok g) :
    ∃ t, loadOp d a i n ext s = .next t ∧ LoadsX g.st t d (ext (leNat g.bytes)) := by
  obtain ⟨x, hx⟩ := countMiss_eq u p n g.st.me
  refine ⟨_, ?_, loadsX_loadValue g.st d _ (l2Reads u p n) x hx⟩
  have ha := needX_ok (h a (by simp))
  simp only [loadOp, ha, h1, freeX_ok hd, bind_ok, h2, Bool.false_eq_true, if_false, aligned, h3, check_ok, h4, Bool.not_false,
    beq_self_eq_true, h5, loadPlace, h6, h7, finish_ok]

/-- A load of a register window. -/
theorem loadOp_window {s : State} {d a : Reg} {i : BitVec 12} {n : Nat} {ext : Nat → Word} (h : XReady s [a]) (hd : XFree s d)
    {v : Word} (h1 : needPureRead (effAddr s a i) n s = .ok ()) (h2 : inWindow (effAddr s a i) = true)
    (h5 : windowLoad s s.cur (effAddr s a i) n = .ok v) : ∃ t, loadOp d a i n ext s = .next t ∧ LoadsX s t d v := by
  refine ⟨loadValue s d v 0, ?_, loadsX_loadValue' s d v 0⟩
  have ha := needX_ok (h a (by simp))
  simp only [loadOp, ha, h1, freeX_ok hd, bind_ok, h2, if_true, h5, finish_ok]

/-! ### The local stash -/

/-- An address of the local stash (R65). -/
theorem regionOf_stash {va : Word} {o : Nat} (e : va = BitVec.ofNat 64 (0x007F000000000000 + o)) (ho : o < 0x40000) :
    va.toNat = 0x007F000000000000 + o ∧ regionOf va = .stash o := by
  have hn : va.toNat = 0x007F000000000000 + o := by subst e; simp; omega
  refine ⟨hn, ?_⟩
  have h1 : ¬ (va.toNat < remoteBase) := by unfold remoteBase; omega
  have h2 : ¬ (va.toNat < stashBase) := by unfold stashBase; omega
  have h3 : (va.toNat < stashBase + stashSize) := by unfold stashBase stashSize; omega
  have h4 : va.toNat - stashBase = o := by unfold stashBase; omega
  simp only [regionOf, h1, h2, h3, h4, if_true, if_false]

/-- A read of the local stash delivers its bytes. -/
theorem readPlace_stash (s : State) (va : Word) (o n : Nat) (hn : va = BitVec.ofNat 64 (0x007F000000000000 + o))
    (hp : isStashPoison s.ms (stashIdx s.myCore o / 64) = false)
    (hb : ∀ k, k < n → bufferedByte s s.cur (BitVec.ofNat 64 (0x007F000000000000 + o)) (.stash (stashIdx s.myCore o)) k = none) :
    readPlace s s.cur va (.stash (stashIdx s.myCore o)) n true =
      .ok ⟨Memory.readBytes s.ms.stash (stashIdx s.myCore o) n, false, s⟩ := by
  have h1 : readState s.ms (.stash (stashIdx s.myCore o)) n = .clean := by simp [readState, placeState, hp]
  have h2 : needOwnBefore s s.cur (.stash (stashIdx s.myCore o)) LineState.clean.reads = .ok () := rfl
  have h3 : ownView s s.cur va (.stash (stashIdx s.myCore o)) (Memory.readBytes s.ms.stash (stashIdx s.myCore o) n) =
      Memory.readBytes s.ms.stash (stashIdx s.myCore o) n := by
    unfold ownView
    apply List.ext_getElem
    · simp
    · intro k h1 h2
      simp only [List.getElem_mapIdx]
      have : k < n := by simpa using h2
      have hb : bufferedByte s s.cur va (.stash (stashIdx s.myCore o)) k = none := by rw [hn]; exact hb k this
      rw [hb]; rfl
  have h0 : ownState s s.cur va (.stash (stashIdx s.myCore o)) .clean = .clean := by unfold ownState; split <;> rfl
  simp only [readPlace, h1, h0, h2, bind_ok, settleRead, viewBytes, h3, touch, Place.uncached, Bool.false_eq_true, if_false]

/-- A load of the local stash. -/
theorem loadOp_stash (s : State) (d a : Reg) (i : BitVec 12) (o n : Nat) (ext : Nat → Word)
    (hpure : Impure s) (h : XReady s [a]) (hd : XFree s d) (ho : o < 0x40000)
    (e : s.me.rx a + i.signExtend 64 = BitVec.ofNat 64 (0x007F000000000000 + o))
    (al : o % n = 0) (al2 : 0x007F000000000000 % n = 0)
    (hw : windowAt s s.myCore o = none)
    (hl : lineLogged s s.myCore (BitVec.ofNat 64 (0x007F000000000000 + o)) = false)
   
    (hr : remotePending s s.cur (.stash (stashIdx s.myCore o)) n = false)
    (hp : isStashPoison s.ms (stashIdx s.myCore o / 64) = false)
    (hb : ∀ k, k < n → bufferedByte s s.cur (BitVec.ofNat 64 (0x007F000000000000 + o)) (.stash (stashIdx s.myCore o)) k = none) :
    ∃ t, loadOp d a i n ext s = .next t ∧ LoadsX s t d (ext (leNat (Memory.readBytes s.ms.stash (stashIdx s.myCore o) n))) := by
  have e' : effAddr s a i = BitVec.ofNat 64 (0x007F000000000000 + o) := e
  obtain ⟨hn, hg⟩ := regionOf_stash e' ho
  have hc : canonical (effAddr s a i) = true := by
    unfold canonical; rw [hn]; simp; omega
  have hreach : reach s s.myCore s.me.tctx (effAddr s a i) accRead = .ok (.stash (stashIdx s.myCore o), s) := by
    unfold reach reachFor; rw [hc, hg]; simp [reachStash, hw]
  refine loadOp_place (g := ⟨_, false, s⟩) h hd (needPureRead_ok hpure _ _) ?_ ?_ ?_ hreach hr (readPlace_stash s _ o n e' hp hb)
  · unfold inWindow; rw [hg]
  · rw [hn, Nat.add_mod, al, al2]; simp
  · rw [e']; exact hl

/-! ### Stores -/

theorem inWindow_stash {va : Word} {o : Nat} (h : regionOf va = .stash o) : inWindow va = false := by unfold inWindow; rw [h]

theorem passes_step4 (s : State) : Passes s (s.step4 id) := jumps_setMe_retire s 4

theorem leBytes_get (n v k : Nat) (h : k < n) : (leBytes n v).getD k 0#8 = BitVec.ofNat 8 (v / 2 ^ (8 * k)) := by
  induction n generalizing v k with
  | zero => omega
  | succ n ih =>
    cases k with
    | zero => simp [leBytes]
    | succ k =>
      have := ih (v / 256) k (by omega)
      simp only [leBytes, List.getD_cons_succ]
      rw [this, Nat.div_div_eq_div_mul]
      congr 2
      rw [show (256:Nat) = 2 ^ 8 from rfl, ← Nat.pow_add]; congr 1; omega

/-- R292: a signed store changes the launches alone, by what they hold. -/
theorem signStore_eq (s : State) (k : Option (Nat × Bool)) (va : Word) (bs : List Byte) :
    signStore s k va bs = { s with lch := (signStore s k va bs).lch } := by
  unfold signStore
  cases k with
  | none => rfl
  | some e =>
    obtain ⟨l, b⟩ := e
    dsimp only
    cases Table.find? s.lch.live l with
    | none => rfl
    | some a => dsimp only; cases a.ver <;> rfl

theorem signStore_ms (s : State) (m : MemSys) (k : Option (Nat × Bool)) (va : Word) (bs : List Byte) :
    signStore { s with ms := m } k va bs = { s with ms := m, lch := (signStore s k va bs).lch } := by
  unfold signStore
  cases k with
  | none => rfl
  | some e =>
    obtain ⟨l, b⟩ := e
    dsimp only
    cases Table.find? s.lch.live l with
    | none => rfl
    | some a => dsimp only; cases a.ver <;> rfl

theorem storeOut_stash (s : State) (va rep : Word) (o : Nat) (bs : List Byte) (hg : regionOf va = .stash o) (hc : canonical va = true) (hw : windowAt s s.myCore o = none)
  (hl : ownLineLogged s s.myCore s.cur va = false) : storeOut s s.cur va rep bs = .ok { s with ms := stashWrite s.ms (stashIdx s.myCore o) bs, lch := signedLch s va bs } := by
  have h1 : reach s s.myCore s.me.tctx va accWrite = .ok (.stash (stashIdx s.myCore o), s) := by
    unfold reach reachFor; rw [hc, hg]; simp [reachStash, hw]
  have hl' : ownLineLogged s (s.cur / 8) s.cur va = false := hl
  have h1' : reach s (s.cur / 8) (s.hart s.cur).tctx va accWrite = .ok (.stash (stashIdx s.myCore o), s) := h1
  have h0 : remoteOf s s.cur va = none := by unfold remoteOf; rw [hg]
  unfold storeOut scalarOut
  rw [inWindow_stash hg, h0]
  simp only [Bool.false_eq_true, if_false, hl', h1', storeTo, signStore_ms]
  rfl

theorem storeMem_out (s : State) (va rep : Word) (bs : List Byte) (hp : Impure s) (hb : NoBuffer s) : storeMem s va rep bs = storeOut s s.cur va rep bs := by
  unfold storeMem; rw [hp]
  show bufferOr s _ _ = _
  unfold bufferOr
  rw [show s.me.buffering = false from hb]; simp

theorem storesStash_step4 (s : State) (va : Word) (o n : Nat) (v : Word) (hn : n ≤ 8) (hp : isStashPoison s.ms (stashIdx s.myCore o / 64) = false) :
    StoresStash s (({ s with ms := stashWrite s.ms (stashIdx s.myCore o) (leBytes n v.toNat), lch := signedLch s va (leBytes n v.toNat) } : State).step4 id)
      va (stashIdx s.myCore o) n v := by
  have e : stashWrite s.ms (stashIdx s.myCore o) (leBytes n v.toNat) = { s.ms with stash := Memory.writeBytes s.ms.stash (stashIdx s.myCore o) (leBytes n v.toNat) } := by
    simp [stashWrite, hp]
    intro; omega
  rw [e]
  obtain ⟨⟨⟨h1, h2⟩, h3, -⟩, h4, -, h5, h6, h7⟩ := passes_step4 ({ s with ms := { s.ms with stash := Memory.writeBytes s.ms.stash (stashIdx s.myCore o) (leBytes n v.toNat) }, lch := signedLch s va (leBytes n v.toNat) } : State)
  refine ⟨h1, h2, h3, h4, h5, h6, h7, fun k hk => ?_, fun a ha => ?_⟩
  · show Memory.read (Memory.writeBytes s.ms.stash (stashIdx s.myCore o) (leBytes n v.toNat)) _ = _
    rw [Memory.read_writeBytes]
    simp only [length_leBytes]
    rw [if_pos (by omega)]
    rw [show stashIdx s.myCore o + k - stashIdx s.myCore o = k by omega, leBytes_get _ _ _ hk]
    apply BitVec.eq_of_toNat_eq
    simp [BitVec.extractLsb'_toNat, Nat.shiftRight_eq_div_pow]
  · show Memory.read (Memory.writeBytes s.ms.stash (stashIdx s.myCore o) (leBytes n v.toNat)) _ = _
    rw [Memory.read_writeBytes_outside]
    simpa using ha

theorem storeOp_stash (s : State) (a b : Reg) (i : BitVec 12) (o n : Nat) (hpure : Impure s) (hbuf : NoBuffer s) (h : XReady s [a, b]) (ho : o < 0x40000) (hn8 : n ≤ 8)
    (e : s.me.rx a + i.signExtend 64 = BitVec.ofNat 64 (0x007F000000000000 + o)) (al : o % n = 0) (al2 : 0x007F000000000000 % n = 0)
    (hw : windowAt s s.myCore o = none) (hl : ownLineLogged s s.myCore s.cur (BitVec.ofNat 64 (0x007F000000000000 + o)) = false)
    (hp : isStashPoison s.ms (stashIdx s.myCore o / 64) = false) :
    ∃ t, storeOp a b i n s = .next t ∧ StoresStash s t (BitVec.ofNat 64 (0x007F000000000000 + o)) (stashIdx s.myCore o) n (s.me.rx b) := by
  have e' : effAddr s a i = BitVec.ofNat 64 (0x007F000000000000 + o) := e
  obtain ⟨hn, hg⟩ := regionOf_stash e' ho
  have hc : canonical (effAddr s a i) = true := by unfold canonical; rw [hn]; simp; omega
  have ha := needX_ok (h a (by simp))
  have hb := needX_ok (h b (by simp))
  have h1 : needStoreAddr (effAddr s a i) n = .ok () := by
    unfold needStoreAddr aligned; rw [hn, hg, hc, Nat.add_mod, al, al2]; rfl
  have h2 := storeOut_stash s (effAddr s a i) (effAddr s a i) o (leBytes n (s.me.rx b).toNat) hg hc hw (by rw [e']; exact hl)
  rw [← e']
  refine ⟨_, ?_, storesStash_step4 s (effAddr s a i) o n (s.me.rx b) hn8 hp⟩
  simp only [storeOp, ha, hb, bind_ok, needPureWrite_ok hpure, inWindow_stash hg, Bool.false_eq_true, if_false, h1, storeMem_out s _ _ _ hpure hbuf, h2, finish_ok]

theorem inWindow_global {va : Word} (h : regionOf va = .global) : inWindow va = false := by unfold inWindow; rw [h]

theorem inWindow_remote {va : Word} {g o} (h : regionOf va = .remote g o) : inWindow va = false := by unfold inWindow; rw [h]

/-- A translation changes nothing but the cached translations. -/
theorem translate_tlb {ms ms' : MemSys} {core : Nat} {c : TCtx} {va : Word} {acc : Nat} {p : Phys}
    (h : translate ms core c va acc = .ok (p, ms')) : ∃ x, ms' = { ms with tlb := x } := by
  unfold translate at h
  split at h
  · cases h1 : withStage2 ms _ c va with
    | error e => rw [h1] at h; cases h
    | ok e' =>
      rw [h1] at h
      change (finishTrans e' c va acc >>= _) = _ at h
      cases h2 : finishTrans e' c va acc with
      | error e => rw [h2] at h; cases h
      | ok q =>
        rw [h2] at h
        have h := (Prod.mk.inj (Except.ok.inj h)).2
        split at h
        · exact ⟨ms.tlb, h.symm⟩
        · exact ⟨_, h.symm⟩
  · cases h0 : walk1 ms c va with
    | error e => rw [h0] at h; cases h
    | ok l =>
      rw [h0] at h
      change (withStage2 ms (newEntry core c l) c va >>= _) = _ at h
      cases h1 : withStage2 ms (newEntry core c l) c va with
      | error e => rw [h1] at h; cases h
      | ok e' =>
        rw [h1] at h
        change (finishTrans e' c va acc >>= _) = _ at h
        cases h2 : finishTrans e' c va acc with
        | error e => rw [h2] at h; cases h
        | ok q =>
          rw [h2] at h
          exact ⟨_, (Prod.mk.inj (Except.ok.inj h)).2.symm⟩

theorem reachGlobal_st {s : State} {part : Option Nat} {core holder : Nat} {c : TCtx} {va rep : Word} {acc : Nat} {p : Place} {u : State}
    (h : reachGlobal s part core holder c va rep acc = .ok (p, u)) : ∃ x, u = { s with ms := { s.ms with tlb := x } } := by
  unfold reachGlobal at h
  split at h
  · cases h
  · rename_i ht
    obtain ⟨x, rfl⟩ := translate_tlb ht
    split at h
    · cases h; exact ⟨_, rfl⟩
    · cases h

theorem reachStash_st {s : State} {part : Option Nat} {core off : Nat} {rep : Word} {acc : Nat} {p : Place} {u : State}
    (h : reachStash s part core off rep acc = .ok (p, u)) : ∃ x, u = { s with ms := { s.ms with tlb := x } } := by
  unfold reachStash at h
  split at h
  · cases h; exact ⟨s.ms.tlb, rfl⟩
  · exact reachGlobal_st h

/-- Finding the place of an access changes nothing but the cached translations. -/
theorem reach_st {s : State} {core : Nat} {c : TCtx} {va : Word} {acc : Nat} {p : Place} {u : State}
    (h : reach s core c va acc = .ok (p, u)) : ∃ x, u = { s with ms := { s.ms with tlb := x } } := by
  unfold reach reachFor at h
  split at h
  · cases h
  · split at h
    · exact reachStash_st h
    · split at h
      · exact reachStash_st h
      · cases h; exact ⟨s.ms.tlb, rfl⟩
    · cases h
    · cases h
    · cases h
    · exact reachGlobal_st h

end Sys2Proof.Machine
end

