-- ==== Sys2Proof/Laws/Homes.lean ====
section
/-! SUPPORT. Writes at the home of a line: ownership and copies change no byte of memory; the bytes written read there. -/

namespace Sys2Proof.Machine

/-- Ownership of a word changes owners and copies alone. -/
theorem disown_frame (ms : MemSys) (g : Nat) (sm : Option Nat) (pa : Nat) :
    disown ms g sm pa = { ms with owners := (disown ms g sm pa).owners, copies := (disown ms g sm pa).copies } := by
  unfold disown
  dsimp only
  cases Table.find? ms.owners (wordKey (homeKey sm (lineOf pa)) pa) <;> rfl

theorem own_frame (ms : MemSys) (g : Nat) (sm : Option Nat) (holder pa : Nat) :
    own ms g sm holder pa = { ms with owners := (own ms g sm holder pa).owners, copies := (own ms g sm holder pa).copies } := by
  unfold own
  dsimp only
  by_cases h : Table.find? ms.owners (wordKey (homeKey sm (lineOf pa)) pa) = some holder
  · rw [if_pos h]; rfl
  · rw [if_neg h, disown_frame ms g sm pa]; rfl

/-- Words taken or given up one by one. -/
theorem owns_frame (f : MemSys → Nat → MemSys) (h : ∀ ms w, f ms w = { ms with owners := (f ms w).owners, copies := (f ms w).copies })
    (ws : List Nat) (ms : MemSys) :
    ws.foldl f ms = { ms with owners := (ws.foldl f ms).owners, copies := (ws.foldl f ms).copies } := by
  induction ws generalizing ms with
  | nil => rfl
  | cons w ws ih =>
    rw [List.foldl_cons, ih, h ms w]

theorem setFull_frame (ms : MemSys) (r : List Nat) (k : Nat) : setFull { ms with replicas := r } k = setFull ms k := rfl

/-- A write at the home of memory outside software-managed pages. -/
theorem homeWrite_plain {ms : MemSys} {pa : Nat} (bs : List Byte) (h : isPoison ms (lineOf pa) = false) :
    (homeWrite ms none pa bs).mem = Memory.writeBytes ms.mem pa bs ∧ (homeWrite ms none pa bs).stash = ms.stash ∧
      (homeWrite ms none pa bs).stores = ms.stores := by
  have md : ∀ (ms : MemSys) (l : Nat), (markDirty ms l).mem = ms.mem ∧ (markDirty ms l).stash = ms.stash ∧
      (markDirty ms l).stores = ms.stores := by
    intro ms l
    unfold markDirty
    split <;> exact ⟨rfl, rfl, rfl⟩
  have h' : isPoison (collapse ms (lineOf pa)) (lineOf pa) = false := h
  unfold homeWrite trueWrite
  simp only [h', Bool.false_and, Bool.false_eq_true, if_false]
  have key : ∀ x : MemSys, x.mem = ms.mem → x.stash = ms.stash → x.stores = ms.stores →
      let y := if setFull x (lineOf pa) = true then { x with dirty := Table.erase x.dirty (lineOf pa) } else markDirty x (lineOf pa)
      y.mem = ms.mem ∧ y.stash = ms.stash ∧ y.stores = ms.stores := by
    intro x h1 h2 h3
    dsimp only
    split
    · exact ⟨h1, h2, h3⟩
    · obtain ⟨a, b, c⟩ := md x (lineOf pa)
      exact ⟨a.trans h1, b.trans h2, c.trans h3⟩
  obtain ⟨a, b, c⟩ := key (collapse ms (lineOf pa)) rfl rfl rfl
  by_cases hw : wholeLine pa bs = true
  · rw [if_pos hw]
    exact ⟨congrArg (Memory.writeBytes · pa bs) a, b, c⟩
  · rw [if_neg hw]
    exact ⟨congrArg (Memory.writeBytes · pa bs) a, b, c⟩

/-- A line of a stash window is filled in the copies alone. -/
theorem fillWindow_frame (ms : MemSys) (g holder : Nat) (sm : Option Nat) (pa : Nat) :
    fillWindow ms g holder sm pa = { ms with copies := (fillWindow ms g holder sm pa).copies } := by
  unfold fillWindow
  split <;> rfl

/-- A store through a cache, or past it, of a line of memory that is not poison. -/
theorem storeOwned_plain (s : State) (holder pa : Nat) (bs : List Byte) (h : isPoison s.ms (lineOf pa) = false) :
    (storeOwned s none holder pa bs).ms.mem = Memory.writeBytes s.ms.mem pa bs ∧
      (storeOwned s none holder pa bs).ms.stash = s.ms.stash ∧ (storeOwned s none holder pa bs).ms.stores = s.ms.stores := by
  unfold storeOwned writeAt
  have e := owns_frame (fun ms w => own ms s.gen none holder w) (fun ms w => own_frame ms s.gen none holder w)
    (wordsOf pa bs.length) (fillWindow s.ms s.gen holder none pa)
  generalize (wordsOf pa bs.length).foldl (fun ms w => own ms s.gen none holder w) (fillWindow s.ms s.gen holder none pa) = ms at e
  rw [fillWindow_frame] at e
  have h' : isPoison ms (lineOf pa) = false := by rw [e]; exact h
  obtain ⟨a, b, c⟩ := homeWrite_plain bs h'
  refine ⟨a.trans ?_, b.trans ?_, c.trans ?_⟩ <;> rw [e]

theorem storeHome_plain (s : State) (pa : Nat) (bs : List Byte) (h : isPoison s.ms (lineOf pa) = false) :
    (storeHome s none pa bs).ms.mem = Memory.writeBytes s.ms.mem pa bs ∧
      (storeHome s none pa bs).ms.stash = s.ms.stash ∧ (storeHome s none pa bs).ms.stores = s.ms.stores := by
  unfold storeHome writeAt
  have e := owns_frame (fun ms w => disown ms s.gen none w) (fun ms w => disown_frame ms s.gen none w)
    (wordsOf pa bs.length) s.ms
  generalize (wordsOf pa bs.length).foldl (fun ms w => disown ms s.gen none w) s.ms = ms at e
  have h' : isPoison ms (lineOf pa) = false := by rw [e]; exact h
  obtain ⟨a, b, c⟩ := homeWrite_plain bs h'
  refine ⟨a.trans ?_, b.trans ?_, c.trans ?_⟩ <;> rw [e]

/-- What a write at a home may change: the bytes, the dies' copies, the values kept underneath, replicas, poison and errors. -/
def HomeWritten (a b : MemSys) : Prop :=
  b = { a with mem := b.mem, dies := b.dies, dirty := b.dirty, replicas := b.replicas, poison := b.poison, errors := b.errors }

theorem HomeWritten.refl (a : MemSys) : HomeWritten a a := rfl

theorem HomeWritten.trans {a b c : MemSys} (h : HomeWritten a b) (k : HomeWritten b c) : HomeWritten a c := by
  unfold HomeWritten at *
  rw [k, h]

theorem markDirty_written (ms : MemSys) (l : Nat) : HomeWritten ms (markDirty ms l) := by
  unfold markDirty; cases Table.find? ms.dirty l <;> rfl

theorem fillDie_written (ms : MemSys) (d l : Nat) : HomeWritten ms (fillDie ms d l) := by
  unfold fillDie
  dsimp only
  split
  · rfl
  · split
    · rfl
    · split <;> rfl

theorem trueWrite_written (ms : MemSys) (pa : Nat) (bs : List Byte) : HomeWritten ms (trueWrite ms pa bs) := by
  unfold trueWrite
  dsimp only
  split
  · rfl
  · have k : ∀ x y : MemSys, HomeWritten x y → HomeWritten x { y with mem := Memory.writeBytes y.mem pa bs } := fun x y h => by
      unfold HomeWritten at *; rw [h]
    have dm : ∀ x : MemSys, HomeWritten x (if setFull x (lineOf pa) = true then { x with dirty := Table.erase x.dirty (lineOf pa) }
        else markDirty x (lineOf pa)) := fun x => by
      split
      · rfl
      · exact markDirty_written _ _
    by_cases hw : wholeLine pa bs = true
    · rw [if_pos hw]
      refine k _ _ (HomeWritten.trans ?_ (HomeWritten.trans (dm (collapse ms (lineOf pa))) ?_)) <;> rfl
    · rw [if_neg hw]
      refine k _ _ (HomeWritten.trans ?_ (dm (collapse ms (lineOf pa)))); rfl

theorem copyWrite_written (ms : MemSys) (d pa : Nat) (bs : List Byte) : HomeWritten ms (copyWrite ms d pa bs) := by
  unfold copyWrite
  dsimp only
  split
  · rfl
  · split <;> rfl

theorem homeWrite_frame (ms : MemSys) (sm : Option Nat) (pa : Nat) (bs : List Byte) : HomeWritten ms (homeWrite ms sm pa bs) := by
  unfold homeWrite
  split
  · exact trueWrite_written _ _ _
  · dsimp only
    split
    · exact (fillDie_written _ _ _).trans (copyWrite_written _ _ _ _)
    · exact (fillDie_written _ _ _).trans (trueWrite_written _ _ _)

/-- A write at a home by another agent changes ownership, copies and what a write at a home changes alone. -/
theorem storeHome_frame (s : State) (sm : Option Nat) (pa : Nat) (bs : List Byte) :
    let m := (storeHome s sm pa bs).ms
    storeHome s sm pa bs = { s with
      reuse := (storeHome s sm pa bs).reuse
      ms := { s.ms with mem := m.mem, dies := m.dies, dirty := m.dirty, replicas := m.replicas, poison := m.poison, errors := m.errors,
                        owners := m.owners, copies := m.copies } } := by
  intro m
  have e := owns_frame (fun ms w => disown ms s.gen sm w) (fun ms w => disown_frame ms s.gen sm w) (wordsOf pa bs.length) s.ms
  have hm : m = homeWrite ((wordsOf pa bs.length).foldl (fun ms w => disown ms s.gen sm w) s.ms) sm pa bs := rfl
  have hw := homeWrite_frame ((wordsOf pa bs.length).foldl (fun ms w => disown ms s.gen sm w) s.ms) sm pa bs
  unfold HomeWritten at hw
  rw [← hm] at hw
  generalize (wordsOf pa bs.length).foldl (fun ms w => disown ms s.gen sm w) s.ms = x at e hw hm
  generalize x.owners = o, x.copies = c at e
  have h2 : (storeHome s sm pa bs).ms = m := rfl
  have h3 : storeHome s sm pa bs = { s with reuse := (storeHome s sm pa bs).reuse, ms := (storeHome s sm pa bs).ms } := rfl
  rw [h3, h2]
  subst e
  have ho : m.owners = o := congrArg MemSys.owners hw
  have hc : m.copies = c := congrArg MemSys.copies hw
  rw [ho, hc]
  congr 1

/-- A change of a thread that is not in an image changes no byte of memory. -/
theorem onThread_ms {s : State} {h : Nat} {tag : BitVec 16} (f : Hart → Hart) (hs : ∀ k t p, whereIs s h tag ≠ .saved k t p) :
    (onThread s h tag f).ms = s.ms := by
  unfold onThread
  split
  · rfl
  · rename_i e; exact absurd e (hs _ _ _)
  · rfl

theorem noteWritten_ms {s : State} {h : Nat} {tag : BitVec 16} (pa : Nat) (hs : ∀ k t p, whereIs s h tag ≠ .saved k t p) :
    (noteWritten s h tag pa).ms = s.ms := onThread_ms _ hs

end Sys2Proof.Machine
end

