-- ==== Sys2Proof/Laws/Sends.lean ====
section
/-! SUPPORT. Puts and messages: what their sending leaves of the state. -/

namespace Sys2Proof.Machine

open Sys2Proof.Safety

/-- A packet on its way changes the fabric alone, and does not look at the harts. -/
theorem emitPacket_eq (s : State) (n k : Nat) (p : Packet) : emitPacket s n k p = { s with fab := (emitPacket s n k p).fab } := by
  unfold emitPacket transmit
  dsimp only
  split <;> rfl

theorem transmit_setHart (s : State) (h : Nat) (a : Hart) (n k q : Nat) (p : Packet) :
    transmit (s.setHart h a) n k q p = (transmit s n k q p).setHart h a := by
  unfold transmit
  rw [show pathFor (s.setHart h a) n (packetFlits p) = pathFor s n (packetFlits p) from rfl]
  cases pathFor s n (packetFlits p) <;> rfl

theorem emitPacket_setHart (s : State) (h : Nat) (a : Hart) (n k : Nat) (p : Packet) :
    emitPacket (s.setHart h a) n k p = (emitPacket s n k p).setHart h a := by
  unfold emitPacket
  dsimp only
  rw [← transmit_setHart]
  rfl

/-- A put on its way changes the flight or the fabric alone, and does not look at the harts. -/
theorem sendPut_eq (s : State) (p : Put) : sendPut s p = { s with fab := (sendPut s p).fab, flight := (sendPut s p).flight } := by
  unfold sendPut
  split
  · rfl
  · unfold sendPacket
    split
    · dsimp only
      cases p.sender <;> rfl
    · rw [emitPacket_eq]

theorem sendPut_setHart (s : State) (h : Nat) (a : Hart) (p : Put) : sendPut (s.setHart h a) p = (sendPut s p).setHart h a := by
  unfold sendPut
  by_cases e : locNode p.loc = s.plat.node.toNat
  · rw [if_pos (show locNode p.loc = (s.setHart h a).plat.node.toNat from e), if_pos e]; rfl
  · rw [if_neg (show ¬ locNode p.loc = (s.setHart h a).plat.node.toNat from e), if_neg e]
    unfold sendPacket
    by_cases l : s.fab.lost.contains (locNode p.loc) = true
    · rw [if_pos (show (s.setHart h a).fab.lost.contains (locNode p.loc) = true from l), if_pos l]
      dsimp only
      cases p.sender <;> rfl
    · rw [if_neg (show ¬ (s.setHart h a).fab.lost.contains (locNode p.loc) = true from l), if_neg l]
      exact emitPacket_setHart _ _ _ _ _ _

theorem sendPut_local {s : State} {p : Put} (h : locNode p.loc = s.plat.node.toNat) : sendPut s p = s.fly (.putArrival p) := by
  unfold sendPut; rw [if_pos h]

/-- A put launched changes the flight, the fabric and the next number alone, and does not look at the harts. -/
theorem launchPut_eq (s : State) (p : Put) :
    launchPut s p = { s with fab := (launchPut s p).fab, flight := (launchPut s p).flight, nextId := s.nextId + 1 } := by
  unfold launchPut
  rw [sendPut_eq]

theorem launchPut_setHart (s : State) (h : Nat) (a : Hart) (p : Put) : launchPut (s.setHart h a) p = (launchPut s p).setHart h a :=
  sendPut_setHart { s with nextId := s.nextId + 1 } h a (stampPut s p)

theorem arms_retire (h : Hart) : Arms h (h.retire 4) none := by
  refine ⟨by simp, fun r => by simp, fun r => by simp, fun r => by simp, fun r => by simp⟩

theorem arms_armX (h : Hart) (d : Reg) : Arms h ((h.armX d).retire 4) (some d) := by
  refine ⟨by simp, fun r => by simp, fun r => ?_, fun r => ?_, fun r => ?_⟩
  · simp; exact ⟨Hart.rv_congr (by simp) r, Hart.vok_congr (by simp) r⟩
  · simp; exact Hart.rm_congr (by simp) r
  · by_cases e : r = d
    · subst e; simp [Hart.xok_armX_self]
    · have : ¬ (some d : Option Reg) = some r := fun h => e (Option.some.inj h).symm
      simp [this, Hart.xok_armX_ne _ e]

theorem arms_congr {h k b : Hart} {d : Option Reg} (a : Arms h b d) (e : h.x = k.x) (e1 : h.xready = k.xready) (e2 : h.v = k.v)
    (e3 : h.vready = k.vready) (e4 : h.m = k.m) (e5 : h.pc = k.pc) : Arms k b d := by
  obtain ⟨a1, a2, a3, a4, a5⟩ := a
  refine ⟨by rw [a1, e5], fun r => ?_, fun r => ?_, fun r => ?_, fun r => ?_⟩
  · rw [a2, Hart.rx_congr e]
  · rw [(a3 r).1, (a3 r).2, Hart.rv_congr e2, Hart.vok_congr e3]; exact ⟨rfl, rfl⟩
  · rw [a4, Hart.rm_congr e4]
  · rw [a5, Hart.xok_congr e1]

theorem putOut_eq (s : State) (p : Put) (rel : Bool) :
    putOut s s.cur p rel = (launchPut s { p with sig := if rel then some s.me.releaseSig else none }).setMe s.me.countUp := by
  unfold putOut
  rw [launchPut_setHart]
  have e : (launchPut s { p with sig := if rel then some s.me.releaseSig else none }).cur = s.cur := by rw [launchPut_eq]
  unfold State.setMe
  rw [e]
  rfl

/-- A state whose harts are as before, with the issuing hart changed and past its instruction. -/
theorem step4_setMe_me (u : State) (k : Hart) (f : Hart → Hart) : ((u.setMe k).step4 f).me = (f k).retire 4 := by
  rw [State.step4_me, State.me_setMe]

theorem step4_setMe_ne (u : State) (k : Hart) (f : Hart → Hart) {h : Nat} (ne : h ≠ u.cur) :
    ((u.setMe k).step4 f).hart h = u.hart h := by
  rw [State.step4_hart_ne _ _ (by exact ne), State.hart_setMe_ne _ _ ne]

theorem sends_of (s : State) (p : Put) (d : Option Reg) (f : Hart → Hart)
    (h1 : Arms s.me.countUp ((f s.me.countUp).retire 4) d)
    (h2 : f s.me.countUp = { s.me with xready := (f s.me.countUp).xready, unack := s.me.unack + 1 }) :
    Sends s (((launchPut s p).setMe s.me.countUp).step4 f) p d := by
  have e := launchPut_eq s p
  have ec : (launchPut s p).cur = s.cur := by rw [e]
  refine ⟨?_, fun h ne => ?_, ?_, ?_⟩
  · have : ((launchPut s p).setMe s.me.countUp).step4 f =
        { launchPut s p with harts := (((launchPut s p).setMe s.me.countUp).step4 f).harts } := rfl
    rw [this]
    generalize (((launchPut s p).setMe s.me.countUp).step4 f).harts = x
    rw [e]
  · rw [step4_setMe_ne _ _ _ (by rw [ec]; exact ne)]
    generalize (launchPut s p).fab = x, (launchPut s p).flight = y at e
    rw [e]
    rfl
  · rw [step4_setMe_me, Hart.retire_eq]
    generalize ((f s.me.countUp).retire 4).pc = pc, ((f s.me.countUp).retire 4).pmc = pm
    generalize f s.me.countUp = k at h2
    generalize k.xready = x at h2
    subst h2
    rfl
  · rw [step4_setMe_me]
    exact arms_congr h1 rfl rfl rfl rfl rfl rfl

/-- A plain put, sent. -/
theorem sends_plain (s : State) (p : Put) (rel : Bool) :
    Sends s ((putOut s s.cur p rel).step4 id) { p with sig := if rel then some s.me.releaseSig else none } none := by
  rw [putOut_eq]
  exact sends_of s _ none id (arms_retire _) rfl

/-- A put with a status, sent. -/
theorem sends_status (s : State) (p : Put) (rel : Bool) (d : Reg) :
    Sends s ((putOut s s.cur p rel).step4 fun h => h.armX d) { p with sig := if rel then some s.me.releaseSig else none }
      (some d) := by
  rw [putOut_eq]
  exact sends_of s _ (some d) _ (arms_armX _ d) (by rw [Hart.armX_frame]; rfl)

/-! ### Checks and shared operations -/

theorem needReply_ok {s : State} (hf : sendFree s.me false = true) : needReply s s.cur = .ok () := check_ok hf

theorem needPut_ok {s : State} {loc : Word} (h : Impure s) (hv : s.me.isV = false) (hu : s.me.unack < 1023) (hp : permits s s.myCore loc = true) :
    needPut loc s = .ok () := by
  have h1 : noPure 0 s = .ok () := noPure_ok h
  have h2 : needCount s = .ok () := by simp [needCount, hu]
  have h3 : needRoute loc s = .ok () := by simp [needRoute, hp]
  have h4 : needInside loc (locKind loc == 2) s = .ok () := by simp [needInside, hv]
  simp only [needPut, h1, h2, h3, h4, bind_ok]

theorem bufferOr_out {s : State} (h : NoBuffer s) (e : BufEntry) (out : State → Except Stop State) : bufferOr s e out = out s := by
  unfold bufferOr; rw [show s.me.buffering = false from h]; simp

theorem needUnrollable_ok {s : State} (h : NoBuffer s) : needUnrollable s = .ok () := by
  unfold needUnrollable; rw [show s.me.buffering = false from h]; simp

theorem putPlain_ok {s : State} {a : Reg} {wide : Bool} {v : VWord} {r : Bool} (h : needPut (locOf s a) s = .ok ()) (hb : NoBuffer s) (hf : sendFree s.me false = true) (hr : r = true → needReleased s = .ok ()) :
   ∃ t, putPlain a wide v r s = .ok t ∧ Sends s t ⟨locOf s a, wide, v, if r then some s.me.releaseSig else none, 0, some (senderOf s s.cur none false), false, 0#3, false, none⟩ none := by
  refine ⟨_, ?_, sends_plain s (newPut s (locOf s a) wide v (senderOf s s.cur none false)) r⟩
  simp only [putPlain, h, bind_ok, bufferOr_out hb, needReply_ok hf]
  cases r with
  | false => rfl
  | true => rw [if_pos rfl, hr rfl]; rfl

theorem putStatus_ok {s : State} {d a : Reg} {wide : Bool} {v : VWord} {r : Bool} (h : needPut (locOf s a) s = .ok ()) (hb : NoBuffer s) (hf : sendFree s.me false = true) (hd : XFree s d) (hr : r = true → needReleased s = .ok ()) :
   ∃ t, putStatus d a wide v r s = .ok t ∧ Sends s t ⟨locOf s a, wide, v, if r then some s.me.releaseSig else none, 0, some (senderOf s s.cur (some d) true), false, 0#3, false, none⟩ (some d) := by
  refine ⟨_, ?_, sends_status s (newPut s (locOf s a) wide v (senderOf s s.cur (some d) true)) r d⟩
  simp only [putStatus, h, bind_ok, freeX_ok hd, needUnrollable_ok hb, needReply_ok hf]
  cases r with
  | false => rfl
  | true => rw [if_pos rfl, hr rfl]; rfl

theorem putPlain_buffered {s : State} {a : Reg} {wide : Bool} {v : VWord} {r : Bool} (h : needPut (locOf s a) s = .ok ()) (hb : s.me.buffering = true)
   (hl : bufBytes (s.me.abuf ++ [.put (newPut s (locOf s a) wide v (senderOf s s.cur none false)) r]) ≤ 2048) :
   ∃ t, putPlain a wide v r s = .ok t ∧ t.flight = s.flight ∧ t.ms = s.ms ∧ t.me.unack = s.me.unack ∧ t.me.abuf = s.me.abuf ++ [.put (newPut s (locOf s a) wide v (senderOf s s.cur none false)) r] ∧ Arms s.me t.me none := by
  let k : Hart := { s.me with abuf := s.me.abuf ++ [.put (newPut s (locOf s a) wide v (senderOf s s.cur none false)) r] }
  have e : (State.step4 (s.setMe k) id).me = k.retire 4 := by rw [step4_setMe_me]; rfl
  refine ⟨(s.setMe k).step4 id, ?_, rfl, rfl, ?_, ?_, ?_⟩
  · simp only [putPlain, h, bind_ok]
    unfold bufferOr
    rw [if_pos hb, if_pos hl]
    rfl
  · rw [e]; simp; rfl
  · rw [e]; simp; rfl
  · rw [e]; exact arms_congr (arms_retire k) rfl rfl rfl rfl rfl rfl

theorem frozen_takeTrap (s : State) (c : Nat) (tval : Word) (h : freezes c = true) : (takeTrap s s.cur c tval false).me.frozen = some (c, tval) ∧ (takeTrap s s.cur c tval false).flight = s.flight ∧
    (takeTrap s s.cur c tval false).ms = s.ms ∧ (takeTrap s s.cur c tval false).me.unack = s.me.unack := by
  unfold takeTrap takeTrapAt
  rw [if_pos h]
  have hme : ∀ k r, (addFreezeRecord (s.setHart s.cur k) r).me = k := by
    intro k r
    have : (addFreezeRecord (s.setHart s.cur k) r).me = (s.setHart s.cur k).hart s.cur := by
      unfold addFreezeRecord addRecord
      dsimp only
      split <;> rfl
    rw [this]; exact State.hart_setHart _ _ _
  have hfl : ∀ u r, (addFreezeRecord u r).flight = u.flight ∧ (addFreezeRecord u r).ms = u.ms := by
    intro u r
    unfold addFreezeRecord addRecord
    dsimp only
    split <;> exact ⟨rfl, rfl⟩
  unfold freezeHart
  dsimp only
  refine ⟨?_, (hfl _ _).1, (hfl _ _).2, ?_⟩ <;> rw [hme] <;> rfl

theorem mask_fold (w : Word) (v : Bool) (l : List Nat) (hl : l.Nodup) (k : Core) (c : Nat) :
  let one := fun (k : Core) (c : Nat) => if c ≠ 0 ∧ w.getLsbD c = true then k.setChan c { k.chan c with masked := v } else k
  ((l.foldl one k).chan c).masked = if c ∈ l ∧ c ≠ 0 ∧ w.getLsbD c = true then v else (k.chan c).masked := by
  induction l generalizing k with
  | nil => simp
  | cons a l ih =>
    intro one
    rw [List.nodup_cons] at hl
    have := ih hl.2 (one k a)
    rw [List.foldl_cons]
    refine this.trans ?_
    have key : ((one k a).chan c).masked = if c = a ∧ c ≠ 0 ∧ w.getLsbD c = true then v else (k.chan c).masked := by
      dsimp only [one]
      by_cases ca : c = a
      · subst ca
        split
        · rename_i h; simp [h, Core.chan, Core.setChan]
        · rename_i h; simp [h]
      · split
        · simp [ca, Core.chan, Core.setChan, Table.get_set_ne _ _ _ ca]
        · simp [ca]
    rw [key]
    by_cases h1 : c = a
    · subst h1; simp [hl.1]
    · simp [h1]

theorem kick_frame (u : State) (c : Nat) : kickReturned (kickDispatch u c) c = { u with flight := (kickReturned (kickDispatch u c) c).flight } := by
  have h1 : kickDispatch u c = { u with flight := (kickDispatch u c).flight } := by unfold kickDispatch; split <;> rfl
  generalize kickDispatch u c = x at h1
  have h2 : kickReturned x c = { x with flight := (kickReturned x c).flight } := by unfold kickReturned; split <;> rfl
  generalize (kickReturned x c).flight = y at h2
  rw [h2, h1]

theorem maskChannels_frame (s : State) (core : Nat) (w : Word) (v : Bool) :
    maskChannels s core w v = { s with cores := (maskChannels s core w v).cores, flight := (maskChannels s core w v).flight } := by
  unfold maskChannels
  dsimp only
  rw [kick_frame]
  rfl

theorem maskChannels_cores (s : State) (core : Nat) (w : Word) (v : Bool) :
    (maskChannels s core w v).cores = (s.setCore core ((List.range 64).foldl (fun (k : Core) (c : Nat) => if c ≠ 0 ∧ w.getLsbD c then k.setChan c { k.chan c with masked := v } else k) (s.core core))).cores := by
  unfold maskChannels
  dsimp only
  rw [kick_frame]

theorem needXs_ok {s : State} {rs : List Reg} (h : XReady s rs) : needXs rs s = .ok () := by
  induction rs with
  | nil => rfl
  | cons r rs ih =>
    have h1 := needX_ok (h r (by simp))
    simp only [needXs, h1, bind_ok]
    exact ih fun q hq => h q (by simp [hq])

theorem offerMsg_frame (s : State) (h : Nat) (m : Msg) : offerMsg s h m = { s with fab := (offerMsg s h m).fab, flight := (offerMsg s h m).flight } := by
  unfold offerMsg
  split
  · rfl
  · split
    · rfl
    · unfold sendPacket
      split
      · rfl
      · rw [emitPacket_eq]

theorem sendPlain_now {s : State} {m : Msg} {q : Bool} (h : NoBuffer s) : sendPlain s m q = .ok (sendNow s m q) := by
  unfold sendPlain
  rw [show s.me.buffering = false from h, needUnrollable_ok h]
  rfl

theorem sendNow_spec (s : State) (m : Msg) (q : Bool) (d : Option Reg) (f : Hart → Hart)
   (h1 : ∀ k : Hart, Arms k ((f k).retire 4) d)
   (h2 : ∀ k : Hart, f k = { k with xready := (f k).xready }) (_hs : m.srcCore = s.myCore) (hid : m.id = s.nextId) :
   Claims s ((sendNow s m q).step4 f) m ⟨m, q, false, !q && !false && !waitsBehind s.me.sendq m, false⟩ d ∧
   ((∀ e ∈ s.me.sendq, e.msg.id < s.nextId) → m.dstNode = s.plat.node.toNat →
      (∀ e ∈ s.me.sendq, sameStream e.msg m = true → e.buffered = true ∨ e.returned = true) →
      ((sendNow s m q).step4 f).flight = s.flight ++ [.messageArrival m]) := by
  let e : SendEntry := ⟨m, q, false, !q && !false && !waitsBehind s.me.sendq m, false⟩
  let k : Hart := { s.me with sendq := s.me.sendq ++ [e] }
  have hc : claimEntry s m q false = { s.setMe k with nextId := s.nextId + 1 } := rfl
  have hf := offerMsg_frame (claimEntry s m q false) s.cur m
  have hme : (sendNow s m q).me = k := by
    unfold sendNow
    generalize offerMsg (claimEntry s m q false) s.cur m = u at hf
    generalize u.fab = a at hf
    generalize u.flight = b at hf
    rw [hf, hc]
    exact State.me_setMe s k
  have hcur : (sendNow s m q).cur = s.cur := by
    unfold sendNow
    rw [hf]; rfl
  refine ⟨⟨rfl, ?_, ?_, ?_, ?_⟩, ?_⟩
  · rw [State.step4_me, hme, Hart.retire_eq]
    have h2 := h2 k
    generalize ((f k).retire 4).pc = pc, ((f k).retire 4).pmc = pm
    generalize f k = k' at h2
    generalize k'.xready = x at h2
    subst h2
    rfl
  · rw [State.step4_me, hme]
    exact arms_congr (h1 k) rfl rfl rfl rfl rfl rfl
  · intro h ne
    rw [State.step4_hart_ne _ _ (by rw [hcur]; exact ne)]
    unfold sendNow
    generalize offerMsg (claimEntry s m q false) s.cur m = u at hf
    generalize u.fab = a at hf
    generalize u.flight = b at hf
    rw [hf, hc]
    exact State.hart_setMe_ne s k ne
  · show (sendNow s m q).ms = s.ms
    unfold sendNow
    rw [hf]; rfl
  · intro hl hn hst
    show (sendNow s m q).flight = _
    unfold sendNow offerMsg
    have hsq : ((claimEntry s m q false).hart s.cur).sendq = s.me.sendq ++ [e] := by
      have : (claimEntry s m q false).hart s.cur = k := State.me_setMe s k
      rw [this]
    unfold entriesBefore
    rw [hsq]
    have htw : (s.me.sendq ++ [e]).takeWhile (fun e => e.msg.id != m.id) = s.me.sendq := by
      rw [List.takeWhile_append_of_pos]
      · simp [e]
      · intro x hx
        have := hl x hx
        simp; omega
    rw [htw]
    have hany : waitsBehind s.me.sendq m = false := by
      unfold waitsBehind
      rw [List.any_eq_false]
      intro x hx
      have := hst x hx
      simp
      intro h1 h2
      rcases this h1 with h | h
      · rw [h] at h2; cases h2
      · exact h
    rw [hany, if_neg (by simp), if_pos (show m.dstNode = (claimEntry s m q false).plat.node.toNat from hn)]
    rfl

theorem needSend_ok {s : State} {loc : Word} (h : Impure s) (hv : s.me.isV = false) (hp : permits s s.myCore loc = true) (hf : sendFree s.me (sendsRequest s s.cur) = true) :
   needSend loc s = .ok (sendsRequest s s.cur) := by
  have h1 : noPure 0 s = .ok () := noPure_ok h
  have h3 : needRoute loc s = .ok () := by simp [needRoute, hp]
  have h4 : needInside loc true s = .ok () := by simp [needInside, hv]
  have h5 : needEntry s loc (sendsRequest s s.cur) = .ok () := by simp [needEntry, hf]
  simp only [needSend, h1, h3, h4, h5, bind_ok]

end Sys2Proof.Machine
end

