-- ==== Sys2Proof/Laws/Amo.lean ====
section
/-! SUPPORT. What an AMO, an acquire and a release do at a place once reached. -/

namespace Sys2Proof.Machine

open Sys2Proof.Safety

theorem trapped {s : State} (hi : Impure s) (c : Nat) (v : Word) :
    finish s (.error (.trap c v)) = .next (takeTrap s s.cur c v false) := by
  have : s.me.pure.isSome = false := by rw [show s.me.pure = none from hi]; rfl
  simp [stopped, trapNow, this]

theorem canonical_stash {va : Word} {o : Nat} (hn : va.toNat = 0x007F000000000000 + o) (ho : o < 0x40000) :
    canonical va = true := by
  unfold canonical; rw [hn]; simp; omega

theorem needAddr_stash {va : Word} {o n : Nat} (acc : Nat) (hn : va.toNat = 0x007F000000000000 + o) (ho : o < 0x40000)
    (hg : regionOf va = .stash o) (al : o % n = 0) (al2 : 0x007F000000000000 % n = 0) : needAddr va n acc = .ok () := by
  unfold needAddr noWindow aligned
  rw [inWindow_stash hg, canonical_stash hn ho, hn, Nat.add_mod, al, al2]
  rfl

theorem reach_stash {s : State} {va : Word} {o acc : Nat} {c : TCtx} (hn : va.toNat = 0x007F000000000000 + o) (ho : o < 0x40000)
    (hg : regionOf va = .stash o) (hw : windowAt s s.myCore o = none) :
    reach s s.myCore c va acc = .ok (.stash (stashIdx s.myCore o), s) := by
  unfold reach reachFor
  rw [canonical_stash hn ho, hg]
  simp [reachStash, hw]

/-- The hart's own view of a place of the local stash is its bytes, where its activation buffer holds none of them. -/
theorem ownView_stash (s : State) (va : Word) (o n : Nat) (hn : va = BitVec.ofNat 64 (0x007F000000000000 + o))
    (hb : ∀ k, k < n → bufferedByte s s.cur (BitVec.ofNat 64 (0x007F000000000000 + o)) (.stash (stashIdx s.myCore o)) k = none) :
    ownView s s.cur va (.stash (stashIdx s.myCore o)) (Memory.readBytes s.ms.stash (stashIdx s.myCore o) n) =
      Memory.readBytes s.ms.stash (stashIdx s.myCore o) n := by
  unfold ownView
  apply List.ext_getElem
  · simp
  · intro k h1 h2
    simp only [List.getElem_mapIdx]
    have : k < n := by simpa using h2
    have hb : bufferedByte s s.cur va (.stash (stashIdx s.myCore o)) k = none := by rw [hn]; exact hb k this
    rw [hb]; rfl

theorem readHome_stash (s : State) (va : Word) (o n : Nat) (hn : va = BitVec.ofNat 64 (0x007F000000000000 + o))
    (hp : isStashPoison s.ms (stashIdx s.myCore o / 64) = false)
    (hb : ∀ k, k < n → bufferedByte s s.cur (BitVec.ofNat 64 (0x007F000000000000 + o)) (.stash (stashIdx s.myCore o)) k = none) :
    readHome s s.cur va (.stash (stashIdx s.myCore o)) n =
      .ok ⟨Memory.readBytes s.ms.stash (stashIdx s.myCore o) n, false, s⟩ := by
  have h1 : placeState s.ms (.stash (stashIdx s.myCore o)) = .clean := by simp [placeState, hp]
  have h2 : needOwnBefore s s.cur (.stash (stashIdx s.myCore o)) LineState.clean.reads = .ok () := rfl
  have h0 : ownState s s.cur va (.stash (stashIdx s.myCore o)) .clean = .clean := by unfold ownState; split <;> rfl
  simp only [readHome, h1, h0, h2, bind_ok, settleRead, homeBytes, ownView_stash s va o n hn hb]
  rfl

theorem acquire_stash (s : State) (i : Nat) : acquirePlace s (.stash i) = s := rfl
theorem publish_stash (s : State) (i : Nat) : publishPlace s (.stash i) = s := rfl

theorem noteSync_stash (s : State) (h i : Nat) : noteSync s h (.stash i) = s := rfl
theorem needCollapsed_stash (s : State) (i : Nat) : needCollapsed s (.stash i) = .ok () := rfl

theorem stashWrite_plain {ms : MemSys} {i : Nat} {bs : List Byte} (hp : isStashPoison ms (i / 64) = false) (hl : bs.length < 64) :
    stashWrite ms i bs = { ms with stash := Memory.writeBytes ms.stash i bs } := by
  simp [stashWrite, hp]
  intro; omega

/-- An AMO of n bytes of the local stash, its waits over. -/
theorem asAmo_ok (g : Got) : asAmo (.ok g) = .ok g := rfl

theorem amoBody_stash {s : State} {d a : Reg} {n o : Nat} {aq rl : Bool} {new : Nat → Option Nat} (hi : Impure s) (hbuf : NoBuffer s)
    (hd : XFree s d) (ho : o < 0x40000) (e : s.me.rx a = BitVec.ofNat 64 (0x007F000000000000 + o)) (al : o % n = 0)
    (al2 : 0x007F000000000000 % n = 0) (hv : s.me.vcopy = none) (hw : windowAt s s.myCore o = none)
    (hl : ownLineLogged s s.myCore s.cur (s.me.rx a) = false)
    (hso : needSyncOrder s = .ok ()) (hr : rl = true → needReleased s = .ok ()) (ha : aq = true → needAcquire s = .ok ())
    (hp : isStashPoison s.ms (stashIdx s.myCore o / 64) = false) (hn8 : n ≤ 8)
    (hrp : remotePending s s.cur (.stash (stashIdx s.myCore o)) n = false)
    (hb : ∀ k, k < n → bufferedByte s s.cur (BitVec.ofNat 64 (0x007F000000000000 + o)) (.stash (stashIdx s.myCore o)) k = none) :
    amoBody d a n aq rl new s =
      let old := leNat (Memory.readBytes s.ms.stash (stashIdx s.myCore o) n)
      .ok (loadValue (match new old with
        | some v => { s with ms := { s.ms with stash := Memory.writeBytes s.ms.stash (stashIdx s.myCore o) (leBytes n v) } }
        | none => s) d (sextBytes n old) 0) := by
  obtain ⟨hn, hg⟩ := regionOf_stash e ho
  have h1 := needAddr_stash (n := n) accAmo hn ho hg al al2
  have h2 := reach_stash (s := s) (c := s.me.tctx) (acc := accAmo) hn ho hg hw
  have h3 := readHome_stash s (s.me.rx a) o n e hp hb
  have h4 : ∀ z : Res, (if rl = true then do needReleased s; z else z) = z := by
    intro z; cases rl with
    | false => rfl
    | true => rw [if_pos rfl, hr rfl, bind_ok]
  have h6 : needPerformed s (.stash (stashIdx s.myCore o)) n = .ok () := by
    unfold needPerformed; rw [hrp]; rfl
  have h7 : ∀ v, amoWrite s (s.me.rx a) (.stash (stashIdx s.myCore o)) (leBytes n v) =
      .ok { s with ms := { s.ms with stash := Memory.writeBytes s.ms.stash (stashIdx s.myCore o) (leBytes n v) } } := by
    intro v
    unfold amoWrite
    rw [hv]
    show Except.ok { s with ms := stashWrite s.ms (stashIdx s.myCore o) (leBytes n v) } = _
    rw [stashWrite_plain hp (by simp; omega)]
  simp only [amoBody, noPure_ok hi, freeX_ok hd, h1, hl, Bool.not_false, check_ok, h2, bind_ok, needUnrollable_ok hbuf]
  cases hnew : new (leNat (Memory.readBytes s.ms.stash (stashIdx s.myCore o) n)) with
  | none =>
    cases rl <;> cases aq <;> simp only [publish_stash, acquire_stash, Bool.false_eq_true, if_false, if_true, hr, ha, hso,
      needCollapsed_stash, h6, h3, asAmo_ok, hnew, bind_ok, Option.isSome_none] <;> rfl
  | some v =>
    cases rl <;> cases aq <;> simp only [publish_stash, acquire_stash, noteSync_stash, Bool.false_eq_true, if_false, if_true,
      hr, ha, hso, needCollapsed_stash, h6, h3, asAmo_ok, hnew, bind_ok, h7, Option.isSome_some] <;> rfl

/-! ### Places of memory -/

/-- A published signature changes the signatures at the homes alone. -/
theorem publishPlace_frame (s : State) (p : Place) :
    publishPlace s p = { s with ms := { s.ms with homeSigs := (publishPlace s p).ms.homeSigs } } := by
  unfold publishPlace
  cases placeKey p <;> rfl

/-- R101: an acquire changes the core's copies and the hart's current signature alone. -/
theorem acquirePlace_frame (s : State) (p : Place) :
    (acquirePlace s p).ms = { s.ms with copies := (acquirePlace s p).ms.copies } ∧
      (acquirePlace s p).me = { s.me with sigCur := (acquirePlace s p).me.sigCur } ∧
      (∀ h, h ≠ s.cur → (acquirePlace s p).hart h = s.hart h) ∧
      acquirePlace s p = { s with harts := (acquirePlace s p).harts, ms := (acquirePlace s p).ms } := by
  unfold acquirePlace
  cases placeSig s p with
  | none => exact ⟨rfl, rfl, fun _ _ => rfl, rfl⟩
  | some g =>
    refine ⟨?_, ?_, fun h ne => ?_, rfl⟩
    · show (if g.all then dropUnowned s.ms s.myCore else acquireAt s.ms s.myCore s.gen g) = _
      dsimp only [applySig, acquireAs]
      rw [State.setHart_ms]
      cases g.all <;> rfl
    · have : (applySig s s.myCore s.cur g).me = s.me.inherit g := by
        unfold applySig
        exact State.hart_setHart _ _ _
      dsimp only
      rw [this]
      rfl
    · unfold applySig
      exact State.hart_setHart_ne _ _ ne

theorem dropWords_frame (ms : MemSys) (core : Nat) (p : Place) (n : Nat) :
    dropWords ms core p n = { ms with copies := (dropWords ms core p n).copies } := by
  unfold dropWords
  cases p <;> rfl

theorem isPoison_of_clean {ms : MemSys} {pa : Nat} (h : lineState ms none pa = .clean) : isPoison ms (lineOf pa) = false := by
  unfold lineState at h
  dsimp only at h
  rw [show poisonKey ms none (lineOf pa) = lineOf pa from rfl] at h
  cases e : isPoison ms (lineOf pa) with
  | false => rfl
  | true => rw [e, if_pos rfl] at h; cases h

/-- The stores a thread has on their way touch no byte where it has none. -/
theorem pendingByte_none {s : State} {h : Nat} (hs : hasOwnStore s h = false) (a : Nat) :
    pendingByte s.ms.stores h (s.hart h).tag a = none := by
  unfold pendingByte
  have : ∀ (l : List Store) (r : Option Byte), (l.any fun st => st.hart == h && st.tag == (s.hart h).tag) = false →
      l.foldl (fun r st =>
        if st.hart == h && st.tag == (s.hart h).tag && (match st.place with | .remoteStash _ => false | _ => true) then
          (match byteIn st.pa st.bytes a with | some b => some b | none => r)
        else r) r = r := by
    intro l
    induction l with
    | nil => intro r _; rfl
    | cons st l ih =>
      intro r hl
      rw [List.any_cons, Bool.or_eq_false_iff] at hl
      rw [List.foldl_cons, ih _ hl.2, hl.1]
      rfl
  exact this _ _ hs

/-- The hart's own view of a place of memory is the bytes read, where it has no store of its own on its way to them. -/
theorem ownView_mem (s : State) (va : Word) (pa : Nat) (sm : Option Nat) (nc : Bool) (holder : Nat) (rm : Bool) (bs : List Byte)
    (hv : s.me.vcopy = none) (hs : hasOwnStore s s.cur = false) (hb : s.me.abuf = []) :
    ownView s s.cur va (.mem pa sm nc holder rm) bs = bs := by
  unfold ownView
  apply List.ext_getElem
  · simp
  · intro k h1 h2
    simp only [List.getElem_mapIdx]
    have e1 : shadowByte s.ms (s.hart s.cur).vcopy (pa + k) = none := by
      rw [show (s.hart s.cur).vcopy = none from hv]; rfl
    have e2 := pendingByte_none hs (pa + k)
    have e3 : bufferedByte s s.cur va (.mem pa sm nc holder rm) k = none := by
      unfold bufferedByte
      rw [show (s.hart s.cur).abuf = [] from hb]; rfl
    rw [e1, e2, e3]
    rfl

theorem remotePending_none {s : State} {h : Nat} (hs : hasOwnStore s h = false) (p : Place) (n : Nat) :
    remotePending s h p n = false := by
  unfold remotePending
  cases p with
  | mem _ _ _ _ _ => rfl
  | stash i =>
    unfold hasOwnStore at hs
    rw [List.any_eq_false] at hs ⊢
    intro x hx hc
    apply hs x hx
    simp only [Bool.and_eq_true] at hc ⊢
    exact hc.1.1.1

/-- R98, R110: a read at the home of a line of memory changes the core's copies and those of a window alone. -/
theorem readState_copies (s : State) (core pa : Nat) (nc : Bool) (holder n : Nat) :
    ∃ c, meetHome (touchHome s (.mem pa none nc holder false)) core (.mem pa none nc holder false) n =
      { s with ms := { s.ms with copies := c } } := by
  refine ⟨(dropWords (touchHome s (.mem pa none nc holder false)).ms core (.mem pa none nc holder false) n).copies, ?_⟩
  unfold meetHome
  dsimp only
  rw [dropWords_frame]
  unfold touchHome cacheInDie
  dsimp only
  cases nc
  · simp only [Bool.false_eq_true, if_false]
    rw [fillWindow_frame]
  · rfl

/-- A write at the home of a line of memory by an agent that takes no ownership. -/
theorem writePlaceHome_plain (s : State) (pa : Nat) (nc : Bool) (holder : Nat) (bs : List Byte) (h : isPoison s.ms (lineOf pa) = false) :
    let w := writePlaceHome s (.mem pa none nc holder false) bs
    w.harts = s.harts ∧ w.cur = s.cur ∧ w.ms.mem = Memory.writeBytes s.ms.mem pa bs ∧ w.ms.stash = s.ms.stash := by
  have keep : ∀ ms : MemSys, keepWritten ms holder none pa bs.length =
      { ms with copies := (keepWritten ms holder none pa bs.length).copies } := by
    intro ms
    unfold keepWritten
    dsimp only
    split
    · rfl
    · split <;> rfl
  unfold writePlaceHome
  dsimp only
  split
  · obtain ⟨a, b, -⟩ := storeHome_plain s pa bs h
    exact ⟨rfl, rfl, a, b⟩
  · obtain ⟨a, b, -⟩ := storeHome_plain { s with ms := fillWindow s.ms s.gen holder none pa } pa bs
      (by rw [fillWindow_frame]; exact h)
    rw [keep]
    refine ⟨rfl, rfl, a.trans ?_, b.trans ?_⟩ <;> rw [fillWindow_frame]

theorem readHome_mem (s : State) (va : Word) (pa : Nat) (nc : Bool) (holder n : Nat) (hv : s.me.vcopy = none)
    (hs : hasOwnStore s s.cur = false) (hb : s.me.abuf = []) (hbp : barrierPending s s.cur (.mem pa none nc holder false) = false)
    (hl : lineState s.ms none pa = .clean) :
    ∃ c, readHome s s.cur va (.mem pa none nc holder false) n =
      .ok ⟨Memory.readBytes s.ms.mem pa n, false, { s with ms := { s.ms with copies := c } }⟩ := by
  obtain ⟨c, hc⟩ := readState_copies s (s.cur / 8) pa nc holder n
  refine ⟨c, ?_⟩
  have h1 : placeState s.ms (.mem pa none nc holder false) = .clean := hl
  have h2 : needOwnBefore s s.cur (.mem pa none nc holder false) LineState.clean.reads = .ok () := by
    unfold needOwnBefore; rw [hbp]; rfl
  have h0 : ownState s s.cur va (.mem pa none nc holder false) .clean = .clean := by
    unfold ownState
    split
    · rfl
    · rw [show (s.hart s.cur).vcopy = none from hv]; rfl
  simp only [readHome, h1, h0, h2, bind_ok, settleRead, ownView_mem s va pa none nc holder false _ hv hs hb, hc]
  rfl

/-- A hart of a state with the same tag, running, is where its number says (R34). -/
theorem whereIs_self {s : State} {h : Nat} (hr : (s.hart h).running = true) (ht : (s.hart h).tag ≠ 0) :
    whereIs s h (s.hart h).tag = .resident h := by
  have e : slotOf (h / 8) (h % 8) = h := by unfold slotOf; omega
  have f : findSlot s (h / 8) (h % 8) (s.hart h).tag = .resident h := by
    unfold findSlot
    dsimp only
    rw [e, if_pos ⟨ht, hr, rfl⟩]
  unfold whereIs followSlot
  rw [f]

/-- What the tail of a synchronisation operation keeps: the harts but the signature of the issuing one. -/
def KeepsHarts (s w : State) : Prop :=
  w.cur = s.cur ∧ w.me = { s.me with sigCur := w.me.sigCur } ∧ ∀ h, h ≠ s.cur → w.hart h = s.hart h

theorem KeepsHarts.of_harts {s w : State} (h1 : w.harts = s.harts) (h2 : w.cur = s.cur) : KeepsHarts s w := by
  have e : ∀ h, w.hart h = s.hart h := fun h => by unfold State.hart; rw [h1]
  have m : w.me = s.me := by unfold State.me; rw [h2, e]
  exact ⟨h2, by rw [m], fun h _ => e h⟩

theorem KeepsHarts.same {s w x : State} (k : KeepsHarts s w) (h1 : x.harts = w.harts) (h2 : x.cur = w.cur) : KeepsHarts s x := by
  have e : ∀ h, x.hart h = w.hart h := fun h => by unfold State.hart; rw [h1]
  have m : x.me = w.me := by unfold State.me; rw [h2, e]
  exact ⟨h2.trans k.1, by rw [m]; exact k.2.1, fun h ne => (e h).trans (k.2.2 h ne)⟩

/-- A change of the issuing hart's thread changes nothing but that hart. -/
theorem onThread_self {s : State} {f : Hart → Hart} (hr : s.me.running = true) (ht : s.me.tag ≠ 0) :
    onThread s s.cur s.me.tag f = s.setMe (f s.me) := by
  unfold onThread
  rw [show s.me.tag = (s.hart s.cur).tag from rfl, whereIs_self hr ht]
  rfl

theorem KeepsHarts.noteSync {s w : State} (k : KeepsHarts s w) (hr : s.me.running = true) (ht : s.me.tag ≠ 0) (p : Place) :
    KeepsHarts s (noteSync w w.cur p) ∧ (Machine.noteSync w w.cur p).ms = w.ms := by
  cases p with
  | stash i => exact ⟨k, rfl⟩
  | mem pa sm nc holder rm =>
    have hr' : w.me.running = true := by rw [k.2.1]; exact hr
    have ht' : w.me.tag ≠ 0 := by rw [k.2.1]; exact ht
    have e : Machine.noteSync w w.cur (.mem pa sm nc holder rm) =
        w.setMe { w.me with sigCur := sigInsert w.me.sigCur (lineOf pa) } :=
      onThread_self (f := fun a => { a with sigCur := sigInsert a.sigCur (lineOf pa) }) hr' ht'
    rw [e]
    refine ⟨⟨k.1, ?_, fun h ne => ?_⟩, rfl⟩
    · rw [State.me_setMe, k.2.1]
    · rw [State.hart_setMe_ne _ _ (by rw [k.1]; exact ne)]; exact k.2.2 h ne

theorem KeepsHarts.acquire {s w : State} (k : KeepsHarts s w) (p : Place) : KeepsHarts s (acquirePlace w p) := by
  obtain ⟨-, f2, f3, f4⟩ := acquirePlace_frame w p
  have hc : (acquirePlace w p).cur = w.cur := by rw [f4]
  refine ⟨hc.trans k.1, ?_, fun h ne => ?_⟩
  · rw [f2, k.2.1]
  · rw [f3 h (by rw [k.1]; exact ne)]; exact k.2.2 h ne

/-- An AMO of n bytes of memory outside software-managed and read-mostly pages, its waits over: what it reads and writes. -/
theorem amoBody_mem {s u : State} {d a : Reg} {n pa holder : Nat} {nc aq rl : Bool} {new : Nat → Option Nat} (hi : Impure s)
    (hrun : s.me.running = true) (htag : s.me.tag ≠ 0)
    (hbuf : NoBuffer s) (hd : XFree s d) (hv : s.me.vcopy = none) (hwin : inWindow (s.me.rx a) = false)
    (al : (s.me.rx a).toNat % n = 0) (hl : ownLineLogged s s.myCore s.cur (s.me.rx a) = false)
    (hreach : reach s s.myCore s.me.tctx (s.me.rx a) accAmo = .ok (.mem pa none nc holder false, u)) (hh : isHost pa = false)
    (hso : needSyncOrder s = .ok ()) (hr : rl = true → needReleased s = .ok ()) (ha : aq = true → needAcquire s = .ok ())
    (hs : hasOwnStore u s.cur = false) (hbp : barrierPending s s.cur (.mem pa none nc holder false) = false) (hab : s.me.abuf = [])
    (hls : lineState u.ms none pa = .clean) :
    ∃ v, amoBody d a n aq rl new s = .ok (loadValue v d (sextBytes n (leNat (Memory.readBytes u.ms.mem pa n))) 1) ∧
      v.me = { s.me with sigCur := v.me.sigCur } ∧ (∀ h, h ≠ s.cur → v.hart h = s.hart h) ∧
      v.ms.stash = u.ms.stash ∧ v.ms.mem = match new (leNat (Memory.readBytes u.ms.mem pa n)) with
        | some x => Memory.writeBytes u.ms.mem pa (leBytes n x)
        | none => u.ms.mem := by
  obtain ⟨tlb, hu⟩ := reach_st hreach
  obtain ⟨ms, rfl⟩ : ∃ ms, u = { s with ms := ms } := ⟨_, hu⟩
  have hcan : canonical (s.me.rx a) = true := by
    cases h : canonical (s.me.rx a) with
    | true => rfl
    | false => unfold reach reachFor at hreach; rw [h] at hreach; cases hreach
  have h1 : needAddr (s.me.rx a) n accAmo = .ok () := by
    unfold needAddr noWindow aligned
    rw [hwin, hcan, al]
    rfl
  obtain ⟨c, h3⟩ := readHome_mem { s with ms := ms } (s.me.rx a) pa nc holder n hv hs hab hbp hls
  change readHome { s with ms := ms } s.cur _ _ _ = .ok ⟨_, _, { s with ms := { ms with copies := c } }⟩ at h3
  have h4 : needPerformed { s with ms := ms } (.mem pa none nc holder false) n = .ok () := by
    unfold needPerformed
    rw [remotePending_none hs]
    have : ((List.range n).all fun k =>
        (pendingByte ms.stores s.cur (s.hart s.cur).tag (pa + k)).isNone) = true := by
      rw [List.all_eq_true]
      intro k _
      have := pendingByte_none (s := { s with ms := ms }) hs (pa + k)
      exact this ▸ rfl
    show check _ _ = _
    exact check_ok this
  have hco : needCollapsed { s with ms := ms } (.mem pa none nc holder false) = .ok () := rfl
  have hpo : isPoison ms (lineOf pa) = false := isPoison_of_clean hls
  have hwr : ∀ x, amoWrite { s with ms := { ms with copies := c } } (s.me.rx a) (.mem pa none nc holder false) (leBytes n x) =
      .ok (writePlaceHome { s with ms := { ms with copies := c } } (.mem pa none nc holder false) (leBytes n x)) := by
    intro x
    unfold amoWrite
    rw [show ({ s with ms := { ms with copies := c } } : State).me.vcopy = none from hv]
    rfl
  -- what the steps after the write keep
  have tail : ∀ (w : State) (b : Bool), KeepsHarts s w →
      ∃ v, v = (let x := if rl = true then publishPlace w (.mem pa none nc holder false) else w
          let x := if b = true then noteSync x x.cur (.mem pa none nc holder false) else x
          if aq = true then acquirePlace x (.mem pa none nc holder false) else x) ∧
        KeepsHarts s v ∧ v.ms.stash = w.ms.stash ∧ v.ms.mem = w.ms.mem := by
    intro w b kw
    refine ⟨_, rfl, ?_⟩
    dsimp only
    generalize hx : (if rl = true then publishPlace w (.mem pa none nc holder false) else w) = x
    have hx2 : KeepsHarts s x ∧ x.ms.stash = w.ms.stash ∧ x.ms.mem = w.ms.mem := by
      rw [← hx]
      cases rl with
      | false => exact ⟨kw, rfl, rfl⟩
      | true =>
        rw [if_pos rfl, publishPlace_frame]
        exact ⟨kw.same rfl rfl, rfl, rfl⟩
    generalize hz : (if b = true then noteSync x x.cur (.mem pa none nc holder false) else x) = y
    have hy2 : KeepsHarts s y ∧ y.ms.stash = w.ms.stash ∧ y.ms.mem = w.ms.mem := by
      rw [← hz]
      cases b with
      | false => exact hx2
      | true =>
        rw [if_pos rfl]
        obtain ⟨n1, n2⟩ := hx2.1.noteSync hrun htag (.mem pa none nc holder false)
        exact ⟨n1, by rw [n2]; exact hx2.2.1, by rw [n2]; exact hx2.2.2⟩
    cases aq with
    | false => exact hy2
    | true =>
      rw [if_pos rfl]
      obtain ⟨f1, -, -, -⟩ := acquirePlace_frame y (.mem pa none nc holder false)
      exact ⟨hy2.1.acquire _, by rw [f1]; exact hy2.2.1, by rw [f1]; exact hy2.2.2⟩
  have hsteps : ∀ z : Res, (do
      if rl = true then needReleased s else .ok ()
      if aq = true then needAcquire s else needSyncOrder s
      z : Res) = z := by
    intro z
    cases rl <;> cases aq <;> simp only [Bool.false_eq_true, if_false, if_true, hr, ha, hso, bind_ok]
  cases hnew : new (leNat (Memory.readBytes ms.mem pa n)) with
  | none =>
    obtain ⟨v, hv1, hv2, hv4, hv5⟩ := tail { s with ms := { ms with copies := c } } false (.of_harts rfl rfl)
    refine ⟨v, ?_, hv2.2.1, hv2.2.2, hv4, hv5⟩
    rw [hv1]
    simp only [amoBody, noPure_ok hi, freeX_ok hd, h1, hl, Bool.not_false, check_ok, hreach, bind_ok, hh, needUnrollable_ok hbuf]
    refine (hsteps _).trans ?_
    simp only [hco, h4, h3, asAmo_ok, hnew, bind_ok, Option.isSome_none]
    rfl
  | some x =>
    obtain ⟨g1, g2, g3, g4⟩ := writePlaceHome_plain { s with ms := { ms with copies := c } } pa nc holder (leBytes n x) hpo
    obtain ⟨v, hv1, hv2, hv4, hv5⟩ := tail _ true (.of_harts g1 g2)
    refine ⟨v, ?_, hv2.2.1, hv2.2.2, hv4.trans g4, hv5.trans g3⟩
    rw [hv1]
    simp only [amoBody, noPure_ok hi, freeX_ok hd, h1, hl, Bool.not_false, check_ok, hreach, bind_ok, hh, needUnrollable_ok hbuf]
    refine (hsteps _).trans ?_
    simp only [hco, h4, h3, asAmo_ok, hnew, bind_ok, Option.isSome_some, hwr]
    rfl

end Sys2Proof.Machine
end

