-- ==== Sys2Proof/Laws/Engines.lean ====
section
/-! SUPPORT. What an engine reads and writes over a range of another core's stash: one lemma for each of the shared operations that the
pieces of a copy are made of. -/

namespace Sys2Proof.Machine

/-! ### The lines of a range -/

/-- Where part k of a range of n bytes from a begins. -/
def cutAt (a n k : Nat) : Nat := min (a + n) ((a / 64 + k) * 64) - a

/-- The parts of a range follow each other from its start to its end. -/
theorem lineCuts_eq (a n : Nat) (hn : n ≠ 0) : ∃ K, lineCuts a n = (List.range K).map (fun k => (cutAt a n k, cutAt a n (k + 1) - cutAt a n k)) ∧
    cutAt a n 0 = 0 ∧ cutAt a n K = n ∧ ∀ k, k < K → cutAt a n k < n ∧ cutAt a n k < cutAt a n (k + 1) ∧ cutAt a n (k + 1) ≤ n := by
  refine ⟨(a + n - 1) / 64 - a / 64 + 1, ?_, ?_, ?_, ?_⟩
  · unfold lineCuts
    rw [if_neg hn]
    refine List.map_congr_left fun k hk => ?_
    have hk := List.mem_range.mp hk
    have h1 : Nat.max a ((a / 64 + k) * 64) - a = cutAt a n k := by
      show max a _ - a = _; unfold cutAt; omega
    have h2 : Nat.min (a + n) ((a / 64 + k + 1) * 64) - Nat.max a ((a / 64 + k) * 64) = cutAt a n (k + 1) - cutAt a n k := by
      show min (a + n) _ - max a _ = _; unfold cutAt; omega
    dsimp only
    rw [h1, h2]
  · unfold cutAt; omega
  · unfold cutAt; omega
  · intro k hk; unfold cutAt; omega

/-- What is done line by line over a range: `st x` is what has come of it after x bytes. -/
theorem foldlM_cuts {σ : Type} {a n : Nat} (f : σ → Nat × Nat → Except EngErr σ) (st : Nat → σ)
    (h : ∀ x y, x < y → y ≤ n → f (st x) (x, y - x) = .ok (st y)) : (lineCuts a n).foldlM f (st 0) = .ok (st n) := by
  by_cases hn : n = 0
  · subst hn; rfl
  obtain ⟨K, hcuts, h0, hK, hs⟩ := lineCuts_eq a n hn
  rw [hcuts]
  suffices ∀ j, j ≤ K → ((List.range j).map fun k => (cutAt a n k, cutAt a n (k + 1) - cutAt a n k)).foldlM f (st 0) =
      .ok (st (cutAt a n j)) by
    rw [this K (Nat.le_refl K), hK]
  intro j hj
  induction j with
  | zero => rw [h0]; rfl
  | succ j ih =>
    obtain ⟨h1, h2, h3⟩ := hs j (by omega)
    rw [List.range_succ, List.map_append, List.foldlM_append, ih (by omega)]
    simp only [List.map_cons, List.map_nil, List.foldlM_cons, List.foldlM_nil, bind, Except.bind, pure, Except.pure, h _ _ h2 h3]

/-- Bytes read in two parts. -/
theorem readBytes_add (m : Memory) (i x y : Nat) : Memory.readBytes m i (x + y) = Memory.readBytes m i x ++ Memory.readBytes m (i + x) y := by
  unfold Memory.readBytes
  rw [List.range_add, List.map_append, List.map_map]
  congr 1
  exact List.map_congr_left fun k _ => by rw [Function.comp, Nat.add_assoc]

/-- Bytes written in two parts. -/
theorem writeBytes_append (m : Memory) (i : Nat) (x y : List Byte) :
    Memory.writeBytes m i (x ++ y) = Memory.writeBytes (Memory.writeBytes m i x) (i + x.length) y := by
  induction x generalizing m i with
  | nil => rfl
  | cons b x ih =>
    rw [List.cons_append, Memory.writeBytes, Memory.writeBytes, ih, List.length_cons]
    congr 1; omega

/-! ### Another core's stash -/

/-- An address of a core's stash through its remote window (R66). -/
theorem regionOf_remote {va : Word} {g o : Nat} : regionOf va = .remote g o ↔
    0x007E000000000000 ≤ va.toNat ∧ va.toNat < 0x007E000040000000 ∧ (va.toNat - 0x007E000000000000) / 0x100000 = g ∧
      (va.toNat - 0x007E000000000000) % 0x100000 = o ∧ o < 0x40000 := by
  unfold regionOf
  dsimp only
  generalize va.toNat = a
  by_cases h1 : a < remoteBase
  · rw [if_pos h1]; unfold remoteBase at h1; constructor
    · intro h; cases h
    · intro h; omega
  · rw [if_neg h1]; unfold remoteBase at h1
    by_cases h2 : a < stashBase
    · rw [if_pos h2]; unfold stashBase at h2
      by_cases h3 : a - remoteBase < 0x40000000
      · rw [if_pos h3]
        by_cases h4 : (a - remoteBase) % 0x100000 < stashSize
        · rw [if_pos h4]; unfold remoteBase at *; unfold stashSize at h4
          constructor
          · intro h; cases h; omega
          · intro h; rw [h.2.2.1, h.2.2.2.1]
        · rw [if_neg h4]; unfold remoteBase stashSize at *; constructor
          · intro h; cases h
          · intro h; omega
      · rw [if_neg h3]; unfold remoteBase at h3; constructor
        · intro h; cases h
        · intro h; omega
    · rw [if_neg h2]; unfold stashBase at h2; constructor
      · intro h
        split at h
        · cases h
        · split at h
          · cases h
          · split at h
            · cases h
            · split at h <;> cases h
      · intro h; omega

/-- The addresses of a range that lies within another core's stash. -/
theorem remote_range {s : State} {owner : Option Nat} {core g o n k acc : Nat} {c : TCtx} {va : Word} (hg : regionOf va = .remote g o) (hc : g ≠ core)
    (ho : o + n ≤ 0x40000) (hk : k < n) :
    engReachFor s owner core c (va + BitVec.ofNat 64 k) acc = .ok (.stash (stashIdx g o + k), s) := by
  obtain ⟨h1, h2, h3, h4, h5⟩ := regionOf_remote.mp hg
  have hn : (va + BitVec.ofNat 64 k).toNat = va.toNat + k := by
    rw [BitVec.toNat_add, BitVec.toNat_ofNat]; omega
  have hcan : canonical (va + BitVec.ofNat 64 k) = true := by
    have : va.toNat + k < 2 ^ 55 := by omega
    unfold canonical; rw [hn, decide_eq_true this]; rfl
  have hr : regionOf (va + BitVec.ofNat 64 k) = .remote g (o + k) := by
    rw [regionOf_remote, hn]; omega
  unfold engReachFor
  rw [hcan, hr]
  simp [hc, stashIdx, Nat.add_assoc]

/-- A line of a stash that holds no poison is delivered as it is. -/
theorem engLine_stash {s : State} {who : Option (Nat × BitVec 16)} {i : Nat} (n : Nat) (k : Option (Nat × Bool))
    (h : isStashPoison s.ms (i / 64) = false) :
    engLine s who k (.stash i) n = ((Memory.readBytes s.ms.stash i n).map fun b => (b, false), s) := by
  unfold engLine
  have h1 : countEng s who (.stash i) = s := by unfold countEng; cases who <;> rfl
  have h2 : viewState s.ms k (.stash i) (placeState s.ms (.stash i)) = .clean := by simp [viewState, placeState, h]
  simp only [h1, h2, homeBytes, touchHome]

/-- R253: an engine reads a range of another core's stash whose blocks hold no poison. -/
theorem engRead_remote {s : State} {core g o n : Nat} {c : TCtx} {who : Option (Nat × BitVec 16)} {k : Option (Nat × Bool)} {va : Word}
    (hg : regionOf va = .remote g o) (hc : g ≠ core) (ho : o + n ≤ 0x40000)
    (hp : ∀ j, j < n → isStashPoison s.ms ((stashIdx g o + j) / 64) = false) :
    engRead s core c who k va n = .ok ((Memory.readBytes s.ms.stash (stashIdx g o) n).map fun b => (b, false), s) := by
  refine foldlM_cuts (n := n) _ (fun x => ((Memory.readBytes s.ms.stash (stashIdx g o) x).map fun b => (b, false), s)) fun x y hx hy => ?_
  have hlt : x < n := Nat.lt_of_lt_of_le hx hy
  simp only [engReach, remote_range hg hc ho hlt, bind, Except.bind, pure, Except.pure]
  rw [engLine_stash _ _ (hp _ hlt), ← List.map_append, ← readBytes_add, Nat.add_sub_cancel' (Nat.le_of_lt hx)]

/-- Bytes written to a block that holds no poison. -/
theorem stashWrite_clean {ms : MemSys} {i : Nat} (bs : List Byte) (h : isStashPoison ms (i / 64) = false) :
    stashWrite ms i bs = { ms with stash := Memory.writeBytes ms.stash i bs } := by
  have : ms.stashPoison.filter (· != i / 64) = ms.stashPoison :=
    List.filter_eq_self.mpr fun x hx => by
      have : x ≠ i / 64 := fun e => by simp [isStashPoison, ← e, hx] at h
      simpa using this
  simp [stashWrite, h, this]

/-- A line of a stash that holds no poison takes bytes that are none. -/
theorem engWriteLine_stash {s : State} {who : Option (Nat × BitVec 16)} {va : Word} {i : Nat} {sig : Sig} (bs : List Byte)
    (h : isStashPoison s.ms (i / 64) = false) :
    engWriteLine ⟨s, 0#3, sig⟩ who none va (.stash i) (bs.map fun b => (b, false)) =
      ⟨{ s with ms := { s.ms with stash := Memory.writeBytes s.ms.stash i bs } }, 0#3, sig⟩ := by
  have h1 : countEng s who (.stash i) = s := by unfold countEng; cases who <;> rfl
  have h2 : (bs.map fun b => (b, false)).any (·.2) = false := by simp
  have h3 : (bs.map fun b => (b, false)).map (·.1) = bs := by rw [List.map_map]; exact List.map_id bs
  simp only [engWriteLine, h1, h2, h3, signStore, writePlaceHome, stashWrite_clean bs h, Bool.false_eq_true, if_false]

/-- R253: an engine writes a range of another core's stash whose blocks hold no poison. -/
theorem engWrite_remote {s : State} {core g o : Nat} {c : TCtx} {who : Option (Nat × BitVec 16)} {va : Word} {sig : Sig} (bs : List Byte)
    (hg : regionOf va = .remote g o) (hc : g ≠ core) (ho : o + bs.length ≤ 0x40000)
    (hp : ∀ j, j < bs.length → isStashPoison s.ms ((stashIdx g o + j) / 64) = false) :
    engWrite s core c who none va (bs.map fun b => (b, false)) sig =
      .ok ⟨{ s with ms := { s.ms with stash := Memory.writeBytes s.ms.stash (stashIdx g o) bs } }, 0#3, sig⟩ := by
  unfold engWrite engWriteFor
  rw [List.length_map]
  have last : (⟨{ s with ms := { s.ms with stash := Memory.writeBytes s.ms.stash (stashIdx g o) bs } }, 0#3, sig⟩ : EngWrote) =
      (fun x => ⟨{ s with ms := { s.ms with stash := Memory.writeBytes s.ms.stash (stashIdx g o) (bs.take x) } }, 0#3, sig⟩) bs.length := by
    dsimp only; rw [List.take_length]
  rw [last]
  refine foldlM_cuts (n := bs.length) _ (fun x => (⟨{ s with ms := { s.ms with
    stash := Memory.writeBytes s.ms.stash (stashIdx g o) (bs.take x) } }, 0#3, sig⟩ : EngWrote)) fun x y hx hy => ?_
  have hlt : x < bs.length := Nat.lt_of_lt_of_le hx hy
  have e : bs.take y = bs.take x ++ (bs.drop x).take (y - x) := by
    rw [← List.take_add, Nat.add_sub_cancel' (Nat.le_of_lt hx)]
  simp only [remote_range hg hc ho hlt, bind, Except.bind, pure, Except.pure, engShadow, ← List.map_drop, ← List.map_take]
  refine congrArg Except.ok ((engWriteLine_stash _ (by exact hp _ hlt)).trans ?_)
  rw [e, writeBytes_append, List.length_take, Nat.min_eq_left (Nat.le_of_lt hlt)]

end Sys2Proof.Machine
end

