-- ==== Sys2Proof/Laws/PerInstr.lean ====
section
/-! SUPPORT. What every constructor of Instr keeps, one lemma a constructor (LAWS.json names the families). Width (R13): bit 0 of an
encoding says its length. -/

namespace Sys2Proof.Laws.Width

open Sys2Proof

/-- R13: an encoding of four bytes has bit 0 set; one of two bytes has it clear, and nothing above its 16 bits. -/
def Statement (i : Instr) : Prop :=
  ∀ n w, encode i = some (n, w) →
    (n = 4 ∧ w.getLsbD 0 = true) ∨ (n = 2 ∧ w.getLsbD 0 = false ∧ w.extractLsb' 16 16 = 0#16)

theorem of_word {i : Instr} {f7 : BitVec 7} {b : BitVec 5} {f3 : BitVec 3} {a d : BitVec 5} {m : BitVec 6}
    (h : encWord i = some (fmt f7 b f3 a d m)) : Statement i := by
  intro n w e
  simp only [encode, h, Option.some.injEq, Prod.mk.injEq] at e
  obtain ⟨rfl, rfl⟩ := e
  left
  exact ⟨rfl, by rw [fmt, BitVec.getLsbD_append]; rfl⟩

theorem of_half {i : Instr} {k : Bool} {b d : BitVec 5} {o : BitVec 4} (h : encWord i = none)
    (g : encHalf i = some (fmtHalf k b d o)) : Statement i := by
  intro n w e
  simp only [encode, h, g, Option.some.injEq, Prod.mk.injEq] at e
  obtain ⟨rfl, rfl⟩ := e
  right
  refine ⟨rfl, by rw [BitVec.getLsbD_setWidth, fmtHalf, BitVec.getLsbD_append]; rfl, ?_⟩
  apply BitVec.eq_of_getLsbD_eq
  intro j hj
  simp

theorem of_step {i : Instr} (h : encWord i = none) (g : encHalf i = none) : Statement i := by
  intro n w e
  simp [encode, h, g] at e

theorem add (d : Reg) (a : Reg) (b : Reg) : Statement (.add d a b) := of_word rfl
theorem sub (d : Reg) (a : Reg) (b : Reg) : Statement (.sub d a b) := of_word rfl
theorem min (d : Reg) (a : Reg) (b : Reg) : Statement (.min d a b) := of_word rfl
theorem max (d : Reg) (a : Reg) (b : Reg) : Statement (.max d a b) := of_word rfl
theorem minu (d : Reg) (a : Reg) (b : Reg) : Statement (.minu d a b) := of_word rfl
theorem maxu (d : Reg) (a : Reg) (b : Reg) : Statement (.maxu d a b) := of_word rfl
theorem slt (d : Reg) (a : Reg) (b : Reg) : Statement (.slt d a b) := of_word rfl
theorem sltu (d : Reg) (a : Reg) (b : Reg) : Statement (.sltu d a b) := of_word rfl
theorem and (d : Reg) (a : Reg) (b : Reg) : Statement (.and d a b) := of_word rfl
theorem or (d : Reg) (a : Reg) (b : Reg) : Statement (.or d a b) := of_word rfl
theorem xor (d : Reg) (a : Reg) (b : Reg) : Statement (.xor d a b) := of_word rfl
theorem andn (d : Reg) (a : Reg) (b : Reg) : Statement (.andn d a b) := of_word rfl
theorem orn (d : Reg) (a : Reg) (b : Reg) : Statement (.orn d a b) := of_word rfl
theorem xnor (d : Reg) (a : Reg) (b : Reg) : Statement (.xnor d a b) := of_word rfl
theorem sll (d : Reg) (a : Reg) (b : Reg) : Statement (.sll d a b) := of_word rfl
theorem srl (d : Reg) (a : Reg) (b : Reg) : Statement (.srl d a b) := of_word rfl
theorem sra (d : Reg) (a : Reg) (b : Reg) : Statement (.sra d a b) := of_word rfl
theorem rol (d : Reg) (a : Reg) (b : Reg) : Statement (.rol d a b) := of_word rfl
theorem ror (d : Reg) (a : Reg) (b : Reg) : Statement (.ror d a b) := of_word rfl
theorem mul (d : Reg) (a : Reg) (b : Reg) : Statement (.mul d a b) := of_word rfl
theorem mulh (d : Reg) (a : Reg) (b : Reg) : Statement (.mulh d a b) := of_word rfl
theorem mulhu (d : Reg) (a : Reg) (b : Reg) : Statement (.mulhu d a b) := of_word rfl
theorem div (d : Reg) (a : Reg) (b : Reg) : Statement (.div d a b) := of_word rfl
theorem divu (d : Reg) (a : Reg) (b : Reg) : Statement (.divu d a b) := of_word rfl
theorem rem (d : Reg) (a : Reg) (b : Reg) : Statement (.rem d a b) := of_word rfl
theorem remu (d : Reg) (a : Reg) (b : Reg) : Statement (.remu d a b) := of_word rfl
theorem clz (d : Reg) (a : Reg) : Statement (.clz d a) := of_word rfl
theorem ctz (d : Reg) (a : Reg) : Statement (.ctz d a) := of_word rfl
theorem popc (d : Reg) (a : Reg) : Statement (.popc d a) := of_word rfl
theorem brev (d : Reg) (a : Reg) : Statement (.brev d a) := of_word rfl
theorem bext (d : Reg) (a : Reg) (b : Reg) : Statement (.bext d a b) := of_word rfl
theorem bins (d : Reg) (a : Reg) (b : Reg) : Statement (.bins d a b) := of_word rfl
theorem addi (d : Reg) (a : Reg) (i : BitVec 12) : Statement (.addi d a i) := of_word rfl
theorem andi (d : Reg) (a : Reg) (i : BitVec 12) : Statement (.andi d a i) := of_word rfl
theorem ori (d : Reg) (a : Reg) (i : BitVec 12) : Statement (.ori d a i) := of_word rfl
theorem xori (d : Reg) (a : Reg) (i : BitVec 12) : Statement (.xori d a i) := of_word rfl
theorem slli (d : Reg) (a : Reg) (i : BitVec 6) : Statement (.slli d a i) := of_word rfl
theorem srli (d : Reg) (a : Reg) (i : BitVec 6) : Statement (.srli d a i) := of_word rfl
theorem srai (d : Reg) (a : Reg) (i : BitVec 6) : Statement (.srai d a i) := of_word rfl
theorem slti (d : Reg) (a : Reg) (i : BitVec 12) : Statement (.slti d a i) := of_word rfl
theorem lih (d : Reg) (i : BitVec 20) : Statement (.lih d i) := of_word rfl
theorem lpc (d : Reg) (i : BitVec 20) : Statement (.lpc d i) := of_word rfl
theorem beq (a : Reg) (b : Reg) (o : BitVec 12) : Statement (.beq a b o) := of_word rfl
theorem bne (a : Reg) (b : Reg) (o : BitVec 12) : Statement (.bne a b o) := of_word rfl
theorem blt (a : Reg) (b : Reg) (o : BitVec 12) : Statement (.blt a b o) := of_word rfl
theorem bge (a : Reg) (b : Reg) (o : BitVec 12) : Statement (.bge a b o) := of_word rfl
theorem bltu (a : Reg) (b : Reg) (o : BitVec 12) : Statement (.bltu a b o) := of_word rfl
theorem bgeu (a : Reg) (b : Reg) (o : BitVec 12) : Statement (.bgeu a b o) := of_word rfl
theorem brdy (a : Reg) (o : BitVec 12) : Statement (.brdy a o) := of_word rfl
theorem bnrdy (a : Reg) (o : BitVec 12) : Statement (.bnrdy a o) := of_word rfl
theorem jl (d : Reg) (i : BitVec 20) : Statement (.jl d i) := of_word rfl
theorem jlr (d : Reg) (a : Reg) (i : BitVec 12) : Statement (.jlr d a i) := of_word rfl
theorem ldB (d : Reg) (a : Reg) (i : BitVec 12) : Statement (.ldB d a i) := of_word rfl
theorem ldH (d : Reg) (a : Reg) (i : BitVec 12) : Statement (.ldH d a i) := of_word rfl
theorem ldW (d : Reg) (a : Reg) (i : BitVec 12) : Statement (.ldW d a i) := of_word rfl
theorem ldD (d : Reg) (a : Reg) (i : BitVec 12) : Statement (.ldD d a i) := of_word rfl
theorem lduB (d : Reg) (a : Reg) (i : BitVec 12) : Statement (.lduB d a i) := of_word rfl
theorem lduH (d : Reg) (a : Reg) (i : BitVec 12) : Statement (.lduH d a i) := of_word rfl
theorem lduW (d : Reg) (a : Reg) (i : BitVec 12) : Statement (.lduW d a i) := of_word rfl
theorem ldT (d : Reg) (a : Reg) (i : BitVec 12) : Statement (.ldT d a i) := of_word rfl
theorem stB (a : Reg) (b : Reg) (i : BitVec 12) : Statement (.stB a b i) := of_word rfl
theorem stH (a : Reg) (b : Reg) (i : BitVec 12) : Statement (.stH a b i) := of_word rfl
theorem stW (a : Reg) (b : Reg) (i : BitVec 12) : Statement (.stW a b i) := of_word rfl
theorem stD (a : Reg) (b : Reg) (i : BitVec 12) : Statement (.stD a b i) := of_word rfl
theorem stT (a : Reg) (b : Reg) (i : BitVec 12) : Statement (.stT a b i) := of_word rfl
theorem ldAq (d : Reg) (a : Reg) : Statement (.ldAq d a) := of_word rfl
theorem stRl (a : Reg) (b : Reg) : Statement (.stRl a b) := of_word rfl
theorem ldto (a : Reg) (b : Reg) : Statement (.ldto a b) := of_word rfl
theorem ldtoW (a : Reg) (b : Reg) : Statement (.ldtoW a b) := of_word rfl
theorem amoswapW (d : Reg) (a : Reg) (b : Reg) (q : Bool) (r : Bool) : Statement (.amoswapW d a b q r) := of_word rfl
theorem amoswapD (d : Reg) (a : Reg) (b : Reg) (q : Bool) (r : Bool) : Statement (.amoswapD d a b q r) := of_word rfl
theorem amoaddW (d : Reg) (a : Reg) (b : Reg) (q : Bool) (r : Bool) : Statement (.amoaddW d a b q r) := of_word rfl
theorem amoaddD (d : Reg) (a : Reg) (b : Reg) (q : Bool) (r : Bool) : Statement (.amoaddD d a b q r) := of_word rfl
theorem amoandW (d : Reg) (a : Reg) (b : Reg) (q : Bool) (r : Bool) : Statement (.amoandW d a b q r) := of_word rfl
theorem amoandD (d : Reg) (a : Reg) (b : Reg) (q : Bool) (r : Bool) : Statement (.amoandD d a b q r) := of_word rfl
theorem amoorW (d : Reg) (a : Reg) (b : Reg) (q : Bool) (r : Bool) : Statement (.amoorW d a b q r) := of_word rfl
theorem amoorD (d : Reg) (a : Reg) (b : Reg) (q : Bool) (r : Bool) : Statement (.amoorD d a b q r) := of_word rfl
theorem amoxorW (d : Reg) (a : Reg) (b : Reg) (q : Bool) (r : Bool) : Statement (.amoxorW d a b q r) := of_word rfl
theorem amoxorD (d : Reg) (a : Reg) (b : Reg) (q : Bool) (r : Bool) : Statement (.amoxorD d a b q r) := of_word rfl
theorem amominW (d : Reg) (a : Reg) (b : Reg) (q : Bool) (r : Bool) : Statement (.amominW d a b q r) := of_word rfl
theorem amominD (d : Reg) (a : Reg) (b : Reg) (q : Bool) (r : Bool) : Statement (.amominD d a b q r) := of_word rfl
theorem amomaxW (d : Reg) (a : Reg) (b : Reg) (q : Bool) (r : Bool) : Statement (.amomaxW d a b q r) := of_word rfl
theorem amomaxD (d : Reg) (a : Reg) (b : Reg) (q : Bool) (r : Bool) : Statement (.amomaxD d a b q r) := of_word rfl
theorem amominuW (d : Reg) (a : Reg) (b : Reg) (q : Bool) (r : Bool) : Statement (.amominuW d a b q r) := of_word rfl
theorem amominuD (d : Reg) (a : Reg) (b : Reg) (q : Bool) (r : Bool) : Statement (.amominuD d a b q r) := of_word rfl
theorem amomaxuW (d : Reg) (a : Reg) (b : Reg) (q : Bool) (r : Bool) : Statement (.amomaxuW d a b q r) := of_word rfl
theorem amomaxuD (d : Reg) (a : Reg) (b : Reg) (q : Bool) (r : Bool) : Statement (.amomaxuD d a b q r) := of_word rfl
theorem amocasW (d : Reg) (a : Reg) (b : Reg) (q : Bool) (r : Bool) : Statement (.amocasW d a b q r) := of_word rfl
theorem amocasD (d : Reg) (a : Reg) (b : Reg) (q : Bool) (r : Bool) : Statement (.amocasD d a b q r) := of_word rfl
theorem amofaddW (d : Reg) (a : Reg) (b : Reg) (q : Bool) (r : Bool) : Statement (.amofaddW d a b q r) := of_word rfl
theorem barexp (a : Reg) (n : Reg) : Statement (.barexp a n) := of_word rfl
theorem bararr (a : Reg) (n : Reg) : Statement (.bararr a n) := of_word rfl
theorem barwait (d : Reg) (a : Reg) (n : Reg) : Statement (.barwait d a n) := of_word rfl
theorem rput (a : Reg) (b : Reg) (r : Bool) : Statement (.rput a b r) := of_word rfl
theorem rputS (d : Reg) (a : Reg) (b : Reg) (r : Bool) : Statement (.rputS d a b r) := of_word rfl
theorem rputv (a : Reg) (b : Reg) (r : Bool) : Statement (.rputv a b r) := of_word rfl
theorem rputvS (d : Reg) (a : Reg) (b : Reg) (r : Bool) : Statement (.rputvS d a b r) := of_word rfl
theorem arm (d : Reg) : Statement (.arm d) := of_word rfl
theorem armv (d : Reg) : Statement (.armv d) := of_word rfl
theorem msend (a : Reg) (b : Reg) (c : BitVec 2) : Statement (.msend a b c) := of_word rfl
theorem msendS (d : Reg) (a : Reg) (b : Reg) (c : BitVec 2) : Statement (.msendS d a b c) := of_word rfl
theorem callat (d : Reg) (a : Reg) (b : Reg) : Statement (.callat d a b) := of_word rfl
theorem hmask (a : Reg) : Statement (.hmask a) := of_word rfl
theorem hunmask (a : Reg) : Statement (.hunmask a) := of_word rfl
theorem qpop (h : QReg) (x : Reg) (i : BitVec 12) : Statement (.qpop h x i) := of_word rfl
theorem qadv (h : QReg) (x : Reg) (i : BitVec 12) : Statement (.qadv h x i) := of_word rfl
theorem qcnt (d : Reg) (h : QReg) (x : BitVec 12) : Statement (.qcnt d h x) := of_word rfl
theorem qcfg (h : QReg) (a : Reg) (x : BitVec 12) : Statement (.qcfg h a x) := of_word rfl
theorem qwait (h : QReg) (x : Reg) (i : BitVec 12) : Statement (.qwait h x i) := of_word rfl
theorem csrr (d : Reg) (x : Reg) (c : BitVec 12) : Statement (.csrr d x c) := of_word rfl
theorem csrw (d : Reg) (a : Reg) (c : BitVec 12) : Statement (.csrw d a c) := of_word rfl
theorem csrs (d : Reg) (a : Reg) (c : BitVec 12) : Statement (.csrs d a c) := of_word rfl
theorem csrc (d : Reg) (a : Reg) (c : BitVec 12) : Statement (.csrc d a c) := of_word rfl
theorem tlbinvAll (x : Reg) (y : Reg) : Statement (.tlbinvAll x y) := of_word rfl
theorem tlbinvAsid (a : Reg) (y : Reg) : Statement (.tlbinvAsid a y) := of_word rfl
theorem tlbinvVa (a : Reg) (y : Reg) : Statement (.tlbinvVa a y) := of_word rfl
theorem tlbinvStage2 (a : Reg) (y : Reg) : Statement (.tlbinvStage2 a y) := of_word rfl
theorem park (a : Reg) : Statement (.park a) := of_word rfl
theorem resume (a : Reg) : Statement (.resume a) := of_word rfl
theorem migrate (d : Reg) (a : Reg) : Statement (.migrate d a) := of_word rfl
theorem spawn (d : Reg) (a : Reg) (x : Reg) : Statement (.spawn d a x) := of_word rfl
theorem armlr (a : Reg) (b : Reg) : Statement (.armlr a b) := of_word rfl
theorem lchk (d : Reg) (a : Reg) (b : Reg) : Statement (.lchk d a b) := of_word rfl
theorem rwb (a : Reg) (b : Reg) : Statement (.rwb a b) := of_word rfl
theorem rinv (a : Reg) (b : Reg) : Statement (.rinv a b) := of_word rfl
theorem disc (a : Reg) (b : Reg) : Statement (.disc a b) := of_word rfl
theorem pin (a : Reg) (b : Reg) : Statement (.pin a b) := of_word rfl
theorem unpin (a : Reg) (b : Reg) : Statement (.unpin a b) := of_word rfl
theorem pref (a : Reg) (b : Reg) : Statement (.pref a b) := of_word rfl
theorem vadd (d : Reg) (a : Reg) (b : Reg) (t : EType) (m : Bool) (q : Bool) : Statement (.vadd d a b t m q) := of_word rfl
theorem vsub (d : Reg) (a : Reg) (b : Reg) (t : EType) (m : Bool) (q : Bool) : Statement (.vsub d a b t m q) := of_word rfl
theorem vmul (d : Reg) (a : Reg) (b : Reg) (t : EType) (m : Bool) (q : Bool) : Statement (.vmul d a b t m q) := of_word rfl
theorem vmulh (d : Reg) (a : Reg) (b : Reg) (t : EType) (m : Bool) (q : Bool) : Statement (.vmulh d a b t m q) := of_word rfl
theorem vmin (d : Reg) (a : Reg) (b : Reg) (t : EType) (m : Bool) (q : Bool) : Statement (.vmin d a b t m q) := of_word rfl
theorem vmax (d : Reg) (a : Reg) (b : Reg) (t : EType) (m : Bool) (q : Bool) : Statement (.vmax d a b t m q) := of_word rfl
theorem vand (d : Reg) (a : Reg) (b : Reg) (t : EType) (m : Bool) (q : Bool) : Statement (.vand d a b t m q) := of_word rfl
theorem vor (d : Reg) (a : Reg) (b : Reg) (t : EType) (m : Bool) (q : Bool) : Statement (.vor d a b t m q) := of_word rfl
theorem vxor (d : Reg) (a : Reg) (b : Reg) (t : EType) (m : Bool) (q : Bool) : Statement (.vxor d a b t m q) := of_word rfl
theorem vshl (d : Reg) (a : Reg) (b : Reg) (t : EType) (m : Bool) (q : Bool) : Statement (.vshl d a b t m q) := of_word rfl
theorem vshr (d : Reg) (a : Reg) (b : Reg) (t : EType) (m : Bool) (q : Bool) : Statement (.vshr d a b t m q) := of_word rfl
theorem vsra (d : Reg) (a : Reg) (b : Reg) (t : EType) (m : Bool) (q : Bool) : Statement (.vsra d a b t m q) := of_word rfl
theorem vabs (d : Reg) (a : Reg) (t : EType) (m : Bool) : Statement (.vabs d a t m) := of_word rfl
theorem vneg (d : Reg) (a : Reg) (t : EType) (m : Bool) : Statement (.vneg d a t m) := of_word rfl
theorem vadds (d : Reg) (a : Reg) (b : Reg) (t : EType) (m : Bool) (q : Bool) : Statement (.vadds d a b t m q) := of_word rfl
theorem vsubs (d : Reg) (a : Reg) (b : Reg) (t : EType) (m : Bool) (q : Bool) : Statement (.vsubs d a b t m q) := of_word rfl
theorem vmad (d : Reg) (a : Reg) (b : Reg) (t : EType) (m : Bool) (q : Bool) : Statement (.vmad d a b t m q) := of_word rfl
theorem vfadd (d : Reg) (a : Reg) (b : Reg) (t : BitVec 1) (m : Bool) (q : Bool) : Statement (.vfadd d a b t m q) := of_word rfl
theorem vfsub (d : Reg) (a : Reg) (b : Reg) (t : BitVec 1) (m : Bool) (q : Bool) : Statement (.vfsub d a b t m q) := of_word rfl
theorem vfmul (d : Reg) (a : Reg) (b : Reg) (t : BitVec 1) (m : Bool) (q : Bool) : Statement (.vfmul d a b t m q) := of_word rfl
theorem vfma (d : Reg) (a : Reg) (b : Reg) (t : BitVec 1) (m : Bool) (q : Bool) : Statement (.vfma d a b t m q) := of_word rfl
theorem vfmin (d : Reg) (a : Reg) (b : Reg) (t : BitVec 1) (m : Bool) (q : Bool) : Statement (.vfmin d a b t m q) := of_word rfl
theorem vfmax (d : Reg) (a : Reg) (b : Reg) (t : BitVec 1) (m : Bool) (q : Bool) : Statement (.vfmax d a b t m q) := of_word rfl
theorem vfabs (d : Reg) (a : Reg) (t : BitVec 1) (m : Bool) : Statement (.vfabs d a t m) := of_word rfl
theorem vfneg (d : Reg) (a : Reg) (t : BitVec 1) (m : Bool) : Statement (.vfneg d a t m) := of_word rfl
theorem vexp2 (d : Reg) (a : Reg) (t : BitVec 1) (m : Bool) : Statement (.vexp2 d a t m) := of_word rfl
theorem vlog2 (d : Reg) (a : Reg) (t : BitVec 1) (m : Bool) : Statement (.vlog2 d a t m) := of_word rfl
theorem vrcp (d : Reg) (a : Reg) (t : BitVec 1) (m : Bool) : Statement (.vrcp d a t m) := of_word rfl
theorem vrsq (d : Reg) (a : Reg) (t : BitVec 1) (m : Bool) : Statement (.vrsq d a t m) := of_word rfl
theorem vld (d : Reg) (a : Reg) (t : EType) (m : Bool) : Statement (.vld d a t m) := of_word rfl
theorem vst (d : Reg) (a : Reg) (t : EType) (m : Bool) : Statement (.vst d a t m) := of_word rfl
theorem vlds (d : Reg) (a : Reg) (b : Reg) (t : EType) (m : Bool) : Statement (.vlds d a b t m) := of_word rfl
theorem vsts (d : Reg) (a : Reg) (b : Reg) (t : EType) (m : Bool) : Statement (.vsts d a b t m) := of_word rfl
theorem vgath (d : Reg) (a : Reg) (b : Reg) (t : EType) (m : Bool) : Statement (.vgath d a b t m) := of_word rfl
theorem vscat (d : Reg) (a : Reg) (b : Reg) (t : EType) (m : Bool) : Statement (.vscat d a b t m) := of_word rfl
theorem vldT (d : Reg) (a : Reg) (t : EType) (m : Bool) : Statement (.vldT d a t m) := of_word rfl
theorem vstT (d : Reg) (a : Reg) (t : EType) (m : Bool) : Statement (.vstT d a t m) := of_word rfl
theorem vbcast (d : Reg) (a : Reg) (t : EType) (m : Bool) : Statement (.vbcast d a t m) := of_word rfl
theorem vgetl (d : Reg) (a : Reg) (b : Reg) (t : EType) : Statement (.vgetl d a b t) := of_word rfl
theorem vsetl (d : Reg) (a : Reg) (b : Reg) (t : EType) : Statement (.vsetl d a b t) := of_word rfl
theorem vperm (d : Reg) (a : Reg) (b : Reg) (t : EType) (m : Bool) : Statement (.vperm d a b t m) := of_word rfl
theorem vslide (d : Reg) (a : Reg) (b : Reg) (t : EType) (m : Bool) : Statement (.vslide d a b t m) := of_word rfl
theorem vmovm (d : MReg) (a : MReg) : Statement (.vmovm d a) := of_word rfl
theorem vsett (a : Reg) : Statement (.vsett a) := of_word rfl
theorem vrsum (d : Reg) (a : Reg) (t : EType) (m : Bool) : Statement (.vrsum d a t m) := of_word rfl
theorem vrmax (d : Reg) (a : Reg) (t : EType) (m : Bool) : Statement (.vrmax d a t m) := of_word rfl
theorem vrmin (d : Reg) (a : Reg) (t : EType) (m : Bool) : Statement (.vrmin d a t m) := of_word rfl
theorem vpsum (d : Reg) (a : Reg) (t : EType) (m : Bool) : Statement (.vpsum d a t m) := of_word rfl
theorem vcvtBf16F32 (d : Reg) (a : Reg) (m : Bool) : Statement (.vcvtBf16F32 d a m) := of_word rfl
theorem vcvtF32Bf16 (d : Reg) (a : Reg) (m : Bool) : Statement (.vcvtF32Bf16 d a m) := of_word rfl
theorem vcvtF32S32 (d : Reg) (a : Reg) (m : Bool) : Statement (.vcvtF32S32 d a m) := of_word rfl
theorem vcvtS32F32 (d : Reg) (a : Reg) (m : Bool) : Statement (.vcvtS32F32 d a m) := of_word rfl
theorem vcvtS32S8 (d : Reg) (a : Reg) (g : BitVec 2) (m : Bool) : Statement (.vcvtS32S8 d a g m) := of_word rfl
theorem vcvtS8S32 (d : Reg) (a : Reg) (g : BitVec 2) (m : Bool) : Statement (.vcvtS8S32 d a g m) := of_word rfl
theorem vlgx (d : Reg) (a : Reg) (m : Bool) : Statement (.vlgx d a m) := of_word rfl
theorem vlgq (d : Reg) (a : Reg) (b : Reg) (m : Bool) : Statement (.vlgq d a b m) := of_word rfl
theorem vceq (d : MReg) (a : Reg) (b : Reg) (t : EType) (m : Bool) (q : Bool) : Statement (.vceq d a b t m q) := of_word rfl
theorem vclt (d : MReg) (a : Reg) (b : Reg) (t : EType) (m : Bool) (q : Bool) : Statement (.vclt d a b t m q) := of_word rfl
theorem vcle (d : MReg) (a : Reg) (b : Reg) (t : EType) (m : Bool) (q : Bool) : Statement (.vcle d a b t m q) := of_word rfl
theorem vsel (d : Reg) (a : Reg) (b : Reg) (t : EType) (q : Bool) : Statement (.vsel d a b t q) := of_word rfl
theorem mand (d : MReg) (a : MReg) (b : MReg) : Statement (.mand d a b) := of_word rfl
theorem mor (d : MReg) (a : MReg) (b : MReg) : Statement (.mor d a b) := of_word rfl
theorem mnot (d : MReg) (a : MReg) : Statement (.mnot d a) := of_word rfl
theorem mpopc (d : Reg) (a : MReg) : Statement (.mpopc d a) := of_word rfl
theorem blkunp (d : Reg) (a : Reg) : Statement (.blkunp d a) := of_word rfl
theorem blkpk (d : Reg) (a : Reg) (t : EType) : Statement (.blkpk d a t) := of_word rfl
theorem blkaddq (a : Reg) (b : Reg) : Statement (.blkaddq a b) := of_word rfl
theorem blkhdr (d : Reg) (a : Reg) : Statement (.blkhdr d a) := of_word rfl
theorem blkscl (a : Reg) (b : Reg) : Statement (.blkscl a b) := of_word rfl
theorem vmov16 (d : Reg) (b : Reg) (m : Bool) : Statement (.vmov16 d b m) := of_half rfl rfl
theorem vadd16 (d : Reg) (b : Reg) (m : Bool) : Statement (.vadd16 d b m) := of_half rfl rfl
theorem vsub16 (d : Reg) (b : Reg) (m : Bool) : Statement (.vsub16 d b m) := of_half rfl rfl
theorem vmul16 (d : Reg) (b : Reg) (m : Bool) : Statement (.vmul16 d b m) := of_half rfl rfl
theorem vmad16 (d : Reg) (b : Reg) (m : Bool) : Statement (.vmad16 d b m) := of_half rfl rfl
theorem vmin16 (d : Reg) (b : Reg) (m : Bool) : Statement (.vmin16 d b m) := of_half rfl rfl
theorem vmax16 (d : Reg) (b : Reg) (m : Bool) : Statement (.vmax16 d b m) := of_half rfl rfl
theorem vand16 (d : Reg) (b : Reg) (m : Bool) : Statement (.vand16 d b m) := of_half rfl rfl
theorem vor16 (d : Reg) (b : Reg) (m : Bool) : Statement (.vor16 d b m) := of_half rfl rfl
theorem vxor16 (d : Reg) (b : Reg) (m : Bool) : Statement (.vxor16 d b m) := of_half rfl rfl
theorem vneg16 (d : Reg) (b : Reg) (m : Bool) : Statement (.vneg16 d b m) := of_half rfl rfl
theorem vabs16 (d : Reg) (b : Reg) (m : Bool) : Statement (.vabs16 d b m) := of_half rfl rfl
theorem vshl16 (d : Reg) (b : Reg) (m : Bool) : Statement (.vshl16 d b m) := of_half rfl rfl
theorem vsra16 (d : Reg) (b : Reg) (m : Bool) : Statement (.vsra16 d b m) := of_half rfl rfl
theorem vsel16 (d : Reg) (b : Reg) : Statement (.vsel16 d b) := of_half rfl rfl
theorem vsqr (d : Reg) (b : Reg) (m : Bool) : Statement (.vsqr d b m) := of_half rfl rfl
theorem mzero (c : BitVec 1) : Statement (.mzero c) := of_word rfl
theorem mmul (d : Reg) (a : Reg) (b : Reg) : Statement (.mmul d a b) := of_word rfl
theorem mstw (d : Reg) (a : Reg) : Statement (.mstw d a) := of_word rfl
theorem mldw (d : Reg) (a : Reg) : Statement (.mldw d a) := of_word rfl
theorem mqry (d : Reg) : Statement (.mqry d) := of_word rfl
theorem cpy (d : Reg) (a : Reg) (q : BitVec 2) : Statement (.cpy d a q) := of_word rfl
theorem cpyrAddS32 (d : Reg) (a : Reg) (q : BitVec 2) : Statement (.cpyrAddS32 d a q) := of_word rfl
theorem cpyrAddF32 (d : Reg) (a : Reg) (q : BitVec 2) : Statement (.cpyrAddF32 d a q) := of_word rfl
theorem cpyrAddBf16 (d : Reg) (a : Reg) (q : BitVec 2) : Statement (.cpyrAddBf16 d a q) := of_word rfl
theorem cpyrMinS32 (d : Reg) (a : Reg) (q : BitVec 2) : Statement (.cpyrMinS32 d a q) := of_word rfl
theorem cpyrMaxS32 (d : Reg) (a : Reg) (q : BitVec 2) : Statement (.cpyrMaxS32 d a q) := of_word rfl
theorem cpyrMinF32 (d : Reg) (a : Reg) (q : BitVec 2) : Statement (.cpyrMinF32 d a q) := of_word rfl
theorem cpyrMaxF32 (d : Reg) (a : Reg) (q : BitVec 2) : Statement (.cpyrMaxF32 d a q) := of_word rfl
theorem cpyrAnd (d : Reg) (a : Reg) (q : BitVec 2) : Statement (.cpyrAnd d a q) := of_word rfl
theorem cpyrOr (d : Reg) (a : Reg) (q : BitVec 2) : Statement (.cpyrOr d a q) := of_word rfl
theorem cpyg (d : Reg) (a : Reg) (q : BitVec 2) : Statement (.cpyg d a q) := of_word rfl
theorem cpyh (d : Reg) (a : Reg) (q : BitVec 2) : Statement (.cpyh d a q) := of_word rfl
theorem cpyx (d : Reg) (a : Reg) (q : BitVec 2) : Statement (.cpyx d a q) := of_word rfl
theorem cpyq (d : Reg) (q : BitVec 2) : Statement (.cpyq d q) := of_word rfl
theorem ptask (d : Reg) (a : Reg) : Statement (.ptask d a) := of_word rfl
theorem ptinv (a : Reg) (b : Reg) : Statement (.ptinv a b) := of_word rfl
theorem ptstat (d : Reg) (a : Reg) : Statement (.ptstat d a) := of_word rfl
theorem nput (d : Reg) (a : Reg) : Statement (.nput d a) := of_word rfl
theorem nget (d : Reg) (a : Reg) : Statement (.nget d a) := of_word rfl
theorem nsend (d : Reg) (a : Reg) : Statement (.nsend d a) := of_word rfl
theorem nrecv (d : Reg) (a : Reg) : Statement (.nrecv d a) := of_word rfl
theorem nchain (d : Reg) (a : Reg) (b : Reg) : Statement (.nchain d a b) := of_word rfl
theorem ncnt (d : Reg) (a : Reg) : Statement (.ncnt d a) := of_word rfl
theorem bqpop (d : Reg) (a : Reg) : Statement (.bqpop d a) := of_word rfl
theorem bqdone (a : Reg) (b : Reg) : Statement (.bqdone a b) := of_word rfl
theorem fence : Statement .fence := of_word rfl
theorem fenceE : Statement .fenceE := of_word rfl
theorem iflush : Statement .iflush := of_word rfl
theorem hend : Statement .hend := of_word rfl
theorem syscall : Statement .syscall := of_word rfl
theorem brk : Statement .brk := of_word rfl
theorem tret : Statement .tret := of_word rfl
theorem idle : Statement .idle := of_word rfl
theorem yield : Statement .yield := of_word rfl
theorem exit : Statement .exit := of_word rfl
theorem takePendingTrap : Statement .takePendingTrap := of_step rfl rfl
theorem registerWrite : Statement .registerWrite := of_step rfl rfl
theorem hroleWrite : Statement .hroleWrite := of_step rfl rfl
theorem putArrival : Statement .putArrival := of_step rfl rfl
theorem ackArrival : Statement .ackArrival := of_step rfl rfl
theorem departureExpiry : Statement .departureExpiry := of_step rfl rfl
theorem loadReturn : Statement .loadReturn := of_step rfl rfl
theorem remoteStashWrite : Statement .remoteStashWrite := of_step rfl rfl
theorem sideLogReplay : Statement .sideLogReplay := of_step rfl rfl
theorem directStart : Statement .directStart := of_step rfl rfl
theorem submission : Statement .submission := of_step rfl rfl
theorem launchRecordProcess : Statement .launchRecordProcess := of_step rfl rfl
theorem threadStart : Statement .threadStart := of_step rfl rfl
theorem signatureGeneration : Statement .signatureGeneration := of_step rfl rfl
theorem stmapWrite : Statement .stmapWrite := of_step rfl rfl
theorem barrierUpdate : Statement .barrierUpdate := of_step rfl rfl
theorem handlerTableWrite : Statement .handlerTableWrite := of_step rfl rfl
theorem softwareQueueWrite : Statement .softwareQueueWrite := of_step rfl rfl
theorem messageArrival : Statement .messageArrival := of_step rfl rfl
theorem messageReoffer : Statement .messageReoffer := of_step rfl rfl
theorem messageOutcome : Statement .messageOutcome := of_step rfl rfl
theorem returnBufferDrain : Statement .returnBufferDrain := of_step rfl rfl
theorem activationDispatch : Statement .activationDispatch := of_step rfl rfl
theorem watchdogExpiry : Statement .watchdogExpiry := of_step rfl rfl
theorem watchdogKill : Statement .watchdogKill := of_step rfl rfl
theorem ringRecordWrite : Statement .ringRecordWrite := of_step rfl rfl
theorem faultresRetry : Statement .faultresRetry := of_step rfl rfl
theorem faultresTerminal : Statement .faultresTerminal := of_step rfl rfl
theorem frzThawHart : Statement .frzThawHart := of_step rfl rfl
theorem frzThawCq : Statement .frzThawCq := of_step rfl rfl
theorem frzkillHart : Statement .frzkillHart := of_step rfl rfl
theorem frzkillCq : Statement .frzkillCq := of_step rfl rfl
theorem connectionWrite : Statement .connectionWrite := of_step rfl rfl
theorem fabricPacketReceive : Statement .fabricPacketReceive := of_step rfl rfl
theorem packetRetransmit : Statement .packetRetransmit := of_step rfl rfl
theorem routeRemoval : Statement .routeRemoval := of_step rfl rfl
theorem peerLost : Statement .peerLost := of_step rfl rfl
theorem fabricCommandComplete : Statement .fabricCommandComplete := of_step rfl rfl
theorem linkReplay : Statement .linkReplay := of_step rfl rfl
theorem laneSpare : Statement .laneSpare := of_step rfl rfl
theorem linkPeerSignal : Statement .linkPeerSignal := of_step rfl rfl
theorem linkTrained : Statement .linkTrained := of_step rfl rfl
theorem linkPeerSilent : Statement .linkPeerSilent := of_step rfl rfl
theorem linkQuiesced : Statement .linkQuiesced := of_step rfl rfl
theorem lnkcmdQuiesce : Statement .lnkcmdQuiesce := of_step rfl rfl
theorem lnkcmdDetach : Statement .lnkcmdDetach := of_step rfl rfl
theorem lnkcmdResume : Statement .lnkcmdResume := of_step rfl rfl
theorem lnkcmdReattach : Statement .lnkcmdReattach := of_step rfl rfl
theorem yarrowSendArrival : Statement .yarrowSendArrival := of_step rfl rfl
theorem rendezvousPull : Statement .rendezvousPull := of_step rfl rfl
theorem nsendRetry : Statement .nsendRetry := of_step rfl rfl
theorem assignQueueWrite : Statement .assignQueueWrite := of_step rfl rfl
theorem engineCommandStart : Statement .engineCommandStart := of_step rfl rfl
theorem leaveGrant : Statement .leaveGrant := of_step rfl rfl
theorem cloverRefill : Statement .cloverRefill := of_step rfl rfl
theorem matrixStepComplete : Statement .matrixStepComplete := of_step rfl rfl
theorem arrayGate : Statement .arrayGate := of_step rfl rfl
theorem arrayWakeDone : Statement .arrayWakeDone := of_step rfl rfl
theorem mxwtWrite : Statement .mxwtWrite := of_step rfl rfl
theorem mxidleWrite : Statement .mxidleWrite := of_step rfl rfl
theorem copyPieceDone : Statement .copyPieceDone := of_step rfl rfl
theorem landingHandlerStart : Statement .landingHandlerStart := of_step rfl rfl
theorem chicoryInvalidation : Statement .chicoryInvalidation := of_step rfl rfl
theorem classMapWrite : Statement .classMapWrite := of_step rfl rfl
theorem ebudgetWindow : Statement .ebudgetWindow := of_step rfl rfl
theorem lockstepMismatch : Statement .lockstepMismatch := of_step rfl rfl
theorem sliceEnd : Statement .sliceEnd := of_step rfl rfl
theorem sliceEndDone : Statement .sliceEndDone := of_step rfl rfl
theorem restore : Statement .restore := of_step rfl rfl
theorem restoreDone : Statement .restoreDone := of_step rfl rfl
theorem teardown : Statement .teardown := of_step rfl rfl
theorem partitionWrite : Statement .partitionWrite := of_step rfl rfl
theorem tbuTick : Statement .tbuTick := of_step rfl rfl
theorem launchBudgetExpiry : Statement .launchBudgetExpiry := of_step rfl rfl
theorem ringEnable : Statement .ringEnable := of_step rfl rfl
theorem ringRdWrite : Statement .ringRdWrite := of_step rfl rfl
theorem vfThaw : Statement .vfThaw := of_step rfl rfl
theorem vfKill : Statement .vfKill := of_step rfl rfl
theorem feataccWrite : Statement .feataccWrite := of_step rfl rfl
theorem boot : Statement .boot := of_step rfl rfl
theorem nodeidWrite : Statement .nodeidWrite := of_step rfl rfl
theorem attnonceWrite : Statement .attnonceWrite := of_step rfl rfl
theorem attestationReportDone : Statement .attestationReportDone := of_step rfl rfl
theorem emthrotAssert : Statement .emthrotAssert := of_step rfl rfl
theorem emthrotRelease : Statement .emthrotRelease := of_step rfl rfl
theorem traypresNHigh : Statement .traypresNHigh := of_step rfl rfl
theorem i3cPrivateWrite : Statement .i3cPrivateWrite := of_step rfl rfl
theorem i3cPrivateRead : Statement .i3cPrivateRead := of_step rfl rfl
theorem i3cBroadcastCap : Statement .i3cBroadcastCap := of_step rfl rfl
theorem illegalEncoding : Statement .illegalEncoding := of_step rfl rfl
theorem instructionFetchFault : Statement .instructionFetchFault := of_step rfl rfl
theorem storePerformed : Statement .storePerformed := of_step rfl rfl
theorem chicoryLookup : Statement .chicoryLookup := of_step rfl rfl

end Sys2Proof.Laws.Width
end

