-- ==== Sys2Proof/Laws/Vectors.lean ====
section
/-! SUPPORT. Lanes of a built register, and one lemma per shared operation of the vector instructions. -/

namespace Sys2Proof.Machine

open Sys2Proof.Safety

/-! ### Lanes -/

theorem joinLanes_lt (w : Nat) (xs : List Nat) : joinLanes w xs < 2 ^ (w * xs.length) := by
  induction xs with
  | nil => simp [joinLanes]
  | cons x xs ih =>
    have h1 : x % 2 ^ w < 2 ^ w := Nat.mod_lt _ (by positivity)
    rw [joinLanes, List.length_cons, Nat.mul_succ, Nat.pow_add]
    have h2 : 2 ^ w * (joinLanes w xs + 1) ≤ 2 ^ w * 2 ^ (w * xs.length) := Nat.mul_le_mul_left _ ih
    rw [Nat.mul_add, Nat.mul_one] at h2
    rw [Nat.mul_comm (2 ^ (w * xs.length))]
    omega

theorem joinLanes_div (w : Nat) (xs : List Nat) (i : Nat) : joinLanes w xs / 2 ^ (w * i) % 2 ^ w = xs.getD i 0 % 2 ^ w := by
  induction xs generalizing i with
  | nil => simp [joinLanes]
  | cons x xs ih =>
    have pos : 0 < 2 ^ w := by positivity
    cases i with
    | zero => simp [joinLanes]
    | succ i =>
      rw [joinLanes, Nat.mul_succ, Nat.add_comm (w * i) w, Nat.pow_add, ← Nat.div_div_eq_div_mul]
      rw [Nat.add_mul_div_left _ _ pos, Nat.div_eq_of_lt (Nat.mod_lt _ pos), Nat.zero_add, ih]
      rfl

/-- Lane i of a register built of n lanes that fill it. -/
theorem lane_mkLanes (w n : Nat) (f : Nat → Nat) (h : w * n = 512) {i : Nat} (hi : i < n) : lane w (mkLanes w n f) i = f i % 2 ^ w := by
  unfold lane mkLanes
  have hlt := joinLanes_lt w ((List.range n).map f)
  rw [List.length_map, List.length_range, h] at hlt
  rw [BitVec.toNat_ofNat, Nat.mod_eq_of_lt hlt, joinLanes_div]
  simp [List.getD, hi]

theorem eltBits_mul (e : EType) : eltBits e * laneCount e = 512 := by
  revert e; decide

theorem lane_lt (w : Nat) (v : VWord) (i : Nat) : lane w v i < 2 ^ w := Nat.mod_lt _ (by positivity)

theorem laneActive_eq (m : Bool) (k : BitVec 64) (i : Nat) : laneActive m k i = true ↔ ¬ (m = true ∧ k.getLsbD i = false) := by
  unfold laneActive
  have : (k.toNat / 2 ^ i % 2 == 1) = k.getLsbD i := by
    rw [BitVec.getLsbD, Nat.testBit_eq_decide_div_mod_eq]
    rfl
  rw [this]
  cases m <;> cases k.getLsbD i <;> simp

/-- Lane i of a masked write. -/
theorem lane_merge (e : EType) (m : Bool) (k : BitVec 64) (old : VWord) (g : Nat → Nat) {i : Nat} (hi : i < laneCount e) :
    lane (eltBits e) (mergeLanes (eltBits e) (laneCount e) (laneActive m k) old g) i =
      if m = true ∧ k.getLsbD i = false then lane (eltBits e) old i else g i % 2 ^ eltBits e := by
  unfold mergeLanes
  rw [lane_mkLanes _ _ _ (eltBits_mul e) hi]
  by_cases h : m = true ∧ k.getLsbD i = false
  · rw [if_pos h]
    have : laneActive m k i = false := by
      rw [← Bool.not_eq_true]; intro h'; exact (laneActive_eq m k i).mp h' h
    rw [this]
    exact Nat.mod_eq_of_lt (lane_lt _ _ _)
  · rw [if_neg h, (laneActive_eq m k i).mpr h]
    rfl

/-! ### Lanes stored -/

theorem le_foldl_max (f : Store → Nat) (l : List Store) (n : Nat) : n ≤ l.foldl (fun n st => Nat.max n (f st)) n := by
  induction l generalizing n with
  | nil => exact Nat.le_refl n
  | cons st l ih => exact Nat.le_trans (Nat.le_max_left n (f st)) (ih _)

/-- A store on its way is no lane of the vector store that comes next. -/
theorem group_ne_freshGroup {l : List Store} {st : Store} (h : st ∈ l) : st.group ≠ some (freshGroup l) := by
  suffices ∀ n, st.group.getD 0 + 1 ≤ l.foldl (fun n (st : Store) => Nat.max n (st.group.getD 0 + 1)) n by
    intro e
    have := this 0
    rw [e] at this
    exact absurd this (by simp [freshGroup])
  induction l with
  | nil => exact absurd h List.not_mem_nil
  | cons a l ih =>
    intro n
    rcases List.mem_cons.mp h with rfl | h
    · exact Nat.le_trans (Nat.le_max_right n _) (le_foldl_max _ l _)
    · exact ih h _

/-- No lane of a vector store that comes next is performed ahead of it. -/
theorem performGroup_fresh (s : State) : performGroup s (freshGroup s.ms.stores) = s := by
  have : s.ms.stores.filter (·.group == some (freshGroup s.ms.stores)) = [] :=
    List.filter_eq_nil_iff.mpr fun st h => by simpa using group_ne_freshGroup h
  rw [performGroup, this, List.foldl_nil]

/-- Where a lane left no store on its way, it joins no group. -/
theorem groupStores_self (s : State) (g : Nat) : groupStores s s.ms.stores.length g = s := by
  simp [groupStores]

/-- A lane of a vector store to the local stash is performed at once, and no other store of the machine is. -/
theorem laneTo_stash (s : State) (h i : Nat) (va : Word) (bs : List Byte) (h0 : remoteOf s h va = none) :
    laneTo s h va (.stash i) bs (freshGroup s.ms.stores) =
      .ok (signStore { s with ms := stashWrite s.ms i bs } (s.hart h).vcopy va bs) := by
  have hk : (signStore { s with ms := stashWrite s.ms i bs } (s.hart h).vcopy va bs).ms.stores = s.ms.stores := by
    rw [signStore_ms]; show (stashWrite s.ms i bs).stores = _; unfold stashWrite; dsimp only; split <;> rfl
  have := groupStores_self (signStore { s with ms := stashWrite s.ms i bs } (s.hart h).vcopy va bs) (freshGroup s.ms.stores)
  rw [hk] at this
  unfold laneTo
  rw [h0]
  simp only [atOnce, if_true, performGroup_fresh, storeTo]
  exact congrArg Except.ok this

/-! ### Shared operations -/

theorem writesV_step4 (s : State) (d : Reg) (v : VWord) (f : Sticky) : WritesV s (s.step4 fun h => (h.wv d v).stick f) d v f 4 :=
  writesV_retire s d v f 4

theorem stick_zero (h : Hart) : h.stick 0#3 = h := by
  unfold Hart.stick stickyOr
  simp

/-- A register of lanes written under a mask. -/
theorem writesLanes_step4 (s : State) (d : Reg) (e : EType) (m : Bool) (f : Sticky) (g z : Nat → Nat)
    (h : ∀ i, i < laneCount e → g i % 2 ^ eltBits e = z i) :
    WritesLanes s (s.step4 fun h => (h.wv d (mergeLanes (eltBits e) (laneCount e) (laneActive m (h.rm 0)) (h.rv d) g)).stick f) d e m f z := by
  refine ⟨_, writesV_step4 s d (mergeLanes (eltBits e) (laneCount e) (laneActive m (s.me.rm 0)) (s.me.rv d) g) f, fun i hi => ?_⟩
  rw [lane_merge _ _ _ _ _ hi, h i hi]

theorem needOld_ok {s : State} {d : Reg} {k : Bool} (h : k = true → s.me.vok d = true) : needOld d k s = .ok () := by
  unfold needOld
  cases k with
  | false => rfl
  | true => exact needV_ok (h rfl)

theorem needPureQ_ok {s : State} {q : Bool} (h : q = true → Impure s) : needPureQ q s = .ok () := by
  unfold needPureQ
  cases q with
  | false => rfl
  | true => exact noPure_ok (h rfl)

/-- A lane instruction of two sources whose waits are over. -/
theorem lanes2_ok {i : Instr} {s u : State} {d a b : Reg} {e : EType} {m q acc : Bool} {f : Nat → Nat → Nat → Nat} {y : VWord}
    {fl : Sticky} {z : Nat → Nat} (hw : i.wf = true) (ha : s.me.vok a = true) (hd : VFree s d) (ho : (m || acc) = true → s.me.vok d = true)
    (hq : q = true → Impure s) (hy : readV2 b q s = .ok (y, fl, u))
    (hz : ∀ k, k < laneCount e →
      f (lane (eltBits e) (u.me.rv a) k) (lane (eltBits e) y k) (lane (eltBits e) (u.me.rv d) k) % 2 ^ eltBits e = z k) :
    ∃ t, lanes2 i d a b e m q acc f s = .next t ∧ WritesLanes u t d e m fl z := by
  refine ⟨_, ?_, writesLanes_step4 u d e m fl _ z hz⟩
  unfold lanes2
  rw [needWf_ok hw, bind_ok, needV_ok ha, bind_ok, needOld_ok ho, bind_ok, needPureQ_ok hq, bind_ok, freeV_ok hd, bind_ok, hy, bind_ok]
  rfl

/-- A lane instruction of one source. -/
theorem lanes1_ok {i : Instr} {s : State} {d a : Reg} {e : EType} {m : Bool} {f : Nat → Nat} {z : Nat → Nat} (hw : i.wf = true)
    (ha : s.me.vok a = true) (hd : VFree s d) (ho : m = true → s.me.vok d = true)
    (hz : ∀ k, k < laneCount e → f (lane (eltBits e) (s.me.rv a) k) % 2 ^ eltBits e = z k) :
    ∃ t, lanes1 i d a e m f s = .next t ∧ WritesLanes s t d e m 0 z := by
  refine ⟨_, ?_, writesLanes_step4 s d e m 0#3 (fun k => f (lane (eltBits e) (s.me.rv a) k)) z hz⟩
  unfold lanes1
  rw [needWf_ok hw, bind_ok, needV_ok ha, bind_ok, needOld_ok ho, bind_ok, freeV_ok hd, bind_ok, finish_ok]
  congr 1
  apply step4_congr
  rw [stick_zero]
  rfl

/-- A conversion whose waits are over. -/
theorem convert_ok {s : State} {d a : Reg} {e : EType} {m : Bool} {f : VWord → Nat → Nat} {fl : VWord → Sticky} {z : Nat → Nat}
    (ha : s.me.vok a = true) (hd : VFree s d) (ho : m = true → s.me.vok d = true)
    (hz : ∀ k, k < laneCount e → f (s.me.rv a) k % 2 ^ eltBits e = z k) :
    ∃ t, convert d a e m f fl s = .next t ∧ WritesLanes s t d e m (fl (s.me.rv a)) z := by
  refine ⟨_, ?_, writesLanes_step4 s d e m (fl (s.me.rv a)) (f (s.me.rv a)) z hz⟩
  unfold convert
  rw [needV_ok ha, bind_ok, needOld_ok ho, bind_ok, freeV_ok hd, bind_ok, finish_ok]
  rfl

/-- A masked write of lanes after its waits. -/
theorem putLanes_ok {s : State} {d : Reg} {e : EType} {m : Bool} {g z : Nat → Nat} (hz : ∀ k, k < laneCount e → g k % 2 ^ eltBits e = z k) :
    WritesLanes s (s.step4 fun h => h.putLanes d e m g) d e m 0 z := by
  have h := writesLanes_step4 s d e m 0#3 g z hz
  have e2 : (s.step4 fun h => h.putLanes d e m g) =
      s.step4 fun h => (h.wv d (mergeLanes (eltBits e) (laneCount e) (laneActive m (h.rm 0)) (h.rv d) g)).stick 0#3 := by
    apply step4_congr; rw [stick_zero]; rfl
  rw [e2]
  exact h

end Sys2Proof.Machine
end

