-- ==== Sys2Proof/Tests/Slice0.lean ====
section
/-! SUPPORT. Tests. Every expected value is the spec's, from a worked case of it or worked out by hand from the rule named. The
theorems test_witness_… give, for each statement of Certificates/Slice0/Obligations.lean and each of its clauses, a state and operands
that meet its hypotheses together. -/

namespace Sys2Proof.Tests

set_option Elab.async false

open Sys2Proof Sys2Proof.Machine Sys2Proof.Safety

/-! ### Small states -/

/-- Hart 0 of core 0 runs a thread in M-mode at 0x1000; f changes it. -/
def on (f : Hart → Hart) : State :=
  State.reset.setHart 0 (f { Hart.reset with slot := .thread, tag := 1, tagCtr := 1, mode := .m, pc := 0x1000 })

/-- The hart with its x registers. -/
def xs (l : List (Nat × Word)) (a : Hart) : Hart := { a with x := l }

/-- The state with bytes of the stashes. -/
def stashOf (m : List (Nat × Byte)) (s : State) : State := { s with ms := { s.ms with stash := m } }

/-- The state with bytes of physical memory. -/
def memOf (m : List (Nat × Byte)) (s : State) : State := { s with ms := { s.ms with mem := m } }

/-- The state with events in flight. -/
def flying (l : List Event) (s : State) : State := { s with flight := l }

/-- The local stash address of offset o. -/
def st (o : Nat) : Word := BitVec.ofNat 64 (0x007F000000000000 + o)

/-- The state after an instruction. -/
def after (i : Instr) (s : State) : Option State :=
  match exec i s with
  | .next t => some t
  | _ => none

/-- An x register after an instruction. -/
def xAfter (i : Instr) (s : State) (r : Reg) : Option Word := (after i s).map (·.me.rx r)

/-- The PC after an instruction. -/
def pcAfter (i : Instr) (s : State) : Option Word := (after i s).map (·.me.pc)

/-- What the newest outstanding load of the hart after an instruction delivers. -/
def loaded (i : Instr) (s : State) : Option LoadTarget := (after i s).bind fun t => t.me.loads.getLast?.map (·.target)

/-- A stash byte after an instruction. -/
def stashAfter (i : Instr) (s : State) (a n : Nat) : Option Nat := (after i s).map fun t => leNat (Memory.readBytes t.ms.stash a n)

/-! ### Encodings (R14 to R21, from the spec's opcode table) -/

/-- Each word decodes to its instruction and is the instruction's encoding. -/
def words (l : List (Nat × Nat × Instr)) : Bool :=
  l.all fun e => decodeTableWord e.1 e.2.1 == some e.2.2 && encode e.2.2 == some (e.1 / 8, BitVec.ofNat 32 e.2.1)


theorem test_words_register : words [
    (32, 0x01A13603, .add 12 19 26), (32, 0x02F08083, .sub 1 8 15), (32, 0x0441DB03, .min 22 29 4),
    (32, 0x07912583, .max 11 18 25), (32, 0x08E07003, .minu 0 7 14), (32, 0x0A31CA83, .maxu 21 28 3),
    (32, 0x0D811503, .slt 10 17 24), (32, 0x0ED06F83, .sltu 31 6 13), (32, 0x0023BA03, .and 20 27 2),
    (32, 0x03730483, .or 9 16 23), (32, 0x04C25F03, .xor 30 5 12), (32, 0x0613A983, .andn 19 26 1),
    (32, 0x0962F403, .orn 8 15 22), (32, 0x0AB24E83, .xnor 29 4 11), (32, 0x00059903, .sll 18 25 0),
    (32, 0x0354E383, .srl 7 14 21), (32, 0x04A43E03, .sra 28 3 10), (32, 0x07F58883, .rol 17 24 31),
    (32, 0x0944D303, .ror 6 13 20), (32, 0x00962D83, .mul 27 2 9), (32, 0x03E77803, .mulh 16 23 30),
    (32, 0x0536C283, .mulhu 5 12 19), (32, 0x06861D03, .div 26 1 8), (32, 0x09D76783, .divu 15 22 29),
    (32, 0x0B26B203, .rem 4 11 18), (32, 0x0C760C83, .remu 25 0 7), (32, 0x00095703, .clz 14 21), (32, 0x02083E03, .ctz 28 3),
    (32, 0x04091503, .popc 10 17), (32, 0x0609FC03, .brev 24 31), (32, 0x014AD303, .bext 6 13 20),
    (32, 0x029A2D83, .bins 27 2 9)] = true := by decide +kernel

theorem test_words_immediate_to_lpc : words [
    (32, 0xF7917805, .addi 16 23 0xf79), (32, 0x2232C285, .andi 5 12 0x223), (32, 0x4CD41D05, .ori 26 1 0x4cd),
    (32, 0x77776785, .xori 15 22 0x777), (32, 0x0218B205, .slli 4 11 0x21), (32, 0x00BA0C85, .srli 25 0 11),
    (32, 0x035D5705, .srai 14 21 0x35), (32, 0x21FEA185, .slti 3 10 0x21f), (32, 0x2993BC07, .lih 24 0x2993b),
    (32, 0xBB057309, .lpc 6 0xbb057)] = true := by decide +kernel

theorem test_words_branch_to_jlr : words [
    (32, 0x31B1408B, .beq 20 27 0x301), (32, 0x5B02958B, .bne 9 16 0x5ab), (32, 0x8455EA8B, .blt 30 5 0x855),
    (32, 0xAFA73F8B, .bge 19 26 0xaff), (32, 0xDAF8848B, .bltu 8 15 0xda9), (32, 0x044BD98B, .bgeu 29 4 0x53),
    (32, 0x760D278B, .brdy 18 0x76f), (32, 0xE80E058B, .bnrdy 0 0xe8b), (32, 0x8C5A770D, .jl 14 0x8c5a7),
    (32, 0x85103E0F, .jlr 28 3 0x851)] = true := by decide +kernel

theorem test_words_load_to_acquire_release : words [
    (32, 0xAFB18891, .ldB 17 24 0xafb), (32, 0xDA52D311, .ldH 6 13 0xda5), (32, 0x04F42D91, .ldW 27 2 0x4f),
    (32, 0x2F977811, .ldD 16 23 0x2f9), (32, 0x5A38C291, .lduB 5 12 0x5a3), (32, 0x84DA1D11, .lduH 26 1 0x84d),
    (32, 0xAF7D6791, .lduW 15 22 0xaf7), (32, 0xDA1EB211, .ldT 4 11 0xda1), (32, 0x04019593, .stB 25 0 0x4b),
    (32, 0x2F52EA93, .stH 14 21 0x2f5), (32, 0x58A43F93, .stW 3 10 0x59f), (32, 0x85F78493, .stD 24 31 0x849),
    (32, 0xAF4ED993, .stT 13 20 0xaf3), (32, 0x00009115, .ldAq 2 9), (32, 0x01730015, .stRl 16 23),
    (32, 0x0055E015, .ldto 30 5), (32, 0x0136C015, .ldtoW 12 19)] = true := by decide +kernel

theorem test_words_amo : words [
    (32, 0x02841D17, .amoswapW 26 1 8 false true), (32, 0x04B64E97, .amoswapD 29 4 11 true false),
    (32, 0x0AE47017, .amoaddW 0 7 14 false true), (32, 0x0D16A197, .amoaddD 3 10 17 true false),
    (32, 0x1344D317, .amoandW 6 13 20 false true), (32, 0x15770497, .amoandD 9 16 23 true false),
    (32, 0x1BA53617, .amoorW 12 19 26 false true), (32, 0x1DD76797, .amoorD 15 22 29 true false),
    (32, 0x22059917, .amoxorW 18 25 0 false true), (32, 0x2437CA97, .amoxorD 21 28 3 true false),
    (32, 0x2A65FC17, .amominW 24 31 6 false true), (32, 0x2C962D97, .amominD 27 2 9 true false),
    (32, 0x32C45F17, .amomaxW 30 5 12 false true), (32, 0x34F68097, .amomaxD 1 8 15 true false),
    (32, 0x3B24B217, .amominuW 4 11 18 false true), (32, 0x3D56E397, .amominuD 7 14 21 true false),
    (32, 0x43851517, .amomaxuW 10 17 24 false true), (32, 0x45B74697, .amomaxuD 13 20 27 true false),
    (32, 0x4BE57817, .amocasW 16 23 30 false true), (32, 0x4C17A997, .amocasD 19 26 1 true false),
    (32, 0x5245DB17, .amofaddW 22 29 4 false true)] = true := by decide +kernel

theorem test_words_fence_barrier_to_message : words [
    (32, 0x00000019, .fence), (32, 0x00100019, .fenceE), (32, 0x00020019, .iflush), (32, 0x00059019, .barexp 25 0),
    (32, 0x00E67019, .bararr 7 14), (32, 0x0039CA99, .barwait 21 28 3), (32, 0x0310A01B, .rput 10 17 true),
    (32, 0x06D06F9B, .rputS 31 6 13 true), (32, 0x0023B01B, .rputv 27 2 false), (32, 0x05E3781B, .rputvS 16 23 30 false),
    (32, 0x0004061B, .arm 12), (32, 0x0006099B, .armv 19), (32, 0x0311A01D, .msend 26 17 1),
    (32, 0x0B11679D, .msendS 15 22 17 1), (32, 0x0193259D, .callat 11 18 25), (32, 0x0004001D, .hend),
    (32, 0x0006001D, .hmask 0), (32, 0x0206701D, .hunmask 7)] = true := by decide +kernel

theorem test_words_queue_system : words [
    (32, 0xBB51571F, .qpop 14 21 0xbb5), (32, 0xE5F2A69F, .qadv 13 10 0xe5f), (32, 0x10941C1F, .qcnt 24 1 0x109),
    (32, 0x3B37459F, .qcfg 11 20 0x3b3), (32, 0x65D8951F, .qwait 10 9 0x65d), (32, 0x00000021, .syscall),
    (32, 0x00100021, .brk), (32, 0x00200021, .tret), (32, 0x00300021, .idle), (32, 0x00400021, .yield), (32, 0x00500021, .exit),
    (32, 0x9073EBA1, .csrr 23 30 0x907), (32, 0xBB153621, .csrw 12 19 0xbb1), (32, 0xE5B680A1, .csrs 1 8 0xe5b),
    (32, 0x1059DB21, .csrc 22 29 0x105), (32, 0x000AB921, .tlbinvAll 11 18), (32, 0x001B9021, .tlbinvAsid 25 0),
    (32, 0x002A7721, .tlbinvVa 7 14), (32, 0x003B5E21, .tlbinvStage2 21 28), (32, 0x000C3021, .park 3),
    (32, 0x001CA021, .resume 10), (32, 0x000F88A1, .migrate 17 24)] = true := by decide +kernel

theorem test_words_launch_cache : words [
    (32, 0x00D14FA3, .spawn 31 20 13), (32, 0x02014023, .armlr 20 0), (32, 0x05009123, .lchk 2 9 16),
    (32, 0x01E17025, .rwb 23 30), (32, 0x00C25025, .rinv 5 12), (32, 0x01A53025, .disc 19 26), (32, 0x00861025, .pin 1 8),
    (32, 0x0168F025, .unpin 15 22), (32, 0x004BD025, .pref 29 4)] = true := by decide +kernel

theorem test_words_vector_integer : words [
    (32, 0x059325A9, .vadd 11 18 25 1 false true), (32, 0x0C33CAA9, .vsub 21 28 3 1 false true),
    (32, 0x14D26FA9, .vmul 31 6 13 1 false true), (32, 0x1D7304A9, .vmulh 9 16 23 1 false true),
    (32, 0x2413A9A9, .vmin 19 26 1 1 false true), (32, 0x2CB24EA9, .vmax 29 4 11 1 false true),
    (32, 0x3552E3A9, .vand 7 14 21 1 false true), (32, 0x3DF388A9, .vor 17 24 31 1 false true),
    (32, 0x44922DA9, .vxor 27 2 9 1 false true), (32, 0x4D32C2A9, .vshl 5 12 19 1 false true),
    (32, 0x55D367A9, .vshr 15 22 29 1 false true), (32, 0x5C720CA9, .vsra 25 0 7 1 false true),
    (32, 0x6200A1A9, .vabs 3 10 0 true), (32, 0x6A086FA9, .vneg 31 6 4 true), (32, 0x74962DA9, .vadds 27 2 9 3 false true),
    (32, 0x7D36C2A9, .vsubs 5 12 19 3 false true), (32, 0x85D767A9, .vmad 15 22 29 3 false true)] = true := by decide +kernel

theorem test_words_vector_float : words [
    (32, 0x047E0CAB, .vfadd 25 0 7 1 false true), (32, 0x0D1EA1AB, .vfsub 3 10 17 1 false true),
    (32, 0x15BF46AB, .vfmul 13 20 27 1 false true), (32, 0x1C5FEBAB, .vfma 23 30 5 1 false true),
    (32, 0x24FE80AB, .vfmin 1 8 15 1 false true), (32, 0x2D9F25AB, .vfmax 11 18 25 1 false true),
    (32, 0x320FCAAB, .vfabs 21 28 1 true), (32, 0x3A0F88AB, .vfneg 17 24 1 true), (32, 0x420F46AB, .vexp2 13 20 1 true),
    (32, 0x4A0F04AB, .vlog2 9 16 1 true), (32, 0x520EC2AB, .vrcp 5 12 1 true), (32, 0x5A0E80AB, .vrsq 1 8 1 true)] = true := by decide +kernel

theorem test_words_vector_memory_lane_move : words [
    (32, 0x02044EAD, .vld 29 4 2 true), (32, 0x0A000CAD, .vst 25 0 0 true), (32, 0x103BCAAD, .vlds 21 28 3 5 false),
    (32, 0x1A69FC2D, .vsts 24 31 6 4 true), (32, 0x20962DAD, .vgath 27 2 9 3 false), (32, 0x2AC45F2D, .vscat 30 5 12 2 true),
    (32, 0x320080AD, .vldT 1 8 0 true), (32, 0x3A084EAD, .vstT 29 4 4 true), (32, 0x02040CAF, .vbcast 25 0 2 true),
    (32, 0x0833CAAF, .vgetl 21 28 3 1), (32, 0x11FB88AF, .vsetl 17 24 31 5), (32, 0x19B746AF, .vperm 13 20 27 3 false),
    (32, 0x23E5782F, .vslide 16 23 30 2 true), (32, 0x280023AF, .vmovm 7 2), (32, 0x3000102F, .vsett 1)] = true := by decide +kernel

theorem test_words_reduction_to_compare_mask : words [
    (32, 0x0006F431, .vrsum 8 15 3 false), (32, 0x0802B231, .vrmax 4 11 1 false), (32, 0x100A7031, .vrmin 0 7 5 false),
    (32, 0x18063E31, .vpsum 28 3 3 false), (32, 0x0201FC33, .vcvtBf16F32 24 31 true),
    (32, 0x080146B3, .vcvtF32Bf16 13 20 false), (32, 0x12009133, .vcvtF32S32 2 9 true),
    (32, 0x1801EBB3, .vcvtS32F32 23 30 false), (32, 0x20113633, .vcvtS32S8 12 19 1 false),
    (32, 0x2810F433, .vcvtS8S32 8 15 1 false), (32, 0x3200B233, .vlgx 4 11 true), (32, 0x3A700CB3, .vlgq 25 0 7 true),
    (32, 0x043BC0B5, .vceq 1 28 3 5 false true), (32, 0x0CDA61B5, .vclt 3 6 13 5 false true),
    (32, 0x157B02B5, .vcle 5 16 23 5 false true), (32, 0x181BA9B5, .vsel 19 26 1 5 false), (32, 0x20401335, .mand 6 1 4),
    (32, 0x285023B5, .mor 7 2 5), (32, 0x30003035, .mnot 0 3), (32, 0x38001735, .mpopc 14 1)] = true := by decide +kernel

theorem test_words_block_halfword : words [
    (32, 0x00009D39, .blkunp 26 9), (32, 0x08066AB9, .blkpk 21 6 3), (32, 0x1061F039, .blkaddq 31 6),
    (32, 0x180146B9, .blkhdr 13 20), (32, 0x2021B039, .blkscl 27 2), (16, 0xC460, .vmov16 3 17 true),
    (16, 0x97C2, .vadd16 30 5 true), (16, 0x6A64, .vsub16 19 26 false), (16, 0xBD06, .vmul16 8 15 true),
    (16, 0x13A8, .vmad16 29 4 false), (16, 0xE64A, .vmin16 18 25 true), (16, 0x38EC, .vmax16 7 14 false),
    (16, 0x8F8E, .vand16 28 3 true), (16, 0x6230, .vor16 17 24 false), (16, 0xB4D2, .vxor16 6 13 true),
    (16, 0x0B74, .vneg16 27 2 false), (16, 0xDE16, .vabs16 16 23 true), (16, 0x30B8, .vshl16 5 12 false),
    (16, 0x875A, .vsra16 26 1 true), (16, 0x37DC, .vsel16 30 13), (16, 0x13BE, .vsqr 29 4 false)] = true := by decide +kernel

theorem test_words_matrix_copy : words [
    (32, 0x0000103B, .mzero 1), (32, 0x02B144BB, .mmul 9 20 11), (32, 0x0400C73B, .mstw 14 12), (32, 0x06014E3B, .mldw 28 20),
    (32, 0x0800053B, .mqry 10), (32, 0x000688BD, .cpy 17 8 3), (32, 0x0203433D, .cpyrAddS32 6 20 1),
    (32, 0x12064DBD, .cpyrAddF32 27 4 3), (32, 0x2203083D, .cpyrAddBf16 16 16 1), (32, 0x320602BD, .cpyrMinS32 5 0 3),
    (32, 0x4202CD3D, .cpyrMaxS32 26 12 1), (32, 0x520787BD, .cpyrMinF32 15 24 3), (32, 0x6202823D, .cpyrMaxF32 4 8 1),
    (32, 0x72074CBD, .cpyrAnd 25 20 3), (32, 0x8202473D, .cpyrOr 14 4 1), (32, 0x040701BD, .cpyg 3 16 3),
    (32, 0x06020C3D, .cpyh 24 0 1), (32, 0x0806C6BD, .cpyx 13 12 3), (32, 0x0A06013D, .cpyq 2 3)] = true := by decide +kernel

theorem test_words_task_to_gate : words [
    (32, 0x0000083F, .ptask 16 0), (32, 0x0251E03F, .ptinv 30 5), (32, 0x0401363F, .ptstat 12 19),
    (32, 0x00018D41, .nput 26 24), (32, 0x02004441, .nget 8 4), (32, 0x0400CB41, .nsend 22 12), (32, 0x06014241, .nrecv 4 20),
    (32, 0x08019941, .nchain 18 25 0), (32, 0x0A00E3C1, .ncnt 7 14), (32, 0x0001CAC3, .bqpop 21 28),
    (32, 0x00A23043, .bqdone 3 10)] = true := by decide +kernel


/-! ### Integer instructions -/

theorem test_witness_integers : XReady (on id) [1, 2] ∧ XFree (on id) 3 ∧ XReady (on id) [3] := by decide

theorem test_add_sub : xAfter (.add 3 1 2) (on (xs [(1, 0xFFFFFFFFFFFFFFFF), (2, 2)])) 3 = some 1 ∧
    xAfter (.sub 3 1 2) (on (xs [(1, 1), (2, 2)])) 3 = some (-1) ∧ xAfter (.add 0 1 2) (on (xs [(1, 5)])) 0 = some 0 := by decide +kernel

theorem test_min_max : xAfter (.min 3 1 2) (on (xs [(1, -1), (2, 1)])) 3 = some (-1) ∧
    xAfter (.max 3 1 2) (on (xs [(1, -1), (2, 1)])) 3 = some 1 ∧ xAfter (.minu 3 1 2) (on (xs [(1, -1), (2, 1)])) 3 = some 1 ∧
    xAfter (.maxu 3 1 2) (on (xs [(1, -1), (2, 1)])) 3 = some (-1) ∧ xAfter (.slt 3 1 2) (on (xs [(1, -1), (2, 1)])) 3 = some 1 ∧
    xAfter (.sltu 3 1 2) (on (xs [(1, -1), (2, 1)])) 3 = some 0 := by decide +kernel

theorem test_logic : xAfter (.and 3 1 2) (on (xs [(1, 0xC), (2, 0xA)])) 3 = some 8 ∧
    xAfter (.or 3 1 2) (on (xs [(1, 0xC), (2, 0xA)])) 3 = some 0xE ∧ xAfter (.xor 3 1 2) (on (xs [(1, 0xC), (2, 0xA)])) 3 = some 6 ∧
    xAfter (.andn 3 1 2) (on (xs [(1, 0xC), (2, 0xA)])) 3 = some 4 ∧ xAfter (.orn 3 1 2) (on (xs [(1, 0xC), (2, 0xA)])) 3 = some (-3) ∧
    xAfter (.xnor 3 1 2) (on (xs [(1, 0xC), (2, 0xA)])) 3 = some (-7) := by decide +kernel

theorem test_shifts : xAfter (.sll 3 1 2) (on (xs [(1, 3), (2, 0x7F)])) 3 = some 0x8000000000000000 ∧
    xAfter (.srl 3 1 2) (on (xs [(1, -1), (2, 60)])) 3 = some 15 ∧ xAfter (.sra 3 1 2) (on (xs [(1, -16), (2, 2)])) 3 = some (-4) ∧
    xAfter (.rol 3 1 2) (on (xs [(1, 0x8000000000000001), (2, 1)])) 3 = some 3 ∧
    xAfter (.ror 3 1 2) (on (xs [(1, 3), (2, 1)])) 3 = some 0x8000000000000001 := by decide +kernel

-- R54: −7 REM 2 is −1, and −7 DIV 2 is −3.
theorem test_divide : xAfter (.div 3 1 2) (on (xs [(1, -7), (2, 2)])) 3 = some (-3) ∧
    xAfter (.rem 3 1 2) (on (xs [(1, -7), (2, 2)])) 3 = some (-1) ∧ xAfter (.div 3 1 2) (on (xs [(1, 7)])) 3 = some (-1) ∧
    xAfter (.rem 3 1 2) (on (xs [(1, 7)])) 3 = some 7 ∧ xAfter (.divu 3 1 2) (on (xs [(1, -1), (2, 16)])) 3 = some 0x0FFFFFFFFFFFFFFF ∧
    xAfter (.remu 3 1 2) (on (xs [(1, -1), (2, 16)])) 3 = some 15 := by decide +kernel

theorem test_divide_overflow : xAfter (.div 3 1 2) (on (xs [(1, 0x8000000000000000), (2, -1)])) 3 = some 0x8000000000000000 ∧
    xAfter (.rem 3 1 2) (on (xs [(1, 0x8000000000000000), (2, -1)])) 3 = some 0 ∧ xAfter (.divu 3 1 2) (on (xs [(1, 7)])) 3 = some (-1) ∧
    xAfter (.remu 3 1 2) (on (xs [(1, 7)])) 3 = some 7 := by decide +kernel

theorem test_multiply : xAfter (.mul 3 1 2) (on (xs [(1, -3), (2, 5)])) 3 = some (-15) ∧
    xAfter (.mulh 3 1 2) (on (xs [(1, -1), (2, -1)])) 3 = some 0 ∧ xAfter (.mulhu 3 1 2) (on (xs [(1, -1), (2, -1)])) 3 = some (-2) := by
  decide +kernel

theorem test_counts : xAfter (.clz 3 1) (on (xs [(1, 1)])) 3 = some 63 ∧ xAfter (.clz 3 2) (on (xs [])) 3 = some 64 ∧
    xAfter (.ctz 3 1) (on (xs [(1, 8)])) 3 = some 3 ∧ xAfter (.ctz 3 2) (on (xs [])) 3 = some 64 ∧
    xAfter (.popc 3 1) (on (xs [(1, 0xF0F)])) 3 = some 8 ∧ xAfter (.brev 3 1) (on (xs [(1, 1)])) 3 = some 0x8000000000000000 := by
  decide +kernel

-- The worked case of R56.
theorem test_fields : xAfter (.bext 7 5 6) (on (xs [(5, 0xABCD00), (6, 0x1008)])) 7 = some 0xABCD ∧
    xAfter (.bins 8 9 10) (on (xs [(8, -1), (9, 0x12), (10, 0x0804)])) 8 = some 0xFFFFFFFFFFFFF12F ∧
    xAfter (.bext 7 5 6) (on (xs [(5, 0xA000000000000000), (6, 0x083C)])) 7 = some 0xA ∧
    xAfter (.bins 8 9 10) (on (xs [(8, 1), (9, 0xFF), (10, 0x083C)])) 8 = some 0xF000000000000001 := by decide +kernel

-- R58: 0x0001_3000 − 1,467 = 76,357.
theorem test_immediates : xAfter (.addi 5 5 0xA45) (on (xs [(5, 0x13000)])) 5 = some 76357 ∧ xAfter (.lih 5 0x13) (on id) 5 = some 0x13000 ∧
    xAfter (.lih 5 0x80000) (on id) 5 = some 0xFFFFFFFF80000000 ∧ xAfter (.lpc 3 0x10) (on id) 3 = some 0x11000 ∧
    xAfter (.andi 3 1 0xFFF) (on (xs [(1, -2)])) 3 = some (-2) ∧ xAfter (.ori 3 1 0x800) (on (xs [(1, 1)])) 3 = some 0xFFFFFFFFFFFFF801 := by
  decide +kernel

theorem test_immediate_shifts : xAfter (.xori 3 1 0xFFF) (on (xs [(1, 5)])) 3 = some (-6) ∧ xAfter (.slli 3 1 63) (on (xs [(1, 3)])) 3 =
      some 0x8000000000000000 ∧ xAfter (.srli 3 1 63) (on (xs [(1, -1)])) 3 = some 1 ∧ xAfter (.srai 9 6 1) (on (xs [(6, -7)])) 9 = some (-4) ∧
    xAfter (.slti 3 1 0xFFF) (on (xs [(1, -2)])) 3 = some 1 := by decide +kernel

/-! ### Branches and jumps -/

theorem test_witness_branches : (on id).me.pc.getLsbD 0 = false ∧ XReady (on id) [1, 2] ∧ Impure (on id) ∧ XFree (on id) 1 := by decide

theorem test_branch_taken : pcAfter (.beq 1 1 4) (on id) = some 0x1008 ∧ pcAfter (.bne 1 2 0xFFE) (on (xs [(1, 1)])) = some 0xFFC ∧
    pcAfter (.blt 1 2 4) (on (xs [(1, -1)])) = some 0x1008 ∧ pcAfter (.bge 1 1 4) (on id) = some 0x1008 ∧
    pcAfter (.bltu 2 1 4) (on (xs [(1, -1)])) = some 0x1008 ∧ pcAfter (.bgeu 1 2 4) (on (xs [(1, -1)])) = some 0x1008 ∧
    pcAfter (.brdy 0 4) (on id) = some 0x1008 ∧ pcAfter (.bnrdy 1 4) (on (·.armX 1)) = some 0x1008 := by decide +kernel

theorem test_branch_not_taken : pcAfter (.beq 1 2 4) (on (xs [(1, 1)])) = some 0x1004 ∧ pcAfter (.bne 1 1 4) (on id) = some 0x1004 ∧
    pcAfter (.blt 1 1 4) (on id) = some 0x1004 ∧ pcAfter (.bge 1 2 4) (on (xs [(1, -1)])) = some 0x1004 ∧
    pcAfter (.bltu 1 2 4) (on (xs [(1, -1)])) = some 0x1004 ∧ pcAfter (.bgeu 2 1 4) (on (xs [(1, -1)])) = some 0x1004 ∧
    pcAfter (.brdy 1 4) (on (·.armX 1)) = some 0x1004 ∧ pcAfter (.bnrdy 0 4) (on id) = some 0x1004 := by decide +kernel

theorem test_jumps : pcAfter (.jl 1 4) (on id) = some 0x1008 ∧ xAfter (.jl 1 4) (on id) 1 = some 0x1004 ∧
    pcAfter (.jlr 1 1 3) (on (xs [(1, 0x2000)])) = some 0x2002 ∧ xAfter (.jlr 1 1 3) (on (xs [(1, 0x2000)])) 1 = some 0x1004 := by decide +kernel


/-! ### Loads and stores -/

/-- What the statements on the local stash ask of n bytes at offset o. -/
abbrev Plain (s : State) (o n : Nat) : Prop :=
  windowAt s s.myCore o = none ∧ lineLogged s s.myCore (st o) = false ∧ ownLineLogged s s.myCore s.cur (st o) = false ∧
    remotePending s s.cur (.stash (stashIdx s.myCore o)) n = false ∧ isStashPoison s.ms (stashIdx s.myCore o / 64) = false ∧
    ∀ k, k < n → bufferedByte s s.cur (BitVec.ofNat 64 (0x007F000000000000 + o)) (.stash (stashIdx s.myCore o)) k = none

/-- Hart 0 with x1 at a stash offset and x2 a value. -/
def atStash (o : Nat) (v : Word) : State := on (xs [(1, st o), (2, v)])

-- The last dword of the stash, through tile mode too.
theorem test_witness_stash_accesses : Impure (atStash 0x3FFF8 5) ∧ NoBuffer (atStash 0x3FFF8 5) ∧ XReady (atStash 0x3FFF8 5) [1, 2] ∧
    XFree (atStash 0x3FFF8 5) 3 ∧ (atStash 0x3FFF8 5).me.rx 1 + (0#12).signExtend 64 = BitVec.ofNat 64 (0x007F000000000000 + 0x3FFF8) ∧
    Plain (atStash 0x3FFF8 5) 0x3FFF8 8 ∧
    Plain (atStash 0x3FFF8 5) (0x3FFF8 / 256 * 256 + (0x3FFF8 / 8 % 32 + 0x3FFF8 / 256) % 32 * 8) 8 ∧ 0x3FFF8 % 8 = 0 := by decide +kernel

theorem test_loads_signed : loaded (.ldB 3 1 7) (stashOf [(7, 0x80)] (atStash 0 0)) = some (.xreg 3 0xFFFFFFFFFFFFFF80) ∧
    loaded (.ldH 3 1 2) (stashOf [(3, 0x80)] (atStash 0 0)) = some (.xreg 3 0xFFFFFFFFFFFF8000) ∧
    loaded (.ldW 3 1 4) (stashOf [(7, 0x80)] (atStash 0 0)) = some (.xreg 3 0xFFFFFFFF80000000) ∧
    loaded (.ldD 3 1 8) (stashOf [(8, 1), (15, 2)] (atStash 0 0)) = some (.xreg 3 0x0200000000000001) := by decide +kernel

-- R65: o = 0x318 is permuted to 0x330.
theorem test_loads_unsigned : loaded (.lduB 3 1 7) (stashOf [(7, 0x80)] (atStash 0 0)) = some (.xreg 3 0x80) ∧
    loaded (.lduH 3 1 2) (stashOf [(3, 0x80)] (atStash 0 0)) = some (.xreg 3 0x8000) ∧
    loaded (.lduW 3 1 4) (stashOf [(7, 0x80)] (atStash 0 0)) = some (.xreg 3 0x80000000) ∧
    loaded (.ldT 3 1 0x318) (stashOf [(0x330, 9)] (atStash 0 0)) = some (.xreg 3 9) := by decide +kernel

theorem test_stores : stashAfter (.stB 1 2 1) (atStash 0 0x8877665544332211) 0 8 = some 0x1100 ∧
    stashAfter (.stH 1 2 2) (atStash 0 0x8877665544332211) 0 8 = some 0x22110000 ∧
    stashAfter (.stW 1 2 4) (atStash 0 0x8877665544332211) 0 8 = some 0x4433221100000000 ∧
    stashAfter (.stD 1 2 8) (atStash 0 0x8877665544332211) 8 8 = some 0x8877665544332211 ∧
    stashAfter (.stT 1 2 0x318) (atStash 0 7) 0x330 8 = some 7 := by decide +kernel

theorem test_misaligned : (after (.ldD 3 1 4) (atStash 0 0)).map (·.me.frozen) = some (some (3, st 4)) ∧
    (after (.stD 1 2 4) (atStash 0 0)).map (·.me.frozen) = some (some (3, st 4)) := by decide +kernel

/-- Partition 0 over all cores, frame 0 online in class P, and the first GiB mapped onto itself at core 0. -/
def mapped (s : State) : State :=
  { s with
    plat := { s.plat with parts := [(0, { Part.reset with len := 1024 })] }
    ms := { s.ms with classMap := [(0, 6)], tlb := [⟨0, 0, 0, true, false, 0, 0x40000000, 0, 0xF, none⟩] } }

/-- Hart 0 with x1 at 0x5000 in memory and x2 a value. -/
def atMem (v : Word) : State := mapped (on (xs [(1, 0x5000), (2, v)]))

theorem test_witness_memory_accesses : Impure (atMem 5) ∧ NoBuffer (atMem 5) ∧ XReady (atMem 5) [1, 2] ∧ XFree (atMem 5) 3 ∧
    needPureRead 0x5000 8 (atMem 5) = .ok () ∧ inWindow 0x5000#64 = false ∧ canonical 0x5000#64 = true ∧
    lineLogged (atMem 5) 0 0x5000 = false ∧ ownLineLogged (atMem 5) 0 0 0x5000 = false ∧ regionOf 0x5000#64 = .global ∧
    (atMem 5).me.vcopy = none ∧ isHost 0x5000 = false := by decide +kernel

theorem test_witness_memory_reached :
    reach (atMem 5) 0 (atMem 5).me.tctx 0x5000 accRead = .ok (.mem 0x5000 none false (l1dOf 0) false, atMem 5) ∧
    reach (atMem 5) 0 (atMem 5).me.tctx 0x5000 accWrite = .ok (.mem 0x5000 none false (l1dOf 0) false, atMem 5) ∧
    remotePending (atMem 5) 0 (.mem 0x5000 none false (l1dOf 0) false) 8 = false ∧
    (readPlace (atMem 5) 0 0x5000 (.mem 0x5000 none false (l1dOf 0) false) 8 true).isOk = true := by decide +kernel

-- A line that reads clean, of which the core holds no copy; no store and no barrier operation of the hart is on its way.
theorem test_witness_memory_line : lineState (atMem 5).ms none 0x5000 = .clean ∧
    Table.find? (atMem 5).ms.copies (copyKey (l1dOf 0) (0x5000 / 64)) = none ∧ hasOwnStore (atMem 5) 0 = false ∧
    barrierPending (atMem 5) 0 (.mem 0x5000 none false (l1dOf 0) false) = false ∧ (atMem 5).me.abuf = [] := by decide +kernel

theorem test_witness_window_load : inWindow 0xFFFFFE0000000000#64 = true ∧
    windowLoad (on id) 0 0xFFFFFE0000000000 8 = .ok 0 ∧ needPureRead 0xFFFFFE0000000000 8 (on id) = .ok () := by decide +kernel

theorem test_memory_load : loaded (.ldW 3 1 4) (memOf [(0x5007, 0x80)] (atMem 0)) = some (.xreg 3 0xFFFFFFFF80000000) := by decide +kernel

theorem test_memory_store : (after (.stH 1 2 2) (atMem 0x1234)).map (fun t => (t.ms.mem, t.ms.stores.map (·.bytes), t.flight)) =
    some ([], [[0x34, 0x12]], [.storePerformed 1]) := by decide +kernel

-- A store to the stash of core 1, whose window stands at 0x007E_0000_0010_0000.
theorem test_witness_remote_store : regionOf 0x007E000000100008#64 = .remote 1 8 ∧ (on id).me.unack < 1023 ∧
    canonical 0x007E000000100008#64 = true := by decide

theorem test_remote_store : (after (.stD 1 2 0) (on (xs [(1, 0x007E000000100008), (2, 5)]))).map (fun t => (t.me.unack, t.flight)) =
    some (1, [.remoteStashWrite 1]) := by decide +kernel

/-- The page of 0x5000 read-mostly, its line replicated in die 1. -/
def shared (v : Word) : State :=
  let s := atMem v
  { s with ms := { s.ms with replicas := [homeKey (some 1) 0x140], tlb := [⟨0, 0, 0, true, false, 0, 0x40000000, 0, 0x10F, none⟩] } }

theorem test_witness_collapse : reach (shared 5) 0 (shared 5).me.tctx 0x5000 accWrite =
      .ok (.mem 0x5000 none false (l1dOf 0) true, shared 5) ∧
    replicated (shared 5).ms (0x5000 / 64) = true ∧ Impure (shared 5) ∧ NoBuffer (shared 5) ∧ XReady (shared 5) [1, 2] ∧
    ownLineLogged (shared 5) 0 0 0x5000 = false := by decide +kernel

-- R104: the replicas collapse first; the store is performed and goes past its instruction once they have.
theorem test_collapse : (after (.stD 1 2 0) (shared 5)).map (fun t => (t.me.pc, t.ms.replicas, t.ms.stores.length)) = some (0x1000, [], 0) ∧
    ((after (.stD 1 2 0) (shared 5)).bind (after (.stD 1 2 0))).map (fun t => (t.me.pc, t.ms.mem)) = some (0x1004, [(0x5000, 5)]) := by
  decide +kernel

/-! ### Accesses that end -/

/-- A load to x3 outstanding at hart 0. -/
def loading : State := flying [.loadReturn 0 4] (on fun a => { a with loads := [⟨4, .xreg 3 9, 0, 0⟩], xready := clearReady a.xready 3 })

theorem test_witness_load_return : loading.flight = .loadReturn 0 4 :: [] ∧
    (loading.hart 0).loads.find? (·.id == 4) = some ⟨4, .xreg 3 9, 0#3, 0⟩ := by decide +kernel

theorem test_load_returns : (after .loadReturn loading).map (fun t => ((t.hart 0).rx 3, (t.hart 0).xok 3, (t.hart 0).loads)) =
    some (9, true, []) := by decide +kernel

/-- BLKUNP's five registers, and a vector load of v31, outstanding at hart 0 with the flags of their data. -/
def vloading (d : Reg) (t : LoadTarget) : State :=
  flying [.loadReturn 0 4] (on fun a => { a with loads := [⟨4, t, 5, 2⟩], vready := clearReady a.vready d })

theorem test_witness_vector_return : let l : List VWord := [1, 2, 3, 4, 5]
    (vloading 27 (.vgroup 27 l)).flight = .loadReturn 0 4 :: [] ∧ (27#5).toNat + l.length ≤ 32 ∧
    ((vloading 27 (.vgroup 27 l)).hart 0).loads.find? (·.id == 4) = some ⟨4, .vgroup 27 l, 5#3, 2⟩ ∧
    ((vloading 31 (.vreg 31 7)).hart 0).loads.find? (·.id == 4) = some ⟨4, .vreg 31 7, 5#3, 2⟩ ∧ (31#5).toNat + 1 ≤ 32 := by
  decide +kernel

theorem test_vector_returns : (after .loadReturn (vloading 27 (.vgroup 27 [1, 2, 3, 4, 5]))).map (fun t =>
      ((t.hart 0).rv 27, (t.hart 0).vok 27, (t.hart 0).rv 31, (t.hart 0).rclass)) = some (1, true, 5, 0x500) ∧
    (after .loadReturn (vloading 31 (.vreg 31 7))).map (fun t => ((t.hart 0).rv 31, (t.hart 0).vok 31)) = some (7, true) := by decide +kernel

/-- A store of two bytes at 0x5000 on its way. -/
def storing : State :=
  let s := atMem 0
  flying [.storePerformed 4] { s with ms := { s.ms with stores := [⟨4, 0, 1, 0x5000, 0x5000, [1, 2], .home none none, 0, none, none⟩] } }

theorem test_witness_store_performed : storing.flight = .storePerformed 4 :: [] ∧
    storing.ms.stores.find? (·.id == 4) = some ⟨4, 0, 1, 0x5000, 0x5000, [1, 2], .home none none, 0, none, none⟩ ∧
    storesBefore (storing.ms.stores.filter (·.id < 4)) (⟨4, 0, 1, 0x5000, 0x5000, [1, 2], .home none none, 0, none, none⟩) = [] ∧
    isPoison storing.ms (0x5000 / 64) = false ∧ whereIs storing 0 1 = .resident 0 ∧
    ownsAll { storing.ms with owners := [(wordKey (homeKey none 0x140) 0x5000, l1dOf 0)] } (l1dOf 0) none 0x5000 2 = true := by decide +kernel

theorem test_store_performed : (after .storePerformed storing).map (fun t => (t.ms.mem, t.ms.stores)) =
    some ([(0x5000, 1), (0x5001, 2)], []) := by decide +kernel

/-- An arrival at the barrier object at 0x5000, with EXPECT 1 and PENDING 1. -/
def arriving : State := memOf [(0x5000, 1), (0x5008, 1)] (flying [.barrierUpdate ⟨false, 0x5000, 0x5000, 1, ⟨0, 0, 0⟩, none, some (0, 1), 0⟩] (atMem 0))

theorem test_witness_barrier_update : 0x5000 % 16 = 0 ∧ isPoison arriving.ms (0x5000 / 64) = false ∧ whereIs arriving 0 1 = .resident 0 := by
  decide +kernel

-- R128: PENDING reaches 0 with EXPECT set: PHASE moves on and EXPECT ends.
theorem test_barrier_update : (after .barrierUpdate arriving).map (fun t => Memory.readBytes t.ms.mem 0x5000 12) =
    some [0, 0, 0, 0, 1, 0, 0, 0, 0, 0, 0, 0] := by decide +kernel


/-! ### Puts, ready bits and messages -/

/-- Hart 0, in partition 0, with x1 the locator of its own x6 and x2 a value. -/
def putting (f : Hart → Hart) : State := mapped (on fun a => f (xs [(1, 0x01060000), (2, 7)] a))

theorem test_witness_puts : Impure (putting id) ∧ (putting id).me.isV = false ∧ (putting id).me.unack < 1023 ∧ XReady (putting id) [1, 2] ∧
    VReady (putting id) [2] ∧ XFree (putting id) 3 ∧ NoBuffer (putting id) ∧
    permits (putting id) 0 (resolveLocal (putting id).plat.node 0x01060000) = true ∧ needReleased (putting id) = .ok () ∧
    sendFree (putting id).me false = true ∧ locNode 0x01060000#64 = (putting id).plat.node.toNat := by decide +kernel

-- A rollable activation, and a locator of a core that no table permits.
theorem test_witness_puts_buffered : (putting fun a => { a with slot := .activation 2 }).me.buffering = true ∧
    bufBytes ((putting fun a => { a with slot := .activation 2 }).me.abuf ++ [.put ⟨0x01060000, false, 0, none, 0, none, false, 0, false, none⟩ true])
      ≤ 2048 ∧ permits (on (xs [(1, 0x01060000)])) 0 0x01060000 = false := by decide +kernel

theorem test_put : (after (.rput 1 2 false) (putting id)).map (fun t => (t.me.unack, t.flight)) = some (1,
    [.putArrival ⟨0x01060000, false, 7, none, 0, some ⟨0, 0, 0, 1, none, false, 0, 1⟩, false, 0, false, none⟩]) := by decide +kernel

theorem test_put_status : (after (.rputS 3 1 2 false) (putting id)).map (fun t => (t.me.unack, t.me.xok 3, t.flight)) = some (1, false,
    [.putArrival ⟨0x01060000, false, 7, none, 0, some ⟨0, 0, 0, 1, some 3, true, 0, 1⟩, false, 0, false, none⟩]) := by decide +kernel

theorem test_put_wide : (after (.rputv 1 2 true) (putting fun a => { a with v := [(2, 5)] })).map (·.flight) = some
    [.putArrival ⟨0x01060000, true, 5, some .empty, 0, some ⟨0, 0, 0, 1, none, false, 0, 1⟩, false, 0, false, none⟩] ∧
    (after (.rputvS 3 1 2 false) (putting id)).map (fun t => (t.me.unack, t.me.xok 3)) = some (1, false) := by decide +kernel

-- R68: a locator outside the route table freezes the hart with PARTESC.
theorem test_put_escapes : (after (.rput 1 2 false) (on (xs [(1, 0x01060000)]))).map (fun t => (t.me.frozen, t.me.unack)) =
    some (some (0x15, 0x01060000), 0) := by decide +kernel

theorem test_arm : (after (.arm 3) (on id)).map (fun t => (t.me.xok 3, t.me.xok 2)) = some (false, true) ∧
    (after (.arm 0) (on id)).map (·.me.xok 0) = some true ∧ (after (.armv 3) (on id)).map (fun t => (t.me.vok 3, t.me.vok 2)) =
    some (false, true) := by decide +kernel

-- Bit 0 names channel 0, which keeps its mask.
theorem test_masks : (after (.hmask 1) (on (xs [(1, 0x8000000000000005)]))).map (fun t =>
      (((t.core 0).chan 0).masked, ((t.core 0).chan 2).masked, ((t.core 0).chan 3).masked, ((t.core 0).chan 63).masked)) =
    some (false, true, false, true) ∧ (after (.hunmask 1) ((on (xs [(1, 4)])).setCore 0 (Core.reset.setChan 2
      { Chan.reset with masked := true }))).map (fun t => ((t.core 0).chan 2).masked) = some false := by decide +kernel

/-- Hart 0 with x1 the locator of its own core's channel 2. -/
def messaging : State := mapped (on (xs [(1, 0x820000), (10, 5), (11, 6), (12, 0x2001), (2, 0x3001)]))

theorem test_witness_messages : Impure messaging ∧ NoBuffer messaging ∧ messaging.me.isV = false ∧ XReady messaging [1, 2, 10, 11, 12, 13] ∧
    permits messaging 0 (resolveLocal messaging.plat.node 0x820000) = true ∧ sendFree messaging.me (sendsRequest messaging 0) = true ∧
    10 + 3 ≤ 32 ∧ XFree messaging 3 ∧ messaging.me.sendq = [] ∧ locNode 0x820000#64 = messaging.plat.node.toNat := by decide +kernel

/-- The words 1 to 6 of the message an instruction sends, with its count. -/
def sentWords (i : Instr) (s : State) : Option (List Word × Nat) := (after i s).bind fun t => match t.flight with
  | [.messageArrival m] => some ((m.words.drop 1).take 6, m.count)
  | _ => none

theorem test_message : sentWords (.msend 1 10 1) messaging = some ([5, 6, 0, 0, 0, 0], 2) ∧
    sentWords (.msendS 3 1 10 2) messaging = some ([5, 6, 0x2001, 0, 0, 0], 3) ∧
    sentWords (.callat 3 1 2) messaging = some ([5, 6, 0x2001, 0, 0x3000, 0x01030000], 4) := by decide +kernel

/-! ### Queue handles -/

/-- Core 0's software queue 3 of eight 8-byte slots, with n filled, bound to q1 as a consumer and q2 as a producer; channel 5 bound
to q3. -/
def queued (n : BitVec 16) : State :=
  (on fun a => { a with handles := [(1, .soft 3 false), (2, .soft 3 true), (3, .chan 5)] }).setCore 0
    ((Core.reset.setSoft 3 ⟨n, 0, 0xC8⟩).setChan 5 { Chan.reset with w1 := 0xC8, prod := n, stamps := List.range n.toNat })

-- The count at its limits: all filled, all free; n = min(imm12, 8).
theorem test_witness_queues : Impure (queued 8) ∧ NoBuffer (queued 8) ∧ (queued 8).me.loads = [] ∧ XFree (queued 8) 4 ∧
    Table.find? (queued 8).me.handles 1 = some (.soft 3 false) ∧ Table.find? (queued 8).me.handles 2 = some (.soft 3 true) ∧
    Table.find? (queued 8).me.handles 3 = some (.chan 5) ∧ Table.find? (queued 8).me.handles 4 = none ∧
    (let q := ((queued 8).core 0).softq 3
     min 4095 (2 ^ (q.w1.extractLsb' 6 4).toNat) ≤ (q.prod - q.cons).toNat) ∧
    stashStoreOut (queued 0) 0 = false ∧
    (let q := ((queued 0).core 0).softq 3
     (q.prod - q.cons).toNat + min 4095 (2 ^ (q.w1.extractLsb' 6 4).toNat) ≤ 2 ^ (q.w1.extractLsb' 6 4).toNat) := by decide +kernel

theorem test_queue_counts : (after (.qpop 1 0 3) (queued 8)).map (fun t => ((t.core 0).softq 3).cons) = some 3 ∧
    (after (.qadv 2 0 0xFFF) (queued 0)).map (fun t => ((t.core 0).softq 3).prod) = some 8 ∧
    (after (.qpop 3 0 2) (queued 4)).map (fun t => ((t.core 0).chan 5).cons) = some 2 ∧ xAfter (.qcnt 4 3 0) (queued 4) 4 = some 4 := by
  decide +kernel

theorem test_queue_waits : pcAfter (.qwait 1 0 4) (queued 4) = some 0x1004 ∧ pcAfter (.qwait 1 0 5) (queued 4) = some 0x1000 ∧
    (after (.qpop 4 0 1) (queued 4)).map (·.me.frozen) = some (some (0x12, 4)) := by decide +kernel

/-- Descriptors of R177 in the stash: a producer handle on software queue 15 at 0, channel 63 at 16, a reserved channel 0 at 32. -/
def descriptors : State := stashOf [(0, 0x0F), (1, 3), (16, 0x3F)] (on (xs [(1, st 0), (2, st 16), (3, st 32)]))

theorem test_witness_qcfg : Impure descriptors ∧ XReady descriptors [1] ∧ descriptors.me.rx 1 = BitVec.ofNat 64 (0x007F000000000000 + 0) ∧
    descriptors.me.mode ≠ .u ∧ Plain descriptors 0 16 ∧ Plain descriptors 0x3FFF0 16 ∧
    (on fun a => { a with mode := .u }).me.mode = .u := by decide +kernel

theorem test_qcfg : (after (.qcfg 1 1 0) descriptors).map (·.me.handles) = some [(1, .soft 15 true)] ∧
    (after (.qcfg 1 2 0) descriptors).map (·.me.handles) = some [(1, .chan 63)] ∧
    (after (.qcfg 1 3 0) descriptors).map (·.me.frozen) = some (some (6, st 32)) := by decide +kernel


/-! ### Atomics, acquires and releases -/

/-- Hart 0 with x1 at stash offset o, x2 a value and x3 another. -/
def atomic (o : Nat) (v w : Word) (m : List (Nat × Byte)) : State := stashOf m (on (xs [(1, st o), (2, v), (3, w)]))

theorem test_witness_amo : Impure (atomic 0x3FFF8 1 2 []) ∧ NoBuffer (atomic 0x3FFF8 1 2 []) ∧ XReady (atomic 0x3FFF8 1 2 []) [1, 2, 3] ∧
    XFree (atomic 0x3FFF8 1 2 []) 3 ∧ (atomic 0x3FFF8 1 2 []).me.rx 1 = BitVec.ofNat 64 (0x007F000000000000 + 0x3FFF8) ∧
    (atomic 0x3FFF8 1 2 []).me.vcopy = none ∧ needSyncOrder (atomic 0x3FFF8 1 2 []) = .ok () ∧ Plain (atomic 0x3FFF8 1 2 []) 0x3FFF8 8 ∧ needReleased (atomic 0x3FFF8 1 2 []) = .ok () ∧
    needAcquire (atomic 0x3FFF8 1 2 []) = .ok () := by decide +kernel

theorem test_witness_amo_memory : Impure (atMem 5) ∧ (atMem 5).me.vcopy = none ∧
    reach (atMem 5) 0 (atMem 5).me.tctx ((atMem 5).me.rx 1) accAmo = .ok (.mem 0x5000 none false (l1dOf 0) false, atMem 5) ∧
    needReleased (atMem 5) = .ok () ∧ needAcquire (atMem 5) = .ok () ∧ needSyncOrder (atMem 5) = .ok () ∧ (atMem 5).me.running = true ∧
    (atMem 5).me.tag ≠ 0 ∧ hasOwnStore (atMem 5) 0 = false ∧
    barrierPending (atMem 5) 0 (.mem 0x5000 none false (l1dOf 0) false) = false ∧ (atMem 5).me.abuf = [] ∧
    lineState (atMem 5).ms none 0x5000 = .clean ∧ 0x5000 % 8 = 0 ∧ regionOf 0x5000#64 ≠ .noStash := by decide +kernel

/-- The stash dword at 0 after an AMO, and the old value it delivers. -/
def amo (i : Instr) (s : State) : Option (Nat × LoadTarget) :=
  (after i s).bind fun t => t.me.loads.getLast?.map fun l => (leNat (Memory.readBytes t.ms.stash 0 8), l.target)

theorem test_amo_swap_add : amo (.amoswapW 4 1 2 false false) (atomic 0 0x1122334455667788 0 [(3, 0x80), (4, 1)]) =
      some (0x155667788, .xreg 4 0xFFFFFFFF80000000) ∧
    amo (.amoswapD 4 1 2 true true) (atomic 0 5 0 [(0, 9)]) = some (5, .xreg 4 9) ∧
    amo (.amoaddW 4 1 2 true false) (atomic 0 1 0 [(0, 0xFF), (1, 0xFF), (2, 0xFF), (3, 0xFF)]) = some (0, .xreg 4 (-1)) ∧
    amo (.amoaddD 4 1 2 false true) (atomic 0 1 0 [(0, 0xFF)]) = some (0x100, .xreg 4 0xFF) := by decide +kernel

theorem test_amo_logic : amo (.amoandW 4 1 2 false false) (atomic 0 0xA 0 [(0, 0xC)]) = some (8, .xreg 4 0xC) ∧
    amo (.amoandD 4 1 2 false false) (atomic 0 0xA 0 [(0, 0xC)]) = some (8, .xreg 4 0xC) ∧
    amo (.amoorW 4 1 2 false false) (atomic 0 0xA 0 [(0, 0xC)]) = some (0xE, .xreg 4 0xC) ∧
    amo (.amoorD 4 1 2 false false) (atomic 0 0xA 0 [(0, 0xC)]) = some (0xE, .xreg 4 0xC) ∧
    amo (.amoxorW 4 1 2 false false) (atomic 0 0xA 0 [(0, 0xC)]) = some (6, .xreg 4 0xC) ∧
    amo (.amoxorD 4 1 2 false false) (atomic 0 0xA 0 [(0, 0xC)]) = some (6, .xreg 4 0xC) := by decide +kernel

-- Memory holds −1 as a word, and 0x0000_0000_FFFF_FFFF as a dword.
theorem test_amo_min_max : let m : List (Nat × Byte) := [(0, 0xFF), (1, 0xFF), (2, 0xFF), (3, 0xFF)]
    amo (.amominW 4 1 2 false false) (atomic 0 1 0 m) = some (0xFFFFFFFF, .xreg 4 (-1)) ∧
    amo (.amominD 4 1 2 false false) (atomic 0 1 0 m) = some (1, .xreg 4 0xFFFFFFFF) ∧
    amo (.amomaxW 4 1 2 false false) (atomic 0 1 0 m) = some (1, .xreg 4 (-1)) ∧
    amo (.amomaxD 4 1 2 false false) (atomic 0 1 0 m) = some (0xFFFFFFFF, .xreg 4 0xFFFFFFFF) ∧
    amo (.amominuW 4 1 2 false false) (atomic 0 1 0 m) = some (1, .xreg 4 (-1)) ∧
    amo (.amominuD 4 1 2 false false) (atomic 0 (-1) 0 m) = some (0xFFFFFFFF, .xreg 4 0xFFFFFFFF) ∧
    amo (.amomaxuW 4 1 2 false false) (atomic 0 1 0 m) = some (0xFFFFFFFF, .xreg 4 (-1)) ∧
    amo (.amomaxuD 4 1 2 false false) (atomic 0 (-1) 0 m) = some (0xFFFFFFFFFFFFFFFF, .xreg 4 0xFFFFFFFF) := by decide +kernel

-- CAS compares with x[rd]; 1.0 + 2.0 = 3.0 in f32.
-- R123: infinities of both signs and a NaN, exact zeros of each kind, a subnormal sum, a tie to even.
theorem test_amo_fadd_corners : amoFadd 0x7F800000 0xFF800000 = 0x7FC00000 ∧ amoFadd 0xFFC00001 0x3F800000 = 0x7FC00000 ∧
    amoFadd 0x3F800000 0xBF800000 = 0 ∧ amoFadd 0x80000000 0 = 0 ∧ amoFadd 0x80000000 0x80000000 = 0x80000000 ∧ amoFadd 1 2 = 3 ∧
    amoFadd 0x4B800000 0x3F800000 = 0x4B800000 := by decide +kernel

theorem test_amo_cas_fadd : amo (.amocasW 3 1 2 false false) (atomic 0 7 9 [(0, 9)]) = some (7, .xreg 3 9) ∧
    amo (.amocasW 3 1 2 false false) (atomic 0 7 8 [(0, 9)]) = some (9, .xreg 3 9) ∧
    amo (.amocasD 3 1 2 false false) (atomic 0 7 9 [(0, 9)]) = some (7, .xreg 3 9) ∧
    amo (.amofaddW 4 1 2 false false) (atomic 0 0x40000000 0 [(2, 0x80), (3, 0x3F)]) = some (0x40400000, .xreg 4 0x3F800000) := by
  decide +kernel

theorem test_amo_memory : (after (.amoaddD 4 1 2 false false) (memOf [(0x5000, 3)] (atMem 5))).map (fun t =>
    (t.ms.mem, t.me.loads.map (·.target))) = some ([(0x5000, 8)], [.xreg 4 3]) := by decide +kernel

theorem test_acquire_release : loaded (.ldAq 4 1) (atomic 8 0 0 [(8, 5)]) = some (.xreg 4 5) ∧
    loaded (.ldAq 4 1) (memOf [(0x5000, 3)] (atMem 5)) = some (.xreg 4 3) ∧ stashAfter (.stRl 1 2) (atomic 8 6 0 []) 8 8 = some 6 ∧
    (after (.stRl 1 2) (atMem 6)).map (·.ms.mem) = some [(0x5000, 6)] := by decide +kernel

theorem test_loads_to_locators : let s := mapped (stashOf [(3, 0x80)] (on (xs [(1, st 0), (2, 0x01060000)])))
    (XReady s [1, 2] ∧ permits s 0 (resolveLocal s.plat.node 0x01060000) = true ∧ Plain s 0 8 ∧ s.me.unack < 1023 ∧ NoBuffer s) ∧
    (after (.ldtoW 1 2) s).map (fun t => (t.me.unack, t.flight)) = some (1, [.putArrival ⟨0x01060000, false, 0xFFFFFFFF80000000, none, 0,
      some ⟨0, 0, 0, 1, none, false, 0, 1⟩, false, 0, false, none⟩]) ∧
    (after (.ldto 1 2) s).map (·.flight) = some [.putArrival ⟨0x01060000, false, 0x80000000, none, 0,
      some ⟨0, 0, 0, 1, none, false, 0, 1⟩, false, 0, false, none⟩] := by decide +kernel

/-! ### Fences, barrier objects, cache ranges and translation buffers -/

/-- Core 0 with a copy of line 5 in its L1D, one in its fetch path, and core 1 with one. -/
def copied : State :=
  let s := on id
  { s with ms := { s.ms with copies := [(l1dOf 0 * 2 ^ 50 + 5, ⟨0, 0, 0xFF⟩), (fetchHolder 0 * 2 ^ 50 + 5, ⟨0, 0, 0xFF⟩),
    (l1dOf 1 * 2 ^ 50 + 5, ⟨0, 0, 0xFF⟩)] } }

theorem test_witness_fences : NoBuffer copied ∧ needReleased copied = .ok () ∧ copied.me.engines = 0 ∧ hasOwnStore copied 0 = false ∧
    hasOwnLog copied copied.cur = false ∧ (on fun a => { a with engines := 1 }).me.engines ≠ 0 := by decide +kernel

theorem test_witness_fences_delivered : Delivered copied := fun _ h => absurd h List.not_mem_nil

-- The signature after a FENCE covers every line.
theorem test_fence_signature : (after .fence copied).map (·.me.sigCur) = some (sigUnion copied.me.sigCur sigAll) := by decide +kernel

theorem test_fences : (after .fence copied).map (fun t => t.ms.copies.map (·.1)) =
      some [fetchHolder 0 * 2 ^ 50 + 5, l1dOf 1 * 2 ^ 50 + 5] ∧
    (after .fenceE copied).map (fun t => t.ms.copies.map (·.1)) = some [fetchHolder 0 * 2 ^ 50 + 5, l1dOf 1 * 2 ^ 50 + 5] ∧
    (after .iflush copied).map (fun t => t.ms.copies.map (·.1)) = some [l1dOf 0 * 2 ^ 50 + 5, l1dOf 1 * 2 ^ 50 + 5] ∧
    pcAfter .fenceE (on fun a => { a with engines := 1 }) = some 0x1000 := by decide +kernel

/-- A barrier object at 0x5000 with PHASE 3 and OVERRUN. -/
def barrier (n : Word) : State := memOf [(0x5004, 3), (0x5008, 2)] (atMem n)

theorem test_witness_barriers : XReady (barrier 2) [1, 2] ∧ inWindow ((barrier 2).me.rx 1) = false ∧ needReleased (barrier 2) = .ok () ∧
    needAcquire (barrier 2) = .ok () ∧ hasOwnStore (barrier 2) 0 = false ∧
    reach (barrier 2) 0 (barrier 2).me.tctx 0x5000 accAmo = .ok (.mem 0x5000 none false (l1dOf 0) false, barrier 2) ∧
    reach (barrier 2) 0 (barrier 2).me.tctx 0x5000 accRead = .ok (.mem 0x5000 none false (l1dOf 0) false, barrier 2) := by decide +kernel

theorem test_barriers : xAfter (.barwait 4 1 2) (barrier 2) 4 = some 0x8000000000000003 ∧ pcAfter (.barwait 4 1 2) (barrier 3) = some 0x1000 ∧
    (after (.barexp 1 2) (barrier 4)).map (fun t => (t.me.unack, t.flight)) =
      some (1, [.barrierUpdate ⟨true, 0x5000, 0x5000, 4, ⟨0, 0, 0⟩, some .empty, some (0, 1), 0⟩]) ∧
    (after (.bararr 1 2) (barrier 4)).map (·.flight) =
      some [.barrierUpdate ⟨false, 0x5000, 0x5000, 4, ⟨0, 0, 0⟩, some .empty, some (0, 1), 0⟩] := by decide +kernel

-- x1 at line 0x5000 of memory, x2 the length.
theorem test_witness_cache : XReady (atMem 64) [1, 2] ∧ modeAtLeast (atMem 64).me.mode .s = true ∧ canonicalRange 0x5000 64 = true ∧
    hasOwnStore (atMem 64) 0 = false ∧
    reach (atMem 64) 0 (atMem 64).me.tctx 0x5000 accRead = .ok (.mem 0x5000 none false (l1dOf 0) false, atMem 64) ∧
    reach (atMem 64) 0 (atMem 64).me.tctx 0x5000 accWrite = .ok (.mem 0x5000 none false (l1dOf 0) false, atMem 64) := by decide +kernel

/-- The line at 0x5000 dirty with 5 in memory and 1 beneath it. -/
def dirty (n : Word) : State :=
  let s := memOf [(0x5000, 5)] (atMem n)
  { s with ms := { s.ms with dirty := [(0x140, (1, false))] } }

/-- The line at 0x5000 dirty, and pinned by partition 0. -/
def pinned (n : Word) : State := let s := dirty n; { s with ms := { s.ms with pins := [(0x140, 0)] } }

theorem test_cache_forms : pcAfter (.rwb 1 2) (dirty 64) = some 0x1004 ∧ pcAfter (.rinv 1 2) (dirty 64) = some 0x1004 ∧
    (after (.disc 1 2) (dirty 64)).map (fun t => (t.ms.mem, t.ms.dirty)) = some ([(0x5000, 1)], []) ∧
    pcAfter (.pin 1 2) (pinned 64) = some 0x1004 ∧ pcAfter (.pref 1 2) (dirty 63) = some 0x1004 ∧
    (after (.disc 1 2) (dirty 0)).map (·.ms.mem) = some [(0x5000, 5)] := by decide +kernel

-- R133, R289: DISC gives a line back the poison it had.
theorem test_disc_poison : let s := dirty 64
    (after (.disc 1 2) { s with ms := { s.ms with dirty := [(0x140, (1, true))] } }).map (fun t => isPoison t.ms 0x140) = some true ∧
    (after (.disc 1 2) s).map (fun t => isPoison t.ms 0x140) = some false := by decide +kernel

theorem test_cache_stops : (after (.rwb 1 2) (dirty 65)).map (·.me.frozen) = some (some (3, 0x5000)) ∧
    (after (.unpin 1 2) (pinned 64)).map (·.ms.pins) = some [] ∧
    (after (.pin 1 2) ((dirty 64).setMe { (dirty 64).me with mode := .u })).map (·.me.frozen) = some (some (2, 0x00261025)) := by decide +kernel

/-- The page of 0x5000 without R and W. -/
def denied (v : Word) : State :=
  let s := atMem v
  { s with ms := { s.ms with tlb := [⟨0, 0, 0, true, false, 0, 0x40000000, 0, 0x9, none⟩] } }

theorem test_witness_cache_denied : reach (denied 64) 0 (denied 64).me.tctx 0x5000 accRead = .error (.hold 0x5000 0x5000 1 0 true) ∧
    reach (denied 64) 0 (denied 64).me.tctx 0x5000 accWrite = .error (.hold 0x5000 0x5000 1 1 true) ∧ hasOwnStore (denied 64) 0 = false ∧
    pinnedInSet (denied 64).ms (0x5000 / 64) + 1 < Config.l2Ways ∧ isHost 0x5000 = false := by decide +kernel

-- R131: ACCESS, precisely.
theorem test_cache_denied : (after (.rwb 1 2) (denied 64)).map (·.me.frozen) = some (some (6, 0x5000)) ∧
    (after (.disc 1 2) (denied 64)).map (·.me.frozen) = some (some (6, 0x5000)) := by decide +kernel

/-- Entries of VMID 0 with ASID 0, global, and ASID 1; one of VMID 1. -/
def cached : State :=
  let s := on (xs [(1, 0x1000), (2, 1)])
  { s with ms := { s.ms with tlb := [⟨0, 0, 0, false, false, 0x1000, 0x1000, 0, 0xF, none⟩, ⟨1, 0, 0, true, false, 0x1000, 0x1000, 0, 0xF, none⟩,
    ⟨0, 0, 1, false, false, 0x1000, 0x1000, 0, 0xF, none⟩, ⟨0, 1, 0, false, true, 0, 0x1000, 0, 0xF, some (0, 4096, 0, 0xF)⟩] } }

theorem test_witness_tlb : XReady cached [1, 2] ∧ hasOwnStore cached 0 = false ∧ vmidStores cached cached.me.vmid = false ∧
    modeAtLeast cached.me.mode .h = true ∧ canonical (cached.me.rx 1) = true ∧
    (on fun a => { a with mode := .u }).me.mode = .u ∧ modeAtLeast (on fun a => { a with mode := .s }).me.mode .h = false := by decide +kernel

theorem test_witness_tlb_idle : Impure cached ∧ cached.me.mode = .m ∧ hasOwnLog cached cached.cur = false ∧ NoOwnStore cached ∧
    TlbIdle cached := ⟨by decide, by decide, by decide, fun _ h => absurd h List.not_mem_nil,
  fun _ h => absurd h List.not_mem_nil, fun _ h => absurd h List.not_mem_nil, by decide⟩

/-- An activation whose buffer holds a store to its stash. -/
def bufferingStore : State := on fun a => { a with slot := .activation 2, abuf := [.store (st 8) [1] false (st 8)] }

theorem test_witness_tlb_buffer : Impure bufferingStore ∧ bufferingStore.me.mode ≠ .u ∧ bufferingStore.me.buffering = true ∧
    bufferedStore bufferingStore.me.abuf = true ∧ (flush bufferingStore false).isOk = true := by decide +kernel

theorem test_tlb_buffer : (after (.tlbinvAll 0 0) bufferingStore).map (fun t => (t.me.pc, t.me.abuf, t.me.unrollable, Memory.read t.ms.stash 8)) =
    some (0x1000, [], true, 1) := by decide +kernel

theorem test_tlb : (after (.tlbinvAll 0 0) cached).map (fun t => t.ms.tlb.map (·.vmid)) = some [1] ∧
    (after (.tlbinvAsid 2 0) cached).map (fun t => t.ms.tlb.map (·.asid)) = some [0, 0, 0] ∧
    (after (.tlbinvVa 1 0) cached).map (fun t => t.ms.tlb.map fun e => (e.vmid, e.asid)) = some [(0, 1), (1, 0)] ∧
    (after (.tlbinvStage2 0 0) (cached.setMe { cached.me with vmid := 1 })).map (fun t => t.ms.tlb.map (·.s2)) =
      some [none, none, none, none] := by decide +kernel


/-! ### System calls, traps and returns -/

/-- Hart 0 in a mode, with vectors at every level. -/
def vectored (l : Mode) (f : Hart → Hart) : State :=
  on fun a => f { a with mode := l, utvec := 0x100, sregs := { a.sregs with tvec := 0x200 }, hregs := { a.hregs with tvec := 0x300 },
                         mregs := { a.mregs with tvec := 0x400 } }

theorem test_witness_traps : Impure (vectored .u id) ∧ [0x05, 0x06, 0x15].contains 0x05 = true ∧ [0x05, 0x06, 0x15].contains 0x13 = false := by
  decide

-- R159: from U to S: EPC, CAUSE, TE saved in PTE and cleared, PM 0; from S too, PM 1.
theorem test_trap_to_s : (after .syscall (vectored .u id)).map (fun t => (t.me.pc, t.me.mode, t.me.sregs.epc, t.me.sregs.cause, t.me.status)) =
      some (0x200, .s, 0x1000, 0x13, 0x20) ∧
    (after .brk (vectored .s id)).map (fun t => (t.me.pc, t.me.mode, t.me.sregs.cause, t.me.status)) = some (0x200, .s, 0x14, 0x21) := by
  decide +kernel

-- Delegated to U by TDELEG and UDELEG; and to M where S has no TE.
theorem test_trap_levels : (after .syscall (vectored .u fun a => { a with tdeleg := 0x80000, udeleg := 0x8000000000080000 })).map (fun t =>
      (t.me.pc, t.me.mode, t.me.uepc, t.me.ucause, t.me.udeleg)) = some (0x100, .u, 0x1000, 0x13, 0x4000000000080000) ∧
    (after .syscall (vectored .u fun a => { a with status := 0 })).map (fun t => (t.me.pc, t.me.mode, t.me.mregs.cause, t.me.mstatus)) =
      some (0x400, .m, 0x13, 0x20) ∧
    (after .syscall (vectored .h id)).map (fun t => (t.me.pc, t.me.mode, t.me.hregs.cause, t.me.hstatus)) = some (0x300, .h, 0x13, 0x22) := by
  decide +kernel

-- R164: the kind and the address of the access that freezes stand in the hart for its record.
theorem test_trap_frozen : (takeTrap (vectored .u id) 0 0x06 5 false).me.frozen = some (6, 5) ∧
    (takeTrapAt (vectored .u id) 0 0x06 5 9 2 true).me.frozeAt = (2, 9) ∧
    (after .syscall (on fun a => { a with mode := .u })).map (·.me.frozen) = some (some (0x13, 0)) := by decide +kernel

theorem test_tret : (after .tret (vectored .s fun a => { a with sregs := { a.sregs with epc := 0x500 }, status := 0x20 })).map (fun t =>
      (t.me.pc, t.me.mode, t.me.status)) = some (0x500, .u, 0x30) ∧
    (after .tret (vectored .m fun a => { a with mregs := { a.mregs with epc := 0x501 }, mstatus := 2 })).map (fun t =>
      (t.me.pc, t.me.mode, t.me.mstatus)) = some (0x500, .h, 2) := by decide +kernel

theorem test_idle_yield : (after .idle (on id)).map (fun t => (t.me.idle, t.me.pc)) = some (true, 0x1004) ∧
    (after .idle (on fun a => { a with slot := .activation 2 })).map (·.me.idle) = some false ∧
    (after .yield (on id)).map (fun t => (t.me.yielded, t.me.pc)) = some (true, 0x1004) := by decide +kernel

theorem test_witness_exit : (on id).me.unack = 0 ∧ (on id).me.heldFor = none ∧ (on id).me.slot = .thread ∧ (on id).me.refusal = false ∧ needReleased (on id) = .ok () ∧
    depRoom (on id) 0 = some 0 ∧ (on fun a => { a with unack := 1 }).me.unack ≠ 0 ∧
    (let s := on fun a => { a with slot := .activation 2 }
     s.me.isActivation = true ∧ s.me.unack = 0 ∧ s.me.heldFor = none ∧ Impure s ∧ s.me.abuf = []) := by decide +kernel

theorem test_exit : (after .exit (on id)).map (fun t => ((t.hart 0).slot, (t.core 0).depAt 0)) = some (.free, ⟨0, 3, 0, 1, 0, false, 0⟩) ∧
    (after .hend (on fun a => { a with slot := .activation 2 })).map (fun t => (t.hart 0).slot) = some .free ∧
    (after .hend (on fun a => { a with unack := 1 })).map (fun t => ((t.hart 0).slot, (t.hart 0).pc)) = some (.thread, 0x1000) := by
  decide +kernel

/-! ### CSRs -/

-- Numbers at the ends of the map: VTYPE, a number outside it, one above the mode, a read-only one, RCLASS.
theorem test_witness_csrs : csrPresent 0x020 = true ∧ (0x020 ∈ csrRw) ∧ csrPresent 0xFFF = false ∧
    modeAtLeast Mode.m (Mode.ofCode (0xC00 / 0x400)) = true ∧ modeAtLeast Mode.h (Mode.ofCode (0xC00 / 0x400)) = false ∧
    csrPresent 0xC00 = true ∧ (0x010 ∈ csrRo) ∧ (0x010 ∉ csrRw) ∧ (0x081 ∈ csrRw) ∧ csrPresent 0x081 = true ∧
    hasOwnStore (on id) 0 = false ∧ (0x060 ∈ csrRw) := by decide +kernel

theorem test_csr_writes : (after (.csrw 3 1 0x020) (on (xs [(1, 0xFF)]))).map (fun t => (t.me.rx 3, t.me.vtype)) = some (2, 7) ∧
    (after (.csrs 3 1 0x020) (on (xs [(1, 5)]))).map (fun t => (t.me.rx 3, t.me.vtype)) = some (2, 7) ∧
    (after (.csrc 3 1 0x020) (on (xs [(1, 2)]))).map (fun t => (t.me.rx 3, t.me.vtype)) = some (2, 0) ∧
    xAfter (.csrr 3 0 0x411) (on id) 3 = some 0x88 ∧
    (after (.csrw 0 1 0x081) (on fun a => { a with x := [(1, 0x200)], rclass := 0x700 })).map (·.me.rclass) = some 0x500 := by decide +kernel

-- CSRR of 0xFFF, of 0xC00 below M, and a write of UNACK; the words by R14.
theorem test_csr_stops : (after (.csrr 3 0 0xFFF) (on id)).map (·.me.frozen) = some (some (1, 0xFFF201A1)) ∧
    (after (.csrr 3 0 0xC00) (on fun a => { a with mode := .h })).map (·.me.frozen) = some (some (2, 0xC00201A1)) ∧
    (after (.csrw 3 1 0x010) (on id)).map (·.me.frozen) = some (some (1, 0x010411A1)) := by decide +kernel

theorem test_csr_fields : (writeCsr (on id) 0x400 0xFFFFFFFFFFFFFFFF).me.status = 0x31 ∧
    (writeCsr (on id) 0x431 0xFFFFFFFFFFFFFFFF).me.ptroot = 0x000FFFFFFFFFF000 ∧
    (writeCsr (vectored .h id) 0x404 0x701).me.hregs.tvec = 0x700 ∧ ((writeCsr (on id) 0x410 0xFFFFFFFF).core 0).depgrace = 0xFFFFF ∧
    ownerOf (mapped (on id)) 0 = some 0 ∧ (on id).me.mode = .m := by decide +kernel

theorem test_witness_csr_reads : (mapped (on id)).myCore < 1024 ∧ (on id).me.slot = .thread ∧
    partOf (mapped (on id)) 0 = some 0 ∧ partOf (on id) 0 = none ∧ usedOf (mapped (on id)) 0 < 2 ^ 17 ∧
    ((on id).me.sendq.filter fun e => e.request == true && !e.taken).length < 16 ∧
    (on fun a => { a with slot := .landing 63 }).me.slot = .landing 63 := by decide +kernel

-- R340, R280: PARTID's registers, PTQUOTA with the bytes used, STMAP's EN, MXIDLE.
theorem test_csr_reads : readCsr (mapped (on id)) 0xC11 = 1024 ∧ readCsr (on id) 0xC12 = 0x8000000000000000 ∧
    readCsr (mapped (on id)) 0x450 = 0x10000 ∧
    (writeCsr (mapped (on id)) 0x450 0xFFFFFFFF).reuse.quota = [(0, 0x1FFFF)] ∧
    (writeCsr (on id) 0x067 0xFFFFFFFFFFFFFFFF).me.st 7 = 0x3F3F ∧
    ((writeCsr (on id) 0x091 0x100005).cluster (clusterOf 0)).mxidle = 5 := by decide +kernel

/-! ### Threads moved -/

/-- Partition 0 with its save area at 0x100000; hart 1 of core 0 runs a thread of tag 1 and x1 names it; x2 names hart 2. -/
def moving : State :=
  let s := (mapped (on (xs [(1, 0x10001000000), (2, 0x20000000000)]))).setHart 1
    { Hart.reset with slot := .thread, tag := 1, tagCtr := 1, pc := 0x2000, x := [(5, 9)] }
  s.setPart 0 { s.part 0 with savebase := 0x100000 }

/-- Hart 1 parked, its image at 0x101000 (R48: x5 at 0x028, the PC at 0x108). -/
def parked : State :=
  let s := memOf [(0x101028, 9), (0x101109, 0x20)] (moving.setHart 1 { Hart.reset with slot := .parked, tagCtr := 1 })
  s.setCore 0 { Core.reset with dep := [(0, ⟨0, 1, 1, 1, 0x101000, true, 0⟩)] }

theorem test_witness_park : Impure moving ∧ modeAtLeast moving.me.mode .s = true ∧ XReady moving [1, 2] ∧ XFree moving 2 ∧
    needTarget (moving.me.rx 1) moving = .ok 0 ∧ needTarget (moving.me.rx 2) moving = .ok 0 ∧ namedSlot 0 (moving.me.rx 1) = 1 ∧
    threadAt moving 1 1 = true ∧ (moving.hart 1).heldFor = none ∧ imageBacked moving 1 = true ∧ depRoom moving 0 = some 0 ∧ parkedAt moving 1 1 = none := by decide +kernel

theorem test_witness_resume : (parked.hart 1).thawDue = false ∧ lockSecond moving 0 = false ∧ parkedAt parked 1 1 = some 0 ∧ threadAt parked 1 1 = false ∧
    ((moving.hart 2).slot = .free ∧ roleOf moving 2 = 0 ∧ namedSlot 0 (moving.me.rx 2) = 2) := by decide +kernel

theorem test_park (s : State) (h pa i : Nat) : ((parkThread s h pa i).hart h).slot = .parked := by
  rw [parkThread, saveImage]; exact congrArg _ (State.hart_setHart ..)

theorem test_resume : (after (.resume 1) parked).map (fun t =>
    ((t.hart 1).slot, (t.hart 1).rx 5, (t.hart 1).pc, (t.core 0).depAt 0)) = some (.thread, 9, 0x2000, Dep.free) := by decide +kernel

-- R167: a thread thawed while it was parked takes its trap when it is resident again; without a vector it freezes anew.
theorem test_resume_thawed : let s := parked.setHart 1 { parked.hart 1 with frozen := some (6, 5), thawDue := true }
    parkedAt s 1 1 = some 0 ∧ (s.hart 1).frozen.isSome = true ∧
    (after (.resume 1) s).map (fun t => ((t.hart 1).slot, (t.hart 1).frozen, (t.hart 1).thawDue)) =
      some (.thread, some (6, 5), false) := by decide +kernel

theorem test_migrate : (after (.migrate 2 1) moving).map (fun t => ((t.hart 1).slot, (t.hart 2).slot, t.me.rx 2)) =
    some (.free, .thread, 0x20001000000) := by decide +kernel


/-! ### Vector instructions -/

/-- A vector of lanes of w bits. -/
def vec (w : Nat) (l : List Nat) : VWord := BitVec.ofNat 512 (l.foldr (fun x n => x + 2 ^ w * n) 0)

/-- Hart 0 with v1, v2 and v3. -/
def vectors (a b c : VWord) : State := on fun h => { h with v := [(1, a), (2, b), (3, c)] }

/-- The first n lanes of w bits of a v register after an instruction. -/
def lanesAfter (w n : Nat) (i : Instr) (s : State) (r : Reg) : Option (List Nat) :=
  (after i s).map fun t => (List.range n).map (lane w (t.me.rv r))

/-- RCLASS after an instruction. -/
def flagsAfter (i : Instr) (s : State) : Option Word := (after i s).map (·.me.rclass)

/-- A queue of 64-byte slots at 0x2000, one slot filled, bound to q1. -/
def vqueue : State :=
  (stashOf [(0x2000, 7)] (on fun a => { a with handles := [(1, .soft 3 false)], v := [(1, vec 32 [1])] })).setCore 0
    (Core.reset.setSoft 3 ⟨1, 0, 0x80 * 1024 + 0xE8⟩)

theorem test_witness_queue_operand : let v := qview vqueue 0 (.soft 3 false)
    Table.find? vqueue.me.handles ((2#5).extractLsb' 1 4).toNat = some (.soft 3 false) ∧ v.slotBytes = 64 ∧ 0 < v.filled ∧ v.filled ≤ 1 ∧
    v.base = 0x2000 ∧ v.base + 64 ≤ 0x40000 ∧ windowAt vqueue 0 0x2000 = none ∧ isStashPoison vqueue.ms (0x2000 / 64) = false ∧
    vqueue.me.abuf = [] ∧ Binding.isProducer (.soft 3 false) = false ∧ vqueue.me.vok 2 = true ∧
    Table.find? (on id).me.handles 1 = none ∧ (qview (queued 8) 0 (.soft 3 false)).slotBytes ≠ 64 := by decide +kernel

theorem test_queue_operand : lanesAfter 32 1 (.vadd 3 1 2 2 false true) vqueue 3 = some [8] ∧
    pcAfter (.vadd 3 1 3 2 false true) vqueue = some 0x1000 ∧
    (after (.vadd 3 1 4 2 false true) vqueue).map (·.me.frozen) = some (some (0x12, 2)) := by decide +kernel

theorem test_witness_vectors : let s := vectors 0 0 0
    VReady s [1, 2, 3] ∧ VFree s 3 ∧ XReady s [1, 2] ∧ XFree s 3 ∧ Impure s ∧ readV2 2 false s = .ok (s.me.rv 2, 0, s) ∧
    (7#3).toNat = 7 ∧ (5#3).toNat ≤ 5 := by decide +kernel

-- s8 lanes (type 0): 127 + 1 wraps, and saturates in VADDS.
theorem test_vector_sums : let s := vectors (vec 8 [127, 1, 200]) (vec 8 [1, 2, 100]) (vec 8 [5, 6, 7])
    lanesAfter 8 3 (.vadd 3 1 2 0 false false) s 3 = some [128, 3, 44] ∧ lanesAfter 8 3 (.vsub 3 1 2 0 false false) s 3 = some [126, 255, 100] ∧
    lanesAfter 8 3 (.vadds 3 1 2 0 false false) s 3 = some [127, 3, 44] ∧ lanesAfter 8 3 (.vsubs 3 1 2 0 false false) s 3 = some [126, 255, 128] ∧
    lanesAfter 8 3 (.vmul 3 1 2 0 false false) s 3 = some [127, 2, 32] ∧ lanesAfter 8 3 (.vmad 3 1 2 0 false false) s 3 = some [132, 8, 39] := by
  decide +kernel

-- The mask m0 = 0b101 keeps lane 1; −56 × 100 = −5,600, whose high byte is −22; type 4 is unsigned.
theorem test_vector_masked : let s := on fun h => { h with v := [(1, vec 8 [127, 1, 200]), (2, vec 8 [1, 2, 100]), (3, vec 8 [5, 6, 7])], m := [(0, 5)] }
    lanesAfter 8 3 (.vmulh 3 1 2 0 true false) s 3 = some [0, 6, 234] ∧ lanesAfter 8 3 (.vmin 3 1 2 0 true false) s 3 = some [1, 6, 200] ∧
    lanesAfter 8 3 (.vmax 3 1 2 4 true false) s 3 = some [127, 6, 200] := by decide +kernel

theorem test_vector_bits : let s := vectors (vec 16 [0xC, 0x8000, 0xFFFF]) (vec 16 [0xA, 0x11, 1]) 0
    lanesAfter 16 1 (.vand 3 1 2 1 false false) s 3 = some [8] ∧ lanesAfter 16 1 (.vor 3 1 2 1 false false) s 3 = some [0xE] ∧
    lanesAfter 16 1 (.vxor 3 1 2 1 false false) s 3 = some [6] ∧ lanesAfter 16 3 (.vshl 3 1 2 1 false false) s 3 = some [0x3000, 0, 0xFFFE] ∧
    lanesAfter 16 3 (.vshr 3 1 2 1 false false) s 3 = some [0, 0x4000, 0x7FFF] ∧
    lanesAfter 16 3 (.vsra 3 1 2 1 false false) s 3 = some [0, 0xC000, 0xFFFF] := by decide +kernel

theorem test_vector_signs : let s := vectors (vec 16 [0xFFFF, 0x8000, 5]) 0 0
    lanesAfter 16 3 (.vabs 3 1 1 false) s 3 = some [1, 0x8000, 5] ∧ lanesAfter 16 3 (.vneg 3 1 1 false) s 3 = some [1, 0x8000, 0xFFFB] := by
  decide +kernel

-- f32: 1.0 and 2.0; −0 and a NaN.
theorem test_vector_floats : let s := vectors (vec 32 [0x3F800000, 0x80000000]) (vec 32 [0x40000000, 0x7FC00001]) (vec 32 [0x40400000])
    lanesAfter 32 2 (.vfadd 3 1 2 1 false false) s 3 = some [0x40400000, 0x7FC00000] ∧
    lanesAfter 32 1 (.vfsub 3 1 2 1 false false) s 3 = some [0xBF800000] ∧ lanesAfter 32 1 (.vfmul 3 1 2 1 false false) s 3 = some [0x40000000] ∧
    lanesAfter 32 1 (.vfma 3 1 2 1 false false) s 3 = some [0x40A00000] ∧ lanesAfter 32 1 (.vfmin 3 1 2 1 false false) s 3 = some [0x3F800000] ∧
    lanesAfter 32 1 (.vfmax 3 1 2 1 false false) s 3 = some [0x40000000] ∧ lanesAfter 32 2 (.vfabs 3 1 1 false) s 3 = some [0x3F800000, 0] ∧
    lanesAfter 32 2 (.vfneg 3 2 1 false) s 3 = some [0xC0000000, 0x7FC00000] := by decide +kernel

-- The exact cases of R226: 2^3 = 8, log2 8 = 3, 1/2 = 0.5, 1/√4 = 0.5; bf16 2^1 = 2.
theorem test_vector_approximations : let s := vectors (vec 32 [0x40400000]) (vec 32 [0x41000000]) (vec 32 [0x40800000])
    lanesAfter 32 1 (.vexp2 4 1 1 false) s 4 = some [0x41000000] ∧ lanesAfter 32 1 (.vlog2 4 2 1 false) s 4 = some [0x40400000] ∧
    lanesAfter 32 1 (.vrcp 4 3 1 false) s 4 = some [0x3E800000] ∧ lanesAfter 32 1 (.vrsq 4 3 1 false) s 4 = some [0x3F000000] ∧
    lanesAfter 16 1 (.vexp2 4 1 0 false) (vectors (vec 16 [0x3F80]) 0 0) 4 = some [0x4000] := by decide +kernel

theorem test_lane_moves : let s := on fun h => { h with v := [(1, vec 32 [10, 11, 12, 13]), (2, vec 32 [3, 17, 0, 1])], x := [(1, 0x1FF), (2, -1), (3, 18)] }
    lanesAfter 8 2 (.vbcast 3 1 0 false) s 3 = some [0xFF, 0xFF] ∧ lanesAfter 32 4 (.vperm 3 1 2 2 false) s 3 = some [13, 11, 10, 11] ∧
    lanesAfter 32 4 (.vslide 3 1 2 2 false) s 3 = some [0, 10, 11, 12] ∧ lanesAfter 32 4 (.vsetl 1 1 3 2) s 1 = some [10, 11, 0x1FF, 13] ∧
    xAfter (.vgetl 4 1 3 2) s 4 = some 12 ∧ (after (.vsett 3) s).map (·.me.vtype) = some 2 := by decide +kernel

-- R232's worked case: 2^24 and fifteen ones sum to 0x4B80_0007; VPSUM gives 2^24 in lanes 0 to 2 and 16,777,218 in lane 3.
theorem test_reductions : let s := vectors (vec 32 (0x4B800000 :: List.replicate 15 0x3F800000)) (vec 32 [0xFFFFFFFF, 4, 3]) 0
    lanesAfter 32 1 (.vrsum 3 1 7 false) s 3 = some [0x4B800007] ∧
    lanesAfter 32 4 (.vpsum 3 1 7 false) s 3 = some [0x4B800000, 0x4B800000, 0x4B800000, 0x4B800001] ∧
    lanesAfter 32 1 (.vrmax 3 2 2 false) s 3 = some [4] ∧ lanesAfter 32 1 (.vrmin 3 2 2 false) s 3 = some [0xFFFFFFFF] := by decide +kernel

theorem test_conversions : let s := vectors (vec 32 [0x3F800000, 0x7F800000, 0xBF000000]) (vec 16 [0x3F80, 0x4000]) (vec 32 [0xFFFFFFFF, 300])
    lanesAfter 16 2 (.vcvtBf16F32 4 1 false) s 4 = some [0x3F80, 0x7F80] ∧ lanesAfter 32 2 (.vcvtF32Bf16 4 2 false) s 4 = some [0x3F800000, 0x40000000] ∧
    lanesAfter 32 2 (.vcvtF32S32 4 3 false) s 4 = some [0xBF800000, 0x43960000] ∧
    lanesAfter 32 3 (.vcvtS32F32 4 1 false) s 4 = some [1, 0x7FFFFFFF, 0] ∧ lanesAfter 32 2 (.vcvtS32S8 4 2 0 false) s 4 = some [0xFFFFFF80, 0x3F] ∧
    lanesAfter 8 2 (.vcvtS8S32 4 3 0 false) s 4 = some [0xFF, 127] := by decide +kernel

-- Code 16 is 1.0, and 0x20 is NaR, which sets NAR (bit 10).
theorem test_lg6 : let s := on fun h => { h with v := [(1, vec 8 [16, 0x20]), (2, vec 32 [0x3F800000])], x := [(2, 0x7F), (3, 0)] }
    lanesAfter 32 2 (.vlgx 3 1 false) s 3 = some [0x3F800000, 0x7FC00000] ∧ flagsAfter (.vlgx 3 1 false) s = some 0x400 ∧
    lanesAfter 8 1 (.vlgq 3 2 2 false) s 3 = some [16] ∧ lanesAfter 8 1 (.vlgq 3 2 3 false) s 3 = some [0x20] ∧
    flagsAfter (.vlgq 3 2 3 false) s = some 0x200 := by decide +kernel

theorem test_compares : let s := on fun h => { h with v := [(1, vec 32 [1, 0xFFFFFFFF]), (2, vec 32 [1, 0])], m := [(0, 2), (1, 6), (2, 3)] }
    (after (.vceq 3 1 2 2 false false) s).map (·.me.rm 3) = some 0xFFFD ∧ (after (.vclt 3 1 2 2 false false) s).map (·.me.rm 3) = some 2 ∧
    (after (.vcle 3 1 2 7 false false) (vectors (vec 32 [0x80000000, 0x7FC00000]) 0 0)).map (·.me.rm 3) = some 0xFFFD ∧
    lanesAfter 32 2 (.vsel 3 1 2 2 false) s 3 = some [1, 0] := by decide +kernel

theorem test_masks_registers : let s := on fun h => { h with m := [(1, 6), (2, 3)] }
    (after (.mand 3 1 2) s).map (·.me.rm 3) = some 2 ∧ (after (.mor 3 1 2) s).map (·.me.rm 3) = some 7 ∧
    (after (.mnot 3 1) s).map (·.me.rm 3) = some (-7) ∧ xAfter (.mpopc 3 1) s 3 = some 2 ∧ (after (.vmovm 3 1) s).map (·.me.rm 3) = some 6 := by
  decide +kernel

/-- x1 at the last 64 bytes of the stash, x2 a stride of 8. -/
def vmemory (m : List (Nat × Byte)) : State := stashOf m (on fun h => { h with x := [(1, st 0x3FFC0), (2, 8), (3, st 0)], v := [(1, vec 32 [1, 2, 3]), (2, vec 32 [8, 0])] })

theorem test_witness_stash_vectors : InStash (vmemory []) (st 0x3FFC0) 64 ∧ InStash (vmemory []) (st 0x3FFFC) 4 :=
  ⟨⟨0x3FFC0, rfl, by decide +kernel⟩, ⟨0x3FFFC, rfl, by decide +kernel⟩⟩

theorem test_vector_loads : loaded (.vld 3 1 2 false) (vmemory [(0x3FFC0, 5), (0x3FFC4, 6)]) = some (.vreg 3 (vec 32 [5, 6])) ∧
    loaded (.vlds 4 3 2 2 false) (vmemory [(0, 5), (8, 6)]) = some (.vreg 4 (vec 32 [5, 6])) ∧
    loaded (.vgath 4 3 2 2 false) (vmemory [(0, 5), (8, 6)]) = some (.vreg 4 (vec 32 ([6] ++ List.replicate 15 5))) ∧
    loaded (.vldT 4 3 3 false) (vmemory [(0, 5), (0x108, 6)]) = some (.vreg 4 (vec 64 [5, 6])) := by decide +kernel

-- Lanes that meet: the higher lane's bytes stand.
theorem test_vector_stores : stashAfter (.vst 1 1 2 false) (vmemory []) 0x3FFC0 12 = some 0x000000030000000200000001 ∧
    stashAfter (.vsts 1 3 2 2 false) (vmemory []) 0 24 = some 0x000000000000000300000000000000020000000000000001 ∧
    stashAfter (.vscat 1 3 2 2 false) (vmemory []) 0 12 = some 0x000000010000000000000000 ∧
    stashAfter (.vstT 1 3 3 false) (vmemory []) 0x108 8 = some 3 := by decide +kernel

/-! ### Blocks -/

-- R240's worked case, in bytes 0 to 5 of the destination.
theorem test_block_add : stashAfter (.blkaddq 1 2) (stashOf [(0, 1), (1, 0x7F), (4, 0x10), (5, 0x05), (64, 1), (65, 0x7F), (68, 0x14), (69, 0x0C)]
    (on (xs [(1, st 0), (2, st 64)]))) 0 64 = some 0x065FC8A27C01 := by decide +kernel

/-- An LG6 block of scale 1.0 with codes 16 and 20 (1.0 and 2.0) at offset 0. -/
def block : State := stashOf [(0, 1), (1, 0x7F), (4, 0x10), (5, 0x05)] (on (xs [(1, st 0), (2, 0x40400000)]))

theorem test_witness_blocks : InStash block (block.me.rx 1) 64 ∧ XReady block [1, 2] ∧ Impure block ∧ NoBuffer block ∧ VFree block 27 ∧
    VFree block 31 ∧ XFree block 3 ∧ VReady block [27, 31] :=
  ⟨⟨0, rfl, by decide +kernel⟩, by decide, by decide, by decide, by decide, by decide, by decide, by decide⟩

-- Scale 1.0 times 3.0 gives E 128 and F 0x8000 (R241).
theorem test_blocks : (after (.blkunp 27 1) block).bind (fun t => t.me.loads.getLast?.map fun l => match l.target with
      | .vgroup r vs => (r, lane 32 (vs.getD 0 0) 0, lane 32 (vs.getD 0 0) 1, vs.length)
      | _ => (0, 0, 0, 0)) = some (27, 0x3F800000, 0x40000000, 5) ∧
    xAfter (.blkhdr 3 1) block 3 = some 0x7F01 ∧ stashAfter (.blkscl 1 2) block 0 6 = some 0x051080008001 ∧
    stashAfter (.blkpk 0 1 4) block 0 1 = some 4 := by decide +kernel

/-- The same, where BLKSCL lets other harts come between its read and its write, and where it has read. -/
def stage (b : BlkStage) : State := block.setMe { block.me with blk := b }

theorem test_witness_block_stages : block.me.blk = .whole ∧ (stage .split).me.blk = .split ∧ (stage (.done 7 2)).me.blk = .done 7 2 ∧
    XReady (stage .split) [1, 2] ∧ Impure (stage .split) ∧ NoBuffer (stage .split) := by decide +kernel

-- R242: the read, then the write of what was read; a write between them by another hart is lost.
theorem test_block_stages : (after (.blkscl 1 2) (stage .split)).map (fun t => (t.me.pc, t.ms.stash == block.ms.stash)) = some (0x1000, true) ∧
    ((after (.blkscl 1 2) (stage .split)).bind fun t => stashAfter (.blkscl 1 2) (stashOf [(5, 0xFF)] t) 0 6) = some 0x051080008001 := by
  decide +kernel

/-! ### 16-bit lane forms -/

theorem test_witness_halfwords : VReady (vectors 0 0 0) [3, 1, 0] ∧ VFree (vectors 0 0 0) 3 ∧ ((on id).me.vtype).toNat ≤ 5 ∧ 6 ≤ (7#3).toNat := by decide

theorem test_halfwords : let s := vectors (vec 32 [3, 0xFFFFFFFF]) 0 (vec 32 [5, 2])
    lanesAfter 32 2 (.vmov16 4 1 false) s 4 = some [3, 0xFFFFFFFF] ∧ lanesAfter 32 2 (.vadd16 3 1 false) s 3 = some [8, 1] ∧
    lanesAfter 32 2 (.vsub16 3 1 false) s 3 = some [2, 3] ∧ lanesAfter 32 2 (.vmul16 3 1 false) s 3 = some [15, 0xFFFFFFFE] ∧
    lanesAfter 32 2 (.vmin16 3 1 false) s 3 = some [3, 0xFFFFFFFF] ∧ lanesAfter 32 2 (.vmax16 3 1 false) s 3 = some [5, 2] ∧
    lanesAfter 32 2 (.vsqr 3 1 false) s 3 = some [9, 1] ∧ pcAfter (.vadd16 3 1 false) s = some 0x1002 := by decide +kernel

theorem test_halfword_bits : let s := on fun h => { h with v := [(0, vec 32 [100]), (1, vec 32 [3, 1]), (3, vec 32 [5, 0x80000000])] }
    lanesAfter 32 1 (.vand16 3 1 false) s 3 = some [1] ∧ lanesAfter 32 1 (.vor16 3 1 false) s 3 = some [7] ∧
    lanesAfter 32 1 (.vxor16 3 1 false) s 3 = some [6] ∧ lanesAfter 32 1 (.vneg16 4 1 false) s 4 = some [0xFFFFFFFD] ∧
    lanesAfter 32 2 (.vabs16 4 3 false) s 4 = some [5, 0x80000000] ∧ lanesAfter 32 1 (.vshl16 3 1 false) s 3 = some [40] ∧
    lanesAfter 32 2 (.vsra16 3 1 false) s 3 = some [0, 0xC0000000] ∧ lanesAfter 32 1 (.vsel16 3 1) s 3 = some [5] ∧
    lanesAfter 32 1 (.vmad16 3 1 false) s 3 = some [305] := by decide +kernel

theorem test_halfword_illegal : (after (.vshl16 3 1 false) (on fun a => { a with vtype := 7 })).map (fun t => t.me.frozen.map (·.1)) =
    some (some 1) := by decide +kernel


-- R19: the halfword 0, with v0 ready.
theorem test_halfword_zero : VReady (on id) [0, 0, 0] ∧
    (after (.vmov16 0 0 false) (on id)).map (·.me.frozen) = some (some (1, 0)) := by decide +kernel

/-! ### Engine commands -/

/-- Hart 0 in partition 0 with a group in x20 to x23. -/
def grouped (a b c d : Word) : State := mapped (on (xs [(20, a), (21, b), (22, c), (23, d)]))

/-- The state with m commands waiting in core 0's matrix queue. -/
def matrixFull : State :=
  let c : Cmd := ⟨1, 0, [], 0, 0, 0, 1, ⟨0, 0, 0, 0, false, false⟩, 0, 0, false, none, none, .empty, 0, false, false, false, [], none, none, [], none⟩
  (on id).setCore 0 { Core.reset with mq := [c, c] }

theorem test_witness_matrix : Impure (grouped 0 0 0 0) ∧ NoBuffer (grouped 0 0 0 0) ∧ ((grouped 0 0 0 0).core 0).mq.length < 2 ∧
    Instr.wf (.mmul 8 20 9) = true ∧ Instr.wf (.mstw 8 20) = true ∧ XReady (grouped 0 0 0 0) (groupRegs 20) ∧ XFree (grouped 0 0 0 0) 8 ∧
    XFree (grouped 0 0 0 0) 9 ∧ (matrixFull.core 0).mq.length = 2 ∧ (grouped 0 0 0 0).myCore < 1024 := by decide +kernel

theorem test_matrix : (after (.mzero 1) (on id)).map (fun t => (((t.core 0).mq.map (·.loc)), t.me.pc, t.flight)) =
      some ([0x01000000], 0x1004, [.engineCommandStart (.matrix 0)]) ∧
    (after (.mmul 8 20 9) (grouped 64 64 0 1)).map (fun t => ((t.core 0).mq.map (fun c => (c.g, c.loc, c.loc2)), t.me.xok 8, t.me.xok 9)) =
      some ([([64, 64, 0, 1], 0x01080000, 0x01090000)], false, false) ∧
    (after (.mstw 8 20) (grouped 64 64 0 0)).map (fun t => ((t.core 0).mq.length, t.me.xok 8)) = some (1, false) ∧
    pcAfter (.mzero 0) matrixFull = some 0x1000 ∧ xAfter (.mqry 3) (on id) 3 = some 0x100F0 := by decide +kernel

theorem test_witness_copies : ((grouped 0 0 0 0).core 0).front.length < 2 ∧ Instr.wf (.cpyg 8 20 3) = true ∧ Instr.wf (.mldw 8 20) = true ∧
    needPureCopy ((groupRegs 20).map (grouped 0 0 0 0).me.rx) (grouped 0 0 0 0) = .ok () ∧ Instr.wf (.cpy 8 20 0) = true := by decide +kernel

/-- The commands of core 0's copy queue q after an instruction: their groups. -/
def copyQueued (i : Instr) (s : State) (q : Nat) : Option (List (List Word)) := (after i s).map fun t => ((t.core 0).copyq q).map (·.g)

theorem test_copies : let s := grouped 1 2 3 4
    copyQueued (.cpy 8 20 2) s 2 = some [[1, 2, 3, 4]] ∧ copyQueued (.cpyg 8 20 1) s 1 = some [[1, 2, 3, 4]] ∧
    copyQueued (.cpyh 8 20 3) s 3 = some [[1, 2, 3, 4]] ∧ copyQueued (.cpyx 8 20 0) s 0 = some [[1, 2, 3, 4]] ∧
    copyQueued (.mldw 8 20) s 0 = some [[1, 2, 3, 4]] ∧ xAfter (.cpyq 3 0) s 3 = some 0 := by decide +kernel

theorem test_reductions_queued : let s := grouped 1 2 3 4
    ([Instr.cpyrAddS32 8 20 1, .cpyrAddF32 8 20 1, .cpyrAddBf16 8 20 1, .cpyrMinS32 8 20 1, .cpyrMaxS32 8 20 1, .cpyrMinF32 8 20 1,
      .cpyrMaxF32 8 20 1, .cpyrAnd 8 20 1, .cpyrOr 8 20 1].all fun i => copyQueued i s 1 == some [[1, 2, 3, 4]]) = true := by decide +kernel

/-- A PTASK of the entry 0x5008, whose code length at 0x5000 is 16, with one argument record at 0x5010. -/
def tasking : State := memOf [(0x5000, 16), (0x5010, 7), (0x5018, 8)] (grouped 0x5008 0x5010 0x6000 0x100000040)

theorem test_witness_tasks : Impure tasking ∧ NoBuffer tasking ∧ Instr.wf (.ptask 8 20) = true ∧ XReady tasking (groupRegs 20) ∧
    tasking.me.isV = false ∧ XFree tasking 8 ∧ needReleased tasking = .ok () ∧
    ((loadDword tasking (0x5008 - 8)).bind fun r => (loadRecords r.2 0x5010 1).map fun q => (r.1, q.1, (q.2.core 0).front.length)) =
      .ok (16, [7, 8], 0) ∧ canonicalRange 0x5000 8192 = true ∧ (rangeFrames tasking 0x5000 8192).map (·.1) = .ok [5, 6] := by decide +kernel

theorem test_tasks : (after (.ptask 8 20) tasking).map (fun t => ((t.core 0).copyq 0).map (·.args)) = some [[16, 3, 7, 8]] ∧
    xAfter (.ptstat 3 1) (mapped (on (xs [(1, 4)]))) 3 = some 0x10000 ∧ xAfter (.ptstat 3 1) (mapped (on (xs [(1, 6)]))) 3 = some 0 := by
  decide +kernel

/-- The reuse table with valid entries of partition 0 that source frame 5 and frame 9, and one of partition 1. -/
def reused : State :=
  let e : REntry := ⟨1, 0, 0, 0, 0, 0, 0, [], [], [5], 0, 0, .valid⟩
  let s := mapped (on (xs [(1, 0x5000), (2, 8)]))
  { s with reuse := { s.reuse with entries := [e, { e with id := 2, frames := [9] }, { e with id := 3, part := 1 }] } }

theorem test_ptinv : (after (.ptinv 1 2) reused).map (fun t => t.reuse.entries.map (·.id)) = some [2, 3] := by decide +kernel

/-- Connection 7 open and partition 0's; x5 names it and x6 connection 9, which is closed. -/
def connected : State :=
  let s := mapped (on (xs [(5, 7), (6, 9), (7, 2), (20, 7), (21, 0x5000), (22, 0), (23, 0)]))
  { s with fab := { s.fab with conns := [(7, { Conn.reset with state := 1, count := 3 })] } }

theorem test_witness_fabric : Impure connected ∧ NoBuffer connected ∧ needDelivered connected 0 = .ok () ∧ XReady connected [5, 6, 7] ∧
    XFree connected 8 ∧ XReady connected (groupRegs 20) ∧ connected.me.isV = false ∧ Instr.wf (.nput 8 20) = true ∧
    ((connected.conn 7).state = 1 ∧ ownerOf connected 0 = some (connected.conn 7).part) ∧ ownerOf connected 0 = some 0 ∧ (connected.conn 9).state ≠ 1 ∧
    connLoad (connected.conn 7) < 64 ∧ ownerOf (on id) 0 = none ∧ featureOn connected 3 = false ∧
    (let s := { connected with plat := { connected.plat with featacc := [(0, 8)] } }
     featureOn s 3 = true ∧ recvRoom s 0 ⟨1, 0, 0, 0, 0, 0, 0, 0, s.me.tctx, 0, 0, 0⟩ = true) := by decide +kernel

theorem test_witness_fabric_free : Delivered connected ∧ namesWindow (0x5000 : Word) 64 = false ∧
    namesWindow (0xFFFFFE0000000000 : Word) 8 = true := ⟨fun _ h => absurd h List.not_mem_nil, by decide, by decide⟩

theorem test_fabric : (after (.nput 8 20) connected).map (fun t => ((t.conn 7).queue.length, t.me.xok 8)) = some (1, false) ∧
    (after (.nget 8 20) connected).map (fun t => ((t.conn 7).queue.length, t.me.xok 8)) = some (1, false) ∧
    xAfter (.ncnt 4 5) connected 4 = some 3 ∧ (after (.ncnt 4 6) connected).map (fun t => (t.me.rx 4, t.me.pend)) = some (0, [(0x16, 9)]) := by
  decide +kernel

-- R181: a closed connection's token is 0x16; without Yarrow an NSEND ends with it too, and NRECV with STATUS 3.
theorem test_fabric_refused : (after (.nput 8 20) (connected.setMe { connected.me with x := [(20, 9)] })).map (·.flight) =
      some [.putArrival ⟨0x01080000, false, 0x16, some sigAll, 0, none, true, 0, true, none⟩] ∧
    (after (.nsend 8 20) connected).map (·.flight) = some [.putArrival ⟨0x01080000, false, 0x16, some sigAll, 0, none, true, 0, true, none⟩] ∧
    (after (.nrecv 8 20) connected).map (·.flight) =
      some [.putArrival ⟨0x01080000, false, 0x0000300000000016, some sigAll, 0, none, true, 0, true, none⟩] ∧
    (after (.nchain 7 5 6) connected).map (fun t => (t.me.pend, (t.conn 7).queue)) = some ([(0x16, 9)], []) := by decide +kernel

-- R28: an NRECV whose destination is a window ends with STATUS 3 and the token 0x06 before anything else.
theorem test_receive_window : (after (.nrecv 8 20) (connected.setMe { connected.me with x := [(22, 0xFFFFFE0000000000), (23, 8)] })).map
    (·.flight) = some [.putArrival ⟨0x01080000, false, 0x0000300000000006, some sigAll, 0, none, true, 0, true, none⟩] := by decide +kernel

/-- Hart 0 of gateway core 1024, of partition 0, whose queue 3 has COUNT 3, NEXT 1; x1 names it. -/
def gateway (k : AssignQ) : State :=
  let s := mapped (on id)
  let s := { s with cur := 8192, plat := { s.plat with gwPart := [(1024, 0)] } }
  let s := s.setHart 8192 { Hart.reset with slot := .thread, tag := 1, pc := 0x1000, x := [(1, 3), (2, 0)] }
  s.setAssignq 4 3 k

theorem test_witness_gates : let s := gateway ⟨3, 1, 0, 0, 0, [], 0, []⟩
    Impure s ∧ XReady s [1, 2] ∧ needDelivered s s.myCore = .ok () ∧ isGateway s.myCore = true ∧ tenantOf s s.myCore = some 0 ∧
    XFree s 4 ∧ NoBuffer s ∧ needReleased s = .ok () ∧ s.me.unack < 1023 ∧ isGateway (on id).myCore = false ∧
    (let s := gateway ⟨1, 1, 0, 0, 0x1000000, [], 0, []⟩
     sendFree s.me false = true ∧ (s.assignq 4 3).done + 1 = (s.assignq 4 3).count ∧ permits s s.myCore (resolveLocal s.plat.node 0x1000000) = true) := by decide +kernel

theorem test_witness_gates_released : Delivered (gateway ⟨3, 1, 0, 0, 0, [], 0, []⟩) ∧ Released (gateway ⟨3, 1, 0, 0, 0, [], 0, []⟩) :=
  ⟨fun _ h => absurd h List.not_mem_nil, by decide +kernel, fun _ h => absurd h List.not_mem_nil, by decide +kernel,
    fun _ h => absurd h List.not_mem_nil⟩

-- R203: the last BQDONE puts 0 to CLOC, and nothing where CLOC is 0; an index done, or not handed out, changes nothing.
theorem test_last_done : (after (.bqdone 1 2) (gateway ⟨1, 1, 0, 0, 0, [], 0, []⟩)).map (fun t => ((t.assignq 4 3).done, t.me.unack, t.flight)) =
      some (1, 0, []) ∧
    (after (.bqdone 1 2) (gateway ⟨1, 1, 0, 0, 0x1000000, [], 0, []⟩)).map (fun t => ((t.assignq 4 3).done, t.me.unack)) = some (1, 1) ∧
    (after (.bqdone 1 2) (gateway ⟨3, 0, 0, 0, 0, [], 0, []⟩)).map (fun t => ((t.assignq 4 3).done, t.me.pc)) = some (0, 0x1004) := by decide +kernel

-- R203: index 5 handed out by an abandoned collective whose NEXT stood at 6, and not done; index 4 done by it.
theorem test_abandoned : let s := (gateway ⟨3, 0, 0, 0, 0, [], 6, [4]⟩).setMe { (gateway ⟨3, 0, 0, 0, 0, [], 6, [4]⟩).me with x := [(1, 3), (2, 5)] }
    (after (.bqdone 1 2) s).map (fun t => (t.assignq 4 3).done) = some 1 ∧
    (after (.bqdone 1 2) (s.setMe { s.me with x := [(1, 3), (2, 4)] })).map (fun t => (t.assignq 4 3).done) = some 0 := by decide +kernel

theorem test_gates : xAfter (.bqpop 4 1) (gateway ⟨3, 1, 0, 0, 0, [], 0, []⟩) 4 = some 1 ∧ xAfter (.bqpop 4 1) (gateway ⟨3, 3, 0, 0, 0, [], 0, []⟩) 4 = some (-1) ∧
    (after (.bqdone 1 2) (gateway ⟨3, 1, 0, 0, 0, [], 0, []⟩)).map (fun t => (t.assignq 4 3).done) = some 1 ∧
    (after (.bqdone 1 2) (gateway ⟨3, 1, 0, 1, 0, [0], 0, []⟩)).map (fun t => (t.assignq 4 3).done) = some 1 ∧
    (after (.bqpop 4 1) (on (xs [(1, 3)]))).map (·.me.frozen) = some (some (6, 3)) := by decide +kernel

/-! ### Launches -/

/-- A header at 0x5000, aligned, without presets. -/
def spawning : State := memOf [(0x5001, 0x20)] (grouped 0x5000 3 1 9)

theorem test_witness_spawn : Instr.wf (.spawn 8 20 0) = true ∧ XReady spawning (groupRegs 20) ∧ spawning.me.isV = false ∧ XFree spawning 8 ∧
    needReleased spawning = .ok () ∧ inWindow ((spawning.me.rx 20)) = false ∧ canonical (spawning.me.rx 20) = true ∧
    ((loadHeader spawning 0x5000).bind fun r => (loadPresets r.2 r.1 0x5000).map fun q => (r.1, q.1, (q.2.poolOf 0).length)) =
      .ok ([0x2000, 0, 0, 0, 0, 0, 0, 0], [], 0) := by decide +kernel

theorem test_spawn : (after (.spawn 8 20 0) spawning).map (fun t => ((t.poolOf 0).map fun r => (r.base, r.len, r.arg1, r.dest), t.me.xok 8)) =
    some ([(3, 1, 9, .token 0x01080000 0)], false) := by decide +kernel

/-- The same with the header in the local stash: the entry 0x2000, presets (bit 42) of which the first is 6. -/
def spawningStash : State := stashOf [(1, 0x20), (13, 4), (64, 6)] (grouped (st 0) 3 1 9)

theorem test_witness_spawn_stash : XReady spawningStash (groupRegs 20) ∧ Impure spawningStash ∧ NoBuffer spawningStash ∧
    Released spawningStash ∧ (((blockAt spawningStash (st 0)).extractLsb' 64 64).getLsbD 42) = true ∧
    (spawningStash.poolOf (dieOf 0)).length < 256 :=
  ⟨by decide +kernel, by decide, by decide, ⟨by decide +kernel, fun _ h => absurd h List.not_mem_nil, by decide +kernel,
    fun _ h => absurd h List.not_mem_nil⟩, by decide +kernel, by decide +kernel⟩

theorem test_witness_spawn_header : InStash spawningStash (st 0) 64 ∧ InStash spawningStash (st 0 + 64) 64 :=
  ⟨⟨0, rfl, by decide +kernel⟩, ⟨64, by decide +kernel, by decide +kernel⟩⟩

theorem test_spawn_presets : (after (.spawn 8 20 0) spawningStash).map (fun t => (t.poolOf 0).map fun r => (r.hdr.take 2, r.presets.take 2)) =
    some [([0x2000, 0x40000000000], [6, 0])] := by decide +kernel

/-- An activation of channel 2 in S-mode, which owns pre-built record 63 of die 0; x1 names it. -/
def arming (armed : Bool) (i : Word) : State :=
  let s := mapped (on fun a => { a with slot := .activation 2, mode := .s, unrollable := true, x := [(1, i), (20, 5), (21, 6), (22, 7), (23, 0)] })
  { s with lch := { s.lch with prebuilt := [(63, ⟨List.replicate 8 0, [], 2, armed⟩)] } }

theorem test_witness_armlr : Instr.wf (.armlr 1 20) = true ∧ modeAtLeast (arming false 63).me.mode .s = true ∧
    (arming false 63).me.slot = .activation 2 ∧ XReady (arming false 63) [1] ∧ XReady (arming false 63) (groupRegs 20) ∧
    Table.find? (arming false 63).lch.prebuilt 63 = some ⟨List.replicate 8 0, [], 2, false⟩ ∧
    Table.find? (arming false 62).lch.prebuilt 62 = none ∧ Impure (arming false 63) ∧ NoBuffer (arming false 63) ∧
    (on id).me.slot = .thread ∧ modeAtLeast Mode.u .s = false := by decide +kernel

theorem test_armlr : (after (.armlr 1 20) (arming false 63)).map (fun t => (Table.get [] t.lch.armed 0).map fun r => (r.base, r.arg0, r.arg1)) =
      some [(5, some 6, 7)] ∧
    (after (.armlr 1 20) (arming true 63)).map (fun t => ((Table.get [] t.lch.armed 0).length, t.me.pc)) = some (0, 0x1004) ∧
    (after (.armlr 1 20) (arming false 64)).map (·.me.frozen) = some (some (6, 64)) ∧
    (after (.armlr 1 20) (on id)).map (fun t => t.me.frozen.map (·.1)) = some (some 2) := by decide +kernel

-- Core 0 is at Hilbert position 0: its seven other harts are free, and the eight of position 1's core.
theorem test_lchk : xAfter (.lchk 3 1 2) (mapped (on (xs [(2, 2)]))) 3 = some 15 ∧ xAfter (.lchk 3 1 2) (on (xs [(2, 2)])) 3 = some 0 := by decide +kernel

/-! ### Patterns, pending causes and steps -/

theorem test_witness_no_instruction : (match fetch (State.reset.withFetchWord 16 0) with | .illegal b _ => b == 0 | _ => false) = true ∧
    (match fetch (on fun a => { a with pc := 0x0080000000000000 }) with | .fault (.deny 2 v) => v == 0x0080000000000000 | _ => false) = true ∧
    (match fetch ((atMem 5).setMe { (atMem 5).me with pc := 0x40000000 }) with
      | .fault (.hold v _ st acc p) => v == 0x40000000 && st == 1 && acc == 2 && !p
      | _ => false) = true ∧ Instr.check (.cpy 8 21 0) ≠ none := by decide +kernel

/-- A refusal pending in U-mode, with a vector at S; and an asynchronous ACCESS. -/
def refused : State := vectored .u fun a => { a with refusal := true, heldCause := 7, heldTval := 0x01060000 }

theorem test_witness_pending : refused.me.refusal = true ∧ refused.me.stall ≠ some .leave ∧
    (on fun a => { a with pend := [(6, 5)] }).me.thawed = [] ∧ refused.me.heldCause.toNat = 7 ∧ refused.me.udeleg.getLsbD 7 = false ∧
    refused.me.status.getLsbD 4 = true ∧ refused.me.sregs.tvec ≠ 0#64 ∧ Impure refused ∧
    (on fun a => { a with pend := [(6, 5)] }).me.pend = (6, 5) :: [] ∧ (on fun a => { a with pend := [(6, 5)] }).me.refusal = false := by
  decide +kernel

theorem test_pending : (after .takePendingTrap refused).map (fun t => (t.me.pc, t.me.mode, t.me.sregs.cause, t.me.sregs.tval, t.me.refusal)) =
      some (0x200, .s, 7, 0x01060000, false) ∧
    (after .takePendingTrap (on fun a => { a with pend := [(6, 5)] })).map (fun t => (t.me.frozen, t.me.pend)) = some (some (6, 5), []) := by
  decide +kernel

theorem test_illegal : (after .illegalEncoding (State.reset.withFetchWord 32 0xFFFFFFFF)).map (·.me.frozen) = some (some (1, 0xFFFFFFFF)) ∧
    (after (.cpy 8 21 0) (on id)).map (fun t => t.me.frozen.map (·.1)) = some (some 1) ∧
    (after .instructionFetchFault (on fun a => { a with pc := 0x0080000000000000 })).map (·.me.frozen) =
      some (some (6, 0x0080000000000000)) := by decide +kernel

/-- ADD x7, x5, x6 placed where the next step fetches. -/
def placedAdd : State := State.reset.withFetchWord 32 0x00605383

theorem test_witness_step : placedAdd.turns = [] ∧ turning placedAdd = false ∧ turning { loading with lag := 1 } = false ∧
    (flying [.signatureGeneration] placedAdd).flight = .signatureGeneration :: [] ∧ nextEvent placedAdd = none ∧ ready placedAdd placedAdd.cur = true ∧
    nextPending placedAdd.me = none ∧ (match fetch placedAdd with | .instr i _ => i == .add 7 5 6 | _ => false) = true ∧
    (match fetchHalf placedAdd placedAdd.me.pc with | .ok (h, u) => isLong h && u.me.pc == 0x4000 | _ => false) = true ∧
    (nextEvent { loading with lag := 1 }).isSome = true := by decide +kernel

theorem test_witness_lock : placedAdd.plat.lockHarts = [] := by decide

theorem test_step : (match step placedAdd with | .next t => (t.hart 0).pc == 0x4004 && t.time == 0 && t.cycle == 1 | _ => false) = true ∧
    (match step { loading with lag := 1 } with | .next t => (t.hart 0).rx 3 == 9 | _ => false) = true := by decide +kernel

theorem test_witness_canonical : MemoriesOk placedAdd ∧ (match step placedAdd with | .next _ => true | _ => false) = true := by decide +kernel

/-! ### Encodings: limits of R21 (WellFormed) -/

theorem test_ill_formed : Instr.check (.spawn 8 21 0) = some .groupBase ∧ Instr.check (.mmul 8 20 8) = some .twoTokens ∧
    Instr.check (.msend 1 29 3) = some .payload ∧ Instr.check (.vadd 3 1 2 6 false false) = some .elementType ∧
    Instr.check (.blkunp 28 1) = some .blockBase ∧ Instr.check (.blkpk 3 1 0) = some .blockFormat ∧
    Instr.check (.vmov16 0 0 false) = some .zeroHalf := by decide

theorem test_ill_formed_words : decodeTableWord 16 0 = none ∧ decodeTableWord 32 0xFFFFFFFF = none ∧
    decodeTableWord 32 0x00014C41 = some (.nput 24 20) ∧ decodeTableWord 32 0x00016441 = none ∧ decodeTableWord 32 0x00114C41 = none := by decide +kernel

theorem test_witness_encode : Instr.wf (.add 7 5 6) = true ∧ encode (.add 7 5 6) = some (4, 0x00605383) ∧
    encode (.vadd16 3 1 true) = some (2, 0x8462) := by decide


/-! ### Events: arrivals -/

/-- A put of the value 7 to x6 of hart 0 of core 0 with a tag, from slot 1 of core 0, whose thread has tag 1. -/
def putTo (tag : Nat) : Put := ⟨mkLoc 0 0 0 tag 0 6, false, 7, none, 0, some ⟨0, 0, 1, 1, none, false, 0, 0⟩, false, 0, false, none⟩

/-- Entry 0 of core 0's departure table: the thread of tag 5 that exited hart 0 at TIME 0. -/
def departed (s : State) : State := s.setCore 0 { s.core 0 with dep := [(0, ⟨0, 3, 0, 5, 0, false, 0⟩)] }

theorem test_witness_arrivals : locCore (putTo 1).loc = some 0 ∧ badLocator (putTo 1) = false ∧ locKind (putTo 1).loc = 0 ∧
    findSlot (on id) 0 (locHart (putTo 1).loc) (locTag (putTo 1).loc) = .resident 0 ∧
    findSlot (departed (on id)) 0 (locHart (putTo 5).loc) (locTag (putTo 5).loc) = .exited ∧
    findSlot (on id) 0 (locHart (putTo 9).loc) (locTag (putTo 9).loc) = .nothing ∧
    (putTo 1).sender = some ⟨0, 0, 1, 1, none, false, 0, 0⟩ := by decide +kernel

theorem test_put_arrives :
    (after .putArrival (flying [.putArrival (putTo 1)] (on fun a => { a with xready := 0xFFFFFFBF }))).map (fun t =>
      ((t.hart 0).rx 6, (t.hart 0).xok 6, (t.hart 0).landCnt, t.flight)) =
      some (7, true, 1, [.ackArrival ⟨0, (putTo 1).loc, ⟨0, 0, 1, 1, none, false, 0, 0⟩, 0⟩]) ∧
    (after .putArrival (flying [.putArrival (putTo 5)] (departed (on id)))).map (·.flight) =
      some [.ackArrival ⟨3, (putTo 5).loc, ⟨0, 0, 1, 1, none, false, 0, 0⟩, 0⟩] := by decide +kernel

/-- An acknowledgement for hart 0, which has 2 puts out; q is the status register of a .S form. -/
def acked (code : Nat) (q : Option Reg) : State :=
  flying [.ackArrival ⟨code, 0x01060000, ⟨0, 0, 0, 1, q, q.isSome, 0, 0⟩, 0⟩] (on fun a => { a with unack := 2, idle := true })

theorem test_witness_acks : findSlot (acked 0 none) 0 0 1 = .resident 0 ∧ ((acked 3 none).hart 0).refusal = false := by decide +kernel

theorem test_acks : (after .ackArrival (acked 3 none)).map (fun t => ((t.hart 0).unack, (t.hart 0).refusal, (t.hart 0).heldCause,
      (t.hart 0).landLoc)) = some (1, true, 7, 0x01060000) ∧
    (after .ackArrival (acked 4 (some 3))).map (fun t => ((t.hart 0).rx 3, (t.hart 0).unack, (t.hart 0).refusal)) = some (4, 1, false) := by
  decide +kernel

/-- A store of two bytes to core 1's stash, offset 8, from hart 0. -/
def remoteStoring : State :=
  let s := flying [.remoteStashWrite 4] (on fun a => { a with unack := 1 })
  { s with ms := { s.ms with stores := [⟨4, 0, 1, 0x007E000000100008, stashIdx 1 8, [1, 2], .remoteStash 1, 0, none, none⟩] } }

theorem test_witness_remote_stash_write :
    remoteStoring.ms.stores.find? (·.id == 4) = some ⟨4, 0, 1, 0x007E000000100008, stashIdx 1 8, [1, 2], .remoteStash 1, 0, none, none⟩ ∧
    storesBefore (remoteStoring.ms.stores.filter (·.id < 4))
      (⟨4, 0, 1, 0x007E000000100008, stashIdx 1 8, [1, 2], .remoteStash 1, 0, none, none⟩) = [] ∧
    isStashPoison remoteStoring.ms (stashIdx 1 8 / 64) = false ∧ whereIs remoteStoring 0 1 = .resident 0 := by decide +kernel

theorem test_remote_stash_write : (after .remoteStashWrite remoteStoring).map (fun t =>
    (Memory.readBytes t.ms.stash (stashIdx 1 8) 2, (t.hart 0).unack)) = some ([1, 2], 0) := by decide +kernel

-- R36, R37: DEPGRACE is 1,000 us after reset; the entry is stamped at 0.
theorem test_witness_departure : (((departed (on id)).core 0).depAt 0).state = 3 ∧ ((departed (on id)).core 0).grace < 1000001 := by decide +kernel

theorem test_departure : let s := flying [.departureExpiry 0 0] (departed (on id))
    (after .departureExpiry { s with time := 1000001 }).map (fun t => (t.core 0).depAt 0) = some Dep.free ∧
    (after .departureExpiry { s with time := 1000000 }).map (fun t => ((t.core 0).depAt 0).state) = some 3 := by decide +kernel

/-- An entry of core 0's side log: two bytes for offset 8 of its own stash. -/
def logged (fid : Option Nat) : State :=
  let s := flying [.sideLogReplay 0 7] (on id)
  s.setCore 0 { Core.reset with sidelog := [⟨7, 0, 1, 0x007F000000000008, 0x007F000000000008, [1, 2], s.me.tctx, none, fid, none, none⟩] }

theorem test_witness_side_log : (logEntry (logged none) 0 7).map (·.fid) = some none ∧ logEntry (on id) 0 7 = none ∧
    (logEntry (logged (some 1)) 0 7).map (logReady (logged (some 1)) 0) = some false ∧
    (logEntry (logged none) 0 7).map (logReady (logged none) 0) = some true ∧
    (logEntry (logged none) 0 7).map (fun e => (entryPlace { logged none with flight := [] } 0 e).map (·.1)) = some (.ok (.stash 8)) ∧
    isStashPoison (logged none).ms (8 / 64) = false := by decide +kernel

theorem test_side_log : (after .sideLogReplay (logged none)).map (fun t => (Memory.readBytes t.ms.stash 8 2, (t.core 0).sidelog)) =
    some ([1, 2], []) := by decide +kernel

-- R97: EN in bit 63, the length in bits 13:8, the offset in bits 5:0, in steps of 4 KiB; window 1 of the hart holds offset 0.
theorem test_stmap_write : let s := on fun a => { a with stmap := [(3, 0x8000000000000000)] }
    (after .stmapWrite (flying [.stmapWrite 1 0xC000000000000302] s)).map (·.me.st 1) = some 0x8000000000000302 ∧
    (after .stmapWrite (flying [.stmapWrite 1 0x8000000000000000] s)).map (·.me.st 1) = some 0 ∧
    (after .stmapWrite (flying [.stmapWrite 0 0xFFFFFFFFFFFFFFFF] s)).map (·.me.st 0) = some 0x00FFFFFFFFFFF000 := by decide +kernel

theorem test_witness_stmap_write : windowFits (on id) 0 0 0x8000000000000302 = true ∧
    windowFits (on fun a => { a with stmap := [(3, 0x8000000000000000)] }) 0 0 0x8000000000000000 = false := by decide +kernel

theorem test_signature_generation : let s := on fun a => { a with sigCur := sigAll }
    (after .signatureGeneration (flying [.signatureGeneration] { s with ms := { s.ms with homeSigs := [(5, sigAll, .empty)] } })).map (fun t =>
      ((t.hart 0).sigPrev, (t.hart 0).sigCur, Table.get (Sig.empty, Sig.empty) t.ms.homeSigs 5)) =
      some (sigAll, .empty, .empty, sigAll) := by decide +kernel

/-! ### Events: threads -/

/-- VF 1 bound to partition 0, whose cores are all free. -/
def bound : State := { mapped State.reset with plat := { (mapped State.reset).plat with vft := [(1, 0x8000000000000000)] } }

theorem test_witness_direct_start : vfFrozen bound 1 = false ∧ bootStopped bound = false ∧ vfBound bound 1 = true ∧
    tenantOf bound 5 = some (vfPart bound 1) ∧ canonical 0x3000#64 = true ∧ startHart bound 5 = some 40 ∧
    startHart ((List.range 8).foldl (fun s k => s.setHart (40 + k) { Hart.reset with slot := .thread }) bound) 5 = none ∧
    vfBound State.reset 1 = false := by decide +kernel

theorem test_direct_start : (after .directStart (flying [.directStart 1 5 0x3000 8 9] bound)).map (fun t =>
      ((t.hart 40).slot, (t.hart 40).pc, (t.hart 40).rx 10, (t.hart 40).rx 11, (t.hart 40).mode)) = some (.thread, 0x3000, 8, 9, .u) ∧
    (after .directStart (flying [.directStart 1 5 0x3001 8 9] bound)).map (fun t => Table.get 0#64 t.flt.msgstat 1) = some 0x300000001 := by
  decide +kernel

theorem test_submission : (after .submission (flying [.submission 1 0x5000 3 9 0x8000] bound)).map (fun t =>
      (t.poolOf 0).map fun x => (x.base, x.arg1, x.hdrVa, x.part)) = some [(3, 9, some 0x5000, some 0)] ∧
    (after .submission (flying [.submission 2 0x5000 3 9 0x8000] bound)).map (fun t => (t.poolOf 0).length) = some 0 := by decide +kernel

/-- A record of partition 0 for one core at position 3: H threads at 0x3000, a budget of b units. -/
def recorded (harts b : Nat) : LaunchRec :=
  ⟨1, [0x3000, BitVec.ofNat 64 (harts * 2 ^ 32 + 1), 3, 0, 0, 0, BitVec.ofNat 64 (b * 2 ^ 32), 0], [], 3, 1, some 8, 9, .token 0x01080000 0, some 0,
    false, ((mapped State.reset).part 0).tctx true, none, none, none, 0, none⟩

/-- The record in die 0's pool; channel 0 of the core at its base is enabled. -/
def pooled (harts : Nat) : State :=
  let s := mapped (State.reset.setCore 1 (Core.reset.setChan 0 { Chan.reset with w1 := 8 }))
  { s with
    lch := { s.lch with pool := [(0, [recorded harts 0])] }
    plat := { s.plat with featdone := 15 }
    flight := [.launchRecordProcess 0] }

theorem test_witness_records : nextRecord (pooled 2) 0 = some (recorded 2 0) ∧ recordOk (pooled 2) (recorded 2 0) = true ∧
    nextRecord (pooled 9) 0 = some (recorded 9 0) ∧ recordOk (pooled 9) (recorded 9 0) = false ∧ nextRecord State.reset 0 = none := by
  decide +kernel

theorem test_records : (after .launchRecordProcess (pooled 2)).map (fun t => (t.lch.live.map fun e => (e.1, e.2.base, e.2.n, e.2.waiting))) =
      some [(1, 3, 2, [0, 1])] ∧
    (after .launchRecordProcess (pooled 0)).map (fun t => (t.lch.live, t.flight)) =
      some ([], [.putArrival ⟨0x01080000, false, 0x18, some sigAll, 0, none, true, 0, false, none⟩]) := by decide +kernel

/-- Launch 4 of two threads at position 3, of which thread 1 waits; it has run for 5 units. -/
def launched (b : Nat) : Launch := ⟨4, recorded 2 b, 3, 1, 2, 2, false, [1], [0], 5, none⟩

/-- The launch in progress. -/
def launching (b : Nat) (l : List Event) : State :=
  let s := mapped State.reset
  { s with lch := { s.lch with live := [(4, launched b)] }, flight := l }

theorem test_witness_launches : Table.find? (launching 0 []).lch.live 4 = some (launched 0) ∧ canStart (launching 0 []) (launched 0) 1 = true ∧
    canStart (launching 0 []) (launched 0) 0 = false ∧ overBudget (launched 5) = true ∧ overBudget (launched 0) = false := by decide +kernel

-- Position 3 is core 1 (R84), so thread 1 is hart 1 of it; WIDF gives THREAD 3 bits.
theorem test_thread_starts : let t := after .threadStart (launching 0 [.threadStart 4 1])
    t.map (fun t => ((t.hart 9).slot, (t.hart 9).pc, (t.hart 9).rx 10, (t.hart 9).rx 11, (t.hart 9).wid, (t.hart 9).nthreads)) =
      some (.thread, 0x3000, 8, 9, 1, 2) ∧
    t.map (fun t => t.lch.live.map fun e => (e.2.waiting, e.2.running)) = some [([], [0, 1])] := by decide +kernel

theorem test_launch_budget : (after .launchBudgetExpiry (launching 5 [.launchBudgetExpiry 4])).map (·.lch.live) = some [] ∧
    (after .launchBudgetExpiry (launching 6 [.launchBudgetExpiry 4])).map (fun t => t.lch.live.length) = some 1 := by decide +kernel

/-! ### Events: partitions -/

/-- Partition 0, of cores 0 to 7 by position, in a state, with an event. -/
def sliced (n : Nat) (e : Event) : State := flying [e] (State.reset.setPart 0 { Part.reset with state := n, len := 8, spent := 5 })

theorem test_witness_partitions : ((sliced 2 .tbuTick).part 0).state = 2 ∧ fieldOf 0x400000#64 23 22 = 1 ∧ fieldOf 0x800000#64 23 22 = 2 ∧
    fieldOf 0xC00000#64 23 22 = 3 ∧ Event.sliceEnd 0 ∉ ([] : List Event) ∧ ((sliced 0 .tbuTick).part 0).len ≠ 0 ∧
    intervalOk (sliced 2 .tbuTick) 0 16 4 = true ∧ sliceReady (sliced 1 .tbuTick) 0 = true ∧ sliceReady (sliced 0 .tbuTick) 0 = false ∧
    intervalOk (sliced 2 .tbuTick) 0 1023 2 = false := by decide +kernel

/-- STATE, base and length of partition 0 after a step. -/
def partAfter (i : Instr) (s : State) : Option (Nat × Nat × Nat) := (after i s).map fun t => ((t.part 0).state, (t.part 0).base, (t.part 0).len)

-- R306: dword 0 holds the base in bits 9:0, the length in bits 20:10 and PCTL in bits 23:22.
theorem test_partition_write : partAfter .partitionWrite (sliced 2 (.partitionWrite ⟨0, .m, 0⟩ 0 0 0x1010)) = some (2, 16, 4) ∧
    partAfter .partitionWrite (sliced 2 (.partitionWrite ⟨0, .h, 0⟩ 0 0 0x1010)) = some (2, 0, 8) ∧
    (after .partitionWrite (sliced 0 (.partitionWrite ⟨0, .m, 0⟩ 0 0 0x402000))).map (·.flight) = some [.sliceEnd 0] := by decide +kernel

theorem test_slices : partAfter .sliceEnd (sliced 0 (.sliceEnd 0)) = some (1, 0, 8) ∧ partAfter .sliceEnd (sliced 2 (.sliceEnd 0)) = some (2, 0, 8) ∧
    partAfter .restore (sliced 2 (.restore 0)) = some (3, 0, 8) ∧ partAfter .restoreDone (sliced 1 (.restoreDone 0)) = some (1, 0, 8) ∧
    partAfter .teardown (sliced 2 (.teardown 0)) = some (2, 0, 0) ∧ partAfter .teardown (sliced 0 (.teardown 0)) = some (0, 0, 8) := by
  decide +kernel

-- R307: the interval of a partition whose slice ends may be empty.
theorem test_slice_empty : partAfter .sliceEnd (flying [.sliceEnd 0] (State.reset.setPart 0 { Part.reset with state := 0, len := 0 })) =
    some (1, 0, 0) := by decide +kernel

theorem test_slices_done : partAfter .sliceEndDone (sliced 0 (.sliceEndDone 0)) = some (0, 0, 8) ∧
    (after .tbuTick (sliced 0 .tbuTick)).map (fun t => (t.part 0).tbu) = some 1 ∧
    (after .tbuTick (sliced 2 .tbuTick)).map (fun t => (t.part 0).tbu) = some 0 ∧
    (after .ebudgetWindow (sliced 0 (.ebudgetWindow 0))).map (fun t => (t.part 0).spent) = some 0 := by decide +kernel

/-! ### Events: channels -/

/-- Word 1 of a channel or queue: enabled, four 64-byte slots from stash offset 0x2000 (R141). -/
def enabled : Word := 0x200A8

/-- Core 5 with its channel c. -/
def channel (c : Nat) (a : Chan) (l : List Event) : State := flying l (State.reset.setCore 5 (Core.reset.setChan c a))

/-- A reply-free message to channel 3 of core 5 from hart 0 of core 0. -/
def sending (k : Nat) : Msg := ⟨2, 0, 0, 1, 0, false, 0, 5, 3, k, false, [10, 11, 12, 13, 14, 15, 16, 17], none, false⟩

-- R27: codes 01, 00, 10 for H2, H1, H0: code 10 is for H7 alone.
theorem test_hrole : (after .hroleWrite (flying [.hroleWrite ⟨0, .m, 0⟩ 5 0x8012] State.reset)).map (fun t =>
    ((t.core 5).hrole, roleOf t 42, roleOf t 40, roleOf t 47)) = some (0x8010, 1, 0, 2) := by decide +kernel

theorem test_witness_hrole : roleFree State.reset 42 = true ∧ roleFree (on id) 0 = false := by decide +kernel

theorem test_handler_table :
    (after .handlerTableWrite (channel 3 Chan.reset [.handlerTableWrite ⟨5, .s, 0⟩ 5 3 true enabled])).map (fun t => ((t.core 5).chan 3).w1) =
      some enabled ∧
    (after .handlerTableWrite (channel 3 Chan.reset [.handlerTableWrite ⟨5, .s, 0⟩ 5 3 true 0x28])).map (fun t => ((t.core 5).chan 3).w1) =
      some 0x20 ∧
    (after .handlerTableWrite (channel 0 Chan.reset [.handlerTableWrite ⟨5, .s, 0⟩ 5 0 true enabled])).map (fun t => ((t.core 5).chan 0).w1) =
      some 0 ∧
    (after .handlerTableWrite (channel 3 Chan.reset [.handlerTableWrite ⟨5, .s, 0⟩ 5 3 false 0x3001])).map (fun t => ((t.core 5).chan 3).w0) =
      some 0x3000 := by decide +kernel

-- A channel that holds a message changes PRI, EN and WDOG only.
theorem test_witness_handler_table : chanBusy (channel 3 Chan.reset []) 5 3 = false ∧
    chanBusy (channel 3 { Chan.reset with w1 := enabled, prod := 1, stamps := [0] } []) 5 3 = true ∧
    (after .handlerTableWrite (channel 3 { Chan.reset with w1 := enabled, prod := 1, stamps := [0] }
      [.handlerTableWrite ⟨5, .s, 0⟩ 5 3 true 0x4000007])).map (fun t => ((t.core 5).chan 3).w1) = some 0x40200A7 := by decide +kernel

theorem test_software_queue : (after .softwareQueueWrite (flying [.softwareQueueWrite ⟨5, .u, 0⟩ 5 3 enabled] State.reset)).map (fun t =>
      ((t.core 5).softq 3).w1) = some enabled ∧
    (after .softwareQueueWrite (flying [.softwareQueueWrite ⟨5, .u, 0⟩ 5 3 0x28] (State.reset.setCore 5 (Core.reset.setSoft 3
      ⟨4, 2, enabled⟩)))).map (fun t => (t.core 5).softq 3) = some ⟨0, 0, 0x20⟩ ∧
    qFits 0x3FFFF08 = false := by decide +kernel

/-- What becomes of a message of k payload words at channel 3. -/
def offered (a : Chan) (k : Nat) : Option (List Event) := (after .messageArrival (channel 3 a [.messageArrival (sending k)])).map (·.flight)

theorem test_message_turned : offered Chan.reset 6 = some [.messageOutcome (sending 6) (.returned 2)] ∧
    offered { Chan.reset with w1 := enabled, masked := true } 6 = some [.messageOutcome (sending 6) .deferred] ∧
    offered { Chan.reset with w1 := enabled, prod := 4, stamps := [0, 1, 2, 3] } 6 = some [.messageOutcome (sending 6) (.returned 1)] ∧
    offered { Chan.reset with w1 := 0x20088 } 6 = some [.messageOutcome (sending 6) (.returned 3)] ∧
    offered { Chan.reset with w1 := enabled + 0x40000000000 } 6 = some [.messageOutcome (sending 6) (.returned 4)] := by decide +kernel

/-- Channel 3 of core 5, enabled, where a message arrives. -/
def meeting : State := channel 3 { Chan.reset with w1 := enabled } [.messageArrival (sending 6)]

theorem test_witness_message : (sending 6).srcNode = meeting.plat.node.toNat ∧ (enabled).getLsbD 3 = true ∧ (enabled).getLsbD 5 = true ∧
    (enabled).getLsbD 42 = false ∧ meeting.plat.saved = [] ∧ isStashPoison meeting.ms (stashIdx 5 0x2000 / 64) = false ∧ (sending 6).dstNode = meeting.plat.node.toNat := by
  decide +kernel

theorem test_message_accepted : (after .messageArrival meeting).map (fun t => (((t.core 5).chan 3).prod,
      Memory.readDword t.ms.stash (stashIdx 5 0x2008), t.flight.contains (.messageOutcome (sending 6) .accepted))) = some (1, 11, true) ∧
    (after .messageReoffer (flying [.messageReoffer (sending 6)] meeting)).map (fun t => ((t.core 5).chan 3).prod) = some 1 := by
  decide +kernel

-- R145: DEFER is on while the mask defers a message, and off once it has been turned otherwise.
theorem test_deferred : (after .messageArrival (channel 3 { Chan.reset with w1 := enabled, masked := true } [.messageArrival (sending 6)])).map
      (fun t => ((t.core 5).chan 3).defer) = some [((sending 6).srcNode, (sending 6).id)] ∧
    (after .messageArrival (channel 3 { Chan.reset with w1 := enabled, defer := [(0, 2)] } [.messageArrival (sending 6)])).map
      (fun t => ((t.core 5).chan 3).defer) = some [] ∧ ((sending 6).srcNode, (sending 6).id) = (0, 2) := by decide +kernel

/-- Hart 0 with the message in its send queue; o is its outcome. -/
def sent (m : Msg) (o : MsgOutcome) : State :=
  flying [.messageOutcome m o] (on fun a => { a with sendq := [⟨m, true, false, true, false⟩], reqd := 7 })

theorem test_witness_outcomes : whereIs (sent (sending 6) .accepted) 0 1 = .resident 0 ∧ (sending 6).isStatus = false ∧
    ({ sending 6 with status := some 3, isStatus := true } : Msg).status = some 3 := by decide +kernel

theorem test_outcomes : (after .messageOutcome (sent (sending 6) .accepted)).map (fun t => (t.hart 0).sendq) = some [] ∧
    (after .messageOutcome (sent { sending 6 with status := some 3, isStatus := true } .accepted)).map (fun t =>
      ((t.hart 0).rx 3, (t.hart 0).xok 3)) = some (0, true) ∧
    (after .messageOutcome (sent (sending 6) (.returned 2))).map (fun t => (t.core 0).retbuf) = some [⟨sending 6, 2, 0⟩] ∧
    (after .messageOutcome (sent (sending 6) .deferred)).map (·.flight) = some [.messageReoffer (sending 6)] := by decide +kernel

/-- Core 5's return buffer holds the message with reason 2; channel 1 as given. -/
def returning (a : Chan) : State :=
  let s := channel 1 a [.returnBufferDrain 5]
  s.setCore 5 { s.core 5 with retbuf := [⟨sending 6, 2, 0⟩] }

theorem test_witness_return : ((returning { Chan.reset with w1 := enabled }).core 5).retbuf = ⟨sending 6, 2, 0⟩ :: [] ∧
    (((returning { Chan.reset with w1 := enabled }).core 5).chan 1).w1.getLsbD 3 = true := by decide +kernel

theorem test_return : (after .returnBufferDrain (returning { Chan.reset with w1 := enabled })).map (fun t =>
      (((t.core 5).chan 1).prod, (t.core 5).retbuf)) = some (1, []) ∧
    (after .returnBufferDrain (returning Chan.reset)).map (fun t => (t.core 5).retbuf.length) = some 1 := by decide +kernel

/-! ### Events: activations -/

/-- Core 5's channel 3 holds a message for a handler at 0x3000, and hart 2 has the handler role. -/
def waiting : State :=
  let s := channel 3 { Chan.reset with w0 := 0x0100000000003000, w1 := enabled, prod := 1, stamps := [0] } [.activationDispatch 5]
  s.setCore 5 { s.core 5 with hrole := 0x10, roles := 0x10 }

theorem test_witness_dispatch : nextChannel waiting 5 = some 3 ∧ taskWaiting waiting 5 = none ∧ dispatchHart waiting 5 3 = some 42 ∧
    coreRuns waiting 5 = true ∧ chanCall ((waiting.core 5).chan 3) = false ∧ nextChannel State.reset 5 = none := by decide +kernel

theorem test_dispatch : (after .activationDispatch waiting).map (fun t => ((t.hart 42).slot, (t.hart 42).pc, (t.hart 42).mode, (t.hart 42).wdog)) =
    some (.activation 3, 0x3000, .s, 65536) := by decide +kernel

/-- Hart 0 runs an activation of channel 3, out of cycles. -/
def expired (g : Bool) (l : List Event) : State := flying l (on fun a => { a with slot := .activation 3, wdog := 0, grace := g })

theorem test_witness_watchdog : ((expired false []).hart 0).isActivation = true ∧ ((expired true []).hart 0).heldFor = none ∧ ((expired false []).hart 0).pure = none ∧
    ((expired false []).hart 0).frozen = none ∧ ((expired true []).hart 0).grace = true ∧ (on id).me.isActivation = false := by decide +kernel

theorem test_watchdog : (after .watchdogExpiry (expired false [.watchdogExpiry 0])).map (fun t =>
      ((t.hart 0).grace, (t.hart 0).wdog, (t.hart 0).pend)) = some (true, 4096, [(0x0B, 0)]) ∧
    (after .watchdogKill (expired true [.watchdogKill 0])).map (fun t => (t.hart 0).slot) = some .free ∧
    (after .watchdogKill (expired false [.watchdogKill 0])).map (fun t => (t.hart 0).slot) = some (.activation 3) := by decide +kernel

/-- A packet of core 0's queue 2 for channel 3 of core 5, whose H7 has the landing role and holds slot a. -/
def landing (a : Slot) : State :=
  let s := channel 3 { Chan.reset with w0 := 0x3000, w1 := enabled } [.landingHandlerStart ⟨0, 2, 5, 3, 128, 77, 0, 0⟩]
  (s.setCore 5 { s.core 5 with hrole := 0x8000, roles := 0x8000 }).setHart 47 { Hart.reset with slot := a }

/-- The packet's partition is saved. -/
def landingSaved : State :=
  let s := mapped (landing .free)
  s.setPart 0 { s.part 0 with state := 2 }

theorem test_witness_landing : landingOpen landingSaved ⟨0, 2, 5, 3, 128, 77, 0, 0⟩ = true ∧
    2 ≤ (landingSaved.part ((partOf landingSaved 5).getD 64)).state ∧
    ¬ 2 ≤ ((landing .free).part ((partOf (landing .free) 5).getD 64)).state ∧ landingOpen (landing .free) ⟨0, 2, 5, 3, 128, 77, 0, 0⟩ = true ∧ coreRuns (landing .free) 5 = true ∧
    ((landing (.landing 3)).hart (slotOf 5 7)).slot ≠ .free := by decide +kernel

theorem test_landing : (after .landingHandlerStart (landing .free)).map (fun t =>
      ((t.hart 47).slot, (t.hart 47).packet, (t.hart 47).rx 10, (t.hart 47).pc)) = some (.landing 3, 77, 128, 0x3000) ∧
    (after .landingHandlerStart (landing (.landing 3))).map (fun t => (t.core 5).packets.length) = some 1 := by decide +kernel

/-! ### Events: faults -/

/-- A record of hart 0's page fault at 0x5008, with FID 3, for ring 0 of a function. -/
def fault3 (f : Nat) : Record := ⟨0x10, 0x5008, 4, 1, 0, 0, 0, 0, 0, 0, true, 3, f, 0, 0, .hart 0 1⟩

/-- The record waits for ring 0 of the PF, which lies at host address 0x7000 and has room. -/
def reporting (l : List Event) : State :=
  let s := flying l State.reset
  { s with flt := { s.flt with waiting := [fault3 0], unresolved := [fault3 0], rings := [(0, { Ring.reset with base := 0x7000, log := 4, en := true })] } }

theorem test_witness_ring : ringHead (reporting []) 0 0 = some (fault3 0) ∧ ringReady (reporting []) 0 0 = true ∧
    nextRing (reporting []) = some (0, 0) ∧ ringLog ((reporting []).ringAt 0 0) = 4 ∧
    hostWrite (reporting []) 0 0x7000 = some (2 ^ 51 + 0x7000) ∧ isPoison (reporting []).ms ((2 ^ 51 + 0x7000) / 64) = false ∧
    ringHead State.reset 0 0 = none := by decide +kernel

-- R164: dword 0 TIME, 1 ADDR, 2 CAUSE 7:0, STAGE 9:8, RETRY 50, 3 FID.
theorem test_ring : (after .ringRecordWrite (reporting [.ringRecordWrite 0 0])).map (fun t => ((t.ringAt 0 0).wr, t.flt.waiting.length,
    (List.range 4).map fun k => Memory.readDword t.ms.mem (2 ^ 51 + 0x7000 + 8 * k))) =
    some (1, 0, [0x10, 0x5008, 0x4000000000104, 3]) := by decide +kernel

/-- Hart 0, in U-mode with vectors, held by the fault. -/
def held (e : Event) : State :=
  let s := flying [e] (vectored .u fun a => { a with hold := some (3, 0x5008, false), stall := some .other })
  { s with flt := { s.flt with unresolved := [fault3 0] } }

theorem test_witness_faultres : (held (.faultresRetry 0 3)).flt.unresolved.find? (fun y => y.fid % 2 ^ 32 == 3 && y.func == 0) =
      some (fault3 0) ∧ vfFrozen (held (.faultresRetry 0 3)) 0 = false ∧ ((held (.faultresRetry 0 3)).hart 0).tag = 1 ∧
    ((held (.faultresRetry 0 3)).hart 0).hold = some ((fault3 0).fid, 0x5008, false) ∧
    bootStopped (held (.faultresRetry 0 3)) = false ∧ ((held (.faultresRetry 0 3)).hart 0).holds = [] ∧
    ((held (.faultresTerminal 0 3)).hart 0).pure = none := by decide +kernel

theorem test_faultres : (after .faultresRetry (held (.faultresRetry 0 3))).map (fun t => ((t.hart 0).hold, t.flt.unresolved, (t.hart 0).pc)) =
      some (none, [], 0x1000) ∧
    (after .faultresTerminal (held (.faultresTerminal 0 3))).map (fun t => ((t.hart 0).mode, (t.hart 0).pc, (t.hart 0).sregs.cause,
      (t.hart 0).sregs.tval, (t.hart 0).sregs.epc)) = some (.s, 0x200, 4, 0x5008, 0x1000) := by decide +kernel

-- R167: hart 0 is held by the fault and frozen with a trap it has not entered.
theorem test_faultres_frozen : let s := held (.faultresTerminal 0 3)
    let s := s.setHart 0 { s.hart 0 with frozen := some (6, 5) }
    ((s.hart 0).frozen.isSome = true ∧ (s.hart 0).holds = [] ∧ (s.hart 0).hold = some ((fault3 0).fid, 0x5008, false)) ∧
    (after .faultresTerminal s).map (fun t => ((t.hart 0).frozen, (t.hart 0).pc)) = some (some (4, 0x5008), 0x1000) := by decide +kernel

/-- Hart 0 frozen with ACCESS at 5, with vectors. -/
def iced (e : Event) : State := flying [e] (vectored .u fun a => { a with frozen := some (6, 5) })

theorem test_witness_freeze : modeAtLeast Mode.h .h = true ∧ modeAtLeast Mode.s .h = false ∧
    (let a := (iced (.frzThawHart ⟨9, .h, 0⟩ 0 0)).hart (slotOf 0 0)
     a.frozen = some (6, 5) ∧ a.mode = .u ∧ a.hstatus.getLsbD 8 = false ∧ a.status.getLsbD 4 = true ∧ a.sregs.tvec ≠ 0#64 ∧
      a.slot = .thread) := by decide +kernel

-- A frozen thread that is parked.
theorem test_witness_freeze_parked : let s := (iced (.frzThawHart ⟨9, .h, 0⟩ 0 0)).setHart 0 { Hart.reset with slot := .parked, frozen := some (6, 5) }
    ((s.hart 0).frozen.isSome = true ∧ (s.hart 0).thawDue = false ∧ (s.hart 0).slot = .parked) ∧
    ((iced (.frzkillHart ⟨9, .h, 0⟩ 0 0)).hart (slotOf 0 0)).isFrozen = true ∧
    (after .frzThawHart s).map (fun t => ((t.hart 0).thawDue, (t.hart 0).frozen)) = some (true, some (6, 5)) := by decide +kernel

theorem test_thaw : (after .frzThawHart (iced (.frzThawHart ⟨9, .h, 0⟩ 0 0))).map (fun t => ((t.hart 0).frozen, (t.hart 0).pc, (t.hart 0).sregs.cause,
      (t.hart 0).sregs.tval)) = some (none, 0x200, 6, 5) ∧
    (after .frzThawHart (iced (.frzThawHart ⟨9, .s, 0⟩ 0 0))).map (fun t => (t.hart 0).frozen) = some (some (6, 5)) ∧
    (after .frzkillHart (iced (.frzkillHart ⟨9, .h, 0⟩ 0 0))).map (fun t => ((t.hart 0).slot, ((t.core 0).depAt 0).state)) = some (.free, 3) := by
  decide +kernel

/-- Core 0's copy queue 2 frozen, with one waiting CPY of hart 0. -/
def icedQueue (e : Event) : State :=
  flying [e] ((on id).setCore 0 { Core.reset with
    cqFrozen := 4, cq := [(2, [⟨7, 0, [], 0x01080000, 0, 0, 1, (on id).me.tctx, 0, 0, false, none, none, .empty, 0, false, false, false, [], none, none, [], none⟩])] })

theorem test_witness_frozen_queue : ((icedQueue (.frzThawCq ⟨9, .h, 0⟩ 0 2)).core 0).cqFrozen.getLsbD 2 = true ∧
    ((icedQueue (.frzkillCq ⟨9, .h, 0⟩ 0 2)).core 0).copyq 2 ≠ [] := by decide +kernel

theorem test_frozen_queue : (after .frzThawCq (icedQueue (.frzThawCq ⟨9, .h, 0⟩ 0 2))).map (fun t => (t.core 0).cqFrozen) = some 0 ∧
    (after .frzkillCq (icedQueue (.frzkillCq ⟨9, .h, 0⟩ 0 2))).map (fun t => ((t.core 0).cqFrozen, (t.core 0).copyq 2, t.flight)) =
      some (0, [], [.putArrival ⟨0x01080000, false, 6, some .empty, 0, none, true, 0, true, none⟩]) ∧
    (after .frzThawCq (icedQueue (.frzThawCq ⟨9, .s, 0⟩ 0 2))).map (fun t => (t.core 0).cqFrozen) = some 4 := by decide +kernel

/-! ### Events: links -/

/-- Link 2 in a state, with an event. -/
def linked (n : Nat) (e : Event) : State := flying [e] (State.reset.setLink 2 { Link.reset with state := n })

/-- STATE of link 2 after a step. -/
def linkAfter (i : Instr) (s : State) : Option Nat := (after i s).map fun t => (t.link 2).state

-- R189: 0 down, 1 training, 2 active, 3 draining, 4 quiesced, 5 detached.
theorem test_link_states : linkAfter .linkPeerSignal (linked 0 (.linkPeerSignal 2)) = some 1 ∧
    linkAfter .linkQuiesced (linked 3 (.linkQuiesced 2)) = some 4 ∧ linkAfter .lnkcmdQuiesce (linked 2 (.lnkcmdQuiesce 2)) = some 3 ∧
    linkAfter .lnkcmdDetach (linked 4 (.lnkcmdDetach 2)) = some 5 ∧ linkAfter .lnkcmdResume (linked 4 (.lnkcmdResume 2)) = some 2 ∧
    linkAfter .lnkcmdReattach (linked 5 (.lnkcmdReattach 2)) = some 1 ∧ linkAfter .linkPeerSilent (linked 2 (.linkPeerSilent 2)) = some 0 := by
  decide +kernel

theorem test_link_states_kept : linkAfter .linkPeerSignal (linked 2 (.linkPeerSignal 2)) = some 2 ∧
    linkAfter .linkQuiesced (linked 2 (.linkQuiesced 2)) = some 2 ∧ linkAfter .lnkcmdQuiesce (linked 4 (.lnkcmdQuiesce 2)) = some 4 ∧
    linkAfter .lnkcmdDetach (linked 2 (.lnkcmdDetach 2)) = some 2 ∧ linkAfter .lnkcmdResume (linked 5 (.lnkcmdResume 2)) = some 5 ∧
    linkAfter .lnkcmdReattach (linked 0 (.lnkcmdReattach 2)) = some 0 ∧ linkAfter .linkPeerSilent (linked 5 (.linkPeerSilent 2)) = some 5 := by
  decide +kernel

-- R189: a link that has packets out drains until the peer has acknowledged them.
theorem test_link_drains : (after .lnkcmdQuiesce ((linked 2 (.lnkcmdQuiesce 2)).setLink 2 { Link.reset with state := 2, buf := [(7, 0, 2)] })).map
      (fun t => ((t.link 2).state, t.flight)) = some (3, []) ∧
    (after .lnkcmdQuiesce (linked 2 (.lnkcmdQuiesce 2))).map (·.flight) = some [.linkQuiesced 2] ∧
    linkAfter .linkQuiesced ((linked 3 (.linkQuiesced 2)).setLink 2 { Link.reset with state := 3, buf := [(7, 0, 2)] }) = some 3 := by
  decide +kernel

theorem test_link_replay : let s := linked 2 (.linkReplay 2 true true)
    (after .linkReplay s).map (fun t => ((t.link 2).replays, (t.link 2).crcerr, (t.link 2).state)) = some (1, 1, 2) ∧
    linkAfter .linkReplay (s.setLink 2 { s.link 2 with fails := 15 }) = some 0 ∧
    (after .linkReplay (linked 1 (.linkReplay 2 true true))).map (fun t => (t.link 2).replays) = some 0 := by decide +kernel

theorem test_lane_spare : let s := linked 2 (.laneSpare 2 5)
    (after .laneSpare s).map (fun t => ((t.link 2).spared, (t.link 2).badlanes, (t.link 2).state)) = some (5, 0x20, 2) ∧
    linkAfter .laneSpare (s.setLink 2 { s.link 2 with spared := 3 }) = some 0 := by decide +kernel

-- R188: the spare's own crossing takes the link down once it carries data.
theorem test_spare_lost : linkAfter .laneSpare ((linked 2 (.laneSpare 2 8)).setLink 2 { Link.reset with state := 2, spared := 3 }) = some 0 ∧
    linkAfter .laneSpare (linked 2 (.laneSpare 2 8)) = some 2 := by decide +kernel

theorem test_link_trained : (after .linkTrained (linked 1 (.linkTrained 2 true 9 none))).map (fun t => ((t.link 2).state, (t.link 2).peer,
      t.plat.nodeLock)) = some (2, 9, true) ∧ linkAfter .linkTrained (linked 1 (.linkTrained 2 true 0 none)) = some 0 ∧
    linkAfter .linkTrained (linked 1 (.linkTrained 2 false 9 none)) = some 0 := by decide +kernel

-- Each clause of the link events: the state it needs and one it does not.
theorem test_witness_links : ((linked 2 (.linkPeerSignal 2)).link 2).state = 2 ∧ ((linked 1 (.linkTrained 2 true 9 none)).link 2).state = 1 ∧
    bootStopped (linked 2 (.linkPeerSignal 2)) = false ∧ (9#10) ≠ (linked 1 (.linkTrained 2 true 9 none)).plat.node ∧ ((linked 2 (.laneSpare 2 5)).link 2).spared = 15 ∧ 2 < 18 := by decide +kernel

/-- Flow 7, to node 1, expects packet 4 and keeps packet 6 as sent; no path is left. -/
def flowing (e : Event) : State := flying [e] (State.reset.setFlow 7 ⟨9, 4, [(6, .put (putTo 1))], [], [], [], 0⟩)

/-- The same, with an active link to node 1. -/
def reaching (e : Event) : State := (flowing e).setLink 2 { Link.reset with state := 2, peer := 1 }

theorem test_witness_packets : pathFor (flowing (.packetRetransmit 7 6)) 1 (packetFlits (.put (putTo 1))) = none ∧
    pathFor (reaching (.packetRetransmit 7 6)) 1 (packetFlits (.put (putTo 1))) = some 2 ∧ ((flowing (.packetRetransmit 7 6)).flow 7).kept.find? (·.1 == 6) = some (6, .put (putTo 1)) ∧
    ((flowing (.packetRetransmit 7 5)).flow 7).kept.find? (·.1 == 5) = none ∧
    ((flowing (.fabricPacketReceive 7 4 (.put (putTo 1)))).flow 7).expect = 4 ∧
    ((flowing (.fabricPacketReceive 7 4 (.put (putTo 1)))).flow 7).early = [] ∧
    bootStopped (flowing (.fabricPacketReceive 7 4 (.put (putTo 1)))) = false := by decide +kernel

theorem test_packets :
    (after .fabricPacketReceive (flowing (.fabricPacketReceive 7 4 (.put (putTo 1))))).map (fun t => ((t.flow 7).expect, t.flight)) =
      some (5, [.putArrival (putTo 1)]) ∧
    (after .fabricPacketReceive (flowing (.fabricPacketReceive 7 3 (.put (putTo 1))))).map (fun t => ((t.flow 7).expect, t.flight)) =
      some (4, []) ∧
    (after .fabricPacketReceive (flowing (.fabricPacketReceive 7 5 (.put (putTo 1))))).map (fun t => ((t.flow 7).expect, (t.flow 7).early.length)) =
      some (4, 1) ∧
    (after .packetRetransmit (flowing (.packetRetransmit 7 6))).map (fun t => ((t.flow 7).resent, t.fab.sent.length)) = some (0, 0) ∧
    (after .packetRetransmit (reaching (.packetRetransmit 7 6))).map (fun t => ((t.flow 7).resent, t.fab.sent.length)) = some (1, 1) := by
  decide +kernel

-- R191: an acknowledged packet is no longer kept.
theorem test_packet_seen : (after .fabricPacketReceive (flowing (.fabricPacketReceive 7 4 (.seen 6)))).map (fun t =>
    ((t.flow 7).kept, (t.flow 7).expect)) = some ([], 4) := by decide +kernel

theorem test_routes_and_peers : (after .routeRemoval (flowing (.routeRemoval (.link 3)))).map (fun t => t.fab.removed) = some [.link 3] ∧
    (after .peerLost (flying [.peerLost 0] connected)).map (fun t => (t.fab.lost, (t.conn 7).state)) = some ([0], 2) ∧
    connected.fab.lost.contains 0 = false ∧ (connected.conn 7).peern = 0 := by decide +kernel

/-! ### Events: connections -/

/-- Connection 7 in a state, of partition 0, with an event. -/
def conned (n : Nat) (e : Event) : State := flying [e] (connected.setConn 7 { Conn.reset with state := n, count := 3 })

/-- Word 0 of a connection: STATE, PEERN 5, PCONN 6, partition 0 (R194). -/
def connWord (n : Nat) : Word := BitVec.ofNat 64 (n * 2 ^ 62 + 5 * 2 ^ 52 + 6 * 2 ^ 40)

/-- STATE, PEERN, PCONN and COUNT after a write. -/
def connAfter (n : Nat) (w : Writer) (v : Word) : Option (Nat × Nat × Nat × Word) :=
  (after .connectionWrite (conned n (.connectionWrite w 7 v))).map fun t =>
    ((t.conn 7).state, (t.conn 7).peern, (t.conn 7).pconn, (t.conn 7).count)

theorem test_witness_connections : tenantOf (conned 0 (.nsendRetry 7)) 0 = some ((conned 0 (.nsendRetry 7)).conn 7).part ∧
    modeAtLeast Mode.u .h = false ∧ ((conned 1 (.nsendRetry 7)).conn 7).queue = [] ∧ fieldOf (connWord 1) 63 62 = 1 ∧
    fieldOf (connWord 3) 63 62 = 3 ∧ fieldOf (connWord 1) 39 34 = 0 := by decide +kernel

theorem test_connections : connAfter 0 ⟨0, .s, 0⟩ (connWord 0) = some (0, 5, 6, 3) ∧ connAfter 0 ⟨0, .s, 0⟩ (connWord 1) = some (1, 5, 6, 0) ∧
    connAfter 1 ⟨0, .h, 0⟩ (connWord 3) = some (0, 5, 6, 3) := by decide +kernel

theorem test_connections_kept : connAfter 2 ⟨0, .m, 0⟩ (connWord 0) = some (0, 5, 6, 3) ∧ connAfter 0 ⟨0, .u, 0⟩ (connWord 1) = some (0, 0, 0, 3) ∧
    connAfter 1 ⟨0, .s, 0⟩ (connWord 1) = some (1, 0, 0, 3) := by decide +kernel

/-- What a write by M-mode makes of connection 7 with a waiting NPUT, command 9, where node 5 is lost or not. -/
def connEnds (n : Nat) (lost : Bool) (v : Word) : Option (Nat × Nat × List Event) :=
  let s := conned n (.connectionWrite ⟨0, .m, 0⟩ 7 v)
  let c : Cmd := ⟨9, 0x00014C41, [], 0x01080000, 0, 0, 1, s.me.tctx, 0, 0, false, none, none, .empty, 0, false, false, false, [], none, none,
    [], none⟩
  let s := s.setConn 7 { s.conn 7 with queue := if n = 1 then [.cmd c] else [] }
  (after .connectionWrite { s with fab := { s.fab with lost := if lost then [5] else [] } }).map fun t =>
    ((t.conn 7).state, (t.conn 7).queue.length, t.flight)

/-- The token 0x16 of that NPUT. -/
def ended : Event := .putArrival ⟨0x01080000, false, 0x16, some sigAll, 0, none, true, 0, true, none⟩

-- R195: an opening to a lost node, a write of 0 and of 2 that end what the entry holds, closing that waits for it, an entry that is lost.
theorem test_connection_ends : connEnds 0 true (connWord 1) = some (2, 0, []) ∧ connEnds 1 false (connWord 0) = some (0, 0, [ended]) ∧
    connEnds 1 false (connWord 2) = some (2, 0, [ended]) ∧ connEnds 1 false (connWord 3) = some (3, 1, []) ∧
    connEnds 2 false (connWord 3) = some (2, 0, []) := by decide +kernel

/-- Connection 7 with a started NPUT, command 9, whose token goes to x8. -/
def nputting : State :=
  let s := conned 1 (.fabricCommandComplete 7 9 0x16 [] 0)
  s.setConn 7 { s.conn 7 with queue := [.cmd ⟨9, 0x00014C41, [], 0x01080000, 0, 0, 1, s.me.tctx, 0, 0, true, none, none, .empty, 0, false,
    false, false, [], none, none, [], none⟩] }

theorem test_witness_fabric_command : ((connCmd nputting 7 9).map fun d => (d.done, d.started, d.instr)) =
    some (none, true, some (.nput 24 20)) ∧ connCmd connected 7 9 = none := by decide +kernel

theorem test_fabric_command : (after .fabricCommandComplete nputting).map (fun t => ((t.conn 7).queue, (t.conn 7).count, t.flight)) =
    some ([], 4, [.putArrival ⟨0x01080000, false, 0x16, some sigAll, 0, none, true, 0, true, none⟩]) := by decide +kernel

/-- A send of 8 bytes with tag 5 that arrives at connection 7, where a receive of that tag is posted or the queue holds l. -/
def meetingSend (rs : List Recv) (l : List YSend) : State :=
  let s := conned 1 (.yarrowSendArrival ⟨7, 1, 9, 5, 8, [1, 2, 3, 4, 5, 6, 7, 8], false⟩)
  { s with fab := { s.fab with posted := [(0, rs)], unexpected := [(0, l)], yarrow := [(0, { YTenant.reset with uqlog := 16 })] } }

/-- A receive of tag 5 from any source, into 0x5000. -/
def receive5 : Recv := ⟨3, 0, 0, 5, 0xFFFFFFFF, 0x5000, 64, 0x01080000, (on id).me.tctx, 0, 0, 0⟩

/-- Unexpected sends that fill 64 KiB. -/
def many : List YSend := List.replicate 1024 ⟨7, 0, 9, 6, 5000, [], false⟩

theorem test_witness_sends : ((meetingSend [] []).postedOf 0).find? (yMatch ⟨7, 1, 9, 5, 8, [1, 2, 3, 4, 5, 6, 7, 8], false⟩) = none ∧
    ((meetingSend [receive5] []).postedOf 0).find? (yMatch ⟨7, 1, 9, 5, 8, [1, 2, 3, 4, 5, 6, 7, 8], false⟩) = some receive5 ∧
    uqUsed (meetingSend [] many) 0 + unexpBytes ⟨7, 1, 9, 5, 8, [], false⟩ = 65664 ∧ uqSize ((meetingSend [] many).ytenant 0) = 65536 := by
  decide +kernel

/-- A send that arrives after one of its connection has been refused, and that one offered again. -/
def behind (again : Bool) : State :=
  let s := conned 1 (.yarrowSendArrival ⟨7, 1, 9, 5, 8, [1, 2, 3, 4, 5, 6, 7, 8], again⟩)
  s.setConn 7 { s.conn 7 with inRefused := true }

theorem test_witness_behind : sendWaits (behind false) ⟨7, 1, 9, 5, 8, [1, 2, 3, 4, 5, 6, 7, 8], false⟩ = true ∧
    sendWaits (behind true) ⟨7, 1, 9, 5, 8, [1, 2, 3, 4, 5, 6, 7, 8], true⟩ = false ∧
    sendWaits (meetingSend [] []) ⟨7, 1, 9, 5, 8, [1, 2, 3, 4, 5, 6, 7, 8], false⟩ = false := by decide +kernel

-- R201: it waits behind the refused one, which is taken first.
theorem test_behind : (after .yarrowSendArrival (behind false)).map (fun t => (t.unexpOf 0).length) = some 0 ∧
    (after .yarrowSendArrival (behind true)).map (fun t => (t.unexpOf 0).length) = some 1 := by decide +kernel

theorem test_sends : (after .yarrowSendArrival (meetingSend [] [])).map (fun t => ((t.unexpOf 0).length, (t.postedOf 0).length)) = some (1, 0) ∧
    (after .yarrowSendArrival (meetingSend [] many)).map (fun t => ((t.conn 7).inRefused, (t.unexpOf 0).length)) = some (true, 1024) ∧
    (after .yarrowSendArrival (meetingSend [receive5] [])).map (fun t => (t.postedOf 0).length) = some 0 := by decide +kernel

/-- A pull of connection 7's send 1 under way for the receive, which the unexpected queue holds. -/
def pulling : State :=
  let y : YSend := ⟨7, 1, 9, 5, 5000, [], false⟩
  let s := conned 1 (.rendezvousPull 7 1 true [1, 2])
  { s with fab := { s.fab with pulls := [(3, (receive5, y))], unexpected := [(0, [y])] } }

theorem test_pull : (after .rendezvousPull pulling).map (fun t => (t.fab.pulls, t.unexpOf 0)) = some ([], []) ∧
    List.find? (fun (e : Nat × Recv × YSend) => e.2.2.conn == 7 && e.2.2.ref == 1) pulling.fab.pulls =
      some (3, (receive5, ⟨7, 1, 9, 5, 5000, [], false⟩)) := by decide +kernel

theorem test_retry : (after .nsendRetry (conned 1 (.nsendRetry 7))).map (fun t => (t.conn 7).state) = some 1 ∧
    (after .nsendRetry ((conned 1 (.nsendRetry 7)).setConn 7 { Conn.reset with backoff := 2, refused := 5 })).map (fun t => (t.conn 7).refused) =
      some 5 := by decide +kernel

theorem test_assign_queue : (after .assignQueueWrite (flying [.assignQueueWrite ⟨0, .m, 0⟩ 4 3 0 50] State.reset)).map (fun t => t.assignq 4 3) =
      some ⟨50, 0, 0, 0, 0, [], 0, []⟩ ∧
    (after .assignQueueWrite (flying [.assignQueueWrite ⟨0, .h, 0⟩ 4 3 1 0x700000000] State.reset)).map (fun t => (t.assignq 4 3).part) = some 7 ∧
    (after .assignQueueWrite (flying [.assignQueueWrite ⟨0, .s, 0⟩ 4 3 1 0x700000000] State.reset)).map (fun t => (t.assignq 4 3).part) = some 0 ∧
    (after .assignQueueWrite (flying [.assignQueueWrite ⟨0, .s, 0⟩ 4 3 2 9] connected)).map (fun t => (t.assignq 4 3).cloc) = some 9 := by
  decide +kernel

-- R203: COUNT written anew before the collective is complete: what it handed out, and what was done of it, is remembered.
theorem test_assign_again : (after .assignQueueWrite (flying [.assignQueueWrite ⟨0, .m, 0⟩ 4 3 0 50]
    (State.reset.setAssignq 4 3 ⟨9, 4, 0, 2, 0, [1, 3], 0, []⟩))).map (fun t => t.assignq 4 3) = some ⟨50, 0, 0, 0, 0, [], 4, [1, 3]⟩ := by
  decide +kernel

/-! ### Events: engines -/

/-- A state with its event in flight performed. -/
def next (i : Instr) (s : Option State) : Option State := s.bind (after i)

/-- Core 0's MZERO of accumulator 1 queued, element (0, 3) of both accumulators being 5. -/
def zeroing : Option State :=
  after (.mzero 1) { on id with ms := { (on id).ms with acc := [(accKey 0 0 0 3, 5), (accKey 0 1 0 3, 5)] } }

theorem test_witness_matrix_start : (zeroing.bind fun s => (mheadOf s 0).map fun c => (c.ready, c.started, c.instr, coreRuns s 0)) =
      some (true, false, some (.mzero 1), true) ∧ zeroing.map (·.flight) = some [.engineCommandStart (.matrix 0)] ∧
    headOf State.reset 0 2 = none := by decide +kernel

theorem test_matrix_start : (next .engineCommandStart zeroing).bind (fun t => (mheadOf t 0).map fun c => (c.started, t.flight)) =
      some (true, [.matrixStepComplete 0]) ∧
    (after .engineCommandStart (flying [.engineCommandStart (.copy 0 2)] (on id))).map (·.flight) = some [] := by decide +kernel

theorem test_witness_matrix_halted : lockHalted State.reset (coreOfQueue 0 0) = false ∧
    lockHalted { State.reset with plat := { State.reset.plat with lockstep := [(0, (0, 0))], featacc := [(0, 0x20)], featdone := 15 } }
      (coreOfQueue 1 0) = true := by decide +kernel

theorem test_witness_matrix_step : ((next .engineCommandStart zeroing).bind fun s => (pickQueue s 0).bind fun q =>
    (mheadOf s (coreOfQueue 0 q.1)).map fun c => (q.1, c.instr, (s.cluster 0).waking, (s.cluster 0).frozen, whereIs s c.hart c.tag == .resident 0)) =
    some (0, some (.mzero 1), false, false, true) := by decide +kernel

theorem test_matrix_step : (next .matrixStepComplete (next .engineCommandStart zeroing)).map (fun t =>
    (accAt t.ms 0 1 0 3, accAt t.ms 0 0 0 3, (t.core 0).mq)) = some (0, 5, []) := by decide +kernel

/-- An MMUL of one K-block that asks for leave of 210 units on die 0 (R255), the pool as given. -/
def asking (lu : Int) : State :=
  let s := ((next .engineCommandStart (after (.mmul 8 20 9) (grouped 64 64 0 1))).getD State.reset)
  flying [.leaveGrant 0] { s with plat := { s.plat with pools := [(0, lu)] } }

theorem test_witness_leave : (oldestRequest (asking 0) 0).map (·.2) = some (.matrix 0, 210) ∧ (asking 0).plat.throttle = false ∧
    (asking 300).lu 0 = 300 ∧ poolFull (asking 0) = 45000000 ∧ oldestRequest State.reset 0 = none := by decide +kernel

theorem test_leave : (after .leaveGrant (asking 300)).map (·.lu 0) = some 90 ∧ (after .leaveGrant (asking 209)).map (·.lu 0) = some 209 := by
  decide +kernel

-- R321: 1,800 W give each die (18,000,000 - 400,000) / 4 LU, and the pool holds at most 10 shares.
theorem test_refill : (after .cloverRefill (flying [.cloverRefill 400000] { State.reset with plat := { State.reset.plat with pools := [] } })).map
      (fun t => (t.lu 0, t.plat.share)) = some (4400000, 4400000) ∧
    (after .cloverRefill (flying [.cloverRefill 400000] State.reset)).map (·.lu 3) = some 44000000 ∧
    (after .cloverRefill (flying [.cloverRefill 0] { State.reset with plat := { State.reset.plat with pools := [], throttle := true } })).map
      (·.lu 0) = some 0 := by decide +kernel

/-- Cluster 3 as given, with an event. -/
def clustered (u : Cluster) (e : Event) : State := flying [e] (State.reset.setCluster 3 u)

theorem test_gating : (after .arrayGate (clustered { Cluster.reset with gated := 1, idle := 8193 } (.arrayGate 3 2))).map (fun t =>
      (t.cluster 3).gated) = some 5 ∧
    (after .arrayGate (clustered { Cluster.reset with gated := 1, idle := 8192 } (.arrayGate 3 2))).map (fun t => (t.cluster 3).gated) = some 1 ∧
    (after .arrayWakeDone (clustered { Cluster.reset with waking := true } (.arrayWakeDone 3))).map (fun t => ((t.cluster 3).gated,
      (t.cluster 3).waking)) = some (0, false) ∧
    (after .arrayWakeDone (clustered Cluster.reset (.arrayWakeDone 3))).map (fun t => (t.cluster 3).gated) = some 15 := by decide +kernel

theorem test_matrix_registers : (after .mxwtWrite (flying [.mxwtWrite ⟨5, .m, 0⟩ 0x19] State.reset)).map (fun t => (t.core 5).mxwt) = some 9 ∧
    (after .mxidleWrite (flying [.mxidleWrite ⟨5, .m, 0⟩ 0x100005] State.reset)).map (fun t => (t.cluster (clusterOf 5)).mxidle) = some 5 := by
  decide +kernel

/-- A CPY of 64 bytes from core 1's stash to core 2's queued in core 0's queue 2 and started. -/
def copyingStash : Option State :=
  let s := stashOf [(stashIdx 1 0x40, 7), (stashIdx 1 0x7F, 8)] (grouped 0x007E000000100040 0x007E000000200080 64 0)
  next .engineCommandStart (after (.cpy 8 20 2) s)

/-- What a copy queue's head command holds. -/
def headHas (s : Option State) (f : State → Cmd → Bool) (q : Nat) : Bool := (s.bind fun s => (headOf s 0 q).map (f s)).getD false

theorem test_witness_copy_piece :
    headHas copyingStash (fun s c => c.ready && c.started && !qFrozen s 0 2 && coreRuns s 0 && !c.isTask && !c.pure && c.off == 0 &&
      c.shadow.isNone) 2 = true ∧
    headHas copyingStash (fun s c => c.instr == some (.cpy 8 20 2) && c.x 2 == 64#64 && c.x 3 == 0#64 && s.flight == [.copyPieceDone 0 2] &&
      regionOf (c.x 0) == .remote 1 64 && regionOf (c.x 1) == .remote 2 128 && !isStashPoison s.ms (stashIdx 1 64 / 64)) 2 = true := by
  decide +kernel

theorem test_copy_piece : (next .copyPieceDone copyingStash).map (fun t => (t.ms.stash, (t.core 0).copyq 2)) =
    some ([(stashIdx 1 0x40, 7), (stashIdx 1 0x7F, 8), (stashIdx 2 0x80, 7), (stashIdx 2 0xBF, 8)], []) := by decide +kernel

/-- The PTASK queued; where st, it has started. -/
def tasked (st : Bool) : Option State := (after (.ptask 8 20) tasking).map fun s =>
  if st then (match headOf s 0 0 with
    | some c => flying [.chicoryLookup 0] (setHead s 0 0 { c with started := true })
    | none => s)
  else s

theorem test_witness_lookup : headHas (tasked true) (fun s c => c.ready && c.started && c.isTask && !c.consumed && !qFrozen s 0 0 &&
    coreRuns s 0 && (chicoryOn s 0).isNone) 0 = true := by decide +kernel

-- R281: the tenant has no reuse table, so the lookup misses and the activation is due; R298: a core without a handler role ends it with 4.
theorem test_lookup : headHas (next .chicoryLookup (tasked true)) (fun s c => c.busy && c.off == 0 && s.reuse.entries.isEmpty) 0 = true ∧
    (next .engineCommandStart (tasked false)).map (·.flight) =
      some [.putArrival ⟨0x01080000, false, 0x4000000004, some .empty, 0, none, true, 0, true, none⟩] := by decide +kernel

theorem test_invalidation :
    (after .chicoryInvalidation (flying [.chicoryInvalidation 5] { reused with reuse := { reused.reuse with watched := [5, 9] } })).map
      (fun t => (t.reuse.entries.map (·.id))) = some [2] ∧
    (after .chicoryInvalidation (flying [.chicoryInvalidation 5] { reused with reuse := { reused.reuse with watched := [9] } })).map
      (fun t => (t.reuse.entries.map (·.id))) = some [1, 2, 3] := by decide +kernel

/-! ### Steps of the matrix unit and pieces of copies -/

-- R215: blocks of scale 1.0. LG6 1, 2: 1 + 4; INT8 3, −2: 9 + 4; BF16 1, 2: 1 + 4; an INT8 with an LG6; NaR; reserved, poison, zero.
theorem test_pairterm : pairterm 0x051000007F01 0x051000007F01 = (0x40A00000, 0) ∧
    pairterm 0xFE0300007F02 0xFE0300007F02 = (0x41500000, 0) ∧ pairterm 0x40003F8000007F03 0x40003F8000007F03 = (0x40A00000, 0) ∧
    pairterm 0xFE0300007F02 0x051000007F01 = (0x7FC00000, 2) ∧ pairterm 0x2000007F01 0x051000007F01 = (0x7FC00000, 4) ∧
    pairterm 6 0x051000007F01 = (0x7FC00000, 3) ∧ pairterm 0xFF 0x051000007F01 = (0x7FC00000, 1) ∧
    pairterm 0 0x051000007F01 = (0, 0) ∧ pairterm 0x051000000001 0x051000007F01 = (0, 0) := by decide +kernel

-- The hypotheses of the clauses on the term of a pair of blocks.
theorem test_witness_pairterm : let a : VWord := 0x051000007F01
    (blkReserved a = false ∧ blkPoison a = false ∧ blkFmt a = 1 ∧ blkE a = 127 ∧ ∀ i, i < 80 → blkElt a i ≠ 32) ∧
    (blkReserved 6 = true ∧ blkPoison 0xFF = true ∧ blkReserved 0xFF = false ∧ blkFmt 0xFE0300007F02 = 2 ∧ blkFmt 0x40003F8000007F03 = 3 ∧
      blkFmt 0x7F04 = 4 ∧ blkE 0x7F04 = 127 ∧ blkReserved 0x7F04 = false ∧ blkElt 0x2000007F01 0 = 32) := by decide +kernel

/-- A state in which no STMAP window of core 0's harts is enabled maps no offset of its stash. -/
theorem no_window {s : State} (h : ∀ n, n < 32 → stmapEn ((s.hart (n / 4)).st (2 * (n % 4) + 1)) = false) (o : Nat) :
    windowAt s 0 o = none := by
  have : (List.range 32).find? (fun n => (s.hart (slotOf 0 (n / 4))).covers (n % 4) o) = none := by
    refine List.find?_eq_none.2 fun n hn => ?_
    have := h n (List.mem_range.1 hn)
    simp [Hart.covers, slotOf, this]
  rw [windowAt, this]; rfl

/-- Core 0's matrix unit, awake or gated, with a started command of hart 0 whose operands are g. -/
def unit (i : Instr) (g : List Word) (gated : BitVec 4) : State :=
  let s := flying [.matrixStepComplete 0] (on fun a => { a with engines := 1 })
  let s := s.setCluster 0 { Cluster.reset with gated := gated }
  s.setCore 0 { Core.reset with mq := [⟨7, i.bits.setWidth 32, g, 0x01080000, 0x01090000, 0, 1, s.me.tctx, 0, 0, true, none, none, .empty, 0, false,
    false, false, [], none, none, [], none⟩] }

/-- What the steps of R243 ask of core 0's unit and its command. -/
def stepping (s : State) (i : Instr) : Prop := (s.cluster 0).waking = false ∧ lockHalted s (coreOfQueue 0 0) = false ∧
  (pickQueue s 0).map (·.1) = some 0 ∧ coreOfQueue 0 0 = 0 ∧ ((mheadOf s 0).any fun c => c.instr == some i && c.shadow.isNone && c.off == 0 &&
    (match whereIs s c.hart c.tag with | .saved _ _ _ => false | _ => true)) = true

theorem test_witness_mzero : stepping (unit (.mzero 1) [] 15) (.mzero 1) := by unfold stepping; decide +kernel

-- A dense MMUL of one K-block and a sparse one of two, the last A block at the end of the stash; the same in a gated array.
theorem test_witness_mmul : stepping (unit (.mmul 8 20 9) [0x3FFC0, 0, 0, 1] 0) (.mmul 8 20 9) ∧
    stepping (unit (.mmul 8 20 9) [0x3FF80, 0, 0, 0x202] 0) (.mmul 8 20 9) ∧ wbRaces (unit (.mmul 8 20 9) [0x3FFC0, 0, 0, 1] 0) 0 = [] ∧
    wbRaces (unit (.mmul 8 20 9) [0x3FF80, 0, 0, 0x202] 0) 0 = [] ∧ ((unit (.mmul 8 20 9) [0, 0, 0, 1] 8).cluster 0).gated ≠ 0 := by
  unfold stepping; decide +kernel

theorem test_witness_mmul_operands : ∀ x ∈ [(1 : Word), 0x202], ∀ kb ∈ [0, 1], ∀ i, i < 128 →
    let s := unit (.mmul 8 20 9) [0x3FF80, 0, 0, x] 0
    let o := 0x3FF80 + i * 0 + 64 * kb
    o + 64 ≤ 0x40000 ∧ windowAt s 0 o = none ∧ isStashPoison s.ms (stashIdx 0 o / 64) = false := by
  intro x hx kb hk i _
  refine ⟨by simp at hk; omega, ?_, rfl⟩
  simp only [List.mem_cons, List.not_mem_nil, or_false] at hx
  rcases hx with rfl | rfl <;> exact no_window (by decide +kernel) _

-- The last row of format 0 ends with the stash.
theorem test_witness_mstw : stepping (unit (.mstw 8 20) [0x30000, 0x200, 0x18, 0x3FE00] 15) (.mstw 8 20) ∧
    0x30000 + 127 * 0x200 + 512 ≤ 0x40000 ∧ (∀ o, windowAt (unit (.mstw 8 20) [0x30000, 0x200, 0x18, 0x3FE00] 15) 0 o = none) ∧
    ∀ k, isStashPoison (unit (.mstw 8 20) [0x30000, 0x200, 0x18, 0x3FE00] 15).ms k = false :=
  ⟨by unfold stepping; decide +kernel, by decide, no_window (by decide +kernel), fun _ => rfl⟩

/-- A row of an MSTW of accumulator 1, of which element (0, 1) is 1.0, with a bias of 2.0 for it: its first 8 bytes. -/
def mstwFirst (f : Word) : Nat :=
  let s := unit (.mstw 8 20) [0x1000, 0x200, 0x10 + f, 64] 15
  let s := stashOf [(0x46, 0), (0x47, 0x40)] { s with ms := { s.ms with acc := [(accKey 0 1 0 1, 0x3F800000)] } }
  match mheadOf s 0 with
  | some c => leNat (Memory.readBytes (mstwRow s 0 c).1.ms.stash 0x1000 8)
  | none => 0

-- R262: FP32 and BF16.
theorem test_mstw_row : mstwFirst 0 = 0x4040000000000000 ∧ mstwFirst 1 = 0x40400000 := by decide +kernel

/-- The address of offset o of core g's stash. -/
def remoteAt (g o : Nat) : Word := BitVec.ofNat 64 (0x007E000000000000 + g * 0x100000 + o)

/-- Partition 0 with a started command at the head of core 0's copy queue q, of which off bytes are done; core 1's stash as given. -/
def piece (i : Instr) (q : Nat) (g : List Word) (off : Nat) (m : List (Nat × Byte)) : State :=
  let s := flying [.copyPieceDone 0 q] (stashOf m (mapped (on fun a => { a with engines := 1 })))
  s.setCore 0 { Core.reset with cq := [(q, [⟨7, i.bits.setWidth 32, g, 0x01080000, 0, 0, 1, s.me.tctx, 0, off, true, none, none, .empty, 0, false,
    false, false, [], none, none, [], none⟩])] }

/-- What the statement on the pieces asks of every form's command. -/
def headIs (s : State) (q : Nat) (i : Instr) : Bool :=
  (headOf s 0 q).any fun c => c.instr == some i && c.ready && c.started && !qFrozen s 0 q && coreRuns s 0 && !c.isTask && !c.pure && c.shadow.isNone

/-- The offset of the head command of queue q after a piece, none where it has ended. -/
def offAfter (q : Nat) (s : State) : Option (Option Nat) := (after .copyPieceDone s).map fun t => (headOf t 0 q).map (·.off)

/-- The tokens on their way after a piece, with their flags. -/
def tokens (s : State) : Option (List (VWord × Sticky)) := (after .copyPieceDone s).map fun t => t.flight.filterMap fun e => match e with
  | .putArrival p => some (p.val, p.flags)
  | _ => none

/-- An MLDW of 64 bytes with an index stream, at an offset. -/
def loadingWeights (off : Nat) : State :=
  piece (.mldw 8 20) 0 [remoteAt 1 0x40, 0x80, 64, remoteAt 2 0] off [(stashIdx 1 0x40, 7), (stashIdx 2 0x13, 9)]

theorem test_witness_mldw_piece : headIs (loadingWeights 0) 0 (.mldw 8 20) = true ∧ headIs (loadingWeights 84) 0 (.mldw 8 20) = true ∧
    regionOf (remoteAt 1 0x40) = .remote 1 0x40 ∧ regionOf (remoteAt 2 0) = .remote 2 0 ∧
    (∀ k, isStashPoison (loadingWeights 0).ms k = false) := ⟨by decide +kernel, by decide +kernel, by decide +kernel, by decide +kernel, fun _ => rfl⟩

theorem test_mldw_piece : (after .copyPieceDone (loadingWeights 0)).map (fun t => (t.ms.wbuf, (headOf t 0 0).map (·.off))) =
      some ([(wbIdx (loadingWeights 0) 0 0x80, 7)], some 64) ∧
    (after .copyPieceDone (loadingWeights 64)).map (fun t => (t.ms.wbuf, (headOf t 0 0).map (·.off))) =
      some ([(wbIdx (loadingWeights 0) 0 (0x80 + 64 + 19), 9)], some 84) ∧
    tokens (loadingWeights 84) = some [(0, 0)] := by decide +kernel

/-- A CPYG of one element of 8 bytes of core 1's stash, by the index at core 2's, to the end of its own stash. -/
def gathering : State := piece (.cpyg 8 20 1) 1 [remoteAt 1 0, remoteAt 2 4, 0x3FFF800000008, 1] 0 [(stashIdx 1 24, 7), (stashIdx 2 4, 3)]

/-- A CPYH of one block of core 1's stash to channel 3 of the core that a locator names. -/
def heralding (l : Word) : State := piece (.cpyh 8 20 1) 1 [remoteAt 1 0, l, 3, 64] 0 [(stashIdx 1 0, 7)]

theorem test_witness_cpyg_cpyh : headIs gathering 1 (.cpyg 8 20 1) = true ∧ (∀ o, windowAt gathering 0 o = none) ∧
    leNat (Memory.readBytes gathering.ms.stash (stashIdx 2 4) 4) = 3 ∧ regionOf (remoteAt 1 0 + 24) = .remote 1 24 ∧ 0x3FFF8 + 8 ≤ 0x40000 ∧
    headIs (heralding 0x01000000) 1 (.cpyh 8 20 1) = true ∧ locCore 0x01000000 = some 0 ∧ samePart (heralding 0) 0 0 = true ∧
    locNode (0x0040000000000000 : Word) = 1 := by
  refine ⟨by decide +kernel, no_window (by decide +kernel), ?_⟩; decide +kernel

theorem test_cpyg_cpyh : (after .copyPieceDone gathering).map (·.ms.stash) = some [(0x3FFF8, 7), (stashIdx 1 24, 7), (stashIdx 2 4, 3)] ∧
    tokens gathering = some [(0, 0)] ∧
    (after .copyPieceDone (heralding 0x01000000)).map (fun t => (headOf t 0 1).map (·.busy)) = some (some true) ∧
    tokens (heralding 0x0040000000000000) = some [(6, 0)] := by decide +kernel

/-- A CPYX of one block of core 1's stash, whose blocks `bad` are poison, to a place; frame 0 is online in class U. -/
def typed (dst : Word) (bad : List Nat) : State :=
  let s := piece (.cpyx 8 20 1) 1 [remoteAt 1 0, dst, 64, 0] 0 [(stashIdx 1 0, 7)]
  { s with ms := { s.ms with stashPoison := bad, classMap := [(0, 4)] } }

theorem test_witness_cpyx : headIs (typed (remoteAt 2 64) []) 1 (.cpyx 8 20 1) = true ∧ classOf (typed 0x5000 [4096]).ms 0x5000 = 0 ∧
    isStashPoison (typed 0x5000 [4096]).ms (stashIdx 1 0 / 64) = true ∧
    (match engReach (typed 0x5000 [4096]) 0 (typed 0 []).me.tctx 0x5000 accWrite with | .ok (.mem 0x5000 none _ _ _, _) => true | _ => false) = true := by
  decide +kernel

-- R269, R296: poison stays poison in a stash, and ends a copy to a class U frame with 0x0D.
theorem test_cpyx : (after .copyPieceDone (typed (remoteAt 2 64) [])).map (·.ms.stash) = some [(stashIdx 1 0, 7), (stashIdx 2 64, 7)] ∧
    (after .copyPieceDone (typed (remoteAt 2 64) [4096])).map (·.ms.stashPoison.contains (stashIdx 2 64 / 64)) = some true ∧
    tokens (typed (remoteAt 2 64) [4096]) = some [(0, 0)] ∧ tokens (typed 0x5000 [4096]) = some [(13, 0)] := by decide +kernel

/-- A CPYR of the one element at core 1's stash, whose blocks `bad` are poison, to a place; memory holds 5 at 0x5000. -/
def reducing (i : Instr) (n : Nat) (dst : Word) (bad : List Nat) : State :=
  let s := piece i 1 [remoteAt 1 0, dst, BitVec.ofNat 64 n, 0] 0 [(stashIdx 1 0, 7)]
  { s with ms := { s.ms with stashPoison := bad, mem := [(0x5000, 5)] } }

theorem test_witness_cpyr : headIs (reducing (.cpyrAddS32 8 20 1) 4 0x5000 []) 1 (.cpyrAddS32 8 20 1) = true ∧
    lineState (reducing (.cpyrAddS32 8 20 1) 4 0x5000 []).ms none 0x5000 = .clean ∧
    whereIs (reducing (.cpyrAddS32 8 20 1) 4 0x5000 []) 0 1 = .resident 0 ∧
    (match engReach (reducing (.cpyrAddS32 8 20 1) 4 0x5000 []) 0 (typed 0 []).me.tctx 0x5000 accWrite with
      | .ok (.mem 0x5000 none _ _ _, _) => true | _ => false) = true := by decide +kernel

-- 5 and 7: the sum, the least, the greatest, the common bits and the bits of either; a poisoned source, a stash as destination.
theorem test_cpyr : (([Instr.cpyrAddS32 8 20 1, .cpyrMinS32 8 20 1, .cpyrMaxS32 8 20 1, .cpyrAnd 8 20 1, .cpyrOr 8 20 1].map fun i =>
      (after .copyPieceDone (reducing i 4 0x5000 [])).map (·.ms.mem)) = [12, 5, 7, 5, 7].map fun v => some [(0x5000, v)]) ∧
    tokens (reducing (.cpyrAddF32 8 20 1) 4 0x5000 [4096]) = some [(13, 1)] ∧
    tokens (reducing (.cpyrAddBf16 8 20 1) 2 (remoteAt 2 0) []) = some [(6, 0)] := by decide +kernel

/-! ### Events: the platform -/

/-- The reset state with an event. -/
def platform (e : Event) : State := flying [e] State.reset

theorem test_registers : (after .registerWrite (platform (.registerWrite .mgmt 0x100 1500))).map (·.plat.pwrcap) = some 1500 ∧
    (after .registerWrite (platform (.registerWrite (.bar0 0) 0x200 0xFF030201))).map (·.flt.ringwt) = some 0x030201 ∧
    bootStopped State.reset = false ∧
    (after .registerWrite (flying [.registerWrite .mgmt 0x210 2] (linked 4 .tbuTick))).map (·.flight) = some [.lnkcmdDetach 2] ∧
    (after .registerWrite (flying [.registerWrite .mgmt 0x210 2] (linked 3 .tbuTick))).map (·.flight) = some [] ∧
    (after .registerWrite (platform (.registerWrite (.window ⟨0, .u, 0⟩) 0x100 1500))).map (fun t => decide (t = State.reset)) = some true := by
  decide +kernel

/-- The address at offset o of the control and package windows (R28, R343). -/
def window (o : Nat) : Word := BitVec.ofNat 64 (0xFFFFFE0000000000 + o)

/-- A write of a window register by core 0 in a mode. -/
def windowWrite (l : Mode) (o : Nat) (v : Word) : Option State :=
  after .registerWrite (platform (.registerWrite (.window ⟨0, l, 0⟩) (window o) v))

-- WBWIN of the last core, and the last entries of both link dies' Yarrow tables, of the Chicory tenant table and of the VF table.
theorem test_witness_window_registers : regionOf (window (1023 * 0x100000 + 0x18)) = .ctrl 1023 0x18 ∧
    regionOf (window 0x430207E0) = .pkg (0x42020000 + 0x1000000 * 1 + 32 * 63) ∧
    regionOf (window 0x430207E8) = .pkg (0x42020000 + 0x1000000 * 1 + 32 * 63 + 8) ∧
    regionOf (window 0x440003F0) = .pkg (0x44000000 + 16 * 63) ∧ regionOf (window 0x440003F8) = .pkg (0x44000008 + 16 * 63) ∧
    regionOf (window 0x4B0001F8) = .pkg (0x4B000000 + 8 * 63) := by decide +kernel

theorem test_window_registers : (windowWrite .m (1023 * 0x100000 + 0x18) (-1)).map (fun t => (t.core 1023).wbwin) = some 0x3F3F ∧
    (windowWrite .m 0x420207E0 0x12345FFF).map (fun t => ((t.ytenant 63).uqbase, (t.ytenant 63).uqlog)) = some (0x12345000, 0x3F) ∧
    (windowWrite .m 0x430207E8 (-1)).map (fun t => (t.ytenant 63).rquota) = some 0x3FFF ∧
    (windowWrite .m 0x440003F0 (-1)).map (fun t => (t.rtenant 63).1) = some 0x800FFFFFFFE0FFFF ∧
    (windowWrite .m 0x4B0001F8 (-1)).map (fun t => Table.get 0#64 t.plat.vft 63) = some 0x8000000000000FFF ∧
    (windowWrite .h 0x4B0001F8 (-1)).map (fun t => Table.get 0#64 t.plat.vft 63) = some 0 := by decide +kernel

-- R285: CLASS in bits 1:0, ONLINE bit 2, PARTITION from bit 10.
theorem test_class_map : let s := platform (.classMapWrite ⟨0, .m, 0⟩ 7 0x1406)
    (after .classMapWrite s).map (fun t => (entryOnline (classEntry t.ms 7), entryClass (classEntry t.ms 7), entryPart (classEntry t.ms 7))) =
      some (true, 2, 5) ∧
    (after .classMapWrite (platform (.classMapWrite ⟨0, .h, 0⟩ 7 0x1406))).map (fun t => entryOnline (classEntry t.ms 7)) = some false ∧
    (after .classMapWrite (platform (.classMapWrite ⟨0, .m, 0⟩ 7 0x1402))).map (fun t => entryPart (classEntry t.ms 7)) = some 5 := by decide +kernel

theorem test_witness_class_map : 7 ≤ Config.lastFrame ∧ (0x1406#64).getLsbD 2 = true ∧ entryClass 0x1406#64 ≠ 3 ∧
    rawUsed { MemSys.reset with classMap := Table.set MemSys.reset.classMap 7 (BitVec.ofNat 64 (entryPart 0x1406#64 * 2 ^ 10 + entryClass 0x1406#64)) } +
      rawCost (entryClass 0x1406#64) ≤ Config.rawTotal := by decide +kernel

/-- Ring 0 of a function at a host address, WR 20 and RD 10. -/
def ringed (f : Nat) (base : Word) (e : Event) : State := (platform e).setRing f 0 { Ring.reset with base := base, log := 4, wr := 20, rd := 10 }

theorem test_witness_rings : ringChecks (ringed 0 0x7000 (.ringEnable 0 0 0)) 0 ((ringed 0 0x7000 (.ringEnable 0 0 0)).ringAt 0 0) = true ∧
    ringChecks (ringed 3 0x8000000000000 (.ringEnable 3 0 0)) 3 ((ringed 3 0x8000000000000 (.ringEnable 3 0 0)).ringAt 3 0) = false ∧
    ringLog ((ringed 0 0x7000 (.ringEnable 0 0 0)).ringAt 0 0) = 4 := by decide +kernel

theorem test_rings : (after .ringEnable (ringed 0 0x7000 (.ringEnable 0 0 0))).map (fun t => (t.ringAt 0 0).en) = some true ∧
    (after .ringEnable (ringed 3 0x8000000000000 (.ringEnable 3 0 0))).map (fun t => ((t.ringAt 3 0).en, t.flt.vffrz)) = some (false, 8) ∧
    (after .ringEnable (ringed 0 0x8000000000000 (.ringEnable 0 0 0))).map (fun t => (t.ringAt 0 0).en) = some false ∧
    (after .ringRdWrite (ringed 0 0x7000 (.ringRdWrite 0 0 15))).map (fun t => (t.ringAt 0 0).rd) = some 15 ∧
    (after .ringRdWrite (ringed 0 0x7000 (.ringRdWrite 0 0 3))).map (fun t => (t.ringAt 0 0).err) = some true := by decide +kernel

theorem test_vfs : let s := bound
    (after .vfThaw { s with flight := [.vfThaw 2], flt := { s.flt with vffrz := 0xA } }).map (·.flt.vffrz) = some 8 ∧
    (after .vfKill { s with flight := [.vfKill 2], flt := { s.flt with waiting := [fault3 1, fault3 2] } }).map (fun t =>
      (t.flt.waiting.map (·.func), vfBound t 1)) = some ([2], false) := by decide +kernel

theorem test_features : (after .feataccWrite (platform (.feataccWrite 2 9))).map (fun t => (Table.get 0#64 t.plat.featacc 2, t.plat.featdone)) =
      some (9, 4) ∧
    (after .feataccWrite { platform (.feataccWrite 2 9) with plat := { State.reset.plat with featdone := 4 } }).map (fun t =>
      Table.get 0#64 t.plat.featacc 2) = some 0 := by decide +kernel

theorem test_boot : (after .boot (flying [.boot none 5] (on id))).map (fun t => (t.plat.bootstat, t.plat.node, t.harts.length)) =
      some (6, 5, 0) ∧
    (after .boot (flying [.boot (some 3) 5] (on id))).map (fun t => (t.plat.bootstat, t.plat.node)) = some (0x303, 0) := by decide +kernel

theorem test_node : (after .nodeidWrite (platform (.nodeidWrite 0x405))).map (·.plat.node) = some 5 ∧
    (after .nodeidWrite { platform (.nodeidWrite 5) with plat := { State.reset.plat with nodeLock := true } }).map (·.plat.node) = some 0 ∧
    (after .attnonceWrite (platform (.attnonceWrite 5))).map (fun t => (t.plat.nonce, t.plat.report, t.flight, reportByteOf t 0,
      reportByteOf t 8)) = some (5, false, [.attestationReportDone], 0, 5) ∧
    (after .attestationReportDone (platform .attestationReportDone)).map (·.plat.report) = some true := by decide +kernel

theorem test_board : (after .emthrotAssert (platform .emthrotAssert)).map (fun t => (t.plat.throttle, t.lu 0, t.lu 3)) = some (true, 0, 0) ∧
    (after .emthrotRelease { platform .emthrotRelease with plat := { State.reset.plat with throttle := true } }).map (·.plat.throttle) =
      some false ∧ (after .traypresNHigh (platform .traypresNHigh)).map (·.plat.trayHigh) = some true := by decide +kernel

-- R313, R314: RINGWT at 0x200, MSGSTAT at 0x80, a ring's WR at 0x110; an unlisted offset reads 0; a stopped package reads 0.
theorem test_bar_reads : let s := ringed 3 0x7000 (.cloverRefill 0)
    (barRead s 0 0x200, barRead s 3 0x110, barRead s 3 0x118, barRead s 3 0x400) = (0x010204, 20, 10, 0) ∧
    barRead { s with plat := { s.plat with bootstat := 0x303 } } 3 0x110 = 0 ∧
    bootStopped { s with plat := { s.plat with bootstat := 0x303 } } = true := by decide +kernel

theorem test_management : (after .i3cPrivateWrite (platform (.i3cPrivateWrite 0x100 none))).map (·.plat.i3coff) = some 0x100 ∧
    (after .i3cPrivateWrite (platform (.i3cPrivateWrite 0x120 (some 7)))).map (·.plat.rackgrp) = some 7 ∧
    (after .i3cPrivateRead { platform .i3cPrivateRead with plat := { State.reset.plat with i3coff := 0x100 } }).map (·.plat.i3cdata) =
      some 1800 ∧
    (after .i3cPrivateRead { platform .i3cPrivateRead with plat := { State.reset.plat with bootstat := 6 } }).map (·.plat.i3cdata) = some 6 := by
  decide +kernel

theorem test_rack_cap : (after .i3cBroadcastCap (platform (.i3cBroadcastCap 0 1200))).map (·.plat.pwrcap) = some 1200 ∧
    (after .i3cBroadcastCap (platform (.i3cBroadcastCap 1 1200))).map (·.plat.pwrcap) = some 1800 := by decide +kernel

theorem test_lockstep : let p := { State.reset.plat with lockstep := [(3, (0, 0))], featacc := [(0, 0x20)], featdone := 15 }
    (after .lockstepMismatch { platform (.lockstepMismatch 3) with plat := p }).map (fun t => ((t.cluster 6).frozen, (t.cluster 7).frozen)) =
      some (true, true) ∧
    (after .lockstepMismatch { platform (.lockstepMismatch 2) with plat := p }).map (fun t => (t.cluster 4).frozen) = some false ∧
    featureOn { State.reset with plat := p } 5 = true := by decide +kernel

/-- Pair 0 bound for ASID 0 and VMID 0; the second cluster's copy of hart 0 has another x5. -/
def apart : State :=
  let s := placedAdd
  { s with plat := { s.plat with lockstep := [(0, (0, 0))], featacc := [(0, 0x20)], featdone := 15, lockHarts := [(0, { s.hart 0 with x := [(5, 1)] })] } }

-- R293: ADD x7, x5, x6 retires another value there, which the comparison meets 32 cycles later.
theorem test_lock_apart : (match step apart with
    | .next t => t.plat.lockDue == [(0, 32)] && (t.hart 0).pc == 0x4004 && (t.hart 0).rx 7 == 0
    | _ => false) = true ∧ apart.plat.lockHarts ≠ [] := by decide +kernel

end Sys2Proof.Tests
end

section
/-! SUPPORT. What a register write does at each of its ports, register by register (R6, R313, R345), and O59. -/

namespace Sys2Proof.Machine

/-- A register write in flight is applied to the state without it. -/
theorem exec_registerWrite_next {s : State} {port : Port} {off v : Word} {r : List Event} (h : s.flight = .registerWrite port off v :: r) :
    exec .registerWrite s = .next (writeRegister { s with flight := r } port off v) := by
  rw [exec_registerWrite, execRegisterWrite, h]

/-- A field of a dword is the number its bits hold. -/
theorem fieldOf_eq_extractLsb' (v : Word) (hi lo : Nat) : fieldOf v hi lo = (v.extractLsb' lo (hi + 1 - lo)).toNat :=
  (BitVec.extractLsb'_toNat ..).symm

/-! ### The control and package windows -/

theorem writeWindowReg_of_ne_m {s : State} {w : Writer} {va v : Word} (h : w.mode ≠ .m) : writeWindowReg s w va v = s := by
  rw [writeWindowReg, if_pos h]

theorem writeWindowReg_wbwin {s : State} {w : Writer} {va v : Word} {g : Nat} (h : w.mode = .m) (hva : regionOf va = .ctrl g 0x18) :
    writeWindowReg s w va v = s.setCore g { s.core g with wbwin := v &&& 0x3F3F#64 } := by
  simp [writeWindowReg, h, hva]

/-- Word k of entry p, at either link die's window (R198). -/
theorem writeWindowReg_yarrow {s : State} {w : Writer} {va v : Word} {die p k : Nat} (h : w.mode = .m) (hdie : die < 2) (hp : p < 64)
    (hk : k < 4) (hva : regionOf va = .pkg (0x42020000 + 0x1000000 * die + 32 * p + 8 * k)) :
    writeWindowReg s w va v = writeYarrow s p k v := by
  generalize hoff : 0x42020000 + 0x1000000 * die + 32 * p + 8 * k = off at hva
  have hdies : 0x42000000 ≤ off ∧ off < 0x44000000 := by omega
  have ho : (off - 0x42000000) % 0x1000000 = 0x20000 + 32 * p + 8 * k := by omega
  have htable : 0x20000 ≤ 0x20000 + 32 * p + 8 * k ∧ 0x20000 + 32 * p + 8 * k < 0x20800 := by omega
  have hentry : (0x20000 + 32 * p + 8 * k - 0x20000) / 32 = p := by omega
  have hword : (0x20000 + 32 * p + 8 * k) / 8 % 4 = k := by omega
  simp only [writeWindowReg, h, ne_eq, not_true_eq_false, if_false, hva, if_pos hdies, ho, if_pos htable, hentry, hword]

/-- A dword of entry p of the Chicory tenant table (R279). -/
theorem writeWindowReg_tenant {s : State} {w : Writer} {va v : Word} {p : Nat} {hi : Bool} (h : w.mode = .m) (hp : p < 64)
    (hva : regionOf va = .pkg (0x44000000 + 16 * p + 8 * hi.toNat)) : writeWindowReg s w va v = writeTenant s p hi v := by
  have hle : hi.toNat ≤ 1 := hi.toNat_le
  generalize hoff : 0x44000000 + 16 * p + 8 * hi.toNat = off at hva
  have hdies : ¬(0x42000000 ≤ off ∧ off < 0x44000000) := by omega
  have htenants : 0x44000000 ≤ off ∧ off < 0x44000400 := by omega
  have hentry : (off - 0x44000000) / 16 = p := by omega
  have hword : (off % 16 == 8) = hi := by
    rw [show off % 16 = 8 * hi.toNat by omega]
    cases hi <;> rfl
  simp only [writeWindowReg, h, ne_eq, not_true_eq_false, if_false, hva, if_neg hdies, if_pos htenants, hentry, hword]

theorem writeWindowReg_vf {s : State} {w : Writer} {va v : Word} {f : Nat} (h : w.mode = .m) (hf : f < 64)
    (hva : regionOf va = .pkg (0x4B000000 + 8 * f)) : writeWindowReg s w va v = writeVf s f v := by
  generalize hoff : 0x4B000000 + 8 * f = off at hva
  have hdies : ¬(0x42000000 ≤ off ∧ off < 0x44000000) := by omega
  have htenants : ¬(0x44000000 ≤ off ∧ off < 0x44000400) := by omega
  have hvfs : 0x4B000000 ≤ off ∧ off < 0x4B000200 := by omega
  have hentry : (off - 0x4B000000) / 8 = f := by omega
  simp only [writeWindowReg, h, ne_eq, not_true_eq_false, if_false, hva, if_neg hdies, if_neg htenants, if_pos hvfs, hentry]

theorem writeYarrow_uqbase (s : State) (p : Nat) (v : Word) : writeYarrow s p 0 v = { s with fab := { s.fab with
    yarrow := Table.set s.fab.yarrow p { s.ytenant p with uqbase := v &&& 0xFFFFFFFFFFFFF000#64, uqlog := (v.extractLsb' 0 6).toNat } } } := by
  rw [← fieldOf_eq_extractLsb' v 5 0]; rfl

theorem writeYarrow_rquota (s : State) (p : Nat) (v : Word) : writeYarrow s p 1 v = { s with fab := { s.fab with
    yarrow := Table.set s.fab.yarrow p { s.ytenant p with rquota := (v.extractLsb' 32 14).toNat } } } := by
  rw [← fieldOf_eq_extractLsb' v 45 32]; rfl

/-! ### Link commands of the management page -/

/-- R323: the event that command `cmd` sets on its way at link k in state `st`; in any other state a command does nothing. -/
def lnkcmdEvent (k cmd st : Nat) : Option Event :=
  match cmd, st with
  | 1, 2 => some (.lnkcmdQuiesce k)
  | 2, 4 => some (.lnkcmdDetach k)
  | 3, 4 => some (.lnkcmdResume k)
  | 4, 5 => some (.lnkcmdReattach k)
  | _, _ => none

theorem lnkcmdEvent_eq_none {k cmd st : Nat}
    (h : ¬ ((cmd = 1 ∧ st = 2) ∨ (cmd = 2 ∧ st = 4) ∨ (cmd = 3 ∧ st = 4) ∨ (cmd = 4 ∧ st = 5))) : lnkcmdEvent k cmd st = none := by
  unfold lnkcmdEvent
  split
  case h_5 => rfl
  all_goals simp at h

/-- A write of LNKCMD sets the event of its command on its way, where the link's state takes it. -/
theorem writeMgmt_lnkcmd {s : State} {k : Nat} {v : Word} (hk : k < 18) :
    writeMgmt s (0x200 + 8 * k) v = (lnkcmdEvent k (fieldOf v 2 0) (s.link k).state).elim s s.fly := by
  generalize hoff : 0x200 + 8 * k = off
  have hbelow : ∀ a, a < 0x200 → off ≠ a := by omega
  have hfeat : ¬(0x30 ≤ off ∧ off ≤ 0x48 ∧ off % 8 = 0) := by omega
  have hlinks : 0x200 ≤ off ∧ off ≤ 0x288 ∧ off % 8 = 0 := by omega
  have hlink : (off - 0x200) / 8 = k := by omega
  rw [writeMgmt, if_neg (hbelow 0x100 (by decide)), if_neg (hbelow 0x108 (by decide)), if_neg (hbelow 0x110 (by decide)),
    if_neg (hbelow 0x120 (by decide)), if_neg (hbelow 0x128 (by decide)), if_neg hfeat, if_pos hlinks, hlink]
  dsimp only
  split
  case h_5 hq hd hr ha => rw [lnkcmdEvent_eq_none (by tauto)]; rfl
  all_goals simp only [*, lnkcmdEvent, Option.elim]

theorem exec_registerWrite_lnkcmd {s : State} {k : Nat} {v : Word} {r : List Event} (hk : k < 18)
    (h : s.flight = .registerWrite .mgmt (BitVec.ofNat 64 (0x200 + 8 * k)) v :: r) :
    exec .registerWrite s = .next ((lnkcmdEvent k (fieldOf v 2 0) (s.link k).state).elim { s with flight := r } { s with flight := r }.fly) := by
  have hoff : (BitVec.ofNat 64 (0x200 + 8 * k)).toNat = 0x200 + 8 * k := Nat.mod_eq_of_lt (by omega)
  rw [exec_registerWrite_next h, writeRegister, hoff, writeMgmt_lnkcmd hk]
  rfl

/-! ### BAR0 -/

/-- What BAR0 of a running package reads: R313's registers of every function and of the PF, and 0 at an unlisted offset. -/
theorem barRead_of_running {s : State} (h : bootStopped s = false) :
    barRead s 0 0x200 = s.flt.ringwt ∧ barRead s 0 0x300 = s.flt.vffrz ∧ barRead s 0 0x308 = 0#64 ∧
      ∀ f, barRead s f 0x80 = Table.get 0#64 s.flt.msgstat f ∧ barRead s f 0x110 = (s.ringAt f 0).wr.setWidth 64 ∧
        barRead s f 0x118 = (s.ringAt f 0).rd.setWidth 64 ∧ barRead s f 0x400 = 0#64 := by
  simp [barRead, h, ringWord]

end Sys2Proof.Machine

section
open Sys2Proof.Machine

/-- Settles O59: each port's write by the lemma of the register at its offset. -/
theorem platformRegisters : Obligations.PlatformRegisters := by
  intro s r u
  refine ⟨fun w va v h => ?window, fun v => ⟨?pwrcap, ?pwrcapt, ?pwrfloor, ?rackgrp, fun k hk h => ?lnkcmd, fun h run => ?ringwt⟩,
    barRead_of_running⟩
  case window =>
    intro stores
    have hw (t : State) (ht : writeWindowReg u w va v = t) : stores t := by
      rw [← ht]
      exact exec_registerWrite_next h
    refine ⟨fun m => hw _ (writeWindowReg_of_ne_m m), fun m => ⟨fun g hva => hw _ (writeWindowReg_wbwin m hva), fun die p hd hp => ⟨?_, ?_⟩,
      fun p hp => ⟨?_, ?_, ?_⟩⟩⟩
    · exact fun hva => hw _ ((writeWindowReg_yarrow (k := 0) m hd hp (by decide) hva).trans (writeYarrow_uqbase ..))
    · exact fun hva => hw _ ((writeWindowReg_yarrow (k := 1) m hd hp (by decide) hva).trans (writeYarrow_rquota ..))
    · exact fun hva => hw _ (writeWindowReg_tenant (hi := false) m hp hva)
    · refine fun hva => hw _ (writeWindowReg_tenant (hi := true) m hp (hva.trans (congrArg _ ?_)))
      rw [Bool.toNat_true]; omega
    · exact fun hva => hw _ (writeWindowReg_vf m hp hva)
  case pwrcap => exact exec_registerWrite_next
  case pwrcapt => exact exec_registerWrite_next
  case pwrfloor => exact exec_registerWrite_next
  case rackgrp => exact exec_registerWrite_next
  case lnkcmd =>
    intro cmd st
    have hx := exec_registerWrite_lnkcmd hk h
    change exec .registerWrite s = .next ((lnkcmdEvent k cmd st).elim u u.fly) at hx
    refine ⟨fun hc hs => ?_, fun hc hs => ?_, fun hc hs => ?_, fun hc hs => ?_, fun hn => ?other⟩
    case other => rw [hx, lnkcmdEvent_eq_none hn]; rfl
    all_goals rw [hx, hc, hs]; rfl
  case ringwt =>
    have running : bootStopped u = false := run
    rw [exec_registerWrite_next h, writeRegister, running]
    rfl
end
end

section
/-! SUPPORT. That every step reaches a next state: what decodes has an encoding, every meaning ends, and so does every turn of the
machine (R13, R22, R24), and O45. -/

namespace Sys2Proof

/-! ### What decodes has an encoding -/

/-- What an option of an instruction holds is one of the rows with an encoding, not a step of the package. -/
abbrev Encoded (o : Option Instr) : Prop := ∀ i, o = some i → (encode i).isSome = true

theorem encoded_none : Encoded none := nofun
theorem encoded_some {i : Instr} (h : (encode i).isSome = true) : Encoded (some i) := fun _ e => Option.some.inj e ▸ h

theorem encoded_ite {c : Prop} [Decidable c] {o p : Option Instr} (ho : Encoded o) (hp : Encoded p) :
    Encoded (if c then o else p) := by
  split
  · exact ho
  · exact hp

/-- Every row of R21 that the decoder names is one with an encoding. -/
theorem encoded_decFields (f7 : BitVec 7) (b : BitVec 5) (f3 : BitVec 3) (a d : BitVec 5) (m : BitVec 6) :
    Encoded (decFields f7 b f3 a d m) := by
  unfold decFields
  split
  case h_32 => exact encoded_none
  case h_3 | h_4 | h_6 => exact encoded_some rfl
  all_goals
    delta decOpr decOpi decBrc decJlr decLoad decStore decOrder decAmo decSync decRemote decMsg decQueue decSys
      decLaunch decCache decVint decVflt decVmem decVmove decVred decVcvt decVcmp decBlock decMatrix decCopy decTask decFabric decGate
    repeat' refine encoded_ite (encoded_some rfl) ?_
    exact encoded_none

theorem encoded_decHalf (m : Bool) (b d : BitVec 5) (o : BitVec 4) : Encoded (decHalf m b d o) := by
  unfold decHalf
  split
  case h_15 => exact encoded_ite encoded_none (encoded_some rfl)
  case h_17 => exact encoded_none
  all_goals exact encoded_some rfl

theorem accept_eq_ok {w : BitVec 32} {o : Option Instr} {i : Instr} (h : accept w o = .ok i) : o = some i := by
  unfold accept at h
  split at h
  · nomatch h
  · split at h
    · cases h; rfl
    · nomatch h

theorem encode_of_decode32 {w : BitVec 32} {i : Instr} (h : decode32 w = .ok i) : (encode i).isSome = true :=
  encoded_decFields _ _ _ _ _ _ i (accept_eq_ok h)

theorem encode_of_decode16 {w : BitVec 16} {i : Instr} (h : decode16 w = .ok i) : (encode i).isSome = true :=
  encoded_decHalf _ _ _ _ i (accept_eq_ok h)

end Sys2Proof

namespace Sys2Proof.Machine

open Safety

theorem fetched_eq_instr {r : Except DecodeError Instr} {bits : Word} {s u : State} {i : Instr} (h : fetched r bits s = .instr i u) :
    r = .ok i := by
  unfold fetched at h
  split at h
  · cases h; rfl
  · nomatch h

/-- R13, R22: what a fetch delivers as an instruction has an encoding. -/
theorem encode_of_fetch {s u : State} {i : Instr} (h : fetch s = .instr i u) : (encode i).isSome = true := by
  unfold fetch at h
  split at h
  · nomatch h
  · split at h
    · split at h
      · nomatch h
      · exact encode_of_decode32 (fetched_eq_instr h)
    · exact encode_of_decode16 (fetched_eq_instr h)

/-! ### Every meaning reaches a next state -/

theorem execVshl16_completes (d b : Reg) (m : Bool) (s : State) : Completes (execVshl16 d b m s) := by
  unfold execVshl16
  split <;> exact finish_next _ _

theorem execVsra16_completes (d b : Reg) (m : Bool) (s : State) : Completes (execVsra16 d b m s) := by
  unfold execVsra16
  split <;> exact finish_next _ _

/-- R24: an instruction with an encoding ends in a next state: of its effect, or of its stop. -/
theorem exec_completes {i : Instr} (h : (encode i).isSome = true) (s : State) : Completes (exec i s) := by
  cases i <;> cases h
  case vshl16 => exact execVshl16_completes ..
  case vsra16 => exact execVsra16_completes ..
  case vmovm | mand | mor | mnot | idle | yield => exact ⟨_, rfl⟩
  all_goals exact finish_next _ _

/-- The row of an event at the head of those in flight occurs. -/
theorem exec_rowOf_completes (e : Event) (s : State) (l : List Event) : Completes (exec (rowOf e) { s with flight := e :: l }) := by
  cases e <;> exact ⟨_, rfl⟩

theorem execTakePendingTrap_completes {s : State} (h : (nextPending s.me).isSome = true) : Completes (execTakePendingTrap s) := by
  unfold execTakePendingTrap
  split
  case h_1 hn => rw [hn] at h; nomatch h
  case h_2 =>
    dsimp only
    split
    · exact ⟨_, rfl⟩
    · split <;> exact ⟨_, rfl⟩

theorem execIllegalEncoding_completes {s u : State} {bits : Word} (h : fetch s = .illegal bits u) : Completes (execIllegalEncoding s) :=
  ⟨_, by unfold execIllegalEncoding; rw [h]⟩

theorem execInstructionFetchFault_completes {s : State} {e : Stop} (h : fetch s = .fault e) : Completes (execInstructionFetchFault s) :=
  ⟨_, by unfold execInstructionFetchFault; rw [h]⟩

/-- R24: the current hart at its instruction boundary reaches a next state. -/
theorem issueOne_completes (s : State) : Completes (issueOne s) := by
  unfold issueOne
  split
  case isTrue hp => exact execTakePendingTrap_completes hp
  case isFalse =>
    split
    case h_1 hf => exact exec_completes (encode_of_fetch hf) _
    case h_2 hf => exact execIllegalEncoding_completes hf
    case h_3 hf => exact execInstructionFetchFault_completes hf

/-! ### Every step reaches a next state -/

theorem onNext_completes {o : Host.Outcome State Fault Refusal} (h : Completes o) (f : State → State) : Completes (onNext f o) := by
  obtain ⟨t, rfl⟩ := h
  exact ⟨f t, rfl⟩

theorem issueStep_completes (s : State) : Completes (issueStep s) := onNext_completes (issueOne_completes _) _

theorem performEvent_completes (s : State) (k : Nat) (e : Event) : Completes (performEvent s k e) :=
  onNext_completes (exec_rowOf_completes e { s with lag := s.lag - 1 } _) _

theorem takeTurn_completes (s : State) (t : Turn) : Completes (takeTurn s t) := by
  unfold takeTurn
  split
  case h_1 =>
    split
    · exact performEvent_completes ..
    · exact ⟨_, rfl⟩
  case h_2 => exact performEvent_completes ..
  case h_3 =>
    split
    · exact issueStep_completes _
    · exact ⟨_, rfl⟩
  case h_4 => exact ⟨_, rfl⟩

theorem runStep_completes (s : State) : Completes (runStep s) := by
  unfold runStep
  split
  · exact performEvent_completes ..
  · split
    · exact takeTurn_completes _ _
    · split
      · exact performEvent_completes ..
      · split
        · exact issueStep_completes s
        · exact ⟨_, rfl⟩

end Sys2Proof.Machine

section
open Sys2Proof.Machine

/-- Settles O45: the step is that of `runStep`, each of whose branches reaches a next state. -/
theorem stepAlwaysMoves : Obligations.StepAlwaysMoves := fun s => onNext_completes (runStep_completes s) _
end
end

section
/-! SUPPORT. The fields of an encoding and what they decode to, instruction by instruction (R13 to R22), and O47 and O46. -/

namespace Sys2Proof

/-! ### Fields of an encoding -/

/-- A field above the low part of a word is one of its high part. -/
theorem extractLsb'_append_high {p q s l : Nat} (x : BitVec p) (y : BitVec q) : (x ++ y).extractLsb' (s + q) l = x.extractLsb' s l := by
  rw [BitVec.extractLsb'_append_eq_of_le (Nat.le_add_left q s), Nat.add_sub_cancel]

/-- R14: the fields of a word of them. -/
theorem decBits_fmt (f7 : BitVec 7) (b : BitVec 5) (f3 : BitVec 3) (a d : BitVec 5) (m : BitVec 6) :
    decBits (fmt f7 b f3 a d m) = decFields f7 b f3 a d m := by
  have above1 {s l : Nat} : (fmt f7 b f3 a d m).extractLsb' (s + 1) l = (f7 ++ b ++ f3 ++ a ++ d ++ m).extractLsb' s l :=
    extractLsb'_append_high _ _
  have above7 {s l : Nat} : (fmt f7 b f3 a d m).extractLsb' (s + 7) l = (f7 ++ b ++ f3 ++ a ++ d).extractLsb' s l :=
    (above1 (s := s + 6)).trans (extractLsb'_append_high _ _)
  have above12 {s l : Nat} : (fmt f7 b f3 a d m).extractLsb' (s + 12) l = (f7 ++ b ++ f3 ++ a).extractLsb' s l :=
    (above7 (s := s + 5)).trans (extractLsb'_append_high _ _)
  have above17 {s l : Nat} : (fmt f7 b f3 a d m).extractLsb' (s + 17) l = (f7 ++ b ++ f3).extractLsb' s l :=
    (above12 (s := s + 5)).trans (extractLsb'_append_high _ _)
  have above20 {s l : Nat} : (fmt f7 b f3 a d m).extractLsb' (s + 20) l = (f7 ++ b).extractLsb' s l :=
    (above17 (s := s + 3)).trans (extractLsb'_append_high _ _)
  have f7_eq := (above20 (s := 5)).trans BitVec.extractLsb'_append_eq_left
  have b_eq := (above20 (s := 0)).trans BitVec.extractLsb'_append_eq_right
  have f3_eq := (above17 (s := 0)).trans BitVec.extractLsb'_append_eq_right
  have a_eq := (above12 (s := 0)).trans BitVec.extractLsb'_append_eq_right
  have d_eq := (above7 (s := 0)).trans BitVec.extractLsb'_append_eq_right
  have m_eq := (above1 (s := 0)).trans BitVec.extractLsb'_append_eq_right
  rw [decBits, f7_eq, b_eq, f3_eq, a_eq, d_eq, m_eq]

@[simp] theorem bit_beq_one (m : Bool) : (bit m == 1#1) = m := by cases m <;> rfl

/-- R18: the fields of a halfword of them. -/
theorem decHalfBits_fmtHalf (m : Bool) (b d : BitVec 5) (o : BitVec 4) : decHalfBits (fmtHalf m b d o) = decHalf m b d o := by
  have above1 {s l : Nat} : (fmtHalf m b d o).extractLsb' (s + 1) l = (bit m ++ b ++ d ++ o).extractLsb' s l :=
    extractLsb'_append_high _ _
  have above5 {s l : Nat} : (fmtHalf m b d o).extractLsb' (s + 5) l = (bit m ++ b ++ d).extractLsb' s l :=
    (above1 (s := s + 4)).trans (extractLsb'_append_high _ _)
  have above10 {s l : Nat} : (fmtHalf m b d o).extractLsb' (s + 10) l = (bit m ++ b).extractLsb' s l :=
    (above5 (s := s + 5)).trans (extractLsb'_append_high _ _)
  have m_eq := (above10 (s := 5)).trans BitVec.extractLsb'_append_eq_left
  have b_eq := (above10 (s := 0)).trans BitVec.extractLsb'_append_eq_right
  have d_eq := (above5 (s := 0)).trans BitVec.extractLsb'_append_eq_right
  have o_eq := (above1 (s := 0)).trans BitVec.extractLsb'_append_eq_right
  rw [decHalfBits, m_eq, b_eq, d_eq, o_eq, bit_beq_one]

/-! ### Immediates and flags within the fields -/

@[simp] theorem imm12_parts (i : BitVec 12) : i.extractLsb' 5 7 ++ i.extractLsb' 0 5 = i := BitVec.extractLsb'_append_extractLsb'
@[simp] theorem imm6_parts (i : BitVec 6) : i.extractLsb' 5 1 ++ i.extractLsb' 0 5 = i := BitVec.extractLsb'_append_extractLsb'
@[simp] theorem imm20_parts (i : BitVec 20) : i.extractLsb' 13 7 ++ i.extractLsb' 8 5 ++ i.extractLsb' 5 3 ++ i.extractLsb' 0 5 = i := by
  have high : i.extractLsb' 13 7 ++ i.extractLsb' 8 5 = i.extractLsb' 8 12 := BitVec.extractLsb'_append_extractLsb'_eq_extractLsb' rfl
  have mid : i.extractLsb' 8 12 ++ i.extractLsb' 5 3 = i.extractLsb' 5 15 := BitVec.extractLsb'_append_extractLsb'_eq_extractLsb' rfl
  rw [high, mid]
  exact BitVec.extractLsb'_append_extractLsb'

@[simp] theorem parts_6_1 (x : BitVec 6) (y : BitVec 1) : (x ++ y).extractLsb' 1 6 = x ∧ (x ++ y).extractLsb' 0 1 = y :=
  ⟨BitVec.extractLsb'_append_eq_left, BitVec.extractLsb'_append_eq_right⟩
@[simp] theorem parts_5_2 (x : BitVec 5) (y : BitVec 2) : (x ++ y).extractLsb' 2 5 = x ∧ (x ++ y).extractLsb' 0 2 = y :=
  ⟨BitVec.extractLsb'_append_eq_left, BitVec.extractLsb'_append_eq_right⟩
@[simp] theorem parts_1_4 (x : BitVec 1) (y : BitVec 4) : (x ++ y).extractLsb' 4 1 = x ∧ (x ++ y).extractLsb' 0 4 = y :=
  ⟨BitVec.extractLsb'_append_eq_left, BitVec.extractLsb'_append_eq_right⟩
@[simp] theorem parts_2_3 (x : BitVec 2) (y : BitVec 3) : (x ++ y).extractLsb' 3 2 = x ∧ (x ++ y).extractLsb' 0 3 = y :=
  ⟨BitVec.extractLsb'_append_eq_left, BitVec.extractLsb'_append_eq_right⟩
@[simp] theorem parts_3_2 (x : BitVec 3) (y : BitVec 2) : (x ++ y).extractLsb' 2 3 = x ∧ (x ++ y).extractLsb' 0 2 = y :=
  ⟨BitVec.extractLsb'_append_eq_left, BitVec.extractLsb'_append_eq_right⟩
@[simp] theorem parts_4_1 (x : BitVec 4) (y : BitVec 1) : (x ++ y).extractLsb' 1 4 = x ∧ (x ++ y).extractLsb' 0 1 = y :=
  ⟨BitVec.extractLsb'_append_eq_left, BitVec.extractLsb'_append_eq_right⟩
@[simp] theorem parts_2_1 (x : BitVec 2) (y : BitVec 1) : (x ++ y).extractLsb' 1 2 = x ∧ (x ++ y).extractLsb' 0 1 = y :=
  ⟨BitVec.extractLsb'_append_eq_left, BitVec.extractLsb'_append_eq_right⟩
@[simp] theorem parts_1_2 (x : BitVec 1) (y : BitVec 2) : (x ++ y).extractLsb' 2 1 = x ∧ (x ++ y).extractLsb' 0 2 = y :=
  ⟨BitVec.extractLsb'_append_eq_left, BitVec.extractLsb'_append_eq_right⟩
@[simp] theorem parts_5_1_1 (x : BitVec 5) (y z : BitVec 1) :
    (x ++ y ++ z).extractLsb' 2 5 = x ∧ (x ++ y ++ z).extractLsb' 1 1 = y ∧ (x ++ y ++ z).extractLsb' 0 1 = z :=
  ⟨(extractLsb'_append_high (s := 1) _ _).trans BitVec.extractLsb'_append_eq_left,
    (extractLsb'_append_high (s := 0) _ _).trans BitVec.extractLsb'_append_eq_right, BitVec.extractLsb'_append_eq_right⟩

/-- R14 to R17, R21: the word of an instruction of 32 bits decodes to it. -/
theorem decBits_of_encWord {i : Instr} {w : BitVec 32} (h : encWord i = some w) : decBits w = some i := by
  cases i <;> cases h <;> rw [decBits_fmt]
  -- Whole registers and types are the operands: the fixed fields decide.
  case add | sub | min | max | minu | maxu | slt | sltu | and | or | xor | andn | orn | xnor | sll | srl | sra | rol | ror |
    mul | mulh | mulhu | div | divu | rem | remu | clz | ctz | popc | brev | ldAq | fence | fenceE | iflush | arm | armv |
    callat | hend | hmask | hunmask | syscall | brk | tret | idle | yield | exit | tlbinvAll | tlbinvAsid | tlbinvVa |
    tlbinvStage2 | park | resume | migrate | spawn | armlr | lchk | rwb | rinv | disc | pin | unpin | pref | vgetl | vsetl |
    vsett | blkunp | blkpk | blkaddq | blkhdr | blkscl | mmul | mstw | mldw | mqry | ptask | ptinv | ptstat | nput | nget |
    nsend | nrecv | nchain | ncnt | bqpop => rfl
  -- A field holds flags beside fixed bits: each value of the flags decides.
  case rput | rputS | rputv | rputvS | vabs | vneg | vld | vst | vlds | vsts | vgath | vscat | vldT | vstT | vbcast | vperm |
    vslide | vrsum | vrmax | vrmin | vpsum | vcvtBf16F32 | vcvtF32Bf16 | vcvtF32S32 | vcvtS32F32 | vlgx | vlgq |
    vsel =>
    rename_i m
    cases m <;> rfl
  case amoswapW | amoswapD | amoaddW | amoaddD | amoandW | amoandD | amoorW | amoorD | amoxorW | amoxorD | amominW | amominD |
    amomaxW | amomaxD | amominuW | amominuD | amomaxuW | amomaxuD | amocasW | amocasD | amofaddW | vadd | vsub | vmul | vmulh |
    vmin | vmax | vand | vor | vxor | vshl | vshr | vsra | vadds | vsubs |
    vmad =>
    rename_i m q
    cases m <;> cases q <;> rfl
  -- Immediates and operands narrower than their field: the fields give their parts back.
  case bext | bins => simp [decFields, decOpr]
  case addi | andi | ori | xori | slli | srli | srai | slti => simp [decFields, decOpi]
  case lih => simp [decFields, decLih]
  case lpc => simp [decFields, decLpc]
  case beq | bne | blt | bge | bltu | bgeu | brdy | bnrdy => simp [decFields, decBrc]
  case jl => simp [decFields, decJl]
  case jlr => simp [decFields, decJlr]
  case ldB | ldH | ldW | ldD | lduB | lduH | lduW | ldT => simp [decFields, decLoad]
  case stB | stH | stW | stD | stT => simp [decFields, decStore]
  case stRl | ldto | ldtoW => simp [decFields, decOrder]
  case barexp | bararr | barwait => simp [decFields, decSync]
  case msend | msendS => simp [decFields, decMsg]
  case qpop | qadv | qcnt | qcfg | qwait => simp [decFields, decQueue]
  case csrr | csrw | csrs | csrc => simp [decFields, decSys]
  case vfadd | vfsub | vfmul | vfma | vfmin | vfmax => simp [decFields, decVflt]
  case vfabs | vfneg | vexp2 | vlog2 | vrcp | vrsq =>
    rename_i m
    cases m <;> simp [decFields, decVflt, bit]
  case vmovm => simp [decFields, decVmove]
  case vcvtS32S8 | vcvtS8S32 => simp [decFields, decVcvt]
  case vceq | vclt | vcle | mand | mor | mnot | mpopc => simp [decFields, decVcmp]
  case mzero => simp [decFields, decMatrix]
  case cpy | cpyrAddS32 | cpyrAddF32 | cpyrAddBf16 | cpyrMinS32 | cpyrMaxS32 | cpyrMinF32 | cpyrMaxF32 | cpyrAnd | cpyrOr |
    cpyg | cpyh | cpyx | cpyq => simp [decFields, decCopy]
  case bqdone => simp [decFields, decGate]

/-- R18, R19: the halfword of a lane form decodes to it. -/
theorem decHalfBits_of_encHalf {i : Instr} {w : BitVec 16} (h : encHalf i = some w) : decHalfBits w = some i := by
  cases i <;> cases h <;> rw [decHalfBits_fmtHalf] <;> rfl

/-! ### Words as memory holds them -/

theorem encWord_eq_fmt {i : Instr} {w : BitVec 32} (h : encWord i = some w) : ∃ f7 b f3 a d m, w = fmt f7 b f3 a d m := by
  cases i <;> cases h <;> exact ⟨_, _, _, _, _, _, rfl⟩

theorem encHalf_eq_fmtHalf {i : Instr} {w : BitVec 16} (h : encHalf i = some w) : ∃ m b d o, w = fmtHalf m b d o := by
  cases i <;> cases h <;> exact ⟨_, _, _, _, rfl⟩

theorem halfword_bytes (w : BitVec 16) : w.extractLsb' 8 8 ++ w.extractLsb' 0 8 = w := BitVec.extractLsb'_append_extractLsb'

theorem low_halfword_bytes (w : BitVec 32) : w.extractLsb' 8 8 ++ w.extractLsb' 0 8 = w.extractLsb' 0 16 :=
  BitVec.extractLsb'_append_extractLsb'_eq_extractLsb' rfl

theorem word_bytes (w : BitVec 32) : w.extractLsb' 24 8 ++ w.extractLsb' 16 8 ++ w.extractLsb' 8 8 ++ w.extractLsb' 0 8 = w := by
  have high : w.extractLsb' 24 8 ++ w.extractLsb' 16 8 = w.extractLsb' 16 16 := BitVec.extractLsb'_append_extractLsb'_eq_extractLsb' rfl
  have mid : w.extractLsb' 16 16 ++ w.extractLsb' 8 8 = w.extractLsb' 8 24 := BitVec.extractLsb'_append_extractLsb'_eq_extractLsb' rfl
  rw [high, mid]
  exact BitVec.extractLsb'_append_extractLsb'

/-- R13: a word of an instruction is read as 32 bits, a halfword as 16. -/
theorem isLong_fmt (f7 : BitVec 7) (b : BitVec 5) (f3 : BitVec 3) (a d : BitVec 5) (m : BitVec 6) :
    isLong ((fmt f7 b f3 a d m).extractLsb' 0 16) = true := by
  have low : (fmt f7 b f3 a d m).extractLsb' 0 1 = 1#1 := BitVec.extractLsb'_append_eq_right
  rw [isLong, BitVec.extractLsb'_extractLsb'_of_le (by decide), low]
  rfl

theorem isLong_fmtHalf (m : Bool) (b d : BitVec 5) (o : BitVec 4) : isLong (fmtHalf m b d o) = false := by
  have low : (fmtHalf m b d o).extractLsb' 0 1 = 0#1 := BitVec.extractLsb'_append_eq_right
  rw [isLong, low]
  rfl

theorem accept_some {w : BitVec 32} {i : Instr} (h : i.wf = true) : accept w (some i) = .ok i := by
  have hc : i.check = none := Option.isNone_iff_eq_none.mp h
  simp only [accept, hc]

/-- The instruction at the front of a word's bytes is that of the word. -/
theorem decodeTableWord_of_decode {n : Nat} {w : BitVec n} {i : Instr} {l : List Byte}
    (h : decode [w.extractLsb' 0 8, w.extractLsb' 8 8, w.extractLsb' 16 8, w.extractLsb' 24 8] = .ok (i, l)) :
    decodeTableWord n w.toNat = some i := by
  simp only [decodeTableWord, Nat.mod_eq_of_lt w.isLt]
  split
  case h_1 hd => cases h.symm.trans hd; rfl
  case h_2 hd => cases h.symm.trans hd

theorem decodeTableWord_of_encWord {i : Instr} {w : BitVec 32} (hi : i.wf = true) (h : encWord i = some w) :
    decodeTableWord 32 w.toNat = some i := by
  have hlong : isLong (w.extractLsb' 8 8 ++ w.extractLsb' 0 8) = true := by
    obtain ⟨f7, b, f3, a, d, m, rfl⟩ := encWord_eq_fmt h
    rw [low_halfword_bytes, isLong_fmt]
  have hdec : decode32 w = .ok i := by rw [decode32, decBits_of_encWord h, accept_some hi]
  apply decodeTableWord_of_decode (l := [])
  rw [decode, hlong, word_bytes, hdec]
  rfl

theorem decodeTableWord_of_encHalf {i : Instr} {w : BitVec 16} (hi : i.wf = true) (h : encHalf i = some w) :
    decodeTableWord 16 w.toNat = some i := by
  have hshort : isLong w = false := by
    obtain ⟨m, b, d, o, rfl⟩ := encHalf_eq_fmtHalf h
    exact isLong_fmtHalf ..
  have hdec : decode16 w = .ok i := by rw [decode16, decHalfBits_of_encHalf h, accept_some hi]
  apply decodeTableWord_of_decode (l := [w.extractLsb' 16 8, w.extractLsb' 24 8])
  rw [decode, halfword_bytes, hshort, hdec]
  rfl

end Sys2Proof

section
open Sys2Proof

/-- Settles O47: a 32-bit word and a halfword each decode to the instruction they encode. -/
theorem decodeOfEncode : Obligations.DecodeOfEncode := by
  intro i n w hi he
  unfold encode at he
  split at he
  case h_1 hw =>
    cases he
    exact decodeTableWord_of_encWord hi hw
  case h_2 =>
    split at he
    case h_1 hh =>
      cases he
      rw [BitVec.toNat_setWidth_of_le (by decide)]
      exact decodeTableWord_of_encHalf hi hh
    case h_2 => nomatch he

/-- Settles O46: each word is decoded. -/
theorem decodesSpecWords : Obligations.DecodesSpecWords := by
  unfold Obligations.DecodesSpecWords
  decide +kernel
end
end

section
/-! SUPPORT. How the CSR instructions end: their checks in R24's order, and what passes them (R76), and O24. -/

namespace Sys2Proof.Machine

open Sys2Proof.Safety

/-- A trap of an instruction of no pure task is taken. -/
theorem stopped_trap {s : State} (h : Impure s) (c : Nat) (v : Word) : stopped s (.trap c v) = takeTrap s s.cur c v false := by
  simp [stopped, trapNow, h]

theorem bind_error {α β : Type} (e : Stop) (f : α → Except Stop β) : (Except.error e >>= f) = .error e := rfl

/-! ### The checks -/

theorem needPureCsr_ok {s : State} {n : Nat} (h : Impure s ∨ n = 0x020) (write : Bool) : needPureCsr n write s = .ok () := by
  unfold needPureCsr
  split
  case isTrue => rfl
  case isFalse hn =>
    obtain h | h := h
    · exact noPure_ok h
    · exact absurd (.inl h) hn

theorem needStmap_ok {s : State} {n : Nat} (h : 0x060 ≤ n ∧ n ≤ 0x067 → hasOwnStore s s.cur = false) : needStmap n s = .ok () := by
  unfold needStmap
  by_cases hn : 0x060 ≤ n ∧ n ≤ 0x067
  · simp [h hn]
  · have : (decide (0x060 ≤ n) && decide (n ≤ 0x067)) = false := by simpa using hn
    simp [this]

theorem csrPresent_of_rw {n : Nat} (h : n ∈ csrRw) : csrPresent n = true := by simp [csrPresent, h]
theorem csrPresent_of_ro {n : Nat} (h : n ∈ csrRo) : csrPresent n = true := by simp [csrPresent, h]

section
variable {s : State} {n : Nat} {write : Bool} {bits : Word}

theorem needCsr_ok (hp : csrPresent n = true) (hm : modeAtLeast s.me.mode (Mode.ofCode (n / 0x400)) = true)
    (hw : write = true → n ∈ csrRw) : needCsr n write bits s = .ok () := by
  have allowed : (!write || csrRw.contains n) = true := by
    cases write
    · rfl
    · simpa using hw rfl
  rw [needCsr, hp, check_true, bind_ok, needMode, csrLevel, hm, check_true, bind_ok, allowed, check_true]

/-- R24: a number outside the map. -/
theorem needCsr_absent (hp : csrPresent n = false) : needCsr n write bits s = .error (.trap 0x01 bits) := by
  rw [needCsr, hp, check_false, bind_error]
  rfl

/-- R24: a number above the hart's mode. -/
theorem needCsr_level (hp : csrPresent n = true) (hm : modeAtLeast s.me.mode (Mode.ofCode (n / 0x400)) = false) :
    needCsr n write bits s = .error (.trap 0x02 bits) := by
  rw [needCsr, hp, check_true, bind_ok, needMode, csrLevel, hm, check_false, bind_error]
  rfl

/-- R24: a write of a number that is only read. -/
theorem needCsr_readOnly (hp : csrPresent n = true) (hm : modeAtLeast s.me.mode (Mode.ofCode (n / 0x400)) = true) (hw : n ∉ csrRw) :
    needCsr n true bits s = .error (.trap 0x01 bits) := by
  have denied : (!true || csrRw.contains n) = false := by simpa using hw
  rw [needCsr, hp, check_true, bind_ok, needMode, csrLevel, hm, check_true, bind_ok, denied, check_false]
  rfl

end

/-! ### The instructions -/

section
variable {s : State} {d a : Reg} {c : BitVec 12}

theorem execCsrr_ok (hp : Impure s ∨ c.toNat = 0x020) (hn : csrPresent c.toNat = true)
    (hm : modeAtLeast s.me.mode (Mode.ofCode (c.toNat / 0x400)) = true) (hd : XFree s d) :
    execCsrr d a c s = .next (s.step4 fun h => h.wx d (readCsr s c.toNat)) := by
  rw [execCsrr, needPureCsr_ok hp, bind_ok, needCsr_ok hn hm (write := false) (by simp), bind_ok, freeX_ok hd, bind_ok, finish_ok]

theorem execCsrr_trap {k : Nat} {v : Word} (hp : Impure s) (hn : needCsr c.toNat false (Instr.bits (.csrr d a c)) s = .error (.trap k v)) :
    execCsrr d a c s = .next (takeTrap s s.cur k v false) := by
  rw [execCsrr, needPureCsr_ok (.inl hp), bind_ok, hn, bind_error, finish_error, stopped_trap hp]

variable {i : Instr} {f : Word → Word → Word} {w1c : Bool}

/-- R76: a CSR that may be written takes the function of its old value, after the old value has reached x[d]. -/
theorem csrUpdate_ok (ha : XReady s [a]) (hp : Impure s ∨ c.toNat = 0x020) (hn : c.toNat ∈ csrRw)
    (hm : modeAtLeast s.me.mode (Mode.ofCode (c.toNat / 0x400)) = true) (hd : XFree s d)
    (hs : 0x060 ≤ c.toNat ∧ c.toNat ≤ 0x067 → hasOwnStore s s.cur = false) (hr : c.toNat ≠ 0x081) :
    csrUpdate i d a c f w1c s =
      .next (writeCsr (s.step4 fun h => h.wx d (readCsr s c.toNat)) c.toNat (f (readCsr s c.toNat) (s.me.rx a))) := by
  simp only [csrUpdate, needX_ok (ha a List.mem_cons_self), needPureCsr_ok hp, needCsr_ok (csrPresent_of_rw hn) hm fun _ => hn,
    freeX_ok hd, needStmap_ok hs, bind_ok, if_neg hr, finish_ok]

/-- R220: RCLASS is changed by CSRW alone. -/
theorem csrUpdate_rclass (ha : XReady s [a]) (hp : Impure s) (hr : c.toNat = 0x081)
    (hm : modeAtLeast s.me.mode (Mode.ofCode (c.toNat / 0x400)) = true) (hd : XFree s d) :
    let u := s.step4 fun h => h.wx d (readCsr s c.toNat)
    csrUpdate i d a c f w1c s = .next (if w1c then u.setMe { u.me with rclass := rclassW1C u.me.rclass (s.me.rx a) } else u) := by
  have hn : c.toNat ∈ csrRw := by rw [hr]; decide
  have hs : needStmap c.toNat s = .ok () := needStmap_ok fun h => by omega
  simp only [csrUpdate, needX_ok (ha a List.mem_cons_self), needPureCsr_ok (.inl hp), needCsr_ok (csrPresent_of_rw hn) hm fun _ => hn,
    freeX_ok hd, hs, bind_ok, if_pos hr, finish_ok]

theorem csrUpdate_trap {k : Nat} {v : Word} (ha : XReady s [a]) (hp : Impure s) (hn : needCsr c.toNat true i.bits s = .error (.trap k v)) :
    csrUpdate i d a c f w1c s = .next (takeTrap s s.cur k v false) := by
  simp only [csrUpdate, needX_ok (ha a List.mem_cons_self), needPureCsr_ok (.inl hp), bind_ok, hn, bind_error, finish_error,
    stopped_trap hp]

/-- R76: a check that fails for every write form traps each of them. -/
theorem csrWrites_trap {k : Nat} (ha : XReady s [a]) (hp : Impure s) (hn : ∀ v, needCsr c.toNat true v s = .error (.trap k v)) :
    ∀ f ∈ [Instr.csrw d a c, .csrs d a c, .csrc d a c], exec f s = .next (takeTrap s s.cur k f.bits false) := by
  intro f hf
  simp only [List.mem_cons, List.not_mem_nil, or_false] at hf
  rcases hf with rfl | rfl | rfl
  · exact (exec_csrw s).trans (csrUpdate_trap ha hp (hn _))
  · exact (exec_csrs s).trans (csrUpdate_trap ha hp (hn _))
  · exact (exec_csrc s).trans (csrUpdate_trap ha hp (hn _))

end

end Sys2Proof.Machine

section
open Sys2Proof Sys2Proof.Machine

/-- Settles O24: each form by the outcome of its checks. -/
theorem csrInstructions : Obligations.CsrInstructions := by
  constructor
  · intro s d a c hp hd n hm
    refine ⟨fun hn => ?read, fun ha => ⟨fun hn hr hs => ?write, fun hr => ?rclass⟩⟩
    case read =>
      exact ⟨_, (exec_csrr s).trans (execCsrr_ok (hp.imp_right (congrArg BitVec.toNat)) hn hm hd), writesX_step4 ..⟩
    case write =>
      have hp' : s.me.pure = none ∨ c.toNat = 0x020 := hp.imp_right (congrArg BitVec.toNat)
      intro f hf
      refine ⟨_, writesX_step4 .., ?_⟩
      simp only [List.mem_cons, List.not_mem_nil, or_false] at hf
      rcases hf with rfl | rfl | rfl
      · exact (exec_csrw s).trans (csrUpdate_ok ha hp' hn hm hd hs hr)
      · exact (exec_csrs s).trans (csrUpdate_ok ha hp' hn hm hd hs hr)
      · exact (exec_csrc s).trans (csrUpdate_ok ha hp' hn hm hd hs hr)
    case rclass =>
      have himp : s.me.pure = none := hp.resolve_right fun h => by subst h; exact absurd hr (by decide)
      refine ⟨⟨_, writesX_step4 .., ?_⟩, ⟨_, ?_, writesX_step4 ..⟩, ⟨_, ?_, writesX_step4 ..⟩⟩
      · obtain ⟨-, -, rclassKept, -⟩ := writesX_step4 s d (readCsr s c.toNat)
        refine (exec_csrw s).trans ((csrUpdate_rclass ha himp hr hm hd).trans ?_)
        rw [if_pos rfl, rclassKept]
        rfl
      · exact (exec_csrs s).trans (csrUpdate_rclass ha himp hr hm hd)
      · exact (exec_csrc s).trans (csrUpdate_rclass ha himp hr hm hd)
  · intro s d a c hp ha n writes
    refine ⟨fun hn => ?absent, fun hn hm => ?level, fun hn hw hm => ?readOnly⟩
    case absent =>
      rw [List.forall_mem_cons]
      exact ⟨(exec_csrr s).trans (execCsrr_trap hp (needCsr_absent hn)), csrWrites_trap ha hp fun _ => needCsr_absent hn⟩
    case level =>
      rw [List.forall_mem_cons]
      exact ⟨(exec_csrr s).trans (execCsrr_trap hp (needCsr_level hn hm)), csrWrites_trap ha hp fun _ => needCsr_level hn hm⟩
    case readOnly => exact csrWrites_trap ha hp fun _ => needCsr_readOnly (csrPresent_of_ro hn) hm hw
end
end

section
/-! SUPPORT. The state after reset, and O1. -/

open Sys2Proof Sys2Proof.Machine

/-- Settles O1: reset lists no hart, core, cluster or byte, so that each reads its reset value. -/
theorem resetValues : Obligations.ResetValues := by
  refine ⟨⟨rfl, rfl, rfl⟩, fun h => ?hart, fun c => ?core, fun c => ⟨rfl, rfl⟩, rfl, rfl, rfl, rfl⟩
  case hart => exact ⟨rfl, rfl, rfl, rfl, rfl, rfl, rfl, rfl, rfl, rfl, rfl, rfl, rfl⟩
  case core => exact ⟨rfl, rfl, rfl, rfl, fun n => rfl, fun n => ⟨rfl, rfl, rfl, rfl⟩, fun n => rfl⟩
end

section
/-! SUPPORT. The CSRs: what a write of one stores and what each reads (O25). -/

namespace Sys2Proof.Machine

/-- Every hart keeps its STMAP registers, and the issuing hart stays the issuing hart. -/
def SameWindows (s t : State) : Prop := t.cur = s.cur ∧ ∀ h, (t.hart h).stmap = (s.hart h).stmap

theorem SameWindows.refl (s : State) : SameWindows s s := ⟨rfl, fun _ => rfl⟩

theorem SameWindows.trans {s t u : State} (a : SameWindows s t) (b : SameWindows t u) : SameWindows s u :=
  ⟨b.1.trans a.1, fun h => (b.2 h).trans (a.2 h)⟩

theorem sameWindows_of_harts {s t : State} (hc : t.cur = s.cur) (hh : t.harts = s.harts) : SameWindows s t :=
  ⟨hc, fun h => by rw [State.hart, State.hart, hh]⟩

theorem sameWindows_setHart (s : State) (r : Nat) (a : Hart) (ha : a.stmap = (s.hart r).stmap) : SameWindows s (s.setHart r a) := by
  refine ⟨rfl, fun h => ?_⟩
  by_cases hr : h = r
  · subst hr; rw [State.hart_setHart]; exact ha
  · rw [State.hart_setHart_ne _ _ hr]

theorem sameWindows_foldl {α : Type} {f : State → α → State} (hf : ∀ s x, SameWindows s (f s x)) (l : List α) (s : State) :
    SameWindows s (l.foldl f s) := by
  induction l generalizing s with
  | nil => exact .refl s
  | cons x l ih => exact (hf s x).trans (ih (f s x))

/-! ### What a performed store does to the harts -/

theorem storeHome_sameWindows (s : State) (sm : Option Nat) (pa : Nat) (bs : List Byte) : SameWindows s (storeHome s sm pa bs) :=
  sameWindows_of_harts rfl rfl

theorem saveWrite_sameWindows (s : State) (p : Nat) (bs : List Byte) : SameWindows s (saveWrite s p bs) := by
  refine sameWindows_foldl (fun s c => ?_) _ s
  split
  · exact storeHome_sameWindows ..
  · exact .refl s

theorem signStore_sameWindows (s : State) (k : Option (Nat × Bool)) (va : Word) (bs : List Byte) :
    SameWindows s (signStore s k va bs) := by
  rw [signStore_eq]
  exact sameWindows_of_harts rfl rfl

theorem onThread_sameWindows (s : State) (h : Nat) (tag : BitVec 16) {f : Hart → Hart} (hf : ∀ a, (f a).stmap = a.stmap) :
    SameWindows s (onThread s h tag f) := by
  unfold onThread
  split
  · exact sameWindows_setHart _ _ _ (hf _)
  · unfold onSaved
    dsimp only
    split
    · exact sameWindows_setHart _ _ _ (hf _)
    · exact sameWindows_of_harts rfl rfl
  · exact .refl s

theorem countAt_sameWindows (s : State) (h : Nat) (tag : BitVec 16) (code n : Nat) : SameWindows s (countAt s h tag code n) := by
  unfold countAt
  split
  · exact .refl s
  · split
    · exact sameWindows_setHart _ _ _ (Hart.count_stmap ..)
    · refine sameWindows_foldl (fun s k => ?_) _ s
      split
      · exact saveWrite_sameWindows ..
      · exact .refl s
    · exact .refl s

theorem lowerUnack_sameWindows (s : State) (h : Nat) (tag : BitVec 16) : SameWindows s (lowerUnack s h tag) := by
  unfold lowerUnack
  split
  · exact sameWindows_setHart _ _ _ rfl
  · exact saveWrite_sameWindows ..
  · exact .refl s

theorem withMs_sameWindows (s : State) (m : MemSys) : SameWindows s { s with ms := m } := sameWindows_of_harts rfl rfl

theorem storeOwned_sameWindows (s : State) (sm : Option Nat) (holder pa : Nat) (bs : List Byte) :
    SameWindows s (storeOwned s sm holder pa bs) := sameWindows_of_harts rfl rfl

theorem noteWritten_sameWindows (s : State) (h : Nat) (tag : BitVec 16) (pa : Nat) : SameWindows s (noteWritten s h tag pa) :=
  onThread_sameWindows s h tag fun _ => rfl

theorem dropOlder_sameWindows (s : State) (core : Nat) (sm : Option Nat) (pa n : Nat) : SameWindows s (dropOlder s core sm pa n) :=
  withMs_sameWindows ..

theorem shadowWrite_sameWindows (s : State) (l : Nat) (b : Bool) (va : Word) (pa : Nat) (bs : List Byte) :
    SameWindows s (shadowWrite s l b va pa bs) :=
  (withMs_sameWindows s _).trans (signStore_sameWindows ..)

theorem performAt_sameWindows (s : State) (st : Store) : SameWindows s (performAt s st) := by
  unfold performAt
  split
  · exact ((withMs_sameWindows s _).trans (signStore_sameWindows ..)).trans (lowerUnack_sameWindows ..)
  · exact (shadowWrite_sameWindows ..).trans (countAt_sameWindows ..)
  · split
    · exact ((storeOwned_sameWindows ..).trans (noteWritten_sameWindows ..)).trans (countAt_sameWindows ..)
    · exact ((storeHome_sameWindows ..).trans (dropOlder_sameWindows ..)).trans (countAt_sameWindows ..)
    · exact .refl s
    · exact sameWindows_of_harts rfl rfl

theorem performOne_sameWindows (s : State) (st : Store) : SameWindows s (performOne s st) :=
  (withMs_sameWindows s _).trans (performAt_sameWindows _ st)

theorem performStore_sameWindows (s : State) (id : Nat) : SameWindows s (performStore s id) := by
  unfold performStore
  split
  · exact .refl s
  · exact (sameWindows_foldl performOne_sameWindows _ s).trans (performOne_sameWindows ..)

theorem keepUnit_sameWindows (s : State) (h k off : Nat) : SameWindows s (keepUnit s h k off) := by
  unfold keepUnit
  dsimp only
  split
  · exact .refl s
  · exact sameWindows_of_harts rfl rfl

theorem closeWindow_sameWindows (s : State) (h k : Nat) : SameWindows s (closeWindow s h k) := by
  unfold closeWindow
  dsimp only
  split
  · exact (sameWindows_foldl (fun s u => keepUnit_sameWindows s h k _) _ s).trans (sameWindows_of_harts rfl rfl)
  · exact .refl s

theorem endWindow_sameWindows (s : State) (h k : Nat) : SameWindows s (endWindow s h k) :=
  (sameWindows_foldl (fun s (st : Store) => performStore_sameWindows s st.id) _ s).trans (closeWindow_sameWindows ..)

theorem windowFits_congr {s t : State} (e : SameWindows s t) (h k : Nat) (w : Word) : windowFits t h k w = windowFits s h k w := by
  have hst : ∀ g n, (t.hart g).st n = (s.hart g).st n := fun g n => congrArg (Table.get 0#64 · n) (e.2 g)
  simp only [windowFits, hst]

/-- R97: STMAP register k of a hart after a write: the implemented bits, without EN where the extent is taken. -/
def stmapWritten (s : State) (h k : Nat) (v : Word) : Word :=
  if k % 2 = 1 ∧ stmapEn (stmapMask k v) = true ∧ windowFits s h (k / 2) (stmapMask k v) = false then
    stmapMask k v &&& ~~~0x8000000000000000#64 else stmapMask k v

/-- The last step of a write of STMAP, at the state after a changed window has ended. -/
theorem putStmap_stmap {s t : State} (e : SameWindows s t) (h k : Nat) (v : Word) :
    let w := if k % 2 = 1 && stmapEn v && !windowFits t h (k / 2) v then v &&& ~~~0x8000000000000000#64 else v
    ((t.setHart h { t.hart h with stmap := Table.set (t.hart h).stmap k w }).hart h).stmap =
      Table.set (s.hart h).stmap k (if k % 2 = 1 ∧ stmapEn v = true ∧ windowFits s h (k / 2) v = false then
        v &&& ~~~0x8000000000000000#64 else v) := by
  intro w
  rw [State.hart_setHart]
  simp [w, windowFits_congr e, e.2 h, and_assoc]

theorem setStmap_stmap (s : State) (h k : Nat) (v : Word) :
    ((setStmap s h k v).hart h).stmap = Table.set (s.hart h).stmap k (stmapWritten s h k v) := by
  unfold setStmap
  refine putStmap_stmap ?_ h k (stmapMask k v)
  split
  · exact .refl s
  · exact endWindow_sameWindows ..

theorem setStmap_cur (s : State) (h k : Nat) (v : Word) : (setStmap s h k v).cur = s.cur := by
  unfold setStmap
  dsimp only
  split
  · rfl
  · exact (endWindow_sameWindows ..).1

theorem writeCsr_stmap (s : State) (v : Word) {k : Nat} (hk : k < 8) : writeCsr s (0x060 + k) v = setStmap s s.cur k v := by
  unfold writeCsr
  rw [if_pos (by omega), Nat.add_sub_cancel_left]

theorem writeCsr_stmap_me (s : State) (v : Word) {k : Nat} (hk : k < 8) :
    (writeCsr s (0x060 + k) v).me.stmap = Table.set s.me.stmap k (stmapWritten s s.cur k v) := by
  rw [writeCsr_stmap s v hk, State.me, setStmap_cur, setStmap_stmap]
  rfl

/-- R97: what a write of STMAP register k leaves in it, and that the other registers are kept. -/
theorem writeCsr_stmap_st (s : State) (v : Word) {k : Nat} (hk : k < 8) :
    (writeCsr s (0x060 + k) v).me.st k = stmapWritten s s.cur k v ∧
      ∀ j, j ≠ k → (writeCsr s (0x060 + k) v).me.st j = s.me.st j := by
  constructor
  · rw [Hart.st, writeCsr_stmap_me s v hk, Table.get_set_self]
  · intro j hj
    rw [Hart.st, writeCsr_stmap_me s v hk, Table.get_set_ne _ _ _ hj, Hart.st]

/-! ### Registers packed of fields -/

theorem testBit_of_lt {x w : Nat} (h : x < 2 ^ w) (j : Nat) : x.testBit j = (decide (j < w) && x.testBit j) := by
  by_cases hj : j < w
  · simp [hj]
  · have := Nat.testBit_lt_two_pow (Nat.lt_of_lt_of_le h (Nat.pow_le_pow_right (by decide) (Nat.le_of_not_lt hj)))
    simp [hj, this]

/-- The bits of a number of two fields, the low one no wider than where the high one begins. -/
theorem testBit_two_fields {lo hi p w1 w2 : Nat} (hlo : lo < 2 ^ w1) (hhi : hi < 2 ^ w2) (hp : w1 ≤ p) (b : Nat) :
    (hi * 2 ^ p + lo).testBit b =
      ((decide (b < w1) && lo.testBit b) || (decide (p ≤ b) && decide (b < p + w2) && hi.testBit (b - p))) := by
  rw [Nat.mul_comm, Nat.testBit_two_pow_mul_add hi (Nat.lt_of_lt_of_le hlo (Nat.pow_le_pow_right (by decide) hp))]
  split
  · next h => rw [testBit_of_lt hlo]; simp [Nat.not_le.mpr h]
  · next h =>
    rw [testBit_of_lt hhi]
    have : ¬ b < w1 := by omega
    have : (b - p < w2) = (b < p + w2) := by simp; omega
    simp [*, Nat.le_of_not_lt h]

theorem getLsbD_two_fields {lo hi p w1 w2 : Nat} (hlo : lo < 2 ^ w1) (hhi : hi < 2 ^ w2) (hp : w1 ≤ p) {b : Nat} (hb : b < 64) :
    (BitVec.ofNat 64 (hi * 2 ^ p + lo)).getLsbD b =
      ((decide (b < w1) && lo.testBit b) || (decide (p ≤ b) && decide (b < p + w2) && hi.testBit (b - p))) := by
  rw [BitVec.getLsbD_ofNat, decide_eq_true hb, Bool.true_and, testBit_two_fields hlo hhi hp]

/-- R294: the bits of EBUDGET. -/
theorem budgetWord_getLsbD (a : Part) {b : Nat} (hb : b < 64) :
    (budgetWord a).getLsbD b = ((decide (b < 32) && a.spent.toNat.testBit b) ||
      ((decide (32 ≤ b) && decide (b < 48) && a.corr.toNat.testBit (b - 32)) ||
        (decide (48 ≤ b) && decide (b < 64) && a.det.toNat.testBit (b - 48)))) := by
  have hs := a.spent.isLt
  have hc := a.corr.isLt
  have hd := a.det.isLt
  have split : budgetWord a = BitVec.ofNat 64 ((a.det.toNat * 2 ^ 16 + a.corr.toNat) * 2 ^ 32 + a.spent.toNat) :=
    congrArg (BitVec.ofNat 64) (by omega)
  rw [split, getLsbD_two_fields (w1 := 32) (w2 := 32) hs (by omega) (Nat.le_refl 32) hb, testBit_two_fields hc hd (Nat.le_refl 16)]
  by_cases h32 : b < 32
  · simp [h32, Nat.not_le.mpr h32, show ¬ 48 ≤ b by omega]
  · by_cases h48 : b < 48
    · simp [h32, h48, hb, Nat.le_of_not_lt h32, Nat.not_le.mpr h48, show b - 32 < 16 by omega, show ¬ 16 ≤ b - 32 by omega]
    · simp [h32, h48, hb, Nat.le_of_not_lt h32, Nat.le_of_not_lt h48, show ¬ b - 32 < 16 by omega, show 16 ≤ b - 32 by omega,
        show b - 32 < 32 by omega, show b - 32 - 16 = b - 48 by omega]

theorem partCsr_some {s : State} {p : Nat} (hp : partOf s s.myCore = some p) (n bits : Nat) (f : Nat → Word) :
    partCsr s n bits f = f p := by
  rw [partCsr, hp]

/-! ### The registers that come in groups -/

theorem readCsr_stmap (s : State) {j : Nat} (hj : j < 8) : readCsr s (0x060 + j) = s.me.st j := by
  unfold readCsr readU
  rw [if_pos (by omega), if_pos (by omega), Nat.add_sub_cancel_left]

theorem readCsr_ptcount (s : State) {j : Nat} (hj : j < 4) :
    readCsr s (0x0A0 + j) = partCsr s (0x0A0 + j) 64 fun p => Table.get 0#64 s.reuse.counts (4 * p + j) := by
  unfold readCsr readU
  rw [if_pos (by omega), if_neg (by omega), if_pos (by omega), Nat.add_sub_cancel_left]

theorem readCsr_pmc (s : State) {j : Nat} (hj : j < 8) : readCsr s (0x0C0 + j) = Table.get 0#64 s.me.pmc j := by
  unfold readCsr readU
  rw [if_pos (by omega), if_neg (by omega), if_neg (by omega), if_pos (by omega), Nat.add_sub_cancel_left]

theorem readCsr_featoff (s : State) {j : Nat} (h1 : 1 ≤ j) (h4 : j < 4) : readCsr s (0xC20 + j) = 0 := by
  obtain rfl | rfl | rfl : j = 1 ∨ j = 2 ∨ j = 3 := by omega
  all_goals rfl

theorem readCsr_featacc (s : State) {j : Nat} (hj : j < 4) : readCsr s (0xC24 + j) = Table.get 0#64 s.plat.featacc j := by
  obtain rfl | rfl | rfl | rfl : j = 0 ∨ j = 1 ∨ j = 2 ∨ j = 3 := by omega
  all_goals rfl

/-! ### The registers of a mode or of a partition -/

theorem named_h {h : Hart} (c : h.mode = .h ∧ h.hstatus.getLsbD 9 = false) : h.named = h.hregs := by
  rw [Hart.named, if_pos ⟨c.1, by rw [c.2]; rfl⟩]

theorem named_s {h : Hart} (c : ¬ (h.mode = .h ∧ h.hstatus.getLsbD 9 = false)) : h.named = h.sregs := by
  rw [Hart.named, if_neg (by simpa using c)]

theorem setNamed_h {h : Hart} (c : h.mode = .h ∧ h.hstatus.getLsbD 9 = false) (r : TrapRegs) :
    h.setNamed r = { h with hregs := r } := by
  rw [Hart.setNamed, if_pos ⟨c.1, by rw [c.2]; rfl⟩]

theorem setNamed_s {h : Hart} (c : ¬ (h.mode = .h ∧ h.hstatus.getLsbD 9 = false)) (r : TrapRegs) :
    h.setNamed r = { h with sregs := r } := by
  rw [Hart.setNamed, if_neg (by simpa using c)]

/-- R157, R341: a write of one of the five trap registers that 0x401 to 0x405 name. -/
theorem writeCsr_named (s : State) (v : Word) {k : Nat} (hk : k < 5) :
    writeCsr s (0x401 + k) v = s.setMe (s.me.setNamed (s.me.named.write k v)) := by
  obtain rfl | rfl | rfl | rfl | rfl : k = 0 ∨ k = 1 ∨ k = 2 ∨ k = 3 ∨ k = 4 := by omega
  all_goals rfl

theorem writeCsr_ebwin (s : State) (v : Word) : writeCsr s 0x440 v = setPartCsr s fun p => { p with ebwin := v.extractLsb' 0 20 } := rfl
theorem writeCsr_eblimit (s : State) (v : Word) : writeCsr s 0x441 v = setPartCsr s fun p => { p with eblimit := v.extractLsb' 0 32 } := rfl
theorem writeCsr_quota (s : State) (v : Word) : writeCsr s 0x450 v = writeQuota s v := rfl
theorem writeCsr_mxwt (s : State) (v : Word) : writeCsr s 0x460 v = writeMxwt s s.writer v := rfl
theorem writeCsr_mxidle (s : State) (v : Word) : writeCsr s 0x091 v = writeMxidle s s.writer v := rfl

/-- R148: HCHAN of a slot that a channel's handler uses. -/
theorem hchan_of_channel {h : Hart} {c : BitVec 6} (e : h.slot = .activation c ∨ h.slot = .landing c) : h.hchan = c.setWidth 64 := by
  obtain e | e := e <;> rw [Hart.hchan, e]

theorem hchan_of_thread {h : Hart} (e : h.slot = .thread) : h.hchan = 0x8000000000000000#64 := by
  rw [Hart.hchan, e]

theorem setPartCsr_some {s : State} {p : Nat} (hp : partOf s s.myCore = some p) (f : Part → Part) :
    setPartCsr s f = s.setPart p (f (s.part p)) := by
  rw [setPartCsr, hp]

theorem setPartCsr_none {s : State} (hp : partOf s s.myCore = none) (f : Part → Part) : setPartCsr s f = s := by
  rw [setPartCsr, hp]

theorem partId_none {s : State} (hp : partOf s s.myCore = none) (k : Nat) :
    partId s k = if k = 2 then 0x8000000000000000#64 else 0 := by
  rw [partId, hp]

theorem partId_some {s : State} {p : Nat} (hp : partOf s s.myCore = some p) (k : Nat) :
    partId s k = BitVec.ofNat 64 (if k = 0 then (s.part p).base else if k = 1 then (s.part p).len else p) := by
  rw [partId, hp]

/-! ### O25 -/

/-- Settles O25: the writes and reads of single registers are what `writeCsr` and `readCsr` compute at each number; the writes of STMAP
rest on `writeCsr_stmap_st`, that an ended window changes no STMAP register. -/
theorem csrFields : Obligations.CsrFields := by
  unfold Obligations.CsrFields
  intro s v h own even root
  refine ⟨rfl, rfl, rfl, rfl, rfl, rfl, rfl, rfl, rfl, rfl, rfl, rfl, rfl, rfl, rfl, rfl, rfl, rfl, rfl, rfl, rfl, ?_, rfl, ?_, ?_, ?_,
    ?_, ?_, ?_, ?_⟩
  · intro copyH five
    have wrote : ∀ k, k < 5 → own (0x401 + k) (h.setNamed (h.named.write k v)) := fun k hk => writeCsr_named s v hk
    constructor
    · intro c
      simp only [setNamed_h c, named_h c] at wrote
      exact ⟨wrote 0 (by decide), wrote 1 (by decide), wrote 2 (by decide), wrote 3 (by decide), wrote 4 (by decide)⟩
    · intro c
      simp only [setNamed_s c, named_s c] at wrote
      exact ⟨wrote 0 (by decide), wrote 1 (by decide), wrote 2 (by decide), wrote 3 (by decide), wrote 4 (by decide)⟩
  · exact fun p hp => ⟨(writeCsr_ebwin s v).trans (setPartCsr_some hp _), (writeCsr_eblimit s v).trans (setPartCsr_some hp _)⟩
  · exact fun hp => ⟨(writeCsr_ebwin s v).trans (setPartCsr_none hp _), (writeCsr_eblimit s v).trans (setPartCsr_none hp _),
      by rw [writeCsr_quota, writeQuota, hp]⟩
  · intro p hp
    rw [writeCsr_quota, writeQuota, hp]
    rfl
  · exact fun hm => (writeCsr_mxwt s v).trans (if_pos (.inl hm))
  · exact fun hm hc => (writeCsr_mxidle s v).trans (if_pos ⟨hc, .inl hm⟩)
  · intro k hk w
    exact ⟨(writeCsr_stmap_st s v hk).1, fun j _ hj => (writeCsr_stmap_st s v hk).2 j hj⟩
  · intro k reads fields count
    refine ⟨rfl, rfl, rfl, rfl, ?_, rfl, rfl, rfl, rfl, ?_, rfl, rfl, ?_, rfl, rfl, rfl, rfl, rfl, rfl, rfl, rfl, ?_, ?_, rfl, rfl, ?_,
      rfl, ?_, rfl, rfl, rfl, rfl, ?_, rfl, ?_, rfl, rfl, ?_, rfl, rfl, rfl, rfl, rfl, rfl, rfl, rfl, rfl, rfl, rfl, ?_, ?_, ?_⟩
    · exact fun hc => if_pos hc
    · intro b hb
      have e : readCsr s 0x011 = h.landst := rfl
      rw [e, Hart.landst]
      simpa using getLsbD_two_fields h.landCode.isLt h.landMiss.isLt (by decide : 3 ≤ 8) hb
    · intro h1 h0 b hb
      have e : readCsr s 0x014 = BitVec.ofNat 64 (count false * 16 + count true) := rfl
      rw [e]
      simpa using getLsbD_two_fields (w1 := 4) (w2 := 4) h1 h0 (by decide : 4 ≤ 4) hb
    · exact fun c hc => hchan_of_channel hc
    · exact fun ht => hchan_of_thread ht
    · exact fun j hj => ⟨readCsr_stmap s hj, readCsr_pmc s hj⟩
    · exact fun hc => if_pos hc
    · exact fun j h1 h4 => readCsr_featoff s h1 h4
    · intro r
      have e : h.named = r := by
        by_cases c : h.mode = .h ∧ h.hstatus.getLsbD 9 = false
        · rw [named_h c]; exact (if_pos c).symm
        · rw [named_s c]; exact (if_neg c).symm
      rw [← e]
      exact ⟨rfl, rfl, rfl, rfl, rfl⟩
    · intro b hb
      have e : readCsr s 0x411 = BitVec.ofNat 64 (h.repd.toNat * 16 + h.reqd.toNat) := rfl
      rw [e]
      simpa using getLsbD_two_fields h.reqd.isLt h.repd.isLt (by decide : 4 ≤ 4) hb
    · exact fun j hj => readCsr_featacc s hj
    · exact fun hp => ⟨partId_none hp 0, partId_none hp 1, partId_none hp 2⟩
    · intro p hp a
      refine ⟨partId_some hp 0, partId_some hp 1, partId_some hp 2, ?_, ?_, partCsr_some hp .., partCsr_some hp .., ?_⟩
      · intro b hb
        have e : readCsr s 0x080 = budgetWord a := partCsr_some hp ..
        rw [e, budgetWord_getLsbD a hb]
        simp
      · exact fun j hj => (readCsr_ptcount s hj).trans (partCsr_some hp ..)
      · intro hu b hb
        have e : readCsr s 0x450 = quotaWord s p := partCsr_some hp ..
        rw [e, quotaWord]
        simpa using getLsbD_two_fields (Table.get 65536#17 s.reuse.quota p).isLt hu (by decide : 17 ≤ 32) hb

end Sys2Proof.Machine
end

section
/-! SUPPORT. What a step is made of: the turn, the event, or the issue it performs, and the repetition in lockstep pairs (O44). -/

namespace Sys2Proof.Machine

/-! ### The parts of a step (R13, R150) -/

theorem runStep_issue {s : State} (htn : turning s = false) (ht : s.turns = []) (he : nextEvent s = none)
    (hr : ready s s.cur = true) : runStep s = issueStep s := by
  simp [runStep, htn, ht, he, hr]

theorem runStep_event {s : State} {k : Nat} {e : Event} (htn : turning s = false) (ht : s.turns = [])
    (he : nextEvent s = some (k, e)) : runStep s = performEvent s k e := by
  simp [runStep, htn, ht, he]

theorem runStep_turning {s : State} (htn : turning s = true) : runStep s = performEvent s 0 .signatureGeneration := by
  simp [runStep, htn]

theorem issueOne_instr {s u : State} {i : Instr} (hp : nextPending s.me = none) (hf : fetch s = .instr i u) :
    issueOne s = exec i u := by
  simp [issueOne, hp, hf]

theorem turning_of_flight {s : State} {l : List Event} (h : s.flight = .signatureGeneration :: l) : turning s = true := by
  simp [turning, h]

/-- The event at the head of those in flight is performed where it stands. -/
theorem performEvent_head {s : State} {e : Event} {l : List Event} (h : s.flight = e :: l) :
    performEvent s 0 e = onNext settle (exec (rowOf e) { s with lag := s.lag - 1 }) := by
  have back : e :: s.flight.eraseIdx 0 = s.flight := by rw [h]; rfl
  rw [performEvent, back]

/-! ### The fetch (R13) -/

theorem fetch_long {s u v : State} {lo hi : BitVec 16} {i : Instr} (h1 : fetchHalf s s.me.pc = .ok (lo, u)) (hl : isLong lo = true)
    (h2 : fetchHalf u (u.me.pc + 2#64) = .ok (hi, v)) (hd : decode32 (hi ++ lo) = .ok i) : fetch s = .instr i v := by
  simp [fetch, h1, hl, h2, fetched, hd]

theorem fetch_short {s u : State} {lo : BitVec 16} {i : Instr} (h1 : fetchHalf s s.me.pc = .ok (lo, u)) (hl : isLong lo = false)
    (hd : decode16 lo = .ok i) : fetch s = .instr i u := by
  simp [fetch, h1, hl, fetched, hd]

/-! ### Lockstep pairs (R293) -/

/-- Two states that differ in nothing but what they hold of lockstep pairs that have parted. -/
def SameButLock (t u : State) : Prop :=
  u = { t with plat := { t.plat with lockHarts := u.plat.lockHarts, lockDue := u.plat.lockDue } }

theorem SameButLock.refl (t : State) : SameButLock t t := rfl

theorem SameButLock.trans {t u v : State} (a : SameButLock t u) (b : SameButLock u v) : SameButLock t v := by
  unfold SameButLock at *
  rw [b, a]

theorem sameButLock_foldl {α : Type} {f : State → α → State} (hf : ∀ t x, SameButLock t (f t x)) (l : List α) (t : State) :
    SameButLock t (l.foldl f t) := by
  induction l generalizing t with
  | nil => exact .refl t
  | cons x l ih => exact (hf t x).trans (ih (f t x))

theorem repeatPair_sameButLock (s t : State) (k : Nat) : SameButLock t (repeatPair s t k) := by
  unfold repeatPair
  dsimp only
  split
  · exact .refl t
  · split
    · split
      · rfl
      · split <;> rfl
    · split <;> rfl

theorem repeatLock_sameButLock (s t : State) : SameButLock t (repeatLock s t) := by
  unfold repeatLock
  split
  · exact .refl t
  · split
    · exact .refl t
    · exact .refl t
    · exact sameButLock_foldl (repeatPair_sameButLock s) _ t

theorem repeatLock_of_none {s : State} (h : s.plat.lockHarts = []) (t : State) : repeatLock s t = t := by
  simp [repeatLock, h]

/-! ### O44 -/

/-- Settles O44: `runStep` tries a turn of the signatures, an event and an issue in this order; each equation is one of its branches. -/
theorem stepRunsDecodedInstruction : Obligations.StepRunsDecodedInstruction := by
  unfold Obligations.StepRunsDecodedInstruction
  refine ⟨?_, ?_, ?_, ?_, ?_⟩
  · intro s u i ht he htn hr hp hf
    rw [step, lockedStep, runStep_issue htn ht he hr, issueStep,
      issueOne_instr (s := { s with lag := s.flight.length }) hp hf]
  · intro s k e ht htn he
    rw [step, lockedStep, runStep_event htn ht he, performEvent]
  · intro s l hf
    rw [step, lockedStep, runStep_turning (turning_of_flight hf), performEvent_head hf]
    rfl
  · exact fun s t => ⟨fun h => repeatLock_of_none h t, repeatLock_sameButLock s t⟩
  · intro s u v lo hi i h1 hu
    exact ⟨fun hl h2 hd => fetch_long h1 hl (by rw [hu]; exact h2) hd, fun hl hd => fetch_short h1 hl hd⟩

end Sys2Proof.Machine
end

section
/-! SUPPORT. A refusal whose acknowledgement has ended the wait of a FENCE is not taken before the FENCE retires (refutes O43). -/

namespace Sys2Proof.Machine

/-- A hart in U at a FENCE that waited for the acknowledgement which was refused: the refusal is pending, S enables it, and the FENCE has
not retired (R45, notes/assumptions/82.md). -/
def fenceWaitEnded : State := State.reset.setHart 0
  { Hart.reset with slot := .thread, tag := 1, tagCtr := 1, pc := 0x1000, mode := .u, refusal := true, retires := true
                    stall := some .unack, heldCause := 0x07, status := 0x10
                    sregs := { Hart.reset.sregs with tvec := 0x4000 } }

/-- No pending cause is due at that FENCE. -/
theorem exec_takePendingTrap_fenceWaitEnded :
    exec .takePendingTrap fenceWaitEnded = .fault (.noEvent "TAKE_PENDING_TRAP") := rfl

/-! ### O43 -/

/-- Refutes O43: its clause on a pending refusal names no premise on `retires`. Where the acknowledgement that recorded the refusal ended
the wait of a FENCE, the FENCE retires first, and the refusal of `fenceWaitEnded` is not taken yet. -/
theorem not_noInstruction : ¬ Obligations.NoInstruction := by
  unfold Obligations.NoInstruction
  rintro ⟨-, -, -, -, pending⟩
  have taken := (pending fenceWaitEnded rfl).1 rfl (.inl (by decide)) (.inl rfl) (.inl rfl) rfl rfl (by decide)
  rw [exec_takePendingTrap_fenceWaitEnded] at taken
  cases taken

end Sys2Proof.Machine
end

section
/-! SUPPORT. Commands that join a unit's queue, and the sample of the matrix unit (O37). -/

namespace Sys2Proof.Machine

open Sys2Proof.Safety

/-! ### A command as it leaves its hart (R17, R257) -/

theorem Hart.armTokens_frame (h : Hart) (rd rd2 : Reg) :
    h.armTokens rd rd2 = { h with xready := (h.armTokens rd rd2).xready, engines := h.engines + 1 } := by
  unfold Hart.armTokens
  rw [Hart.armX_frame (h.armX rd), Hart.armX_frame h]

theorem Hart.xok_armX (h : Hart) (d r : Reg) : (h.armX d).xok r = (h.xok r && (r == 0#5 || r != d)) := by
  by_cases e : r = d
  · subst e
    rw [Hart.xok_armX_self]
    by_cases z : r = 0#5
    · subst z; rfl
    · simp [z]
  · rw [Hart.xok_armX_ne _ e]
    simp [e]

theorem Hart.xok_armTokens (h : Hart) (rd rd2 r : Reg) :
    (h.armTokens rd rd2).xok r = (h.xok r && (r == 0#5 || (r != rd && r != rd2))) := by
  have e : (h.armTokens rd rd2).xok r = ((h.armX rd).armX rd2).xok r := rfl
  rw [e, Hart.xok_armX, Hart.xok_armX]
  cases h.xok r <;> cases (r == 0#5) <;> simp

/-- The state with a command of the issuing hart on its way into a unit. -/
def issued (s : State) (rd rd2 : Reg) : State := ({ s with nextId := s.nextId + 1 }).step4 fun h => h.armTokens rd rd2

theorem issueCmd_eq (s : State) (c : Cmd) (rd rd2 : Reg) (enter : State → Cmd → State) :
    issueCmd s c rd rd2 enter = enter (issued s rd rd2) c := rfl

theorem issued_me (s : State) (rd rd2 : Reg) : (issued s rd rd2).me = (s.me.armTokens rd rd2).retire 4 := State.step4_me ..

/-- R17, R257: a command as `newCmd` makes it, with what a form keeps beside it, leaves the hart with its tokens not ready. -/
theorem issues_issued (s : State) (f : Instr) (g : List Word) (rd rd2 : Reg) (old : Option (List (Nat × Byte))) :
    Issues s (issued s rd rd2) { newCmd s f g rd rd2 with old := old } f g rd rd2 := by
  refine ⟨rfl, rfl, rfl, rfl, rfl, rfl, rfl, rfl, rfl, rfl, rfl, rfl, rfl, rfl, ?_, ?_, ?_⟩
  · exact fun h ne => State.step4_hart_ne { s with nextId := s.nextId + 1 } _ ne
  · rw [issued_me, Hart.retire_frame, Hart.armTokens_frame]
    simp
  · intro r
    rw [issued_me, ← Hart.xok_armTokens]
    simp [Hart.xok]

/-! ### The matrix queue (R243) -/

theorem kickMhead_frame (s : State) (core : Nat) : kickMhead s core = { s with flight := (kickMhead s core).flight } := by
  unfold kickMhead kickMatrix
  dsimp only
  split
  · rfl
  · split
    · split
      · split <;> rfl
      · rfl
    · split <;> rfl

theorem kickMhead_core (s : State) (core k : Nat) : (kickMhead s core).core k = s.core k := by
  rw [kickMhead_frame]; rfl

theorem enterMatrix_mq (s : State) (c : Cmd) :
    ((enterMatrix s c).core s.myCore).mq = (s.core s.myCore).mq ++ [c] := by
  simp [enterMatrix, kickMhead_core]

theorem enterMatrix_harts (s : State) (c : Cmd) : (enterMatrix s c).harts = s.harts := by
  unfold enterMatrix
  dsimp only
  rw [kickMhead_frame]; rfl

theorem enterMatrix_ms (s : State) (c : Cmd) : (enterMatrix s c).ms = s.ms := by
  unfold enterMatrix
  dsimp only
  rw [kickMhead_frame]; rfl

theorem needMatrix_ok {s : State} (h : (s.core s.myCore).mq.length < 2) : needMatrix s = .ok () := by
  simp [needMatrix, h]

theorem needMatrix_full {s : State} (h : (s.core s.myCore).mq.length = 2) : needMatrix s = .error (.wait .other) := by
  simp [needMatrix, h]

theorem needCommand_ok {s : State} {f : Instr} {a : Reg} (hi : Impure s) (hw : f.wf = true) (hx : XReady s (groupRegs a)) :
    needCommand f a s = .ok () := by
  simp only [needCommand, needWf_ok hw, needXs_ok hx, noPure_ok hi, bind_ok]

/-- A command that `newCmd` makes joins the matrix queue. -/
theorem joins_matrix (s : State) (f : Instr) (g : List Word) (rd rd2 : Reg) (old : Option Memory) :
    let cmd := { newCmd s f g rd rd2 with old := old }
    let t := issueCmd s cmd rd rd2 enterMatrix
    Issues s (issued s rd rd2) cmd f g rd rd2 ∧ (t.core s.myCore).mq = (s.core s.myCore).mq ++ [cmd] ∧
      t.harts = (issued s rd rd2).harts ∧ t.ms = s.ms :=
  ⟨issues_issued s f g rd rd2 old, enterMatrix_mq (issued s rd rd2) _, enterMatrix_harts _ _, enterMatrix_ms _ _⟩

/-! ### The sample of the unit (R264) -/

/-- A number of the bits that a predicate sets. -/
theorem sumBits (p : Nat → Bool) (k : Nat) :
    (List.range k).foldl (fun n q => if p q then n + 2 ^ q else n) 0 < 2 ^ k ∧
      ∀ q, ((List.range k).foldl (fun n q => if p q then n + 2 ^ q else n) 0).testBit q = (decide (q < k) && p q) := by
  induction k with
  | zero => simp
  | succ k ih =>
    obtain ⟨hlt, hbit⟩ := ih
    rw [List.range_succ, List.foldl_append, List.foldl_cons, List.foldl_nil]
    generalize (List.range k).foldl (fun n q => if p q then n + 2 ^ q else n) 0 = n at hlt hbit
    by_cases hp : p k = true
    · rw [if_pos hp]
      refine ⟨by rw [Nat.pow_succ]; omega, fun q => ?_⟩
      rw [Nat.add_comm, ← Nat.mul_one (2 ^ k), Nat.testBit_two_pow_mul_add 1 hlt]
      by_cases hq : q < k
      · simp [hq, hbit, Nat.lt_succ_of_lt hq]
      · by_cases e : q = k
        · subst e; simp [hp]
        · have : ¬ q < k + 1 := by omega
          have : (1 : Nat).testBit (q - k) = false := Nat.testBit_lt_two_pow (Nat.one_lt_two_pow (by omega))
          simp [*]
    · rw [if_neg hp]
      refine ⟨by rw [Nat.pow_succ]; omega, fun q => ?_⟩
      by_cases e : q = k
      · subst e; simp [hbit, hp]
      · have : (q < k) = (q < k + 1) := by simp; omega
        rw [hbit]; simp [this]

/-- R264: the queues of a compute core's cluster that BUSYQ counts. -/
def queueBusy (s : State) (core q : Nat) : Bool :=
  samePart s core (coreOfQueue (clusterOf core) q) && !(s.core (coreOfQueue (clusterOf core) q)).mq.isEmpty

theorem busyQueues_eq {s : State} {core : Nat} (h : core < 1024) :
    busyQueues s core = (List.range 8).foldl (fun n q => if queueBusy s core q then n + 2 ^ q else n) 0 := if_pos h

theorem busyQueues_lt (s : State) (core : Nat) : busyQueues s core < 2 ^ 8 := by
  by_cases h : core < 1024
  · rw [busyQueues_eq h]; exact (sumBits _ 8).1
  · rw [busyQueues, if_neg h]; decide

theorem busyQueues_testBit {s : State} {core q : Nat} (h : core < 1024) (hq : q < 8) :
    (busyQueues s core).testBit q = queueBusy s core q := by
  rw [busyQueues_eq h, (sumBits _ 8).2]
  simp [hq]

theorem stepsLeft_lt (c : Cmd) : stepsLeft c < 2 ^ 8 := by
  unfold stepsLeft
  split
  · have : mmulSteps c < 2 ^ 8 := by unfold mmulSteps fieldOf; dsimp only; split <;> omega
    omega
  · decide

/-- GATED of a core's cluster; 0 at a gateway. -/
def gatedOf (s : State) (core : Nat) : Nat := if core < 1024 then (s.cluster (clusterOf core)).gated.toNat else 0

theorem gatedOf_lt (s : State) (core : Nat) : gatedOf s core < 2 ^ 4 := by
  unfold gatedOf; split
  · exact (s.cluster (clusterOf core)).gated.isLt
  · decide

/-- The sample as its fields, the steps and the leave of the head left open. -/
theorem matrixSample_eq (s : State) (core : Nat) : ∃ steps leave, steps < 2 ^ 8 ∧ leave < 2 ∧
    matrixSample s core = BitVec.ofNat 64 (busyQueues s core * 2 ^ 24 + (s.core core).mxwt.toNat * 2 ^ 16 + steps * 2 ^ 8 +
      gatedOf s core * 2 ^ 4 + leave * 2 ^ 2 + (s.core core).mq.length) := by
  unfold matrixSample gatedOf
  dsimp only
  cases (s.core core).mq.head? with
  | none => exact ⟨0, 0, by decide, by decide, by simp⟩
  | some c =>
    refine ⟨stepsLeft c, if c.waitsLeave then 1 else 0, stepsLeft_lt c, by split <;> decide, ?_⟩
    cases h : c.waitsLeave <;> simp [h]

/-- A field of a word made of a number. -/
theorem extractLsb'_ofNat {n lo w : Nat} {k : BitVec w} (h : lo + w ≤ 64) (hk : n / 2 ^ lo % 2 ^ w = k.toNat) :
    (BitVec.ofNat 64 n).extractLsb' lo w = k := by
  refine BitVec.eq_of_getLsbD_eq fun i hi => ?_
  rw [BitVec.getLsbD_extractLsb', BitVec.getLsbD_ofNat, BitVec.getLsbD, ← hk, Nat.testBit_mod_two_pow, Nat.testBit_div_two_pow,
    Nat.add_comm lo, decide_eq_true hi, decide_eq_true (show i + lo < 64 by omega), Bool.true_and]

theorem getLsbD_ofNat_div {n lo q : Nat} (h : lo + q < 64) : (BitVec.ofNat 64 n).getLsbD (lo + q) = (n / 2 ^ lo).testBit q := by
  rw [BitVec.getLsbD_ofNat, Nat.testBit_div_two_pow, Nat.add_comm q, decide_eq_true h, Bool.true_and]

/-- R264: the fields of the sample. -/
theorem matrixSample_fields (s : State) (core : Nat) (hq : (s.core core).mq.length ≤ 2) :
    let v := matrixSample s core
    v.extractLsb' 0 2 = BitVec.ofNat 2 (s.core core).mq.length ∧ v.getLsbD 3 = false ∧ v.extractLsb' 16 4 = (s.core core).mxwt ∧
      v.extractLsb' 20 4 = 0#4 ∧ v.extractLsb' 32 32 = 0#32 ∧ v.extractLsb' 4 4 = BitVec.ofNat 4 (gatedOf s core) ∧
      ∀ q, q < 8 → v.getLsbD (24 + q) = (busyQueues s core).testBit q := by
  intro v
  obtain ⟨steps, leave, hs, hl, e⟩ := matrixSample_eq s core
  have e : v = _ := e
  have hb := busyQueues_lt s core
  have hg := gatedOf_lt s core
  have hm := (s.core core).mxwt.isLt
  rw [e]
  refine ⟨extractLsb'_ofNat (by decide) ?_, ?_, extractLsb'_ofNat (by decide) ?_, extractLsb'_ofNat (by decide) ?_,
    extractLsb'_ofNat (by decide) ?_, extractLsb'_ofNat (by decide) ?_, ?_⟩
  · rw [BitVec.toNat_ofNat]; omega
  · rw [BitVec.getLsbD_ofNat, Nat.testBit_eq_decide_div_mod_eq]
    simp; omega
  · omega
  · rw [BitVec.toNat_ofNat]; omega
  · rw [BitVec.toNat_ofNat]; omega
  · rw [BitVec.toNat_ofNat]; omega
  · intro q hq8
    rw [getLsbD_ofNat_div (by omega)]
    congr 1
    omega

/-! ### O37 -/

/-- Settles O37: a command that passes its form's checks enters the queue (`joins_matrix`), and the sample's fields are those of
`matrixSample_fields`. -/
theorem matrixCommands : Obligations.MatrixCommands := by
  unfold Obligations.MatrixCommands
  intro s d a b c hi hb k joins
  refine ⟨fun hq => ⟨?_, ?_, ?_⟩, ?_, ?_⟩
  · refine ⟨_, _, newCmd s (.mzero c) [] 0#5 0#5, (exec_mzero s).trans ?_, joins_matrix s (.mzero c) [] 0#5 0#5 none⟩
    simp only [execMzero, noPure_ok hi, needUnrollable_ok hb, needMatrix_ok hq, bind_ok, finish_ok]
    rfl
  · intro hw hx hd hd2
    refine ⟨_, _, _, (exec_mmul s).trans ?_,
      joins_matrix s (.mmul d a b) ((groupRegs a).map s.me.rx) d b (some (performOwn s s.cur).ms.stash)⟩
    simp only [execMmul, needCommand_ok hi hw hx, freeX_ok hd, freeX_ok hd2, needUnrollable_ok hb, needMatrix_ok hq, bind_ok, finish_ok]
    rfl
  · intro hw hx hd
    refine ⟨_, _, _, (exec_mstw s).trans ?_, joins_matrix s (.mstw d a) ((groupRegs a).map s.me.rx) d 0#5 none⟩
    simp only [execMstw, needCommand_ok hi hw hx, freeX_ok hd, needUnrollable_ok hb, needMatrix_ok hq, bind_ok, finish_ok]
    rfl
  · intro hq
    refine (exec_mzero s).trans ?_
    simp only [execMzero, noPure_ok hi, needUnrollable_ok hb, needMatrix_full hq, bind_ok, bind_error, finish_error]
    rfl
  · intro hd hq
    obtain ⟨hlen, hbit3, hmxwt, hzero, hhigh, hgated, hbusy⟩ := matrixSample_fields s s.myCore hq
    refine ⟨_, matrixSample s s.myCore, (exec_mqry s).trans ?_, writesX_step4 s d (matrixSample s s.myCore), hlen, hbit3, hmxwt, hzero,
      hhigh, fun hc => ⟨?_, fun q hq8 => ?_⟩⟩
    · simp only [execMqry, noPure_ok hi, freeX_ok hd, needUnrollable_ok hb, bind_ok, finish_ok]
    · rw [hgated, gatedOf, if_pos hc]; simp
    · rw [hbusy q hq8, busyQueues_testBit hc hq8]; rfl

end Sys2Proof.Machine
end

section
/-! SUPPORT. The 16-bit lane forms beside their 32-bit forms (R18, R19), and O36. -/

namespace Sys2Proof.Machine

open Sys2Proof.Safety

/-- A form does what another does, but goes past 2 bytes where the other goes past 4. -/
def LikeWide (s : State) (f g : Instr) : Prop :=
  ∃ t u, exec f s = .next t ∧ exec g s = .next u ∧ t = { u with harts := t.harts } ∧
    (∀ h, h ≠ s.cur → t.hart h = u.hart h) ∧ t.me = { u.me with pc := s.me.pc + 2 } ∧ u.me.pc = s.me.pc + 4

theorem Hart.retire_two (k : Hart) : k.retire 2 = { k.retire 4 with pc := k.pc + 2 } := by
  have two : Counted k (k.retire 2) := counted_retire 2 rfl rfl
  have four : Counted k (k.retire 4) := counted_retire 4 rfl rfl
  rw [Hart.retire_eq, Hart.retire_eq k 4, two, four, Hart.retire_pc]
  rfl

/-- Two forms that change the issuing hart alike and go past it, one by 2 bytes and one by 4. -/
theorem likeWide_of_retire {s : State} {f g : Instr} {k : Hart} (hpc : k.pc = s.me.pc)
    (hf : exec f s = .next (s.setMe (k.retire 2))) (hg : exec g s = .next (s.setMe (k.retire 4))) : LikeWide s f g := by
  refine ⟨_, _, hf, hg, rfl, fun h ne => ?_, ?_, ?_⟩
  · rw [State.hart_setMe_ne _ _ ne, State.hart_setMe_ne _ _ ne]
  · rw [State.me_setMe, State.me_setMe, Hart.retire_two, hpc]
  · rw [State.me_setMe, Hart.retire_pc, hpc]; rfl

/-! ### What the forms do once their waits are over -/

/-- The hart with the lanes of v[d] written from two sources. -/
def Hart.wvLanes (h : Hart) (d a b : Reg) (t : EType) (m : Bool) (f : Nat → Nat → Nat → Nat) : Hart :=
  h.wv d (mapLanes t m (h.rm 0) f (h.rv a) (h.rv b) (h.rv d))

theorem half_ok {i : Instr} {d a b : Reg} {m acc : Bool} {f : EType → Nat → Nat → Nat → Nat} {s : State} (hw : i.wf = true)
    (hr : VReady s [d, a, b]) (hf : VFree s d) :
    half i d a b m acc f s = .next (s.setMe ((s.me.wvLanes d a b s.me.vtype m (f s.me.vtype)).retire 2)) := by
  simp only [half, needWf_ok hw, needV_ok (hr a (by simp)), needV_ok (hr b (by simp)), needOld_ok fun _ => hr d (by simp), freeV_ok hf,
    bind_ok, finish_ok]
  rfl

theorem lanes2_register {i : Instr} {d a b : Reg} {t : EType} {m acc : Bool} {f : Nat → Nat → Nat → Nat} {s : State}
    (hw : i.wf = true) (hr : VReady s [d, a, b]) (hf : VFree s d) :
    lanes2 i d a b t m false acc f s = .next (s.setMe ((s.me.wvLanes d a b t m f).retire 4)) := by
  have hy : readV2 b false s = .ok (s.me.rv b, 0#3, s) := by
    simp only [readV2, needV_ok (hr b (by simp)), bind_ok]
    rfl
  have hq : needPureQ false s = .ok () := rfl
  simp only [lanes2, needWf_ok hw, needV_ok (hr a (by simp)), needOld_ok fun _ => hr d (by simp), hq, freeV_ok hf, hy, bind_ok, finish_ok,
    stick_zero]
  rfl

theorem lanes1_register {i : Instr} {d a : Reg} {t : EType} {m : Bool} {f : Nat → Nat} {s : State} (hw : i.wf = true)
    (hr : VReady s [d, a]) (hf : VFree s d) :
    lanes1 i d a t m f s = .next (s.setMe ((s.me.wvLanes d a a t m fun x _ _ => f x).retire 4)) := by
  simp only [lanes1, needWf_ok hw, needV_ok (hr a (by simp)), needOld_ok fun _ => hr d (by simp), freeV_ok hf, bind_ok, finish_ok]
  rfl

/-! ### A 16-bit form and its 32-bit form -/

/-- A two-source form whose operation is that of its 32-bit form. -/
theorem half_like_lanes2 {s : State} {i j : Instr} {d a b : Reg} {t : EType} {m acc : Bool} {f : EType → Nat → Nat → Nat → Nat}
    {g : Nat → Nat → Nat → Nat} (hi : exec i s = half i d a b m acc f s) (hj : exec j s = lanes2 j d a b t m false acc g s)
    (hwi : i.wf = true) (hwj : j.wf = true) (hr : VReady s [d, a, b]) (hf : VFree s d) (ht : t = s.me.vtype)
    (hfg : f s.me.vtype = g) : LikeWide s i j := by
  subst ht hfg
  exact likeWide_of_retire (Hart.wv_pc ..) (hi.trans (half_ok hwi hr hf)) (hj.trans (lanes2_register hwj hr hf))

/-- A one-source form. -/
theorem half_like_lanes1 {s : State} {i j : Instr} {d a : Reg} {t : EType} {m : Bool} {f : EType → Nat → Nat → Nat → Nat}
    {g : Nat → Nat} (hi : exec i s = half i d a a m false f s) (hj : exec j s = lanes1 j d a t m g s)
    (hwi : i.wf = true) (hwj : j.wf = true) (hr : VReady s [d, a]) (hf : VFree s d) (ht : t = s.me.vtype)
    (hfg : ∀ x y z, f s.me.vtype x y z = g x) : LikeWide s i j := by
  subst ht
  have e : f s.me.vtype = fun x _ _ => g x := by funext x y z; exact hfg x y z
  refine likeWide_of_retire (Hart.wv_pc ..) (hi.trans (half_ok hwi ?_ hf)) (e ▸ hj.trans (lanes1_register hwj hr hf))
  intro r hm
  exact hr r (by simpa using hm)

theorem byType_int {t : EType} (h : t.toNat ≤ 5) (op : IntOp) (fop : FltOp) : byType op fop t = intLane op t := by
  funext a b d
  simp [byType, isFloat, Nat.not_le.mpr (Nat.lt_succ_of_le h)]

theorem byType_float {t : EType} (h : 6 ≤ t.toNat) (op : IntOp) (fop : FltOp) : byType op fop t = fltLane fop t := by
  funext a b d
  simp [byType, isFloat, h]

/-- R225: the VFLT code of a float type names it. -/
theorem fltType_extract {t : EType} (h : 6 ≤ t.toNat) : fltType (t.extractLsb' 0 1) = t := by
  revert h; revert t; decide

theorem intTypeCheck_none {t : EType} (h : t.toNat ≤ 5) : (intTypeCheck t).isNone = true := by simp [intTypeCheck, h]

/-- R19: a shift of a float type raises ILLEGAL. -/
theorem needShiftType_float {i : Instr} {s : State} (h : 6 ≤ s.me.vtype.toNat) :
    needShiftType i s = .error (.trap cIllegal i.bits) := by simp [needShiftType, isFloat, h]

theorem needShiftType_int {i : Instr} {s : State} (h : s.me.vtype.toNat ≤ 5) : needShiftType i s = .ok () := by
  simp [needShiftType, isFloat, Nat.not_le.mpr (Nat.lt_succ_of_le h)]

/-- R18, R235: VSEL of 16 bits. -/
theorem vsel16_like {s : State} {d b : Reg} (hr : VReady s [d, b]) (hf : VFree s d) :
    LikeWide s (.vsel16 d b) (.vsel d d b s.me.vtype false) := by
  have hd := needV_ok (hr d (by simp))
  have hb := needV_ok (hr b (by simp))
  have hy : readV2 b false s = .ok (s.me.rv b, 0#3, s) := by
    simp only [readV2, hb, bind_ok]
    rfl
  have hq : needPureQ false s = .ok () := rfl
  refine likeWide_of_retire (k := selectLanes d d s.me.vtype (s.me.rv b) s.me) (Hart.wv_pc ..) ((exec_vsel16 s).trans ?_)
    ((exec_vsel s).trans ?_)
  · simp only [execVsel16, hd, hb, freeV_ok hf, bind_ok, finish_ok]
    rfl
  · simp only [execVsel, hd, hq, freeV_ok hf, hy, bind_ok, finish_ok, stick_zero]
    rfl

/-- A shift with an integer type is the form that `half` makes of it. -/
theorem execVshl16_int {s : State} {d b : Reg} {m : Bool} (h : s.me.vtype.toNat ≤ 5) :
    exec (.vshl16 d b m) s = half (.vshl16 d b m) d d b m false (fun t => intLane .shl t) s := by
  rw [exec_vshl16, execVshl16, needShiftType_int h]

theorem execVsra16_int {s : State} {d b : Reg} {m : Bool} (h : s.me.vtype.toNat ≤ 5) :
    exec (.vsra16 d b m) s = half (.vsra16 d b m) d d b m false (fun t => intLane .sra t) s := by
  rw [exec_vsra16, execVsra16, needShiftType_int h]

/-- R19: a shift with a float type traps. -/
theorem execVshl16_float {s : State} {d b : Reg} {m : Bool} (hi : Impure s) (h : 6 ≤ s.me.vtype.toNat) :
    exec (.vshl16 d b m) s = .next (takeTrap s s.cur 0x01 (Instr.bits (.vshl16 d b m)) false) := by
  rw [exec_vshl16, execVshl16, needShiftType_float h, ← stopped_trap hi]
  rfl

theorem execVsra16_float {s : State} {d b : Reg} {m : Bool} (hi : Impure s) (h : 6 ≤ s.me.vtype.toNat) :
    exec (.vsra16 d b m) s = .next (takeTrap s s.cur 0x01 (Instr.bits (.vsra16 d b m)) false) := by
  rw [exec_vsra16, execVsra16, needShiftType_float h, ← stopped_trap hi]
  rfl

/-- R19: the halfword 0 traps. -/
theorem execVmov16_zero {s : State} (hi : Impure s) :
    exec (.vmov16 0#5 0#5 false) s = .next (takeTrap s s.cur 0x01 0#64 false) := by
  have hw : needWf (.vmov16 0#5 0#5 false) s = .error (.trap 0x01 0#64) := rfl
  rw [exec_vmov16, execVmov16, half, hw, ← stopped_trap hi]
  rfl

theorem wf_vmov16 {d b : Reg} {m : Bool} (h : ¬ (d = 0#5 ∧ b = 0#5 ∧ m = false)) : Instr.wf (.vmov16 d b m) = true := by
  have e : Instr.check (.vmov16 d b m) = none := if_neg h
  rw [Instr.wf, e]
  rfl

/-! ### O36 -/

/-- Settles O36: by the type of VTYPE the operation of a 16-bit form is that of the VINT or the VFLT form (`byType_int`,
`byType_float`), and both then write the same hart (`half_ok`, `lanes2_register`, `lanes1_register`). -/
theorem halfwordForms : Obligations.HalfwordForms := by
  unfold Obligations.HalfwordForms
  intro s d b m hr hf e k like
  have ready : ∀ rs, rs ⊆ [d, b, 0#5] → VReady s rs := fun rs sub r hm => hr r (sub hm)
  have rddb := ready [d, d, b] (by simp)
  have rdbb := ready [d, b, b] (by simp)
  have rdb := ready [d, b] (by simp)
  refine ⟨?_, execVmov16_zero, ?_, ?_, ?_, vsel16_like rdb hf, ?_, ?_⟩
  · exact fun h => half_like_lanes2 (exec_vmov16 s) (exec_vor s) (wf_vmov16 h) rfl rdbb hf rfl rfl
  · exact half_like_lanes2 (exec_vand16 s) (exec_vand s) rfl rfl rddb hf rfl rfl
  · exact half_like_lanes2 (exec_vor16 s) (exec_vor s) rfl rfl rddb hf rfl rfl
  · exact half_like_lanes2 (exec_vxor16 s) (exec_vxor s) rfl rfl rddb hf rfl rfl
  · intro he
    have hw := intTypeCheck_none he
    have int : ∀ op fop, byType op fop e = intLane op e := byType_int he
    refine ⟨?_, ?_, ?_, ?_, ?_, ?_, ?_, ?_, ?_, ?_, ?_⟩
    · exact half_like_lanes2 (exec_vadd16 s) (exec_vadd s) rfl hw rddb hf rfl (int ..)
    · exact half_like_lanes2 (exec_vsub16 s) (exec_vsub s) rfl hw rddb hf rfl (int ..)
    · exact half_like_lanes2 (exec_vmul16 s) (exec_vmul s) rfl hw rddb hf rfl (int ..)
    · exact half_like_lanes2 (exec_vmad16 s) (exec_vmad s) rfl hw hr hf rfl (int ..)
    · exact half_like_lanes2 (exec_vmin16 s) (exec_vmin s) rfl hw rddb hf rfl (int ..)
    · exact half_like_lanes2 (exec_vmax16 s) (exec_vmax s) rfl hw rddb hf rfl (int ..)
    · exact half_like_lanes1 (exec_vneg16 s) (exec_vneg s) rfl hw rdb hf rfl fun x y z => by rw [int]; rfl
    · exact half_like_lanes1 (exec_vabs16 s) (exec_vabs s) rfl hw rdb hf rfl fun x y z => by rw [int]; rfl
    · exact half_like_lanes2 (execVshl16_int he) (exec_vshl s) rfl hw rddb hf rfl rfl
    · exact half_like_lanes2 (execVsra16_int he) (exec_vsra s) rfl hw rddb hf rfl rfl
    · exact half_like_lanes2 (exec_vsqr s) (exec_vmul s) rfl hw rdbb hf rfl (int ..)
  · intro he
    have ht : fltType k = e := fltType_extract he
    have flt : ∀ op fop, byType op fop e = fltLane fop (fltType k) := fun op fop => by rw [ht]; exact byType_float he op fop
    refine ⟨?_, ?_, ?_, ?_, ?_, ?_, ?_, ?_, ?_, fun hi => ⟨execVshl16_float hi he, execVsra16_float hi he⟩⟩
    · exact half_like_lanes2 (exec_vadd16 s) (exec_vfadd s) rfl rfl rddb hf ht (flt ..)
    · exact half_like_lanes2 (exec_vsub16 s) (exec_vfsub s) rfl rfl rddb hf ht (flt ..)
    · exact half_like_lanes2 (exec_vmul16 s) (exec_vfmul s) rfl rfl rddb hf ht (flt ..)
    · exact half_like_lanes2 (exec_vmad16 s) (exec_vfma s) rfl rfl hr hf ht (flt ..)
    · exact half_like_lanes2 (exec_vmin16 s) (exec_vfmin s) rfl rfl rddb hf ht (flt ..)
    · exact half_like_lanes2 (exec_vmax16 s) (exec_vfmax s) rfl rfl rddb hf ht (flt ..)
    · exact half_like_lanes1 (exec_vneg16 s) (exec_vfneg s) rfl rfl rdb hf ht fun x y z => by rw [flt]; rfl
    · exact half_like_lanes1 (exec_vabs16 s) (exec_vfabs s) rfl rfl rdb hf ht fun x y z => by rw [flt]; rfl
    · exact half_like_lanes2 (exec_vsqr s) (exec_vfmul s) rfl rfl rdbb hf ht (flt ..)

end Sys2Proof.Machine
end

section
/-! SUPPORT. Lanes moved (R231) and reductions over their tree (R232), and O30. -/

namespace Sys2Proof.Machine

open Sys2Proof.Safety

/-! ### Lanes as integers -/

theorem eltBits_pos (e : EType) : 0 < eltBits e := by revert e; decide

/-- A lane read as two's complement. -/
theorem sval_eq_toInt {w x : Nat} (hw : 0 < w) (hx : x < 2 ^ w) : sval w x = (BitVec.ofNat w x).toInt := by
  have half : 2 ^ w = 2 * 2 ^ (w - 1) := by rw [← Nat.pow_succ', Nat.succ_eq_add_one, Nat.sub_add_cancel hw]
  rw [sval, BitVec.toInt_eq_toNat_cond, BitVec.toNat_ofNat, Nat.mod_eq_of_lt hx]
  by_cases h : x < 2 ^ (w - 1)
  · rw [if_pos h, if_pos (by omega)]
  · rw [if_neg h, if_neg (by omega)]

/-- R224: a lane as an integer of its type. -/
theorem ival_eq {e : EType} {x : Nat} (hx : x < 2 ^ eltBits e) :
    ival e x = if e.toNat ≤ 3 then (BitVec.ofNat (eltBits e) x).toInt else (x : Int) := by
  simp [ival, isSigned, sval_eq_toInt (eltBits_pos e) hx]

/-- R231: what VGETL returns of a lane. -/
theorem getLane_eq {e : EType} {x : Nat} (hx : x < 2 ^ eltBits e) :
    getLane e x = if e.toNat ≤ 2 then (BitVec.ofNat (eltBits e) x).signExtend 64 else BitVec.ofNat 64 x := by
  rw [getLane, ival_eq hx]
  by_cases h2 : e.toNat ≤ 2
  · rw [if_pos (Nat.le_succ_of_le h2), if_pos h2]; rfl
  · rw [if_neg h2]
    by_cases h3 : e.toNat ≤ 3
    · have e3 : e = 3#3 := BitVec.eq_of_toNat_eq (by simp; omega)
      subst e3
      rw [if_pos h3]
      exact BitVec.ofInt_toInt
    · rw [if_neg h3, BitVec.ofInt_natCast]

/-! ### A write of lanes chosen by a predicate -/

theorem lane_mergeLanes (e : EType) (p : Nat → Bool) (old : VWord) (g : Nat → Nat) {i : Nat} (hi : i < laneCount e) :
    lane (eltBits e) (mergeLanes (eltBits e) (laneCount e) p old g) i =
      if p i then g i % 2 ^ eltBits e else lane (eltBits e) old i := by
  unfold mergeLanes
  rw [lane_mkLanes _ _ _ (eltBits_mul e) hi]
  split
  · rfl
  · exact Nat.mod_eq_of_lt (lane_lt _ _ _)

theorem writesV_wv (s : State) (d : Reg) (v : VWord) : WritesV s (s.step4 fun h => h.wv d v) d v 0 4 := by
  have e : (s.step4 fun h => h.wv d v) = s.step4 fun h => (h.wv d v).stick 0#3 := step4_congr (stick_zero _).symm
  rw [e]
  exact writesV_step4 s d v 0#3

/-! ### The forms -/

theorem vbcast_ok {s : State} {d a : Reg} {e : EType} {m : Bool} (hf : VFree s d) (ho : m = true → VReady s [d]) (ha : XReady s [a]) :
    ∃ t, exec (.vbcast d a e m) s = .next t ∧ WritesLanes s t d e m 0 fun _ => (s.me.rx a).toNat % 2 ^ eltBits e := by
  refine ⟨_, (exec_vbcast s).trans ?_, putLanes_ok (g := fun _ => (s.me.rx a).toNat) fun _ _ => rfl⟩
  simp only [execVbcast, needX_ok (ha a (by simp)), needOld_ok fun hm => ho hm d (by simp), freeV_ok hf, bind_ok, finish_ok]
  exact congrArg _ (step4_congr rfl)

theorem vperm_ok {s : State} {d a b : Reg} {e : EType} {m : Bool} (hf : VFree s d) (ho : m = true → VReady s [d]) (hr : VReady s [a, b]) :
    ∃ t, exec (.vperm d a b e m) s = .next t ∧ WritesLanes s t d e m 0 fun i =>
      lane (eltBits e) (s.me.rv a) (lane (eltBits e) (s.me.rv b) i % laneCount e) := by
  refine ⟨_, (exec_vperm s).trans ?_, putLanes_ok (g := fun i =>
      lane (eltBits e) (s.me.rv a) (lane (eltBits e) (s.me.rv b) i % laneCount e)) fun _ _ => Nat.mod_eq_of_lt (lane_lt ..)⟩
  simp only [execVperm, needV_ok (hr a (by simp)), needV_ok (hr b (by simp)), needOld_ok fun hm => ho hm d (by simp), freeV_ok hf, bind_ok,
    finish_ok]
  exact congrArg _ (step4_congr rfl)

theorem slideLane_mod (e : EType) (v : VWord) (k : Int) (i : Nat) : slideLane e v k i % 2 ^ eltBits e = slideLane e v k i := by
  refine Nat.mod_eq_of_lt ?_
  unfold slideLane
  dsimp only
  split
  · exact lane_lt ..
  · positivity

theorem vslide_ok {s : State} {d a b : Reg} {e : EType} {m : Bool} (hf : VFree s d) (ho : m = true → VReady s [d]) (ha : VReady s [a])
    (hb : XReady s [b]) :
    ∃ t, exec (.vslide d a b e m) s = .next t ∧ WritesLanes s t d e m 0 (slideLane e (s.me.rv a) (s.me.rx b).toInt) := by
  refine ⟨_, (exec_vslide s).trans ?_,
    putLanes_ok (g := slideLane e (s.me.rv a) (s.me.rx b).toInt) fun _ _ => slideLane_mod ..⟩
  simp only [execVslide, needV_ok (ha a (by simp)), needX_ok (hb b (by simp)), needOld_ok fun hm => ho hm d (by simp), freeV_ok hf, bind_ok,
    finish_ok]
  exact congrArg _ (step4_congr rfl)

theorem vsetl_ok {s : State} {d a b : Reg} {e : EType} (hf : VFree s d) (hd : VReady s [d]) (hx : XReady s [a, b]) :
    ∃ t, exec (.vsetl d a b e) s = .next t ∧ WritesLanes s t d e false 0 fun i =>
      if i = (s.me.rx b).toNat % laneCount e then (s.me.rx a).toNat % 2 ^ eltBits e else lane (eltBits e) (s.me.rv d) i := by
  refine ⟨_, (exec_vsetl s).trans ?_, _, writesV_wv s d (mergeLanes (eltBits e) (laneCount e)
    (fun i => i == (s.me.rx b).toNat % laneCount e) (s.me.rv d) fun _ => (s.me.rx a).toNat), fun i hi => ?_⟩
  · simp only [execVsetl, needX_ok (hx a (by simp)), needX_ok (hx b (by simp)), needV_ok (hd d (by simp)), freeV_ok hf, bind_ok, finish_ok]
    exact congrArg _ (step4_congr rfl)
  · rw [lane_mergeLanes e _ _ _ hi]
    simp

theorem vgetl_ok {s : State} {d a b : Reg} {e : EType} (hf : XFree s d) (ha : VReady s [a]) (hb : XReady s [b]) :
    ∃ t, exec (.vgetl d a b e) s = .next t ∧
      let l := lane (eltBits e) (s.me.rv a) ((s.me.rx b).toNat % laneCount e)
      WritesX s t d (if e.toNat ≤ 2 then (BitVec.ofNat (eltBits e) l).signExtend 64 else BitVec.ofNat 64 l) 4 := by
  refine ⟨_, (exec_vgetl s).trans ?_, writesX_step4 s d _⟩
  rw [← getLane_eq (lane_lt ..)]
  simp only [execVgetl, needV_ok (ha a (by simp)), needX_ok (hb b (by simp)), freeX_ok hf, bind_ok, finish_ok]
  exact congrArg _ (step4_congr rfl)

theorem vmovm_ok (s : State) (md ma : MReg) : ∃ t, exec (.vmovm md ma) s = .next t ∧ WritesM s t md (s.me.rm ma) 0 4 := by
  have e : (s.step4 fun h => h.wm md (h.rm ma)) = s.setMe (((s.me.wm md (s.me.rm ma)).stick 0#3).retire 4) := by
    rw [stick_zero]; rfl
  exact ⟨_, exec_vmovm s, e ▸ writesM_retire s md (s.me.rm ma) 0#3 4⟩

theorem Table.set_set {α : Type} (t : Table α) (j : Nat) (v w : α) : Table.set (Table.set t j v) j w = Table.set t j w := by
  induction t with
  | nil => simp [Table.set]
  | cons e t ih =>
    obtain ⟨k, x⟩ := e
    unfold Table.set
    by_cases h : j = k
    · simp [h, Table.set]
    · by_cases l : j < k
      · simp [h, l, Table.set]
      · simp [h, l, Table.set, ih]

theorem State.setMe_setMe (s : State) (a b : Hart) : (s.setMe a).setMe b = s.setMe b := by
  simp only [State.setMe, State.setHart, Table.set_set]

/-- Past an instruction that changes nothing of the hart but what `k` has changed before. -/
theorem passes_setMe_retire (s : State) (k : Hart) : Passes (s.setMe k) (s.setMe (k.retire 4)) := by
  have e : (s.setMe k).setMe ((s.setMe k).me.retire 4) = s.setMe (k.retire 4) := by
    rw [State.me_setMe, State.setMe_setMe]
  rw [← e]
  exact jumps_setMe_retire (s.setMe k) 4

theorem vsett_ok {s : State} {a : Reg} (ha : XReady s [a]) : ∃ t, exec (.vsett a) s = .next t ∧
    Passes (s.setMe { s.me with vtype := (s.me.rx a).extractLsb' 0 3 }) t := by
  refine ⟨_, (exec_vsett s).trans ?_, passes_setMe_retire s _⟩
  simp only [execVsett, needX_ok (ha a (by simp)), bind_ok, finish_ok]
  rfl

/-! ### The tree of a reduction (R232) -/

/-- What an operation keeps of its operands holds of every node. -/
theorem redNode_of_closed {op : Nat → Nat → Nat} {leaf : Nat → Nat} {P : Nat → Prop} (hop : ∀ a b, P a → P b → P (op a b))
    (hl : ∀ i, P (leaf i)) (l k : Nat) : P (redNode op leaf l k) := by
  induction l generalizing k with
  | zero => exact hl k
  | succ l ih => exact hop _ _ (ih _) (ih _)

/-- What the running sum of VPSUM becomes with one more node. -/
def takeNode (op : Nat → Nat → Nat) (acc : Option Nat) (v : Nat) : Nat := acc.elim v fun t => op t v

theorem redPrefix_zero (op : Nat → Nat → Nat) (leaf : Nat → Nat) (i j : Nat) (acc : Option Nat) :
    redPrefix op leaf i 0 j acc = if (i + 1) % 2 = 1 then some (takeNode op acc (redNode op leaf 0 j)) else acc := by
  cases acc <;> rfl

theorem redPrefix_succ (op : Nat → Nat → Nat) (leaf : Nat → Nat) (i l j : Nat) (acc : Option Nat) :
    redPrefix op leaf i (l + 1) j acc = if (i + 1) / 2 ^ (l + 1) % 2 = 1 then
      redPrefix op leaf i l (j + 2 ^ (l + 1)) (some (takeNode op acc (redNode op leaf (l + 1) (j / 2 ^ (l + 1)))))
    else redPrefix op leaf i l j acc := by
  cases acc <;> rfl

theorem redPrefix_of_closed {op : Nat → Nat → Nat} {leaf : Nat → Nat} {P : Nat → Prop} (hop : ∀ a b, P a → P b → P (op a b))
    (hl : ∀ i, P (leaf i)) (i l j : Nat) (acc : Option Nat) (ha : ∀ x ∈ acc, P x) : ∀ x ∈ redPrefix op leaf i l j acc, P x := by
  have join : ∀ (acc : Option Nat) v, (∀ x ∈ acc, P x) → P v → ∀ x ∈ some (takeNode op acc v), P x := by
    intro acc v ha hv x hx
    cases hx
    cases acc with
    | none => exact hv
    | some t => exact hop _ _ (ha t rfl) hv
  induction l generalizing j acc with
  | zero =>
    rw [redPrefix_zero]
    split
    · exact join acc _ ha (redNode_of_closed hop hl 0 j)
    · exact ha
  | succ l ih =>
    rw [redPrefix_succ]
    split
    · exact ih _ _ (join acc _ ha (redNode_of_closed hop hl (l + 1) _))
    · exact ih _ _ ha

/-- The sum of the leaves from j on. -/
def leafSum (leaf : Nat → Nat) (j n : Nat) : Nat := ((List.range n).map fun i => leaf (j + i)).sum

theorem leafSum_add (leaf : Nat → Nat) (j m n : Nat) : leafSum leaf j (m + n) = leafSum leaf j m + leafSum leaf (j + m) n := by
  unfold leafSum
  rw [List.range_add, List.map_append, List.sum_append, List.map_map]
  simp [Function.comp_def, Nat.add_assoc]

theorem leafSum_zero (leaf : Nat → Nat) (n : Nat) : leafSum leaf 0 n = ((List.range n).map leaf).sum := by
  simp [leafSum]

/-- A node of the tree of sums. -/
theorem redNode_add {M : Nat} (leaf : Nat → Nat) (l k : Nat) :
    redNode (fun a b => (a + b) % M) leaf l k ≡ leafSum leaf (k * 2 ^ l) (2 ^ l) [MOD M] := by
  induction l generalizing k with
  | zero => simp [redNode, leafSum]; rfl
  | succ l ih =>
    have h1 := ih (2 * k)
    have h2 := ih (2 * k + 1)
    have e1 : 2 * k * 2 ^ l = k * 2 ^ (l + 1) := by rw [Nat.pow_succ]; ring
    have e2 : (2 * k + 1) * 2 ^ l = k * 2 ^ (l + 1) + 2 ^ l := by rw [Nat.pow_succ]; ring
    rw [e1] at h1
    rw [e2] at h2
    rw [Nat.pow_succ, Nat.mul_two, leafSum_add, ← Nat.mul_two, ← Nat.pow_succ]
    exact (Nat.mod_modEq _ _).trans (h1.add h2)

/-- The lanes already taken at level l: those that the bits of i + 1 above it count. -/
def taken (i l : Nat) : Nat := (i + 1) / 2 ^ l * 2 ^ l

theorem taken_succ (i l : Nat) :
    taken i l = if (i + 1) / 2 ^ l % 2 = 1 then taken i (l + 1) + 2 ^ l else taken i (l + 1) := by
  have e : (i + 1) / 2 ^ (l + 1) = (i + 1) / 2 ^ l / 2 := by rw [Nat.pow_succ, Nat.div_div_eq_div_mul]
  have h := Nat.div_add_mod ((i + 1) / 2 ^ l) 2
  unfold taken
  rw [e, Nat.pow_succ]
  generalize (i + 1) / 2 ^ l = q at h
  generalize 2 ^ l = p
  split
  · next h1 =>
    rw [h1] at h
    calc q * p = (2 * (q / 2) + 1) * p := by rw [h]
      _ = q / 2 * (p * 2) + p := by ring
  · next h1 =>
    have h0 : q % 2 = 0 := by omega
    rw [h0] at h
    calc q * p = (2 * (q / 2) + 0) * p := by rw [h]
      _ = q / 2 * (p * 2) := by ring

theorem taken_zero (i : Nat) : taken i 0 = i + 1 := by simp [taken]

theorem taken_high {i l : Nat} (h : i + 1 < 2 ^ l) : taken i l = 0 := by simp [taken, Nat.div_eq_of_lt h]

/-- One part of the running sum taken: the sum of the lanes before it and its own. -/
theorem sum_take {M : Nat} (leaf : Nat → Nat) {acc : Option Nat} {j l : Nat} (hj : j = j / 2 ^ l * 2 ^ l)
    (ha : acc.getD 0 ≡ leafSum leaf 0 j [MOD M]) :
    takeNode (fun a b => (a + b) % M) acc (redNode (fun a b => (a + b) % M) leaf l (j / 2 ^ l)) ≡ leafSum leaf 0 (j + 2 ^ l) [MOD M] := by
  have hv : redNode (fun a b => (a + b) % M) leaf l (j / 2 ^ l) ≡ leafSum leaf j (2 ^ l) [MOD M] := by
    have h := redNode_add (M := M) leaf l (j / 2 ^ l)
    rwa [← hj] at h
  rw [leafSum_add, Nat.zero_add]
  cases acc with
  | none => simpa [takeNode] using ha.add hv
  | some t => exact (Nat.mod_modEq _ _).trans (ha.add hv)

/-- VPSUM of integers: the sum of the lanes up to lane i. -/
theorem redPrefix_add {M : Nat} (leaf : Nat → Nat) (i l : Nat) (acc : Option Nat)
    (ha : acc.getD 0 ≡ leafSum leaf 0 (taken i (l + 1)) [MOD M]) :
    (redPrefix (fun a b => (a + b) % M) leaf i l (taken i (l + 1)) acc).getD 0 ≡ leafSum leaf 0 (i + 1) [MOD M] := by
  have multiple : ∀ l, taken i (l + 1) = taken i (l + 1) / 2 ^ l * 2 ^ l := fun l =>
    (Nat.div_mul_cancel (Dvd.dvd.trans (pow_dvd_pow 2 (Nat.le_succ l)) (Nat.dvd_mul_left ..))).symm
  induction l generalizing acc with
  | zero =>
    have step := taken_succ i 0
    rw [taken_zero] at step
    rw [redPrefix_zero]
    rw [pow_zero, Nat.div_one] at step
    split at step
    · next h =>
      rw [if_pos h, step]
      simpa using sum_take leaf (l := 0) (multiple 0) ha
    · next h =>
      rw [if_neg h, step]
      exact ha
  | succ l ih =>
    have step := taken_succ i (l + 1)
    rw [redPrefix_succ]
    split at step
    · next h =>
      rw [if_pos h, ← step]
      refine ih _ ?_
      rw [step]
      exact sum_take leaf (multiple (l + 1)) ha
    · next h =>
      rw [if_neg h, ← step]
      exact ih acc (step ▸ ha)

/-- A node of a tree whose operation picks the operand of the greater key: the leaf of the greatest key below it. -/
theorem redNode_greatest {op : Nat → Nat → Nat} {leaf : Nat → Nat} {key : Nat → Int}
    (hop : ∀ a b, (op a b = a ∧ key b ≤ key a) ∨ (op a b = b ∧ key a ≤ key b)) (l k : Nat) :
    ∃ j, k * 2 ^ l ≤ j ∧ j < (k + 1) * 2 ^ l ∧ redNode op leaf l k = leaf j ∧
      ∀ i, k * 2 ^ l ≤ i → i < (k + 1) * 2 ^ l → key (leaf i) ≤ key (leaf j) := by
  induction l generalizing k with
  | zero =>
    refine ⟨k, by simp, by simp, rfl, fun i h1 h2 => ?_⟩
    have : i = k := by simp at h1 h2; omega
    rw [this]
  | succ l ih =>
    obtain ⟨j1, lo1, hi1, e1, m1⟩ := ih (2 * k)
    obtain ⟨j2, lo2, hi2, e2, m2⟩ := ih (2 * k + 1)
    have b1 : 2 * k * 2 ^ l = k * 2 ^ (l + 1) := by rw [Nat.pow_succ]; ring
    have b3 : (2 * k + 1 + 1) * 2 ^ l = (k + 1) * 2 ^ (l + 1) := by rw [Nat.pow_succ]; ring
    have node : redNode op leaf (l + 1) k = op (leaf j1) (leaf j2) := by rw [redNode, e1, e2]
    rw [← b1, ← b3, node]
    generalize hM : (2 * k + 1) * 2 ^ l = M at *
    have below : 2 * k * 2 ^ l ≤ M := by rw [← hM]; exact Nat.mul_le_mul_right _ (Nat.le_succ _)
    have above : M ≤ (2 * k + 1 + 1) * 2 ^ l := by rw [← hM]; exact Nat.mul_le_mul_right _ (Nat.le_succ _)
    rcases hop (leaf j1) (leaf j2) with ⟨e, le⟩ | ⟨e, le⟩
    · refine ⟨j1, lo1, by omega, e, fun i h1 h2 => ?_⟩
      by_cases h : i < M
      · exact m1 i h1 h
      · exact (m2 i (Nat.le_of_not_lt h) h2).trans le
    · refine ⟨j2, by omega, hi2, e, fun i h1 h2 => ?_⟩
      by_cases h : i < M
      · exact (m1 i h1 h).trans le
      · exact m2 i (Nat.le_of_not_lt h) h2

/-! ### The operations (R225, R232) -/

theorem log2_laneCount (e : EType) : 2 ^ Nat.log2 (laneCount e) = laneCount e := by revert e; decide

theorem redOp_sum_int {e : EType} (h : e.toNat ≤ 5) : redOp .sum e = fun a b => (a + b) % 2 ^ eltBits e := by
  funext a b
  simp [redOp, isFloat, Nat.not_le.mpr (Nat.lt_succ_of_le h), intLane]

theorem redOp_psum (e : EType) : redOp .psum e = redOp .sum e := by
  funext a b
  unfold redOp
  split <;> rfl

theorem redOp_max_int {e : EType} (h : e.toNat ≤ 5) : redOp .max e = fun a b => if ival e b ≤ ival e a then a else b := by
  funext a b
  simp [redOp, isFloat, Nat.not_le.mpr (Nat.lt_succ_of_le h), intLane]

theorem redOp_min_int {e : EType} (h : e.toNat ≤ 5) : redOp .min e = fun a b => if ival e a ≤ ival e b then a else b := by
  funext a b
  simp [redOp, isFloat, Nat.not_le.mpr (Nat.lt_succ_of_le h), intLane]

/-- The format of a float type, as R211 names it. -/
theorem fmtOf_eq (e : EType) : fmtOf e = if e = 6#3 then bf16Fmt else f32Fmt := by revert e; decide

theorem redOp_sum_float {e : EType} (h : 6 ≤ e.toNat) : redOp .sum e = fAdd (fmtOf e) := by
  funext a b
  simp [redOp, isFloat, h]

theorem redOp_max_float {e : EType} (h : 6 ≤ e.toNat) : redOp .max e = fMax (fmtOf e) := by
  funext a b
  simp [redOp, isFloat, h]

theorem redOp_min_float {e : EType} (h : 6 ≤ e.toNat) : redOp .min e = fMin (fmtOf e) := by
  funext a b
  simp [redOp, isFloat, h]

/-- The patterns of a format stand in its width. -/
theorem fmtOf_bounds {e : EType} (h : 6 ≤ e.toNat) : (fmtOf e).signBit + (fmtOf e).infBits < 2 ^ eltBits e ∧
    (fmtOf e).nanBits < 2 ^ eltBits e := by revert h; revert e; decide

theorem roundMag_le (f : FloatFmt) (m : Nat) (x : Int) : f.roundMag m x ≤ f.infBits := by
  unfold FloatFmt.roundMag
  split
  · exact Nat.zero_le _
  · exact Nat.min_le_right ..

theorem withSign_le (f : FloatFmt) (neg : Bool) (m : Nat) : f.withSign neg m ≤ f.signBit + m := by
  unfold FloatFmt.withSign
  split <;> omega

/-- R213: a rounded value stands in the width of its format. -/
theorem round_lt {e : EType} (h : 6 ≤ e.toNat) (v : FVal) : (fmtOf e).round v < 2 ^ eltBits e := by
  obtain ⟨hinf, hnan⟩ := fmtOf_bounds h
  cases v with
  | nan => exact hnan
  | inf n => exact Nat.lt_of_le_of_lt (withSign_le ..) hinf
  | fin n m x => exact Nat.lt_of_le_of_lt (Nat.le_trans (withSign_le ..) (Nat.add_le_add_left (roundMag_le ..) _)) hinf

theorem fMax_lt {e : EType} (h : 6 ≤ e.toNat) (a b : Nat) (ha : a < 2 ^ eltBits e) (hb : b < 2 ^ eltBits e) :
    fMax (fmtOf e) a b < 2 ^ eltBits e := by
  unfold fMax
  split
  · exact (fmtOf_bounds h).2
  · split <;> assumption

theorem fMin_lt {e : EType} (h : 6 ≤ e.toNat) (a b : Nat) (ha : a < 2 ^ eltBits e) (hb : b < 2 ^ eltBits e) :
    fMin (fmtOf e) a b < 2 ^ eltBits e := by
  unfold fMin
  split
  · exact (fmtOf_bounds h).2
  · split <;> assumption

/-! ### What a reduction writes -/

theorem reduce_ok {i : Instr} {op : RedOp} {s : State} {d a : Reg} {e : EType} {m : Bool} {z : Nat → Nat}
    (hi : exec i s = reduce op d a e m s) (ha : VReady s [a]) (hf : VFree s d) (ho : m = true → VReady s [d])
    (hz : ∀ k, k < laneCount e → redLane op e (s.me.rv a) k % 2 ^ eltBits e = z k) :
    ∃ t, exec i s = .next t ∧ WritesLanes s t d e m 0 z := by
  refine ⟨_, hi.trans ?_, putLanes_ok (g := redLane op e (s.me.rv a)) hz⟩
  simp only [reduce, needV_ok (ha a (by simp)), needOld_ok fun hm => ho hm d (by simp), freeV_ok hf, bind_ok, finish_ok]
  exact congrArg _ (step4_congr rfl)

/-- R232: the lanes of VRSUM of an integer type. -/
theorem redLane_sum_int {e : EType} (h : e.toNat ≤ 5) (v : VWord) (i : Nat) : redLane .sum e v i % 2 ^ eltBits e =
    ((List.range (laneCount e)).map (lane (eltBits e) v)).sum % 2 ^ eltBits e := by
  have node := redNode_add (M := 2 ^ eltBits e) (lane (eltBits e) v) (Nat.log2 (laneCount e)) 0
  rw [Nat.zero_mul, log2_laneCount, leafSum_zero] at node
  unfold redLane
  rw [redOp_sum_int h]
  exact node

/-- R232: the lanes of VPSUM of an integer type. -/
theorem redLane_psum_int {e : EType} (h : e.toNat ≤ 5) (v : VWord) {i : Nat} (hi : i < laneCount e) :
    redLane .psum e v i % 2 ^ eltBits e = ((List.range (i + 1)).map (lane (eltBits e) v)).sum % 2 ^ eltBits e := by
  have high : taken i (Nat.log2 (laneCount e) + 1) = 0 := taken_high (by rw [Nat.pow_succ, log2_laneCount]; omega)
  have sum := redPrefix_add (M := 2 ^ eltBits e) (lane (eltBits e) v) i (Nat.log2 (laneCount e)) none (by rw [high]; rfl)
  rw [high, leafSum_zero] at sum
  rw [redLane, redOp_psum, redOp_sum_int h]
  exact sum

/-- R232: VRMAX and VRMIN of an integer type write the lane of the greatest and of the least value. -/
theorem redLane_max_int {e : EType} (h : e.toNat ≤ 5) (v : VWord) : ∃ k, k < laneCount e ∧
    (∀ j, j < laneCount e → ival e (lane (eltBits e) v j) ≤ ival e (lane (eltBits e) v k)) ∧
      ∀ i, redLane .max e v i = lane (eltBits e) v k := by
  obtain ⟨k, -, hk, e1, hmax⟩ := redNode_greatest (op := redOp .max e) (leaf := lane (eltBits e) v) (key := ival e)
    (fun a b => by rw [redOp_max_int h]; dsimp only; split <;> simp_all [Int.le_of_lt]) (Nat.log2 (laneCount e)) 0
  rw [log2_laneCount] at hk hmax
  exact ⟨k, by omega, fun j hj => hmax j (by omega) (by omega), fun _ => e1⟩

theorem redLane_min_int {e : EType} (h : e.toNat ≤ 5) (v : VWord) : ∃ k, k < laneCount e ∧
    (∀ j, j < laneCount e → ival e (lane (eltBits e) v k) ≤ ival e (lane (eltBits e) v j)) ∧
      ∀ i, redLane .min e v i = lane (eltBits e) v k := by
  obtain ⟨k, -, hk, e1, hmin⟩ := redNode_greatest (op := redOp .min e) (leaf := lane (eltBits e) v) (key := fun x => -ival e x)
    (fun a b => by rw [redOp_min_int h]; dsimp only; split <;> simp_all [Int.le_of_lt]) (Nat.log2 (laneCount e)) 0
  rw [log2_laneCount] at hk hmin
  exact ⟨k, by omega, fun j hj => Int.neg_le_neg_iff.mp (hmin j (by omega) (by omega)), fun _ => e1⟩

/-- R232: the lanes a reduction of a float type writes: the root of the tree. -/
theorem redLane_sum_float {e : EType} (h : 6 ≤ e.toNat) (v : VWord) (i : Nat) : redLane .sum e v i % 2 ^ eltBits e =
    redNode (fAdd (fmtOf e)) (lane (eltBits e) v) (Nat.log2 (laneCount e)) 0 := by
  unfold redLane
  rw [redOp_sum_float h]
  exact Nat.mod_eq_of_lt (redNode_of_closed (P := (· < 2 ^ eltBits e)) (fun _ _ _ _ => round_lt h _) (lane_lt _ v) ..)

theorem redLane_max_float {e : EType} (h : 6 ≤ e.toNat) (v : VWord) (i : Nat) : redLane .max e v i % 2 ^ eltBits e =
    redNode (fMax (fmtOf e)) (lane (eltBits e) v) (Nat.log2 (laneCount e)) 0 := by
  unfold redLane
  rw [redOp_max_float h]
  exact Nat.mod_eq_of_lt (redNode_of_closed (fMax_lt h) (lane_lt _ v) ..)

theorem redLane_min_float {e : EType} (h : 6 ≤ e.toNat) (v : VWord) (i : Nat) : redLane .min e v i % 2 ^ eltBits e =
    redNode (fMin (fmtOf e)) (lane (eltBits e) v) (Nat.log2 (laneCount e)) 0 := by
  unfold redLane
  rw [redOp_min_float h]
  exact Nat.mod_eq_of_lt (redNode_of_closed (fMin_lt h) (lane_lt _ v) ..)

/-- R232: the lanes of VPSUM of a float type. -/
theorem redLane_psum_float {e : EType} (h : 6 ≤ e.toNat) (v : VWord) (i : Nat) : redLane .psum e v i % 2 ^ eltBits e =
    (redPrefix (fAdd (fmtOf e)) (lane (eltBits e) v) i (Nat.log2 (laneCount e)) 0 none).getD 0 := by
  have bound := redPrefix_of_closed (op := fAdd (fmtOf e)) (P := (· < 2 ^ eltBits e)) (fun _ _ _ _ => round_lt h _) (lane_lt _ v) i
    (Nat.log2 (laneCount e)) 0 none (fun _ hx => nomatch hx)
  unfold redLane
  dsimp only
  rw [redOp_psum, redOp_sum_float h]
  refine Nat.mod_eq_of_lt ?_
  cases hp : redPrefix (fAdd (fmtOf e)) (lane (eltBits e) v) i (Nat.log2 (laneCount e)) 0 none with
  | none => exact Nat.two_pow_pos _
  | some x => exact bound x hp

/-! ### O30 -/

/-- Settles O30: the moves by the write of lanes under a mask (`putLanes_ok`); the reductions by what the tree gives at its root
(`redNode_add`, `redNode_greatest`) and in the running sum of VPSUM (`redPrefix_add`). -/
theorem laneMovesAndReductions : Obligations.LaneMovesAndReductions := by
  unfold Obligations.LaneMovesAndReductions
  constructor
  · intro s d a b e m w n va
    exact ⟨fun hf ho => ⟨vbcast_ok hf ho, vperm_ok hf ho, vslide_ok hf ho⟩, vsetl_ok, vgetl_ok, vmovm_ok s, vsett_ok⟩
  · intro s d a e m ha hf ho w n x num lanes
    have num_eq : ∀ j, num (x j) = ival e (x j) := fun j => (ival_eq (lane_lt ..)).symm
    constructor
    · intro h
      obtain ⟨kmax, kmax_lt, greatest, hmax⟩ := redLane_max_int h (s.me.rv a)
      obtain ⟨kmin, kmin_lt, least, hmin⟩ := redLane_min_int h (s.me.rv a)
      refine ⟨reduce_ok (exec_vrsum s) ha hf ho fun i _ => redLane_sum_int h _ i,
        reduce_ok (exec_vpsum s) ha hf ho fun i hi => redLane_psum_int h _ hi, ⟨kmax, kmax_lt, ?_, ?_⟩, kmin, kmin_lt, ?_, ?_⟩
      · exact fun j hj => by rw [num_eq, num_eq]; exact greatest j hj
      · exact reduce_ok (exec_vrmax s) ha hf ho fun i _ => by rw [hmax]; exact Nat.mod_eq_of_lt (lane_lt ..)
      · exact fun j hj => by rw [num_eq, num_eq]; exact least j hj
      · exact reduce_ok (exec_vrmin s) ha hf ho fun i _ => by rw [hmin]; exact Nat.mod_eq_of_lt (lane_lt ..)
    · intro h f tree
      have hfmt : fmtOf e = f := fmtOf_eq e
      rw [← hfmt]
      exact ⟨reduce_ok (exec_vrsum s) ha hf ho fun i _ => redLane_sum_float h _ i,
        reduce_ok (exec_vrmax s) ha hf ho fun i _ => redLane_max_float h _ i,
        reduce_ok (exec_vrmin s) ha hf ho fun i _ => redLane_min_float h _ i,
        reduce_ok (exec_vpsum s) ha hf ho fun i _ => redLane_psum_float h _ i⟩

end Sys2Proof.Machine
end

section
/-! SUPPORT. A load whose bytes cross a line, and the refutation of O7. -/

namespace Sys2Proof.Machine
open Sys2Proof.Safety

/-- A cached translation maps address 0 to byte 63 of a line of expander memory, and core 0's L1D holds a copy of the next line with
byte 0 set, where memory is zero. A walk caches page-aligned targets alone (R161); the statement ranges over every state. -/
def crossingLoad : State :=
  { State.reset with ms := { State.reset.ms with
      tlb := [⟨0, 0, 0, false, false, 0, 4096, 0x8000000003F, 0x13, none⟩]
      hdm := [(0x80000000000, 0x200000)]
      copies := [(0x2000000001, ⟨0, 1, 0xFF⟩)] } }

/-- The place that address 0 reaches there. -/
def crossingPlace : Place := .mem 0x8000000003F none false 0 false

theorem reach_crossingLoad :
    reach crossingLoad crossingLoad.myCore crossingLoad.me.tctx 0 accRead = .ok (crossingPlace, crossingLoad) := rfl

/-- The load's second byte comes from the copy of the second line. -/
theorem readPlace_crossingLoad : ∃ g, readPlace crossingLoad crossingLoad.cur 0 crossingPlace 8 true = .ok g ∧ leNat g.bytes = 256 := by
  have reads : (match readPlace crossingLoad crossingLoad.cur 0 crossingPlace 8 true with
      | .ok g => leNat g.bytes == 256
      | .error _ => false) = true := by decide +kernel
  cases hg : readPlace crossingLoad crossingLoad.cur 0 crossingPlace 8 true with
  | ok g => rw [hg] at reads; exact ⟨g, rfl, beq_iff_eq.mp reads⟩
  | error e => rw [hg] at reads; cases reads

/-- A load delivers one value. -/
theorem loadsX_value_unique {u v t : State} {d : Reg} {x y : Word} (hx : LoadsX u t d x) (hy : LoadsX v t d y) : x = y := by
  obtain ⟨-, -, -, -, ⟨k, hk⟩, -⟩ := hx
  obtain ⟨-, -, -, -, ⟨l, hl⟩, -⟩ := hy
  have last := (List.append_inj' (hk.symm.trans hl) rfl).2
  injection last with last
  injection last with _ target
  injection target

/-- Refutes O7: the second clause wants no copy of the line of the first byte alone, but where a cached page target is not on a line
boundary a load of a dword reaches into the next line, of which the core may hold a copy that differs from memory. -/
theorem not_loadsFromAnyPlace : ¬ Obligations.LoadsFromAnyPlace := by
  intro h
  have hx : XReady crossingLoad [0] := by decide
  have hd : XFree crossingLoad 1 := rfl
  obtain ⟨-, fromMemory, -⟩ := h crossingLoad 1 0 0 (.ldD 1 0 0) 8 (BitVec.ofNat 64) (by simp) hx hd
  obtain ⟨v, t, ht, hv, -⟩ := fromMemory crossingLoad 0x8000000003F 0 false rfl rfl rfl rfl reach_crossingLoad rfl rfl rfl rfl rfl rfl
  obtain ⟨g, hg, bytes⟩ := readPlace_crossingLoad
  obtain ⟨w, hw, delivered⟩ := loadOp_place (ext := BitVec.ofNat 64) (i := 0) hx hd rfl rfl rfl rfl reach_crossingLoad rfl hg
  obtain rfl : t = w := Host.Outcome.next.inj (ht.symm.trans hw)
  have values := loadsX_value_unique delivered hv
  rw [bytes] at values
  exact absurd values (by decide +kernel)

end Sys2Proof.Machine
end

section
/-! SUPPORT. Puts by the route table (R43, R68), and O10. -/

namespace Sys2Proof.Machine
open Sys2Proof.Safety

/-- R290: every buffered put takes 64 bytes of the buffer. -/
theorem bufBytes_append_put (l : List BufEntry) (p q : Put) (r : Bool) : bufBytes (l ++ [.put p r]) = bufBytes (l ++ [.put q r]) := by
  simp [bufBytes, List.foldl_append, List.filter_append]

/-- R148: a put to this node is in flight with its sender's number and time. -/
theorem launchPut_local {s : State} {p : Put} (h : locNode p.loc = s.plat.node.toNat) :
    launchPut s p = { s with nextId := s.nextId + 1, flight := s.flight ++ [.putArrival (stampPut s p)] } := by
  unfold launchPut
  rw [sendPut_local (by exact h)]
  rfl

/-- R43: where the route table turns a locator away, a put's checks end in PARTESC. -/
theorem needPut_escapes {s : State} {loc : Word} (h : Impure s) (hu : s.me.unack < 1023) (hp : permits s s.myCore loc = false) :
    needPut loc s = .error (.trap 0x15 loc) := by
  have counted : needCount s = .ok () := by simp [needCount, hu]
  have turned : needRoute loc s = .error (.trap 0x15 loc) := by rw [needRoute, hp]; rfl
  simp only [needPut, noPure_ok h, counted, turned, bind_ok, bind_error]

theorem putPlain_escapes {s : State} {a : Reg} {e : Stop} (h : needPut (locOf s a) s = .error e) (wide : Bool) (v : VWord) (r : Bool) :
    putPlain a wide v r s = .error e := by
  simp only [putPlain, h, bind_error]

theorem putStatus_escapes {s : State} {d a : Reg} {e : Stop} (hd : XFree s d) (h : needPut (locOf s a) s = .error e) (wide : Bool) (v : VWord)
    (r : Bool) : putStatus d a wide v r s = .error e := by
  simp only [putStatus, freeX_ok hd, h, bind_ok, bind_error]

/-! ### The four forms, by what their put does -/

theorem exec_rput_ready {s : State} {a b : Reg} (ha : XReady s [a]) (hb : XReady s [b]) (r : Bool) :
    exec (.rput a b r) s = finish s (putPlain a false ((s.me.rx b).setWidth 512) r s) := by
  rw [exec_rput, execRput, needX_ok (ha a (by simp)), needX_ok (hb b (by simp)), bind_ok, bind_ok]

theorem exec_rputv_ready {s : State} {a b : Reg} (ha : XReady s [a]) (hb : VReady s [b]) (r : Bool) :
    exec (.rputv a b r) s = finish s (putPlain a true (s.me.rv b) r s) := by
  rw [exec_rputv, execRputv, needX_ok (ha a (by simp)), needV_ok (hb b (by simp)), bind_ok, bind_ok]

theorem exec_rputS_ready {s : State} {a b : Reg} (ha : XReady s [a]) (hb : XReady s [b]) (d : Reg) (r : Bool) :
    exec (.rputS d a b r) s = finish s (putStatus d a false ((s.me.rx b).setWidth 512) r s) := by
  rw [exec_rputS, execRputS, needX_ok (ha a (by simp)), needX_ok (hb b (by simp)), bind_ok, bind_ok]

theorem exec_rputvS_ready {s : State} {a b : Reg} (ha : XReady s [a]) (hb : VReady s [b]) (d : Reg) (r : Bool) :
    exec (.rputvS d a b r) s = finish s (putStatus d a true (s.me.rv b) r s) := by
  rw [exec_rputvS, execRputvS, needX_ok (ha a (by simp)), needV_ok (hb b (by simp)), bind_ok, bind_ok]

/-- A meaning that completes is its step. -/
theorem next_of_ok {s : State} {r : Res} {P : State → Prop} (h : ∃ t, r = .ok t ∧ P t) : ∃ t, finish s r = .next t ∧ P t := by
  obtain ⟨t, rfl, ht⟩ := h
  exact ⟨t, rfl, ht⟩

/-- R158, R167: PARTESC traps at the instruction and freezes the hart, with nothing sent. -/
theorem partesc_freezes {s : State} (h : Impure s) (loc : Word) : ∃ t, finish s (.error (.trap 0x15 loc)) = .next t ∧
    t = takeTrap s s.cur 0x15 loc false ∧ t.me.frozen = some (0x15, loc) ∧ t.flight = s.flight ∧ t.ms = s.ms ∧
      t.me.unack = s.me.unack := by
  refine ⟨_, ?_, rfl, frozen_takeTrap s 0x15 loc rfl⟩
  rw [finish_error, stopped_trap h]

/-- Settles O10: the forms by what their put does (`putPlain_ok`, `putStatus_ok`, `putPlain_buffered`), and by its refusal
(`needPut_escapes`). -/
theorem putsSent : Obligations.PutsSent := by
  unfold Obligations.PutsSent
  constructor
  · intro s d a b r pure notV count ha loc p permitted released
    have checked : needPut (locOf s a) s = .ok () := needPut_ok pure notV count permitted
    constructor
    · intro unbuffered free
      refine ⟨fun hb => ?_, fun hb => ?_, fun hb hd => ?_, fun hb hd => ?_, fun q here hq => ?_⟩
      · rw [exec_rput_ready ha hb]
        exact next_of_ok (putPlain_ok checked unbuffered free released)
      · rw [exec_rputv_ready ha hb]
        exact next_of_ok (putPlain_ok checked unbuffered free released)
      · rw [exec_rputS_ready ha hb]
        exact next_of_ok (putStatus_ok checked unbuffered free hd released)
      · rw [exec_rputvS_ready ha hb]
        exact next_of_ok (putStatus_ok checked unbuffered free hd released)
      · rw [launchPut_local (hq ▸ here)]
        exact ⟨rfl, rfl⟩
    · intro buffering fits
      refine ⟨fun hb => ?_, fun hb => ?_⟩
      · rw [exec_rput_ready ha hb]
        exact next_of_ok (putPlain_buffered checked buffering (by rw [bufBytes_append_put]; exact fits))
      · rw [exec_rputv_ready ha hb]
        exact next_of_ok (putPlain_buffered checked buffering (by rw [bufBytes_append_put]; exact fits))
  · intro s d a b r pure count ha loc turned escapes
    have refused : needPut (locOf s a) s = .error (.trap 0x15 loc) := needPut_escapes pure count turned
    refine ⟨fun hb => ?_, fun hb => ?_, fun hb hd => ?_, fun hb hd => ?_⟩
    · dsimp only [escapes]
      rw [exec_rput_ready ha hb, putPlain_escapes refused]
      exact partesc_freezes pure loc
    · dsimp only [escapes]
      rw [exec_rputv_ready ha hb, putPlain_escapes refused]
      exact partesc_freezes pure loc
    · dsimp only [escapes]
      rw [exec_rputS_ready ha hb, putStatus_escapes hd refused]
      exact partesc_freezes pure loc
    · dsimp only [escapes]
      rw [exec_rputvS_ready ha hb, putStatus_escapes hd refused]
      exact partesc_freezes pure loc

end Sys2Proof.Machine
end

section
/-! SUPPORT. Tables mapped, and what the ends of threads and activations leave of the other harts and of the departure tables. -/

namespace Sys2Proof.Machine
open Sys2Proof.Safety

/-! ### Tables -/

theorem Table.find?_mapVals {α : Type} (t : Table α) (f : Nat → α → α) (j : Nat) :
    Table.find? (Table.mapVals t f) j = (Table.find? t j).map (f j) := by
  induction t with
  | nil => rfl
  | cons e t ih =>
    obtain ⟨k, v⟩ := e
    show (if j = k then some (f k v) else Table.find? (Table.mapVals t f) j) = Option.map (f j) (if j = k then some v else Table.find? t j)
    by_cases h : j = k
    · subst h; simp
    · simp [h, ih]

/-- A table mapped by a function that keeps the default. -/
theorem Table.get_mapVals {α : Type} {d : α} {f : Nat → α → α} {j : Nat} (hd : f j d = d) (t : Table α) :
    Table.get d (Table.mapVals t f) j = f j (Table.get d t j) := by
  unfold Table.get
  rw [Table.find?_mapVals]
  cases Table.find? t j with
  | none => exact hd.symm
  | some v => rfl

/-! ### States that agree in what runs and in what has departed -/

theorem registersKept_trans {a b c : Hart} (h : RegistersKept a b) (k : RegistersKept b c) : RegistersKept a c := by
  obtain ⟨h1, h2, h3, h4, h5, h6, h7, h8⟩ := h
  obtain ⟨k1, k2, k3, k4, k5, k6, k7, k8⟩ := k
  exact ⟨k1.trans h1, k2.trans h2, k3.trans h3, k4.trans h4, k5.trans h5, k6.trans h6, k7.trans h7, k8.trans h8⟩

/-- Of a hart: its registers are kept, a free one stays free, one that no launch waits for is not taken. -/
structure HartUndisturbed (a b : Hart) : Prop where
  registers : RegistersKept a b
  free : a.slot = .free → b.slot = .free
  unheld : a.heldFor = none → b.heldFor = none

theorem HartUndisturbed.refl (a : Hart) : HartUndisturbed a a := ⟨⟨rfl, rfl, rfl, rfl, rfl, rfl, rfl, rfl⟩, id, id⟩

theorem HartUndisturbed.trans {a b c : Hart} (h : HartUndisturbed a b) (k : HartUndisturbed b c) : HartUndisturbed a c :=
  ⟨registersKept_trans h.registers k.registers, k.free ∘ h.free, k.unheld ∘ h.unheld⟩

/-- Nothing that runs is disturbed, and the departure tables stand as they were. -/
structure Undisturbed (s t : State) : Prop where
  harts : ∀ h, HartUndisturbed (s.hart h) (t.hart h)
  dep : ∀ g, (t.core g).dep = (s.core g).dep ∧ (t.core g).depgrace = (s.core g).depgrace
  time : t.time = s.time

theorem Undisturbed.refl (s : State) : Undisturbed s s := ⟨fun _ => .refl _, fun _ => ⟨rfl, rfl⟩, rfl⟩

theorem Undisturbed.trans {s t u : State} (a : Undisturbed s t) (b : Undisturbed t u) : Undisturbed s u :=
  ⟨fun h => (a.harts h).trans (b.harts h), fun g => ⟨(b.dep g).1.trans (a.dep g).1, (b.dep g).2.trans (a.dep g).2⟩, b.time.trans a.time⟩

theorem Undisturbed.after {s t u : State} (b : Undisturbed t u) (a : Undisturbed s t) : Undisturbed s u := a.trans b

theorem undisturbed_of_same {s t : State} (hh : t.harts = s.harts) (hc : t.cores = s.cores) (ht : t.time = s.time) : Undisturbed s t :=
  ⟨fun h => by rw [State.hart, State.hart, hh]; exact .refl _, fun g => by rw [State.core, State.core, hc]; exact ⟨rfl, rfl⟩, ht⟩

theorem undisturbed_setHart {s : State} {r : Nat} {a : Hart} (ha : HartUndisturbed (s.hart r) a) : Undisturbed s (s.setHart r a) := by
  refine ⟨fun h => ?_, fun g => ⟨rfl, rfl⟩, rfl⟩
  by_cases hr : h = r
  · subst hr; rw [State.hart_setHart]; exact ha
  · rw [State.hart_setHart_ne _ _ hr]; exact .refl _

theorem undisturbed_setCore {s : State} {g : Nat} {k : Core} (hd : k.dep = (s.core g).dep) (hg : k.depgrace = (s.core g).depgrace) :
    Undisturbed s (s.setCore g k) := by
  refine ⟨fun h => .refl _, fun c => ?_, rfl⟩
  by_cases hc : c = g
  · subst hc; rw [State.core_setCore]; exact ⟨hd, hg⟩
  · rw [State.core_setCore_ne _ _ hc]; exact ⟨rfl, rfl⟩

theorem undisturbed_foldl {α : Type} {f : State → α → State} (hf : ∀ s x, Undisturbed s (f s x)) (l : List α) (s : State) :
    Undisturbed s (l.foldl f s) := by
  induction l generalizing s with
  | nil => exact .refl s
  | cons x l ih => exact (hf s x).trans (ih (f s x))

theorem undisturbed_ite {s t u : State} {c : Prop} [Decidable c] (a : Undisturbed s t) (b : Undisturbed s u) :
    Undisturbed s (if c then t else u) := by
  split
  · exact a
  · exact b

/-- The room of a departure table depends on it, on its grace and on the time. -/
theorem depRoom_congr {s t : State} (e : Undisturbed s t) (g : Nat) : depRoom t g = depRoom s g := by
  have hat : ∀ i, (t.core g).depAt i = (s.core g).depAt i := fun i => by rw [Core.depAt, Core.depAt, (e.dep g).1]
  have hgrace : (t.core g).grace = (s.core g).grace := by rw [Core.grace, Core.grace, (e.dep g).2]
  simp only [depRoom, depLive, depExpired, oldestDep, hat, hgrace, e.time]

/-! ### Performed stores and windows that end -/

theorem storeHome_undisturbed (s : State) (sm : Option Nat) (pa : Nat) (bs : List Byte) : Undisturbed s (storeHome s sm pa bs) :=
  undisturbed_of_same rfl rfl rfl

theorem withMs_undisturbed (s : State) (m : MemSys) : Undisturbed s { s with ms := m } := undisturbed_of_same rfl rfl rfl

theorem withLch_undisturbed (s : State) (l : LaunchSys) : Undisturbed s { s with lch := l } := undisturbed_of_same rfl rfl rfl

theorem saveWrite_undisturbed (s : State) (p : Nat) (bs : List Byte) : Undisturbed s (saveWrite s p bs) :=
  undisturbed_foldl (fun s _ => undisturbed_ite (storeHome_undisturbed ..) (.refl s)) _ s

theorem writeRange_undisturbed (s : State) (sm : Option Nat) (pa : Nat) (bs : List Byte) : Undisturbed s (writeRange s sm pa bs) :=
  undisturbed_foldl (fun s _ => storeHome_undisturbed s ..) _ s

theorem signStore_undisturbed (s : State) (k : Option (Nat × Bool)) (va : Word) (bs : List Byte) : Undisturbed s (signStore s k va bs) := by
  rw [signStore_eq]
  exact undisturbed_of_same rfl rfl rfl

theorem onThread_undisturbed (s : State) (h : Nat) (tag : BitVec 16) {f : Hart → Hart} (hf : ∀ a, HartUndisturbed a (f a)) :
    Undisturbed s (onThread s h tag f) := by
  unfold onThread
  split
  · exact undisturbed_setHart (hf _)
  · exact undisturbed_ite (undisturbed_setHart (hf _)) (undisturbed_of_same rfl rfl rfl)
  · exact .refl s

theorem hartUndisturbed_count (a : Hart) (c n : Nat) : HartUndisturbed a (a.count c n) := by
  rw [Hart.count_frame]
  exact ⟨⟨rfl, rfl, rfl, rfl, rfl, rfl, rfl, rfl⟩, id, id⟩

theorem countAt_undisturbed (s : State) (h : Nat) (tag : BitVec 16) (code n : Nat) : Undisturbed s (countAt s h tag code n) := by
  unfold countAt
  split
  · exact .refl s
  · split
    · exact undisturbed_setHart (hartUndisturbed_count ..)
    · exact undisturbed_foldl (fun s k => undisturbed_ite (saveWrite_undisturbed ..) (.refl s)) _ s
    · exact .refl s

theorem lowerUnack_undisturbed (s : State) (h : Nat) (tag : BitVec 16) : Undisturbed s (lowerUnack s h tag) := by
  unfold lowerUnack
  split
  · exact undisturbed_setHart ⟨⟨rfl, rfl, rfl, rfl, rfl, rfl, rfl, rfl⟩, id, id⟩
  · exact saveWrite_undisturbed ..
  · exact .refl s

theorem shadowWrite_undisturbed (s : State) (l : Nat) (b : Bool) (va : Word) (pa : Nat) (bs : List Byte) :
    Undisturbed s (shadowWrite s l b va pa bs) :=
  (signStore_undisturbed ..).after (withMs_undisturbed s _)

theorem storeOwned_undisturbed (s : State) (sm : Option Nat) (holder pa : Nat) (bs : List Byte) :
    Undisturbed s (storeOwned s sm holder pa bs) := undisturbed_of_same rfl rfl rfl

theorem performAt_undisturbed (s : State) (st : Store) : Undisturbed s (performAt s st) := by
  have noted : ∀ s h tag pa, Undisturbed s (noteWritten s h tag pa) := fun s h tag pa =>
    onThread_undisturbed s h tag fun _ => ⟨⟨rfl, rfl, rfl, rfl, rfl, rfl, rfl, rfl⟩, id, id⟩
  unfold performAt
  split
  · exact ((withMs_undisturbed s _).trans (signStore_undisturbed ..)).trans (lowerUnack_undisturbed ..)
  · exact (countAt_undisturbed ..).after (shadowWrite_undisturbed ..)
  · split
    · exact (countAt_undisturbed ..).after ((noted ..).after (storeOwned_undisturbed ..))
    · exact ((storeHome_undisturbed ..).trans (withMs_undisturbed ..)).trans (countAt_undisturbed ..)
    · exact .refl s
    · exact undisturbed_of_same rfl rfl rfl

theorem performOne_undisturbed (s : State) (st : Store) : Undisturbed s (performOne s st) :=
  (withMs_undisturbed s _).trans (performAt_undisturbed _ st)

theorem performStore_undisturbed (s : State) (id : Nat) : Undisturbed s (performStore s id) := by
  unfold performStore
  split
  · exact .refl s
  · exact (undisturbed_foldl performOne_undisturbed _ s).trans (performOne_undisturbed ..)

theorem closeWindow_undisturbed (s : State) (h k : Nat) : Undisturbed s (closeWindow s h k) := by
  have unit : ∀ s off, Undisturbed s (keepUnit s h k off) := fun s off => by
    unfold keepUnit
    dsimp only
    split
    · exact .refl s
    · exact withMs_undisturbed ..
  unfold closeWindow
  dsimp only
  split
  · exact (undisturbed_foldl (fun s u => unit s _) _ s).trans (withMs_undisturbed ..)
  · exact .refl s

theorem endWindow_undisturbed (s : State) (h k : Nat) : Undisturbed s (endWindow s h k) :=
  (closeWindow_undisturbed ..).after (undisturbed_foldl (fun s (st : Store) => performStore_undisturbed s st.id) _ s)

theorem endWindows_undisturbed (s : State) (h : Nat) : Undisturbed s (endWindows s h) :=
  undisturbed_foldl (fun s k => endWindow_undisturbed s h k) _ s

/-! ### Events set on their way -/

theorem fly_undisturbed (s : State) (e : Event) : Undisturbed s (s.fly e) := undisturbed_of_same rfl rfl rfl

theorem flyIf_undisturbed (s : State) (c : Bool) (e : Event) : Undisturbed s (if c then s.fly e else s) :=
  undisturbed_ite (fly_undisturbed s e) (.refl s)

theorem kickDispatch_undisturbed (s : State) (g : Nat) : Undisturbed s (kickDispatch s g) := flyIf_undisturbed ..
theorem kickReturned_undisturbed (s : State) (g : Nat) : Undisturbed s (kickReturned s g) := flyIf_undisturbed ..

theorem kickLaunch_undisturbed (s : State) (l : Nat) : Undisturbed s (kickLaunch s l) := by
  unfold kickLaunch
  split
  · exact .refl s
  · exact undisturbed_foldl (fun s _ => flyIf_undisturbed s ..) _ s

theorem kickStarts_undisturbed (s : State) : Undisturbed s (kickStarts s) := undisturbed_foldl kickLaunch_undisturbed _ s

theorem kickLanding_undisturbed (s : State) (g : Nat) : Undisturbed s (kickLanding s g) := by
  unfold kickLanding
  dsimp only
  split
  · split
    · exact (fly_undisturbed ..).after (undisturbed_setCore rfl rfl)
    · exact .refl s
  · exact .refl s

theorem kickCopy_undisturbed (s : State) (g q : Nat) : Undisturbed s (kickCopy s g q) := by
  unfold kickCopy
  split
  · exact .refl s
  · exact flyIf_undisturbed ..

theorem kickMhead_undisturbed (s : State) (g : Nat) : Undisturbed s (kickMhead s g) := by
  unfold kickMhead
  split
  · exact .refl s
  · exact undisturbed_ite (undisturbed_ite (flyIf_undisturbed ..) (.refl s)) (flyIf_undisturbed ..)

theorem drainFront_undisturbed (s : State) (g n : Nat) : Undisturbed s (drainFront s g n) := by
  induction n generalizing s with
  | zero => exact .refl s
  | succ n ih =>
    unfold drainFront
    dsimp only
    split
    · exact .refl s
    · split
      · exact (ih _).after ((kickCopy_undisturbed ..).after (undisturbed_setCore rfl rfl))
      · exact .refl s

theorem sendPut_undisturbed (s : State) (p : Put) : Undisturbed s (sendPut s p) := by
  rw [sendPut_eq]
  exact undisturbed_of_same rfl rfl rfl

/-! ### The end of a copy -/

theorem finishCopy_undisturbed (s : State) (g q : Nat) (c : Cmd) (code : Nat) : Undisturbed s (finishCopy s g q c code) :=
  (kickCopy_undisturbed ..).after ((drainFront_undisturbed ..).after ((fly_undisturbed ..).after (undisturbed_setCore rfl rfl)))

theorem pureCopyDone_undisturbed (s : State) (c : Cmd) : Undisturbed s (pureCopyDone s c) := by
  unfold pureCopyDone
  split
  · split
    · split
      · exact undisturbed_setHart ⟨⟨rfl, rfl, rfl, rfl, rfl, rfl, rfl, rfl⟩, id, id⟩
      · exact .refl s
    · exact .refl s
  · exact .refl s

/-- A command whose piece met no fault goes on or ends. -/
theorem afterPiece_more_undisturbed (s : State) (g q : Nat) (c : Cmd) : Undisturbed s (afterPiece g q (s, c, .more)) := by
  unfold afterPiece
  dsimp only
  split
  · exact (pureCopyDone_undisturbed s c).trans (finishCopy_undisturbed ..)
  · exact (kickCopy_undisturbed ..).after (undisturbed_setCore rfl rfl)

theorem landingDone_undisturbed (s : State) (from_ : Nat × Nat) : Undisturbed s (landingDone s from_) := by
  unfold landingDone
  split
  · exact undisturbed_ite (afterPiece_more_undisturbed ..) (.refl s)
  · exact .refl s

/-! ### The end of a launch -/

theorem dropCommands_undisturbed (l : Nat) (s : State) (g : Nat) : Undisturbed s (dropCommands l s g) := by
  unfold dropCommands
  dsimp only
  split
  · exact .refl s
  · exact (drainFront_undisturbed ..).after ((undisturbed_foldl (fun s q => kickCopy_undisturbed s g q) _ _).after
      ((kickMhead_undisturbed ..).after (undisturbed_setCore rfl rfl)))

/-- Cores changed by a function that leaves their departure tables. -/
theorem mapCores_undisturbed {s t : State} {f : Core → Core} (hh : t.harts = s.harts) (ht : t.time = s.time)
    (hc : t.cores = Table.mapVals s.cores fun _ k => f k) (h0 : f Core.reset = Core.reset)
    (hf : ∀ k, (f k).dep = k.dep ∧ (f k).depgrace = k.depgrace) : Undisturbed s t := by
  refine ⟨fun h => by rw [State.hart, State.hart, hh]; exact .refl _, fun g => ?_, ht⟩
  have mapped : t.core g = f (s.core g) := by
    rw [State.core, hc]
    exact Table.get_mapVals h0 _
  rw [mapped]
  exact hf _

theorem dropWork_undisturbed (s : State) (l : Nat) : Undisturbed s (dropWork s l) := by
  unfold dropWork
  refine Undisturbed.trans ?_ (undisturbed_foldl (dropCommands_undisturbed l) _ _)
  exact mapCores_undisturbed (f := fun k => { k with sidelog := k.sidelog.filter fun e => !ofLaunch l e.shadow }) rfl rfl rfl rfl
    fun _ => ⟨rfl, rfl⟩

theorem dropShadows_undisturbed (s : State) (a : Launch) : Undisturbed s (dropShadows s a) :=
  (dropWork_undisturbed s a.id).trans (undisturbed_of_same rfl rfl rfl)

theorem engPoison_mem_undisturbed (s : State) (pa : Nat) (sm : Option Nat) (nc : Bool) (holder : Nat) (rm : Bool) :
    Undisturbed s (engPoison s (.mem pa sm nc holder rm)).1 := by
  unfold engPoison
  dsimp only
  split
  · exact storeHome_undisturbed ..
  · exact (storeHome_undisturbed ..).trans (withMs_undisturbed ..)

theorem commitShadows_undisturbed (s : State) (a : Launch) : Undisturbed s (commitShadows s a) :=
  (((undisturbed_foldl (fun s _ => storeHome_undisturbed s ..) _ s).trans
    (undisturbed_foldl (fun s _ => engPoison_mem_undisturbed s ..) _ _)).trans (dropShadows_undisturbed ..)).trans (withMs_undisturbed ..)

theorem reportStatus_undisturbed (s : State) (d : StatusTo) (code : Nat) : Undisturbed s (reportStatus s d code) := by
  unfold reportStatus
  split
  · exact fly_undisturbed ..
  · exact undisturbed_ite (writeRange_undisturbed ..) (.refl s)
  · exact sendPut_undisturbed ..
  · exact .refl s

theorem unarm_undisturbed (s : State) (r : LaunchRec) : Undisturbed s (unarm s r) := by
  unfold unarm
  split
  · split
    · exact undisturbed_of_same rfl rfl rfl
    · exact .refl s
  · exact .refl s

/-- Harts changed by a function that disturbs none. -/
theorem mapHarts_undisturbed {s t : State} {f : Hart → Hart} (hh : t.harts = Table.mapVals s.harts fun _ a => f a)
    (hc : t.cores = s.cores) (ht : t.time = s.time) (h0 : f Hart.reset = Hart.reset) (hf : ∀ a, HartUndisturbed a (f a)) :
    Undisturbed s t := by
  refine ⟨fun h => ?_, fun g => by rw [State.core, State.core, hc]; exact ⟨rfl, rfl⟩, ht⟩
  have mapped : t.hart h = f (s.hart h) := by
    rw [State.hart, hh]
    exact Table.get_mapVals h0 _
  rw [mapped]
  exact hf _

/-- R89: a hart that a launch no longer waits for or reserves. -/
theorem releaseHart_undisturbed (a : Hart) (l : Nat) : HartUndisturbed a
    (let h := if a.heldFor = some l then { a with heldFor := none } else a
     if h.slot = .reserved l then { h with slot := .free } else h) := by
  have unheld : HartUndisturbed a (if a.heldFor = some l then { a with heldFor := none } else a) := by
    split
    · exact ⟨⟨rfl, rfl, rfl, rfl, rfl, rfl, rfl, rfl⟩, id, fun _ => rfl⟩
    · exact .refl a
  have unreserved : ∀ b : Hart, HartUndisturbed b (if b.slot = .reserved l then { b with slot := .free } else b) := fun b => by
    split
    · exact ⟨⟨rfl, rfl, rfl, rfl, rfl, rfl, rfl, rfl⟩, fun _ => rfl, id⟩
    · exact .refl b
  exact unheld.trans (unreserved _)

theorem closeLaunch_undisturbed (s : State) (a : Launch) (code : Nat) : Undisturbed s (closeLaunch s a code) := by
  unfold closeLaunch
  refine Undisturbed.trans ?_ (kickStarts_undisturbed _)
  refine Undisturbed.trans ?_ (reportStatus_undisturbed ..)
  refine Undisturbed.trans ?_ (unarm_undisturbed ..)
  exact mapHarts_undisturbed (s := s) rfl rfl rfl rfl fun h => releaseHart_undisturbed h a.id

theorem rerun_undisturbed (s : State) (a : Launch) : Undisturbed s (rerun s a) :=
  (kickLaunch_undisturbed ..).after ((withLch_undisturbed ..).after (dropShadows_undisturbed s a))

theorem launchDone_undisturbed (s : State) (a : Launch) : Undisturbed s (launchDone s a) := by
  unfold launchDone
  split
  · exact closeLaunch_undisturbed ..
  · exact undisturbed_ite ((commitShadows_undisturbed ..).trans (closeLaunch_undisturbed ..))
      (undisturbed_ite ((dropShadows_undisturbed ..).trans (closeLaunch_undisturbed ..)) (rerun_undisturbed ..))

theorem threadEnded_undisturbed (s : State) (l n : Nat) : Undisturbed s (threadEnded s l n) := by
  unfold threadEnded
  split
  · exact .refl s
  · dsimp only
    split
    · exact (launchDone_undisturbed ..).after (undisturbed_of_same rfl rfl rfl)
    · exact undisturbed_of_same rfl rfl rfl

/-! ### A freed slot -/

theorem freedHart_slot {a : Hart} (h : a.heldFor = none) : (freedHart a).slot = .free := by
  unfold freedHart
  simp only [h]
  split <;> rfl

theorem freeSlot_hart (s : State) (h : Nat) : (freeSlot s h).hart h = freedHart (s.hart h) := State.hart_setHart s h _

theorem freeSlot_hart_ne (s : State) {h k : Nat} (ne : k ≠ h) : (freeSlot s h).hart k = s.hart k := State.hart_setHart_ne s _ ne

theorem freeSlot_dep (s : State) (h g : Nat) : ((freeSlot s h).core g).dep = (s.core g).dep := by
  unfold freeSlot settleRole
  by_cases hg : g = h / 8
  · subst hg
    rw [State.core_setCore]
    rfl
  · rw [State.core_setCore_ne _ _ hg]
    rfl

/-- R36: the entry that a new one takes holds it. -/
theorem addDep_depAt {s : State} {g i : Nat} (h : depRoom s g = some i) (e : Dep) : ((addDep s g e).core g).depAt i = e := by
  simp only [addDep, h, setDep, Core.depAt, State.core_setCore, Table.get_set_self]

theorem addDep_hart (s : State) (g : Nat) (e : Dep) (h : Nat) : (addDep s g e).hart h = s.hart h := by
  unfold addDep
  split <;> rfl

/-- The slot of a hart is freed between changes that disturb nothing. -/
theorem freed_between {s u t : State} {h : Nat} (before : ∀ k, HartUndisturbed (s.hart k) (u.hart k)) (after : Undisturbed (freeSlot u h) t)
    (unheld : (s.hart h).heldFor = none) : (t.hart h).slot = .free ∧ ∀ k, k ≠ h → RegistersKept (s.hart k) (t.hart k) := by
  constructor
  · refine (after.harts h).free ?_
    rw [freeSlot_hart]
    exact freedHart_slot ((before h).unheld unheld)
  · intro k ne
    have kept := (after.harts k).registers
    rw [freeSlot_hart_ne u ne] at kept
    exact registersKept_trans (before k).registers kept

/-! ### The end of a thread -/

/-- R34, R51: the exited entry of a thread that ends. -/
def exitedEntry (s : State) (h : Nat) : Dep := ⟨s.time.setWidth 32, 3, h % 8, (s.hart h).tag, 0, false, 0⟩

theorem endThread_undisturbed (s : State) (h : Nat) :
    Undisturbed (freeSlot (addDep (endWindows s h) (h / 8) (exitedEntry s h)) h) (endThread s h) := by
  have entry : exitedEntry s h = ⟨(endWindows s h).time.setWidth 32, 3, h % 8, (s.hart h).tag, 0, false, 0⟩ := by
    rw [(endWindows_undisturbed s h).time]; rfl
  rw [entry]
  refine (kickDispatch_undisturbed ..).after ((kickStarts_undisturbed _).after ?_)
  split
  · exact threadEnded_undisturbed ..
  · exact .refl _

/-- R51, R75: a thread that ends frees its hart, with an exited entry where there is room, and touches no other hart's registers. -/
theorem endThread_ends {s : State} {h : Nat} (unheld : (s.hart h).heldFor = none) :
    ((endThread s h).hart h).slot = .free ∧ (∀ k, k ≠ h → RegistersKept (s.hart k) ((endThread s h).hart k)) ∧
      ∀ i, depRoom s (h / 8) = some i → ((endThread s h).core (h / 8)).depAt i = exitedEntry s h := by
  have windows := endWindows_undisturbed s h
  have after := endThread_undisturbed s h
  obtain ⟨free, others⟩ := freed_between (fun k => by rw [addDep_hart]; exact windows.harts k) after unheld
  refine ⟨free, others, fun i room => ?_⟩
  have room' : depRoom (endWindows s h) (h / 8) = some i := (depRoom_congr windows _).trans room
  rw [Core.depAt, (after.dep (h / 8)).1, freeSlot_dep]
  exact addDep_depAt room' _

/-! ### The end of an activation -/

theorem freeActivation_ends {s : State} {h : Nat} (unheld : (s.hart h).heldFor = none) :
    ((freeActivation s h).hart h).slot = .free ∧ ∀ k, k ≠ h → RegistersKept (s.hart k) ((freeActivation s h).hart k) :=
  freed_between (endWindows_undisturbed s h).harts ((kickReturned_undisturbed ..).after (kickDispatch_undisturbed ..)) unheld

theorem endLanding_ends {s : State} {h : Nat} (unheld : (s.hart h).heldFor = none) :
    ((endLanding s h).hart h).slot = .free ∧ ∀ k, k ≠ h → RegistersKept (s.hart k) ((endLanding s h).hart k) :=
  freed_between (endWindows_undisturbed s h).harts
    ((kickLanding_undisturbed ..).after ((landingDone_undisturbed ..).after ((kickReturned_undisturbed ..).after (kickDispatch_undisturbed ..))))
    unheld

theorem popOwn_undisturbed (s : State) (h : Nat) : Undisturbed s (popOwn s h) := by
  unfold popOwn
  dsimp only
  split
  · split
    · exact .refl s
    · refine Undisturbed.after (undisturbed_setHart ?_) (undisturbed_setCore rfl rfl)
      exact ⟨⟨rfl, rfl, rfl, rfl, rfl, rfl, rfl, rfl⟩, id, id⟩
  · exact .refl s

theorem popOwn_abuf (s : State) (h : Nat) : ((popOwn s h).hart h).abuf = (s.hart h).abuf := by
  unfold popOwn
  dsimp only
  split
  · split
    · rfl
    · rw [State.hart_setHart]
  · rfl

theorem popOwn_cur (s : State) (h : Nat) : (popOwn s h).cur = s.cur := by
  unfold popOwn
  dsimp only
  split
  · split <;> rfl
  · rfl

theorem leaveSlotOf_undisturbed (s : State) (h : Nat) : Undisturbed s (leaveSlotOf s h) := by
  unfold leaveSlotOf
  refine (undisturbed_setHart ?_).after (popOwn_undisturbed s h)
  exact ⟨⟨rfl, rfl, rfl, rfl, rfl, rfl, rfl, rfl⟩, id, id⟩

theorem leaveSlotOf_abuf (s : State) (h : Nat) : ((leaveSlotOf s h).hart h).abuf = (s.hart h).abuf := by
  unfold leaveSlotOf
  rw [State.hart_setHart]
  exact popOwn_abuf s h

theorem flush_empty {s : State} (h : s.me.abuf = []) (final : Bool) : flush s final = .ok (s.setMe { s.me with abuf := [] }) := by
  unfold flush
  dsimp only
  rw [h]
  rfl

/-- R173: the end of an activation that has nothing outstanding and nothing in its buffer. -/
theorem endActivation_ok {s : State} (unack : s.me.unack = 0) (pure : Impure s) (buffer : s.me.abuf = []) :
    ∃ v, Undisturbed s v ∧ v.cur = s.cur ∧
      (endActivation s = .ok (endLanding v v.cur) ∨ endActivation s = .ok (freeActivation v v.cur)) := by
  let u := leaveSlotOf s s.cur
  have cur : u.cur = s.cur := popOwn_cur s s.cur
  have empty : u.me.abuf = [] := by
    rw [State.me, cur]
    exact (leaveSlotOf_abuf s s.cur).trans buffer
  have flushed := flush_empty empty true
  have emptied : Undisturbed u (u.setMe { u.me with abuf := [] }) :=
    undisturbed_setHart ⟨⟨rfl, rfl, rfl, rfl, rfl, rfl, rfl, rfl⟩, id, id⟩
  have still : (u.setMe { u.me with abuf := [] }).cur = s.cur := cur
  generalize u.setMe { u.me with abuf := [] } = v at flushed emptied still
  refine ⟨v, emptied.after (leaveSlotOf_undisturbed s s.cur), still, ?_⟩
  have settled : check (s.me.unack == 0) (.wait .leave) = .ok () := by rw [unack]; rfl
  simp only [endActivation, settled, bind_ok, show s.me.pure = none from pure, flushed, u]
  split
  · exact .inl rfl
  · exact .inr rfl

/-- R173: the activation's hart is free then, and no other hart's registers are touched. -/
theorem endActivation_ends {s : State} (unack : s.me.unack = 0) (unheld : s.me.heldFor = none) (pure : Impure s)
    (buffer : s.me.abuf = []) : ∃ t, endActivation s = .ok t ∧ (t.hart s.cur).slot = .free ∧
      ∀ k, k ≠ s.cur → RegistersKept (s.hart k) (t.hart k) := by
  obtain ⟨v, before, cur, ended⟩ := endActivation_ok unack pure buffer
  have unheld' : (v.hart s.cur).heldFor = none := (before.harts s.cur).unheld unheld
  rw [cur] at ended
  obtain ended | ended := ended
  · obtain ⟨free, others⟩ := endLanding_ends unheld'
    exact ⟨_, ended, free, fun k ne => registersKept_trans (before.harts k).registers (others k ne)⟩
  · obtain ⟨free, others⟩ := freeActivation_ends unheld'
    exact ⟨_, ended, free, fun k ne => registersKept_trans (before.harts k).registers (others k ne)⟩

end Sys2Proof.Machine
end

section
/-! SUPPORT. System calls, returns and the ends of threads and activations (R71 to R75, R173), and O22. -/

namespace Sys2Proof.Machine
open Sys2Proof.Safety

/-! ### SYSCALL, BRK and TRET -/

theorem exec_syscall_traps {s : State} (h : Impure s) : exec .syscall s = .next (takeTrap s s.cur 0x13 0 false) := by
  rw [exec_syscall, execSyscall, noPure_ok h, bind_ok, finish_error, stopped_trap h]
  rfl

theorem exec_brk_traps {s : State} (h : Impure s) : exec .brk s = .next (takeTrap s s.cur 0x14 0 false) := by
  rw [exec_brk, execBrk, noPure_ok h, bind_ok, finish_error, stopped_trap h]
  rfl

theorem leaveStatus_eq (w : Word) : leaveStatus w = (w &&& ~~~0x10#64) ||| (if w.getLsbD 5 then 0x10#64 else 0#64) := by
  unfold leaveStatus withField
  split <;> rfl

theorem leaveUdeleg_eq (w : Word) : withField w 63 63 (if w.getLsbD 62 then 1 else 0) =
    (w &&& ~~~0x8000000000000000#64) ||| ((w &&& 0x4000000000000000#64) <<< 1) := by
  have moved : (w &&& 0x4000000000000000#64) <<< 1 = if w.getLsbD 62 then 0x8000000000000000#64 else 0#64 := by
    apply BitVec.eq_of_getLsbD_eq
    intro i hi
    have bit62 : (0x4000000000000000#64).getLsbD (i - 1) = decide (i - 1 = 62) := by
      rw [show (0x4000000000000000#64) = BitVec.twoPow 64 62 from rfl, BitVec.getLsbD_twoPow]
      simp
      omega
    have bit63 : (0x8000000000000000#64).getLsbD i = decide (i = 63) := by
      rw [show (0x8000000000000000#64) = BitVec.twoPow 64 63 from rfl, BitVec.getLsbD_twoPow]
      simp [eq_comm]
    rw [BitVec.getLsbD_shiftLeft, BitVec.getLsbD_and, bit62]
    by_cases h63 : i = 63
    · subst h63; cases w.getLsbD 62 <;> simp
    · have : ¬ (1 ≤ i ∧ i - 1 = 62) := by omega
      cases w.getLsbD 62 <;> simp [bit63, h63]
  rw [moved]
  unfold withField
  split <;> rfl

theorem fieldOf_low_two (w : Word) : fieldOf w 1 0 = w.toNat % 4 := rfl

theorem ofCode_fieldOf_bit (w : Word) : Mode.ofCode (fieldOf w 0 0) = if w.getLsbD 0 then .s else .u := by
  have low : fieldOf w 0 0 = w.toNat % 2 := rfl
  have bit : w.getLsbD 0 = decide (w.toNat % 2 = 1) := by simp [BitVec.getLsbD, Nat.testBit_zero]
  rw [low, bit]
  obtain h | h := Nat.mod_two_eq_zero_or_one w.toNat <;> rw [h] <;> rfl

/-- R72: the return from the trap registers of the hart's mode. -/
theorem leave_eq (a : Hart) : a.leave = match a.mode with
    | .u => { a with pc := a.uepc, udeleg := (a.udeleg &&& ~~~0x8000000000000000#64) ||| ((a.udeleg &&& 0x4000000000000000#64) <<< 1) }
    | .s => { a with pc := a.sregs.epc, status := (a.status &&& ~~~0x10#64) ||| (if a.status.getLsbD 5 then 0x10#64 else 0#64)
                     mode := if a.status.getLsbD 0 then .s else .u }
    | .h => { a with pc := a.hregs.epc, hstatus := (a.hstatus &&& ~~~0x10#64) ||| (if a.hstatus.getLsbD 5 then 0x10#64 else 0#64)
                     mode := Mode.ofCode (a.hstatus.toNat % 4) }
    | .m => { a with pc := a.mregs.epc, mstatus := (a.mstatus &&& ~~~0x10#64) ||| (if a.mstatus.getLsbD 5 then 0x10#64 else 0#64)
                     mode := Mode.ofCode (a.mstatus.toNat % 4) } := by
  unfold Hart.leave
  cases a.mode <;> simp only [leaveUdeleg_eq, leaveStatus_eq, fieldOf_low_two, ofCode_fieldOf_bit]

theorem leave_pmc (a : Hart) : a.leave.pmc = a.pmc ∧ a.leave.pmsel = a.pmsel := by
  unfold Hart.leave
  cases a.mode <;> exact ⟨rfl, rfl⟩

theorem exec_tret_leaves {s : State} (h : Impure s) : exec .tret s = .next (s.setMe (s.me.leave.jump s.me.leave.pc)) := by
  rw [exec_tret, execTret, noPure_ok h, bind_ok, finish_ok]

/-! ### IDLE and YIELD -/

/-- A hart changed and past its instruction passes the state with the change. -/
theorem passes_step4_setMe (s : State) (f : Hart → Hart) : Passes (s.setMe (f s.me)) (s.step4 f) := passes_setMe_retire s (f s.me)

theorem exec_idle_passes (s : State) : ∃ t, exec .idle s = .next t ∧ Passes (s.setMe { s.me with idle := !s.me.isActivation }) t :=
  ⟨_, rfl, passes_step4_setMe s Hart.sleep⟩

theorem exec_yield_passes (s : State) : ∃ t, exec .yield s = .next t ∧ Passes (s.setMe { s.me with yielded := s.me.pure.isNone }) t :=
  ⟨_, rfl, passes_step4_setMe s fun a => { a with yielded := a.pure.isNone }⟩

/-! ### EXIT and HEND -/

theorem exec_exit_waits {s : State} (h : s.me.unack ≠ 0) : exec .exit s = .next (s.setMe { s.me with stall := some .leave }) := by
  have waits : check (s.me.unack == 0) (.wait .leave) = .error (.wait .leave) := by
    rw [show (s.me.unack == 0) = false from beq_false_of_ne h]
    rfl
  rw [exec_exit, execExit, endOccupant]
  split
  · simp only [endActivation, waits, bind_error, finish_error]
    rfl
  · simp only [leaveThread, waits, bind_error, finish_error]
    rfl

/-- R51, R75: a thread that waits for nothing leaves. -/
theorem exec_exit_thread {s : State} (unack : s.me.unack = 0) (slot : s.me.slot = .thread) (refusal : s.me.refusal = false)
    (released : needReleased s = .ok ()) : exec .exit s = .next (endThread s s.cur) := by
  have occupant : s.me.isActivation = false := by rw [Hart.isActivation, slot]
  have settled : check (s.me.unack == 0) (.wait .leave) = .ok () := by rw [unack]; rfl
  have heard : check (!s.me.refusal) (.wait .other) = .ok () := by rw [refusal]; rfl
  rw [exec_exit, execExit, endOccupant, occupant]
  simp only [Bool.false_eq_true, if_false, leaveThread, settled, heard, released, bind_ok, finish_ok]

theorem exec_exit_activation {s : State} (h : s.me.isActivation = true) : exec .exit s = finish s (endActivation s) := by
  rw [exec_exit, execExit, endOccupant, if_pos h]

/-- Settles O22: TRET by the trap registers of each mode (`leave_eq`); the ends of a thread and of an activation by what comes before and
after their slot is freed, which disturbs nothing (`endThread_ends`, `endActivation_ends`). -/
theorem systemForms : Obligations.SystemForms := by
  unfold Obligations.SystemForms
  refine ⟨fun s pure => ⟨exec_syscall_traps pure, exec_brk_traps pure⟩, ?tret, fun s => ⟨exec_idle_passes s, exec_yield_passes s⟩, ?ends⟩
  case tret =>
    intro s pure a back even
    refine ⟨_, exec_tret_leaves pure, othersKept_setMe s _, ?_, ?_⟩
    · rw [State.me_setMe]
      exact counted_jump _ (leave_pmc a).1 (leave_pmc a).2
    · rw [State.me_setMe, Hart.jump_eq, Hart.jump_pc]
      have left := leave_eq a
      generalize (s.me.leave.jump s.me.leave.pc).pmc = counters
      cases hm : a.mode <;> rw [hm] at left <;> dsimp only at left ⊢ <;> rw [show s.me.leave = _ from left]
  case ends =>
    intro s ends
    refine ⟨rfl, exec_exit_waits, fun unack unheld slot refusal released => ?_, fun unack unheld activation pure buffer => ?_⟩
    · obtain ⟨free, others, entry⟩ := endThread_ends unheld
      exact ⟨_, exec_exit_thread unack slot refusal released, ⟨free, others⟩, entry⟩
    · obtain ⟨t, ended, left⟩ := endActivation_ends unack unheld pure buffer
      exact ⟨t, by rw [exec_exit_activation activation, ended, finish_ok], left⟩

end Sys2Proof.Machine
end

section
/-! SUPPORT. What arrives at a landing port, what an acknowledgement brings, and the events of stores, entries and signatures
(R36 to R47, R66, R97, R100, R163), and O48. -/

namespace Sys2Proof.Machine
open Sys2Proof.Safety

/-! ### Acknowledgements on their way -/

theorem sendAck_frame (s : State) (k : Ack) : sendAck s k = { s with fab := (sendAck s k).fab, flight := (sendAck s k).flight } := by
  unfold sendAck
  split
  · rfl
  · unfold sendPacket
    split
    · rfl
    · rw [emitPacket_eq]

theorem answer_frame (s : State) (p : Put) (code : Nat) :
    answer s p code = { s with fab := (answer s p code).fab, flight := (answer s p code).flight } := by
  unfold answer
  split
  · exact sendAck_frame ..
  · rfl

theorem answer_harts (s : State) (p : Put) (code : Nat) : (answer s p code).harts = s.harts := by rw [answer_frame]

theorem answer_hart (s : State) (p : Put) (code h : Nat) : (answer s p code).hart h = s.hart h := by rw [State.hart, answer_harts]; rfl

theorem answer_ms (s : State) (p : Put) (code : Nat) : (answer s p code).ms = s.ms := by rw [answer_frame]

/-- R39, R44: a put of this node is acknowledged. -/
theorem answer_flight {s : State} {p : Put} {d : Sender} (token : p.token = false) (sender : p.sender = some d)
    (here : d.node = s.plat.node.toNat) (code : Nat) : (answer s p code).flight = s.flight ++ [.ackArrival ⟨code, p.loc, d, 0⟩] := by
  have local_ : answer s p code = s.fly (.ackArrival ⟨code, p.loc, d, 0⟩) := by
    unfold answer
    rw [token, sender]
    exact if_pos here
  rw [local_]
  rfl

/-! ### Landed values -/

/-- R38, R41: what a landed value leaves of a hart: its register and ready bit, one more landing counted but for x0, the rest of the
registers and the PC as they were. -/
theorem land_spec (a : Hart) (p : Put) : let n : Reg := BitVec.ofNat 5 (locIdx p.loc)
    (p.wide = false → n ≠ 0#5 → (a.land p).rx n = p.val.setWidth 64 ∧ (a.land p).xok n = true) ∧
    (p.wide = true → (a.land p).rv n = p.val ∧ (a.land p).vok n = true) ∧
    (a.land p).landCnt = (if p.wide = false ∧ n = 0#5 then a.landCnt else a.landCnt + 1) ∧
    XKept a (a.land p) (if p.wide then [] else [n]) ∧ VKept a (a.land p) (if p.wide then [n] else []) ∧ (a.land p).pc = a.pc := by
  intro n
  obtain ⟨b, ⟨e, c, hb⟩, landed⟩ : ∃ b : Hart, (∃ e c, b = { a with engines := e, rclass := c }) ∧
      a.land p = if p.wide then { b.wv n p.val with landCnt := b.landCnt + 1, idle := false } else if n = 0#5 then b
        else { b.wx n (p.val.setWidth 64) with landCnt := b.landCnt + 1, idle := false } := by
    refine ⟨{ a.settle p with rclass := stickyOr a.rclass p.flags }, ?_, rfl⟩
    unfold Hart.settle
    split <;> exact ⟨_, _, rfl⟩
  rw [landed]
  have rx : ∀ r, b.rx r = a.rx r := fun r => by subst hb; rfl
  have xok : ∀ r, b.xok r = a.xok r := fun r => by subst hb; rfl
  have rv : ∀ r, b.rv r = a.rv r := fun r => by subst hb; rfl
  have vok : ∀ r, b.vok r = a.vok r := fun r => by subst hb; rfl
  have cnt : b.landCnt = a.landCnt := by subst hb; rfl
  have pc : b.pc = a.pc := by subst hb; rfl
  cases hw : p.wide with
  | true =>
    simp only [if_true]
    refine ⟨nofun, fun _ => ⟨Hart.rv_wv_self b n p.val, Hart.vok_wv_self b n p.val⟩, ?_, fun r _ => ⟨rx r, xok r⟩, fun r hr => ?_, pc⟩
    · simp [cnt]
    · have ne : r ≠ n := by simpa using hr
      exact ⟨(Hart.rv_wv_ne b p.val ne).trans (rv r), (Hart.vok_wv_ne b p.val ne).trans (vok r)⟩
  | false =>
    simp only [Bool.false_eq_true, if_false]
    split
    case isTrue hn =>
      refine ⟨fun _ ne => absurd hn ne, nofun, ?_, fun r _ => ⟨rx r, xok r⟩, fun r _ => ⟨rv r, vok r⟩, pc⟩
      rw [if_pos ⟨trivial, hn⟩, cnt]
    case isFalse hn =>
      refine ⟨fun _ _ => ⟨(Hart.rx_wx_self b n _).trans (if_neg hn), Hart.xok_wx_self b n (p.val.setWidth 64)⟩, nofun, ?_, fun r hr => ?_, fun r _ => ?_,
        (Hart.wx_pc ..).trans pc⟩
      · rw [if_neg fun h => hn h.2]
        exact congrArg (· + 1) cnt
      · have ne : r ≠ n := by simpa using hr
        exact ⟨(Hart.rx_wx_ne b _ ne).trans (rx r), (Hart.xok_wx_ne b _ ne).trans (xok r)⟩
      · exact ⟨(Hart.rv_congr (Hart.wx_v ..) r).trans (rv r), (Hart.vok_congr (Hart.wx_vready ..) r).trans (vok r)⟩

/-- R42: the signature of a landing changes the core's copies and the signature of its hart. -/
theorem landSig_spec (s : State) (h : Nat) (p : Put) :
    (landSig s h p).hart h = { s.hart h with sigCur := ((landSig s h p).hart h).sigCur } ∧
      (∀ k, k ≠ h → (landSig s h p).hart k = s.hart k) ∧
      (landSig s h p).ms.mem = s.ms.mem ∧ (landSig s h p).ms.stash = s.ms.stash ∧ (landSig s h p).flight = s.flight ∧
      (landSig s h p).plat = s.plat := by
  unfold landSig
  cases p.sig with
  | none => exact ⟨rfl, fun _ _ => rfl, rfl, rfl, rfl, rfl⟩
  | some g =>
    have memory : (acquireAs s (h / 8) g).ms.mem = s.ms.mem ∧ (acquireAs s (h / 8) g).ms.stash = s.ms.stash := by
      unfold acquireAs
      dsimp only
      split <;> exact ⟨rfl, rfl⟩
    refine ⟨?_, fun k ne => State.hart_setHart_ne _ _ ne, memory.1, memory.2, rfl, rfl⟩
    have landed : (applySig s (h / 8) h g).hart h = (s.hart h).inherit g := State.hart_setHart ..
    dsimp only
    rw [landed]
    rfl

theorem exec_putArrival_next {s : State} {p : Put} {r : List Event} (h : s.flight = .putArrival p :: r) :
    exec .putArrival s = .next (landPut { s with flight := r } p) := by
  rw [exec_putArrival, execPutArrival, h]

section
variable {s : State} {p : Put} {core : Nat} (hc : locCore p.loc = some core) (good : badLocator p = false) (kind : locKind p.loc ≠ 2)
include hc good kind

/-- R38: an arrival at a register whose thread stands in its slot. -/
theorem landPut_resident {h : Nat} (found : findSlot s core (locHart p.loc) (locTag p.loc) = .resident h) :
    landPut s p = answer ((landSig s h p).setHart h (((landSig s h p).hart h).land p)) p (writtenCode p 0) := by
  unfold landPut
  simp only [hc, good, Bool.false_eq_true, if_false, kind, found]

/-- R44: an arrival for a thread that has ended. -/
theorem landPut_exited (found : findSlot s core (locHart p.loc) (locTag p.loc) = .exited) : landPut s p = answer s p 3 := by
  unfold landPut
  simp only [hc, good, Bool.false_eq_true, if_false, kind, found]

/-- R44: an arrival with a tag that its slot never held. -/
theorem landPut_nothing (found : findSlot s core (locHart p.loc) (locTag p.loc) = .nothing) : landPut s p = answer s p 4 := by
  unfold landPut
  simp only [hc, good, Bool.false_eq_true, if_false, kind, found]

end

/-! ### Acknowledgements at their sender -/

theorem exec_ackArrival_next {s : State} {k : Ack} {r : List Event} (h : s.flight = .ackArrival k :: r) :
    exec .ackArrival s = .next (applyAck { s with flight := r } k) := by
  rw [exec_ackArrival, execAckArrival, h]

theorem applyAck_resident {s : State} {k : Ack} {h : Nat} (found : findSlot s k.dest.core k.dest.hart k.dest.tag = .resident h) :
    applyAck s k = s.setHart h ((s.hart h).ack k) := by
  unfold applyAck
  rw [found]

/-- R43, R45: the acknowledgement of a plain form that was done. -/
theorem ack_done {a : Hart} {k : Ack} (plain : k.dest.isStatus = false) (code : k.code = 0) :
    a.ack k = { a with unack := a.unack - 1, idle := false } := by
  unfold Hart.ack Hart.ackPlain
  simp only [plain, code, Bool.false_eq_true, if_false, if_true]

/-- R45: the first refusal of a plain form becomes pending. -/
theorem ack_refused {a : Hart} {k : Ack} (plain : k.dest.isStatus = false) (code : k.code = 3 ∨ k.code = 4) (first : a.refusal = false) :
    a.ack k = { a with
      unack := a.unack - 1, idle := false, landCode := BitVec.ofNat 3 k.code, landLoc := k.loc, refusal := true, heldTval := k.loc
      retires := a.stall == some .unack && a.unack - 1 == 0
      heldCause := if k.code = 3 then 0x07#64 else 0x08#64 } := by
  unfold Hart.ack Hart.ackPlain
  obtain code | code := code <;> simp [plain, code, first] <;> decide

/-- R47: a status is written to its register. -/
theorem ack_status {a : Hart} {k : Ack} {q : Reg} (status : k.dest.isStatus = true) (reg : k.dest.status = some q) (ne : q ≠ 0#5) :
    (a.ack k).rx q = BitVec.ofNat 64 k.code ∧ (a.ack k).xok q = true ∧ XKept a (a.ack k) [q] ∧
      (a.ack k).landCnt = a.landCnt + 1 := by
  let b : Hart := { a with unack := a.unack - 1, idle := false }
  obtain ⟨l, acked⟩ : ∃ l, a.ack k = { b.wx q (BitVec.ofNat 64 k.code) with landCnt := a.landCnt + 1, landLoc := l } := by
    unfold Hart.ack Hart.ackStatus
    simp only [status, reg, ne, if_true, if_false]
    split
    · exact ⟨_, rfl⟩
    · exact ⟨_, rfl⟩
  rw [acked]
  refine ⟨(Hart.rx_wx_self b q _).trans (if_neg ne), Hart.xok_wx_self b q _, fun r hr => ?_, rfl⟩
  have other : r ≠ q := by simpa using hr
  exact ⟨Hart.rx_wx_ne b _ other, Hart.xok_wx_ne b _ other⟩

/-! ### Stores to a remote stash -/

theorem exec_remoteStashWrite_next {s : State} {id : Nat} {r : List Event} (h : s.flight = .remoteStashWrite id :: r) :
    exec .remoteStashWrite s = .next (performStore { s with flight := r } id) := by
  rw [exec_remoteStashWrite, execRemoteStashWrite, h]

/-- A store that no earlier one comes before is performed alone. -/
theorem performStore_alone {s : State} {id : Nat} {st : Store} (found : s.ms.stores.find? (·.id == id) = some st)
    (first : storesBefore (s.ms.stores.filter (·.id < id)) st = []) : performStore s id = performOne s st := by
  unfold performStore
  rw [found]
  dsimp only
  rw [first]
  rfl

theorem lowerUnack_resident {s : State} {h k : Nat} {tag : BitVec 16} (found : whereIs s h tag = .resident k) :
    lowerUnack s h tag = s.setHart k { s.hart k with unack := (s.hart k).unack - 1 } := by
  unfold lowerUnack
  rw [found]

/-- R66: a store to a remote stash whose thread stands in its slot, its block no poison. -/
theorem performOne_remote {s : State} {st : Store} {g k : Nat} (place : st.place = .remoteStash g) (shadow : st.shadow = none)
    (clean : isStashPoison s.ms (st.pa / 64) = false) (found : whereIs s st.hart st.tag = .resident k) :
    (performOne s st).ms.stash = Memory.writeBytes s.ms.stash st.pa st.bytes ∧ (performOne s st).ms.mem = s.ms.mem ∧
      (performOne s st).hart k = { s.hart k with unack := (s.hart k).unack - 1 } ∧
      ∀ j, j ≠ k → (performOne s st).hart j = s.hart j := by
  let m : MemSys := { s.ms with stores := s.ms.stores.filter (·.id != st.id) }
  have clean' : isStashPoison m (st.pa / 64) = false := clean
  have performed : performOne s st = lowerUnack { s with ms := stashWrite m st.pa st.bytes } st.hart st.tag := by
    unfold performOne performAt
    rw [place, shadow]
    rfl
  rw [performed, stashWrite_clean _ clean', lowerUnack_resident (k := k) (by exact found)]
  exact ⟨rfl, rfl, State.hart_setHart .., fun j ne => State.hart_setHart_ne _ _ ne⟩

/-! ### Departure entries -/

theorem exec_departureExpiry_next {s : State} {core k : Nat} {r : List Event} (h : s.flight = .departureExpiry core k :: r) :
    exec .departureExpiry s = .next (expireDep { s with flight := r } core k) := by
  rw [exec_departureExpiry, execDepartureExpiry, h]

theorem depExpired_iff (s : State) (k : Core) (e : Dep) :
    depExpired s k e = true ↔ (e.state = 2 ∨ e.state = 3) ∧ k.grace < (s.time.setWidth 32 - e.stamp).toNat := by
  simp [depExpired]

theorem freeDep_core (s : State) (core k : Nat) : (freeDep s core k).core core = { s.core core with dep := Table.set (s.core core).dep k Dep.free } :=
  State.core_setCore ..

/-! ### The side log -/

theorem exec_sideLogReplay_next {s : State} {core id : Nat} {r : List Event} (h : s.flight = .sideLogReplay core id :: r) :
    exec .sideLogReplay s = .next (replayLog { s with flight := r } core id) := by
  rw [exec_sideLogReplay, execSideLogReplay, h]

/-- Finding the place of an access for a partition changes nothing but the cached translations. -/
theorem reachFor_st {s : State} {part : Option Nat} {core : Nat} {c : TCtx} {va : Word} {acc : Nat} {p : Place} {u : State}
    (h : reachFor s part core c va acc = .ok (p, u)) : ∃ x, u = { s with ms := { s.ms with tlb := x } } := by
  unfold reachFor at h
  split at h
  · cases h
  · split at h
    · exact reachStash_st h
    · split at h
      · exact reachStash_st h
      · cases h; exact ⟨s.ms.tlb, rfl⟩
    · cases h
    · cases h
    · cases h
    · exact reachGlobal_st h

theorem entryPlace_st {s : State} {core : Nat} {e : LogEntry} {p : Place} {u : State} (h : entryPlace s core e = .ok (p, u)) :
    ∃ x, u = { s with ms := { s.ms with tlb := x } } := by
  unfold entryPlace at h
  split at h
  · exact reachFor_st h
  · cases h

/-- A write to a save area leaves the stashes. -/
theorem saveWrite_stash (s : State) (p : Nat) (bs : List Byte) : (saveWrite s p bs).ms.stash = s.ms.stash := by
  unfold saveWrite
  induction cutLines p bs generalizing s with
  | nil => rfl
  | cons c cs ih =>
    rw [List.foldl_cons, ih]
    split
    · rw [storeHome_frame]
    · rfl

theorem lowerUnack_stash (s : State) (h : Nat) (tag : BitVec 16) : (lowerUnack s h tag).ms.stash = s.ms.stash := by
  unfold lowerUnack
  split
  · rfl
  · exact saveWrite_stash ..
  · rfl

theorem dropLog_ms (s : State) (core : Nat) (e : LogEntry) : (dropLog s core e).ms = s.ms := by
  unfold dropLog
  dsimp only
  split
  · split <;> rfl
  · rfl

/-- R163: a dropped entry is gone from the log. -/
theorem dropLog_gone (s : State) (core : Nat) (e : LogEntry) : ((dropLog s core e).core core).sidelog.find? (·.id == e.id) = none := by
  have log : ((dropLog s core e).core core).sidelog = (s.core core).sidelog.filter fun k => k.id != e.id := by
    have dropped : ∀ c : Core, ((s.setCore core c).core core).sidelog = c.sidelog := fun c => by rw [State.core_setCore]
    unfold dropLog
    dsimp only
    split
    · split <;> exact dropped _
    · exact dropped _
  rw [log, List.find?_eq_none]
  intro k hk
  have ne := (List.mem_filter.mp hk).2
  simpa using ne

/-- R163: an entry whose place is a stash block that is no poison, replayed. -/
theorem replayEntry_stash {s u : State} {core i : Nat} {e : LogEntry} (place : entryPlace s core e = .ok (.stash i, u))
    (clean : isStashPoison s.ms (i / 64) = false) (plain : e.rel = none) :
    (replayEntry s core e).ms.stash = Memory.writeBytes s.ms.stash i e.bytes ∧
      ((replayEntry s core e).core core).sidelog.find? (·.id == e.id) = none := by
  obtain ⟨x, rfl⟩ := entryPlace_st place
  let m : MemSys := { s.ms with tlb := x }
  let v : State := signStore { s with ms := stashWrite m i e.bytes } e.shadow e.va e.bytes
  have replayed : replayEntry s core e = dropLog (lowerUnack v e.hart e.tag) core e := by
    unfold replayEntry
    rw [place]
    dsimp only
    rw [plain]
    cases e.shadow <;> rfl
  have written : v.ms.stash = Memory.writeBytes s.ms.stash i e.bytes := by
    have clean' : isStashPoison m (i / 64) = false := clean
    dsimp only [v]
    rw [signStore_eq, stashWrite_clean _ clean']
  rw [replayed]
  exact ⟨by rw [dropLog_ms, lowerUnack_stash, written], dropLog_gone ..⟩

theorem replayLog_none {s : State} {core id : Nat} (h : logEntry s core id = none) : replayLog s core id = s := by
  unfold replayLog; rw [h]

theorem replayLog_some {s : State} {core id : Nat} {e : LogEntry} (h : logEntry s core id = some e) :
    replayLog s core id = if logReady s core e then replayEntry s core e else s := by
  unfold replayLog; rw [h]

/-! ### STMAP and the signatures -/

theorem exec_stmapWrite_next {s : State} {k : BitVec 3} {v : Word} {r : List Event} (h : s.flight = .stmapWrite k v :: r) :
    exec .stmapWrite s = .next (setStmap (performOwn { s with flight := r } s.cur) s.cur k.toNat v) := by
  rw [exec_stmapWrite, execStmapWrite, h]

theorem performOwn_sameWindows (s : State) (h : Nat) : SameWindows s (performOwn s h) :=
  sameWindows_foldl (fun s (st : Store) => performStore_sameWindows s st.id) _ s

theorem rotateSigs_hart (s : State) (h : Nat) : (rotateSigs s).hart h = { s.hart h with sigPrev := (s.hart h).sigCur, sigCur := .empty } :=
  Table.get_mapVals (d := Hart.reset) (f := fun _ h => h.rotate) rfl s.harts

theorem rotateSigs_homeSigs (s : State) (l : Nat) : Table.get (Sig.empty, Sig.empty) (rotateSigs s).ms.homeSigs l =
    (.empty, (Table.get (Sig.empty, Sig.empty) s.ms.homeSigs l).1) :=
  Table.get_mapVals (d := (Sig.empty, Sig.empty)) (f := fun _ e => (.empty, e.1)) rfl s.ms.homeSigs

/-! ### O48 -/

/-- R38, R41, R44: an arrival that finds its thread. -/
theorem putArrival_resident {s : State} {p : Put} {r : List Event} {core h : Nat} (flight : s.flight = .putArrival p :: r)
    (hc : locCore p.loc = some core) (good : badLocator p = false) (kind : locKind p.loc ≠ 2)
    (found : findSlot s core (locHart p.loc) (locTag p.loc) = .resident h) (hop : p.hop = 0) :
    let n : Reg := BitVec.ofNat 5 (locIdx p.loc)
    ∃ t, exec .putArrival s = .next t ∧
      (p.wide = false → n ≠ 0#5 → (t.hart h).rx n = p.val.setWidth 64 ∧ (t.hart h).xok n = true) ∧
      (p.wide = true → (t.hart h).rv n = p.val ∧ (t.hart h).vok n = true) ∧
      (t.hart h).landCnt = (if p.wide = false ∧ n = 0#5 then (s.hart h).landCnt else (s.hart h).landCnt + 1) ∧
      XKept (s.hart h) (t.hart h) (if p.wide then [] else [n]) ∧ VKept (s.hart h) (t.hart h) (if p.wide then [n] else []) ∧
      (t.hart h).pc = (s.hart h).pc ∧ (∀ k, k ≠ h → t.hart k = s.hart k) ∧ t.ms.mem = s.ms.mem ∧ t.ms.stash = s.ms.stash ∧
      ∀ d, p.token = false → p.sender = some d → d.node = s.plat.node.toNat → t.flight = r ++ [.ackArrival ⟨0, p.loc, d, 0⟩] := by
  intro n
  let u : State := { s with flight := r }
  obtain ⟨signed, others, mem, stash, flew, plat⟩ := landSig_spec u h p
  generalize hv : landSig u h p = v at signed others mem stash flew plat
  have landed : landPut u p = answer (v.setHart h ((v.hart h).land p)) p 0 := by
    have found' : findSlot u core (locHart p.loc) (locTag p.loc) = .resident h := found
    have code : writtenCode p 0 = 0 := if_pos hop
    rw [landPut_resident hc good kind found', code, ← hv]
  obtain ⟨x, v', cnt, xs, vs, pc⟩ := land_spec (v.hart h) p
  have taken : (landPut u p).hart h = (v.hart h).land p := by rw [landed, answer_hart, State.hart_setHart]
  rw [← taken] at x v' cnt xs vs pc
  generalize (v.hart h).sigCur = g at signed
  rw [signed] at cnt xs vs pc
  refine ⟨_, exec_putArrival_next flight, x, v', cnt, xs, vs, pc, fun k ne => ?_, ?_, ?_, fun d token sender here => ?_⟩
  · rw [landed, answer_hart, State.hart_setHart_ne _ _ ne]
    exact others k ne
  · rw [landed, answer_ms]
    exact mem
  · rw [landed, answer_ms]
    exact stash
  · have here' : d.node = v.plat.node.toNat := by rw [plat]; exact here
    rw [landed, answer_flight (s := v.setHart h _) token sender here']
    exact congrArg (· ++ _) flew

/-- R44: an arrival for a thread that has ended, or for a tag that the slot never held. -/
theorem putArrival_gone {s : State} {p : Put} {r : List Event} {code : Nat} (flight : s.flight = .putArrival p :: r)
    (turned : landPut { s with flight := r } p = answer { s with flight := r } p code) :
    ∃ t, exec .putArrival s = .next t ∧ t.harts = s.harts ∧ t.ms = s.ms ∧ ∀ d, p.token = false → p.sender = some d →
      d.node = s.plat.node.toNat → t.flight = r ++ [.ackArrival ⟨code, p.loc, d, 0⟩] := by
  refine ⟨_, exec_putArrival_next flight, ?_, ?_, fun d token sender here => ?_⟩
  · rw [turned, answer_harts]
  · rw [turned, answer_ms]
  · rw [turned]
    exact answer_flight (s := { s with flight := r }) token sender here code

theorem setStmap_stmapWrite {s : State} {k : BitVec 3} {v : Word} {r : List Event} (flight : s.flight = .stmapWrite k v :: r) :
    let w := if k.toNat % 2 = 0 then v &&& 0x00FFFFFFFFFFF000#64 else v &&& 0x8000000000003F3F#64
    ∃ t, exec .stmapWrite s = .next t ∧
      t.me.st k.toNat = (if k.toNat % 2 = 1 ∧ w.getLsbD 63 = true ∧ windowFits s s.cur (k.toNat / 2) w = false then
        w &&& ~~~0x8000000000000000#64 else w) ∧
      ∀ j, j < 8 → j ≠ k.toNat → t.me.st j = s.me.st j := by
  intro w
  let u := performOwn { s with flight := r } s.cur
  have same : SameWindows s u := performOwn_sameWindows { s with flight := r } s.cur
  have cur : (setStmap u s.cur k.toNat v).cur = s.cur := (setStmap_cur ..).trans same.1
  have written : (setStmap u s.cur k.toNat v).me.stmap = Table.set s.me.stmap k.toNat (stmapWritten s s.cur k.toNat v) := by
    rw [State.me, cur, setStmap_stmap, same.2 s.cur]
    simp only [stmapWritten, windowFits_congr same]
    rfl
  refine ⟨_, exec_stmapWrite_next flight, ?_, fun j _ ne => ?_⟩
  · rw [Hart.st, written, Table.get_set_self]
    rfl
  · rw [Hart.st, written, Table.get_set_ne _ _ _ ne]
    rfl

/-- Settles O48: arrivals by what their slot and tag find (`landPut_resident`, `land_spec`), acknowledgements by `Hart.ack`, remote
stores and replays by the stash bytes they write, STMAP by `setStmap_stmap`, signatures by a map over the tables. -/
theorem arrivalEvents : Obligations.ArrivalEvents := by
  unfold Obligations.ArrivalEvents
  intro s r
  refine ⟨?arrival, ?ack, ?remote, ?expiry, ?replay, fun k v flight => setStmap_stmapWrite flight, ?signatures⟩
  case arrival =>
    intro p core flight hc good kind n acked
    refine ⟨fun h found hop => putArrival_resident flight hc good kind found hop, fun found => ?_, fun found => ?_⟩
    · refine putArrival_gone flight ?_
      have found' : findSlot { s with flight := r } core (locHart p.loc) (locTag p.loc) = .exited := found
      exact landPut_exited hc good kind found'
    · refine putArrival_gone flight ?_
      have found' : findSlot { s with flight := r } core (locHart p.loc) (locTag p.loc) = .nothing := found
      exact landPut_nothing hc good kind found'
  case ack =>
    intro k h flight found
    have found' : findSlot { s with flight := r } k.dest.core k.dest.hart k.dest.tag = .resident h := found
    have applied := exec_ackArrival_next flight
    rw [applyAck_resident found'] at applied
    refine ⟨_, applied, fun j ne => State.hart_setHart_ne _ _ ne, rfl, rfl, ?_⟩
    rw [State.hart_setHart]
    exact ⟨ack_done, fun plain code first => ack_refused plain code first, fun q => ack_status⟩
  case remote =>
    intro id st k g flight stored first place shadow clean found
    have alone : performStore { s with flight := r } id = performOne { s with flight := r } st := performStore_alone stored first
    obtain ⟨stash, mem, counted, others⟩ := performOne_remote (s := { s with flight := r }) place shadow clean found
    have performed := exec_remoteStashWrite_next flight
    rw [alone] at performed
    refine ⟨_, performed, fun j hj => ?_, fun a ha => ?_, mem, counted, others⟩
    · rw [stash, Memory.read_writeBytes, if_pos (by omega), Nat.add_sub_cancel_left]
    · rw [stash, Memory.read_writeBytes_outside _ _ _ ha]
  case expiry =>
    intro core k flight e old
    have freed := exec_departureExpiry_next flight
    have expired : depExpired { s with flight := r } (s.core core) e = true ↔ old := depExpired_iff ..
    refine ⟨fun isOld => ?_, fun notOld => ?_⟩
    · rw [expireDep, if_pos (by exact expired.mpr isOld)] at freed
      refine ⟨_, freed, ?_, rfl, rfl, fun j ne => ?_, fun c ne => State.core_setCore_ne _ _ ne⟩
      · rw [freeDep_core]
        exact Table.get_set_self ..
      · rw [freeDep_core]
        exact Table.get_set_ne _ _ _ ne
    · rw [freed, expireDep, if_neg (by exact fun h => notOld (expired.mp h))]
  case replay =>
    intro core id flight
    have replayed := exec_sideLogReplay_next flight
    refine ⟨fun gone => ?_, fun e logged waits => ?_, fun e u i logged ready place clean plain => ?_⟩
    · rw [replayed, replayLog_none (by exact gone)]
    · have waits' : logReady { s with flight := r } core e = false := waits
      rw [replayed, replayLog_some (e := e) (by exact logged), waits']
      rfl
    · have taken : replayLog { s with flight := r } core id = replayEntry { s with flight := r } core e := by
        rw [replayLog_some (e := e) (by exact logged)]
        exact if_pos ready
      obtain ⟨stash, gone⟩ := replayEntry_stash place clean plain
      rw [taken] at replayed
      refine ⟨_, replayed, fun j hj => ?_, gone⟩
      rw [stash, Memory.read_writeBytes, if_pos (by omega), Nat.add_sub_cancel_left]
  case signatures =>
    intro flight
    refine ⟨rotateSigs { s with flight := r }, ?_, rotateSigs_hart _, rotateSigs_homeSigs _, rfl, rfl⟩
    rw [exec_signatureGeneration, execSignatureGeneration, flight]

end Sys2Proof.Machine
end

section
/-! SUPPORT. A teardown that rewrites an unexpected queue, and the refutation of O50. -/

namespace Sys2Proof.Machine
open Sys2Proof.Safety

/-- A send without payload that waits in an unexpected queue (R200). -/
def waitingSend (tag : BitVec 32) : YSend := ⟨0, 0, 0, tag, 0, [], false⟩

/-- A matched receive of partition 0, held at a fault of its address, to which the first waiting send is being copied (R202). -/
def heldLanding : Landing :=
  ⟨⟨0, 0, 0, 1, 0, 0x1000, 64, 0, ⟨0, 0, 0, 0, false, true⟩, 0, 0, 0⟩, 1, 0, 0, [], 0, some 1, false, none, some (waitingSend 1), 0⟩

/-- Partition 0, sliced, owns frame 0, where its unexpected queue stands with two sends in it, the first of them being copied to a receive
that is held at a fault. Its teardown is due. -/
@[irreducible] def tornWithQueue : State :=
  let s := State.reset.setPart 0 { Part.reset with state := 2, len := 1 }
  let s := { s with
    ms := { s.ms with classMap := [(0, 4#64)] }
    fab := { s.fab with yarrow := [(0, YTenant.reset)], landings := [heldLanding] }
    flight := [.teardown 0] }
  s.setUnexp 0 [waitingSend 1, waitingSend 2]

theorem exec_teardown_next {s : State} {p : Nat} {r : List Event} (h : s.flight = .teardown p :: r) :
    exec .teardown s = .next (tearDown { s with flight := r } p) := by
  rw [exec_teardown, execTeardown, h]

theorem tornWithQueue_due : tornWithQueue.flight = [.teardown 0] ∧ (tornWithQueue.part 0).state = 2 := by decide +kernel

/-- The first header of the queue in memory is that of the send left (R198). -/
theorem teardown_rewritesQueue : Memory.read tornWithQueue.ms.mem 0 = 1#8 ∧
    Memory.read (tearDown { tornWithQueue with flight := [] } 0).ms.mem 0 = 2#8 := by decide +kernel

/-- Refutes O50: the teardown ends the landings of the partition, and one that copies an entry of the unexpected queue frees it, by which
the queue is written anew in memory (R198, R202). -/
theorem not_partitionEvents : ¬ Obligations.PartitionEvents := by
  intro h
  obtain ⟨flight, state⟩ := tornWithQueue_due
  obtain ⟨-, -, -, -, -, torn, -⟩ := h tornWithQueue [] 0
  obtain ⟨t, ht, -, -, -, mem⟩ := (torn flight).1 state
  have torn' : t = tearDown { tornWithQueue with flight := [] } 0 := Host.Outcome.next.inj (ht.symm.trans (exec_teardown_next flight))
  obtain ⟨before, after⟩ := teardown_rewritesQueue
  rw [← torn', mem, before] at after
  exact absurd after (by decide)

end Sys2Proof.Machine
end

section
/-! SUPPORT. Roles, handler words, software queues, and a message at its destination and back at its sender (R27, R141 to R145,
R152, R170, R176), and O51. -/

namespace Sys2Proof.Machine
open Sys2Proof.Safety

/-! ### Two-bit fields of a word -/

/-- A field below k does not see what stands from field k on. -/
theorem digit_below {j k : Nat} (h : j < k) (lo x : Nat) : (lo + 4 ^ k * x) / 4 ^ j % 4 = lo / 4 ^ j % 4 := by
  obtain ⟨i, rfl⟩ := Nat.exists_eq_add_of_lt h
  rw [show 4 ^ (j + i + 1) * x = 4 ^ j * (4 * (4 ^ i * x)) by ring, Nat.add_mul_div_left _ _ (Nat.pow_pos (by omega)),
    Nat.add_mul_mod_self_left]

/-- The fields from k on, under a remainder. -/
theorem digit_above {k lo : Nat} (h : lo < 4 ^ k) (i x : Nat) : (lo + 4 ^ k * x) / 4 ^ (k + i) % 4 = x / 4 ^ i % 4 := by
  rw [Nat.pow_add, ← Nat.div_div_eq_div_mul, Nat.add_mul_div_left _ _ (Nat.pow_pos (by omega)), Nat.div_eq_of_lt h, Nat.zero_add]

/-- The number whose fields are given, the first m of them. -/
def packed (d : Nat → Nat) (m : Nat) : Nat := (List.range m).foldl (fun n k => n + d k * 2 ^ (2 * k)) 0

theorem packed_succ (d : Nat → Nat) (m : Nat) : packed d (m + 1) = packed d m + 4 ^ m * d m := by
  rw [packed, List.range_succ, List.foldl_append, List.foldl_cons, List.foldl_nil, Nat.pow_mul, Nat.mul_comm]
  rfl

theorem packed_lt {d : Nat → Nat} (hd : ∀ k, d k < 4) (m : Nat) : packed d m < 4 ^ m := by
  induction m with
  | zero => exact Nat.one_pos
  | succ m ih =>
    rw [packed_succ, Nat.pow_succ]
    have : 4 ^ m * d m ≤ 4 ^ m * 3 := Nat.mul_le_mul_left _ (Nat.le_of_lt_succ (hd m))
    omega

theorem packed_digit {d : Nat → Nat} (hd : ∀ k, d k < 4) {m j : Nat} (h : j < m) : packed d m / 4 ^ j % 4 = d j := by
  induction m with
  | zero => omega
  | succ m ih =>
    rw [packed_succ]
    rcases Nat.lt_or_eq_of_le (Nat.le_of_lt_succ h) with below | rfl
    · rw [digit_below below, ih below]
    · have := digit_above (packed_lt hd j) 0 (d j)
      rw [Nat.add_zero, Nat.pow_zero, Nat.div_one] at this
      rw [this, Nat.mod_eq_of_lt (hd j)]

/-- A number with its field k replaced. -/
def withDigit (n k w : Nat) : Nat := n - n / 4 ^ k % 4 * 4 ^ k + w * 4 ^ k

/-- A number cut at field k. -/
theorem cut_at_digit (n k : Nat) : n = n % 4 ^ k + 4 ^ k * (n / 4 ^ k % 4 + 4 * (n / 4 ^ k / 4)) := by
  rw [Nat.mod_add_div (n / 4 ^ k) 4, Nat.mod_add_div]

theorem withDigit_eq (n k w : Nat) : withDigit n k w = n % 4 ^ k + 4 ^ k * (w + 4 * (n / 4 ^ k / 4)) := by
  have cut := cut_at_digit n k
  rw [Nat.mul_add] at cut
  rw [Nat.mul_add, withDigit, Nat.mul_comm (n / 4 ^ k % 4), Nat.mul_comm w]
  omega

theorem withDigit_digit {w : Nat} (hw : w < 4) (n k j : Nat) : withDigit n k w / 4 ^ j % 4 = if j = k then w else n / 4 ^ j % 4 := by
  have low : n % 4 ^ k < 4 ^ k := Nat.mod_lt _ (Nat.pow_pos (by omega))
  rw [withDigit_eq]
  rcases Nat.lt_trichotomy j k with below | rfl | above
  · rw [digit_below below, if_neg (Nat.ne_of_lt below)]
    conv_rhs => rw [cut_at_digit n k, digit_below below]
  · have := digit_above low 0 (w + 4 * (n / 4 ^ j / 4))
    rw [Nat.add_zero, Nat.pow_zero, Nat.div_one] at this
    rw [this, if_pos rfl]
    omega
  · obtain ⟨i, rfl⟩ := Nat.exists_eq_add_of_lt above
    rw [if_neg (by omega), Nat.add_assoc, digit_above low, Nat.pow_succ', ← Nat.div_div_eq_div_mul,
      show (w + 4 * (n / 4 ^ k / 4)) / 4 = n / 4 ^ k / 4 by omega, Nat.pow_add, Nat.pow_succ', ← Nat.div_div_eq_div_mul,
      ← Nat.div_div_eq_div_mul]

theorem withDigit_lt {n k w : Nat} (hn : n < 2 ^ 16) (hk : k < 8) (hw : w < 4) : withDigit n k w < 2 ^ 16 := by
  have pos : 0 < 4 ^ k := Nat.pow_pos (by omega)
  have parts : (4 : Nat) ^ 8 = 4 ^ k * (4 * 4 ^ (7 - k)) := by rw [← Nat.pow_succ', ← Nat.pow_add]; congr 1; omega
  have high : n / 4 ^ k / 4 < 4 ^ (7 - k) := by
    rw [Nat.div_div_eq_div_mul]
    exact Nat.div_lt_of_lt_mul (by rw [Nat.mul_assoc, ← parts]; exact hn)
  have low : n % 4 ^ k < 4 ^ k := Nat.mod_lt _ pos
  have : 4 ^ k * (w + 4 * (n / 4 ^ k / 4) + 1) ≤ 4 ^ k * (4 * 4 ^ (7 - k)) := Nat.mul_le_mul_left _ (by omega)
  rw [withDigit_eq]
  rw [Nat.mul_succ, ← parts] at this
  omega

/-! ### Roles -/

/-- R27: what HROLE holds for hart k after a write. -/
theorem rolesWritten_digit (old : BitVec 16) (v : Word) {k : Nat} (hk : k < 8) :
    (rolesWritten old v).toNat / 4 ^ k % 4 =
      if k ≠ 7 ∧ v.toNat / 4 ^ k % 4 = 2 then old.toNat / 4 ^ k % 4 else v.toNat / 4 ^ k % 4 := by
  let d : Nat → Nat := fun k => if k ≠ 7 ∧ v.toNat / 4 ^ k % 4 = 2 then old.toNat / 4 ^ k % 4 else v.toNat / 4 ^ k % 4
  have hd : ∀ k, d k < 4 := fun k => by dsimp only [d]; split <;> omega
  have field : ∀ k, fieldOf v (2 * k + 1) (2 * k) = v.toNat / 4 ^ k % 4 := fun k => by
    rw [fieldOf, Nat.shiftRight_eq_div_pow, Nat.pow_mul, show 2 * k + 1 + 1 - 2 * k = 2 by omega]
    rfl
  have fits : packed d 8 % 2 ^ 16 = packed d 8 := Nat.mod_eq_of_lt (packed_lt hd 8)
  have packs : rolesWritten old v = BitVec.ofNat 16 (packed d 8) := by
    unfold rolesWritten packed
    simp only [field, Nat.pow_mul]
    rfl
  rw [packs, BitVec.toNat_ofNat, fits, packed_digit hd hk]

theorem slotOf_core {g k : Nat} (h : k < 8) : slotOf g k / 8 = g := by unfold slotOf; omega

theorem slotOf_hart {g k : Nat} (h : k < 8) : slotOf g k % 8 = k := by unfold slotOf; omega

theorem roleOf_slotOf (s : State) (g : Nat) {k : Nat} (h : k < 8) : roleOf s (slotOf g k) = (s.core g).roles.toNat / 4 ^ k % 4 := by
  rw [roleOf, slotOf_core h, slotOf_hart h, Nat.pow_mul]

theorem settleRole_eq (s : State) (g : Nat) {k : Nat} (h : k < 8) : settleRole s (slotOf g k) = s.setCore g { s.core g with
    roles := BitVec.ofNat 16 (withDigit (s.core g).roles.toNat k ((s.core g).hrole.toNat / 4 ^ k % 4)) } := by
  unfold settleRole withDigit
  simp only [slotOf_core h, slotOf_hart h, Nat.pow_mul]

/-- R27: the first m harts of a core settled, those that hold nothing. -/
def settleFirst (s : State) (g m : Nat) : State :=
  (List.range m).foldl (fun s k => if roleFree s (slotOf g k) then settleRole s (slotOf g k) else s) s

theorem settleFirst_spec (s : State) (g : Nat) {m : Nat} (hm : m ≤ 8) : (settleFirst s g m).harts = s.harts ∧
    ((settleFirst s g m).core g).hrole = (s.core g).hrole ∧
    ∀ j, j < 8 → ((settleFirst s g m).core g).roles.toNat / 4 ^ j % 4 =
      if j < m ∧ roleFree s (slotOf g j) = true then (s.core g).hrole.toNat / 4 ^ j % 4 else (s.core g).roles.toNat / 4 ^ j % 4 := by
  induction m with
  | zero => exact ⟨rfl, rfl, fun j _ => (if_neg (by omega)).symm⟩
  | succ m ih =>
    obtain ⟨harts, hrole, digits⟩ := ih (by omega)
    have step : settleFirst s g (m + 1) =
        if roleFree (settleFirst s g m) (slotOf g m) then settleRole (settleFirst s g m) (slotOf g m) else settleFirst s g m := by
      rw [settleFirst, List.range_succ, List.foldl_append]
      rfl
    have free : roleFree (settleFirst s g m) (slotOf g m) = roleFree s (slotOf g m) := by unfold roleFree State.hart; rw [harts]
    rw [step, free]
    by_cases f : roleFree s (slotOf g m) = true
    · rw [if_pos f, settleRole_eq _ _ (by omega), State.core_setCore]
      refine ⟨harts, hrole, fun j hj => ?_⟩
      have code : (s.core g).hrole.toNat / 4 ^ m % 4 < 4 := Nat.mod_lt _ (by omega)
      rw [BitVec.toNat_ofNat, hrole, Nat.mod_eq_of_lt (withDigit_lt (BitVec.isLt _) (by omega) code), withDigit_digit code, digits j hj]
      by_cases e : j = m
      · subst e
        rw [if_pos rfl, if_pos ⟨Nat.lt_succ_self j, f⟩]
      · rw [if_neg e]
        exact if_congr (and_congr_left' (by omega)) rfl rfl
    · rw [if_neg f]
      refine ⟨harts, hrole, fun j hj => (digits j hj).trans (if_congr ?_ rfl rfl)⟩
      constructor
      · exact fun ⟨lt, free⟩ => ⟨Nat.lt_succ_of_lt lt, free⟩
      · rintro ⟨lt, free⟩
        have : j ≠ m := fun e => f (e ▸ free)
        exact ⟨by omega, free⟩

/-! ### Events set on their way -/

/-- A state with more events in flight. -/
def FlightGrows (s t : State) : Prop := ∃ f, t = { s with flight := s.flight ++ f }

theorem FlightGrows.refl (s : State) : FlightGrows s s := ⟨[], by rw [List.append_nil]⟩

theorem FlightGrows.trans {s t u : State} (a : FlightGrows s t) (b : FlightGrows t u) : FlightGrows s u := by
  obtain ⟨f, rfl⟩ := a
  obtain ⟨g, rfl⟩ := b
  exact ⟨f ++ g, by rw [← List.append_assoc]⟩

theorem flightGrows_flyIf (s : State) (c : Bool) (e : Event) : FlightGrows s (if c then s.fly e else s) := by
  cases c
  · exact .refl s
  · exact ⟨[e], rfl⟩

theorem flightGrows_foldl {α : Type} {f : State → α → State} (hf : ∀ s x, FlightGrows s (f s x)) (l : List α) (s : State) :
    FlightGrows s (l.foldl f s) := by
  induction l generalizing s with
  | nil => exact .refl s
  | cons x l ih => exact (hf s x).trans (ih _)

theorem kickDispatch_flightGrows (s : State) (g : Nat) : FlightGrows s (kickDispatch s g) := flightGrows_flyIf ..
theorem kickReturned_flightGrows (s : State) (g : Nat) : FlightGrows s (kickReturned s g) := flightGrows_flyIf ..

theorem kickStarts_flightGrows (s : State) : FlightGrows s (kickStarts s) := by
  refine flightGrows_foldl (fun s l => ?_) _ s
  unfold kickLaunch
  split
  · exact .refl s
  · exact flightGrows_foldl (fun s _ => flightGrows_flyIf s ..) _ s

theorem FlightGrows.core {s t : State} (h : FlightGrows s t) (g : Nat) : t.core g = s.core g := by obtain ⟨f, rfl⟩ := h; rfl
theorem FlightGrows.harts {s t : State} (h : FlightGrows s t) : t.harts = s.harts := by obtain ⟨f, rfl⟩ := h; rfl
theorem FlightGrows.ms {s t : State} (h : FlightGrows s t) : t.ms = s.ms := by obtain ⟨f, rfl⟩ := h; rfl

/-- R254: a packet handler set on its way takes no role. -/
theorem kickLanding_roles (s : State) (g : Nat) :
    ((kickLanding s g).core g).hrole = (s.core g).hrole ∧ ((kickLanding s g).core g).roles = (s.core g).roles := by
  unfold kickLanding
  dsimp only
  split
  · split
    · rw [State.core_fly, State.core_setCore]
      exact ⟨rfl, rfl⟩
    · exact ⟨rfl, rfl⟩
  · exact ⟨rfl, rfl⟩

/-- R27: a write of HROLE, hart by hart. -/
theorem writeRoles_spec (s : State) (g : Nat) (v : Word) {k : Nat} (hk : k < 8) :
    let new := (rolesWritten (s.core g).hrole v).toNat / 4 ^ k % 4
    ((writeRoles s g v).core g).hrole.toNat / 4 ^ k % 4 = new ∧
      roleOf (writeRoles s g v) (slotOf g k) = if roleFree s (slotOf g k) = true then new else roleOf s (slotOf g k) := by
  intro new
  let w : State := s.setCore g { s.core g with hrole := rolesWritten (s.core g).hrole v }
  obtain ⟨-, hrole, digits⟩ := settleFirst_spec w g (Nat.le_refl 8)
  have written : writeRoles s g v = kickLanding (kickDispatch (kickStarts (settleFirst w g 8)) g) g := by
    unfold writeRoles hartsOf
    dsimp only
    rw [List.foldl_map]
    rfl
  have kicked := ((kickStarts_flightGrows (settleFirst w g 8)).trans (kickDispatch_flightGrows _ g)).core g
  obtain ⟨hroleKept, rolesKept⟩ := kickLanding_roles (kickDispatch (kickStarts (settleFirst w g 8)) g) g
  rw [roleOf_slotOf _ _ hk, roleOf_slotOf _ _ hk, written, hroleKept, rolesKept, kicked, hrole, digits k hk]
  have core : w.core g = { s.core g with hrole := rolesWritten (s.core g).hrole v } := State.core_setCore ..
  rw [core]
  refine ⟨rfl, if_congr ?_ rfl rfl⟩
  exact and_iff_right hk

theorem exec_hroleWrite_next {s : State} {w : Writer} {g : Nat} {v : Word} {r : List Event} (h : s.flight = .hroleWrite w g v :: r) :
    exec .hroleWrite s = .next (writeRoles { s with flight := r } g v) := by
  rw [exec_hroleWrite, execHroleWrite, h]

/-! ### The handler table and the software queues -/

@[simp] theorem Core.chan_setChan_self (k : Core) (c : Nat) (a : Chan) : (k.setChan c a).chan c = a := Table.get_set_self ..

theorem Core.chan_setChan_ne (k : Core) {b c : Nat} (a : Chan) (ne : b ≠ c) : (k.setChan c a).chan b = k.chan b :=
  Table.get_set_ne _ _ _ ne

@[simp] theorem Core.softq_setSoft_self (k : Core) (i : Nat) (q : SoftQ) : (k.setSoft i q).softq i = q := Table.get_set_self ..

theorem Core.softq_setSoft_ne (k : Core) {i j : Nat} (q : SoftQ) (ne : j ≠ i) : (k.setSoft i q).softq j = k.softq j :=
  Table.get_set_ne _ _ _ ne

/-- The one channel of a state that is changed. -/
structure ChanChanged (s t : State) (g c : Nat) (a : Chan) : Prop where
  harts : t.harts = s.harts
  changed : (t.core g).chan c = a
  channels : ∀ b, b ≠ c → (t.core g).chan b = (s.core g).chan b
  cores : ∀ k, k ≠ g → t.core k = s.core k

theorem chanChanged_refl (s : State) (g c : Nat) : ChanChanged s s g c ((s.core g).chan c) :=
  ⟨rfl, rfl, fun _ _ => rfl, fun _ _ => rfl⟩

theorem chanChanged_setCore (s : State) (g c : Nat) (a : Chan) : ChanChanged s (s.setCore g ((s.core g).setChan c a)) g c a := by
  refine ⟨rfl, ?_, fun b ne => ?_, fun k ne => State.core_setCore_ne s _ ne⟩
  · rw [State.core_setCore, Core.chan_setChan_self]
  · rw [State.core_setCore, Core.chan_setChan_ne _ _ ne]

theorem ChanChanged.grow {s t u : State} {g c : Nat} {a : Chan} (h : ChanChanged s t g c a) (f : FlightGrows t u) :
    ChanChanged s u g c a := by
  obtain ⟨x, rfl⟩ := f
  exact ⟨h.harts, h.changed, h.channels, h.cores⟩

theorem kicks_flightGrows (s : State) (g : Nat) : FlightGrows s (kickReturned (kickDispatch s g) g) :=
  (kickDispatch_flightGrows s g).trans (kickReturned_flightGrows _ g)

theorem exec_handlerTableWrite_next {s : State} {w : Writer} {g : Nat} {c : BitVec 6} {hi : Bool} {v : Word} {r : List Event}
    (h : s.flight = .handlerTableWrite w g c hi v :: r) :
    exec .handlerTableWrite s = .next (writeHandler { s with flight := r } w g c hi v) := by
  rw [exec_handlerTableWrite, execHandlerTableWrite, h]

/-- R141: word 1 of an entry written. -/
theorem writeHandler_hi {s : State} {w : Writer} {c : BitVec 6} (may : ¬ (c = 0#6 ∧ w.mode ≠ .m)) (g : Nat) (v : Word) :
    ChanChanged s (writeHandler s w g c true v) g c.toNat { (s.core g).chan c.toNat with w1 := chanWord1 s g c v } ∧
      (writeHandler s w g c true v).ms = s.ms := by
  let u := s.setCore g ((s.core g).setChan c.toNat { (s.core g).chan c.toNat with w1 := chanWord1 s g c v })
  have written : writeHandler s w g c true v = kickReturned (kickDispatch u g) g := by
    unfold writeHandler
    rw [if_neg may]
    rfl
  rw [written]
  exact ⟨(chanChanged_setCore ..).grow (kicks_flightGrows u g), (kicks_flightGrows u g).ms⟩

/-- R142: word 0 of a busy channel keeps. -/
theorem writeHandler_lo_busy {s : State} {w : Writer} {g : Nat} {c : BitVec 6} (may : ¬ (c = 0#6 ∧ w.mode ≠ .m))
    (busy : chanBusy s g c = true) (v : Word) :
    ChanChanged s (writeHandler s w g c false v) g c.toNat ((s.core g).chan c.toNat) ∧ (writeHandler s w g c false v).ms = s.ms := by
  have written : writeHandler s w g c false v = kickReturned (kickDispatch s g) g := by
    unfold writeHandler
    rw [if_neg may, busy]
    rfl
  rw [written]
  exact ⟨(chanChanged_refl ..).grow (kicks_flightGrows s g), (kicks_flightGrows s g).ms⟩

/-- R142: word 0 of a channel that is not busy written; the mode of an enabled one keeps within the limits. -/
theorem writeHandler_lo_idle {s : State} {w : Writer} {g : Nat} {c : BitVec 6} (may : ¬ (c = 0#6 ∧ w.mode ≠ .m))
    (idle : chanBusy s g c = false) (v : Word) :
    ∃ x, ChanChanged s (writeHandler s w g c false v) g c.toNat { (s.core g).chan c.toNat with w0 := x } ∧
      (((s.core g).chan c.toNat).w1.getLsbD 3 = false → x = v &&& 0x03FFFFFFFFFFFFFE#64) ∧ (writeHandler s w g c false v).ms = s.ms := by
  let a := (s.core g).chan c.toNat
  let x := if qEn a.w1 && 1 < chanMode (v &&& 0x03FFFFFFFFFFFFFE#64) then
    withField (v &&& 0x03FFFFFFFFFFFFFE#64) 57 56 (chanMode a.w0) else v &&& 0x03FFFFFFFFFFFFFE#64
  let u := s.setCore g ((s.core g).setChan c.toNat { a with w0 := x })
  have written : writeHandler s w g c false v = kickReturned (kickDispatch u g) g := by
    unfold writeHandler
    rw [if_neg may, idle]
    rfl
  rw [written]
  refine ⟨x, (chanChanged_setCore ..).grow (kicks_flightGrows u g), fun off => ?_, (kicks_flightGrows u g).ms⟩
  have off' : qEn a.w1 = false := off
  dsimp only [x]
  rw [off']
  rfl

/-- R142: the limits within which a word 1 enables its channel. -/
theorem mayEnable_iff (c : BitVec 6) (w0 w1 : Word) : mayEnable c.toNat w0 w1 = true ↔ chanMode w0 ≤ 1 ∧ 1 ≤ fieldOf w1 9 6 ∧
    fieldOf w1 9 6 ≤ 12 ∧ fieldOf w1 25 10 * 64 + 2 ^ fieldOf w1 9 6 * (if w1.getLsbD 5 then 64 else 8) ≤ 0x40000 ∧
      (c ≠ 1#6 ∨ w1.getLsbD 5 = true) := by
  have number : c.toNat ≠ 1 ↔ c ≠ 1#6 := not_congr (BitVec.toNat_inj (y := 1#6))
  simp only [mayEnable, qFits, Bool.and_eq_true, Bool.or_eq_true, decide_eq_true_eq, bne_iff_ne, number, and_assoc]
  rfl

theorem chanWord1_idle {s : State} {g : Nat} {c : BitVec 6} (idle : chanBusy s g c = false) (v : Word) :
    let v1 := v &&& 0x1FFFFFFFFFFF#64
    chanWord1 s g c v = if v1.getLsbD 3 = true ∧ ¬ mayEnable c.toNat ((s.core g).chan c.toNat).w0 v1 = true then v1 &&& ~~~8#64 else v1 := by
  unfold chanWord1
  simp only [idle, Bool.false_eq_true, if_false, Bool.and_eq_true, Bool.not_eq_true', Bool.not_eq_true]

/-- R142: of a busy channel only PRI, EN and WDOG change. -/
theorem chanWord1_busy {s : State} {g : Nat} {c : BitVec 6} (busy : chanBusy s g c = true) (v : Word) :
    chanWord1 s g c v &&& ~~~0x3FFFC00000F#64 = ((s.core g).chan c.toNat).w1 &&& ~~~0x3FFFC00000F#64 := by
  have merged : ∀ x y m : Word, ((x &&& m) ||| (y &&& ~~~m)) &&& ~~~m = y &&& ~~~m := fun x y m => by
    refine BitVec.eq_of_getLsbD_eq fun i hi => ?_
    simp only [BitVec.getLsbD_and, BitVec.getLsbD_or, BitVec.getLsbD_not, hi, decide_true, Bool.true_and]
    cases m.getLsbD i <;> simp
  have cleared : ∀ x : Word, (x &&& ~~~8#64) &&& ~~~0x3FFFC00000F#64 = x &&& ~~~0x3FFFC00000F#64 := fun x => by
    rw [BitVec.and_assoc]
    rfl
  unfold chanWord1
  simp only [busy, if_true]
  split
  · rw [cleared, merged]
  · exact merged ..

theorem exec_softwareQueueWrite_next {s : State} {w : Writer} {g : Nat} {i : BitVec 4} {v : Word} {r : List Event}
    (h : s.flight = .softwareQueueWrite w g i v :: r) :
    exec .softwareQueueWrite s = .next (writeSoft { s with flight := r } g i v) := by
  rw [exec_softwareQueueWrite, execSoftwareQueueWrite, h]

/-- R176: a software queue as a write of its word leaves it. -/
def softWritten (q : SoftQ) (v1 : Word) : SoftQ :=
  if v1.getLsbD 3 = true ∧ qFits v1 = true then { q with w1 := v1 } else ⟨0, 0, v1 &&& ~~~8#64⟩

theorem writeSoft_eq (s : State) (g : Nat) (i : BitVec 4) (v : Word) : writeSoft s g i v =
    s.setCore g ((s.core g).setSoft i.toNat (softWritten ((s.core g).softq i.toNat) (v &&& 0x3FFFFE8#64))) := by
  unfold writeSoft softWritten
  generalize v &&& 0x3FFFFE8#64 = v1
  have clear : (v1 &&& ~~~8#64).getLsbD 3 = false := by
    rw [BitVec.getLsbD_and]
    exact Bool.and_false _
  have unset : v1.getLsbD 3 = false → v1 &&& ~~~8#64 = v1 := fun h => by
    refine BitVec.eq_of_getLsbD_eq fun j hj => ?_
    by_cases e : j = 3
    · rw [e, clear, h]
    · have eight : (8#64).getLsbD j = false := by
        rw [show 8#64 = BitVec.twoPow 64 3 from rfl, BitVec.getLsbD_twoPow]
        simp [Ne.symm e]
      rw [BitVec.getLsbD_and, BitVec.getLsbD_not, eight, decide_eq_true hj]
      exact Bool.and_true _
  dsimp only
  cases en : v1.getLsbD 3
  · simp only [Bool.false_and, Bool.false_eq_true, false_and, if_false, en, unset en]
  · cases fits : qFits v1
    · simp only [Bool.not_false, Bool.and_self, Bool.false_eq_true, and_false, if_true, if_false, clear]
    · simp only [Bool.not_true, Bool.and_false, Bool.false_eq_true, and_self, if_true, if_false, en]

/-! ### A message at its destination -/

theorem exec_messageArrival_next {s : State} {m : Msg} {r : List Event} (h : s.flight = .messageArrival m :: r) :
    exec .messageArrival s = .next (arriveMsg { s with flight := r } m) := by
  rw [exec_messageArrival, execMessageArrival, h]

theorem exec_messageReoffer_next {s : State} {m : Msg} {r : List Event} (h : s.flight = .messageReoffer m :: r) :
    exec .messageReoffer s = .next (offerAgain { s with flight := r } m) := by
  rw [exec_messageReoffer, execMessageReoffer, h]

/-- R145: what a decision about a message does to the lists of those deferred, l being the list of its channel. -/
structure Noted (s t : State) (m : Msg) (o : MsgOutcome) (l : List (Nat × Nat)) : Prop where
  frame : t = { s with cores := t.cores, plat := { s.plat with saved := t.plat.saved } }
  plat : o = .deferred ∨ s.plat.saved = [] → t.plat = s.plat
  member : (m.srcNode, m.id) ∈ l ↔ o = .deferred
  channel : ChanChanged s t m.dstCore m.chan.toNat { (s.core m.dstCore).chan m.chan.toNat with defer := l }

/-- R145: the lists of the save area, which only a deferral leaves as they are. -/
def savedNoted (s : State) (m : Msg) (o : MsgOutcome) : State := if o == .deferred then s else undeferSaved s (m.srcNode, m.id)

theorem savedNoted_frame (s : State) (m : Msg) (o : MsgOutcome) :
    ∃ p, savedNoted s m o = { s with plat := { s.plat with saved := p } } := by
  unfold savedNoted
  split
  · exact ⟨s.plat.saved, rfl⟩
  · exact ⟨_, rfl⟩

theorem savedNoted_plat {s : State} {m : Msg} {o : MsgOutcome} (h : o = .deferred ∨ s.plat.saved = []) :
    (savedNoted s m o).plat = s.plat := by
  unfold savedNoted
  split
  · rfl
  · rename_i ne
    have empty : s.plat.saved = [] := h.resolve_left fun e => ne (beq_iff_eq.mpr e)
    have mapped : (undeferSaved s (m.srcNode, m.id)).plat = { s.plat with saved := [] } := by
      unfold undeferSaved Table.mapVals
      rw [empty]
      rfl
    rw [mapped, ← empty]

/-- R145: the list of a channel after a decision. -/
def deferNoted (l : List (Nat × Nat)) (e : Nat × Nat) (o : MsgOutcome) : List (Nat × Nat) :=
  if (o == .deferred) == l.contains e then l else if o == .deferred then e :: l else l.filter (· != e)

theorem mem_deferNoted (l : List (Nat × Nat)) (e : Nat × Nat) (o : MsgOutcome) : e ∈ deferNoted l e o ↔ o = .deferred := by
  have deferred : (o == .deferred) = true ↔ o = .deferred := beq_iff_eq
  unfold deferNoted
  split
  · rename_i same
    rw [← deferred, beq_iff_eq.mp same, List.contains_iff_mem]
  · split
    · rename_i d
      exact iff_of_true List.mem_cons_self (deferred.mp d)
    · rename_i d
      refine iff_of_false (fun h => ?_) fun o => d (deferred.mpr o)
      have ne := (List.mem_filter.mp h).2
      simp at ne

theorem noteDeferred_noted (s : State) (m : Msg) (o : MsgOutcome) :
    Noted s (noteDeferred s m o) m o (deferNoted ((s.core m.dstCore).chan m.chan.toNat).defer (m.srcNode, m.id) o) := by
  let a := (s.core m.dstCore).chan m.chan.toNat
  let e := (m.srcNode, m.id)
  let k := (s.core m.dstCore).setChan m.chan.toNat { a with defer := if o == .deferred then e :: a.defer else a.defer.filter (· != e) }
  obtain ⟨p, saved⟩ := savedNoted_frame s m o
  let u : State := { s with plat := { s.plat with saved := p } }
  have plat : o = .deferred ∨ s.plat.saved = [] → u.plat = s.plat := fun h => by
    have kept := savedNoted_plat (m := m) h
    rwa [saved] at kept
  have noted : noteDeferred s m o = if (o == .deferred) == a.defer.contains e then u else u.setCore m.dstCore k := by
    unfold noteDeferred
    rw [← savedNoted, saved]
    rfl
  have member := mem_deferNoted a.defer e o
  rw [noted]
  by_cases same : ((o == .deferred) == a.defer.contains e) = true
  · rw [if_pos same]
    refine ⟨rfl, plat, member, ?_⟩
    rw [deferNoted, if_pos same]
    exact ⟨rfl, rfl, fun _ _ => rfl, fun _ _ => rfl⟩
  · rw [if_neg same]
    refine ⟨rfl, plat, member, ?_⟩
    rw [deferNoted, if_neg same]
    obtain ⟨harts, changed, channels, cores⟩ := chanChanged_setCore u m.dstCore m.chan.toNat
      { a with defer := if o == .deferred then e :: a.defer else a.defer.filter (· != e) }
    exact ⟨harts, changed, channels, cores⟩

/-- R143: a message that is not accepted: its outcome leaves for its source. -/
theorem arriveMsg_turned {s : State} {m : Msg} {o : MsgOutcome} (here : m.srcNode = s.plat.node.toNat)
    (decided : decideMsg s m.dstCore m = o) (ne : o ≠ .accepted) :
    arriveMsg s m = (noteDeferred s m o).fly (.messageOutcome m o) := by
  have node : (noteDeferred s m o).plat.node = s.plat.node := by rw [(noteDeferred_noted s m o).frame]
  unfold arriveMsg sendOutcome
  simp only [decided, ne, if_false, node, here, if_true]

/-- R143: what becomes of a message that is turned away or deferred, in the words of the statement. -/
theorem arrival_turned {s : State} {m : Msg} {r : List Event} {o : MsgOutcome} (here : m.srcNode = s.plat.node.toNat)
    (decided : decideMsg s m.dstCore m = o) (ne : o ≠ .accepted) (flight : s.flight = .messageArrival m :: r) :
    ∃ t l, exec .messageArrival s = .next t ∧
      t = { s with cores := t.cores, plat := { s.plat with saved := t.plat.saved }, flight := r ++ [.messageOutcome m o] } ∧
      (o = .deferred ∨ s.plat.saved = [] → t.plat = s.plat) ∧ (∀ k, k ≠ m.dstCore → t.core k = s.core k) ∧
      (t.core m.dstCore).chan m.chan.toNat = { (s.core m.dstCore).chan m.chan.toNat with defer := l } ∧
      ((m.srcNode, m.id) ∈ l ↔ o = .deferred) ∧
      ∀ j, j ≠ m.chan.toNat → (t.core m.dstCore).chan j = (s.core m.dstCore).chan j := by
  let u : State := { s with flight := r }
  have noted := noteDeferred_noted u m o
  refine ⟨arriveMsg u m, deferNoted ((s.core m.dstCore).chan m.chan.toNat).defer (m.srcNode, m.id) o,
    exec_messageArrival_next flight, ?_, ?_⟩
  · rw [arriveMsg_turned (s := u) here decided ne]
    conv_lhs => rw [noted.frame]
    rfl
  · rw [arriveMsg_turned (s := u) here decided ne]
    exact ⟨noted.plat, noted.channel.cores, noted.channel.changed, noted.member, noted.channel.channels⟩

/-! ### A slot written -/

/-- Dwords written in a row, read back one by one. -/
theorem readDword_writeBytes_dwords {α : Type} (f : α → Word) (l : List α) (m : Memory) (x : Nat) {k : Nat} (h : k < l.length) :
    Memory.readDword (Memory.writeBytes m x (l.flatMap fun i => leBytes 8 (f i).toNat)) (x + 8 * k) = f l[k] := by
  induction l generalizing m x k with
  | nil => exact absurd h (Nat.not_lt_zero k)
  | cons i l ih =>
    rw [List.flatMap_cons, writeBytes_append, length_leBytes]
    cases k with
    | zero =>
      show Memory.readDword _ x = f i
      have kept : Memory.readBytes (Memory.writeBytes (Memory.writeBytes m x (leBytes 8 (f i).toNat)) (x + 8)
          (l.flatMap fun i => leBytes 8 (f i).toNat)) x 8 = Memory.readBytes (Memory.writeBytes m x (leBytes 8 (f i).toNat)) x 8 :=
        List.map_congr_left fun j hj => Memory.read_writeBytes_outside _ _ _ (.inl (by have := List.mem_range.mp hj; omega))
      have back := Memory.readBytes_writeBytes m x (leBytes 8 (f i).toNat)
      rw [length_leBytes] at back
      rw [Memory.readDword, Memory.readNat, kept, back, leNat_leBytes, Nat.mod_eq_of_lt (BitVec.isLt _),
        BitVec.ofNat_toNat, BitVec.setWidth_eq]
    | succ k =>
      rw [show x + 8 * (k + 1) = x + 8 + 8 * k by omega, ih _ _ (Nat.lt_of_succ_lt_succ h)]
      rfl

theorem stashWrite_mem (ms : MemSys) (i : Nat) (bs : List Byte) : (stashWrite ms i bs).mem = ms.mem := by
  unfold stashWrite
  dsimp only
  split <;> rfl

/-- The bytes of a slot of 64 bytes, or of 8 (R143). -/
def slotBytes (a : Chan) (words : List Word) : List Byte :=
  if qSlot a.w1 = 64 then (List.range 8).flatMap fun i => leBytes 8 (words.getD i 0#64).toNat else leBytes 8 (words.getD 1 0#64).toNat

theorem acceptSlot_ms (s : State) (core : Nat) (c : BitVec 6) (words : List Word) : (acceptSlot s core c words).ms =
    stashWrite s.ms (stashIdx core (chanSlot ((s.core core).chan c.toNat) ((s.core core).chan c.toNat).prod.toNat))
      (slotBytes ((s.core core).chan c.toNat) words) := rfl

theorem acceptSlot_core (s : State) (core : Nat) (c : BitVec 6) (words : List Word) : (acceptSlot s core c words).core core =
    (s.core core).setChan c.toNat { (s.core core).chan c.toNat with
      prod := ((s.core core).chan c.toNat).prod + 1, stamps := ((s.core core).chan c.toNat).stamps ++ [s.nextId + 1] } :=
  State.core_setCore ..

theorem acceptSlot_mem (s : State) (core : Nat) (c : BitVec 6) (words : List Word) : (acceptSlot s core c words).ms.mem = s.ms.mem :=
  (congrArg MemSys.mem (acceptSlot_ms ..)).trans (stashWrite_mem ..)

/-- R143: the dwords of a slot of 64 bytes that was written. -/
theorem acceptSlot_dword {s : State} {core : Nat} {c : BitVec 6} (words : List Word) {a : Chan} (ha : (s.core core).chan c.toNat = a)
    (wide : qSlot a.w1 = 64) {k : Nat} (hk : k < 8) (clean : isStashPoison s.ms (stashIdx core (chanSlot a a.prod.toNat) / 64) = false) :
    Memory.readDword (acceptSlot s core c words).ms.stash (stashIdx core (chanSlot a a.prod.toNat) + 8 * k) = words.getD k 0#64 := by
  rw [acceptSlot_ms, ha, stashWrite_clean _ clean, slotBytes, if_pos wide,
    readDword_writeBytes_dwords (fun i => words.getD i 0#64) (List.range 8) s.ms.stash _ (by rwa [List.length_range]), List.getElem_range]

/-- R143: a message accepted: its slot is written, and its outcome leaves for its source. -/
theorem arriveMsg_accepted {s : State} {m : Msg} (here : m.srcNode = s.plat.node.toNat) (decided : decideMsg s m.dstCore m = .accepted) :
    FlightGrows (acceptSlot (noteDeferred s m .accepted) m.dstCore m.chan m.words) (arriveMsg s m) ∧
      .messageOutcome m .accepted ∈ (arriveMsg s m).flight := by
  let u := acceptSlot (noteDeferred s m .accepted) m.dstCore m.chan m.words
  have node : (kickDispatch u m.dstCore).plat.node = s.plat.node := by
    obtain ⟨f, kicked⟩ := kickDispatch_flightGrows u m.dstCore
    rw [kicked]
    show (noteDeferred s m .accepted).plat.node = s.plat.node
    rw [(noteDeferred_noted s m .accepted).frame]
  have arrived : arriveMsg s m = (kickDispatch u m.dstCore).fly (.messageOutcome m .accepted) := by
    unfold arriveMsg sendOutcome
    simp only [decided, if_true]
    rw [if_pos (here.trans (congrArg BitVec.toNat node.symm))]
  rw [arrived]
  exact ⟨(kickDispatch_flightGrows u _).trans ⟨_, rfl⟩, List.mem_append_right _ (List.mem_singleton_self _)⟩

/-! ### The decision, case by case -/

section
variable {s : State} {core : Nat} {m : Msg} {a : Chan} (ha : (s.core core).chan m.chan.toNat = a)
include ha

theorem decideMsg_off (off : ¬ qEn a.w1 = true) : decideMsg s core m = .returned 2 := by
  unfold decideMsg
  simp [ha, off]

theorem decideMsg_deferred (on : qEn a.w1 = true) (masked : a.masked = true) (request : m.reply = false) :
    decideMsg s core m = .deferred := by
  unfold decideMsg
  simp [ha, on, masked, request]

theorem decideMsg_noRoom (on : qEn a.w1 = true) (h : (a.masked = true ∧ m.reply = true) ∨ (a.masked = false ∧ chanFull a = true)) :
    decideMsg s core m = .returned 1 := by
  unfold decideMsg
  rcases h with ⟨masked, reply⟩ | ⟨masked, full⟩
  · simp [ha, on, masked, reply]
  · simp [ha, on, masked, full]

theorem decideMsg_narrow (on : qEn a.w1 = true) (masked : a.masked = false) (room : chanFull a = false)
    (wide : (1 < m.count ∨ m.call = true) ∧ qSlot a.w1 = 8) : decideMsg s core m = .returned 3 := by
  unfold decideMsg
  simp [ha, on, masked, room, wide]

theorem decideMsg_noCall (on : qEn a.w1 = true) (masked : a.masked = false) (room : chanFull a = false)
    (fits : ¬ ((1 < m.count ∨ m.call = true) ∧ qSlot a.w1 = 8)) (call : chanCall a = true ∧ m.call = false) :
    decideMsg s core m = .returned 4 := by
  unfold decideMsg
  simp only [ha, on, masked, room, Bool.not_true, Bool.false_and, Bool.or_false, Bool.false_eq_true, if_false, Bool.and_eq_true,
    Bool.or_eq_true, decide_eq_true_eq, beq_iff_eq, fits, Bool.not_eq_true']
  exact if_pos call

theorem decideMsg_accepted (on : qEn a.w1 = true) (masked : a.masked = false) (room : chanFull a = false)
    (fits : ¬ ((1 < m.count ∨ m.call = true) ∧ qSlot a.w1 = 8)) (call : ¬ (chanCall a = true ∧ m.call = false)) :
    decideMsg s core m = .accepted := by
  unfold decideMsg
  simp only [ha, on, masked, room, Bool.not_true, Bool.false_and, Bool.or_false, Bool.false_eq_true, if_false, Bool.and_eq_true,
    Bool.or_eq_true, decide_eq_true_eq, beq_iff_eq, fits, Bool.not_eq_true', call]

end

theorem chanFull_iff (a : Chan) : chanFull a = true ↔ 2 ^ fieldOf a.w1 9 6 ≤ (a.prod - a.cons).toNat := decide_eq_true_iff

theorem chanCall_iff (a : Chan) : chanCall a = true ↔ a.w1.getLsbD 42 = true ∧ chanMode a.w0 = 0 := by
  rw [chanCall, Bool.and_eq_true, beq_iff_eq]

theorem qSlot_narrow (w : Word) : qSlot w = 8 ↔ w.getLsbD 5 = false := by
  unfold qSlot
  cases w.getLsbD 5 <;> decide

theorem qSlot_wide {w : Word} (h : w.getLsbD 5 = true) : qSlot w = 64 := by rw [qSlot, if_pos h]

/-! ### An outcome at its sender -/

theorem exec_messageOutcome_next {s : State} {m : Msg} {o : MsgOutcome} {r : List Event} (h : s.flight = .messageOutcome m o :: r) :
    exec .messageOutcome s = .next (takeOutcome { s with flight := r } m o) := by
  rw [exec_messageOutcome, execMessageOutcome, h]

/-- Only the send entries of hart h change, and what is on its way. -/
structure SendqChanged (h : Nat) (s t : State) : Prop where
  hart : ∀ k, t.hart k = { s.hart k with sendq := (t.hart k).sendq }
  others : ∀ k, k ≠ h → t.hart k = s.hart k
  cores : t.cores = s.cores
  ms : t.ms = s.ms

theorem SendqChanged.trans {h : Nat} {s t u : State} (a : SendqChanged h s t) (b : SendqChanged h t u) : SendqChanged h s u where
  hart k := by rw [b.hart k, a.hart k]
  others k ne := (b.others k ne).trans (a.others k ne)
  cores := b.cores.trans a.cores
  ms := b.ms.trans a.ms

theorem SendqChanged.refl (h : Nat) (s : State) : SendqChanged h s s := ⟨fun _ => rfl, fun _ _ => rfl, rfl, rfl⟩

theorem SendqChanged.core {h : Nat} {s t : State} (e : SendqChanged h s t) (g : Nat) : t.core g = s.core g := by
  rw [State.core, State.core, e.cores]

theorem sendqChanged_setHart (s : State) (h : Nat) (q : List SendEntry) : SendqChanged h s (s.setHart h { s.hart h with sendq := q }) where
  hart k := by
    by_cases e : k = h
    · rw [e, State.hart_setHart]
    · rw [State.hart_setHart_ne s _ e]
  others k ne := State.hart_setHart_ne s _ ne
  cores := rfl
  ms := rfl

theorem offerMsg_hart (s : State) (h : Nat) (m : Msg) (k : Nat) : (offerMsg s h m).hart k = s.hart k := by
  rw [offerMsg_frame]
  rfl

theorem offerMsg_sendqChanged (s : State) (h : Nat) (m : Msg) : SendqChanged h s (offerMsg s h m) where
  hart k := by rw [offerMsg_hart]
  others k _ := offerMsg_hart s h m k
  cores := by rw [offerMsg_frame]
  ms := by rw [offerMsg_frame]

theorem closeMsg_sendqChanged (s : State) (m : Msg) : SendqChanged (slotOf m.srcCore m.srcHart) s (closeMsg s m) :=
  sendqChanged_setHart ..

theorem closeMsg_sendq (s : State) (m : Msg) : ((closeMsg s m).hart (slotOf m.srcCore m.srcHart)).sendq =
    (s.hart (slotOf m.srcCore m.srcHart)).sendq.filter fun e => e.msg.id != m.id := by
  rw [closeMsg, State.hart_setHart]

theorem markReturned_sendqChanged (s : State) (m : Msg) : SendqChanged (slotOf m.srcCore m.srcHart) s (markReturned s m) :=
  sendqChanged_setHart ..

/-- A released message keeps its entry, and the entries their messages. -/
theorem releaseMsg_keeps (s : State) (h id : Nat) :
    SendqChanged h s (releaseMsg s h id) ∧ ((releaseMsg s h id).hart h).sendq.map (·.msg) = (s.hart h).sendq.map (·.msg) := by
  let f := fun e : SendEntry => if e.msg.id = id then
    { e with buffered := false, taken := !e.request && !waitsBehind (entriesBefore (s.hart h) e.msg) e.msg } else e
  let u := s.setHart h { s.hart h with sendq := (s.hart h).sendq.map f }
  have entries : (u.hart h).sendq.map (·.msg) = (s.hart h).sendq.map (·.msg) := by
    rw [State.hart_setHart, List.map_map]
    refine List.map_congr_left fun e _ => ?_
    dsimp only [Function.comp, f]
    split <;> rfl
  have changed : SendqChanged h s u := sendqChanged_setHart ..
  unfold releaseMsg
  dsimp only
  split
  · exact ⟨changed.trans (offerMsg_sendqChanged ..), by rw [offerMsg_hart]; exact entries⟩
  · exact ⟨changed, entries⟩

theorem offerNext_keeps (s : State) (m : Msg) : SendqChanged (slotOf m.srcCore m.srcHart) s (offerNext s m) ∧
    ((offerNext s m).hart (slotOf m.srcCore m.srcHart)).sendq.map (·.msg) = (s.hart (slotOf m.srcCore m.srcHart)).sendq.map (·.msg) := by
  unfold offerNext
  dsimp only
  split
  · exact releaseMsg_keeps ..
  · exact ⟨.refl _ s, rfl⟩

/-- R170: an accepted message's entry is freed, and the next of its stream offered. -/
theorem closed_keeps (s : State) (m : Msg) : SendqChanged (slotOf m.srcCore m.srcHart) s (offerNext (closeMsg s m) m) ∧
    ((offerNext (closeMsg s m) m).hart (slotOf m.srcCore m.srcHart)).sendq.map (·.msg) =
      ((s.hart (slotOf m.srcCore m.srcHart)).sendq.filter fun e => e.msg.id != m.id).map (·.msg) := by
  obtain ⟨changed, messages⟩ := offerNext_keeps (closeMsg s m) m
  exact ⟨(closeMsg_sendqChanged s m).trans changed, by rw [messages, closeMsg_sendq]⟩

theorem statusMsg_none {s : State} {m : Msg} (h : m.status = none) (code : Nat) : statusMsg s m code = s := by
  unfold statusMsg
  rw [h]

theorem statusMsg_resident {s : State} {m : Msg} {q : Reg} {k : Nat} (h : m.status = some q) (ne : q ≠ 0#5)
    (found : whereIs s (slotOf m.srcCore m.srcHart) m.srcTag = .resident k) (code : Nat) : statusMsg s m code =
      s.setHart k { (s.hart k).wx q (BitVec.ofNat 64 code) with landCnt := ((s.hart k).wx q (BitVec.ofNat 64 code)).landCnt + 1, idle := false } := by
  unfold statusMsg
  rw [h]
  dsimp only
  rw [if_neg ne, found]

/-- R170: the status of an accepted message at the sender that waits for it. -/
theorem takeOutcome_status {s : State} {m : Msg} {q : Reg} {k : Nat} (status : m.status = some q) (ne : q ≠ 0#5)
    (found : whereIs s (slotOf m.srcCore m.srcHart) m.srcTag = .resident k) :
    ((takeOutcome s m .accepted).hart k).rx q = 0#64 ∧ ((takeOutcome s m .accepted).hart k).xok q = true ∧
      XKept (s.hart k) ((takeOutcome s m .accepted).hart k) [q] ∧ (takeOutcome s m .accepted).ms = s.ms := by
  let b := (s.hart k).wx q 0#64
  let u : State := s.setHart k { b with landCnt := b.landCnt + 1, idle := false }
  have taken : takeOutcome s m .accepted = offerNext (closeMsg u m) m :=
    congrArg (fun v => offerNext (closeMsg v m) m) (statusMsg_resident status ne found 0)
  have changed := (closed_keeps u m).1
  have sent := changed.hart k
  rw [State.hart_setHart] at sent
  rw [taken, sent]
  refine ⟨(Hart.rx_wx_self (s.hart k) q 0#64).trans (if_neg ne), Hart.xok_wx_self (s.hart k) q 0#64, fun x hx => ?_, changed.ms⟩
  have other : x ≠ q := by simpa using hx
  exact ⟨Hart.rx_wx_ne (s.hart k) 0#64 other, Hart.xok_wx_ne (s.hart k) 0#64 other⟩

/-- An event counted at a sender that no save area keeps. -/
theorem countAt_unsaved {s : State} {h : Nat} {tag : BitVec 16} (unsaved : ∀ j g p, whereIs s h tag ≠ .saved j g p) (code n : Nat) :
    (countAt s h tag code n).ms = s.ms ∧ (countAt s h tag code n).cores = s.cores ∧ (countAt s h tag code n).time = s.time := by
  unfold countAt
  split
  · exact ⟨rfl, rfl, rfl⟩
  · split
    · exact ⟨rfl, rfl, rfl⟩
    · rename_i found
      exact (unsaved _ _ _ found).elim
    · exact ⟨rfl, rfl, rfl⟩

/-- R152: a returned message waits for channel 1 of its sender's core. -/
theorem queueReturned_spec (s : State) (m : Msg) (reason : Nat) : (queueReturned s m reason).ms = s.ms ∧
    ((queueReturned s m reason).core m.srcCore).retbuf = (s.core m.srcCore).retbuf ++ [⟨m, reason, s.time.toNat % 2 ^ 32⟩] := by
  let u := (markReturned s m).setCore m.srcCore { (markReturned s m).core m.srcCore with
    retbuf := ((markReturned s m).core m.srcCore).retbuf ++ [⟨m, reason, (markReturned s m).time.toNat % 2 ^ 32⟩] }
  have kicked : FlightGrows u (queueReturned s m reason) := kickReturned_flightGrows ..
  rw [kicked.ms, kicked.core, State.core_setCore, (markReturned_sendqChanged s m).core]
  exact ⟨(markReturned_sendqChanged s m).ms, rfl⟩

theorem takeOutcome_returned {s : State} {m : Msg} (unsaved : ∀ j g p, whereIs s (slotOf m.srcCore m.srcHart) m.srcTag ≠ .saved j g p)
    (plain : m.isStatus = false) (c : Nat) : (takeOutcome s m (.returned c)).ms = s.ms ∧
      ((takeOutcome s m (.returned c)).core m.srcCore).retbuf = (s.core m.srcCore).retbuf ++ [⟨m, c, s.time.toNat % 2 ^ 32⟩] := by
  let u := countAt s (slotOf m.srcCore m.srcHart) m.srcTag evReturned 1
  obtain ⟨ms, cores, time⟩ := countAt_unsaved unsaved evReturned 1
  obtain ⟨queuedMs, queued⟩ := queueReturned_spec u m c
  have taken : takeOutcome s m (.returned c) = offerNext (queueReturned u m c) m := by
    unfold takeOutcome
    dsimp only
    rw [plain]
    rfl
  have next := (offerNext_keeps (queueReturned u m c) m).1
  have core : u.core m.srcCore = s.core m.srcCore := by rw [State.core, cores]; rfl
  rw [taken, next.ms, next.core, queuedMs, queued, core]
  exact ⟨ms, by rw [time]⟩

/-! ### A returned message enters channel 1 -/

theorem exec_returnBufferDrain_next {s : State} {core : Nat} {r : List Event} (h : s.flight = .returnBufferDrain core :: r) :
    exec .returnBufferDrain s = .next (drainReturned { s with flight := r } core) := by
  rw [exec_returnBufferDrain, execReturnBufferDrain, h]

theorem retOpen_iff (s : State) (core : Nat) : retOpen s core = true ↔ ((s.core core).chan 1).w1.getLsbD 3 = true ∧
    ((s.core core).chan 1).masked = false ∧
      ¬ 2 ^ fieldOf ((s.core core).chan 1).w1 9 6 ≤ (((s.core core).chan 1).prod - ((s.core core).chan 1).cons).toNat := by
  unfold retOpen
  simp only [Bool.and_eq_true, Bool.not_eq_true', ← chanFull_iff, Bool.not_eq_true, and_assoc]
  rfl

theorem drainReturned_kept {s : State} {core : Nat} (h : (s.core core).retbuf = [] ∨ ¬ retOpen s core = true) :
    drainReturned s core = s := by
  unfold drainReturned
  dsimp only
  split
  · rename_i cons
    exact if_neg (h.resolve_left (by rw [cons]; exact List.cons_ne_nil _ _))
  · rfl

/-- R152: the oldest returned message takes the next slot of channel 1. -/
theorem drainReturned_enters {s : State} {core : Nat} {m : Returned} {l : List Returned} (h : (s.core core).retbuf = m :: l)
    (isOpen : retOpen s core = true) : ((drainReturned s core).core core).retbuf = l ∧
      (((drainReturned s core).core core).chan 1).prod = ((s.core core).chan 1).prod + 1 ∧ (drainReturned s core).ms.mem = s.ms.mem := by
  let u := s.setCore core { s.core core with retbuf := l }
  let words := m.msg.words.take 7 ++ [BitVec.ofNat 64 (m.stamp * 2 ^ 32 + m.reason)]
  have drained : drainReturned s core = kickReturned (enterReturned u core m) core := by
    unfold drainReturned
    simp only [h, isOpen, if_true]
    rfl
  have kicked : FlightGrows (closeMsg (acceptSlot u core 1#6 words) m.msg) (drainReturned s core) := by
    rw [drained]
    exact (kickDispatch_flightGrows ..).trans (kickReturned_flightGrows ..)
  have closed := closeMsg_sendqChanged (acceptSlot u core 1#6 words) m.msg
  have core_u : u.core core = { s.core core with retbuf := l } := State.core_setCore ..
  rw [kicked.core, kicked.ms, closed.core, closed.ms, acceptSlot_core, acceptSlot_mem, core_u]
  exact ⟨rfl, congrArg Chan.prod (Core.chan_setChan_self ..), rfl⟩

/-- Settles O51: roles field by field, the handler table and the software queues word by word, the decision at the destination case by
case, and an outcome by what it does to the send entries of its sender. -/
theorem channelEvents : Obligations.ChannelEvents := by
  unfold Obligations.ChannelEvents
  intro s r
  refine ⟨?_, ?_, ?_, ?_, ?_, ?_⟩
  · intro w g v flight
    refine ⟨_, exec_hroleWrite_next flight, fun k hk => ?_⟩
    obtain ⟨hrole, role⟩ := writeRoles_spec { s with flight := r } g v hk
    rw [rolesWritten_digit _ _ hk] at hrole role
    exact ⟨hrole, role⟩
  · intro w g c hi v flight a v1 fits
    rw [exec_handlerTableWrite_next flight]
    refine ⟨fun c0 notM => ?_, fun may => ?_⟩
    · rw [writeHandler, if_pos ⟨c0, notM⟩]
    · have may' : ¬ (c = 0#6 ∧ w.mode ≠ .m) := fun ⟨c0, notM⟩ => may.elim (fun ne => ne c0) notM
      refine ⟨_, rfl, ?_⟩
      cases hi with
      | true =>
        obtain ⟨changed, ms⟩ := writeHandler_hi (s := { s with flight := r }) may' g v
        refine ⟨changed.harts, ms, changed.channels, changed.cores, fun _ idle => ?_, fun _ busy => ?_, nofun, nofun⟩
        · rw [changed.changed, chanWord1_idle (by exact idle)]
          refine congrArg (fun x : Word => { a with w1 := x }) ?_
          exact if_congr (and_congr_right' (not_congr (mayEnable_iff ..))) rfl rfl
        · rw [changed.changed]
          exact chanWord1_busy (by exact busy) v
      | false =>
        cases busy : chanBusy s g c with
        | true =>
          obtain ⟨changed, ms⟩ := writeHandler_lo_busy (s := { s with flight := r }) may' (by exact busy) v
          exact ⟨changed.harts, ms, changed.channels, changed.cores, nofun, nofun, fun _ _ => changed.changed, fun _ => nofun⟩
        | false =>
          obtain ⟨x, changed, off, ms⟩ := writeHandler_lo_idle (s := { s with flight := r }) may' (by exact busy) v
          refine ⟨changed.harts, ms, changed.channels, changed.cores, nofun, nofun, fun _ => nofun, fun _ _ en => ?_⟩
          rw [changed.changed, off en]
          rfl
  · intro w g i v flight q v1 on
    refine ⟨_, exec_softwareQueueWrite_next flight, ?_⟩
    rw [writeSoft_eq, State.core_setCore, Core.softq_setSoft_self]
    exact ⟨rfl, rfl, fun h => if_pos h, fun h => if_neg h, fun j ne => Core.softq_setSoft_ne _ _ ne⟩
  · intro m here a full callChan turned on
    have ha : (s.core m.dstCore).chan m.chan.toNat = a := rfl
    have turnedBy : ∀ o, decideMsg s m.dstCore m = o → o ≠ .accepted → turned o := fun o decided ne flight =>
      arrival_turned here decided ne flight
    have hasRoom : ¬ full → chanFull a = false := fun room => Bool.eq_false_iff.mpr fun f => room ((chanFull_iff a).mp f)
    have narrow : ∀ {p : Prop}, (p ∧ a.w1.getLsbD 5 = false) ↔ (p ∧ qSlot a.w1 = 8) := and_congr_right' (qSlot_narrow a.w1).symm
    have call : (callChan ∧ m.call = false) ↔ (chanCall a = true ∧ m.call = false) := and_congr_left' (chanCall_iff a).symm
    refine ⟨?_, ?_, ?_, ?_, ?_, ?_, ?_⟩
    · exact fun off => turnedBy _ (decideMsg_off ha off) nofun
    · exact fun on masked request => turnedBy _ (decideMsg_deferred ha on masked request) nofun
    · exact fun on h => turnedBy _ (decideMsg_noRoom ha on (h.imp_right (And.imp_right (chanFull_iff a).mpr))) nofun
    · exact fun on masked room wide w5 => turnedBy _ (decideMsg_narrow ha on masked (hasRoom room) (narrow.mp ⟨wide, w5⟩)) nofun
    · exact fun on masked room fits isCall noCall =>
        turnedBy _ (decideMsg_noCall ha on masked (hasRoom room) (fun w => fits (narrow.mpr w)) (call.mp ⟨isCall, noCall⟩)) nofun
    · intro flight on masked room fits noCall
      let u : State := { s with flight := r }
      have decided : decideMsg u m.dstCore m = .accepted :=
        decideMsg_accepted (a := a) rfl on masked (hasRoom room) (fun w => fits (narrow.mpr w)) (fun w => noCall (call.mpr w))
      obtain ⟨grows, outcome⟩ := arriveMsg_accepted (s := u) here decided
      obtain ⟨frame, -, -, channel⟩ := noteDeferred_noted u m .accepted
      have noted : (noteDeferred u m .accepted).ms = s.ms := by rw [frame]
      refine ⟨_, exec_messageArrival_next flight, outcome, ?_, ?_, ?_, ?_, fun wide k hk clean => ?_⟩
      · rw [grows.harts]
        exact channel.harts
      · rw [grows.ms, acceptSlot_mem, noted]
      · rw [grows.core, acceptSlot_core, Core.chan_setChan_self, channel.changed]
        rfl
      · rw [grows.core, acceptSlot_core, Core.chan_setChan_self, channel.changed]
        rfl
      · have slot : chanSlot a a.prod.toNat = fieldOf a.w1 25 10 * 64 + a.prod.toNat % 2 ^ fieldOf a.w1 9 6 * 64 := by
          rw [chanSlot, qSlot_wide wide]
          rfl
        rw [grows.ms]
        rw [← slot] at clean ⊢
        refine acceptSlot_dword m.words channel.changed (qSlot_wide wide) hk ?_
        rw [noted]
        exact clean
    · intro flight here
      refine ⟨_, exec_messageReoffer_next flight, ?_⟩
      rw [exec_messageArrival_next rfl, offerAgain, if_pos here]
  · intro m o flight h
    rw [exec_messageOutcome_next flight]
    refine ⟨?_, ?_, ?_, ?_⟩
    · rintro rfl
      rfl
    · rintro rfl status
      obtain ⟨changed, messages⟩ := closed_keeps { s with flight := r } m
      refine ⟨_, rfl, ?_⟩
      rw [takeOutcome, statusMsg_none status]
      exact ⟨changed.ms, changed.hart h, messages, changed.others⟩
    · rintro q k rfl status ne found
      exact ⟨_, rfl, takeOutcome_status (s := { s with flight := r }) status ne (by exact found)⟩
    · rintro c rfl plain unsaved
      obtain ⟨ms, retbuf⟩ := takeOutcome_returned (s := { s with flight := r }) (by exact unsaved) plain c
      exact ⟨_, rfl, retbuf, ms⟩
  · intro core flight k a open_
    have isOpen : retOpen { s with flight := r } core = true ↔ open_ := retOpen_iff ..
    rw [exec_returnBufferDrain_next flight]
    refine ⟨fun h => ?_, fun m l full o => ?_⟩
    · rw [drainReturned_kept (by exact h.imp_right (mt isOpen.mp))]
    · exact ⟨_, rfl, drainReturned_enters (by exact full) (isOpen.mpr o)⟩

end Sys2Proof.Machine
end

section
/-! SUPPORT. The results of the integer operations as arithmetic on 64-bit vectors, and O3 (R53, R54). -/

namespace Sys2Proof.Machine
open Sys2Proof.Safety

/-! ### Results of the operations of two registers -/

/-- A choice by ≤ that gives the same where both are equal is a choice by <. -/
theorem ite_le_eq_ite_lt {α β : Type} [LinearOrder β] {p q : β} {x y : α} (h : p = q → x = y) :
    (if p ≤ q then x else y) = if p < q then x else y := by
  rcases lt_trichotomy p q with lt | eq | gt
  · rw [if_pos lt.le, if_pos lt]
  · rw [if_pos eq.le, if_neg eq.not_lt, h eq]
  · rw [if_neg gt.not_ge, if_neg gt.not_gt]

theorem minS_eq (x y : Word) : minS x y = if x.slt y then x else y := by
  simp only [BitVec.slt, decide_eq_true_eq]
  exact ite_le_eq_ite_lt BitVec.eq_of_toInt_eq

theorem maxS_eq (x y : Word) : maxS x y = if x.slt y then y else x := by
  simp only [BitVec.slt, decide_eq_true_eq]
  exact ite_le_eq_ite_lt fun e => (BitVec.eq_of_toInt_eq e).symm

theorem minU_eq (x y : Word) : minU x y = if x.ult y then x else y := by
  simp only [BitVec.ult, decide_eq_true_eq]
  exact ite_le_eq_ite_lt BitVec.eq_of_toNat_eq

theorem maxU_eq (x y : Word) : maxU x y = if x.ult y then y else x := by
  simp only [BitVec.ult, decide_eq_true_eq]
  exact ite_le_eq_ite_lt fun e => (BitVec.eq_of_toNat_eq e).symm

theorem rotL_eq_rotateLeft (x : Word) {n : Nat} (h : n < 64) : rotL x n = x.rotateLeft n := by
  rw [BitVec.rotateLeft_def, Nat.mod_eq_of_lt h]; rfl

theorem rotR_eq_rotateRight (x : Word) {n : Nat} (h : n < 64) : rotR x n = x.rotateRight n := by
  rw [BitVec.rotateRight_def, Nat.mod_eq_of_lt h]; rfl

/-- The high half of 128 bits of an integer is its quotient by 2^64. -/
theorem extractLsb'_high_ofInt (p : Int) : (BitVec.ofInt 128 p).extractLsb' 64 64 = BitVec.ofInt 64 (p / 2 ^ 64) := by
  apply BitVec.eq_of_toNat_eq
  rw [BitVec.extractLsb'_toNat, BitVec.toNat_ofInt, BitVec.toNat_ofInt, Nat.shiftRight_eq_div_pow]
  omega

theorem mulHighS_eq (x y : Word) : mulHighS x y = (x.signExtend 128 * y.signExtend 128).extractLsb' 64 64 := by
  rw [BitVec.signExtend, BitVec.signExtend, ← BitVec.ofInt_mul, extractLsb'_high_ofInt]; rfl

theorem mulHighU_eq (x y : Word) : mulHighU x y = (x.setWidth 128 * y.setWidth 128).extractLsb' 64 64 := by
  apply BitVec.eq_of_toNat_eq
  have fits : x.toNat * y.toNat < 2 ^ 128 := by
    calc x.toNat * y.toNat < 2 ^ 64 * 2 ^ 64 := Nat.mul_lt_mul'' x.isLt y.isLt
      _ = 2 ^ 128 := rfl
  rw [mulHighU, BitVec.extractLsb'_toNat, BitVec.toNat_mul, BitVec.toNat_setWidth_of_le (by omega), BitVec.toNat_setWidth_of_le (by omega),
    Nat.mod_eq_of_lt fits, Nat.shiftRight_eq_div_pow, BitVec.toNat_ofNat]

/-- R54: the quotient toward zero; 2^63 wraps. -/
theorem divS_eq (x y : Word) : divS x y = if y = 0#64 then BitVec.allOnes 64 else x.sdiv y := by
  rw [divS]
  congr 1
  apply BitVec.eq_of_toInt_eq
  rw [BitVec.toInt_ofInt, BitVec.toInt_sdiv]

theorem divU_eq (x y : Word) : divU x y = if y = 0#64 then BitVec.allOnes 64 else x.udiv y := by
  rw [divU]
  congr 1
  apply BitVec.eq_of_toNat_eq
  rw [BitVec.toNat_ofNat, BitVec.udiv_eq, BitVec.toNat_udiv, Nat.mod_eq_of_lt (Nat.lt_of_le_of_lt (Nat.div_le_self ..) x.isLt)]

theorem remS_eq (x y : Word) : remS x y = if y = 0#64 then x else x.srem y := by
  rw [remS, ← BitVec.toInt_srem, BitVec.ofInt_toInt]

theorem remU_eq (x y : Word) : remU x y = if y = 0#64 then x else x.umod y := by
  rw [remU, BitVec.umod_eq, ← BitVec.toNat_umod, BitVec.ofNat_toNat, BitVec.setWidth_eq]

/-! ### What the forms write -/

/-- An instruction that is an operation of two registers with result v writes it. -/
theorem writesX_of_aluRR {s : State} {i : Instr} {d a b : Reg} {f : Word → Word → Word} {v : Word} (h : XReady s [a, b]) (hd : XFree s d)
    (meaning : exec i s = aluRR d a b f s) (result : f (s.me.rx a) (s.me.rx b) = v) : ∃ t, exec i s = .next t ∧ WritesX s t d v 4 := by
  subst result
  exact ⟨_, meaning.trans (aluRR_ok f h hd), writesX_step4 ..⟩

/-- Settles O3: every form is `aluRR` of its result. -/
theorem integerOperations : Obligations.IntegerOperations := by
  unfold Obligations.IntegerOperations
  refine ⟨fun s d a b h hd => ?_, fun s d a b h hd => ?_, fun d a b i f7 f3 => ?_⟩
  · have amount : shamt (s.me.rx b) < 64 := Nat.mod_lt _ (by decide)
    have writes {i f v} := writesX_of_aluRR (i := i) (f := f) (v := v) h hd
    exact ⟨writes (exec_add s) rfl, writes (exec_sub s) rfl, writes (exec_min s) (minS_eq ..), writes (exec_max s) (maxS_eq ..),
      writes (exec_minu s) (minU_eq ..), writes (exec_maxu s) (maxU_eq ..), writes (exec_slt s) rfl, writes (exec_sltu s) rfl,
      writes (exec_and s) rfl, writes (exec_or s) rfl, writes (exec_xor s) rfl, writes (exec_andn s) rfl, writes (exec_orn s) rfl,
      writes (exec_xnor s) rfl, writes (exec_sll s) rfl, writes (exec_srl s) rfl, writes (exec_sra s) rfl,
      writes (exec_rol s) (rotL_eq_rotateLeft _ amount), writes (exec_ror s) (rotR_eq_rotateRight _ amount)⟩
  · have writes {i f v} := writesX_of_aluRR (i := i) (f := f) (v := v) h hd
    exact ⟨writes (exec_mul s) rfl, writes (exec_mulh s) (mulHighS_eq ..), writes (exec_mulhu s) (mulHighU_eq ..),
      writes (exec_div s) (divS_eq ..), writes (exec_divu s) (divU_eq ..), writes (exec_rem s) (remS_eq ..),
      writes (exec_remu s) (remU_eq ..)⟩
  · intro listed
    refine (List.forall_iff_forall_mem (p := fun e : Instr × BitVec 7 × BitVec 3 =>
      encode e.1 = some (4, wordR e.2.1 b e.2.2 a d 0x01))).mp ?_ _ listed
    and_intros <;> rfl

end Sys2Proof.Machine
end

section
/-! SUPPORT. Bit counts, bit fields and immediates bit by bit (R55 to R58), the layouts of R14, and O4. -/

namespace Sys2Proof.Machine
open Sys2Proof.Safety

/-! ### Bit counts and the reversal (R55) -/

/-- The first of m numbers that a predicate holds of, m where there is none. -/
theorem find?_range_getD (p : Nat → Bool) (m : Nat) : ((List.range m).find? p).getD m ≤ m ∧
    (∀ k, k < ((List.range m).find? p).getD m → p k = false) ∧
      (((List.range m).find? p).getD m < m → p (((List.range m).find? p).getD m) = true) := by
  cases found : (List.range m).find? p with
  | none =>
    rw [List.find?_range_eq_none] at found
    exact ⟨le_rfl, fun k hk => by simpa using found k hk, fun h => absurd h (lt_irrefl m)⟩
  | some n =>
    rw [List.find?_range_eq_some] at found
    obtain ⟨holds, below, first⟩ := found
    exact ⟨(List.mem_range.mp below).le, fun k hk => by simpa using first k hk, fun _ => holds⟩

/-- BREV's sum is the number of the reversed bits. -/
theorem brev64_getLsbD (x : Word) {i : Nat} (h : i < 64) : (brev64 x).getLsbD i = x.getLsbD (63 - i) := by
  have sum : (fun (n : Nat) k => n + (if x.getLsbD (63 - k) then 2 ^ k else 0)) =
      fun n k => if x.getLsbD (63 - k) then n + 2 ^ k else n := by
    funext n k
    split <;> rfl
  rw [brev64, sum, BitVec.getLsbD_ofNat, (sumBits (fun k => x.getLsbD (63 - k)) 64).2]
  simp [h]

/-! ### Bit fields (R56) -/

theorem fieldPos_eq (y : Word) : fieldPos y = (y.extractLsb' 0 6).toNat := fieldOf_eq_extractLsb' ..

/-- The mask of a field has the bits below its length. -/
theorem fieldMask_getLsbD (y : Word) (i : Nat) :
    (fieldMask y).getLsbD i = (decide (i < 64) && decide (i < (y.extractLsb' 8 6).toNat)) := by
  rw [fieldMask, fieldOf_eq_extractLsb', BitVec.getLsbD_ofNat, Nat.testBit_two_pow_sub_one]

theorem bextOf_getLsbD (x y : Word) {i : Nat} (h : i < 64) :
    (bextOf x y).getLsbD i = (decide (i < (y.extractLsb' 8 6).toNat) && x.getLsbD ((y.extractLsb' 0 6).toNat + i)) := by
  rw [bextOf, fieldPos_eq, BitVec.getLsbD_and, BitVec.getLsbD_ushiftRight, fieldMask_getLsbD, decide_eq_true h, Bool.true_and, Bool.and_comm]

theorem binsOf_getLsbD (old x y : Word) {i : Nat} (h : i < 64) : (binsOf old x y).getLsbD i =
    if (y.extractLsb' 0 6).toNat ≤ i ∧ i < (y.extractLsb' 0 6).toNat + (y.extractLsb' 8 6).toNat then
      x.getLsbD (i - (y.extractLsb' 0 6).toNat) else old.getLsbD i := by
  simp only [binsOf, fieldPos_eq, BitVec.getLsbD_or, BitVec.getLsbD_and, BitVec.getLsbD_not, BitVec.getLsbD_shiftLeft, fieldMask_getLsbD]
  generalize (y.extractLsb' 0 6).toNat = pos, (y.extractLsb' 8 6).toNat = len
  by_cases low : i < pos
  · rw [if_neg (by omega)]
    simp [h, low]
  · have inside : i - pos < len ↔ i < pos + len := by omega
    have near : i - pos < 64 := by omega
    by_cases high : i < pos + len
    · rw [if_pos ⟨by omega, high⟩]
      simp [h, low, inside, near, high]
    · rw [if_neg (by omega)]
      simp [h, low, inside, near, high]

/-! ### Immediates (R58) -/

/-- imm20 with twelve zeros below it, extended, is the extended imm20 shifted. -/
theorem upper20_eq (i : BitVec 20) : upper20 i = i.signExtend 64 <<< 12 := by
  apply BitVec.eq_of_getLsbD_eq
  intro k hk
  rw [upper20, BitVec.getLsbD_signExtend, BitVec.getLsbD_append, BitVec.getLsbD_shiftLeft, BitVec.getLsbD_signExtend, BitVec.msb_append]
  by_cases low : k < 12
  · simp [low, hk, Nat.lt_of_lt_of_le low]
  · have field : k - 12 < 20 ↔ k < 32 := by omega
    have near : k - 12 < 64 := by omega
    simp [low, hk, field, near]

/-! ### The layouts (R14) -/

theorem encode_of_encWord {i : Instr} {w : BitVec 32} (h : encWord i = some w) : encode i = some (4, w) := by rw [encode, h]

theorem fmt_eq_wordI (i : BitVec 12) (f3 : BitVec 3) (a d : Reg) (m : BitVec 6) :
    fmt (i.extractLsb' 5 7) (i.extractLsb' 0 5) f3 a d m = wordI i f3 a d m := by
  rw [fmt, imm12_parts]; rfl

theorem fmt_eq_wordI_shift (n : BitVec 6) (f3 : BitVec 3) (a d : Reg) (m : BitVec 6) :
    fmt (0#6 ++ n.extractLsb' 5 1) (n.extractLsb' 0 5) f3 a d m = wordI (n.setWidth 12) f3 a d m := by
  have parts : ∀ n : BitVec 6, 0#6 ++ n.extractLsb' 5 1 = (n.setWidth 12).extractLsb' 5 7 ∧
      n.extractLsb' 0 5 = (n.setWidth 12).extractLsb' 0 5 := by decide
  rw [(parts n).1, (parts n).2, fmt_eq_wordI]

theorem fmt_eq_wordU (i : BitVec 20) (d : Reg) (m : BitVec 6) :
    fmt (i.extractLsb' 13 7) (i.extractLsb' 8 5) (i.extractLsb' 5 3) (i.extractLsb' 0 5) d m = wordU i d m := by
  rw [fmt, imm20_parts]; rfl

/-! ### What the forms write -/

/-- An instruction that is an operation of one register with result v writes it. -/
theorem writesX_of_aluR {s : State} {i : Instr} {d a : Reg} {f : Word → Word} {v : Word} (h : XReady s [a]) (hd : XFree s d)
    (meaning : exec i s = aluR d a f s) (result : f (s.me.rx a) = v) : ∃ t, exec i s = .next t ∧ WritesX s t d v 4 := by
  subst result
  exact ⟨_, meaning.trans (aluR_ok f h hd), writesX_step4 ..⟩

theorem writesX_of_aluPc {s : State} {i : Instr} {d : Reg} {f : Word → Word} {v : Word} (hd : XFree s d)
    (meaning : exec i s = aluPc d f s) (result : f s.me.pc = v) : ∃ t, exec i s = .next t ∧ WritesX s t d v 4 := by
  subst result
  exact ⟨_, meaning.trans (aluPc_ok f hd), writesX_step4 ..⟩

theorem exec_bins_writes {s : State} {d a b : Reg} (h : XReady s [a, b]) (hd : XFree s d) (ready : XReady s [d]) :
    ∃ t, exec (.bins d a b) s = .next t ∧ WritesX s t d (binsOf (s.me.rx d) (s.me.rx a) (s.me.rx b)) 4 := by
  refine ⟨_, ?_, writesX_step4 ..⟩
  rw [exec_bins, execBins, needX_ok (h a (by simp)), needX_ok (h b (by simp)), needX_ok (ready d (by simp)), freeX_ok hd, bind_ok, bind_ok,
    bind_ok, bind_ok, finish_ok, step4_congr]
  rfl

/-- An instruction that waits for a register changes nothing but its hart's mark. -/
theorem exec_bins_waits {s : State} {d a b : Reg} (h : XReady s [a, b]) (busy : s.me.xok d = false) :
    exec (.bins d a b) s = .next (s.setMe { s.me with stall := some .reg }) := by
  have waits : needX d s = .error (.wait .reg) := by simp [needX, busy]
  rw [exec_bins, execBins, needX_ok (h a (by simp)), needX_ok (h b (by simp)), waits, bind_ok, bind_ok, bind_error, finish_error]
  rfl

/-- Settles O4: every form is `aluRR`, `aluR` or `aluPc` of its result. -/
theorem bitAndImmediateOperations : Obligations.BitAndImmediateOperations := by
  unfold Obligations.BitAndImmediateOperations
  refine ⟨fun s d a h hd => ?_, fun s d a b h hd => ?_, fun d a b => ?_, fun s d a i n h hd => ?_, fun s d i hd => ?_,
    fun d a i n j => ?_⟩
  · have writes {i f v} := writesX_of_aluR (i := i) (f := f) (v := v) h hd
    refine ⟨?_, ?_, ?_, ?_⟩
    · obtain ⟨t, next, written⟩ := writes (exec_clz s) rfl
      exact ⟨t, _, next, written, find?_range_getD (fun k => (s.me.rx a).getLsbD (63 - k)) 64⟩
    · obtain ⟨t, next, written⟩ := writes (exec_ctz s) rfl
      exact ⟨t, _, next, written, find?_range_getD (fun k => (s.me.rx a).getLsbD k) 64⟩
    · exact writes (exec_popc s) (by rw [popc64, List.countP_eq_length_filter])
    · obtain ⟨t, next, written⟩ := writes (exec_brev s) rfl
      exact ⟨t, _, next, written, fun i => brev64_getLsbD _⟩
  · refine ⟨?_, fun ready => ?_, fun busy => ?_⟩
    · obtain ⟨t, next, written⟩ := writesX_of_aluRR h hd (exec_bext s) rfl
      exact ⟨t, _, next, written, fun i => bextOf_getLsbD _ _⟩
    · obtain ⟨t, next, written⟩ := exec_bins_writes h hd ready
      exact ⟨t, _, next, written, fun i => binsOf_getLsbD _ _ _⟩
    · refine ⟨_, exec_bins_waits h busy, ?_, fun r => ?_⟩ <;> rw [State.me_setMe]
      rfl
  · and_intros <;> rfl
  · have writes {i f v} := writesX_of_aluR (i := i) (f := f) (v := v) h hd
    exact ⟨writes (exec_addi s) rfl, writes (exec_andi s) rfl, writes (exec_ori s) rfl, writes (exec_xori s) rfl,
      writes (exec_slli s) rfl, writes (exec_srli s) rfl, writes (exec_srai s) rfl, writes (exec_slti s) rfl⟩
  · exact ⟨writesX_of_aluPc hd (exec_lih s) (upper20_eq i), writesX_of_aluPc hd (exec_lpc s) (by rw [upper20_eq])⟩
  · have immediate {w f3 m} (h : encWord w = some (fmt (i.extractLsb' 5 7) (i.extractLsb' 0 5) f3 a d m)) :=
      encode_of_encWord (h.trans (congrArg some (fmt_eq_wordI i f3 a d m)))
    have shift {w f3 m} (h : encWord w = some (fmt (0#6 ++ n.extractLsb' 5 1) (n.extractLsb' 0 5) f3 a d m)) :=
      encode_of_encWord (h.trans (congrArg some (fmt_eq_wordI_shift n f3 a d m)))
    have upper {w m} (h : encWord w = some (fmt (j.extractLsb' 13 7) (j.extractLsb' 8 5) (j.extractLsb' 5 3) (j.extractLsb' 0 5) d m)) :=
      encode_of_encWord (h.trans (congrArg some (fmt_eq_wordU j d m)))
    exact ⟨immediate rfl, immediate rfl, immediate rfl, immediate rfl, shift rfl, shift rfl, shift rfl, immediate rfl, upper rfl, upper rfl⟩

end Sys2Proof.Machine
end

section
/-! SUPPORT. Targets and links of branches and jumps (R59 to R61), and O5. -/

namespace Sys2Proof.Machine
open Sys2Proof.Safety

/-! ### Targets (R13, R59) -/

theorem evenBits_of_even {p : Word} (h : p.getLsbD 0 = false) : p &&& ~~~1#64 = p := by
  apply BitVec.eq_of_getLsbD_eq
  intro i hi
  simp only [BitVec.getLsbD_and, BitVec.getLsbD_not, BitVec.getLsbD_one, hi]
  by_cases low : i = 0
  · rw [low, h, Bool.false_and]
  · simp [low]

/-- An even PC and an offset in halfwords give an even target. -/
theorem getLsbD_zero_add_double {p : Word} (h : p.getLsbD 0 = false) (o : Word) : (p + o * 2).getLsbD 0 = false := by
  simp only [BitVec.getLsbD, Nat.testBit_zero, decide_eq_false_iff_not] at h ⊢
  rw [BitVec.toNat_add, BitVec.toNat_mul, show (2 : Word).toNat = 2 from rfl]
  omega

theorem add_double_evenBits {p : Word} (h : p.getLsbD 0 = false) (o : Word) : (p + o * 2) &&& ~~~1#64 = p + o * 2 :=
  evenBits_of_even (getLsbD_zero_add_double h o)

/-! ### Branches (R59) -/

theorem jumps_branch {s : State} (even : s.me.pc.getLsbD 0 = false) (taken : Bool) (o : BitVec 12) :
    Jumps s (s.setMe (s.me.branch taken o)) (if taken then s.me.pc + o.signExtend 64 * 2 else s.me.pc + 4) := by
  cases taken with
  | true => exact add_double_evenBits even (o.signExtend 64) ▸ jumps_setMe_jump s (branchTarget s.me.pc o)
  | false => exact jumps_setMe_retire s 4

theorem fmt_eq_wordB (o : BitVec 12) (b : Reg) (f3 : BitVec 3) (a : Reg) (m : BitVec 6) :
    fmt (o.extractLsb' 5 7) b f3 a (o.extractLsb' 0 5) m = wordB o b f3 a m := rfl

/-- A branch on two registers goes where its condition sends it. -/
theorem jumps_of_branchOn {s : State} {i : Instr} {a b : Reg} {o : BitVec 12} {f : Word → Word → Bool} {taken : Bool}
    (even : s.me.pc.getLsbD 0 = false) (h : XReady s [a, b]) (meaning : exec i s = branchOn a b o f s)
    (condition : f (s.me.rx a) (s.me.rx b) = taken) :
    ∃ t, exec i s = .next t ∧ Jumps s t (if taken then s.me.pc + o.signExtend 64 * 2 else s.me.pc + 4) := by
  subst condition
  exact ⟨_, meaning.trans (branchOn_ok o f h), jumps_branch even _ o⟩

theorem exec_brdy_next {s : State} (h : Impure s) (a : Reg) (o : BitVec 12) :
    exec (.brdy a o) s = .next (s.setMe (s.me.branch (s.me.xok a) o)) := by
  rw [exec_brdy, execBrdy, noPure_ok h, bind_ok, finish_ok]

theorem exec_bnrdy_next {s : State} (h : Impure s) (a : Reg) (o : BitVec 12) :
    exec (.bnrdy a o) s = .next (s.setMe (s.me.branch (!s.me.xok a) o)) := by
  rw [exec_bnrdy, execBnrdy, noPure_ok h, bind_ok, finish_ok]

/-! ### Jumps (R61) -/

/-- A jump that links: x[d] takes the address behind it, the PC its target, whose bit 0 is cleared, and nothing else changes. -/
theorem links_setMe_link (s : State) (d : Reg) {p q : Word} (even : p &&& ~~~1#64 = q) : let t := s.setMe (s.me.link d p)
    RegFrame s t ∧ t.me.pc = q ∧ t.me.rclass = s.me.rclass ∧ t.me.rx d = (if d = 0#5 then 0#64 else s.me.pc + 4) ∧
      t.me.xok d = true ∧ XKept s.me t.me [d] ∧ VKept s.me t.me [] ∧ MKept s.me t.me [] := by
  intro t
  have me : t.me = (s.me.wx d (s.me.pc + 4#64)).jump p := State.me_setMe ..
  refine ⟨⟨othersKept_setMe _ _, ?_, ?_⟩, ?_, ?_, ?_, ?_, ?_, ?_, ?_⟩ <;> rw [me]
  · apply hartKept_jump
    simpa using s.me.wx_frame d (s.me.pc + 4#64)
  · apply counted_jump <;> simp
  · rw [Hart.jump_pc, even]
  · simp
  · rw [Hart.rx_jump, Hart.rx_wx_self]; rfl
  · simp
  · intro r hr
    rw [List.mem_singleton] at hr
    rw [Hart.rx_jump, Hart.xok_jump, Hart.rx_wx_ne _ _ hr, Hart.xok_wx_ne _ _ hr]
    exact ⟨rfl, rfl⟩
  · intro r _
    exact ⟨Hart.rv_congr (by simp) r, Hart.vok_congr (by simp) r⟩
  · intro r _
    exact Hart.rm_congr (by simp) r

theorem exec_jl_next {s : State} {d : Reg} (hd : XFree s d) (j : BitVec 20) :
    exec (.jl d j) s = .next (s.setMe (s.me.link d (s.me.pc + j.signExtend 64 * 2))) := by
  rw [exec_jl, execJl, freeX_ok hd, bind_ok, finish_ok]; rfl

theorem exec_jlr_next {s : State} {d a : Reg} (ha : XReady s [a]) (hd : XFree s d) (i : BitVec 12) :
    exec (.jlr d a i) s = .next (s.setMe (s.me.link d (s.me.rx a + i.signExtend 64))) := by
  rw [exec_jlr, execJlr, needX_ok (ha a (by simp)), freeX_ok hd, bind_ok, bind_ok, finish_ok]; rfl

/-- Settles O5: a branch goes where its condition sends it, a jump links and goes to its target. -/
theorem branchesAndJumps : Obligations.BranchesAndJumps := by
  unfold Obligations.BranchesAndJumps
  refine ⟨fun s a b o even => ⟨fun h => ?_, fun pure => ?_⟩, fun s d a i j hd => ⟨fun even => ?_, fun ha => ?_⟩, fun d a b o i j => ?_⟩
  · have jumps {i f c} := jumps_of_branchOn (i := i) (o := o) (f := f) (taken := c) even h
    exact ⟨jumps (exec_beq s) rfl, jumps (exec_bne s) rfl, jumps (exec_blt s) rfl, jumps (exec_bge s) (BitVec.sle_eq_not_slt ..).symm,
      jumps (exec_bltu s) rfl, jumps (exec_bgeu s) (BitVec.ule_eq_not_ult ..).symm⟩
  · exact ⟨⟨_, exec_brdy_next pure a o, jumps_branch even _ o⟩, ⟨_, exec_bnrdy_next pure a o, jumps_branch even _ o⟩⟩
  · exact ⟨_, exec_jl_next hd j, links_setMe_link s d (add_double_evenBits even _)⟩
  · exact ⟨_, exec_jlr_next ha hd i, links_setMe_link s d rfl⟩
  · have branch {w b f3 a m} (h : encWord w = some (fmt (o.extractLsb' 5 7) b f3 a (o.extractLsb' 0 5) m)) :=
      encode_of_encWord (h.trans (congrArg some (fmt_eq_wordB o b f3 a m)))
    exact ⟨branch rfl, branch rfl, branch rfl, branch rfl, branch rfl, branch rfl, branch rfl, branch rfl,
      encode_of_encWord (congrArg some (fmt_eq_wordU j d 6)), encode_of_encWord (congrArg some (fmt_eq_wordI i 0 a d 7))⟩

end Sys2Proof.Machine
end

section
/-! SUPPORT. Tile accesses to the local stash (R65), and O6. -/

namespace Sys2Proof.Machine
open Sys2Proof.Safety

/-! ### Tile mode (R65) -/

theorem aligned_stash {va : Word} {o n : Nat} (hn : va.toNat = 0x007F000000000000 + o) (base : 0x007F000000000000 % n = 0)
    (al : o % n = 0) : aligned va n = true := by
  rw [aligned, hn, Nat.add_mod, al, base]; simp

/-- The dword that tile mode permutes an aligned offset to, in the stash again. -/
theorem tileOff_aligned {o : Nat} (al : o % 8 = 0) : tileOff o = o / 256 * 256 + (o / 8 % 32 + o / 256) % 32 * 8 := by
  rw [tileOff, al, Nat.add_zero]

theorem tile_lt {o : Nat} (h : o < 0x40000) : o / 256 * 256 + (o / 8 % 32 + o / 256) % 32 * 8 < 0x40000 := by omega

theorem tileOf_stash {s : State} {ea : Word} {o : Nat} (e : ea = BitVec.ofNat 64 (0x007F000000000000 + o)) (ho : o < 0x40000)
    (al : o % 8 = 0) (acc : Nat) : tileOf s ea acc = .ok (o / 256 * 256 + (o / 8 % 32 + o / 256) % 32 * 8) := by
  obtain ⟨hn, region⟩ := regionOf_stash e ho
  have local_ : localOff ea = some o := by rw [localOff, region]
  rw [tileOf, local_]
  simp only [aligned_stash hn rfl al, if_true, tileOff_aligned al]

/-! ### Loads -/

/-- A load of a place that reads, past its checks. -/
theorem loadPlace_ok {u : State} {d : Reg} {va rep : Word} {p : Place} {n : Nat} {ext : Nat → Word} {g : Got}
    (clear : remotePending u u.cur p n = false) (read : readPlace u u.cur va p n true = .ok g) :
    ∃ t, loadPlace u d va rep p n ext = .ok t ∧ LoadsX g.st t d (ext (leNat g.bytes)) := by
  obtain ⟨x, counted⟩ := countMiss_eq u p n g.st.me
  refine ⟨_, ?_, loadsX_loadValue g.st d _ (l2Reads u p n) x counted⟩
  simp only [loadPlace, clear, Bool.not_false, check_true, bind_ok, read]

theorem exec_ldT_loads {s : State} {d a : Reg} {i : BitVec 12} {o tile : Nat} (pure : Impure s) (ha : XReady s [a]) (hd : XFree s d)
    (ho : o < 0x40000) (e : s.me.rx a + i.signExtend 64 = BitVec.ofNat 64 (0x007F000000000000 + o)) (al : o % 8 = 0)
    (ht : tile = o / 256 * 256 + (o / 8 % 32 + o / 256) % 32 * 8) (window : windowAt s s.myCore tile = none)
    (logged : lineLogged s s.myCore (BitVec.ofNat 64 (0x007F000000000000 + tile)) = false)
    (clear : remotePending s s.cur (.stash (stashIdx s.myCore tile)) 8 = false)
    (clean : isStashPoison s.ms (stashIdx s.myCore tile / 64) = false)
    (unbuffered : ∀ k, k < 8 →
      bufferedByte s s.cur (BitVec.ofNat 64 (0x007F000000000000 + tile)) (.stash (stashIdx s.myCore tile)) k = none) :
    ∃ t, exec (.ldT d a i) s = .next t ∧ LoadsX s t d (BitVec.ofNat 64 (leNat (Memory.readBytes s.ms.stash (stashIdx s.myCore tile) 8))) := by
  obtain ⟨t, loaded, loads⟩ := loadPlace_ok (d := d) (rep := effAddr s a i) (ext := zextBytes) clear
    (readPlace_stash s (stashVa tile) tile 8 rfl clean unbuffered)
  refine ⟨t, ?_, loads⟩
  have reached : reachStash s (ownerOf s s.myCore) s.myCore tile (effAddr s a i) accRead = .ok (.stash (stashIdx s.myCore tile), s) := by
    rw [reachStash, window]
  have tiled : tileOf s (effAddr s a i) accRead = .ok tile := (tileOf_stash e ho al accRead).trans (congrArg _ ht.symm)
  have logged' : lineLogged s s.myCore (stashVa tile) = false := logged
  rw [exec_ldT, execLdT]
  simp only [needX_ok (ha a (by simp)), noPure_ok pure, freeX_ok hd, tiled, bind_ok, logged', Bool.not_false,
    check_true, reached, loaded, finish_ok]

/-- Settles O6: every form but LD.T is `loadOp` of its size and extension. -/
theorem localStashLoads : Obligations.LocalStashLoads := by
  unfold Obligations.LocalStashLoads
  intro s d a i o pure ha hd ho e plain value tile
  have loads (n : Nat) (ext : Nat → Word) (base : 0x007F000000000000 % n = 0) (h : plain o n) (al : o % n = 0) :
      ∃ t, loadOp d a i n ext s = .next t ∧ LoadsX s t d (ext (value o n)) := by
    obtain ⟨window, logged, clear, clean, unbuffered⟩ := h
    exact loadOp_stash s d a i o n ext pure ha hd ho e al base window logged clear clean unbuffered
  refine ⟨fun h => ?_, fun h al => ?_, fun h al => ?_, fun h al => ?_, fun h => ?_, fun h al => ?_, fun h al => ?_, fun h al => ?_⟩
  · exact loads 1 (sextBytes 1) rfl h (Nat.mod_one o)
  · exact loads 2 (sextBytes 2) rfl h al
  · exact loads 4 (sextBytes 4) rfl h al
  · exact loads 8 zextBytes rfl h al
  · exact loads 1 zextBytes rfl h (Nat.mod_one o)
  · exact loads 2 zextBytes rfl h al
  · exact loads 4 zextBytes rfl h al
  · obtain ⟨window, logged, clear, clean, unbuffered⟩ := h
    exact exec_ldT_loads pure ha hd ho e al rfl window logged clear clean unbuffered

end Sys2Proof.Machine
end

section
/-! SUPPORT. Ready bits cleared (R70), channel masks set and cleared (R174), and O11. -/

namespace Sys2Proof.Machine
open Sys2Proof.Safety

/-! ### ARM and ARMV (R70) -/

theorem exec_arm_next {s : State} (h : Impure s) (d : Reg) : exec (.arm d) s = .next (s.step4 fun k => k.armX d) := by
  rw [exec_arm, execArm, noPure_ok h, bind_ok, finish_ok]

theorem exec_armv_next {s : State} (h : Impure s) (d : Reg) : exec (.armv d) s = .next (s.step4 fun k => k.armV d) := by
  rw [exec_armv, execArmv, noPure_ok h, bind_ok, finish_ok]

theorem regFrame_step4_armX (s : State) (d : Reg) : RegFrame s (s.step4 fun k => k.armX d) := by
  refine ⟨othersKept_step4 .., ?_, ?_⟩ <;> rw [State.step4_me]
  · apply hartKept_retire
    rw [Hart.armX_frame]
  · apply counted_retire <;> simp

theorem regFrame_step4_armV (s : State) (d : Reg) : RegFrame s (s.step4 fun k => k.armV d) := by
  refine ⟨othersKept_step4 .., ?_, ?_⟩ <;> rw [State.step4_me]
  · exact hartKept_retire 4 rfl
  · exact counted_retire 4 rfl rfl

/-! ### HMASK and HUNMASK (R174) -/

/-- The masks of a core's channels once those that a word names are set to v; channel 0 is never named. -/
theorem maskChannels_masked (s : State) (g : Nat) (w : Word) (v : Bool) {c : Nat} (hc : c < 64) :
    (((maskChannels s g w v).core g).chan c).masked = if c ≠ 0 ∧ w.getLsbD c = true then v else ((s.core g).chan c).masked := by
  rw [State.core, maskChannels_cores, ← State.core, State.core_setCore, mask_fold _ _ _ List.nodup_range]
  simp [hc]

theorem maskChannels_core_ne (s : State) {g k : Nat} (w : Word) (v : Bool) (ne : k ≠ g) : (maskChannels s g w v).core k = s.core k := by
  rw [State.core, maskChannels_cores, ← State.core, State.core_setCore_ne _ _ ne]

/-- A mask form's effect: the named masks at the issuing core, the PC, and nothing else of memory or registers. -/
theorem maskChannels_step4 (s : State) (w : Word) (v : Bool) : let t := (maskChannels s s.myCore w v).step4 id
    (∀ c, c < 64 → ((t.core s.myCore).chan c).masked = if c ≠ 0 ∧ w.getLsbD c = true then v else ((s.core s.myCore).chan c).masked) ∧
      (∀ k, k ≠ s.myCore → t.core k = s.core k) ∧ t.ms = s.ms ∧ Arms s.me t.me none := by
  refine ⟨fun c hc => maskChannels_masked s s.myCore w v hc, fun k ne => maskChannels_core_ne s w v ne, ?_, ?_⟩
  · show (maskChannels s s.myCore w v).ms = s.ms
    rw [maskChannels_frame]
  · rw [State.step4_me, maskChannels_frame]
    exact arms_retire s.me

theorem exec_hmask_next {s : State} {a : Reg} (h : Impure s) (ha : XReady s [a]) :
    exec (.hmask a) s = .next ((maskChannels s s.myCore (s.me.rx a) true).step4 id) := by
  rw [exec_hmask, execHmask, needX_ok (ha a (by simp)), noPure_ok h, bind_ok, bind_ok, finish_ok]

theorem exec_hunmask_next {s : State} {a : Reg} (h : Impure s) (ha : XReady s [a]) :
    exec (.hunmask a) s = .next ((maskChannels s s.myCore (s.me.rx a) false).step4 id) := by
  rw [exec_hunmask, execHunmask, needX_ok (ha a (by simp)), noPure_ok h, bind_ok, bind_ok, finish_ok]

/-- Settles O11: each form past its checks, by what it does to the ready bits or the masks. -/
theorem readyBitsAndMasks : Obligations.ReadyBitsAndMasks := by
  unfold Obligations.ReadyBitsAndMasks
  refine ⟨fun s d pure => ⟨?_, ?_⟩, fun s a pure ha => ⟨?_, ?_⟩⟩
  · refine ⟨_, exec_arm_next pure d, regFrame_step4_armX s d, ?_, ?_⟩ <;> rw [State.step4_me]
    · exact arms_armX s.me d
    · simp
  · refine ⟨_, exec_armv_next pure d, regFrame_step4_armV s d, ?_⟩
    rw [State.step4_me]
    refine ⟨?_, ?_, ?_, fun r => ?_, fun r ne => ?_, fun r _ => ?_, fun r _ => ?_⟩
    · rw [Hart.retire_pc]; rfl
    · rw [Hart.retire_rclass]; rfl
    · rw [Hart.vok_retire, Hart.vok_armV_self]
    · rw [Hart.rv_retire]; rfl
    · rw [Hart.vok_retire, Hart.vok_armV_ne _ ne]
    · rw [Hart.rx_retire, Hart.xok_retire, Hart.rx_armV, Hart.xok_armV]; exact ⟨rfl, rfl⟩
    · rw [Hart.rm_retire]; rfl
  · exact ⟨_, exec_hmask_next pure ha, maskChannels_step4 ..⟩
  · exact ⟨_, exec_hunmask_next pure ha, maskChannels_step4 ..⟩

end Sys2Proof.Machine
end

section
/-! SUPPORT. TLBINV: what its checks wait for and what each form drops (R77), and O21. -/

namespace Sys2Proof.Machine
open Sys2Proof.Safety

/-! ### Privilege (R24, R29) -/

theorem needMode_ok {need : Mode} {bits : Word} {s : State} (h : modeAtLeast s.me.mode need = true) : needMode need bits s = .ok () := check_ok h

theorem needMode_below {need : Mode} {bits : Word} {s : State} (h : modeAtLeast s.me.mode need = false) :
    needMode need bits s = .error (.trap 0x02 bits) := by
  rw [needMode, h]; rfl

theorem modeAtLeast_s {mode : Mode} (h : mode ≠ .u) : modeAtLeast mode .s = true := by
  cases mode with
  | u => exact absurd rfl h
  | s => rfl
  | h => rfl
  | m => rfl

theorem modeAtLeast_h {mode : Mode} (h : mode = .h ∨ mode = .m) : modeAtLeast mode .h = true := by rcases h with rfl | rfl <;> rfl

theorem modeAtLeast_h_below {mode : Mode} (h : mode = .u ∨ mode = .s) : modeAtLeast mode .h = false := by rcases h with rfl | rfl <;> rfl

/-! ### What TLBINV waits for -/

theorem hasOwnStore_none {s : State} (h : NoOwnStore s) : hasOwnStore s s.cur = false := by
  simp only [hasOwnStore, List.any_eq_false, Bool.and_eq_true, beq_iff_eq]
  exact h

theorem vmidStores_none {s : State} (h : ∀ st ∈ s.ms.stores, st.vmid = s.me.vmid → ∃ k, st.place = .remoteStash k) :
    vmidStores s s.me.vmid = false := by
  simp only [vmidStores, List.any_eq_false, Bool.and_eq_true, beq_iff_eq, not_and]
  intro st mem mine
  obtain ⟨k, place⟩ := h st mem mine
  rw [place]
  exact Bool.false_ne_true

theorem vmidBarriers_none {s : State} (h : ∀ b, .barrierUpdate b ∈ s.flight → b.vmid ≠ s.me.vmid) : vmidBarriers s s.me.vmid = false := by
  simp only [vmidBarriers, List.any_eq_false]
  intro e mem
  split
  · rw [beq_iff_eq]
    exact h _ mem
  · exact Bool.false_ne_true

theorem needInvalidate_ok {s : State} (stores : NoOwnStore s) (log : hasOwnLog s s.cur = false) (idle : TlbIdle s) :
    needInvalidate s = .ok () := by
  obtain ⟨translated, barriers, buffered⟩ := idle
  have own : needStored s = .ok () := by rw [needStored, hasOwnStore_none stores, log]; rfl
  have guests : (!vmidStores s s.me.vmid && !vmidBarriers s s.me.vmid) = true := by
    rw [vmidStores_none translated, vmidBarriers_none barriers]; rfl
  unfold needInvalidate
  split
  · rename_i stored
    have unbuffered : NoBuffer s := Bool.eq_false_iff.mpr fun buffering => absurd (buffered buffering) (by rw [stored]; decide)
    rw [needUnrollable_ok unbuffered, bind_ok, own, bind_ok, guests, check_true]
  · rw [own, bind_ok, guests, check_true]

/-- R290: a buffer that holds a store is released first, and the instruction tried again. -/
theorem needInvalidate_flushes {s u : State} (buffering : s.me.buffering = true) (stored : bufferedStore s.me.abuf = true)
    (released : flush s false = .ok u) : needInvalidate s = .error (.again (u.setMe { u.me with unrollable := true })) := by
  have again : needUnrollable s = .error (.again (u.setMe { u.me with unrollable := true })) := by
    rw [needUnrollable, if_pos buffering, released]
  rw [needInvalidate, if_pos stored, again]
  rfl

/-! ### What each form drops -/

theorem mem_tlbDropAll {ms : MemSys} {vmid : BitVec 6} {e : TlbEntry} : e ∈ (tlbDropAll ms vmid).tlb ↔ e ∈ ms.tlb ∧ e.vmid ≠ vmid := by
  simp [tlbDropAll]

theorem mem_tlbDropAsid {ms : MemSys} {vmid : BitVec 6} {asid : BitVec 12} {e : TlbEntry} :
    e ∈ (tlbDropAsid ms vmid asid).tlb ↔ e ∈ ms.tlb ∧ ¬ (e.vmid = vmid ∧ e.asid = asid) := by
  simp [tlbDropAsid, ← not_and_or]

theorem mem_tlbDropVa {ms : MemSys} {vmid : BitVec 6} {asid : BitVec 12} {va : Word} {e : TlbEntry} :
    e ∈ (tlbDropVa ms vmid asid va).tlb ↔ e ∈ ms.tlb ∧ ¬ (canonical va = true ∧ e.vmid = vmid ∧ (e.glob = true ∨ e.asid = asid) ∧
      e.va ≤ va.toNat ∧ va.toNat < e.va + e.size) := by
  unfold tlbDropVa
  by_cases c : canonical va = true
  · simp only [c, if_true, List.mem_filter, Bool.not_eq_true', Bool.and_eq_false_iff, true_and]
    refine and_congr_right fun _ => ?_
    rw [← Bool.not_eq_true, ← Bool.not_eq_true, ← Bool.not_eq_true, ← Bool.not_eq_true]
    simp only [beq_iff_eq, Bool.or_eq_true, decide_eq_true_eq]
    tauto
  · simp [c]

/-- R77: the second-stage parts that TLBINV.STAGE2 drops. -/
theorem mem_tlbDropStage2 {ms : MemSys} {vmid : BitVec 6} {gpa : Word} {e : TlbEntry} :
    let hit := fun (o : TlbEntry) => o.vmid = vmid ∧ ∃ b n p f, o.s2 = some (b, n, p, f) ∧ (gpa.toNat = 0 ∨ (b ≤ gpa.toNat ∧ gpa.toNat < b + n))
    e ∈ (tlbDropStage2 ms vmid gpa).tlb ↔ ∃ o ∈ ms.tlb, (hit o ∧ e = { o with s2 := none }) ∨ (¬ hit o ∧ e = o) := by
  intro hit
  rw [tlbDropStage2, List.mem_map]
  refine exists_congr fun o => and_congr_right fun _ => ?_
  have zero : gpa.toNat = 0 ↔ gpa = 0#64 := ⟨fun h => BitVec.eq_of_toNat_eq h, fun h => by rw [h]; rfl⟩
  cases stage : o.s2 with
  | none =>
    have miss : ¬ hit o := fun ⟨_, _, _, _, _, some_, _⟩ => by simp [stage] at some_
    simp [miss, eq_comm]
  | some page =>
    obtain ⟨b, n, p, f⟩ := page
    have named : (o.vmid == vmid && (gpa == 0#64 || (b ≤ gpa.toNat && gpa.toNat < b + n))) = true ↔ hit o := by
      simp [hit, stage, zero]
    dsimp only
    by_cases h : hit o
    · rw [if_pos (named.mpr h)]
      exact ⟨fun eq => .inl ⟨h, eq.symm⟩, fun r => r.elim (fun x => x.2.symm) fun x => absurd h x.1⟩
    · rw [if_neg (mt named.mp h)]
      exact ⟨fun eq => .inr ⟨h, eq.symm⟩, fun r => r.elim (fun x => absurd x.1 h) fun x => x.2.symm⟩

/-! ### The forms -/

/-- A form past its checks changes the cached translations alone and goes on. -/
theorem passes_stepMs {s : State} {f : MemSys → MemSys} (h : f s.ms = { s.ms with tlb := (f s.ms).tlb }) :
    Passes { s with ms := { s.ms with tlb := (s.stepMs f).ms.tlb } } (s.stepMs f) := by
  have e : s.stepMs f = State.step4 { s with ms := { s.ms with tlb := (s.stepMs f).ms.tlb } } id := by
    rw [State.stepMs, h]; rfl
  rw [e]
  exact passes_step4 _

theorem tlbDropVa_frame (ms : MemSys) (vmid : BitVec 6) (asid : BitVec 12) (va : Word) :
    tlbDropVa ms vmid asid va = { ms with tlb := (tlbDropVa ms vmid asid va).tlb } := by
  unfold tlbDropVa
  split <;> rfl

theorem invalidates {s : State} {i : Instr} {f : MemSys → MemSys} {kept : TlbEntry → Prop} (next : exec i s = .next (s.stepMs f))
    (alone : f s.ms = { s.ms with tlb := (f s.ms).tlb }) (h : ∀ e, e ∈ (f s.ms).tlb ↔ kept e) :
    ∃ t, exec i s = .next t ∧ Passes { s with ms := { s.ms with tlb := t.ms.tlb } } t ∧ ∀ e, e ∈ t.ms.tlb ↔ kept e :=
  ⟨_, next, passes_stepMs alone, h⟩

section
variable {s : State} {a x y : Reg} (pure : Impure s)
include pure

theorem exec_tlbinvAll_next (mode : s.me.mode ≠ .u) (idle : needInvalidate s = .ok ()) :
    exec (.tlbinvAll x y) s = .next (s.stepMs fun ms => tlbDropAll ms s.me.vmid) := by
  rw [exec_tlbinvAll, execTlbinvAll, needMode_ok (modeAtLeast_s mode), noPure_ok pure, idle, bind_ok, bind_ok, bind_ok, finish_ok]

theorem exec_tlbinvAsid_next (mode : s.me.mode ≠ .u) (idle : needInvalidate s = .ok ()) (ha : XReady s [a]) :
    exec (.tlbinvAsid a y) s = .next (s.stepMs fun ms => tlbDropAsid ms s.me.vmid ((s.me.rx a).setWidth 12)) := by
  rw [exec_tlbinvAsid, execTlbinvAsid, needMode_ok (modeAtLeast_s mode), needX_ok (ha a (by simp)), noPure_ok pure, idle, bind_ok, bind_ok,
    bind_ok, bind_ok, finish_ok]

theorem exec_tlbinvVa_next (mode : s.me.mode ≠ .u) (idle : needInvalidate s = .ok ()) (ha : XReady s [a]) :
    exec (.tlbinvVa a y) s = .next (s.stepMs fun ms => tlbDropVa ms s.me.vmid s.me.asid (s.me.rx a)) := by
  rw [exec_tlbinvVa, execTlbinvVa, needMode_ok (modeAtLeast_s mode), needX_ok (ha a (by simp)), noPure_ok pure, idle, bind_ok, bind_ok,
    bind_ok, bind_ok, finish_ok]

theorem exec_tlbinvStage2_next (mode : s.me.mode = .h ∨ s.me.mode = .m) (idle : needInvalidate s = .ok ()) (ha : XReady s [a]) :
    exec (.tlbinvStage2 a y) s = .next (s.stepMs fun ms => tlbDropStage2 ms s.me.vmid (s.me.rx a)) := by
  rw [exec_tlbinvStage2, execTlbinvStage2, needMode_ok (modeAtLeast_h mode), needX_ok (ha a (by simp)), noPure_ok pure, idle, bind_ok,
    bind_ok, bind_ok, bind_ok, finish_ok]

/-- R290: an activation whose buffer holds a store releases it and tries again, unrollable from then on. -/
theorem exec_tlbinvAll_flushes (mode : s.me.mode ≠ .u) (buffering : s.me.buffering = true) (stored : bufferedStore s.me.abuf = true)
    {u : State} (released : flush s false = .ok u) :
    exec (.tlbinvAll x y) s = .next (u.setMe { u.me with unrollable := true, stall := none }) := by
  rw [exec_tlbinvAll, execTlbinvAll, needMode_ok (modeAtLeast_s mode), noPure_ok pure, needInvalidate_flushes buffering stored released,
    bind_ok, bind_ok, bind_error, finish_error, stopped, State.me_setMe, State.setMe_setMe]

/-- A meaning whose level is checked first traps PRIV below it (R24). -/
theorem priv_traps {i : Instr} {need : Mode} {f : Unit → Res} (meaning : exec i s = finish s (needMode need i.bits s >>= f))
    (below : modeAtLeast s.me.mode need = false) : exec i s = .next (takeTrap s s.cur 0x02 i.bits false) := by
  rw [meaning, needMode_below below, bind_error, finish_error, stopped_trap pure]

end

/-- Settles O21: each form by what it drops once it waits for nothing, and by the check of its level. -/
theorem translationInvalidated : Obligations.TranslationInvalidated := by
  unfold Obligations.TranslationInvalidated
  refine ⟨fun s x y pure mode stores log idle => ?_, fun s a y pure mode stores log idle ha => ?_,
    fun s a y pure mode stores log idle ha => ?_, fun s a y pure mode stores log idle ha => ?_,
    fun s x y pure mode buffering stored u released => ?_, fun s a x y pure => ⟨fun mode f listed => ?_, fun mode => ?_⟩⟩
  · exact invalidates (exec_tlbinvAll_next pure mode (needInvalidate_ok stores log idle)) rfl fun e => mem_tlbDropAll
  · exact invalidates (exec_tlbinvAsid_next pure mode (needInvalidate_ok stores log idle) ha) rfl fun e => mem_tlbDropAsid
  · exact invalidates (exec_tlbinvVa_next pure mode (needInvalidate_ok stores log idle) ha) (tlbDropVa_frame ..) fun e => mem_tlbDropVa
  · exact invalidates (exec_tlbinvStage2_next pure mode (needInvalidate_ok stores log idle) ha) rfl fun e => mem_tlbDropStage2
  · refine ⟨_, exec_tlbinvAll_flushes pure mode buffering stored released, rfl, State.me_setMe .., fun h ne => State.hart_setMe_ne _ _ ne⟩
  · have below : modeAtLeast s.me.mode .s = false := by rw [mode]; rfl
    simp only [List.mem_cons, List.not_mem_nil, or_false] at listed
    rcases listed with rfl | rfl | rfl
    · exact priv_traps pure (exec_tlbinvAll s) below
    · exact priv_traps pure (exec_tlbinvAsid s) below
    · exact priv_traps pure (exec_tlbinvVa s) below
  · exact priv_traps pure (exec_tlbinvStage2 s) (modeAtLeast_h_below mode)

end Sys2Proof.Machine
end

section
/-! SUPPORT. Stores on their way to their homes and to remote stashes (R62, R64, R66, R99), replicas collapsed (R104), and O9. -/

namespace Sys2Proof.Machine
open Sys2Proof.Safety

/-! ### A store past its checks -/

theorem needStoreAddr_ok {ea : Word} {n : Nat} (al : ea.toNat % n = 0) (can : canonical ea = true) (region : regionOf ea ≠ .noStash) :
    needStoreAddr ea n = .ok () := by
  have al' : aligned ea n = true := by rw [aligned, al]; rfl
  have there : (canonical ea && regionOf ea != .noStash) = true := by simp [can, region]
  rw [needStoreAddr, al', there]
  rfl

/-- A scalar store outside the windows ends as its sending ends. -/
theorem storeOp_out {s : State} {a b : Reg} {i : BitVec 12} {n : Nat} (pure : Impure s) (unbuffered : NoBuffer s) (h : XReady s [a, b])
    (al : (effAddr s a i).toNat % n = 0) (can : canonical (effAddr s a i) = true) (region : regionOf (effAddr s a i) ≠ .noStash)
    (outside : inWindow (effAddr s a i) = false) : storeOp a b i n s =
      finish s (scalarOut s s.cur (effAddr s a i) (effAddr s a i) (leBytes n (s.me.rx b).toNat) >>= fun u => .ok (u.step4 id)) := by
  have out : storeMem s (effAddr s a i) (effAddr s a i) (leBytes n (s.me.rx b).toNat) =
      scalarOut s s.cur (effAddr s a i) (effAddr s a i) (leBytes n (s.me.rx b).toNat) := by
    rw [storeMem_out s _ _ _ pure unbuffered, storeOut, outside]; rfl
  simp only [storeOp, needX_ok (h a (by simp)), needX_ok (h b (by simp)), needPureWrite_ok pure, bind_ok, outside, Bool.false_eq_true, if_false,
    needStoreAddr_ok al can region, out]

/-- The four forms of a scalar store. -/
theorem exec_store_eq {form : Instr} {a b : Reg} {i : BitVec 12} {n : Nat} (s : State)
    (h : (form, n) ∈ ([(.stB a b i, 1), (.stH a b i, 2), (.stW a b i, 4), (.stD a b i, 8)] : List (Instr × Nat))) :
    exec form s = storeOp a b i n s := by
  simp only [List.mem_cons, List.not_mem_nil, or_false, Prod.mk.injEq] at h
  rcases h with ⟨rfl, rfl⟩ | ⟨rfl, rfl⟩ | ⟨rfl, rfl⟩ | ⟨rfl, rfl⟩
  · exact exec_stB s
  · exact exec_stH s
  · exact exec_stW s
  · exact exec_stD s

/-! ### A store on its way -/

/-- A store set on its way by the issuing hart, past its instruction. -/
theorem sendStore_step4 (u : State) (va : Word) (pa : Nat) (bs : List Byte) (place : StorePlace) (shadow : Option (Nat × Bool)) :
    let t := (sendStore u u.cur va pa bs place shadow).step4 id
    t.ms = { u.ms with stores := u.ms.stores ++
        [⟨u.nextId, u.cur, u.me.tag, va, pa, bs, place, placeVmid u u.cur place, shadow, none⟩] } ∧
      t.me = u.me.retire 4 ∧ ∀ h, h ≠ u.cur → t.hart h = u.hart h :=
  ⟨rfl, State.step4_me (sendStore u u.cur va pa bs place shadow) id,
    fun _ ne => State.step4_hart_ne (sendStore u u.cur va pa bs place shadow) id ne⟩

/-- R66: a store to another core's stash is counted and on its way. -/
theorem scalarOut_remote {s : State} {va : Word} {g o : Nat} (rep : Word) (bs : List Byte) (remote : remoteOf s s.cur va = some (g, o))
    (count : s.me.unack < 1023) : scalarOut s s.cur va rep bs =
      .ok ((sendStore s s.cur va (stashIdx g o) bs (.remoteStash g) s.me.vcopy).setMe s.me.countUp) := by
  have count' : (s.hart s.cur).unack < 1023 := count
  rw [scalarOut, remote]
  dsimp only
  rw [if_pos count']
  rfl

/-- Finding a place changes no hart, no byte and no store on its way. -/
theorem reach_keeps {s u : State} {core : Nat} {c : TCtx} {va : Word} {acc : Nat} {p : Place} (h : reach s core c va acc = .ok (p, u)) :
    u.cur = s.cur ∧ u.harts = s.harts ∧ u.ms.mem = s.ms.mem ∧ u.ms.stores = s.ms.stores := by
  obtain ⟨tlb, rfl⟩ := reach_st h
  exact ⟨rfl, rfl, rfl, rfl⟩

/-- A store to a global address goes where its place says once it is reached. -/
theorem scalarOut_reached {s u : State} {va : Word} {p : Place} (rep : Word) (bs : List Byte) (region : regionOf va = .global)
    (logged : ownLineLogged s s.myCore s.cur va = false) (reached : reach s s.myCore s.me.tctx va accWrite = .ok (p, u)) :
    scalarOut s s.cur va rep bs = storeTo u u.cur va p bs := by
  have near : remoteOf s s.cur va = none := by rw [remoteOf, region]
  have logged' : ownLineLogged s (s.cur / 8) s.cur va = false := logged
  have reached' : reach s (s.cur / 8) (s.hart s.cur).tctx va accWrite = .ok (p, u) := reached
  rw [scalarOut, near]
  dsimp only
  rw [logged', if_neg Bool.false_ne_true, reached', (reach_keeps reached).1]

theorem storeTo_home {u : State} {h pa holder : Nat} {sm : Option Nat} {nc : Bool} (va : Word) (bs : List Byte)
    (unversioned : (u.hart h).vcopy = none) (memory : isHost pa = false) : storeTo u h va (.mem pa sm nc holder false) bs =
      .ok (sendStore u h va pa bs (.home sm (if nc then none else some holder)) none) := by
  rw [storeTo, unversioned]
  dsimp only
  rw [memory, if_neg Bool.false_ne_true, if_neg Bool.false_ne_true]

/-- R104: a store to a line that other dies replicate collapses the replicas and is tried again. -/
theorem storeTo_replicated {u : State} {h pa holder : Nat} {sm : Option Nat} {nc : Bool} (va : Word) (bs : List Byte)
    (unversioned : (u.hart h).vcopy = none) (memory : isHost pa = false) (replicas : replicated u.ms (pa / 64) = true) :
    storeTo u h va (.mem pa sm nc holder true) bs = .error (.again { u with ms := collapse u.ms (pa / 64) }) := by
  have replicas' : replicated u.ms (lineOf pa) = true := replicas
  rw [storeTo, unversioned]
  dsimp only
  rw [memory, if_neg Bool.false_ne_true, if_pos rfl, needCollapsed, replicas', if_pos rfl, bind_error]
  rfl

theorem replicated_collapse (ms : MemSys) (line : Nat) : replicated (collapse ms line) line = false := by
  simp [replicated, collapse]

/-- R65: ST.T writes the dword that tile mode permutes its offset to. -/
theorem exec_stT_stores {s : State} {a b : Reg} {i : BitVec 12} {o tile : Nat} (pure : Impure s) (unbuffered : NoBuffer s)
    (h : XReady s [a, b]) (ho : o < 0x40000) (e : s.me.rx a + i.signExtend 64 = BitVec.ofNat 64 (0x007F000000000000 + o)) (al : o % 8 = 0)
    (ht : tile = o / 256 * 256 + (o / 8 % 32 + o / 256) % 32 * 8) (window : windowAt s s.myCore tile = none)
    (logged : ownLineLogged s s.myCore s.cur (BitVec.ofNat 64 (0x007F000000000000 + tile)) = false)
    (clean : isStashPoison s.ms (stashIdx s.myCore tile / 64) = false) :
    ∃ t, exec (.stT a b i) s = .next t ∧
      StoresStash s t (BitVec.ofNat 64 (0x007F000000000000 + tile)) (stashIdx s.myCore tile) 8 (s.me.rx b) := by
  refine ⟨_, ?_, storesStash_step4 s (stashVa tile) tile 8 (s.me.rx b) le_rfl clean⟩
  obtain ⟨hn, region⟩ := regionOf_stash (va := BitVec.ofNat 64 (0x007F000000000000 + tile)) rfl (ht ▸ tile_lt ho)
  have can : canonical (BitVec.ofNat 64 (0x007F000000000000 + tile)) = true := by
    have := ht ▸ tile_lt ho
    rw [canonical, hn]
    simp
    omega
  have tiled : tileOf s (effAddr s a i) accWrite = .ok tile := (tileOf_stash e ho al accWrite).trans (congrArg _ ht.symm)
  have out : storeMem s (stashVa tile) (effAddr s a i) (leBytes 8 (s.me.rx b).toNat) = _ :=
    (storeMem_out s _ _ _ pure unbuffered).trans (storeOut_stash s _ (effAddr s a i) tile _ region can window logged)
  rw [exec_stT, execStT]
  simp only [needX_ok (h a (by simp)), needX_ok (h b (by simp)), noPure_ok pure, tiled, out, bind_ok, finish_ok]

/-- Settles O9: in the stash by `storeOp_stash`, elsewhere by where the store goes once it is reached. -/
theorem stores : Obligations.Stores := by
  unfold Obligations.Stores
  constructor
  · intro s a b i o pure unbuffered h ho e plain ea y tile
    have stored (n : Nat) (small : n ≤ 8) (base : 0x007F000000000000 % n = 0) (p : plain o) (al : o % n = 0) :
        ∃ t, storeOp a b i n s = .next t ∧ StoresStash s t ea (stashIdx s.myCore o) n y := by
      obtain ⟨window, logged, clean⟩ := p
      dsimp only [ea]
      rw [e]
      exact storeOp_stash s a b i o n pure unbuffered h ho small e al base window logged clean
    refine ⟨fun p => ?_, fun p al => ?_, fun p al => ?_, fun p al => ?_, fun p al => ?_⟩
    · exact stored 1 (by decide) rfl p (Nat.mod_one o)
    · exact stored 2 (by decide) rfl p al
    · exact stored 4 (by decide) rfl p al
    · exact stored 8 (by decide) rfl p al
    · obtain ⟨window, logged, clean⟩ := p
      exact exec_stT_stores pure unbuffered h ho e al rfl window logged clean
  · intro s a b i form n listed pure unbuffered h ea bytes sent al can
    have out (region : regionOf ea ≠ .noStash) (outside : inWindow ea = false) :
        exec form s = finish s (scalarOut s s.cur ea ea bytes >>= fun u => .ok (u.step4 id)) :=
      (exec_store_eq s listed).trans (storeOp_out pure unbuffered h al can region outside)
    refine ⟨fun u pa sm nc holder region logged unversioned memory reached => ?_,
      fun u pa sm nc holder region logged unversioned memory reached replicas => ?_, fun g o region remote count => ?_⟩
    · obtain ⟨cur, harts, -, -⟩ := reach_keeps reached
      have me : u.me = s.me := by rw [State.me, State.me, State.hart, State.hart, cur, harts]
      have unversioned' : u.me.vcopy = none := by rw [me, unversioned]
      have out := out (by rw [region]; nofun) (inWindow_global region)
      rw [scalarOut_reached _ _ region logged reached, storeTo_home _ _ unversioned' memory, bind_ok, finish_ok] at out
      obtain ⟨ms, past, others⟩ := sendStore_step4 u ea pa bytes (.home sm (if nc then none else some holder)) none
      refine ⟨_, out, ⟨rfl, ?_, ?_, fun r => ?_, others⟩, rfl, ?_⟩
      · rw [ms, unversioned']
      · rw [past, Hart.retire_pc]; rfl
      · rw [past, Hart.rx_retire, Hart.xok_retire]; exact ⟨rfl, rfl⟩
      · rw [past, Hart.retire_unack]
    · obtain ⟨cur, harts, mem, stores⟩ := reach_keeps reached
      have hart : ∀ h, u.hart h = s.hart h := fun h => by rw [State.hart, State.hart, harts]
      have me : u.me = s.me := by rw [State.me, State.me, hart, cur]
      have unversioned' : u.me.vcopy = none := by rw [me, unversioned]
      have out := out (by rw [region]; nofun) (inWindow_global region)
      rw [scalarOut_reached _ _ region logged reached, storeTo_replicated _ _ unversioned' memory replicas, bind_error, finish_error,
        stopped] at out
      refine ⟨_, out, ?_, fun r => ?_, mem, stores, replicated_collapse .., fun h ne => ?_⟩
      · rw [State.me_setMe, ← me]; rfl
      · rw [State.me_setMe, ← me]; rfl
      · rw [← cur] at ne
        exact (State.hart_setMe_ne _ _ ne).trans (hart h)
    · have out := out (by rw [region]; nofun) (inWindow_remote region)
      rw [scalarOut_remote _ _ remote count, bind_ok, finish_ok] at out
      refine ⟨_, out, ⟨rfl, rfl, ?_, fun r => ?_, fun h ne => step4_setMe_ne _ _ _ ne⟩, rfl, ?_⟩ <;> rw [step4_setMe_me]
      · rw [id, Hart.retire_pc]; rfl
      · rw [id, Hart.rx_retire, Hart.xok_retire]; exact ⟨rfl, rfl⟩
      · rw [id, Hart.retire_unack]; rfl

end Sys2Proof.Machine
end

section
/-! SUPPORT. What the performance of stores and the end of stash windows leave of the state: of a hart its signature, UNACK and counters
may change, and beside the harts the memory system, the launches, the reuse table and what is saved of threads. -/

namespace Sys2Proof.Machine
open Sys2Proof.Safety

/-! ### The frame -/

/-- Of a hart, all but its signature, UNACK and its counters is as it was. -/
def HartCredited (a b : Hart) : Prop := ∃ g n p, b = { a with sigCur := g, unack := n, pmc := p }

theorem HartCredited.refl (a : Hart) : HartCredited a a := ⟨_, _, _, rfl⟩

theorem HartCredited.trans {a b c : Hart} (h : HartCredited a b) (k : HartCredited b c) : HartCredited a c := by
  obtain ⟨_, _, _, rfl⟩ := h
  obtain ⟨_, _, _, rfl⟩ := k
  exact ⟨_, _, _, rfl⟩

theorem hartCredited_count (a : Hart) (c n : Nat) : HartCredited a (a.count c n) := ⟨_, _, _, Hart.count_frame a c n⟩

/-- What stores performed at their homes may change. -/
structure StoresPerformed (s t : State) : Prop where
  harts : ∀ h, HartCredited (s.hart h) (t.hart h)
  rest : ∃ hs ms l r v, t = { s with harts := hs, ms := ms, lch := l, reuse := r, plat := { s.plat with saved := v } }

namespace StoresPerformed

theorem refl (s : State) : StoresPerformed s s := ⟨fun _ => .refl _, _, _, _, _, _, rfl⟩

theorem trans {s t u : State} (a : StoresPerformed s t) (b : StoresPerformed t u) : StoresPerformed s u := by
  refine ⟨fun h => (a.harts h).trans (b.harts h), ?_⟩
  obtain ⟨_, _, _, _, _, ht⟩ := a.rest
  obtain ⟨_, _, _, _, _, hu⟩ := b.rest
  subst ht hu
  exact ⟨_, _, _, _, _, rfl⟩

theorem after {s t u : State} (b : StoresPerformed t u) (a : StoresPerformed s t) : StoresPerformed s u := a.trans b

/-- A change that leaves the harts. -/
theorem of_rest {s : State} (ms : MemSys) (l : LaunchSys) (r : ReuseSys) (v : Table SavedCore) :
    StoresPerformed s { s with ms := ms, lch := l, reuse := r, plat := { s.plat with saved := v } } :=
  ⟨fun _ => .refl _, _, _, _, _, _, rfl⟩

theorem setHart {s : State} {r : Nat} {a : Hart} (ha : HartCredited (s.hart r) a) : StoresPerformed s (s.setHart r a) := by
  refine ⟨fun h => ?_, _, _, _, _, _, rfl⟩
  by_cases e : h = r
  · subst e; rw [State.hart_setHart]; exact ha
  · rw [State.hart_setHart_ne _ _ e]; exact .refl _

theorem foldl {α : Type} {f : State → α → State} (hf : ∀ s x, StoresPerformed s (f s x)) (l : List α) (s : State) :
    StoresPerformed s (l.foldl f s) := by
  induction l generalizing s with
  | nil => exact .refl s
  | cons x l ih => exact (hf s x).trans (ih (f s x))

theorem ite {s t u : State} {c : Prop} [Decidable c] (a : StoresPerformed s t) (b : StoresPerformed s u) :
    StoresPerformed s (if c then t else u) := by
  split
  · exact a
  · exact b

/-! ### What it keeps -/

section
variable {s t : State} (h : StoresPerformed s t)
include h

theorem cores : t.cores = s.cores := by obtain ⟨_, _, _, _, _, rfl⟩ := h.rest; rfl
theorem core (g : Nat) : t.core g = s.core g := by rw [State.core, h.cores]; rfl
theorem time : t.time = s.time := by obtain ⟨_, _, _, _, _, rfl⟩ := h.rest; rfl
theorem cur : t.cur = s.cur := by obtain ⟨_, _, _, _, _, rfl⟩ := h.rest; rfl
theorem node : t.plat.node = s.plat.node := by obtain ⟨_, _, _, _, _, rfl⟩ := h.rest; rfl
theorem tenantOf (g : Nat) : tenantOf t g = tenantOf s g := by obtain ⟨_, _, _, _, _, rfl⟩ := h.rest; rfl
theorem slot (k : Nat) : (t.hart k).slot = (s.hart k).slot := by obtain ⟨_, _, _, e⟩ := h.harts k; rw [e]
theorem tag (k : Nat) : (t.hart k).tag = (s.hart k).tag := by obtain ⟨_, _, _, e⟩ := h.harts k; rw [e]
theorem heldFor (k : Nat) : (t.hart k).heldFor = (s.hart k).heldFor := by obtain ⟨_, _, _, e⟩ := h.harts k; rw [e]

theorem registersKept (k : Nat) : RegistersKept (s.hart k) (t.hart k) := by
  obtain ⟨_, _, _, e⟩ := h.harts k
  rw [e]
  exact ⟨rfl, rfl, rfl, rfl, rfl, rfl, rfl, rfl⟩

end

end StoresPerformed

/-! ### The parts of a performed store -/

theorem storeHome_performs (s : State) (sm : Option Nat) (pa : Nat) (bs : List Byte) : StoresPerformed s (storeHome s sm pa bs) := .of_rest ..

theorem storeOwned_performs (s : State) (sm : Option Nat) (holder pa : Nat) (bs : List Byte) :
    StoresPerformed s (storeOwned s sm holder pa bs) := .of_rest ..

theorem withMs_performs (s : State) (m : MemSys) : StoresPerformed s { s with ms := m } := .of_rest ..

theorem saveWrite_performs (s : State) (p : Nat) (bs : List Byte) : StoresPerformed s (saveWrite s p bs) :=
  .foldl (fun s _ => .ite (storeHome_performs ..) (.refl s)) _ s

theorem signStore_performs (s : State) (k : Option (Nat × Bool)) (va : Word) (bs : List Byte) : StoresPerformed s (signStore s k va bs) := by
  rw [signStore_eq]
  exact .of_rest ..

theorem onThread_performs (s : State) (h : Nat) (tag : BitVec 16) {f : Hart → Hart} (hf : ∀ a, HartCredited a (f a)) :
    StoresPerformed s (onThread s h tag f) := by
  unfold onThread
  split
  · exact .setHart (hf _)
  · exact .ite (.setHart (hf _)) (.of_rest ..)
  · exact .refl s

theorem countAt_performs (s : State) (h : Nat) (tag : BitVec 16) (code n : Nat) : StoresPerformed s (countAt s h tag code n) := by
  unfold countAt
  split
  · exact .refl s
  · split
    · exact .setHart (hartCredited_count ..)
    · exact .foldl (fun s k => .ite (saveWrite_performs ..) (.refl s)) _ s
    · exact .refl s

theorem lowerUnack_performs (s : State) (h : Nat) (tag : BitVec 16) : StoresPerformed s (lowerUnack s h tag) := by
  unfold lowerUnack
  split
  · exact .setHart ⟨_, _, _, rfl⟩
  · exact saveWrite_performs ..
  · exact .refl s

theorem noteWritten_performs (s : State) (h : Nat) (tag : BitVec 16) (pa : Nat) : StoresPerformed s (noteWritten s h tag pa) :=
  onThread_performs s h tag fun _ => ⟨_, _, _, rfl⟩

/-! ### Stores and windows -/

theorem performAt_performs (s : State) (st : Store) : StoresPerformed s (performAt s st) := by
  unfold performAt
  split
  · exact ((withMs_performs s _).trans (signStore_performs ..)).trans (lowerUnack_performs ..)
  · exact ((withMs_performs s _).trans (signStore_performs ..)).trans (countAt_performs ..)
  · split
    · exact ((storeOwned_performs s ..).trans (noteWritten_performs ..)).trans (countAt_performs ..)
    · exact ((storeHome_performs s ..).trans (withMs_performs ..)).trans (countAt_performs ..)
    · exact .refl s
    · exact .of_rest ..

theorem performOne_performs (s : State) (st : Store) : StoresPerformed s (performOne s st) :=
  (withMs_performs s _).trans (performAt_performs _ st)

theorem performStore_performs (s : State) (id : Nat) : StoresPerformed s (performStore s id) := by
  unfold performStore
  split
  · exact .refl s
  · exact (StoresPerformed.foldl performOne_performs _ s).trans (performOne_performs ..)

theorem performOwn_performs (s : State) (h : Nat) : StoresPerformed s (performOwn s h) :=
  .foldl (fun s (st : Store) => performStore_performs s st.id) _ s

theorem closeWindow_performs (s : State) (h k : Nat) : StoresPerformed s (closeWindow s h k) := by
  have unit : ∀ s off, StoresPerformed s (keepUnit s h k off) := fun s off => by
    unfold keepUnit
    dsimp only
    split
    · exact .refl s
    · exact withMs_performs ..
  exact .ite ((StoresPerformed.foldl (fun s u => unit s _) _ s).trans (withMs_performs ..)) (.refl s)

theorem endWindow_performs (s : State) (h k : Nat) : StoresPerformed s (endWindow s h k) :=
  (closeWindow_performs ..).after (.foldl (fun s (st : Store) => performStore_performs s st.id) _ s)

theorem endWindows_performs (s : State) (h : Nat) : StoresPerformed s (endWindows s h) :=
  .foldl (fun s k => endWindow_performs s h k) _ s

/-! ### Where a thread stands (R34) -/

/-- Where a thread is found depends on who runs in the slots, on the departure tables and on the time. -/
theorem findSlot_congr {s t : State} (run : ∀ h, (t.hart h).running = (s.hart h).running ∧ (t.hart h).tag = (s.hart h).tag)
    (cores : t.cores = s.cores) (time : t.time = s.time) (core hart : Nat) (tag : BitVec 16) :
    findSlot t core hart tag = findSlot s core hart tag := by
  have table : ∀ g, t.core g = s.core g := fun g => by rw [State.core, State.core, cores]
  simp only [findSlot, findDep, depLive, depExpired, (run _).1, (run _).2, table, time]

theorem whereIs_congr {s t : State} (run : ∀ h, (t.hart h).running = (s.hart h).running ∧ (t.hart h).tag = (s.hart h).tag)
    (cores : t.cores = s.cores) (time : t.time = s.time) (h : Nat) (tag : BitVec 16) : whereIs t h tag = whereIs s h tag := by
  have follow : ∀ n core hart tag, followSlot t n core hart tag = followSlot s n core hart tag := by
    intro n
    induction n with
    | zero =>
      intro core hart tag
      rw [followSlot, followSlot, findSlot_congr run cores time]
    | succ n ih =>
      intro core hart tag
      rw [followSlot, followSlot, findSlot_congr run cores time]
      simp only [ih]
  exact follow 2 _ _ tag

theorem StoresPerformed.whereIs {s t : State} (e : StoresPerformed s t) (h : Nat) (tag : BitVec 16) : whereIs t h tag = whereIs s h tag :=
  whereIs_congr (fun k => by obtain ⟨_, _, _, eq⟩ := e.harts k; rw [eq]; exact ⟨rfl, rfl⟩) e.cores e.time h tag

end Sys2Proof.Machine
end

section
/-! SUPPORT. Loads that return (R63), stores performed at their homes (R99) and barrier objects updated (R128), and O8. -/

namespace Sys2Proof.Machine
open Sys2Proof.Safety

/-! ### The return of a load (R63) -/

theorem exec_loadReturn_next {s : State} {h id : Nat} {l : Load} {r : List Event} (flight : s.flight = .loadReturn h id :: r)
    (found : (s.hart h).loads.find? (·.id == id) = some l) :
    exec .loadReturn s = .next (State.setHart { s with flight := r } h ((s.hart h).finishLoad l)) := by
  have found' : (State.hart { s with flight := r } h).loads.find? (·.id == id) = some l := found
  rw [exec_loadReturn, execLoadReturn, flight]
  dsimp only
  rw [returnLoad, found']
  rfl

/-- A hart once a load has returned, but for the registers that take the data. -/
def Hart.settleLoad (h : Hart) (l : Load) : Hart :=
  { h with
    loads := h.loads.filter fun k => k.id != l.id
    rclass := h.rclass ||| (l.flags.setWidth 64 <<< 8)
    pmc := if l.l2 = 0 then h.pmc else (h.count 0x10 l.l2).pmc }

theorem Hart.count_of_sameCounters {a b : Hart} (pmc : b.pmc = a.pmc) (pmsel : b.pmsel = a.pmsel) (c n : Nat) :
    b.count c n = { b with pmc := (a.count c n).pmc } := by
  rw [Hart.count_frame, count_pmc_congr pmc pmsel]

/-- A hart whose registers take the data of a load. -/
def Hart.takeData (h : Hart) : LoadTarget → Hart
  | .xreg d v => h.wx d v
  | .vreg d v => h.wv d v
  | .vgroup d vs => (vs.foldl (fun (p : Hart × Nat) v => (p.1.wv (BitVec.ofNat 5 p.2) v, p.2 + 1)) (h, d.toNat)).1

theorem Hart.finishLoad_eq (h : Hart) (l : Load) : h.finishLoad l = (h.settleLoad l).takeData l.target := by
  have settled : (if l.l2 = 0 then { h with loads := h.loads.filter (fun k => k.id != l.id), rclass := stickyOr h.rclass l.flags }
      else Hart.count { h with loads := h.loads.filter (fun k => k.id != l.id), rclass := stickyOr h.rclass l.flags } evL2 l.l2) =
        h.settleLoad l := by
    unfold Hart.settleLoad
    split
    · rfl
    · exact Hart.count_of_sameCounters (a := h)
        (b := { h with loads := h.loads.filter (fun k => k.id != l.id), rclass := stickyOr h.rclass l.flags }) rfl rfl ..
  unfold Hart.finishLoad
  dsimp only
  rw [settled]
  cases l.target with
  | xreg d v => rfl
  | vreg d v => rfl
  | vgroup d vs => rfl

/-- Registers written one after the other from v[n] on. -/
theorem wv_foldl_spec (vs : List VWord) (h : Hart) (n : Nat) (fits : n + vs.length ≤ 32) :
    let k := (vs.foldl (fun (p : Hart × Nat) v => (p.1.wv (BitVec.ofNat 5 p.2) v, p.2 + 1)) (h, n)).1
    (∀ j, j < vs.length → k.rv (BitVec.ofNat 5 (n + j)) = vs.getD j 0 ∧ k.vok (BitVec.ofNat 5 (n + j)) = true) ∧
      (∀ q : Reg, q.toNat < n ∨ n + vs.length ≤ q.toNat → k.rv q = h.rv q ∧ k.vok q = h.vok q) ∧
      k = { h with v := k.v, vready := k.vready } := by
  induction vs generalizing h n with
  | nil => exact ⟨nofun, fun _ _ => ⟨rfl, rfl⟩, rfl⟩
  | cons v vs ih =>
    rw [List.length_cons] at fits
    obtain ⟨written, kept, frame⟩ := ih (h.wv (BitVec.ofNat 5 n) v) (n + 1) (by omega)
    have number : (BitVec.ofNat 5 n).toNat = n := by rw [BitVec.toNat_ofNat, Nat.mod_eq_of_lt (by omega)]
    intro k
    refine ⟨fun j hj => ?_, fun q hq => ?_, ?_⟩
    · cases j with
      | zero =>
        obtain ⟨hv, hok⟩ := kept (BitVec.ofNat 5 n) (.inl (by omega))
        exact ⟨hv.trans (Hart.rv_wv_self ..), hok.trans (Hart.vok_wv_self ..)⟩
      | succ j =>
        have := written j (by simpa using hj)
        rwa [show n + 1 + j = n + (j + 1) by omega] at this
    · rw [List.length_cons] at hq
      have ne : q ≠ BitVec.ofNat 5 n := fun e => by rw [e, number] at hq; omega
      obtain ⟨hv, hok⟩ := kept q (by omega)
      exact ⟨hv.trans (Hart.rv_wv_ne _ _ ne), hok.trans (Hart.vok_wv_ne _ _ ne)⟩
    · exact frame

/-- A load of vector registers, one or a group, writes them from v[d] on. -/
theorem finishLoad_vectors (h : Hart) {id n : Nat} {d : Reg} {target : LoadTarget} {vs : List VWord} {f : Sticky}
    (to_ : (∃ v, target = .vreg d v ∧ vs = [v]) ∨ target = .vgroup d vs) : h.finishLoad ⟨id, target, f, n⟩ =
      (vs.foldl (fun (p : Hart × Nat) v => (p.1.wv (BitVec.ofNat 5 p.2) v, p.2 + 1)) (h.settleLoad ⟨id, target, f, n⟩, d.toNat)).1 := by
  rw [Hart.finishLoad_eq]
  rcases to_ with ⟨v, rfl, rfl⟩ | rfl
  · show _ = (h.settleLoad _).wv (BitVec.ofNat 5 d.toNat) v
    rw [BitVec.ofNat_toNat, BitVec.setWidth_eq, Hart.takeData]
  · rfl

/-- R63: the data of a load to x[d]. -/
theorem loadReturn_xreg (s : State) (h id n : Nat) (d : Reg) (v : Word) (r : List Event) (flight : s.flight = .loadReturn h id :: r)
    (found : (s.hart h).loads.find? (·.id == id) = some ⟨id, .xreg d v, 0#3, n⟩) :
    ∃ t, exec .loadReturn s = .next t ∧ (t.hart h).rx d = (if d = 0#5 then 0#64 else v) ∧ (t.hart h).xok d = true ∧
      (∀ q, q ≠ d → (t.hart h).rx q = (s.hart h).rx q ∧ (t.hart h).xok q = (s.hart h).xok q) ∧
      (t.hart h).loads = (s.hart h).loads.filter (fun l => l.id != id) ∧
      (t.hart h).pmc = (if n = 0 then (s.hart h).pmc else ((s.hart h).count 0x10 n).pmc) ∧
      t.hart h = { s.hart h with x := (t.hart h).x, xready := (t.hart h).xready, loads := (t.hart h).loads, pmc := (t.hart h).pmc } ∧
      (∀ k, k ≠ h → t.hart k = s.hart k) ∧ t = { s with harts := t.harts, flight := r } := by
  refine ⟨_, exec_loadReturn_next flight found, ?_⟩
  have flags : (s.hart h).rclass ||| ((0#3).setWidth 64 <<< 8) = (s.hart h).rclass := by simp
  rw [State.hart_setHart, Hart.finishLoad_eq]
  dsimp only [Hart.takeData]
  rw [Hart.wx_frame]
  refine ⟨Hart.rx_wx_self .., Hart.xok_wx_self .., fun q hq => ⟨Hart.rx_wx_ne _ _ hq, Hart.xok_wx_ne _ _ hq⟩, rfl, rfl, ?_,
    fun k hk => State.hart_setHart_ne _ _ hk, rfl⟩
  unfold Hart.settleLoad
  dsimp only
  rw [flags]

/-- R220, R227, R238: the data of a load to vector registers. -/
theorem loadReturn_vectors (s : State) (h id n : Nat) (d : Reg) (target : LoadTarget) (vs : List VWord) (fl : Sticky) (r : List Event)
    (flight : s.flight = .loadReturn h id :: r) (found : (s.hart h).loads.find? (·.id == id) = some ⟨id, target, fl, n⟩)
    (to_ : (∃ v, target = .vreg d v ∧ vs = [v]) ∨ target = .vgroup d vs) (fits : d.toNat + vs.length ≤ 32) :
    ∃ t, exec .loadReturn s = .next t ∧
      (∀ k, k < vs.length → (t.hart h).rv (d + BitVec.ofNat 5 k) = vs.getD k 0 ∧ (t.hart h).vok (d + BitVec.ofNat 5 k) = true) ∧
      (∀ q : Reg, q.toNat < d.toNat ∨ d.toNat + vs.length ≤ q.toNat →
        (t.hart h).rv q = (s.hart h).rv q ∧ (t.hart h).vok q = (s.hart h).vok q) ∧
      (t.hart h).rclass = (s.hart h).rclass ||| (fl.setWidth 64 <<< 8) ∧
      (t.hart h).loads = (s.hart h).loads.filter (fun l => l.id != id) ∧
      (t.hart h).pmc = (if n = 0 then (s.hart h).pmc else ((s.hart h).count 0x10 n).pmc) ∧
      t.hart h = { s.hart h with v := (t.hart h).v, vready := (t.hart h).vready, loads := (t.hart h).loads, pmc := (t.hart h).pmc
                                 rclass := (t.hart h).rclass } ∧
      (∀ k, k ≠ h → t.hart k = s.hart k) ∧ t = { s with harts := t.harts, flight := r } := by
  refine ⟨_, exec_loadReturn_next flight found, ?_⟩
  obtain ⟨written, kept, frame⟩ := wv_foldl_spec vs ((s.hart h).settleLoad ⟨id, target, fl, n⟩) d.toNat fits
  rw [State.hart_setHart, finishLoad_vectors _ to_]
  refine ⟨fun k hk => ?_, kept, ?_, ?_, ?_, ?_, fun k hk => State.hart_setHart_ne _ _ hk, rfl⟩
  · have number : d + BitVec.ofNat 5 k = BitVec.ofNat 5 (d.toNat + k) := by
      rw [BitVec.ofNat_add, BitVec.ofNat_toNat, BitVec.setWidth_eq]
    rw [number]
    exact written k hk
  · rw [frame]; rfl
  · rw [frame]; rfl
  · rw [frame]; rfl
  · rw [frame]; rfl

/-! ### A store performed at its home (R62, R99) -/

/-- A change of a thread, wherever it stands, leaves the memory system. -/
theorem onThread_memory (s : State) (h : Nat) (tag : BitVec 16) (f : Hart → Hart) : (onThread s h tag f).ms = s.ms := by
  unfold onThread onSaved
  split
  · rfl
  · dsimp only
    split <;> rfl
  · rfl

theorem registerCount_memory {s : State} {owned : Bool} {h : Nat} {tag : BitVec 16}
    (quiet : owned = true ∨ ∀ k g p, whereIs s h tag ≠ .saved k g p) : (registerCount s owned h tag).ms = s.ms := by
  rcases quiet with rfl | unsaved
  · rfl
  · exact (countAt_unsaved unsaved _ _).1

/-- R99: a store to memory outside software-managed pages, once it is performed. -/
theorem performAt_home {s : State} {st : Store} {holder : Option Nat} (place : st.place = .home none holder) (shadow : st.shadow = none)
    (clean : isPoison s.ms (lineOf st.pa) = false)
    (quiet : (∃ o, holder = some o ∧ ownsAll s.ms o none st.pa st.bytes.length = true) ∨
      ∀ k tag p, whereIs s st.hart st.tag ≠ .saved k tag p) :
    (performAt s st).ms.mem = Memory.writeBytes s.ms.mem st.pa st.bytes ∧ (performAt s st).ms.stash = s.ms.stash ∧
      (performAt s st).ms.stores = s.ms.stores := by
  unfold performAt
  rw [place, shadow]
  cases holder with
  | none =>
    have unsaved : ∀ k tag p, whereIs s st.hart st.tag ≠ .saved k tag p := quiet.resolve_left nofun
    have performs : StoresPerformed s (dropOlder (storeHome s none st.pa st.bytes) (st.hart / 8) none st.pa st.bytes.length) :=
      (storeHome_performs ..).trans (withMs_performs ..)
    dsimp only
    rw [(countAt_unsaved (fun k g p => by rw [performs.whereIs]; exact unsaved k g p) _ _).1, dropOlder, dropWords_frame]
    exact storeHome_plain s st.pa st.bytes clean
  | some o =>
    have performs : StoresPerformed s (noteWritten (storeOwned s none o st.pa st.bytes) st.hart st.tag st.pa) :=
      (storeOwned_performs ..).trans (noteWritten_performs ..)
    have owned_or_unsaved : ownsAll s.ms o none st.pa st.bytes.length = true ∨
        ∀ k tag p, whereIs (noteWritten (storeOwned s none o st.pa st.bytes) st.hart st.tag st.pa) st.hart st.tag ≠ .saved k tag p := by
      rcases quiet with ⟨p, same, owned⟩ | unsaved
      · obtain rfl : o = p := Option.some.inj same
        exact .inl owned
      · exact .inr fun k g p => by rw [performs.whereIs]; exact unsaved k g p
    dsimp only
    rw [registerCount_memory owned_or_unsaved, noteWritten, onThread_memory]
    exact storeOwned_plain s o st.pa st.bytes clean

/-- R62, R99: the performance of a store that no earlier one of its thread comes before. -/
theorem storePerformed_home (s : State) (id : Nat) (st : Store) (holder : Option Nat) (r : List Event)
    (flight : s.flight = .storePerformed id :: r) (found : s.ms.stores.find? (·.id == id) = some st)
    (first : storesBefore (s.ms.stores.filter (·.id < id)) st = []) (place : st.place = .home none holder) (shadow : st.shadow = none)
    (clean : isPoison s.ms (lineOf st.pa) = false)
    (quiet : (∃ o, holder = some o ∧ ownsAll s.ms o none st.pa st.bytes.length = true) ∨
      ∀ k tag p, whereIs s st.hart st.tag ≠ .saved k tag p) :
    ∃ t, exec .storePerformed s = .next t ∧
      (∀ k, k < st.bytes.length → Memory.read t.ms.mem (st.pa + k) = st.bytes.getD k 0#8) ∧
      (∀ a, a < st.pa ∨ st.pa + st.bytes.length ≤ a → Memory.read t.ms.mem a = Memory.read s.ms.mem a) ∧
      t.ms.stash = s.ms.stash ∧ t.ms.stores = s.ms.stores.filter (fun e => e.id != id) := by
  have number : st.id = id := by simpa using List.find?_some found
  let m : MemSys := { s.ms with stores := s.ms.stores.filter (·.id != st.id) }
  have threads : ∀ h tag, whereIs { s with flight := r, ms := m } h tag = whereIs s h tag := fun h tag =>
    whereIs_congr (fun _ => ⟨rfl, rfl⟩) rfl rfl h tag
  obtain ⟨mem, stash, stores⟩ := performAt_home (s := { s with flight := r, ms := m }) place shadow clean
    (quiet.imp_right fun unsaved k g p => by rw [threads]; exact unsaved k g p)
  refine ⟨performStore { s with flight := r } id, ?_, ?_⟩
  · rw [exec_storePerformed, execStorePerformed, flight]
  · rw [performStore_alone (s := { s with flight := r }) found first, performOne, mem, stash, stores, ← number]
    refine ⟨fun k hk => ?_, fun a ha => Memory.read_writeBytes_outside _ _ _ ha, rfl, rfl⟩
    rw [Memory.read_writeBytes, if_pos (by omega), Nat.add_sub_cancel_left]

/-! ### A barrier object updated (R128) -/

/-- Bytes of one line are one piece. -/
theorem cutLines_oneLine {bs : List Byte} (some_ : bs ≠ []) {a : Nat} (one : a % 64 + bs.length ≤ 64) : cutLines a bs = [(a, bs)] := by
  induction bs generalizing a with
  | nil => exact absurd rfl some_
  | cons b bs ih =>
    rw [List.length_cons] at one
    cases bs with
    | nil => rfl
    | cons c cs =>
      rw [List.length_cons] at one
      rw [cutLines, ih (List.cons_ne_nil c cs) (by rw [List.length_cons]; omega)]
      exact if_neg (by omega)

/-- What a barrier's update notes of the thread that sent it. -/
def barrierNotes (s : State) (b : BarOp) : State :=
  match b.slot with
  | some (h, tag) => lowerUnack (countAt (noteWritten (dropOlder s (h / 8) none b.pa 16) h tag b.pa) h tag evL2 1) h tag
  | none => s

/-- The notes leave the memory, where the thread is resident. -/
theorem barrierNotes_memory {s : State} {b : BarOp} (resident : ∀ h tag, b.slot = some (h, tag) → ∃ k, whereIs s h tag = .resident k) :
    (barrierNotes s b).ms.mem = s.ms.mem ∧ (barrierNotes s b).ms.stash = s.ms.stash := by
  unfold barrierNotes
  split
  · rename_i h tag slot
    obtain ⟨k, found⟩ := resident h tag slot
    have noted : StoresPerformed s (noteWritten (dropOlder s (h / 8) none b.pa 16) h tag b.pa) :=
      (withMs_performs ..).trans (noteWritten_performs ..)
    have counted := noted.trans (countAt_performs _ h tag evL2 1)
    have unsaved : ∀ j g p, whereIs (noteWritten (dropOlder s (h / 8) none b.pa 16) h tag b.pa) h tag ≠ .saved j g p := fun j g p => by
      rw [noted.whereIs, found]; exact nofun
    rw [lowerUnack_resident (k := k) (by rw [counted.whereIs, found]), State.setHart_ms, (countAt_unsaved unsaved _ _).1, noteWritten,
      onThread_memory, dropOlder, dropWords_frame]
    exact ⟨rfl, rfl⟩
  · exact ⟨rfl, rfl⟩

/-- The bytes that the update of a barrier object writes: PENDING, PHASE and the flags. -/
def barrierBytes (s : State) (b : BarOp) : List Byte :=
  let c := BitVec.ofNat 32 b.count
  let old := BitVec.ofNat 32 (memNat s b.pa 4)
  let phase := BitVec.ofNat 32 (memNat s (b.pa + 4) 4)
  let fl := memNat s (b.pa + 8) 4
  let pending := if b.expect then old + c else old - c
  let expect := b.expect || fl.testBit 0
  let done := expect && (pending.msb || pending == 0#32)
  let ovr := done && pending.msb
  let fl' := fl / 4 * 4 + (if ovr || fl.testBit 1 then 2 else 0) + (if expect && !done then 1 else 0)
  let phase' := if done then phase + 1 else phase
  leBytes 4 pending.toNat ++ leBytes 4 phase'.toNat ++ leBytes 4 fl'

theorem length_barrierBytes (s : State) (b : BarOp) : (barrierBytes s b).length = 12 := by simp [barrierBytes]

/-- The record of an overrun leaves the memory and where the threads stand. -/
theorem addRecord_memory (s : State) (r : Record) : (addRecord s r).ms = s.ms ∧ ∀ h tag, whereIs (addRecord s r) h tag = whereIs s h tag :=
  ⟨rfl, fun h tag => whereIs_congr (fun _ => ⟨rfl, rfl⟩) rfl rfl h tag⟩

/-- The update writes the object, then publishes, makes a record and notes its thread. -/
theorem barrierApply_eq (s : State) (b : BarOp) : ∃ u, barrierApply s b = barrierNotes u b ∧
    u.ms.mem = (writeRange s none b.pa (barrierBytes s b)).ms.mem ∧ u.ms.stash = (writeRange s none b.pa (barrierBytes s b)).ms.stash ∧
    ∀ h tag, whereIs u h tag = whereIs s h tag := by
  have written : StoresPerformed s (writeRange s none b.pa (barrierBytes s b)) := .foldl (fun s _ => storeHome_performs s ..) _ s
  unfold barrierApply
  extract_lets c old phase fl pending expect done ovr fl' phase' w p q
  have published : p.ms.mem = w.ms.mem ∧ p.ms.stash = w.ms.stash ∧ StoresPerformed w p := by
    simp only [p]
    split
    · exact ⟨rfl, rfl, withMs_performs ..⟩
    · exact ⟨rfl, rfl, .refl w⟩
  have recorded : q.ms = p.ms ∧ ∀ h tag, whereIs q h tag = whereIs p h tag := by
    simp only [q]
    split
    · exact addRecord_memory ..
    · exact ⟨rfl, fun _ _ => rfl⟩
  obtain ⟨mem, stash, performs⟩ := published
  obtain ⟨ms, threads⟩ := recorded
  exact ⟨q, rfl, by rw [ms, mem]; rfl, by rw [ms, stash]; rfl, fun h tag => by
    rw [threads, (StoresPerformed.trans written performs).whereIs]⟩

/-- R128: the update writes the 12 bytes of the object and nothing else of the memory. -/
theorem barrierApply_memory {s : State} {b : BarOp} (aligned : b.pa % 16 = 0) (clean : isPoison s.ms (lineOf b.pa) = false)
    (resident : ∀ h tag, b.slot = some (h, tag) → ∃ k, whereIs s h tag = .resident k) :
    (barrierApply s b).ms.mem = Memory.writeBytes s.ms.mem b.pa (barrierBytes s b) ∧ (barrierApply s b).ms.stash = s.ms.stash := by
  have written : writeRange s none b.pa (barrierBytes s b) = storeHome s none b.pa (barrierBytes s b) := by
    have one : b.pa % 64 + (barrierBytes s b).length ≤ 64 := by rw [length_barrierBytes]; omega
    rw [writeRange, cutLines_oneLine (List.ne_nil_of_length_pos (by rw [length_barrierBytes]; omega)) one]
    rfl
  obtain ⟨mem, stash, -⟩ := storeHome_plain s b.pa (barrierBytes s b) clean
  obtain ⟨u, applied, umem, ustash, threads⟩ := barrierApply_eq s b
  obtain ⟨nmem, nstash⟩ := barrierNotes_memory (s := u) (b := b) fun h tag slot => by rw [threads]; exact resident h tag slot
  rw [applied, nmem, nstash, umem, ustash, written]
  exact ⟨mem, stash⟩

/-- A little-endian word of 32 bits in memory. -/
def wordAt (m : Memory) (a : Nat) : BitVec 32 := BitVec.ofNat 32 (leNat (Memory.readBytes m a 4))

/-- Three words written one after the other read back. -/
theorem wordAt_writeBytes_three {t m : Memory} {a x y z : Nat}
    (written : t = Memory.writeBytes m a (leBytes 4 x ++ leBytes 4 y ++ leBytes 4 z)) :
    wordAt t a = BitVec.ofNat 32 x ∧ wordAt t (a + 4) = BitVec.ofNat 32 y ∧ wordAt t (a + 8) = BitVec.ofNat 32 z := by
  have all : Memory.readBytes t a (4 + 4 + 4) = leBytes 4 x ++ leBytes 4 y ++ leBytes 4 z := by
    simpa [written] using Memory.readBytes_writeBytes m a (leBytes 4 x ++ leBytes 4 y ++ leBytes 4 z)
  rw [readBytes_add, readBytes_add] at all
  obtain ⟨front, hz⟩ := List.append_inj all (by simp)
  obtain ⟨hx, hy⟩ := List.append_inj front (by simp)
  have word : ∀ v, BitVec.ofNat 32 (leNat (leBytes 4 v)) = BitVec.ofNat 32 v := fun v => by
    rw [leNat_leBytes]; exact BitVec.eq_of_toNat_eq (by simp)
  exact ⟨by rw [wordAt, hx, word], by rw [wordAt, hy, word], by rw [wordAt, hz, word]⟩

/-- The flags of a barrier object: EXPECT, OVERRUN and the reserved bits (R127). -/
theorem barrierFlags_bits (fl : Nat) (o e : Bool) :
    let w := BitVec.ofNat 32 (fl / 4 * 4 + (if o then 2 else 0) + (if e then 1 else 0))
    w.getLsbD 0 = e ∧ w.getLsbD 1 = o ∧ w.extractLsb' 2 30 = (BitVec.ofNat 32 fl).extractLsb' 2 30 := by
  intro w
  have kept : (fl / 4 * 4 + (if o then 2 else 0) + (if e then 1 else 0)) / 4 = fl / 4 := by
    cases o <;> cases e <;> simp <;> omega
  refine ⟨?_, ?_, ?_⟩
  · simp only [w, BitVec.getLsbD_ofNat, Nat.testBit_zero]
    cases o <;> cases e <;> simp <;> omega
  · simp only [w, BitVec.getLsbD_ofNat, Nat.testBit_succ, Nat.testBit_zero]
    cases o <;> cases e <;> simp <;> omega
  · apply BitVec.eq_of_toNat_eq
    simp only [w, BitVec.extractLsb'_toNat, BitVec.toNat_ofNat, Nat.shiftRight_eq_div_pow]
    omega

/-- R128: what the update of a barrier object makes of its words. -/
theorem barrierBytes_words (s : State) (b : BarOp) :
    let c := BitVec.ofNat 32 b.count
    let pending := if b.expect then wordAt s.ms.mem b.pa + c else wordAt s.ms.mem b.pa - c
    let expect := b.expect || (wordAt s.ms.mem (b.pa + 8)).getLsbD 0
    let completes := expect && pending.sle 0#32
    let t := Memory.writeBytes s.ms.mem b.pa (barrierBytes s b)
    wordAt t b.pa = pending ∧
      wordAt t (b.pa + 4) = (if completes then wordAt s.ms.mem (b.pa + 4) + 1 else wordAt s.ms.mem (b.pa + 4)) ∧
      (wordAt t (b.pa + 8)).getLsbD 0 = (expect && !completes) ∧
      (wordAt t (b.pa + 8)).getLsbD 1 = ((wordAt s.ms.mem (b.pa + 8)).getLsbD 1 || (completes && pending.slt 0#32)) ∧
      (wordAt t (b.pa + 8)).extractLsb' 2 30 = (wordAt s.ms.mem (b.pa + 8)).extractLsb' 2 30 := by
  intro c pending expect completes t
  have bit : ∀ i, i < 32 → (memNat s (b.pa + 8) 4).testBit i = (wordAt s.ms.mem (b.pa + 8)).getLsbD i := fun i hi => by
    rw [wordAt, BitVec.getLsbD_ofNat, decide_eq_true hi, Bool.true_and]; rfl
  have bytes : barrierBytes s b = leBytes 4 pending.toNat ++
      leBytes 4 (if completes then wordAt s.ms.mem (b.pa + 4) + 1 else wordAt s.ms.mem (b.pa + 4)).toNat ++
      leBytes 4 (memNat s (b.pa + 8) 4 / 4 * 4 + (if (completes && pending.slt 0#32) || (memNat s (b.pa + 8) 4).testBit 1 then 2 else 0) +
        (if expect && !completes then 1 else 0)) := by
    unfold barrierBytes
    simp only [← BitVec.slt_zero_eq_msb, ← BitVec.sle_eq_slt_or_eq, bit 0 (by omega)]
    rfl
  obtain ⟨w0, w4, w8⟩ := wordAt_writeBytes_three (congrArg (Memory.writeBytes s.ms.mem b.pa) bytes : t = _)
  rw [w0, w4, w8]
  simp only [BitVec.ofNat_toNat, BitVec.setWidth_eq]
  obtain ⟨b0, b1, b2⟩ := barrierFlags_bits (memNat s (b.pa + 8) 4) ((completes && pending.slt 0#32) || (memNat s (b.pa + 8) 4).testBit 1)
    (expect && !completes)
  exact ⟨trivial, trivial, b0, by rw [b1, bit 1 (by omega), Bool.or_comm], b2⟩

/-- Settles O8: the return of a load, the performance of a store at its home, and the update of a barrier object. -/
theorem accessEvents : Obligations.AccessEvents := by
  unfold Obligations.AccessEvents
  refine ⟨loadReturn_xreg, loadReturn_vectors, storePerformed_home, ?_⟩
  intro s b r flight aligned clean resident w c pending expect completes
  have threads : ∀ h tag, whereIs { s with flight := r } h tag = whereIs s h tag := fun h tag =>
    whereIs_congr (fun _ => ⟨rfl, rfl⟩) rfl rfl h tag
  obtain ⟨mem, stash⟩ := barrierApply_memory (s := { s with flight := r }) aligned clean fun h tag slot => by
    rw [threads]; exact resident h tag slot
  obtain ⟨w0, w4, b0, b1, b2⟩ := barrierBytes_words { s with flight := r } b
  have step : exec .barrierUpdate s = .next (barrierApply { s with flight := r } b) := by
    rw [exec_barrierUpdate, execBarrierUpdate, flight]
  refine ⟨_, step, ?_⟩
  rw [mem, stash]
  exact ⟨w0, w4, b0, b1, b2, fun x hx => Memory.read_writeBytes_outside _ _ _ (by rwa [length_barrierBytes]), rfl⟩

end Sys2Proof.Machine
end

section
/-! SUPPORT. Threads saved, resident again and moved (R78 to R82), and O26. -/

namespace Sys2Proof.Machine
open Sys2Proof.Safety

/-! ### What keeps slots and tags -/

/-- The slot of a hart, its tag and the launch that holds it are as before. -/
structure SlotKept (a b : Hart) : Prop where
  slot : b.slot = a.slot
  tag : b.tag = a.tag
  heldFor : b.heldFor = a.heldFor

theorem SlotKept.refl (a : Hart) : SlotKept a a := ⟨rfl, rfl, rfl⟩

theorem SlotKept.trans {a b c : Hart} (h : SlotKept a b) (k : SlotKept b c) : SlotKept a c :=
  ⟨k.slot.trans h.slot, k.tag.trans h.tag, k.heldFor.trans h.heldFor⟩

theorem slotKept_wx (a : Hart) (r : Reg) (v : Word) : SlotKept a (a.wx r v) := by rw [Hart.wx_frame]; exact ⟨rfl, rfl, rfl⟩

theorem slotKept_count (a : Hart) (c n : Nat) : SlotKept a (a.count c n) := by rw [Hart.count_frame]; exact ⟨rfl, rfl, rfl⟩

theorem slotKept_retire (a : Hart) (n : Nat) : SlotKept a (a.retire n) := by
  have advanced : SlotKept a { a with pc := a.pc + BitVec.ofNat 64 n, stall := none } := ⟨rfl, rfl, rfl⟩
  exact (advanced.trans (slotKept_count _ evIssue 1)).trans (slotKept_count _ evRetired 1)

theorem slotKept_foldl {α : Type} {f : Hart → α → Hart} (hf : ∀ a x, SlotKept a (f a x)) (l : List α) (a : Hart) :
    SlotKept a (l.foldl f a) := by
  induction l generalizing a with
  | nil => exact .refl a
  | cons x l ih => exact (hf a x).trans (ih (f a x))

theorem slotKept_wv_foldl (vs : List VWord) (h : Hart) (n : Nat) :
    SlotKept h (vs.foldl (fun (p : Hart × Nat) v => (p.1.wv (BitVec.ofNat 5 p.2) v, p.2 + 1)) (h, n)).1 := by
  induction vs generalizing h n with
  | nil => exact .refl h
  | cons v vs ih =>
    have written : SlotKept h (h.wv (BitVec.ofNat 5 n) v) := ⟨rfl, rfl, rfl⟩
    exact written.trans (ih _ (n + 1))

theorem slotKept_finishLoad (a : Hart) (l : Load) : SlotKept a (a.finishLoad l) := by
  have settled : SlotKept a (a.settleLoad l) := ⟨rfl, rfl, rfl⟩
  rw [Hart.finishLoad_eq]
  unfold Hart.takeData
  split
  · exact settled.trans (slotKept_wx ..)
  · exact settled.trans ⟨rfl, rfl, rfl⟩
  · exact settled.trans (slotKept_wv_foldl ..)

theorem slotKept_finishLoads (a : Hart) : SlotKept a a.finishLoads := slotKept_foldl slotKept_finishLoad _ a

/-- Every slot is kept, and what a departure entry tells of the state. -/
structure SlotsKept (s t : State) : Prop where
  harts : ∀ h, SlotKept (s.hart h) (t.hart h)
  time : t.time = s.time
  node : t.plat.node = s.plat.node
  tenantOf : ∀ g, tenantOf t g = tenantOf s g

namespace SlotsKept

theorem refl (s : State) : SlotsKept s s := ⟨fun _ => .refl _, rfl, rfl, fun _ => rfl⟩

theorem trans {s t u : State} (a : SlotsKept s t) (b : SlotsKept t u) : SlotsKept s u :=
  ⟨fun h => (a.harts h).trans (b.harts h), b.time.trans a.time, b.node.trans a.node, fun g => (b.tenantOf g).trans (a.tenantOf g)⟩

theorem setHart {s : State} {r : Nat} {a : Hart} (ha : SlotKept (s.hart r) a) : SlotsKept s (s.setHart r a) := by
  refine ⟨fun h => ?_, rfl, rfl, fun _ => rfl⟩
  by_cases e : h = r
  · subst e; rw [State.hart_setHart]; exact ha
  · rw [State.hart_setHart_ne _ _ e]; exact .refl _

theorem foldl {α : Type} {f : State → α → State} (hf : ∀ s x, SlotsKept s (f s x)) (l : List α) (s : State) : SlotsKept s (l.foldl f s) := by
  induction l generalizing s with
  | nil => exact .refl s
  | cons x l ih => exact (hf s x).trans (ih (f s x))

end SlotsKept

theorem StoresPerformed.slotsKept {s t : State} (h : StoresPerformed s t) : SlotsKept s t :=
  ⟨fun k => ⟨h.slot k, h.tag k, h.heldFor k⟩, h.time, h.node, h.tenantOf⟩

theorem withMs_slotsKept (s : State) (m : MemSys) : SlotsKept s { s with ms := m } := (withMs_performs s m).slotsKept

theorem step4_slotsKept (s : State) {f : Hart → Hart} (hf : ∀ a, SlotKept a (f a)) : SlotsKept s (s.step4 f) :=
  .setHart ((hf _).trans (slotKept_retire ..))

theorem stopThread_slotsKept (s : State) (h : Nat) : SlotsKept s (stopThread s h) := by
  have finished : ∀ a : Hart, SlotKept a { a.finishLoads with hold := none, holds := [], stall := none } := fun a =>
    (slotKept_finishLoads a).trans ⟨rfl, rfl, rfl⟩
  unfold stopThread
  exact ((performOwn_performs s h).slotsKept.trans (.setHart (finished _))).trans (endWindows_performs ..).slotsKept

theorem setStmap_slotsKept (s : State) (h k : Nat) (v : Word) : SlotsKept s (setStmap s h k v) := by
  unfold setStmap
  dsimp only
  split
  · exact .setHart ⟨rfl, rfl, rfl⟩
  · exact (endWindow_performs ..).slotsKept.trans (.setHart ⟨rfl, rfl, rfl⟩)

theorem applySig_slotsKept (s : State) (core h : Nat) (sig : Sig) : SlotsKept s (applySig s core h sig) :=
  (withMs_slotsKept s _).trans (.setHart ⟨rfl, rfl, rfl⟩)

theorem loadImage_slotKept (s : State) (pa : Nat) (a : Hart) : SlotKept a (loadImage s pa a) := by
  unfold loadImage
  exact ⟨rfl, rfl, rfl⟩

/-! ### A thaw that was due (R167) -/

/-- A change of one hart that keeps its slot and makes no thaw due, with records made. -/
structure TrapTaken (h : Nat) (s t : State) : Prop where
  others : ∀ k, k ≠ h → t.hart k = s.hart k
  slot : SlotKept (s.hart h) (t.hart h)
  due : (t.hart h).thawDue = true → (s.hart h).thawDue = true
  rest : ∃ hs f n, t = { s with harts := hs, flt := f, nextId := n }

namespace TrapTaken

theorem refl (h : Nat) (s : State) : TrapTaken h s s := ⟨fun _ _ => rfl, .refl _, id, _, _, _, rfl⟩

theorem trans {h : Nat} {s t u : State} (a : TrapTaken h s t) (b : TrapTaken h t u) : TrapTaken h s u := by
  refine ⟨fun k hk => (b.others k hk).trans (a.others k hk), a.slot.trans b.slot, a.due ∘ b.due, ?_⟩
  obtain ⟨_, _, _, ht⟩ := a.rest
  obtain ⟨_, _, _, hu⟩ := b.rest
  subst ht hu
  exact ⟨_, _, _, rfl⟩

theorem setHart {h : Nat} {s : State} {a : Hart} (slot : SlotKept (s.hart h) a) (due : a.thawDue = true → (s.hart h).thawDue = true) :
    TrapTaken h s (s.setHart h a) :=
  ⟨fun _ hk => State.hart_setHart_ne _ _ hk, by rw [State.hart_setHart]; exact slot, by rw [State.hart_setHart]; exact due, _, _, _, rfl⟩

theorem addRecord (h : Nat) (s : State) (r : Record) : TrapTaken h s (addRecord s r) := ⟨fun _ _ => rfl, .refl _, id, _, _, _, rfl⟩

theorem ms {h : Nat} {s t : State} (a : TrapTaken h s t) : t.ms = s.ms := by obtain ⟨_, _, _, rfl⟩ := a.rest; rfl
theorem core {h : Nat} {s t : State} (a : TrapTaken h s t) (g : Nat) : t.core g = s.core g := by obtain ⟨_, _, _, rfl⟩ := a.rest; rfl

theorem slotsKept {h : Nat} {s t : State} (a : TrapTaken h s t) : SlotsKept s t := by
  refine ⟨fun k => ?_, ?_, ?_, ?_⟩
  · by_cases e : k = h
    · subst e; exact a.slot
    · rw [a.others k e]; exact .refl _
  all_goals obtain ⟨_, _, _, rfl⟩ := a.rest
  · rfl
  · rfl
  · exact fun _ => rfl

end TrapTaken

theorem freezeHart_taken (s : State) (h c : Nat) (tval addr : Word) (acc : Nat) (async stage2 : Bool) :
    TrapTaken h s (freezeHart s h c tval addr acc async stage2) := by
  have recorded : ∀ u r, TrapTaken h u (addFreezeRecord u r) := fun u r => by
    unfold addFreezeRecord
    dsimp only
    split
    · exact .addRecord ..
    · exact (TrapTaken.addRecord ..).trans (.addRecord ..)
  have frozen : TrapTaken h s (s.setHart h { (s.hart h).freeze c tval addr acc async stage2 with stall := none }) :=
    .setHart ⟨rfl, rfl, rfl⟩ (fun due => Bool.noConfusion due)
  exact frozen.trans (recorded ..)

theorem enter_kept (a : Hart) (l : Mode) (c : Nat) (tval epc : Word) :
    SlotKept a (a.enter l c tval epc) ∧ (a.enter l c tval epc).thawDue = a.thawDue := by
  cases l <;> exact ⟨⟨rfl, rfl, rfl⟩, rfl⟩

theorem enterTrap_taken {s t : State} {h c : Nat} {tval addr : Word} {acc : Nat} {async stage2 : Bool}
    (entered : enterTrap s h c tval addr acc async stage2 = some t) : TrapTaken h s t := by
  unfold enterTrap at entered
  dsimp only at entered
  split at entered
  · obtain ⟨slot, due⟩ := enter_kept (s.hart h) _ c tval (s.hart h).pc
    cases entered
    exact .setHart slot (by rw [due]; exact id)
  · cases entered
  · cases entered
    exact freezeHart_taken ..

theorem thawTrap_taken (s : State) (h : Nat) :
    TrapTaken h s (thawTrap s h) ∧ ((s.hart h).frozen.isSome = true → ((thawTrap s h).hart h).thawDue = false) := by
  unfold thawTrap
  dsimp only
  split
  · rename_i none_
    exact ⟨.refl h s, fun some_ => by rw [none_] at some_; cases some_⟩
  · rename_i c tval some_
    let u := s.setHart h { s.hart h with frozen := none, thawDue := false }
    have undue : (u.hart h).thawDue = false := by rw [State.hart_setHart]
    have thawed : TrapTaken h s u := .setHart ⟨rfl, rfl, rfl⟩ nofun
    have after : ∀ t, TrapTaken h u t → TrapTaken h s t ∧ ((s.hart h).frozen.isSome = true → (t.hart h).thawDue = false) := fun t taken =>
      ⟨thawed.trans taken, fun _ => Bool.eq_false_iff.mpr fun due => by rw [taken.due due] at undue; cases undue⟩
    split
    · exact after u (.refl h u)
    · refine after _ ?_
      cases entered : enterTrap u h c tval (s.hart h).frozeAt.2 (s.hart h).frozeAt.1 (s.hart h).froze.1 (s.hart h).froze.2 with
      | none => exact .setHart ⟨rfl, rfl, rfl⟩ id
      | some t => exact enterTrap_taken entered

theorem takeThawed_taken (s : State) (h : Nat) :
    TrapTaken h s (takeThawed s h) ∧ ((s.hart h).frozen.isSome = true → ((takeThawed s h).hart h).thawDue = false) := by
  unfold takeThawed
  split
  · exact thawTrap_taken s h
  · rename_i undue
    exact ⟨.refl h s, fun _ => Bool.eq_false_iff.mpr undue⟩

theorem takeThawed_undue {s : State} {h : Nat} (undue : (s.hart h).thawDue = false) : takeThawed s h = s := by
  rw [takeThawed, undue]; rfl

/-! ### PARK (R79) -/

theorem setDep_depAt (s : State) (g i : Nat) (e : Dep) : ((setDep s g i e).core g).depAt i = e := by
  simp only [setDep, Core.depAt, State.core_setCore, Table.get_set_self]

theorem stopThread_registersKept (s : State) {h k : Nat} (ne : k ≠ h) : RegistersKept (s.hart k) ((stopThread s h).hart k) := by
  have stores := (performOwn_performs s h).registersKept k
  have windows := (endWindows_performs ((performOwn s h).setHart h
    { ((performOwn s h).hart h).finishLoads with hold := none, holds := [], stall := none }) h).registersKept k
  rw [State.hart_setHart_ne _ _ ne] at windows
  exact registersKept_trans stores windows

theorem setDep_hart (s : State) (g i : Nat) (e : Dep) (h : Nat) : (setDep s g i e).hart h = s.hart h := rfl

/-- R35, R79: what PARK leaves: a saved entry, a parked slot, every other hart's registers. -/
theorem parkThread_saves (s : State) (h pa i : Nat) :
    ((parkThread s h pa i).hart h).slot = .parked ∧
      ((parkThread s h pa i).core (h / 8)).depAt i =
        ⟨s.time.setWidth 32, 1, h % 8, (s.hart h).tag, BitVec.ofNat 64 pa, true, (tenantOf s (h / 8)).getD 0⟩ ∧
      ∀ k, k ≠ h → RegistersKept (s.hart k) ((parkThread s h pa i).hart k) := by
  have stopped_ := stopThread_slotsKept s h
  unfold parkThread saveImage
  extract_lets a p w e
  have written : StoresPerformed (stopThread s h) w := saveWrite_performs ..
  have tag : a.tag = (s.hart h).tag := (stopped_.harts h).tag
  refine ⟨by rw [State.hart_setHart]; rfl, ?_, fun k hk => ?_⟩
  · rw [State.core_setHart, setDep_depAt, written.time, stopped_.time, tag]
    simp only [p, stopped_.tenantOf]
  · rw [State.hart_setHart_ne _ _ hk, setDep_hart]
    exact registersKept_trans (stopThread_registersKept s hk) (written.registersKept k)

section
variable {s : State} {a : Reg} {core : Nat} (impure : Impure s) (mode : modeAtLeast s.me.mode .s = true) (ready : XReady s [a])
  (target : needTarget (s.me.rx a) s = .ok core)
include impure mode ready target

theorem exec_park_saves {i : Nat} (resident : threadAt s (namedSlot core (s.me.rx a)) (locTag (s.me.rx a)) = true)
    (backed : imageBacked s (namedSlot core (s.me.rx a)) = true) (room : depRoom s core = some i) :
    exec (.park a) s = .next (parkThread (s.step4 id) (namedSlot core (s.me.rx a)) ((imageFrame s (namedSlot core (s.me.rx a))).getD 0) i) := by
  rw [exec_park, execPark, needMode_ok mode, bind_ok, needX_ok (ready a (by simp)), bind_ok, noPure_ok impure, bind_ok]
  dsimp only
  rw [target, bind_ok, if_pos resident, backed, check_true, bind_ok, room]
  rfl

theorem exec_park_absent (absent : threadAt s (namedSlot core (s.me.rx a)) (locTag (s.me.rx a)) = false) :
    exec (.park a) s = .next (s.step4 id) := by
  rw [exec_park, execPark, needMode_ok mode, bind_ok, needX_ok (ready a (by simp)), bind_ok, noPure_ok impure, bind_ok]
  dsimp only
  rw [target, bind_ok, if_neg (by rw [absent]; decide)]
  rfl

theorem exec_resume_parked {i : Nat} (parked : parkedAt s (namedSlot core (s.me.rx a)) (locTag (s.me.rx a)) = some i) :
    exec (.resume a) s = .next (resumeThread (s.step4 id) (namedSlot core (s.me.rx a)) i) := by
  rw [exec_resume, execResume, needMode_ok mode, bind_ok, needX_ok (ready a (by simp)), bind_ok, noPure_ok impure, bind_ok]
  dsimp only
  rw [target, bind_ok, parked]
  rfl

theorem exec_resume_absent (absent : parkedAt s (namedSlot core (s.me.rx a)) (locTag (s.me.rx a)) = none) :
    exec (.resume a) s = .next (s.step4 id) := by
  rw [exec_resume, execResume, needMode_ok mode, bind_ok, needX_ok (ready a (by simp)), bind_ok, noPure_ok impure, bind_ok]
  dsimp only
  rw [target, bind_ok, absent]
  rfl

end

/-! ### RESUME (R80) -/

theorem freeDep_hart (s : State) (g i h : Nat) : (freeDep s g i).hart h = s.hart h := setDep_hart ..

/-- An acquire changes the copies of the caches and the signature of its hart. -/
theorem acquireBack_spec (s : State) (h : Nat) (released : Bool) :
    (∀ k, k ≠ h → (acquireBack s h released).hart k = s.hart k) ∧
      (acquireBack s h released).hart h = { s.hart h with sigCur := ((acquireBack s h released).hart h).sigCur } ∧
      (acquireBack s h released).ms.mem = s.ms.mem ∧ (acquireBack s h released).cores = s.cores := by
  have mem : ∀ sig, (acquireAs s (h / 8) sig).ms.mem = s.ms.mem := fun sig => by
    unfold acquireAs
    dsimp only
    split <;> rfl
  unfold acquireBack
  split
  · refine ⟨fun k hk => State.hart_setHart_ne _ _ hk, ?_, mem sigAll, rfl⟩
    rw [applySig, State.hart_setHart]
    rfl
  · exact ⟨fun _ _ => rfl, rfl, mem _, rfl⟩

/-- R80: the parked thread in its slot again, with its image. -/
def loadThread (s : State) (h i : Nat) : State :=
  (freeDep s (h / 8) i).setHart h
    { (loadImage (freeDep s (h / 8) i) (depImage s (h / 8) i) ((freeDep s (h / 8) i).hart h)) with slot := .thread }

/-- R80, R107: the thread once its acquire is made, before it takes a trap of a thaw. -/
def reloadThread (s : State) (h i : Nat) : State :=
  acquireBack (loadThread s h i) h (imgReleased (loadThread s h i) (depImage s (h / 8) i))

theorem resumeThread_eq (s : State) (h i : Nat) : resumeThread s h i = takeThawed (reloadThread s h i) h := rfl

theorem loadThread_hart (s : State) (h i : Nat) :
    (loadThread s h i).hart h = { (loadImage (freeDep s (h / 8) i) (depImage s (h / 8) i) (s.hart h)) with slot := .thread } :=
  State.hart_setHart ..

theorem Hart.set_slot_sigCur {a b : Hart} {l : Slot} (h : b = { ({ a with slot := l } : Hart) with sigCur := b.sigCur }) :
    b = { a with slot := l, sigCur := b.sigCur } := h

theorem Hart.kept_of_set_slot_sigCur {a b : Hart} {l : Slot} (h : b = { a with slot := l, sigCur := b.sigCur }) :
    b.slot = l ∧ b.frozen = a.frozen ∧ b.thawDue = a.thawDue := by
  rw [h]
  exact ⟨rfl, rfl, rfl⟩

theorem reloadThread_spec (s : State) (h i : Nat) :
    (∀ k, k ≠ h → (reloadThread s h i).hart k = s.hart k) ∧
      (reloadThread s h i).hart h = { (loadImage (freeDep s (h / 8) i) (depImage s (h / 8) i) (s.hart h)) with
        slot := .thread, sigCur := ((reloadThread s h i).hart h).sigCur } ∧
      (reloadThread s h i).ms.mem = s.ms.mem ∧ ((reloadThread s h i).core (h / 8)).depAt i = Dep.free := by
  obtain ⟨others, hart, mem, cores⟩ := acquireBack_spec (loadThread s h i) h (imgReleased (loadThread s h i) (depImage s (h / 8) i))
  rw [← reloadThread] at others hart mem cores
  refine ⟨fun k hk => (others k hk).trans ?_, Hart.set_slot_sigCur ?_, mem, ?_⟩
  · rw [loadThread, State.hart_setHart_ne _ _ hk, freeDep_hart]
  · rw [loadThread_hart] at hart
    exact hart
  · rw [State.core, cores]
    exact setDep_depAt ..

/-- What an image loads depends on the memory and on the partitions. -/
theorem loadImage_congr {s t : State} (ms : t.ms = s.ms) (plat : t.plat = s.plat) (pa : Nat) (a : Hart) : loadImage t pa a = loadImage s pa a := by
  have bytes : saveNat t = saveNat s := by
    funext at_ n
    unfold saveNat saveRead areaBacked readRange State.part
    rw [ms, plat]
  unfold loadImage imgWord
  rw [bytes]

theorem loadImage_frozen (s : State) (pa : Nat) (a : Hart) :
    (loadImage s pa a).frozen = a.frozen ∧ (loadImage s pa a).thawDue = a.thawDue := by
  unfold loadImage
  exact ⟨rfl, rfl⟩

/-- R80, R107, R167: what RESUME leaves. -/
theorem resumeThread_resumes (s : State) (h i : Nat) :
    ((resumeThread s h i).hart h).slot = .thread ∧ ((resumeThread s h i).core (h / 8)).depAt i = Dep.free ∧
      (∀ k, k ≠ h → (resumeThread s h i).hart k = s.hart k) ∧ (resumeThread s h i).ms.mem = s.ms.mem ∧
      ((s.hart h).thawDue = false → (resumeThread s h i).hart h =
        { (loadImage s (depImage s (h / 8) i) (s.hart h)) with slot := .thread, sigCur := ((resumeThread s h i).hart h).sigCur }) ∧
      ((s.hart h).frozen.isSome = true → ((resumeThread s h i).hart h).thawDue = false) := by
  obtain ⟨others, hart, mem, dep⟩ := reloadThread_spec s h i
  rw [loadImage_congr (s := s) (t := freeDep s (h / 8) i) rfl rfl] at hart
  obtain ⟨slot, frozen, due⟩ := Hart.kept_of_set_slot_sigCur hart
  obtain ⟨frozen', due'⟩ := loadImage_frozen s (depImage s (h / 8) i) (s.hart h)
  obtain ⟨taken, undue⟩ := takeThawed_taken (reloadThread s h i) h
  rw [resumeThread_eq]
  refine ⟨taken.slot.slot.trans slot, by rw [taken.core, dep], fun k hk => (taken.others k hk).trans (others k hk), by rw [taken.ms, mem],
    fun quiet => ?_, fun some_ => undue (by rw [frozen, frozen']; exact some_)⟩
  rw [takeThawed_undue (by rw [due, due']; exact quiet)]
  exact hart

/-! ### MIGRATE (R81, R82) -/

theorem leaveSlot_hart (s : State) (h : Nat) (tag : BitVec 16) (loc : Word) (room : Option Nat) :
    (leaveSlot s h tag loc room).hart h = freedHart (s.hart h) ∧ ∀ k, k ≠ h → (leaveSlot s h tag loc room).hart k = s.hart k := by
  cases room with
  | none =>
    exact ⟨(freeSlot_hart ..).trans (congrArg freedHart (addDep_hart ..)), fun k hk => (freeSlot_hart_ne _ hk).trans (addDep_hart ..)⟩
  | some i => exact ⟨freeSlot_hart .., fun k hk => freeSlot_hart_ne _ hk⟩

/-- R81: what MIGRATE leaves of its two slots. -/
theorem moveThread_moves {s : State} {h dst : Nat} (ne : dst ≠ h) (unheld : (s.hart h).heldFor = none) (parked : Option Nat) :
    ((moveThread s h dst parked).hart dst).slot = .thread ∧ ((moveThread s h dst parked).hart h).slot = .free := by
  unfold moveThread
  extract_lets image released ended u a v guest moved c t w x y
  have left_ : SlotsKept s u := by
    simp only [u]
    split
    · exact stopThread_slotsKept s h
    · exact (endWindows_performs s h).slotsKept.trans (.setHart (loadImage_slotKept ..))
  have kept : SlotsKept w (takeThawed y dst) :=
    ((SlotsKept.foldl (fun s k => setStmap_slotsKept s dst k _) _ w).trans (applySig_slotsKept ..)).trans
      (takeThawed_taken y dst).1.slotsKept
  have there : (w.hart dst).slot = .thread := by rw [State.hart_setHart]; rfl
  have here : (w.hart h).heldFor = none := by
    rw [State.hart_setHart_ne _ _ ne.symm, State.hart_setHart]
    exact (left_.harts h).heldFor.trans unheld
  obtain ⟨freed, others⟩ := leaveSlot_hart (takeThawed y dst) h a.tag (locOfSlot y dst 0) parked
  refine ⟨?_, ?_⟩
  · rw [others dst ne, (kept.harts dst).slot, there]
  · rw [freed]
    exact freedHart_slot ((kept.harts h).heldFor.trans here)

theorem SlotsKept.locOfSlot {s t : State} (kept : SlotsKept s t) (h r : Nat) : locOfSlot t h r = locOfSlot s h r := by
  rw [Machine.locOfSlot, Machine.locOfSlot, kept.node, (kept.harts h).tag]

theorem FlightGrows.slotsKept {s t : State} (grows : FlightGrows s t) : SlotsKept s t ∧ t.me = s.me := by
  obtain ⟨f, rfl⟩ := grows
  exact ⟨⟨fun _ => .refl _, rfl, rfl, fun _ => rfl⟩, rfl⟩

/-- R81: past MIGRATE, x[d] has the locator of the thread at its new slot. -/
theorem migrated_locator (u : State) (d : Reg) (dst core : Nat) :
    let t := kickDispatch (kickStarts (u.step4 fun m => m.wx d (locOfSlot u dst 0))) core
    SlotsKept u t ∧ t.me.rx d = (if d = 0#5 then 0#64 else locOfSlot t dst 0) := by
  intro t
  obtain ⟨kicked, me⟩ := ((kickStarts_flightGrows (u.step4 fun m => m.wx d (locOfSlot u dst 0))).trans
    (kickDispatch_flightGrows _ core)).slotsKept
  have kept : SlotsKept u t := (step4_slotsKept u fun a => slotKept_wx a d _).trans kicked
  refine ⟨kept, ?_⟩
  rw [kept.locOfSlot, me, State.step4_me, Hart.rx_retire, Hart.rx_wx_self]

theorem threadAt_slot {s : State} {h : Nat} {tag : BitVec 16} (resident : threadAt s h tag = true) : (s.hart h).slot = .thread := by
  rw [threadAt, Bool.and_eq_true, beq_iff_eq] at resident
  exact resident.1

theorem parkedAt_slot {s : State} {h : Nat} {tag : BitVec 16} (parked : (parkedAt s h tag).isSome = true) : (s.hart h).slot = .parked := by
  unfold parkedAt at parked
  split at parked
  · dsimp only at parked
    split at parked
    · rename_i saved
      obtain ⟨-, -, slot⟩ := saved
      exact slot
    · cases parked
  · cases parked

/-- R81: whether MIGRATE moves the thread of a slot to another. -/
def Movable (s : State) (h dst : Nat) (tag : BitVec 16) : Prop :=
  (s.hart dst).slot = .free ∧ roleOf s dst = 0 ∧ (threadAt s h tag = true ∨ (parkedAt s h tag).isSome = true) ∧ h ≠ s.cur ∧
    lockSecond s (dst / 8) = false

theorem Movable.ne {s : State} {h dst : Nat} {tag : BitVec 16} (m : Movable s h dst tag) : dst ≠ h := by
  obtain ⟨free, -, resident | parked, -, -⟩ := m
  · rintro rfl
    rw [threadAt_slot resident] at free
    cases free
  · rintro rfl
    rw [parkedAt_slot parked] at free
    cases free

theorem movable_iff {s : State} {h dst : Nat} {tag : BitVec 16} : Movable s h dst tag ↔
    ((s.hart dst).slot == .free && roleOf s dst == 0 && !lockSecond s (dst / 8) && (threadAt s h tag || (parkedAt s h tag).isSome) &&
      h != s.cur) = true := by
  simp only [Movable, Bool.and_eq_true, beq_iff_eq, Bool.not_eq_true', Bool.or_eq_true, bne_iff_ne]
  tauto

section
variable {s : State} {d a : Reg} {core to_ : Nat} (impure : Impure s) (mode : modeAtLeast s.me.mode .s = true) (ready : XReady s [a])
  (readyD : XReady s [d]) (free : XFree s d) (target : needTarget (s.me.rx a) s = .ok core)
  (destination : needTarget (s.me.rx d) s = .ok to_)
include impure mode ready readyD free target destination

theorem exec_migrate_open (movable : Movable s (namedSlot core (s.me.rx a)) (namedSlot to_ (s.me.rx d)) (locTag (s.me.rx a))) :
    let u := moveThread s (namedSlot core (s.me.rx a)) (namedSlot to_ (s.me.rx d))
      (parkedAt s (namedSlot core (s.me.rx a)) (locTag (s.me.rx a)))
    exec (.migrate d a) s = .next (kickDispatch (kickStarts (u.step4 fun m => m.wx d (locOfSlot u (namedSlot to_ (s.me.rx d)) 0))) core) := by
  intro u
  rw [exec_migrate, execMigrate, needMode_ok mode, bind_ok, needX_ok (ready a (by simp)), bind_ok, needX_ok (readyD d (by simp)), bind_ok,
    noPure_ok impure, bind_ok, freeX_ok free, bind_ok]
  dsimp only
  rw [target, bind_ok, destination, bind_ok, if_pos (movable_iff.mp movable)]
  rfl

theorem exec_migrate_closed (fixed : ¬ Movable s (namedSlot core (s.me.rx a)) (namedSlot to_ (s.me.rx d)) (locTag (s.me.rx a))) :
    exec (.migrate d a) s = .next (s.step4 fun m => m.wx d 0) := by
  rw [exec_migrate, execMigrate, needMode_ok mode, bind_ok, needX_ok (ready a (by simp)), bind_ok, needX_ok (readyD d (by simp)), bind_ok,
    noPure_ok impure, bind_ok, freeX_ok free, bind_ok]
  dsimp only
  rw [target, bind_ok, destination, bind_ok, if_neg fun m => fixed (movable_iff.mpr m)]
  rfl

/-- R81, R82: a thread moved, and its new locator. -/
theorem exec_migrate_moves (movable : Movable s (namedSlot core (s.me.rx a)) (namedSlot to_ (s.me.rx d)) (locTag (s.me.rx a)))
    (unheld : (s.hart (namedSlot core (s.me.rx a))).heldFor = none) :
    ∃ t, exec (.migrate d a) s = .next t ∧ (t.hart (namedSlot to_ (s.me.rx d))).slot = .thread ∧
      (t.hart (namedSlot core (s.me.rx a))).slot = .free ∧ t.me.rx d = (if d = 0#5 then 0#64 else locOfSlot t (namedSlot to_ (s.me.rx d)) 0) := by
  obtain ⟨there, gone⟩ := moveThread_moves movable.ne unheld (parkedAt s (namedSlot core (s.me.rx a)) (locTag (s.me.rx a)))
  obtain ⟨kept, locator⟩ := migrated_locator (moveThread s (namedSlot core (s.me.rx a)) (namedSlot to_ (s.me.rx d))
    (parkedAt s (namedSlot core (s.me.rx a)) (locTag (s.me.rx a)))) d (namedSlot to_ (s.me.rx d)) core
  exact ⟨_, exec_migrate_open impure mode ready readyD free target destination movable, (kept.harts _).slot.trans there,
    (kept.harts _).slot.trans gone, locator⟩

end

/-! ### The statement -/

/-- Settles O26: PARK, RESUME and MIGRATE, each of a target that it acts on and of one that it does not. -/
theorem parkResumeMigrate : Obligations.ParkResumeMigrate := by
  unfold Obligations.ParkResumeMigrate
  intro s d a core impure mode ready target h tag
  have step : SlotsKept s (s.step4 id) := step4_slotsKept s .refl
  refine ⟨?park, ?absent, ?resume, ?unparked, ?migrate⟩
  case park =>
    intro resident i backed room
    obtain ⟨slot, dep, others⟩ := parkThread_saves (s.step4 id) h ((imageFrame s h).getD 0) i
    refine ⟨_, exec_park_saves impure mode ready target resident backed room, slot, ?_, fun k hk hc => ?_⟩
    · rw [dep, step.time, (step.harts h).tag, step.tenantOf]
    · rw [← State.step4_hart_ne s id hc]
      exact others k hk
  case absent => exact fun absent => ⟨_, exec_park_absent impure mode ready target absent, passes_step4 s⟩
  case resume =>
    intro i parked
    obtain ⟨slot, dep, others, mem, image, due⟩ := resumeThread_resumes (s.step4 id) h i
    refine ⟨_, exec_resume_parked impure mode ready target parked, slot, dep, fun k hk hc => ?_, mem, fun hc undue => ?_, fun hc frozen => ?_⟩
    · exact (others k hk).trans (State.step4_hart_ne s id hc)
    · rw [State.step4_hart_ne s id hc, loadImage_congr (s := s) (t := s.step4 id) rfl rfl] at image
      exact image undue
    · rw [State.step4_hart_ne s id hc] at due
      exact due frozen
  case unparked => exact fun absent => ⟨_, exec_resume_absent impure mode ready target absent, passes_step4 s⟩
  case migrate =>
    intro readyD free to_ destination dst ok
    exact ⟨exec_migrate_moves impure mode ready readyD free target destination, fun fixed =>
      ⟨_, exec_migrate_closed impure mode ready readyD free target destination fixed, writesX_step4 s d 0⟩⟩

end Sys2Proof.Machine
end

section
/-! SUPPORT. A submission whose header lies in a line with a corrected error, and the refutation of O49. -/

namespace Sys2Proof.Machine

/-- Partition 0, which VF 1 serves, has one unit of its error budget left. Frame 0 is its frame, of class P, and the first GiB is mapped
onto itself for U-mode at core 0. The line at 0x5000 has a correctable error, and a submission names its header there (R87, R288, R294). -/
@[irreducible] def submittedAtError : State :=
  { State.reset with
    plat := { State.reset.plat with
      parts := [(0, { Part.reset with len := 1024, spent := 1023 })]
      vft := [(1, 0x8000000000000000)] }
    ms := { State.reset.ms with
      classMap := [(0, 6)]
      tlb := [⟨0, 0, 0, true, false, 0, 0x40000000, 0, 0x1F, none⟩]
      errors := [⟨0x140, true⟩] }
    flight := [.submission 1 0x5000 0 9 0x8000] }

theorem exec_submission_next {s : State} {f : Nat} {hdr base arg compl : Word} {r : List Event}
    (h : s.flight = .submission f hdr base arg compl :: r) :
    exec .submission s = .next (submit { s with flight := r } f hdr base arg compl) := by
  rw [exec_submission, execSubmission, h]

theorem submittedAtError_due : submittedAtError.flight = [.submission 1 0x5000 0 9 0x8000] := by decide +kernel

/-- The function is bound, runs and finds room in the pool. -/
theorem submittedAtError_taken : vfFrozen submittedAtError 1 = false ∧ bootStopped submittedAtError = false ∧
    vfBound submittedAtError 1 = true ∧ (submittedAtError.poolOf 0).length < 256 := by decide +kernel

/-- The read of the header corrects the error, whose cost exhausts the budget: EBUDGET becomes pending on H0 of the core at PARTBASE. -/
theorem submit_raisesEbudget : (submittedAtError.hart 0).pend = [] ∧
    ((submit { submittedAtError with flight := [] } 1 0x5000 0 9 0x8000).hart 0).pend = [(cEbudget, 0)] := by decide +kernel

/-- Refutes O49: a submission reads its header, and where that read meets a correctable error that reaches the limit of the partition's
error budget, a hart changes, which the clause on submissions excludes (R87, R288, R294). -/
theorem not_threadEvents : ¬ Obligations.ThreadEvents := by
  unfold Obligations.ThreadEvents
  intro h
  obtain ⟨-, submission, -⟩ := h submittedAtError []
  obtain ⟨running, booted, bound, room⟩ := submittedAtError_taken
  obtain ⟨t, -, ht, -, -, -, -, -, harts, -⟩ :=
    (submission 1 0x5000 0 9 0x8000 submittedAtError_due).2 ⟨running, booted, bound⟩ room
  obtain rfl : t = submit { submittedAtError with flight := [] } 1 0x5000 0 9 0x8000 :=
    Host.Outcome.next.inj (ht.symm.trans (exec_submission_next submittedAtError_due))
  obtain ⟨before, after⟩ := submit_raisesEbudget
  have kept : (submit { submittedAtError with flight := [] } 1 0x5000 0 9 0x8000).hart 0 = submittedAtError.hart 0 := by
    rw [State.hart, harts, State.hart]
  rw [kept, before] at after
  exact absurd after (by decide)

end Sys2Proof.Machine
end

section
/-! SUPPORT. The byte memories stay in canonical form (O2). A state is `Canonical` when its byte memories are; an operation that answers a
state or a stop `Yields` a canonical one, an access of an engine `Gives` one, an option `Has` one, an outcome `Reaches` one. There is one
lemma for each function of the step, in the order of the model and under the name of its function: a function writes a memory through
`Memory.writeBytes`, `writeNat`, `writeBlock`, `copyRange` and `zeroRange` alone, which Laws/Memory shows to keep the form, or it leaves the
memories (`frame`). -/

namespace Sys2Proof.Machine

/-- Every byte memory of a memory system is in its canonical form. -/
def MemSys.Canonical (m : MemSys) : Prop := Memory.wf m.mem = true ∧ Memory.wf m.stash = true ∧ Memory.wf m.wbuf = true

/-- Every byte memory of a state is in its canonical form. -/
def State.Canonical (s : State) : Prop := s.ms.Canonical

/-- A stop that carries a state carries a canonical one. -/
def Stop.Canonical : Stop → Prop
  | .again s => s.Canonical
  | _ => True

/-- What an operation answers satisfies `P`; a state that its stop carries is canonical. -/
def Yields {α : Type} (P : α → Prop) : Except Stop α → Prop
  | .ok a => P a
  | .error e => e.Canonical

/-- What an access of an engine answers satisfies `P`. -/
def Gives {ε α : Type} (P : α → Prop) : Except ε α → Prop
  | .ok a => P a
  | .error _ => True

/-! ### Memories written and left -/

theorem MemSys.Canonical.frame {m : MemSys} {acc copies owners dies homeSigs sigDrops dirty pins replicas poison stashPoison errors classMap
    hdm tlb stores shadows shadowPoison shadowPool} (h : m.Canonical) : (MemSys.mk m.mem m.stash m.wbuf acc copies owners dies homeSigs
      sigDrops dirty pins replicas poison stashPoison errors classMap hdm tlb stores shadows shadowPoison shadowPool).Canonical := h

theorem State.Canonical.frame {s : State} {harts cores clusters flt lch fab reuse plat time cycle routeTabs cur flight lag turns freeCtr
    nextId} (h : s.Canonical) : (State.mk harts cores clusters s.ms flt lch fab reuse plat time cycle routeTabs cur flight lag turns
      freeCtr nextId).Canonical := h

theorem Stop.Canonical.transStop {va : Word} {acc : Nat} {e : TransErr} : (transStop va acc e).Canonical := by
  cases e <;> trivial

theorem MemSys.Canonical.write {mem stash wbuf : Memory}
    {acc copies owners dies homeSigs sigDrops dirty pins replicas poison stashPoison errors classMap
    hdm tlb stores shadows shadowPoison shadowPool} (h1 : Memory.wf mem = true) (h2 : Memory.wf stash = true)
    (h3 : Memory.wf wbuf = true) : (MemSys.mk mem stash wbuf acc copies owners dies homeSigs
      sigDrops dirty pins replicas poison stashPoison errors classMap hdm tlb stores shadows shadowPoison shadowPool).Canonical
    := ⟨h1, h2, h3⟩

theorem MemSys.Canonical.mem {m : MemSys} (h : m.Canonical) : Memory.wf m.mem = true := h.1

theorem MemSys.Canonical.stash {m : MemSys} (h : m.Canonical) : Memory.wf m.stash = true := h.2.1

theorem MemSys.Canonical.wbuf {m : MemSys} (h : m.Canonical) : Memory.wf m.wbuf = true := h.2.2

theorem State.Canonical.of_ms {harts cores clusters flt lch fab reuse plat time cycle routeTabs cur flight lag turns freeCtr nextId}
    {m : MemSys} (h : m.Canonical) : (State.mk harts cores clusters m flt lch fab reuse plat time cycle routeTabs cur flight lag turns
      freeCtr nextId).Canonical := h

/-! ### Sequence, branch, loop -/

theorem Yields.bind {α β : Type} {P : α → Prop} {Q : β → Prop} {r : Except Stop α} {f : α → Except Stop β} (h : Yields P r)
    (hf : ∀ a, P a → Yields Q (f a)) : Yields Q (r >>= f) := by
  cases r with
  | ok a => exact hf a h
  | error e => exact h

theorem Gives.bind {ε α β : Type} {P : α → Prop} {Q : β → Prop} {r : Except ε α} {f : α → Except ε β} (h : Gives P r)
    (hf : ∀ a, P a → Gives Q (f a)) : Gives Q (r >>= f) := by
  cases r with
  | ok a => exact hf a h
  | error e => trivial

theorem State.Canonical.of_snd {α : Type} {p : α × State} {a : α} {t : State} (e : p = (a, t)) (h : p.2.Canonical) : t.Canonical := by
  subst e; exact h

theorem State.Canonical.of_fst {α : Type} {p : State × α} {a : α} {t : State} (e : p = (t, a)) (h : p.1.Canonical) : t.Canonical := by
  subst e; exact h

/-- What an option holds satisfies `P`. -/
def Has {α : Type} (P : α → Prop) : Option α → Prop
  | some a => P a
  | none => True

theorem Has.of_eq {α : Type} {P : α → Prop} {o : Option α} {a : α} (e : o = some a) (h : Has P o) : P a := by
  subst e; exact h

theorem State.Canonical.getD {o : Option State} {s : State} (ho : Has State.Canonical o) (h : s.Canonical) : (o.getD s).Canonical := by
  cases o with
  | none => exact h
  | some t => exact ho

theorem State.Canonical.ite {c : Prop} [Decidable c] {s t : State} (hs : s.Canonical) (ht : t.Canonical) :
    (if c then s else t).Canonical := by
  split
  · exact hs
  · exact ht

theorem MemSys.Canonical.ite {c : Prop} [Decidable c] {s t : MemSys} (hs : s.Canonical) (ht : t.Canonical) :
    (if c then s else t).Canonical := by
  split
  · exact hs
  · exact ht

theorem Gives.any {ε α : Type} {r : Except ε α} : Gives (fun _ => True) r := by
  cases r <;> trivial

theorem Yields.ite {α : Type} {P : α → Prop} {c : Prop} [Decidable c] {s t : Except Stop α} (hs : Yields P s) (ht : Yields P t) :
    Yields P (if c then s else t) := by
  split
  · exact hs
  · exact ht

theorem Gives.ite {ε α : Type} {P : α → Prop} {c : Prop} [Decidable c] {s t : Except ε α} (hs : Gives P s) (ht : Gives P t) :
    Gives P (if c then s else t) := by
  split
  · exact hs
  · exact ht

theorem Yields.of_eq {α : Type} {P : α → Prop} {r : Except Stop α} {a : α} (e : r = .ok a) (h : Yields P r) : P a := by
  subst e; exact h

theorem Yields.stop_of_eq {α : Type} {P : α → Prop} {r : Except Stop α} {k : Stop} (e : r = .error k) (h : Yields P r) : k.Canonical := by
  subst e; exact h

theorem Gives.of_eq {ε α : Type} {P : α → Prop} {r : Except ε α} {a : α} (e : r = .ok a) (h : Gives P r) : P a := by
  subst e; exact h

theorem Yields.of_ok {α : Type} {P : α → Prop} {a : α} (h : P a) : Yields P (.ok a) := h

theorem Gives.of_ok {ε α : Type} {P : α → Prop} {a : α} (h : P a) : Gives P (.ok a : Except ε α) := h

theorem Yields.pass {α : Type} {a : α} : Yields (fun _ => True) (.ok a) := trivial

theorem Yields.check {c : Bool} {e : Stop} (h : e.Canonical) : Yields (fun _ => True) (check c e) := by
  unfold Machine.check
  split
  · trivial
  · exact h

theorem State.Canonical.foldl {α : Type} {l : List α} {f : State → α → State} {s : State} (h : s.Canonical)
    (hf : ∀ s a, s.Canonical → (f s a).Canonical) : (l.foldl f s).Canonical := by
  induction l generalizing s with
  | nil => exact h
  | cons a l ih => exact ih (hf s a h)

theorem MemSys.Canonical.foldl {α : Type} {l : List α} {f : MemSys → α → MemSys} {m : MemSys} (h : m.Canonical)
    (hf : ∀ m a, m.Canonical → (f m a).Canonical) : (l.foldl f m).Canonical := by
  induction l generalizing m with
  | nil => exact h
  | cons a l ih => exact ih (hf m a h)

theorem State.Canonical.foldl_fst {α β : Type} {l : List α} {f : State × β → α → State × β} {p : State × β} (h : p.1.Canonical)
    (hf : ∀ p a, p.1.Canonical → (f p a).1.Canonical) : (l.foldl f p).1.Canonical := by
  induction l generalizing p with
  | nil => exact h
  | cons a l ih => exact ih (hf p a h)

theorem MemSys.Canonical.foldl_fst {α β : Type} {l : List α} {f : MemSys × β → α → MemSys × β} {p : MemSys × β} (h : p.1.Canonical)
    (hf : ∀ p a, p.1.Canonical → (f p a).1.Canonical) : (l.foldl f p).1.Canonical := by
  induction l generalizing p with
  | nil => exact h
  | cons a l ih => exact ih (hf p a h)

theorem Gives.foldlM {ε α β : Type} {P : β → Prop} {l : List α} {f : β → α → Except ε β} {b : β} (h : P b)
    (hf : ∀ b a, P b → Gives P (f b a)) : Gives P (l.foldlM f b) := by
  induction l generalizing b with
  | nil => exact h
  | cons a l ih => exact Gives.bind (hf b a h) fun _ h => ih h

theorem Yields.foldlM {α β : Type} {P : β → Prop} {l : List α} {f : β → α → Except Stop β} {b : β} (h : P b)
    (hf : ∀ b a, P b → Yields P (f b a)) : Yields P (l.foldlM f b) := by
  induction l generalizing b with
  | nil => exact h
  | cons a l ih => exact Yields.bind (hf b a h) fun _ h => ih h

/-- The outcome is no state, or a canonical one. -/
def Reaches (o : Host.Outcome State Fault Refusal) : Prop := ∀ t, o = .next t → t.Canonical

theorem Reaches.next {t : State} (h : t.Canonical) : Reaches (.next t) := fun _ e => Host.Outcome.next.inj e ▸ h

theorem Reaches.fault {k : Fault} : Reaches (.fault k) := nofun

theorem Reaches.refused {k : Refusal} : Reaches (.refused k) := nofun

/-! ### Along the functions of Sys2Proof/Machine/State.lean -/

theorem State.Canonical.setHart {s : State} {k a} (h : s.Canonical) : (State.setHart s k a).Canonical := h

theorem State.Canonical.setMe {s : State} {a} (h : s.Canonical) : (State.setMe s a).Canonical := .setHart h

theorem State.Canonical.setCore {s : State} {c a} (h : s.Canonical) : (State.setCore s c a).Canonical := h

theorem State.Canonical.setCluster {s : State} {c a} (h : s.Canonical) : (State.setCluster s c a).Canonical := h

theorem State.Canonical.setPart {s : State} {p a} (h : s.Canonical) : (State.setPart s p a).Canonical := h

theorem State.Canonical.setConn {s : State} {c a} (h : s.Canonical) : (State.setConn s c a).Canonical := h

theorem State.Canonical.fly {s : State} {e} (h : s.Canonical) : (State.fly s e).Canonical := h

/-! ### Along the functions of Sys2Proof/Machine/Ops.lean -/

theorem Yields.needX {r} {s : State} : Yields (fun _ => True) (needX r s) := .ite trivial trivial

theorem Yields.needV {r} {s : State} : Yields (fun _ => True) (needV r s) := .ite trivial trivial

theorem Yields.freeX {r} {s : State} : Yields (fun _ => True) (freeX r s) := .ite trivial trivial

theorem Yields.freeV {r} {s : State} : Yields (fun _ => True) (freeV r s) := .ite trivial trivial

theorem State.Canonical.step4 {s : State} {f} (h : s.Canonical) : (State.step4 s f).Canonical := .setMe h

theorem State.Canonical.step2 {s : State} {f} (h : s.Canonical) : (State.step2 s f).Canonical := .setMe h

theorem Yields.needMode {need bits} {s : State} : Yields (fun _ => True) (needMode need bits s) := .check trivial

theorem Yields.needWf {i} {s : State} : Yields (fun _ => True) (needWf i s) := .check trivial

theorem Yields.noPure {va} {s : State} : Yields (fun _ => True) (noPure va s) := .check trivial

theorem Yields.noV {tval} {s : State} : Yields (fun _ => True) (noV tval s) := .check trivial

theorem State.Canonical.settleRole {s : State} {k} (h : s.Canonical) : (settleRole s k).Canonical := .setCore h

theorem State.Canonical.addRecord {s : State} {r} (h : s.Canonical) : (addRecord s r).Canonical := h

theorem State.Canonical.addFreezeRecord {s : State} {r} (h : s.Canonical) : (addFreezeRecord s r).Canonical :=
  .ite (.addRecord h) (.addRecord (.addRecord h))

theorem State.Canonical.freezeHart {s : State} {k cause tval addr acc async stage2} (h : s.Canonical) :
    (freezeHart s k cause tval addr acc async stage2).Canonical :=
  .addFreezeRecord (.setHart h)

theorem Has.enterTrap {s : State} {k c tval addr acc async stage2} (h : s.Canonical) :
    Has State.Canonical (enterTrap s k c tval addr acc async stage2) := by
  unfold Machine.enterTrap
  dsimp only
  split
  · exact .setHart h
  · exact trivial
  · exact .freezeHart h

theorem State.Canonical.takeTrapAt {s : State} {k c tval addr acc stage2} (h : s.Canonical) :
    (takeTrapAt s k c tval addr acc stage2).Canonical :=
  .ite (.freezeHart h) (.getD (.enterTrap h) h)

theorem State.Canonical.takeTrap {s : State} {k c tval stage2} (h : s.Canonical) : (takeTrap s k c tval stage2).Canonical :=
  .takeTrapAt h

theorem State.Canonical.freshNat {s : State} (h : s.Canonical) : (State.freshNat s).2.Canonical := h

/-! ### Along the functions of Sys2Proof/Machine/Translate.lean -/

theorem Gives.translate {ms : MemSys} {core c va acc} (h : ms.Canonical) :
    Gives (fun r => r.2.Canonical) (translate ms core c va acc) := by
  unfold Machine.translate
  split
  · exact .bind .any fun _ _ => .bind .any fun _ _ => .of_ok (.ite h h)
  · exact .bind .any fun _ _ => .bind .any fun _ _ => .bind .any fun _ _ => h

theorem MemSys.Canonical.tlbDropAll {ms : MemSys} {vmid} (h : ms.Canonical) : (tlbDropAll ms vmid).Canonical := h

theorem MemSys.Canonical.tlbDropAsid {ms : MemSys} {vmid asid} (h : ms.Canonical) :
    (tlbDropAsid ms vmid asid).Canonical := h

theorem MemSys.Canonical.tlbDropVa {ms : MemSys} {vmid asid va} (h : ms.Canonical) : (tlbDropVa ms vmid asid va).Canonical :=
  .ite h h

theorem MemSys.Canonical.tlbDropStage2 {ms : MemSys} {vmid gpa} (h : ms.Canonical) :
    (tlbDropStage2 ms vmid gpa).Canonical := h

/-! ### Along the functions of Sys2Proof/Machine/Access.lean -/

theorem MemSys.Canonical.markPoison {ms : MemSys} {key} (h : ms.Canonical) : (markPoison ms key).Canonical := h

theorem MemSys.Canonical.clearPoison {ms : MemSys} {key} (h : ms.Canonical) : (clearPoison ms key).Canonical := h

theorem MemSys.Canonical.markDirty {ms : MemSys} {line} (h : ms.Canonical) : (markDirty ms line).Canonical := by
  unfold Machine.markDirty
  split <;> exact h

theorem MemSys.Canonical.fillDie {ms : MemSys} {d line} (h : ms.Canonical) : (fillDie ms d line).Canonical := by
  unfold Machine.fillDie
  split
  · dsimp only
    split
    · exact h
    · exact .ite h h
  · dsimp only
    split
    · exact h
    · exact .ite h (.frame (.markPoison h))

theorem MemSys.Canonical.collapse {ms : MemSys} {line} (h : ms.Canonical) : (collapse ms line).Canonical := h

theorem MemSys.Canonical.replicate {ms : MemSys} {d line} (h : ms.Canonical) : (replicate ms d line).Canonical := .ite h h

theorem MemSys.Canonical.trueWrite {ms : MemSys} {pa bs} (h : ms.Canonical) : (trueWrite ms pa bs).Canonical := by
  have written {m : MemSys} (k : m.Canonical) : { m with mem := Memory.writeBytes m.mem pa bs }.Canonical :=
    .write (Memory.wf_writeBytes _ _ _ k.mem) k.stash k.wbuf
  unfold Machine.trueWrite
  exact .ite (.collapse h) (written (.ite (.frame (.clearPoison (.ite (.frame (.collapse h)) (.markDirty (.collapse h)))))
    (.ite (.frame (.collapse h)) (.markDirty (.collapse h)))))

theorem MemSys.Canonical.copyWrite {ms : MemSys} {d pa bs} (h : ms.Canonical) : (copyWrite ms d pa bs).Canonical :=
  .ite h (.frame (.ite (.clearPoison h) h))

theorem MemSys.Canonical.homeWrite {ms : MemSys} {sm pa bs} (h : ms.Canonical) :
    (homeWrite ms sm pa bs).Canonical := by
  unfold Machine.homeWrite
  split
  · exact .trueWrite h
  · dsimp only
    split
    · exact .copyWrite (.fillDie h)
    · exact .trueWrite (.fillDie h)

theorem State.Canonical.writeAt {s : State} {sm pa bs} (h : s.Canonical) : (writeAt s sm pa bs).Canonical := .of_ms (.homeWrite h)

theorem MemSys.Canonical.dropMask {ms : MemSys} {core key lost} (h : ms.Canonical) :
    (dropMask ms core key lost).Canonical := h

theorem MemSys.Canonical.disown {ms : MemSys} {g sm pa} (h : ms.Canonical) : (disown ms g sm pa).Canonical := by
  unfold Machine.disown
  dsimp only
  split <;> exact h

theorem MemSys.Canonical.own {ms : MemSys} {g sm holder pa} (h : ms.Canonical) : (own ms g sm holder pa).Canonical :=
  .frame (.dropMask (.ite h (.disown h)))

theorem State.Canonical.storeHome {s : State} {sm pa bs} (h : s.Canonical) : (storeHome s sm pa bs).Canonical :=
  .writeAt (.of_ms (.foldl h fun _ _ h1 => .disown h1))

theorem MemSys.Canonical.fillLine {ms : MemSys} {g holder sm line} (h : ms.Canonical) :
    (fillLine ms g holder sm line).Canonical := h

theorem MemSys.Canonical.fillWindow {ms : MemSys} {g holder sm pa} (h : ms.Canonical) : (fillWindow ms g holder sm pa).Canonical :=
  .ite (.fillLine h) h

theorem MemSys.Canonical.keepWritten {ms : MemSys} {holder sm pa n} (h : ms.Canonical) :
    (keepWritten ms holder sm pa n).Canonical := by
  unfold Machine.keepWritten
  split
  · dsimp only
    split <;> exact h
  · dsimp only
    split <;> exact h

theorem State.Canonical.storeOwned {s : State} {sm holder pa bs} (h : s.Canonical) : (storeOwned s sm holder pa bs).Canonical :=
  .writeAt (.of_ms (.foldl (.fillWindow h) fun _ _ h1 => .own h1))

theorem MemSys.Canonical.dropOthers {ms : MemSys} {holder key} (h : ms.Canonical) : (dropOthers ms holder key).Canonical :=
  .ite h h

theorem MemSys.Canonical.acquireAt {ms : MemSys} {core g sig} (h : ms.Canonical) :
    (acquireAt ms core g sig).Canonical := h

theorem MemSys.Canonical.dropUnowned {ms : MemSys} {core} (h : ms.Canonical) : (dropUnowned ms core).Canonical := h

theorem MemSys.Canonical.dropFetched {ms : MemSys} {core} (h : ms.Canonical) : (dropFetched ms core).Canonical := h

theorem MemSys.Canonical.publish {ms : MemSys} {key sig} (h : ms.Canonical) : (publish ms key sig).Canonical := h

theorem State.Canonical.chargeError {s : State} {p corrected} (h : s.Canonical) : (chargeError s p corrected).Canonical :=
  .ite (.setHart (.setPart h)) (.setPart h)

theorem State.Canonical.chargeCore {s : State} {core corrected} (h : s.Canonical) :
    (chargeCore s core corrected).Canonical := by
  unfold Machine.chargeCore
  split
  · exact .chargeError h
  · exact h

theorem MemSys.Canonical.putPoison {ms : MemSys} {line} (h : ms.Canonical) : (putPoison ms line).Canonical :=
  .write (Memory.wf_writeBlock _ _ _ h.mem) h.stash h.wbuf

theorem State.Canonical.settleLine {s : State} {pa} (h : s.Canonical) : (settleLine s pa).Canonical := by
  unfold Machine.settleLine
  split
  · exact h
  · split
    · split
      · dsimp only
        split
        · exact .chargeError h
        · exact h
      · dsimp only
        split
        · exact .chargeError h
        · exact h
    · dsimp only
      split
      · exact .chargeError (.of_ms (.putPoison h))
      · exact .of_ms (.putPoison h)
    · exact h

theorem Yields.reachGlobal {s : State} {part core holder c va rep acc} (h : s.Canonical) :
    Yields (fun r => r.2.Canonical) (reachGlobal s part core holder c va rep acc) := by
  unfold Machine.reachGlobal
  split
  · exact .transStop
  next e1 =>
    have h1 := Gives.of_eq e1 (.translate h)
    exact .ite h1 trivial

theorem Yields.reachStash {s : State} {part core off rep acc} (h : s.Canonical) :
    Yields (fun r => r.2.Canonical) (reachStash s part core off rep acc) := by
  unfold Machine.reachStash
  split
  · exact h
  · exact .reachGlobal h

theorem Yields.reachFor {s : State} {part core c va acc} (h : s.Canonical) :
    Yields (fun r => r.2.Canonical) (reachFor s part core c va acc) := by
  unfold Machine.reachFor
  split
  · exact trivial
  · split
    · exact .reachStash h
    · exact .ite (.reachStash h) h
    · exact trivial
    · exact trivial
    · exact trivial
    · exact .reachGlobal h

theorem Yields.reach {s : State} {core c va acc} (h : s.Canonical) : Yields (fun r => r.2.Canonical) (reach s core c va acc) :=
  .reachFor h

theorem MemSys.Canonical.cacheInDie {ms : MemSys} {p} (h : ms.Canonical) : (cacheInDie ms p).Canonical := by
  unfold Machine.cacheInDie
  split
  · exact .fillDie h
  · exact .ite (.replicate h) h
  · exact h

theorem State.Canonical.touch {s : State} {p} (h : s.Canonical) : (touch s p).Canonical := by
  unfold Machine.touch
  split
  · exact h
  · exact .ite h (.of_ms (.fillLine (.dropOthers (.cacheInDie h))))

theorem State.Canonical.touchHome {s : State} {p} (h : s.Canonical) : (touchHome s p).Canonical := by
  unfold Machine.touchHome
  split
  · exact h
  · exact .of_ms (.ite (.cacheInDie h) (.fillWindow (.cacheInDie h)))

theorem State.Canonical.settlePlace {s : State} {p} (h : s.Canonical) : (settlePlace s p).Canonical := by
  unfold Machine.settlePlace
  split
  · exact h
  · exact .settleLine h

theorem MemSys.Canonical.stashWrite {ms : MemSys} {i bs} (h : ms.Canonical) : (stashWrite ms i bs).Canonical :=
  .ite h (.write h.mem (Memory.wf_writeBytes _ _ _ h.stash) h.wbuf)

theorem State.Canonical.writePlaceHome {s : State} {p bs} (h : s.Canonical) : (writePlaceHome s p bs).Canonical := by
  unfold Machine.writePlaceHome
  split
  · exact .of_ms (.stashWrite h)
  · exact .ite (.storeHome h) (.of_ms (.keepWritten (State.Canonical.storeHome (.of_ms (.fillWindow h)))))

/-! ### Along the functions of Sys2Proof/Machine/Reads.lean -/

theorem Yields.needOwnBefore {s : State} {k p clean} : Yields (fun _ => True) (needOwnBefore s k p clean) := .check trivial

theorem MemSys.Canonical.dropWords {ms : MemSys} {core p n} (h : ms.Canonical) :
    (dropWords ms core p n).Canonical := by
  unfold Machine.dropWords
  split
  · exact h
  · exact .dropMask h

theorem State.Canonical.meetHome {s : State} {core p n} (h : s.Canonical) : (meetHome s core p n).Canonical := .of_ms (.dropWords h)

theorem State.Canonical.settleRead {s : State} {p st} (h : s.Canonical) : (settleRead s p st).Canonical := by
  unfold Machine.settleRead
  split
  · exact .settlePlace h
  · exact h

theorem Yields.readPlace {s : State} {k va p n scalar} (h : s.Canonical) :
    Yields (fun r => r.st.Canonical) (readPlace s k va p n scalar) := by
  unfold Machine.readPlace
  refine .bind .needOwnBefore fun _ _ => ?_
  split
  · exact trivial
  · exact .ite trivial (.of_ok (.settlePlace h))
  · exact .of_ok (.ite (.meetHome (.settleRead h)) (.touch (.settleRead h)))

theorem Yields.readHome {s : State} {k va p n} (h : s.Canonical) :
    Yields (fun r => r.st.Canonical) (readHome s k va p n) := by
  unfold Machine.readHome
  refine .bind .needOwnBefore fun _ _ => ?_
  split
  · exact trivial
  · exact trivial
  · exact .of_ok (.meetHome (.touchHome (.settleRead h)))

theorem State.Canonical.startLoad {s : State} {t f l2} (h : s.Canonical) : (startLoad s t f l2).Canonical := .fly (.frame (.setMe h))

/-! ### Along the functions of Sys2Proof/Machine/Operands.lean -/

theorem Yields.needXs {x0} {x1 : State} (h : x1.Canonical) : Yields (fun _ => True) (needXs x0 x1) := by
  fun_induction Machine.needXs x0 x1
  · exact trivial
  next ih => exact .bind .needX fun _ _ => ih h

theorem Yields.needBinding {q producer} {s : State} : Yields (fun _ => True) (needBinding q producer s) := by
  unfold Machine.needBinding
  split
  · exact trivial
  · exact .ite trivial trivial

theorem Yields.readQOperand {r} {s : State} (h : s.Canonical) :
    Yields (fun r => r.2.2.Canonical) (readQOperand r s) := by
  unfold Machine.readQOperand
  refine .bind .needBinding fun _ _ => ?_
  refine .bind (.check trivial) fun _ _ => ?_
  refine .bind (.check trivial) fun _ _ => ?_
  split
  · exact h
  · exact .bind (.reachStash h) fun ⟨_, _⟩ h1 => .bind (.readPlace h1) fun _ h2 => h2

theorem Yields.readV2 {r q} {s : State} (h : s.Canonical) : Yields (fun r => r.2.2.Canonical) (readV2 r q s) :=
  .ite (.readQOperand h) (.bind .needV fun _ _ => h)

/-! ### Along the functions of Sys2Proof/Machine/Threads.lean -/

theorem State.Canonical.writeRange {s : State} {sm pa bs} (h : s.Canonical) : (writeRange s sm pa bs).Canonical :=
  .foldl h fun _ _ h1 => .storeHome h1

theorem State.Canonical.saveWrite {s : State} {at_ bs} (h : s.Canonical) : (saveWrite s at_ bs).Canonical :=
  .foldl h fun _ _ h1 => .ite (.storeHome h1) h1

theorem State.Canonical.setSaveNat {s : State} {pa n v} (h : s.Canonical) : (setSaveNat s pa n v).Canonical := .saveWrite h

theorem State.Canonical.saveWords {s : State} {pa ws} (h : s.Canonical) : (saveWords s pa ws).Canonical := .saveWrite h

theorem State.Canonical.setDep {s : State} {core i e} (h : s.Canonical) : (setDep s core i e).Canonical := .setCore h

theorem State.Canonical.addDep {s : State} {core e} (h : s.Canonical) : (addDep s core e).Canonical := by
  unfold Machine.addDep
  split
  · exact .setDep h
  · exact h

theorem State.Canonical.freeDep {s : State} {core i} (h : s.Canonical) : (freeDep s core i).Canonical := .setDep h

theorem State.Canonical.onSaved {s : State} {k tag pa f} (h : s.Canonical) : (onSaved s k tag pa f).Canonical :=
  .ite (.setHart h) h

theorem State.Canonical.onThread {s : State} {k tag f} (h : s.Canonical) : (onThread s k tag f).Canonical := by
  unfold Machine.onThread
  split
  · exact .setHart h
  · exact .onSaved h
  · exact h

theorem State.Canonical.countAt {s : State} {k tag code n} (h : s.Canonical) :
    (countAt s k tag code n).Canonical := by
  unfold Machine.countAt
  split
  · exact h
  · split
    · exact .setHart h
    · exact .foldl h fun _ _ h1 => .ite (.setSaveNat h1) h1
    · exact h

theorem State.Canonical.lowerUnack {s : State} {k tag} (h : s.Canonical) : (lowerUnack s k tag).Canonical := by
  unfold Machine.lowerUnack
  split
  · exact .setHart h
  · exact .setSaveNat h
  · exact h

theorem Yields.needCount {s : State} : Yields (fun _ => True) (needCount s) := .check trivial

theorem State.Canonical.freeSlot {s : State} {k} (h : s.Canonical) : (freeSlot s k).Canonical := .settleRole (.setHart h)

theorem MemSys.Canonical.dropWindow {ms : MemSys} {holder} (h : ms.Canonical) : (dropWindow ms holder).Canonical := h

theorem MemSys.Canonical.keepLine {ms : MemSys} {holder sm pa idx} (h : ms.Canonical) : (keepLine ms holder sm pa idx).Canonical :=
  .ite (.stashWrite h) h

theorem State.Canonical.keepUnit {s : State} {k} {k'} {off} (h : s.Canonical) : (keepUnit s k k' off).Canonical := by
  unfold Machine.keepUnit
  dsimp only
  split
  · exact h
  · exact .of_ms (.foldl h fun _ _ h1 => .keepLine h1)

theorem State.Canonical.closeWindow {s : State} {k} {k'} (h : s.Canonical) : (closeWindow s k k').Canonical :=
  .ite (.of_ms (.dropWindow (State.Canonical.foldl h fun _ _ h1 => .keepUnit h1))) h

/-! ### Along the functions of Sys2Proof/Machine/Stores.lean -/

theorem MemSys.Canonical.shadowBytes {ms : MemSys} {l b pa bs} (h : ms.Canonical) : (shadowBytes ms l b pa bs).Canonical :=
  .ite h h

theorem MemSys.Canonical.shadowMark {ms : MemSys} {l b line} (h : ms.Canonical) :
    (shadowMark ms l b line).Canonical := h

theorem State.Canonical.signStore {s : State} {k va bs} (h : s.Canonical) : (signStore s k va bs).Canonical := by
  unfold Machine.signStore
  repeat' split
  all_goals exact h

theorem State.Canonical.shadowWrite {s : State} {l b va pa bs} (h : s.Canonical) : (shadowWrite s l b va pa bs).Canonical :=
  .signStore (.of_ms (.shadowBytes h))

theorem Yields.shadowPage {s : State} {part ea k sm pa} (h : s.Canonical) :
    Yields State.Canonical (shadowPage s part ea k sm pa) := by
  unfold Machine.shadowPage
  split
  · exact trivial
  · split
    · exact h
    · split
      · exact trivial
      · exact .ite trivial h

theorem State.Canonical.engPoison {s : State} {p} (h : s.Canonical) : (engPoison s p).1.Canonical := by
  unfold Machine.engPoison
  split
  · exact .of_ms (.write h.mem (Memory.wf_writeBlock _ _ _ h.stash) h.wbuf)
  · dsimp only
    split
    · exact .storeHome h
    · exact .of_ms (.markPoison (State.Canonical.storeHome h))

theorem State.Canonical.noteWritten {s : State} {k tag pa} (h : s.Canonical) : (noteWritten s k tag pa).Canonical :=
  .onThread h

theorem State.Canonical.noteSync {s : State} {k p} (h : s.Canonical) : (noteSync s k p).Canonical := by
  unfold Machine.noteSync
  split
  · exact .noteWritten h
  · exact h

theorem State.Canonical.dropOlder {s : State} {core sm pa n} (h : s.Canonical) : (dropOlder s core sm pa n).Canonical :=
  .of_ms (.dropWords h)

theorem State.Canonical.registerCount {s : State} {owned k tag} (h : s.Canonical) : (registerCount s owned k tag).Canonical :=
  .countAt h

theorem State.Canonical.performAt {s : State} {st} (h : s.Canonical) : (performAt s st).Canonical := by
  unfold Machine.performAt
  split
  · exact .lowerUnack (.signStore (.of_ms (.stashWrite h)))
  · exact .countAt (.shadowWrite h)
  · split
    · exact .registerCount (.noteWritten (.storeOwned h))
    · exact .countAt (.dropOlder (.storeHome h))
    · exact h
    · exact .writeAt h

theorem State.Canonical.performOne {s : State} {st} (h : s.Canonical) : (performOne s st).Canonical := .performAt h

theorem State.Canonical.performStore {s : State} {id} (h : s.Canonical) : (performStore s id).Canonical := by
  unfold Machine.performStore
  split
  · exact h
  · exact .performOne (.foldl h fun _ _ h1 => .performOne h1)

theorem State.Canonical.performOwn {s : State} {k} (h : s.Canonical) : (performOwn s k).Canonical := .foldl h fun _ _ h1 => .performStore h1

theorem State.Canonical.endWindow {s : State} {k} {k'} (h : s.Canonical) : (endWindow s k k').Canonical :=
  .closeWindow (.foldl h fun _ _ h1 => .performStore h1)

theorem State.Canonical.endWindows {s : State} {k} (h : s.Canonical) : (endWindows s k).Canonical := .foldl h fun _ _ h1 => .endWindow h1

theorem State.Canonical.addStore {s : State} {k va pa bs place shadow} (h : s.Canonical) :
    (addStore s k va pa bs place shadow).Canonical := h

theorem State.Canonical.sendStore {s : State} {k va pa bs place shadow} (h : s.Canonical) :
    (sendStore s k va pa bs place shadow).Canonical :=
  .fly (.addStore h)

theorem Yields.needCollapsed {s : State} {p} (h : s.Canonical) : Yields (fun _ => True) (needCollapsed s p) := by
  unfold Machine.needCollapsed
  split
  · exact .ite (.of_ms (.collapse h)) trivial
  · exact trivial

theorem Yields.needStored {s : State} : Yields (fun _ => True) (needStored s) := .check trivial

theorem Yields.needRelease {s : State} : Yields (fun _ => True) (needRelease s) := .check trivial

theorem State.Canonical.acquireAs {s : State} {core sig} (h : s.Canonical) : (acquireAs s core sig).Canonical :=
  .of_ms (.ite (.dropUnowned h) (.acquireAt h))

theorem State.Canonical.applySig {s : State} {core k sig} (h : s.Canonical) : (applySig s core k sig).Canonical :=
  .setHart (.acquireAs h)

theorem State.Canonical.acquireBack {s : State} {k released} (h : s.Canonical) : (acquireBack s k released).Canonical :=
  .ite (.applySig h) (.acquireAs h)

theorem State.Canonical.logStore {s : State} {k va rep bs fid rel} (h : s.Canonical) : (logStore s k va rep bs fid rel).Canonical :=
  .setHart (.setCore h)

theorem Yields.needLogRoom {s : State} {k} : Yields (fun _ => True) (needLogRoom s k) := .bind (.check trivial) fun _ _ => .check trivial

theorem State.Canonical.dropLog {s : State} {core e} (h : s.Canonical) : (dropLog s core e).Canonical := by
  unfold Machine.dropLog
  dsimp only
  split
  · exact .ite (.fly (.setCore h)) (.setCore h)
  · exact .setCore h

theorem State.Canonical.pendAccess {s : State} {k tag va} (h : s.Canonical) : (pendAccess s k tag va).Canonical :=
  .onThread h

theorem State.Canonical.faultLog {s : State} {k va rep addr stage bs rel} (h : s.Canonical) :
    (faultLog s k va rep addr stage bs rel).Canonical :=
  .logStore (.addRecord h)

theorem Yields.storeTo {s : State} {k va p bs} (h : s.Canonical) :
    Yields State.Canonical (storeTo s k va p bs) := by
  unfold Machine.storeTo
  split
  · exact .of_ok (.signStore (.of_ms (.stashWrite h)))
  · split
    · exact .bind (.shadowPage h) fun _ h1 => .of_ok (.sendStore h1)
    · exact .ite (.of_ok (.sendStore h)) (.ite (.bind (.needCollapsed h) fun _ _ =>
        .of_ok (.performStore (.addStore h))) (.of_ok (.sendStore h)))

theorem State.Canonical.performGroup {s : State} {g} (h : s.Canonical) : (performGroup s g).Canonical :=
  .foldl h fun _ _ h1 => .performStore h1

theorem State.Canonical.groupStores {s : State} {n g} (h : s.Canonical) : (groupStores s n g).Canonical := h

theorem Yields.scalarOut {s : State} {k va rep bs} (h : s.Canonical) :
    Yields State.Canonical (scalarOut s k va rep bs) := by
  unfold Machine.scalarOut
  split
  · exact .ite (.of_ok (.setHart (.sendStore h))) trivial
  · split
    · exact .bind .needLogRoom fun _ _ => .of_ok (.logStore h)
    · split
      · exact .bind .needLogRoom fun _ _ => .of_ok (.faultLog h)
      · exact .of_ok (.pendAccess h)
      next e1 =>
        have h1 := Yields.of_eq e1 (.reach h)
        exact .storeTo h1

theorem Yields.laneTo {s : State} {k va p bs g} (h : s.Canonical) :
    Yields State.Canonical (laneTo s k va p bs g) := by
  unfold Machine.laneTo
  split
  · exact .bind (.scalarOut h) fun _ h1 => .of_ok (.groupStores h1)
  · exact .bind (.storeTo (.ite (.performGroup h) h)) fun _ h1 => .of_ok (.groupStores h1)

/-! ### Along the functions of Sys2Proof/Machine/Channels.lean -/

theorem State.Canonical.setFlow {s : State} {f a} (h : s.Canonical) : (State.setFlow s f a).Canonical := h

theorem State.Canonical.setLink {s : State} {k a} (h : s.Canonical) : (State.setLink s k a).Canonical := h

theorem State.Canonical.transmit {s : State} {node flow seq p} (h : s.Canonical) :
    (transmit s node flow seq p).Canonical := by
  unfold Machine.transmit
  split
  · exact h
  · exact .frame (.setLink h)

theorem State.Canonical.emitPacket {s : State} {node flow p} (h : s.Canonical) : (emitPacket s node flow p).Canonical :=
  .transmit (.setFlow h)

theorem State.Canonical.sendPacket {s : State} {node net p} (h : s.Canonical) :
    (sendPacket s node net p).Canonical := by
  unfold Machine.sendPacket
  split
  · split
    · split
      · exact .fly h
      · exact h
    · exact .fly h
    · exact h
  · exact .emitPacket h

theorem State.Canonical.sendPut {s : State} {p} (h : s.Canonical) : (sendPut s p).Canonical := .ite (.fly h) (.sendPacket h)

theorem State.Canonical.sendAck {s : State} {k} (h : s.Canonical) : (sendAck s k).Canonical := .ite (.fly h) (.sendPacket h)

theorem State.Canonical.offerMsg {s : State} {k m} (h : s.Canonical) : (offerMsg s k m).Canonical := .ite h (.ite (.fly h) (.sendPacket h))

theorem State.Canonical.releaseMsg {s : State} {k id} (h : s.Canonical) : (releaseMsg s k id).Canonical := by
  unfold Machine.releaseMsg
  dsimp only
  split
  · exact .offerMsg (.setHart h)
  · exact .setHart h

theorem Yields.needReply {s : State} {k} : Yields (fun _ => True) (needReply s k) := .check trivial

theorem State.Canonical.offerNext {s : State} {m} (h : s.Canonical) : (offerNext s m).Canonical := by
  unfold Machine.offerNext
  dsimp only
  split
  · exact .releaseMsg h
  · exact h

theorem State.Canonical.closeMsg {s : State} {m} (h : s.Canonical) : (closeMsg s m).Canonical := .setHart h

theorem State.Canonical.markReturned {s : State} {m} (h : s.Canonical) : (markReturned s m).Canonical := .setHart h

theorem State.Canonical.acceptSlot {s : State} {core c words} (h : s.Canonical) : (acceptSlot s core c words).Canonical :=
  .setCore (.of_ms (.stashWrite h))

theorem State.Canonical.kickDispatch {s : State} {core} (h : s.Canonical) : (kickDispatch s core).Canonical := .ite (.fly h) h

theorem State.Canonical.startActivation {s : State} {core k c} (h : s.Canonical) : (startActivation s core k c).Canonical :=
  .ite (.setHart (.setCore h)) (.setHart (.setCore h))

theorem State.Canonical.popOwn {s : State} {k} (h : s.Canonical) : (popOwn s k).Canonical := by
  unfold Machine.popOwn
  dsimp only
  split
  · exact .ite h (.setHart (.setCore h))
  · exact h

theorem State.Canonical.restoreSlots {s : State} {k count} (h : s.Canonical) :
    (restoreSlots s k count).Canonical := by
  unfold Machine.restoreSlots
  split
  · dsimp only
    split
    · exact .foldl_fst (.setCore h) fun _ _ h1 => .of_ms (.stashWrite h1)
    · exact h
  · dsimp only
    split
    · exact .foldl_fst (.setCore h) fun _ _ h1 => .of_ms (.stashWrite h1)
    · exact h

theorem State.Canonical.kickReturned {s : State} {core} (h : s.Canonical) : (kickReturned s core).Canonical := .ite (.fly h) h

theorem State.Canonical.freeActivation {s : State} {k} (h : s.Canonical) : (freeActivation s k).Canonical :=
  .kickReturned (.kickDispatch (.freeSlot (.endWindows h)))

theorem State.Canonical.rollBack {s : State} {k count} (h : s.Canonical) : (rollBack s k count).Canonical :=
  .freeActivation (.setHart (.restoreSlots h))

theorem State.Canonical.killActivation {s : State} {k} (h : s.Canonical) : (killActivation s k).Canonical :=
  .freeActivation (.setHart (.popOwn h))

theorem State.Canonical.sendOutcome {s : State} {m o} (h : s.Canonical) : (sendOutcome s m o).Canonical := .ite (.fly h) (.sendPacket h)

theorem State.Canonical.enterReturned {s : State} {core r} (h : s.Canonical) : (enterReturned s core r).Canonical :=
  .kickDispatch (.closeMsg (.acceptSlot h))

/-! ### Along the functions of Sys2Proof/Machine/Landing.lean -/

theorem State.Canonical.answer {s : State} {p code} (h : s.Canonical) : (answer s p code).Canonical := by
  unfold Machine.answer
  split
  · exact .sendAck h
  · exact h

theorem State.Canonical.landSig {s : State} {k p} (h : s.Canonical) : (landSig s k p).Canonical := by
  unfold Machine.landSig
  split
  · exact .applySig h
  · exact h

theorem State.Canonical.imgOr {s : State} {pa n v} (h : s.Canonical) : (imgOr s pa n v).Canonical := .setSaveNat h

theorem State.Canonical.holdPut {s : State} {pa p} (h : s.Canonical) : (holdPut s pa p).Canonical := by
  unfold Machine.holdPut
  split
  · split
    · exact .ite h (.setSaveNat (.ite (.imgOr (.setSaveNat (.imgOr h))) (.imgOr (.setSaveNat (.imgOr h)))))
    · exact .ite h (.setSaveNat (.ite (.imgOr (.setSaveNat h)) (.imgOr (.setSaveNat h))))
  · split
    · exact .ite (.imgOr h) (.setSaveNat (.ite (.imgOr (.setSaveNat (.imgOr (.imgOr h)))) (.imgOr (.setSaveNat (.imgOr (.imgOr h))))))
    · exact .ite (.imgOr h) (.setSaveNat (.ite (.imgOr (.setSaveNat (.imgOr h))) (.imgOr (.setSaveNat (.imgOr h)))))

theorem State.Canonical.landChannel {s : State} {core p} (h : s.Canonical) : (landChannel s core p).Canonical :=
  .ite (.answer h) (.ite (.answer h) (.kickDispatch (.answer (.acceptSlot h))))

theorem State.Canonical.landPut {s : State} {p} (h : s.Canonical) : (landPut s p).Canonical := by
  unfold Machine.landPut
  split
  · exact .answer h
  · split
    · exact .answer h
    · split
      · exact .landChannel h
      · split
        · dsimp only
          split
          · exact .answer (.setHart (.landSig h))
          · exact .answer (.holdPut (.onSaved h))
          · exact .sendPut h
          · exact .answer h
          · exact .answer h
        · dsimp only
          split
          · exact .answer (.setHart (.landSig h))
          · exact .answer (.holdPut (.onSaved h))
          · exact .answer h
          · exact .answer h
          · exact .answer h

theorem State.Canonical.ackImage {s : State} {pa k} (h : s.Canonical) : (ackImage s pa k).Canonical := by
  unfold Machine.ackImage
  split
  · exact .ite (.imgOr (.setSaveNat (.ite (.imgOr (.foldl h fun _ _ h1 => .setSaveNat h1)) (.foldl h fun _ _ h2 =>
      .setSaveNat h2)))) (.ite (.imgOr (.foldl h fun _ _ h3 => .setSaveNat h3)) (.foldl h fun _ _ h4 => .setSaveNat h4))
  · exact .ite (.imgOr (.foldl h fun _ _ h1 => .setSaveNat h1)) (.foldl h fun _ _ h2 => .setSaveNat h2)

theorem State.Canonical.applyAck {s : State} {k} (h : s.Canonical) : (applyAck s k).Canonical := by
  unfold Machine.applyAck
  split
  · exact .setHart h
  · exact .ackImage h
  · split
    · exact .ite (.sendAck h) h
    · exact h
  · exact h

theorem State.Canonical.tokenPut {s : State} {loc val sig flags settles} (h : s.Canonical) :
    (tokenPut s loc val sig flags settles).Canonical :=
  .fly h

theorem State.Canonical.matrixToken {s : State} {cmd loc val sig flags settles} (h : s.Canonical) :
    (matrixToken s cmd loc val sig flags settles).Canonical :=
  .fly h

/-! ### Along the functions of Sys2Proof/Machine/Windows.lean -/

theorem Yields.needWindow {s : State} {k va acc} : Yields (fun _ => True) (needWindow s k va acc) := by
  unfold Machine.needWindow
  split
  · exact .check trivial
  · exact .check trivial
  · exact trivial

theorem Yields.noWindow {va acc} : Yields (fun _ => True) (noWindow va acc) := .check trivial

theorem Yields.needDelivered {s : State} {core} : Yields (fun _ => True) (needDelivered s core) := .check trivial

theorem Yields.windowLoad {s : State} {k va size} : Yields (fun _ => True) (windowLoad s k va size) := by
  unfold Machine.windowLoad
  refine .bind .needWindow fun _ _ => ?_
  refine .bind (.check trivial) fun _ _ => ?_
  refine .bind .needDelivered fun _ _ => ?_
  split <;> exact trivial

theorem State.Canonical.windowStore {s : State} {k va v} (h : s.Canonical) : (windowStore s k va v).Canonical :=
  .foldl h fun _ _ h1 => .fly h1

theorem Yields.needWindowStore {s : State} {k va size} : Yields (fun _ => True) (needWindowStore s k va size) :=
  .bind .needWindow fun _ _ => .check trivial

/-! ### Along the functions of Sys2Proof/Machine/Buffer.lean -/

theorem Yields.needReleased {s : State} : Yields (fun _ => True) (needReleased s) := .bind .needRelease fun _ _ => .needDelivered

theorem Yields.needRoute {loc} {s : State} : Yields (fun _ => True) (needRoute loc s) := .check trivial

theorem Yields.needInside {loc chan} {s : State} : Yields (fun _ => True) (needInside loc chan s) := .check trivial

theorem Yields.releaseStore {s : State} {k va bs} (h : s.Canonical) :
    Yields State.Canonical (releaseStore s k va bs) := by
  unfold Machine.releaseStore
  split
  · exact .bind .needLogRoom fun _ _ => .of_ok (.faultLog h)
  · exact .of_ok (.pendAccess h)
  next e1 =>
    have h1 := Yields.of_eq e1 (.reach h)
    split
    · split
      · exact .bind (.shadowPage h1) fun _ h2 => .of_ok (.of_ms (.publish (State.Canonical.shadowWrite h2)))
      · exact .bind (.needCollapsed h1) fun _ _ => .of_ok (.countAt (.noteSync (.of_ms (.publish (.dropWords (State.Canonical.signStore
          (.writePlaceHome h1)))))))
    · split
      · exact .bind (.shadowPage h1) fun _ h2 => .of_ok (.shadowWrite h2)
      · exact .bind (.needCollapsed h1) fun _ _ => .of_ok (.countAt (.noteSync (.of_ms (.dropWords (State.Canonical.signStore
          (.writePlaceHome h1))))))

theorem State.Canonical.launchPut {s : State} {p} (h : s.Canonical) : (launchPut s p).Canonical := .sendPut h

theorem Yields.deliverLoad {s : State} {k d loc va word} (h : s.Canonical) : Yields State.Canonical (deliverLoad s k d loc va word) :=
  .bind (.reach h) fun ⟨_, _⟩ h1 => .bind (.check trivial) fun _ _ => .bind (.readHome h1) fun _ h2 =>
    .of_ok (.launchPut (.setHart (.countAt h2)))

theorem State.Canonical.putOut {s : State} {k p rel} (h : s.Canonical) : (putOut s k p rel).Canonical := .launchPut (.setHart h)

theorem Yields.storeOut {s : State} {k va rep bs} (h : s.Canonical) : Yields State.Canonical (storeOut s k va rep bs) :=
  .ite (.of_ok (.windowStore h)) (.scalarOut h)

theorem Yields.needOwnDone {s : State} {k} : Yields (fun _ => True) (needOwnDone s k) :=
  .bind (.check trivial) fun _ _ => .bind (.check trivial) fun _ _ => .needDelivered

theorem Yields.lanesOut {s : State} {k va bs g} (h : s.Canonical) :
    Yields State.Canonical (lanesOut s k va bs g) := by
  unfold Machine.lanesOut
  split
  · exact .ite (.bind (.check trivial) fun _ _ => .laneTo h) (.laneTo h)
  · exact .ite (.bind (.check trivial) fun _ _ => .bind (.reach h) fun ⟨_, _⟩ h1 => .laneTo h1) (.bind (.reach h) fun ⟨_, _⟩ h2 =>
      .laneTo h2)

theorem Yields.releaseOne {s : State} {k final x3} (h : s.Canonical) :
    Yields State.Canonical (releaseOne s k final x3) := by
  unfold Machine.releaseOne
  split
  · exact .ite (.bind .needOwnDone fun _ _ => .releaseStore h) (.storeOut h)
  · exact .lanesOut h
  · exact .ite (.bind .needOwnDone fun _ _ => .bind (.check trivial) fun _ _ => .bind .needReply fun _ _ =>
      .of_ok (.putOut h)) (.bind (.check trivial) fun _ _ => .bind .needReply fun _ _ => .of_ok (.putOut h))
  · exact .bind (.check trivial) fun _ _ => .bind .needReply fun _ _ => .deliverLoad h
  · exact .of_ok (.releaseMsg h)

theorem State.Canonical.releaseAll {s : State} {k final x3} (h : s.Canonical) :
    (releaseAll s k final x3).1.Canonical := by
  fun_induction Machine.releaseAll s k final x3
  · exact h
  next e1 =>
    have h1 := Yields.stop_of_eq e1 (.releaseOne h)
    exact .setHart h1
  · exact .setHart h
  next e1 ih =>
    have h1 := Yields.of_eq e1 (.releaseOne h)
    exact ih h1

theorem Stop.Canonical.of_not_again {k : Stop} (hk : ∀ t, k = .again t → False) : k.Canonical := by
  cases k with
  | again t => exact (hk t rfl).elim
  | _ => trivial

theorem Yields.flush {s : State} {final} (h : s.Canonical) : Yields State.Canonical (flush s final) := by
  unfold Machine.flush
  have h1 : (releaseAll (s.setMe { s.me with abuf := [] }) s.cur final s.me.abuf).1.Canonical := .releaseAll (.setMe h)
  dsimp only
  split
  next e => exact .of_ok (.of_fst e h1)
  next e => exact State.Canonical.of_fst e h1
  next hk e =>
    split
    · exact Stop.Canonical.of_not_again fun t ht => hk t (ht ▸ rfl)
    · exact State.Canonical.of_fst e h1

theorem Yields.needUnrollable {s : State} (h : s.Canonical) : Yields (fun _ => True) (needUnrollable s) := by
  unfold Machine.needUnrollable
  split
  · split
    next e1 =>
      have h1 := Yields.of_eq e1 (.flush h)
      exact .setMe h1
    next e1 =>
      have h1 := Yields.stop_of_eq e1 (.flush h)
      exact h1
  · exact trivial

theorem Yields.bufferOr {s : State} {e out} (h : s.Canonical) (hf : ∀ y0, y0.Canonical → Yields State.Canonical (out y0)) :
    Yields State.Canonical (bufferOr s e out) := by
  unfold Machine.bufferOr
  split
  · split
    · exact .of_ok (.setMe h)
    · split
      · exact hf _ h
      next e1 =>
        have h1 := Yields.stop_of_eq e1 (.needUnrollable h)
        exact h1
  · exact hf _ h

theorem Yields.storeMem {s : State} {va rep bs} (h : s.Canonical) :
    Yields State.Canonical (storeMem s va rep bs) := by
  unfold Machine.storeMem
  split
  · exact .of_ok (.setMe h)
  · exact .bufferOr h (fun _ h1 => .storeOut h1)

theorem Yields.needPureRead {va n} {s : State} : Yields (fun _ => True) (needPureRead va n s) := by
  unfold Machine.needPureRead
  split
  · exact .check trivial
  · exact trivial

theorem Yields.needPureWrite {va n} {s : State} : Yields (fun _ => True) (needPureWrite va n s) := by
  unfold Machine.needPureWrite
  split
  · exact .check trivial
  · exact trivial

/-! ### Along the functions of Sys2Proof/Machine/EngKick.lean -/

theorem State.Canonical.setHead {s : State} {core q c} (h : s.Canonical) : (setHead s core q c).Canonical := .setCore h

theorem State.Canonical.kickCopy {s : State} {core q} (h : s.Canonical) : (kickCopy s core q).Canonical := by
  unfold Machine.kickCopy
  split
  · exact h
  · exact .ite (.fly h) h

theorem State.Canonical.drainFront {s : State} {core x2} (h : s.Canonical) : (drainFront s core x2).Canonical := by
  fun_induction Machine.drainFront s core x2
  · exact h
  · exact h
  next ih => exact ih (.kickCopy (.setCore h))
  · exact h

theorem State.Canonical.setMhead {s : State} {core c} (h : s.Canonical) : (setMhead s core c).Canonical := .setCore h

theorem State.Canonical.kickMatrix {s : State} {cl} (h : s.Canonical) : (kickMatrix s cl).Canonical := .ite (.fly h) h

theorem State.Canonical.kickMhead {s : State} {core} (h : s.Canonical) : (kickMhead s core).Canonical := by
  unfold Machine.kickMhead
  split
  · exact h
  · exact .ite (.ite (.kickMatrix h) h) (.ite (.fly h) h)

/-! ### Along the functions of Sys2Proof/Machine/Launches.lean -/

theorem State.Canonical.reportStatus {s : State} {d code} (h : s.Canonical) : (reportStatus s d code).Canonical := by
  unfold Machine.reportStatus
  split
  · exact .tokenPut h
  · exact .ite (.writeRange h) h
  · exact .sendPut h
  · exact h

theorem State.Canonical.unarm {s : State} {r} (h : s.Canonical) : (unarm s r).Canonical := by
  unfold Machine.unarm
  repeat' split
  all_goals exact h

theorem State.Canonical.refuseRecord {s : State} {r} (h : s.Canonical) : (refuseRecord s r).Canonical := .reportStatus (.unarm h)

theorem State.Canonical.dropShadow {s : State} {p l b} (h : s.Canonical) : (dropShadow s p l b).Canonical := h

theorem State.Canonical.dropCommands {l} {s : State} {core} (h : s.Canonical) : (dropCommands l s core).Canonical :=
  .ite h (.drainFront (.foldl (.kickMhead (.setCore h)) fun _ _ h1 => .kickCopy h1))

theorem State.Canonical.dropWork {s : State} {l} (h : s.Canonical) : (dropWork s l).Canonical := .foldl h fun _ _ h1 => .dropCommands h1

theorem State.Canonical.dropShadows {s : State} {a} (h : s.Canonical) : (dropShadows s a).Canonical :=
  .dropShadow (.dropShadow (.dropWork h))

theorem State.Canonical.commitShadows {s : State} {a} (h : s.Canonical) : (commitShadows s a).Canonical := by
  unfold Machine.commitShadows
  exact State.Canonical.dropShadows (.foldl (.foldl h fun _ _ h1 => .storeHome h1) fun _ _ h2 => .engPoison h2)

theorem State.Canonical.kickLaunch {s : State} {l} (h : s.Canonical) : (kickLaunch s l).Canonical := by
  unfold Machine.kickLaunch
  split
  · exact h
  · exact .foldl h fun _ _ h1 => .ite (.fly h1) h1

theorem State.Canonical.kickStarts {s : State} (h : s.Canonical) : (kickStarts s).Canonical := .foldl h fun _ _ h1 => .kickLaunch h1

theorem State.Canonical.setStmap {s : State} {k} {k'} {v} (h : s.Canonical) : (setStmap s k k' v).Canonical :=
  .setHart (.ite h (.endWindow h))

theorem State.Canonical.startThread {s : State} {a n} (h : s.Canonical) : (startThread s a n).Canonical := by
  unfold Machine.startThread
  refine .frame ?_
  split
  · exact .applySig (.foldl (.setHart h) fun _ _ h1 => .setStmap h1)
  · exact .foldl (.setHart h) fun _ _ h1 => .setStmap h1

theorem State.Canonical.directThread {s : State} {k ctx pc p q} (h : s.Canonical) : (directThread s k ctx pc p q).Canonical :=
  .setHart h

theorem State.Canonical.closeLaunch {s : State} {a code} (h : s.Canonical) : (closeLaunch s a code).Canonical :=
  .kickStarts (.reportStatus (.unarm h))

theorem State.Canonical.rerun {s : State} {a} (h : s.Canonical) : (rerun s a).Canonical := .kickLaunch (.frame (.dropShadows h))

theorem State.Canonical.launchDone {s : State} {a} (h : s.Canonical) : (launchDone s a).Canonical := by
  unfold Machine.launchDone
  split
  · exact .closeLaunch h
  · exact .ite (.closeLaunch (.commitShadows h)) (.ite (.closeLaunch (.dropShadows h)) (.rerun h))

theorem State.Canonical.threadEnded {s : State} {l n} (h : s.Canonical) : (threadEnded s l n).Canonical := by
  unfold Machine.threadEnded
  split
  · exact h
  · exact .ite (.launchDone h) h

theorem State.Canonical.endThread {s : State} {k} (h : s.Canonical) : (endThread s k).Canonical := by
  unfold Machine.endThread
  refine .kickDispatch ?_
  refine .kickStarts ?_
  split
  · exact .threadEnded (.freeSlot (.addDep (.endWindows h)))
  · exact .freeSlot (.addDep (.endWindows h))

theorem State.Canonical.killSlot {s : State} {k} (h : s.Canonical) : (killSlot s k).Canonical := by
  unfold Machine.killSlot
  refine .freeSlot ?_
  refine .addDep ?_
  refine .endWindows ?_
  split
  · exact .freeDep h
  · exact h

theorem State.Canonical.killThread {s : State} {k} (h : s.Canonical) : (killThread s k).Canonical := by
  unfold Machine.killThread
  refine .kickDispatch ?_
  refine .kickStarts ?_
  split
  · exact .threadEnded (.killSlot h)
  · exact .killSlot h

theorem State.Canonical.killKept {l} {s : State} {e} (h : s.Canonical) : (killKept l s e).Canonical := by
  unfold Machine.killKept
  dsimp only
  split
  · refine .foldl h fun _ _ h1 => ?_
    refine .addDep ?_
    split
    · exact .freeDep h1
    · exact h1
  · refine .frame ?_
    refine .foldl h fun _ _ h1 => ?_
    refine .addDep ?_
    split
    · exact .freeDep h1
    · exact h1

theorem State.Canonical.killThreads {s : State} {l} (h : s.Canonical) : (killThreads s l).Canonical := by
  unfold Machine.killThreads
  split
  · exact h
  · exact .foldl (.foldl h fun _ _ h1 => .ite (.killSlot h1) h1) fun _ _ h2 => .killKept h2

theorem State.Canonical.killLaunch {s : State} {l code} (h : s.Canonical) : (killLaunch s l code).Canonical := by
  unfold Machine.killLaunch
  split
  · exact h
  · exact .closeLaunch (.ite (.dropShadows (.killThreads h)) (.killThreads h))

theorem State.Canonical.vFailed {s : State} {l} (h : s.Canonical) : (vFailed s l).Canonical := by
  unfold Machine.vFailed
  split
  · exact h
  · split
    · exact .ite (.closeLaunch (.dropShadows (.killThreads h))) (.rerun (.killThreads h))
    · exact .killThreads h

theorem State.Canonical.setPool {s : State} {die l} (h : s.Canonical) : (State.setPool s die l).Canonical := h

theorem State.Canonical.kickService {s : State} {die} (h : s.Canonical) : (kickService s die).Canonical := .ite (.fly h) h

theorem State.Canonical.refillFrom {die x1} {x2 : State} (h : x2.Canonical) : (refillFrom die x1 x2).Canonical := by
  fun_induction Machine.refillFrom die x1 x2
  · exact h
  next ih => exact ih (.setPool h)
  · exact h
  · exact h

theorem State.Canonical.refill {s : State} {die} (h : s.Canonical) : (refill s die).Canonical := .kickService (.refillFrom h)

theorem Has.placeRecordIn {s : State} {p r} (h : s.Canonical) :
    Has (fun r => r.1.Canonical) (placeRecordIn s p r) := by
  unfold Machine.placeRecordIn
  dsimp only
  split
  · exact .frame (.saveWords h)
  · exact trivial

theorem State.Canonical.acceptRecord {s : State} {die r} (h : s.Canonical) : (acceptRecord s die r).Canonical := by
  unfold Machine.acceptRecord
  split
  · exact .kickService (.setPool h)
  · split
    · split
      next e1 =>
        have h1 := Has.of_eq e1 (.placeRecordIn h)
        exact h1
      · exact .refuseRecord h
    · exact .refuseRecord h

theorem State.Canonical.loadRoutes {s : State} {core p} (h : s.Canonical) : (loadRoutes s core p).Canonical := .setCore h

theorem State.Canonical.holdLent {s : State} {l k} (h : s.Canonical) : (holdLent s l k).Canonical := .ite (.setHart h) h

theorem State.Canonical.reserveSlot {s : State} {l k} (h : s.Canonical) : (reserveSlot s l k).Canonical := .ite (.setHart h) (.holdLent h)

theorem State.Canonical.placeRecord {s : State} {r} (h : s.Canonical) : (placeRecord s r).Canonical := by
  unfold Machine.placeRecord
  dsimp only
  refine .kickLaunch (.foldl (.frame ?_) fun _ _ h => ?_)
  · split
    · exact .foldl h fun _ _ h => .loadRoutes h
    · exact h
  · split
    · exact .reserveSlot h
    · exact .holdLent h

theorem State.Canonical.passActivation {s : State} {k} (h : s.Canonical) : (passActivation s k).Canonical := .setHart h

theorem State.Canonical.serviced {s : State} {o : Option Nat} (h : s.Canonical) : (match o with
    | some h => Machine.passActivation s h
    | none => s).Canonical := by
  split
  · exact .passActivation h
  · exact h

theorem State.Canonical.processRecord {s : State} {die} (h : s.Canonical) : (processRecord s die).Canonical := by
  unfold Machine.processRecord
  split
  · exact h
  · refine .kickService ?_
    split
    · exact .refuseRecord (.refill (.serviced (.frame h)))
    · exact .ite (.placeRecord (.refill (.serviced (.frame h)))) (.refuseRecord (.refill (.serviced (.frame h))))

/-! ### Along the functions of Sys2Proof/Machine/EngBase.lean -/

theorem Gives.homeReach {s : State} {owner core holder c va acc} (h : s.Canonical) :
    Gives (fun r => r.2.Canonical) (homeReach s owner core holder c va acc) := by
  unfold Machine.homeReach
  split
  · exact trivial
  · exact trivial
  next e1 =>
    have h1 := Gives.of_eq e1 (.translate h)
    exact .ite trivial (.ite h1 trivial)

theorem Gives.engStash {s : State} {owner core o acc} (h : s.Canonical) :
    Gives (fun r => r.2.Canonical) (engStash s owner core o acc) := by
  unfold Machine.engStash
  split
  · exact h
  · exact .homeReach h

theorem Gives.engReachFor {s : State} {owner core c va acc} (h : s.Canonical) :
    Gives (fun r => r.2.Canonical) (engReachFor s owner core c va acc) := by
  unfold Machine.engReachFor
  split
  · exact trivial
  · split
    · exact .ite trivial (.engStash h)
    · exact .ite (.engStash h) h
    · exact .homeReach h
    · exact trivial

theorem Gives.engReach {s : State} {core c va acc} (h : s.Canonical) : Gives (fun r => r.2.Canonical) (engReach s core c va acc) :=
  .engReachFor h

theorem State.Canonical.countEng {s : State} {who p} (h : s.Canonical) : (countEng s who p).Canonical := by
  unfold Machine.countEng
  split
  · exact .ite h (.countAt h)
  · exact h

theorem State.Canonical.engLine {s : State} {who shadow p n} (h : s.Canonical) :
    (engLine s who shadow p n).2.Canonical := by
  unfold Machine.engLine
  split
  · dsimp only
    split
    · exact .touchHome (.countEng h)
    · exact .touchHome (.settlePlace (.countEng h))
    · exact .settlePlace (.countEng h)
  · dsimp only
    split
    · exact .touchHome (.countEng h)
    · exact .touchHome (.settlePlace (.countEng h))
    · exact .settlePlace (.countEng h)

theorem Gives.engRead {s : State} {core c who shadow va n} (h : s.Canonical) :
    Gives (fun r => r.2.Canonical) (engRead s core c who shadow va n) := by
  unfold Machine.engRead
  refine .foldlM ?_ fun _ _ h1 => ?_
  · exact h
  · refine .bind (.engReach h1) fun ⟨_, s1⟩ h2 => ?_
    refine .of_ok ?_
    split
    · exact .touchHome (.countEng h2)
    · exact .touchHome (.settlePlace (.countEng h2))
    · exact .settlePlace (.countEng h2)

theorem State.Canonical.engWriteLine {w : EngWrote} {who shadow va p bs} (h : w.st.Canonical) :
    (engWriteLine w who shadow va p bs).st.Canonical := by
  unfold Machine.engWriteLine
  split
  · split
    · exact .ite (.of_ms (.shadowMark (State.Canonical.shadowWrite (.countEng h)))) (.shadowWrite (.countEng h))
    · split
      · exact .of_ms (.write ((State.Canonical.signStore (.countEng h)).mem) (Memory.wf_writeBlock _ _ _ ((State.Canonical.signStore
          (.countEng h)).stash)) ((State.Canonical.signStore (.countEng h)).wbuf))
      · exact .writePlaceHome (.signStore (.countEng h))
  · split
    · exact .ite (.of_ms (.shadowMark (State.Canonical.shadowWrite (.countEng h)))) (.shadowWrite (.countEng h))
    · dsimp only
      split
      · exact .engPoison (.signStore (.countEng h))
      · exact .writePlaceHome (.signStore (.countEng h))

theorem Gives.engShadow {s : State} {owner shadow va p} (h : s.Canonical) :
    Gives State.Canonical (engShadow s owner shadow va p) := by
  unfold Machine.engShadow
  split
  · split
    next e1 =>
      have h1 := Yields.of_eq e1 (.shadowPage h)
      exact h1
    · exact trivial
    · exact trivial
  · exact h

theorem Gives.engWriteFor {s : State} {owner core c who shadow va bs sig} (h : s.Canonical) :
    Gives (fun r => r.st.Canonical) (engWriteFor s owner core c who shadow va bs sig) := by
  unfold Machine.engWriteFor
  refine .foldlM ?_ fun _ _ h1 => ?_
  · exact h
  · exact .bind (.engReachFor h1) fun ⟨_, _⟩ h2 => .bind (.engShadow h2) fun _ h3 => .of_ok (.engWriteLine h3)

theorem Gives.engWrite {s : State} {core c who shadow va bs sig} (h : s.Canonical) :
    Gives (fun r => r.st.Canonical) (engWrite s core c who shadow va bs sig) :=
  .engWriteFor h

theorem State.Canonical.barrierApply {s : State} {b} (h : s.Canonical) : (barrierApply s b).Canonical := by
  unfold Machine.barrierApply
  split
  · split
    · split
      · exact .lowerUnack (.countAt (.noteWritten (.dropOlder (.ite (.addRecord (.of_ms (.publish (State.Canonical.writeRange h))))
          (.of_ms (.publish (State.Canonical.writeRange h)))))))
      · exact .ite (.addRecord (.of_ms (.publish (State.Canonical.writeRange h)))) (.of_ms (.publish (State.Canonical.writeRange h)))
    · split
      · exact .lowerUnack (.countAt (.noteWritten (.dropOlder (.ite (.addRecord (.writeRange h)) (.writeRange h)))))
      · exact .ite (.addRecord (.writeRange h)) (.writeRange h)
  · split
    · split
      · exact .lowerUnack (.countAt (.noteWritten (.dropOlder (.ite (.addRecord (.of_ms (.publish (State.Canonical.writeRange h))))
          (.of_ms (.publish (State.Canonical.writeRange h)))))))
      · exact .ite (.addRecord (.of_ms (.publish (State.Canonical.writeRange h)))) (.of_ms (.publish (State.Canonical.writeRange h)))
    · split
      · exact .lowerUnack (.countAt (.noteWritten (.dropOlder (.ite (.addRecord (.writeRange h)) (.writeRange h)))))
      · exact .ite (.addRecord (.writeRange h)) (.writeRange h)

theorem State.Canonical.completeCmd {s : State} {c code} (h : s.Canonical) : (completeCmd s c code).Canonical := .tokenPut h

theorem State.Canonical.freezeQueue {s : State} {core q c va acc} (h : s.Canonical) : (freezeQueue s core q c va acc).Canonical :=
  .addFreezeRecord (.setCore h)

theorem State.Canonical.chargeLeave {s : State} {core cost} (h : s.Canonical) :
    (chargeLeave s core cost).Canonical := by
  unfold Machine.chargeLeave
  split
  · exact h
  · exact .setPart h

theorem State.Canonical.drawLeave {s : State} {core cost} (h : s.Canonical) : (drawLeave s core cost).Canonical := .chargeLeave h

/-! ### Along the functions of Sys2Proof/Machine/EngQueues.lean -/

theorem State.Canonical.enterFront {s : State} {c} (h : s.Canonical) : (enterFront s c).Canonical := .drainFront (.setCore h)

theorem Yields.needFront {s : State} : Yields (fun _ => True) (needFront s) := .check trivial

theorem Yields.needMatrix {s : State} : Yields (fun _ => True) (needMatrix s) := .check trivial

theorem State.Canonical.enterMatrix {s : State} {c} (h : s.Canonical) : (enterMatrix s c).Canonical := .kickMhead (.setCore h)

theorem State.Canonical.finishCopy {s : State} {core q c code} (h : s.Canonical) : (finishCopy s core q c code).Canonical :=
  .kickCopy (.drainFront (.completeCmd (.setCore h)))

theorem State.Canonical.finishMatrix {s : State} {core c code} (h : s.Canonical) :
    (finishMatrix s core c code).Canonical := by
  unfold Machine.finishMatrix
  refine .kickMhead ?_
  split
  · exact .matrixToken (.ite (.setCore h) (.matrixToken (.setCore h)))
  · exact .completeCmd (.setCore h)

theorem State.Canonical.holdCopy {s : State} {core q c stage addr acc} (h : s.Canonical) : (holdCopy s core q c stage addr acc).Canonical :=
  .setHead (.addRecord h)

theorem State.Canonical.holdMatrix {s : State} {core c stage addr acc} (h : s.Canonical) : (holdMatrix s core c stage addr acc).Canonical :=
  .setMhead (.addRecord h)

theorem State.Canonical.endCopyLaunch {s : State} {c} (h : s.Canonical) : (endCopyLaunch s c).Canonical := by
  unfold Machine.endCopyLaunch
  split
  · exact .killLaunch h
  · exact h

theorem State.Canonical.settleCopy {s : State} {core q c x4} (h : s.Canonical) :
    (settleCopy s core q c x4).Canonical := by
  unfold Machine.settleCopy
  split
  · exact .kickCopy (.setHead h)
  · exact .finishCopy h
  · exact .holdCopy h
  · exact .finishCopy h
  · exact .endCopyLaunch (.finishCopy h)
  · exact .freezeQueue (.setHead h)

theorem State.Canonical.settleMatrix {s : State} {core c x3} (h : s.Canonical) :
    (settleMatrix s core c x3).Canonical := by
  unfold Machine.settleMatrix
  split
  · exact .kickMhead (.setMhead h)
  · exact .finishMatrix h
  · exact .holdMatrix h
  · exact .endCopyLaunch (.finishMatrix h)
  · exact .finishMatrix h

theorem State.Canonical.kickLeave {s : State} {die} (h : s.Canonical) : (kickLeave s die).Canonical := by
  unfold Machine.kickLeave
  split
  · exact .ite (.fly h) h
  · exact h

theorem State.Canonical.grantLeave {s : State} {die} (h : s.Canonical) : (grantLeave s die).Canonical := by
  unfold Machine.grantLeave
  split
  · exact h
  · split
    · refine .kickLeave ?_
      split
      · split
        · exact .kickCopy (.setHead (.drawLeave h))
        · exact h
      · split
        · exact .kickMhead (.setMhead (.drawLeave h))
        · exact h
    · exact h

theorem State.Canonical.forkStores {s : State} {c} (h : s.Canonical) : (forkStores s c).Canonical := .ite (.performOwn h) h

/-! ### Along the functions of Sys2Proof/Machine/Tasks.lean -/

theorem State.Canonical.countReuse {s : State} {p k} (h : s.Canonical) : (countReuse s p k).Canonical := h

theorem State.Canonical.dropEntry {s : State} {id} (h : s.Canonical) : (dropEntry s id).Canonical := h

theorem Gives.framesOf {s : State} {core c va n acc} (h : s.Canonical) :
    Gives (fun r => r.2.Canonical) (framesOf s core c va n acc) := by
  unfold Machine.framesOf
  split
  · exact h
  · refine .foldlM ?_ fun _ _ h1 => ?_
    · exact h
    · refine .bind (.engReach h1) fun ⟨_, s1⟩ h2 => ?_
      split
      next e1 =>
        have h3 := State.Canonical.of_snd e1 h2
        split
        · exact h3
        · exact trivial

theorem Gives.taskFrames {s : State} {core c} (h : s.Canonical) :
    Gives (fun r => r.2.Canonical) (taskFrames s core c) := by
  unfold Machine.taskFrames
  refine .foldlM ?_ fun _ _ h1 => ?_
  · exact h
  · exact .framesOf h1

theorem State.Canonical.watchFrames {s : State} {fs} (h : s.Canonical) : (watchFrames s fs).Canonical := h

theorem Gives.taskWords {s : State} {core c} (h : s.Canonical) :
    Gives (fun r => r.2.2.Canonical) (taskWords s core c) := by
  unfold Machine.taskWords
  refine .bind (P := fun r => r.2.2.Canonical) ?_ fun ⟨_, _, s1⟩ h1 => ?_
  · refine .foldlM ?_ fun _ _ h2 => ?_
    · exact h
    · exact .bind (.engRead h2) fun ⟨_, _⟩ h3 => h3
  · exact h1

theorem State.Canonical.finishTask {s : State} {core c code} (h : s.Canonical) : (finishTask s core c code).Canonical :=
  .kickCopy (.drainFront (.tokenPut (.setCore h)))

theorem State.Canonical.missTask {s : State} {core c entry} (h : s.Canonical) : (missTask s core c entry).Canonical :=
  .kickDispatch (.setHead h)

theorem State.Canonical.startTask {s : State} {core c} (h : s.Canonical) : (startTask s core c).Canonical := by
  unfold Machine.startTask
  split
  · exact .finishTask h
  · split
    · exact .finishTask h
    · split
      · exact .missTask h
      · split
        · exact .holdCopy h
        · exact .finishTask h
        next e1 =>
          have h1 := Gives.of_eq e1 (.taskFrames h)
          exact .ite (.missTask h1) (.kickCopy (.setHead (.watchFrames h1)))

theorem State.Canonical.failTask {s : State} {core c} (h : s.Canonical) : (failTask s core c).Canonical := by
  unfold Machine.failTask
  split
  · exact .finishTask (.ite (.countReuse h) h)
  · exact .finishTask h

theorem State.Canonical.lookupTask {s : State} {core c} (h : s.Canonical) : (lookupTask s core c).Canonical := by
  unfold Machine.lookupTask
  split
  · exact .missTask h
  · split
    · exact .holdCopy h
    · exact .finishTask (.countReuse h)
    next e1 =>
      have h1 := Gives.of_eq e1 (.taskFrames h)
      split
      · exact .missTask h1
      · split
        · exact .holdCopy h1
        · exact .finishTask (.countReuse h1)
        next e2 =>
          have h2 := Gives.of_eq e2 (.taskWords (.watchFrames h1))
          split
          · exact .finishTask h2
          · dsimp only
            split
            · exact .kickCopy (.setHead (.frame (.countReuse h2)))
            · exact .missTask (.frame (.countReuse h2))

theorem State.Canonical.finishHit {s : State} {core c} (h : s.Canonical) : (finishHit s core c).Canonical := by
  unfold Machine.finishHit
  refine .finishTask ?_
  refine .frame ?_
  split
  · exact .countReuse h
  · exact h

theorem Gives.hitReach {s : State} {core c} (h : s.Canonical) : Gives State.Canonical (hitReach s core c) := by
  unfold Machine.hitReach
  split
  · exact h
  · refine .foldlM ?_ fun _ _ h1 => ?_
    · exact h
    · exact .bind (.engReach h1) fun ⟨_, _⟩ h2 => h2

theorem State.Canonical.hitPiece {s : State} {core c} (h : s.Canonical) : (hitPiece s core c).Canonical := by
  unfold Machine.hitPiece
  split
  · exact .finishHit h
  · dsimp only
    split
    · exact .holdCopy h
    · exact .freezeQueue h
    · exact .finishTask h
    next e =>
      have hw := Gives.of_eq e (.bind (.hitReach h) fun _ h => .engWrite h)
      exact .ite (.finishHit hw) (.kickCopy (.setHead hw))

theorem State.Canonical.startPure {s : State} {core k c} (h : s.Canonical) : (startPure s core k c).Canonical := .setHart h

theorem State.Canonical.endTask {s : State} {k code sig flags} (h : s.Canonical) :
    (endTask s k code sig flags).Canonical := by
  unfold Machine.endTask
  split
  · exact h
  · refine .freeActivation ?_
    split
    · exact .finishTask (.ite h (.dropEntry h))
    · exact .ite h (.dropEntry h)

theorem State.Canonical.notePurity {s : State} {k va} (h : s.Canonical) : (notePurity s k va).Canonical := by
  unfold Machine.notePurity
  split
  · exact h
  · split
    · exact h
    · exact .onThread h

theorem State.Canonical.abortPurity {s : State} {k va} (h : s.Canonical) : (abortPurity s k va).Canonical := .endTask (.notePurity h)

theorem State.Canonical.rerunTask {s : State} {k} (h : s.Canonical) : (rerunTask s k).Canonical := by
  unfold Machine.rerunTask
  split
  · exact h
  · split
    · exact .endTask h
    · split
      · exact .endTask h
      · exact .freeActivation (.setHead h)

theorem Has.map_of {α : Type} {P : State → Prop} {o : Option α} {f : α → State} (h : ∀ a, P (f a)) : Has P (o.map f) := by
  cases o with
  | none => trivial
  | some a => exact h a

theorem Has.makeWay {s : State} {e} (h : s.Canonical) : Has State.Canonical (makeWay s e) := by
  unfold Machine.makeWay
  dsimp only
  split
  · trivial
  · split
    · split
      · exact h
      · exact .map_of fun _ => .dropEntry h
    · split
      · exact State.Canonical.dropEntry h
      · split
        · exact .map_of fun _ => .dropEntry h
        · trivial

theorem State.Canonical.makeRoom {p k need total x4} {x5 : State} (h : x5.Canonical) :
    (makeRoom p k need total x4 x5).Canonical := by
  fun_induction Machine.makeRoom p k need total x4 x5
  · exact h
  · exact h
  next ih => exact ih (.dropEntry h)
  · exact h

theorem State.Canonical.insertResult {s : State} {k id result} (h : s.Canonical) : (insertResult s k id result).1.Canonical := by
  unfold Machine.insertResult
  have hd : (Machine.dropEntry s id).Canonical := .dropEntry h
  split
  · exact h
  · dsimp only
    split
    · exact hd
    · split
      · exact hd
      · split
        · exact hd
        · split
          · exact hd
          next e =>
            have hw := Has.of_eq e (.makeWay hd)
            split
            · exact .makeRoom hw
            · exact .countReuse (.frame (.makeRoom hw))

theorem Gives.releaseOutput {s : State} {k r} (h : s.Canonical) :
    Gives (fun r => r.st.Canonical) (releaseOutput s k r) := by
  unfold Machine.releaseOutput
  refine .foldlM ?_ fun _ _ h1 => ?_
  · exact h
  · exact .engWrite h1

theorem Yields.hendPure {s : State} {k r} (h : s.Canonical) : Yields State.Canonical (hendPure s k r) := by
  unfold Machine.hendPure
  refine .bind (.check trivial) fun _ _ => ?_
  split
  · trivial
  · exact .of_ok (.endTask h)
  next e =>
    have hw := Gives.of_eq e (.releaseOutput h)
    dsimp only
    split
    · exact .of_ok (.endTask hw)
    · exact .of_ok (.endTask (.setHart (.insertResult hw)))

theorem State.Canonical.dropFrames {s : State} {p fs} (h : s.Canonical) : (dropFrames s p fs).Canonical := h

/-! ### Along the functions of Sys2Proof/Machine/Copies.lean -/

theorem State.Canonical.reduceOne {s : State} {core c k} (h : s.Canonical) :
    (reduceOne s core c k).1.Canonical := by
  unfold Machine.reduceOne
  dsimp only
  split
  · exact h
  next e1 =>
    have h1 := Gives.of_eq e1 (.engRead h)
    split
    · exact h1
    · split
      · exact h1
      next e2 =>
        have h2 := Gives.of_eq e2 (.engReach h1)
        split
        · exact h2
        · split
          · exact h2
          · split
            · exact h2
            next e3 =>
              have h3 := Gives.of_eq e3 (.engShadow h2)
              exact .engWriteLine (.engLine h3)

theorem State.Canonical.reduceMany {core k x2} {x3 : State} {x4} (h : x3.Canonical) :
    (reduceMany core k x2 x3 x4).1.Canonical := by
  fun_induction Machine.reduceMany core k x2 x3 x4
  · exact h
  next e1 ih =>
    have h1 := State.Canonical.of_fst e1 (.reduceOne h)
    exact ih h1
  · exact .reduceOne h

theorem Gives.copyBarrier {s : State} {core c} (h : s.Canonical) :
    Gives (fun r => r.2.Canonical) (copyBarrier s core c) := by
  unfold Machine.copyBarrier
  split
  · exact h
  · refine .bind (.engReach h) fun ⟨_, s1⟩ h1 => ?_
    split
    next e1 =>
      have h2 := State.Canonical.of_snd e1 h1
      split
      · exact h2
      · exact trivial

theorem State.Canonical.pieceArrives {s : State} {core q c pa n sig} (h : s.Canonical) :
    (pieceArrives s core q c pa n sig).Canonical := by
  unfold Machine.pieceArrives
  split
  · exact h
  · exact .countAt (.barrierApply h)

theorem State.Canonical.purePut {s : State} {c va bs} (h : s.Canonical) : (purePut s c va bs).Canonical := by
  unfold Machine.purePut
  split
  · split
    · exact .setHart h
    · exact h
  · exact h

theorem State.Canonical.cpyPiece {s : State} {core q c n} (h : s.Canonical) :
    (cpyPiece s core q c n).1.Canonical := by
  unfold Machine.cpyPiece
  split
  · exact h
  next e1 =>
    have h1 := Gives.of_eq e1 (.copyBarrier h)
    split
    · dsimp only
      split
      · exact h1
      next e2 =>
        have h2 := Gives.of_eq e2 (.engRead h1)
        exact .purePut h2
    · dsimp only
      split
      · exact h1
      next e2 =>
        have h2 := Gives.of_eq e2 (.engRead h1)
        split
        · exact h2
        next e3 =>
          have h3 := Gives.of_eq e3 (.engWrite h2)
          exact .pieceArrives h3

theorem State.Canonical.cpyxBlock {s : State} {core c} (h : s.Canonical) : (cpyxBlock s core c).1.Canonical := by
  unfold Machine.cpyxBlock
  split
  · exact h
  next e1 =>
    have h1 := Gives.of_eq e1 (.engRead h)
    dsimp only
    split
    · exact h1
    next e2 =>
      have h2 := Gives.of_eq e2 (.engReach h1)
      split
      · split
        · exact h2
        · exact .engWriteLine h2
      · split
        · exact h2
        · split
          · exact h2
          next e3 =>
            have h3 := Gives.of_eq e3 (.engShadow h2)
            exact .engWriteLine h3

theorem State.Canonical.cpyxMany {core x1} {x2 : State} {x3} (h : x2.Canonical) :
    (cpyxMany core x1 x2 x3).1.Canonical := by
  fun_induction Machine.cpyxMany core x1 x2 x3
  · exact h
  next e1 ih =>
    have h1 := State.Canonical.of_fst e1 (.cpyxBlock h)
    exact ih h1
  · exact .cpyxBlock h

theorem State.Canonical.blockPiece {s : State} {core q c run} (h : s.Canonical) (hf : ∀ y0 y1, y0.Canonical → (run y0 y1).1.Canonical) :
    (blockPiece s core q c run).1.Canonical := by
  unfold Machine.blockPiece
  split
  · exact h
  next e1 =>
    have h1 := Gives.of_eq e1 (.copyBarrier h)
    exact .ite (hf _ _ h1) (.pieceArrives (hf _ _ h1))

theorem State.Canonical.cpygPiece {s : State} {core c} (h : s.Canonical) : (cpygPiece s core c).1.Canonical := by
  unfold Machine.cpygPiece
  dsimp only
  split
  · exact h
  next e1 =>
    have h1 := Gives.of_eq e1 (.engRead h)
    split
    · exact h1
    next e2 =>
      have h2 := Gives.of_eq e2 (.engRead h1)
      split
      · exact h2
      next e3 =>
        have h3 := Gives.of_eq e3 (.engWrite h2)
        exact h3

theorem State.Canonical.mldwPiece {s : State} {core c} (h : s.Canonical) : (mldwPiece s core c).1.Canonical := by
  unfold Machine.mldwPiece
  split
  · exact h
  · dsimp only
    split
    · exact h
    next e1 =>
      have h1 := Gives.of_eq e1 (.engRead h)
      exact .of_ms (.write h1.mem h1.stash (Memory.wf_writeBytes _ _ _ h1.wbuf))

theorem State.Canonical.cpyhPiece {s : State} {core q c} (h : s.Canonical) :
    (cpyhPiece s core q c).1.Canonical := by
  unfold Machine.cpyhPiece
  split
  · exact h
  next e1 =>
    have h1 := Gives.of_eq e1 (.engRead h)
    split
    · exact h1
    · exact .fly h1

theorem State.Canonical.pureCopyDone {s : State} {c} (h : s.Canonical) : (pureCopyDone s c).Canonical := by
  unfold Machine.pureCopyDone
  split
  · split
    · split
      · exact .setHart h
      · exact h
    · exact h
  · exact h

theorem State.Canonical.afterPiece {core q r} (h : r.1.Canonical) : (afterPiece core q r).Canonical :=
  .settleCopy (.ite (.pureCopyDone h) h)

theorem State.Canonical.copyPiece {s : State} {core q c} (h : s.Canonical) : (copyPiece s core q c).Canonical := by
  unfold Machine.copyPiece
  split
  · exact .hitPiece h
  · split
    · exact .afterPiece (.mldwPiece h)
    · exact .afterPiece (.cpygPiece h)
    · exact .afterPiece (.cpyhPiece h)
    · exact .afterPiece (.blockPiece h (fun _ _ h1 => .cpyxMany h1))
    · split
      · exact .afterPiece (.blockPiece h (fun _ _ h1 => .reduceMany h1))
      · exact .afterPiece (.cpyPiece h)

theorem State.Canonical.startCopy {s : State} {core q c} (h : s.Canonical) : (startCopy s core q c).Canonical := by
  have hs : (Machine.forkStores s c).Canonical := .forkStores h
  unfold Machine.startCopy
  refine .ite (.startTask hs) ?_
  cases copyCheck (Machine.forkStores s c) core c with
  | some code => exact .finishCopy (.pureCopyDone hs)
  | none =>
    refine .ite (.kickLeave (.setHead (.frame hs))) ?_
    split
    · exact .holdCopy hs
    · exact .freezeQueue hs
    · exact .finishCopy (.pureCopyDone hs)
    next e =>
      have hb := Gives.of_eq e (.copyBarrier hs)
      exact .ite (.finishCopy (.pureCopyDone hb)) (.kickCopy (.setHead hb))

theorem State.Canonical.startLanding {s : State} {k} (h : s.Canonical) : (startLanding s k).Canonical := .setHart h

theorem State.Canonical.kickLanding {s : State} {core} (h : s.Canonical) : (kickLanding s core).Canonical := by
  unfold Machine.kickLanding
  split
  · dsimp only
    split
    · exact .fly (.setCore h)
    · exact h
  · dsimp only
    split <;> exact h

theorem State.Canonical.keepPacket {s : State} {p i k} (h : s.Canonical) : (keepPacket s p i k).Canonical := by
  unfold Machine.keepPacket
  split
  · exact h
  · exact .setCore h

theorem State.Canonical.landingArrival {s : State} {k} (h : s.Canonical) : (landingArrival s k).Canonical := by
  unfold Machine.landingArrival
  split
  · exact .ite (.keepPacket h) (.ite (.startLanding h) (.setCore h))
  · split
    · exact .ite (.keepPacket h) (.kickLanding (.ite (.finishCopy h) h))
    · exact .ite (.keepPacket h) (.kickLanding h)

theorem State.Canonical.landingDone {s : State} {from_} (h : s.Canonical) : (landingDone s from_).Canonical := by
  unfold Machine.landingDone
  split
  · exact .ite (.afterPiece h) h
  · exact h

theorem State.Canonical.endLanding {s : State} {k} (h : s.Canonical) : (endLanding s k).Canonical :=
  .kickLanding (.landingDone (.freeActivation h))

/-! ### Along the functions of Sys2Proof/Machine/MatrixUnit.lean -/

theorem MemSys.Canonical.clearAcc {ms : MemSys} {core a} (h : ms.Canonical) : (clearAcc ms core a).Canonical := h

theorem MemSys.Canonical.setAcc {ms : MemSys} {core a f} (h : ms.Canonical) : (setAcc ms core a f).Canonical := h

theorem Gives.stashRead {s : State} {core c off n} (h : s.Canonical) : Gives (fun r => r.2.Canonical) (stashRead s core c off n) :=
  .engRead h

theorem Gives.aBlock {s : State} {core c pick off} (h : s.Canonical) : Gives (fun r => r.2.Canonical) (aBlock s core c pick off) :=
  .bind (.stashRead h) fun ⟨_, _⟩ h1 => h1

theorem Gives.aBlocks {s : State} {core c pick kb} (h : s.Canonical) :
    Gives (fun r => r.2.Canonical) (aBlocks s core c pick kb) := by
  unfold Machine.aBlocks
  refine .foldlM ?_ fun _ _ h1 => ?_
  · exact h
  · exact .bind (.aBlock h1) fun ⟨_, _⟩ h2 => h2

theorem MemSys.Canonical.foldBlock {ms : MemSys} {core a as bs} (h : ms.Canonical) : (foldBlock ms core a as bs).1.Canonical :=
  .setAcc h

theorem Gives.stepOperands {s : State} {core c} (h : s.Canonical) :
    Gives (fun r => r.2.Canonical) (stepOperands s core c) := by
  unfold Machine.stepOperands
  refine .foldlM ?_ fun _ _ h1 => ?_
  · exact h
  · exact .bind (.aBlocks h1) fun ⟨_, _⟩ h2 => h2

theorem State.Canonical.mmulStep {s : State} {core c} (h : s.Canonical) : (mmulStep s core c).1.Canonical := by
  unfold Machine.mmulStep
  split
  · exact h
  next e1 =>
    have h1 := Gives.of_eq e1 (.stepOperands h)
    dsimp only
    split
    · split
      · exact .matrixToken (.of_ms (.foldl_fst (State.Canonical.drawLeave h1) fun _ _ h2 => .foldBlock h2))
      · exact .of_ms (.foldl_fst (State.Canonical.drawLeave h1) fun _ _ h2 => .foldBlock h2)
    · split
      · exact .matrixToken (.of_ms (.foldl_fst h1 fun _ _ h2 => .foldBlock h2))
      · exact .of_ms (.foldl_fst h1 fun _ _ h2 => .foldBlock h2)

theorem Gives.biasRow {s : State} {core c} (h : s.Canonical) : Gives (fun r => r.2.2.Canonical) (biasRow s core c) :=
  .ite h (.bind (.stashRead h) fun ⟨_, _⟩ h1 => h1)

theorem State.Canonical.mstwRow {s : State} {core c} (h : s.Canonical) : (mstwRow s core c).1.Canonical := by
  unfold Machine.mstwRow
  split
  · exact h
  next e1 =>
    have h1 := Gives.of_eq e1 (.biasRow h)
    split
    · dsimp only
      split
      · exact h1
      next e2 =>
        have h2 := Gives.of_eq e2 (.engWrite h1)
        exact h2
    · dsimp only
      split
      · exact h1
      next e2 =>
        have h2 := Gives.of_eq e2 (.engWrite h1)
        exact h2

theorem State.Canonical.mstwRows {core x1} {x2 : State} {x3} (h : x2.Canonical) :
    (mstwRows core x1 x2 x3).1.Canonical := by
  fun_induction Machine.mstwRows core x1 x2 x3
  · exact h
  next e1 ih =>
    have h1 := State.Canonical.of_fst e1 (.mstwRow h)
    exact ih h1
  · exact .mstwRow h

theorem State.Canonical.mstwStep {s : State} {core c} (h : s.Canonical) : (mstwStep s core c).1.Canonical := by
  unfold Machine.mstwStep
  split
  next e1 =>
    have h1 := State.Canonical.of_fst e1 (.mstwRows h)
    exact .ite (.of_ms (.clearAcc h1)) h1
  · exact .mstwRows h

theorem State.Canonical.matrixStep {s : State} {core c} (h : s.Canonical) : (matrixStep s core c).Canonical := by
  unfold Machine.matrixStep
  split
  · exact .settleMatrix (.mmulStep (.countAt h))
  · exact .settleMatrix (.mstwStep (.countAt h))
  · exact .settleMatrix (.of_ms (.clearAcc (State.Canonical.countAt h)))
  · exact .settleMatrix (.countAt h)

theorem State.Canonical.startMatrix {s : State} {core c} (h : s.Canonical) : (startMatrix s core c).Canonical := by
  have hs : (Machine.forkStores s c).Canonical := .forkStores h
  unfold Machine.startMatrix
  refine .ite (.finishMatrix hs) ?_
  dsimp only
  split
  · exact .finishMatrix hs
  · exact .ite (.kickLeave (.setMhead (.frame hs))) (.ite (.finishMatrix hs) (.kickMhead (.setMhead hs)))

theorem State.Canonical.unitStep {s : State} {cl} (h : s.Canonical) : (unitStep s cl).Canonical := by
  unfold Machine.unitStep
  split
  · exact .ite h h
  · dsimp only
    split
    · exact h
    · split
      · exact h
      · exact .ite (.fly (.setCluster h)) (.kickMatrix (.ite (.ite (.setCluster (.matrixStep (.setCluster h))) (.matrixStep
          (.setCluster h))) (.setCluster (.ite (.setCluster (.matrixStep (.setCluster h))) (.matrixStep (.setCluster h))))))

theorem State.Canonical.gateQuarter {s : State} {cl k} (h : s.Canonical) : (gateQuarter s cl k).Canonical := .ite (.setCluster h) h

theorem State.Canonical.wakeDone {s : State} {cl} (h : s.Canonical) : (wakeDone s cl).Canonical := .ite (.kickMatrix (.setCluster h)) h

theorem State.Canonical.engineStart {s : State} {e} (h : s.Canonical) : (engineStart s e).Canonical := by
  unfold Machine.engineStart
  split
  · split
    · exact .ite (.startCopy h) h
    · exact h
  · split
    · exact .ite (.startMatrix h) h
    · exact h

theorem State.Canonical.pieceDone {s : State} {core q} (h : s.Canonical) : (pieceDone s core q).Canonical := by
  unfold Machine.pieceDone
  split
  · exact .ite (.copyPiece h) h
  · exact h

theorem State.Canonical.taskLookup {s : State} {core} (h : s.Canonical) : (taskLookup s core).Canonical := by
  unfold Machine.taskLookup
  split
  · exact .ite (.lookupTask h) h
  · exact h

/-! ### Along the functions of Sys2Proof/Machine/Fabric.lean -/

theorem State.Canonical.linkError {s : State} (h : s.Canonical) : (linkError s).Canonical := h

theorem State.Canonical.linkDown {s : State} {k a} (h : s.Canonical) : (linkDown s k a).Canonical := .fly (.setLink h)

theorem State.Canonical.replayLink {s : State} {k crc fail} (h : s.Canonical) : (replayLink s k crc fail).Canonical :=
  .ite (.ite (.linkError (.ite (.linkDown h) (.setLink h))) (.ite (.linkDown h) (.setLink h))) h

theorem State.Canonical.spareLane {s : State} {k lane} (h : s.Canonical) : (spareLane s k lane).Canonical :=
  .ite (.ite (.setLink h) (.linkDown h)) (.ite (.linkDown h) h)

theorem State.Canonical.laneError {s : State} {k lane} (h : s.Canonical) : (laneError s k lane).Canonical :=
  .ite (.ite (.fly (.setLink h)) (.setLink h)) h

theorem State.Canonical.moveLink {s : State} {k src dst} (h : s.Canonical) : (moveLink s k src dst).Canonical := .ite (.setLink h) h

theorem State.Canonical.quiesceLink {s : State} {k} (h : s.Canonical) : (quiesceLink s k).Canonical := .ite (.moveLink h) h

theorem State.Canonical.kickQuiesced {s : State} {k} (h : s.Canonical) : (kickQuiesced s k).Canonical := .ite (.fly h) h

theorem State.Canonical.ackLink {s : State} {k n} (h : s.Canonical) : (ackLink s k n).Canonical := .kickQuiesced (.setLink h)

theorem State.Canonical.trainLink {s : State} {k ok peer spared} (h : s.Canonical) :
    (trainLink s k ok peer spared).Canonical := by
  unfold Machine.trainLink
  split
  · split
    · dsimp only
      split
      · exact .frame (.setLink h)
      · exact h
    · dsimp only
      split
      · exact .frame (.setLink h)
      · exact h
  · exact .ite (.setLink h) h

theorem State.Canonical.silentLink {s : State} {k} (h : s.Canonical) : (silentLink s k).Canonical := .ite (.linkDown h) h

theorem State.Canonical.setConnCmd {s : State} {c d} (h : s.Canonical) : (setConnCmd s c d).Canonical := .setConn h

theorem State.Canonical.endConnCmd {s : State} {c d code} (h : s.Canonical) : (endConnCmd s c d code).Canonical :=
  .setConn (.setConnCmd (.tokenPut (.ite (.countAt h) h)))

theorem State.Canonical.localViolation {s : State} {c d va acc} (h : s.Canonical) : (localViolation s c d va acc).Canonical :=
  .endConnCmd (.addRecord h)

theorem State.Canonical.stallConn {s : State} {c d stage addr acc} (h : s.Canonical) : (stallConn s c d stage addr acc).Canonical :=
  .setConnCmd (.addRecord h)

theorem State.Canonical.engPrefix {core ctx who va x4} {x5 : State} {x6} (h : x5.Canonical) :
    (engPrefix core ctx who va x4 x5 x6).1.Canonical := by
  fun_induction Machine.engPrefix core ctx who va x4 x5 x6
  · exact h
  · exact h
  next e1 _ _ e2 ih =>
    have h1 := Gives.of_eq e1 (.engReach h)
    have h2 := State.Canonical.of_snd e2 (.engLine h1)
    exact ih h2

theorem State.Canonical.readPrefix {s : State} {core ctx who va n} (h : s.Canonical) : (readPrefix s core ctx who va n).1.Canonical :=
  .engPrefix h

theorem State.Canonical.connSend {s : State} {c p} (h : s.Canonical) : (connSend s c p).Canonical := .emitPacket h

theorem State.Canonical.answerParts {send conn last} {s : State} {bs} (h : ∀ y0 y1, y0.Canonical → (send y0 y1).Canonical)
  (hf : s.Canonical) :
    (answerParts send conn last s bs).Canonical := by
  unfold Machine.answerParts
  exact h _ _ (.foldl hf fun _ _ h1 => h _ _ h1)

theorem State.Canonical.putPackets {s : State} {c d bs whole} (h : s.Canonical) : (putPackets s c d bs whole).Canonical :=
  .foldl_fst h fun _ _ h1 => .connSend h1

theorem State.Canonical.startConnCmd {s : State} {c d} (h : s.Canonical) : (startConnCmd s c d).1.Canonical := by
  unfold Machine.startConnCmd
  split
  · exact .endConnCmd (.forkStores h)
  · split
    · dsimp only
      split
      · exact .setConnCmd (.ite (.putPackets (.readPrefix (.forkStores h))) (.readPrefix (.forkStores h)))
      · exact .stallConn (.ite (.putPackets (.readPrefix (.forkStores h))) (.readPrefix (.forkStores h)))
      · exact .localViolation (.ite (.putPackets (.readPrefix (.forkStores h))) (.readPrefix (.forkStores h)))
    · exact .setConnCmd (.connSend (.forkStores h))
    · split
      · dsimp only
        split
        · exact .endConnCmd (.forkStores h)
        · exact .setConnCmd (.connSend (.ite (.setConn (.forkStores h)) (.forkStores h)))
      · dsimp only
        split
        · exact .endConnCmd (.forkStores h)
        · split
          · exact .setConnCmd (.connSend (.readPrefix (.ite (.setConn (.forkStores h)) (.forkStores h))))
          · exact .stallConn (.readPrefix (.ite (.setConn (.forkStores h)) (.forkStores h)))
          · exact .localViolation (.readPrefix (.ite (.setConn (.forkStores h)) (.forkStores h)))

theorem State.Canonical.pumpGo {s : State} {c x2} (h : s.Canonical) : (pumpGo s c x2).Canonical := by
  fun_induction Machine.pumpGo s c x2
  · exact h
  next ih => exact ih (.setConn h)
  · exact h
  next ih => exact ih h
  · exact h
  next ih => exact ih h
  next e1 =>
    have h1 := State.Canonical.of_fst e1 (.startConnCmd h)
    exact h1
  next e1 ih =>
    have h1 := State.Canonical.of_fst e1 (.startConnCmd h)
    exact ih h1

theorem State.Canonical.pumpRound {s : State} (h : s.Canonical) : (pumpRound s).Canonical := .foldl h fun _ _ h1 => .pumpGo h1

theorem State.Canonical.pumpRounds {x0} {x1 : State} (h : x1.Canonical) : (pumpRounds x0 x1).Canonical := by
  fun_induction Machine.pumpRounds x0 x1
  · exact h
  next ih => exact ih (.pumpRound h)

theorem State.Canonical.pumpAll {s : State} (h : s.Canonical) : (pumpAll s).Canonical := .pumpRounds h

theorem State.Canonical.enterConn {s : State} {c d} (h : s.Canonical) : (enterConn s c d).Canonical :=
  .ite (.pumpAll (.setConn h)) (.tokenPut h)

theorem Yields.needConnRoom {s : State} {c} : Yields (fun _ => True) (needConnRoom s c) := .check trivial

theorem State.Canonical.landGet {s : State} {c d} (h : s.Canonical) : (landGet s c d).Canonical := by
  unfold Machine.landGet
  dsimp only
  split
  · exact .stallConn h
  · exact .localViolation h
  next e1 =>
    have h1 := Gives.of_eq e1 (.engWrite h)
    exact .ite (.endConnCmd h1) (.setConnCmd h1)

theorem State.Canonical.landGets {x0} {x1 : State} {x2 x3} (h : x1.Canonical) :
    (landGets x0 x1 x2 x3).Canonical := by
  fun_induction Machine.landGets x0 x1 x2 x3
  · exact h
  · exact h
  next ih => exact ih (.landGet h)
  · exact h

theorem State.Canonical.commandComplete {s : State} {c id code data flags} (h : s.Canonical) :
    (commandComplete s c id code data flags).Canonical := by
  unfold Machine.commandComplete
  split
  · exact h
  · split
    · exact h
    · split
      · dsimp only
        split
        · exact .pumpAll (.landGets (.setConnCmd h))
        · exact .pumpAll (.endConnCmd h)
      · dsimp only
        split <;> exact .pumpAll (.endConnCmd h)

theorem State.Canonical.answerPull {s : State} {c d n} (h : s.Canonical) : (answerPull s c d n).Canonical := by
  unfold Machine.answerPull
  split
  next e1 =>
    have h1 := State.Canonical.of_fst e1 (.readPrefix h)
    split
    · exact .setConnCmd (.answerParts (fun _ _ h2 => .connSend h2) h1)
    · exact .stallConn h1
    · exact .localViolation (.answerParts (fun _ _ h2 => .connSend h2) h1)

theorem State.Canonical.failPull {s : State} {c d n} (h : s.Canonical) : (failPull s c d n).Canonical :=
  .endConnCmd (.answerParts (fun _ _ h1 => .connSend h1) (.engPrefix h))

theorem State.Canonical.refuseSend {s : State} {c id} (h : s.Canonical) : (refuseSend s c id).Canonical := by
  unfold Machine.refuseSend
  split
  · exact h
  · exact .setConn h

theorem State.Canonical.retrySend {s : State} {c} (h : s.Canonical) : (retrySend s c).Canonical := .ite h (.pumpAll (.setConn h))

theorem State.Canonical.endBackoff {s : State} {c id} (h : s.Canonical) : (endBackoff s c id).Canonical := .ite (.setConn h) h

theorem State.Canonical.sendTaken {s : State} {c id} (h : s.Canonical) : (sendTaken s c id).Canonical := by
  unfold Machine.sendTaken
  split
  · exact h
  · exact .ite (.endBackoff h) (.ite (.pumpAll (.endBackoff h)) (.pumpAll (.endConnCmd (.endBackoff h))))

theorem State.Canonical.answerConn {s : State} {c node p} (h : s.Canonical) : (answerConn s c node p).Canonical :=
  .emitPacket h

theorem State.Canonical.stallInbox {s : State} {c stage addr acc} (h : s.Canonical) : (stallInbox s c stage addr acc).Canonical :=
  .setConn (.addRecord h)

theorem State.Canonical.inboxNext {s : State} {c} (h : s.Canonical) : (inboxNext s c).Canonical := .setConn h

theorem State.Canonical.writeDecided {s : State} {c node srcConn ref code last flags} (h : s.Canonical) :
    (writeDecided s c node srcConn ref code last flags).Canonical :=
  .ite (.answerConn (.setConn h)) (.setConn h)

theorem State.Canonical.performInbox {s : State} {c} (h : s.Canonical) : (performInbox s c).Canonical := by
  unfold Machine.performInbox
  split
  · split
    · exact .inboxNext (.answerConn h)
    · split
      · exact .inboxNext (.writeDecided h)
      · split
        · exact .stallInbox h
        · exact .inboxNext (.writeDecided h)
        next e1 =>
          have h1 := Gives.of_eq e1 (.engWrite h)
          exact .inboxNext (.writeDecided h1)
  · split
    · exact .inboxNext (.answerConn h)
    · split
      next e1 =>
        have h1 := State.Canonical.of_fst e1 (.readPrefix h)
        exact .stallInbox h1
      next e1 =>
        have h1 := State.Canonical.of_fst e1 (.readPrefix h)
        exact .inboxNext (.answerConn h1)
      next e1 =>
        have h1 := State.Canonical.of_fst e1 (.readPrefix h)
        exact .inboxNext (.answerParts (fun _ _ h2 => .answerConn h2) h1)
  · exact .ite (.inboxNext (.answerConn h)) (.ite (.inboxNext h) (.inboxNext (.fly h)))
  · exact .inboxNext h
  · exact h

theorem State.Canonical.drainInbox {x0} {x1 : State} {x2} (h : x1.Canonical) : (drainInbox x0 x1 x2).Canonical := by
  fun_induction Machine.drainInbox x0 x1 x2
  · exact h
  · exact h
  next ih => exact ih (.performInbox h)

theorem State.Canonical.toInbox {s : State} {c p} (h : s.Canonical) : (toInbox s c p).Canonical := .drainInbox (.setConn h)

theorem State.Canonical.failInbox {s : State} {c} (h : s.Canonical) : (failInbox s c).Canonical := by
  unfold Machine.failInbox
  refine .drainInbox ?_
  split
  · exact .inboxNext (.writeDecided (.setConn h))
  · exact .inboxNext (.answerConn (.setConn h))
  · exact .setConn h

theorem State.Canonical.forgetKept {s : State} {node net p} (h : s.Canonical) : (forgetKept s node net p).Canonical :=
  .setFlow h

theorem State.Canonical.takeParts {s : State} {c} (h : s.Canonical) : (takeParts s c).2.Canonical := .setConn h

theorem State.Canonical.deliverPacket {s : State} {p} (h : s.Canonical) : (deliverPacket s p).Canonical := by
  unfold Machine.deliverPacket
  split
  · exact .fly h
  · exact .fly (.forgetKept h)
  · exact .fly h
  · exact .fly (.forgetKept h)
  · exact .toInbox h
  · exact .toInbox h
  · exact .toInbox h
  · exact .setConn h
  · exact .fly (.setConn h)
  · split
    · exact .ite h (.pumpAll (.answerPull (.endBackoff h)))
    · exact h
  · exact .fly (.setConn h)
  · exact .sendTaken h
  · exact .refuseSend h
  · exact h

theorem State.Canonical.deliverRun {x0} {x1 : State} {x2} (h : x1.Canonical) : (deliverRun x0 x1 x2).Canonical := by
  fun_induction Machine.deliverRun x0 x1 x2
  · exact h
  next ih => exact ih (.deliverPacket (.setFlow h))
  · exact h

theorem State.Canonical.seenPacket {s : State} {f seq} (h : s.Canonical) : (seenPacket s f seq).Canonical := .setFlow h

theorem State.Canonical.receivePacket {s : State} {f seq p} (h : s.Canonical) :
    (receivePacket s f seq p).Canonical := by
  unfold Machine.receivePacket
  split
  · exact h
  · split
    · exact .seenPacket h
    · exact .ite (.transmit h) (.deliverRun (.setFlow (.transmit h)))

theorem State.Canonical.resendPacket {s : State} {f seq} (h : s.Canonical) : (resendPacket s f seq).Canonical := by
  unfold Machine.resendPacket
  split
  · dsimp only
    split
    · exact h
    · exact .ite (.setFlow h) (.transmit (.setConn (.setFlow (.setFlow h))))
  · dsimp only
    split
    · exact h
    · exact .ite (.setFlow h) (.transmit (.setFlow (.setFlow h)))

theorem State.Canonical.kickResends {s : State} {f} (h : s.Canonical) : (kickResends s f).Canonical :=
  .foldl h fun _ _ h1 => .ite (.fly h1) h1

theorem State.Canonical.emptyConn {s : State} {c b} (h : s.Canonical) : (emptyConn s c b).Canonical := by
  unfold Machine.emptyConn
  refine .pumpAll ?_
  refine .foldl (.setFlow (.setConn h)) fun _ _ h1 => ?_
  split
  · exact .ite h1 (.tokenPut h1)
  · exact h1

theorem State.Canonical.loseConn {s : State} {c} (h : s.Canonical) : (loseConn s c).Canonical := .emptyConn h

theorem State.Canonical.losePacket {s : State} {p} (h : s.Canonical) : (losePacket s p).Canonical := by
  unfold Machine.losePacket
  split
  · split
    · exact .fly h
    · exact h
  · exact .fly h
  · exact h

theorem State.Canonical.losePeer {s : State} {node} (h : s.Canonical) : (losePeer s node).Canonical :=
  .foldl (.foldl h fun _ _ h1 => .ite (.loseConn h1) h1) fun _ _ h2 => .foldl (.setFlow h2) fun _ _ h3 => .losePacket h3

theorem State.Canonical.passNode {ns} {s : State} {node} (h : s.Canonical) : (passNode ns s node).Canonical := .ite h (.ite (.fly h) h)

theorem State.Canonical.writeConn {s : State} {w c val} (h : s.Canonical) : (writeConn s w c val).Canonical := by
  unfold Machine.writeConn
  dsimp only
  split
  · exact h
  · split
    · exact .ite (.loseConn (.setConn h)) (.setConn h)
    · exact h
    · exact .emptyConn h
    · exact .setConn h
    · exact .emptyConn h
    · exact .setConn h

theorem State.Canonical.writeUq {s : State} {p} (h : s.Canonical) : (writeUq s p).Canonical :=
  .foldl h fun _ _ h1 => .ite (.engWriteLine h1) h1

theorem State.Canonical.setPosted {s : State} {p l} (h : s.Canonical) : (State.setPosted s p l).Canonical := h

theorem State.Canonical.setUnexp {s : State} {p l} (h : s.Canonical) : (State.setUnexp s p l).Canonical := .writeUq h

theorem State.Canonical.freeEntry {s : State} {r y} (h : s.Canonical) : (freeEntry s r y).Canonical := .setUnexp h

theorem State.Canonical.endLandingRecv {s : State} {l status code} (h : s.Canonical) :
    (endLandingRecv s l status code).Canonical := by
  unfold Machine.endLandingRecv
  refine .tokenPut ?_
  split
  · refine .freeEntry ?_
    split
    · exact .connSend h
    · exact h
  · split
    · exact .connSend h
    · exact h

theorem State.Canonical.setLanding {s : State} {l} (h : s.Canonical) : (setLanding s l).Canonical := h

theorem State.Canonical.landRecv {x0} {x1 : State} {x2} (h : x1.Canonical) : (landRecv x0 x1 x2).Canonical := by
  fun_induction Machine.landRecv x0 x1 x2
  · exact h
  · exact .endLandingRecv h
  · exact .setLanding h
  · exact .setLanding (.addRecord h)
  · exact .endLandingRecv h
  next e1 ih =>
    have h1 := Gives.of_eq e1 (.engWriteFor h)
    exact ih h1

theorem State.Canonical.startLand {s : State} {r y data broken answer entry} (h : s.Canonical) :
    (startLand s r y data broken answer entry).Canonical :=
  .landRecv h

theorem State.Canonical.matched {s : State} {r y direct} (h : s.Canonical) : (matched s r y direct).Canonical :=
  .ite (.startLand h) (.connSend h)

theorem State.Canonical.sendArrives {s : State} {y} (h : s.Canonical) : (sendArrives s y).Canonical := by
  unfold Machine.sendArrives
  split
  · exact h
  · dsimp only
    split
    · exact .matched (.setPosted (.setConn h))
    · exact .ite (.connSend (.setUnexp (.setConn h))) (.connSend (.setConn (.setConn h)))

theorem State.Canonical.resumeLandings {s : State} {p} (h : s.Canonical) : (resumeLandings s p).Canonical :=
  .foldl h fun _ _ h1 => .ite (.landRecv h1) h1

theorem State.Canonical.dropLandings {s : State} {p} (h : s.Canonical) : (dropLandings s p).Canonical :=
  .foldl h fun _ _ h1 => .endLandingRecv h1

theorem State.Canonical.postRecv {s : State} {p r} (h : s.Canonical) : (postRecv s p r).Canonical := by
  unfold Machine.postRecv
  split
  · exact .matched h
  · exact .setPosted h

theorem State.Canonical.pullEnds {s : State} {conn ref ok data} (h : s.Canonical) :
    (pullEnds s conn ref ok data).Canonical := by
  unfold Machine.pullEnds
  split
  · exact h
  · exact .startLand (.freeEntry (.ite (.connSend h) h))

theorem State.Canonical.setAssignq {s : State} {die q a} (h : s.Canonical) :
    (State.setAssignq s die q a).Canonical := h

theorem State.Canonical.writeAssign {s : State} {w die q k val} (h : s.Canonical) : (writeAssign s w die q k val).Canonical :=
  .ite (.ite (.setAssignq h) h) (.ite (.ite (.setAssignq h) h) (.ite (.ite (.setAssignq h) h) h))

/-! ### Along the functions of Sys2Proof/Machine/Faults.lean -/

theorem State.Canonical.setRing {s : State} {f ring a} (h : s.Canonical) :
    (State.setRing s f ring a).Canonical := h

theorem State.Canonical.writeRecord {s : State} {f ring} (h : s.Canonical) : (writeRecord s f ring).Canonical := by
  unfold Machine.writeRecord
  split
  · exact h
  · split
    · dsimp only
      split
      · exact h
      · exact .setRing (.frame (.writeRange h))
    · exact h

theorem State.Canonical.kickRings {s : State} (h : s.Canonical) : (kickRings s).Canonical := by
  unfold Machine.kickRings
  split
  · exact h
  · split
    · exact .ite h (.fly h)
    · exact h

theorem State.Canonical.holdHart {s : State} {k va addr stage acc} (h : s.Canonical) : (holdHart s k va addr stage acc).Canonical :=
  .setHart (.addRecord h)

theorem State.Canonical.holdPage {acc} {s : State} {e} (h : s.Canonical) : (holdPage acc s e).Canonical := .setMe (.addRecord h)

theorem State.Canonical.holdPages {s : State} {acc x2} (h : s.Canonical) : (holdPages s acc x2).Canonical := by
  unfold Machine.holdPages
  split
  · exact h
  · exact .foldl (.holdHart h) fun _ _ h1 => .holdPage h1

theorem State.Canonical.consumeError {s : State} {line} (h : s.Canonical) : (consumeError s line).Canonical := .ite (.settleLine h) h

theorem State.Canonical.consumed {s : State} {k acc line uncorr va} (h : s.Canonical) :
    (consumed s k acc line uncorr va).Canonical := by
  unfold Machine.consumed
  split
  · exact .ite (.endTask (.consumeError h)) (.takeTrapAt (.consumeError h))
  · dsimp only
    split
    · exact .rerunTask (.consumeError h)
    · split
      · exact .vFailed (.consumeError h)
      · exact .ite (.rollBack (.consumeError h)) (.takeTrapAt (.consumeError h))

theorem State.Canonical.trapNow {s : State} {c tval} (h : s.Canonical) : (trapNow s c tval).Canonical := .ite (.endTask h) (.takeTrap h)

theorem State.Canonical.trapAccess {s : State} {acc c tval} (h : s.Canonical) : (trapAccess s acc c tval).Canonical :=
  .ite (.endTask h) (.takeTrapAt h)

theorem State.Canonical.stopped {s : State} {k : Stop} (h : s.Canonical) (hk : k.Canonical) : (stopped s k).Canonical := by
  cases k with
  | trap c tval => exact .trapNow h
  | trapAcc acc c tval => exact .trapAccess h
  | wait k => exact .setMe h
  | hold va addr st acc _ => exact .holdHart h
  | holdLanes acc l => exact .holdPages h
  | deny acc va => exact .ite (.endTask h) (.freezeHart h)
  | purity va => exact .abortPurity h
  | memErr acc line uncorr va => exact .consumed h
  | poolEmpty =>
    simp only [Machine.stopped]
    split
    · exact .killLaunch h
    · exact h
  | again s' => exact .setMe hk

theorem Reaches.finish {s : State} {r : Res} (h : s.Canonical) (hr : Yields State.Canonical r) : Reaches (finish s r) := by
  unfold Machine.finish
  split
  · exact .next hr
  · exact .next (.stopped h hr)

theorem State.Canonical.terminalRecord {s : State} {r} (h : s.Canonical) : (terminalRecord s r).Canonical := .addRecord h

theorem State.Canonical.replayShadow {s : State} {e k sm pa} (h : s.Canonical) :
    (replayShadow s e k sm pa).Canonical := by
  unfold Machine.replayShadow
  split
  next e1 =>
    have h1 := Yields.of_eq e1 (.shadowPage h)
    exact .shadowWrite h1
  · exact .killLaunch h
  · exact .onThread h

theorem State.Canonical.replayAt {s : State} {e p} (h : s.Canonical) : (replayAt s e p).Canonical := by
  unfold Machine.replayAt
  split
  · exact .signStore (.of_ms (.stashWrite h))
  · exact .replayShadow h
  · exact .ite (.countAt (.storeHome h)) (.registerCount (.noteWritten (.storeOwned h)))

theorem Yields.entryPlace {s : State} {core e} (h : s.Canonical) : Yields (fun r => r.2.Canonical) (entryPlace s core e) :=
  .ite (.reachFor h) trivial

theorem State.Canonical.replayEntry {s : State} {core e} (h : s.Canonical) : (replayEntry s core e).Canonical := by
  unfold Machine.replayEntry
  split
  · exact .setCore (.addRecord h)
  · exact .pendAccess (.lowerUnack (.dropLog h))
  next e1 =>
    have h1 := Yields.of_eq e1 (.entryPlace h)
    refine .dropLog ?_
    refine .lowerUnack ?_
    split
    · exact .of_ms (.publish (State.Canonical.replayAt h1))
    · exact .replayAt h1

theorem State.Canonical.retryLog {s : State} {core id} (h : s.Canonical) : (retryLog s core id).Canonical := by
  unfold Machine.retryLog
  dsimp only
  split
  · exact .ite (.fly (.setCore h)) (.setCore h)
  · exact .setCore h

theorem State.Canonical.freezeThread {s : State} {k tag cause tval addr acc stage2 c} (h : s.Canonical) :
    (freezeThread s k tag cause tval addr acc stage2 c).Canonical := by
  unfold Machine.freezeThread
  split
  · exact .ite (.addFreezeRecord h) (.freezeHart h)
  · exact .addFreezeRecord (.onSaved h)
  · exact h

theorem State.Canonical.failLog {s : State} {core id addr stage2} (h : s.Canonical) :
    (failLog s core id addr stage2).Canonical := by
  unfold Machine.failLog
  split
  · exact h
  · exact .freezeThread (.lowerUnack (.dropLog h))

theorem State.Canonical.retryRecord {s : State} {r} (h : s.Canonical) : (retryRecord s r).Canonical := by
  unfold Machine.retryRecord
  split
  · exact .ite (.setHart h) h
  · exact .retryLog h
  · split
    · exact .ite (.kickCopy (.setHead h)) h
    · exact h
  · split
    · exact .ite (.kickMhead (.setMhead h)) h
    · exact h
  · split
    · exact .drainInbox (.setConn h)
    · split
      · exact .pumpAll (.ite (.answerPull (.setConnCmd h)) (.ite (.setConnCmd h) (.landGets (.setConnCmd h))))
      · exact h
  · split
    · exact .landRecv h
    · exact h
  · exact h

theorem State.Canonical.failRecord {s : State} {r} (h : s.Canonical) : (failRecord s r).Canonical := by
  unfold Machine.failRecord
  split
  · dsimp only
    split
    · exact .ite (.ite (.endTask (.setHart (.terminalRecord h))) (.ite (.setHart (.setHart (.terminalRecord h))) (.takeTrapAt (.setHart
        (.terminalRecord h))))) (.terminalRecord h)
    · exact .terminalRecord h
  · exact .failLog (.terminalRecord h)
  · dsimp only
    split
    · exact .ite (.ite (.failTask (.terminalRecord h)) (.finishCopy (.pureCopyDone (.terminalRecord h)))) (.terminalRecord h)
    · exact .terminalRecord h
  · dsimp only
    split
    · exact .ite (.finishMatrix (.terminalRecord h)) (.terminalRecord h)
    · exact .terminalRecord h
  · dsimp only
    split
    · exact .failInbox (.terminalRecord h)
    · split
      · exact .pumpAll (.ite (.failPull (.terminalRecord h)) (.endConnCmd (.terminalRecord h)))
      · exact .terminalRecord h
  · dsimp only
    split
    · exact .endLandingRecv (.terminalRecord h)
    · exact .terminalRecord h
  · exact .terminalRecord h

theorem State.Canonical.resolve {s : State} {f fid act} (h : s.Canonical) (hf : ∀ y0 y1, y0.Canonical → (act y0 y1).Canonical) :
    (resolve s f fid act).Canonical := by
  unfold Machine.resolve
  split
  · exact .ite h (hf _ _ h)
  · exact h

theorem State.Canonical.thawTrap {s : State} {k} (h : s.Canonical) : (thawTrap s k).Canonical := by
  unfold Machine.thawTrap
  dsimp only
  split
  · exact h
  · exact .ite (.setHart h) (.getD (.enterTrap (.setHart h)) (.setHart (.setHart h)))

theorem State.Canonical.thawHart {s : State} {k} (h : s.Canonical) : (thawHart s k).Canonical := .ite (.ite (.setHart h) (.thawTrap h)) h

theorem State.Canonical.takeThawed {s : State} {k} (h : s.Canonical) : (takeThawed s k).Canonical := .ite (.thawTrap h) h

theorem State.Canonical.thawQueue {s : State} {core q} (h : s.Canonical) : (thawQueue s core q).Canonical := .ite (.kickCopy (.setCore h)) h

theorem State.Canonical.killOccupant {s : State} {k} (h : s.Canonical) : (killOccupant s k).Canonical := by
  unfold Machine.killOccupant
  split
  · exact .endThread h
  · exact .killThread h
  · exact .killThread h
  · exact .killActivation h
  · exact .endLanding (.setHart h)
  · exact .endTask h
  · exact h

theorem State.Canonical.killFrozen {s : State} {k} (h : s.Canonical) : (killFrozen s k).Canonical := .ite (.killOccupant h) h

theorem State.Canonical.killQueue {s : State} {core q} (h : s.Canonical) : (killQueue s core q).Canonical :=
  .ite (.kickCopy (.drainFront (.foldl (.setCore h) fun _ _ h1 => .ite (.tokenPut h1) (.completeCmd (.pureCopyDone h1))))) h

theorem State.Canonical.watchdogOut {s : State} {k} (h : s.Canonical) : (watchdogOut s k).Canonical :=
  .ite (.ite (.endTask h) (.setHart h)) h

theorem State.Canonical.watchdogEnd {s : State} {k} (h : s.Canonical) : (watchdogEnd s k).Canonical := .ite (.killOccupant (.addRecord h)) h

/-! ### Along the functions of Sys2Proof/Machine/Slices.lean -/

theorem State.Canonical.stopThread {s : State} {k} (h : s.Canonical) : (stopThread s k).Canonical := .endWindows (.setHart (.performOwn h))

theorem State.Canonical.saveImage {s : State} {k pa i byPark} (h : s.Canonical) : (saveImage s k pa i byPark).Canonical :=
  .setHart (.setDep (.saveWrite h))

theorem State.Canonical.saveThread {s : State} {k} (h : s.Canonical) : (saveThread s k).Canonical := by
  unfold Machine.saveThread
  split
  · exact .saveImage (.stopThread h)
  · exact h

theorem State.Canonical.saveThreads {s : State} {p} (h : s.Canonical) : (saveThreads s p).Canonical :=
  .foldl h fun _ _ h1 => .ite (.saveThread h1) h1

theorem State.Canonical.beginSlice {s : State} {p} (h : s.Canonical) : (beginSlice s p).Canonical := .ite (.saveThreads (.setPart h)) h

theorem State.Canonical.endFrozen {s : State} {k} (h : s.Canonical) : (endFrozen s k).Canonical := by
  unfold Machine.endFrozen
  dsimp only
  split
  · split
    · exact .ite (.killActivation h) (.rollBack h)
    · exact .killOccupant h
  · exact h

theorem State.Canonical.saveQueueState {s : State} {core area} (h : s.Canonical) : (saveQueueState s core area).Canonical :=
  .foldl (.foldl (.foldl h fun _ _ h1 => .saveWords h1) fun _ _ h2 => .saveWords h2) fun _ _ h3 => .saveWords h3

theorem State.Canonical.saveStores {s : State} {core area} (h : s.Canonical) : (saveStores s core area).Canonical :=
  .of_ms (.foldl (State.Canonical.saveWrite (.saveWrite (.saveWrite h))) fun _ _ h1 => .putPoison h1)

theorem State.Canonical.dropPending {s : State} {c} (h : s.Canonical) : (dropPending s c).Canonical := .ite (.dropEntry h) h

theorem State.Canonical.holdLandings {s : State} {core} (h : s.Canonical) : (holdLandings s core).Canonical := h

theorem State.Canonical.saveOneCore {s : State} {p k core} (h : s.Canonical) : (saveOneCore s p k core).Canonical :=
  .foldl (.setCore (.frame (.holdLandings (.foldl (.saveStores (.saveQueueState (.foldl h fun _ _ h1 => .saveWords h1))) fun _ _ h2 =>
    .dropPending h2)))) fun _ _ h3 => .ite (.setHart h3) h3

theorem State.Canonical.saveReceives {s : State} {p} (h : s.Canonical) : (saveReceives s p).Canonical := .saveWords h

theorem State.Canonical.saveRecord {p} {s : State} {r} (h : s.Canonical) : (saveRecord p s r).Canonical := by
  unfold Machine.saveRecord
  refine .frame ?_
  split
  next e1 =>
    have h1 := Has.of_eq e1 (.placeRecordIn h)
    exact h1
  · exact h

theorem State.Canonical.saveRecords {s : State} {p} (h : s.Canonical) : (saveRecords s p).Canonical := .foldl h fun _ _ h1 => .saveRecord h1

theorem State.Canonical.endSlice {s : State} {p} (h : s.Canonical) : (endSlice s p).Canonical :=
  .ite (.foldl (.setPart (.saveReceives (.saveRecords (.foldl (.foldl h fun _ _ h1 => .endFrozen h1) fun _ _ h2 =>
    .saveOneCore h2)))) fun _ _ h3 => .refill h3) h

theorem State.Canonical.beginRestore {s : State} {p} (h : s.Canonical) : (beginRestore s p).Canonical := .ite (.setPart h) h

theorem State.Canonical.loadStores {s : State} {core area} (h : s.Canonical) : (loadStores s core area).Canonical :=
  .of_ms (.foldl (.setAcc (.setAcc h)) fun _ _ h1 => .ite (.write h1.mem (Memory.wf_writeBytes _ _ _ h1.stash) h1.wbuf) (.write h1.mem
    (Memory.wf_writeBytes _ _ _ h1.stash) h1.wbuf))

theorem State.Canonical.loadReceives {s : State} {p} (h : s.Canonical) : (loadReceives s p).Canonical := h

theorem State.Canonical.loadDep {core area} {s : State} {i} (h : s.Canonical) :
    (loadDep core area s i).Canonical := by
  unfold Machine.loadDep
  dsimp only
  split
  · exact .ite (.setDep h) h
  · exact h

theorem State.Canonical.freeImage {s : State} {pa} (h : s.Canonical) : (freeImage s pa).Canonical := h

theorem State.Canonical.restoreSlot {s : State} {area core e} (h : s.Canonical) :
    (restoreSlot s area core e).Canonical := by
  unfold Machine.restoreSlot
  dsimp only
  split
  · exact .takeThawed (.acquireBack (.setHart (.freeImage h)))
  · exact .setHart h

theorem State.Canonical.wakeCore {s : State} {core} (h : s.Canonical) : (wakeCore s core).Canonical :=
  .kickLanding (.kickReturned (.kickDispatch (.foldl (.kickMhead h) fun _ _ h1 => .kickCopy h1)))

theorem State.Canonical.restoreCore {s : State} {p k core} (h : s.Canonical) :
    (restoreCore s p k core).Canonical := by
  unfold Machine.restoreCore
  split
  · exact .loadRoutes h
  · exact .loadRoutes (.frame (.setCore (.foldl (.foldl (.loadStores h) fun _ _ h1 => .restoreSlot h1) fun _ _ h2 => .loadDep h2)))

theorem State.Canonical.restoreRecords {s : State} {p} (h : s.Canonical) : (restoreRecords s p).Canonical :=
  .foldl h fun _ _ h1 => .acceptRecord h1

theorem State.Canonical.endRestore {s : State} {p} (h : s.Canonical) : (endRestore s p).Canonical :=
  .ite (.kickStarts (.foldl (.restoreRecords (.resumeLandings (.loadReceives (.foldl (.setPart (.foldl h fun _ _ h1 =>
    .restoreCore h1)) fun _ _ h2 => .wakeCore h2)))) fun _ _ h3 => .refill h3)) h

theorem State.Canonical.dropLaunches {s : State} {p} (h : s.Canonical) : (dropLaunches s p).Canonical :=
  .frame (.foldl h fun _ _ h1 => .unarm h1)

theorem State.Canonical.dropPins {s : State} {p} (h : s.Canonical) : (dropPins s p).Canonical := h

theorem State.Canonical.dropImages {s : State} {p} (h : s.Canonical) : (dropImages s p).Canonical := h

theorem State.Canonical.tearDown {s : State} {p} (h : s.Canonical) : (tearDown s p).Canonical :=
  .ite (.setPart (.frame (.dropPins (.dropLaunches (.dropImages (.dropLandings h)))))) h

theorem State.Canonical.writeInterval {s : State} {p base len} (h : s.Canonical) : (writeInterval s p base len).Canonical :=
  .ite (.ite (.frame (.setPart h)) (.setPart h)) h

theorem State.Canonical.partCommand {s : State} {p cmd} (h : s.Canonical) : (partCommand s p cmd).Canonical := by
  unfold Machine.partCommand
  split
  · exact .ite h (.fly h)
  · exact .ite h (.fly h)
  · exact .ite h (.fly h)
  · exact h

theorem State.Canonical.writePart {s : State} {w p k v} (h : s.Canonical) : (writePart s w p k v).Canonical := by
  unfold Machine.writePart
  split
  · exact h
  · split
    · exact .partCommand (.writeInterval h)
    · exact .setPart h
    · exact .setPart h
    · exact .setPart h
    · exact .setPart h
    · exact h

theorem State.Canonical.tbuPass {s : State} (h : s.Canonical) : (tbuPass s).Canonical := .foldl h fun _ _ h1 => .ite (.fly h1) h1

theorem State.Canonical.endBudget {s : State} {l} (h : s.Canonical) : (endBudget s l).Canonical := by
  unfold Machine.endBudget
  split
  · exact .ite (.killLaunch h) h
  · exact h

theorem State.Canonical.newWindow {s : State} {p} (h : s.Canonical) : (newWindow s p).Canonical := .setPart h

/-! ### Along the functions of Sys2Proof/Machine/HostPort.lean -/

theorem State.Canonical.writeRoles {s : State} {g v} (h : s.Canonical) : (writeRoles s g v).Canonical :=
  .kickLanding (.kickDispatch (.kickStarts (.foldl (.setCore h) fun _ _ h1 => .ite (.settleRole h1) h1)))

theorem State.Canonical.writeHandler {s : State} {w g c hi v} (h : s.Canonical) : (writeHandler s w g c hi v).Canonical :=
  .ite h (.kickReturned (.kickDispatch (.ite (.setCore h) (.ite h (.setCore h)))))

theorem State.Canonical.writeSoft {s : State} {g i v} (h : s.Canonical) : (writeSoft s g i v).Canonical := .setCore h

theorem MemSys.Canonical.freshFrame {ms : MemSys} {f} (h : ms.Canonical) : (freshFrame ms f).Canonical :=
  .write (Memory.wf_zeroRange _ _ _ h.mem) h.stash h.wbuf

theorem State.Canonical.writeClass {s : State} {w f v} (h : s.Canonical) : (writeClass s w f v).Canonical :=
  .ite h (.ite h (.ite (.of_ms (.frame (.freshFrame h))) h))

theorem State.Canonical.writeYarrow {s : State} {p k v} (h : s.Canonical) : (writeYarrow s p k v).Canonical := h

theorem State.Canonical.writeTenant {s : State} {p hi v} (h : s.Canonical) : (writeTenant s p hi v).Canonical := h

theorem State.Canonical.writeVf {s : State} {f v} (h : s.Canonical) : (writeVf s f v).Canonical := h

theorem State.Canonical.writeWindowReg {s : State} {w va v} (h : s.Canonical) :
    (writeWindowReg s w va v).Canonical := by
  unfold Machine.writeWindowReg
  split
  · exact h
  · split
    · exact .ite (.setCore h) h
    · exact .ite (.ite (.writeYarrow h) h) (.ite (.writeTenant h) (.ite (.writeVf h) h))
    · exact h

theorem State.Canonical.returnStart {s : State} {f reason} (h : s.Canonical) :
    (returnStart s f reason).Canonical := h

theorem State.Canonical.startDirect {s : State} {f g pc p q} (h : s.Canonical) :
    (startDirect s f g pc p q).Canonical := by
  unfold Machine.startDirect
  split
  · exact h
  · split
    · exact .returnStart h
    · split
      · exact .returnStart h
      · split
        · exact .returnStart h
        · exact .directThread h

theorem Gives.headerPlace {s : State} {p core c va} (h : s.Canonical) :
    Gives (fun r => r.2.Canonical) (headerPlace s p core c va) := by
  unfold Machine.headerPlace
  split
  · exact .homeReach h
  · exact .ite (.engReach h) trivial
  · exact .engReachFor h

theorem State.Canonical.readHeader {s : State} {p core c va} (h : s.Canonical) :
    (readHeader s p core c va).2.Canonical := by
  unfold Machine.readHeader
  split
  · exact h
  · split
    · exact h
    next e1 =>
      have h1 := Gives.of_eq e1 (.headerPlace h)
      split
      next e2 =>
        have h2 := State.Canonical.of_snd e2 (.engLine h1)
        exact h2

theorem State.Canonical.copyHeader {s : State} {r p c va} (h : s.Canonical) :
    (copyHeader s r p c va).2.Canonical := by
  unfold Machine.copyHeader
  dsimp only
  split
  next e1 =>
    have h1 := State.Canonical.of_snd e1 (.readHeader h)
    exact h1
  next e1 =>
    have h1 := State.Canonical.of_snd e1 (.readHeader h)
    split
    · split
      next e2 =>
        have h2 := State.Canonical.of_snd e2 (.readHeader h1)
        exact h2
      next e2 =>
        have h2 := State.Canonical.of_snd e2 (.readHeader h1)
        exact h2
    · exact h1

theorem State.Canonical.submit {s : State} {f hdr base arg compl} (h : s.Canonical) :
    (submit s f hdr base arg compl).Canonical := by
  unfold Machine.submit
  split
  · exact h
  · refine .acceptRecord ?_
    refine .frame ?_
    split
    next e1 =>
      have h1 := State.Canonical.of_snd e1 (.readHeader h)
      exact h1
    next e1 =>
      have h1 := State.Canonical.of_snd e1 (.readHeader h)
      split
      · split
        next e2 =>
          have h2 := State.Canonical.of_snd e2 (.readHeader h1)
          exact h2
        next e2 =>
          have h2 := State.Canonical.of_snd e2 (.readHeader h1)
          exact h2
      · exact h1

theorem State.Canonical.freezeVf {s : State} {f addr} (h : s.Canonical) : (freezeVf s f addr).Canonical := .addFreezeRecord h

theorem State.Canonical.enableRing {s : State} {f ring v} (h : s.Canonical) : (enableRing s f ring v).Canonical :=
  .ite h (.ite (.setRing h) (.ite h (.freezeVf (.setRing h))))

theorem State.Canonical.writeRd {s : State} {f ring v} (h : s.Canonical) : (writeRd s f ring v).Canonical := .ite h (.setRing h)

theorem State.Canonical.writeRingReg {s : State} {f ring k v} (h : s.Canonical) :
    (writeRingReg s f ring k v).Canonical := by
  unfold Machine.writeRingReg
  split
  · exact .ite h (.setRing h)
  · exact .ite (.enableRing h) (.setRing h)
  · exact .writeRd h
  · exact h

theorem State.Canonical.thawVfs {s : State} {mask} (h : s.Canonical) : (thawVfs s mask).Canonical := .ite h h

theorem State.Canonical.killVfs {s : State} {mask} (h : s.Canonical) : (killVfs s mask).Canonical := .ite h h

theorem State.Canonical.writeFeat {s : State} {k v} (h : s.Canonical) : (writeFeat s k v).Canonical := .ite h h

theorem State.Canonical.writeNode {s : State} {v} (h : s.Canonical) : (writeNode s v).Canonical := .ite h h

theorem State.Canonical.writeNonce {s : State} {n} (h : s.Canonical) : (writeNonce s n).Canonical := .ite h (.fly h)

theorem State.Canonical.writeNonceWord {s : State} {k v} (h : s.Canonical) : (writeNonceWord s k v).Canonical := .ite (.fly h) h

theorem State.Canonical.writeMgmt {s : State} {off v} (h : s.Canonical) : (writeMgmt s off v).Canonical := by
  unfold Machine.writeMgmt
  split
  · exact h
  · split
    · exact h
    · split
      · exact h
      · split
        · exact h
        · split
          · exact .writeNode h
          · split
            · exact .writeFeat h
            · split
              · dsimp only
                split
                · exact .fly h
                · exact .fly h
                · exact .fly h
                · exact .fly h
                · exact h
              · exact .ite (.writeNonceWord h) h

theorem State.Canonical.writeBar {s : State} {f off v} (h : s.Canonical) : (writeBar s f off v).Canonical :=
  .ite (.writeRingReg h) (.ite (.writeRingReg h) (.ite h (.ite (.thawVfs h) (.ite (.killVfs h) (.ite (.writeMgmt h) h)))))

theorem State.Canonical.writeRegister {s : State} {port off v} (h : s.Canonical) :
    (writeRegister s port off v).Canonical := by
  unfold Machine.writeRegister
  split
  · exact .writeWindowReg h
  · exact .ite h (.writeBar h)
  · exact .writeMgmt h

theorem State.Canonical.reset : State.reset.Canonical := ⟨rfl, rfl, rfl⟩

theorem State.Canonical.bootUp {s : State} {fail node} : (bootUp s fail node).Canonical := .frame .reset

theorem State.Canonical.measure {s : State} (h : s.Canonical) : (measure s).Canonical := h

theorem State.Canonical.refillPools {s : State} {ext} (h : s.Canonical) : (refillPools s ext).Canonical :=
  .ite (.measure h) (.ite (.measure h) (.foldl (.frame (.measure h)) fun _ _ h1 => .kickLeave h1))

theorem State.Canonical.throttleOn {s : State} (h : s.Canonical) : (throttleOn s).Canonical := h

theorem State.Canonical.throttleOff {s : State} (h : s.Canonical) : (throttleOff s).Canonical := h

theorem State.Canonical.i3cWrite {s : State} {off v} (h : s.Canonical) : (i3cWrite s off v).Canonical := by
  unfold Machine.i3cWrite
  split
  · exact .writeMgmt h
  · exact h

theorem State.Canonical.i3cRead {s : State} (h : s.Canonical) : (i3cRead s).Canonical := h

theorem State.Canonical.i3cCap {s : State} {group cap} (h : s.Canonical) : (i3cCap s group cap).Canonical := .ite h h

theorem State.Canonical.mismatch {s : State} {k} (h : s.Canonical) : (mismatch s k).Canonical :=
  .ite (.setCluster (.setCluster (.addRecord h))) h

theorem State.Canonical.rotateSigs {s : State} (h : s.Canonical) : (rotateSigs s).Canonical := h

/-! ### Along the functions of Sys2Proof/Machine/Alu.lean -/

theorem Reaches.aluRR {d a b f} {s : State} (h : s.Canonical) : Reaches (aluRR d a b f s) :=
  .finish h (.bind .needX fun _ _ => .bind .needX fun _ _ => .bind .freeX fun _ _ => .of_ok (.step4 h))

theorem Reaches.aluR {d a f} {s : State} (h : s.Canonical) : Reaches (aluR d a f s) :=
  .finish h (.bind .needX fun _ _ => .bind .freeX fun _ _ => .of_ok (.step4 h))

theorem Reaches.aluPc {d f} {s : State} (h : s.Canonical) : Reaches (aluPc d f s) := .finish h (.bind .freeX fun _ _ => .of_ok (.step4 h))

theorem Reaches.execAdd {d a b} {s : State} (h : s.Canonical) : Reaches (execAdd d a b s) := .aluRR h

theorem Reaches.execSub {d a b} {s : State} (h : s.Canonical) : Reaches (execSub d a b s) := .aluRR h

theorem Reaches.execMin {d a b} {s : State} (h : s.Canonical) : Reaches (execMin d a b s) := .aluRR h

theorem Reaches.execMax {d a b} {s : State} (h : s.Canonical) : Reaches (execMax d a b s) := .aluRR h

theorem Reaches.execMinu {d a b} {s : State} (h : s.Canonical) : Reaches (execMinu d a b s) := .aluRR h

theorem Reaches.execMaxu {d a b} {s : State} (h : s.Canonical) : Reaches (execMaxu d a b s) := .aluRR h

theorem Reaches.execSlt {d a b} {s : State} (h : s.Canonical) : Reaches (execSlt d a b s) := .aluRR h

theorem Reaches.execSltu {d a b} {s : State} (h : s.Canonical) : Reaches (execSltu d a b s) := .aluRR h

theorem Reaches.execAnd {d a b} {s : State} (h : s.Canonical) : Reaches (execAnd d a b s) := .aluRR h

theorem Reaches.execOr {d a b} {s : State} (h : s.Canonical) : Reaches (execOr d a b s) := .aluRR h

theorem Reaches.execXor {d a b} {s : State} (h : s.Canonical) : Reaches (execXor d a b s) := .aluRR h

theorem Reaches.execAndn {d a b} {s : State} (h : s.Canonical) : Reaches (execAndn d a b s) := .aluRR h

theorem Reaches.execOrn {d a b} {s : State} (h : s.Canonical) : Reaches (execOrn d a b s) := .aluRR h

theorem Reaches.execXnor {d a b} {s : State} (h : s.Canonical) : Reaches (execXnor d a b s) := .aluRR h

theorem Reaches.execSll {d a b} {s : State} (h : s.Canonical) : Reaches (execSll d a b s) := .aluRR h

theorem Reaches.execSrl {d a b} {s : State} (h : s.Canonical) : Reaches (execSrl d a b s) := .aluRR h

theorem Reaches.execSra {d a b} {s : State} (h : s.Canonical) : Reaches (execSra d a b s) := .aluRR h

theorem Reaches.execRol {d a b} {s : State} (h : s.Canonical) : Reaches (execRol d a b s) := .aluRR h

theorem Reaches.execRor {d a b} {s : State} (h : s.Canonical) : Reaches (execRor d a b s) := .aluRR h

theorem Reaches.execMul {d a b} {s : State} (h : s.Canonical) : Reaches (execMul d a b s) := .aluRR h

theorem Reaches.execMulh {d a b} {s : State} (h : s.Canonical) : Reaches (execMulh d a b s) := .aluRR h

theorem Reaches.execMulhu {d a b} {s : State} (h : s.Canonical) : Reaches (execMulhu d a b s) := .aluRR h

theorem Reaches.execDiv {d a b} {s : State} (h : s.Canonical) : Reaches (execDiv d a b s) := .aluRR h

theorem Reaches.execDivu {d a b} {s : State} (h : s.Canonical) : Reaches (execDivu d a b s) := .aluRR h

theorem Reaches.execRem {d a b} {s : State} (h : s.Canonical) : Reaches (execRem d a b s) := .aluRR h

theorem Reaches.execRemu {d a b} {s : State} (h : s.Canonical) : Reaches (execRemu d a b s) := .aluRR h

theorem Reaches.execBext {d a b} {s : State} (h : s.Canonical) : Reaches (execBext d a b s) := .aluRR h

theorem Reaches.execBins {d a b} {s : State} (h : s.Canonical) : Reaches (execBins d a b s) :=
  .finish h (.bind .needX fun _ _ => .bind .needX fun _ _ => .bind .needX fun _ _ => .bind .freeX fun _ _ => .of_ok (.step4 h))

theorem Reaches.execClz {d a} {s : State} (h : s.Canonical) : Reaches (execClz d a s) := .aluR h

theorem Reaches.execCtz {d a} {s : State} (h : s.Canonical) : Reaches (execCtz d a s) := .aluR h

theorem Reaches.execPopc {d a} {s : State} (h : s.Canonical) : Reaches (execPopc d a s) := .aluR h

theorem Reaches.execBrev {d a} {s : State} (h : s.Canonical) : Reaches (execBrev d a s) := .aluR h

theorem Reaches.execAddi {d a i} {s : State} (h : s.Canonical) : Reaches (execAddi d a i s) := .aluR h

theorem Reaches.execAndi {d a i} {s : State} (h : s.Canonical) : Reaches (execAndi d a i s) := .aluR h

theorem Reaches.execOri {d a i} {s : State} (h : s.Canonical) : Reaches (execOri d a i s) := .aluR h

theorem Reaches.execXori {d a i} {s : State} (h : s.Canonical) : Reaches (execXori d a i s) := .aluR h

theorem Reaches.execSlli {d a i} {s : State} (h : s.Canonical) : Reaches (execSlli d a i s) := .aluR h

theorem Reaches.execSrli {d a i} {s : State} (h : s.Canonical) : Reaches (execSrli d a i s) := .aluR h

theorem Reaches.execSrai {d a i} {s : State} (h : s.Canonical) : Reaches (execSrai d a i s) := .aluR h

theorem Reaches.execSlti {d a i} {s : State} (h : s.Canonical) : Reaches (execSlti d a i s) := .aluR h

theorem Reaches.execLih {d i} {s : State} (h : s.Canonical) : Reaches (execLih d i s) := .aluPc h

theorem Reaches.execLpc {d i} {s : State} (h : s.Canonical) : Reaches (execLpc d i s) := .aluPc h

/-! ### Along the functions of Sys2Proof/Machine/Control.lean -/

theorem Reaches.branchOn {a b o f} {s : State} (h : s.Canonical) : Reaches (branchOn a b o f s) :=
  .finish h (.bind .needX fun _ _ => .bind .needX fun _ _ => .of_ok (.setMe h))

theorem Reaches.execBeq {a b o} {s : State} (h : s.Canonical) : Reaches (execBeq a b o s) := .branchOn h

theorem Reaches.execBne {a b o} {s : State} (h : s.Canonical) : Reaches (execBne a b o s) := .branchOn h

theorem Reaches.execBlt {a b o} {s : State} (h : s.Canonical) : Reaches (execBlt a b o s) := .branchOn h

theorem Reaches.execBge {a b o} {s : State} (h : s.Canonical) : Reaches (execBge a b o s) := .branchOn h

theorem Reaches.execBltu {a b o} {s : State} (h : s.Canonical) : Reaches (execBltu a b o s) := .branchOn h

theorem Reaches.execBgeu {a b o} {s : State} (h : s.Canonical) : Reaches (execBgeu a b o s) := .branchOn h

theorem Reaches.execBrdy {a o} {s : State} (h : s.Canonical) : Reaches (execBrdy a o s) :=
  .finish h (.bind .noPure fun _ _ => .of_ok (.setMe h))

theorem Reaches.execBnrdy {a o} {s : State} (h : s.Canonical) : Reaches (execBnrdy a o s) :=
  .finish h (.bind .noPure fun _ _ => .of_ok (.setMe h))

theorem Reaches.execJl {d i} {s : State} (h : s.Canonical) : Reaches (execJl d i s) := .finish h (.bind .freeX fun _ _ => .of_ok (.setMe h))

theorem Reaches.execJlr {d a i} {s : State} (h : s.Canonical) : Reaches (execJlr d a i s) :=
  .finish h (.bind .needX fun _ _ => .bind .freeX fun _ _ => .of_ok (.setMe h))

/-! ### Along the functions of Sys2Proof/Machine/LoadStore.lean -/

theorem State.Canonical.loadValue {s : State} {d v l2} (h : s.Canonical) : (loadValue s d v l2).Canonical := .startLoad (.setMe h)

theorem Yields.loadPlace {s : State} {d va rep p n ext} (h : s.Canonical) :
    Yields State.Canonical (loadPlace s d va rep p n ext) := by
  unfold Machine.loadPlace
  refine .bind (.check trivial) fun _ _ => ?_
  split
  · exact .bind trivial fun _ h1 => .of_ok (.loadValue (.setMe h1))
  · exact .bind (.readPlace h) fun _ h1 => .of_ok (.loadValue (.setMe h1))

theorem Reaches.loadOp {d a i n ext} {s : State} (h : s.Canonical) : Reaches (loadOp d a i n ext s) :=
  .finish h (.bind .needX fun _ _ => .bind .needPureRead fun _ _ => .bind .freeX fun _ _ => .ite (.bind .windowLoad fun _ _ =>
    .of_ok (.loadValue h)) (.bind (.check trivial) fun _ _ => .bind (.check trivial) fun _ _ => .bind (.reach h) fun ⟨_, _⟩ h1 =>
      .loadPlace h1))

theorem Reaches.execLdB {d a i} {s : State} (h : s.Canonical) : Reaches (execLdB d a i s) := .loadOp h

theorem Reaches.execLdH {d a i} {s : State} (h : s.Canonical) : Reaches (execLdH d a i s) := .loadOp h

theorem Reaches.execLdW {d a i} {s : State} (h : s.Canonical) : Reaches (execLdW d a i s) := .loadOp h

theorem Reaches.execLdD {d a i} {s : State} (h : s.Canonical) : Reaches (execLdD d a i s) := .loadOp h

theorem Reaches.execLduB {d a i} {s : State} (h : s.Canonical) : Reaches (execLduB d a i s) := .loadOp h

theorem Reaches.execLduH {d a i} {s : State} (h : s.Canonical) : Reaches (execLduH d a i s) := .loadOp h

theorem Reaches.execLduW {d a i} {s : State} (h : s.Canonical) : Reaches (execLduW d a i s) := .loadOp h

theorem Yields.tileOf {s : State} {ea acc} : Yields (fun _ => True) (tileOf s ea acc) := by
  unfold Machine.tileOf
  split
  · exact .ite trivial trivial
  · exact .bind .needWindow fun _ _ => trivial

theorem Reaches.execLdT {d a i} {s : State} (h : s.Canonical) : Reaches (execLdT d a i s) :=
  .finish h (.bind .needX fun _ _ => .bind .noPure fun _ _ => .bind .freeX fun _ _ => .bind .tileOf fun _ _ =>
    .bind (.check trivial) fun _ _ => .bind (.reachStash h) fun ⟨_, _⟩ h1 => .loadPlace h1)

theorem Yields.needStoreAddr {ea n} : Yields (fun _ => True) (needStoreAddr ea n) := .bind (.check trivial) fun _ _ => .check trivial

theorem Reaches.storeOp {a b i n} {s : State} (h : s.Canonical) : Reaches (storeOp a b i n s) :=
  .finish h (.bind .needX fun _ _ => .bind .needX fun _ _ => .bind .needPureWrite fun _ _ => .ite (.bind .needWindowStore fun _ _ =>
    .bind (.storeMem h) fun _ h1 => .of_ok (.step4 h1)) (.bind .needStoreAddr fun _ _ => .bind (.storeMem h) fun _ h2 =>
      .of_ok (.step4 h2)))

theorem Reaches.execStB {a b i} {s : State} (h : s.Canonical) : Reaches (execStB a b i s) := .storeOp h

theorem Reaches.execStH {a b i} {s : State} (h : s.Canonical) : Reaches (execStH a b i s) := .storeOp h

theorem Reaches.execStW {a b i} {s : State} (h : s.Canonical) : Reaches (execStW a b i s) := .storeOp h

theorem Reaches.execStD {a b i} {s : State} (h : s.Canonical) : Reaches (execStD a b i s) := .storeOp h

theorem Reaches.execStT {a b i} {s : State} (h : s.Canonical) : Reaches (execStT a b i s) :=
  .finish h (.bind .needX fun _ _ => .bind .needX fun _ _ => .bind .noPure fun _ _ => .bind .tileOf fun _ _ =>
    .bind (.storeMem h) fun _ h1 => .of_ok (.step4 h1))

/-! ### Along the functions of Sys2Proof/Machine/Order.lean -/

theorem Yields.needSyncOrder {s : State} : Yields (fun _ => True) (needSyncOrder s) := .bind (.check trivial) fun _ _ => .check trivial

theorem Yields.needAcquire {s : State} : Yields (fun _ => True) (needAcquire s) := .bind .needSyncOrder fun _ _ => .check trivial

theorem State.Canonical.acquirePlace {s : State} {p} (h : s.Canonical) : (acquirePlace s p).Canonical := by
  unfold Machine.acquirePlace
  split
  · exact .applySig h
  · exact h

theorem Yields.needPerformed {s : State} {p n} : Yields (fun _ => True) (needPerformed s p n) := by
  unfold Machine.needPerformed
  refine .bind (.check trivial) fun _ _ => ?_
  split
  · exact trivial
  · exact .check trivial

theorem Yields.needAddr {ea n acc} : Yields (fun _ => True) (needAddr ea n acc) :=
  .bind .noWindow fun _ _ => .bind (.check trivial) fun _ _ => .check trivial

theorem Reaches.execLdAq {d a} {s : State} (h : s.Canonical) : Reaches (execLdAq d a s) :=
  .finish h (.bind .needX fun _ _ => .bind .needPureRead fun _ _ => .bind .freeX fun _ _ => .bind .needAddr fun _ _ =>
    .bind (.check trivial) fun _ _ => .bind .needAcquire fun _ _ => .bind (.reach h) fun ⟨_, _⟩ h1 => .bind (.check trivial) fun _ _ =>
      .bind (.readHome h1) fun _ h2 => .of_ok (.loadValue (.acquirePlace h2)))

theorem Yields.releaseOut {va bs} {s : State} (h : s.Canonical) : Yields State.Canonical (releaseOut va bs s) :=
  .bind .needReleased fun _ _ => .releaseStore h

theorem Reaches.execStRl {a b} {s : State} (h : s.Canonical) : Reaches (execStRl a b s) := by
  unfold Machine.execStRl
  refine .finish h ?_
  refine .bind .needX fun _ _ => ?_
  refine .bind .needX fun _ _ => ?_
  refine .bind .needPureWrite fun _ _ => ?_
  refine .bind .noWindow fun _ _ => ?_
  refine .bind .needStoreAddr fun _ _ => ?_
  split
  · exact .bind (.storeMem h) fun _ h1 => .of_ok (.step4 h1)
  · exact .bind (.bufferOr h (fun _ h1 => .releaseOut h1)) fun _ h2 => .of_ok (.step4 h2)

theorem Reaches.ldtoOp {a b word} {s : State} (h : s.Canonical) : Reaches (ldtoOp a b word s) :=
  .finish h (.bind .needX fun _ _ => .bind .needX fun _ _ => .bind .noPure fun _ _ => .bind .needCount fun _ _ =>
    .bind .needRoute fun _ _ => .bind .needAddr fun _ _ => .bind (.check trivial) fun _ _ => .bind (.reach h) fun ⟨_, _⟩ _ =>
      .bind (.bufferOr h (fun _ h2 => .bind .needReply fun _ _ => .deliverLoad h2)) fun _ h3 => .of_ok (.step4 h3))

theorem Reaches.execLdto {a b} {s : State} (h : s.Canonical) : Reaches (execLdto a b s) := .ldtoOp h

theorem Reaches.execLdtoW {a b} {s : State} (h : s.Canonical) : Reaches (execLdtoW a b s) := .ldtoOp h

theorem State.Canonical.fenced {s : State} (h : s.Canonical) : (fenced s).Canonical := .step4 (.of_ms (.dropUnowned h))

theorem Reaches.execFence {s : State} (h : s.Canonical) : Reaches (execFence s) :=
  .finish h (.bind (.needUnrollable h) fun _ _ => .bind .needReleased fun _ _ => .of_ok (.fenced h))

theorem Reaches.execFenceE {s : State} (h : s.Canonical) : Reaches (execFenceE s) :=
  .finish h (.bind (.needUnrollable h) fun _ _ => .bind (.check trivial) fun _ _ => .bind .needReleased fun _ _ => .of_ok (.fenced h))

theorem Reaches.execIflush {s : State} (h : s.Canonical) : Reaches (execIflush s) :=
  .finish h (.bind .needStored fun _ _ => .bind .needDelivered fun _ _ => .of_ok (.step4 (.of_ms (.dropFetched h))))

theorem Yields.reachBarrier {s : State} {va acc} (h : s.Canonical) :
    Yields (fun r => r.2.2.Canonical) (reachBarrier s va acc) := by
  unfold Machine.reachBarrier
  refine .bind .needAddr fun _ _ => ?_
  refine .bind (.reach h) fun ⟨_, s1⟩ h1 => ?_
  split
  next e1 =>
    have h2 := State.Canonical.of_snd e1 h1
    split
    · exact h2
    · exact trivial

theorem Reaches.barrierOp {a n expect} {s : State} (h : s.Canonical) : Reaches (barrierOp a n expect s) :=
  .finish h (.bind .needX fun _ _ => .bind .needX fun _ _ => .bind .noPure fun _ _ => .bind (.reachBarrier h) fun ⟨_, _, _⟩ h1 =>
    .bind (.needUnrollable h) fun _ _ => .bind .needReleased fun _ _ => .bind .needCount fun _ _ => .of_ok (.step4 (.fly h1)))

theorem Reaches.execBarexp {a n} {s : State} (h : s.Canonical) : Reaches (execBarexp a n s) := .barrierOp h

theorem Reaches.execBararr {a n} {s : State} (h : s.Canonical) : Reaches (execBararr a n s) := .barrierOp h

theorem Reaches.execBarwait {d a n} {s : State} (h : s.Canonical) : Reaches (execBarwait d a n s) :=
  .finish h (.bind .needX fun _ _ => .bind .needX fun _ _ => .bind .noPure fun _ _ => .bind .freeX fun _ _ =>
    .bind (.reachBarrier h) fun ⟨_, _, _⟩ h1 => .bind (.needUnrollable h) fun _ _ => .bind .needAcquire fun _ _ =>
      .bind .needPerformed fun _ _ => .bind (.check trivial) fun _ _ => .of_ok (.step4 (.acquirePlace (.meetHome h1))))

/-! ### Along the functions of Sys2Proof/Machine/Atomics.lean -/

theorem Yields.amoWrite {s : State} {va p bs} (h : s.Canonical) : Yields State.Canonical (amoWrite s va p bs) := by
  unfold Machine.amoWrite
  split
  · exact .bind (.shadowPage h) fun _ h1 => .of_ok (.shadowWrite h1)
  · exact .of_ok (.signStore (.writePlaceHome h))

theorem State.Canonical.publishPlace {s : State} {p} (h : s.Canonical) : (publishPlace s p).Canonical := by
  unfold Machine.publishPlace
  split
  · exact .of_ms (.publish h)
  · exact h

theorem Yields.asAmo {r : Except Stop Got} (h : Yields (fun r => r.st.Canonical) r) :
    Yields (fun r => r.st.Canonical) (asAmo r) := by
  unfold Machine.asAmo
  split
  · trivial
  · exact h

theorem Yields.amoBody {d a n aq rl new} {s : State} (h : s.Canonical) :
    Yields State.Canonical (amoBody d a n aq rl new s) := by
  unfold Machine.amoBody
  refine .bind .noPure fun _ _ => .bind .freeX fun _ _ => .bind .needAddr fun _ _ => .bind (.check trivial) fun _ _ =>
    .bind (.reach h) fun ⟨_, s1⟩ hr => .bind (.check trivial) fun _ _ => .bind (.needUnrollable h) fun _ _ => ?_
  refine .ite (.bind .needReleased fun _ _ => ?_) (.bind .pass fun _ _ => ?_)
  all_goals
    refine .ite (.bind .needAcquire fun _ _ => ?_) (.bind .needSyncOrder fun _ _ => ?_)
  all_goals
    refine .bind (.needCollapsed hr) fun _ _ => .bind .needPerformed fun _ _ => .bind (.asAmo (.readHome hr)) fun g hg => ?_
    dsimp only
    split
    · refine .bind (.amoWrite hg) fun _ hw => .of_ok (.loadValue (.ite (.acquirePlace ?_) ?_))
      all_goals exact .ite (.noteSync (.ite (.publishPlace hw) hw)) (.ite (.publishPlace hw) hw)
    · refine .bind (Yields.of_ok (P := State.Canonical) hg) fun _ hw => .of_ok (.loadValue (.ite (.acquirePlace ?_) ?_))
      all_goals exact .ite (.noteSync (.ite (.publishPlace hw) hw)) (.ite (.publishPlace hw) hw)

theorem Reaches.amoOp {d a b n aq rl op} {s : State} (h : s.Canonical) : Reaches (amoOp d a b n aq rl op s) :=
  .finish h (.bind .needX fun _ _ => .bind .needX fun _ _ => .amoBody h)

theorem Reaches.amoCas {d a b n aq rl} {s : State} (h : s.Canonical) : Reaches (amoCas d a b n aq rl s) :=
  .finish h (.bind .needX fun _ _ => .bind .needX fun _ _ => .bind .needX fun _ _ => .amoBody h)

theorem Reaches.execAmoswapW {d a b q r} {s : State} (h : s.Canonical) : Reaches (execAmoswapW d a b q r s) :=
  .amoOp h

theorem Reaches.execAmoswapD {d a b q r} {s : State} (h : s.Canonical) : Reaches (execAmoswapD d a b q r s) :=
  .amoOp h

theorem Reaches.execAmoaddW {d a b q r} {s : State} (h : s.Canonical) : Reaches (execAmoaddW d a b q r s) := .amoOp h

theorem Reaches.execAmoaddD {d a b q r} {s : State} (h : s.Canonical) : Reaches (execAmoaddD d a b q r s) := .amoOp h

theorem Reaches.execAmoandW {d a b q r} {s : State} (h : s.Canonical) : Reaches (execAmoandW d a b q r s) := .amoOp h

theorem Reaches.execAmoandD {d a b q r} {s : State} (h : s.Canonical) : Reaches (execAmoandD d a b q r s) := .amoOp h

theorem Reaches.execAmoorW {d a b q r} {s : State} (h : s.Canonical) : Reaches (execAmoorW d a b q r s) := .amoOp h

theorem Reaches.execAmoorD {d a b q r} {s : State} (h : s.Canonical) : Reaches (execAmoorD d a b q r s) := .amoOp h

theorem Reaches.execAmoxorW {d a b q r} {s : State} (h : s.Canonical) : Reaches (execAmoxorW d a b q r s) := .amoOp h

theorem Reaches.execAmoxorD {d a b q r} {s : State} (h : s.Canonical) : Reaches (execAmoxorD d a b q r s) := .amoOp h

theorem Reaches.execAmominW {d a b q r} {s : State} (h : s.Canonical) : Reaches (execAmominW d a b q r s) := .amoOp h

theorem Reaches.execAmominD {d a b q r} {s : State} (h : s.Canonical) : Reaches (execAmominD d a b q r s) := .amoOp h

theorem Reaches.execAmomaxW {d a b q r} {s : State} (h : s.Canonical) : Reaches (execAmomaxW d a b q r s) := .amoOp h

theorem Reaches.execAmomaxD {d a b q r} {s : State} (h : s.Canonical) : Reaches (execAmomaxD d a b q r s) := .amoOp h

theorem Reaches.execAmominuW {d a b q r} {s : State} (h : s.Canonical) : Reaches (execAmominuW d a b q r s) :=
  .amoOp h

theorem Reaches.execAmominuD {d a b q r} {s : State} (h : s.Canonical) : Reaches (execAmominuD d a b q r s) :=
  .amoOp h

theorem Reaches.execAmomaxuW {d a b q r} {s : State} (h : s.Canonical) : Reaches (execAmomaxuW d a b q r s) :=
  .amoOp h

theorem Reaches.execAmomaxuD {d a b q r} {s : State} (h : s.Canonical) : Reaches (execAmomaxuD d a b q r s) :=
  .amoOp h

theorem Reaches.execAmocasW {d a b q r} {s : State} (h : s.Canonical) : Reaches (execAmocasW d a b q r s) := .amoCas h

theorem Reaches.execAmocasD {d a b q r} {s : State} (h : s.Canonical) : Reaches (execAmocasD d a b q r s) := .amoCas h

theorem Reaches.execAmofaddW {d a b q r} {s : State} (h : s.Canonical) : Reaches (execAmofaddW d a b q r s) :=
  .amoOp h

/-! ### Along the functions of Sys2Proof/Machine/Cache.lean -/

theorem Yields.needRange {va len acc} : Yields (fun _ => True) (needRange va len acc) :=
  .bind .noWindow fun _ _ => .bind (.check trivial) fun _ _ => .check trivial

theorem Yields.reachLine {s : State} {v acc} (h : s.Canonical) :
    Yields (fun r => r.2.Canonical) (reachLine s v acc) := by
  unfold Machine.reachLine
  split
  · exact trivial
  · exact .reach h

theorem Yields.overRange {a b acc f} {s : State} (h : ∀ y0 y1, y0.Canonical → (f y0 y1).Canonical) (hf : s.Canonical) :
    Yields State.Canonical (overRange a b acc f s) := by
  unfold Machine.overRange
  refine .bind .needRange fun _ _ => ?_
  refine .bind (.check trivial) fun _ _ => ?_
  refine .bind (P := State.Canonical) ?_ fun s1 h1 => ?_
  · refine .foldlM ?_ fun _ _ h2 => ?_
    · exact hf
    · exact .bind .noWindow fun _ _ => .bind (.reachLine h2) fun ⟨_, _⟩ h3 => h _ _ h3
  · exact .of_ok (.step4 h1)

theorem Reaches.cacheOp {i need a b acc f} {s : State} (h : ∀ y0 y1, y0.Canonical → (f y0 y1).Canonical) (hf : s.Canonical) :
    Reaches (cacheOp i need a b acc f s) :=
  .finish hf (.bind .needMode fun _ _ => .bind .needX fun _ _ => .bind .needX fun _ _ => .bind .noPure fun _ _ =>
    .overRange (fun _ _ h1 => h _ _ h1) hf)

theorem State.Canonical.writeBackDie {s : State} {d line} (h : s.Canonical) : (writeBackDie s d line).Canonical := by
  unfold Machine.writeBackDie
  dsimp only
  split
  · exact h
  · exact .ite (.of_ms (.putPoison h)) (.ite (.storeHome h) (.foldl h fun _ _ h1 => .storeHome h1))

theorem State.Canonical.giveUpWords {s : State} {sm line} (h : s.Canonical) : (giveUpWords s sm line).Canonical :=
  .of_ms (.frame (.foldl h fun _ _ h1 => .ite (.disown h1) h1))

theorem State.Canonical.rwbLine {s : State} {p} (h : s.Canonical) : (rwbLine s p).Canonical := by
  unfold Machine.rwbLine
  split
  · exact h
  · split
    · exact h
    · split
      · exact .writeBackDie (.giveUpWords h)
      · exact .giveUpWords h

theorem MemSys.Canonical.dropUnownedLine {ms : MemSys} {core key} (h : ms.Canonical) :
    (dropUnownedLine ms core key).Canonical := h

theorem MemSys.Canonical.dropDie {ms : MemSys} {d line} (h : ms.Canonical) : (dropDie ms d line).Canonical := by
  unfold Machine.dropDie
  dsimp only
  split
  · exact h
  · exact .ite (.frame (.clearPoison h)) h

theorem State.Canonical.rinvLine {s : State} {p} (h : s.Canonical) : (rinvLine s p).Canonical := by
  unfold Machine.rinvLine
  split
  · exact h
  · split
    · exact .of_ms (.dropDie h)
    · exact .ite h (.of_ms (.dropUnownedLine h))

theorem MemSys.Canonical.dropLine {ms : MemSys} {line} (h : ms.Canonical) : (dropLine ms line).Canonical := .frame (.collapse h)

theorem State.Canonical.discLine {s : State} {p} (h : s.Canonical) : (discLine s p).Canonical := by
  unfold Machine.discLine
  split
  · exact h
  · dsimp only
    split
    · exact .of_ms (.dropLine h)
    · exact .of_ms (.write (Memory.wf_writeBlock _ _ _ (MemSys.Canonical.mem (.ite (.markPoison (.dropLine h)) (.clearPoison
        (.dropLine h))))) (MemSys.Canonical.stash (.ite (.markPoison (.dropLine h)) (.clearPoison (.dropLine h)))) (MemSys.Canonical.wbuf
          (.ite (.markPoison (.dropLine h)) (.clearPoison (.dropLine h)))))

theorem State.Canonical.emptySet {s : State} {key} (h : s.Canonical) : (emptySet s key).Canonical :=
  .ite (State.Canonical.foldl h fun _ _ h1 => .ite (.of_ms (.dropDie (State.Canonical.writeBackDie h1))) h1) h

theorem State.Canonical.pinLine {s : State} {p} (h : s.Canonical) : (pinLine s p).Canonical := by
  unfold Machine.pinLine
  split
  · exact h
  · exact .ite h (.emptySet (.of_ms (.frame (.cacheInDie h))))

theorem State.Canonical.unpinLine {s : State} {p} (h : s.Canonical) : (unpinLine s p).Canonical := by
  unfold Machine.unpinLine
  split <;> exact h

theorem State.Canonical.prefLine {s : State} {va} (h : s.Canonical) : (prefLine s va).Canonical := by
  unfold Machine.prefLine
  split
  · exact h
  · split
    · exact h
    next e1 =>
      have h1 := Yields.of_eq e1 (.reach h)
      split
      · exact .touch h1
      · exact h

theorem Reaches.execRwb {a b} {s : State} (h : s.Canonical) : Reaches (execRwb a b s) := .cacheOp (fun _ _ h1 => .rwbLine h1) h

theorem Reaches.execRinv {a b} {s : State} (h : s.Canonical) : Reaches (execRinv a b s) := .cacheOp (fun _ _ h1 => .rinvLine h1) h

theorem Reaches.execDisc {a b} {s : State} (h : s.Canonical) : Reaches (execDisc a b s) := .cacheOp (fun _ _ h1 => .discLine h1) h

theorem Reaches.execPin {a b} {s : State} (h : s.Canonical) : Reaches (execPin a b s) := .cacheOp (fun _ _ h1 => .pinLine h1) h

theorem Reaches.execUnpin {a b} {s : State} (h : s.Canonical) : Reaches (execUnpin a b s) := .cacheOp (fun _ _ h1 => .unpinLine h1) h

theorem Reaches.execPref {a b} {s : State} (h : s.Canonical) : Reaches (execPref a b s) :=
  .finish h (.bind .needX fun _ _ => .bind .needX fun _ _ => .of_ok (.step4 (.foldl h fun _ _ h1 => .prefLine h1)))

/-! ### Along the functions of Sys2Proof/Machine/Remote.lean -/

theorem Yields.needPut {loc} {s : State} : Yields (fun _ => True) (needPut loc s) :=
  .bind .noPure fun _ _ => .bind .needCount fun _ _ => .bind .needRoute fun _ _ => .needInside

theorem Yields.putPlain {a wide val rl} {s : State} (h : s.Canonical) : Yields State.Canonical (putPlain a wide val rl s) :=
  .bind .needPut fun _ _ => .bind (.bufferOr h (fun _ h1 => .bind .needReply fun _ _ => .ite (.bind .needReleased fun _ _ =>
    .of_ok (.putOut h1)) (.bind .pass fun _ _ => .of_ok (.putOut h1)))) fun _ h2 => .of_ok (.step4 h2)

theorem Yields.putStatus {d a wide val rl} {s : State} (h : s.Canonical) : Yields State.Canonical (putStatus d a wide val rl s) :=
  .bind .freeX fun _ _ => .bind .needPut fun _ _ => .bind (.needUnrollable h) fun _ _ => .bind .needReply fun _ _ =>
    .ite (.bind .needReleased fun _ _ => .of_ok (.step4 (.putOut h))) (.bind .pass fun _ _ => .of_ok (.step4 (.putOut h)))

theorem Reaches.execRput {a b r} {s : State} (h : s.Canonical) : Reaches (execRput a b r s) :=
  .finish h (.bind .needX fun _ _ => .bind .needX fun _ _ => .putPlain h)

theorem Reaches.execRputS {d a b r} {s : State} (h : s.Canonical) : Reaches (execRputS d a b r s) :=
  .finish h (.bind .needX fun _ _ => .bind .needX fun _ _ => .putStatus h)

theorem Reaches.execRputv {a b r} {s : State} (h : s.Canonical) : Reaches (execRputv a b r s) :=
  .finish h (.bind .needX fun _ _ => .bind .needV fun _ _ => .putPlain h)

theorem Reaches.execRputvS {d a b r} {s : State} (h : s.Canonical) : Reaches (execRputvS d a b r s) :=
  .finish h (.bind .needX fun _ _ => .bind .needV fun _ _ => .putStatus h)

theorem Reaches.execArm {d} {s : State} (h : s.Canonical) : Reaches (execArm d s) := .finish h (.bind .noPure fun _ _ => .of_ok (.step4 h))

theorem Reaches.execArmv {d} {s : State} (h : s.Canonical) : Reaches (execArmv d s) :=
  .finish h (.bind .noPure fun _ _ => .of_ok (.step4 h))

theorem Yields.needEntry {s : State} {loc request} : Yields (fun _ => True) (needEntry s loc request) := .ite trivial (.ite trivial trivial)

theorem State.Canonical.claimEntry {s : State} {m request buffered} (h : s.Canonical) : (claimEntry s m request buffered).Canonical :=
  .frame (.setMe h)

theorem State.Canonical.sendNow {s : State} {m request} (h : s.Canonical) : (sendNow s m request).Canonical := .offerMsg (.claimEntry h)

theorem Yields.sendPlain {s : State} {m request} (h : s.Canonical) : Yields State.Canonical (sendPlain s m request) :=
  .ite (.of_ok (.setMe (.claimEntry h))) (.bind (.needUnrollable h) fun _ _ => .of_ok (.sendNow h))

theorem Yields.needSend {loc} {s : State} : Yields (fun _ => True) (needSend loc s) :=
  .bind .noPure fun _ _ => .bind .needRoute fun _ _ => .bind .needInside fun _ _ => .bind .needEntry fun _ _ => trivial

theorem Reaches.execMsend {a b c} {s : State} (h : s.Canonical) : Reaches (execMsend a b c s) :=
  .finish h (.bind .needWf fun _ _ => .bind .needX fun _ _ => .bind (.needXs h) fun _ _ => .bind .needSend fun _ _ =>
    .bind (.sendPlain h) fun _ h1 => .of_ok (.step4 h1))

theorem Reaches.execMsendS {d a b c} {s : State} (h : s.Canonical) : Reaches (execMsendS d a b c s) :=
  .finish h (.bind .needWf fun _ _ => .bind .needX fun _ _ => .bind (.needXs h) fun _ _ => .bind .freeX fun _ _ =>
    .bind .needSend fun _ _ => .bind (.needUnrollable h) fun _ _ => .of_ok (.step4 (.sendNow h)))

theorem Reaches.execCallat {d a b} {s : State} (h : s.Canonical) : Reaches (execCallat d a b s) :=
  .finish h (.bind .needX fun _ _ => .bind .needX fun _ _ => .bind (.needXs h) fun _ _ => .bind .freeX fun _ _ =>
    .bind .needSend fun _ _ => .ite (.bind (.sendPlain h) fun _ h1 => .of_ok (.step4 h1)) (.bind (.needUnrollable h) fun _ _ =>
      .of_ok (.step4 (.sendNow h))))

theorem State.Canonical.maskChannels {s : State} {core w masked} (h : s.Canonical) : (maskChannels s core w masked).Canonical :=
  .kickReturned (.kickDispatch (.setCore h))

theorem Reaches.execHmask {a} {s : State} (h : s.Canonical) : Reaches (execHmask a s) :=
  .finish h (.bind .needX fun _ _ => .bind .noPure fun _ _ => .of_ok (.step4 (.maskChannels h)))

theorem Reaches.execHunmask {a} {s : State} (h : s.Canonical) : Reaches (execHunmask a s) :=
  .finish h (.bind .needX fun _ _ => .bind .noPure fun _ _ => .of_ok (.step4 (.maskChannels h)))

/-! ### Along the functions of Sys2Proof/Machine/Queue.lean -/

theorem Yields.needFilled {v n} : Yields (fun _ => True) (needFilled v n) := .check trivial

theorem State.Canonical.popSlots {s : State} {k c n} (h : s.Canonical) : (popSlots s k c n).Canonical :=
  .kickReturned (.kickDispatch (.setHart (.setCore h)))

theorem State.Canonical.popBinding {s : State} {k b n} (h : s.Canonical) : (popBinding s k b n).Canonical := by
  unfold Machine.popBinding
  split
  · exact .popSlots h
  · exact .setCore h
  · exact .setHart h

theorem Reaches.execQpop {k _x i} {s : State} (h : s.Canonical) : Reaches (execQpop k _x i s) :=
  .finish h (.bind .noPure fun _ _ => .bind .needBinding fun _ _ => .bind .needFilled fun _ _ => .bind (.check trivial) fun _ _ =>
    .of_ok (.step4 (.popBinding h)))

theorem State.Canonical.pushBinding {s : State} {k b n} (h : s.Canonical) : (pushBinding s k b n).Canonical := by
  unfold Machine.pushBinding
  split
  · exact .setCore h
  · exact h

theorem Reaches.execQadv {k _x i} {s : State} (h : s.Canonical) : Reaches (execQadv k _x i s) :=
  .finish h (.bind .noPure fun _ _ => .bind .needBinding fun _ _ => .bind (.check trivial) fun _ _ =>
    .ite (.bind (.needUnrollable h) fun _ _ => .bind (.check trivial) fun _ _ =>
      .of_ok (.step4 (.pushBinding h))) (.bind .pass fun _ _ => .bind (.check trivial) fun _ _ => .of_ok (.step4 (.pushBinding h))))

theorem Reaches.execQcnt {d k _x} {s : State} (h : s.Canonical) : Reaches (execQcnt d k _x s) :=
  .finish h (.bind .noPure fun _ _ => .bind .freeX fun _ _ => .bind .needBinding fun _ _ => .of_ok (.step4 h))

theorem Reaches.execQwait {k _x i} {s : State} (h : s.Canonical) : Reaches (execQwait k _x i s) :=
  .finish h (.bind .noPure fun _ _ => .bind .needBinding fun _ _ => .bind .needFilled fun _ _ => .of_ok (.step4 h))

theorem Reaches.execQcfg {k a x} {s : State} (h : s.Canonical) : Reaches (execQcfg k a x s) :=
  .finish h (.bind .needMode fun _ _ => .bind .needX fun _ _ => .bind .noPure fun _ _ => .bind .needAddr fun _ _ =>
    .bind (.check trivial) fun _ _ => .bind (.reach h) fun ⟨_, _⟩ h1 => .bind (.check trivial) fun _ _ =>
      .bind (.readPlace h1) fun _ h2 => .bind (.check trivial) fun _ _ => .of_ok (.step4 h2))

/-! ### Along the functions of Sys2Proof/Machine/System.lean -/

theorem Reaches.execSyscall {s : State} (h : s.Canonical) : Reaches (execSyscall s) := .finish h (.bind .noPure fun _ _ => trivial)

theorem Reaches.execBrk {s : State} (h : s.Canonical) : Reaches (execBrk s) := .finish h (.bind .noPure fun _ _ => trivial)

theorem Reaches.execTret {s : State} (h : s.Canonical) : Reaches (execTret s) := .finish h (.bind .noPure fun _ _ => .of_ok (.setMe h))

theorem Reaches.execIdle {s : State} (h : s.Canonical) : Reaches (execIdle s) := .finish h (.of_ok (.step4 h))

theorem Reaches.execYield {s : State} (h : s.Canonical) : Reaches (execYield s) := .finish h (.of_ok (.step4 h))

theorem State.Canonical.leaveSlotOf {s : State} {k} (h : s.Canonical) : (leaveSlotOf s k).Canonical := .setHart (.popOwn h)

theorem Yields.leaveThread {s : State} (h : s.Canonical) : Yields State.Canonical (leaveThread s) :=
  .bind (.check trivial) fun _ _ => .bind (.check trivial) fun _ _ => .bind .needReleased fun _ _ => .of_ok (.endThread h)

theorem Yields.needInvalidate {s : State} (h : s.Canonical) : Yields (fun _ => True) (needInvalidate s) :=
  .ite (.bind (.needUnrollable h) fun _ _ => .bind .needStored fun _ _ => .check trivial) (.bind .needStored fun _ _ => .check trivial)

theorem State.Canonical.stepMs {s : State} {f} (h : s.Canonical) (hf : ∀ y0, y0.Canonical → (f y0).Canonical) :
    (State.stepMs s f).Canonical :=
  .step4 (hf _ h)

theorem Reaches.execTlbinvAll {x y} {s : State} (h : s.Canonical) : Reaches (execTlbinvAll x y s) :=
  .finish h (.bind .needMode fun _ _ => .bind .noPure fun _ _ => .bind (.needInvalidate h) fun _ _ => .of_ok (.stepMs h (fun _ h1 =>
    .tlbDropAll h1)))

theorem Reaches.execTlbinvAsid {a y} {s : State} (h : s.Canonical) : Reaches (execTlbinvAsid a y s) :=
  .finish h (.bind .needMode fun _ _ => .bind .needX fun _ _ => .bind .noPure fun _ _ => .bind (.needInvalidate h) fun _ _ =>
    .of_ok (.stepMs h (fun _ h1 => .tlbDropAsid h1)))

theorem Reaches.execTlbinvVa {a y} {s : State} (h : s.Canonical) : Reaches (execTlbinvVa a y s) :=
  .finish h (.bind .needMode fun _ _ => .bind .needX fun _ _ => .bind .noPure fun _ _ => .bind (.needInvalidate h) fun _ _ =>
    .of_ok (.stepMs h (fun _ h1 => .tlbDropVa h1)))

theorem Reaches.execTlbinvStage2 {a y} {s : State} (h : s.Canonical) : Reaches (execTlbinvStage2 a y s) :=
  .finish h (.bind .needMode fun _ _ => .bind .needX fun _ _ => .bind .noPure fun _ _ => .bind (.needInvalidate h) fun _ _ =>
    .of_ok (.stepMs h (fun _ h1 => .tlbDropStage2 h1)))

/-! ### Along the functions of Sys2Proof/Machine/Csr.lean -/

theorem State.Canonical.writeMxwt {s : State} {w v} (h : s.Canonical) : (writeMxwt s w v).Canonical := .ite (.setCore h) h

theorem State.Canonical.writeMxidle {s : State} {w v} (h : s.Canonical) : (writeMxidle s w v).Canonical := .ite (.setCluster h) h

theorem State.Canonical.setPartCsr {s : State} {f} (h : s.Canonical) : (setPartCsr s f).Canonical := by
  unfold Machine.setPartCsr
  split
  · exact .setPart h
  · exact h

theorem State.Canonical.writeQuota {s : State} {v} (h : s.Canonical) : (writeQuota s v).Canonical := by
  unfold Machine.writeQuota
  split <;> exact h

theorem State.Canonical.writeCsr {s : State} {n v} (h : s.Canonical) : (writeCsr s n v).Canonical := by
  unfold Machine.writeCsr
  split
  · exact .setStmap h
  · split
    · exact .writeFeat h
    · split
      · exact .writeMxidle h
      · exact .setCore h
      · exact .setPartCsr h
      · exact .setPartCsr h
      · exact .writeQuota h
      · exact .writeMxwt h
      · exact .setMe h

theorem Yields.needPureCsr {n write} {s : State} : Yields (fun _ => True) (needPureCsr n write s) := .ite trivial .noPure

theorem Yields.needCsr {n write bits} {s : State} : Yields (fun _ => True) (needCsr n write bits s) :=
  .bind (.check trivial) fun _ _ => .bind .needMode fun _ _ => .check trivial

theorem Yields.needStmap {n} {s : State} : Yields (fun _ => True) (needStmap n s) := .check trivial

theorem Reaches.csrUpdate {i d a c f w1c} {s : State} (h : s.Canonical) : Reaches (csrUpdate i d a c f w1c s) :=
  .finish h (.bind .needX fun _ _ => .bind .needPureCsr fun _ _ => .bind .needCsr fun _ _ => .bind .freeX fun _ _ =>
    .bind .needStmap fun _ _ => .ite (.of_ok (.ite (.setMe (.step4 h)) (.step4 h))) (.of_ok (.writeCsr (.step4 h))))

theorem Reaches.execCsrr {d x c} {s : State} (h : s.Canonical) : Reaches (execCsrr d x c s) :=
  .finish h (.bind .needPureCsr fun _ _ => .bind .needCsr fun _ _ => .bind .freeX fun _ _ => .of_ok (.step4 h))

theorem Reaches.execCsrw {d a c} {s : State} (h : s.Canonical) : Reaches (execCsrw d a c s) := .csrUpdate h

theorem Reaches.execCsrs {d a c} {s : State} (h : s.Canonical) : Reaches (execCsrs d a c s) := .csrUpdate h

theorem Reaches.execCsrc {d a c} {s : State} (h : s.Canonical) : Reaches (execCsrc d a c s) := .csrUpdate h

/-! ### Along the functions of Sys2Proof/Machine/Park.lean -/

theorem Yields.needTarget {l} {s : State} : Yields (fun _ => True) (needTarget l s) := by
  unfold Machine.needTarget
  dsimp only
  split
  · exact .ite trivial trivial
  · exact trivial

theorem State.Canonical.parkThread {s : State} {k pa i} (h : s.Canonical) : (parkThread s k pa i).Canonical := .saveImage (.stopThread h)

theorem Reaches.execPark {a} {s : State} (h : s.Canonical) : Reaches (execPark a s) := by
  unfold Machine.execPark
  refine .finish h ?_
  refine .bind .needMode fun _ _ => ?_
  refine .bind .needX fun _ _ => ?_
  refine .bind .noPure fun _ _ => ?_
  refine .bind .needTarget fun _ _ => ?_
  split
  · exact .ite (.bind (.check trivial) fun _ _ => trivial) (.of_ok (.step4 h))
  · exact .ite (.bind (.check trivial) fun _ _ => .of_ok (.parkThread (.step4 h))) (.of_ok (.step4 h))

theorem State.Canonical.resumeThread {s : State} {k i} (h : s.Canonical) : (resumeThread s k i).Canonical :=
  .takeThawed (.acquireBack (.setHart (.freeDep h)))

theorem Reaches.execResume {a} {s : State} (h : s.Canonical) : Reaches (execResume a s) := by
  unfold Machine.execResume
  refine .finish h ?_
  refine .bind .needMode fun _ _ => ?_
  refine .bind .needX fun _ _ => ?_
  refine .bind .noPure fun _ _ => ?_
  refine .bind .needTarget fun _ _ => ?_
  dsimp only
  split
  · exact .of_ok (.resumeThread (.step4 h))
  · exact .of_ok (.step4 h)

theorem State.Canonical.leaveSlot {s : State} {k tag loc room} (h : s.Canonical) :
    (leaveSlot s k tag loc room).Canonical := by
  unfold Machine.leaveSlot
  refine .freeSlot ?_
  split
  · exact .setDep h
  · exact .addDep h

theorem State.Canonical.moveThread {s : State} {k dst parked} (h : s.Canonical) :
    (moveThread s k dst parked).Canonical := by
  unfold Machine.moveThread
  refine .leaveSlot ?_
  refine .takeThawed ?_
  refine .applySig ?_
  refine .foldl ?_ fun _ _ h1 => ?_
  · refine .setHart ?_
    refine .setHart ?_
    split
    · exact .stopThread h
    · exact .setHart (.endWindows h)
  · exact .setStmap h1

theorem Reaches.execMigrate {d a} {s : State} (h : s.Canonical) : Reaches (execMigrate d a s) :=
  .finish h (.bind .needMode fun _ _ => .bind .needX fun _ _ => .bind .needX fun _ _ => .bind .noPure fun _ _ => .bind .freeX fun _ _ =>
    .bind .needTarget fun _ _ => .bind .needTarget fun _ _ =>
      .ite (.of_ok (.kickDispatch (.kickStarts (.step4 (.moveThread h))))) (.of_ok (.step4 h)))

/-! ### Along the functions of Sys2Proof/Machine/LaunchI.lean -/

theorem Yields.loadHeader {s : State} {va} (h : s.Canonical) : Yields (fun r => r.2.Canonical) (loadHeader s va) :=
  .bind (.check trivial) fun _ _ => .bind (.reach h) fun ⟨_, _⟩ h1 => .bind (.check trivial) fun _ _ => .bind (.readPlace h1) fun _ h2 => h2

theorem Yields.loadPresets {s : State} {hdr va} (h : s.Canonical) : Yields (fun r => r.2.Canonical) (loadPresets s hdr va) :=
  .ite (.loadHeader h) h

theorem Reaches.execSpawn {d a x} {s : State} (h : s.Canonical) : Reaches (execSpawn d a x s) :=
  .finish h (.bind .needWf fun _ _ => .bind (.needXs h) fun _ _ => .bind .noPure fun _ _ => .bind .noV fun _ _ => .bind .freeX fun _ _ =>
    .bind .needAddr fun _ _ => .bind (.loadHeader h) fun ⟨_, _⟩ h1 => .bind (.loadPresets h1) fun ⟨_, _⟩ h2 =>
      .bind (.needUnrollable h) fun _ _ => .bind .needReleased fun _ _ => .of_ok (.acceptRecord (.step4 h2)))

theorem Yields.needChannel {bits} {s : State} : Yields (fun _ => True) (needChannel bits s) := by
  unfold Machine.needChannel
  split <;> exact trivial

theorem State.Canonical.armRecord {s : State} {p i r} (h : s.Canonical) : (armRecord s p i r).Canonical := .kickService h

theorem Reaches.execArmlr {a b} {s : State} (h : s.Canonical) : Reaches (execArmlr a b s) := by
  unfold Machine.execArmlr
  refine .finish h ?_
  refine .bind .needWf fun _ _ => ?_
  refine .bind .needMode fun _ _ => ?_
  refine .bind .needX fun _ _ => ?_
  refine .bind (.needXs h) fun _ _ => ?_
  refine .bind .noPure fun _ _ => ?_
  refine .bind .needChannel fun _ _ => ?_
  dsimp only
  split
  · exact trivial
  · exact .bind (.check trivial) fun _ _ => .bind (.needUnrollable h) fun _ _ =>
      .ite (.of_ok (.reportStatus (.step4 h))) (.of_ok (.armRecord (.step4 h)))

theorem Reaches.execLchk {d a b} {s : State} (h : s.Canonical) : Reaches (execLchk d a b s) :=
  .finish h (.bind .needX fun _ _ => .bind .needX fun _ _ => .bind .noPure fun _ _ => .bind .freeX fun _ _ =>
    .bind (.needUnrollable h) fun _ _ => .of_ok (.step4 h))

/-! ### Along the functions of Sys2Proof/Machine/Vector.lean -/

theorem Yields.needOld {d keeps} {s : State} : Yields (fun _ => True) (needOld d keeps s) := .ite .needV trivial

theorem Yields.needPureQ {q} {s : State} : Yields (fun _ => True) (needPureQ q s) := .ite .noPure trivial

theorem Reaches.lanes2 {i d a b t m q acc f} {s : State} (h : s.Canonical) : Reaches (lanes2 i d a b t m q acc f s) :=
  .finish h (.bind .needWf fun _ _ => .bind .needV fun _ _ => .bind .needOld fun _ _ => .bind .needPureQ fun _ _ =>
    .bind .freeV fun _ _ => .bind (.readV2 h) fun ⟨_, _, _⟩ h1 => .of_ok (.step4 h1))

theorem Reaches.lanes1 {i d a t m f} {s : State} (h : s.Canonical) : Reaches (lanes1 i d a t m f s) :=
  .finish h (.bind .needWf fun _ _ => .bind .needV fun _ _ => .bind .needOld fun _ _ => .bind .freeV fun _ _ => .of_ok (.step4 h))

theorem Reaches.execVadd {d a b t m q} {s : State} (h : s.Canonical) : Reaches (execVadd d a b t m q s) := .lanes2 h

theorem Reaches.execVsub {d a b t m q} {s : State} (h : s.Canonical) : Reaches (execVsub d a b t m q s) := .lanes2 h

theorem Reaches.execVmul {d a b t m q} {s : State} (h : s.Canonical) : Reaches (execVmul d a b t m q s) := .lanes2 h

theorem Reaches.execVmulh {d a b t m q} {s : State} (h : s.Canonical) : Reaches (execVmulh d a b t m q s) :=
  .lanes2 h

theorem Reaches.execVmin {d a b t m q} {s : State} (h : s.Canonical) : Reaches (execVmin d a b t m q s) := .lanes2 h

theorem Reaches.execVmax {d a b t m q} {s : State} (h : s.Canonical) : Reaches (execVmax d a b t m q s) := .lanes2 h

theorem Reaches.execVand {d a b t m q} {s : State} (h : s.Canonical) : Reaches (execVand d a b t m q s) := .lanes2 h

theorem Reaches.execVor {d a b t m q} {s : State} (h : s.Canonical) : Reaches (execVor d a b t m q s) := .lanes2 h

theorem Reaches.execVxor {d a b t m q} {s : State} (h : s.Canonical) : Reaches (execVxor d a b t m q s) := .lanes2 h

theorem Reaches.execVshl {d a b t m q} {s : State} (h : s.Canonical) : Reaches (execVshl d a b t m q s) := .lanes2 h

theorem Reaches.execVshr {d a b t m q} {s : State} (h : s.Canonical) : Reaches (execVshr d a b t m q s) := .lanes2 h

theorem Reaches.execVsra {d a b t m q} {s : State} (h : s.Canonical) : Reaches (execVsra d a b t m q s) := .lanes2 h

theorem Reaches.execVabs {d a t m} {s : State} (h : s.Canonical) : Reaches (execVabs d a t m s) := .lanes1 h

theorem Reaches.execVneg {d a t m} {s : State} (h : s.Canonical) : Reaches (execVneg d a t m s) := .lanes1 h

theorem Reaches.execVadds {d a b t m q} {s : State} (h : s.Canonical) : Reaches (execVadds d a b t m q s) :=
  .lanes2 h

theorem Reaches.execVsubs {d a b t m q} {s : State} (h : s.Canonical) : Reaches (execVsubs d a b t m q s) :=
  .lanes2 h

theorem Reaches.execVmad {d a b t m q} {s : State} (h : s.Canonical) : Reaches (execVmad d a b t m q s) := .lanes2 h

theorem Reaches.execVfadd {d a b t m q} {s : State} (h : s.Canonical) : Reaches (execVfadd d a b t m q s) :=
  .lanes2 h

theorem Reaches.execVfsub {d a b t m q} {s : State} (h : s.Canonical) : Reaches (execVfsub d a b t m q s) :=
  .lanes2 h

theorem Reaches.execVfmul {d a b t m q} {s : State} (h : s.Canonical) : Reaches (execVfmul d a b t m q s) :=
  .lanes2 h

theorem Reaches.execVfma {d a b t m q} {s : State} (h : s.Canonical) : Reaches (execVfma d a b t m q s) := .lanes2 h

theorem Reaches.execVfmin {d a b t m q} {s : State} (h : s.Canonical) : Reaches (execVfmin d a b t m q s) :=
  .lanes2 h

theorem Reaches.execVfmax {d a b t m q} {s : State} (h : s.Canonical) : Reaches (execVfmax d a b t m q s) :=
  .lanes2 h

theorem Reaches.execVfabs {d a t m} {s : State} (h : s.Canonical) : Reaches (execVfabs d a t m s) := .lanes1 h

theorem Reaches.execVfneg {d a t m} {s : State} (h : s.Canonical) : Reaches (execVfneg d a t m s) := .lanes1 h

theorem Reaches.execVexp2 {d a t m} {s : State} (h : s.Canonical) : Reaches (execVexp2 d a t m s) := .lanes1 h

theorem Reaches.execVlog2 {d a t m} {s : State} (h : s.Canonical) : Reaches (execVlog2 d a t m s) := .lanes1 h

theorem Reaches.execVrcp {d a t m} {s : State} (h : s.Canonical) : Reaches (execVrcp d a t m s) := .lanes1 h

theorem Reaches.execVrsq {d a t m} {s : State} (h : s.Canonical) : Reaches (execVrsq d a t m s) := .lanes1 h

theorem Reaches.execVbcast {d a t m} {s : State} (h : s.Canonical) : Reaches (execVbcast d a t m s) :=
  .finish h (.bind .needX fun _ _ => .bind .needOld fun _ _ => .bind .freeV fun _ _ => .of_ok (.step4 h))

theorem Reaches.execVgetl {d a b t} {s : State} (h : s.Canonical) : Reaches (execVgetl d a b t s) :=
  .finish h (.bind .needV fun _ _ => .bind .needX fun _ _ => .bind .freeX fun _ _ => .of_ok (.step4 h))

theorem Reaches.execVsetl {d a b t} {s : State} (h : s.Canonical) : Reaches (execVsetl d a b t s) :=
  .finish h (.bind .needX fun _ _ => .bind .needX fun _ _ => .bind .needV fun _ _ => .bind .freeV fun _ _ => .of_ok (.step4 h))

theorem Reaches.execVperm {d a b t m} {s : State} (h : s.Canonical) : Reaches (execVperm d a b t m s) :=
  .finish h (.bind .needV fun _ _ => .bind .needV fun _ _ => .bind .needOld fun _ _ => .bind .freeV fun _ _ => .of_ok (.step4 h))

theorem Reaches.execVslide {d a b t m} {s : State} (h : s.Canonical) : Reaches (execVslide d a b t m s) :=
  .finish h (.bind .needV fun _ _ => .bind .needX fun _ _ => .bind .needOld fun _ _ => .bind .freeV fun _ _ => .of_ok (.step4 h))

theorem Reaches.execVmovm {d a} {s : State} (h : s.Canonical) : Reaches (execVmovm d a s) := .finish h (.of_ok (.step4 h))

theorem Reaches.execVsett {a} {s : State} (h : s.Canonical) : Reaches (execVsett a s) :=
  .finish h (.bind .needX fun _ _ => .of_ok (.step4 h))

theorem Reaches.reduce {op d a t m} {s : State} (h : s.Canonical) : Reaches (reduce op d a t m s) :=
  .finish h (.bind .needV fun _ _ => .bind .needOld fun _ _ => .bind .freeV fun _ _ => .of_ok (.step4 h))

theorem Reaches.execVrsum {d a t m} {s : State} (h : s.Canonical) : Reaches (execVrsum d a t m s) := .reduce h

theorem Reaches.execVrmax {d a t m} {s : State} (h : s.Canonical) : Reaches (execVrmax d a t m s) := .reduce h

theorem Reaches.execVrmin {d a t m} {s : State} (h : s.Canonical) : Reaches (execVrmin d a t m s) := .reduce h

theorem Reaches.execVpsum {d a t m} {s : State} (h : s.Canonical) : Reaches (execVpsum d a t m s) := .reduce h

theorem Reaches.convert {d a t m f fl} {s : State} (h : s.Canonical) : Reaches (convert d a t m f fl s) :=
  .finish h (.bind .needV fun _ _ => .bind .needOld fun _ _ => .bind .freeV fun _ _ => .of_ok (.step4 h))

theorem Reaches.execVcvtBf16F32 {d a m} {s : State} (h : s.Canonical) : Reaches (execVcvtBf16F32 d a m s) := .convert h

theorem Reaches.execVcvtF32Bf16 {d a m} {s : State} (h : s.Canonical) : Reaches (execVcvtF32Bf16 d a m s) := .convert h

theorem Reaches.execVcvtF32S32 {d a m} {s : State} (h : s.Canonical) : Reaches (execVcvtF32S32 d a m s) := .convert h

theorem Reaches.execVcvtS32F32 {d a m} {s : State} (h : s.Canonical) : Reaches (execVcvtS32F32 d a m s) := .convert h

theorem Reaches.execVcvtS32S8 {d a g m} {s : State} (h : s.Canonical) : Reaches (execVcvtS32S8 d a g m s) := .convert h

theorem Reaches.execVcvtS8S32 {d a g m} {s : State} (h : s.Canonical) : Reaches (execVcvtS8S32 d a g m s) :=
  .finish h (.bind .needV fun _ _ => .bind .needV fun _ _ => .bind .freeV fun _ _ => .of_ok (.step4 h))

theorem Reaches.execVlgx {d a m} {s : State} (h : s.Canonical) : Reaches (execVlgx d a m s) := .convert h

theorem Reaches.execVlgq {d a b m} {s : State} (h : s.Canonical) : Reaches (execVlgq d a b m s) :=
  .finish h (.bind .needV fun _ _ => .bind .needX fun _ _ => .bind .needOld fun _ _ => .bind .freeV fun _ _ => .of_ok (.step4 h))

theorem Reaches.compare {op d a b t m q} {s : State} (h : s.Canonical) : Reaches (compare op d a b t m q s) :=
  .finish h (.bind .needV fun _ _ => .bind .needPureQ fun _ _ => .bind (.readV2 h) fun ⟨_, _, _⟩ h1 => .of_ok (.step4 h1))

theorem Reaches.execVceq {d a b t m q} {s : State} (h : s.Canonical) : Reaches (execVceq d a b t m q s) := .compare h

theorem Reaches.execVclt {d a b t m q} {s : State} (h : s.Canonical) : Reaches (execVclt d a b t m q s) := .compare h

theorem Reaches.execVcle {d a b t m q} {s : State} (h : s.Canonical) : Reaches (execVcle d a b t m q s) := .compare h

theorem Reaches.execVsel {d a b t q} {s : State} (h : s.Canonical) : Reaches (execVsel d a b t q s) :=
  .finish h (.bind .needV fun _ _ => .bind .needPureQ fun _ _ => .bind .freeV fun _ _ => .bind (.readV2 h) fun ⟨_, _, _⟩ h1 =>
    .of_ok (.step4 h1))

theorem Reaches.execMand {d a b} {s : State} (h : s.Canonical) : Reaches (execMand d a b s) := .finish h (.of_ok (.step4 h))

theorem Reaches.execMor {d a b} {s : State} (h : s.Canonical) : Reaches (execMor d a b s) := .finish h (.of_ok (.step4 h))

theorem Reaches.execMnot {d a} {s : State} (h : s.Canonical) : Reaches (execMnot d a s) := .finish h (.of_ok (.step4 h))

theorem Reaches.execMpopc {d a} {s : State} (h : s.Canonical) : Reaches (execMpopc d a s) :=
  .finish h (.bind .freeX fun _ _ => .of_ok (.step4 h))

/-! ### Along the functions of Sys2Proof/Machine/VecMem.lean -/

theorem Yields.lanesCheck {ls ok} {e : Word → Stop} (h : ∀ va, (e va).Canonical) :
    Yields (fun _ => True) (lanesCheck ls ok e) := by
  unfold Machine.lanesCheck
  split
  · exact h _
  · trivial

theorem Yields.needLanes {ls n acc} : Yields (fun _ => True) (needLanes ls n acc) :=
  .bind (.lanesCheck fun _ => trivial) fun _ _ => .bind (.lanesCheck fun _ => trivial) fun _ _ => .lanesCheck fun _ => trivial

theorem Yields.reachLanes {s : State} {acc x2} (h : s.Canonical) :
    Yields (fun r => r.2.Canonical) (reachLanes s acc x2) := by
  fun_induction Machine.reachLanes s acc x2
  · exact h
  next ih => exact .bind (.reach h) fun ⟨_, _⟩ h1 => .bind (ih _ h1) fun ⟨_, _⟩ h2 => h2

theorem Yields.placeLanes {s : State} {acc ls} (h : s.Canonical) :
    Yields (fun r => r.2.Canonical) (placeLanes s acc ls) := by
  unfold Machine.placeLanes
  split
  next e1 =>
    have h1 := Yields.of_eq e1 (.reachLanes h)
    exact h1
  next e1 =>
    have h1 := Yields.stop_of_eq e1 (.reachLanes h)
    split
    · exact h1
    · exact trivial

theorem Yields.needPureLanes {ls n} {s : State} : Yields (fun _ => True) (needPureLanes ls n s) := by
  unfold Machine.needPureLanes
  split
  · exact .lanesCheck fun _ => trivial
  · exact trivial

theorem Yields.noPureTile {ls} {s : State} : Yields (fun _ => True) (noPureTile ls s) := .noPure

theorem Yields.needPureOut {ls n} {s : State} : Yields (fun _ => True) (needPureOut ls n s) := by
  unfold Machine.needPureOut
  split
  · exact .lanesCheck fun _ => trivial
  · exact trivial

theorem Yields.readLanes {n} {s : State} {x2} (h : s.Canonical) :
    Yields (fun r => r.2.2.2.Canonical) (readLanes n s x2) := by
  fun_induction Machine.readLanes n s x2
  · exact h
  next ih => exact .bind (.check trivial) fun _ _ => .bind (.readPlace (.setMe h)) fun _ h1 => .bind (ih _ h1) fun ⟨_, _, _, _⟩ h2 => h2

theorem Yields.loadLanes {d t ls} {s : State} (h : s.Canonical) : Yields State.Canonical (loadLanes d t ls s) :=
  .bind (.check trivial) fun _ _ => .bind (.placeLanes h) fun ⟨_, _⟩ h1 => .bind (.readLanes h1) fun ⟨_, _, _, _⟩ h2 =>
    .of_ok (.startLoad (.setMe h2))

theorem Yields.vload {d a t m addr} {s : State} (h : s.Canonical) : Yields State.Canonical (vload d a t m addr s) :=
  .bind .needX fun _ _ => .bind .needOld fun _ _ => .bind .needPureLanes fun _ _ => .bind .freeV fun _ _ => .bind .needLanes fun _ _ =>
    .loadLanes h

theorem Reaches.execVld {d a t m} {s : State} (h : s.Canonical) : Reaches (execVld d a t m s) := .finish h (.vload h)

theorem Reaches.execVlds {d a b t m} {s : State} (h : s.Canonical) : Reaches (execVlds d a b t m s) :=
  .finish h (.bind .needX fun _ _ => .vload h)

theorem Reaches.execVgath {d a b t m} {s : State} (h : s.Canonical) : Reaches (execVgath d a b t m s) :=
  .finish h (.bind .needV fun _ _ => .vload h)

theorem Yields.needTile {ea t acc ls} : Yields (fun _ => True) (needTile ea t acc ls) :=
  .ite trivial (.bind .noWindow fun _ _ => .bind (.check trivial) fun _ _ => .lanesCheck fun _ => trivial)

theorem Reaches.execVldT {d a t m} {s : State} (h : s.Canonical) : Reaches (execVldT d a t m s) :=
  .finish h (.bind .needX fun _ _ => .bind .needOld fun _ _ => .bind .noPureTile fun _ _ => .bind .freeV fun _ _ =>
    .bind .needTile fun _ _ => .loadLanes h)

theorem Yields.storeOuts {s : State} {es} (h : s.Canonical) : Yields State.Canonical (storeOuts s es) := by
  unfold Machine.storeOuts
  refine .foldlM ?_ fun _ _ h1 => ?_
  · exact h
  · exact .laneTo h1

theorem Yields.needAllCollapsed {s : State} {ps} (h : s.Canonical) :
    Yields (fun _ => True) (needAllCollapsed s ps) := by
  unfold Machine.needAllCollapsed
  split
  · exact .needCollapsed h
  · exact trivial

theorem Yields.storeAll {s : State} {es} (h : s.Canonical) : Yields State.Canonical (storeAll s es) := by
  unfold Machine.storeAll
  split
  · exact .of_ok (.setMe h)
  · split
    · split
      · exact .ite (.of_ok (.frame (.setMe h))) (.storeOuts h)
      next e1 =>
        have h1 := Yields.stop_of_eq e1 (.needUnrollable h)
        exact .ite (.of_ok (.frame (.setMe h))) h1
    · exact .bind (.needAllCollapsed h) fun _ _ => .storeOuts h

theorem Yields.storeLanes {d t ls whole} {s : State} (h : s.Canonical) : Yields State.Canonical (storeLanes d t ls whole s) :=
  .bind (.check trivial) fun _ _ => .bind (.placeLanes h) fun ⟨_, _⟩ h1 => .bind (.storeAll h1) fun _ h2 => .of_ok (.step4 h2)

theorem Yields.vstore {d a t m addr whole} {s : State} (h : s.Canonical) : Yields State.Canonical (vstore d a t m addr whole s) :=
  .bind .needX fun _ _ => .bind .needV fun _ _ => .bind .needPureOut fun _ _ => .bind .needLanes fun _ _ => .storeLanes h

theorem Reaches.execVst {d a t m} {s : State} (h : s.Canonical) : Reaches (execVst d a t m s) := .finish h (.vstore h)

theorem Reaches.execVsts {d a b t m} {s : State} (h : s.Canonical) : Reaches (execVsts d a b t m s) :=
  .finish h (.bind .needX fun _ _ => .vstore h)

theorem Reaches.execVscat {d a b t m} {s : State} (h : s.Canonical) : Reaches (execVscat d a b t m s) :=
  .finish h (.bind .needV fun _ _ => .vstore h)

theorem Reaches.execVstT {d a t m} {s : State} (h : s.Canonical) : Reaches (execVstT d a t m s) :=
  .finish h (.bind .needX fun _ _ => .bind .needV fun _ _ => .bind .noPureTile fun _ _ => .bind .needTile fun _ _ => .storeLanes h)

theorem Yields.needBlock {va acc} : Yields (fun _ => True) (needBlock va acc) := .bind .noWindow fun _ _ => .check trivial

theorem Yields.readBlk {s : State} {va} (h : s.Canonical) : Yields (fun r => r.2.Canonical) (readBlk s va) :=
  .bind (.check trivial) fun _ _ => .bind (.reach h) fun ⟨_, _⟩ h1 => .bind (.check trivial) fun _ _ => .bind (.readPlace h1) fun _ h2 => h2

theorem Yields.writeBlk {s : State} {va b} (h : s.Canonical) : Yields State.Canonical (writeBlk s va b) :=
  .bind (.check trivial) fun _ _ => .bind (.reach h) fun ⟨_, _⟩ h1 => .storeAll h1

theorem Yields.needEach {f} {s : State} {x2} (h : ∀ y0 y1, y1.Canonical → Yields (fun _ => True) (f y0 y1)) (hf : s.Canonical) :
    Yields (fun _ => True) (needEach f s x2) := by
  fun_induction Machine.needEach f s x2
  · exact trivial
  next ih => exact .bind (h _ _ hf) fun _ _ => ih

theorem Reaches.execBlkunp {d a} {s : State} (h : s.Canonical) : Reaches (execBlkunp d a s) :=
  .finish h (.bind .needWf fun _ _ => .bind .needX fun _ _ => .bind .noPure fun _ _ => .bind (.needEach (fun _ _ _ =>
    .freeV) h) fun _ _ => .bind .needBlock fun _ _ => .bind (.readBlk h) fun ⟨_, _⟩ h2 => .of_ok (.startLoad (.setMe h2)))

theorem Reaches.execBlkpk {d a t} {s : State} (h : s.Canonical) : Reaches (execBlkpk d a t s) :=
  .finish h (.bind .needWf fun _ _ => .bind .needX fun _ _ => .bind (.needEach (fun _ _ _ => .needV) h) fun _ _ =>
    .bind .noPure fun _ _ => .bind .needBlock fun _ _ => .bind (.writeBlk h) fun _ h2 => .of_ok (.step4 h2))

theorem Yields.blkWrite {s : State} {va z fl} (h : s.Canonical) : Yields State.Canonical (blkWrite s va z fl) :=
  .bind (.writeBlk h) fun _ h1 => .of_ok (.step4 h1)

theorem Yields.blkUpdate {s : State} {va read} (h : s.Canonical) (hf : ∀ y0, y0.Canonical → Yields (fun r => r.2.2.Canonical) (read y0)) :
    Yields State.Canonical (blkUpdate s va read) := by
  unfold Machine.blkUpdate
  split
  · exact .blkWrite h
  · exact .bind (hf _ h) fun ⟨_, _, _⟩ h1 => .blkWrite h1
  · exact .bind (hf _ h) fun ⟨_, _, _⟩ h1 => .setMe h1

theorem Reaches.execBlkaddq {a b} {s : State} (h : s.Canonical) : Reaches (execBlkaddq a b s) :=
  .finish h (.bind .needX fun _ _ => .bind .needX fun _ _ => .bind .noPure fun _ _ => .bind .needBlock fun _ _ =>
    .bind .needBlock fun _ _ => .blkUpdate h (fun _ h1 => .bind (.readBlk h1) fun ⟨_, _⟩ h2 => .bind (.readBlk h2) fun ⟨_, _⟩ h3 => h3))

theorem Reaches.execBlkhdr {d a} {s : State} (h : s.Canonical) : Reaches (execBlkhdr d a s) :=
  .finish h (.bind .needX fun _ _ => .bind .noPure fun _ _ => .bind .freeX fun _ _ => .bind .needBlock fun _ _ =>
    .bind (.readBlk h) fun ⟨_, _⟩ h1 => .of_ok (.step4 h1))

theorem Reaches.execBlkscl {a b} {s : State} (h : s.Canonical) : Reaches (execBlkscl a b s) :=
  .finish h (.bind .needX fun _ _ => .bind .needX fun _ _ => .bind .noPure fun _ _ => .bind .needBlock fun _ _ =>
    .blkUpdate h (fun _ h1 => .bind (.readBlk h1) fun ⟨_, _⟩ h2 => h2))

/-! ### Along the functions of Sys2Proof/Machine/Lane16.lean -/

theorem Reaches.half {i d a b m acc f} {s : State} (h : s.Canonical) : Reaches (half i d a b m acc f s) :=
  .finish h (.bind .needWf fun _ _ => .bind .needV fun _ _ => .bind .needV fun _ _ => .bind .needOld fun _ _ => .bind .freeV fun _ _ =>
    .of_ok (.step2 h))

theorem Yields.needShiftType {i} {s : State} : Yields (fun _ => True) (needShiftType i s) := .check trivial

theorem Reaches.execVmov16 {d b m} {s : State} (h : s.Canonical) : Reaches (execVmov16 d b m s) := .half h

theorem Reaches.execVadd16 {d b m} {s : State} (h : s.Canonical) : Reaches (execVadd16 d b m s) := .half h

theorem Reaches.execVsub16 {d b m} {s : State} (h : s.Canonical) : Reaches (execVsub16 d b m s) := .half h

theorem Reaches.execVmul16 {d b m} {s : State} (h : s.Canonical) : Reaches (execVmul16 d b m s) := .half h

theorem Reaches.execVmad16 {d b m} {s : State} (h : s.Canonical) : Reaches (execVmad16 d b m s) := .half h

theorem Reaches.execVmin16 {d b m} {s : State} (h : s.Canonical) : Reaches (execVmin16 d b m s) := .half h

theorem Reaches.execVmax16 {d b m} {s : State} (h : s.Canonical) : Reaches (execVmax16 d b m s) := .half h

theorem Reaches.execVand16 {d b m} {s : State} (h : s.Canonical) : Reaches (execVand16 d b m s) := .half h

theorem Reaches.execVor16 {d b m} {s : State} (h : s.Canonical) : Reaches (execVor16 d b m s) := .half h

theorem Reaches.execVxor16 {d b m} {s : State} (h : s.Canonical) : Reaches (execVxor16 d b m s) := .half h

theorem Reaches.execVneg16 {d b m} {s : State} (h : s.Canonical) : Reaches (execVneg16 d b m s) := .half h

theorem Reaches.execVabs16 {d b m} {s : State} (h : s.Canonical) : Reaches (execVabs16 d b m s) := .half h

theorem Reaches.execVshl16 {d b m} {s : State} (h : s.Canonical) : Reaches (execVshl16 d b m s) := by
  unfold Machine.execVshl16
  split
  next e1 =>
    have h1 := Yields.stop_of_eq e1 .needShiftType
    exact .finish h h1
  · exact .half h

theorem Reaches.execVsra16 {d b m} {s : State} (h : s.Canonical) : Reaches (execVsra16 d b m s) := by
  unfold Machine.execVsra16
  split
  next e1 =>
    have h1 := Yields.stop_of_eq e1 .needShiftType
    exact .finish h h1
  · exact .half h

theorem Reaches.execVsqr {d b m} {s : State} (h : s.Canonical) : Reaches (execVsqr d b m s) := .half h

theorem Reaches.execVsel16 {d b} {s : State} (h : s.Canonical) : Reaches (execVsel16 d b s) :=
  .finish h (.bind .needV fun _ _ => .bind .needV fun _ _ => .bind .freeV fun _ _ => .of_ok (.step2 h))

/-! ### Along the functions of Sys2Proof/Machine/Matrix.lean -/

theorem Yields.needCommand {i a} {s : State} (h : s.Canonical) : Yields (fun _ => True) (needCommand i a s) :=
  .bind .needWf fun _ _ => .bind (.needXs h) fun _ _ => .noPure

theorem State.Canonical.issueCmd {s : State} {c rd rd2 enter} (h : s.Canonical) (hf : ∀ y0 y1, y0.Canonical → (enter y0 y1).Canonical) :
    (issueCmd s c rd rd2 enter).Canonical := by
  unfold Machine.issueCmd
  exact hf _ _ (.step4 h)

theorem Reaches.execMzero {c} {s : State} (h : s.Canonical) : Reaches (execMzero c s) :=
  .finish h (.bind .noPure fun _ _ => .bind (.needUnrollable h) fun _ _ => .bind .needMatrix fun _ _ =>
    .of_ok (.issueCmd h (fun _ _ h1 => .enterMatrix h1)))

theorem Reaches.execMmul {d a b} {s : State} (h : s.Canonical) : Reaches (execMmul d a b s) :=
  .finish h (.bind (.needCommand h) fun _ _ => .bind .freeX fun _ _ => .bind .freeX fun _ _ => .bind (.needUnrollable h) fun _ _ =>
    .bind .needMatrix fun _ _ => .of_ok (.issueCmd h (fun _ _ h1 => .enterMatrix h1)))

theorem Reaches.execMstw {d a} {s : State} (h : s.Canonical) : Reaches (execMstw d a s) :=
  .finish h (.bind (.needCommand h) fun _ _ => .bind .freeX fun _ _ => .bind (.needUnrollable h) fun _ _ => .bind .needMatrix fun _ _ =>
    .of_ok (.issueCmd h (fun _ _ h1 => .enterMatrix h1)))

theorem Reaches.execMldw {d a} {s : State} (h : s.Canonical) : Reaches (execMldw d a s) :=
  .finish h (.bind (.needCommand h) fun _ _ => .bind .freeX fun _ _ => .bind (.needUnrollable h) fun _ _ => .bind .needFront fun _ _ =>
    .of_ok (.issueCmd h (fun _ _ h1 => .enterFront h1)))

theorem Reaches.execMqry {d} {s : State} (h : s.Canonical) : Reaches (execMqry d s) :=
  .finish h (.bind .noPure fun _ _ => .bind .freeX fun _ _ => .bind (.needUnrollable h) fun _ _ => .of_ok (.step4 h))

/-! ### Along the functions of Sys2Proof/Machine/CopyI.lean -/

theorem Reaches.copyOp {i d a} {s : State} (h : s.Canonical) : Reaches (copyOp i d a s) :=
  .finish h (.bind (.needCommand h) fun _ _ => .bind .freeX fun _ _ => .bind (.needUnrollable h) fun _ _ => .bind .needFront fun _ _ =>
    .of_ok (.issueCmd h (fun _ _ h1 => .enterFront h1)))

theorem Yields.needPureCopy {g} {s : State} : Yields (fun _ => True) (needPureCopy g s) := by
  unfold Machine.needPureCopy
  split
  · exact trivial
  · exact .bind (.check trivial) fun _ _ => .bind (.check trivial) fun _ _ => .check trivial

theorem Reaches.execCpy {d a q} {s : State} (h : s.Canonical) : Reaches (execCpy d a q s) :=
  .finish h (.bind .needWf fun _ _ => .bind (.needXs h) fun _ _ => .bind .needPureCopy fun _ _ => .bind .freeX fun _ _ =>
    .bind (.needUnrollable h) fun _ _ => .bind .needFront fun _ _ => .of_ok (.issueCmd (.setMe h) (fun _ _ h1 => .enterFront h1)))

theorem Reaches.execCpyrAddS32 {d a q} {s : State} (h : s.Canonical) : Reaches (execCpyrAddS32 d a q s) := .copyOp h

theorem Reaches.execCpyrAddF32 {d a q} {s : State} (h : s.Canonical) : Reaches (execCpyrAddF32 d a q s) := .copyOp h

theorem Reaches.execCpyrAddBf16 {d a q} {s : State} (h : s.Canonical) : Reaches (execCpyrAddBf16 d a q s) := .copyOp h

theorem Reaches.execCpyrMinS32 {d a q} {s : State} (h : s.Canonical) : Reaches (execCpyrMinS32 d a q s) := .copyOp h

theorem Reaches.execCpyrMaxS32 {d a q} {s : State} (h : s.Canonical) : Reaches (execCpyrMaxS32 d a q s) := .copyOp h

theorem Reaches.execCpyrMinF32 {d a q} {s : State} (h : s.Canonical) : Reaches (execCpyrMinF32 d a q s) := .copyOp h

theorem Reaches.execCpyrMaxF32 {d a q} {s : State} (h : s.Canonical) : Reaches (execCpyrMaxF32 d a q s) := .copyOp h

theorem Reaches.execCpyrAnd {d a q} {s : State} (h : s.Canonical) : Reaches (execCpyrAnd d a q s) := .copyOp h

theorem Reaches.execCpyrOr {d a q} {s : State} (h : s.Canonical) : Reaches (execCpyrOr d a q s) := .copyOp h

theorem Reaches.execCpyg {d a q} {s : State} (h : s.Canonical) : Reaches (execCpyg d a q s) := .copyOp h

theorem Reaches.execCpyh {d a q} {s : State} (h : s.Canonical) : Reaches (execCpyh d a q s) := .copyOp h

theorem Reaches.execCpyx {d a q} {s : State} (h : s.Canonical) : Reaches (execCpyx d a q s) := .copyOp h

theorem Reaches.execCpyq {d q} {s : State} (h : s.Canonical) : Reaches (execCpyq d q s) :=
  .finish h (.bind .noPure fun _ _ => .bind .freeX fun _ _ => .bind (.needUnrollable h) fun _ _ => .of_ok (.step4 h))

/-! ### Along the functions of Sys2Proof/Machine/TaskI.lean -/

theorem Yields.loadDword {s : State} {va} (h : s.Canonical) : Yields (fun r => r.2.Canonical) (loadDword s va) := by
  unfold Machine.loadDword
  refine .bind (P := fun r => r.2.Canonical) ?_ fun ⟨_, s1⟩ h1 => ?_
  · refine .foldlM ?_ fun _ _ h2 => ?_
    · exact h
    · exact .bind (.check trivial) fun _ _ => .bind (.reach h2) fun ⟨_, _⟩ h3 => .bind (.check trivial) fun _ _ =>
        .bind (.readPlace h3) fun _ h4 => h4
  · exact h1

theorem Yields.loadRecords {s : State} {table n} (h : s.Canonical) :
    Yields (fun r => r.2.Canonical) (loadRecords s table n) := by
  unfold Machine.loadRecords
  split
  · refine .foldlM ?_ fun _ _ h1 => ?_
    · exact h
    · exact .bind (.loadDword h1) fun ⟨_, _⟩ h2 => h2
  · exact h

theorem Reaches.execPtask {d a} {s : State} (h : s.Canonical) : Reaches (execPtask d a s) :=
  .finish h (.bind (.needCommand h) fun _ _ => .bind .noV fun _ _ => .bind .freeX fun _ _ => .bind (.needUnrollable h) fun _ _ =>
    .bind .needReleased fun _ _ => .bind (.loadDword h) fun ⟨_, _⟩ h1 => .bind (.loadRecords h1) fun ⟨_, _⟩ h2 =>
      .bind .needFront fun _ _ => .of_ok (.issueCmd h2 (fun _ _ h3 => .enterFront h3)))

theorem Yields.rangeFrames {s : State} {va n} (h : s.Canonical) :
    Yields (fun r => r.2.Canonical) (rangeFrames s va n) := by
  unfold Machine.rangeFrames
  refine .foldlM ?_ fun _ _ h1 => ?_
  · exact h
  · refine .bind (.reach h1) fun ⟨_, s1⟩ h2 => ?_
    split
    next e1 =>
      have h3 := State.Canonical.of_snd e1 h2
      split <;> exact h3

theorem Reaches.execPtinv {a b} {s : State} (h : s.Canonical) : Reaches (execPtinv a b s) := by
  unfold Machine.execPtinv
  refine .finish h ?_
  refine .bind .needX fun _ _ => ?_
  refine .bind .needX fun _ _ => ?_
  refine .bind .noPure fun _ _ => ?_
  refine .bind (.check trivial) fun _ _ => ?_
  refine .bind (.needUnrollable h) fun _ _ => ?_
  refine .bind (.rangeFrames h) fun ⟨_, s1⟩ h1 => ?_
  refine .of_ok ?_
  refine .step4 ?_
  split
  · exact .dropFrames h1
  · exact h1

theorem Reaches.execPtstat {d a} {s : State} (h : s.Canonical) : Reaches (execPtstat d a s) :=
  .finish h (.bind .needX fun _ _ => .bind .noPure fun _ _ => .bind .freeX fun _ _ => .bind (.needUnrollable h) fun _ _ =>
    .of_ok (.step4 h))

/-! ### Along the functions of Sys2Proof/Machine/FabricI.lean -/

theorem Reaches.connOp {i d a} {s : State} (h : s.Canonical) : Reaches (connOp i d a s) :=
  .finish h (.bind (.needCommand h) fun _ _ => .bind .noV fun _ _ => .bind .freeX fun _ _ => .bind (.needUnrollable h) fun _ _ =>
    .bind .needDelivered fun _ _ => .bind .needConnRoom fun _ _ => .of_ok (.issueCmd h (fun _ _ h1 => .enterConn h1)))

theorem Reaches.execNput {d a} {s : State} (h : s.Canonical) : Reaches (execNput d a s) := .connOp h

theorem Reaches.execNget {d a} {s : State} (h : s.Canonical) : Reaches (execNget d a s) := .connOp h

theorem Reaches.execNsend {d a} {s : State} (h : s.Canonical) : Reaches (execNsend d a s) := .connOp h

theorem Reaches.execNrecv {d a} {s : State} (h : s.Canonical) : Reaches (execNrecv d a s) := by
  unfold Machine.execNrecv
  refine .finish h ?_
  refine .bind (.needCommand h) fun _ _ => ?_
  refine .bind .noV fun _ _ => ?_
  refine .bind .freeX fun _ _ => ?_
  refine .bind (.needUnrollable h) fun _ _ => ?_
  refine .bind .needDelivered fun _ _ => ?_
  split
  · exact .ite (.of_ok (.tokenPut (.step4 h))) (.of_ok (.tokenPut (.step4 h)))
  · exact .ite (.of_ok (.tokenPut (.step4 h))) (.ite (.bind (.check trivial) fun _ _ =>
      .of_ok (.postRecv (.performOwn (.step4 h)))) (.of_ok (.tokenPut (.step4 h))))

theorem State.Canonical.addChain {s : State} {c n count} (h : s.Canonical) : (addChain s c n count).Canonical := .pumpAll (.setConn h)

theorem Reaches.execNchain {d a b} {s : State} (h : s.Canonical) : Reaches (execNchain d a b s) :=
  .finish h (.bind .needX fun _ _ => .bind .needX fun _ _ => .bind .needX fun _ _ => .bind .noPure fun _ _ =>
    .bind (.needUnrollable h) fun _ _ => .bind .needDelivered fun _ _ =>
      .ite (.of_ok (.step4 h)) (.ite (.of_ok (.step4 h)) (.of_ok (.addChain (.step4 h)))))

theorem Reaches.execNcnt {d a} {s : State} (h : s.Canonical) : Reaches (execNcnt d a s) :=
  .finish h (.bind .needX fun _ _ => .bind .noPure fun _ _ => .bind .freeX fun _ _ => .bind (.needUnrollable h) fun _ _ =>
    .bind .needDelivered fun _ _ => .ite (.of_ok (.step4 h)) (.of_ok (.step4 h)))

theorem Yields.needQueue {x} {s : State} : Yields (fun _ => True) (needQueue x s) := .bind (.check trivial) fun _ _ => trivial

theorem Reaches.execBqpop {d a} {s : State} (h : s.Canonical) : Reaches (execBqpop d a s) :=
  .finish h (.bind .needX fun _ _ => .bind .noPure fun _ _ => .bind .freeX fun _ _ => .bind .needDelivered fun _ _ =>
    .bind .needQueue fun ⟨_, _⟩ _ => .ite (.of_ok (.step4 (.setAssignq h))) (.of_ok (.step4 h)))

theorem Reaches.execBqdone {a b} {s : State} (h : s.Canonical) : Reaches (execBqdone a b s) :=
  .finish h (.bind .needX fun _ _ => .bind .needX fun _ _ => .bind .noPure fun _ _ => .bind .needDelivered fun _ _ =>
    .bind .needQueue fun ⟨_, _⟩ _ => .ite (.bind .needCount fun _ _ => .ite (.bind .needRoute fun _ _ =>
      .bind (.needUnrollable h) fun _ _ => .bind .needReleased fun _ _ => .ite (.bind .needReply fun _ _ =>
        .of_ok (.step4 (.ite (.putOut (.ite (.setAssignq h) h)) (.ite (.setAssignq h) h)))) (.bind .pass fun _ _ =>
          .of_ok (.step4 (.ite (.putOut (.ite (.setAssignq h) h)) (.ite (.setAssignq h) h))))) (.bind .pass fun _ _ =>
            .bind (.needUnrollable h) fun _ _ => .bind .needReleased fun _ _ => .ite (.bind .needReply fun _ _ =>
              .of_ok (.step4 (.ite (.putOut (.ite (.setAssignq h) h)) (.ite (.setAssignq h) h)))) (.bind .pass fun _ _ =>
                .of_ok (.step4 (.ite (.putOut (.ite (.setAssignq h) h)) (.ite (.setAssignq h) h)))))) (.bind .pass fun _ _ =>
                  .ite (.bind .needRoute fun _ _ => .bind (.needUnrollable h) fun _ _ => .bind .needReleased fun _ _ =>
                    .ite (.bind .needReply fun _ _ => .of_ok (.step4 (.ite (.putOut (.ite (.setAssignq h) h)) (.ite (.setAssignq h) h))))
                      (.bind .pass fun _ _ => .of_ok (.step4 (.ite (.putOut (.ite (.setAssignq h) h)) (.ite (.setAssignq h) h))))) (.bind
                        .pass fun _ _ => .bind (.needUnrollable h) fun _ _ => .bind .needReleased fun _ _ =>
                          .ite (.bind .needReply fun _ _ => .of_ok (.step4 (.ite (.putOut (.ite (.setAssignq h) h)) (.ite
                            (.setAssignq h) h)))) (.bind .pass fun _ _ =>
                              .of_ok (.step4 (.ite (.putOut (.ite (.setAssignq h) h)) (.ite (.setAssignq h) h)))))))

/-! ### Along the functions of Sys2Proof/Machine/Fetch.lean -/

theorem Yields.needPureFetch {va} {s : State} : Yields (fun _ => True) (needPureFetch va s) := by
  unfold Machine.needPureFetch
  split
  · exact .check trivial
  · exact trivial

theorem Yields.fetchHalf {s : State} {va} (h : s.Canonical) : Yields (fun r => r.2.Canonical) (fetchHalf s va) := by
  unfold Machine.fetchHalf
  refine .bind .needPureFetch fun _ _ => ?_
  refine .bind (.reach h) fun ⟨_, s1⟩ h1 => ?_
  split
  next e1 =>
    have h2 := State.Canonical.of_snd e1 h1
    dsimp only
    split
    · exact trivial
    · exact trivial
    · exact .of_ok (.touch (.settleRead h2))

theorem Reaches.execTakePendingTrap {s : State} (h : s.Canonical) : Reaches (execTakePendingTrap s) := by
  unfold Machine.execTakePendingTrap
  split
  · exact .fault
  · split
    · split
      · exact .next (.getD (.enterTrap (.setMe h)) (.setMe h))
      · split
        · exact .next (.freezeHart (.setMe h))
        · exact .next (.getD (.enterTrap (.setMe h)) (.setMe h))

/-! ### Along the functions of Sys2Proof/Machine/HartEvents.lean -/

theorem Reaches.execPutArrival {s : State} (h : s.Canonical) : Reaches (execPutArrival s) := by
  unfold Machine.execPutArrival
  split
  · exact .next (.landPut h)
  · exact .fault

theorem Reaches.execAckArrival {s : State} (h : s.Canonical) : Reaches (execAckArrival s) := by
  unfold Machine.execAckArrival
  split
  · exact .next (.applyAck h)
  · exact .fault

theorem State.Canonical.expireDep {s : State} {core k} (h : s.Canonical) : (expireDep s core k).Canonical := .ite (.freeDep h) h

theorem Reaches.execDepartureExpiry {s : State} (h : s.Canonical) : Reaches (execDepartureExpiry s) := by
  unfold Machine.execDepartureExpiry
  split
  · exact .next (.expireDep h)
  · exact .fault

theorem State.Canonical.returnLoad {s : State} {k id} (h : s.Canonical) : (returnLoad s k id).Canonical := by
  unfold Machine.returnLoad
  split
  · exact .setHart h
  · exact h

theorem Reaches.execLoadReturn {s : State} (h : s.Canonical) : Reaches (execLoadReturn s) := by
  unfold Machine.execLoadReturn
  split
  · exact .next (.returnLoad h)
  · exact .fault

theorem Reaches.execRemoteStashWrite {s : State} (h : s.Canonical) : Reaches (execRemoteStashWrite s) := by
  unfold Machine.execRemoteStashWrite
  split
  · exact .next (.performStore h)
  · exact .fault

theorem Reaches.execStorePerformed {s : State} (h : s.Canonical) : Reaches (execStorePerformed s) := by
  unfold Machine.execStorePerformed
  split
  · exact .next (.performStore h)
  · exact .fault

theorem State.Canonical.replayLog {s : State} {core id} (h : s.Canonical) : (replayLog s core id).Canonical := by
  unfold Machine.replayLog
  split
  · exact .ite (.replayEntry h) h
  · exact h

theorem Reaches.execSideLogReplay {s : State} (h : s.Canonical) : Reaches (execSideLogReplay s) := by
  unfold Machine.execSideLogReplay
  split
  · exact .next (.replayLog h)
  · exact .fault

theorem Reaches.execBarrierUpdate {s : State} (h : s.Canonical) : Reaches (execBarrierUpdate s) := by
  unfold Machine.execBarrierUpdate
  split
  · exact .next (.barrierApply h)
  · exact .fault

theorem Reaches.execSignatureGeneration {s : State} (h : s.Canonical) : Reaches (execSignatureGeneration s) := by
  unfold Machine.execSignatureGeneration
  split
  · exact .next (.rotateSigs h)
  · exact .fault

theorem Reaches.execStmapWrite {s : State} (h : s.Canonical) : Reaches (execStmapWrite s) := by
  unfold Machine.execStmapWrite
  split
  · exact .next (.setStmap (.performOwn h))
  · exact .fault

theorem Reaches.execDirectStart {s : State} (h : s.Canonical) : Reaches (execDirectStart s) := by
  unfold Machine.execDirectStart
  split
  · exact .next (.startDirect h)
  · exact .fault

theorem Reaches.execSubmission {s : State} (h : s.Canonical) : Reaches (execSubmission s) := by
  unfold Machine.execSubmission
  split
  · exact .next (.submit h)
  · exact .fault

theorem Reaches.execLaunchRecordProcess {s : State} (h : s.Canonical) : Reaches (execLaunchRecordProcess s) := by
  unfold Machine.execLaunchRecordProcess
  split
  · exact .next (.processRecord h)
  · exact .fault

theorem State.Canonical.startWaiting {s : State} {l n} (h : s.Canonical) : (startWaiting s l n).Canonical := by
  unfold Machine.startWaiting
  split
  · exact .ite (.startThread h) h
  · exact h

theorem Reaches.execThreadStart {s : State} (h : s.Canonical) : Reaches (execThreadStart s) := by
  unfold Machine.execThreadStart
  split
  · exact .next (.startWaiting h)
  · exact .fault

theorem Reaches.execLaunchBudgetExpiry {s : State} (h : s.Canonical) : Reaches (execLaunchBudgetExpiry s) := by
  unfold Machine.execLaunchBudgetExpiry
  split
  · exact .next (.endBudget h)
  · exact .fault

theorem Reaches.execHroleWrite {s : State} (h : s.Canonical) : Reaches (execHroleWrite s) := by
  unfold Machine.execHroleWrite
  split
  · exact .next (.writeRoles h)
  · exact .fault

theorem Reaches.execHandlerTableWrite {s : State} (h : s.Canonical) : Reaches (execHandlerTableWrite s) := by
  unfold Machine.execHandlerTableWrite
  split
  · exact .next (.writeHandler h)
  · exact .fault

theorem Reaches.execSoftwareQueueWrite {s : State} (h : s.Canonical) : Reaches (execSoftwareQueueWrite s) := by
  unfold Machine.execSoftwareQueueWrite
  split
  · exact .next (.writeSoft h)
  · exact .fault

theorem State.Canonical.undeferSaved {s : State} {e} (h : s.Canonical) : (undeferSaved s e).Canonical := h

theorem State.Canonical.noteDeferred {s : State} {m o} (h : s.Canonical) : (noteDeferred s m o).Canonical :=
  .ite (.ite h (.undeferSaved h)) (.setCore (.ite h (.undeferSaved h)))

theorem State.Canonical.arriveMsg {s : State} {m} (h : s.Canonical) : (arriveMsg s m).Canonical :=
  .sendOutcome (.ite (.kickDispatch (.acceptSlot (.noteDeferred h))) (.noteDeferred h))

theorem State.Canonical.offerAgain {s : State} {m} (h : s.Canonical) : (offerAgain s m).Canonical := .ite (.arriveMsg h) (.sendPacket h)

theorem State.Canonical.statusMsg {s : State} {m code} (h : s.Canonical) : (statusMsg s m code).Canonical := by
  unfold Machine.statusMsg
  split
  · exact h
  · split
    · exact h
    · split
      · exact .setHart h
      · exact .setSaveNat (.imgOr (.setSaveNat h))
      · exact h

theorem State.Canonical.queueReturned {s : State} {m reason} (h : s.Canonical) : (queueReturned s m reason).Canonical :=
  .kickReturned (.setCore (.markReturned h))

theorem State.Canonical.takeOutcome {s : State} {m o} (h : s.Canonical) : (takeOutcome s m o).Canonical := by
  unfold Machine.takeOutcome
  split
  · exact .offerNext (.closeMsg (.statusMsg h))
  · exact .fly h
  · exact .ite (.offerNext (.closeMsg (.statusMsg (.countAt h)))) (.offerNext (.queueReturned (.countAt h)))

theorem Reaches.execMessageArrival {s : State} (h : s.Canonical) : Reaches (execMessageArrival s) := by
  unfold Machine.execMessageArrival
  split
  · exact .next (.arriveMsg h)
  · exact .fault

theorem Reaches.execMessageReoffer {s : State} (h : s.Canonical) : Reaches (execMessageReoffer s) := by
  unfold Machine.execMessageReoffer
  split
  · exact .next (.offerAgain h)
  · exact .fault

theorem Reaches.execMessageOutcome {s : State} (h : s.Canonical) : Reaches (execMessageOutcome s) := by
  unfold Machine.execMessageOutcome
  split
  · exact .next (.takeOutcome h)
  · exact .fault

theorem State.Canonical.drainReturned {s : State} {core} (h : s.Canonical) : (drainReturned s core).Canonical := by
  unfold Machine.drainReturned
  split
  · dsimp only
    split
    · exact .kickReturned (.enterReturned (.setCore h))
    · exact h
  · dsimp only
    split <;> exact h

theorem Reaches.execReturnBufferDrain {s : State} (h : s.Canonical) : Reaches (execReturnBufferDrain s) := by
  unfold Machine.execReturnBufferDrain
  split
  · exact .next (.drainReturned h)
  · exact .fault

theorem State.Canonical.dispatchChannel {s : State} {core c} (h : s.Canonical) :
    (dispatchChannel s core c).Canonical := by
  unfold Machine.dispatchChannel
  split
  · exact h
  · split
    · exact .startActivation h
    · exact h

theorem State.Canonical.dispatchNext {s : State} {core} (h : s.Canonical) : (dispatchNext s core).Canonical := by
  unfold Machine.dispatchNext
  refine .kickDispatch ?_
  split
  · exact .dispatchChannel h
  · split
    · exact .startPure h
    · exact .dispatchChannel h

theorem Reaches.execActivationDispatch {s : State} (h : s.Canonical) : Reaches (execActivationDispatch s) := by
  unfold Machine.execActivationDispatch
  split
  · exact .next (.dispatchNext h)
  · exact .fault

theorem Reaches.execWatchdogExpiry {s : State} (h : s.Canonical) : Reaches (execWatchdogExpiry s) := by
  unfold Machine.execWatchdogExpiry
  split
  · exact .next (.watchdogOut h)
  · exact .fault

theorem Reaches.execWatchdogKill {s : State} (h : s.Canonical) : Reaches (execWatchdogKill s) := by
  unfold Machine.execWatchdogKill
  split
  · exact .next (.watchdogEnd h)
  · exact .fault

theorem Reaches.execRingRecordWrite {s : State} (h : s.Canonical) : Reaches (execRingRecordWrite s) := by
  unfold Machine.execRingRecordWrite
  split
  · exact .next (.writeRecord h)
  · exact .fault

theorem Reaches.execFaultresRetry {s : State} (h : s.Canonical) : Reaches (execFaultresRetry s) := by
  unfold Machine.execFaultresRetry
  split
  · exact .next (.resolve h (fun _ _ h1 => .retryRecord h1))
  · exact .fault

theorem Reaches.execFaultresTerminal {s : State} (h : s.Canonical) : Reaches (execFaultresTerminal s) := by
  unfold Machine.execFaultresTerminal
  split
  · exact .next (.resolve h (fun _ _ h1 => .failRecord h1))
  · exact .fault

theorem Reaches.execFrzThawHart {s : State} (h : s.Canonical) : Reaches (execFrzThawHart s) := by
  unfold Machine.execFrzThawHart
  split
  · exact .next (.ite (.thawHart h) h)
  · exact .fault

theorem Reaches.execFrzThawCq {s : State} (h : s.Canonical) : Reaches (execFrzThawCq s) := by
  unfold Machine.execFrzThawCq
  split
  · exact .next (.ite (.thawQueue h) h)
  · exact .fault

theorem Reaches.execFrzkillHart {s : State} (h : s.Canonical) : Reaches (execFrzkillHart s) := by
  unfold Machine.execFrzkillHart
  split
  · exact .next (.ite (.killFrozen h) h)
  · exact .fault

theorem Reaches.execFrzkillCq {s : State} (h : s.Canonical) : Reaches (execFrzkillCq s) := by
  unfold Machine.execFrzkillCq
  split
  · exact .next (.ite (.killQueue h) h)
  · exact .fault

/-! ### Along the functions of Sys2Proof/Machine/FabricEvents.lean -/

theorem Reaches.execLinkReplay {s : State} (h : s.Canonical) : Reaches (execLinkReplay s) := by
  unfold Machine.execLinkReplay
  split
  · exact .next (.replayLink h)
  · exact .fault

theorem Reaches.execLaneSpare {s : State} (h : s.Canonical) : Reaches (execLaneSpare s) := by
  unfold Machine.execLaneSpare
  split
  · exact .next (.spareLane h)
  · exact .fault

theorem Reaches.execLinkPeerSignal {s : State} (h : s.Canonical) : Reaches (execLinkPeerSignal s) := by
  unfold Machine.execLinkPeerSignal
  split
  · exact .next (.moveLink h)
  · exact .fault

theorem Reaches.execLinkTrained {s : State} (h : s.Canonical) : Reaches (execLinkTrained s) := by
  unfold Machine.execLinkTrained
  split
  · exact .next (.trainLink h)
  · exact .fault

theorem Reaches.execLinkPeerSilent {s : State} (h : s.Canonical) : Reaches (execLinkPeerSilent s) := by
  unfold Machine.execLinkPeerSilent
  split
  · exact .next (.silentLink h)
  · exact .fault

theorem Reaches.execLinkQuiesced {s : State} (h : s.Canonical) : Reaches (execLinkQuiesced s) := by
  unfold Machine.execLinkQuiesced
  split
  · exact .next (.quiesceLink h)
  · exact .fault

theorem Reaches.execLnkcmdQuiesce {s : State} (h : s.Canonical) : Reaches (execLnkcmdQuiesce s) := by
  unfold Machine.execLnkcmdQuiesce
  split
  · exact .next (.kickQuiesced (.moveLink h))
  · exact .fault

theorem Reaches.execLnkcmdDetach {s : State} (h : s.Canonical) : Reaches (execLnkcmdDetach s) := by
  unfold Machine.execLnkcmdDetach
  split
  · exact .next (.moveLink h)
  · exact .fault

theorem Reaches.execLnkcmdResume {s : State} (h : s.Canonical) : Reaches (execLnkcmdResume s) := by
  unfold Machine.execLnkcmdResume
  split
  · exact .next (.moveLink h)
  · exact .fault

theorem Reaches.execLnkcmdReattach {s : State} (h : s.Canonical) : Reaches (execLnkcmdReattach s) := by
  unfold Machine.execLnkcmdReattach
  split
  · exact .next (.moveLink h)
  · exact .fault

theorem Reaches.execFabricPacketReceive {s : State} (h : s.Canonical) : Reaches (execFabricPacketReceive s) := by
  unfold Machine.execFabricPacketReceive
  split
  · exact .next (.receivePacket h)
  · exact .fault

theorem Reaches.execPacketRetransmit {s : State} (h : s.Canonical) : Reaches (execPacketRetransmit s) := by
  unfold Machine.execPacketRetransmit
  split
  · exact .next (.resendPacket h)
  · exact .fault

theorem State.Canonical.removeElem {s : State} {e} (h : s.Canonical) : (removeElem s e).Canonical := .ite h h

theorem Reaches.execRouteRemoval {s : State} (h : s.Canonical) : Reaches (execRouteRemoval s) := by
  unfold Machine.execRouteRemoval
  split
  · exact .next (.removeElem h)
  · exact .fault

theorem Reaches.execPeerLost {s : State} (h : s.Canonical) : Reaches (execPeerLost s) := by
  unfold Machine.execPeerLost
  split
  · exact .next (.losePeer h)
  · exact .fault

theorem Reaches.execConnectionWrite {s : State} (h : s.Canonical) : Reaches (execConnectionWrite s) := by
  unfold Machine.execConnectionWrite
  split
  · exact .next (.writeConn h)
  · exact .fault

theorem Reaches.execFabricCommandComplete {s : State} (h : s.Canonical) : Reaches (execFabricCommandComplete s) := by
  unfold Machine.execFabricCommandComplete
  split
  · exact .next (.commandComplete h)
  · exact .fault

theorem Reaches.execYarrowSendArrival {s : State} (h : s.Canonical) : Reaches (execYarrowSendArrival s) := by
  unfold Machine.execYarrowSendArrival
  split
  · exact .next (.sendArrives h)
  · exact .fault

theorem Reaches.execRendezvousPull {s : State} (h : s.Canonical) : Reaches (execRendezvousPull s) := by
  unfold Machine.execRendezvousPull
  split
  · exact .next (.pullEnds h)
  · exact .fault

theorem Reaches.execNsendRetry {s : State} (h : s.Canonical) : Reaches (execNsendRetry s) := by
  unfold Machine.execNsendRetry
  split
  · exact .next (.retrySend h)
  · exact .fault

theorem Reaches.execAssignQueueWrite {s : State} (h : s.Canonical) : Reaches (execAssignQueueWrite s) := by
  unfold Machine.execAssignQueueWrite
  split
  · exact .next (.writeAssign h)
  · exact .fault

/-! ### Along the functions of Sys2Proof/Machine/EngineEvents.lean -/

theorem Reaches.execEngineCommandStart {s : State} (h : s.Canonical) : Reaches (execEngineCommandStart s) := by
  unfold Machine.execEngineCommandStart
  split
  · exact .next (.engineStart h)
  · exact .fault

theorem Reaches.execCopyPieceDone {s : State} (h : s.Canonical) : Reaches (execCopyPieceDone s) := by
  unfold Machine.execCopyPieceDone
  split
  · exact .next (.pieceDone h)
  · exact .fault

theorem Reaches.execLeaveGrant {s : State} (h : s.Canonical) : Reaches (execLeaveGrant s) := by
  unfold Machine.execLeaveGrant
  split
  · exact .next (.grantLeave h)
  · exact .fault

theorem Reaches.execCloverRefill {s : State} (h : s.Canonical) : Reaches (execCloverRefill s) := by
  unfold Machine.execCloverRefill
  split
  · exact .next (.refillPools h)
  · exact .fault

theorem Reaches.execLandingHandlerStart {s : State} (h : s.Canonical) : Reaches (execLandingHandlerStart s) := by
  unfold Machine.execLandingHandlerStart
  split
  · exact .next (.landingArrival h)
  · exact .fault

theorem Reaches.execMatrixStepComplete {s : State} (h : s.Canonical) : Reaches (execMatrixStepComplete s) := by
  unfold Machine.execMatrixStepComplete
  split
  · exact .next (.unitStep h)
  · exact .fault

theorem Reaches.execArrayGate {s : State} (h : s.Canonical) : Reaches (execArrayGate s) := by
  unfold Machine.execArrayGate
  split
  · exact .next (.gateQuarter h)
  · exact .fault

theorem Reaches.execArrayWakeDone {s : State} (h : s.Canonical) : Reaches (execArrayWakeDone s) := by
  unfold Machine.execArrayWakeDone
  split
  · exact .next (.wakeDone h)
  · exact .fault

theorem Reaches.execMxwtWrite {s : State} (h : s.Canonical) : Reaches (execMxwtWrite s) := by
  unfold Machine.execMxwtWrite
  split
  · exact .next (.writeMxwt h)
  · exact .fault

theorem Reaches.execMxidleWrite {s : State} (h : s.Canonical) : Reaches (execMxidleWrite s) := by
  unfold Machine.execMxidleWrite
  split
  · exact .next (.writeMxidle h)
  · exact .fault

theorem Reaches.execChicoryLookup {s : State} (h : s.Canonical) : Reaches (execChicoryLookup s) := by
  unfold Machine.execChicoryLookup
  split
  · exact .next (.taskLookup h)
  · exact .fault

theorem State.Canonical.invalidate {s : State} {f} (h : s.Canonical) : (invalidate s f).Canonical := h

theorem Reaches.execChicoryInvalidation {s : State} (h : s.Canonical) : Reaches (execChicoryInvalidation s) := by
  unfold Machine.execChicoryInvalidation
  split
  · exact .next (.invalidate h)
  · exact .fault

/-! ### Along the functions of Sys2Proof/Machine/PlatformEvents.lean -/

theorem Reaches.execRegisterWrite {s : State} (h : s.Canonical) : Reaches (execRegisterWrite s) := by
  unfold Machine.execRegisterWrite
  split
  · exact .next (.writeRegister h)
  · exact .fault

theorem Reaches.execClassMapWrite {s : State} (h : s.Canonical) : Reaches (execClassMapWrite s) := by
  unfold Machine.execClassMapWrite
  split
  · exact .next (.writeClass h)
  · exact .fault

theorem Reaches.execRingEnable {s : State} (h : s.Canonical) : Reaches (execRingEnable s) := by
  unfold Machine.execRingEnable
  split
  · exact .next (.enableRing h)
  · exact .fault

theorem Reaches.execRingRdWrite {s : State} (h : s.Canonical) : Reaches (execRingRdWrite s) := by
  unfold Machine.execRingRdWrite
  split
  · exact .next (.writeRd h)
  · exact .fault

theorem Reaches.execVfThaw {s : State} (h : s.Canonical) : Reaches (execVfThaw s) := by
  unfold Machine.execVfThaw
  split
  · exact .next (.thawVfs h)
  · exact .fault

theorem Reaches.execVfKill {s : State} (h : s.Canonical) : Reaches (execVfKill s) := by
  unfold Machine.execVfKill
  split
  · exact .next (.killVfs h)
  · exact .fault

theorem Reaches.execFeataccWrite {s : State} (h : s.Canonical) : Reaches (execFeataccWrite s) := by
  unfold Machine.execFeataccWrite
  split
  · exact .next (.writeFeat h)
  · exact .fault

theorem Reaches.execNodeidWrite {s : State} (h : s.Canonical) : Reaches (execNodeidWrite s) := by
  unfold Machine.execNodeidWrite
  split
  · exact .next (.writeNode h)
  · exact .fault

theorem Reaches.execPartitionWrite {s : State} (h : s.Canonical) : Reaches (execPartitionWrite s) := by
  unfold Machine.execPartitionWrite
  split
  · exact .next (.writePart h)
  · exact .fault

theorem Reaches.execSliceEnd {s : State} (h : s.Canonical) : Reaches (execSliceEnd s) := by
  unfold Machine.execSliceEnd
  split
  · exact .next (.beginSlice h)
  · exact .fault

theorem Reaches.execSliceEndDone {s : State} (h : s.Canonical) : Reaches (execSliceEndDone s) := by
  unfold Machine.execSliceEndDone
  split
  · exact .next (.endSlice h)
  · exact .fault

theorem Reaches.execRestore {s : State} (h : s.Canonical) : Reaches (execRestore s) := by
  unfold Machine.execRestore
  split
  · exact .next (.beginRestore h)
  · exact .fault

theorem Reaches.execRestoreDone {s : State} (h : s.Canonical) : Reaches (execRestoreDone s) := by
  unfold Machine.execRestoreDone
  split
  · exact .next (.endRestore h)
  · exact .fault

theorem Reaches.execTeardown {s : State} (h : s.Canonical) : Reaches (execTeardown s) := by
  unfold Machine.execTeardown
  split
  · exact .next (.tearDown h)
  · exact .fault

theorem Reaches.execTbuTick {s : State} (h : s.Canonical) : Reaches (execTbuTick s) := by
  unfold Machine.execTbuTick
  split
  · exact .next (.tbuPass h)
  · exact .fault

theorem Reaches.execEbudgetWindow {s : State} (h : s.Canonical) : Reaches (execEbudgetWindow s) := by
  unfold Machine.execEbudgetWindow
  split
  · exact .next (.newWindow h)
  · exact .fault

theorem Reaches.execBoot {s : State} : Reaches (execBoot s) := by
  unfold Machine.execBoot
  split
  · exact .next .bootUp
  · exact .fault

theorem Reaches.execAttnonceWrite {s : State} (h : s.Canonical) : Reaches (execAttnonceWrite s) := by
  unfold Machine.execAttnonceWrite
  split
  · exact .next (.writeNonce h)
  · exact .fault

theorem State.Canonical.reportDone {s : State} (h : s.Canonical) : (reportDone s).Canonical := h

theorem Reaches.execAttestationReportDone {s : State} (h : s.Canonical) : Reaches (execAttestationReportDone s) := by
  unfold Machine.execAttestationReportDone
  split
  · exact .next (.reportDone h)
  · exact .fault

theorem Reaches.execLockstepMismatch {s : State} (h : s.Canonical) : Reaches (execLockstepMismatch s) := by
  unfold Machine.execLockstepMismatch
  split
  · exact .next (.mismatch h)
  · exact .fault

theorem Reaches.execEmthrotAssert {s : State} (h : s.Canonical) : Reaches (execEmthrotAssert s) := by
  unfold Machine.execEmthrotAssert
  split
  · exact .next (.throttleOn h)
  · exact .fault

theorem Reaches.execEmthrotRelease {s : State} (h : s.Canonical) : Reaches (execEmthrotRelease s) := by
  unfold Machine.execEmthrotRelease
  split
  · exact .next (.throttleOff h)
  · exact .fault

theorem State.Canonical.trayHigh {s : State} (h : s.Canonical) : (trayHigh s).Canonical := h

theorem Reaches.execTraypresNHigh {s : State} (h : s.Canonical) : Reaches (execTraypresNHigh s) := by
  unfold Machine.execTraypresNHigh
  split
  · exact .next (.trayHigh h)
  · exact .fault

theorem Reaches.execI3cPrivateWrite {s : State} (h : s.Canonical) : Reaches (execI3cPrivateWrite s) := by
  unfold Machine.execI3cPrivateWrite
  split
  · exact .next (.i3cWrite h)
  · exact .fault

theorem Reaches.execI3cPrivateRead {s : State} (h : s.Canonical) : Reaches (execI3cPrivateRead s) := by
  unfold Machine.execI3cPrivateRead
  split
  · exact .next (.i3cRead h)
  · exact .fault

theorem Reaches.execI3cBroadcastCap {s : State} (h : s.Canonical) : Reaches (execI3cBroadcastCap s) := by
  unfold Machine.execI3cBroadcastCap
  split
  · exact .next (.i3cCap h)
  · exact .fault

/-! ### Along the functions of Sys2Proof/Machine/Run.lean -/

theorem State.Canonical.endYield {s : State} {k rs} (h : s.Canonical) : (endYield s k rs).Canonical := .ite (.setHart h) h

theorem State.Canonical.endYields {s : State} {k} (h : s.Canonical) : (endYields s k).Canonical :=
  .foldl h fun _ _ h1 => .ite (.setHart h1) h1

theorem State.Canonical.reselect {s : State} (h : s.Canonical) : (reselect s).Canonical := by
  unfold Machine.reselect
  split
  · exact .frame (.endYield h)
  · exact h

theorem State.Canonical.markWaits {s : State} (h : s.Canonical) : (markWaits s).Canonical := by
  unfold Machine.markWaits
  refine .foldl h fun _ _ h1 => ?_
  split
  · split
    · exact .setHart h1
    · exact h1
  · exact h1

theorem State.Canonical.select {s : State} (h : s.Canonical) : (select s).Canonical := by
  unfold Machine.select
  split
  · exact .frame (.endYield h)
  · exact .reselect h

theorem State.Canonical.moveSlice {s : State} {p} (h : s.Canonical) : (moveSlice s p).Canonical :=
  .ite (.ite (.fly (.saveThreads h)) (.saveThreads h)) (.ite (.fly h) h)

theorem State.Canonical.housekeep {s : State} (h : s.Canonical) : (housekeep s).Canonical :=
  .ite h (.foldl (.foldl (.kickStarts (.kickRings h)) fun _ _ h1 => .kickService h1) fun _ _ h2 => .moveSlice h2)

theorem State.Canonical.settle {s : State} (h : s.Canonical) : (settle s).Canonical := .select (.markWaits (.housekeep h))

theorem State.Canonical.passAsleep {s : State} {k c} (h : s.Canonical) : (passAsleep s k c).Canonical := .ite h (.setCore h)

theorem State.Canonical.noteIssue {s : State} {k resident} (h : s.Canonical) : (noteIssue s k resident).Canonical :=
  .ite h (.setCore (.endYields (.foldl h fun _ _ h1 => .passAsleep h1)))

theorem State.Canonical.passHart {cyc} {s : State} {k} (h : s.Canonical) : (passHart cyc s k).Canonical :=
  .ite (.ite (.fly (.setHart h)) (.setHart h)) (.setHart h)

theorem State.Canonical.passDeps {s : State} {core} (h : s.Canonical) : (passDeps s core).Canonical :=
  .foldl h fun _ _ h1 => .ite (.fly h1) h1

theorem State.Canonical.passCluster {cyc} {s : State} {c} (h : s.Canonical) : (passCluster cyc s c).Canonical :=
  .ite (.foldl (.setCluster h) fun _ _ h1 => .ite h1 (.fly h1)) (.setCluster h)

theorem State.Canonical.passWindow {s : State} {p} (h : s.Canonical) : (passWindow s p).Canonical := .ite (.fly h) h

theorem State.Canonical.passConn {ns} {s : State} {c} (h : s.Canonical) : (passConn ns s c).Canonical :=
  .ite h (.ite (.fly (.setConn h)) (.setConn h))

theorem State.Canonical.passTick {s : State} {x1} (h : s.Canonical) : (passTick s x1).Canonical := .fly (.fly h)

theorem State.Canonical.passIdle {cyc} {s : State} (h : s.Canonical) : (passIdle cyc s).Canonical := h

theorem State.Canonical.passLock {cyc} {s : State} {k} (h : s.Canonical) : (passLock cyc s k).Canonical := by
  unfold Machine.passLock
  split
  · exact h
  · exact .ite (.fly h) h

theorem State.Canonical.passTime {s : State} {ns cyc} (h : s.Canonical) : (passTime s ns cyc).Canonical :=
  .foldl (.foldl (.foldl (.foldl (.foldl (.foldl (.foldl (.foldl (.foldl h fun _ _ h1 => .passTick h1) fun _ _ h2 =>
    .passHart h2) fun _ _ h3 => .passDeps h3) fun _ _ h4 => .passCluster h4) fun _ _ h5 => .passWindow h5) fun _ _ h6 =>
      .passLock h6) fun _ _ h7 => .passConn h7) fun _ _ h8 => .kickResends h8) fun _ _ h9 => .passNode h9

theorem State.Canonical.settleIssue {k resident} {s : State} (h : s.Canonical) :
    (settleIssue k resident s).Canonical := by
  unfold Machine.settleIssue
  exact .reselect (.markWaits (.housekeep (.passTime (.noteIssue h))))

theorem MemSys.Canonical.giveUpCopy {ms : MemSys} {holder key} (h : ms.Canonical) : (giveUpCopy ms holder key).Canonical :=
  .ite h h

theorem MemSys.Canonical.forgetSig {ms : MemSys} {g line} (h : ms.Canonical) : (forgetSig ms g line).Canonical := h

theorem MemSys.Canonical.addError {ms : MemSys} {line correctable} (h : ms.Canonical) : (addError ms line correctable).Canonical :=
  .ite h h

theorem State.Canonical.setLockstep {s : State} {k context} (h : s.Canonical) : (setLockstep s k context).Canonical :=
  .ite h h

theorem State.Canonical.upsetLockstep {s : State} {k r v} (h : s.Canonical) : (upsetLockstep s k r v).Canonical :=
  .ite h h

theorem State.Canonical.evictLine {s : State} {die line} (h : s.Canonical) : (evictLine s die line).Canonical :=
  .ite h (.of_ms (.frame (.dropDie (State.Canonical.writeBackDie h))))

theorem State.Canonical.actTurn {s : State} {x1} (h : s.Canonical) : (actTurn s x1).Canonical := by
  unfold Machine.actTurn
  split
  · exact .passIdle (.passTime h)
  · exact .setHart h
  · exact .of_ms (.giveUpCopy h)
  · exact h
  · exact .evictLine h
  · exact h
  · exact .of_ms (.forgetSig h)
  · exact .of_ms (.addError h)
  · exact .chargeCore h
  · exact .chargeCore h
  · exact h
  · exact h
  · exact .ackLink h
  · exact .laneError h
  · exact .ite h h
  · exact .setLockstep h
  · exact .upsetLockstep h
  · exact h
  · exact h
  · exact h
  · exact h
  · exact h
  · exact h

theorem Reaches.idleStep {s : State} (h : s.Canonical) : Reaches (idleStep s) := .next (.settle (.passIdle (.passTime h)))

theorem State.Canonical.withoutHarts {s : State} {hs} (h : s.Canonical) : (withoutHarts s hs).Canonical := h

theorem State.Canonical.repeatPair {s t : State} {k} (h : t.Canonical) :
    (repeatPair s t k).Canonical := by
  unfold Machine.repeatPair
  dsimp only
  split
  · exact h
  · split
    · exact .ite h (.ite h h)
    · exact .ite h h

theorem State.Canonical.repeatLock {s t : State} (h : t.Canonical) :
    (repeatLock s t).Canonical := by
  unfold Machine.repeatLock
  split
  · exact h
  · split
    · exact h
    · exact h
    · exact .foldl h fun _ _ h1 => .repeatPair h1



/-! ### The end of an activation, the fetch, and one step -/

theorem Yields.endActivation {s : State} (h : s.Canonical) : Yields State.Canonical (endActivation s) := by
  unfold Machine.endActivation
  refine .bind (.check trivial) fun _ _ => ?_
  split
  · exact .hendPure h
  · have hf : Yields State.Canonical (Machine.flush (leaveSlotOf s s.cur) true) := .flush (.leaveSlotOf h)
    have hl : ∀ t : State, t.Canonical → Yields State.Canonical (match t.me.slot with
      | .landing _ => .ok (Machine.endLanding t t.cur)
      | _ => .ok (Machine.freeActivation t t.cur)) := by
      intro t ht
      split
      · exact .of_ok (.endLanding ht)
      · exact .of_ok (.freeActivation ht)
    dsimp only
    split
    next e => exact Yields.stop_of_eq e hf
    next e =>
      split
      · exact Yields.stop_of_eq e hf
      · exact State.Canonical.leaveSlotOf h
    · exact .bind hf hl

theorem Yields.endOccupant {s : State} (h : s.Canonical) : Yields State.Canonical (endOccupant s) := by
  unfold Machine.endOccupant
  exact .ite (.endActivation h) (.leaveThread h)

/-- A fetch that delivers a state delivers a canonical one. -/
def Fetched.Canonical : Fetched → Prop
  | .instr _ s => s.Canonical
  | .illegal _ s => s.Canonical
  | .fault e => e.Canonical

theorem Fetched.Canonical.fetched {d bits} {s : State} (h : s.Canonical) : (fetched d bits s).Canonical := by
  unfold Machine.fetched
  split
  · exact h
  · exact h

theorem Fetched.Canonical.fetch {s : State} (h : s.Canonical) : (fetch s).Canonical := by
  unfold Machine.fetch
  have hlo : Yields (fun r => r.2.Canonical) (fetchHalf s s.me.pc) := .fetchHalf h
  split
  next e => exact hlo.stop_of_eq e
  next e =>
    have hs := hlo.of_eq e
    split
    · split
      next e => exact Yields.stop_of_eq e (.fetchHalf hs)
      next e => exact .fetched (Yields.of_eq (P := fun r => r.2.Canonical) e (.fetchHalf hs))
    · exact .fetched hs

theorem Reaches.execExit {s : State} (h : s.Canonical) : Reaches (execExit s) := .finish h (.endOccupant h)

theorem Reaches.execHend {s : State} (h : s.Canonical) : Reaches (execHend s) := .finish h (.endOccupant h)

theorem Reaches.execIllegalEncoding {s : State} (h : s.Canonical) : Reaches (execIllegalEncoding s) := by
  have hf : (fetch s).Canonical := .fetch h
  unfold Machine.execIllegalEncoding
  split
  next e =>
    rw [e] at hf
    exact .next (.trapNow hf)
  · exact .fault

theorem Reaches.execInstructionFetchFault {s : State} (h : s.Canonical) : Reaches (execInstructionFetchFault s) := by
  have hf : (fetch s).Canonical := .fetch h
  unfold Machine.execInstructionFetchFault
  split
  next e =>
    rw [e] at hf
    exact .next (.stopped h hf)
  · exact .fault

theorem Reaches.onNext {f : State → State} {o} (hf : ∀ s, s.Canonical → (f s).Canonical) (h : Reaches o) : Reaches (onNext f o) := by
  cases o with
  | next s => exact .next (hf s (h s rfl))
  | fault e => exact .fault
  | refused r => exact .refused

theorem Reaches.exec {s : State} (h : s.Canonical) (i : Instr) : Reaches (exec i s) := by
  cases i with
  | add => exact .execAdd h
  | sub => exact .execSub h
  | min => exact .execMin h
  | max => exact .execMax h
  | minu => exact .execMinu h
  | maxu => exact .execMaxu h
  | slt => exact .execSlt h
  | sltu => exact .execSltu h
  | and => exact .execAnd h
  | or => exact .execOr h
  | xor => exact .execXor h
  | andn => exact .execAndn h
  | orn => exact .execOrn h
  | xnor => exact .execXnor h
  | sll => exact .execSll h
  | srl => exact .execSrl h
  | sra => exact .execSra h
  | rol => exact .execRol h
  | ror => exact .execRor h
  | mul => exact .execMul h
  | mulh => exact .execMulh h
  | mulhu => exact .execMulhu h
  | div => exact .execDiv h
  | divu => exact .execDivu h
  | rem => exact .execRem h
  | remu => exact .execRemu h
  | clz => exact .execClz h
  | ctz => exact .execCtz h
  | popc => exact .execPopc h
  | brev => exact .execBrev h
  | bext => exact .execBext h
  | bins => exact .execBins h
  | addi => exact .execAddi h
  | andi => exact .execAndi h
  | ori => exact .execOri h
  | xori => exact .execXori h
  | slli => exact .execSlli h
  | srli => exact .execSrli h
  | srai => exact .execSrai h
  | slti => exact .execSlti h
  | lih => exact .execLih h
  | lpc => exact .execLpc h
  | beq => exact .execBeq h
  | bne => exact .execBne h
  | blt => exact .execBlt h
  | bge => exact .execBge h
  | bltu => exact .execBltu h
  | bgeu => exact .execBgeu h
  | brdy => exact .execBrdy h
  | bnrdy => exact .execBnrdy h
  | jl => exact .execJl h
  | jlr => exact .execJlr h
  | ldB => exact .execLdB h
  | ldH => exact .execLdH h
  | ldW => exact .execLdW h
  | ldD => exact .execLdD h
  | lduB => exact .execLduB h
  | lduH => exact .execLduH h
  | lduW => exact .execLduW h
  | ldT => exact .execLdT h
  | stB => exact .execStB h
  | stH => exact .execStH h
  | stW => exact .execStW h
  | stD => exact .execStD h
  | stT => exact .execStT h
  | ldAq => exact .execLdAq h
  | stRl => exact .execStRl h
  | ldto => exact .execLdto h
  | ldtoW => exact .execLdtoW h
  | amoswapW => exact .execAmoswapW h
  | amoswapD => exact .execAmoswapD h
  | amoaddW => exact .execAmoaddW h
  | amoaddD => exact .execAmoaddD h
  | amoandW => exact .execAmoandW h
  | amoandD => exact .execAmoandD h
  | amoorW => exact .execAmoorW h
  | amoorD => exact .execAmoorD h
  | amoxorW => exact .execAmoxorW h
  | amoxorD => exact .execAmoxorD h
  | amominW => exact .execAmominW h
  | amominD => exact .execAmominD h
  | amomaxW => exact .execAmomaxW h
  | amomaxD => exact .execAmomaxD h
  | amominuW => exact .execAmominuW h
  | amominuD => exact .execAmominuD h
  | amomaxuW => exact .execAmomaxuW h
  | amomaxuD => exact .execAmomaxuD h
  | amocasW => exact .execAmocasW h
  | amocasD => exact .execAmocasD h
  | amofaddW => exact .execAmofaddW h
  | barexp => exact .execBarexp h
  | bararr => exact .execBararr h
  | barwait => exact .execBarwait h
  | rput => exact .execRput h
  | rputS => exact .execRputS h
  | rputv => exact .execRputv h
  | rputvS => exact .execRputvS h
  | arm => exact .execArm h
  | armv => exact .execArmv h
  | msend => exact .execMsend h
  | msendS => exact .execMsendS h
  | callat => exact .execCallat h
  | hmask => exact .execHmask h
  | hunmask => exact .execHunmask h
  | qpop => exact Reaches.execQpop (_x := 0#5) h
  | qadv => exact Reaches.execQadv (_x := 0#5) h
  | qcnt => exact Reaches.execQcnt (_x := 0#12) h
  | qcfg => exact .execQcfg h
  | qwait => exact Reaches.execQwait (_x := 0#5) h
  | csrr => exact .execCsrr h
  | csrw => exact .execCsrw h
  | csrs => exact .execCsrs h
  | csrc => exact .execCsrc h
  | tlbinvAll => exact .execTlbinvAll h
  | tlbinvAsid => exact .execTlbinvAsid h
  | tlbinvVa => exact .execTlbinvVa h
  | tlbinvStage2 => exact .execTlbinvStage2 h
  | park => exact .execPark h
  | resume => exact .execResume h
  | migrate => exact .execMigrate h
  | spawn => exact .execSpawn h
  | armlr => exact .execArmlr h
  | lchk => exact .execLchk h
  | rwb => exact .execRwb h
  | rinv => exact .execRinv h
  | disc => exact .execDisc h
  | pin => exact .execPin h
  | unpin => exact .execUnpin h
  | pref => exact .execPref h
  | vadd => exact .execVadd h
  | vsub => exact .execVsub h
  | vmul => exact .execVmul h
  | vmulh => exact .execVmulh h
  | vmin => exact .execVmin h
  | vmax => exact .execVmax h
  | vand => exact .execVand h
  | vor => exact .execVor h
  | vxor => exact .execVxor h
  | vshl => exact .execVshl h
  | vshr => exact .execVshr h
  | vsra => exact .execVsra h
  | vabs => exact .execVabs h
  | vneg => exact .execVneg h
  | vadds => exact .execVadds h
  | vsubs => exact .execVsubs h
  | vmad => exact .execVmad h
  | vfadd => exact .execVfadd h
  | vfsub => exact .execVfsub h
  | vfmul => exact .execVfmul h
  | vfma => exact .execVfma h
  | vfmin => exact .execVfmin h
  | vfmax => exact .execVfmax h
  | vfabs => exact .execVfabs h
  | vfneg => exact .execVfneg h
  | vexp2 => exact .execVexp2 h
  | vlog2 => exact .execVlog2 h
  | vrcp => exact .execVrcp h
  | vrsq => exact .execVrsq h
  | vld => exact .execVld h
  | vst => exact .execVst h
  | vlds => exact .execVlds h
  | vsts => exact .execVsts h
  | vgath => exact .execVgath h
  | vscat => exact .execVscat h
  | vldT => exact .execVldT h
  | vstT => exact .execVstT h
  | vbcast => exact .execVbcast h
  | vgetl => exact .execVgetl h
  | vsetl => exact .execVsetl h
  | vperm => exact .execVperm h
  | vslide => exact .execVslide h
  | vmovm => exact .execVmovm h
  | vsett => exact .execVsett h
  | vrsum => exact .execVrsum h
  | vrmax => exact .execVrmax h
  | vrmin => exact .execVrmin h
  | vpsum => exact .execVpsum h
  | vcvtBf16F32 => exact .execVcvtBf16F32 h
  | vcvtF32Bf16 => exact .execVcvtF32Bf16 h
  | vcvtF32S32 => exact .execVcvtF32S32 h
  | vcvtS32F32 => exact .execVcvtS32F32 h
  | vcvtS32S8 => exact .execVcvtS32S8 h
  | vcvtS8S32 => exact .execVcvtS8S32 h
  | vlgx => exact .execVlgx h
  | vlgq => exact .execVlgq h
  | vceq => exact .execVceq h
  | vclt => exact .execVclt h
  | vcle => exact .execVcle h
  | vsel => exact .execVsel h
  | mand => exact .execMand h
  | mor => exact .execMor h
  | mnot => exact .execMnot h
  | mpopc => exact .execMpopc h
  | blkunp => exact .execBlkunp h
  | blkpk => exact .execBlkpk h
  | blkaddq => exact .execBlkaddq h
  | blkhdr => exact .execBlkhdr h
  | blkscl => exact .execBlkscl h
  | vmov16 => exact .execVmov16 h
  | vadd16 => exact .execVadd16 h
  | vsub16 => exact .execVsub16 h
  | vmul16 => exact .execVmul16 h
  | vmad16 => exact .execVmad16 h
  | vmin16 => exact .execVmin16 h
  | vmax16 => exact .execVmax16 h
  | vand16 => exact .execVand16 h
  | vor16 => exact .execVor16 h
  | vxor16 => exact .execVxor16 h
  | vneg16 => exact .execVneg16 h
  | vabs16 => exact .execVabs16 h
  | vshl16 => exact .execVshl16 h
  | vsra16 => exact .execVsra16 h
  | vsel16 => exact .execVsel16 h
  | vsqr => exact .execVsqr h
  | mzero => exact .execMzero h
  | mmul => exact .execMmul h
  | mstw => exact .execMstw h
  | mldw => exact .execMldw h
  | mqry => exact .execMqry h
  | cpy => exact .execCpy h
  | cpyrAddS32 => exact .execCpyrAddS32 h
  | cpyrAddF32 => exact .execCpyrAddF32 h
  | cpyrAddBf16 => exact .execCpyrAddBf16 h
  | cpyrMinS32 => exact .execCpyrMinS32 h
  | cpyrMaxS32 => exact .execCpyrMaxS32 h
  | cpyrMinF32 => exact .execCpyrMinF32 h
  | cpyrMaxF32 => exact .execCpyrMaxF32 h
  | cpyrAnd => exact .execCpyrAnd h
  | cpyrOr => exact .execCpyrOr h
  | cpyg => exact .execCpyg h
  | cpyh => exact .execCpyh h
  | cpyx => exact .execCpyx h
  | cpyq => exact .execCpyq h
  | ptask => exact .execPtask h
  | ptinv => exact .execPtinv h
  | ptstat => exact .execPtstat h
  | nput => exact .execNput h
  | nget => exact .execNget h
  | nsend => exact .execNsend h
  | nrecv => exact .execNrecv h
  | nchain => exact .execNchain h
  | ncnt => exact .execNcnt h
  | bqpop => exact .execBqpop h
  | bqdone => exact .execBqdone h
  | fence => exact .execFence h
  | fenceE => exact .execFenceE h
  | iflush => exact .execIflush h
  | hend => exact .execHend h
  | syscall => exact .execSyscall h
  | brk => exact .execBrk h
  | tret => exact .execTret h
  | idle => exact .execIdle h
  | yield => exact .execYield h
  | exit => exact .execExit h
  | takePendingTrap => exact .execTakePendingTrap h
  | registerWrite => exact .execRegisterWrite h
  | hroleWrite => exact .execHroleWrite h
  | putArrival => exact .execPutArrival h
  | ackArrival => exact .execAckArrival h
  | departureExpiry => exact .execDepartureExpiry h
  | loadReturn => exact .execLoadReturn h
  | remoteStashWrite => exact .execRemoteStashWrite h
  | sideLogReplay => exact .execSideLogReplay h
  | directStart => exact .execDirectStart h
  | submission => exact .execSubmission h
  | launchRecordProcess => exact .execLaunchRecordProcess h
  | threadStart => exact .execThreadStart h
  | signatureGeneration => exact .execSignatureGeneration h
  | stmapWrite => exact .execStmapWrite h
  | barrierUpdate => exact .execBarrierUpdate h
  | handlerTableWrite => exact .execHandlerTableWrite h
  | softwareQueueWrite => exact .execSoftwareQueueWrite h
  | messageArrival => exact .execMessageArrival h
  | messageReoffer => exact .execMessageReoffer h
  | messageOutcome => exact .execMessageOutcome h
  | returnBufferDrain => exact .execReturnBufferDrain h
  | activationDispatch => exact .execActivationDispatch h
  | watchdogExpiry => exact .execWatchdogExpiry h
  | watchdogKill => exact .execWatchdogKill h
  | ringRecordWrite => exact .execRingRecordWrite h
  | faultresRetry => exact .execFaultresRetry h
  | faultresTerminal => exact .execFaultresTerminal h
  | frzThawHart => exact .execFrzThawHart h
  | frzThawCq => exact .execFrzThawCq h
  | frzkillHart => exact .execFrzkillHart h
  | frzkillCq => exact .execFrzkillCq h
  | connectionWrite => exact .execConnectionWrite h
  | fabricPacketReceive => exact .execFabricPacketReceive h
  | packetRetransmit => exact .execPacketRetransmit h
  | routeRemoval => exact .execRouteRemoval h
  | peerLost => exact .execPeerLost h
  | fabricCommandComplete => exact .execFabricCommandComplete h
  | linkReplay => exact .execLinkReplay h
  | laneSpare => exact .execLaneSpare h
  | linkPeerSignal => exact .execLinkPeerSignal h
  | linkTrained => exact .execLinkTrained h
  | linkPeerSilent => exact .execLinkPeerSilent h
  | linkQuiesced => exact .execLinkQuiesced h
  | lnkcmdQuiesce => exact .execLnkcmdQuiesce h
  | lnkcmdDetach => exact .execLnkcmdDetach h
  | lnkcmdResume => exact .execLnkcmdResume h
  | lnkcmdReattach => exact .execLnkcmdReattach h
  | yarrowSendArrival => exact .execYarrowSendArrival h
  | rendezvousPull => exact .execRendezvousPull h
  | nsendRetry => exact .execNsendRetry h
  | assignQueueWrite => exact .execAssignQueueWrite h
  | engineCommandStart => exact .execEngineCommandStart h
  | leaveGrant => exact .execLeaveGrant h
  | cloverRefill => exact .execCloverRefill h
  | matrixStepComplete => exact .execMatrixStepComplete h
  | arrayGate => exact .execArrayGate h
  | arrayWakeDone => exact .execArrayWakeDone h
  | mxwtWrite => exact .execMxwtWrite h
  | mxidleWrite => exact .execMxidleWrite h
  | copyPieceDone => exact .execCopyPieceDone h
  | landingHandlerStart => exact .execLandingHandlerStart h
  | chicoryInvalidation => exact .execChicoryInvalidation h
  | classMapWrite => exact .execClassMapWrite h
  | ebudgetWindow => exact .execEbudgetWindow h
  | lockstepMismatch => exact .execLockstepMismatch h
  | sliceEnd => exact .execSliceEnd h
  | sliceEndDone => exact .execSliceEndDone h
  | restore => exact .execRestore h
  | restoreDone => exact .execRestoreDone h
  | teardown => exact .execTeardown h
  | partitionWrite => exact .execPartitionWrite h
  | tbuTick => exact .execTbuTick h
  | launchBudgetExpiry => exact .execLaunchBudgetExpiry h
  | ringEnable => exact .execRingEnable h
  | ringRdWrite => exact .execRingRdWrite h
  | vfThaw => exact .execVfThaw h
  | vfKill => exact .execVfKill h
  | feataccWrite => exact .execFeataccWrite h
  | boot => exact .execBoot
  | nodeidWrite => exact .execNodeidWrite h
  | attnonceWrite => exact .execAttnonceWrite h
  | attestationReportDone => exact .execAttestationReportDone h
  | emthrotAssert => exact .execEmthrotAssert h
  | emthrotRelease => exact .execEmthrotRelease h
  | traypresNHigh => exact .execTraypresNHigh h
  | i3cPrivateWrite => exact .execI3cPrivateWrite h
  | i3cPrivateRead => exact .execI3cPrivateRead h
  | i3cBroadcastCap => exact .execI3cBroadcastCap h
  | illegalEncoding => exact .execIllegalEncoding h
  | instructionFetchFault => exact .execInstructionFetchFault h
  | storePerformed => exact .execStorePerformed h
  | chicoryLookup => exact .execChicoryLookup h

theorem Reaches.issueOne {s : State} (h : s.Canonical) : Reaches (issueOne s) := by
  have hf : (fetch s).Canonical := .fetch h
  unfold Machine.issueOne
  split
  · exact .exec h _
  · split
    next e =>
      rw [e] at hf
      exact .exec hf _
    · exact .exec h _
    · exact .exec h _

theorem Reaches.issueStep {s : State} (h : s.Canonical) : Reaches (issueStep s) := by
  unfold Machine.issueStep
  exact .onNext (fun _ h => .settleIssue h) (.issueOne (.frame h))

theorem Reaches.performEvent {s : State} {k e} (h : s.Canonical) : Reaches (performEvent s k e) := by
  unfold Machine.performEvent
  exact .onNext (fun _ h => .settle h) (.exec (.frame h) _)

theorem Reaches.takeTurn {s : State} {t} (h : s.Canonical) : Reaches (takeTurn s t) := by
  unfold Machine.takeTurn
  split
  · split
    · exact .performEvent h
    · exact .next h
  · exact .performEvent (.frame h)
  · split
    · exact .issueStep (.frame h)
    · exact .next h
  · exact .next (.settle (.actTurn h))

theorem Reaches.runStep {s : State} (h : s.Canonical) : Reaches (runStep s) := by
  unfold Machine.runStep
  split
  · exact .performEvent h
  · split
    · exact .takeTurn (.frame h)
    · split
      · exact .performEvent h
      · split
        · exact .issueStep h
        · exact .idleStep h

theorem Reaches.lockedStep {s : State} (h : s.Canonical) : Reaches (lockedStep s) :=
  .onNext (fun _ ht => .repeatLock ht) (.runStep h)

/-- Settles O2: every byte memory is written by `Memory.writeBytes`, `writeNat`, `writeBlock`, `copyRange` and `zeroRange` alone, which keep
the canonical form; each function of the step hands its memories on to these or leaves them, along every branch. -/
theorem stepKeepsMemoriesCanonical : Obligations.StepKeepsMemoriesCanonical := by
  unfold Obligations.StepKeepsMemoriesCanonical
  exact fun s t h e => Reaches.lockedStep h t e

end Sys2Proof.Machine
end

section
/-! SUPPORT. LD.AQ and ST.RL: what an acquire reads at its home, and what a release writes and publishes there (R102, R118, R119), and
O16. -/

namespace Sys2Proof.Machine
open Sys2Proof.Safety

/-! ### Checks -/

/-- An address that reaches a place is canonical. -/
theorem canonical_of_reach {s u : State} {core : Nat} {c : TCtx} {va : Word} {acc : Nat} {p : Place}
    (reached : reach s core c va acc = .ok (p, u)) : canonical va = true := by
  cases can : canonical va with
  | true => rfl
  | false => rw [reach, reachFor, can] at reached; cases reached

theorem needAddr_ok {va : Word} {n acc : Nat} (outside : inWindow va = false) (al : va.toNat % n = 0) (can : canonical va = true) :
    needAddr va n acc = .ok () := by
  rw [needAddr, noWindow, aligned, outside, can, al]
  rfl

/-! ### LD.AQ -/

/-- LD.AQ of a place once reached: the value read at its home is on its way to x[d], past the acquire. -/
theorem exec_ldAq_reached {s u : State} {d a : Reg} {p : Place} {g : Got} (pure : Impure s) (ready : XReady s [a]) (free : XFree s d)
    (checked : needAddr (s.me.rx a) 8 accRead = .ok ()) (unlogged : lineLogged s s.myCore (s.me.rx a) = false)
    (acquires : needAcquire s = .ok ()) (reached : reach s s.myCore s.me.tctx (s.me.rx a) accRead = .ok (p, u))
    (settled : remotePending u u.cur p 8 = false) (read : readHome u u.cur (s.me.rx a) p 8 = .ok g) :
    exec (.ldAq d a) s = .next (loadValue (acquirePlace g.st p) d (BitVec.ofNat 64 (leNat g.bytes)) (l2Home p)) := by
  simp only [exec_ldAq, execLdAq, needX_ok (ready a (by simp)), needPureRead_ok pure, freeX_ok free, checked, unlogged, acquires, reached,
    settled, read, bind_ok, Bool.not_false, check_true, finish_ok, zextBytes]

/-- R119: LD.AQ of the local stash, which keeps no signature. -/
theorem exec_ldAq_stash {s : State} {d a : Reg} {o : Nat} (pure : Impure s) (ready : XReady s [a]) (free : XFree s d) (ho : o < 0x40000)
    (al : o % 8 = 0) (ea : s.me.rx a = BitVec.ofNat 64 (0x007F000000000000 + o)) (window : windowAt s s.myCore o = none)
    (clean : isStashPoison s.ms (stashIdx s.myCore o / 64) = false) (unlogged : lineLogged s s.myCore (s.me.rx a) = false)
    (acquires : needAcquire s = .ok ()) (settled : remotePending s s.cur (.stash (stashIdx s.myCore o)) 8 = false)
    (unbuffered : ∀ k, k < 8 →
      bufferedByte s s.cur (BitVec.ofNat 64 (0x007F000000000000 + o)) (.stash (stashIdx s.myCore o)) k = none) :
    ∃ t, exec (.ldAq d a) s = .next t ∧
      LoadsX s t d (BitVec.ofNat 64 (leNat (Memory.readBytes s.ms.stash (stashIdx s.myCore o) 8))) := by
  obtain ⟨hn, region⟩ := regionOf_stash ea ho
  have read := readHome_stash s (s.me.rx a) o 8 ea clean unbuffered
  exact ⟨_, exec_ldAq_reached pure ready free (needAddr_stash accRead hn ho region al rfl) unlogged acquires
    (reach_stash hn ho region window) settled read, loadsX_loadValue' ..⟩

/-- R101, R119: LD.AQ of memory: the dword at its home, and of the hart the current signature alone has changed before it is under way. -/
theorem exec_ldAq_mem {s u : State} {d a : Reg} {pa holder : Nat} {nc : Bool} (pure : Impure s) (ready : XReady s [a]) (free : XFree s d)
    (outside : inWindow (s.me.rx a) = false) (al : (s.me.rx a).toNat % 8 = 0) (unversioned : s.me.vcopy = none)
    (clean : lineState s.ms none pa = .clean) (unlogged : lineLogged s s.myCore (s.me.rx a) = false) (acquires : needAcquire s = .ok ())
    (performed : hasOwnStore s s.cur = false) (unbuffered : s.me.abuf = [])
    (noBarrier : barrierPending s s.cur (.mem pa none nc holder false) = false)
    (reached : reach s s.myCore s.me.tctx (s.me.rx a) accRead = .ok (.mem pa none nc holder false, u)) :
    ∃ v t, exec (.ldAq d a) s = .next t ∧ LoadsX v t d (BitVec.ofNat 64 (leNat (Memory.readBytes s.ms.mem pa 8))) ∧
      v.me = { s.me with sigCur := v.me.sigCur } ∧ (∀ h, h ≠ s.cur → v.hart h = s.hart h) ∧ v.ms.mem = s.ms.mem ∧
      v.ms.stash = s.ms.stash := by
  have checked := needAddr_ok (n := 8) (acc := accRead) outside al (canonical_of_reach reached)
  obtain ⟨tlb, rfl⟩ := reach_st reached
  obtain ⟨copies, read⟩ := readHome_mem { s with ms := { s.ms with tlb := tlb } } (s.me.rx a) pa nc holder 8 unversioned performed
    unbuffered noBarrier clean
  have run := exec_ldAq_reached pure ready free checked unlogged acquires reached rfl read
  obtain ⟨ms, me, others, -⟩ :=
    acquirePlace_frame { s with ms := { s.ms with tlb := tlb, copies := copies } } (.mem pa none nc holder false)
  have mem := congrArg MemSys.mem ms
  have stash := congrArg MemSys.stash ms
  exact ⟨_, _, run, loadsX_loadValue' .., me, others, mem, stash⟩

/-! ### ST.RL -/

/-- ST.RL outside the windows ends as its release store ends. -/
theorem exec_stRl_out {s : State} {a b : Reg} (pure : Impure s) (unbuffered : NoBuffer s) (ready : XReady s [a]) (source : XReady s [b])
    (outside : inWindow (s.me.rx a) = false) (checked : needStoreAddr (s.me.rx a) 8 = .ok ()) (released : needReleased s = .ok ()) :
    exec (.stRl a b) s =
      finish s (releaseStore s s.cur (s.me.rx a) (leBytes 8 (s.me.rx b).toNat) >>= fun t => .ok (t.step4 id)) := by
  have direct : bufferOr s (.store (s.me.rx a) (leBytes 8 (s.me.rx b).toNat) true (s.me.rx a))
      (releaseOut (s.me.rx a) (leBytes 8 (s.me.rx b).toNat)) =
        releaseStore s s.cur (s.me.rx a) (leBytes 8 (s.me.rx b).toNat) := by
    rw [bufferOr, show s.me.buffering = false from unbuffered, if_neg Bool.false_ne_true, releaseOut, released, bind_ok]
  have window : noWindow (s.me.rx a) accWrite = .ok () := by rw [noWindow, outside]; rfl
  rw [exec_stRl, execStRl]
  simp only [needX_ok (ready a (by simp)), needX_ok (source b (by simp)), needPureWrite_ok pure, window, checked, bind_ok,
    show s.me.pure = none from pure, direct]

/-- R119: a release store to the local stash is a store of its bytes. -/
theorem releaseStore_stash {s : State} {va : Word} {o : Nat} (bs : List Byte)
    (reached : reach s s.myCore s.me.tctx va accWrite = .ok (.stash (stashIdx s.myCore o), s)) :
    releaseStore s s.cur va bs = .ok { s with ms := stashWrite s.ms (stashIdx s.myCore o) bs, lch := signedLch s va bs } := by
  have reached' : reach s (s.cur / 8) (s.hart s.cur).tctx va accWrite = .ok (.stash (stashIdx s.myCore o), s) := reached
  rw [releaseStore, reached']
  simp only [writePlaceHome, signStore_ms]
  rfl

theorem exec_stRl_stash {s : State} {a b : Reg} {o : Nat} (pure : Impure s) (unbuffered : NoBuffer s) (ready : XReady s [a])
    (source : XReady s [b]) (ho : o < 0x40000) (al : o % 8 = 0) (ea : s.me.rx a = BitVec.ofNat 64 (0x007F000000000000 + o))
    (window : windowAt s s.myCore o = none) (clean : isStashPoison s.ms (stashIdx s.myCore o / 64) = false)
    (released : needReleased s = .ok ()) :
    ∃ t, exec (.stRl a b) s = .next t ∧ StoresStash s t (s.me.rx a) (stashIdx s.myCore o) 8 (s.me.rx b) := by
  obtain ⟨hn, region⟩ := regionOf_stash ea ho
  have checked : needStoreAddr (s.me.rx a) 8 = .ok () :=
    needStoreAddr_ok (by rw [hn]; omega) (canonical_stash hn ho) (by rw [region]; nofun)
  refine ⟨_, ?_, storesStash_step4 s (s.me.rx a) o 8 (s.me.rx b) le_rfl clean⟩
  rw [exec_stRl_out pure unbuffered ready source (inWindow_stash region) checked released,
    releaseStore_stash _ (reach_stash hn ho region window), bind_ok, finish_ok]

/-! ### A release at its home -/

/-- A write at the home of a place publishes no signature. -/
theorem writePlaceHome_homeSigs (s : State) (p : Place) (bs : List Byte) : (writePlaceHome s p bs).ms.homeSigs = s.ms.homeSigs := by
  have stored (s : State) (sm : Option Nat) (pa : Nat) : (storeHome s sm pa bs).ms.homeSigs = s.ms.homeSigs :=
    congrArg (fun t => t.ms.homeSigs) (storeHome_frame s sm pa bs)
  have kept (ms : MemSys) (holder : Nat) (sm : Option Nat) (pa n : Nat) : (keepWritten ms holder sm pa n).homeSigs = ms.homeSigs := by
    unfold keepWritten
    dsimp only
    split
    · rfl
    · split <;> rfl
  have filled (ms : MemSys) (g holder : Nat) (sm : Option Nat) (pa : Nat) : (fillWindow ms g holder sm pa).homeSigs = ms.homeSigs := by
    rw [fillWindow_frame]
  cases p with
  | stash i =>
    unfold writePlaceHome stashWrite
    dsimp only
    split <;> rfl
  | mem pa sm nc holder rm =>
    unfold writePlaceHome
    dsimp only
    split
    · exact stored ..
    · exact (kept ..).trans ((stored ..).trans (filled ..))

theorem publish_get (ms : MemSys) (key : Nat) (sig : Sig) :
    (Table.get (Sig.empty, Sig.empty) (publish ms key sig).homeSigs key).1 =
      sigUnion (Table.get (Sig.empty, Sig.empty) ms.homeSigs key).1 sig := by
  rw [publish, Table.get_set_self]

/-- R119: the bytes of a release store at their home and its signature published there, before the hart takes note of the write. -/
def releasedAt (s : State) (p : Place) (bs : List Byte) (sig : Sig) : State :=
  let w := writePlaceHome s p bs
  let ms := dropWords w.ms s.myCore p bs.length
  { w with ms := match placeKey p with
    | some key => publish ms key sig
    | none => ms }

/-- A release store to a line of memory. -/
theorem releaseStore_mem {s u : State} {va : Word} {pa holder : Nat} {nc : Bool} (bs : List Byte)
    (reached : reach s s.myCore s.me.tctx va accWrite = .ok (.mem pa none nc holder false, u)) (unversioned : u.me.vcopy = none)
    (cur : u.cur = s.cur) : releaseStore s s.cur va bs =
      let w := releasedAt u (.mem pa none nc holder false) bs s.me.releaseSig
      .ok (countAt (noteSync w s.cur (.mem pa none nc holder false)) s.cur (w.hart s.cur).tag evL2 1) := by
  have reached' : reach s (s.cur / 8) (s.hart s.cur).tctx va accWrite = .ok (.mem pa none nc holder false, u) := reached
  have unversioned' : (u.hart s.cur).vcopy = none := by rw [← cur]; exact unversioned
  rw [releaseStore, reached']
  simp only [unversioned', releasedAt, State.myCore, cur]
  rfl

theorem releasedAt_mem (u : State) (pa : Nat) (nc : Bool) (holder : Nat) (bs : List Byte) (sig : Sig)
    (clean : isPoison u.ms (lineOf pa) = false) :
    let w := releasedAt u (.mem pa none nc holder false) bs sig
    w.harts = u.harts ∧ w.cur = u.cur ∧ w.ms.mem = Memory.writeBytes u.ms.mem pa bs ∧ w.ms.stash = u.ms.stash ∧
      (Table.get (Sig.empty, Sig.empty) w.ms.homeSigs (pa / 64)).1 =
        sigUnion (Table.get (Sig.empty, Sig.empty) u.ms.homeSigs (pa / 64)).1 sig := by
  obtain ⟨harts, cur, mem, stash⟩ := writePlaceHome_plain u pa nc holder bs clean
  have sigs : (dropWords (writePlaceHome u (.mem pa none nc holder false) bs).ms u.myCore (.mem pa none nc holder false) bs.length).homeSigs =
      u.ms.homeSigs := by
    rw [dropWords_frame]
    exact writePlaceHome_homeSigs ..
  refine ⟨harts, cur, mem, stash, (publish_get _ (pa / 64) sig).trans ?_⟩
  rw [sigs]

/-- A shared event of the issuing hart counts in it. -/
theorem countAt_self {s : State} {code n : Nat} (running : s.me.running = true) (tagged : s.me.tag ≠ 0) (some : n ≠ 0) :
    countAt s s.cur s.me.tag code n = s.setMe (s.me.count code n) := by
  rw [countAt, if_neg some, show s.me.tag = (s.hart s.cur).tag from rfl, whereIs_self running tagged]
  rfl

theorem arms_retire_credited {a b : Hart} (h : HartCredited a b) : Arms a (b.retire 4) none := by
  obtain ⟨g, n, p, rfl⟩ := h
  exact arms_congr (arms_retire _) rfl rfl rfl rfl rfl rfl

/-- After a synchronisation write the hart takes note of it and counts it: of the hart its signature and counters change, of the memory
system nothing. -/
theorem noteSync_counted {s w : State} (same : KeepsHarts s w) (running : s.me.running = true) (tagged : s.me.tag ≠ 0) (p : Place)
    (code : Nat) : let t := countAt (noteSync w s.cur p) s.cur (w.hart s.cur).tag code 1
    t.ms = w.ms ∧ t.cur = s.cur ∧ HartCredited s.me t.me ∧ ∀ h, h ≠ s.cur → t.hart h = s.hart h := by
  obtain ⟨noted, ms⟩ := same.noteSync running tagged p
  obtain ⟨cur, me, others⟩ := noted
  have running' : (noteSync w w.cur p).me.running = true := by rw [me]; exact running
  have tag' : (noteSync w w.cur p).me.tag = s.me.tag := by rw [me]
  have tag : w.me.tag = s.me.tag := by rw [same.2.1]
  rw [State.me, same.1] at tag
  have counted := countAt_self (code := code) (n := 1) running' (by rw [tag']; exact tagged) (by decide)
  rw [tag', cur, same.1] at counted
  rw [same.1] at cur me others ms
  dsimp only
  rw [tag, counted]
  refine ⟨ms, cur, ?_, fun h ne => ?_⟩
  · rw [State.me_setMe]
    exact .trans ⟨_, _, _, me⟩ (hartCredited_count ..)
  · rw [State.hart_setMe_ne _ _ (by rw [cur]; exact ne)]
    exact others h ne

/-- R102, R119: ST.RL of memory writes the dword at its home and publishes the hart's release signature to its line. -/
theorem exec_stRl_mem {s u : State} {a b : Reg} {pa holder : Nat} {nc : Bool} (pure : Impure s) (unbuffered : NoBuffer s)
    (ready : XReady s [a]) (source : XReady s [b]) (outside : inWindow (s.me.rx a) = false) (al : (s.me.rx a).toNat % 8 = 0)
    (region : regionOf (s.me.rx a) ≠ .noStash) (unversioned : s.me.vcopy = none) (clean : lineState s.ms none pa = .clean)
    (released : needReleased s = .ok ()) (running : s.me.running = true) (tagged : s.me.tag ≠ 0)
    (reached : reach s s.myCore s.me.tctx (s.me.rx a) accWrite = .ok (.mem pa none nc holder false, u)) :
    ∃ t, exec (.stRl a b) s = .next t ∧ t.ms.mem = Memory.writeBytes s.ms.mem pa (leBytes 8 (s.me.rx b).toNat) ∧ t.ms.stash = s.ms.stash ∧
      (Table.get (Sig.empty, Sig.empty) t.ms.homeSigs (pa / 64)).1 =
        sigUnion (Table.get (Sig.empty, Sig.empty) s.ms.homeSigs (pa / 64)).1 s.me.releaseSig ∧
      Arms s.me t.me none ∧ ∀ h, h ≠ s.cur → t.hart h = s.hart h := by
  have run := exec_stRl_out pure unbuffered ready source outside (needStoreAddr_ok al (canonical_of_reach reached) region) released
  obtain ⟨tlb, rfl⟩ := reach_st reached
  rw [releaseStore_mem _ reached unversioned rfl, bind_ok, finish_ok] at run
  obtain ⟨harts, cur, mem, stash, sigs⟩ := releasedAt_mem { s with ms := { s.ms with tlb := tlb } } pa nc holder
    (leBytes 8 (s.me.rx b).toNat) s.me.releaseSig (isPoison_of_clean clean)
  obtain ⟨ms, cur', credited, others⟩ := noteSync_counted (KeepsHarts.of_harts harts cur) running tagged
    (.mem pa none nc holder false) evL2
  refine ⟨_, run, ?_, ?_, ?_, ?_, fun h ne => ?_⟩
  · exact (congrArg MemSys.mem ms).trans mem
  · exact (congrArg MemSys.stash ms).trans stash
  · rw [← sigs, ← ms]; rfl
  · rw [State.step4_me]
    exact arms_retire_credited credited
  · rw [State.step4_hart_ne _ _ (by rw [cur']; exact ne)]
    exact others h ne

/-- The dword read back where the eight bytes of a value were written. -/
theorem dword_writeBytes (m : Memory) (a : Nat) (v : Word) :
    BitVec.ofNat 64 (leNat (Memory.readBytes (Memory.writeBytes m a (leBytes 8 v.toNat)) a 8)) = v := by
  have back := Memory.readBytes_writeBytes m a (leBytes 8 v.toNat)
  rw [length_leBytes] at back
  rw [back, leNat_leBytes, Nat.mod_eq_of_lt v.isLt, BitVec.ofNat_toNat, BitVec.setWidth_eq]

/-- Settles O16: in the stash an acquire and a release are a load and a store; in memory the acquire reads its home, and the release writes
and publishes there before the hart takes note. -/
theorem acquireRelease : Obligations.AcquireRelease := by
  unfold Obligations.AcquireRelease
  intro s d a b pure unbuffered ready ea dword
  constructor
  · intro o ho al e window clean
    constructor
    · intro free unlogged acquires settled empty
      exact exec_ldAq_stash pure ready free ho al e window clean unlogged acquires settled empty
    · intro source released
      exact exec_stRl_stash pure unbuffered ready source ho al e window clean released
  · intro u pa holder nc outside al region unversioned clean
    constructor
    · intro free unlogged acquires performed empty noBarrier reached
      exact exec_ldAq_mem pure ready free outside al unversioned clean unlogged acquires performed empty noBarrier reached
    · intro source released running tagged reached
      obtain ⟨t, run, mem, stash, sigs, armed, others⟩ := exec_stRl_mem pure unbuffered ready source outside al region unversioned clean
        released running tagged reached
      refine ⟨t, run, ?_, fun x apart => ?_, stash, sigs, armed, others⟩
      · dsimp only [dword]
        rw [mem, dword_writeBytes]
      · rw [mem]
        exact Memory.read_writeBytes_outside _ _ _ (by rw [length_leBytes]; exact apart)

end Sys2Proof.Machine
end

section
/-! SUPPORT. AMOs on the local stash and on memory: the word after them, and O14 and O15. -/

namespace Sys2Proof.Machine
open Sys2Proof.Safety

/-! ### The word an AMO leaves -/

/-- A memory once n bytes at i have taken a value, or kept theirs. -/
def Memory.update (m : Memory) (i n : Nat) : Option Nat → Memory
  | some v => Memory.writeBytes m i (leBytes n v)
  | none => m

theorem leNat_readBytes_mod (m : Memory) (i n : Nat) :
    leNat (Memory.readBytes m i n) % 2 ^ (8 * n) = leNat (Memory.readBytes m i n) := by
  have bound := leNat_lt (Memory.readBytes m i n)
  rw [Memory.length_readBytes] at bound
  exact Nat.mod_eq_of_lt bound

theorem Memory.leNat_update (m : Memory) (i n : Nat) (new : Option Nat) :
    leNat (Memory.readBytes (Memory.update m i n new) i n) = new.getD (leNat (Memory.readBytes m i n)) % 2 ^ (8 * n) := by
  cases new with
  | none => exact (leNat_readBytes_mod m i n).symm
  | some v =>
    have back := Memory.readBytes_writeBytes m i (leBytes n v)
    rw [length_leBytes] at back
    rw [Memory.update, back, leNat_leBytes, Option.getD_some]

theorem Memory.read_update_outside (m : Memory) (i n : Nat) (new : Option Nat) {x : Nat} (apart : x < i ∨ i + n ≤ x) :
    Memory.read (Memory.update m i n new) x = Memory.read m x := by
  cases new with
  | none => rfl
  | some v => exact Memory.read_writeBytes_outside _ _ _ (by rw [length_leBytes]; exact apart)

/-- R121: the new value of an operation, on words of n bytes. -/
def AmoOp.word (op : AmoOp) (n : Nat) (x y : BitVec (8 * n)) : BitVec (8 * n) :=
  match op with
  | .swap => y
  | .add => x + y
  | .and => x &&& y
  | .or => x ||| y
  | .xor => x ^^^ y
  | .min => if x.sle y then x else y
  | .max => if x.sle y then y else x
  | .minu => if x.ule y then x else y
  | .maxu => if x.ule y then y else x
  | .fadd => BitVec.ofNat (8 * n) (fAdd f32Fmt x.toNat y.toNat)

theorem signed_toNat {n : Nat} (x : BitVec (8 * n)) : signed n x.toNat = x.toInt := by
  rw [signed, BitVec.ofNat_toNat, BitVec.setWidth_eq]

/-- The choice between two words made on their numbers. -/
theorem toNat_choice {w : Nat} {c : Prop} [Decidable c] {b : Bool} (same : c ↔ b = true) (x y : BitVec w) :
    (if c then x.toNat else y.toNat) % 2 ^ w = (if b then x else y).toNat := by
  cases b with
  | true => rw [if_pos (same.mpr rfl), if_pos rfl, Nat.mod_eq_of_lt x.isLt]
  | false => rw [if_neg (mt same.mp Bool.false_ne_true), if_neg Bool.false_ne_true, Nat.mod_eq_of_lt y.isLt]

theorem AmoOp.apply_toNat (op : AmoOp) (n : Nat) (x y : BitVec (8 * n)) :
    op.apply n x.toNat y.toNat % 2 ^ (8 * n) = (op.word n x y).toNat := by
  have le : signed n x.toNat ≤ signed n y.toNat ↔ x.sle y = true := by
    rw [signed_toNat, signed_toNat, BitVec.sle_iff_toInt_le]
  have ule : x.toNat ≤ y.toNat ↔ x.ule y = true := by rw [BitVec.ule_iff_toNat_le]
  cases op with
  | swap => exact Nat.mod_eq_of_lt y.isLt
  | add => exact (Nat.mod_mod ..).trans (BitVec.toNat_add ..).symm
  | and => exact (congrArg (· % _) (BitVec.toNat_and ..).symm).trans (Nat.mod_eq_of_lt (x &&& y).isLt)
  | or => exact (congrArg (· % _) (BitVec.toNat_or ..).symm).trans (Nat.mod_eq_of_lt (x ||| y).isLt)
  | xor => exact (congrArg (· % _) (BitVec.toNat_xor ..).symm).trans (Nat.mod_eq_of_lt (x ^^^ y).isLt)
  | min => exact toNat_choice le x y
  | max => exact toNat_choice le y x
  | minu => exact toNat_choice ule x y
  | maxu => exact toNat_choice ule y x
  | fadd => exact (BitVec.toNat_ofNat ..).symm

/-! ### AMOs of two registers, past their sources -/

theorem amoOp_ready {s : State} {a b : Reg} (ready : XReady s [a, b]) (d : Reg) (n : Nat) (q r : Bool) (op : AmoOp) :
    amoOp d a b n q r op s =
      finish s (amoBody d a n q r (fun old => some (op.apply n old ((s.me.rx b).toNat % 2 ^ (8 * n)))) s) := by
  simp only [amoOp, needX_ok (ready a (by simp)), needX_ok (ready b (by simp)), bind_ok]

theorem amoCas_ready {s : State} {a b d : Reg} (ready : XReady s [a, b]) (compared : XReady s [d]) (n : Nat) (q r : Bool) :
    amoCas d a b n q r s = finish s (amoBody d a n q r (fun old =>
      if old = (s.me.rx d).toNat % 2 ^ (8 * n) then some ((s.me.rx b).toNat % 2 ^ (8 * n)) else none) s) := by
  simp only [amoCas, needX_ok (ready a (by simp)), needX_ok (ready b (by simp)), needX_ok (compared d (by simp)), bind_ok]

/-! ### The local stash -/

section
variable {s : State} {d a b : Reg} {q r : Bool} {o : Nat}

/-- What an AMO at offset o of the local stash meets where nothing is in its way. -/
structure StashAmo (s : State) (d a : Reg) (q r : Bool) (o : Nat) : Prop where
  pure : Impure s
  unbuffered : NoBuffer s
  free : XFree s d
  inside : o < 0x40000
  at_ : s.me.rx a = BitVec.ofNat 64 (0x007F000000000000 + o)
  unversioned : s.me.vcopy = none
  window : windowAt s s.myCore o = none
  unlogged : ownLineLogged s s.myCore s.cur (s.me.rx a) = false
  ordered : needSyncOrder s = .ok ()
  releases : r = true → needReleased s = .ok ()
  acquires : q = true → needAcquire s = .ok ()
  clean : isStashPoison s.ms (stashIdx s.myCore o / 64) = false

/-- What the AMO f of n bytes does there: `new` gives the word it leaves of the word it finds and of x[b]. -/
def StashAmoDone (s : State) (d b : Reg) (o : Nat) (f : Instr) (n : Nat) (new : BitVec (8 * n) → BitVec (8 * n) → BitVec (8 * n)) : Prop :=
  o % n = 0 → remotePending s s.cur (.stash (stashIdx s.myCore o)) n = false →
    (∀ k, k < n → bufferedByte s s.cur (BitVec.ofNat 64 (0x007F000000000000 + o)) (.stash (stashIdx s.myCore o)) k = none) →
    let old := BitVec.ofNat (8 * n) (leNat (Memory.readBytes s.ms.stash (stashIdx s.myCore o) n))
    ∃ u t, exec f s = .next t ∧ LoadsX u t d (old.signExtend 64) ∧ u = { s with ms := { s.ms with stash := u.ms.stash } } ∧
      leNat (Memory.readBytes u.ms.stash (stashIdx s.myCore o) n) = (new old ((s.me.rx b).setWidth (8 * n))).toNat ∧
      ∀ x, x < stashIdx s.myCore o ∨ stashIdx s.myCore o + n ≤ x → Memory.read u.ms.stash x = Memory.read s.ms.stash x

theorem stashAmo_done (ready : StashAmo s d a q r o) {f : Instr} {n : Nat} (size : n = 4 ∨ n = 8) {new : Nat → Option Nat}
    {word : BitVec (8 * n) → BitVec (8 * n) → BitVec (8 * n)} (run : exec f s = finish s (amoBody d a n q r new s))
    (agrees : ∀ old : BitVec (8 * n), (new old.toNat).getD old.toNat % 2 ^ (8 * n) = (word old ((s.me.rx b).setWidth (8 * n))).toNat) :
    StashAmoDone s d b o f n word := by
  intro al settled empty old
  have found : old = BitVec.ofNat (8 * n) (leNat (Memory.readBytes s.ms.stash (stashIdx s.myCore o) n)) := rfl
  clear_value old
  have aligned : 0x007F000000000000 % n = 0 := by rcases size with rfl | rfl <;> rfl
  have short : n ≤ 8 := by omega
  rw [amoBody_stash ready.pure ready.unbuffered ready.free ready.inside ready.at_ al aligned ready.unversioned ready.window
    ready.unlogged ready.ordered ready.releases ready.acquires ready.clean short settled empty] at run
  generalize stashIdx s.myCore o = idx at run found
  have value : old.toNat = leNat (Memory.readBytes s.ms.stash idx n) := by
    rw [found, BitVec.toNat_ofNat, leNat_readBytes_mod]
  rw [← value] at run
  let u : State := { s with ms := { s.ms with stash := Memory.update s.ms.stash idx n (new old.toNat) } }
  refine ⟨u, loadValue u d (old.signExtend 64) 0, run.trans ?_, loadsX_loadValue' .., rfl, ?_,
    fun x apart => Memory.read_update_outside _ _ _ _ apart⟩
  · dsimp only [u]
    rw [sextBytes, BitVec.ofNat_toNat, BitVec.setWidth_eq]
    cases new old.toNat <;> rfl
  · exact (Memory.leNat_update ..).trans (by rw [← agrees old, value])

theorem stashAmo_op (ready : StashAmo s d a q r o) (sources : XReady s [a, b]) (op : AmoOp) {n : Nat} (size : n = 4 ∨ n = 8) {f : Instr}
    (run : exec f s = amoOp d a b n q r op s) : StashAmoDone s d b o f n (op.word n) := by
  refine stashAmo_done ready size (run.trans (amoOp_ready sources ..)) fun old => ?_
  rw [Option.getD_some, ← BitVec.toNat_setWidth]
  exact op.apply_toNat n old _

theorem stashAmo_cas (ready : StashAmo s d a q r o) (sources : XReady s [a, b]) (compared : XReady s [d]) {n : Nat} (size : n = 4 ∨ n = 8)
    {f : Instr} (run : exec f s = amoCas d a b n q r s) :
    StashAmoDone s d b o f n (fun x y => if x = (s.me.rx d).setWidth (8 * n) then y else x) := by
  refine stashAmo_done ready size (run.trans (amoCas_ready sources compared ..)) fun old => ?_
  rw [← BitVec.toNat_setWidth, ← BitVec.toNat_setWidth]
  by_cases same : old = (s.me.rx d).setWidth (8 * n)
  · rw [if_pos (congrArg _ same), if_pos same, Option.getD_some, Nat.mod_eq_of_lt (BitVec.isLt _)]
  · rw [if_neg fun eq => same (BitVec.eq_of_toNat_eq eq), if_neg same, Option.getD_none, Nat.mod_eq_of_lt (BitVec.isLt _)]

end

/-! ### Memory -/

section
variable {s u : State} {d a b : Reg} {q r : Bool} {pa holder : Nat} {nc : Bool}

/-- What an AMO on a line of memory meets where nothing is in its way. -/
structure HomeAmo (s u : State) (d a : Reg) (q r : Bool) (pa holder : Nat) (nc : Bool) : Prop where
  pure : Impure s
  unbuffered : NoBuffer s
  free : XFree s d
  unversioned : s.me.vcopy = none
  running : s.me.running = true
  tagged : s.me.tag ≠ 0
  outside : inWindow (s.me.rx a) = false
  unlogged : ownLineLogged s s.myCore s.cur (s.me.rx a) = false
  reached : reach s s.myCore s.me.tctx (s.me.rx a) accAmo = .ok (.mem pa none nc holder false, u)
  device : isHost pa = false
  ordered : needSyncOrder s = .ok ()
  releases : r = true → needReleased s = .ok ()
  acquires : q = true → needAcquire s = .ok ()
  performed : hasOwnStore s s.cur = false
  noBarrier : barrierPending s s.cur (.mem pa none nc holder false) = false
  empty : s.me.abuf = []
  clean : lineState s.ms none pa = .clean

/-- What the AMO f of n bytes does there: `new` gives the number it leaves of the number it finds and of the low bytes of x[b]. -/
def HomeAmoDone (s : State) (d a b : Reg) (pa : Nat) (f : Instr) (n : Nat) (new : Nat → Nat → Nat) : Prop :=
  (s.me.rx a).toNat % n = 0 →
    let old := leNat (Memory.readBytes s.ms.mem pa n)
    ∃ v t, exec f s = .next t ∧ LoadsX v t d ((BitVec.ofNat (8 * n) old).signExtend 64) ∧
      v.me = { s.me with sigCur := v.me.sigCur } ∧ (∀ h, h ≠ s.cur → v.hart h = s.hart h) ∧
      leNat (Memory.readBytes v.ms.mem pa n) = new old ((s.me.rx b).toNat % 2 ^ (8 * n)) % 2 ^ (8 * n) ∧
      (∀ x, x < pa ∨ pa + n ≤ x → Memory.read v.ms.mem x = Memory.read s.ms.mem x) ∧ v.ms.stash = s.ms.stash

theorem homeAmo_done (ready : HomeAmo s u d a q r pa holder nc) {f : Instr} {n : Nat} {new : Nat → Option Nat} {number : Nat → Nat → Nat}
    (run : exec f s = finish s (amoBody d a n q r new s))
    (agrees : ∀ old, (new old).getD old = number old ((s.me.rx b).toNat % 2 ^ (8 * n))) : HomeAmoDone s d a b pa f n number := by
  intro al old
  obtain ⟨tlb, rfl⟩ := reach_st ready.reached
  obtain ⟨v, body, me, others, stash, mem⟩ := amoBody_mem (n := n) (new := new) ready.pure ready.running ready.tagged ready.unbuffered
    ready.free ready.unversioned ready.outside al ready.unlogged ready.reached ready.device ready.ordered ready.releases ready.acquires
    ready.performed ready.noBarrier ready.empty ready.clean
  have updated : v.ms.mem = Memory.update s.ms.mem pa n (new old) := by
    rw [mem]
    dsimp only [old]
    cases new (leNat (Memory.readBytes s.ms.mem pa n)) <;> rfl
  refine ⟨v, _, run.trans (congrArg (finish s) body), loadsX_loadValue' .., me, others, ?_, fun x apart => ?_, stash⟩
  · rw [updated, Memory.leNat_update, agrees old]
  · rw [updated, Memory.read_update_outside _ _ _ _ apart]

theorem homeAmo_op (ready : HomeAmo s u d a q r pa holder nc) (sources : XReady s [a, b]) (op : AmoOp) {n : Nat} {f : Instr}
    (run : exec f s = amoOp d a b n q r op s) : HomeAmoDone s d a b pa f n (op.apply n) :=
  homeAmo_done ready (run.trans (amoOp_ready sources ..)) fun _ => rfl

theorem homeAmo_cas (ready : HomeAmo s u d a q r pa holder nc) (sources : XReady s [a, b]) (compared : XReady s [d]) {n : Nat} {f : Instr}
    (run : exec f s = amoCas d a b n q r s) :
    HomeAmoDone s d a b pa f n (fun x y => if x = (s.me.rx d).toNat % 2 ^ (8 * n) then y else x) := by
  refine homeAmo_done ready (run.trans (amoCas_ready sources compared ..)) fun old => ?_
  split <;> rfl

end

/-- Settles O14: the body of an AMO on the stash reads the word, leaves the operation's, and sends the old one to x[d]. -/
theorem amoOperations : Obligations.AmoOperations := by
  unfold Obligations.AmoOperations
  intro s d a b q r o pure unbuffered sources free inside at_ unversioned window unlogged ordered releases acquires clean idx amo
  have ready : StashAmo s d a q r o :=
    ⟨pure, unbuffered, free, inside, at_, unversioned, window, unlogged, ordered, releases, acquires, clean⟩
  have w (op : AmoOp) {f : Instr} (run : exec f s = amoOp d a b 4 q r op s) : StashAmoDone s d b o f 4 (op.word 4) :=
    stashAmo_op ready sources op (.inl rfl) run
  have dw (op : AmoOp) {f : Instr} (run : exec f s = amoOp d a b 8 q r op s) : StashAmoDone s d b o f 8 (op.word 8) :=
    stashAmo_op ready sources op (.inr rfl) run
  exact ⟨w .swap rfl, dw .swap rfl, w .add rfl, dw .add rfl, w .and rfl, dw .and rfl, w .or rfl, dw .or rfl, w .xor rfl, dw .xor rfl,
    w .min rfl, dw .min rfl, w .max rfl, dw .max rfl, w .minu rfl, dw .minu rfl, w .maxu rfl, dw .maxu rfl, w .fadd rfl,
    fun compared => stashAmo_cas ready sources compared (.inl rfl) rfl,
    fun compared => stashAmo_cas ready sources compared (.inr rfl) rfl⟩

/-- Settles O15: the body of an AMO on memory reads the word at its home and leaves the operation's there. -/
theorem amoOnMemory : Obligations.AmoOnMemory := by
  unfold Obligations.AmoOnMemory
  intro s u d a b q r pa holder nc pure unbuffered sources free unversioned running tagged outside unlogged reached device ordered releases
    acquires performed noBarrier empty clean amo
  have ready : HomeAmo s u d a q r pa holder nc := ⟨pure, unbuffered, free, unversioned, running, tagged, outside, unlogged, reached, device,
    ordered, releases, acquires, performed, noBarrier, empty, clean⟩
  have w (op : AmoOp) {f : Instr} (run : exec f s = amoOp d a b 4 q r op s) : HomeAmoDone s d a b pa f 4 (op.apply 4) :=
    homeAmo_op ready sources op run
  have dw (op : AmoOp) {f : Instr} (run : exec f s = amoOp d a b 8 q r op s) : HomeAmoDone s d a b pa f 8 (op.apply 8) :=
    homeAmo_op ready sources op run
  exact ⟨w .swap rfl, dw .swap rfl, w .add rfl, dw .add rfl, w .and rfl, dw .and rfl, w .or rfl, dw .or rfl, w .xor rfl, dw .xor rfl,
    w .min rfl, dw .min rfl, w .max rfl, dw .max rfl, w .minu rfl, dw .minu rfl, w .maxu rfl, dw .maxu rfl, w .fadd rfl,
    fun compared => homeAmo_cas ready sources compared rfl, fun compared => homeAmo_cas ready sources compared rfl⟩

end Sys2Proof.Machine
end

section
/-! SUPPORT. LDTO: a load at the home whose value leaves as a put (R120), and O17. -/

namespace Sys2Proof.Machine
open Sys2Proof.Safety

/-- R120: the bytes that LDTO and LDTO.W load, and the dword they send of their value. -/
def ldtoSize (word : Bool) : Nat := if word then 4 else 8
def ldtoValue (word : Bool) (v : Nat) : Word := if word then (BitVec.ofNat 32 v).signExtend 64 else BitVec.ofNat 64 v

/-- The put of a loaded dword: to a locator, without a signature. -/
def ldtoPut (d : Sender) (loc : Word) (v : Word) : Put := ⟨loc, false, v.setWidth 512, none, 0, some d, false, 0#3, false, none⟩

theorem launchPut_countUp (s : State) (p : Put) : launchPut (s.setHart s.cur s.me.countUp) p = (launchPut s p).setMe s.me.countUp := by
  rw [launchPut_setHart, State.setMe, show (launchPut s p).cur = s.cur by rw [launchPut_eq]]

/-- R120: the load of a delivery from the local stash, which meets no L2. -/
theorem deliverLoad_stash {s : State} {va : Word} {o : Nat} (d : Sender) (loc : Word) (word : Bool)
    (reached : reach s s.myCore s.me.tctx va accRead = .ok (.stash (stashIdx s.myCore o), s))
    (settled : remotePending s s.cur (.stash (stashIdx s.myCore o)) (ldtoSize word) = false)
    (read : readHome s s.cur va (.stash (stashIdx s.myCore o)) (ldtoSize word) =
      .ok ⟨Memory.readBytes s.ms.stash (stashIdx s.myCore o) (ldtoSize word), false, s⟩) :
    deliverLoad s s.cur d loc va word = .ok ((launchPut s (ldtoPut d loc
      (ldtoValue word (leNat (Memory.readBytes s.ms.stash (stashIdx s.myCore o) (ldtoSize word)))))).setMe s.me.countUp) := by
  have reached' : reach s (s.cur / 8) (s.hart s.cur).tctx va accRead = .ok (.stash (stashIdx s.myCore o), s) := reached
  rw [← launchPut_countUp]
  unfold ldtoSize at settled read
  simp only [deliverLoad, reached', bind_ok, settled, Bool.not_false, check_true, read]
  rfl

/-- R120: LDTO and LDTO.W of the local stash. -/
theorem ldtoOp_stash {s : State} {a b : Reg} {o : Nat} (word : Bool) (pure : Impure s) (unbuffered : NoBuffer s) (ready : XReady s [a, b])
    (room : s.me.unack < 1023) (ho : o < 0x40000) (ea : s.me.rx a = BitVec.ofNat 64 (0x007F000000000000 + o))
    (window : windowAt s s.myCore o = none) (unlogged : lineLogged s s.myCore (s.me.rx a) = false)
    (clean : isStashPoison s.ms (stashIdx s.myCore o / 64) = false)
    (route : permits s s.myCore (resolveLocal s.plat.node (s.me.rx b)) = true) (free : sendFree s.me false = true)
    (al : o % ldtoSize word = 0) (settled : remotePending s s.cur (.stash (stashIdx s.myCore o)) (ldtoSize word) = false)
    (empty : ∀ k, k < ldtoSize word →
      bufferedByte s s.cur (BitVec.ofNat 64 (0x007F000000000000 + o)) (.stash (stashIdx s.myCore o)) k = none) :
    ∃ t, ldtoOp a b word s = .next t ∧ Sends s t (ldtoPut (senderOf s s.cur none false) (resolveLocal s.plat.node (s.me.rx b))
      (ldtoValue word (leNat (Memory.readBytes s.ms.stash (stashIdx s.myCore o) (ldtoSize word))))) none := by
  obtain ⟨hn, region⟩ := regionOf_stash ea ho
  have counted : needCount s = .ok () := by simp [needCount, room]
  have routed : needRoute (resolveLocal s.plat.node (s.me.rx b)) s = .ok () := by simp [needRoute, route]
  have checked : needAddr (s.me.rx a) (ldtoSize word) accRead = .ok () :=
    needAddr_stash accRead hn ho region al (by cases word <;> rfl)
  have reached := reach_stash (s := s) (c := s.me.tctx) (acc := accRead) hn ho region window
  have delivered := deliverLoad_stash (senderOf s s.cur none false) (resolveLocal s.plat.node (s.me.rx b)) word reached settled
    (readHome_stash s (s.me.rx a) o (ldtoSize word) ea clean empty)
  refine ⟨_, ?_, sends_of s _ none id (arms_retire _) rfl⟩
  unfold ldtoSize at checked
  simp only [ldtoOp, needX_ok (ready a (by simp)), needX_ok (ready b (by simp)), noPure_ok pure, counted, routed, checked, unlogged,
    Bool.not_false, check_true, reached, bufferOr_out unbuffered, needReply_ok free, delivered, bind_ok, finish_ok]

/-- Settles O17: both forms load at the home and send what they loaded. -/
theorem loadsToLocators : Obligations.LoadsToLocators := by
  unfold Obligations.LoadsToLocators
  intro s a b o pure unbuffered ready room ho ea window unlogged clean loc route free sent value
  exact ⟨ldtoOp_stash false pure unbuffered ready room ho ea window unlogged clean route free,
    ldtoOp_stash true pure unbuffered ready room ho ea window unlogged clean route free⟩

end Sys2Proof.Machine
end

section
/-! SUPPORT. FENCE, FENCE.E and IFLUSH: the copies that end and those that stay (R125, R126), and O18. -/

namespace Sys2Proof.Machine
open Sys2Proof.Safety

/-! ### Copies that end -/

theorem mem_endCopies {t : Table LineCopy} {gone : Nat → Bool} {k : Nat} {c : LineCopy} :
    (k, c) ∈ endCopies t (fun k _ => gone k) ↔
      ∃ old, (k, old) ∈ t ∧ (gone k = true → isWindow (k / 2 ^ 50) = true) ∧ c = if gone k then { old with valid := 0#8 } else old := by
  simp only [endCopies, Table.mapVals, Table.keep, List.mem_map, List.mem_filter, Prod.mk.injEq, Prod.exists, Bool.or_eq_true,
    Bool.not_eq_true', ← Bool.not_eq_true, ← imp_iff_not_or]
  constructor
  · rintro ⟨_, old, ⟨mem, window⟩, rfl, rfl⟩
    exact ⟨old, mem, window, rfl⟩
  · rintro ⟨old, mem, window, rfl⟩
    exact ⟨k, old, ⟨mem, window⟩, rfl, rfl⟩

/-- R98, R101: a copy that ends holds no word. -/
theorem endCopies_ended {t : Table LineCopy} {gone : Nat → Bool} {k : Nat} {c : LineCopy} (ends : gone k = true)
    (mem : (k, c) ∈ endCopies t (fun k _ => gone k)) : c.valid = 0#8 := by
  obtain ⟨old, -, -, rfl⟩ := mem_endCopies.mp mem
  rw [if_pos ends]

theorem endCopies_kept {t : Table LineCopy} {gone : Nat → Bool} {k : Nat} {c : LineCopy} (stays : gone k = false) :
    (k, c) ∈ endCopies t (fun k _ => gone k) ↔ (k, c) ∈ t := by
  simp [mem_endCopies, stays]

theorem dropFetched_ended {ms : MemSys} {core k : Nat} {c : LineCopy} (ends : (k / 2 ^ 50 == fetchHolder core) = true)
    (mem : (k, c) ∈ (dropFetched ms core).copies) : c.valid = 0#8 := by
  simp only [dropFetched, Table.keep, List.mem_filter, bne, ends] at mem
  exact absurd mem.2 (by decide)

theorem dropFetched_kept {ms : MemSys} {core k : Nat} {c : LineCopy} (stays : (k / 2 ^ 50 == fetchHolder core) = false) :
    (k, c) ∈ (dropFetched ms core).copies ↔ (k, c) ∈ ms.copies := by
  simp only [dropFetched, Table.keep, List.mem_filter, bne, stays, Bool.not_false, and_true]

/-! ### The forms -/

/-- What a fence leaves: of u the PC alone has moved on and the copies of the holders named have ended; the other copies are those of s. -/
def DropsCopies (s u t : State) (gone : Nat → Bool) : Prop :=
  Passes { u with ms := { u.ms with copies := t.ms.copies } } t ∧
    (∀ k c, gone (k / 2 ^ 50) = true → (k, c) ∈ t.ms.copies → c.valid = 0#8) ∧
    ∀ k c, gone (k / 2 ^ 50) = false → ((k, c) ∈ t.ms.copies ↔ (k, c) ∈ s.ms.copies)

/-- R109, R125: what FENCE leaves once its waits are over. -/
theorem fenced_drops (s : State) :
    DropsCopies s (s.setMe { s.me with sigCur := sigUnion s.me.sigCur sigAll }) (fenced s) (isDataHolder s.myCore) :=
  ⟨passes_step4_setMe { s with ms := dropUnowned s.ms s.myCore } (·.inherit sigAll),
    fun _ _ ends mem => endCopies_ended (gone := fun k => isDataHolder s.myCore (k / 2 ^ 50)) ends mem,
    fun _ _ stays => endCopies_kept (gone := fun k => isDataHolder s.myCore (k / 2 ^ 50)) stays⟩

theorem dropFetched_drops (s : State) :
    DropsCopies s s (({ s with ms := dropFetched s.ms s.myCore } : State).step4 id) (fun holder => holder == fetchHolder s.myCore) :=
  ⟨passes_step4 _, fun _ _ ends mem => dropFetched_ended ends mem, fun _ _ stays => dropFetched_kept stays⟩

theorem exec_fence_released {s : State} (unbuffered : NoBuffer s) (released : needReleased s = .ok ()) :
    exec .fence s = .next (fenced s) := by
  simp only [exec_fence, execFence, needUnrollable_ok unbuffered, released, bind_ok, finish_ok]

theorem exec_fenceE_released {s : State} (unbuffered : NoBuffer s) (idle : s.me.engines = 0) (released : needReleased s = .ok ()) :
    exec .fenceE s = .next (fenced s) := by
  simp only [exec_fenceE, execFenceE, needUnrollable_ok unbuffered, idle, beq_self_eq_true, check_true, released, bind_ok, finish_ok]

/-- R125: FENCE.E waits for the hart's engine commands. -/
theorem exec_fenceE_busy {s : State} (unbuffered : NoBuffer s) (busy : s.me.engines ≠ 0) :
    exec .fenceE s = .next (s.setMe { s.me with stall := some .other }) := by
  have waits : check (s.me.engines == 0) (.wait .other) = .error (.wait .other) := by rw [beq_eq_false_iff_ne.mpr busy]; rfl
  simp only [exec_fenceE, execFenceE, needUnrollable_ok unbuffered, bind_ok, waits]
  rfl

theorem needDelivered_ok {s : State} (delivered : Delivered s) : needDelivered s s.myCore = .ok () := by
  have none_ : s.flight.any (Event.fromCore s.myCore) = false := List.any_eq_false.mpr fun e mem => by rw [delivered e mem]; decide
  rw [needDelivered, none_]; rfl

/-- R126: IFLUSH once the hart's earlier stores are performed. -/
theorem exec_iflush_stored {s : State} (performed : hasOwnStore s s.cur = false) (unlogged : hasOwnLog s s.cur = false)
    (delivered : Delivered s) : exec .iflush s = .next (({ s with ms := dropFetched s.ms s.myCore } : State).step4 id) := by
  have stored : needStored s = .ok () := by rw [needStored, performed, unlogged]; rfl
  simp only [exec_iflush, execIflush, stored, needDelivered_ok delivered, bind_ok, finish_ok]

/-- Settles O18: each form past its waits, and FENCE.E before them. -/
theorem fences : Obligations.Fences := by
  unfold Obligations.Fences
  intro s unbuffered drops v
  refine ⟨fun released => ⟨⟨_, exec_fence_released unbuffered released, fenced_drops s⟩, fun idle =>
    ⟨_, exec_fenceE_released unbuffered idle released, fenced_drops s⟩⟩, exec_fenceE_busy unbuffered, fun performed unlogged delivered =>
    ⟨_, exec_iflush_stored performed unlogged delivered, dropFetched_drops s⟩⟩

end Sys2Proof.Machine
end

section
/-! SUPPORT. The barrier forms at an object that they reach (R127 to R129), and O19. -/

namespace Sys2Proof.Machine
open Sys2Proof.Safety

/-! ### Checks -/

/-- A hart with no store on its way waits for none. -/
theorem needPerformed_ok {s : State} (performed : hasOwnStore s s.cur = false) (p : Place) (n : Nat) : needPerformed s p n = .ok () := by
  unfold needPerformed
  rw [remotePending_none performed, Bool.not_false, check_true, bind_ok]
  cases p with
  | stash i => rfl
  | mem pa sm nc holder rm =>
    refine check_ok (List.all_eq_true.mpr fun k _ => ?_)
    rw [show s.me.tag = (s.hart s.cur).tag from rfl, pendingByte_none performed]
    rfl

/-- R127: an aligned object outside the windows and the host's memory is reached at its physical address. -/
theorem reachBarrier_ok {s u : State} {va : Word} {acc pa holder : Nat} {nc rm : Bool} (outside : inWindow va = false)
    (al : va.toNat % 16 = 0) (memory : isHost pa = false)
    (reached : reach s s.myCore s.me.tctx va acc = .ok (.mem pa none nc holder rm, u)) :
    reachBarrier s va acc = .ok (.mem pa none nc holder rm, pa, u) := by
  have place : barrierPlace (.mem pa none nc holder rm) = some pa := by simp [barrierPlace, memory]
  simp only [reachBarrier, needAddr_ok (n := 16) (acc := acc) outside al (canonical_of_reach reached), reached, bind_ok, place]

/-! ### BAREXP and BARARR (R128) -/

/-- The update that BAREXP or BARARR sends of x[n] to the object at va, which stands at pa. -/
def sentUpdate (s : State) (expect : Bool) (va : Word) (pa : Nat) (n : Reg) : BarOp :=
  ⟨expect, va, pa, ((s.me.rx n).extractLsb' 0 32).toNat, ⟨0, s.myCore, s.cur % 8⟩, some s.me.releaseSig, some (s.cur, s.me.tag), s.me.vmid⟩

/-- R128: what BAREXP and BARARR leave. -/
def SendsUpdate (s t : State) (expect : Bool) (va : Word) (pa : Nat) (n : Reg) : Prop :=
  t.flight = s.flight ++ [.barrierUpdate (sentUpdate s expect va pa n)] ∧ t.me.unack = s.me.unack + 1 ∧ Arms s.me t.me none ∧
    t.ms = { s.ms with tlb := t.ms.tlb } ∧ ∀ h, h ≠ s.cur → t.hart h = s.hart h

theorem barrierOp_ok {s u : State} {a n : Reg} {pa holder : Nat} {nc rm : Bool} (expect : Bool) (pure : Impure s) (unbuffered : NoBuffer s)
    (ready : XReady s [a, n]) (outside : inWindow (s.me.rx a) = false) (al : (s.me.rx a).toNat % 16 = 0) (memory : isHost pa = false)
    (released : needReleased s = .ok ()) (room : s.me.unack < 1023)
    (reached : reach s s.myCore s.me.tctx (s.me.rx a) accAmo = .ok (.mem pa none nc holder rm, u)) :
    ∃ t, barrierOp a n expect s = .next t ∧ SendsUpdate s t expect (s.me.rx a) pa n := by
  have counted : needCount s = .ok () := by simp [needCount, room]
  have amount : (s.me.rx n).toNat % 2 ^ 32 = ((s.me.rx n).extractLsb' 0 32).toNat := by rw [BitVec.extractLsb'_toNat, Nat.shiftRight_zero]
  have found := reachBarrier_ok outside al memory reached
  obtain ⟨tlb, rfl⟩ := reach_st reached
  have next : barrierOp a n expect s =
      .next (State.step4 (State.fly { s with ms := { s.ms with tlb := tlb } } (.barrierUpdate (sentUpdate s expect (s.me.rx a) pa n)))
        Hart.countUp) := by
    simp only [barrierOp, needX_ok (ready a (by simp)), needX_ok (ready n (by simp)), noPure_ok pure, found, needUnrollable_ok unbuffered,
      released, counted, bind_ok, finish_ok, amount, sentUpdate]
  refine ⟨_, next, rfl, ?_, ?_, rfl, fun h ne => State.step4_hart_ne _ _ ne⟩
  · rw [State.step4_me, Hart.retire_unack]
    rfl
  · rw [State.step4_me]
    exact arms_congr (arms_retire _) rfl rfl rfl rfl rfl rfl

/-! ### BARWAIT (R129) -/

/-- The second byte bit of a little-endian number is that of its first byte. -/
theorem testBit_leNat_cons (b : Byte) (bs : List Byte) : (leNat (b :: bs)).testBit 1 = b.getLsbD 1 := by
  have low : leNat (b :: bs) % 2 ^ 8 = b.toNat := by have := b.isLt; simp only [leNat]; omega
  rw [BitVec.getLsbD, ← low, Nat.testBit_mod_two_pow]
  rfl

/-- R129: PHASE and OVERRUN of the object at pa, and the value made of them. -/
def phaseAt (m : Memory) (pa : Nat) : BitVec 32 := BitVec.ofNat 32 (leNat (Memory.readBytes m (pa + 4) 4))
def overrunAt (m : Memory) (pa : Nat) : Bool := (Memory.read m (pa + 8)).getLsbD 1

theorem readNat_word_lt (m : Memory) (a : Nat) : leNat (Memory.readBytes m a 4) < 2 ^ 32 := by
  have bound := leNat_lt (Memory.readBytes m a 4)
  rwa [Memory.length_readBytes] at bound

theorem phaseAt_toNat (m : Memory) (pa : Nat) : (phaseAt m pa).toNat = leNat (Memory.readBytes m (pa + 4) 4) := by
  rw [phaseAt, BitVec.toNat_ofNat, Nat.mod_eq_of_lt (readNat_word_lt ..)]

/-- A bit above a number of 32 bits, added and joined. -/
theorem join_bit63 (x : BitVec 32) :
    BitVec.ofNat 64 (x.toNat + 2 ^ 63) = x.setWidth 64 ||| 0x8000000000000000#64 := by
  have low := x.isLt
  apply BitVec.eq_of_toNat_eq
  have joined := Nat.two_pow_add_eq_or_of_lt (b := x.toNat) (i := 63) (by omega) 1
  rw [Nat.mul_one] at joined
  simp only [BitVec.toNat_ofNat, BitVec.toNat_or, BitVec.toNat_setWidth]
  rw [Nat.mod_eq_of_lt (by omega), Nat.mod_eq_of_lt (by omega), Nat.or_comm, Nat.add_comm]
  exact joined

theorem barrierValue_eq (s : State) (pa : Nat) :
    barrierValue s pa = (phaseAt s.ms.mem pa).setWidth 64 ||| (if overrunAt s.ms.mem pa then 0x8000000000000000#64 else 0#64) := by
  have overrun : (memNat s (pa + 8) 4).testBit 1 = overrunAt s.ms.mem pa := testBit_leNat_cons ..
  have phase : memNat s (pa + 4) 4 = (phaseAt s.ms.mem pa).toNat := (phaseAt_toNat ..).symm
  rw [barrierValue, overrun, phase]
  cases overrunAt s.ms.mem pa with
  | true => exact join_bit63 _
  | false =>
    rw [if_neg Bool.false_ne_true, if_neg Bool.false_ne_true, Nat.add_zero, BitVec.or_zero]
    apply BitVec.eq_of_toNat_eq
    rw [BitVec.toNat_ofNat, BitVec.toNat_setWidth]

/-- Whether PHASE is the one that x[n] names. -/
theorem phaseAt_eq_iff (m : Memory) (pa : Nat) (w : Word) :
    phaseAt m pa = w.setWidth 32 ↔ leNat (Memory.readBytes m (pa + 4) 4) = w.toNat % 2 ^ 32 := by
  rw [← BitVec.toNat_inj, phaseAt_toNat, BitVec.toNat_setWidth]

theorem Hart.wx_count (h : Hart) (d : Reg) (v : Word) (code k : Nat) : (h.wx d v).count code k = (h.count code k).wx d v := by
  by_cases off : h.pmsel = 0#64
  · rw [Hart.count, if_pos (by rw [Hart.wx_pmsel]; exact off), Hart.count, if_pos off]
  · rw [Hart.count, if_neg (by rw [Hart.wx_pmsel]; exact off), Hart.count, if_neg off, Hart.wx_pmsel, Hart.wx_pmc]
    by_cases zero : d = 0#5
    · simp only [Hart.wx, if_pos zero]
    · simp only [Hart.wx, if_neg zero]

/-- x[d] written and an access to an L2 counted, and the instruction left: to what is counted first, the write alone is added. -/
theorem writesX_step4_counted (s : State) (d : Reg) (v : Word) (code k : Nat) :
    WritesX (s.setMe (s.me.count code k)) (s.step4 fun h => (h.wx d v).count code k) d v 4 := by
  have same : s.step4 (fun h => (h.wx d v).count code k) = (s.setMe (s.me.count code k)).step4 fun h => h.wx d v := by
    rw [State.step4, State.step4, State.me_setMe, State.setMe_setMe, Hart.wx_count]
  rw [same]
  exact writesX_step4 ..

/-- BARWAIT past its waits but the one for PHASE. -/
theorem exec_barwait_reached {s u : State} {d a n : Reg} {pa holder : Nat} {nc rm : Bool} (pure : Impure s) (unbuffered : NoBuffer s)
    (ready : XReady s [a, n]) (outside : inWindow (s.me.rx a) = false) (al : (s.me.rx a).toNat % 16 = 0) (memory : isHost pa = false)
    (acquires : needAcquire s = .ok ()) (free : XFree s d) (performed : hasOwnStore s s.cur = false)
    (reached : reach s s.myCore s.me.tctx (s.me.rx a) accRead = .ok (.mem pa none nc holder rm, u)) :
    exec (.barwait d a n) s = finish s (check (memNat u (pa + 4) 4 != (s.me.rx n).toNat % 2 ^ 32) (.wait .other) >>= fun _ =>
      .ok ((acquirePlace (meetHome u u.myCore (.mem pa none nc holder rm) 16) (.mem pa none nc holder rm)).step4 fun h =>
        (h.wx d (barrierValue u pa)).count evL2 1)) := by
  have found := reachBarrier_ok outside al memory reached
  obtain ⟨tlb, rfl⟩ := reach_st reached
  have settled : needPerformed { s with ms := { s.ms with tlb := tlb } } (.mem pa none nc holder rm) 16 = .ok () :=
    needPerformed_ok (s := { s with ms := { s.ms with tlb := tlb } }) performed ..
  simp only [exec_barwait, execBarwait, needX_ok (ready a (by simp)), needX_ok (ready n (by simp)), noPure_ok pure, freeX_ok free, found,
    needUnrollable_ok unbuffered, acquires, settled, bind_ok, l2Home]

/-- What an acquire past a barrier's home keeps: all bytes, every hart but the current signature of the issuing one. -/
theorem acquire_met (u : State) (core : Nat) (p : Place) (n : Nat) :
    let w := acquirePlace (meetHome u core p n) p
    w.me = { u.me with sigCur := w.me.sigCur } ∧ (∀ h, h ≠ u.cur → w.hart h = u.hart h) ∧ w.cur = u.cur ∧ w.ms.mem = u.ms.mem ∧
      w.ms.stash = u.ms.stash := by
  obtain ⟨ms, me, others, rest⟩ := acquirePlace_frame (meetHome u core p n) p
  have met : (meetHome u core p n).ms = { u.ms with copies := (meetHome u core p n).ms.copies } := dropWords_frame ..
  refine ⟨me, others, ?_, ?_, ?_⟩
  · rw [rest]; rfl
  · rw [ms, met]
  · rw [ms, met]

/-- A hart whose current signature alone has changed, with an event counted. -/
theorem count_of_signed {a b : Hart} (signed : b = { a with sigCur := b.sigCur }) (code k : Nat) :
    b.count code k = { a with sigCur := (b.count code k).sigCur, pmc := (a.count code k).pmc } := by
  have pmc : b.pmc = a.pmc := (congrArg Hart.pmc signed :)
  have pmsel : b.pmsel = a.pmsel := (congrArg Hart.pmsel signed :)
  have counted : (b.count code k).pmc = (a.count code k).pmc := count_pmc_congr pmc pmsel code k
  rw [← counted, Hart.count_frame]
  generalize (b.count code k).pmc = pmc, b.sigCur = sig at signed
  rw [signed]

/-- R129: BARWAIT waits while PHASE is the one named, then delivers PHASE and OVERRUN. -/
theorem barwait_ok {s u : State} {d a n : Reg} {pa holder : Nat} {nc rm : Bool} (pure : Impure s) (unbuffered : NoBuffer s)
    (ready : XReady s [a, n]) (outside : inWindow (s.me.rx a) = false) (al : (s.me.rx a).toNat % 16 = 0) (memory : isHost pa = false)
    (acquires : needAcquire s = .ok ()) (free : XFree s d) (performed : hasOwnStore s s.cur = false)
    (reached : reach s s.myCore s.me.tctx (s.me.rx a) accRead = .ok (.mem pa none nc holder rm, u)) :
    let phase := phaseAt s.ms.mem pa
    (phase = (s.me.rx n).setWidth 32 → exec (.barwait d a n) s = .next (s.setMe { s.me with stall := some .other })) ∧
      (phase ≠ (s.me.rx n).setWidth 32 → ∃ v t, exec (.barwait d a n) s = .next t ∧
        WritesX v t d (phase.setWidth 64 ||| (if overrunAt s.ms.mem pa then 0x8000000000000000#64 else 0#64)) 4 ∧
        v.me = { s.me with sigCur := v.me.sigCur, pmc := (s.me.count 0x10 1).pmc } ∧ (∀ h, h ≠ s.cur → v.hart h = s.hart h) ∧
        v.ms.mem = s.ms.mem ∧ v.ms.stash = s.ms.stash) := by
  have run := exec_barwait_reached pure unbuffered ready outside al memory acquires free performed reached
  rw [barrierValue_eq] at run
  obtain ⟨tlb, rfl⟩ := reach_st reached
  obtain ⟨me, others, cur, mem, stash⟩ := acquire_met { s with ms := { s.ms with tlb := tlb } } s.myCore (.mem pa none nc holder rm) 16
  refine ⟨fun named => ?_, fun other => ?_⟩
  · have waits := beq_iff_eq.mpr ((phaseAt_eq_iff ..).mp named)
    rw [run, memNat, readRange, bne, waits]
    rfl
  · have goes := beq_eq_false_iff_ne.mpr (mt (phaseAt_eq_iff ..).mpr other)
    let w := acquirePlace (meetHome { s with ms := { s.ms with tlb := tlb } } s.myCore (.mem pa none nc holder rm) 16)
      (.mem pa none nc holder rm)
    refine ⟨_, _, run.trans ?_, writesX_step4_counted w d _ evL2 1, ?_, fun h ne => ?_, mem, stash⟩
    · rw [memNat, readRange, bne, goes]
      rfl
    · rw [State.me_setMe]
      exact count_of_signed me _ _
    · rw [State.hart_setMe_ne _ _ (by rw [cur]; exact ne)]
      exact others h ne

/-- Settles O19: the updates leave for the object, and BARWAIT reads it at its home. -/
theorem barrierForms : Obligations.BarrierForms := by
  unfold Obligations.BarrierForms
  intro s u d a n pa holder nc rm pure unbuffered ready va outside al memory sent
  refine ⟨fun released room reached => ⟨?_, ?_⟩, fun acquires free performed reached =>
    barwait_ok pure unbuffered ready outside al memory acquires free performed reached⟩
  · exact barrierOp_ok true pure unbuffered ready outside al memory released room reached
  · exact barrierOp_ok false pure unbuffered ready outside al memory released room reached

end Sys2Proof.Machine
end

section
/-! SUPPORT. SPAWN, ARMLR and LCHK: what a record's acceptance keeps, the header that SPAWN loads, and O42. -/

namespace Sys2Proof.Machine
open Sys2Proof.Safety

/-! ### A record accepted (R94) -/

/-- The harts are as before, and the issuing hart is the same. -/
def SameHarts (s t : State) : Prop := t.harts = s.harts ∧ t.cur = s.cur

theorem SameHarts.refl (s : State) : SameHarts s s := ⟨rfl, rfl⟩
theorem SameHarts.trans {s t u : State} (a : SameHarts s t) (b : SameHarts t u) : SameHarts s u := ⟨b.1.trans a.1, b.2.trans a.2⟩
theorem SameHarts.withLaunches {s t : State} {l : LaunchSys} (a : SameHarts s t) : SameHarts s { t with lch := l } := a
theorem SameHarts.hart {s t : State} (a : SameHarts s t) (h : Nat) : t.hart h = s.hart h := by rw [State.hart, a.1]; rfl
theorem SameHarts.me {s t : State} (a : SameHarts s t) : t.me = s.me := by rw [State.me, a.2, a.hart]; rfl

theorem SameHarts.foldl {α : Type} {f : State → α → State} (step : ∀ s x, SameHarts s (f s x)) (l : List α) (s : State) :
    SameHarts s (l.foldl f s) := by
  induction l generalizing s with
  | nil => exact .refl s
  | cons x l ih => exact (step s x).trans (ih (f s x))

theorem writeRange_sameHarts (s : State) (sm : Option Nat) (pa : Nat) (bs : List Byte) : SameHarts s (writeRange s sm pa bs) :=
  .foldl (f := fun s (c : Nat × List Byte) => storeHome s sm c.1 c.2) (fun _ _ => ⟨rfl, rfl⟩) _ s

theorem saveWords_sameHarts (s : State) (pa : Nat) (ws : List Word) : SameHarts s (saveWords s pa ws) := by
  refine .foldl (fun s c => ?_) _ s
  split <;> exact ⟨rfl, rfl⟩

theorem reportStatus_sameHarts (s : State) (d : StatusTo) (code : Nat) : SameHarts s (reportStatus s d code) := by
  cases d with
  | token loc node => exact ⟨rfl, rfl⟩
  | host pa =>
    unfold reportStatus
    dsimp only
    split
    · exact writeRange_sameHarts ..
    · exact .refl s
  | locator loc h =>
    rw [reportStatus, sendPut_eq]
    exact ⟨rfl, rfl⟩
  | nowhere => exact .refl s

theorem unarm_sameHarts (s : State) (r : LaunchRec) : SameHarts s (unarm s r) := by
  unfold unarm
  split
  · split <;> exact ⟨rfl, rfl⟩
  · exact .refl s

theorem refuseRecord_sameHarts (s : State) (r : LaunchRec) : SameHarts s (refuseRecord s r) :=
  (unarm_sameHarts s r).trans (reportStatus_sameHarts ..)

theorem placeRecordIn_sameHarts (s : State) (p : Nat) (r : LaunchRec) : Has (fun q => SameHarts s q.1) (placeRecordIn s p r) := by
  unfold placeRecordIn
  dsimp only
  split
  · exact .withLaunches (saveWords_sameHarts ..)
  · exact trivial

/-- The launch service taken up sets an event on its way alone. -/
theorem kickService_frame (s : State) (die : Nat) : kickService s die = { s with flight := (kickService s die).flight } := by
  unfold kickService
  split <;> rfl

theorem kickService_sameHarts (s : State) (die : Nat) : SameHarts s (kickService s die) := by
  rw [kickService_frame]
  exact ⟨rfl, rfl⟩

theorem acceptRecord_sameHarts (s : State) (die : Nat) (r : LaunchRec) : SameHarts s (acceptRecord s die r) := by
  unfold acceptRecord
  split
  · exact kickService_sameHarts (s.setPool die _) die
  · split
    · split
      · rename_i placed
        exact (Has.of_eq placed (placeRecordIn_sameHarts ..)).trans ⟨rfl, rfl⟩
      · exact refuseRecord_sameHarts ..
    · exact refuseRecord_sameHarts ..

/-- R94: a record joins a pool that has room. -/
theorem acceptRecord_room {s : State} {die : Nat} {r : LaunchRec} (room : (s.poolOf die).length < 256) :
    (acceptRecord s die r).poolOf die = s.poolOf die ++ [r] ∧ (acceptRecord s die r).ms = s.ms := by
  rw [acceptRecord, if_pos room, kickService_frame]
  exact ⟨Table.get_set_self .., rfl⟩

/-! ### What SPAWN loads (R136) -/

/-- Dword k of the block at an address of the local stash. -/
def blockWord (s : State) (p : Word) (k : Nat) : Word := (blockAt s p).extractLsb' (64 * k) 64

theorem blockWord_eq (s : State) (p : Word) (k : Nat) :
    blockWord s p k = BitVec.ofNat 64 (leNat (Memory.readBytes s.ms.stash (stashAt s p) 64) / 2 ^ (64 * k)) := by
  have bound := leNat_lt (Memory.readBytes s.ms.stash (stashAt s p) 64)
  rw [Memory.length_readBytes] at bound
  apply BitVec.eq_of_toNat_eq
  rw [blockWord, blockAt, BitVec.extractLsb'_toNat, BitVec.toNat_ofNat, BitVec.toNat_ofNat, Nat.mod_eq_of_lt bound,
    Nat.shiftRight_eq_div_pow]

/-- The block of a header or of presets in the local stash, with nothing in its way. -/
theorem loadHeader_stash {s : State} {va : Word} (found : InStash s va 64) :
    loadHeader s va = .ok ((List.range 8).map (blockWord s va), s) := by
  obtain ⟨o, e, fits, -, window, unlogged, -, clean, settled, empty⟩ := found
  have inside : o < 0x40000 := by omega
  obtain ⟨hn, region⟩ := regionOf_stash e inside
  have at_ : stashAt s va = stashIdx s.myCore o := by rw [stashAt, hn, Nat.add_sub_cancel_left]
  have words : blockWord s va = fun k => BitVec.ofNat 64 (leNat (Memory.readBytes s.ms.stash (stashIdx s.myCore o) 64) / 2 ^ (64 * k)) :=
    funext fun k => at_ ▸ blockWord_eq s va k
  simp only [loadHeader, unlogged, Bool.not_false, check_true, reach_stash hn inside region window, settled,
    readPlace_stash s va o 64 e clean empty, bind_ok, words]

/-- R86: flag bit 2 of a header is bit 42 of its dword 1. -/
theorem hdrFlags_preset (hdr : List Word) : (hdrFlags hdr).testBit 2 = (hdrWord hdr 1).getLsbD 42 := by
  rw [hdrFlags, fieldOf, Nat.testBit_mod_two_pow, Nat.testBit_shiftRight]
  rfl

theorem loadPresets_stash {s : State} {va : Word} {hdr : List Word} (found : (hdrWord hdr 1).getLsbD 42 = true → InStash s (va + 64) 64) :
    loadPresets s hdr va = .ok (if (hdrWord hdr 1).getLsbD 42 then (List.range 8).map (blockWord s (va + 64)) else [], s) := by
  rw [loadPresets, hdrFlags_preset]
  cases preset : (hdrWord hdr 1).getLsbD 42 with
  | false => rfl
  | true => exact loadHeader_stash (found preset)

/-- An operation that answers has answered at every step. -/
theorem ok_of_bind {α β : Type} {r : Except Stop α} {f : α → Except Stop β} {y : β} (h : r >>= f = .ok y) :
    ∃ x, r = .ok x ∧ f x = .ok y := by
  cases r with
  | ok x => exact ⟨x, rfl, h⟩
  | error e => cases h

theorem settleLine_cur (s : State) (pa : Nat) : (settleLine s pa).cur = s.cur := by
  have charged (s : State) (p : Nat) (c : Bool) : (chargeError s p c).cur = s.cur := by
    simp only [chargeError, apply_ite State.cur, State.setHart_cur, State.setPart_cur, ite_self]
  have maybe (s : State) (c : Bool) : (match errorPart s pa with | some p => chargeError s p c | none => s).cur = s.cur := by
    split
    · exact charged ..
    · rfl
  unfold settleLine
  split
  · rfl
  · dsimp only
    split
    · split
      · exact maybe ..
      · exact maybe ..
    · exact maybe ..
    · rfl

/-- A scalar read leaves the issuing hart the issuing hart. -/
theorem readPlace_cur {s : State} {h n : Nat} {va : Word} {p : Place} {g : Got} (read : readPlace s h va p n true = .ok g) :
    g.st.cur = s.cur := by
  have settled (st : LineState) : (settleRead s p st).cur = s.cur := by
    cases st with
    | corrected => cases p with
      | stash i => rfl
      | mem pa sm nc holder rm => exact settleLine_cur ..
    | _ => rfl
  have touched (u : State) (c : Bool) : (if c then meetHome u (h / 8) p n else touch u p).cur = u.cur := by
    split
    · rfl
    · cases p with
      | stash i => rfl
      | mem pa sm nc holder rm => unfold touch; dsimp only; split <;> rfl
  obtain ⟨_, -, read⟩ := ok_of_bind read
  cases met : ownState s h va p (readState s.ms p n) <;> rw [met] at read <;> cases read
  case clean => exact (touched ..).trans (settled .clean)
  case corrected => exact (touched ..).trans (settled .corrected)

theorem loadHeader_cur {s u : State} {va : Word} {hdr : List Word} (loaded : loadHeader s va = .ok (hdr, u)) : u.cur = s.cur := by
  unfold loadHeader at loaded
  obtain ⟨_, -, loaded⟩ := ok_of_bind loaded
  obtain ⟨⟨p, w⟩, reached, loaded⟩ := ok_of_bind loaded
  dsimp only at loaded
  obtain ⟨_, -, loaded⟩ := ok_of_bind loaded
  obtain ⟨g, read, loaded⟩ := ok_of_bind loaded
  have cur : w.cur = s.cur := by
    obtain ⟨_, same⟩ := reach_st reached
    rw [same]
  cases loaded
  exact (readPlace_cur read).trans cur

theorem loadPresets_cur {s u : State} {va : Word} {hdr presets : List Word} (loaded : loadPresets s hdr va = .ok (presets, u)) :
    u.cur = s.cur := by
  unfold loadPresets at loaded
  split at loaded
  · exact loadHeader_cur loaded
  · cases loaded; rfl

/-! ### SPAWN (R136) -/

theorem needReleased_ok {s : State} (released : Released s) : needReleased s = .ok () := by
  obtain ⟨loads, stores, unack, delivered⟩ := released
  have idle : needRelease s = .ok () := check_ok (by rw [loads, hasOwnStore_none stores, unack]; rfl)
  rw [needReleased, idle, bind_ok, needDelivered_ok delivered]

/-- The state in which SPAWN hands over its record: past the instruction, the register of its status not ready. -/
def spawned (v : State) (d : Reg) : State := ({ v with nextId := v.nextId + 1 } : State).step4 (·.armX d)

section
variable {s : State} {d a x : Reg} (wf : Instr.wf (.spawn d a x) = true) (pure : Impure s) (unbuffered : NoBuffer s)
  (ready : XReady s (groupRegs a)) (plain : s.me.isV = false) (free : XFree s d) (released : Released s)
include wf pure unbuffered ready plain free released

/-- SPAWN past its checks and its loads. -/
theorem exec_spawn_loaded {u v : State} {hdr presets : List Word} (outside : inWindow (member (stage s.me a) 0) = false)
    (al : (member (stage s.me a) 0).toNat % 64 = 0) (can : canonical (member (stage s.me a) 0) = true)
    (header : loadHeader s (member (stage s.me a) 0) = .ok (hdr, u))
    (behind : loadPresets u hdr (member (stage s.me a) 0) = .ok (presets, v)) :
    exec (.spawn d a x) s = .next (acceptRecord (spawned v d) (dieOf s.myCore) (spawnRecord v d (stage s.me a) hdr presets)) := by
  have version : noV 0 s = .ok () := by rw [noV, plain]; rfl
  simp only [exec_spawn, execSpawn, needWf_ok wf, needXs_ok ready, noPure_ok pure, version, freeX_ok free,
    needAddr_ok (acc := accRead) outside al can, header, behind, needUnrollable_ok unbuffered, needReleased_ok released, bind_ok, finish_ok,
    spawned]

end

/-- What the acceptance of a SPAWN's record leaves of the harts, and of the pool and the memory where the pool has room. -/
theorem spawned_accepted (v : State) (d : Reg) (die : Nat) (r : LaunchRec) :
    let t := acceptRecord (spawned v d) die r
    Arms v.me t.me (some d) ∧ (∀ h, h ≠ v.cur → t.hart h = v.hart h) ∧
      ((v.poolOf die).length < 256 → t.poolOf die = v.poolOf die ++ [r] ∧ t.ms = v.ms) := by
  have same := acceptRecord_sameHarts (spawned v d) die r
  refine ⟨?_, fun h ne => ?_, fun room => acceptRecord_room (s := spawned v d) room⟩
  · rw [same.me, spawned, State.step4_me]
    exact arms_armX v.me d
  · rw [same.hart, spawned]
    exact State.step4_hart_ne _ _ ne

/-! ### ARMLR (R137) -/

section
variable {s : State} {a b : Reg} {c : BitVec 6} (wf : Instr.wf (.armlr b a) = true) (pure : Impure s)
  (mode : modeAtLeast s.me.mode .s = true) (slot : s.me.slot = .activation c) (index : XReady s [b]) (ready : XReady s (groupRegs a))
include wf pure mode slot index ready

/-- ARMLR in an activation, past its checks but that of the record. -/
theorem exec_armlr_activation : exec (.armlr b a) s = finish s
    (match Table.find? s.lch.prebuilt (64 * dieOf s.myCore + (s.me.rx b).toNat % 64) with
    | none => .error (.trap cAccess (s.me.rx b))
    | some p => do
      check ((s.me.rx b).toNat < 64 && p.owner == c.toNat) (.trap cAccess (s.me.rx b))
      needUnrollable s
      let r := armedRecord s p (s.me.rx b).toNat (stage s.me a)
      if p.armed then .ok (reportStatus (s.step4 id) r.dest 0x18) else .ok (armRecord (s.step4 id) p (s.me.rx b).toNat r)) := by
  have channel : needChannel (Instr.bits (.armlr b a)) s = .ok c := by rw [needChannel, slot]
  simp only [exec_armlr, execArmlr, needWf_ok wf, needMode_ok mode, needX_ok (index b (by simp)), needXs_ok ready, noPure_ok pure, channel,
    bind_ok] <;> rfl

theorem armlr_missing (missing : Table.find? s.lch.prebuilt (64 * dieOf s.myCore + (s.me.rx b).toNat % 64) = none) :
    exec (.armlr b a) s = .next (takeTrap s s.cur 0x06 (s.me.rx b) false) := by
  rw [exec_armlr_activation wf pure mode slot index ready, missing]
  exact trapped pure ..

/-- R137: an index beyond the records of a die, or a record of another owner. -/
theorem armlr_foreign (foreign : ∀ p, Table.find? s.lch.prebuilt (64 * dieOf s.myCore + (s.me.rx b).toNat % 64) = some p →
      ((s.me.rx b).toNat < 64 && p.owner == c.toNat) = false) :
    exec (.armlr b a) s = .next (takeTrap s s.cur 0x06 (s.me.rx b) false) := by
  cases found : Table.find? s.lch.prebuilt (64 * dieOf s.myCore + (s.me.rx b).toNat % 64) with
  | none => exact armlr_missing wf pure mode slot index ready found
  | some p =>
    rw [exec_armlr_activation wf pure mode slot index ready, found]
    dsimp only
    rw [foreign p found, check_false, bind_error]
    exact trapped pure ..

theorem armlr_owned {p : Prebuilt} (unbuffered : NoBuffer s) (below : (s.me.rx b).toNat < 64)
    (found : Table.find? s.lch.prebuilt (64 * dieOf s.myCore + (s.me.rx b).toNat) = some p) (owned : p.owner = c.toNat) :
    exec (.armlr b a) s = .next (if p.armed then reportStatus (s.step4 id) (armedRecord s p (s.me.rx b).toNat (stage s.me a)).dest 0x18
      else armRecord (s.step4 id) p (s.me.rx b).toNat (armedRecord s p (s.me.rx b).toNat (stage s.me a))) := by
  have own : ((s.me.rx b).toNat < 64 && p.owner == c.toNat) = true := by simp [below, owned]
  rw [exec_armlr_activation wf pure mode slot index ready, Nat.mod_eq_of_lt below, found]
  dsimp only
  rw [own, check_true, bind_ok, needUnrollable_ok unbuffered, bind_ok]
  cases p.armed <;> rfl

end

/-- R95, R137: what a record armed leaves. -/
theorem armRecord_step4 (s : State) (p : Prebuilt) (i : Nat) (r : LaunchRec) :
    let t := armRecord (s.step4 id) p i r
    Table.find? t.lch.prebuilt (64 * dieOf s.myCore + i) = some { p with armed := true } ∧
      Table.get [] t.lch.armed (dieOf s.myCore) = Table.get [] s.lch.armed (dieOf s.myCore) ++ [r] ∧ Arms s.me t.me none ∧ t.ms = s.ms ∧
      ∀ h, h ≠ s.cur → t.hart h = s.hart h := by
  unfold armRecord
  dsimp only
  rw [kickService_frame]
  refine ⟨Table.find?_set_self .., Table.get_set_self .., ?_, rfl, fun h ne => State.step4_hart_ne s id ne⟩
  have me : (s.step4 id).me = s.me.retire 4 := State.step4_me s id
  exact me ▸ arms_retire s.me

/-- R137: the status of an armed launch goes to its locator, and nowhere where that is zero. -/
theorem reportStatus_armed (u s : State) (p : Prebuilt) (i : Nat) (g : List Word) (code : Nat) :
    reportStatus u (armedRecord s p i g).dest code =
      if member g 3 = 0#64 then u else reportStatus u (.locator (resolveLocal s.plat.node (member g 3)) s.cur) code :=
  apply_ite (reportStatus u · code) ..

/-- R24, R137: ARMLR below S, and of a resident thread. -/
theorem armlr_priv {s : State} {a b : Reg} (wf : Instr.wf (.armlr b a) = true) (pure : Impure s)
    (barred : modeAtLeast s.me.mode .s = false ∨ (s.me.slot = .thread ∧ XReady s (b :: groupRegs a))) :
    exec (.armlr b a) s = .next (takeTrap s s.cur 0x02 (Instr.bits (.armlr b a)) false) := by
  cases mode : modeAtLeast s.me.mode .s with
  | false =>
    simp only [exec_armlr, execArmlr, needWf_ok wf, needMode_below mode, bind_ok, bind_error]
    exact trapped pure ..
  | true =>
    obtain ⟨slot, ready⟩ := barred.resolve_left (by rw [mode]; exact Bool.noConfusion)
    have channel : needChannel (Instr.bits (.armlr b a)) s = .error (.trap cPriv (Instr.bits (.armlr b a))) := by rw [needChannel, slot]
    have group : XReady s (groupRegs a) := fun q mem => ready q (List.mem_cons_of_mem _ mem)
    simp only [exec_armlr, execArmlr, needWf_ok wf, needMode_ok mode, needX_ok (ready b (List.mem_cons_self ..)), needXs_ok group,
      noPure_ok pure, channel, bind_ok, bind_error]
    exact trapped pure ..

/-! ### LCHK (R138) -/

/-- The free resident-role harts of the core at a position, where it is of the partition of the issuing one. -/
def freeAt (s : State) (pos : Nat) : Nat :=
  if samePart s s.myCore (gOfHpos pos) = true then ((List.range 8).filter fun j => freeResident s (slotOf (gOfHpos pos) j)).length else 0

theorem countFree_eq (s : State) (pos : Nat) : countFree s s.myCore (gOfHpos pos) = freeAt s pos := by
  rw [countFree, freeAt, hartsOf, List.filter_map, List.length_map]
  rfl

theorem foldl_countFree (s : State) (base n : Nat) :
    (List.range n).foldl (fun t k => t + countFree s s.myCore (gOfHpos (base + k))) 0 = ((List.range n).map fun k => freeAt s (base + k)).sum := by
  rw [List.sum_eq_foldl, List.foldl_map]
  simp only [countFree_eq]

theorem lchk_ok {s : State} {d a b : Reg} (pure : Impure s) (unbuffered : NoBuffer s) (ready : XReady s [a, b]) (free : XFree s d) :
    exec (.lchk d a b) s = .next (s.step4 fun h => h.wx d (BitVec.ofNat 64 ((List.range (min (s.me.rx b).toNat
      (1024 - (s.me.rx a).toNat))).map fun k => freeAt s ((s.me.rx a).toNat + k)).sum)) := by
  have clipped : Nat.min (s.me.rx b).toNat (1024 - Nat.min (s.me.rx a).toNat 1024) = min (s.me.rx b).toNat (1024 - (s.me.rx a).toNat) := by
    have := Nat.min_def (n := (s.me.rx a).toNat) (m := 1024)
    show min _ (1024 - min _ 1024) = _
    omega
  simp only [exec_lchk, execLchk, needX_ok (ready a (by simp)), needX_ok (ready b (by simp)), noPure_ok pure, freeX_ok free,
    needUnrollable_ok unbuffered, bind_ok, finish_ok, clipped, foldl_countFree]

/-- Settles O42: SPAWN hands over what it has loaded, ARMLR arms what it finds, LCHK counts. -/
theorem launchForms : Obligations.LaunchForms := by
  unfold Obligations.LaunchForms
  intro s d a b pure unbuffered g
  refine ⟨?_, ?_, ?_, fun wf barred => armlr_priv wf pure barred, ?_⟩
  · intro x wf ready plain free released va word preset found behind
    obtain ⟨o, e, fits, al, -⟩ := id found
    obtain ⟨hn, region⟩ := regionOf_stash e (by omega)
    have aligned : va.toNat % 64 = 0 := by rw [hn]; omega
    have run := exec_spawn_loaded wf pure unbuffered ready plain free released (inWindow_stash region) aligned
      (canonical_stash hn (by omega)) (loadHeader_stash found) (loadPresets_stash behind)
    obtain ⟨armed, others, joins⟩ := spawned_accepted s d (dieOf s.myCore)
      (spawnRecord s d (stage s.me a) ((List.range 8).map (blockWord s va))
        (if preset then (List.range 8).map (blockWord s (va + 64)) else []))
    exact ⟨_, run, armed, others, fun room => ⟨(joins room).2, _, (joins room).1, rfl, rfl, rfl, rfl, rfl, rfl, rfl⟩⟩
  · intro x hdr presets u v wf ready plain free released outside al can header behind room
    have cur : v.cur = s.cur := (loadPresets_cur behind).trans (loadHeader_cur header)
    have core : v.myCore = s.myCore := by rw [State.myCore, cur]; rfl
    have run := exec_spawn_loaded wf pure unbuffered ready plain free released outside al can header behind
    rw [← core] at run
    obtain ⟨armed, others, joins⟩ := spawned_accepted v d (dieOf v.myCore) (spawnRecord v d (stage s.me a) hdr presets)
    exact ⟨_, _, run, (joins room).1, rfl, rfl, rfl, rfl, rfl, rfl, rfl, rfl, rfl, armed, (joins room).2, others⟩
  · intro c wf mode slot index ready i die access
    refine ⟨fun beyond => ?_, fun missing => armlr_missing wf pure mode slot index ready missing, fun p below found => ?_⟩
    · exact armlr_foreign wf pure mode slot index ready fun p _ => by
        rw [decide_eq_false (Nat.not_lt.mpr beyond), Bool.false_and]
    · have owned := fun own : p.owner = c.toNat => armlr_owned wf pure mode slot index ready unbuffered below found own
      refine ⟨fun foreign => armlr_foreign wf pure mode slot index ready fun q same => ?_, fun own unarmed => ?_, fun own armed => ?_⟩
      · rw [Nat.mod_eq_of_lt below] at same
        cases found.symm.trans same
        rw [beq_eq_false_iff_ne.mpr foreign, Bool.and_false]
      · have run := owned own
        rw [unarmed, if_neg Bool.false_ne_true] at run
        obtain ⟨record, queued, arms, ms, others⟩ := armRecord_step4 s p i (armedRecord s p i (stage s.me a))
        exact ⟨_, _, run, record, queued, rfl, rfl, rfl, rfl, rfl, rfl, arms, ms, others⟩
      · refine ⟨s.step4 id, passes_step4 s, (owned own).trans ?_⟩
        rw [armed, if_pos rfl]
        exact congrArg _ (reportStatus_armed ..)
  · intro ready free base n count
    exact ⟨_, lchk_ok pure unbuffered ready free, writesX_step4 ..⟩

end Sys2Proof.Machine
end

section
/-! SUPPORT. The cache forms: a range of no line and of one, and what each form does to a line of memory (R116, R117, R131 to R135), and
O20. -/

namespace Sys2Proof.Machine
open Sys2Proof.Safety

/-! ### Ranges (R131) -/

/-- A hart that an access without its permission freezes. -/
theorem freezeHart_frozen (s : State) (c : Nat) (tval addr : Word) (acc : Nat) (async stage2 : Bool) :
    (freezeHart s s.cur c tval addr acc async stage2).me.frozen = some (c, tval) := by
  have recorded (u : State) (r : Record) : (addFreezeRecord u r).me = u.me := by
    unfold addFreezeRecord
    dsimp only
    split <;> rfl
  rw [freezeHart, recorded]
  exact congrArg Hart.frozen (State.hart_setHart ..)

/-- R64, R131: a denied access freezes the issuing hart and changes no other and no memory. -/
theorem denied {s : State} (pure : Impure s) (acc : Nat) (va : Word) : ∃ t, finish s (.error (.deny acc va)) = .next t ∧
    t.me.frozen = some (0x06, va) ∧ t.ms = s.ms ∧ ∀ h, h ≠ s.cur → t.hart h = s.hart h := by
  have ends : stopped s (.deny acc va) = freezeHart s s.cur cAccess va va acc false false := by
    simp [stopped, show s.me.pure = none from pure]
  have taken := freezeHart_taken s s.cur cAccess va va acc false false
  exact ⟨_, congrArg _ ends, freezeHart_frozen .., taken.ms, taken.others⟩

theorem rangeLines_none (va : Word) : rangeLines va 0 = [] := rfl

theorem rangeLines_one (va : Word) : rangeLines va 64 = [va] := by
  exact congrArg ([·]) (BitVec.add_zero va)

section
variable {s : State} {i : Instr} {need : Mode} {a b : Reg} {acc : Nat} {f : State → Place → State} (ready : XReady s [a, b])
  (pure : Impure s) (meaning : exec i s = cacheOp i need a b acc f s) (mode : modeAtLeast s.me.mode need = true)
include ready pure meaning mode

/-- A range form past its privilege and its operands is its range. -/
theorem exec_cacheOp : exec i s = finish s (overRange a b acc f s) := by
  simp only [meaning, cacheOp, needMode_ok mode, needX_ok (ready a (by simp)), needX_ok (ready b (by simp)), noPure_ok pure, bind_ok]

variable (outside : inWindow (s.me.rx a) = false)
include outside

theorem cacheOp_misaligned (misaligned : ¬ ((s.me.rx a).toNat % 64 = 0 ∧ (s.me.rx b).toNat % 64 = 0)) :
    exec i s = .next (takeTrap s s.cur 0x03 (s.me.rx a) false) := by
  have range : needRange (s.me.rx a) (s.me.rx b) acc = .error (.trap cMisalign (s.me.rx a)) := by
    have off : (aligned (s.me.rx a) 64 && aligned (s.me.rx b) 64) = false :=
      Bool.eq_false_iff.mpr fun both => misaligned (by simpa [aligned] using both)
    rw [needRange, noWindow, outside, Bool.not_false, check_true, bind_ok, off, check_false, bind_error]
  rw [exec_cacheOp ready pure meaning mode, overRange, range, bind_error]
  exact trapped pure ..

/-- A range form over whole lines, once its own stores are performed: line by line. -/
theorem exec_cacheOp_lines (start : (s.me.rx a).toNat % 64 = 0) (whole : (s.me.rx b).toNat % 64 = 0)
    (can : (s.me.rx b == 0#64 || canonicalRange (s.me.rx a) (s.me.rx b).toNat) = true) (performed : hasOwnStore s s.cur = false) :
    exec i s = finish s ((rangeLines (s.me.rx a) (s.me.rx b).toNat).foldlM (fun s v => do
      noWindow v acc
      let (p, s) ← reachLine s v acc
      .ok (f s p)) s >>= fun t => .ok (t.step4 id)) := by
  have range : needRange (s.me.rx a) (s.me.rx b) acc = .ok () := by
    rw [needRange, noWindow, outside, aligned, aligned, start, whole, can]
    rfl
  rw [exec_cacheOp ready pure meaning mode, overRange, range, performed]
  rfl

theorem cacheOp_none (start : (s.me.rx a).toNat % 64 = 0) (len : s.me.rx b = 0#64) (performed : hasOwnStore s s.cur = false) :
    ∃ t, exec i s = .next t ∧ Passes s t := by
  refine ⟨_, ?_, passes_step4 s⟩
  rw [exec_cacheOp_lines ready pure meaning mode outside start (by rw [len]; rfl) (by rw [len]; rfl) performed, len]
  rfl

/-- A range form over one line is the form applied where the line is reached. -/
theorem exec_cacheOp_one (start : (s.me.rx a).toNat % 64 = 0) (len : s.me.rx b = 64#64) (can : canonicalRange (s.me.rx a) 64 = true)
    (performed : hasOwnStore s s.cur = false) : exec i s =
      finish s (reachLine s (s.me.rx a) acc >>= fun r => .ok ((f r.2 r.1).step4 id)) := by
  rw [exec_cacheOp_lines ready pure meaning mode outside start (by rw [len]; rfl)
    (by rw [len]; exact (Bool.or_eq_true ..).mpr (.inr can)) performed, len]
  show finish s ((rangeLines (s.me.rx a) 64).foldlM _ s >>= _) = _
  rw [rangeLines_one, List.foldlM_cons, noWindow, outside, Bool.not_false, check_true, bind_ok]
  cases reachLine s (s.me.rx a) acc <;> rfl

theorem cacheOp_denied {x : Word} {y : Word} {st : Nat} {why : Nat} (start : (s.me.rx a).toNat % 64 = 0) (len : s.me.rx b = 64#64)
    (can : canonicalRange (s.me.rx a) 64 = true) (performed : hasOwnStore s s.cur = false)
    (barred : reach s s.myCore s.me.tctx (s.me.rx a) acc = .error (.hold x y st why true)) :
    ∃ t, exec i s = .next t ∧ t.me.frozen = some (0x06, s.me.rx a) ∧ t.ms = s.ms ∧ ∀ h, h ≠ s.cur → t.hart h = s.hart h := by
  have line : reachLine s (s.me.rx a) acc = .error (.deny acc (s.me.rx a)) := by rw [reachLine, barred]
  rw [exec_cacheOp_one ready pure meaning mode outside start len can performed, line, bind_error]
  exact denied pure ..

theorem cacheOp_reached {p : Place} {u : State} (start : (s.me.rx a).toNat % 64 = 0) (len : s.me.rx b = 64#64)
    (can : canonicalRange (s.me.rx a) 64 = true) (performed : hasOwnStore s s.cur = false)
    (reached : reach s s.myCore s.me.tctx (s.me.rx a) acc = .ok (p, u)) : ∃ t, exec i s = .next t ∧ Passes (f u p) t := by
  have line : reachLine s (s.me.rx a) acc = .ok (p, u) := by rw [reachLine, reached]
  refine ⟨_, ?_, passes_step4 (f u p)⟩
  rw [exec_cacheOp_one ready pure meaning mode outside start len can performed, line, bind_ok, finish_ok]

end

theorem modeAtLeast_u (mode : Mode) : modeAtLeast mode .u = true := by cases mode <;> rfl

theorem cacheOp_priv {s : State} {i : Instr} {a b : Reg} {acc : Nat} {f : State → Place → State} (pure : Impure s)
    (meaning : exec i s = cacheOp i .s a b acc f s) (below : s.me.mode = .u) : exec i s = .next (takeTrap s s.cur 0x02 i.bits false) := by
  have barred : modeAtLeast s.me.mode .s = false := by rw [below]; rfl
  exact priv_traps pure meaning barred

/-! ### PREF (R135) -/

/-- What a prefetch may change: translations, copies, dies' copies with their poison, replicas. -/
def Prefetched (s t : State) : Prop :=
  t = { s with ms := { s.ms with tlb := t.ms.tlb, copies := t.ms.copies, dies := t.ms.dies, replicas := t.ms.replicas, poison := t.ms.poison } }

theorem Prefetched.refl (s : State) : Prefetched s s := rfl

theorem Prefetched.trans {s t u : State} (h : Prefetched s t) (k : Prefetched t u) : Prefetched s u := by
  unfold Prefetched at *
  rw [k, h]

theorem cacheInDie_frame (ms : MemSys) (p : Place) : cacheInDie ms p =
    { ms with dies := (cacheInDie ms p).dies, replicas := (cacheInDie ms p).replicas, poison := (cacheInDie ms p).poison } := by
  have filled (d l : Nat) : fillDie ms d l = { ms with dies := (fillDie ms d l).dies, poison := (fillDie ms d l).poison } := by
    unfold fillDie
    dsimp only
    split
    · rfl
    · split
      · rfl
      · split <;> rfl
  have copied (d l : Nat) : replicate ms d l = { ms with replicas := (replicate ms d l).replicas } := by
    unfold replicate
    dsimp only
    split <;> rfl
  unfold cacheInDie
  split
  · rw [filled]
  · split
    · rw [copied]
    · rfl
  · rfl

theorem dropOthers_frame (ms : MemSys) (holder key : Nat) : dropOthers ms holder key = { ms with copies := (dropOthers ms holder key).copies } := by
  unfold dropOthers
  split <;> rfl

theorem touch_prefetched (s : State) (p : Place) : Prefetched s (touch s p) := by
  cases p with
  | stash i => exact .refl s
  | mem pa sm nc holder rm =>
    unfold touch
    dsimp only
    split
    · exact .refl s
    · unfold Prefetched fillLine
      dsimp only
      rw [dropOthers_frame, cacheInDie_frame]

theorem prefLine_prefetched (s : State) (va : Word) : Prefetched s (prefLine s va) := by
  unfold prefLine
  split
  · exact .refl s
  · split
    · exact .refl s
    · rename_i reached
      obtain ⟨tlb, rfl⟩ := reach_st reached
      have walked : Prefetched s { s with ms := { s.ms with tlb := tlb } } := rfl
      split
      · exact walked.trans (touch_prefetched ..)
      · exact .refl s

theorem pref_ok {s : State} {a b : Reg} (ready : XReady s [a, b]) : ∃ t, exec (.pref a b) s = .next t ∧ Arms s.me t.me none ∧
    t = { s with harts := t.harts, ms := { s.ms with tlb := t.ms.tlb, copies := t.ms.copies, dies := t.ms.dies,
                                                     replicas := t.ms.replicas, poison := t.ms.poison } } := by
  have lines (l : List Word) (s : State) : Prefetched s (l.foldl prefLine s) := by
    induction l generalizing s with
    | nil => exact .refl s
    | cons va l ih => exact (prefLine_prefetched s va).trans (ih _)
  have filled := lines (rangeLines (s.me.rx a) (Nat.min (s.me.rx b).toNat 4096)) s
  have run : exec (.pref a b) s =
      .next (((rangeLines (s.me.rx a) (Nat.min (s.me.rx b).toNat 4096)).foldl prefLine s).step4 id) := by
    simp only [exec_pref, execPref, needX_ok (ready a (by simp)), needX_ok (ready b (by simp)), bind_ok, finish_ok]
  generalize (rangeLines (s.me.rx a) (Nat.min (s.me.rx b).toNat 4096)).foldl prefLine s = u at filled run
  refine ⟨_, run, ?_, ?_⟩
  · rw [State.step4_me, show u.me = s.me by rw [filled]; rfl]
    exact arms_retire s.me
  · have rest := State.step4_rest u id
    generalize (u.step4 id).harts = harts at rest
    rw [rest, filled]

/-! ### RWB and RINV (R132) -/

theorem giveUpWords_mem (s : State) (sm : Option Nat) (line : Nat) : (giveUpWords s sm line).ms.mem = s.ms.mem := by
  unfold giveUpWords
  dsimp only
  rw [owns_frame _ fun ms w => ?_]
  split
  · exact disown_frame ..
  · rfl

theorem rwbLine_mem (s : State) (pa holder : Nat) : (rwbLine s (.mem pa none false holder false)).ms.mem = s.ms.mem :=
  giveUpWords_mem ..

/-- Whether a copy is one of a core's L1D or windows, of a line. -/
def heldBy (core key k : Nat) : Bool := isDataHolder core (k / 2 ^ 50) && k % 2 ^ 50 == key

theorem heldBy_iff {core key k : Nat} : heldBy core key k = true ↔ isDataHolder core (k / 2 ^ 50) = true ∧ k % 2 ^ 50 = key := by
  rw [heldBy, Bool.and_eq_true, beq_iff_eq]

theorem rinvLine_copies (s : State) (pa holder : Nat) : (rinvLine s (.mem pa none false holder false)).ms =
    { s.ms with copies := endCopies s.ms.copies fun k _ => heldBy s.myCore (pa / 64) k } := rfl

/-! ### DISC (R116, R289) -/

theorem Memory.readBlock_writeBlock (m : Memory) (i : Nat) (v : VWord) : Memory.readBlock (Memory.writeBlock m i v) i = v := by
  have back := Memory.readBytes_writeBytes m i (leBytes 64 v.toNat)
  rw [length_leBytes] at back
  rw [Memory.readBlock, Memory.readNat, Memory.writeBlock, Memory.writeNat, back, leNat_leBytes, Nat.mod_eq_of_lt v.isLt,
    BitVec.ofNat_toNat, BitVec.setWidth_eq]

theorem isPoison_markPoison (ms : MemSys) (key : Nat) : isPoison (markPoison ms key) key = true := by
  unfold isPoison markPoison
  dsimp only
  split
  · assumption
  · simp

theorem isPoison_clearPoison (ms : MemSys) (key : Nat) : isPoison (clearPoison ms key) key = false := by
  simp [isPoison, clearPoison]

section
variable {s : State} {pa holder : Nat}

theorem discLine_dirty {v : VWord} {bad : Bool} (dirty : Table.find? s.ms.dirty (pa / 64) = some (v, bad)) :
    (discLine s (.mem pa none false holder false)).ms.mem = Memory.writeBlock s.ms.mem (pa / 64 * 64) v ∧
      isPoison (discLine s (.mem pa none false holder false)).ms (pa / 64) = bad := by
  have kept : Table.find? (dropLine s.ms (lineOf pa)).dirty (lineOf pa) = some (v, bad) := dirty
  unfold discLine
  dsimp only
  rw [kept]
  cases bad with
  | true => exact ⟨rfl, isPoison_markPoison (dropLine s.ms (lineOf pa)) (lineOf pa)⟩
  | false => exact ⟨rfl, isPoison_clearPoison (dropLine s.ms (lineOf pa)) (lineOf pa)⟩

theorem discLine_clean (clean : Table.find? s.ms.dirty (pa / 64) = none) :
    (discLine s (.mem pa none false holder false)).ms.mem = s.ms.mem := by
  have kept : Table.find? (dropLine s.ms (lineOf pa)).dirty (lineOf pa) = none := clean
  unfold discLine
  dsimp only
  rw [kept]
  rfl

theorem discLine_outside {x : Nat} (apart : x < pa / 64 * 64 ∨ pa / 64 * 64 + 64 ≤ x) :
    Memory.read (discLine s (.mem pa none false holder false)).ms.mem x = Memory.read s.ms.mem x := by
  cases dirty : Table.find? s.ms.dirty (pa / 64) with
  | none => rw [discLine_clean dirty]
  | some e =>
    rw [(discLine_dirty (v := e.1) (bad := e.2) dirty).1]
    exact Memory.read_writeBytes_outside _ _ _ (by rw [length_leBytes]; exact apart)

end

/-! ### PIN and UNPIN (R117, R134) -/

theorem Table.find?_erase_self {α : Type} (t : Table α) (j : Nat) : Table.find? (Table.erase t j) j = none := by
  induction t with
  | nil => rfl
  | cons e t ih =>
    obtain ⟨k, v⟩ := e
    by_cases same : j = k
    · rw [Table.erase, if_pos same, ih]
    · rw [Table.erase, if_neg same, Table.find?, if_neg same, ih]

theorem Table.find?_erase_ne {α : Type} (t : Table α) {i j : Nat} (ne : i ≠ j) : Table.find? (Table.erase t j) i = Table.find? t i := by
  induction t with
  | nil => rfl
  | cons e t ih =>
    obtain ⟨k, v⟩ := e
    by_cases same : j = k
    · subst same
      rw [Table.erase, if_pos rfl, ih, Table.find?, if_neg ne]
    · rw [Table.erase, if_neg same, Table.find?, Table.find?, ih]

/-- An entry set adds at most one to those that meet a condition. -/
theorem Table.length_filter_set_le {α : Type} (t : Table α) (j : Nat) (w : α) (meets : Nat → Bool) :
    ((Table.set t j w).filter fun e => meets e.1).length ≤ (t.filter fun e => meets e.1).length + 1 := by
  induction t with
  | nil => exact List.length_filter_le ..
  | cons e t ih =>
    obtain ⟨k, v⟩ := e
    rw [Table.set]
    split
    · rename_i same
      subst same
      simp only [List.filter_cons]
      split <;> simp
    · split
      · rw [List.filter_cons]
        split <;> simp
      · simp only [List.filter_cons]
        split
        · simpa using ih
        · exact ih

/-- The lines pinned are as before. -/
def SamePins (s t : State) : Prop := t.ms.pins = s.ms.pins

theorem SamePins.trans {s t u : State} (a : SamePins s t) (b : SamePins t u) : SamePins s u := Eq.trans b a

theorem SamePins.withDies (s : State) (dies : Table DieCopy) : SamePins s { s with ms := { s.ms with dies := dies } } := rfl

theorem SamePins.ite {s t u : State} {c : Prop} [Decidable c] (a : SamePins s t) (b : SamePins s u) : SamePins s (if c then t else u) := by
  split
  · exact a
  · exact b

theorem SamePins.foldl {α : Type} {f : State → α → State} (step : ∀ s x, SamePins s (f s x)) (l : List α) (s : State) :
    SamePins s (l.foldl f s) := by
  induction l generalizing s with
  | nil => rfl
  | cons x l ih => exact (step s x).trans (ih (f s x))

theorem storeHome_samePins (s : State) (sm : Option Nat) (pa : Nat) (bs : List Byte) : SamePins s (storeHome s sm pa bs) := by
  unfold SamePins
  rw [storeHome_frame]

theorem putPoison_pins (ms : MemSys) (line : Nat) : (putPoison ms line).pins = ms.pins := by
  rw [putPoison]

theorem SamePins.putPoison {s t : State} (a : SamePins s t) (line : Nat) (reuse) :
    SamePins s { t with reuse := reuse, ms := Machine.putPoison t.ms line } := by
  unfold SamePins
  exact (putPoison_pins ..).trans a

theorem writeBackDie_samePins (s : State) (d line : Nat) : SamePins s (writeBackDie s d line) := by
  unfold writeBackDie
  dsimp only
  split
  · rfl
  · refine .ite (.putPoison (.withDies s _) ..) (.ite ?_ ?_)
    · exact .trans (.withDies s _) (storeHome_samePins ..)
    · exact .trans (.withDies s _) (.foldl (fun s e => storeHome_samePins ..) _ _)

theorem dropDie_pins (ms : MemSys) (d line : Nat) : (dropDie ms d line).pins = ms.pins := by
  unfold dropDie
  dsimp only
  split
  · rfl
  · split <;> rfl

theorem emptySet_samePins (s : State) (key : Nat) : SamePins s (emptySet s key) := by
  unfold emptySet
  split
  · refine SamePins.foldl (fun s k => ?_) (Table.keys s.ms.dies) s
    dsimp only
    split
    · exact Eq.trans (dropDie_pins ..) (writeBackDie_samePins ..)
    · rfl
  · rfl

section
variable (s : State) {pa holder : Nat} (memory : isHost pa = false)
include memory

/-- R134: a line pinned where it is not yet, and its set has a way free of pins. -/
theorem pinLine_locks : pinLine s (.mem pa none false holder false) =
    if isPinned s.ms (pa / 64) || Config.l2Ways ≤ pinnedInSet s.ms (pa / 64) then s
    else emptySet { s with ms := { s.ms with pins := Table.set s.ms.pins (pa / 64) ((ownerOf s s.myCore).getD 64) } } (pa / 64) := by
  have key : pinKey (.mem pa none false holder false) = some (pa / 64) := by
    rw [pinKey, memory]
    rfl
  rw [pinLine, key]
  rfl

theorem pinLine_mem (room : pinnedInSet s.ms (pa / 64) + 1 < Config.l2Ways) :
    (pinLine s (.mem pa none false holder false)).ms.mem = s.ms.mem := by
  rw [pinLine_locks s memory]
  split
  · rfl
  · have added := Table.length_filter_set_le s.ms.pins (pa / 64) ((ownerOf s s.myCore).getD 64) fun k => sameSet k (pa / 64)
    rw [emptySet, if_neg]
    exact Nat.not_le.mpr (Nat.lt_of_le_of_lt added room)

theorem pinLine_pinned (room : pinnedInSet s.ms (pa / 64) < Config.l2Ways) :
    isPinned (pinLine s (.mem pa none false holder false)).ms (pa / 64) = true := by
  rw [pinLine_locks s memory]
  split
  · rename_i full
    rw [decide_eq_false (Nat.not_le.mpr room), Bool.or_false] at full
    exact full
  · rw [isPinned, emptySet_samePins, Table.find?_set_self]
    rfl

theorem pinLine_full (full : Config.l2Ways ≤ pinnedInSet s.ms (pa / 64)) : pinLine s (.mem pa none false holder false) = s := by
  rw [pinLine_locks s memory, decide_eq_true full, Bool.or_true, if_pos rfl]

theorem unpinLine_unlocks : (unpinLine s (.mem pa none false holder false)).ms =
    { s.ms with pins := Table.erase s.ms.pins (pa / 64) } := by
  have key : pinKey (.mem pa none false holder false) = some (pa / 64) := by
    rw [pinKey, memory]
    rfl
  rw [unpinLine, key]

end

/-! ### The obligation -/

/-- What a range form of an access leaves of its range: over no line, over one line that it reaches or is denied, misaligned. -/
def RangeFormDone (s : State) (a b : Reg) (i : Instr) (acc : Nat) (f : State → Place → State) : Prop :=
  let va := s.me.rx a
  let len := s.me.rx b
  inWindow va = false →
    (¬ (va.toNat % 64 = 0 ∧ len.toNat % 64 = 0) → exec i s = .next (takeTrap s s.cur 0x03 va false)) ∧
    (va.toNat % 64 = 0 → len = 0#64 → hasOwnStore s s.cur = false → ∃ t, exec i s = .next t ∧ Passes s t) ∧
    (∀ x y st why, va.toNat % 64 = 0 → len = 64#64 → canonicalRange va 64 = true → hasOwnStore s s.cur = false →
      reach s s.myCore s.me.tctx va acc = .error (.hold x y st why true) →
      ∃ t, exec i s = .next t ∧ t.me.frozen = some (0x06, va) ∧ t.ms = s.ms ∧ ∀ h, h ≠ s.cur → t.hart h = s.hart h) ∧
    (∀ p u, va.toNat % 64 = 0 → len = 64#64 → canonicalRange va 64 = true → hasOwnStore s s.cur = false →
      reach s s.myCore s.me.tctx va acc = .ok (p, u) → ∃ t, exec i s = .next t ∧ Passes (f u p) t)

theorem rangeForm_done {s : State} {a b : Reg} {i : Instr} {need : Mode} {acc : Nat} {f : State → Place → State} (ready : XReady s [a, b])
    (pure : Impure s) (meaning : exec i s = cacheOp i need a b acc f s) (mode : modeAtLeast s.me.mode need = true) :
    RangeFormDone s a b i acc f := fun outside =>
  ⟨cacheOp_misaligned ready pure meaning mode outside, cacheOp_none ready pure meaning mode outside,
    fun _ _ _ _ => cacheOp_denied ready pure meaning mode outside, fun _ _ => cacheOp_reached ready pure meaning mode outside⟩

theorem cacheForms_ranges {s : State} {a b : Reg} (ready : XReady s [a, b]) (pure : Impure s) :
    ∀ f ∈ [(Instr.rwb a b, accRead, rwbLine), (.rinv a b, accRead, rinvLine), (.disc a b, accWrite, discLine), (.pin a b, accRead, pinLine),
        (.unpin a b, accRead, unpinLine)],
      (modeAtLeast s.me.mode .s = true ∨ f.1 = .rwb a b ∨ f.1 = .rinv a b ∨ f.1 = .disc a b) → RangeFormDone s a b f.1 f.2.1 f.2.2 := by
  have user := modeAtLeast_u s.me.mode
  have level {i : Instr} (others : ¬ (i = .rwb a b ∨ i = .rinv a b ∨ i = .disc a b))
      (mode : modeAtLeast s.me.mode .s = true ∨ i = .rwb a b ∨ i = .rinv a b ∨ i = .disc a b) : modeAtLeast s.me.mode .s = true :=
    mode.resolve_right others
  simp only [List.forall_mem_cons]
  exact ⟨fun _ => rangeForm_done ready pure (exec_rwb s) user, fun _ => rangeForm_done ready pure (exec_rinv s) user,
    fun _ => rangeForm_done ready pure (exec_disc s) user,
    fun mode => rangeForm_done ready pure (exec_pin s) (level (by simp) mode),
    fun mode => rangeForm_done ready pure (exec_unpin s) (level (by simp) mode), nofun⟩

/-- Settles O20: the range forms as ranges, then each by what it does to its line. -/
theorem cacheForms : Obligations.CacheForms := by
  unfold Obligations.CacheForms
  constructor
  · intro s a b ready pure va len forms
    exact ⟨cacheForms_ranges ready pure, fun below => ⟨cacheOp_priv pure (exec_pin s) below, cacheOp_priv pure (exec_unpin s) below⟩,
      pref_ok ready⟩
  · intro s pa holder p gone
    refine ⟨⟨rfl, rfl, fun k c held mem => ?_, fun k c other => ?_⟩, fun v bad dirty => ?_, fun x apart => discLine_outside apart,
      fun memory => ⟨pinLine_mem s memory, pinLine_pinned s memory, pinLine_full s memory, ?_, ?_, fun k ne => ?_⟩, rwbLine_mem s pa holder⟩
    · exact endCopies_ended (heldBy_iff.mpr held) mem
    · exact endCopies_kept (Bool.eq_false_iff.mpr (mt heldBy_iff.mp other))
    · obtain ⟨mem, poison⟩ := discLine_dirty (holder := holder) dirty
      exact ⟨by rw [mem, Memory.readBlock_writeBlock], poison⟩
    · rw [unpinLine_unlocks s memory]
    · rw [unpinLine_unlocks s memory, isPinned, Table.find?_erase_self]
      rfl
    · rw [unpinLine_unlocks s memory, isPinned, Table.find?_erase_ne _ ne]
      rfl

end Sys2Proof.Machine
end

section
/-! SUPPORT. Messages claimed by MSEND, MSEND.S and CALLAT (R169 to R171), and O12. -/

namespace Sys2Proof.Machine
open Sys2Proof.Safety

/-- The words of a payload that a hart reads from n registers on from b. -/
def payloadOf (a : Hart) (b n : Nat) : List Word := (List.range n).map fun k => a.rx (BitVec.ofNat 5 (b + k))

theorem payloadRegs_map (a : Hart) (b : Reg) (n : Nat) : (payloadRegs b n).map a.rx = payloadOf a b.toNat n := List.map_map ..

theorem length_payloadOf (a : Hart) (b n : Nat) : (payloadOf a b n).length = n := by rw [payloadOf, List.length_map, List.length_range]

/-- R169, R171: what the message of the issuing hart holds, its header first, its payload's unused words 0. -/
theorem newMsg_holds (s : State) (loc : Word) (b n : Nat) (call : Bool) (w5 w6 : Word) (status : Option Reg) (isStatus request : Bool) :
    let m := newMsg s loc (payloadOf s.me b n) call w5 w6 status isStatus request
    m.words = [headerWord s s.myCore (s.cur % 8) (BitVec.ofNat 6 (locIdx loc)) (n - 1)] ++ payloadOf s.me b n ++
        List.replicate (4 - n) 0#64 ++ [w5, w6, 0#64] ∧
      m.srcCore = s.myCore ∧ m.srcHart = s.cur % 8 ∧ m.srcTag = s.me.tag ∧ m.srcNode = s.plat.node.toNat ∧ m.reply = !request ∧
      m.dstNode = locNode loc ∧ m.dstCore = (locCore loc).getD 4095 ∧ m.chan = BitVec.ofNat 6 (locIdx loc) ∧ m.count = n ∧
      m.call = call ∧ m.status = status := by
  simp only [newMsg, length_payloadOf, and_self]

theorem armX_zero (a : Hart) : a.armX 0#5 = a := if_pos rfl

/-- R21: n payload registers that end at x31 at the latest. -/
theorem payloadCheck_fits {b : Reg} {c : BitVec 2} (fits : b.toNat + (c.toNat + 1) ≤ 32) : (payloadCheck b c).isNone = true := by
  rw [payloadCheck, if_pos (by omega)]
  rfl

section
variable {s : State} {a : Reg} (request : needSend (locOf s a) s = .ok (sendsRequest s s.cur)) (free : NoBuffer s) (ready : needX a s = .ok ())
include request free ready

/-- MSEND past its checks sends its message. -/
theorem exec_msend_sends {b : Reg} {c : BitVec 2} (fits : b.toNat + (c.toNat + 1) ≤ 32)
    (payload : needXs (payloadRegs b (c.toNat + 1)) s = .ok ()) :
    exec (.msend a b c) s = .next ((sendNow s (newMsg s (locOf s a) (payloadOf s.me b.toNat (c.toNat + 1)) false 0 0 none false
      (sendsRequest s s.cur)) (sendsRequest s s.cur)).step4 id) := by
  have wf : needWf (.msend a b c) s = .ok () := check_ok (payloadCheck_fits fits)
  rw [exec_msend, execMsend]
  simp only [wf, ready, payload, request, sendPlain_now free, bind_ok, payloadRegs_map, finish_ok]

/-- MSEND.S past its checks sends its message. -/
theorem exec_msendS_sends {d b : Reg} {c : BitVec 2} (fits : b.toNat + (c.toNat + 1) ≤ 32)
    (payload : needXs (payloadRegs b (c.toNat + 1)) s = .ok ()) (settled : XFree s d) :
    exec (.msendS d a b c) s = .next ((sendNow s (newMsg s (locOf s a) (payloadOf s.me b.toNat (c.toNat + 1)) false 0 0 (some d) true
      (sendsRequest s s.cur)) (sendsRequest s s.cur)).step4 fun h => h.armX d) := by
  have wf : needWf (.msendS d a b c) s = .ok () := check_ok (payloadCheck_fits fits)
  rw [exec_msendS, execMsendS]
  simp only [wf, ready, payload, request, freeX_ok settled, needUnrollable_ok free, bind_ok, payloadRegs_map, finish_ok]

/-- CALLAT past its checks sends its message; with x0 it arms nothing. -/
theorem exec_callat_sends {d b : Reg} (target : needX b s = .ok ()) (payload : needXs (payloadRegs 10#5 4) s = .ok ()) (settled : XFree s d) :
    exec (.callat d a b) s = .next ((sendNow s (newMsg s (locOf s a) (payloadOf s.me 10 4) true (s.me.rx b &&& ~~~1#64)
      (if d = 0#5 then 0#64 else locOfSlot s s.cur d.toNat) none false (sendsRequest s s.cur)) (sendsRequest s s.cur)).step4
      fun h => h.armX d) := by
  rw [exec_callat, execCallat]
  simp only [ready, target, payload, request, freeX_ok settled, bind_ok, payloadRegs_map]
  split
  · rename_i zero
    subst zero
    rw [sendPlain_now free, bind_ok, finish_ok, step4_congr (g := id) (armX_zero _)]
    rfl
  · rw [needUnrollable_ok free, bind_ok, finish_ok]
    rfl

end

/-- Settles O12: each form past its checks sends the message it makes (`sendNow_spec`), which holds what R169 says (`newMsg_holds`). -/
theorem messagesSent : Obligations.MessagesSent := by
  unfold Obligations.MessagesSent
  intro s d a b c pure buffer scalar sources loc request permitted entry payload message offered n
  have send : needSend (locOf s a) s = .ok (sendsRequest s s.cur) := needSend_ok pure scalar permitted entry
  have ready : needX a s = .ok () := needX_ok (sources a (List.mem_singleton_self a))
  have plain (m : Msg) (core : m.srcCore = s.myCore) (id_ : m.id = s.nextId) :=
    sendNow_spec s m request none id arms_retire (fun _ => rfl) core id_
  have arming (m : Msg) (core : m.srcCore = s.myCore) (id_ : m.id = s.nextId) :=
    sendNow_spec s m request (some d) (fun h => h.armX d) (fun h => arms_armX h d) (fun h => Hart.armX_frame h d) core id_
  refine ⟨fun fits regs => ?_, fun regs settled => ?_⟩
  · have words := needXs_ok regs
    refine ⟨?_, fun settled => ?_⟩
    · obtain ⟨claims, goes⟩ := plain (newMsg s loc (payloadOf s.me b.toNat n) false 0 0 none false request) rfl rfl
      exact ⟨_, _, _, exec_msend_sends send buffer ready fits words, claims, newMsg_holds .., goes⟩
    · obtain ⟨claims, goes⟩ := arming (newMsg s loc (payloadOf s.me b.toNat n) false 0 0 (some d) true request) rfl rfl
      exact ⟨_, _, _, exec_msendS_sends send buffer ready fits words settled, claims, newMsg_holds .., goes⟩
  · have target : needX b s = .ok () := needX_ok (regs b List.mem_cons_self)
    have words : needXs (payloadRegs 10#5 4) s = .ok () := needXs_ok fun r mem => regs r (List.mem_cons_of_mem _ mem)
    obtain ⟨claims, goes⟩ := arming (newMsg s loc (payloadOf s.me 10 4) true (s.me.rx b &&& ~~~1#64)
      (if d = 0#5 then 0#64 else locOfSlot s s.cur d.toNat) none false request) rfl rfl
    exact ⟨_, _, _, exec_callat_sends send buffer ready target words settled, claims, newMsg_holds .., goes⟩

end Sys2Proof.Machine
end

section
/-! SUPPORT. The level that a trap goes to and what its entry writes (R157 to R159), a hart that freezes (R164, R167), and O23. -/

namespace Sys2Proof.Machine
open Sys2Proof.Safety

/-! ### What the entry writes (R159) -/

theorem enterStatus_eq (w : Word) (old : Mode) : enterStatus w old =
    (w &&& ~~~0x33#64) ||| (if w.getLsbD 4 then 0x20#64 else 0#64) ||| BitVec.ofNat 64 old.code := by
  have fields (v k : Word) (low : v &&& ~~~0x3#64 = v) :
      (((w &&& ~~~0x30#64) ||| v) &&& ~~~0x3#64) ||| k = (w &&& ~~~0x33#64) ||| v ||| k := by
    rw [BitVec.and_or_distrib_right, BitVec.and_assoc, low]
    rfl
  unfold enterStatus
  split
  · cases old <;> exact fields 0x20#64 _ rfl
  · cases old <;> exact fields 0#64 _ rfl

/-- R159: the entry at U, which UTE permits. -/
theorem enter_u {a : Hart} (enabled : a.ute = true) (c : Nat) (v epc : Word) : a.enter .u c v epc =
    { a with stall := none, idle := false, blk := .whole, uepc := epc, ucause := BitVec.ofNat 64 c, utval := v, pc := a.utvec
             udeleg := (a.udeleg &&& ~~~0xC000000000000000#64) ||| 0x4000000000000000#64 } := by
  have udeleg : withField a.udeleg 63 62 (if a.ute then 1 else 0) =
      (a.udeleg &&& ~~~0xC000000000000000#64) ||| 0x4000000000000000#64 := by
    rw [if_pos enabled]
    rfl
  rw [← udeleg]
  rfl

/-! ### The level (R158, R159) -/

/-- R159: the levels from one upward. -/
def Hart.levelsFrom (a : Hart) : Mode → List Mode
  | .u => .u :: if a.v1 then [.s, .h, .m] else [.s, .m]
  | .s => if a.v1 then [.s, .h, .m] else [.s, .m]
  | .h => [.h, .m]
  | .m => [.m]

/-- Where a search among levels has ended. -/
def TrapWay.ofLevel : Option Mode → TrapWay
  | some l => .level l
  | none => .freeze

theorem ofLevel_find?_cons (te : Mode → Bool) (l : Mode) (ls : List Mode) :
    TrapWay.ofLevel ((l :: ls).find? te) = if te l then .level l else TrapWay.ofLevel (ls.find? te) := by
  rw [List.find?_cons]
  cases te l <;> rfl

/-- R159: a synchronous trap goes to the first of the levels whose TE is 1. -/
theorem trapSearch_find (a : Hart) (l : Mode) : a.trapSearch false 4 l = .ofLevel ((a.levelsFrom l).find? a.te) := by
  have m (n : Nat) : a.trapSearch false (n + 1) .m = .ofLevel ([Mode.m].find? a.te) := by rw [ofLevel_find?_cons]; rfl
  have h (n : Nat) : a.trapSearch false (n + 2) .h = .ofLevel ([Mode.h, .m].find? a.te) := by rw [ofLevel_find?_cons, ← m n]; rfl
  have s (n : Nat) : a.trapSearch false (n + 3) .s = .ofLevel ((a.levelsFrom .s).find? a.te) := by
    have step : a.trapSearch false (n + 3) .s = if a.te .s then .level .s else a.trapSearch false (n + 2) (if a.v1 then .h else .m) := rfl
    rw [step, Hart.levelsFrom]
    cases a.v1
    · exact (congrArg (ite _ _) (m (n + 1))).trans (ofLevel_find?_cons ..).symm
    · exact (congrArg (ite _ _) (h n)).trans (ofLevel_find?_cons ..).symm
  cases l with
  | u => rw [Hart.levelsFrom, ofLevel_find?_cons]; exact congrArg (ite _ _) (s 0)
  | s => exact s 1
  | h => exact h 2
  | m => exact m 3

/-- R159: the level found takes the trap, but that one without a vector freezes. -/
theorem trapWay_level {a : Hart} {c : Nat} {stage2 : Bool} {l : Mode} (way : (a.levelsFrom (a.firstLevel c stage2)).find? a.te = some l) :
    a.trapWay c false stage2 = if l ≠ .u ∧ a.vecOf l = 0#64 then .freeze else .level l := by
  rw [Hart.trapWay, trapSearch_find, way]
  rfl

theorem trapWay_none {a : Hart} {c : Nat} {stage2 : Bool} (way : (a.levelsFrom (a.firstLevel c stage2)).find? a.te = none) :
    a.trapWay c false stage2 = .freeze := by
  rw [Hart.trapWay, trapSearch_find, way]
  rfl

/-- R158, R159: the levels that a trap may go to, from the first on; U is among them only where it takes the trap. -/
def Hart.trapLevels (a : Hart) (c : Nat) (stage2 : Bool) : List Mode :=
  if a.mode = .m then [.m]
  else if defaultH a c stage2 = true ∨ a.mode = .h then [.h, .m]
  else if a.mode = .u ∧ (delegable c && a.tdeleg.getLsbD c && a.udeleg.getLsbD c && a.ute && a.utvec != 0#64) = true then [.u]
  else if a.v1 then [.s, .h, .m] else [.s, .m]

theorem find?_trapLevels (a : Hart) (c : Nat) (stage2 : Bool) :
    (a.levelsFrom (a.firstLevel c stage2)).find? a.te = (a.trapLevels c stage2).find? a.te := by
  rw [Hart.trapLevels, Hart.firstLevel]
  by_cases m : a.mode = .m
  · rw [if_pos m, if_pos m]
    rfl
  rw [if_neg m, if_neg m]
  by_cases h : defaultH a c stage2 = true ∨ a.mode = .h
  · have first : (defaultH a c stage2 || decide (a.mode = .h)) = true := by simpa using h
    rw [if_pos first, if_pos h]
    rfl
  have other : ¬ (defaultH a c stage2 || decide (a.mode = .h)) = true := by simpa using h
  rw [if_neg other, if_neg h]
  by_cases u : a.mode = .u ∧ (delegable c && a.tdeleg.getLsbD c && a.udeleg.getLsbD c && a.ute && a.utvec != 0#64) = true
  · have first : (decide (a.mode = .u) && delegable c && a.tdeleg.getLsbD c && a.udeleg.getLsbD c && a.ute && decide (a.utvec ≠ 0#64)) = true := by
      simpa [and_assoc] using u
    have enabled : a.te .u = true := by
      simp only [Bool.and_eq_true] at u
      exact u.2.1.2
    rw [if_pos first, if_pos u, Hart.levelsFrom, List.find?_cons_of_pos enabled, List.find?_cons_of_pos enabled]
  · have above : ¬ (decide (a.mode = .u) && delegable c && a.tdeleg.getLsbD c && a.udeleg.getLsbD c && a.ute && decide (a.utvec ≠ 0#64)) = true := by
      simpa [and_assoc] using u
    rw [if_neg above, if_neg u]
    rfl

/-! ### Freezing (R164, R167) -/

theorem addFreezeRecord_harts (s : State) (r : Record) : (addFreezeRecord s r).harts = s.harts := by
  unfold addFreezeRecord
  dsimp only
  split <;> rfl

theorem freezeHart_hart (s : State) (h c : Nat) (tval addr : Word) (acc : Nat) (async stage2 : Bool) :
    (freezeHart s h c tval addr acc async stage2).hart h =
      { s.hart h with frozen := some (c, tval), froze := (async, stage2), frozeAt := (acc, addr), thawDue := false, stall := none } := by
  rw [freezeHart, State.hart, addFreezeRecord_harts]
  exact State.hart_setHart ..

theorem freezes_iff (c : Nat) : freezes c = true ↔ c = 0x05 ∨ c = 0x06 ∨ c = 0x15 := by
  simp [freezes]

theorem takeTrapAt_freezes {c : Nat} (freeze : freezes c = true) (s : State) (h : Nat) (tval addr : Word) (acc : Nat) (stage2 : Bool) :
    takeTrapAt s h c tval addr acc stage2 = freezeHart s h c tval addr acc false stage2 := if_pos freeze

theorem takeTrapAt_level {s : State} {h c : Nat} {stage2 : Bool} {l : Mode} (enters : ¬ freezes c = true)
    (way : (s.hart h).trapWay c false stage2 = .level l) (tval addr : Word) (acc : Nat) :
    takeTrapAt s h c tval addr acc stage2 = s.setHart h ((s.hart h).enter l c tval (s.hart h).pc) := by
  rw [takeTrapAt, if_neg enters, enterTrap, way]
  rfl

theorem takeTrapAt_freeze {s : State} {h c : Nat} {stage2 : Bool} (enters : ¬ freezes c = true)
    (way : (s.hart h).trapWay c false stage2 = .freeze) (tval addr : Word) (acc : Nat) :
    takeTrapAt s h c tval addr acc stage2 = freezeHart s h c tval addr acc false stage2 := by
  rw [takeTrapAt, if_neg enters, enterTrap, way]
  rfl

theorem takeTrapAt_taken (s : State) (h c : Nat) (tval addr : Word) (acc : Nat) (stage2 : Bool) :
    TrapTaken h s (takeTrapAt s h c tval addr acc stage2) := by
  unfold takeTrapAt
  split
  · exact freezeHart_taken ..
  · cases entered : enterTrap s h c tval addr acc false stage2 with
    | none => exact .refl h s
    | some t => exact enterTrap_taken entered

theorem takeTrapAt_cur (s : State) (h c : Nat) (tval addr : Word) (acc : Nat) (stage2 : Bool) :
    (takeTrapAt s h c tval addr acc stage2).cur = s.cur := by
  obtain ⟨_, _, _, rest⟩ := (takeTrapAt_taken s h c tval addr acc stage2).rest
  rw [rest]

/-! ### O23 -/

/-- Settles O23: the level by the search from the first one (`find?_trapLevels`), then what the entry or the freeze writes. -/
theorem trapEntry : Obligations.TrapEntry := by
  unfold Obligations.TrapEntry
  intro s c v addr acc stage2 a t guest toH toU levels te saved at_ awake entered frozen
  have te_eq : te = a.te := funext fun l => by cases l <;> rfl
  have levels_eq : levels = a.trapLevels c stage2 := rfl
  have freeze (f : t = freezeHart s s.cur c v addr acc false stage2) : frozen := by
    have taken := freezeHart_taken s s.cur c v addr acc false stage2
    rw [← f] at taken
    exact ⟨(congrArg (State.hart · t.cur) f).trans (by rw [takeTrapAt_cur]; exact freezeHart_hart ..), taken.ms, taken.others⟩
  refine ⟨rfl, fun at_once => freeze (takeTrapAt_freezes ((freezes_iff c).mpr at_once) ..), fun enters => ?_⟩
  rw [← freezes_iff] at enters
  rw [te_eq, levels_eq]
  cases found : (a.trapLevels c stage2).find? a.te with
  | none => exact freeze (takeTrapAt_freeze enters (trapWay_none ((find?_trapLevels ..).trans found)) ..)
  | some l =>
    have way := trapWay_level ((find?_trapLevels ..).trans found)
    dsimp only
    split
    · rename_i unset
      rw [if_pos unset] at way
      exact freeze (takeTrapAt_freeze enters way ..)
    · rename_i vectored
      rw [if_neg vectored] at way
      have enabled : a.te l = true := List.find?_some found
      refine (takeTrapAt_level enters way ..).trans (congrArg s.setMe ?_)
      cases l with
      | u => exact enter_u enabled ..
      | _ => simp only [Hart.enter, enterStatus_eq]; rfl

end Sys2Proof.Machine
end

section
/-! SUPPORT. Records written to their rings (R164), resolutions (R165), and frozen harts and copy queues thawed and killed (R159, R167),
and O53. -/

namespace Sys2Proof.Machine
open Sys2Proof.Safety

/-! ### Rings (R164) -/

theorem exec_ringRecordWrite_next {s : State} {f ring : Nat} {r : List Event} (h : s.flight = .ringRecordWrite f ring :: r) :
    exec .ringRecordWrite s = .next (writeRecord { s with flight := r } f ring) := by
  rw [exec_ringRecordWrite, execRingRecordWrite, h]

theorem writeRecord_none {s : State} {f ring : Nat} (empty : ringHead s f ring = none) : writeRecord s f ring = s := by
  rw [writeRecord, empty]

/-- The bytes of a number are those of its residue. -/
theorem leBytes_mod (n v : Nat) : leBytes n (v % 2 ^ (8 * n)) = leBytes n v := by
  induction n generalizing v with
  | zero => rfl
  | succ n ih =>
    have split : 2 ^ (8 * (n + 1)) = 256 * 2 ^ (8 * n) := by rw [Nat.mul_succ, Nat.pow_add, Nat.mul_comm]
    have low : BitVec.ofNat 8 (v % (256 * 2 ^ (8 * n))) = BitVec.ofNat 8 v :=
      BitVec.eq_of_toNat_eq (by rw [BitVec.toNat_ofNat, BitVec.toNat_ofNat]; exact Nat.mod_mul_right_mod ..)
    rw [split, leBytes, leBytes, low, Nat.mod_mul_right_div_self, ih]

/-- R164: the bytes of a record. -/
def recordBytes (x : Record) : List Byte := (recordWords x).flatMap (leBytes 8)

theorem length_recordBytes (x : Record) : (recordBytes x).length = 32 := by
  simp [recordBytes, recordWords]

/-- The dwords of a record that has been written. -/
theorem readDword_recordBytes (m : Memory) (pa : Nat) (x : Record) {k : Nat} (dword : k < 4) :
    Memory.readDword (Memory.writeBytes m pa (recordBytes x)) (pa + 8 * k) = BitVec.ofNat 64 ((recordWords x).getD k 0) := by
  have words : recordBytes x = (recordWords x).flatMap fun n => leBytes 8 (BitVec.ofNat 64 n).toNat := by
    simp only [BitVec.toNat_ofNat, leBytes_mod 8]
    rfl
  have member : k < (recordWords x).length := dword
  rw [words, readDword_writeBytes_dwords _ _ _ _ member, List.getD_eq_getElem _ _ member]

/-- R164: the oldest record written where its ring stands, within a line that is no poison. -/
theorem writeRecord_writes {s : State} {f ring pa : Nat} {x : Record} (head : ringHead s f ring = some x) (ready : ringReady s f ring = true)
    (next : nextRing s = some (f, ring))
    (place : hostWrite s f ((s.ringAt f ring).base.toNat + 32 * ((s.ringAt f ring).wr.toNat % 2 ^ ringLog (s.ringAt f ring))) = some pa)
    (aligned : pa % 32 = 0) (clean : isPoison s.ms (pa / 64) = false) : let t := writeRecord s f ring
    t.ringAt f ring = { s.ringAt f ring with wr := (s.ringAt f ring).wr + 1 } ∧ t.flt.waiting = s.flt.waiting.erase x ∧
      t.ms.mem = Memory.writeBytes s.ms.mem pa (recordBytes x) := by
  have turn : (ringReady s f ring && nextRing s == some (f, ring)) = true := by rw [ready, next, beq_self_eq_true]; rfl
  have written : writeRange s none pa (recordBytes x) = storeHome s none pa (recordBytes x) := by
    have size := length_recordBytes x
    rw [writeRange, cutLines_oneLine (List.ne_nil_of_length_pos (by omega)) (by omega)]
    rfl
  intro t
  have flt : (writeRange s none pa (recordBytes x)).flt = s.flt := by
    rw [written]
    rfl
  have steps : t.ringAt f ring = { s.ringAt f ring with wr := (s.ringAt f ring).wr + 1 } ∧ t.flt.waiting = s.flt.waiting.erase x ∧
      t.ms = (storeHome s none pa (recordBytes x)).ms := by
    simp only [t, writeRecord, head, turn, if_true, place]
    exact ⟨Table.get_set_self .., congrArg (fun f : FaultSys => f.waiting.erase x) flt, by rw [← written]; rfl⟩
  obtain ⟨ring_, waiting, ms⟩ := steps
  exact ⟨ring_, waiting, by rw [ms]; exact (storeHome_plain s pa _ clean).1⟩

/-! ### Resolutions (R165) -/

theorem exec_faultresRetry_next {s : State} {f : Nat} {fid : BitVec 32} {r : List Event} (h : s.flight = .faultresRetry f fid :: r) :
    exec .faultresRetry s = .next (resolve { s with flight := r } f fid retryRecord) := by
  rw [exec_faultresRetry, execFaultresRetry, h]

theorem exec_faultresTerminal_next {s : State} {f : Nat} {fid : BitVec 32} {r : List Event} (h : s.flight = .faultresTerminal f fid :: r) :
    exec .faultresTerminal s = .next (resolve { s with flight := r } f fid failRecord) := by
  rw [exec_faultresTerminal, execFaultresTerminal, h]

/-- The state with a record resolved. -/
def resolved (s : State) (x : Record) : State := { s with flt := { s.flt with unresolved := s.flt.unresolved.erase x } }

theorem resolve_found {s : State} {f : Nat} {fid : BitVec 32} {x : Record} (act : State → Record → State)
    (found : s.flt.unresolved.find? (fun y => y.fid % 2 ^ 32 == fid.toNat && y.func == f) = some x) (live : vfFrozen s f = false)
    (booted : bootStopped s = false) : resolve s f fid act = act (resolved s x) x := by
  rw [resolve, found]
  simp only [live, booted]
  rfl

/-- A hart that one page holds, let go. -/
def Hart.letGo (a : Hart) : Hart := { a with hold := none, stall := none }

theorem Hart.letGo_alone {a : Hart} (alone : a.holds = []) : { a with hold := none, holds := [], stall := none } = a.letGo := by
  rw [← alone]
  rfl

theorem Hart.release_alone {a : Hart} {fid : Nat} {e : Word × Bool} (held : a.hold = some (fid, e)) (alone : a.holds = []) :
    a.release fid = a.letGo := by
  rw [← Hart.letGo_alone alone]
  simp only [Hart.release, held, alone, Option.map_some, if_true]

section
variable {s : State} {x : Record} {h : Nat} {tag : BitVec 16} {va : Word} {st2 : Bool} (owner : x.owner = .hart h tag)
  (present : (s.hart h).tag = tag) (held : (s.hart h).hold = some (x.fid, va, st2)) (alone : (s.hart h).holds = [])
include owner present held alone

/-- R165: the hart that one page holds goes on. -/
theorem retryRecord_hart : retryRecord s x = s.setHart h (s.hart h).letGo := by
  subst present
  rw [retryRecord, owner]
  simp only [if_true, Hart.release_alone held alone]

/-- R165, R167: the hart that one page holds takes LOADPF, or keeps it while it is frozen; a terminal record is made. -/
theorem failRecord_hart (impure : (s.hart h).pure = none) :
    let u := (terminalRecord s x).setHart h (s.hart h).letGo
    failRecord s x = if (s.hart h).frozen.isSome then u.setHart h ((s.hart h).letGo.freeze 0x04 va x.addr x.acc false st2)
      else takeTrapAt u h 0x04 va x.addr x.acc st2 := by
  have kept : (terminalRecord s x).hart h = s.hart h := rfl
  have one : ((s.hart h).hold.toList ++ (s.hart h).holds).find? (fun e => e.1 == x.fid) = some (x.fid, va, st2) := by
    rw [held, alone]
    exact List.find?_cons_of_pos (beq_self_eq_true x.fid)
  have mortal : (s.hart h).pure.isSome = false := by rw [impure]; rfl
  subst present
  rw [failRecord, owner]
  simp only [kept, one, if_true, mortal, Bool.false_eq_true, if_false, Hart.letGo_alone alone, State.hart_setHart]
  rfl

theorem failRecord_frozen (impure : (s.hart h).pure = none) (frozen : (s.hart h).frozen.isSome = true) : failRecord s x =
    ((terminalRecord s x).setHart h (s.hart h).letGo).setHart h ((s.hart h).letGo.freeze 0x04 va x.addr x.acc false st2) :=
  (failRecord_hart owner present held alone impure).trans (if_pos frozen)

theorem failRecord_takes (impure : (s.hart h).pure = none) (frozen : (s.hart h).frozen = none) : failRecord s x =
    takeTrapAt ((terminalRecord s x).setHart h (s.hart h).letGo) h 0x04 va x.addr x.acc st2 :=
  (failRecord_hart owner present held alone impure).trans (if_neg (by rw [frozen]; exact Bool.false_ne_true))

end

/-! ### Frozen harts (R159, R167) -/

section
variable {s : State} {w : Writer} {g k : Nat} {r : List Event}

theorem exec_frzThawHart_next (h : s.flight = .frzThawHart w g k :: r) : exec .frzThawHart s =
    .next (if mayThaw w then thawHart { s with flight := r } (slotOf g k) else { s with flight := r }) := by
  rw [exec_frzThawHart, execFrzThawHart, h]

theorem exec_frzThawCq_next (h : s.flight = .frzThawCq w g k :: r) : exec .frzThawCq s =
    .next (if mayThaw w then thawQueue { s with flight := r } g k else { s with flight := r }) := by
  rw [exec_frzThawCq, execFrzThawCq, h]

theorem exec_frzkillHart_next (h : s.flight = .frzkillHart w g k :: r) : exec .frzkillHart s =
    .next (if mayThaw w then killFrozen { s with flight := r } (slotOf g k) else { s with flight := r }) := by
  rw [exec_frzkillHart, execFrzkillHart, h]

theorem exec_frzkillCq_next (h : s.flight = .frzkillCq w g k :: r) : exec .frzkillCq s =
    .next (if mayThaw w then killQueue { s with flight := r } g k else { s with flight := r }) := by
  rw [exec_frzkillCq, execFrzkillCq, h]

end

/-- R167: what a writer below H-mode asks for is ignored, as is what finds nothing to do. -/
theorem mayThaw_ignored {w : Writer} {t u : State} (ignored : modeAtLeast w.mode .h = false ∨ t = u) : (if mayThaw w then t else u) = u := by
  obtain below | nothing := ignored
  · exact if_neg (Bool.eq_false_iff.mp below)
  · rw [nothing, ite_self]

theorem mayThaw_may {w : Writer} (t u : State) (may : modeAtLeast w.mode .h = true) : (if mayThaw w then t else u) = t := if_pos may

theorem thawHart_not {s : State} {h : Nat} (not_ : (s.hart h).isFrozen = false) : thawHart s h = s := by
  simp only [thawHart, not_, Bool.false_eq_true, if_false]

theorem killFrozen_not {s : State} {h : Nat} (not_ : (s.hart h).isFrozen = false) : killFrozen s h = s := by
  rw [killFrozen, not_]
  rfl

theorem killFrozen_thread {s : State} {h : Nat} (frozen : (s.hart h).isFrozen = true) (thread : (s.hart h).slot = .thread) :
    killFrozen s h = endThread s h := by
  rw [killFrozen, frozen, if_pos rfl, killOccupant, thread]

theorem isFrozen_of_some {a : Hart} (some_ : a.frozen.isSome = true) (undue : a.thawDue = false) : a.isFrozen = true := by
  rw [Hart.isFrozen, some_, undue]
  rfl

theorem isFrozen_not {a : Hart} (thawed : a.frozen = none ∨ a.thawDue = true) : a.isFrozen = false := by
  rw [Hart.isFrozen]
  obtain none_ | due := thawed
  · rw [none_]
    rfl
  · rw [due, Bool.not_true, Bool.and_false]

/-- R159: ACCESS and PARTESC of a hart in U or S that no hypervisor runs go to S, which takes them. -/
theorem trapWay_s {a : Hart} {c : Nat} (cause : c = 0x06 ∨ c = 0x15) (async stage2 : Bool) (mode : a.mode = .u ∨ a.mode = .s)
    (native : a.v1 = false) (enabled : a.te .s = true) (vector : a.sregs.tvec ≠ 0#64) : a.trapWay c async stage2 = .level .s := by
  have undelegated : delegable c = false := by obtain rfl | rfl := cause <;> rfl
  have default_ : defaultH a c stage2 = false := by rw [defaultH, native, Bool.false_and]
  have first : a.firstLevel c stage2 = .s := by
    obtain m | m := mode <;> simp [Hart.firstLevel, m, default_, undelegated]
  have found : a.trapSearch async 4 .s = .level .s := by rw [Hart.trapSearch, if_pos enabled]
  rw [Hart.trapWay, first, found]
  exact if_neg fun unset => vector unset.2

/-- R159: the entry at S, whose TE is 1. -/
theorem enter_s {a : Hart} (enabled : a.status.getLsbD 4 = true) (c : Nat) (v epc : Word) : a.enter .s c v epc =
    { a with stall := none, idle := false, blk := .whole, mode := .s, pc := a.sregs.tvec
             sregs := { a.sregs with epc := epc, cause := BitVec.ofNat 64 c, tval := v }
             status := (a.status &&& ~~~0x33#64) ||| 0x20#64 ||| BitVec.ofNat 64 a.mode.code } := by
  have status : enterStatus a.status a.mode = (a.status &&& ~~~0x33#64) ||| 0x20#64 ||| BitVec.ofNat 64 a.mode.code := by
    rw [enterStatus_eq, if_pos enabled]
  rw [← status]
  rfl

/-- A hart whose thaw is not due, as it takes its trap. -/
theorem thawed_undue {a : Hart} (undue : a.thawDue = false) : { a with frozen := none, thawDue := false } = { a with frozen := none } := by
  rw [← undue]

/-- R167: a frozen hart thawed while its thread is saved. -/
theorem thawHart_saved {s : State} {h : Nat} (frozen : (s.hart h).isFrozen = true) (gone : (s.hart h).slot = .parked ∨ (s.hart h).slot = .sliced) :
    thawHart s h = s.setHart h { s.hart h with thawDue := true } := by
  simp only [thawHart, frozen, if_true, if_pos gone]

theorem thawHart_resident {s : State} {h : Nat} (frozen : (s.hart h).isFrozen = true)
    (resident : ¬ ((s.hart h).slot = .parked ∨ (s.hart h).slot = .sliced)) : thawHart s h = thawTrap s h := by
  simp only [thawHart, frozen, if_true, if_neg resident]

/-- R159, R167: the trap of a thawed hart taken at S. -/
theorem thawTrap_s {s : State} {h c : Nat} {v : Word} (frozen : (s.hart h).frozen = some (c, v)) (undue : (s.hart h).thawDue = false)
    (cause : c = 0x06 ∨ c = 0x15) (mode : (s.hart h).mode = .u ∨ (s.hart h).mode = .s) (native : (s.hart h).v1 = false)
    (enabled : (s.hart h).te .s = true) (vector : (s.hart h).sregs.tvec ≠ 0#64) :
    (thawTrap s h).hart h = ({ s.hart h with frozen := none } : Hart).enter .s c v (s.hart h).pc := by
  have leaves : ¬ c = cStorePf := by obtain rfl | rfl := cause <;> decide
  have way := trapWay_s (a := { s.hart h with frozen := none }) cause (s.hart h).froze.1 (s.hart h).froze.2 mode native enabled vector
  have taken : thawTrap s h = (s.setHart h { s.hart h with frozen := none }).setHart h
      (({ s.hart h with frozen := none } : Hart).enter .s c v (s.hart h).pc) := by
    rw [thawTrap]
    simp only [frozen, if_neg leaves, enterTrap, State.hart_setHart, thawed_undue undue, way]
    rfl
  rw [taken, State.hart_setHart]

/-! ### Frozen copy queues (R167) -/

theorem kickCopy_flightGrows (s : State) (g q : Nat) : FlightGrows s (kickCopy s g q) := by
  unfold kickCopy
  split
  · exact .refl s
  · exact flightGrows_flyIf ..

/-- The frozen queues are as before, and every event in flight still is. -/
structure FrozenKept (s t : State) : Prop where
  frozen : ∀ g, (t.core g).cqFrozen = (s.core g).cqFrozen
  flight : ∀ e ∈ s.flight, e ∈ t.flight

theorem FrozenKept.refl (s : State) : FrozenKept s s := ⟨fun _ => rfl, fun _ => id⟩

theorem FrozenKept.trans {s t u : State} (a : FrozenKept s t) (b : FrozenKept t u) : FrozenKept s u :=
  ⟨fun g => (b.frozen g).trans (a.frozen g), fun e mem => b.flight e (a.flight e mem)⟩

theorem FlightGrows.frozenKept {s t : State} (grows : FlightGrows s t) : FrozenKept s t := by
  obtain ⟨f, rfl⟩ := grows
  exact ⟨fun _ => rfl, fun e mem => List.mem_append_left f mem⟩

theorem setCore_frozenKept {s : State} {g : Nat} {k : Core} (frozen : k.cqFrozen = (s.core g).cqFrozen) : FrozenKept s (s.setCore g k) := by
  refine ⟨fun c => ?_, fun _ => id⟩
  by_cases same : c = g
  · subst same
    rw [State.core_setCore, frozen]
  · rw [State.core_setCore_ne _ _ same]

theorem drainFront_frozenKept (s : State) (g n : Nat) : FrozenKept s (drainFront s g n) := by
  induction n generalizing s with
  | zero => exact .refl s
  | succ n ih =>
    unfold drainFront
    dsimp only
    split
    · exact .refl s
    · split
      · refine FrozenKept.trans ?_ (ih _)
        refine FrozenKept.trans ?_ (kickCopy_flightGrows ..).frozenKept
        exact setCore_frozenKept rfl
      · exact .refl s

theorem pureCopyDone_frozenKept (s : State) (c : Cmd) : FrozenKept s (pureCopyDone s c) := by
  unfold pureCopyDone
  split
  · split
    · split <;> exact ⟨fun _ => rfl, fun _ => id⟩
    · exact .refl s
  · exact .refl s

/-- R167: a command of a killed queue ends. -/
def killCommand (s : State) (c : Cmd) : State :=
  if c.isTask then tokenPut s c.loc (BitVec.ofNat 64 (c.outLen * 2 ^ 32 + 4)) c.sig c.flags true
  else completeCmd (pureCopyDone s c) c 0x06

/-- R112, R167: the token of a command of a killed queue. -/
def killToken (c : Cmd) : Event := .putArrival ⟨c.loc, false, 6, some c.sig, 0, none, true, c.flags, true, none⟩

theorem killCommand_frozenKept (s : State) (c : Cmd) : FrozenKept s (killCommand s c) := by
  unfold killCommand
  split
  · exact (FlightGrows.frozenKept ⟨[_], rfl⟩)
  · exact (pureCopyDone_frozenKept s c).trans (FlightGrows.frozenKept ⟨[_], rfl⟩)

theorem killCommand_token {c : Cmd} (copy : c.isTask = false) (s : State) : killToken c ∈ (killCommand s c).flight := by
  have code : (BitVec.ofNat 64 0x06).setWidth 512 = (6 : VWord) := by simp
  have ends : killCommand s c = (pureCopyDone s c).fly (killToken c) := by
    rw [killToken, ← code, killCommand, copy]
    rfl
  rw [ends]
  exact List.mem_append_right _ (List.mem_singleton_self _)

theorem killCommands_frozenKept (l : List Cmd) (s : State) : FrozenKept s (l.foldl killCommand s) := by
  induction l generalizing s with
  | nil => exact .refl s
  | cons c l ih => exact (killCommand_frozenKept s c).trans (ih _)

theorem killCommands_token {c : Cmd} (copy : c.isTask = false) (l : List Cmd) (mem : c ∈ l) (s : State) :
    killToken c ∈ (l.foldl killCommand s).flight := by
  induction l generalizing s with
  | nil => cases mem
  | cons d l ih =>
    obtain rfl | later := List.mem_cons.mp mem
    · exact (killCommands_frozenKept l _).flight _ (killCommand_token copy s)
    · exact ih later _

/-- R167: the mask of the frozen queues with one cleared. -/
theorem getLsbD_cleared (w : BitVec 4) {j q : Nat} (queue : j < 4) :
    (w &&& ~~~(BitVec.ofNat 4 (2 ^ q))).getLsbD j = (w.getLsbD j && j != q) := by
  rw [BitVec.getLsbD_and, BitVec.getLsbD_not, BitVec.getLsbD_ofNat, Nat.testBit_two_pow, decide_eq_true queue, Bool.true_and, Bool.true_and,
    bne, beq_eq_decide, decide_eq_decide.mpr eq_comm]

theorem thawQueue_not {s : State} {g q : Nat} (not_ : (s.core g).cqFrozen.getLsbD q = false) : thawQueue s g q = s := by
  rw [thawQueue, not_]
  rfl

theorem killQueue_not {s : State} {g q : Nat} (not_ : (s.core g).cqFrozen.getLsbD q = false) : killQueue s g q = s := by
  rw [killQueue, not_]
  rfl

/-- R167: a frozen copy queue thawed; only what it sets on its way is new. -/
theorem thawQueue_thaws {s : State} {g q : Nat} (frozen : (s.core g).cqFrozen.getLsbD q = true) :
    (∀ j, j < 4 → ((thawQueue s g q).core g).cqFrozen.getLsbD j = ((s.core g).cqFrozen.getLsbD j && j != q)) ∧
      (thawQueue s g q).harts = s.harts ∧ (thawQueue s g q).ms = s.ms := by
  let u := s.setCore g { s.core g with cqFrozen := (s.core g).cqFrozen &&& ~~~(BitVec.ofNat 4 (2 ^ q)) }
  have thawed : thawQueue s g q = kickCopy u g q := by
    rw [thawQueue, frozen]
    rfl
  have grows := kickCopy_flightGrows u g q
  rw [thawed, grows.core, grows.harts, grows.ms, State.core_setCore]
  exact ⟨fun j queue => getLsbD_cleared _ queue, rfl, rfl⟩

/-- R167: a frozen copy queue killed; each of its copy commands writes its token. -/
theorem killQueue_kills {s : State} {g q : Nat} (queue : q < 4) (frozen : (s.core g).cqFrozen.getLsbD q = true) :
    ((killQueue s g q).core g).cqFrozen.getLsbD q = false ∧
      ∀ c ∈ (s.core g).copyq q, c.isTask = false → killToken c ∈ (killQueue s g q).flight := by
  let u := s.setCore g { ((s.core g).setCopyq q []) with cqFrozen := (s.core g).cqFrozen &&& ~~~(BitVec.ofNat 4 (2 ^ q)) }
  let v := ((s.core g).copyq q).foldl killCommand u
  have killed : killQueue s g q = kickCopy (drainFront v g 2) g q := by
    rw [killQueue, frozen]
    rfl
  have after : FrozenKept v (killQueue s g q) := by
    rw [killed]
    exact (drainFront_frozenKept v g 2).trans (kickCopy_flightGrows ..).frozenKept
  refine ⟨?_, fun c mem copy => after.flight _ (killCommands_token copy _ mem u)⟩
  rw [after.frozen, (killCommands_frozenKept _ u).frozen, State.core_setCore, getLsbD_cleared _ queue, bne_self_eq_false, Bool.and_false]

/-! ### O53 -/

/-- Settles O53: each event by the lemma on what it does, or on what it leaves alone. -/
theorem faultEvents : Obligations.FaultEvents := by
  unfold Obligations.FaultEvents
  intro s r same
  refine ⟨fun f ring flight => ?_, fun f fid x found live booted h tag va st2 owner present held alone => ?_, fun w g k flight => ?_,
    fun w g k flight queue => ?_, fun w g k flight => ?_, fun w g k flight queue => ?_⟩
  · have step := exec_ringRecordWrite_next flight
    refine ⟨fun empty => step.trans (congrArg _ (writeRecord_none (s := { s with flight := r }) empty)), fun x pa head ready next place
      aligned clean => ⟨_, step, ?_⟩⟩
    obtain ⟨ring_, waiting, mem⟩ := writeRecord_writes (s := { s with flight := r }) head ready next place aligned clean
    rw [mem]
    refine ⟨ring_, waiting, fun k dword => readDword_recordBytes _ _ _ dword, fun y apart => ?_⟩
    exact Memory.read_writeBytes_outside _ _ _ (by rwa [length_recordBytes])
  · let u := resolved { s with flight := r } x
    refine ⟨fun flight => ?_, fun flight impure frozen => ?_, fun flight impure frozen => ?_⟩
    · have step := exec_faultresRetry_next flight
      rw [resolve_found (s := { s with flight := r }) retryRecord found live booted,
        retryRecord_hart (s := u) owner present held alone] at step
      exact ⟨_, step, rfl, State.hart_setHart .., fun k ne => State.hart_setHart_ne u _ ne, rfl⟩
    · have step := exec_faultresTerminal_next flight
      rw [resolve_found (s := { s with flight := r }) failRecord found live booted,
        failRecord_frozen (s := u) owner present held alone impure frozen] at step
      refine ⟨_, step, ?_, ?_, rfl, fun k ne => ?_, rfl⟩
      · rw [State.hart_setHart]
        rfl
      · rw [State.hart_setHart]
        rfl
      · rw [State.hart_setHart_ne _ _ ne, State.hart_setHart_ne _ _ ne]
        rfl
    · have step := exec_faultresTerminal_next flight
      rw [resolve_found (s := { s with flight := r }) failRecord found live booted,
        failRecord_takes (s := u) owner present held alone impure frozen] at step
      exact ⟨_, _, step, rfl, rfl, State.hart_setHart .., fun k ne => State.hart_setHart_ne (terminalRecord u x) _ ne, rfl⟩
  · have step := exec_frzThawHart_next flight
    let u : State := { s with flight := r }
    refine ⟨fun ignored => step.trans (congrArg _ (mayThaw_ignored (ignored.imp_right fun n => thawHart_not (s := u) (isFrozen_not n)))),
      fun may frozen undue gone => ?_, fun c v may frozen undue resident cause mode native enabled vector => ?_⟩
    · rw [mayThaw_may _ _ may, thawHart_saved (s := u) (isFrozen_of_some frozen undue) gone] at step
      exact step
    · rw [mayThaw_may _ _ may, thawHart_resident (s := u) (isFrozen_of_some (Option.isSome_of_eq_some frozen) undue) resident] at step
      obtain ⟨taken, -⟩ := thawTrap_taken u (slotOf g k)
      have entered := thawTrap_s (s := u) frozen undue cause mode native enabled vector
      exact ⟨_, step, entered.trans (enter_s (a := { s.hart (slotOf g k) with frozen := none }) enabled ..), taken.others, taken.ms⟩
  · have step := exec_frzThawCq_next flight
    refine ⟨fun ignored => step.trans (congrArg _ (mayThaw_ignored (ignored.imp_right fun n => thawQueue_not n))), fun may frozen => ?_⟩
    rw [mayThaw_may _ _ may] at step
    exact ⟨_, step, thawQueue_thaws (s := { s with flight := r }) frozen⟩
  · have step := exec_frzkillHart_next flight
    refine ⟨fun ignored => step.trans (congrArg _ (mayThaw_ignored (ignored.imp_right fun n => killFrozen_not n))),
      fun may frozen thread unheld => ?_⟩
    rw [mayThaw_may _ _ may, killFrozen_thread (s := { s with flight := r }) frozen thread] at step
    exact ⟨_, step, (endThread_ends (s := { s with flight := r }) unheld).1⟩
  · have step := exec_frzkillCq_next flight
    refine ⟨fun ignored => step.trans (congrArg _ (mayThaw_ignored (ignored.imp_right fun n => killQueue_not n))), fun may frozen => ?_⟩
    rw [mayThaw_may _ _ may] at step
    exact ⟨_, step, killQueue_kills (s := { s with flight := r }) queue frozen⟩

end Sys2Proof.Machine
end

section
/-! SUPPORT. Activations dispatched (R146, R147), watchdogs (R149) and landing handlers (R254, R268), and O52. -/

namespace Sys2Proof.Machine
open Sys2Proof.Safety

/-! ### An activation that starts (R146, R147) -/

theorem exec_activationDispatch_next {s : State} {core : Nat} {r : List Event} (h : s.flight = .activationDispatch core :: r) :
    exec .activationDispatch s = .next (dispatchNext { s with flight := r } core) := by
  rw [exec_activationDispatch, execActivationDispatch, h]

/-- The tag of a slot's next occupant does not depend on what is in flight. -/
theorem nextTag_withFlight (s : State) (r : List Event) (h : Nat) : nextTag { s with flight := r } h = nextTag s h := by
  have same (n : Nat) (t : BitVec 16) : nextTagFrom { s with flight := r } h n t = nextTagFrom s h n t := by
    induction n generalizing t with
    | zero => rfl
    | succ n ih =>
      rw [nextTagFrom, nextTagFrom, ih]
      rfl
  exact same 64 _

/-- Two harts with one occupant, in one mode, at one PC. -/
structure SameStart (a b : Hart) : Prop where
  slot : b.slot = a.slot
  tag : b.tag = a.tag
  mode : b.mode = a.mode
  pc : b.pc = a.pc

theorem SameStart.trans {a b c : Hart} (h : SameStart a b) (k : SameStart b c) : SameStart a c :=
  ⟨k.slot.trans h.slot, k.tag.trans h.tag, k.mode.trans h.mode, k.pc.trans h.pc⟩

theorem wx_sameStart (a : Hart) (d : Reg) (v : Word) : SameStart a (a.wx d v) := by
  rw [Hart.wx_frame]
  exact ⟨rfl, rfl, rfl, rfl⟩

theorem wxs_sameStart (w : Nat → Word) (l : List (Nat × Nat)) (a : Hart) :
    SameStart a (l.foldl (fun (a : Hart) e => a.wx (BitVec.ofNat 5 e.1) (w e.2)) a) := by
  induction l generalizing a with
  | nil => exact ⟨rfl, rfl, rfl, rfl⟩
  | cons e l ih => exact (wx_sameStart a _ _).trans (ih _)

/-- R147: the PC of an activation of a channel: its handler's, or word 5 of a call. -/
def startPC (s : State) (core c : Nat) : Word :=
  let ch := (s.core core).chan c
  if chanCall ch && qSlot ch.w1 == 64 then slotWord s core ch (ch.cons.toNat + ch.started) 5 else chanPC ch.w0

/-- R147: an activation starts on its hart, with its channel's slot taken or named. -/
theorem startActivation_eq (s : State) (core h c : Nat) : ∃ k a,
    startActivation s core h c = ({ s with nextId := s.nextId + 1 }.setCore core k).setHart h a ∧
      SameStart (newActivation s h (.activation (BitVec.ofNat 6 c)) (Mode.ofCode (chanMode ((s.core core).chan c).w0)) (startPC s core c)) a := by
  have popped {a b : Hart} (l : List (Nat × VWord)) (same : SameStart a b) : SameStart a { b with popped := l, past := true } :=
    ⟨same.slot, same.tag, same.mode, same.pc⟩
  unfold startActivation
  dsimp only
  split
  · refine ⟨_, _, rfl, popped _ ?_⟩
    split
    · refine SameStart.trans ?_ (wxs_sameStart (slotWord s core _ _) _ _)
      exact ⟨rfl, rfl, rfl, rfl⟩
    · refine SameStart.trans ?_ (wx_sameStart _ _ _)
      exact ⟨rfl, rfl, rfl, rfl⟩
  · exact ⟨_, _, rfl, rfl, rfl, rfl, rfl⟩

theorem dispatchNext_channel {s : State} {core c h : Nat} (next : nextChannel s core = some c) (task : taskWaiting s core = none)
    (takes : dispatchHart s core c = some h) : dispatchNext s core = kickDispatch (startActivation s core h c) core := by
  have dispatched : dispatchChannel s core (some c) = startActivation s core h c := by rw [dispatchChannel, takes]
  rw [dispatchNext, next, task, dispatched]
  exact congrArg (kickDispatch · core) (ite_self _)

theorem dispatchNext_nothing {s : State} {core : Nat} (next : nextChannel s core = none) (task : taskWaiting s core = none) :
    dispatchNext s core = s := by
  have undue : dispatchDue s core = false := by rw [dispatchDue, next, task]; rfl
  have stays : dispatchNext s core = kickDispatch s core := by
    rw [dispatchNext, next, task]
    exact congrArg (kickDispatch · core) (ite_self _)
  rw [stays, kickDispatch, undue]
  rfl

theorem startPC_handler {s : State} {core c : Nat}
    (handler : ¬ (chanCall ((s.core core).chan c) = true ∧ ((s.core core).chan c).w1.getLsbD 5 = true)) :
    startPC s core c = chanPC ((s.core core).chan c).w0 := by
  have wide : (qSlot ((s.core core).chan c).w1 == 64) = ((s.core core).chan c).w1.getLsbD 5 := by
    rw [qSlot]
    cases ((s.core core).chan c).w1.getLsbD 5 <;> rfl
  rw [startPC, wide]
  exact if_neg (by rwa [Bool.and_eq_true])

/-! ### Watchdogs (R149) -/

theorem exec_watchdogExpiry_next {s : State} {h : Nat} {r : List Event} (flight : s.flight = .watchdogExpiry h :: r) :
    exec .watchdogExpiry s = .next (watchdogOut { s with flight := r } h) := by
  rw [exec_watchdogExpiry, execWatchdogExpiry, flight]

theorem exec_watchdogKill_next {s : State} {h : Nat} {r : List Event} (flight : s.flight = .watchdogKill h :: r) :
    exec .watchdogKill s = .next (watchdogEnd { s with flight := r } h) := by
  rw [exec_watchdogKill, execWatchdogKill, flight]

section
variable {s : State} {h : Nat}

/-- R149: the budget is spent; the grace is loaded. -/
theorem watchdogOut_due (due : (s.hart h).isActivation = true ∧ (s.hart h).grace = false ∧ (s.hart h).wdog = 0) (impure : (s.hart h).pure = none) :
    watchdogOut s h = s.setHart h { s.hart h with
      grace := true, wdog := 4096, pend := (s.hart h).pend ++ [(0x0B, 0#64)], idle := false } := by
  obtain ⟨activation, grace, spent⟩ := due
  rw [watchdogOut]
  simp only [activation, grace, spent, impure]
  rfl

theorem watchdogOut_not (undue : ¬ ((s.hart h).isActivation = true ∧ (s.hart h).grace = false ∧ (s.hart h).wdog = 0)) : watchdogOut s h = s :=
  if_neg (by simpa [and_assoc] using undue)

theorem watchdogEnd_not (undue : ¬ ((s.hart h).isActivation = true ∧ (s.hart h).grace = true ∧ (s.hart h).wdog = 0)) : watchdogEnd s h = s :=
  if_neg (by simpa [and_assoc] using undue)

/-- R149: the grace is spent; a channel's activation is killed, a record made. -/
theorem watchdogEnd_due {c : BitVec 6} (due : (s.hart h).isActivation = true ∧ (s.hart h).grace = true ∧ (s.hart h).wdog = 0)
    (slot : (s.hart h).slot = .activation c) : ∃ x, watchdogEnd s h = killActivation (addRecord s x) h := by
  obtain ⟨activation, grace, spent⟩ := due
  refine ⟨mkRecord s (h / 8) 0 cWatchdog 0 0 (s.hart h).master (h % 8) (s.hart h).tctx false .nobody, ?_⟩
  have kills (x : Record) : killOccupant (addRecord s x) h = killActivation (addRecord s x) h := by
    rw [killOccupant, show (addRecord s x).hart h = s.hart h from rfl, slot]
  rw [← kills, watchdogEnd]
  simp only [activation, grace, spent]
  rfl

/-- R149, R167: the hart of a killed activation is free. -/
theorem killActivation_frees (unheld : (s.hart h).heldFor = none) : ((killActivation s h).hart h).slot = .free := by
  refine (freeActivation_ends ?_).1
  rw [State.hart_setHart]
  exact ((popOwn_undisturbed s h).harts h).unheld unheld

end

/-! ### Landing handlers (R254, R268) -/

theorem exec_landingHandlerStart_next {s : State} {k : LandPacket} {r : List Event} (flight : s.flight = .landingHandlerStart k :: r) :
    exec .landingHandlerStart s = .next (landingArrival { s with flight := r } k) := by
  rw [exec_landingHandlerStart, execLandingHandlerStart, flight]

section
variable {s : State} {k : LandPacket}

/-- R268: a packet of a saved partition is kept. -/
theorem landingArrival_kept (saved : 2 ≤ (s.part ((partOf s k.dstCore).getD 64)).state) :
    (landingArrival s k).harts = s.harts ∧ (landingArrival s k).ms = s.ms ∧ (landingArrival s k).flight = s.flight := by
  rw [landingArrival]
  simp only [if_pos saved]
  unfold keepPacket
  split <;> exact ⟨rfl, rfl, rfl⟩

/-- R254: a packet waits for H7. -/
theorem landingArrival_waits (live : ¬ 2 ≤ (s.part ((partOf s k.dstCore).getD 64)).state) (opened : landingOpen s k = true)
    (busy : ¬ ((s.hart (slotOf k.dstCore 7)).slot = .free ∧ coreRuns s k.dstCore = true)) : landingArrival s k =
    s.setCore k.dstCore { s.core k.dstCore with packets := (s.core k.dstCore).packets ++ [k] } := by
  rw [landingArrival]
  simp only [if_neg live, opened, if_true]
  exact if_neg busy

/-- R254: a packet starts its handler on H7. -/
theorem landingArrival_starts (live : ¬ 2 ≤ (s.part ((partOf s k.dstCore).getD 64)).state) (opened : landingOpen s k = true)
    (free : (s.hart (slotOf k.dstCore 7)).slot = .free) (runs : coreRuns s k.dstCore = true) : landingArrival s k = startLanding s k := by
  rw [landingArrival]
  simp only [if_neg live, opened, if_true]
  exact if_pos ⟨free, runs⟩

/-- R254: what the handler of a packet finds. -/
theorem startLanding_starts (s : State) (k : LandPacket) : let t := startLanding s k
    let h := slotOf k.dstCore 7
    (t.hart h).slot = .landing k.chan ∧ (t.hart h).packet = k.block ∧ (t.hart h).hmsg = k.header ∧
      (t.hart h).rx 10 = BitVec.ofNat 64 k.offset ∧ (∀ j, j ≠ h → t.hart j = s.hart j) ∧ t.ms = s.ms := by
  intro t h
  have here : ∃ a : Hart, t.hart h = a.wx 10#5 (BitVec.ofNat 64 k.offset) ∧ a.slot = .landing k.chan ∧ a.packet = k.block ∧ a.hmsg = k.header :=
    ⟨_, State.hart_setHart .., rfl, rfl, rfl⟩
  obtain ⟨a, started, slot, packet, header⟩ := here
  rw [started]
  exact ⟨by rw [Hart.wx_slot, slot], by rw [Hart.wx_packet, packet], by rw [Hart.wx_hmsg, header], Hart.rx_wx_self .., fun j ne =>
    State.hart_setHart_ne _ _ ne, rfl⟩

end

/-! ### O52 -/

/-- Settles O52: each event by the lemma on what it does, or on what it leaves alone. -/
theorem activationEvents : Obligations.ActivationEvents := by
  unfold Obligations.ActivationEvents
  intro s r
  let u : State := { s with flight := r }
  refine ⟨fun core flight => ?_, fun h flight => ?_, fun h flight => ?_, fun k flight opened => ?_⟩
  · have step := exec_activationDispatch_next flight
    refine ⟨fun c h next task takes _ => ?_, fun next task => step.trans (congrArg _ (dispatchNext_nothing (s := u) next task))⟩
    rw [dispatchNext_channel (s := u) next task takes] at step
    obtain ⟨k, a, started, same⟩ := startActivation_eq u core h c
    have kicked := kickDispatch_flightGrows (startActivation u core h c) core
    have hart (j : Nat) : (kickDispatch (startActivation u core h c) core).hart j = (startActivation u core h c).hart j := by
      rw [State.hart, kicked.harts]
      rfl
    have here : (kickDispatch (startActivation u core h c) core).hart h = a := (hart h).trans (by rw [started, State.hart_setHart])
    refine ⟨_, step, ?_, ?_, ?_, fun handler => ?_, fun j ne => ?_, ?_⟩
    · rw [here]
      exact same.slot
    · rw [here]
      exact same.tag.trans (nextTag_withFlight s r h)
    · rw [here]
      exact same.mode
    · rw [here, same.pc]
      exact congrArg evenBits (startPC_handler (s := u) handler)
    · rw [hart, started, State.hart_setHart_ne _ _ ne]
      rfl
    · rw [kicked.ms, started]
      rfl
  · have step := exec_watchdogExpiry_next flight
    refine ⟨fun due impure => ?_, fun undue => step.trans (congrArg _ (watchdogOut_not (s := u) undue))⟩
    rw [watchdogOut_due (s := u) due impure] at step
    exact ⟨_, step, fun j ne => State.hart_setHart_ne u _ ne, rfl, State.hart_setHart ..⟩
  · have step := exec_watchdogKill_next flight
    refine ⟨fun c due slot unheld => ?_, fun undue => step.trans (congrArg _ (watchdogEnd_not (s := u) undue))⟩
    obtain ⟨x, killed⟩ := watchdogEnd_due (s := u) due slot
    rw [killed] at step
    exact ⟨_, step, killActivation_frees unheld⟩
  · have step := exec_landingHandlerStart_next flight
    refine ⟨fun saved => ⟨_, step, landingArrival_kept (s := u) saved⟩, fun live busy => ?_, fun live free runs => ?_⟩
    · rw [landingArrival_waits (s := u) live opened busy] at step
      exact ⟨_, step, by rw [State.core_setCore]; rfl, rfl, rfl⟩
    · rw [landingArrival_starts (s := u) live opened free runs] at step
      exact ⟨_, step, startLanding_starts u k⟩

end Sys2Proof.Machine
end

section
/-! SUPPORT. Queue handles: the forms that pop, advance, count and wait (R178), QCFG (R177), and O13. -/

namespace Sys2Proof.Machine
open Sys2Proof.Safety

/-! ### Handles and their queues (R176, R178) -/

theorem needBinding_bound {s : State} {h : QReg} {b : Binding} {role : Option Bool} (found : Table.find? s.me.handles h.toNat = some b)
    (fits : role.getD b.isProducer = b.isProducer) : needBinding h role s = .ok b := by
  rw [needBinding, found]
  exact if_pos (beq_iff_eq.mpr fits)

theorem needBinding_unbound {s : State} {h : QReg} (role : Option Bool) (absent : Table.find? s.me.handles h.toNat = none) :
    needBinding h role s = .error (.trap 0x12 (BitVec.ofNat 64 h.toNat)) := by
  rw [needBinding, absent]
  rfl

theorem qLogn_eq (w : Word) : qLogn w = (w.extractLsb' 6 4).toNat := by
  rw [BitVec.extractLsb'_toNat]
  rfl

/-- R178: imm12, limited to the slots of a software queue. -/
theorem qCount_soft (s : State) (j : BitVec 4) (p : Bool) (i : BitVec 12) : qCount (qview s s.cur (.soft j p)) i =
    min i.toNat (2 ^ (((s.core s.myCore).softq j.toNat).w1.extractLsb' 6 4).toNat) :=
  congrArg (fun l => min i.toNat (2 ^ l)) (qLogn_eq _)

/-- R178: imm12, limited to the slots of a channel. -/
theorem qCount_chan (s : State) (c : BitVec 6) (i : BitVec 12) : qCount (qview s s.cur (.chan c)) i =
    min i.toNat (2 ^ (((s.core s.myCore).chan c.toNat).w1.extractLsb' 6 4).toNat) :=
  congrArg (fun l => min i.toNat (2 ^ l)) (qLogn_eq _)

theorem qview_soft_logn (s : State) (j : BitVec 4) (p : Bool) : (qview s s.cur (.soft j p)).logn =
    (((s.core s.myCore).softq j.toNat).w1.extractLsb' 6 4).toNat := qLogn_eq _

section
variable {s : State} {h : QReg} {i : BitVec 12} {b : Binding} (pure : Impure s)
include pure

theorem exec_qpop_pops (x : Reg) (bound : needBinding h (some false) s = .ok b)
    (filled : qCount (qview s s.cur b) i ≤ (qview s s.cur b).filled) (settled : s.me.loads = []) :
    exec (.qpop h x i) s = .next ((popBinding s s.cur b (qCount (qview s s.cur b) i)).step4 id) := by
  have slots : needFilled (qview s s.cur b) (qCount (qview s s.cur b) i) = .ok () := check_ok (decide_eq_true filled)
  have loads : check s.me.loads.isEmpty (.wait .other) = .ok () := check_ok (by rw [settled]; rfl)
  rw [exec_qpop, execQpop]
  simp only [noPure_ok pure, bound, slots, loads, bind_ok, finish_ok]

theorem exec_qwait_passes (x : Reg) (bound : needBinding h (some false) s = .ok b)
    (filled : qCount (qview s s.cur b) i ≤ (qview s s.cur b).filled) : exec (.qwait h x i) s = .next (s.step4 id) := by
  have slots : needFilled (qview s s.cur b) (qCount (qview s s.cur b) i) = .ok () := check_ok (decide_eq_true filled)
  rw [exec_qwait, execQwait]
  simp only [noPure_ok pure, bound, slots, bind_ok, finish_ok]

theorem exec_qcnt_counts {d : Reg} (free : XFree s d) (bound : needBinding h none s = .ok b) :
    exec (.qcnt d h i) s = .next (s.step4 fun a => a.wx d (BitVec.ofNat 64 (qview s s.cur b).filled)) := by
  rw [exec_qcnt, execQcnt]
  simp only [noPure_ok pure, freeX_ok free, bound, bind_ok, finish_ok]

theorem exec_qadv_advances (x : Reg) (bound : needBinding h (some true) s = .ok b)
    (room : (qview s s.cur b).filled + qCount (qview s s.cur b) i ≤ 2 ^ (qview s s.cur b).logn) (buffer : NoBuffer s ∨ s.me.abuf = [])
    (stored : stashStoreOut s s.cur = false) :
    exec (.qadv h x i) s = .next ((pushBinding s s.cur b (qCount (qview s s.cur b) i)).step4 id) := by
  have slots : check ((qview s s.cur b).filled + qCount (qview s s.cur b) i ≤ 2 ^ (qview s s.cur b).logn) (.wait .other) = .ok () :=
    check_ok (decide_eq_true room)
  have out : check (!stashStoreOut s s.cur) (.wait .other) = .ok () := check_ok (by rw [stored]; rfl)
  have released (z : Res) : (if holdsStashStore s s.cur then do needUnrollable s; z else z) = z := by
    obtain none_ | empty := buffer
    · rw [needUnrollable_ok none_, bind_ok, ite_self]
    · have holds : holdsStashStore s s.cur = false := by
        rw [holdsStashStore, show (s.hart s.cur).abuf = [] from empty]
        rfl
      rw [holds]
      rfl
  rw [exec_qadv, execQadv]
  simp only [noPure_ok pure, bound, slots, released, out, bind_ok, finish_ok]

/-- R178: the forms on a handle that is not bound. -/
theorem exec_queue_unbound (absent : Table.find? s.me.handles h.toNat = none) (x d : Reg) :
    let unbound := fun (f : Instr) => exec f s = .next (takeTrap s s.cur 0x12 (BitVec.ofNat 64 h.toNat) false)
    unbound (.qpop h x i) ∧ unbound (.qadv h x i) ∧ unbound (.qwait h x i) ∧ (XFree s d → unbound (.qcnt d h i)) := by
  intro unbound
  have traps := trapped pure 0x12 (BitVec.ofNat 64 h.toNat)
  refine ⟨?_, ?_, ?_, fun free => ?_⟩
  · simp only [unbound, exec_qpop, execQpop, noPure_ok pure, needBinding_unbound _ absent, bind_ok, bind_error, traps]
  · simp only [unbound, exec_qadv, execQadv, noPure_ok pure, needBinding_unbound _ absent, bind_ok, bind_error, traps]
  · simp only [unbound, exec_qwait, execQwait, noPure_ok pure, needBinding_unbound _ absent, bind_ok, bind_error, traps]
  · simp only [unbound, exec_qcnt, execQcnt, noPure_ok pure, freeX_ok free, needBinding_unbound _ absent, bind_ok, bind_error, traps]

end

/-! ### Software queues (R178) -/

/-- Of a core's software queues one has changed, and of the package nothing else, past the instruction. -/
def SoftChanged (s t : State) (j : Nat) (q : SoftQ) : Prop :=
  (t.core s.myCore).softq j = q ∧ (∀ l, l ≠ j → (t.core s.myCore).softq l = (s.core s.myCore).softq l) ∧
    t.core s.myCore = { s.core s.myCore with soft := (t.core s.myCore).soft } ∧ (∀ c, c ≠ s.myCore → t.core c = s.core c) ∧
    Passes { s with cores := t.cores } t

theorem setSoft_changed (s : State) (j : Nat) (q : SoftQ) :
    SoftChanged s ((s.setCore s.myCore ((s.core s.myCore).setSoft j q)).step4 id) j q := by
  let t := (s.setCore s.myCore ((s.core s.myCore).setSoft j q)).step4 id
  have core : t.core s.myCore = (s.core s.myCore).setSoft j q := State.core_setCore ..
  refine ⟨?_, fun l ne => ?_, ?_, fun c ne => State.core_setCore_ne s _ ne, passes_step4 (s.setCore s.myCore ((s.core s.myCore).setSoft j q))⟩
  · rw [core]
    exact Table.get_set_self ..
  · rw [core]
    exact Table.get_set_ne _ _ _ ne
  · rw [core]
    rfl

/-! ### Channels (R147, R178, R291) -/

/-- What free slots may set on its way: a dispatch and a drain of the return buffer. -/
theorem kicks_events (s : State) (g : Nat) : ∃ l, kickReturned (kickDispatch s g) g = { s with flight := s.flight ++ l } ∧
    ∀ e ∈ l, e = .activationDispatch g ∨ e = .returnBufferDrain g := by
  have one (u : State) (due : Bool) (e : Event) : ∃ l, (if due then u.fly e else u) = { u with flight := u.flight ++ l } ∧ ∀ x ∈ l, x = e := by
    cases due
    · exact ⟨[], by rw [List.append_nil, if_neg Bool.false_ne_true], fun x mem => absurd mem List.not_mem_nil⟩
    · exact ⟨[e], if_pos rfl, fun x mem => List.mem_singleton.mp mem⟩
  obtain ⟨l, dispatched, first⟩ := one s (dispatchDue s g && !(s.flight.contains (.activationDispatch g))) (.activationDispatch g)
  let u : State := { s with flight := s.flight ++ l }
  obtain ⟨m, drained, second⟩ := one u (!(u.core g).retbuf.isEmpty && retOpen u g && !(u.flight.contains (.returnBufferDrain g)))
    (.returnBufferDrain g)
  refine ⟨l ++ m, ?_, fun e mem => (List.mem_append.mp mem).imp (first e) (second e)⟩
  rw [← List.append_assoc]
  exact (congrArg (kickReturned · g) dispatched).trans drained

/-- R147, R178, R291: n slots of a channel popped by the issuing hart. -/
theorem popSlots_pops (s : State) (c : BitVec 6) (n : Nat) : ∃ q a l,
    popSlots s s.cur c n = ({ s with
      cores := Table.set s.cores s.myCore ((s.core s.myCore).setChan c.toNat q), flight := s.flight ++ l } : State).setMe a ∧
    q = { popChan ((s.core s.myCore).chan c.toNat) n with started := q.started } ∧
    a = { s.me with popped := a.popped, past := a.past } ∧
    (s.me.slot ≠ .activation c → q.started = ((s.core s.myCore).chan c.toNat).started ∧ a = s.me) ∧
    ∀ e ∈ l, e = .activationDispatch s.myCore ∨ e = .returnBufferDrain s.myCore := by
  have mine (other : s.me.slot ≠ .activation c) : (s.me.slot == .activation c) = false := beq_false_of_ne other
  let q := popChan ((s.core s.myCore).chan c.toNat) n
  let passes := s.me.slot == .activation c && !s.me.past && n != 0
  let q' := if passes then { q with started := q.started - 1 } else q
  let a' := if s.me.slot == .activation c then
      { s.me with popped := s.me.popped ++ slotsOf s s.myCore ((s.core s.myCore).chan c.toNat) n, past := s.me.past || passes }
    else s.me
  obtain ⟨l, kicked, events⟩ := kicks_events ((s.setCore s.myCore ((s.core s.myCore).setChan c.toNat q')).setHart s.cur a') s.myCore
  refine ⟨q', a', l, kicked, ?_, ?_, fun other => ⟨?_, ?_⟩, events⟩
  · dsimp only [q']
    split <;> rfl
  · dsimp only [a']
    split <;> rfl
  · have stays : passes = false := by
      dsimp only [passes]
      rw [mine other]
      rfl
    have same : q' = q := if_neg (Bool.eq_false_iff.mp stays)
    rw [same]
    rfl
  · exact if_neg (Bool.eq_false_iff.mp (mine other))

/-- What QPOP on a channel leaves, n slots popped. -/
def ChanPopped (s t : State) (c : BitVec 6) (n : Nat) : Prop :=
  let k := s.core s.myCore
  let q := k.chan c.toNat
  (t.core s.myCore).chan c.toNat = { q with
      cons := q.cons + BitVec.ofNat 16 n, stamps := q.stamps.drop n, started := ((t.core s.myCore).chan c.toNat).started } ∧
    (s.me.slot ≠ .activation c → ((t.core s.myCore).chan c.toNat).started = q.started) ∧
    (∀ l, l ≠ c.toNat → (t.core s.myCore).chan l = k.chan l) ∧ t.core s.myCore = { k with chans := (t.core s.myCore).chans } ∧
    (∀ l, l ≠ s.myCore → t.core l = s.core l) ∧
    (∃ l, t.flight = s.flight ++ l ∧ ∀ e ∈ l, e = .activationDispatch s.myCore ∨ e = .returnBufferDrain s.myCore) ∧
    Passes ({ s with cores := t.cores, flight := t.flight }.setMe { s.me with popped := t.me.popped, past := t.me.past }) t ∧
    (s.me.slot ≠ .activation c → t.me.popped = s.me.popped ∧ t.me.past = s.me.past)

theorem popSlots_popped (s : State) (c : BitVec 6) (n : Nat) : ChanPopped s ((popSlots s s.cur c n).step4 id) c n := by
  obtain ⟨q, a, l, pops, chan, hart, others, events⟩ := popSlots_pops s c n
  let u : State := { s with cores := Table.set s.cores s.myCore ((s.core s.myCore).setChan c.toNat q), flight := s.flight ++ l }
  let t := (u.setMe a).step4 id
  have core : t.core s.myCore = (s.core s.myCore).setChan c.toNat q := Table.get_set_self ..
  have here : (t.core s.myCore).chan c.toNat = q := by
    rw [core]
    exact Table.get_set_self ..
  have me : t.me = a.retire 4 := step4_setMe_me u a id
  rw [pops]
  show ChanPopped s t c n
  refine ⟨?_, fun other => ?_, fun j ne => ?_, ?_, fun g ne => Table.get_set_ne _ _ _ ne, ⟨l, rfl, events⟩, ?_, fun other => ?_⟩
  · rw [here]
    exact chan
  · rw [here]
    exact (others other).1
  · rw [core]
    exact Table.get_set_ne _ _ _ ne
  · rw [core]
    rfl
  · have same : ({ s.me with popped := t.me.popped, past := t.me.past } : Hart) = a := by
      rw [me, Hart.retire_popped, Hart.retire_past]
      exact hart.symm
    rw [same]
    exact passes_step4 (u.setMe a)
  · rw [me, Hart.retire_popped, Hart.retire_past, (others other).2]
    exact ⟨rfl, rfl⟩

/-! ### QCFG (R177) -/

/-- R177: a descriptor that QCFG accepts. -/
def LegalDescriptor (w : Word) (high : Nat) : Prop :=
  high = 0 ∧ w.extractLsb' 10 54 = 0#54 ∧ w.extractLsb' 6 2 = 0#2 ∧
    (if w.getLsbD 8 then (w.extractLsb' 0 6).toNat ≤ 15 else w.getLsbD 9 = false ∧ w.extractLsb' 0 6 ≠ 0#6)

/-- A field of a dword that is zero. -/
theorem extractLsb'_eq_zero (w : Word) (lo n : Nat) : w.extractLsb' lo n = 0#n ↔ w.toNat / 2 ^ lo % 2 ^ n = 0 := by
  rw [← BitVec.toNat_inj, BitVec.extractLsb'_toNat, Nat.shiftRight_eq_div_pow, BitVec.toNat_ofNat, Nat.zero_mod]

/-- A bit of a dword. -/
theorem getLsbD_eq_div (w : Word) (i : Nat) : w.getLsbD i = (w.toNat / 2 ^ i % 2 == 1) := by
  rw [BitVec.getLsbD, Nat.testBit_eq_decide_div_mod_eq, beq_eq_decide]

theorem bindingOk_iff (w : Word) (high : Nat) : (bindingOk w.toNat && high == 0) = true ↔ LegalDescriptor w high := by
  have small : w.toNat < 2 ^ 64 := w.isLt
  have index : (w.extractLsb' 0 6).toNat = w.toNat % 64 := by rw [BitVec.extractLsb'_toNat, Nat.shiftRight_zero]
  have zero : w.extractLsb' 0 6 = 0#6 ↔ w.toNat % 64 = 0 := by rw [← index, ← BitVec.toNat_inj, BitVec.toNat_ofNat, Nat.zero_mod]
  rw [LegalDescriptor, extractLsb'_eq_zero, extractLsb'_eq_zero, index, Ne, zero, getLsbD_eq_div, getLsbD_eq_div, bindingOk]
  obtain kind | kind := Nat.mod_two_eq_zero_or_one (w.toNat / 256) <;>
    obtain role | role := Nat.mod_two_eq_zero_or_one (w.toNat / 512) <;>
    simp [kind, role] <;> omega

theorem bindingOf_eq (w : Word) : bindingOf w.toNat =
    if w.getLsbD 8 then .soft (w.extractLsb' 0 4) (w.getLsbD 9) else .chan (w.extractLsb' 0 6) := by
  have low (n : Nat) : w.extractLsb' 0 n = BitVec.ofNat n w.toNat := BitVec.eq_of_toNat_eq (by
    rw [BitVec.extractLsb'_toNat, Nat.shiftRight_zero, BitVec.toNat_ofNat])
  rw [bindingOf, low, low, getLsbD_eq_div, getLsbD_eq_div]
  simp only [beq_iff_eq]
  rfl

/-- The first and the second half of a range of bytes. -/
theorem readBytes_halves (m : Memory) (a n k : Nat) : (Memory.readBytes m a (n + k)).take n = Memory.readBytes m a n ∧
    (Memory.readBytes m a (n + k)).drop n = Memory.readBytes m (a + n) k := by
  rw [readBytes_add]
  exact ⟨List.take_left' (Memory.length_readBytes ..), List.drop_left' (Memory.length_readBytes ..)⟩

section
variable {s : State} {a : Reg} {o : Nat} (h : QReg) (x : BitVec 12) (pure : Impure s) (ready : XReady s [a])
include pure

theorem exec_qcfg_priv (user : s.me.mode = .u) :
    exec (.qcfg h a x) s = .next (takeTrap s s.cur 0x02 (Instr.bits (.qcfg h a x)) false) := by
  have below : modeAtLeast s.me.mode .s = false := by rw [user]; rfl
  rw [exec_qcfg, execQcfg, needMode_below below, bind_error, trapped pure]

include ready

/-- R177: QCFG from S at least, of a descriptor in the local stash with nothing in its way. -/
theorem exec_qcfg_reads (mode : s.me.mode ≠ .u) (inside : o < 0x40000) (aligned : o % 16 = 0)
    (place : s.me.rx a = BitVec.ofNat 64 (0x007F000000000000 + o)) (plain : windowAt s s.myCore o = none)
    (unlogged : lineLogged s s.myCore (s.me.rx a) = false) (settled : remotePending s s.cur (.stash (stashIdx s.myCore o)) 16 = false)
    (clean : isStashPoison s.ms (stashIdx s.myCore o / 64) = false)
    (unbuffered : ∀ k, k < 16 → bufferedByte s s.cur (BitVec.ofNat 64 (0x007F000000000000 + o)) (.stash (stashIdx s.myCore o)) k = none) :
    let w := leNat (Memory.readBytes s.ms.stash (stashIdx s.myCore o) 8)
    let high := leNat (Memory.readBytes s.ms.stash (stashIdx s.myCore o + 8) 8)
    exec (.qcfg h a x) s = if bindingOk w && high == 0 then
        .next (s.step4 fun b => { b with handles := Table.set b.handles h.toNat (bindingOf w) })
      else .next (takeTrap s s.cur 0x06 (s.me.rx a) false) := by
  have level : modeAtLeast s.me.mode .s = true := by
    cases e : s.me.mode with
    | u => exact absurd e mode
    | s => rfl
    | h => rfl
    | m => rfl
  obtain ⟨address, region⟩ := regionOf_stash place inside
  have logged : check (!lineLogged s s.myCore (s.me.rx a)) (.wait .other) = .ok () := check_ok (by rw [unlogged]; rfl)
  have pending : check (!remotePending s s.cur (.stash (stashIdx s.myCore o)) 16) (.wait .other) = .ok () := check_ok (by rw [settled]; rfl)
  obtain ⟨low, high⟩ := readBytes_halves s.ms.stash (stashIdx s.myCore o) 8 8
  rw [exec_qcfg, execQcfg]
  simp only [needMode_ok level, needX_ok (ready a (List.mem_singleton_self a)), noPure_ok pure,
    needAddr_stash (n := 16) accRead address inside region aligned rfl, logged, reach_stash address inside region plain, pending,
    readPlace_stash s _ o 16 place clean unbuffered, low, high, bind_ok]
  split
  · rename_i legal
    rw [check_ok legal, bind_ok, finish_ok]
  · rename_i illegal
    rw [check, if_neg illegal, bind_error, trapped pure]
    rfl

end

/-- R177: the handle bound, past QCFG. -/
theorem bound_arms (s : State) (j : Nat) (b : Binding) :
    let t := s.step4 fun a => { a with handles := Table.set a.handles j b }
    Table.find? t.me.handles j = some b ∧ (∀ l, l ≠ j → Table.find? t.me.handles l = Table.find? s.me.handles l) ∧
      Arms s.me t.me none ∧ OthersKept s t := by
  intro t
  have me : t.me = ({ s.me with handles := Table.set s.me.handles j b } : Hart).retire 4 := State.step4_me ..
  refine ⟨?_, fun l ne => ?_, ?_, othersKept_step4 ..⟩
  · rw [me, Hart.retire_handles]
    exact Table.find?_set_self ..
  · rw [me, Hart.retire_handles]
    exact Table.find?_set_ne _ _ ne
  · rw [me]
    exact arms_congr (arms_retire _) rfl rfl rfl rfl rfl rfl

/-! ### O13 -/

/-- Settles O13: each form by the lemma on what it does once its handle is bound. -/
theorem queueForms : Obligations.QueueForms := by
  unfold Obligations.QueueForms
  constructor
  · intro s d x h i pure k
    refine ⟨?_, ?_, fun absent => exec_queue_unbound pure absent x d⟩
    · intro j producer found q filled size n only
      have count := qCount_soft s j producer i
      refine ⟨fun consumer enough settled => ?_, fun isProducer room buffer stored => ?_, fun consumer enough => ?_, fun free => ?_⟩
      · have pops := exec_qpop_pops (i := i) pure x (needBinding_bound found consumer.symm) (by rw [count]; exact enough) settled
        rw [count] at pops
        exact ⟨_, pops, setSoft_changed s j.toNat _⟩
      · have advances := exec_qadv_advances (i := i) pure x (needBinding_bound found isProducer.symm)
          (by rw [count, qview_soft_logn]; exact room) buffer stored
        rw [count] at advances
        exact ⟨_, advances, setSoft_changed s j.toNat _⟩
      · exact ⟨_, exec_qwait_passes pure x (needBinding_bound found consumer.symm) (by rw [count]; exact enough), passes_step4 s⟩
      · exact ⟨_, exec_qcnt_counts pure free (needBinding_bound found rfl), writesX_step4 ..⟩
    · intro c found q filled n
      have count := qCount_chan s c i
      refine ⟨fun enough settled => ?_, fun enough => ?_, fun free => ?_⟩
      · have pops := exec_qpop_pops (i := i) pure x (needBinding_bound found rfl) (by rw [count]; exact enough) settled
        rw [count] at pops
        exact ⟨_, pops, popSlots_popped s c n⟩
      · exact ⟨_, exec_qwait_passes pure x (needBinding_bound found rfl) (by rw [count]; exact enough), passes_step4 s⟩
      · exact ⟨_, exec_qcnt_counts pure free (needBinding_bound found rfl), writesX_step4 ..⟩
  · intro s a h x o pure ready inside aligned place w legal
    refine ⟨exec_qcfg_priv h x pure, fun mode plain unlogged settled clean unbuffered => ?_⟩
    have reads := exec_qcfg_reads h x pure ready mode inside aligned place plain unlogged settled clean unbuffered
    have value : w.toNat = leNat (Memory.readBytes s.ms.stash (stashIdx s.myCore o) 8) := by
      have bound := leNat_lt (Memory.readBytes s.ms.stash (stashIdx s.myCore o) 8)
      rw [Memory.length_readBytes] at bound
      exact (BitVec.toNat_ofNat ..).trans (Nat.mod_eq_of_lt bound)
    dsimp only at reads
    rw [← value, bindingOf_eq] at reads
    refine ⟨fun accepted => ?_, fun refused => ?_⟩
    · rw [if_pos ((bindingOk_iff ..).mpr accepted)] at reads
      exact ⟨_, reads, bound_arms s h.toNat _⟩
    · exact reads.trans (if_neg fun ok => refused ((bindingOk_iff ..).mp ok))

end Sys2Proof.Machine
end

section
/-! SUPPORT. Queue operands (R180), and O27. -/

namespace Sys2Proof.Machine
open Sys2Proof.Safety

/-- R288: a read that a scalar access completes, a vector access completes with the same bytes. -/
theorem readPlace_vector {s : State} {h n : Nat} {va : Word} {p : Place} {g : Got} (read : readPlace s h va p n true = .ok g) :
    readPlace s h va p n false = .ok g := by
  rw [readPlace] at read ⊢
  cases st : ownState s h va p (readState s.ms p n) <;> rw [st] at read
  case poisoned =>
    obtain ⟨_, _, stops⟩ := ok_of_bind read
    exact absurd stops nofun
  all_goals exact read

section
variable {s : State} {r : Reg} {b : Binding}

theorem readV2_unbound (absent : Table.find? s.me.handles (r.extractLsb' 1 4).toNat = none) :
    readV2 r true s = .error (.trap 0x12 (BitVec.ofNat 64 (r.extractLsb' 1 4).toNat)) := by
  rw [readV2, if_pos rfl, readQOperand]
  dsimp only [qoperand]
  rw [needBinding_unbound _ absent, bind_error]

variable (bound : needBinding (r.extractLsb' 1 4) (some false) s = .ok b)
include bound

/-- R180: a queue operand past the binding of its handle, b not the packet. -/
theorem readV2_bound (channel : b ≠ .packet) {o : Nat} (slot : (qview s s.cur b).slotOff (r.toNat % 2) = o) :
    readV2 r true s = (do
      check ((qview s s.cur b).slotBytes == 64) (.trap 0x03 (BitVec.ofNat 64 o))
      check (r.toNat % 2 + 1 ≤ (qview s s.cur b).filled) (.wait .other)
      let (p, u) ← reachStash s (ownerOf s s.myCore) s.myCore o (BitVec.ofNat 64 (stashBase + o)) accRead
      let g ← readPlace u u.cur (BitVec.ofNat 64 (stashBase + o)) p 64 false
      .ok (BitVec.ofNat 512 (leNat g.bytes), Sticky.when g.poison psn, g.st)) := by
  subst slot
  rw [readV2, if_pos rfl, readQOperand]
  dsimp only [qoperand]
  rw [bound, bind_ok]
  cases b with
  | packet => exact absurd rfl channel
  | chan c => rfl
  | soft i p => rfl

end

theorem bufferedByte_empty {s : State} {h : Nat} (empty : (s.hart h).abuf = []) (va : Word) (p : Place) (k : Nat) :
    bufferedByte s h va p k = none := by
  rw [bufferedByte, empty]
  rfl

theorem reachStash_plain {s : State} {core o : Nat} (plain : windowAt s core o = none) (part : Option Nat) (va : Word) (acc : Nat) :
    reachStash s part core o va acc = .ok (.stash (stashIdx core o), s) := by
  rw [reachStash, plain]

/-- Settles O27: the operand past the binding of its handle (`readV2_bound`), check by check. -/
theorem queueOperands : Obligations.QueueOperands := by
  unfold Obligations.QueueOperands
  intro s r b q v off
  refine ⟨fun ready => ?_, fun absent => readV2_unbound absent, fun found consumer channel => ?_⟩
  · rw [readV2, if_neg (by decide), needV_ok ready, bind_ok]
  have operand := readV2_bound (needBinding_bound (role := some false) found consumer.symm) channel (o := off) rfl
  refine ⟨fun narrow => ?_, fun wide empty => ?_, fun wide filled inside _ plain clean unbuffered => ?_⟩ <;> rw [operand]
  · rw [check, if_neg (by simpa using narrow)]
    rfl
  · rw [check_ok (beq_iff_eq.mpr wide), bind_ok, check, if_neg (by simpa using empty)]
    rfl
  · have read : readPlace s s.cur (BitVec.ofNat 64 (stashBase + off)) (.stash (stashIdx s.myCore off)) 64 false = _ :=
      readPlace_vector (readPlace_stash s _ off 64 rfl clean fun k _ => bufferedByte_empty unbuffered ..)
    rw [check_ok (beq_iff_eq.mpr wide), bind_ok, check_ok (by simpa using filled), bind_ok, reachStash_plain plain, bind_ok]
    exact congrArg (· >>= _) read

end Sys2Proof.Machine
end

section
/-! SUPPORT. BQPOP and BQDONE at a gateway (R186, R203), and O41. -/

namespace Sys2Proof.Machine
open Sys2Proof.Safety

/-! ### The queue that a form names (R186) -/

/-- R186: the assignment queue of the gateway's die that bits 5:0 of a register name. -/
def namedQueue (s : State) (x : Word) : AssignQ := s.assignq (dieOf s.myCore) (x.extractLsb' 0 6).toNat

theorem namedQueue_eq (s : State) (x : Word) : s.assignq (dieOf s.myCore) (x.extractLsb' 0 6).toNat = namedQueue s x := rfl

theorem needQueue_ok {s : State} {x : Word} (gateway : isGateway s.myCore = true)
    (tenant : tenantOf s s.myCore = some (namedQueue s x).part) :
    needQueue x s = .ok (dieOf s.myCore, (x.extractLsb' 0 6).toNat) := by
  rw [needQueue, fieldOf_eq_extractLsb']
  exact congrArg (· >>= _) (check_ok (by rw [gateway]; exact beq_iff_eq.mpr tenant))

theorem needQueue_denied {s : State} {x : Word} (foreign : isGateway s.myCore = false ∨ tenantOf s s.myCore ≠ some (namedQueue s x).part) :
    needQueue x s = .error (.trap 0x06 x) := by
  have fails : ¬ (isGateway s.myCore && tenantOf s s.myCore == some (namedQueue s x).part) = true := by
    rw [Bool.and_eq_true, beq_iff_eq]
    rintro ⟨gateway, tenant⟩
    obtain no | no := foreign
    · exact absurd gateway (by rw [no]; decide)
    · exact no tenant
  rw [needQueue, fieldOf_eq_extractLsb']
  exact congrArg (· >>= _) (if_neg fails)

/-- R186, R203: an index handed out, by the collective or by the one it abandoned, and not done. -/
theorem open_iff (k : AssignQ) (x : Nat) : k.open_ x = true ↔ x ∉ k.marks ∧ (x < k.next.toNat ∨ (x < k.handed ∧ x ∉ k.past)) := by
  simp [AssignQ.open_]

/-! ### BQPOP -/

section
variable {s : State} {d a : Reg} (pure : Impure s) (ready : XReady s [a]) (free : XFree s d) (delivered : Delivered s)
include pure ready free delivered

theorem exec_bqpop_checked : exec (.bqpop d a) s = finish s (do
    let (die, q) ← needQueue (s.me.rx a) s
    let k := s.assignq die q
    if k.next.toNat < k.count.toNat then
      .ok ((s.setAssignq die q { k with next := k.next + 1 }).step4 fun h => h.wx d (k.next.setWidth 64))
    else .ok (s.step4 fun h => h.wx d (BitVec.allOnes 64))) := by
  rw [exec_bqpop, execBqpop]
  simp only [needX_ok (ready a (List.mem_singleton_self a)), noPure_ok pure, freeX_ok free, needDelivered_ok delivered, bind_ok]

theorem exec_bqpop_pops (gateway : isGateway s.myCore = true) {k : AssignQ} (queue : namedQueue s (s.me.rx a) = k)
    (tenant : tenantOf s s.myCore = some k.part) :
    exec (.bqpop d a) s = .next (if k.next.toNat < k.count.toNat then
        (s.setAssignq (dieOf s.myCore) ((s.me.rx a).extractLsb' 0 6).toNat { k with next := k.next + 1 }).step4
          fun h => h.wx d (k.next.setWidth 64)
      else s.step4 fun h => h.wx d (BitVec.allOnes 64)) := by
  subst queue
  rw [exec_bqpop_checked pure ready free delivered, needQueue_ok gateway tenant, bind_ok]
  dsimp only
  rw [← apply_ite Except.ok]
  rfl

theorem exec_bqpop_denied (foreign : isGateway s.myCore = false ∨ tenantOf s s.myCore ≠ some (namedQueue s (s.me.rx a)).part) :
    exec (.bqpop d a) s = .next (takeTrap s s.cur 0x06 (s.me.rx a) false) := by
  rw [exec_bqpop_checked pure ready free delivered, needQueue_denied foreign, bind_error, trapped pure]

end

/-! ### BQDONE -/

/-- R203: whether an index ends its queue's collective with a put. -/
def endsCollective (k : AssignQ) (x : Nat) : Bool := k.open_ x && k.done + 1 == k.count && k.cloc != 0#64

theorem endsCollective_eq (k : AssignQ) (x : Nat) :
    (k.open_ x && k.done + 1 == k.count && k.cloc != 0#64) = endsCollective k x := rfl

/-- R186: the state once an index has been marked, where it was out. -/
def marked (s : State) (x y : Word) : State :=
  if (namedQueue s x).open_ y.toNat then
    s.setAssignq (dieOf s.myCore) (x.extractLsb' 0 6).toNat ((namedQueue s x).mark y) else s

theorem needRoute_ok {s : State} {loc : Word} (permitted : permits s s.myCore loc = true) : needRoute loc s = .ok () := check_ok permitted

theorem needCount_ok {s : State} (released : Released s) : needCount s = .ok () := by
  obtain ⟨_, _, none, _⟩ := released
  exact check_ok (by rw [none]; rfl)

section
variable {s : State} {a b : Reg} (pure : Impure s) (ready : XReady s [a, b])
include pure ready

theorem exec_bqdone_denied (delivered : Delivered s)
    (foreign : isGateway s.myCore = false ∨ tenantOf s s.myCore ≠ some (namedQueue s (s.me.rx a)).part) :
    exec (.bqdone a b) s = .next (takeTrap s s.cur 0x06 (s.me.rx a) false) := by
  rw [exec_bqdone, execBqdone]
  simp only [needX_ok (ready a (by simp)), needX_ok (ready b (by simp)), noPure_ok pure, needDelivered_ok delivered, bind_ok,
    needQueue_denied foreign, bind_error, trapped pure]

theorem exec_bqdone_marks (unbuffered : NoBuffer s) (released : Released s) (gateway : isGateway s.myCore = true)
    {k : AssignQ} (queue : namedQueue s (s.me.rx a) = k) (tenant : tenantOf s s.myCore = some k.part)
    (sends : endsCollective k (s.me.rx b).toNat = true →
      permits s s.myCore (resolveLocal s.plat.node k.cloc) = true ∧ sendFree s.me false = true) :
    let t := marked s (s.me.rx a) (s.me.rx b)
    exec (.bqdone a b) s = .next (if endsCollective k (s.me.rx b).toNat then
        (putOut t t.cur (newPut t (resolveLocal s.plat.node k.cloc) false 0#512 (senderOf t t.cur none false)) true).step4 id
      else t.step4 id) := by
  subst queue
  have delivered : Delivered s := released.2.2.2
  rw [exec_bqdone, execBqdone]
  simp only [needX_ok (ready a (by simp)), needX_ok (ready b (by simp)), noPure_ok pure, needDelivered_ok delivered, bind_ok,
    needQueue_ok gateway tenant, needUnrollable_ok unbuffered, needReleased_ok released]
  simp only [endsCollective_eq, namedQueue_eq]
  by_cases last : endsCollective (namedQueue s (s.me.rx a)) (s.me.rx b).toNat = true
  · obtain ⟨permitted, room⟩ := sends last
    simp only [last, if_true, needCount_ok released, needRoute_ok permitted, needReply_ok room, bind_ok, finish_ok]
    rfl
  · simp only [last, Bool.false_eq_true, if_false, finish_ok]
    rfl

end

/-! ### O41 -/

theorem marked_open {s : State} {x y : Word} (out : (namedQueue s x).open_ y.toNat = true) :
    marked s x y = s.setAssignq (dieOf s.myCore) (x.extractLsb' 0 6).toNat ((namedQueue s x).mark y) := if_pos out

theorem marked_closed {s : State} {x y : Word} (shut : ¬ (namedQueue s x).open_ y.toNat = true) : marked s x y = s := if_neg shut

theorem endsCollective_iff (k : AssignQ) (x : Nat) :
    endsCollective k x = true ↔ k.open_ x = true ∧ k.done + 1 = k.count ∧ k.cloc ≠ 0#64 := by
  simp [endsCollective, and_assoc]

/-- Settles O41: each form past its checks, and at a queue that is not its gateway's tenant's. -/
theorem gateForms : Obligations.GateForms := by
  unfold Obligations.GateForms
  constructor
  · intro s d a pure ready free delivered die q k
    refine ⟨fun gateway tenant => ⟨_, exec_bqpop_pops pure ready free delivered gateway (k := k) rfl tenant, fun left => ?_, fun none => ?_⟩,
      exec_bqpop_denied pure ready free delivered⟩
    · rw [if_pos left]
      exact writesX_step4 ..
    · rw [if_neg (Nat.not_lt.mpr none)]
      exact writesX_step4 ..
  · intro s a b pure ready unbuffered released die q k x fresh k' loc
    have out : k.open_ x.toNat = true ↔ fresh := open_iff k x.toNat
    refine ⟨fun gateway tenant sends => ?_, exec_bqdone_denied pure ready released.2.2.2⟩
    refine ⟨_, exec_bqdone_marks pure ready unbuffered released gateway (k := k) rfl tenant fun last => ?_, fun shut => ?_,
      fun isOut more => ?_, fun isOut last put => ?_⟩
    · obtain ⟨isOut, last, put⟩ := (endsCollective_iff ..).mp last
      exact sends (out.mp isOut) last put
    · have shut : ¬ k.open_ x.toNat = true := fun isOut => shut (out.mp isOut)
      rw [if_neg fun last => shut ((endsCollective_iff ..).mp last).1, marked_closed shut]
      exact passes_step4 s
    · have notLast : ¬ endsCollective k x.toNat = true := fun last => by
        obtain ⟨_, done, put⟩ := (endsCollective_iff ..).mp last
        exact more.elim (· done) put
      rw [if_neg notLast, marked_open (out.mpr isOut)]
      exact passes_step4 _
    · rw [if_pos ((endsCollective_iff ..).mpr ⟨out.mpr isOut, last, put⟩), marked_open (out.mpr isOut)]
      exact ⟨_, rfl, rfl, rfl, sends_plain _ _ true⟩

end Sys2Proof.Machine
end

section
/-! SUPPORT. The fabric forms: commands into their connections (R181, R182, R184), receives (R185), wait entries and counts (R183), and O40. -/

namespace Sys2Proof.Machine
open Sys2Proof.Safety

/-! ### Connections (R181) -/

theorem connUsable_iff (s : State) (core c : Nat) :
    connUsable s core c = true ↔ (s.conn c).state = 1 ∧ tenantOf s core = some (s.conn c).part := by
  rw [connUsable, Bool.and_eq_true, beq_iff_eq, beq_iff_eq]

theorem connNum_eq (w : Word) : connNum w = (w.extractLsb' 0 12).toNat := fieldOf_eq_extractLsb' w 11 0

theorem noV_ok {s : State} {v : Word} (plain : s.me.isV = false) : noV v s = .ok () := check_ok (by rw [plain]; rfl)

/-- R181: a command of the issuing hart at its connection, whose count of commands is read off the state it is issued in. -/
theorem enterConn_issued (s : State) (c : Nat) (d : Cmd) (rd rd2 : Reg) : enterConn (issued s rd rd2) c d =
    if connUsable s s.myCore c then
      pumpAll ((issued s rd rd2).setConn c { s.conn c with queue := (s.conn c).queue ++ [.cmd d] })
    else tokenPut (issued s rd rd2) d.loc 0x16 sigAll 0 true := rfl

section
variable {s : State} {d a : Reg} (pure : Impure s) (unbuffered : NoBuffer s) (delivered : Delivered s)
include pure unbuffered delivered

/-! ### Group forms (R181, R182, R184, R185) -/

section
variable {f : Instr} (fits : f.wf = true) (ready : XReady s (groupRegs a)) (plain : s.me.isV = false) (free : XFree s d)
include ready plain free

theorem connOp_enters (fits : f.wf = true) {c : Nat} (named : connNum (member (stage s.me a) 0) = c)
    (room : connUsable s s.myCore c = true → connLoad (s.conn c) < 64) :
    connOp f d a s = .next (enterConn (issued s d 0#5) c (groupCmd s f a d 0#5)) := by
  subst named
  have open_ : needConnRoom s (connNum (member (stage s.me a) 0)) = .ok () := check_ok (by
    cases usable : connUsable s s.myCore (connNum (member (stage s.me a) 0)) with
    | false => rfl
    | true => exact decide_eq_true (room usable))
  rw [connOp]
  simp only [needCommand_ok pure fits ready, noV_ok plain, freeX_ok free, needUnrollable_ok unbuffered, needDelivered_ok delivered,
    open_, bind_ok, finish_ok, issueCmd_eq]

/-- R185: NRECV past its checks. -/
theorem exec_nrecv_checked (fits : Instr.wf (.nrecv d a) = true) {r : Recv}
    (recv : newRecv s d (stage s.me a) ((ownerOf s s.myCore).getD 0) = r) :
    exec (.nrecv d a) s = finish s (
      let t := issued s d 0#5
      if namesWindow r.va r.max then .ok (tokenPut t r.loc windowRecv sigAll 0#3 true)
      else match ownerOf s s.myCore with
      | none => .ok (tokenPut t r.loc refusedRecv sigAll 0#3 true)
      | some p =>
        if featureOn s 3 then do
          check (recvRoom s p r) (.wait .other)
          .ok (postRecv (performOwn t t.cur) p r)
        else .ok (tokenPut t r.loc refusedRecv sigAll 0#3 true)) := by
  subst recv
  rw [exec_nrecv, execNrecv]
  simp only [needCommand_ok pure fits ready, noV_ok plain, freeX_ok free, needUnrollable_ok unbuffered, needDelivered_ok delivered,
    bind_ok]
  rfl

end

/-! ### NCHAIN and NCNT (R183) -/

theorem exec_nchain_checked {b : Reg} (ready : XReady s [a, b, d]) {c n : Nat} (first : connNum (s.me.rx a) = c)
    (second : connNum (s.me.rx b) = n) :
    exec (.nchain d a b) s = .next (
      if !connUsable s s.myCore c then s.step4 fun h => h.pendFabric c
      else if !connUsable s s.myCore n then s.step4 fun h => h.pendFabric n
      else addChain (s.step4 id) c n (s.me.rx d)) := by
  subst first second
  rw [exec_nchain, execNchain]
  simp only [needX_ok (ready a (by simp)), needX_ok (ready b (by simp)), needX_ok (ready d (by simp)), noPure_ok pure,
    needUnrollable_ok unbuffered, needDelivered_ok delivered, bind_ok]
  rw [← apply_ite Except.ok, ← apply_ite Except.ok]
  rfl

theorem exec_ncnt_checked (ready : XReady s [a]) (free : XFree s d) {c : Nat} (named : connNum (s.me.rx a) = c) :
    exec (.ncnt d a) s = .next (if connUsable s s.myCore c then s.step4 fun h => h.wx d (s.conn c).count
      else s.step4 fun h => (h.wx d 0#64).pendFabric c) := by
  subst named
  rw [exec_ncnt, execNcnt]
  simp only [needX_ok (ready a (by simp)), noPure_ok pure, freeX_ok free, needUnrollable_ok unbuffered, needDelivered_ok delivered,
    bind_ok]
  rw [← apply_ite Except.ok]
  rfl

end

/-- R183: a count of 0 read, and FABRIC left pending. -/
theorem writesX_pendFabric (s : State) (d : Reg) (c : Nat) :
    WritesX (s.setMe (s.me.pendFabric c)) (s.step4 fun h => (h.wx d 0#64).pendFabric c) d 0#64 4 := by
  have same : (s.step4 fun h => (h.wx d 0#64).pendFabric c) = (s.setMe (s.me.pendFabric c)).step4 fun h => h.wx d 0#64 := by
    rw [State.step4, State.step4, State.me_setMe, State.setMe_setMe]
    congr 2
    unfold Hart.wx
    split <;> rfl
  rw [same]
  exact writesX_step4 ..

/-! ### O40 -/

theorem exec_group {f : Instr} {s : State} {d a : Reg} (form : f ∈ [Instr.nput d a, .nget d a, .nsend d a]) :
    exec f s = connOp f d a s := by
  simp only [List.mem_cons, List.not_mem_nil, or_false] at form
  obtain rfl | rfl | rfl := form
  · exact exec_nput s
  · exact exec_nget s
  · exact exec_nsend s

/-- R185: the fields of a receive within its group. -/
theorem newRecv_eq (s : State) (d : Reg) (g : List Word) (p : Nat) : newRecv s d g p =
    ⟨s.nextId, ((member g 0).extractLsb' 0 10).toNat, ((member g 0).extractLsb' 16 10).toNat, (member g 1).extractLsb' 0 32,
      (member g 1).extractLsb' 32 32, member g 2, ((member g 3).extractLsb' 0 32).toNat, locOfSlot s s.cur d.toNat, s.me.tctx, s.cur, p,
      hposOf s.myCore - (s.part p).base⟩ := by
  rw [newRecv, len32, fieldOf_eq_extractLsb', fieldOf_eq_extractLsb', fieldOf_eq_extractLsb', ← BitVec.setWidth_eq_extractLsb']
  · rfl
  · decide

/-- Settles O40: each form past its checks, at a connection that is usable and at one that is not. -/
theorem fabricCommands : Obligations.FabricCommands := by
  unfold Obligations.FabricCommands
  intro s d a b pure unbuffered delivered g conn usable
  refine ⟨?_, ?_, ?_, ?_⟩
  · intro f form fits ready plain free c
    rw [exec_group form]
    have enters := connOp_enters pure unbuffered delivered ready plain free fits (c := c) (connNum_eq _)
    refine ⟨fun open_ room => ⟨issued s d 0#5, groupCmd s f a d 0#5, issues_issued s f g d 0#5 none, ?_⟩,
      fun shut => ⟨issued s d 0#5, groupCmd s f a d 0#5, issues_issued s f g d 0#5 none, ?_⟩⟩
    · rw [enters fun _ => room, enterConn_issued, if_pos ((connUsable_iff ..).mpr open_)]
    · have shut := fun open_ => shut ((connUsable_iff s s.myCore c).mp open_)
      rw [enters fun open_ => absurd open_ shut, enterConn_issued, if_neg shut]
  · intro fits ready plain free r
    have checked := exec_nrecv_checked pure unbuffered delivered ready plain free fits (r := r) (newRecv_eq s d _ _)
    refine ⟨issued s d 0#5, newCmd s (.nrecv d a) g d 0#5, issues_issued s _ g d 0#5 none, fun window => ?_, fun memory none => ?_,
      fun p memory owner on room => ?_⟩ <;> rw [checked]
    · exact congrArg (finish s) (if_pos window)
    · rw [memory]
      obtain none | off := none
      · rw [none]
        rfl
      · rw [off]
        cases ownerOf s s.myCore <;> rfl
    · rw [memory, owner, on]
      exact congrArg (fun x => finish s (x >>= _)) (check_ok room)
  · intro ready c n
    have checked := exec_nchain_checked pure unbuffered delivered ready (c := c) (n := n) (connNum_eq _) (connNum_eq _)
    refine ⟨fun first second => ⟨s.step4 id, passes_step4 s, ?_⟩, fun shut => ⟨_, checked, ?_⟩⟩
    · rw [checked, (connUsable_iff s s.myCore c).mpr first, (connUsable_iff s s.myCore n).mpr second]
      rfl
    · by_cases first : connUsable s s.myCore c = true
      · have second : ¬ connUsable s s.myCore n = true := fun open_ =>
          shut.elim (· ((connUsable_iff ..).mp first)) (· ((connUsable_iff ..).mp open_))
        rw [first, Bool.not_eq_true _ |>.mp second]
        exact ⟨n, passes_step4_setMe s fun h => h.pendFabric n⟩
      · rw [Bool.not_eq_true _ |>.mp first]
        exact ⟨c, passes_step4_setMe s fun h => h.pendFabric c⟩
  · intro ready free c
    have checked := exec_ncnt_checked pure unbuffered delivered ready free (c := c) (connNum_eq _)
    refine ⟨fun open_ => ⟨_, checked, ?_⟩, fun shut => ⟨_, checked, ?_⟩⟩
    · rw [if_pos ((connUsable_iff ..).mpr open_)]
      exact writesX_step4 ..
    · rw [if_neg fun open_ => shut ((connUsable_iff ..).mp open_)]
      exact writesX_pendFabric ..

end Sys2Proof.Machine
end

section
/-! SUPPORT. What the engines' accesses leave of the fabric, and of the harts and stashes where they write memory for no thread. -/

namespace Sys2Proof.Machine
open Sys2Proof.Safety

/-! ### The frame -/

/-- The fabric and what is on its way are as they were. -/
structure FabricKept (s t : State) : Prop where
  fab : t.fab = s.fab
  flight : t.flight = s.flight

namespace FabricKept

theorem refl (s : State) : FabricKept s s := ⟨rfl, rfl⟩

theorem trans {s t u : State} (a : FabricKept s t) (b : FabricKept t u) : FabricKept s u :=
  ⟨b.fab.trans a.fab, b.flight.trans a.flight⟩

theorem ite {s t u : State} {c : Prop} [Decidable c] (a : FabricKept s t) (b : FabricKept s u) : FabricKept s (if c then t else u) := by
  split
  · exact a
  · exact b

theorem withMs (s : State) (m : MemSys) : FabricKept s { s with ms := m } := ⟨rfl, rfl⟩

theorem of_performed {s t : State} (performed : StoresPerformed s t) : FabricKept s t := by
  obtain ⟨_, _, _, _, _, rfl⟩ := performed.rest
  exact ⟨rfl, rfl⟩

theorem of_snd {α : Type} {s t : State} {p : α × State} {a : α} (e : p = (a, t)) (kept : FabricKept s p.2) : FabricKept s t := by
  subst e
  exact kept

end FabricKept

/-! ### Errors and copies (R98, R288, R294) -/

theorem chargeError_fabric (s : State) (p : Nat) (corrected : Bool) : FabricKept s (chargeError s p corrected) :=
  .ite ⟨rfl, rfl⟩ ⟨rfl, rfl⟩

theorem settleLine_fabric (s : State) (pa : Nat) : FabricKept s (settleLine s pa) := by
  have charged (ms : MemSys) (p : Nat) (corrected : Bool) : FabricKept s (chargeError { s with ms := ms } p corrected) :=
    (FabricKept.withMs s ms).trans (chargeError_fabric ..)
  unfold settleLine
  split
  · exact .refl s
  · dsimp only
    split
    · split
      all_goals split
      · exact charged ..
      · exact .withMs ..
      · exact charged ..
      · exact .refl s
    · split
      · exact charged ..
      · exact .withMs ..
    · exact .withMs ..

theorem settlePlace_fabric (s : State) (p : Place) : FabricKept s (settlePlace s p) := by
  unfold settlePlace
  split
  · exact .refl s
  · exact settleLine_fabric ..

theorem touchHome_fabric (s : State) (p : Place) : FabricKept s (touchHome s p) := by
  unfold touchHome
  split
  · exact .refl s
  · exact .withMs ..

theorem writePlaceHome_fabric (s : State) (p : Place) (bs : List Byte) : FabricKept s (writePlaceHome s p bs) := by
  unfold writePlaceHome
  split
  · exact .withMs ..
  · exact .ite (.of_performed (storeHome_performs ..))
      ((FabricKept.withMs s _).trans ((FabricKept.of_performed (storeHome_performs ..)).trans (.withMs ..)))

theorem engPoison_fabric (s : State) (p : Place) : FabricKept s (engPoison s p).1 := by
  unfold engPoison
  split
  · exact .withMs ..
  · dsimp only
    split
    · exact .of_performed (storeHome_performs ..)
    · exact (FabricKept.of_performed (storeHome_performs ..)).trans (.withMs ..)

/-! ### Accesses of engines (R112, R253) -/

theorem homeReach_fabric (s : State) (owner : Option Nat) (core holder : Nat) (c : TCtx) (va : Word) (acc : Nat) :
    Gives (fun r => FabricKept s r.2) (homeReach s owner core holder c va acc) := by
  unfold homeReach
  split
  · trivial
  · trivial
  · exact .ite trivial (.ite (.of_ok (.withMs ..)) trivial)

theorem engStash_fabric (s : State) (owner : Option Nat) (core o acc : Nat) :
    Gives (fun r => FabricKept s r.2) (engStash s owner core o acc) := by
  unfold engStash
  split
  · exact .of_ok (.refl s)
  · exact homeReach_fabric ..

theorem engReachFor_fabric (s : State) (owner : Option Nat) (core : Nat) (c : TCtx) (va : Word) (acc : Nat) :
    Gives (fun r => FabricKept s r.2) (engReachFor s owner core c va acc) := by
  unfold engReachFor
  refine .ite trivial ?_
  split
  · exact .ite trivial (engStash_fabric ..)
  · exact .ite (engStash_fabric ..) (.of_ok (.refl s))
  · exact homeReach_fabric ..
  · trivial

theorem countEng_fabric (s : State) (who : Option (Nat × BitVec 16)) (p : Place) : FabricKept s (countEng s who p) := by
  unfold countEng
  split
  · exact .ite (.refl s) (.of_performed (countAt_performs ..))
  · exact .refl s

theorem engLine_fabric (s : State) (who : Option (Nat × BitVec 16)) (shadow : Option (Nat × Bool)) (p : Place) (n : Nat) :
    FabricKept s (engLine s who shadow p n).2 := by
  have counted := countEng_fabric s who p
  unfold engLine
  dsimp only
  split
  · exact counted.trans (touchHome_fabric ..)
  · exact (counted.trans (settlePlace_fabric ..)).trans (touchHome_fabric ..)
  · exact counted.trans (settlePlace_fabric ..)

theorem engPrefix_fabric (core : Nat) (ctx : TCtx) (who : Option (Nat × BitVec 16)) (va : Word) (cuts : List (Nat × Nat)) (s : State)
    (acc : EngBytes) : FabricKept s (engPrefix core ctx who va cuts s acc).1 := by
  fun_induction engPrefix core ctx who va cuts s acc
  · exact .refl _
  · exact .refl _
  next cut rest s acc p s1 reached bs s2 line ih =>
    have reach := Gives.of_eq reached (engReachFor_fabric ..)
    have read : FabricKept s1 s2 := .of_snd line (engLine_fabric ..)
    exact (reach.trans read).trans ih

theorem readPrefix_fabric (s : State) (core : Nat) (ctx : TCtx) (who : Option (Nat × BitVec 16)) (va : Word) (n : Nat) :
    FabricKept s (readPrefix s core ctx who va n).1 := engPrefix_fabric ..

theorem engWriteLine_fabric (w : EngWrote) (who : Option (Nat × BitVec 16)) (va : Word) (p : Place) (bs : EngBytes) :
    FabricKept w.st (engWriteLine w who none va p bs).st := by
  have signed : FabricKept w.st (signStore (countEng w.st who p) none va (bs.map (·.1))) := countEng_fabric w.st who p
  unfold engWriteLine
  dsimp only
  split
  · contradiction
  · split
    · exact signed.trans (engPoison_fabric ..)
    · exact signed.trans (writePlaceHome_fabric ..)

theorem engShadow_none (s : State) (owner : Option Nat) (va : Word) (p : Place) : engShadow s owner none va p = .ok s := by
  cases p <;> rfl

/-- A range written by an engine outside a V launch. -/
theorem engWriteFor_fabric (s : State) (owner : Option Nat) (core : Nat) (c : TCtx) (who : Option (Nat × BitVec 16)) (va : Word)
    (bs : EngBytes) (sig : Sig) : Gives (fun w => FabricKept s w.st) (engWriteFor s owner core c who none va bs sig) := by
  unfold engWriteFor
  refine .foldlM (.refl s) fun w cut kept => ?_
  refine Gives.bind (engReachFor_fabric w.st ..) fun ⟨p, u⟩ reach => ?_
  dsimp only
  rw [engShadow_none]
  have written := engWriteLine_fabric { w with st := u } who (va + BitVec.ofNat 64 cut.1) p ((bs.drop cut.1).take cut.2)
  exact .of_ok ((kept.trans reach).trans written)

/-! ### Memory written for no thread -/

/-- The harts and the stashes are as they were. -/
def StashKept (s t : State) : Prop := t.harts = s.harts ∧ t.ms.stash = s.ms.stash

theorem storeHome_stashKept (s : State) (sm : Option Nat) (pa : Nat) (bs : List Byte) : StashKept s (storeHome s sm pa bs) := by
  rw [StashKept, storeHome_frame]
  exact ⟨rfl, rfl⟩

theorem engPoison_stashKept (s : State) (pa : Nat) (sm : Option Nat) (nc : Bool) (holder : Nat) (rm : Bool) :
    StashKept s (engPoison s (.mem pa sm nc holder rm)).1 := by
  have kept := storeHome_stashKept s sm (lineOf pa * 64) (leBytes 64 poisonBlock.toNat)
  unfold engPoison
  dsimp only
  split <;> exact kept

theorem engWriteLine_stashKept (w : EngWrote) (va : Word) (pa : Nat) (bs : EngBytes) :
    StashKept w.st (engWriteLine w none none va (.mem pa none false 0 false) bs).st := by
  unfold engWriteLine
  dsimp only
  split
  · exact engPoison_stashKept ..
  · exact storeHome_stashKept ..

end Sys2Proof.Machine
end

section
/-! SUPPORT. Connections set going (R183, R201): what a connection's commands do leaves the other connections, and of its own its count of
refusals; events on their way stay so. -/

namespace Sys2Proof.Machine
open Sys2Proof.Safety

/-! ### One connection served -/

/-- What the commands of connection c change: of the connections c alone, its count of refusals kept; what is on its way stays so. -/
structure Serves (c : Nat) (s t : State) : Prop where
  others : ∀ k, k ≠ c → t.conn k = s.conn k
  refused : (t.conn c).refused = (s.conn c).refused
  flight : ∀ e, e ∈ s.flight → e ∈ t.flight

theorem State.conn_setConn_ne (s : State) {c k : Nat} (a : Conn) (ne : k ≠ c) : (s.setConn c a).conn k = s.conn k := by
  simp [State.conn, State.setConn, Table.get_set_ne _ _ _ ne]

theorem conn_congr {s t : State} (e : t.fab.conns = s.fab.conns) (k : Nat) : t.conn k = s.conn k := by rw [State.conn, e]; rfl

namespace Serves

variable {c : Nat} {s t u : State}

theorem refl (c : Nat) (s : State) : Serves c s s := ⟨fun _ _ => rfl, rfl, fun _ e => e⟩

theorem trans (a : Serves c s t) (b : Serves c t u) : Serves c s u :=
  ⟨fun k ne => (b.others k ne).trans (a.others k ne), b.refused.trans a.refused, fun e m => b.flight e (a.flight e m)⟩

theorem after (b : Serves c t u) (a : Serves c s t) : Serves c s u := a.trans b

theorem ite {p : Prop} [Decidable p] (a : Serves c s t) (b : Serves c s u) : Serves c s (if p then t else u) := by
  split
  · exact a
  · exact b

theorem of_conns (conns : t.fab.conns = s.fab.conns) (flight : t.flight = s.flight) : Serves c s t :=
  ⟨fun k _ => conn_congr conns k, by rw [conn_congr conns], fun _ m => by rw [flight]; exact m⟩

theorem of_fabric (kept : FabricKept s t) : Serves c s t := .of_conns (congrArg _ kept.fab) kept.flight

theorem fly (s : State) (e : Event) : Serves c s (s.fly e) := ⟨fun _ _ => rfl, rfl, fun _ m => List.mem_append_left _ m⟩

theorem setConn {a : Conn} (refused : a.refused = (s.conn c).refused) : Serves c s (s.setConn c a) :=
  ⟨fun _ ne => State.conn_setConn_ne s a ne, by rw [State.conn_setConn, refused], fun _ m => m⟩

theorem foldl_fst {α β : Type} {f : State × β → α → State × β} (hf : ∀ p a, Serves c p.1 (f p a).1) (l : List α) (p : State × β) :
    Serves c p.1 (l.foldl f p).1 := by
  induction l generalizing p with
  | nil => exact .refl c _
  | cons a l ih => exact (hf p a).trans (ih (f p a))

theorem of_fst {α : Type} {p : State × α} {a : α} (e : p = (t, a)) (served : Serves c s p.1) : Serves c s t := by
  subst e
  exact served

end Serves

/-! ### What a command does (R181, R182, R184) -/

theorem transmit_conns (s : State) (node flow seq : Nat) (p : Packet) :
    (transmit s node flow seq p).fab.conns = s.fab.conns ∧ (transmit s node flow seq p).flight = s.flight := by
  unfold transmit
  split <;> exact ⟨rfl, rfl⟩

theorem connSend_serves (c : Nat) (s : State) (k : Nat) (p : Packet) : Serves c s (connSend s k p) := by
  unfold connSend emitPacket
  obtain ⟨conns, flight⟩ := transmit_conns (s.setFlow (flowConn k) _) (s.conn k).peern (flowConn k) (s.flow (flowConn k)).next p
  exact .of_conns conns flight

theorem raiseCount_refused (n : Nat) (a : Conn) : (raiseCount n a).refused = a.refused := by
  fun_induction raiseCount n a
  · rfl
  next ih => exact ih
  · rfl
  · rfl

theorem settleConn_refused (a : Conn) : (settleConn a).refused = a.refused := by
  unfold settleConn
  dsimp only
  split <;> exact raiseCount_refused ..

variable (c : Nat) (s : State)

theorem setConnCmd_serves (d : Cmd) : Serves c s (setConnCmd s c d) := .setConn rfl

theorem endConnCmd_serves (d : Cmd) (code : Nat) : Serves c s (endConnCmd s c d code) := by
  have counted : ∀ n, Serves c s (if code = 0 ∧ n ≠ 0 then countAt s d.hart d.tag evFabric n else s) := fun _ =>
    .ite (.of_fabric (.of_performed (countAt_performs ..))) (.refl c s)
  exact (((counted _).trans (.fly ..)).trans (setConnCmd_serves ..)).trans (.setConn (settleConn_refused _))

theorem localViolation_serves (d : Cmd) (va : Word) (acc : Nat) : Serves c s (localViolation s c d va acc) :=
  (endConnCmd_serves ..).after (.of_conns rfl rfl)

theorem stallConn_serves (d : Cmd) (stage : Nat) (addr : Word) (acc : Nat) : Serves c s (stallConn s c d stage addr acc) :=
  (setConnCmd_serves ..).after (.of_conns rfl rfl)

theorem putPackets_serves (d : Cmd) (bs : EngBytes) (whole : Bool) : Serves c s (putPackets s c d bs whole) :=
  Serves.foldl_fst (fun _ _ => connSend_serves ..) _ (s, d.off)

theorem forkStores_serves (d : Cmd) : Serves c s (forkStores s d) := .ite (.of_fabric (.of_performed (performOwn_performs ..))) (.refl c s)

theorem readPrefix_serves (core : Nat) (ctx : TCtx) (who : Option (Nat × BitVec 16)) (va : Word) (n : Nat) :
    Serves c s (readPrefix s core ctx who va n).1 := .of_fabric (readPrefix_fabric ..)

theorem startConnCmd_serves (d : Cmd) : Serves c s (startConnCmd s c d).1 := by
  have forked := forkStores_serves c s d
  have read core ctx who va n := forked.trans (readPrefix_serves c (forkStores s d) core ctx who va n)
  unfold startConnCmd
  split
  · exact forked.trans (endConnCmd_serves ..)
  · split
    · dsimp only
      split
      · exact (setConnCmd_serves ..).after (.ite ((putPackets_serves ..).after (read ..)) (read ..))
      · exact (stallConn_serves ..).after (.ite ((putPackets_serves ..).after (read ..)) (read ..))
      · exact (localViolation_serves ..).after (.ite ((putPackets_serves ..).after (read ..)) (read ..))
    · exact (setConnCmd_serves ..).after ((connSend_serves ..).after forked)
    · dsimp only
      generalize retried : (if decide ((s.conn c).backoff ≠ 0) = true then
        (forkStores s d).setConn c { s.conn c with refusedRef := d.id } else forkStores s d) = u
      have again : Serves c s u := by
        subst retried
        exact .ite (.trans forked (.setConn (by rw [forked.refused]))) forked
      split
      · exact (endConnCmd_serves ..).after forked
      · split
        · exact (setConnCmd_serves ..).after ((connSend_serves ..).after again)
        · split
          · exact (setConnCmd_serves ..).after ((connSend_serves ..).after ((readPrefix_serves ..).after again))
          · exact (stallConn_serves ..).after ((readPrefix_serves ..).after again)
          · exact (localViolation_serves ..).after ((readPrefix_serves ..).after again)

/-! ### The queues of all connections (R183) -/

theorem pumpGo_serves (q : List ConnItem) : Serves c s (pumpGo s c q) := by
  fun_induction pumpGo s c q
  · exact .refl c _
  next ih => exact ih.after (.setConn (settleConn_refused _))
  · exact .refl c _
  next ih => exact ih
  · exact .refl c _
  next ih => exact ih
  next started => exact .of_fst started (startConnCmd_serves ..)
  next started ih => exact ih.after (.of_fst started (startConnCmd_serves ..))

/-- What setting the connections going keeps: a connection whose queue is empty, the count of refusals of each, what is on its way. -/
structure Pumped (s t : State) : Prop where
  idle : ∀ k, (s.conn k).queue = [] → t.conn k = s.conn k
  refused : ∀ k, (t.conn k).refused = (s.conn k).refused
  flight : ∀ e, e ∈ s.flight → e ∈ t.flight

theorem Pumped.refl : Pumped s s := ⟨fun _ _ => rfl, fun _ => rfl, fun _ m => m⟩

theorem Pumped.trans {s t u : State} (a : Pumped s t) (b : Pumped t u) : Pumped s u :=
  ⟨fun k empty => (b.idle k (by rw [a.idle k empty]; exact empty)).trans (a.idle k empty),
    fun k => (b.refused k).trans (a.refused k), fun e m => b.flight e (a.flight e m)⟩

theorem pumpConn_pumped : Pumped s (pumpGo s c (s.conn c).queue) := by
  have served := pumpGo_serves c s (s.conn c).queue
  refine ⟨fun k empty => ?_, fun k => ?_, served.flight⟩ <;> by_cases e : k = c
  · subst e
    rw [empty]
    rfl
  · exact served.others k e
  · subst e
    exact served.refused
  · rw [served.others k e]

theorem pumpRound_pumped : Pumped s (pumpRound s) := by
  unfold pumpRound
  generalize Table.keys s.fab.conns = keys
  induction keys generalizing s with
  | nil => exact .refl s
  | cons k keys ih => exact (pumpConn_pumped k s).trans (ih _)

theorem pumpRounds_pumped (n : Nat) : Pumped s (pumpRounds n s) := by
  induction n generalizing s with
  | zero => exact .refl s
  | succ n ih => exact (pumpRound_pumped s).trans (ih _)

theorem pumpAll_pumped : Pumped s (pumpAll s) := pumpRounds_pumped s _

end Sys2Proof.Machine
end

section
/-! SUPPORT. Connections written, emptied and set going (R183, R195), and receives that land (R199 to R202). -/

namespace Sys2Proof.Machine
open Sys2Proof.Safety

/-! ### A connection that loses what it holds (R183, R195) -/

theorem fabricCode_wide : (BitVec.ofNat 64 cFabric).setWidth 512 = 0x16 := by simp [cFabric]

/-- R195: the token of a command that ends with its connection. -/
def fabricToken (d : Cmd) : Event := .putArrival ⟨d.loc, false, 0x16, some sigAll, 0, none, true, d.flags, true, none⟩

/-- R183: an entry that its connection drops: a command that has not ended ends. -/
def dropItem (s : State) : ConnItem → State
  | .cmd d => if d.done.isSome then s else s.fly (fabricToken d)
  | .chain _ _ => s

/-- R195: a connection that becomes b, its queue dropped and its commands counted, before their tokens are written. -/
def emptied (s : State) (c : Nat) (b : Conn) : State :=
  let done := (s.conn c).queue.filter fun e => match e with | .cmd _ => true | .chain _ _ => false
  let s := s.setConn c { b with
    count := b.count + BitVec.ofNat 64 done.length, queue := [], backoff := 0, wait := 0, inbox := [], inHeld := none, parts := [] }
  s.setFlow (flowConn c) { s.flow (flowConn c) with kept := [], sentAt := [] }

theorem emptyConn_eq (s : State) (c : Nat) (b : Conn) :
    emptyConn s c b = pumpAll ((s.conn c).queue.foldl dropItem (emptied s c b)) := by
  have step : ∀ (s : State) e, dropItem s e = (match e with
      | .cmd d => if d.done.isSome then s else tokenPut s d.loc (BitVec.ofNat 64 cFabric) sigAll d.flags true
      | .chain _ _ => s) := fun s e => by
    cases e with
    | cmd d => rw [dropItem, fabricToken, ← fabricCode_wide]; rfl
    | chain k n => rfl
  rw [funext fun s => funext (step s)]
  rfl

theorem dropItem_grows (s : State) (e : ConnItem) : FlightGrows s (dropItem s e) := by
  cases e with
  | cmd d =>
    rw [dropItem]
    cases d.done with
    | none => exact ⟨_, rfl⟩
    | some code => exact .refl s
  | chain k n => exact .refl s

theorem FlightGrows.mem {s t : State} (grows : FlightGrows s t) {e : Event} (m : e ∈ s.flight) : e ∈ t.flight := by
  obtain ⟨f, rfl⟩ := grows
  exact List.mem_append_left f m

theorem dropItems_token {q : List ConnItem} {d : Cmd} (held : .cmd d ∈ q) (running : d.done = none) (s : State) :
    fabricToken d ∈ (q.foldl dropItem s).flight := by
  induction q generalizing s with
  | nil => exact absurd held List.not_mem_nil
  | cons e q ih =>
    obtain rfl | later := List.mem_cons.mp held
    · refine (flightGrows_foldl dropItem_grows q _).mem ?_
      rw [dropItem, running]
      exact List.mem_append_right _ (List.mem_singleton_self _)
    · exact ih later _

theorem emptied_conn (s : State) (c : Nat) (b : Conn) : ∃ n, (emptied s c b).conn c =
    { b with count := n, queue := [], backoff := 0, wait := 0, inbox := [], inHeld := none, parts := [] } :=
  ⟨_, State.conn_setConn s c _⟩

/-- What a connection is once it has become b with nothing left in its queue, and what its commands meet. -/
structure Emptied (s t : State) (c : Nat) (b : Conn) : Prop where
  state : (t.conn c).state = b.state
  queue : (t.conn c).queue = []
  peern : (t.conn c).peern = b.peern
  pconn : (t.conn c).pconn = b.pconn
  part : (t.conn c).part = b.part
  vmid : (t.conn c).vmid = b.vmid
  asid : (t.conn c).asid = b.asid
  tokens : ∀ d, .cmd d ∈ (s.conn c).queue → d.done = none → fabricToken d ∈ t.flight

theorem emptyConn_emptied (s : State) (c : Nat) (b : Conn) : Emptied s (emptyConn s c b) c b := by
  rw [emptyConn_eq]
  obtain ⟨n, here⟩ := emptied_conn s c b
  have dropped := flightGrows_foldl dropItem_grows (s.conn c).queue (emptied s c b)
  have tokens d held running := dropItems_token (q := (s.conn c).queue) (d := d) held running (emptied s c b)
  generalize (s.conn c).queue.foldl dropItem (emptied s c b) = u at dropped tokens
  have kept : u.conn c = (emptied s c b).conn c := by obtain ⟨f, rfl⟩ := dropped; rfl
  have pumped := pumpAll_pumped u
  have final := (pumped.idle c (by rw [kept, here])).trans (kept.trans here)
  refine ⟨?_, ?_, ?_, ?_, ?_, ?_, ?_, fun d held running => pumped.flight _ (tokens d held running)⟩ <;> rw [final]

/-! ### A connection written (R195) -/

/-- R194: a connection with the fields of a word 0. -/
def connWritten (a : Conn) (v : Word) : Conn := { a with
  peern := fieldOf v 61 52, pconn := fieldOf v 51 40, part := fieldOf v 39 34, vmid := v.extractLsb' 28 6, asid := v.extractLsb' 16 12 }

/-- R195: whether a write of a connection's word 0 acts. -/
def writesConn (s : State) (w : Writer) (a : Conn) (v : Word) : Bool := modeAtLeast w.mode .s && mayWriteConn s w a v

theorem writesConn_iff (s : State) (w : Writer) (a : Conn) (v : Word) : writesConn s w a v = true ↔
    modeAtLeast w.mode .h = true ∨ (w.mode = .s ∧
      if a.state = 0 then partOf s w.core = some (fieldOf v 39 34) else partOf s w.core = some a.part ∧ fieldOf v 39 34 = a.part) := by
  have owner : (if a.state = 0 then partOf s w.core == some (fieldOf v 39 34)
      else partOf s w.core == some a.part && fieldOf v 39 34 == a.part) = true ↔
      if a.state = 0 then partOf s w.core = some (fieldOf v 39 34) else partOf s w.core = some a.part ∧ fieldOf v 39 34 = a.part := by
    split <;> simp
  rw [writesConn, mayWriteConn, Bool.and_eq_true, Bool.or_eq_true, owner]
  cases w.mode <;> simp [modeAtLeast, Mode.code]

section
variable {s : State} {w : Writer} {c : Nat} {v : Word}

theorem writeConn_ignored (no : ¬ writesConn s w (s.conn c) v = true) : writeConn s w c v = s := by
  rw [writesConn, Bool.and_eq_true, not_and_or, Bool.not_eq_true, Bool.not_eq_true] at no
  unfold writeConn
  exact if_pos (by obtain no | no := no <;> simp [no])

/-- R195: an entry that opens. -/
def opened (b : Conn) : Conn := { b with
  state := 1, count := 0, refused := 0, resent := 0, queue := [], backoff := 0, wait := 0, inbox := [], inHeld := none
  inCode := (0, 0), inFlags := 0, inRefused := false, parts := [] }

/-- R195: a write of who may write, by the STATE it writes and the one it meets. -/
theorem writeConn_may (may : writesConn s w (s.conn c) v = true) :
    let a := s.conn c
    let b := connWritten a v
    writeConn s w c v =
      if fieldOf v 63 62 = 1 then
        if a.state = 0 then
          if s.fab.lost.contains b.peern then loseConn (s.setConn c (opened b)) c else s.setConn c (opened b)
        else s
      else if fieldOf v 63 62 = 0 then emptyConn s c { b with state := 0 }
      else if a.state = 2 then s.setConn c { b with state := 2 }
      else if fieldOf v 63 62 = 2 then emptyConn s c { b with state := 2 }
      else s.setConn c (settleConn { b with state := 3 }) := by
  obtain ⟨mode, owner⟩ := Bool.and_eq_true_iff.mp may
  unfold writeConn
  dsimp only
  rw [mode, owner]
  generalize fieldOf v 63 62 = st
  generalize before : (s.conn c).state = old
  split
  · contradiction
  · split
    · rfl
    next busy => exact (if_neg busy).symm
    · rfl
    next open_ shut => rw [if_neg open_, if_neg shut]; rfl
    next lost => rw [if_neg (by decide), if_neg (by decide), if_neg lost]; rfl
    next notLost open_ shut ends _ => rw [if_neg open_, if_neg shut, if_neg notLost, if_neg ends]; rfl

end

/-- R183: no command leaves a queue whose first one has not ended. -/
theorem raiseCount_running {a : Conn} (running : ∀ d l, a.queue = .cmd d :: l → d.done = none) (n : Nat) : raiseCount n a = a := by
  cases n with
  | zero => rfl
  | succ n =>
    rw [raiseCount]
    split
    next d l queue => rw [running d l queue]; rfl
    · rfl

theorem settleConn_running {a : Conn} (running : ∀ d l, a.queue = .cmd d :: l → d.done = none) (closing : a.state = 3) :
    settleConn a = { a with state := if a.queue = [] then 0 else 3 } := by
  rw [settleConn, raiseCount_running running]
  by_cases empty : a.queue = []
  · rw [if_pos empty]
    exact if_pos ⟨closing, List.isEmpty_iff.mpr empty⟩
  · rw [if_neg empty, ← closing]
    exact if_neg fun both => empty (List.isEmpty_iff.mp both.2)

/-! ### A command that completes (R183) -/

theorem endConnCmd_token (s : State) (c : Nat) (d : Cmd) (code : Nat) :
    .putArrival ⟨d.loc, false, (BitVec.ofNat 64 code).setWidth 512, some sigAll, 0, none, true, d.flags, true, none⟩ ∈
      (endConnCmd s c d code).flight := by
  unfold endConnCmd
  exact List.mem_append_right _ (List.mem_singleton_self _)

theorem setWidth_code (code : Nat) : (BitVec.ofNat 64 code).setWidth 512 = BitVec.ofNat 512 (code % 2 ^ 64) :=
  BitVec.eq_of_toNat_eq (by rw [BitVec.toNat_setWidth, BitVec.toNat_ofNat, BitVec.toNat_ofNat])

theorem commandComplete_put {s : State} {c id code : Nat} {data : EngBytes} {flags : Sticky} {d : Cmd} {x y : Reg}
    (found : connCmd s c id = some d) (running : d.done = none) (started : d.started = true) (put : d.instr = some (.nput x y)) :
    commandComplete s c id code data flags = pumpAll (endConnCmd s c { d with flags := d.flags ||| flags } code) := by
  rw [commandComplete, found]
  dsimp only
  rw [if_neg (by rw [running, started]; decide)]
  split
  next get => exact absurd (put.symm.trans get) nofun
  · rfl

/-! ### Receives that land (R199 to R202) -/

/-- The posted receives, the unexpected queues and the pulls are as they were. -/
structure YarrowKept (s t : State) : Prop where
  posted : t.fab.posted = s.fab.posted
  unexpected : t.fab.unexpected = s.fab.unexpected
  pulls : t.fab.pulls = s.fab.pulls

namespace YarrowKept

variable {s t u : State}

theorem refl (s : State) : YarrowKept s s := ⟨rfl, rfl, rfl⟩

theorem trans (a : YarrowKept s t) (b : YarrowKept t u) : YarrowKept s u :=
  ⟨b.posted.trans a.posted, b.unexpected.trans a.unexpected, b.pulls.trans a.pulls⟩

theorem of_fabric (kept : FabricKept s t) : YarrowKept s t := ⟨by rw [kept.fab], by rw [kept.fab], by rw [kept.fab]⟩

theorem postedOf (kept : YarrowKept s t) (p : Nat) : t.postedOf p = s.postedOf p := by rw [State.postedOf, kept.posted]; rfl

theorem unexpOf (kept : YarrowKept s t) (p : Nat) : t.unexpOf p = s.unexpOf p := by rw [State.unexpOf, kept.unexpected]; rfl

end YarrowKept

theorem connSend_eq (s : State) (c : Nat) (p : Packet) : connSend s c p = { s with fab := (connSend s c p).fab } := emitPacket_eq ..

theorem connSend_yarrow (s : State) (c : Nat) (p : Packet) : YarrowKept s (connSend s c p) := by
  unfold connSend emitPacket transmit
  dsimp only
  split <;> exact ⟨rfl, rfl, rfl⟩

/-- R200, R202: a landing that takes no entry of an unexpected queue leaves the tenants' lists. -/
theorem endLandingRecv_yarrow {l : Landing} (direct : l.entry = none) (s : State) (status code : Nat) :
    YarrowKept s (endLandingRecv s l status code) := by
  have removed : YarrowKept s { s with fab := { s.fab with landings := s.fab.landings.filter fun k => k.recv.id != l.recv.id } } :=
    ⟨rfl, rfl, rfl⟩
  unfold endLandingRecv
  dsimp only
  rw [direct]
  cases l.answer with
  | none => exact ⟨rfl, rfl, rfl⟩
  | some answer => exact (removed.trans (connSend_yarrow ..)).trans ⟨rfl, rfl, rfl⟩

theorem landRecv_yarrow (n : Nat) (s : State) (l : Landing) (direct : l.entry = none) : YarrowKept s (landRecv n s l) := by
  fun_induction landRecv n s l
  · exact .refl _
  · exact endLandingRecv_yarrow direct ..
  · exact ⟨rfl, rfl, rfl⟩
  · exact ⟨rfl, rfl, rfl⟩
  · exact endLandingRecv_yarrow direct ..
  next written ih =>
    have kept := Gives.of_eq written (engWriteFor_fabric ..)
    exact (YarrowKept.of_fabric kept).trans (ih direct)

theorem startLand_yarrow (s : State) (r : Recv) (y : YSend) (data : EngBytes) (broken : Bool) (answer : Option (Nat × Nat)) :
    YarrowKept s (startLand s r y data broken answer none) := by
  unfold startLand
  dsimp only
  generalize moved : ({ s with fab := _ } : State) = u
  have landing : YarrowKept s u := by subst moved; exact ⟨rfl, rfl, rfl⟩
  exact landing.trans (landRecv_yarrow _ _ _ rfl)

/-- R200: a send that meets a posted receive at its arrival. -/
theorem matched_yarrow (s : State) (r : Recv) (y : YSend) :
    (matched s r y true).fab.posted = s.fab.posted ∧ (matched s r y true).fab.unexpected = s.fab.unexpected := by
  unfold matched
  split
  · exact ⟨(startLand_yarrow ..).posted, (startLand_yarrow ..).unexpected⟩
  · exact ⟨(connSend_yarrow ..).posted, (connSend_yarrow ..).unexpected⟩

theorem foldl_keeps {α : Type} {f : State → α → State} (hf : ∀ s a, FabricKept s (f s a) ∧ StashKept s (f s a)) (l : List α)
    (s : State) : FabricKept s (l.foldl f s) ∧ StashKept s (l.foldl f s) := by
  induction l generalizing s with
  | nil => exact ⟨.refl s, rfl, rfl⟩
  | cons a l ih =>
    obtain ⟨⟨fabric, harts, stash⟩, fabric', harts', stash'⟩ := And.intro (hf s a) (ih (f s a))
    exact ⟨fabric.trans fabric', harts'.trans harts, stash'.trans stash⟩

theorem writeUq_keeps (s : State) (p : Nat) : FabricKept s (writeUq s p) ∧ StashKept s (writeUq s p) := by
  unfold writeUq
  refine foldl_keeps (fun u cut => ?_) _ s
  split
  · exact ⟨engWriteLine_fabric ⟨u, 0#3, .empty⟩ .., engWriteLine_stashKept ⟨u, 0#3, .empty⟩ ..⟩
  · exact ⟨.refl u, rfl, rfl⟩

/-- R198, R200: what a change of a tenant's unexpected queue leaves. -/
theorem setUnexp_keeps (s : State) (p : Nat) (l : List YSend) : StashKept s (s.setUnexp p l) ∧
    (s.setUnexp p l).fab = { s.fab with unexpected := Table.set s.fab.unexpected p l } ∧ (s.setUnexp p l).flight = s.flight := by
  obtain ⟨⟨fab, flight⟩, stash⟩ := writeUq_keeps { s with fab := { s.fab with unexpected := Table.set s.fab.unexpected p l } } p
  exact ⟨stash, fab, flight⟩

end Sys2Proof.Machine
end

section
/-! SUPPORT. Sends taken, queued and refused (R199 to R202), pulls that end, assignment queues written (R203). -/

namespace Sys2Proof.Machine
open Sys2Proof.Safety

/-! ### A send that arrives, and a pull that ends (R199 to R202) -/

theorem connSend_conn (s : State) (c : Nat) (p : Packet) (k : Nat) : (connSend s c p).conn k = s.conn k := by
  unfold connSend emitPacket
  exact conn_congr (transmit_conns (s.setFlow (flowConn c) _) ..).1 k

theorem setConn_yarrow (s : State) (c : Nat) (a : Conn) : YarrowKept s (s.setConn c a) := ⟨rfl, rfl, rfl⟩

/-- R199: the engine with none of a connection's sends refused. -/
def hearing (s : State) (c : Nat) : State := s.setConn c { s.conn c with inRefused := false }

theorem hearing_yarrow (s : State) (c : Nat) : YarrowKept s (hearing s c) := setConn_yarrow ..

theorem StashKept.trans {s t u : State} (a : StashKept s t) (b : StashKept t u) : StashKept s u := ⟨b.1.trans a.1, b.2.trans a.2⟩

theorem connSend_stashKept (s : State) (c : Nat) (p : Packet) : StashKept s (connSend s c p) := by
  rw [connSend_eq]
  exact ⟨rfl, rfl⟩

section
variable {s : State} {y : YSend}

/-- A send that waits behind none, by the receive it meets and the room of the queue. -/
theorem sendArrives_heard (heard : sendWaits s y = false) {p : Nat} (tenant : (s.conn y.conn).part = p) :
    sendArrives s y = match (s.postedOf p).find? (yMatch y) with
      | some r => matched ((hearing s y.conn).setPosted p ((s.postedOf p).filter fun k => k.id != r.id)) r y true
      | none =>
        if uqUsed s p + unexpBytes y ≤ uqSize (s.ytenant p) then
          connSend ((hearing s y.conn).setUnexp p (s.unexpOf p ++ [y])) y.conn (.held (s.conn y.conn).pconn y.ref)
        else
          connSend ((hearing s y.conn).setConn y.conn { (hearing s y.conn).conn y.conn with inRefused := true }) y.conn
            (.refuse (s.conn y.conn).pconn y.ref) := by
  subst tenant
  unfold sendArrives
  dsimp only
  rw [heard]
  rfl

theorem sendArrives_waits (waits : sendWaits s y = true) : sendArrives s y = s := by
  unfold sendArrives
  exact if_pos waits

variable (heard : sendWaits s y = false) {p : Nat} (tenant : (s.conn y.conn).part = p)
include heard tenant

theorem sendArrives_queued (unmet : (s.postedOf p).find? (yMatch y) = none)
    (room : uqUsed s p + unexpBytes y ≤ uqSize (s.ytenant p)) :
    (sendArrives s y).unexpOf p = s.unexpOf p ++ [y] ∧ (sendArrives s y).postedOf p = s.postedOf p ∧
      StashKept s (sendArrives s y) := by
  rw [sendArrives_heard heard tenant, unmet]
  dsimp only
  rw [if_pos room]
  have heard := hearing_yarrow s y.conn
  have quiet : StashKept s (hearing s y.conn) := ⟨rfl, rfl⟩
  generalize hearing s y.conn = h at heard quiet
  obtain ⟨stash, fab, -⟩ := setUnexp_keeps h p (s.unexpOf p ++ [y])
  generalize h.setUnexp p (s.unexpOf p ++ [y]) = u at stash fab
  have sent := connSend_yarrow u y.conn (.held (s.conn y.conn).pconn y.ref)
  refine ⟨(sent.unexpOf p).trans ?_, (sent.postedOf p).trans ?_, quiet.trans (stash.trans (connSend_stashKept ..))⟩
  · rw [State.unexpOf, fab]
    exact Table.get_set_self ..
  · rw [← heard.postedOf, State.postedOf, fab]
    rfl

theorem sendArrives_refused (unmet : (s.postedOf p).find? (yMatch y) = none)
    (full : ¬ uqUsed s p + unexpBytes y ≤ uqSize (s.ytenant p)) :
    YarrowKept s (sendArrives s y) ∧ ((sendArrives s y).conn y.conn).inRefused = true ∧ (sendArrives s y).ms = s.ms := by
  rw [sendArrives_heard heard tenant, unmet]
  dsimp only
  rw [if_neg full]
  refine ⟨(hearing_yarrow s y.conn).trans ((setConn_yarrow ..).trans (connSend_yarrow ..)), ?_, ?_⟩
  · rw [connSend_conn, State.conn_setConn]
  · rw [connSend_eq]
    rfl

theorem sendArrives_meets {x : Recv} (meets : (s.postedOf p).find? (yMatch y) = some x) :
    (sendArrives s y).postedOf p = (s.postedOf p).filter (fun z => z.id != x.id) ∧ (sendArrives s y).unexpOf p = s.unexpOf p := by
  rw [sendArrives_heard heard tenant, meets]
  dsimp only
  have heard := hearing_yarrow s y.conn
  generalize hearing s y.conn = h at heard
  obtain ⟨posted, unexpected⟩ := matched_yarrow (h.setPosted p ((s.postedOf p).filter fun k => k.id != x.id)) x y
  constructor
  · rw [State.postedOf, posted]
    exact Table.get_set_self ..
  · rw [State.unexpOf, unexpected, ← heard.unexpOf]
    rfl

end

/-- R200, R202: a pull that ends leaves the table of pulls, and its entry the unexpected queue. -/
theorem pullEnds_ends {s : State} {c ref k : Nat} {ok : Bool} {data : EngBytes} {x : Recv} {y : YSend}
    (found : List.find? (fun e : Nat × Recv × YSend => e.2.2.conn == c && e.2.2.ref == ref) s.fab.pulls = some (k, x, y)) :
    Table.find? (pullEnds s c ref ok data).fab.pulls k = none ∧
      (pullEnds s c ref ok data).unexpOf x.part = (s.unexpOf x.part).erase y := by
  unfold pullEnds
  rw [found]
  dsimp only
  generalize told : (if ok = true then connSend _ c _ else _) = u
  have sent : YarrowKept { s with fab := { s.fab with pulls := Table.erase s.fab.pulls k } } u := by
    subst told
    split
    · exact connSend_yarrow ..
    · exact .refl _
  obtain ⟨-, fab, -⟩ := setUnexp_keeps u x.part ((u.unexpOf x.part).erase y)
  have landed := startLand_yarrow (freeEntry u x y) x y data (!ok) none
  constructor
  · rw [landed.pulls, freeEntry, fab]
    dsimp only
    rw [sent.pulls]
    exact Table.find?_erase_self ..
  · rw [landed.unexpOf, freeEntry, State.unexpOf, fab]
    dsimp only
    rw [Table.get_set_self, sent.unexpOf]
    rfl

/-! ### Assignment queues written (R203) -/

theorem AssignQ.rewrite_eq (a : AssignQ) (count : BitVec 32) : a.rewrite count = { a with
    count := count, next := 0, done := 0, marks := []
    handed := if a.done.toNat < a.count.toNat then max a.next.toNat a.handed else 0
    past := if a.done.toNat < a.count.toNat then a.marks ++ a.past.filter (a.next.toNat ≤ ·) else [] } := by
  unfold AssignQ.rewrite
  dsimp only
  split <;> rfl

/-- R203: whether a writer may set the COUNT and the CLOC of a queue of tenant p. -/
def assignWriter (s : State) (w : Writer) (p : Nat) : Bool :=
  modeAtLeast w.mode .h || (modeAtLeast w.mode .s && partOf s w.core == some p)

theorem assignWriter_iff (s : State) (w : Writer) (p : Nat) : assignWriter s w p = true ↔
    modeAtLeast w.mode .h = true ∨ (w.mode = .s ∧ partOf s w.core = some p) := by
  rw [assignWriter, Bool.or_eq_true, Bool.and_eq_true, beq_iff_eq]
  cases w.mode <;> simp [modeAtLeast, Mode.code]

section
variable (s : State) (w : Writer) (die q : Nat) (v : Word)

theorem writeAssign_count : writeAssign s w die q 0 v =
    if assignWriter s w (s.assignq die q).part then s.setAssignq die q ((s.assignq die q).rewrite (v.setWidth 32)) else s := rfl

theorem writeAssign_part : writeAssign s w die q 1 v =
    if modeAtLeast w.mode .h then s.setAssignq die q { s.assignq die q with part := fieldOf v 37 32 } else s := rfl

theorem writeAssign_cloc : writeAssign s w die q 2 v =
    if assignWriter s w (s.assignq die q).part then s.setAssignq die q { s.assignq die q with cloc := v } else s := rfl

theorem writeAssign_other (k : Nat) : writeAssign s w die q (k + 3) v = s := rfl

end

end Sys2Proof.Machine
end

section
/-! SUPPORT. The cases of a connection written (R195), the events of connections, Yarrow and assignment queues, and O55. -/

namespace Sys2Proof.Machine
open Sys2Proof.Safety

section
variable {s : State} {w : Writer} {c : Nat} {v : Word} (may : writesConn s w (s.conn c) v = true)
include may

theorem writeConn_opens (free : (s.conn c).state = 0) (state : fieldOf v 63 62 = 1)
    (alive : s.fab.lost.contains (fieldOf v 61 52) = false) :
    writeConn s w c v = s.setConn c (opened (connWritten (s.conn c) v)) := by
  rw [writeConn_may may, if_pos state, if_pos free]
  exact if_neg (by rw [connWritten, alive]; decide)

theorem writeConn_opensLost (free : (s.conn c).state = 0) (state : fieldOf v 63 62 = 1)
    (lost : s.fab.lost.contains (fieldOf v 61 52) = true) :
    ((writeConn s w c v).conn c).state = 2 ∧ ((writeConn s w c v).conn c).queue = [] := by
  rw [writeConn_may may, if_pos state, if_pos free, if_pos (show s.fab.lost.contains (connWritten (s.conn c) v).peern = true from lost),
    loseConn]
  have gone := emptyConn_emptied (s.setConn c (opened (connWritten (s.conn c) v))) c
    { (s.setConn c (opened (connWritten (s.conn c) v))).conn c with state := 2 }
  exact ⟨gone.state, gone.queue⟩

theorem writeConn_busy (busy : (s.conn c).state ≠ 0) (state : fieldOf v 63 62 = 1) : writeConn s w c v = s := by
  rw [writeConn_may may, if_pos state, if_neg busy]

theorem writeConn_frees (state : fieldOf v 63 62 = 0) :
    Emptied s (writeConn s w c v) c { connWritten (s.conn c) v with state := 0 } := by
  rw [writeConn_may may, if_neg (by rw [state]; decide), if_pos state]
  exact emptyConn_emptied ..

theorem writeConn_loses (live : (s.conn c).state ≠ 2) (state : fieldOf v 63 62 = 2) :
    Emptied s (writeConn s w c v) c { connWritten (s.conn c) v with state := 2 } := by
  rw [writeConn_may may, if_neg (by rw [state]; decide), if_neg (by rw [state]; decide), if_neg live, if_pos state]
  exact emptyConn_emptied ..

theorem writeConn_lost (lost : (s.conn c).state = 2) (state : fieldOf v 63 62 = 2 ∨ fieldOf v 63 62 = 3) :
    writeConn s w c v = s.setConn c { connWritten (s.conn c) v with state := 2 } := by
  rw [writeConn_may may, if_neg (by omega), if_neg (by omega), if_pos lost]

theorem writeConn_closes (live : (s.conn c).state ≠ 2) (state : fieldOf v 63 62 = 3)
    (running : ∀ d l, (s.conn c).queue = .cmd d :: l → d.done = none) :
    writeConn s w c v = s.setConn c { connWritten (s.conn c) v with state := if (s.conn c).queue = [] then 0 else 3 } := by
  rw [writeConn_may may, if_neg (by rw [state]; decide), if_neg (by rw [state]; decide), if_neg live, if_neg (by rw [state]; decide)]
  exact congrArg (s.setConn c) (settleConn_running (a := { connWritten (s.conn c) v with state := 3 }) running rfl)

end

/-! ### The events (R195, R183, R199 to R201, R203) -/

section
variable {s : State} {r : List Event}

theorem exec_connectionWrite_next {w : Writer} {c : Nat} {v : Word} (h : s.flight = .connectionWrite w c v :: r) :
    exec .connectionWrite s = .next (writeConn { s with flight := r } w c v) := by
  rw [exec_connectionWrite, execConnectionWrite, h]

theorem exec_fabricCommandComplete_next {c id code : Nat} {data : EngBytes} {fl : Sticky}
    (h : s.flight = .fabricCommandComplete c id code data fl :: r) :
    exec .fabricCommandComplete s = .next (commandComplete { s with flight := r } c id code data fl) := by
  rw [exec_fabricCommandComplete, execFabricCommandComplete, h]

theorem exec_yarrowSendArrival_next {y : YSend} (h : s.flight = .yarrowSendArrival y :: r) :
    exec .yarrowSendArrival s = .next (sendArrives { s with flight := r } y) := by
  rw [exec_yarrowSendArrival, execYarrowSendArrival, h]

theorem exec_rendezvousPull_next {c ref : Nat} {ok : Bool} {data : EngBytes} (h : s.flight = .rendezvousPull c ref ok data :: r) :
    exec .rendezvousPull s = .next (pullEnds { s with flight := r } c ref ok data) := by
  rw [exec_rendezvousPull, execRendezvousPull, h]

theorem exec_nsendRetry_next {c : Nat} (h : s.flight = .nsendRetry c :: r) :
    exec .nsendRetry s = .next (retrySend { s with flight := r } c) := by
  rw [exec_nsendRetry, execNsendRetry, h]

theorem exec_assignQueueWrite_next {w : Writer} {die q k : Nat} {v : Word} (h : s.flight = .assignQueueWrite w die q k v :: r) :
    exec .assignQueueWrite s = .next (writeAssign { s with flight := r } w die q k v) := by
  rw [exec_assignQueueWrite, execAssignQueueWrite, h]

end

/-- R201: a retry leaves the count of refusals. -/
theorem retrySend_refused {s : State} {c : Nat} (waits : (s.conn c).backoff ≠ 0) :
    ((retrySend s c).conn c).refused = (s.conn c).refused := by
  unfold retrySend
  dsimp only
  rw [if_neg waits, (pumpAll_pumped _).refused, State.conn_setConn]

theorem retrySend_idle {s : State} {c : Nat} (idle : (s.conn c).backoff = 0) : retrySend s c = s := if_pos idle

/-- A connection emptied, in the fields that a write of its word 0 sets. -/
theorem Emptied.fields {s t : State} {c : Nat} {b : Conn} (e : Emptied s t c b) : (t.conn c).state = b.state ∧ (t.conn c).queue = [] ∧
    (t.conn c).peern = b.peern ∧ (t.conn c).pconn = b.pconn ∧ (t.conn c).part = b.part ∧ (t.conn c).vmid = b.vmid ∧
    (t.conn c).asid = b.asid ∧ ∀ d, .cmd d ∈ (s.conn c).queue → d.done = none → fabricToken d ∈ t.flight :=
  ⟨e.state, e.queue, e.peern, e.pconn, e.part, e.vmid, e.asid, e.tokens⟩

/-- R183: the token of a put that completes. -/
theorem commandComplete_token {s : State} {c id code : Nat} {data : EngBytes} {flags : Sticky} {d : Cmd} {x y : Reg}
    (found : connCmd s c id = some d) (running : d.done = none) (started : d.started = true) (put : d.instr = some (.nput x y)) :
    .putArrival ⟨d.loc, false, BitVec.ofNat 512 (code % 2 ^ 64), some sigAll, 0, none, true, d.flags ||| flags, true, none⟩ ∈
      (commandComplete s c id code data flags).flight := by
  rw [commandComplete_put found running started put, ← setWidth_code]
  exact (pumpAll_pumped _).flight _ (endConnCmd_token s c { d with flags := d.flags ||| flags } code)

/-- Settles O55, event by event: each is one function of the model, and its clauses are that function's cases. -/
theorem connectionEvents : Obligations.ConnectionEvents := by
  unfold Obligations.ConnectionEvents
  intro s r u
  refine ⟨fun w c v h => ?_, fun c id code data fl h => ?_, fun y h => ?_, fun c ref ok data h => ?_, fun c h => ?_,
    fun w die q k v h => ?_⟩
  · rw [exec_connectionWrite_next h]
    intro a b state may same emptied
    have allowed : may → writesConn u w (u.conn c) v = true := (writesConn_iff u w a v).mpr
    refine ⟨fun no => ?_, fun yes busy one => ?_, fun yes free one alive => ?_, fun yes free one lost => ?_, fun yes zero => ?_,
      fun yes live two => ?_, fun yes lost closing => ?_, fun yes live three running => ?_⟩
    · exact congrArg _ (writeConn_ignored fun yes => no ((writesConn_iff u w a v).mp yes))
    · exact congrArg _ (writeConn_busy (allowed yes) busy one)
    · exact ⟨_, opened b, rfl, writeConn_opens (allowed yes) free one alive, rfl, rfl, rfl, rfl, rfl, rfl, rfl, rfl, rfl, rfl⟩
    · exact ⟨_, rfl, writeConn_opensLost (allowed yes) free one lost⟩
    · exact ⟨_, rfl, (writeConn_frees (allowed yes) zero).fields⟩
    · exact ⟨_, rfl, (writeConn_loses (allowed yes) live two).fields⟩
    · exact congrArg _ (writeConn_lost (allowed yes) lost closing)
    · exact congrArg _ (writeConn_closes (allowed yes) live three running)
  · rw [exec_fabricCommandComplete_next h]
    refine ⟨fun unknown => ?_, fun d x y found running started put => ?_⟩
    · rw [commandComplete, show connCmd u c id = none from unknown]
    · exact ⟨_, rfl, commandComplete_token (s := u) found running started put⟩
  · rw [exec_yarrowSendArrival_next h]
    intro p heard
    refine ⟨fun waits => ?_, fun first unmet room => ?_, fun first unmet full => ?_, fun x first meets => ?_⟩
    · exact congrArg _ (sendArrives_waits (s := u) waits)
    · obtain ⟨unexpected, posted, harts, stash⟩ := sendArrives_queued (s := u) first rfl unmet room
      exact ⟨_, rfl, unexpected, posted, harts, stash⟩
    · obtain ⟨kept, refused, ms⟩ := sendArrives_refused (s := u) first rfl unmet full
      exact ⟨_, rfl, kept.unexpOf p, refused, ms⟩
    · exact ⟨_, rfl, sendArrives_meets (s := u) first rfl meets⟩
  · rw [exec_rendezvousPull_next h]
    refine ⟨fun unknown => ?_, fun k x y found => ?_⟩
    · rw [pullEnds]
      dsimp only
      rw [unknown]
    · exact ⟨_, rfl, pullEnds_ends (s := u) found⟩
  · rw [exec_nsendRetry_next h]
    exact ⟨fun idle => congrArg _ (retrySend_idle (s := u) idle), fun waits => ⟨_, rfl, retrySend_refused (s := u) waits⟩⟩
  · rw [exec_assignQueueWrite_next h]
    intro a high mine
    have writer : assignWriter u w a.part = true ↔ high ∨ mine := assignWriter_iff ..
    refine ⟨fun zero may => ?_, fun one may => ?_, fun two may => ?_, fun no => ?_⟩
    · subst zero
      rw [writeAssign_count]
      exact congrArg _ ((if_pos (writer.mpr may)).trans (congrArg _ (AssignQ.rewrite_eq ..)))
    · subst one
      rw [writeAssign_part]
      exact congrArg _ (if_pos may)
    · subst two
      rw [writeAssign_cloc]
      exact congrArg _ (if_pos (writer.mpr may))
    · match k with
      | 0 =>
        rw [writeAssign_count]
        exact congrArg _ (if_neg fun may => no (.inl ⟨.inl rfl, writer.mp may⟩))
      | 1 =>
        rw [writeAssign_part]
        exact congrArg _ (if_neg fun may => no (.inr ⟨rfl, may⟩))
      | 2 =>
        rw [writeAssign_cloc]
        exact congrArg _ (if_neg fun may => no (.inl ⟨.inr rfl, writer.mp may⟩))
      | k + 3 => rw [writeAssign_other]

end Sys2Proof.Machine
end

section
/-! SUPPORT. Links moved, quiesced, replayed, spared and trained (R187 to R189, R192, R317). -/

namespace Sys2Proof.Machine

theorem State.link_setLink (s : State) (k : Nat) (a : Link) : (s.setLink k a).link k = a := Table.get_set_self ..

theorem State.link_setLink_ne (s : State) {j k : Nat} (a : Link) (ne : j ≠ k) : (s.setLink k a).link j = s.link j :=
  Table.get_set_ne _ _ _ ne

theorem Link.carries_iff (a : Link) : a.carries = true ↔ a.state = 2 ∨ a.state = 3 := by
  rw [Link.carries, Bool.or_eq_true, beq_iff_eq, beq_iff_eq]

/-- R189: a link that is down. -/
def Link.down (a : Link) : Link := { a with state := 0, fails := 0, buf := [], errs := [] }

theorem linkDown_link (s : State) (k : Nat) (a : Link) : (linkDown s k a).link k = a.down := State.link_setLink ..

theorem linkDown_link_ne (s : State) {j k : Nat} (a : Link) (ne : j ≠ k) : (linkDown s k a).link j = s.link j :=
  State.link_setLink_ne s a.down ne

/-! ### Moves between two states (R189, R317) -/

section
variable {s : State} {k src dst : Nat}

theorem moveLink_moves (state : (s.link k).state = src) (known : k < 18) (running : bootStopped s = false) :
    moveLink s k src dst = s.setLink k { s.link k with state := dst, fails := 0 } :=
  if_pos ⟨state, known, by rw [running]; rfl⟩

theorem moveLink_stays (no : (s.link k).state ≠ src ∨ bootStopped s = true) : moveLink s k src dst = s := by
  refine if_neg fun ⟨state, _, running⟩ => ?_
  obtain other | stopped := no
  · exact other state
  · rw [stopped] at running
    contradiction

theorem quiesceLink_drained (empty : (s.link k).buf = []) : quiesceLink s k = moveLink s k 3 4 :=
  if_pos (List.isEmpty_iff.mpr empty)

theorem quiesceLink_stays (no : (s.link k).state ≠ 3 ∨ (s.link k).buf ≠ [] ∨ bootStopped s = true) : quiesceLink s k = s := by
  by_cases empty : (s.link k).buf = []
  · rw [quiesceLink_drained empty]
    exact moveLink_stays (no.imp id (·.resolve_left (absurd empty)))
  · exact if_neg fun drained => empty (List.isEmpty_iff.mp drained)

end

/-! ### Quiescing (R189, R323) -/

theorem kickQuiesced_grows (s : State) (k : Nat) : FlightGrows s (kickQuiesced s k) := flightGrows_flyIf ..

theorem kickQuiesced_eq (s : State) (k : Nat) : kickQuiesced s k = { s with flight := (kickQuiesced s k).flight } := by
  obtain ⟨f, grown⟩ := kickQuiesced_grows s k
  rw [grown]

theorem kickQuiesced_link (s : State) (k j : Nat) : (kickQuiesced s k).link j = s.link j := by
  rw [kickQuiesced_eq]
  rfl

/-- R189: the end of quiescing is on its way once nothing is left to acknowledge. -/
theorem linkQuiesced_mem_kick {s : State} {k : Nat} (quiescing : (s.link k).state = 3) :
    .linkQuiesced k ∈ (kickQuiesced s k).flight ↔ (s.link k).buf = [] ∨ .linkQuiesced k ∈ s.flight := by
  unfold kickQuiesced
  rw [quiescing]
  by_cases empty : (s.link k).buf = [] <;> by_cases due : .linkQuiesced k ∈ s.flight <;> simp [empty, due]

/-! ### A silent peer, replays and lanes (R187 to R189) -/

section
variable {s : State} {k : Nat}

theorem silentLink_down (heard : (s.link k).state = 1 ∨ (s.link k).state = 2) : silentLink s k = linkDown s k (s.link k) := if_pos heard

theorem silentLink_stays (no : ¬ ((s.link k).state = 1 ∨ (s.link k).state = 2)) : silentLink s k = s := if_neg no

/-- R187: a link that counts a replay. -/
def Link.replayed (a : Link) (crc fail : Bool) : Link := { a with
  replays := a.replays + 1, crcerr := if crc then a.crcerr + 1 else a.crcerr, fails := if fail then a.fails + 1 else 0 }

theorem replayLink_stays {crc fail : Bool} (no : ¬ (s.link k).carries = true) : replayLink s k crc fail = s := if_neg no

/-- R187: a replay on a link that carries flits, as the links stand after it: DEVERR is no part of them. -/
theorem replayLink_link {crc fail : Bool} (carries : (s.link k).carries = true) (j : Nat) :
    (replayLink s k crc fail).link j =
      if 16 ≤ ((s.link k).replayed crc fail).fails then (linkDown s k ((s.link k).replayed crc fail)).link j
      else (s.setLink k ((s.link k).replayed crc fail)).link j := by
  unfold replayLink
  dsimp only
  rw [if_pos carries, ← apply_ite (fun u : State => u.link j)]
  cases crc <;> rfl

/-- R187: the 16th consecutive failure is that of a flit which has failed 15 times. -/
theorem Link.replayed_fails (a : Link) (crc fail : Bool) : 16 ≤ (a.replayed crc fail).fails ↔ fail = true ∧ 15 ≤ a.fails := by
  cases fail <;> simp [Link.replayed]

theorem replayLink_replays {crc fail : Bool} (carries : (s.link k).carries = true) :
    let t := replayLink s k crc fail
    (t.link k).replays = (s.link k).replays + 1 ∧
      (t.link k).crcerr = (if crc then (s.link k).crcerr + 1 else (s.link k).crcerr) ∧
      (t.link k).state = (if fail = true ∧ 15 ≤ (s.link k).fails then 0 else (s.link k).state) ∧ ∀ j, j ≠ k → t.link j = s.link j := by
  intro t
  have links (j : Nat) := replayLink_link (crc := crc) (fail := fail) carries j
  by_cases sixteenth : fail = true ∧ 15 ≤ (s.link k).fails
  · have down (j : Nat) := (links j).trans (if_pos ((Link.replayed_fails ..).mpr sixteenth))
    have here := (down k).trans (linkDown_link ..)
    rw [if_pos sixteenth, here]
    exact ⟨rfl, rfl, rfl, fun j ne => (down j).trans (linkDown_link_ne s _ ne)⟩
  · have up (j : Nat) := (links j).trans (if_neg (mt (Link.replayed_fails ..).mp sixteenth))
    have here := (up k).trans (State.link_setLink ..)
    rw [if_neg sixteenth, here]
    exact ⟨rfl, rfl, rfl, fun j ne => (up j).trans (State.link_setLink_ne s _ ne)⟩

/-- R188: a link with a lane marked bad. -/
def Link.laneBad (a : Link) (lane : Nat) : Link := { a with
  badlanes := a.badlanes ||| (1#8 <<< lane), errs := Table.erase a.errs lane }

theorem Link.laneBad_marked (a : Link) {lane : Nat} (data : lane < 8) : (a.laneBad lane).badlanes.getLsbD lane = true := by
  simp [Link.laneBad, data]

theorem spareLane_stays {lane : Nat} (no : ¬ (s.link k).carries = true) : spareLane s k lane = s := by
  rw [Bool.not_eq_true] at no
  unfold spareLane
  simp [no]

theorem spareLane_data {lane : Nat} (data : lane < 8) (carries : (s.link k).carries = true) :
    spareLane s k lane =
      if (s.link k).spared = 15 then
        s.setLink k { (s.link k).laneBad lane with spared := lane, spares := (s.link k).spares + 1 }
      else linkDown s k ((s.link k).laneBad lane) := by
  unfold spareLane
  dsimp only
  rw [carries, decide_eq_true data]
  rfl

theorem spareLane_spare (carries : (s.link k).carries = true) (used : (s.link k).spared ≠ 15) :
    spareLane s k 8 = linkDown s k (s.link k) := by
  simp [spareLane, carries, used]

theorem spareLane_unused (unused : (s.link k).spared = 15) : spareLane s k 8 = s := by
  simp [spareLane, unused]

/-! ### Training (R189, R318, R317) -/

section
variable {ok : Bool} {peer : BitVec 10} {spared : Option (BitVec 3)}

theorem trainLink_stays (no : (s.link k).state ≠ 1 ∨ bootStopped s = true) : trainLink s k ok peer spared = s := by
  refine if_neg fun ⟨state, running⟩ => ?_
  obtain other | stopped := no
  · exact other state
  · rw [stopped] at running
    contradiction

variable (training : (s.link k).state = 1) (running : bootStopped s = false)
include training running

/-- R189, R318: what the end of training does, by whether it meets a peer of another node number. -/
theorem trainLink_training {met : Bool} (meets : (ok && peer != s.plat.node) = met) :
    ((trainLink s k ok peer spared).link k).state = (if met then 2 else 0) ∧
      (trainLink s k ok peer spared).plat.nodeLock = (if met then true else s.plat.nodeLock) ∧
      (met = true → ((trainLink s k ok peer spared).link k).peer = peer.toNat) := by
  have begins : (s.link k).state = 1 ∧ (!bootStopped s) = true := ⟨training, by rw [running]; rfl⟩
  unfold trainLink
  dsimp only
  rw [if_pos begins, meets]
  cases met with
  | true => exact ⟨congrArg Link.state (State.link_setLink ..), rfl, fun _ => congrArg Link.peer (State.link_setLink ..)⟩
  | false => exact ⟨congrArg Link.state (State.link_setLink ..), rfl, nofun⟩

end
end

/-! ### The events (R187 to R189, R323) -/

section
variable {s : State} {r : List Event} {k : Nat}

theorem exec_linkPeerSignal_next (h : s.flight = .linkPeerSignal k :: r) :
    exec .linkPeerSignal s = .next (moveLink { s with flight := r } k 0 1) := by
  rw [exec_linkPeerSignal, execLinkPeerSignal, h]

theorem exec_lnkcmdDetach_next (h : s.flight = .lnkcmdDetach k :: r) :
    exec .lnkcmdDetach s = .next (moveLink { s with flight := r } k 4 5) := by
  rw [exec_lnkcmdDetach, execLnkcmdDetach, h]

theorem exec_lnkcmdResume_next (h : s.flight = .lnkcmdResume k :: r) :
    exec .lnkcmdResume s = .next (moveLink { s with flight := r } k 4 2) := by
  rw [exec_lnkcmdResume, execLnkcmdResume, h]

theorem exec_lnkcmdReattach_next (h : s.flight = .lnkcmdReattach k :: r) :
    exec .lnkcmdReattach s = .next (moveLink { s with flight := r } k 5 1) := by
  rw [exec_lnkcmdReattach, execLnkcmdReattach, h]

theorem exec_linkQuiesced_next (h : s.flight = .linkQuiesced k :: r) :
    exec .linkQuiesced s = .next (quiesceLink { s with flight := r } k) := by
  rw [exec_linkQuiesced, execLinkQuiesced, h]

theorem exec_lnkcmdQuiesce_next (h : s.flight = .lnkcmdQuiesce k :: r) :
    exec .lnkcmdQuiesce s = .next (kickQuiesced (moveLink { s with flight := r } k 2 3) k) := by
  rw [exec_lnkcmdQuiesce, execLnkcmdQuiesce, h]

theorem exec_linkPeerSilent_next (h : s.flight = .linkPeerSilent k :: r) :
    exec .linkPeerSilent s = .next (silentLink { s with flight := r } k) := by
  rw [exec_linkPeerSilent, execLinkPeerSilent, h]

theorem exec_linkReplay_next {crc fail : Bool} (h : s.flight = .linkReplay k crc fail :: r) :
    exec .linkReplay s = .next (replayLink { s with flight := r } k crc fail) := by
  rw [exec_linkReplay, execLinkReplay, h]

theorem exec_laneSpare_next {lane : Nat} (h : s.flight = .laneSpare k lane :: r) :
    exec .laneSpare s = .next (spareLane { s with flight := r } k lane) := by
  rw [exec_laneSpare, execLaneSpare, h]

theorem exec_linkTrained_next {ok : Bool} {peer : BitVec 10} {spared : Option (BitVec 3)}
    (h : s.flight = .linkTrained k ok peer spared :: r) :
    exec .linkTrained s = .next (trainLink { s with flight := r } k ok peer spared) := by
  rw [exec_linkTrained, execLinkTrained, h]

end

end Sys2Proof.Machine
end

section
/-! SUPPORT. Packets received and resent (R191, R317), elements removed from the routing tables (R192). -/

namespace Sys2Proof.Machine

theorem State.flow_setFlow (s : State) (f : Nat) (a : Flow) : (s.setFlow f a).flow f = a := Table.get_set_self ..

/-! ### A packet on a path (R187, R191) -/

theorem transmit_eq (s : State) (node flow seq : Nat) (p : Packet) :
    transmit s node flow seq p = { s with fab := (transmit s node flow seq p).fab } := by
  unfold transmit
  split <;> rfl

theorem transmit_flow (s : State) (node flow seq : Nat) (p : Packet) (f : Nat) : (transmit s node flow seq p).flow f = s.flow f := by
  unfold transmit
  split <;> rfl

theorem transmit_sent {s : State} {node j : Nat} {p : Packet} (path : pathFor s node (packetFlits p) = some j) (flow seq : Nat) :
    (transmit s node flow seq p).fab.sent = (node, flow, seq, p) :: s.fab.sent := by
  rw [transmit, path]
  rfl

theorem pathFor_setFlow (s : State) (f : Nat) (a : Flow) (node n : Nat) : pathFor (s.setFlow f a) node n = pathFor s node n := rfl

/-! ### A packet received (R191, R317) -/

theorem receivePacket_stopped {s : State} (stopped : bootStopped s = true) (f seq : Nat) (p : Packet) : receivePacket s f seq p = s :=
  if_pos stopped

/-- R191: a flow without the kept packet that its peer has seen. -/
theorem seenPacket_flow (s : State) (f seq : Nat) :
    ((seenPacket s f seq).flow f).kept = (s.flow f).kept.filter (·.1 != seq) ∧
      ((seenPacket s f seq).flow f).expect = (s.flow f).expect := by
  rw [seenPacket, State.flow_setFlow]
  exact ⟨rfl, rfl⟩

theorem receivePacket_seen {s : State} (running : bootStopped s = false) (f seq q : Nat) :
    receivePacket s f seq (.seen q) = seenPacket s f q := by
  rw [receivePacket, running]
  rfl

/-- R191: the packets held out of order with one more, which are delivered as far as they are next in sequence. -/
def deliverWith (s : State) (f seq : Nat) (p : Packet) : State :=
  deliverRun ((s.flow f).early.length + 1) (s.setFlow f { s.flow f with early := (s.flow f).early ++ [(seq, p)] }) f

theorem receivePacket_packet {s : State} (running : bootStopped s = false) {p : Packet} (packet : ∀ q, p ≠ .seen q) (f seq : Nat) :
    receivePacket s f seq p =
      if (seq < (s.flow f).expect || (s.flow f).early.any (·.1 == seq)) = true then transmit s (flowNode s f) f seq (.seen seq)
      else deliverWith (transmit s (flowNode s f) f seq (.seen seq)) f seq p := by
  rw [receivePacket, running, if_neg Bool.false_ne_true, deliverWith, transmit_flow]
  · dsimp only
    rw [transmit_flow]
  · exact packet

/-- R191: a packet that has come before is acknowledged again and no more. -/
theorem receivePacket_again {s : State} (running : bootStopped s = false) {p : Packet} (packet : ∀ q, p ≠ .seen q) {f seq : Nat}
    (again : seq < (s.flow f).expect ∨ (s.flow f).early.any (·.1 == seq) = true) :
    receivePacket s f seq p = transmit s (flowNode s f) f seq (.seen seq) := by
  rw [receivePacket_packet running packet]
  exact if_pos (by rw [Bool.or_eq_true, decide_eq_true_eq]; exact again)

theorem receivePacket_first {s : State} (running : bootStopped s = false) {p : Packet} (packet : ∀ q, p ≠ .seen q) {f seq : Nat}
    (due : (s.flow f).expect ≤ seq) (fresh : ∀ e ∈ (s.flow f).early, e.1 ≠ seq) :
    receivePacket s f seq p = deliverWith (transmit s (flowNode s f) f seq (.seen seq)) f seq p := by
  rw [receivePacket_packet running packet]
  refine if_neg fun again => ?_
  rw [Bool.or_eq_true, decide_eq_true_eq, List.any_eq_true] at again
  obtain old | ⟨e, held, same⟩ := again
  · omega
  · exact fresh e held (beq_iff_eq.mp same)

/-- R191: nothing is delivered while the packet that is next in sequence has not come. -/
theorem deliverRun_waits {s : State} {f : Nat} (missing : ∀ e ∈ (s.flow f).early, e.1 ≠ (s.flow f).expect) (n : Nat) :
    deliverRun n s f = s := by
  cases n with
  | zero => rfl
  | succ n =>
    rw [deliverRun, List.find?_eq_none.mpr fun e held same => missing e held (beq_iff_eq.mp same)]

theorem deliverWith_waits {s : State} {f seq : Nat} (ahead : (s.flow f).expect < seq)
    (missing : ∀ e ∈ (s.flow f).early, e.1 ≠ (s.flow f).expect) (p : Packet) :
    deliverWith s f seq p = s.setFlow f { s.flow f with early := (s.flow f).early ++ [(seq, p)] } := by
  refine deliverRun_waits (fun e held => ?_) _
  rw [State.flow_setFlow] at held ⊢
  obtain held | rfl := (List.mem_append.mp held).imp id List.mem_singleton.mp
  · exact missing e held
  · exact Nat.ne_of_gt ahead

/-- R191: a packet that is next in sequence, with none held behind it, is delivered. -/
theorem deliverWith_next {s : State} {f : Nat} (empty : (s.flow f).early = []) (p : Packet) :
    deliverWith s f (s.flow f).expect p = deliverPacket ((s.setFlow f { s.flow f with early := [((s.flow f).expect, p)] }).setFlow f
      { s.flow f with expect := (s.flow f).expect + 1, early := [] }) p := by
  rw [deliverWith, empty, List.nil_append, deliverRun, State.flow_setFlow]
  simp [deliverRun]

/-! ### A packet resent (R191) -/

section
variable {s : State} {f seq : Nat}

theorem resendPacket_unkept (unkept : (s.flow f).kept.find? (·.1 == seq) = none) : resendPacket s f seq = s := by
  rw [resendPacket, unkept]

/-- R191: a flow whose packet is tried again now. -/
def retried (s : State) (f seq : Nat) : Flow := { s.flow f with sentAt := Table.set (s.flow f).sentAt seq s.time.toNat }

/-- R191: a kept packet of a flow of traffic without a connection, tried again. -/
theorem resendPacket_kept {m : Nat} {p : Packet} (kept : (s.flow f).kept.find? (·.1 == seq) = some (m, p)) (plain : f < 65536) :
    resendPacket s f seq =
      if (pathFor s (f / 4) (packetFlits p)).isNone = true then s.setFlow f (retried s f seq)
      else transmit ((s.setFlow f (retried s f seq)).setFlow f { retried s f seq with resent := (s.flow f).resent + 1 }) (f / 4) f seq p := by
  have unconnected : ¬ 65536 ≤ f := by omega
  have node : flowNode s f = f / 4 := if_neg unconnected
  rw [resendPacket, kept]
  dsimp only
  rw [node, if_neg unconnected, State.flow_setFlow]
  rfl

theorem resendPacket_flow {m : Nat} {p : Packet} (kept : (s.flow f).kept.find? (·.1 == seq) = some (m, p)) (plain : f < 65536) :
    ∃ n, (resendPacket s f seq).flow f = { retried s f seq with resent := n } := by
  rw [resendPacket_kept kept plain]
  split
  · exact ⟨_, State.flow_setFlow ..⟩
  · rw [transmit_flow]
    exact ⟨_, State.flow_setFlow ..⟩

theorem resendPacket_pathless {m : Nat} {p : Packet} (kept : (s.flow f).kept.find? (·.1 == seq) = some (m, p)) (plain : f < 65536)
    (path : pathFor s (f / 4) (packetFlits p) = none) : (resendPacket s f seq).fab.sent = s.fab.sent := by
  rw [resendPacket_kept kept plain, path]
  rfl

theorem resendPacket_sent {m j : Nat} {p : Packet} (kept : (s.flow f).kept.find? (·.1 == seq) = some (m, p)) (plain : f < 65536)
    (path : pathFor s (f / 4) (packetFlits p) = some j) :
    (resendPacket s f seq).fab.sent = (f / 4, f, seq, p) :: s.fab.sent ∧
      ((resendPacket s f seq).flow f).resent = (s.flow f).resent + 1 := by
  have found : ¬ (pathFor s (f / 4) (packetFlits p)).isNone = true := by rw [path]; exact Bool.false_ne_true
  rw [resendPacket_kept kept plain, if_neg found]
  constructor
  · exact transmit_sent ((pathFor_setFlow ..).trans ((pathFor_setFlow ..).trans path)) ..
  · rw [transmit_flow, State.flow_setFlow]

end

/-! ### Elements removed (R192) -/

theorem removeElem_removed (s : State) (e x : Elem) : x ∈ (removeElem s e).fab.removed ↔ x = e ∨ x ∈ s.fab.removed := by
  unfold removeElem
  split
  next already =>
    refine ⟨.inr, fun h => h.elim (fun same => ?_) id⟩
    rw [same]
    exact List.contains_iff_mem.mp already
  · exact List.mem_cons

/-! ### The events (R191, R192) -/

section
variable {s : State} {r : List Event}

theorem exec_fabricPacketReceive_next {f n : Nat} {p : Packet} (h : s.flight = .fabricPacketReceive f n p :: r) :
    exec .fabricPacketReceive s = .next (receivePacket { s with flight := r } f n p) := by
  rw [exec_fabricPacketReceive, execFabricPacketReceive, h]

theorem exec_packetRetransmit_next {f n : Nat} (h : s.flight = .packetRetransmit f n :: r) :
    exec .packetRetransmit s = .next (resendPacket { s with flight := r } f n) := by
  rw [exec_packetRetransmit, execPacketRetransmit, h]

theorem exec_routeRemoval_next {e : Elem} (h : s.flight = .routeRemoval e :: r) :
    exec .routeRemoval s = .next (removeElem { s with flight := r } e) := by
  rw [exec_routeRemoval, execRouteRemoval, h]

theorem exec_peerLost_next {n : Nat} (h : s.flight = .peerLost n :: r) : exec .peerLost s = .next (losePeer { s with flight := r } n) := by
  rw [exec_peerLost, execPeerLost, h]

end

end Sys2Proof.Machine
end

section
/-! SUPPORT. Connections to a lost peer (R192, R195): setting connections going leaves the open ones open, and
each its peer. -/

namespace Sys2Proof.Machine

/-- Which peers are lost, and which connections are open to which peers, stands as it did. -/
structure Standing (s t : State) : Prop where
  lost : t.fab.lost = s.fab.lost
  peern : ∀ k, (t.conn k).peern = (s.conn k).peern
  open_ : ∀ k, (s.conn k).state = 1 → (t.conn k).state = 1

namespace Standing

variable {s t u : State}

theorem refl (s : State) : Standing s s := ⟨rfl, fun _ => rfl, fun _ h => h⟩

theorem trans (a : Standing s t) (b : Standing t u) : Standing s u :=
  ⟨b.lost.trans a.lost, fun k => (b.peern k).trans (a.peern k), fun k h => b.open_ k (a.open_ k h)⟩

theorem after (b : Standing t u) (a : Standing s t) : Standing s u := a.trans b

theorem ite {p : Prop} [Decidable p] (a : Standing s t) (b : Standing s u) : Standing s (if p then t else u) := by
  split
  · exact a
  · exact b

theorem of_conns (conns : t.fab.conns = s.fab.conns) (lost : t.fab.lost = s.fab.lost) : Standing s t :=
  ⟨lost, fun k => by rw [conn_congr conns], fun k h => by rw [conn_congr conns, h]⟩

theorem of_fabric (kept : FabricKept s t) : Standing s t := .of_conns (by rw [kept.fab]) (by rw [kept.fab])

theorem of_grows (grows : FlightGrows s t) : Standing s t := by
  obtain ⟨f, rfl⟩ := grows
  exact .of_conns rfl rfl

theorem fly (s : State) (e : Event) : Standing s (s.fly e) := .of_conns rfl rfl

theorem setConn {c : Nat} {a : Conn} (peern : a.peern = (s.conn c).peern) (open_ : (s.conn c).state = 1 → a.state = 1) :
    Standing s (s.setConn c a) := by
  refine ⟨rfl, fun k => ?_, fun k h => ?_⟩ <;> by_cases e : k = c
  · rw [e, State.conn_setConn, peern]
  · rw [State.conn_setConn_ne s a e]
  · rw [e] at h ⊢
    rw [State.conn_setConn, open_ h]
  · rw [State.conn_setConn_ne s a e, h]

theorem foldl {α : Type} {f : State → α → State} (hf : ∀ s a, Standing s (f s a)) (l : List α) (s : State) : Standing s (l.foldl f s) := by
  induction l generalizing s with
  | nil => exact .refl s
  | cons a l ih => exact (hf s a).trans (ih (f s a))

theorem foldl_fst {α β : Type} {f : State × β → α → State × β} (hf : ∀ p a, Standing p.1 (f p a).1) (l : List α) (p : State × β) :
    Standing p.1 (l.foldl f p).1 := by
  induction l generalizing p with
  | nil => exact .refl _
  | cons a l ih => exact (hf p a).trans (ih (f p a))

theorem of_fst {α : Type} {p : State × α} {a : α} (e : p = (t, a)) (stands : Standing s p.1) : Standing s t := by
  subst e
  exact stands

end Standing

/-! ### What a command does (R181, R182, R184) -/

theorem transmit_lost (s : State) (node flow seq : Nat) (p : Packet) : (transmit s node flow seq p).fab.lost = s.fab.lost := by
  unfold transmit
  split <;> rfl

theorem connSend_standing (s : State) (k : Nat) (p : Packet) : Standing s (connSend s k p) := by
  unfold connSend emitPacket
  exact .of_conns (transmit_conns (s.setFlow (flowConn k) _) ..).1 (transmit_lost (s.setFlow (flowConn k) _) ..)

theorem raiseCount_eq (n : Nat) (a : Conn) :
    raiseCount n a = { a with queue := (raiseCount n a).queue, count := (raiseCount n a).count } := by
  fun_induction raiseCount n a
  · rfl
  next ih => rw [ih]
  · rfl
  · rfl

theorem settleConn_peern (a : Conn) : (settleConn a).peern = a.peern := by
  rw [settleConn, raiseCount_eq]
  dsimp only
  split <;> rfl

theorem settleConn_open {a : Conn} (open_ : a.state = 1) : (settleConn a).state = 1 := by
  rw [settleConn, raiseCount_eq]
  dsimp only
  rw [if_neg fun closing => absurd (open_.symm.trans closing.1) (by decide)]
  exact open_

section
variable (c : Nat) (s : State)

theorem setConnCmd_standing (d : Cmd) : Standing s (setConnCmd s c d) := .setConn rfl id

theorem settled_standing {a : Conn} (peern : a.peern = (s.conn c).peern) (state : a.state = (s.conn c).state) :
    Standing s (s.setConn c (settleConn a)) :=
  .setConn ((settleConn_peern a).trans peern) fun h => settleConn_open (state.trans h)

theorem endConnCmd_standing (d : Cmd) (code : Nat) : Standing s (endConnCmd s c d code) := by
  have counted : ∀ n, Standing s (if code = 0 ∧ n ≠ 0 then countAt s d.hart d.tag evFabric n else s) := fun _ =>
    .ite (.of_fabric (.of_performed (countAt_performs ..))) (.refl s)
  exact (((counted _).trans (.fly ..)).trans (setConnCmd_standing ..)).trans (settled_standing _ _ rfl rfl)

theorem localViolation_standing (d : Cmd) (va : Word) (acc : Nat) : Standing s (localViolation s c d va acc) :=
  (endConnCmd_standing ..).after (.of_conns rfl rfl)

theorem stallConn_standing (d : Cmd) (stage : Nat) (addr : Word) (acc : Nat) : Standing s (stallConn s c d stage addr acc) :=
  (setConnCmd_standing ..).after (.of_conns rfl rfl)

theorem putPackets_standing (d : Cmd) (bs : EngBytes) (whole : Bool) : Standing s (putPackets s c d bs whole) :=
  Standing.foldl_fst (fun _ _ => connSend_standing ..) _ (s, d.off)

theorem startConnCmd_standing (d : Cmd) : Standing s (startConnCmd s c d).1 := by
  have fabric : FabricKept s (forkStores s d) := .ite (.of_performed (performOwn_performs ..)) (.refl s)
  have conn := conn_congr (congrArg FabricSys.conns fabric.fab) c
  have forked := Standing.of_fabric fabric
  have reads (u : State) core ctx who va n : Standing u (readPrefix u core ctx who va n).1 := .of_fabric (readPrefix_fabric ..)
  unfold startConnCmd
  split
  · exact forked.trans (endConnCmd_standing ..)
  · split
    · have put {core ctx who va n bs whole} {p : Prop} [Decidable p] : Standing s (if p then
          putPackets (readPrefix (forkStores s d) core ctx who va n).1 c d bs whole else (readPrefix (forkStores s d) core ctx who va n).1) :=
        .ite ((putPackets_standing ..).after ((reads ..).after forked)) ((reads ..).after forked)
      dsimp only
      split
      · exact (setConnCmd_standing ..).after put
      · exact (stallConn_standing ..).after put
      · exact (localViolation_standing ..).after put
    · exact (setConnCmd_standing ..).after ((connSend_standing ..).after forked)
    · dsimp only
      generalize retried : (if decide ((s.conn c).backoff ≠ 0) = true then
        (forkStores s d).setConn c { s.conn c with refusedRef := d.id } else forkStores s d) = u
      have again : Standing s u := by
        subst retried
        exact .ite (forked.trans (.setConn (by rw [conn]) (by rw [conn]; exact id))) forked
      split
      · exact (endConnCmd_standing ..).after forked
      · split
        · exact (setConnCmd_standing ..).after ((connSend_standing ..).after again)
        · split
          · exact (setConnCmd_standing ..).after ((connSend_standing ..).after ((reads ..).after again))
          · exact (stallConn_standing ..).after ((reads ..).after again)
          · exact (localViolation_standing ..).after ((reads ..).after again)

/-! ### The queues of all connections (R183) -/

theorem pumpGo_standing (q : List ConnItem) : Standing s (pumpGo s c q) := by
  fun_induction pumpGo s c q
  · exact .refl _
  next ih => exact ih.after (settled_standing _ _ rfl rfl)
  · exact .refl _
  next ih => exact ih
  · exact .refl _
  next ih => exact ih
  next started => exact .of_fst started (startConnCmd_standing ..)
  next started ih => exact ih.after (.of_fst started (startConnCmd_standing ..))

theorem pumpRounds_standing (n : Nat) : Standing s (pumpRounds n s) := by
  induction n generalizing s with
  | zero => exact .refl s
  | succ n ih => exact (Standing.foldl (fun s c => pumpGo_standing c s _) _ s).trans (ih _)

theorem pumpAll_standing : Standing s (pumpAll s) := pumpRounds_standing s _

end

/-! ### Connections lost one after another (R192, R195) -/

/-- A connection is lost, with nothing left in its queue. -/
def LostConn (s : State) (c : Nat) : Prop := (s.conn c).state = 2 ∧ (s.conn c).queue = []

/-- R192: a connection in use is lost where its peer is the node. -/
def loseConnTo (node : Nat) (s : State) (c : Nat) : State :=
  if (s.conn c).peern = node ∧ ((s.conn c).state = 1 ∨ (s.conn c).state = 3) then loseConn s c else s

theorem loseConn_lost (s : State) (c : Nat) : LostConn (loseConn s c) c :=
  ⟨(emptyConn_emptied ..).state, (emptyConn_emptied ..).queue⟩

/-- What the loss of connection c leaves of the others. -/
structure LosesOnly (c : Nat) (s t : State) : Prop where
  lost : t.fab.lost = s.fab.lost
  gone : ∀ k, k ≠ c → LostConn s k → LostConn t k
  inUse : ∀ k, k ≠ c → (s.conn k).state = 1 → (t.conn k).state = 1 ∧ (t.conn k).peern = (s.conn k).peern

theorem loseConn_only (s : State) (c : Nat) : LosesOnly c s (loseConn s c) := by
  rw [loseConn, emptyConn_eq]
  generalize next : emptied s c _ = e
  have others (k : Nat) (ne : k ≠ c) : e.conn k = s.conn k := by
    rw [← next]
    exact State.conn_setConn_ne s _ ne
  have listed : e.fab.lost = s.fab.lost := by rw [← next]; rfl
  have dropped : FlightGrows e ((s.conn c).queue.foldl dropItem e) := flightGrows_foldl dropItem_grows ..
  have stands := (Standing.of_grows dropped).trans (pumpAll_standing _)
  generalize (s.conn c).queue.foldl dropItem e = u at dropped stands
  have kept (k : Nat) : u.conn k = e.conn k := by
    obtain ⟨f, rfl⟩ := dropped
    rfl
  refine ⟨stands.lost.trans listed, fun k ne gone => ?_, fun k ne one => ?_⟩
  · have before := (kept k).trans (others k ne)
    rw [LostConn, (pumpAll_pumped u).idle k (by rw [before]; exact gone.2), before]
    exact gone
  · rw [← others k ne] at one ⊢
    exact ⟨stands.open_ k one, stands.peern k⟩

section
variable {node : Nat}

theorem loseConnTo_listed (s : State) (c : Nat) : (loseConnTo node s c).fab.lost = s.fab.lost := by
  unfold loseConnTo
  split
  · exact (loseConn_only s c).lost
  · rfl

theorem loseConnTo_gone {s : State} {k : Nat} (gone : LostConn s k) (c : Nat) : LostConn (loseConnTo node s c) k := by
  unfold loseConnTo
  split
  next inUse =>
    refine (loseConn_only s c).gone k (fun same => ?_) gone
    rw [← same, gone.1] at inUse
    omega
  · exact gone

theorem loseConnTo_hit {s : State} {c : Nat} (peern : (s.conn c).peern = node) (one : (s.conn c).state = 1) :
    LostConn (loseConnTo node s c) c := by
  rw [loseConnTo, if_pos ⟨peern, .inl one⟩]
  exact loseConn_lost s c

theorem loseConnTo_inUse {s : State} {k c : Nat} (ne : k ≠ c) (peern : (s.conn k).peern = node) (one : (s.conn k).state = 1) :
    ((loseConnTo node s c).conn k).peern = node ∧ ((loseConnTo node s c).conn k).state = 1 := by
  unfold loseConnTo
  split
  · obtain ⟨still, same⟩ := (loseConn_only s c).inUse k ne one
    exact ⟨same.trans peern, still⟩
  · exact ⟨peern, one⟩

theorem loseConnsTo_listed (keys : List Nat) (s : State) : (keys.foldl (loseConnTo node) s).fab.lost = s.fab.lost := by
  induction keys generalizing s with
  | nil => rfl
  | cons c keys ih => exact (ih _).trans (loseConnTo_listed s c)

theorem loseConnsTo_gone {k : Nat} (keys : List Nat) {s : State} (gone : LostConn s k) : LostConn (keys.foldl (loseConnTo node) s) k := by
  induction keys generalizing s with
  | nil => exact gone
  | cons c keys ih => exact ih (loseConnTo_gone gone c)

theorem loseConnsTo_hit {k : Nat} {keys : List Nat} (listed : k ∈ keys) {s : State} (peern : (s.conn k).peern = node)
    (one : (s.conn k).state = 1) : LostConn (keys.foldl (loseConnTo node) s) k := by
  induction keys generalizing s with
  | nil => exact absurd listed List.not_mem_nil
  | cons c keys ih =>
    by_cases same : k = c
    · subst same
      exact loseConnsTo_gone keys (loseConnTo_hit peern one)
    · obtain ⟨peern', still⟩ := loseConnTo_inUse same peern one
      exact ih ((List.mem_cons.mp listed).resolve_left same) peern' still

end

/-! ### A peer lost (R192) -/

/-- R192: the nodes lost, with one more, which no longer counts as cut off. -/
def withLost (s : State) (node : Nat) : State :=
  { s with fab := { s.fab with
      lost := if s.fab.lost.contains node then s.fab.lost else node :: s.fab.lost, cut := Table.erase s.fab.cut node } }

theorem mem_withLost (s : State) (node : Nat) : node ∈ (withLost s node).fab.lost := by
  unfold withLost
  dsimp only
  split
  next already => exact List.contains_iff_mem.mp already
  · exact List.mem_cons_self

/-- R192: what a flow toward a lost peer keeps is answered and dropped. -/
def dropKept (node : Nat) (s : State) (net : Nat) : State :=
  let f := s.flow (flowTo node net)
  (f.open_ ++ f.kept.map (·.2)).foldl losePacket (s.setFlow (flowTo node net) { f with kept := [], sentAt := [], open_ := [] })

theorem losePeer_eq (s : State) (node : Nat) : losePeer s node =
    [netRequest, netReply, netSystem].foldl (dropKept node) ((Table.keys s.fab.conns).foldl (loseConnTo node) (withLost s node)) := rfl

theorem losePacket_grows (s : State) (p : Packet) : FlightGrows s (losePacket s p) := by
  unfold losePacket
  split
  · split
    · exact ⟨_, rfl⟩
    · exact .refl s
  · exact ⟨_, rfl⟩
  · exact .refl s

theorem dropKept_conns (node : Nat) (s : State) (net : Nat) :
    (dropKept node s net).fab.conns = s.fab.conns ∧ (dropKept node s net).fab.lost = s.fab.lost := by
  unfold dropKept
  dsimp only
  generalize dropped : List.foldl losePacket _ _ = t
  obtain ⟨f, rfl⟩ : FlightGrows _ t := dropped ▸ flightGrows_foldl losePacket_grows ..
  exact ⟨rfl, rfl⟩

theorem dropKepts_conns (node : Nat) (nets : List Nat) (s : State) :
    (nets.foldl (dropKept node) s).fab.conns = s.fab.conns ∧ (nets.foldl (dropKept node) s).fab.lost = s.fab.lost := by
  induction nets generalizing s with
  | nil => exact ⟨rfl, rfl⟩
  | cons net nets ih =>
    obtain ⟨⟨conns, lost⟩, conns', lost'⟩ := And.intro (dropKept_conns node s net) (ih (dropKept node s net))
    exact ⟨conns'.trans conns, lost'.trans lost⟩

theorem losePeer_listed (s : State) (node : Nat) : node ∈ (losePeer s node).fab.lost := by
  rw [losePeer_eq, (dropKepts_conns ..).2, loseConnsTo_listed]
  exact mem_withLost s node

theorem losePeer_conn {s : State} {node c : Nat} (listed : c ∈ Table.keys s.fab.conns) (peern : (s.conn c).peern = node)
    (one : (s.conn c).state = 1) : LostConn (losePeer s node) c := by
  rw [losePeer_eq, LostConn, conn_congr (dropKepts_conns ..).1]
  exact loseConnsTo_hit (s := withLost s node) listed peern one

end Sys2Proof.Machine
end

section
/-! SUPPORT. The events of links, lanes, packets, routes and peers, and O54. -/

namespace Sys2Proof.Machine

section
variable {s : State} {r : List Event} {k : Nat}

/-- R189: an event that moves a link out of one state, by the state the link is in. -/
theorem moveLink_event {i : Instr} {src dst : Nat} (h : exec i s = .next (moveLink { s with flight := r } k src dst)) :
    ((s.link k).state = src → k < 18 → bootStopped s = false →
      exec i s = .next (State.setLink { s with flight := r } k { s.link k with state := dst, fails := 0 })) ∧
    ((s.link k).state ≠ src ∨ bootStopped s = true → exec i s = .next { s with flight := r }) :=
  ⟨fun state known running => h.trans (congrArg _ (moveLink_moves (s := { s with flight := r }) state known running)),
    fun no => h.trans (congrArg _ (moveLink_stays (s := { s with flight := r }) no))⟩

/-- R189, R323: a link that begins to quiesce. -/
theorem quiesce_begins (state : (s.link k).state = 2) (known : k < 18) (running : bootStopped s = false) :
    let t := kickQuiesced (moveLink s k 2 3) k
    t.link k = { s.link k with state := 3, fails := 0 } ∧
      (.linkQuiesced k ∈ t.flight ↔ (s.link k).buf = [] ∨ .linkQuiesced k ∈ s.flight) ∧ ∀ j, j ≠ k → t.link j = s.link j := by
  intro t
  have moved : t = kickQuiesced (s.setLink k { s.link k with state := 3, fails := 0 }) k :=
    congrArg (kickQuiesced · k) (moveLink_moves state known running)
  have here := State.link_setLink s k { s.link k with state := 3, fails := 0 }
  have due := linkQuiesced_mem_kick (congrArg Link.state here)
  rw [here] at due
  rw [moved, kickQuiesced_link]
  exact ⟨here, due, fun j ne => (kickQuiesced_link ..).trans (State.link_setLink_ne s _ ne)⟩

/-- R188: the spare takes the place of the first bad lane, and the link goes down with the second. -/
theorem spareLane_bad {lane : Nat} (data : lane < 8) (carries : (s.link k).carries = true) :
    let b := (spareLane s k lane).link k
    b.badlanes.getLsbD lane = true ∧
      ((s.link k).spared = 15 → b.spared = lane ∧ b.spares = (s.link k).spares + 1 ∧ b.state = (s.link k).state) ∧
      ((s.link k).spared ≠ 15 → b.state = 0 ∧ b.spared = (s.link k).spared) := by
  intro b
  have marked := (s.link k).laneBad_marked data
  have links := congrArg (State.link · k) (spareLane_data data carries)
  by_cases unused : (s.link k).spared = 15
  · have here : b = { (s.link k).laneBad lane with spared := lane, spares := (s.link k).spares + 1 } := by
      refine links.trans ?_
      rw [if_pos unused]
      exact State.link_setLink ..
    rw [here]
    exact ⟨marked, fun _ => ⟨rfl, rfl, rfl⟩, (absurd unused ·)⟩
  · have here : b = ((s.link k).laneBad lane).down := by
      refine links.trans ?_
      rw [if_neg unused]
      exact linkDown_link ..
    rw [here]
    exact ⟨marked, (absurd · unused), fun _ => ⟨rfl, rfl⟩⟩

/-- R191: what the first copy of a put that is next in sequence leaves of the package. -/
theorem receivePacket_put {f : Nat} (running : bootStopped s = false) (empty : (s.flow f).early = []) (q : Put) :
    let t := receivePacket s f (s.flow f).expect (.put q)
    (t.flow f).expect = (s.flow f).expect + 1 ∧ t.flight = s.flight ++ [.putArrival { q with sig := q.sig.map fun _ => sigAll }] ∧
      t.harts = s.harts ∧ t.ms = s.ms := by
  have fresh : ∀ e ∈ (s.flow f).early, e.1 ≠ (s.flow f).expect := by
    rw [empty]
    exact fun _ held => absurd held List.not_mem_nil
  have packet : ∀ n, Packet.put q ≠ .seen n := nofun
  have flow := transmit_flow s (flowNode s f) f (s.flow f).expect (.seen (s.flow f).expect) f
  have frame := transmit_eq s (flowNode s f) f (s.flow f).expect (.seen (s.flow f).expect)
  dsimp only
  rw [receivePacket_first running packet (Nat.le_refl _) fresh]
  generalize transmit s (flowNode s f) f (s.flow f).expect (.seen (s.flow f).expect) = v at flow frame
  rw [← flow, deliverWith_next (by rw [flow, empty]), deliverPacket]
  refine ⟨congrArg Flow.expect (State.flow_setFlow ..), ?_⟩
  rw [frame]
  exact ⟨rfl, rfl, rfl⟩

end

/-- Settles O54, event by event: each is one function of the model, and its clauses are that function's cases. -/
theorem linkEvents : Obligations.LinkEvents := by
  unfold Obligations.LinkEvents
  intro s r k u a same moves
  refine ⟨fun h => moveLink_event (exec_linkPeerSignal_next h), fun h => moveLink_event (exec_lnkcmdDetach_next h),
    fun h => moveLink_event (exec_lnkcmdResume_next h), fun h => moveLink_event (exec_lnkcmdReattach_next h),
    fun h => ?quiesced, fun h => ?quiesce, fun h => ?silent, fun crc fail h => ?replay, fun lane data h => ?lane, fun h => ?spare,
    fun ok peer spared h => ?trained, fun f n p h => ?received, fun f n h => ?resent, fun e h => ?removed, fun n h => ?lost⟩
  case quiesced =>
    have next := exec_linkQuiesced_next h
    refine ⟨fun state empty known running => next.trans (congrArg _ ?_), fun no => next.trans (congrArg _ (quiesceLink_stays (s := u) no))⟩
    exact (quiesceLink_drained (s := u) empty).trans (moveLink_moves (s := u) state known running)
  case quiesce =>
    rw [exec_lnkcmdQuiesce_next h]
    refine ⟨fun state known running => ⟨_, rfl, quiesce_begins (s := u) state known running⟩, fun no => ⟨_, rfl, ?_⟩⟩
    rw [moveLink_stays (s := u) no]
    exact kickQuiesced_eq u k
  case silent =>
    have next := exec_linkPeerSilent_next h
    exact ⟨fun heard => next.trans (congrArg _ (silentLink_down (s := u) heard)),
      fun no => next.trans (congrArg _ (silentLink_stays (s := u) no))⟩
  case replay =>
    have next := exec_linkReplay_next h
    exact ⟨fun no => next.trans (congrArg _ (replayLink_stays (s := u) (mt (Link.carries_iff a).mp no))),
      fun carries => ⟨_, next, replayLink_replays (s := u) ((Link.carries_iff a).mpr carries)⟩⟩
  case lane =>
    have next := exec_laneSpare_next h
    exact ⟨fun no => next.trans (congrArg _ (spareLane_stays (s := u) (mt (Link.carries_iff a).mp no))),
      fun carries => ⟨_, next, spareLane_bad (s := u) data ((Link.carries_iff a).mpr carries)⟩⟩
  case spare =>
    have next := exec_laneSpare_next h
    refine ⟨fun carries used => ⟨_, next, ?_⟩, fun no => next.trans (congrArg _ ?_)⟩
    · rw [spareLane_spare (s := u) ((Link.carries_iff a).mpr carries) used, linkDown_link]
      rfl
    · obtain no | unused := no
      · exact spareLane_stays (s := u) (mt (Link.carries_iff a).mp no)
      · exact spareLane_unused (s := u) unused
  case trained =>
    have next := exec_linkTrained_next h
    refine ⟨fun no => next.trans (congrArg _ (trainLink_stays (s := u) no)), fun training running done other => ⟨_, next, ?_⟩,
      fun training running failed => ⟨_, next, ?_⟩⟩
    · have meets : (ok && peer != u.plat.node) = true := by rw [done, Bool.true_and, bne_iff_ne]; exact other
      obtain ⟨state, lock, met⟩ := trainLink_training (s := u) (spared := spared) training running meets
      exact ⟨state, met rfl, lock⟩
    · have alone : (ok && peer != u.plat.node) = false := by
        obtain failed | own := failed
        · rw [failed, Bool.false_and]
        · rw [show peer = u.plat.node from own, bne_self_eq_false, Bool.and_false]
      obtain ⟨state, lock, -⟩ := trainLink_training (s := u) (spared := spared) training running alone
      exact ⟨state, lock⟩
  case received =>
    intro w v
    have next := exec_fabricPacketReceive_next h
    refine ⟨fun stopped => next.trans (congrArg _ (receivePacket_stopped (s := u) stopped ..)), fun running => ⟨fun q seen => ⟨_, next, ?_⟩,
      fun packet again => next.trans (congrArg _ (receivePacket_again (s := u) running packet again)),
      fun packet ahead held => next.trans (congrArg _ ?_), fun q due empty put => ⟨_, next, ?_⟩⟩⟩
    · subst seen
      rw [receivePacket_seen (s := u) running]
      obtain ⟨kept, expect⟩ := seenPacket_flow u f q
      exact ⟨kept, expect, rfl, rfl, rfl⟩
    · have flow : v.flow f = w := transmit_flow ..
      rw [receivePacket_first (s := u) running packet (Nat.le_of_lt ahead) fun e m => (held e m).1]
      refine (deliverWith_waits (s := v) (by rw [flow]; exact ahead) ?_ p).trans (by rw [flow])
      rw [flow]
      exact fun e m => (held e m).2
    · subst due put
      exact receivePacket_put (s := u) running empty q
  case resent =>
    have next := exec_packetRetransmit_next h
    refine ⟨fun unkept => next.trans (congrArg _ (resendPacket_unkept (s := u) unkept)), fun m p kept plain => ⟨_, next, ?_⟩⟩
    obtain ⟨tries, flow⟩ := resendPacket_flow (s := u) kept plain
    refine ⟨(congrArg Flow.kept flow :), ?_, resendPacket_pathless (s := u) kept plain, fun j path => resendPacket_sent (s := u) kept plain path⟩
    rw [flow]
    exact Table.get_set_self ..
  case removed => exact ⟨_, exec_routeRemoval_next h, removeElem_removed u e⟩
  case lost =>
    exact ⟨_, exec_peerLost_next h, losePeer_listed u n, fun c listed peern one => losePeer_conn (s := u) listed peern one⟩

end Sys2Proof.Machine
end
